-- ==== Sys2Proof/Word.lean ====
section
/-! DEFINITION. The words of the GZ-960: registers are 32 or 64 bits (R5, R8), a dword is 32 bits
and a word 64 bits, a data unit is 4 KiB (R248). Tables of entities (slices, zones, blocks, ...) are
lists of key and value pairs with rising keys. -/

namespace Sys2Proof

/-- A 32-bit dword (R5). -/
abbrev Dword := BitVec 32

/-- A 64-bit word (R5). -/
abbrev Word := BitVec 64

/-- The content of one 4 KiB data unit (R248), its 4,096 bytes read as one little-endian number. -/
abbrev UnitData := Nat

/-- A finite table keyed by a number; canonical form: keys strictly rising (`Machine.Tbl.wf`). -/
abbrev Tbl (α : Type) := List (Nat × α)

/-- The four digits of a PCIe, Sward or die number are plain numbers; a chip number is 0 (the crown) to 3 (R318). -/
abbrev Chip := Nat

end Sys2Proof
end

