-- ==== Sys2Proof/Syntax.lean ====
section
/-! DEFINITION. The commands of the GZ-960 block: one constructor of `Instr` for each row of
spec/opcode_table.json, with the operands that come from outside the chip (a host's entry and its data,
a register access, a media or link response, a clock or supply event). -/

namespace Sys2Proof

/-- A 64-byte NVMe submission entry, as fetched (R69, R248-R251). -/
structure SqEntry where
  /-- CDW0 [7:0] -/
  opc : Nat
  /-- CDW0 [9:8] -/
  fuse : Nat
  /-- CDW0 [15:14] -/
  psdt : Nat
  /-- CDW0 [31:16] -/
  cid : Nat
  nsid : Nat
  cdw2 : Dword
  cdw3 : Dword
  /-- CDW4-CDW5: the metadata pointer -/
  mptr : Word
  /-- CDW6-CDW7: PRP1, the first half of SGL1, or BASE (R251) -/
  dptr0 : Word
  /-- CDW8-CDW9: PRP2, the second half of SGL1, or TABLE (R251) -/
  dptr1 : Word
  cdw10 : Dword
  cdw11 : Dword
  cdw12 : Dword
  cdw13 : Dword
  cdw14 : Dword
  cdw15 : Dword
  deriving DecidableEq, Repr

/-- The 4 KiB structure of Create Slice and Slice Resources (R90). Reserved spans are carried as numbers. -/
structure SliceData where
  version : Nat
  qpairs : Nat
  vecBase : Nat
  vecCount : Nat
  ctxReserve : Nat
  ctxLimit : Nat
  readPool : Nat
  stagePool : Nat
  lclass : Nat
  weight : Nat
  raAllow : Nat
  fenceCount : Nat
  flags : Nat
  rsv30 : Nat
  quotaProv : Nat
  quotaWrite : Nat
  action : Nat
  rsv49 : Nat
  change : Nat
  rsv52 : Nat
  /-- FENCE_0-FENCE_7, each a 256-bit die-group map -/
  fences : List (BitVec 256)
  /-- HANDLE_0-HANDLE_255, one byte each -/
  handles : List Nat
  rsv576 : Nat
  deriving DecidableEq, Repr

/-- The Namespace Management create structure (R75, R144). -/
structure NsData where
  nsze : Nat
  ncap : Nat
  flbas : Nat
  dps : Nat
  /-- bytes 3072-3073 -/
  owner : BitVec 16
  /-- bytes 3074-3075 -/
  conv : Nat
  deriving DecidableEq, Repr

/-- The Key Rotate structure (R310). -/
structure KeyData where
  version : Nat
  action : Nat
  rsv3 : Nat
  expectGen : Nat
  rsv8 : Nat
  deriving DecidableEq, Repr

/-- One Dataset Management range (R195, R197). -/
structure DsmRange where
  slba : Nat
  nlb : Nat
  deriving DecidableEq, Repr

/-- The media profile of the Ennik image (R419). -/
structure Media where
  page : Nat
  planes : Nat
  spare : Nat
  blocks : Nat
  rows : Nat
  suspMax : Nat
  faTemp : Nat
  pair : Nat
  repl : Nat
  retireMax : Nat
  rated : Nat
  ecmax : Nat
  eyeMin : Nat
  tout : Dword
  timing : List Dword
  tsProg : Nat
  tsErase : Nat
  tprog : Nat
  tbers : Nat
  tread : Nat
  tprogSlc : Nat
  tbersSlc : Nat
  /-- the remaining bytes of the 180-byte value, in order -/
  other : List Nat
  deriving DecidableEq, Repr

/-- The configuration section of an Ennik image, record by record (R416-R419). -/
structure Image where
  revision : Nat
  signed : Bool
  /-- the section is well formed under R417 (tags, lengths) and, where the OEM class asks for it, its signature verifies (R416) -/
  formOk : Bool
  /-- IDENT -/
  vid : Nat
  ssvid : Nat
  ieee : Nat
  sn : List Nat
  mn : List Nat
  subnqn : List Nat
  /-- ROLE -/
  crown : Bool
  named : BitVec 4
  joinwait : Nat
  auto : Bool
  /-- PAIR: (PORT, SHA-384 of the peer identity public key) -/
  pairs : List (Nat × BitVec 384)
  /-- PF -/
  pfQueues : Nat
  pfWeight : Nat
  stopIdle : Nat
  pfRaAllow : Nat
  /-- DRAM -/
  dramGib : Nat
  dramRanks : Nat
  dramLinkEcc : Bool
  dramEyeRd : Nat
  dramEyeWr : Nat
  dqsLimit : Nat
  /-- DRCTL -/
  nbrProb : Nat
  nbrDist : Bool
  rtOn : Nat
  rtOff : Nat
  drcCeThr : Dword
  eccCeThr : Dword
  /-- LAT -/
  budget0 : Nat
  flags0 : BitVec 3
  budget1 : Nat
  flags1 : BitVec 3
  raDepth : Nat
  rdBurst : Nat
  duty : Nat
  /-- KEY -/
  limitLog2 : Nat
  /-- ALARM -/
  alarm : List Nat
  /-- BRM -/
  vchg : Nat
  vstop : Nat
  isave : Nat
  testPeriod : Nat
  eta : Nat
  rtest : Nat
  cmin : Nat
  esrmax : Nat
  iset : Nat
  /-- MON -/
  sagv : Nat
  div11 : Nat
  div12 : Nat
  ichgFs : Nat
  ntcB : Nat
  ntcR25 : Nat
  thermMap : Nat
  /-- THM -/
  down : Nat
  /-- LOCAL -/
  retrain : Nat
  logRows : Nat
  stageAge : Nat
  migZones : Nat
  /-- LOCKS -/
  locks : BitVec 8
  media : Media
  /-- ZONE: true is QLC (0b11), false TLC (0b10) -/
  qlc : Bool
  /-- LAYOUT -/
  decl : Bool
  spareE : Nat
  seed : BitVec 16
  /-- SLICE1023: PASID and structure -/
  slice1023 : Option (Nat × SliceData)
  pfFence : BitVec 256
  /-- SHA-256 of records 0x0100-0x01ff as stored (R420) -/
  digest : BitVec 256
  deriving DecidableEq, Repr

/-- The manifest of a slot (R443). -/
structure Manifest where
  revision : Nat
  fr : List Nat
  stepping : Nat
  meter : Bool
  ledgerWrite : Nat
  ledgerMin : Nat
  ledgerMax : Nat
  svn : List Nat
  /-- parts of the crown's role, and of the member's role, are all listed -/
  crownParts : Bool
  memberParts : Bool
  deriving DecidableEq, Repr

/-- What the boot ROM finds in one slot of the NOR (R411, R412). -/
structure SlotFind where
  headerOk : Bool
  manifestOk : Bool
  manifest : Manifest
  image : Image
  hashesOk : Bool
  deriving DecidableEq, Repr

/-- Pages of a zone, or of its log row, that a boot after an unclean stop finds programmed and cannot release: (page row, with the
log row's numbered from 65,536 on, and role position) (R223, R224). -/
structure ResyncZone where
  key : Nat
  bad : List (Nat × Nat)
  deriving DecidableEq, Repr

/-- What a DRAM channel answers at boot (R273, R275): capacity in GiB (0: no answer), ranks, support of link ECC, and the narrowest read
and write eyes at each rate code, in 1/64 UI, none where training fails. -/
structure DramIn where
  gib : Nat
  ranks : Nat
  linkEcc : Bool
  /-- by rate code less 1: 4,267 MT/s first, 8,533 last -/
  eyes : List (Option (Nat × Nat))
  deriving DecidableEq, Repr

/-- What the outside world answers during one boot (R422). -/
structure BootIn where
  /-- PERST_N is deasserted -/
  perstN : Bool
  bonnetOk : Bool
  norOk : Bool
  norMib : Nat
  norMhz : Nat
  norSuspend : Bool
  /-- a copy of the boot record is valid (R409) -/
  recordOk : Bool
  slotA : SlotFind
  slotB : SlotFind
  /-- per DRAM channel (R275) -/
  dram : List DramIn
  /-- per flash channel and timing set: the narrowest read and write eyes in 1/64 UI, none where a step of R175 fails -/
  chTrain : List (List (Option (Nat × Nat)))
  /-- chip enables per channel and LUNs per chip enable that answer (R172) -/
  ces : Nat
  luns : Nat
  /-- dies whose LUN did not answer or whose parameter page differs (R172, R175) -/
  badDies : List Nat
  /-- an anchor exists but none verifies (R425, code 7) -/
  anchorBad : Bool
  /-- the settings ledger cannot be read under any fallback (R425, code 8) -/
  ledgerBad : Bool
  /-- factory bad blocks found at first configuration: (die, block) -/
  factoryBad : List (Nat × Nat)
  /-- the 32 sentinel ages in seconds (R182), and their age at the stop -/
  sentinels : List Nat
  sentinelBase : Nat
  resync : List ResyncZone
  resyncSecs : Nat
  /-- the intent record is present and complete (R383) -/
  intentOk : Bool
  /-- ms to I/O acceptance -/
  ms : Nat
  /-- MSEAL_OPEN, filtered -/
  sealOpen : Bool
  /-- a new meter program verifies (R341, R361) -/
  meterOk : Bool
  deriving DecidableEq, Repr

/-- Who accesses a mailbox page (R104): a tenant through the slice page with the PASID its request carries, or the manager. -/
inductive Party where
  | tenant (pasid : Option Nat)
  | manager
  deriving DecidableEq, Repr

/-- The form of one non-posted response that is a bus error (R254). -/
inductive BusCause where
  | unsupported | completerAbort | timeout | poisoned
  deriving DecidableEq, Repr

/-- Which request of a channel failed (R271, SOURCE). -/
inductive BusSource where
  | fetch | prpList | sglSegment | offsetTable | data | metadata
  deriving DecidableEq, Repr

/-- Descriptor faults (R253), in the order of the DESC codes of R271. -/
inductive DescFault where
  | fetch65 | endedShort | countRange | tableCross | misaligned | unsupportedType | prpOffset
  | overflow | reserved | segLength
  deriving DecidableEq, Repr

/-- What happened to one data unit of a transfer (R248, R253, R312). -/
inductive UnitOutcome where
  /-- moved; `retried`: the first inverse check failed and the second passed -/
  | ok (retried : Bool)
  /-- the inverse check failed twice (R312) -/
  | mismatch
  /-- the guard of LBAF1 failed (R180) -/
  | guardFail
  deriving DecidableEq, Repr

/-- The fences of R260. -/
inductive FenceKind where
  | staging | accumulator | release | copy | metadata
  deriving DecidableEq, Repr

/-- The header of a Ubpel frame (R320) as received, and whether its GCM tag passes. -/
structure Frame where
  port : Nat
  fseq : Nat
  vc : Nat
  mseq : Nat
  len : Nat
  tagOk : Bool
  deriving DecidableEq, Repr

/-- HELLO contents that are compared (R324 step 2). -/
structure HelloMsg where
  crown : Bool
  chip : Nat
  part : Nat
  stepping : Nat
  keyHash : BitVec 384
  nonce : BitVec 256
  deriving DecidableEq, Repr

/-- IDENT contents (R324 step 5). -/
structure IdentMsg where
  cfgDigest : BitVec 256
  revision : Nat
  secver : List Nat
  dies : Nat
  check : Nat
  shared : BitVec 256
  islandTime : Nat
  /-- the member's other slot holds the crown's revision, prepared (R446) -/
  prepared : Bool
  deriving DecidableEq, Repr

/-- A row set of a zone that lies on the receiving chip: (die, block) in role order, with the dies in that chip's own numbers. -/
structure RowImg where
  pos : List (Nat × Option Nat)
  seed : BitVec 16
  fence : BitVec 256
  deriving DecidableEq, Repr

/-- A zone of the cascade-wide table as a frame carries it (R329, R335): its ZS code, 0 for a conventional zone; its owner and the
first zone index of its namespace (R210); its rows, where they lie on the receiving chip. -/
structure ZoneImg where
  key : Nat
  zs : Nat
  wp : Nat
  cap : Nat
  padded : Bool
  owner : Nat
  base : Nat
  row : Option RowImg
  log : Option RowImg
  /-- its zone key record: offsets and generations (R306) -/
  keys : List (Nat × Nat)
  deriving DecidableEq, Repr

/-- A commit record but for its stamp (R47). -/
structure RecImg where
  owner : Nat
  kind : Nat
  resolved : Bool
  status : Nat
  nsid : Nat
  zone : Nat
  value : Nat
  deriving DecidableEq, Repr

/-- Media events of a member (R215, R329). -/
inductive MediaKind where
  | dieFail (die cause : Nat) | programFail (die block : Nat) | eraseFail (die block : Nat) | rowRebuilt (zone row : Nat)
  /-- the copy of a migrated zone is done (R222) -/
  | migrated (zone : Nat)
  /-- content of a zone can be neither read nor reconstructed (R219, R335) -/
  | zoneLost (zone : Nat)
  deriving DecidableEq, Repr

/-- What a stamped entry does at the chip that receives it. -/
inductive StampAct where
  /-- a write or append commits: its zone, first block and blocks -/
  | write (zone off n : Nat)
  | read (zone off n : Nat)
  /-- an instance of a slice is created, or destroyed (R344, R346) -/
  | sliceMade (slice inst : Nat)
  | sliceGone (slice : Nat)
  | dealloc (zone off n : Nat)
  | staging (span : Nat)
  | check (secs : Nat)
  /-- a media event on one of its dies -/
  | media (k : MediaKind)
  | seed (new : BitVec 16)
  /-- the supply sag of the crown -/
  | sag
  | other
  deriving DecidableEq, Repr

/-- An entry of a token table (R129) as a frame carries it. -/
structure TokImg where
  owner : Nat
  token : Nat
  nsid : Nat
  zone : Nat
  nlb : Nat
  lba : Nat
  stamp : Nat
  age : Nat
  deriving DecidableEq, Repr

/-- What a part of a snapshot carries (R335): zones, token entries, and the pages below each write pointer that the member finds it
cannot release. -/
structure SnapBody where
  zones : List ZoneImg
  toks : List TokImg
  scan : List ResyncZone
  deriving DecidableEq, Repr

/-- A stamped entry with its resolution as a STAMP frame carries it (R329). The member replays the sequence on its replica of the
zone table (R37); what the replay makes of the entry stands here beside it: its commit records, the zones that it changes, as they are afterwards, and the entry that an
append makes in its owner's token table. -/
structure StampMsg where
  stamp : Nat
  act : StampAct
  recs : List RecImg
  zones : List ZoneImg
  tok : Option TokImg
  deriving DecidableEq, Repr

/-- LEASE operations (R330). -/
inductive LeaseOp where
  | grant (zone : Nat) | renew | release (zone : Nat)
  deriving DecidableEq, Repr

/-- Votes of R446. -/
inductive VoteKind where
  | ready | fail (order : Nat) | armed
  deriving DecidableEq, Repr

/-- Orders of an UPDATE frame (R446), and the orders of R448 that go to every member: confirm, and return to FROM. A package comes
with what the member finds in it, and whether all its blocks came. -/
inductive UpdateOp where
  | package (complete : Bool) (pkg : SlotFind) | arm | abandon | confirm | revert
  deriving DecidableEq, Repr

/-- Cumulative tallies of one owner in a tally batch (R345). -/
structure TallyRow where
  owner : Nat
  inst : Nat
  prov : Nat
  occ : Nat
  rd : Nat
  wr : Nat
  dieUs : Nat
  /-- the instance has been destroyed, and these are its final values -/
  gone : Bool
  deriving DecidableEq, Repr

/-- Wake sources in the order of PWR_WAKE.CAUSE (R368, R384). -/
inductive WakeSrc where
  | pcie | perst | sag | heather | alarm | quornany | brimTimer | i3c
  deriving DecidableEq, Repr

/-- The measurements of a capacitance and ESR test (R374): voltages in mV, duration in µs. -/
structure BankMeas where
  v0 : Nat
  v1 : Nat
  v2 : Nat
  tUs : Nat
  /-- the 64 samples of V0 agree within 20 mV -/
  settled : Bool
  /-- a sample of steps 2-4 was flagged OVR or SETTLE (R403) -/
  flagged : Bool
  /-- the dirty count came within the held budget in time (step 1) -/
  dirtyOk : Bool
  /-- a sag came during the test -/
  sag : Bool
  deriving DecidableEq, Repr

/-- Bias faults of a Heather site (R395, CAUSE 1 and 2). -/
inductive Bias where
  | good | openCircuit | short
  deriving DecidableEq, Repr

/-- Registers of the function's configuration space that have a field of R51, R52, R57 or R60. -/
inductive CfgReg where
  /-- Command, the six BAR dwords, Device Control, Device Control 2, PASID Control, AER Capabilities and Control, PMCSR -/
  | command | bar (i : Nat) | devCtl | devCtl2 | pasidCtl | aerCtl | pmcsr
  deriving DecidableEq, Repr

/-- What a register write addresses: a BAR, with its attributes (R58, R59, R473), or a register of the function's configuration
space (R51, R52, R57, R60), whose offset is not stated and does not count. -/
inductive RegSpace where
  | bar0
  | bar2
  | bar4 (slice : Nat) (pasid : Option Nat)
  | config (r : CfgReg)
  deriving DecidableEq, Repr

/-- The kind of an uncorrectable or command error in DRAM, as a record and a latch name it (R294). -/
inductive DramKind where
  | data | addressFault | link | command
  deriving DecidableEq, Repr

/-- The 64 bytes read of a data burst, and those of its group's check burst (R286). -/
structure Burst where
  data : Nat
  check : Nat
  deriving DecidableEq, Repr

/-- A word or burst as it is read: the 72 bits of an SRAM word (R284), or a DRAM burst with its check burst (R286). -/
inductive MemRead where
  | sram (addr raw : Nat)
  | dram (addr : Nat) (b : Burst)
  deriving DecidableEq, Repr

/-- An access that is not performed or not received (R292): a denied region or an address beyond the usable space; or a link
error that its retry repeats, with `ctx`, `unit`, `rebuilt` and `repairOk` as for DRAM_UNCORRECTABLE. -/
inductive AccessErr where
  | command
  | link (ctx unit : Nat) (rebuilt repairOk : Bool)
  deriving DecidableEq, Repr

/-- The I3C common command codes that matter to the sideband (R495). -/
inductive Ccc where
  | entdaa (addr : Nat) | setdasa (addr : Nat) | enec | disec | rstdaa | getpid | getbcr | getdcr
  | getstatus | getmxds | rstact
  deriving DecidableEq, Repr

/-- The commands: one constructor per row of spec/opcode_table.json. A host command's row takes the command
context its entry was fetched into (SUBMISSION_FETCH). -/
inductive Instr where
  -- admin commands
  | createIoSq (ctx : Nat)
  | deleteIoSq (ctx : Nat)
  | createIoCq (ctx : Nat)
  | deleteIoCq (ctx : Nat)
  | getLogPage (ctx : Nat)
  | identify (ctx : Nat)
  | abort (ctx : Nat)
  | setFeatures (ctx : Nat)
  | getFeatures (ctx : Nat)
  | asyncEventRequest (ctx : Nat)
  | nsCreate (ctx : Nat) (d : NsData)
  | nsDelete (ctx : Nat)
  | nsAttach (ctx : Nat) (controllers : List Nat)
  | fwDownload (ctx : Nat) (blocks : List UnitData)
  | fwCommit (ctx : Nat) (pkg : SlotFind)
  | keepAlive (ctx : Nat)
  | keepAliveExpiry
  | sanitizeCrypto (ctx : Nat)
  | sanitizeBlock (ctx : Nat)
  | sanitizeExit (ctx : Nat)
  | createSlice (ctx : Nat) (d : SliceData)
  | destroySlice (ctx : Nat)
  | sliceReturned (slice : Nat)
  | quiesce (ctx : Nat) (d : SliceData)
  | change (ctx : Nat) (d : SliceData)
  | resume (ctx : Nat) (d : SliceData)
  | freeze (ctx : Nat) (d : SliceData)
  | quiesceTimeout (slice : Nat)
  | thawQueue (ctx : Nat)
  | keyRotate (ctx : Nat) (d : KeyData)
  | keyRenew (ctx : Nat) (d : KeyData)
  | keyStop (ctx : Nat) (d : KeyData)
  | meterFetch (ctx : Nat)
  | cascadeStatus (ctx : Nat)
  | scrubRange (ctx : Nat)
  -- I/O commands
  | flush (ctx : Nat)
  | writeCmd (ctx : Nat)
  | readCmd (ctx : Nat)
  | zoneAppend (ctx : Nat)
  | dsm (ctx : Nat) (ranges : List DsmRange)
  | sanitizingDeallocate (ctx : Nat) (ranges : List DsmRange)
  | zoneOpen (ctx : Nat)
  | zoneClose (ctx : Nat)
  | zoneFinish (ctx : Nat)
  | zoneReset (ctx : Nat)
  | sanitizingReset (ctx : Nat)
  | zoneOffline (ctx : Nat)
  | zoneMgmtReceive (ctx : Nat)
  -- doorbells and the slice page
  | pfSqDoorbell (qid value : Nat)
  | pfCqDoorbell (qid value : Nat)
  | slcDbSq (slice : Nat) (pasid : Option Nat) (q value : Nat)
  | slcDbCq (slice : Nat) (pasid : Option Nat) (q value : Nat)
  | queuePairEnable (slice : Nat) (pasid : Option Nat) (q : Nat) (v : Dword)
  | queuePairDisable (slice : Nat) (pasid : Option Nat) (q : Nat) (v : Dword)
  | slcMboutPush (p : Party) (slice : Nat) (aligned8 : Bool) (word : Word)
  | flushIn (p : Party) (slice : Nat)
  | flushOut (p : Party) (slice : Nat)
  | slcMbinPtr (p : Party) (slice head : Nat)
  | slcNrCtl (slice : Nat) (pasid : Option Nat) (v : Dword)
  | slcNrHead (slice : Nat) (pasid : Option Nat) (head : Nat)
  | slcDmaThaw (slice : Nat) (pasid : Option Nat)
  | dmaThaw (chan : Nat)
  -- controller and resets
  | ccEnSet (cc : Dword)
  | ccEnClear
  | shutdownNotification (shn : Nat)
  | perstAsserted
  | perstDeasserted
  | functionLevelReset
  | hotReset
  | pasidEnableCleared
  | bar4CheckFailure (slice : Nat) (pasid : Option Nat) (isWrite : Bool) (offset : Nat)
  -- engines
  | submissionFetch (q : Nat) (e : SqEntry)
  | checkpointPersisted (value : Nat)
  | commit (stamp zone : Nat)
  /-- `body`: the unit's data and its metadata; `host`: the descriptors of the command fetched so far, address and bytes (R253) -/
  | unitTransferDone (ctx unit : Nat) (body : Nat × Nat) (host : List (Nat × Nat)) (o : UnitOutcome)
  | fenceAcknowledged (k : FenceKind) (tag : Nat)
  | completionPost (ctx : Nat)
  | busError (q ctx : Nat) (cause : BusCause) (src : BusSource) (addr : Word) (unit : Nat)
  | dmaCompletionTimeout (q ctx : Nat) (src : BusSource) (addr : Word) (unit : Nat)
  | bpmRevoke (slice : Nat)
  | hayrickCacheRefill (store : Nat)
  -- media
  | unitEntersScheduler (ctx unit : Nat)
  | dieNextChoice (die : Nat)
  | dutyEvaluation (die pct sharePct : Nat)
  | pageReadComplete (op : Nat)
  | codewordDecodeDone (op unit : Nat) (syndromeZero crcOk tagOk : Bool) (weight : Nat)
  | reconstructionDone (ctx unit : Nat) (sourcesOk relationOk : Bool)
  | pageProgramComplete (op : Nat) (pass : Bool) (dieTemp : Nat)
  | blockEraseComplete (op : Nat) (pass : Bool)
  | suspendComplete (die : Nat)
  | operationTimeout (op : Nat)
  | programFailure (die block row : Nat)
  | dieFailure (die cause : Nat)
  | rebuildRowFinished (zone row : Nat)
  | migrationCopyDone (zone : Nat)
  /-- `pass`, `eyeRd`, `eyeWr`: what training finds at the present timing set; `later`: at those after it, as in `BootIn.chTrain` -/
  | channelRetrain (ch : Nat) (pass : Bool) (eyeRd eyeWr : Nat) (later : List (Option (Nat × Nat)))
  -- ticks
  | stagingTick
  | checkTick
  | zneCfgCommit
  -- memory integrity
  /-- `raw`, `other`: the 72 bits read, and those of the other copy of a control word (R284, R285) -/
  | sramUncorrectable (port wordAddr ctx raw other : Nat) (repairOk : Bool)
  | dramUncorrectable (addr port : Nat) (b : Burst) (ctx unit : Nat) (rebuilt repairOk : Bool)
  | commandError (addr port : Nat) (k : AccessErr)
  /-- `queued`: a write to the word or burst is already queued (R288) -/
  | correctedError (m : MemRead) (port : Nat) (queued : Bool)
  | microcodeTrap (blk : Nat) (verifyOk again : Bool)
  | microcodeBlockFetch (blk : Nat) (firstOk secondOk suspended : Bool)
  | refreshInterval (mr4 : Nat) (draws dropped : Nat)
  | dqsOscillatorRead (ch drift : Nat) (panicWait : Bool)
  | programStreamPanic (ch level : Nat)
  | panicEnd (group : Nat)
  | entropyHealthFailure
  -- cascade
  | ubpelRekey (port : Nat) (tx : Bool)
  | join (port : Nat) (trained : Bool)
  | hello (port : Nat) (m : HelloMsg)
  | auth (port : Nat) (sigOk : Bool)
  | ident (f : Frame) (m : IdentMsg)
  | ack (f : Frame) (acked : List Nat) (credits : List Nat)
  | stampFrame (f : Frame) (entries : List StampMsg)
  | lease (f : Frame) (op : LeaseOp)
  | timeFrame (f : Frame) (crownNs rttNs : Nat)
  | digest (f : Frame) (check : Nat) (shared : BitVec 256) (islandNs : Nat)
  | sag (f : Frame)
  | dataFrame (f : Frame) (stamp zone unit : Nat) (content md : Nat)
  | staged (f : Frame) (stamp : Nat)
  /-- `units`: the first unit and how many; of meter records, the first record and the bytes -/
  | readReq (f : Frame) (req zone : Nat) (units : Nat × Nat)
  /-- `content`: none where the member could not release the unit -/
  | readData (f : Frame) (ctx unit : Nat) (content : Option Nat) (md : Nat)
  | mediaEvent (f : Frame) (k : MediaKind)
  | snapshot (f : Frame) (body : SnapBody) (shared : BitVec 256) (stamp : Nat) (last : Bool)
  | update (f : Frame) (op : UpdateOp)
  | vote (f : Frame) (v : VoteKind)
  | voteTimeout
  | ackTimeout (port vc mseq : Nat)
  | linkDown (port cause : Nat)
  | portTrainingRetry (port : Nat)
  | joinwaitExpiry
  | leaseRenew (chip : Nat)
  | leaseExpiry (zone : Nat)
  | linkLossFence (chip : Nat)
  | timeSend (port : Nat)
  | excludeChip (chip : Nat)
  | includeChip (chip : Nat)
  | fenceChip (chip : Nat)
  | resyncChip (chip : Nat)
  | stopOrder (f : Frame)
  -- meter island
  | tallyBatch (stamp crownNs : Nat) (rows : List TallyRow)
  | intervalClose (ppm : Nat)
  | recordStored (recno : Nat)
  | meterMerge (verified : Bool)
  | islandStart (programOk chainOk : Bool) (swid : Dword) (swck : BitVec 256)
  | islandSupplyLoss
  | sealChange (openLevel : Bool)
  | mtrSwckGo (sum : BitVec 256)
  | hourlyChecksum (sum : BitVec 256)
  | crystal32kStop
  | crystal25mStop
  | mtrAck (v : Word)
  | mtrParamCommit
  | mtrRecSel (recno : Word)
  -- power
  /-- `sources`: the wake levels asserted, and the requests in the DRAM hold queue when self-refresh entry completes -/
  | stopEntry (elapsedMs : Nat) (sources : List WakeSrc × Nat)
  | wake (src : WakeSrc) (elapsedNs : Nat)
  | aoBrownOutReset
  | budgetRecompute
  | chargerRegulation
  | brmTestGo (m : BankMeas)
  | testPeriodExpiry (m : BankMeas)
  | brimTestRetry (m : BankMeas)
  | huPfailLow
  | inputRailSag
  | inputGoodRestart
  | supplyReset
  | sysRstN
  | powerOnResetRelease (b : BootIn)
  | glitchDetectorsArm
  -- thermal and monitor
  | heatherSample (site : Nat) (raw : Int) (bias : Bias)
  | stepDown
  | tapChange (region : Nat)
  | replicaPathFailure (region : Nat)
  | equalisationRefresh (port : Nat)
  | adcSample (isnsUv vsnsUv : Int)
  | thistleConversion (chan : Nat) (code : Nat) (ovHi ovLo : Bool)
  -- alarms and events
  | voltageGlitch (detail : Nat) (standing : Bool)
  | dieShieldCheck (pass : Bool) (segment : Nat)
  | alarmLatchClear (mask : Nat)
  | logClear
  -- Bonnet
  | eflRead (doubleBit corrected : Bool)
  | eflProgram
  | eflErase
  | oemUnlock
  | oemLock
  | setPassword
  | writeMask
  | eflRdp (target : Nat)
  | eflOperationComplete
  -- update
  | discard
  | discardEraseDone
  | confirm
  | queryDeviceIdentifiers
  | getFirmwareParameters
  | requestUpdate (maxTransfer : Nat)
  | passComponentTable (stamp : Nat)
  | updateComponent (stamp imageSize : Nat)
  | requestFirmwareData (blk : Nat) (content : UnitData)
  | transferComplete
  | verifyComplete (pkg : SlotFind)
  | applyComplete
  | activateFirmware (selfContained : Bool)
  | getStatus
  | cancelUpdateComponent
  | cancelUpdate
  | norOperationComplete
  -- sideband and registers
  | mctpRead (port eid vendor seq offset count : Nat)
  | mctpWrite (port eid vendor seq offset count : Nat) (dws : List Dword)
  | histSnap (alsoClear : Bool)
  | histClear
  | lockSet (blk : Nat)
  | registerWrite (sp : RegSpace) (offset size : Nat) (v : Word)
  | rdyBound
  /-- the read of the last word or burst of the range: `raw`, `check` (DRAM), `other` (SRAM), and the rest as for an error of its
own row; `ms`: the pass's duration -/
  | scrubComplete (raw check other ctx unit : Nat) (rebuilt repairOk queued : Bool) (ms : Nat)
  | pcieLinkUp (rate width : Nat) (flit : Bool)
  | vectorUnmask (vec : Option Nat)
  | functionPowerStateChange (d3hot pme : Bool)
  | i3cCcc (port : Nat) (c : Ccc)
  deriving DecidableEq, Repr

end Sys2Proof
end

