-- ==== Sys2Proof/WellFormed.lean ====
section
/-! DEFINITION. Well-formed commands: every operand within the range that the spec gives its field. -/

namespace Sys2Proof

/-- A submission entry whose fields fit their bits (R69). -/
def SqEntry.wf (e : SqEntry) : Bool :=
  decide (e.opc < 256) && decide (e.fuse < 4) && decide (e.psdt < 4) && decide (e.cid < 65536) && decide (e.nsid < 2 ^ 32)

/-- A PASID has 20 bits (R51). -/
def pasidWf (p : Option Nat) : Bool := match p with | some v => decide (v < 2 ^ 20) | none => true

def Party.wf : Party → Bool
  | .tenant p => pasidWf p
  | .manager => true

def ctxWf (c : Nat) : Bool := decide (c < 65536)
def sliceWf (s : Nat) : Bool := decide (s < 1024)
/-- Units of one command: at most 512 (R140). -/
def unitWf (u : Nat) : Bool := decide (u < 512)
/-- The content of a data unit has 4,096 bytes, its metadata 8 (R178, R248). -/
def dataWf (d md : Nat) : Bool := decide (d < 2 ^ 32768) && decide (md < 2 ^ 64)
/-- Die keys are cascade-wide: four chips of 1,024 dies (R6, R318). -/
def dieWf (d : Nat) : Bool := decide (d < 4096)
def portWf (p : Nat) : Bool := decide (p < 3)
def Frame.wf (f : Frame) : Bool := portWf f.port && decide (f.vc < 4)
/-- R195, R197: at most 256 ranges. -/
def rangesWf (l : List DsmRange) : Bool := decide (l.length ≤ 256)

/-- Every operand lies in its range. -/
def Instr.wf : Instr → Bool
  | .createIoSq c | .deleteIoSq c | .createIoCq c | .deleteIoCq c | .getLogPage c | .identify c | .abort c
  | .setFeatures c | .getFeatures c | .asyncEventRequest c | .nsDelete c | .keepAlive c | .sanitizeCrypto c
  | .sanitizeBlock c | .sanitizeExit c | .destroySlice c | .thawQueue c | .meterFetch c | .cascadeStatus c
  | .scrubRange c | .flush c | .writeCmd c | .readCmd c | .zoneAppend c | .zoneOpen c | .zoneClose c | .zoneFinish c
  | .zoneReset c | .sanitizingReset c | .zoneOffline c | .zoneMgmtReceive c | .completionPost c => ctxWf c
  | .nsCreate c _ | .nsAttach c _ | .createSlice c _ | .quiesce c _ | .change c _ | .resume c _ | .freeze c _
  | .keyRotate c _ | .keyRenew c _ | .keyStop c _ | .fwCommit c _ => ctxWf c
  | .fwDownload c b => ctxWf c && b.all fun d => dataWf d 0
  | .dsm c r | .sanitizingDeallocate c r => ctxWf c && rangesWf r
  | .sliceReturned s | .quiesceTimeout s | .bpmRevoke s => sliceWf s
  | .slcDbSq s p q v | .slcDbCq s p q v => sliceWf s && pasidWf p && decide (q < 128) && decide (v < 4096)
  | .queuePairEnable s p q _ | .queuePairDisable s p q _ => sliceWf s && pasidWf p && decide (q < 128)
  | .slcMboutPush p s _ _ | .flushIn p s | .flushOut p s => p.wf && sliceWf s
  | .slcMbinPtr p s h => p.wf && sliceWf s && decide (h < 64)
  | .slcNrCtl s p _ | .slcDmaThaw s p => sliceWf s && pasidWf p
  | .slcNrHead s p h => sliceWf s && pasidWf p && decide (h < 4096)
  | .bar4CheckFailure s p _ o => sliceWf s && pasidWf p && decide (o < 16384)
  | .dmaThaw ch => decide (ch ≤ 1024)
  | .pfSqDoorbell q v | .pfCqDoorbell q v => decide (q < 65536) && decide (v < 65536)
  | .shutdownNotification n => n == 1 || n == 2
  | .submissionFetch _ e => e.wf
  | .unitTransferDone c u b h _ => ctxWf c && unitWf u && dataWf b.1 b.2 && decide (h.length ≤ 64)
  | .unitEntersScheduler c u | .reconstructionDone c u _ _ => ctxWf c && unitWf u
  | .busError _ c _ _ _ u => decide (c ≤ 65536) && decide (u ≤ 512)
  | .dmaCompletionTimeout _ c _ _ u => decide (c ≤ 65536) && decide (u ≤ 512)
  | .hayrickCacheRefill st => decide (st < 2)
  | .dieNextChoice d | .suspendComplete d | .programFailure d _ _ => dieWf d
  | .dutyEvaluation d p q => dieWf d && decide (p ≤ 100) && decide (q ≤ 100)
  | .dieFailure d c => dieWf d && decide (1 ≤ c) && decide (c ≤ 4)
  | .channelRetrain ch _ _ _ later => decide (ch < 32) && decide (later.length < 8)
  | .tapChange r | .replicaPathFailure r => decide (r < 8)
  | .dqsOscillatorRead ch _ _ => decide (ch < 16)
  | .programStreamPanic ch l => decide (ch < 32) && decide (l ≤ 16)
  | .panicEnd g => decide (g < 4)
  | .ubpelRekey p _ | .join p _ | .hello p _ | .auth p _ | .linkDown p _ | .portTrainingRetry p | .timeSend p
  | .equalisationRefresh p => portWf p
  | .ident f _ | .ack f _ _ | .stampFrame f _ | .lease f _ | .timeFrame f _ _ | .digest f _ _ _ | .sag f | .staged f _
  | .readReq f _ _ _ | .mediaEvent f _ | .snapshot f _ _ _ _ | .update f _ | .vote f _ | .stopOrder f => f.wf
  | .dataFrame f _ _ _ d m => f.wf && dataWf d m
  | .readData f _ u d m => f.wf && unitWf u && dataWf (d.getD 0) m
  | .ackTimeout p v _ => portWf p && decide (v < 4)
  | .excludeChip c | .includeChip c | .fenceChip c | .resyncChip c | .leaseRenew c | .linkLossFence c =>
    decide (1 ≤ c) && decide (c ≤ 3)
  | .heatherSample s _ _ => decide (s < 16)
  | .thistleConversion ch code _ _ => decide (ch < 24) && decide (code < 65536)
  | .dieShieldCheck _ seg => decide (seg < 64)
  | .voltageGlitch d _ | .alarmLatchClear d => decide (d < 16)
  | .requestFirmwareData _ d => dataWf d 0
  | .eflRdp t => decide (t < 3)
  | .mctpRead p e _ s _ _ | .mctpWrite p e _ s _ _ _ => decide (p < 2) && decide (e < 256) && decide (s < 256)
  | .i3cCcc p _ => decide (p < 2)
  | .registerWrite sp _ n _ => (match sp with | .bar4 s p => sliceWf s && pasidWf p | _ => true) && decide (1 ≤ n) && decide (n ≤ 4096)
  | .vectorUnmask v => (match v with | some k => decide (k < 2048) | none => true)
  | .keepAliveExpiry | .ccEnSet _ | .ccEnClear | .perstAsserted | .perstDeasserted | .functionLevelReset | .hotReset
  | .pasidEnableCleared | .checkpointPersisted _ | .commit _ _ | .fenceAcknowledged _ _ | .pageReadComplete _
  | .codewordDecodeDone _ _ _ _ _ _ | .pageProgramComplete _ _ _ | .blockEraseComplete _ _ | .operationTimeout _
  | .rebuildRowFinished _ _ | .migrationCopyDone _ | .stagingTick | .checkTick | .zneCfgCommit
  | .sramUncorrectable _ _ _ _ _ _ | .dramUncorrectable _ _ _ _ _ _ _ | .commandError _ _ _ | .correctedError _ _ _
  | .microcodeTrap _ _ _ | .microcodeBlockFetch _ _ _ _ | .refreshInterval _ _ _ | .entropyHealthFailure
  | .voteTimeout | .joinwaitExpiry | .leaseExpiry _ | .tallyBatch _ _ _ | .intervalClose _ | .recordStored _
  | .meterMerge _ | .islandStart _ _ _ _ | .islandSupplyLoss | .sealChange _ | .mtrSwckGo _ | .hourlyChecksum _
  | .crystal32kStop | .crystal25mStop | .mtrAck _ | .mtrParamCommit | .mtrRecSel _ | .stopEntry _ _ | .wake _ _
  | .aoBrownOutReset | .budgetRecompute | .chargerRegulation | .brmTestGo _ | .testPeriodExpiry _ | .brimTestRetry _
  | .huPfailLow | .inputRailSag | .inputGoodRestart | .supplyReset | .sysRstN | .powerOnResetRelease _
  | .glitchDetectorsArm | .stepDown | .adcSample _ _ | .logClear | .eflRead _ _ | .eflProgram | .eflErase | .oemUnlock
  | .oemLock | .setPassword | .writeMask | .eflOperationComplete | .discard | .discardEraseDone | .confirm
  | .queryDeviceIdentifiers | .getFirmwareParameters | .requestUpdate _ | .passComponentTable _ | .updateComponent _ _
  | .transferComplete | .verifyComplete _ | .applyComplete | .activateFirmware _ | .getStatus
  | .cancelUpdateComponent | .cancelUpdate | .norOperationComplete | .histSnap _ | .histClear | .lockSet _
  | .rdyBound | .scrubComplete _ _ _ _ _ _ _ _ _ | .pcieLinkUp _ _ _ | .functionPowerStateChange _ _ => true

end Sys2Proof
end

