-- ==== Sys2Proof/Config.lean ====
section
/-! DEFINITION. What the spec leaves open or takes from another standard, as constants without a body: no
proof can see what they are, and every claim holds whatever they are. The free values are applied to a counter
of the state (`State.free`), so that each use is fresh. -/

namespace Sys2Proof.Config

/-- A free value (R13 and every value the spec leaves open): the n-th one. -/
opaque freeNat : Nat → Nat

/-- SHA-256 of 64 bytes (R48): D-previous followed by a 32-byte commit record. -/
opaque sha256 : BitVec 512 → BitVec 256

/-- Bytes of user capacity (TNVMCAP, R70) of a cascade with so many raw bytes: how much of the raw capacity serves users
is not stated. -/
opaque userCapacity : Nat → Nat

/-- The n-th 512-bit key that the CTR_DRBG draws (R302); the first half, and a candidate for the second. -/
opaque keyDraw : Nat → BitVec 256 × BitVec 256

/-- The 4,104 bytes of a codeword (R178, R204) that a data unit becomes under a key (its draw), an LBA, an NSID and its plaintext and metadata: AES-256-XTS (IEEE 1619) is not computed here. -/
opaque cipherBits : Nat → Nat → Nat → Nat → Nat → Nat

/-- What a Bonnet word holds that the chip itself or Yeldezon has written (R431): keys, certificates, the key-store epoch,
meter programs, calibration, control sectors; by generation of that content and word address. -/
opaque sealedWord : Nat → Nat → BitVec 64

/-- SHA-384 (FIPS 180-4) of a meter record's signed bytes, byte 0 lowest (R351): not computed here. -/
opaque recordHash : Nat → BitVec 384

/-- The 96 bytes of the ECDSA P-384 signature over that hash (R351). -/
opaque recordSig : BitVec 384 → Nat

/-- A sample in µV after the gain and offset corrections of PARAM 3 and 4 (R343, R359), which the spec does not write out. -/
opaque adcCorrect : Nat → Int → Int

/-- Temperature in 1/8 °C of a thermistor from its B-value, its resistance at 25 °C and a code (R404). -/
opaque ntcTemp : Nat → Nat → Nat → Int

/-- The island's ECDSA P-384 public key, 96 bytes (R351). -/
opaque meterPubKey : BitVec 768

/-- The threshold tables of the LDPC tables part of the manifest (R184), in DAC steps: `base[mode][age][ec][level]`,
`xt[mode][pt][band][level]`, the shift vectors `S[index][level]`, δ of R185, and the offset range of the die. -/
opaque thrBase : Nat → Nat → Nat → Nat → Int
opaque thrXt : Nat → Nat → Nat → Nat → Int
opaque thrShift : Nat → Nat → Int
opaque thrDelta : Int
opaque thrMin : Int
opaque thrMax : Int

/-- Content of a unit read over a Ubpel link as plaintext: the inverse of `cipherBits` under a key draw, LBA and NSID. -/
opaque plainBits : Nat → Nat → Nat → Nat → Nat

/-- The part serial number, of which GETPID returns bits [31:0] (R495). -/
opaque partSerial : Nat

end Sys2Proof.Config
end

