-- ==== Sys2Proof/Machine/State.lean ====
section
/-! DEFINITION. The state of the GZ-960 block as plain data, its state after reset, and the reasons a step can
stop. Field groups follow the Cuff blocks (R469); the defaults of the fields are their reset values. -/

namespace Sys2Proof.Machine

open Sys2Proof

/-! ### Statuses, queues and contexts -/

/-- An NVMe status: type, code, do-not-retry (R77, R499). -/
structure Status where
  sct : Nat
  sc : Nat
  dnr : Bool
  deriving DecidableEq, Repr

/-- Where a read block's data comes from (R125, R126). -/
inductive Alt where
  /-- unit `j` of the write with this stamp, which has not failed -/
  | wr (stamp j : Nat)
  /-- content that stands in flash or in a row's staging: key draw, plaintext, metadata, its zone and unit, and its
  position in a log row -/
  | stored (kix plain md zone unit : Nat) (lix : Option Nat)
  /-- the same of a write that is staged and whose completion is not posted: an Abort may still take hold (R133) -/
  | staged (stamp kix plain md zone unit : Nat) (lix : Option Nat)
  | zeros
  | lost
  deriving DecidableEq, Repr

/-- Progress of one data unit of a transfer. -/
inductive UnitSt where
  | waiting | queued | ready | sent
  deriving DecidableEq, Repr

/-- A placement: the sheaf's members in member order, with their block if any; P and Q come first (R153, R211, R212). -/
structure Place where
  chip : Nat
  /-- (die, block) in role order: P, Q, data 0, 1, ... -/
  pos : List (Nat × Option Nat)
  seed : BitVec 16
  /-- groups the fence held at placement (R216) -/
  fence : BitVec 256
  deriving DecidableEq, Repr

/-- A page that holds units of a row: its role position, and the die, block and page row there. -/
structure Pg where
  pos : Nat
  die : Nat
  block : Nat
  page : Nat
  deriving DecidableEq, Repr

/-- A codeword of a page (R178, R205): bytes 0-4103, TAG, CRC-32C of bytes 0-4095. Its LDPC parity is not held. -/
structure Codeword where
  bits : Nat
  tag : BitVec 32
  crc : BitVec 32
  deriving DecidableEq, Repr

/-- An SLC entry: a partial sheaf row (R164). -/
structure SlcEntry where
  row : Nat
  /-- units of the row it holds -/
  units : Nat
  /-- the SLC pages it is written to -/
  pages : List Pg
  /-- page programs outstanding -/
  left : Nat
  live : Bool := false
  deriving DecidableEq, Repr

/-- One 4 KiB unit of a read (R228-R241). -/
structure RUnit where
  alts : List Alt := []
  st : UnitSt := .waiting
  /-- steps of the ladder completed (R185) -/
  ladder : Nat := 0
  /-- a read-around runs for it (R234, order 4) -/
  around : Bool := false
  /-- the read-around failed (R241) -/
  aroundFailed : Bool := false
  /-- it goes by reconstruction (R218, R185 step 10) -/
  recon : Bool := false
  /-- helpers of its read-around or reconstruction still to be released -/
  helpers : Nat := 0
  /-- staging buffer a write-buffer hit holds (R263, R265) -/
  hold : Option Nat := none
  /-- crown time at which it entered the scheduler (R228) -/
  entered : Nat := 0
  /-- the rows and the SLC entry its zone had when it was resolved (R125) -/
  pl : Option Place := none
  lg : Option Place := none
  /-- the old log row of a merge that is still copied, and the unit's position in it -/
  lgOld : Option (Place × Nat) := none
  slc : Option SlcEntry := none
  /-- its direct read -/
  op : Option Nat := none
  /-- units of the system read pool lent to its helpers -/
  lent : Nat := 0
  /-- the hard read of lowest syndrome weight so far, as (weight, shift index), and HINT at step 0 (R185) -/
  best : Option (Nat × Nat) := none
  hint0 : Nat := 0
  /-- P is not among the sources of its reconstruction (R214) -/
  pOut : Bool := false
  /-- role positions whose codeword failed as a source of its reconstruction: further losses (R213) -/
  srcLost : List Nat := []
  /-- the bits that its reconstruction gave (R213) -/
  made : Option Nat := none
  deriving DecidableEq, Repr

inductive Phase where
  /-- fetched, not stamped; on a frozen queue it is held (R135) -/
  | fetched
  | stamped
  /-- its status is decided and its completion waits to be posted -/
  | done
  deriving DecidableEq, Repr

/-- A command context (R26, R27). -/
structure Ctx where
  q : Nat
  e : SqEntry
  /-- index of its entry in the submission queue -/
  slot : Nat := 0
  /-- order of fetch -/
  seqNo : Nat
  phase : Phase := .fetched
  /-- it received a stamp, `stamp` -/
  stamped : Bool := false
  stamp : Nat := 0
  /-- an Abort marked it before its stamp (R133) -/
  abortMark : Bool := false
  committed : Bool := false
  begun : Bool := false
  paused : Bool := false
  failed : Bool := false
  /-- the completion is to be discarded (R54, R265) -/
  discard : Bool := false
  units : Nat := 0
  moved : List Nat := []
  runits : Tbl RUnit := []
  readDraw : Nat := 0
  bufs : List Nat := []
  /-- zone key, LBA and length of its range -/
  zone : Nat := 0
  lba : Nat := 0
  status : Option Status := none
  dw0 : Dword := 0
  dw1 : Dword := 0
  /-- order number in R114 of the check that failed (R137) -/
  check : Nat := 0
  /-- position of its current read unit and helpers is kept in `runits`; blocks whose erase it waits for (R197), and failures -/
  eraseSet : List Nat := []
  eraseFails : Nat := 0
  /-- arrival of the doorbell write that made its entry visible (R243) -/
  bellAt : Nat := 0
  /-- an Abort that took hold waits for the target's completion (R132) -/
  waitFor : Option Nat := none
  /-- SLC entries or rows a Flush waits for (R69) -/
  flushWait : List Nat := []
  /-- latency class and weight in force at its stamp (R34, R97) -/
  cls : Nat := 1
  weight : Nat := 1
  /-- its failure froze its queue: ENTRY_0 of the record (R137) -/
  froze : Bool := false
  /-- completed by the disabling or deletion of its queue: no freeze, no entry in the record (R139) -/
  unrecorded : Bool := false
  deriving DecidableEq, Repr

/-- A submission queue (R65, R101, R135). Number: R137 (PF queue q, or 1,024 + 128 s + q). -/
structure Sq where
  base : Word := 0
  /-- entries minus 1 -/
  size : Nat := 0
  cq : Nat := 0
  head : Nat := 0
  /-- the tail acted on, and the last recorded one (R85) -/
  tail : Nat := 0
  en : Bool := false
  enabled : Bool := false
  strict : Bool := false
  frozen : Bool := false
  /-- the freeze is visible: its failing completion is posted (R135) -/
  frozenSeen : Bool := false
  enerr : Nat := 0
  /-- SLC_QCTL as last written: QSIZE, IEN, IV and STRICT take effect at the next enable (R101, R102) -/
  ctl : Dword := 0
  /-- entries made visible and not fetched, by doorbell write, oldest first: (count, crown time) -/
  bells : List (Nat × Nat) := []
  deriving DecidableEq, Repr

/-- A completion queue. -/
structure Cq where
  base : Word := 0
  size : Nat := 0
  head : Nat := 0
  tail : Nat := 0
  phase : Bool := true
  ien : Bool := false
  iv : Nat := 0
  deriving DecidableEq, Repr

/-- One entry of a queue error record (R137). -/
structure QEntry where
  cid : Nat
  opc : Nat
  flags : Nat
  dw3 : Dword
  stamp : Nat
  slba : Nat
  nlb : Nat
  check : Nat
  dw0 : Dword
  deriving DecidableEq, Repr

/-- A queue error record (R137). -/
structure QRec where
  overflow : Bool := false
  freezes : Nat := 0
  freezeStamp : Nat := 0
  entries : List QEntry := []
  deriving DecidableEq, Repr

/-! ### Slices -/

/-- Slice states (R81). -/
inductive SliceSt where
  | none | active | quiescing | quiesced | frozen | destroying
  deriving DecidableEq, Repr

/-- One direction of a mailbox (R103-R107). -/
structure Mbox where
  slots : Tbl Word := []
  head : Nat := 0
  tail : Nat := 0
  /-- words of the partial message already stored, and its LEN -/
  part : Nat := 0
  need : Nat := 0
  nextSeq : Nat := 0
  fullSeen : Bool := false
  flushedSeen : Bool := false
  dupSeen : Bool := false
  errSeen : Bool := false
  result : Nat := 0
  dupRun : Nat := 0
  deriving DecidableEq, Repr

/-- The notice ring of a slice (R108-R110). -/
structure NRing where
  base : Word := 0
  en : Bool := false
  fault : Bool := false
  nvec : Nat := 0
  ien : Bool := false
  size : Nat := 0
  head : Nat := 0
  tail : Nat := 0
  phase : Bool := true
  nseq : Nat := 0
  lost : Nat := 0
  deriving DecidableEq, Repr

/-- A slice's definition in force and its state (R81-R113, R237). -/
structure Slice where
  st : SliceSt := .none
  reason : Nat := 0
  pasid : Nat := 0
  qpairs : Nat := 0
  vecBase : Nat := 0
  vecCount : Nat := 0
  ctxReserve : Nat := 0
  ctxLimit : Nat := 0
  readPool : Nat := 0
  stagePool : Nat := 0
  lclass : Nat := 0
  weight : Nat := 0
  raAllow : Nat := 0
  fenceCount : Nat := 0
  excl : Bool := false
  strictDef : Bool := false
  quotaProv : Nat := 0
  quotaWrite : Nat := 0
  fences : List (BitVec 256) := []
  handles : List Nat := []
  /-- blocks counted by the written quota (R89) -/
  written : Nat := 0
  /-- creations of this number since the first seal (R350) -/
  inst : Nat := 0
  /-- contexts of Quiesce commands waiting, and of the Destroy Slice at work -/
  quiesceWait : List Nat := []
  destroyCtx : Option Nat := none
  up : Mbox := {}
  down : Mbox := {}
  mbien : Bool := false
  mbvec : Nat := 0
  nr : NRing := {}
  /-- completions discarded under R54 or R265 and not yet reported, by queue (R86) -/
  lostCpl : Tbl Nat := []
  raStarted : Nat := 0
  raDenied : Nat := 0
  deriving DecidableEq, Repr

/-! ### Namespaces, zones, writes -/

structure Ns where
  owner : Nat
  nsze : Nat
  conv : Nat
  /-- LBAF1: 8 bytes of metadata (R70) -/
  lbaf1 : Bool := false
  /-- DPS, and whether it enables protection information -/
  dps : Nat := 0
  pi : Bool := false
  attached : Bool := false
  zoneBase : Nat := 0
  /-- Namespace Management delete waits for its zones' commands (R75) -/
  deleting : Option Nat := none
  changedZones : List Nat := []
  deriving DecidableEq, Repr

/-- Zone states (R145). -/
inductive Zs where
  | empty | implOpen | explOpen | closed | readOnly | full | offline
  deriving DecidableEq, Repr

/-- One content version of a block: the write or deallocate with this stamp (R124, R125). -/
structure Ver where
  stamp : Nat
  /-- unit number within the write -/
  j : Nat
  dealloc : Bool := false
  /-- generation of the key and the key's draw -/
  gen : Nat := 0
  kix : Nat := 0
  plain : Nat := 0
  md : Nat := 0
  /-- position in the zone's log row; none once a merge has taken it to the data row -/
  lix : Option Nat := none
  /-- the unit has been moved into staging -/
  arrived : Bool := false
  lost : Bool := false
  deriving DecidableEq, Repr

/-- A block that failed and is read until its pages stand in the block that replaces it (R190): the tag of its row set, its
role position, the old block, and the page rows still to be copied. -/
structure Copying where
  tag : Nat
  pos : Nat
  die : Nat
  block : Nat
  rows : List Nat
  deriving DecidableEq, Repr

/-- A zone (R145-R160). -/
structure Zone where
  conv : Bool := false
  zs : Zs := .empty
  /-- write pointer, in blocks from ZSLBA -/
  wp : Nat := 0
  cap : Nat := 0
  place : Option Place := none
  /-- zone key record (R306): (offset, generation); the head is GEN_BASE at offset 0 -/
  keyRec : List (Nat × Nat) := []
  /-- the committed and uncompleted write (R121) -/
  busy : Option Nat := none
  lastWrite : Nat := 0
  /-- stamp of the last reset, finish or offline commit -/
  lastZsc : Nat := 0
  /-- state before the commit that took it to Full (R147) -/
  preFull : Zs := .implOpen
  vers : Tbl (List Ver) := []
  /-- page rows whose data, P and Q are programmed -/
  rowsDone : List Nat := []
  /-- data pages programmed of a row: row ↦ positions -/
  rowPages : Tbl (List Nat) := []
  /-- rows whose programs a withdrawn write stopped (R122, R133): started again when full -/
  rowsCut : List Nat := []
  /-- blocks below the write pointer that the written quota has got back (R89, R115) -/
  returned : Nat := 0
  slc : Option SlcEntry := none
  /-- parity watermark logged (R223) -/
  watermark : Nat := 0
  /-- when its units were staged: (end of the staged units in its row set, staging clock), oldest first (R164) -/
  ages : List (Nat × Nat) := []
  /-- conventional zones: log row with its use and the stamp its assignment was taken at (R158, R160) -/
  logRow : Option Place := none
  logUsed : Nat := 0
  logTaken : Nat := 0
  /-- log order: index ↦ unit of the zone, newest last -/
  logUnits : List Nat := []
  /-- a merge copies into the data row (R159): page programs outstanding -/
  merging : Nat := 0
  /-- the rows a running merge reads: old data row, old log row and its log order -/
  oldData : Option Place := none
  oldLog : Option Place := none
  oldUnits : List Nat := []
  oldSlc : Option SlcEntry := none
  /-- rows, with their tag, that a migration reads from the old row sets; later ones are programmed to the new (R222) -/
  oldDone : List Nat := []
  /-- sequential zones: end of the last write that staged every unit -/
  cwp : Nat := 0
  /-- Finish padded the rest of its partial row (R147) -/
  padded : Bool := false
  /-- a partial row is to go to an SLC entry and waits for a block (R164, R165) -/
  slcWant : Bool := false
  /-- an SLC entry being written to replace `slc` -/
  slcNew : Option SlcEntry := none
  /-- blocks replaced after a program failure, while their pages are copied (R190) -/
  copying : List Copying := []
  /-- pages that no ladder released as sources of a copy or rebuild: (row with its tag, role position) -/
  unread : List (Nat × Nat) := []
  /-- blocks that hold units of earlier content of the zone and are not erased since: freed rows, replaced blocks, dead SLC
  entries, as block keys (R197) -/
  ghosts : List Nat := []
  /-- migration (R222): old placement while the copy runs -/
  migOld : Option Place := none
  deriving DecidableEq, Repr

/-- A data unit as Gauntlet has made it (R15, R308): the ciphertext of `plain` under the key of its draw, which no other
block opens, beside its 8 metadata bytes in the clear, with the CRC-32C over its codeword's content (R21). The ciphertext is
held as what it encrypts; its bits, where another block or a link handles them, are `Config.cipherBits`. -/
structure Sealed where
  plain : Nat
  md : Nat
  crc : BitVec 32 := 0
  deriving DecidableEq, Repr

/-- A staged write (R21, R22): its units in DRAM staging. -/
structure Staged where
  ctx : Nat
  owner : Nat
  zone : Nat
  off : Nat
  n : Nat
  bufs : List Nat
  /-- generation and draw of the key in force at its stamp (R305) -/
  gen : Nat := 0
  kix : Nat := 0
  /-- the units that are staged, as ciphertext under the key `kix` -/
  data : Tbl Sealed := []
  /-- its placement is committed -/
  placed : Bool := false
  /-- conventional zones: log position of its first unit (R158) -/
  logBase : Nat := 0
  /-- carried into a merge's data row from staging (R159) -/
  merged : Bool := false
  complete : Bool := false
  /-- the zone was reset meanwhile: discarded instead of programmed (R151) -/
  dropped : Bool := false
  /-- units released under R22 or as an SLC entry -/
  released : List Nat := []
  deriving DecidableEq, Repr

/-- One append-token entry (R128). -/
structure Tok where
  token : Nat
  nsid : Nat
  zone : Nat
  nlb : Nat
  committed : Bool
  lba : Nat
  stamp : Nat
  /-- whole seconds covered by check ticks since (R130) -/
  age : Nat := 0
  deriving DecidableEq, Repr

/-! ### The gate -/

/-- Kinds of stamped entries that wait for commits (R33, R38). -/
inductive EKind where
  | writeE | appendE | readE | flushE | dsmE | sanDsmE | openE | closeE | finishE | resetE | sanResetE
  | offlineE | zmrE | abortE | keyRotE | sanitizeE | sysE
  deriving DecidableEq, Repr

/-- What a system entry of the stamped sequence does at its commit (R33): the ticks, the media events and the
configuration commits. -/
inductive SysEv where
  /-- a staging tick with its span in ns -/
  | staging (span : Nat)
  /-- a check tick with its span in seconds -/
  | check (secs : Nat)
  /-- a media event: a die failed -/
  | dieFail (dk cause : Nat)
  /-- a media event: a block failed in use, with its RETIRE code and whether it goes to state 14 at once -/
  | blockFail (bk code : Nat) (out : Bool)
  /-- a media event: the rebuild of a row, or of an SLC entry, is finished (R217) -/
  | rebuilt (zone row : Nat) (slc : Bool)
  /-- a media event: a page that a copy or a rebuild needs can be neither read nor reconstructed (R219) -/
  | pageLost (zone row pos : Nat)
  /-- a media event: the migration copy of a zone is finished -/
  | migrated (zone : Nat)
  /-- a media event found at boot or at a resynchronisation: content of a zone cannot be rebuilt (R145, R225) -/
  | zoneLost (zone : Nat)
  /-- a media event: a member is fenced (R331, R334), or admitted and unfenced (R324, R335) -/
  | fence (chip reason : Nat)
  | unfence (chip : Nat)
  /-- a media event: an action of CAS_CTL on a chip, by its code (R328) -/
  | casAct (chip action : Nat)
  /-- configuration commits of a security alarm: every slice frozen, or everything erased (R316, R465) -/
  | freeze
  | zeroize
  /-- an entry of the member life cycle or the hold-up: stamped, with no effect of its own -/
  | sag
  /-- a configuration commit without a change of its own -/
  | config
  /-- the layout seed commit (R168) -/
  | seed
  deriving DecidableEq, Repr

/-- A stamped entry whose commits are not all made. -/
structure Entry where
  kind : EKind
  ctx : Nat
  owner : Nat
  nsid : Nat
  /-- zone keys in which it has still to commit -/
  scopes : List Nat
  /-- offset of its range in the zone, and its blocks -/
  off : Nat := 0
  n : Nat := 0
  /-- the fence its placement handle selects (R152), as at its stamp (R34) -/
  fence : BitVec 256 := 0
  token : Option Nat := none
  /-- Dataset Management ranges: (zone key, offset, blocks) -/
  ranges : List (Nat × Nat × Nat) := []
  /-- failures of the zones of a Select All (R147): (zone key, status) -/
  fails : List (Nat × Status) := []
  /-- Abort: its target's context; Key Rotate: its action; Sanitize: its action -/
  target : Nat := 0
  /-- Zone Management Send with Select All -/
  all : Bool := false
  /-- Key Rotate: EXPECT_GEN -/
  val : Nat := 0
  /-- a system entry: what it does -/
  sys : Option SysEv := none
  deriving DecidableEq, Repr

/-- A commit record (R47). -/
structure CRec where
  stamp : Nat
  slice : Nat
  kind : Nat
  resolved : Bool := false
  status : Nat := 0
  nsid : Nat := 0
  zone : Nat := 0
  value : Nat := 0
  deriving DecidableEq, Repr

/-- The admission gate: stamps, epochs, checkpoints, digests, dirty budget (R32-R50, R376, R377). -/
structure Gate where
  next : Nat := 0
  /-- highest persisted checkpoint, and the one being written (R35) -/
  ckpt : Nat := 0
  ckptPend : Option Nat := none
  entries : Tbl Entry := []
  recs : List CRec := []
  shared : BitVec 256 := 0
  localD : BitVec 256 := 0
  latShared : BitVec 256 := 0
  latLocal : BitVec 256 := 0
  latCheck : Nat := 0
  /-- the shared digest at the last check tick, whatever HOLD says: what the crown compares (R333) -/
  tickCheck : Nat := 0
  tickShared : BitVec 256 := 0
  latched : Bool := false
  hold : Bool := false
  /-- check stamps whose latch waits for lower stamps (R49) -/
  latchWait : List Nat := []
  /-- admission runs: I/O is accepted, admin commands are accepted -/
  adminOk : Bool := false
  ioOk : Bool := false
  stopped : Bool := false
  dirty : Nat := 0
  /-- fetch order -/
  seqNo : Nat := 0
  /-- staging ticks and seconds of check ticks stamped; last tick times (R33, R370) -/
  lastStaging : Nat := 0
  lastCheck : Nat := 0
  /-- crown time covered by the staging ticks so far, in ns: what the age of a row is measured in (R164) -/
  stageClock : Nat := 0
  /-- entries below this stamp have gone to the members (R329) -/
  sent : Nat := 0
  deriving DecidableEq, Repr

/-! ### Buffers and DMA -/

/-- A Hayrick buffer in use (R265). -/
structure Buf where
  dram : Bool
  named : Nat
  holds : Nat
  freeing : Bool := false
  deriving DecidableEq, Repr

structure Bpm where
  /-- DRAM store size in 16 KiB buffers (R261) -/
  dramTotal : Nat := 0
  cacheSram : Nat := 0
  cacheDram : Nat := 0
  bufs : Tbl Buf := []
  /-- units of read pool held by an owner, read-pool and staging refusals -/
  rdHeld : Tbl Nat := []
  emptyRd : Tbl Nat := []
  emptyStg : Tbl Nat := []
  /-- buffers dropped from the system staging grant (R290) -/
  sysStgLost : Nat := 0
  sel : Nat := 0
  freeRefused : Nat := 0
  revokeSlice : Nat := 0
  revokeResult : Nat := 0
  revokeBufs : Nat := 0
  /-- requests that waited, by rung less 1 (R270) -/
  waits : Tbl Nat := []
  deriving DecidableEq, Repr

/-- A Swath channel (R255, R271): channel s for slice s, 1,024 for the PF. -/
structure Chan where
  halted : Bool := false
  multi : Bool := false
  dir : Bool := false
  cause : Nat := 0
  source : Nat := 0
  desc : Nat := 0
  faults : Nat := 0
  cid : Nat := 0
  qid : Nat := 0
  addr : Word := 0
  unit : Nat := 0
  thaws : Nat := 0
  deriving DecidableEq, Repr

/-- A lane of the Sward: the flits on their way from a sending port to a receiving port, the shared credits the sender holds, and
the time of its last flit (R17, R266). -/
structure Lane where
  pend : Nat := 0
  shared : Nat := 0
  last : Nat := 0
  deriving DecidableEq, Repr

/-- What is attached to a Sward port (R16). -/
inductive SwardBlock where
  | swath
  | flashGroup (g : Nat)
  | ldpc (g : Nat)
  | dram (k : Nat)
  | sram (k : Nat)
  | bracken
  | ubpel (p : Nat)
  | agent
  deriving DecidableEq, Repr

structure Dma where
  chans : Tbl Chan := []
  sel : Nat := 0
  walkFaults : Nat := 0
  /-- fences not yet acknowledged: (kind code, tag) -/
  fences : List (Nat × Nat) := []
  deriving DecidableEq, Repr

/-! ### Media -/

/-- A block-info record (R181). -/
structure BInfo where
  ptOpen : Nat := 0
  ptClose : Nat := 0
  tpOpen : Nat := 0
  tpMean : Nat := 0
  erases : Nat := 0
  st : Nat := 1
  retire : Nat := 0
  hint : Nat := 0
  rows : Nat := 0
  /-- not erased since its last use, though a placement already holds it (R151) -/
  unerased : Bool := true
  /-- page rows sampled for TP_MEAN, and the sum of the samples (R183) -/
  samples : Nat := 0
  tpSum : Nat := 0
  /-- SLC page rows given to entries, programmed or not (R164) -/
  taken : Nat := 0
  deriving DecidableEq, Repr

/-- What a media operation is for. -/
inductive OpKind where
  | direct (ctx unit : Nat)
  | helper (ctx unit : Nat)
  /-- a page row of a zone row: zone key, page row, role position -/
  | prog (zone row pos : Nat)
  /-- a page of an SLC entry -/
  | progSlc (zone pos : Nat)
  /-- a page row of a copy: merge, replacement, relocation -/
  | progCopy (zone : Nat)
  /-- a rebuilt page: zone key, row, role position; of an SLC entry or not -/
  | progRebuild (zone row pos : Nat) (slc : Bool)
  /-- a page copied to the block that replaces a failed one: zone key, row with its tag, role position -/
  | progRepl (zone row pos : Nat)
  /-- a page read as the source of a fold, merge, replacement, migration or rebuild: zone key, row with its tag -/
  | src (zone row : Nat)
  | erase
  /-- all-zero pages over a block whose erase failed (R198) -/
  | progZero
  deriving DecidableEq, Repr

/-- A media operation (R25, R27). -/
structure Op where
  die : Nat
  block : Nat
  row : Nat := 0
  kind : OpKind
  owner : Nat
  /-- latency class of a read; programs and erases carry 2 -/
  cls : Nat := 2
  seq : Nat
  slcMode : Bool := false
  startAt : Nat := 0
  suspTime : Nat := 0
  suspAt : Nat := 0
  suspends : Nat := 0
  retried : Bool := false
  /-- the array operation has ended and codewords are with the decoders -/
  transferred : Bool := false
  withdrawn : Bool := false
  /-- ladder step, array reads left in it, units whose codewords are still to be decoded, units that need the next step -/
  step : Nat := 0
  reads : Nat := 1
  left : List Nat := []
  retry : List Nat := []
  /-- its program failed and waits for the media event (R190) -/
  failed : Bool := false
  /-- a read: crown time at which its unit entered the scheduler (R230), and HINT of its block at step 0 (R185) -/
  ent : Nat := 0
  hint : Nat := 0
  /-- a read: the offsets its last array read was issued with, one per read level (R184) -/
  offs : List Int := []
  /-- role position of the page a helper or a copy reads -/
  pos : Nat := 0
  /-- staging buffers it holds (R265) -/
  holds : List Nat := []
  /-- units of the system read pool that return when it ends (R240) -/
  lend : Nat := 0
  deriving DecidableEq, Repr

/-- A die's scheduler state (R230-R232). -/
structure Die where
  failed : Bool := false
  queue : List Nat := []
  /-- operations beyond the 8 slots of the die, in order of arrival (R25) -/
  wait : List Nat := []
  running : Option Nat := none
  suspended : Option Nat := none
  /-- a suspend has been asked for and status does not yet show ready (R174) -/
  suspending : Bool := false
  readsSince : Nat := 0
  dutyPct : Nat := 0
  sharePct : Nat := 0
  /-- weighted round robin: owner served and items left, for items 3 and 6 of R230 -/
  wrrOwner : Nat := 0
  wrrLeft : Nat := 0
  wrr6Owner : Nat := 0
  wrr6Left : Nat := 0
  /-- SLC buffer blocks, oldest first (R161-R165) -/
  slc : List Nat := []
  deriving DecidableEq, Repr

/-- One flash channel's registers (R201). -/
structure Chn where
  active : Bool := false
  failed : Bool := false
  suspends : Nat := 0
  timing : List Dword := []
  tout : Dword := 0
  retrain : Nat := 0
  trainDone : Bool := false
  trainFail : Bool := false
  trainSet : Nat := 0
  retrains : Nat := 0
  eyeRd : Nat := 0
  eyeWr : Nat := 0
  timeouts : Nat := 0
  progFail : Nat := 0
  eraseFail : Nat := 0
  uncorr : Nat := 0
  deriving DecidableEq, Repr

structure Fch where
  chans : Tbl Chn := []
  lock : Bool := false
  mediaTime : Nat := 0
  /-- crown time at which mediaTime was last advanced -/
  mediaMark : Nat := 0
  bootEst : Nat := 0
  biSel : Dword := 0
  /-- snapshot of the selected record (R202) -/
  biSnap : BitVec 128 := 0
  ladder : Tbl Nat := []
  ops : Tbl Op := []
  opNext : Nat := 0
  /-- erases pending for freed or sanitized blocks saved across a stop (R199) -/
  eraseList : List Nat := []
  deriving DecidableEq, Repr

/-- Zone engine registers and pools (R161-R170). -/
structure Zne where
  /-- log rows assigned, by chip (R160) -/
  logRowsUsed : Tbl Nat := []
  fill : Nat := 0
  target : Nat := 0
  nmin : Nat := 0
  cur : Nat := 0
  slcCap : Nat := 0
  rsvDies : Nat := 0
  ksave : Nat := 0
  seedShadow : BitVec 16 := 0
  seedCur : BitVec 16 := 0
  seedPrev : BitVec 16 := 0
  /-- a check tick has set the registers of R162 since the chip reset -/
  ticked : Bool := false
  pending : Bool := false
  migrating : Bool := false
  result : Nat := 0
  boundary : Nat := 0
  heldSel : Nat := 0
  /-- zones created on the cascade so far (R210) -/
  zonesMade : Nat := 0
  deriving DecidableEq, Repr

/-- A row queued for rebuild (R217). -/
structure RebRow where
  zone : Nat
  row : Nat
  /-- the failed die, and the role position that is lost -/
  die : Nat
  lost : Nat
  /-- the block that held it -/
  old : Nat := 0
  /-- a row of an SLC entry -/
  slc : Bool := false
  /-- programmed to the replacement -/
  done : Bool := false
  deriving DecidableEq, Repr

structure Par where
  spb : Nat := 0
  share : Nat := 10
  queue : List RebRow := []
  rowsDone : Nat := 0
  rowsTotal : Nat := 0
  lostZones : Nat := 0
  lostUnits : Nat := 0
  migZones : Nat := 0
  resyncRan : Bool := false
  resyncSecs : Nat := 0
  repaired : Nat := 0
  lostRows : Nat := 0
  availSpare : Nat := 100
  lowDie : Nat := 0
  /-- P and Q accumulators: (zone, row, slot) key ↦ (P, Q) as numbers (R206) -/
  acc : Tbl (Nat × Nat) := []
  /-- rows whose accumulators stand in the SRAM cache, least recently used first; the others have their DRAM home (R27, R206) -/
  cache : List Nat := []
  deriving DecidableEq, Repr

structure Lat where
  susp0 : Bool := false
  ra0 : Bool := false
  esc0 : Bool := false
  budget0 : Nat := 0
  susp1 : Bool := false
  ra1 : Bool := false
  esc1 : Bool := false
  budget1 : Nat := 0
  raDepth : Nat := 0
  rdBurst : Nat := 0
  dutyMax : Nat := 0
  lock : Bool := false
  dutyDie : Nat := 0
  dutyPct : Nat := 0
  condDuty : Bool := false
  condBand : Bool := false
  condParity : Bool := false
  stats : Tbl Nat := []
  sliceSel : Nat := 0
  /-- read-around buckets by owner, in thousandths (R237) -/
  tokens : Tbl Nat := []
  pfStarted : Nat := 0
  pfDenied : Nat := 0
  histSel : Nat := 0
  /-- latency counts: 48 class + bin -/
  live : Tbl Nat := []
  snap : Tbl Nat := []
  deriving DecidableEq, Repr

/-! ### Memory integrity -/

/-- The uses of the DRAM that the controller tells apart (R279). -/
inductive DramUse where
  | refresh | selfRefresh
  | stream (group : Nat)
  | bufferHit | reload | reconstruction
  | staging | spill | copy
  | neighbour
  | metadata | scrubber
  deriving DecidableEq, Repr

structure Drc where
  trainDone : Bool := false
  rate : Nat := 0
  linkEcc : Bool := false
  missing : BitVec 16 := 0
  mult : Nat := 2
  mr4 : Bool := false
  nbrDist : Bool := false
  nbrProb : Nat := 0
  nbrIssued : Nat := 0
  nbrDropped : Nat := 0
  panic : BitVec 4 := 0
  rtOff : Nat := 0
  rtOn : Nat := 0
  panics : Nat := 0
  pauses : Nat := 0
  srState : Nat := 0
  srMaxWait : Nat := 0
  ceCnt : Nat := 0
  ceThr : Nat := 0
  ceFired : Bool := false
  ueData : Nat := 0
  ueAddrC : Nat := 0
  ueLink : Nat := 0
  ueCmd : Nat := 0
  ueAddr : Word := 0
  ceAddr : Word := 0
  lock : Bool := false
  /-- fill of each channel FIFO in sixteenths (R280) -/
  fifo : Tbl Nat := []
  /-- WCK-to-DQ adjustments made (R276) -/
  adjusts : Nat := 0
  /-- refresh intervals whose refresh a panic has postponed (R279, R280) -/
  postponed : Nat := 0
  /-- fitted capacity in GiB -/
  gib : Nat := 0
  deriving DecidableEq, Repr

/-- What a Scrub Range has found so far (R297). -/
structure ScrubSum where
  corrected : Nat := 0
  uncorr : Nat := 0
  addrflt : Nat := 0
  regions : Nat := 0
  firstUe : Option Nat := none
  lastUe : Option Nat := none
  firstCe : Option Nat := none
  /-- an uncorrectable word was not recovered -/
  lost : Bool := false
  deriving DecidableEq, Repr

structure Ecc where
  ceCnt : Nat := 0
  ceThr : Nat := 0
  ceFired : Bool := false
  dupFail : Nat := 0
  ueCnt : Nat := 0
  ueAddr : Word := 0
  ceAddr : Word := 0
  trapBlock : Nat := 0
  trapCnt : Nat := 0
  scrubBusy : Bool := false
  scrubMem : Bool := false
  scrubDone : Nat := 0
  scrubSum : ScrubSum := {}
  scrubCtx : Nat := 0
  scrubStart : Nat := 0
  scrubLen : Nat := 0
  lock : Bool := false
  deriving DecidableEq, Repr

/-! ### Keys -/

/-- A key owner's generations (R300, R301, R309). -/
structure KeyOwner where
  cur : Nat := 0
  oldest : Nat := 0
  /-- slots: generation ↦ draw of its key (the live ones and the next one) -/
  slots : Tbl Nat := []
  /-- zones, units and uncommitted writes that name a live generation -/
  refs : Tbl Nat := []
  /-- units charged to the current generation -/
  use : Nat := 0
  nearSent : Bool := false
  deriving DecidableEq, Repr

structure Key where
  limitLog2 : Nat := 0
  epoch : Nat := 0
  owners : Tbl KeyOwner := []
  sel : Nat := 0
  alarms : Nat := 0
  retries : Nat := 0
  lock : Bool := false
  /-- the entropy source fails its health tests (R302) -/
  entropyBad : Bool := false
  /-- draws whose unwrapped key stands in the key RAM, the least recently used first (R303) -/
  ram : List Nat := []
  /-- a zeroize has cleared the key RAM: every unit that reaches Gauntlet fails (R316) -/
  cleared : Bool := false
  deriving DecidableEq, Repr

/-! ### Cascade -/

/-- Member states (R326). -/
inductive MSt where
  | absent | joining | refused | held | active | fenced | excluded
  deriving DecidableEq, Repr

/-- A member as the crown sees it (R326-R337). -/
structure Member where
  st : MSt := .absent
  reason : Nat := 0
  misses : Nat := 0
  leases : List Nat := []
  manifest : Nat := 0
  /-- security versions reported in IDENT -/
  svns : List Nat := []
  dies : Nat := 0
  cfgDigest : BitVec 256 := 0
  shared : BitVec 256 := 0
  check : Nat := 0
  matched : Bool := false
  drift : Int := 0
  contact : Nat := 0
  fenceStamp : Nat := 0
  /-- resynchronisation: 0 none, 1 waiting for S, 2 snapshot sent, waiting for the digest (R335) -/
  resync : Nat := 0
  /-- the snapshot stamp S -/
  snapAt : Nat := 0
  lastRenew : Nat := 0
  vote : Nat := 0
  idle : Bool := true
  /-- woken, and the lease renew is not yet acknowledged (R366) -/
  waitRenew : Bool := false
  deriving DecidableEq, Repr

/-- A message kept until it is acknowledged (R322): VC, MSEQ, type, times sent. -/
structure Unacked where
  vc : Nat
  mseq : Nat
  type : Nat
  /-- payload bytes, and what it carries -/
  len : Nat := 0
  body : List Nat := []
  /-- 0: waits for credits -/
  sends : Nat := 1
  deriving DecidableEq, Repr

/-- One Ubpel port (R319-R324, R338). -/
structure Port where
  /-- 0 down, 1 training, 2 HELLO, 3 AUTH, 4 keyed, 5 joined -/
  phase : Nat := 0
  downCause : Nat := 0
  retries : Nat := 0
  dups : Nat := 0
  gaps : Nat := 0
  fseqTx : Nat := 0
  tagRun : Nat := 0
  tagFail : Nat := 0
  /-- next MSEQ to send and expected, by VC -/
  txSeq : Tbl Nat := []
  rxSeq : Tbl Nat := []
  credits : Tbl Nat := []
  unacked : List Unacked := []
  peerKey : BitVec 384 := 0
  downAt : Nat := 0
  rekeys : Nat := 0
  eqRefreshes : Nat := 0
  deriving DecidableEq, Repr

structure Cas where
  crown : Bool := false
  auto : Bool := false
  chip : Nat := 0
  named : BitVec 4 := 0
  joinwait : Nat := 0
  joinwaitDone : Bool := false
  result : Nat := 0
  /-- the chip and the action of CAS_CTL that wait for a stamp (R328) -/
  todo : Option (Nat × Nat) := none
  members : Tbl Member := []
  ports : Tbl Port := []
  /-- a member's own view: leases it holds and whether each is unexpired (R331), applied stamp. Its replica of the zone table is
  `zones`, in which the zones that lie on other chips have no rows -/
  myLeases : Tbl Bool := []
  applied : Nat := 0
  held : List StampMsg := []
  /-- entries applied since the last check tick, which a snapshot of that tick comes before -/
  recent : List StampMsg := []
  /-- entries above the snapshot stamp are held until the snapshot is complete (R335) -/
  snap : Bool := false
  /-- the parts of the snapshot received so far -/
  snapBuf : Tbl ZoneImg := []
  snapToks : List TokImg := []
  /-- the last check stamp compared, and the crown's shared digest there (R337) -/
  lastCheck : Nat := 0
  lastShared : BitVec 256 := 0
  /-- Firmware Commit at work across the cascade (R446): 1 waiting for READY, 2 for ARMED; on a member 1: prepared since the link came up -/
  voteStep : Nat := 0
  deriving DecidableEq, Repr

/-! ### Meter island -/

/-- Cumulative quantities of an owner instance (R344, R350). -/
structure Tally where
  owner : Nat
  inst : Nat
  prov : Nat := 0
  occ : Nat := 0
  rd : Nat := 0
  wr : Nat := 0
  energy : Nat := 0
  dieUs : Nat := 0
  /-- OCC and die time at the last interval close -/
  occMark : Nat := 0
  dieMark : Nat := 0
  eflags : Nat := 0
  deriving DecidableEq, Repr

/-- Use of an owner's present instance as the meter tally stage of the main chip keeps it (R344, R345): PROV and OCC in
byte·ns, die time in ns; `told` says that the island has been sent these values. -/
structure TStage where
  inst : Nat := 0
  prov : Nat := 0
  occ : Nat := 0
  rd : Nat := 0
  wr : Nat := 0
  die : Nat := 0
  told : Bool := true
  deriving DecidableEq, Repr

/-- A meter record (R349, R350, R362): its header and entries, without the signature's bytes. -/
structure MRec where
  type : Nat
  level : Nat := 0
  flags : Nat := 0
  recno : Nat
  firstno : Nat
  tStart : Nat := 0
  tEnd : Nat := 0
  crownEnd : Nat := 0
  stampLast : Nat := 0
  sealCnt : Nat := 0
  minutes : Nat := 0
  eTotal : Nat := 0
  prev : BitVec 384 := 0
  tailhash : BitVec 384 := 0
  swck : BitVec 256 := 0
  entries : List Tally := []
  /-- audit body (R362): kind, parameter, old and new values, and the previous checksum -/
  audit : Option (Nat × Nat × Nat × Nat × Nat) := none
  deriving DecidableEq, Repr

structure Mtr where
  /-- the tally stage, by owner -/
  stage : Tbl TStage := []
  /-- final values of destroyed instances that the island has not yet been sent -/
  gone : List TallyRow := []
  /-- the island has lost its supply since it last ran (R340, R353) -/
  lost : Bool := false
  run : Bool := false
  halt : Nat := 0
  sealOpen : Bool := false
  clkFault : Bool := false
  x32Ok : Bool := true
  x25Ok : Bool := true
  zoneFull : Bool := false
  swid : Dword := 0
  swck : BitVec 256 := 0
  sealedSwck : BitVec 256 := 0
  sealCnt : Nat := 0
  time : Nat := 0
  /-- interval under way: start, energy in µJ and its fraction, flags -/
  tStart : Nat := 0
  energy : Nat := 0
  frac : Nat := 0
  eTotal : Nat := 0
  adcOvr : Bool := false
  tallyFault : Bool := false
  sealSeen : Bool := false
  restored : Bool := false
  lastStamp : Nat := 0
  lastCrown : Nat := 0
  tallies : List Tally := []
  nextRec : Nat := 1
  lastLink : BitVec 384 := 0
  buffer : List MRec := []
  zone : List MRec := []
  acked : Nat := 0
  ackResult : Nat := 0
  /-- an acknowledgement waiting for a merge to be stored (R357) -/
  merging : Option MRec := none
  ackWait : Option Nat := none
  merges : Nat := 0
  mergeFails : Nat := 0
  powerMw : Nat := 0
  paramSel : Nat := 0
  paramVal : BitVec 128 := 0
  params : Tbl Nat := []
  paramBusy : Bool := false
  paramResult : Nat := 0
  recSel : Word := 0
  window : Option MRec := none
  windowNone : Bool := false
  deriving DecidableEq, Repr

/-! ### Power, hold-up, thermal -/

structure Pwr where
  lowreg : Bool := false
  /-- 0 Run, 1 entering Stop, 2 Stop, 3 waking -/
  st : Nat := 0
  wakeCause : BitVec 8 := 0
  entries : Nat := 0
  aborts : Nat := 0
  rcFatal : Bool := false
  rcSaved : Bool := false
  rcAobor : Bool := false
  rcPor : Bool := true
  aoPeak : Nat := 0
  deriving DecidableEq, Repr

structure Brm where
  vchg : Nat := 0
  vstop : Nat := 0
  isave : Nat := 0
  eta : Nat := 0
  rtest : Nat := 0
  cmin : Nat := 0
  period : Nat := 0
  esrmax : Nat := 0
  st : Nat := 0
  chg : Bool := false
  pfail : Bool := false
  lowcap : Bool := false
  highesr : Bool := false
  ovr : Bool := false
  /-- bank voltage in mV, and its samples of the last 10 ms: (crown time, mV), newest first -/
  vbank : Nat := 0
  vhist : List (Nat × Nat) := []
  iset : Nat := 0
  cap : Nat := 0
  esr : Nat := 0
  /-- a test has completed since the boot (R375) -/
  tested : Bool := false
  /-- the bank stands above V_CHG + 1.0 V (R373) -/
  overV : Bool := false
  testTime : Nat := 0
  testResult : Nat := 4
  budget : Nat := 0
  eMj : Nat := 0
  saveMs : Nat := 0
  saveKind : Nat := 0
  saveBytes : Nat := 0
  lossZones : Nat := 0
  lossUnits : Nat := 0
  lock : Bool := false
  deriving DecidableEq, Repr

/-- A Heather site (R386-R398). -/
structure Site where
  broken : Bool := false
  cause : Nat := 0
  fast : Bool := false
  temp : Int := 0
  read : Bool := false
  /-- readings of the last 1.25 s: (crown time, reading), newest first -/
  hist : List (Nat × Int) := []
  /-- since when r has been at least 1.5 °C/s at every evaluation (R391) -/
  riseFrom : Option Nat := none
  /-- since when the site has read at least 3 °C below the lower edge of the band (R388), or differed from its median (R395) -/
  coolFrom : Option Nat := none
  /-- since when the site has read at least 3 °C below the edge that lengthened the taps (R44) -/
  tapFrom : Option Nat := none
  devFrom : Option Nat := none
  deriving DecidableEq, Repr

structure Region where
  band : Nat := 4
  held : Bool := false
  deriving DecidableEq, Repr

structure Thm where
  sites : Tbl Site := []
  regions : Tbl Region := []
  steps : Nat := 0
  step : Nat := 0
  floor : Nat := 0
  aTherm : Bool := false
  aLimit : Bool := false
  aBroken : Bool := false
  aRise : Bool := false
  down : Nat := 0
  lock : Bool := false
  thermN : Bool := false
  /-- since when every region has read below 110 °C -/
  coolSince : Option Nat := none
  /-- since when no site's r has been at or above 0.5 °C/s and no alarm raised -/
  calmSince : Option Nat := none
  lastStepAt : Option Nat := none
  /-- delay taps in force, by region, and the code due at the next gap between handshakes (R43, R44) -/
  taps : Tbl Nat := []
  tapsDue : Tbl Nat := []
  marginCnt : Nat := 0
  deriving DecidableEq, Repr

structure MonChan where
  ovr : Bool := false
  settle : Bool := false
  code : Nat := 0
  value : Int := 0
  deriving DecidableEq, Repr

structure Mon where
  chans : Tbl MonChan := []
  ovrSeen : BitVec 24 := 0
  stopFrame : Bool := false
  sagv : Nat := 0
  thermMap : Nat := 0
  /-- conversions still to carry SETTLE (R402) -/
  settleLeft : Nat := 0
  /-- consecutive channel 11 samples below SAG_V (R379) -/
  sagRun : Nat := 0
  div11 : Nat := 0
  div12 : Nat := 0
  ichgFs : Nat := 0
  ntcB : Nat := 0
  ntcR25 : Nat := 0
  deriving DecidableEq, Repr

/-! ### Boot, update, Bonnet, NOR and the system zone -/

structure Upd where
  stage : Nat := 0
  stop : Nat := 0
  devcfg : Bool := false
  firstcfg : Bool := false
  clean : Bool := false
  nosusp : Bool := false
  ms : Nat := 0
  booted : Nat := 3
  fallback : Bool := false
  failA : Nat := 0
  failB : Nat := 0
  cfgRev : Nat := 0
  norMib : Nat := 0
  norMhz : Nat := 0
  digest : BitVec 256 := 0
  fetches : Nat := 0
  retries : Nat := 0
  suspends : Nat := 0
  /-- microcode blocks in the fetch cache, least recently used first (R413) -/
  cache : List Nat := []
  deriving DecidableEq, Repr

/-- An entry of the Failed Update Record (R450). -/
structure FailRec where
  time : Nat
  chip : Nat
  stage : Nat
  code : Nat
  slot : Nat
  fromRev : Nat
  toRev : Nat
  ledger : Nat
  deriving DecidableEq, Repr

/-- A previous copy of the settings ledger, kept while a trial lasts (R449). -/
structure LedgerCopy where
  format : Nat
  slices : Tbl Slice
  nss : Tbl Ns
  owners : Tbl KeyOwner
  c0 : Option Nat
  c1 : Option Bool
  deriving DecidableEq, Repr

/-- A Tussock record (R458). -/
structure LogRec where
  time : Nat
  stamp : Nat
  source : Nat
  code : Nat := 0
  stamped : Bool := false
  restored : Bool := false
  owner : Nat := 0x7ff
  arg0 : Word := 0
  arg1 : Word := 0
  arg2 : Word := 0
  arg3 : Word := 0
  seq : Nat := 0
  valid : Bool := true
  deriving DecidableEq, Repr

structure Log where
  slots : Tbl LogRec := []
  next : Nat := 0
  dropped : Nat := 0
  seq : Nat := 0
  clearing : Bool := false
  held : List LogRec := []
  sel : Nat := 0
  deriving DecidableEq, Repr

/-- What NOR and the system zone keep across every power loss (R408, R409, R426, R438, R447, R449). -/
structure Nv where
  bootSeq : Nat := 0
  current : Nat := 0
  next : Nat := 255
  stgOwner : Nat := 0
  pldmStamp : Nat := 0
  stgBlocks : Tbl UnitData := []
  stgErasing : Bool := false
  /-- size of the PLDM component, in bytes -/
  stgLen : Nat := 0
  /-- blocks that are neither blank nor present (R439) -/
  stgDirty : List Nat := []
  /-- a discard that waits for the piece being written -/
  stgDiscard : Bool := false
  actState : Nat := 0
  actFrom : Nat := 0
  actTo : Nat := 0
  actFromRev : Nat := 0
  actToRev : Nat := 0
  actClean : Nat := 0
  slotRevA : Nat := 0
  slotRevB : Nat := 0
  /-- firmware revision strings of the slots' manifests, for log page 03h -/
  slotFrA : List Nat := []
  slotFrB : List Nat := []
  failRecs : List FailRec := []
  failCount : Nat := 0
  /-- system zone: an anchor exists; its digest; the clean marker; a save completed without the marker -/
  anchor : Bool := false
  digest : BitVec 256 := 0
  clean : Bool := false
  fatalSaved : Bool := false
  savedNext : Nat := 0
  /-- the Tussock log as a save left it (R380, R428) -/
  savedLog : Option Log := none
  /-- media time as the last checkpoint or save left it (R182) -/
  savedMedia : Nat := 0
  /-- BRM_SAVE as the last save left it (R385) -/
  saveKind : Nat := 0
  saveMs : Nat := 0
  saveBytes : Nat := 0
  ledgerFormat : Nat := 0
  prevLedger : Option LedgerCopy := none
  ledgerGen : Nat := 0
  savedC0 : Option Nat := none
  savedC1 : Option Bool := none
  unsafe_ : Nat := 0
  /-- PLDM session (R441): transfer size, and its state: 0 none, 1 learning, 2 ready, 3 download, 4 verify, 5 apply, 6 applied -/
  pldmMax : Nat := 0
  pldmState : Nat := 0
  /-- self-contained activation asked for -/
  pldmSelf : Bool := false
  /-- a package is copied to a slot -/
  copying : Bool := false
  /-- blocks of a piece still to be written, lowest first; the first is being erased; the download that waits -/
  norQueue : Tbl UnitData := []
  norErase : Bool := false
  norCtx : Option Nat := none
  /-- commit at work: 0 none, else action + 1, 4 a member's preparation, 5 a PLDM apply; its command; slot, revision and FR -/
  commitAct : Nat := 0
  commitCtx : Option Nat := none
  commitTarget : Nat := 0
  commitRev : Nat := 0
  commitFr : List Nat := []
  deriving DecidableEq, Repr

structure Efl where
  /-- words programmed since their sector was erased or shipped: sector * 256 + word ↦ value (R430) -/
  words : Tbl Word := []
  addr : Dword := 0
  data : Word := 0
  busy : Bool := false
  result : Nat := 0
  corr : Bool := false
  nocert : Bool := false
  pw : BitVec 128 := 0
  pwSet : Option (BitVec 128) := none
  unlocked : Bool := false
  lockout : Bool := false
  attempts : Nat := 0
  prot : BitVec 64 := 0
  protNew : BitVec 64 := 0
  ctlSeq : Nat := 0
  rdpResult : Nat := 0
  rdpBusy : Bool := false
  viol : Nat := 0
  /-- sealed-class sectors erased since the contents numbered `gen` were written -/
  erased : List Nat := []
  gen : Nat := 0
  /-- meter programs written so far (R361) -/
  mtrGen : Nat := 0
  /-- the operation under way: 0 none, 2 program, 3 erase; its address, its word, and the sector of an erase -/
  opKind : Nat := 0
  opSector : Nat := 0
  opWord : Nat := 0
  opData : Word := 0
  deriving DecidableEq, Repr

/-! ### Events and the log -/

/-- An event route (R467). -/
structure Route where
  en : Bool
  log : Bool
  sb : Bool
  msi : Bool
  vec : Nat
  deriving DecidableEq, Repr

structure Evt where
  routes : Tbl Route := []
  pend : BitVec 320 := 0
  ibien : Bool := true
  badvec : Bool := false
  last : Nat := 0
  latch : BitVec 4 := 0
  stuck : Bool := false
  rsp : List Nat := [0, 0, 0, 0]
  /-- an in-band interrupt is outstanding until every SB-routed pending bit is clear (R456) -/
  ibiOut : Bool := false
  /-- one asked for in Stop, raised after the wake -/
  ibiWait : Bool := false
  glitchArmed : Bool := false
  glitchStanding : Bool := false
  shieldBroken : Bool := false
  /-- MSI-X: entries whose mask bit is clear; the function is masked or MSI-X is not enabled; pending bit array -/
  unmasked : List Nat := []
  /-- MSI-X table: entry ↦ message address [63:0] and data [95:64] -/
  msixTbl : Tbl (BitVec 96) := []
  fmask : Bool := true
  /-- sources that fired while the link was down or in Stop, their message to be sent on return to L0 (R455) -/
  msiWait : List Nat := []
  pba : List Nat := []
  mboxPend : BitVec 1024 := 0
  /-- responses of alarms that wait for a stamp: bit 0 freeze, bit 1 zeroize (R465) -/
  owed : BitVec 2 := 0
  deriving DecidableEq, Repr

/-! ### Host link, controller, sideband -/

structure Pci where
  /-- rate code of GLB_LINK_STATUS (0: down), width, Flit mode -/
  rate : Nat := 0
  width : Nat := 0
  flit : Bool := false
  perstN : Bool := false
  pasidEn : Bool := false
  /-- the three 64-bit BARs: BAR0, BAR2, BAR4 (R57) -/
  bars : List Word := [0, 0, 0]
  /-- Command: Memory Space Enable, Bus Master Enable -/
  memEn : Bool := false
  bme : Bool := false
  /-- Device Control: Enable Relaxed Ordering (R53), Max Payload Size and Max Read Request Size as encoded (R51) -/
  relaxed : Bool := true
  mps : Nat := 0
  mrrs : Nat := 2
  /-- Device Control 2: the Completion Timeout Value as written, and the timeout in effect in µs (R52) -/
  ctoVal : Nat := 0
  ctoUs : Nat := 50000
  /-- AER: ECRC generation and checking enabled (R51) -/
  ecrcGen : Bool := false
  ecrcChk : Bool := false
  d3hot : Bool := false
  pmeEn : Bool := false
  faultReg : Word := 0
  faultCnt : Nat := 0
  deriving DecidableEq, Repr

/-- An entry of the Error Information log (R73). -/
structure ErrRec where
  count : Nat
  sqid : Nat
  cid : Nat
  status : Status
  lba : Nat := 0
  nsid : Nat := 0
  slice : Nat
  deriving DecidableEq, Repr

/-- The NVMe controller of the physical function (R62-R76). -/
structure Nvme where
  cc : Dword := 0
  rdy : Bool := false
  cfs : Bool := false
  shst : Nat := 0
  aqa : Dword := 0
  asq : Word := 0
  acq : Word := 0
  /-- a shutdown has completed and CC.EN has not been cleared since (R64) -/
  shutDone : Bool := false
  aers : List Nat := []
  /-- asynchronous events waiting for a request: (type, information, log page) -/
  aens : List (Nat × Nat × Nat) := []
  /-- an Error Status event has been reported and not cleared (R501) -/
  dbErr : Bool := false
  /-- namespaces that have changed since the Changed Namespace List was read (R73) -/
  changedNs : List Nat := []
  errLog : List ErrRec := []
  errCount : Nat := 0
  arbitration : Nat := 0
  tempOver : Tbl Nat := []
  tempUnder : Tbl Nat := []
  tler : Nat := 0
  coalesce : Nat := 0
  ivConfig : Tbl Nat := []
  aenCfg : Dword := 0
  kato : Nat := 0
  kaAt : Nat := 0
  /-- dword 0 of Number of Queues: submission and completion queues granted, each minus 1 -/
  nQueues : Nat := 0
  stopIdle : Nat := 0
  strictDef : Bool := true
  /-- sanitize: 0 none, 1 running, 2 completed, 3 failed; and its context -/
  sani : Nat := 0
  saniKind : Nat := 0
  /-- CDW10 of the last Sanitize -/
  saniDw : Dword := 0
  /-- block keys whose erase the sanitize waits for, and blocks that survived R198 -/
  saniErase : List Nat := []
  /-- stamp and kind of the Sanitize at work: 2 block erase, 4 crypto erase -/
  saniStamp : Nat := 0
  saniBlock : Bool := false
  saniFails : Nat := 0
  unitsRead : Nat := 0
  unitsWritten : Nat := 0
  mediaErrors : Nat := 0
  deriving DecidableEq, Repr

/-- A kept sideband response (R480). -/
structure Kept where
  seq : Nat
  cc : Nat
  data : List Dword
  deriving DecidableEq, Repr

structure Side where
  /-- port * 256 + endpoint ID ↦ the last request performed -/
  kept : Tbl Kept := []
  addr : Tbl Nat := []
  ibiEn : Tbl Bool := []
  deriving DecidableEq, Repr

/-! ### What leaves the chip -/

/-- One item put on the host link, a sideband port or a Ubpel port; the trace is the model's view of its pins. -/
inductive Out where
  /-- a completion entry, with the PASID that its DMA carries (R60): completion queue, dwords 0-3 -/
  | cqe (pasid : Option Nat) (cq : Nat) (dw0 dw1 dw2 dw3 : Dword)
  | msi (vec : Nat)
  | notice (pasid slice type arg0 arg1 nseq : Nat) (phase : Bool)
  /-- a unit of a read, with its PASID, whether it carries Relaxed Ordering (R53), and the pieces of host memory it goes to -/
  | readUnit (pasid : Option Nat) (relaxed : Bool) (ctx unit plain md : Nat) (segs : List (Nat × Nat))
  /-- bytes `[off, off+len)` of a structure for a PF command given by its fields that are not zero: (offset, bytes, value); no
  PASID -/
  | hostData (ctx off len : Nat) (flds : List (Nat × Nat × Nat))
  | ibi (port : Nat)
  | sideband (port eid seq cc : Nat) (dws : List Dword)
  | frame (port type vc mseq fseq : Nat) (body : List Nat)
  | pldm (code : Nat) (vals : List Nat)
  | i3c (port : Nat) (vals : List Nat)
  /-- a tally batch on the way to the island (R345) -/
  | tally (stamp crownNs : Nat) (rows : List TallyRow)
  | readReply (slice : Nat) (allOnes : Bool)
  /-- a corrected word or burst is written back (R288): DRAM or not, its address, and its bits with their check bits -/
  | writeBack (dram : Bool) (addr bits : Nat)
  deriving DecidableEq, Repr

/-- Why a step stops with a fault. No command of this block does: the spec gives an effect, a wait or a
refusal status to each, so the type has no constructor. -/
inductive Fault where
  deriving DecidableEq, Repr

/-- Why a step refuses. -/
inductive Refusal where
  /-- the command has no meaning in this model yet; raised by `exec`'s refused arms only; safe -/
  | notModelled (mnemonic : String)
  deriving DecidableEq, Repr

/-- The GZ-960. -/
structure State where
  pending : List Instr
  now : Nat
  free : Nat
  out : List Out
  img : Option Image
  manifest : Option Manifest
  pci : Pci
  nvme : Nvme
  sqs : Tbl Sq
  cqs : Tbl Cq
  qrecs : Tbl QRec
  ctxs : Tbl Ctx
  slices : Tbl Slice
  nss : Tbl Ns
  zones : Tbl Zone
  gate : Gate
  staging : Tbl Staged
  toks : Tbl (List Tok)
  bpm : Bpm
  dma : Dma
  /-- lanes of the Sward, by receiving and sending port (R17, R266) -/
  sward : Tbl Lane
  blocks : Tbl BInfo
  dies : Tbl Die
  /-- what the page rows hold, by die, block, page row and slot (R178, R203) -/
  flash : Tbl Codeword
  fch : Fch
  zne : Zne
  par : Par
  lat : Lat
  drc : Drc
  ecc : Ecc
  key : Key
  cas : Cas
  mtr : Mtr
  pwr : Pwr
  brm : Brm
  thm : Thm
  mon : Mon
  upd : Upd
  nv : Nv
  efl : Efl
  evt : Evt
  log : Log
  side : Side
  deriving DecidableEq, Repr

/-- The chip right after its power-on reset, as shipped: nothing loaded, nothing configured, every RO and RW
field at the Reset column's number, every cfg field 0 (R12). -/
def State.reset : State where
  pending := []
  now := 0
  free := 0
  out := []
  img := none
  manifest := none
  pci := {}
  nvme := {}
  sqs := []
  cqs := []
  qrecs := []
  ctxs := []
  slices := []
  nss := []
  zones := []
  gate := {}
  staging := []
  toks := []
  bpm := {}
  dma := {}
  sward := []
  blocks := []
  dies := []
  flash := []
  fch := {}
  zne := {}
  par := {}
  lat := {}
  drc := {}
  ecc := {}
  key := {}
  cas := {}
  mtr := {}
  pwr := {}
  brm := {}
  thm := {}
  mon := {}
  upd := {}
  nv := {}
  efl := {}
  evt := {}
  log := {}
  side := {}

end Sys2Proof.Machine
end

