-- ==== Sys2Proof/Machine/Table.lean ====
section
/-! DEFINITION. Finite tables keyed by a number, kept with rising keys, and the list helpers that every block uses. -/

namespace Sys2Proof

/-- The value under a key. -/
def Tbl.look {α : Type} : Tbl α → Nat → Option α
  | [], _ => none
  | (a, v) :: t, k => if a = k then some v else Tbl.look t k

/-- The value under a key, or a default. -/
def Tbl.get {α : Type} (t : Tbl α) (k : Nat) (d : α) : α := (t.look k).getD d

/-- Put a value under a key. -/
def Tbl.put {α : Type} : Tbl α → Nat → α → Tbl α
  | [], k, v => [(k, v)]
  | (a, w) :: t, k, v =>
    if a = k then (k, v) :: t
    else if k < a then (k, v) :: (a, w) :: t
    else (a, w) :: Tbl.put t k v

/-- Remove a key. -/
def Tbl.del {α : Type} : Tbl α → Nat → Tbl α
  | [], _ => []
  | (a, w) :: t, k => if a = k then Tbl.del t k else (a, w) :: Tbl.del t k

/-- Apply a function to the value under a key, if there is one. -/
def Tbl.edit {α : Type} (t : Tbl α) (k : Nat) (f : α → α) : Tbl α :=
  match t.look k with
  | some v => t.put k (f v)
  | none => t

/-- Apply a function to the value under a key, or to a default. -/
def Tbl.upd {α : Type} (t : Tbl α) (k : Nat) (d : α) (f : α → α) : Tbl α := t.put k (f (t.get k d))

def Tbl.has {α : Type} (t : Tbl α) (k : Nat) : Bool := (t.look k).isSome

/-- Apply a function to every value. -/
def Tbl.mapV {α : Type} (t : Tbl α) (f : Nat → α → α) : Tbl α := t.map fun p => (p.1, f p.1 p.2)

/-- Keys whose value satisfies a test, rising. -/
def Tbl.keysWhere {α : Type} (t : Tbl α) (f : Nat → α → Bool) : List Nat :=
  (t.filter fun p => f p.1 p.2).map (·.1)

def Tbl.count {α : Type} (t : Tbl α) (f : Nat → α → Bool) : Nat := (t.filter fun p => f p.1 p.2).length

def Tbl.sum {α : Type} (t : Tbl α) (f : Nat → α → Nat) : Nat := t.foldl (fun n p => n + f p.1 p.2) 0

def Tbl.any {α : Type} (t : Tbl α) (f : Nat → α → Bool) : Bool := List.any t fun p => f p.1 p.2

def Tbl.all {α : Type} (t : Tbl α) (f : Nat → α → Bool) : Bool := List.all t fun p => f p.1 p.2

/-- The lowest key not in use, counting up from `n`. -/
def Tbl.freeFrom {α : Type} : Tbl α → Nat → Nat
  | [], n => n
  | (a, _) :: t, n => if a = n then Tbl.freeFrom t (n + 1) else if a < n then Tbl.freeFrom t n else n

/-- The canonical form: keys strictly rising. -/
def Tbl.wf {α : Type} : Tbl α → Bool
  | [] => true
  | [_] => true
  | (a, _) :: (b, w) :: t => decide (a < b) && Tbl.wf ((b, w) :: t)

/-- Insert a number into a rising list without repeats. -/
def insNat (n : Nat) : List Nat → List Nat
  | [] => [n]
  | a :: t => if n = a then a :: t else if n < a then n :: a :: t else a :: insNat n t

/-- A list with its element at an index replaced. -/
def setAt {α : Type} (l : List α) (i : Nat) (v : α) : List α := l.set i v

/-- A fold over a list of numbers that carries a state. -/
def forNats {σ : Type} (l : List Nat) (s : σ) (f : σ → Nat → σ) : σ := l.foldl f s

/-- Saturating count. -/
def satAdd (cap a n : Nat) : Nat := min cap (a + n)

/-- The least element of a list of numbers, or a default for the empty list. -/
def minNat (l : List Nat) (d : Nat) : Nat :=
  match l with
  | [] => d
  | a :: t => t.foldl min a

/-- The number of set bits of the lowest `n` bits. -/
def popcount (v : Nat) : Nat → Nat
  | 0 => 0
  | n + 1 => (if v.testBit n then 1 else 0) + popcount v n

/-- Division that rounds up. -/
def ceilDiv (a b : Nat) : Nat := (a + b - 1) / b

/-- Bits `lo` to `lo + n - 1` of a number. -/
def bitsAt (v lo n : Nat) : Nat := (v >>> lo) % 2 ^ n

end Sys2Proof
end

