-- ==== Sys2Proof/Machine/Flags.lean ====
section
/-! DEFINITION. The status codes (R77, R499, with the NVMe code numbers of NVMe Base 2.0 and ZNS 1.1) and the
encodings of status words: completion dword 3 (R79), slice states (R81), zone states (R145). -/

namespace Sys2Proof.Machine

/-- A flag at bit `n`. -/
def bit (b : Bool) (n : Nat) : Nat := if b then 2 ^ n else 0

/-- A generic, command-specific or media status with DNR 1 / 0. -/
def Status.mk1 (sct sc : Nat) : Status := ⟨sct, sc, true⟩
def Status.mk0 (sct sc : Nat) : Status := ⟨sct, sc, false⟩

def stOk : Status := ⟨0, 0, false⟩
def stInvOpcode : Status := .mk1 0 0x01
def stInvField : Status := .mk1 0 0x02
def stInternal : Status := .mk0 0 0x06
def stAbortReq : Status := .mk0 0 0x07
def stSqDeletion : Status := .mk0 0 0x08
def stInvNs : Status := .mk1 0 0x0b
def stSequence : Status := .mk0 0 0x0c
/-- Order 2 of R440: DNR 1. -/
def stSequence1 : Status := .mk1 0 0x0c
def stSglCount : Status := .mk1 0 0x0e
def stSglLength : Status := .mk1 0 0x0f
def stSglType : Status := .mk1 0 0x11
def stPrpOffset : Status := .mk1 0 0x13
def stSanitize : Status := .mk0 0 0x1d
def stLbaRange : Status := .mk1 0 0x80
def stCapacity : Status := .mk0 0 0x81
def stNotReady : Status := .mk0 0 0x82
def stCqInvalid : Status := .mk1 1 0x00
def stQid : Status := .mk1 1 0x01
def stQsize : Status := .mk1 1 0x02
def stAbortLimit : Status := .mk0 1 0x03
def stAerLimit : Status := .mk0 1 0x05
def stFwSlot : Status := .mk1 1 0x06
def stFwImage : Status := .mk1 1 0x07
def stIntVector : Status := .mk1 1 0x08
def stLogPage : Status := .mk1 1 0x09
def stFwReset : Status := .mk1 1 0x0b
def stQdelete : Status := .mk1 1 0x0c
def stNotSaveable : Status := .mk1 1 0x0d
/-- Firmware Activation Prohibited: DNR 1 at order 6 of R445, 0 when R446 ends the command (R499). -/
def stFwProhibited (dnr : Bool) : Status := ⟨1, 0x13, dnr⟩
def stOverlap : Status := .mk1 1 0x14
def stNsCapacity : Status := .mk1 1 0x15
def stNsIdUnavail : Status := .mk1 1 0x16
def stNsAttached : Status := .mk1 1 0x18
def stNsNotAttached : Status := .mk1 1 0x1a
def stCtrlList : Status := .mk1 1 0x1c
def stZoneOp : Status := .mk1 1 0xb6
def stZoneFull : Status := .mk1 1 0xb9
def stZoneRo : Status := .mk1 1 0xba
def stZoneOffline : Status := .mk1 1 0xbb
def stZoneWrite : Status := .mk1 1 0xbc
def stTooManyActive : Status := .mk0 1 0xbd
def stTooManyOpen : Status := .mk0 1 0xbe
def stZoneTransition : Status := .mk1 1 0xbf
def stUnrecovered : Status := .mk1 2 0x81
def stGuard : Status := .mk1 2 0x82
def stSliceFrozen : Status := .mk0 7 0x80
def stPoolEmpty : Status := .mk0 7 0x81
def stKeyLimit : Status := .mk0 7 0x82
def stDupAppend : Status := .mk0 7 0x83
def stFence : Status := .mk1 7 0x84
def stRangeCrosses : Status := .mk1 7 0x85
def stDmaHalted : Status := .mk0 7 0x86
def stMemberFenced : Status := .mk0 7 0x87
def stSealClosed : Status := .mk1 7 0x88
def stDirtyBudget : Status := .mk0 7 0x89

/-- The status field of completion dword 3 with its phase and command identifier (R79). -/
def dword3 (st : Status) (phase : Bool) (cid : Nat) : Dword :=
  BitVec.ofNat 32 (cid + (if phase then 1 else 0) * 2 ^ 16 + st.sc * 2 ^ 17 + st.sct * 2 ^ 25
    + (if st.dnr then 1 else 0) * 2 ^ 31)

/-- A status as a commit record holds it (R47): type in [10:8], code in [7:0]. -/
def Status.recCode (st : Status) : Nat := st.sct * 256 + st.sc

/-- Whether a completion with this status freezes a strict queue (R79, R135). -/
def Status.freezes (st : Status) : Bool := st != stOk && st != stDupAppend

/-- Slice state codes (R81). -/
def SliceSt.code : SliceSt → Nat
  | .none => 0 | .active => 1 | .quiescing => 2 | .quiesced => 3 | .frozen => 4 | .destroying => 5

/-- Zone state codes as NVMe reports them (R145). -/
def Zs.code : Zs → Nat
  | .empty => 1 | .implOpen => 2 | .explOpen => 3 | .closed => 4 | .readOnly => 0xd | .full => 0xe | .offline => 0xf

def Zs.ofCode (n : Nat) : Zs :=
  if n = 1 then .empty else if n = 2 then .implOpen else if n = 3 then .explOpen else if n = 4 then .closed
  else if n = 0xd then .readOnly else if n = 0xe then .full else .offline

def Zs.isOpen (z : Zs) : Bool := z == .implOpen || z == .explOpen
def Zs.isActive (z : Zs) : Bool := z.isOpen || z == .closed

end Sys2Proof.Machine
end

