-- ==== Sys2Proof/Machine/Sward.lean ====
section
/-! DEFINITION. The Sward (R16, R17, R266): its port assignment, and the credits of its receiving ports. A lane is a pair of
ports; what a lane holds is in `State.sward`. -/

namespace Sys2Proof.Machine

open Sys2Proof

/-! ### Ports (R16) -/

/-- The block attached to a port. -/
def swardBlock (p : Nat) : Option SwardBlock :=
  if p ≤ 1 then some .swath
  else if p ≤ 5 then some (.flashGroup (p - 2))
  else if p ≤ 9 then some (.ldpc (p - 6))
  else if p ≤ 13 then some (.dram (p - 10))
  else if p ≤ 17 then some (.sram (p - 14))
  else if p ≤ 19 then some .bracken
  else if p ≤ 22 then some (.ubpel (p - 20))
  else if p = 23 then some .agent
  else none

/-- Host writes and submission fetch in, ciphertext out; host reads and completions. -/
def swathIn : Nat := 0
def swathOut : Nat := 1
/-- Ports of a flash channel's group, and of the LDPC cluster that serves it. -/
def groupPort (ch : Nat) : Nat := 2 + ch / 8 % 4
def ldpcPort (ch : Nat) : Nat := 6 + ch / 8 % 4
/-- DESIGN CHOICE: the spec does not say in which DRAM channel or SRAM bank a buffer lies; unit `u` of a command has the port of
`u` modulo 4. -/
def dramPort (u : Nat) : Nat := 10 + u % 4
def sramPort (u : Nat) : Nat := 14 + u % 4
def brackenIn : Nat := 18
def brackenOut : Nat := 19
def ubpelPort (p : Nat) : Nat := 20 + p % 3
def agentPort : Nat := 23

/-! ### Credits (R17, R266) -/

/-- Flit slots of a receiving port: fixed to each sender, shared by all, and how many shared ones a sender takes. -/
def fixedCredits : Nat := 4
def sharedCredits : Nat := 36
def sharedMax : Nat := 16
/-- 64 cycles at 2.0 GHz, in ns. -/
def laneIdleNs : Nat := 32

def laneKey (src dst : Nat) : Nat := dst * 32 + src

def State.lane (s : State) (src dst : Nat) : Lane := s.sward.get (laneKey src dst) {}

/-- Shared credits that a sender still holds: it returns them once it has been idle toward the port for 64 cycles. -/
def Lane.kept (l : Lane) (now : Nat) : Nat := if l.pend = 0 ∧ l.last + laneIdleNs ≤ now then 0 else l.shared

/-- Shared credits of a receiving port that no sender holds. -/
def State.sharedLeft (s : State) (dst : Nat) : Nat :=
  sharedCredits - s.sward.sum fun k l => if k / 32 = dst then l.kept s.now else 0

/-- Flits in the receiver's slots, and flits that the sender holds for want of a credit. -/
def Lane.slots (l : Lane) : Nat := min l.pend (fixedCredits + l.shared)
def Lane.held (l : Lane) : Nat := l.pend - l.slots

/-- A sender has `n` more flits for a port: it takes shared credits for what its fixed ones do not cover, while any are free. -/
def Lane.send (l : Lane) (n left now : Nat) : Lane :=
  let pend := l.pend + n
  { pend := pend, shared := min (min sharedMax (l.kept now + left)) (max (l.kept now) (pend - fixedCredits)), last := now }

def State.flitsSend (s : State) (src dst n : Nat) : State :=
  { s with sward := s.sward.put (laneKey src dst) ((s.lane src dst).send n (s.sharedLeft dst) s.now) }

/-- The receiver frees the slots of `n` flits of a lane; each freed slot lets a held flit go. -/
def State.flitsTaken (s : State) (src dst n : Nat) : State :=
  { s with sward := s.sward.edit (laneKey src dst) fun l => { l with pend := l.pend - n } }

/-- A transfer whose receiver takes every flit as it comes. -/
def State.flits (s : State) (src dst n : Nat) : State := (s.flitsSend src dst n).flitsTaken src dst n

/-- What waits for a port that goes down is gone. -/
def State.lanesDrop (s : State) (dst : Nat) : State :=
  { s with sward := s.sward.filter fun p => p.1 / 32 != dst }

/-- Flits of `n` bytes. -/
def flitsOf (n : Nat) : Nat := (n + 63) / 64

/-- Flits of a unit as ciphertext with its metadata and CRC (R178), and of one completion or submission entry. -/
def unitFlits : Nat := 65
def entryFlits : Nat := 1

end Sys2Proof.Machine
end

