-- ==== Sys2Proof/Machine/Codes.lean ====
section
/-! DEFINITION. The codes of the memories: SECDED over SRAM words (R284) and Reed-Solomon over DRAM bursts with their addresses
(R286, R287). -/

namespace Sys2Proof.Machine

open Sys2Proof

/-- What a decoder finds: a clean word, one it corrected, an address fault (R287), or one it cannot correct. -/
inductive Decoded where
  | clean
  | corrected (bits : Nat)
  | addressFault
  | uncorrectable
  deriving DecidableEq, Repr

/-- Byte `i` of a little-endian number. -/
def byteAt (v i : Nat) : Nat := v / 256 ^ i % 256

/-! ### SECDED (R284) -/

/-- Ones of an 8-bit number. -/
def ones8 (n : Nat) : Nat := (List.range 8).foldl (fun m i => m + n / 2 ^ i % 2) 0

/-- Columns of the parity check matrix: 64 of odd weight for the data bits, 8 of weight 1 for the check bits. DESIGN CHOICE: the
spec names the code and not its columns; the 56 of weight 3 and then the lowest 8 of weight 5 are taken, in rising order. -/
def hsiao : List Nat :=
  ((List.range 256).filter fun n => ones8 n == 3) ++ ((List.range 256).filter fun n => ones8 n == 5).take 8 ++
    (List.range 8).map fun i => 2 ^ i

/-- Syndrome of the 72 bits `w`, whose low 64 are the data. -/
def secdedSyn (w : Nat) : Nat :=
  hsiao.zipIdx.foldl (fun s p => if w / 2 ^ p.2 % 2 = 1 then s ^^^ p.1 else s) 0

/-- Check bits of a data word, and the 72 bits stored. -/
def secdedCheck (d : Nat) : Nat := secdedSyn (d % 2 ^ 64)
def secdedEncode (d : Nat) : Nat := d % 2 ^ 64 + secdedCheck d * 2 ^ 64

/-- One flipped bit is corrected; two give an even syndrome, which is no column. -/
def secdedDecode (w : Nat) : Decoded :=
  let y := secdedSyn w
  if y = 0 then .clean
  else match hsiao.zipIdx.find? fun p => p.1 == y with
    | some p => .corrected (w ^^^ 2 ^ p.2)
    | none => .uncorrectable

/-! ### Reed-Solomon (R286) -/

/-- A byte times α in GF(2^8) with polynomial 0x11d, and times α^k. -/
def gfX (a : Nat) : Nat := if a < 128 then 2 * a else (2 * a - 256) ^^^ 0x1d
def gfPow (a : Nat) : Nat → Nat
  | 0 => a
  | k + 1 => gfX (gfPow a k)

/-- A product in GF(2^8), over `n` bits of `b`. -/
def gfMulGo (a b : Nat) : Nat → Nat
  | 0 => 0
  | n + 1 => gfX (gfMulGo a (b / 2) n) ^^^ (if b % 2 = 1 then a else 0)

def gfMul (a b : Nat) : Nat := gfMulGo a b 8

/-- a^254 by squares. -/
def gfInv (a : Nat) : Nat :=
  let a2 := gfMul a a
  let a4 := gfMul a2 a2
  let a8 := gfMul a4 a4
  let a16 := gfMul a8 a8
  let a32 := gfMul a16 a16
  let a64 := gfMul a32 a32
  let a128 := gfMul a64 a64
  gfMul a128 (gfMul a64 (gfMul a32 (gfMul a16 (gfMul a8 (gfMul a4 a2)))))

/-- α^i. -/
def alpha (i : Nat) : Nat := gfPow 1 i

/-- Value at `x` of the polynomial with these coefficients, highest first. -/
def polyAt (l : List Nat) (x : Nat) : Nat := l.foldl (fun s c => gfMul s x ^^^ c) 0

/-- Product of polynomials, lowest coefficient first. -/
def polyMul (a b : List Nat) : List Nat :=
  (List.range (a.length + b.length - 1)).map fun k =>
    (List.range a.length).foldl (fun s i => if i ≤ k then s ^^^ gfMul (a.getD i 0) (b.getD (k - i) 0) else s) 0

/-- The 69 message symbols of a burst: its 64 data bytes and the 5 bytes of its address ÷ 64. DESIGN CHOICE: the symbols stand in
the order of R286, the first at the highest power. -/
def rsMessage (addr data : Nat) : List Nat :=
  ((List.range 64).map (byteAt data)) ++ (List.range 5).map (byteAt (addr / 64))

def rsLen : Nat := 77

/-- The generator, with roots α^0 to α^7, highest coefficient first, and monic. -/
def rsGen : List Nat := ((List.range 8).foldl (fun g i => polyMul g [alpha i, 1]) [1]).reverse

/-- One step of the division by the generator: `m` enters the 8 remainder symbols. -/
def rsShift (r : List Nat) (m : Nat) : List Nat :=
  let f := r.headD 0 ^^^ m
  List.zipWith (fun a g => a ^^^ gfMul f g) (r.drop 1 ++ [0]) (rsGen.drop 1)

/-- The 8 check bytes of a burst, the first in byte 0. -/
def rsCheck (addr data : Nat) : Nat :=
  ((rsMessage addr data).foldl rsShift (List.replicate 8 0)).zipIdx.foldl (fun n p => n + p.1 * 256 ^ p.2) 0

/-- The codeword that a read at an address gives: its data, the address asked for, and its check bytes. -/
def rsWord (addr data check : Nat) : List Nat := rsMessage addr data ++ (List.range 8).map (byteAt check)

/-- Syndromes: the word at each root. -/
def rsSyn (w : List Nat) : List Nat := (List.range 8).map fun j => polyAt w (alpha j)

/-- State of the Berlekamp-Massey search: locator, the locator before the last change, its discrepancy, length, and the steps
since that change. Coefficients are lowest first. -/
structure Search where
  loc : List Nat
  prev : List Nat
  disc : Nat
  len : Nat
  gap : Nat
  deriving DecidableEq, Repr

/-- Add `c·x^n·b` to `a`. -/
def polyStep (a b : List Nat) (c n : Nat) : List Nat :=
  (List.range (max a.length (b.length + n))).map fun k => a.getD k 0 ^^^ (if n ≤ k then gfMul c (b.getD (k - n) 0) else 0)

def Search.step (syn : List Nat) (q : Search) (n : Nat) : Search :=
  let d := (List.range (q.len + 1)).foldl (fun s i => if i ≤ n then s ^^^ gfMul (q.loc.getD i 0) (syn.getD (n - i) 0) else s) 0
  if d = 0 then { q with gap := q.gap + 1 }
  else
    let loc := polyStep q.loc q.prev (gfMul d (gfInv q.disc)) q.gap
    if 2 * q.len ≤ n then { loc := loc, prev := q.loc, disc := d, len := n + 1 - q.len, gap := 1 }
    else { q with loc := loc, gap := q.gap + 1 }

def rsLocator (syn : List Nat) : Search :=
  (List.range 8).foldl (Search.step syn) { loc := [1], prev := [1], disc := 1, len := 0, gap := 1 }

/-- Power of the symbol at index `i` of the word, and the indexes that the locator names. -/
def rsPower (i : Nat) : Nat := rsLen - 1 - i
def rsRoots (loc : List Nat) : List Nat :=
  (List.range rsLen).filter fun i => polyAt loc.reverse (gfInv (alpha (rsPower i))) == 0

/-- Error value at index `i` (Forney, first root α^0). -/
def rsValue (syn loc : List Nat) (i : Nat) : Nat :=
  let x := alpha (rsPower i)
  let y := gfInv x
  let omega := (polyMul syn loc).take 8
  let deriv := loc.zipIdx.map fun p => if p.2 % 2 = 1 then p.1 else 0
  gfMul (gfMul x (polyAt omega.reverse y)) (gfInv (polyAt (deriv.drop 1).reverse y))

/-- Is index `i` an address symbol? -/
def rsAddrIx (i : Nat) : Bool := decide (64 ≤ i) && decide (i < 69)

/-- The syndromes are those of a difference in the address symbols alone. -/
def rsAddrOnly (syn : List Nat) : Bool :=
  -- five unknown values from the first five syndromes, by elimination over the five columns; the rest must agree
  let col := fun (i : Nat) => (List.range 8).map fun j => alpha (rsPower i * j % 255)
  let elim := fun (t : List Nat × List (List Nat)) (_ : Nat) =>
    match t.2 with
    | [] => t
    | c :: rest =>
      match (List.range 8).find? fun r => c.getD r 0 != 0 with
      | none => (t.1, rest)
      | some r =>
        let k := gfInv (c.getD r 0)
        let less := fun (v : List Nat) => polyStep v c (gfMul (v.getD r 0) k) 0
        (less t.1, rest.map less)
  ((List.range 5).foldl elim (syn, [64, 65, 66, 67, 68].map col)).1.all (· == 0)

/-- The number whose bytes are those of a list. -/
def ofBytes (l : List Nat) : Nat := l.foldr (fun b n => b + 256 * n) 0

/-- Decode a burst read at an address (R286, R287): up to 3 stored bytes are corrected; an error located at an address symbol, or a
word that differs in address symbols alone, is an address fault. The corrected bits are the data, then the check bytes. -/
def rsDecode (addr data check : Nat) : Decoded :=
  let w := rsWord addr data check
  let syn := rsSyn w
  if syn.all (· == 0) then .clean
  else
    let q := rsLocator syn
    let at_ := rsRoots q.loc
    if q.len ≤ 3 ∧ at_.length = q.len then
      if at_.any rsAddrIx then .addressFault
      else
        let v := w.zipIdx.map fun p => if at_.contains p.2 then p.1 ^^^ rsValue syn q.loc p.2 else p.1
        .corrected (ofBytes (v.take 64 ++ v.drop 69))
    else if rsAddrOnly syn then .addressFault
    else .uncorrectable

/-! ### Bursts in the devices (R28, R286) -/

/-- Physical burst of a usable address, and that of its check bytes: groups of eight, seven of data. -/
def dataBurst (addr : Nat) : Nat := addr / 64 / 7 * 8 + addr / 64 % 7
def checkBurst (addr : Nat) : Nat := addr / 64 / 7 * 8 + 7

/-- The check bytes of a burst among the 64 of its group's check burst. -/
def checkBytes (addr check : Nat) : Nat := check / 256 ^ (addr / 64 % 7 * 8) % 256 ^ 8

/-- The check burst after a write of one burst, under the data mask. -/
def checkPut (addr check v : Nat) : Nat :=
  check - checkBytes addr check * 256 ^ (addr / 64 % 7 * 8) + v % 256 ^ 8 * 256 ^ (addr / 64 % 7 * 8)

/-- A write of `len` bytes at byte `off` of a burst: read, modify, write (R286). -/
def burstMerge (data off len v : Nat) : Nat :=
  ofBytes ((List.range 64).map fun i => if off ≤ i ∧ i < off + len then byteAt v (i - off) else byteAt data i)

/-- A write to a burst: its data and its check bytes, in the group's check burst. -/
def burstWrite (addr data check off len v : Nat) : Nat × Nat :=
  let d := burstMerge data off len v
  (d, checkPut addr check (rsCheck addr d))

end Sys2Proof.Machine
end

