-- ==== Sys2Proof/Machine/Link.lean ====
section
/-! DEFINITION. Sending on a Ubpel port (R320-R322): message and frame sequence numbers, credits, and the messages kept
until they are acknowledged. -/

namespace Sys2Proof.Machine

open Sys2Proof

/-- Put one item on the trace of the pins. -/
def State.say (s : State) (o : Out) : State := { s with out := o :: s.out }

def State.port (s : State) (p : Nat) : Port := s.cas.ports.get p {}

def State.portEdit (s : State) (p : Nat) (f : Port → Port) : State :=
  { s with cas := { s.cas with ports := s.cas.ports.upd p {} f } }

/-- Crown port of a chip (R318). -/
def portOf (chip : Nat) : Nat := chip - 1

/-- Credits of a VC: 64 units of 256 bytes at link-up (R321). -/
def Port.credit (p : Port) (vc : Nat) : Nat := p.credits.get vc 64

/-- Put a message on the link: a new FSEQ, the same MSEQ (R320, R322). -/
def State.frameOut (s : State) (p : Nat) (m : Unacked) : State :=
  let q := s.port p
  (s.portEdit p fun x => { x with fseqTx := x.fseqTx + 1 }).say (.frame p m.type m.vc m.mseq (q.fseqTx + 1) m.body)

/-- Sward port that a message of a type comes from: staged units from Swath, read units from the SRAM, the rest from the system
agent (R16). -/
def msgPort (type : Nat) : Nat := if type = 0x20 then swathIn else if type = 0x31 then sramPort 0 else agentPort

/-- Queue a message on a port; its flits go to the Ubpel port of the Sward (R16), where they wait for the link's credits. It is sent at once when its VC holds enough credits and nothing of the VC waits before
it (R321, R322). A port that is down sends nothing. -/
def State.casSend (s : State) (p vc type len : Nat) (body : List Nat) : State :=
  let q := s.port p
  if q.phase < 4 then s
  else
    let n := ceilDiv len 256
    let mseq := q.txSeq.get vc 1
    let go := decide (n ≤ q.credit vc) && !q.unacked.any fun m => m.vc == vc && m.sends == 0
    let m : Unacked := { vc := vc, mseq := mseq, type := type, len := len, body := body, sends := if go then 1 else 0 }
    let s1 := (s.flitsSend (msgPort type) (ubpelPort p) (flitsOf len)).portEdit p fun x => { x with
      txSeq := x.txSeq.put vc (mseq + 1), unacked := x.unacked ++ [m]
      credits := if go then x.credits.put vc (x.credit vc - n) else x.credits }
    if go then (s1.frameOut p m).flitsTaken (msgPort type) (ubpelPort p) (flitsOf len) else s1

/-- An ACK frame: no credit, never kept; the MSEQ taken in order on each VC, and the credits that the frame just taken off its
receive buffer gives back (R320, R321). -/
def State.ackOut (s : State) (p vc units : Nat) : State :=
  let q := s.port p
  (s.portEdit p fun x => { x with fseqTx := x.fseqTx + 1 }).say
    (.frame p 0 0 0 (q.fseqTx + 1) (((List.range 4).map fun v => q.rxSeq.get v 1 - 1) ++ (List.range 4).map fun v => if v = vc then units else 0))

/-- Members that receive the stamped sequence: JOINING, ACTIVE, or FENCED with the link up (R329). -/
def State.seqMembers (s : State) : List Nat :=
  s.cas.members.keysWhere fun c m => c != 0 && decide (5 ≤ (s.port (portOf c)).phase) &&
    (m.st == .joining || m.st == .active || m.st == .fenced)

/-- A stamped entry with its resolution goes to the members (R329). -/
def State.stampSend (s : State) (body : List Nat) : State :=
  s.seqMembers.foldl (fun s c => s.casSend (portOf c) 0 0x10 64 body) s

end Sys2Proof.Machine
end

