-- ==== Sys2Proof/Machine/Ops.lean ====
section
/-! DEFINITION. The operations every block shares: outputs, interrupt vectors, the event router and the Tussock
log (R453-R463), notices (R108-R111), stamps, epochs, checkpoints and digests (R32-R49), command contexts and the
end of a command (R26, R135), and the state changes of a slice (R82). -/

namespace Sys2Proof.Machine

open Sys2Proof

/-! ### Outputs and vectors -/

def State.linkUp (s : State) : Bool := s.pci.rate != 0

/-- In Stop, or on the way out of it. -/
def State.inStop (s : State) : Bool := s.pwr.st == 2 || s.pwr.st == 3

/-- A fresh free value (R13). -/
def State.freeVal (s : State) : Nat := Config.freeNat s.free
def State.freeStep (s : State) : State := { s with free := s.free + 1 }

/-- PF I/O queue count of the configuration image (R87). -/
def State.pfCount (s : State) : Nat := match s.img with | some i => i.pfQueues | none => 0

/-- Send the message of an MSI-X table entry, or hold it in the pending bit array while masked (R455). -/
def State.msix (s : State) (v : Nat) : State :=
  if !s.linkUp || s.inStop then s
  else if s.evt.fmask || !s.evt.unmasked.contains v then { s with evt := { s.evt with pba := insNat v s.evt.pba } }
  else s.say (.msi v)

/-- A change of the settings ledger commits by writing a new generation (R449). -/
def State.ledger (s : State) : State := { s with nv := { s.nv with ledgerGen := (s.nv.ledgerGen + 1) % 32768 } }

/-! ### Event router -/

/-- Sources whose LOG field is read-only (R467). -/
def logFixed (k : Nat) : Bool :=
  k == 0 || k == 7 || k == 10 || (16 ≤ k && k ≤ 19) || k == 163 || k == 168 || k == 210

/-- EVT_ROUTE_k after reset (R467). -/
def routeReset (k : Nat) : Route where
  en := true
  log := !(96 ≤ k && k ≤ 127)
  sb := k == 0 || (16 ≤ k && k ≤ 19) || k == 21 || k == 24 || k == 27
  msi := false
  vec := 0

def State.route (s : State) (k : Nat) : Route := (s.evt.routes.look k).getD (routeReset k)

/-- The sources that no rule raises (R453). -/
def reservedSource (k : Nat) : Bool :=
  k == 15 || k == 30 || k == 31 || (169 ≤ k && k ≤ 175) || (184 ≤ k && k ≤ 191) || (197 ≤ k && k ≤ 207) || 213 ≤ k

/-- Raise the in-band interrupt that is asked for, where IBIEN, the bus controller and R456 allow it. -/
def State.ibiEval (s : State) : State :=
  if s.evt.ibiWait && s.evt.ibien && !s.evt.ibiOut && !s.inStop && s.side.ibiEn.any (fun _ b => b) then
    { s with
      evt := { s.evt with ibiOut := true, ibiWait := false }
      out := (s.side.ibiEn.keysWhere (fun _ b => b)).reverse.map Out.ibi ++ s.out }
  else s

/-- Append a record at the serialisation point (R458, R460). -/
def State.logAppend (s : State) (r : LogRec) : State :=
  if s.log.clearing then
    if s.log.held.length < 8 then { s with log := { s.log with held := s.log.held ++ [r] } }
    else { s with log := { s.log with dropped := satAdd 0xffffffff s.log.dropped 1 } }
  else if 8192 ≤ s.log.next then
    { s with log := { s.log with dropped := satAdd 0xffffffff s.log.dropped 1 } }
  else
    { s with log := { s.log with
        slots := s.log.slots.put s.log.next { r with seq := s.log.seq, valid := true }
        next := s.log.next + 1
        seq := (s.log.seq + 1) % 2 ^ 32 } }

/-- What a firing source does at the router, apart from the two log-fill sources it may cause (R454). -/
def State.fireOnce (s : State) (k : Nat) (r : LogRec) : State :=
  let rt := s.route k
  let fresh := !s.evt.pend.getLsbD k
  let s1 := if rt.en then
      let s0 := { s with evt := { s.evt with pend := s.evt.pend ||| BitVec.ofNat 320 (2 ^ k), last := k } }
      let sM := if fresh && rt.msi then
          if rt.vec ≤ s.pfCount then
            if !s.linkUp || s.inStop then { s0 with evt := { s0.evt with msiWait := insNat k s0.evt.msiWait } }
            else s0.msix rt.vec
          else { s0 with evt := { s0.evt with badvec := true } }
        else s0
      if fresh && rt.sb then ({ sM with evt := { sM.evt with ibiWait := sM.evt.ibiWait || !sM.evt.ibiOut } }).ibiEval
      else sM
    else s
  if logFixed k || (rt.en && rt.log) then s1.logAppend r else s1

/-- The record of an event: R458, R459. -/
def State.mkRec (s : State) (k : Nat) (args : List Nat) (code owner : Nat) (stamp : Option Nat) : LogRec where
  time := s.now
  stamp := stamp.getD s.gate.next
  source := k
  code := code
  stamped := stamp.isSome
  owner := owner
  arg0 := BitVec.ofNat 64 (args.getD 0 0)
  arg1 := BitVec.ofNat 64 (args.getD 1 0)
  arg2 := BitVec.ofNat 64 (args.getD 2 0)
  arg3 := BitVec.ofNat 64 (args.getD 3 0)

/-- An append may have written slot 7,167 or slot 8,191: sources 12 and 13 fire (R460). -/
def State.logFill (s : State) (before : Nat) : State :=
  if before < s.log.next then
    if s.log.next = 7168 then s.fireOnce 12 (s.mkRec 12 [] 0 0x7ff none)
    else if s.log.next = 8192 then s.fireOnce 13 (s.mkRec 13 [] 0 0x7ff none)
    else s
  else s

/-- Event source `k` fires (R454), with the sources 12 and 13 that a filling log raises (R460). -/
def State.fire (s : State) (k : Nat) (args : List Nat := []) (code : Nat := 0) (owner : Nat := 0x7ff)
    (stamp : Option Nat := none) : State :=
  if reservedSource k then s
  else
    (s.fireOnce k (s.mkRec k args code owner stamp)).logFill s.log.next

/-- The messages of sources that fired while the link was away or in Stop, and whose pending bits are still set. -/
def State.msiCatchUp (s : State) : State :=
  if !s.linkUp then s else forNats s.evt.msiWait { s with evt := { s.evt with msiWait := [] } } fun s k =>
    if s.evt.pend.getLsbD k && (s.route k).msi then
      if (s.route k).vec ≤ s.pfCount then s.msix (s.route k).vec else { s with evt := { s.evt with badvec := true } }
    else s

/-! ### Owners and queues -/

/-- Owner of queue `q` (R47, R137): the slice, or 1,024 for the PF. -/
def qOwner (q : Nat) : Nat := if 1024 ≤ q then (q - 1024) / 128 else 1024

/-- Queue index in the slice, or the PF queue ID. -/
def qIndex (q : Nat) : Nat := if 1024 ≤ q then (q - 1024) % 128 else q

def sliceQ (sl k : Nat) : Nat := 1024 + 128 * sl + k

def State.slice (s : State) (i : Nat) : Slice := s.slices.get i {}

def State.sliceEdit (s : State) (i : Nat) (f : Slice → Slice) : State :=
  { s with slices := s.slices.upd i {} f }

/-- Slice 1023 is reserved by the configuration image (R94). -/
def State.rsv1023 (s : State) : Bool := match s.img with | some i => i.slice1023.isSome | none => false

/-! ### The meter tally stage (R344) -/

/-- Charge an owner. -/
def State.tally (s : State) (o : Nat) (f : TStage → TStage) : State :=
  { s with mtr := { s.mtr with stage := s.mtr.stage.upd o {} fun x => { f x with told := false } } }

/-- What a batch carries of an owner (R345): MiB·s and µs. -/
def TStage.row (t : TStage) (o : Nat) (gone : Bool) : TallyRow :=
  { owner := o, inst := t.inst, prov := t.prov / (2 ^ 20 * 10 ^ 9), occ := t.occ / (2 ^ 20 * 10 ^ 9), rd := t.rd, wr := t.wr
    dieUs := t.die / 1000, gone := gone }

/-- A slice instance is created: its quantities start at 0, and the next batch tells the island of it (R344, R350). -/
def State.tallyOpen (s : State) (o inst : Nat) : State :=
  { s with mtr := { s.mtr with stage := s.mtr.stage.put o { inst := inst, told := false } } }

/-- The instance of an owner is destroyed: its final values go with the next batch. -/
def State.tallyShut (s : State) (o : Nat) : State :=
  { s with mtr := { s.mtr with
    stage := s.mtr.stage.del o, gone := s.mtr.gone ++ [(s.mtr.stage.get o {}).row o true] } }

/-! ### Notices -/

/-- Free entries (R110); the tenant's HEAD is any 12-bit value. -/
def NRing.free (r : NRing) : Nat := r.size - (r.tail + (r.size + 1) * 4096 - r.head) % (r.size + 1)

/-- Write one entry at TAIL (R108, R109). -/
def State.noticeWrite (s : State) (i type arg0 arg1 : Nat) : State :=
  let x := s.slice i
  let r := x.nr
  let wrap := r.tail == r.size
  let s1 := (s.sliceEdit i fun x => { x with nr := { r with
      tail := if wrap then 0 else r.tail + 1
      phase := if wrap then !r.phase else r.phase
      nseq := (r.nseq + 1) % 65536 } }).say (.notice x.pasid i type arg0 arg1 r.nseq r.phase)
  if r.ien then s1.msix (x.vecBase + r.nvec) else s1

def State.noticeLose (s : State) (i n : Nat) : State :=
  s.sliceEdit i fun x => { x with nr := { x.nr with lost := satAdd 0xffff x.nr.lost n } }

/-- The ring can be written at all (R110). -/
def State.noticeOpen (s : State) (i : Nat) : Bool :=
  (s.slice i).nr.en && s.linkUp && (s.slice i).st != .destroying && (s.slice i).st != .none

/-- The entry write cannot be issued (R110). -/
def State.noticeFault (s : State) (i : Nat) : Bool :=
  !s.pci.bme || decide (2 ^ 64 < (s.slice i).nr.base.toNat + 16 * (s.slice i).nr.tail + 16)

def State.noticeBreak (s : State) (i n : Nat) : State :=
  (s.sliceEdit i fun x => { x with nr := { x.nr with en := false, fault := true } }).noticeLose i n

/-- Write NOTICES_LOST when something is lost and an entry is free (R110). -/
def State.noticeFlush (s : State) (i : Nat) : State :=
  let r := (s.slice i).nr
  if r.lost ≠ 0 ∧ s.noticeOpen i ∧ 1 ≤ r.free then
    if s.noticeFault i then s.noticeBreak i 1
    else (s.sliceEdit i fun x => { x with nr := { x.nr with lost := 0 } }).noticeWrite i 0x0b r.lost 0
  else s

/-- Raise a notice for a slice (R108, R110). -/
def State.notice (s : State) (i type arg0 arg1 : Nat) : State :=
  if !s.noticeOpen i then s.noticeLose i 1
  else
    let s1 := s.noticeFlush i
    if !s1.noticeOpen i || (s1.slice i).nr.lost ≠ 0 || (s1.slice i).nr.free < 2 then s1.noticeLose i 1
    else if s1.noticeFault i then s1.noticeBreak i 1
    else s1.noticeWrite i type arg0 arg1

/-! ### Stamps, epochs, checkpoints -/

def stampLimit : Nat := 0xffffffff00000000

/-- The counter is used up (R36). -/
def State.exhausted (s : State) : Bool := decide (stampLimit < s.gate.next)

/-- A stamp can be issued now (R35, R36): by the crown alone (R37), and after the supply sag none is (R33). -/
def State.canStamp (s : State) : Bool :=
  s.cas.crown && !s.exhausted && !s.gate.stopped &&
  (match s.gate.ckptPend with | none => true | some c => decide (s.gate.next < c + 2 ^ 24))

/-- Move the counter; reaching a multiple of 2^24 starts a checkpoint (R35), behind the metadata fence (R260). -/
def State.stampTo (s : State) (n : Nat) : State :=
  let ck := decide (n % 2 ^ 24 = 0) && s.gate.ckptPend.isNone
  { s with
    gate := { s.gate with next := n, ckptPend := if ck then some n else s.gate.ckptPend }
    dma := { s.dma with fences := if ck then s.dma.fences ++ [(4, n)] else s.dma.fences } }

/-- Draw a stamp: the value is `s.gate.next`. -/
def State.drawStamp (s : State) : State := s.stampTo (s.gate.next + 1)

/-- Close the epoch of stamp `k` (R34). -/
def State.epochEnd (s : State) (k : Nat) : State := s.stampTo ((k / 65536 + 1) * 65536)

/-! ### Commit records and digests -/

/-- A commit record as 32 bytes (R47), byte 0 lowest. -/
def CRec.bits (r : CRec) : BitVec 256 :=
  BitVec.ofNat 256 (r.stamp % 2 ^ 64 + r.slice % 2 ^ 11 * 2 ^ 64 + r.kind % 256 * 2 ^ 80
    + (if r.resolved then 1 else 0) * 2 ^ 88 + r.status % 2 ^ 11 * 2 ^ 96 + r.nsid % 2 ^ 32 * 2 ^ 128
    + r.zone % 2 ^ 32 * 2 ^ 160 + r.value % 2 ^ 64 * 2 ^ 192)

/-- Fold order (R48): stamp, then NSID, zone, kind, value. -/
def CRec.le (a b : CRec) : Bool :=
  if a.stamp ≠ b.stamp then decide (a.stamp < b.stamp)
  else if a.nsid ≠ b.nsid then decide (a.nsid < b.nsid)
  else if a.zone ≠ b.zone then decide (a.zone < b.zone)
  else if a.kind ≠ b.kind then decide (a.kind < b.kind)
  else decide (a.value ≤ b.value)

def insRec (r : CRec) : List CRec → List CRec
  | [] => [r]
  | a :: t => if CRec.le a r then a :: insRec r t else r :: a :: t

/-- D = SHA-256(D_previous followed by the record). -/
def foldRec (d : BitVec 256) (r : CRec) : BitVec 256 :=
  Config.sha256 (BitVec.ofNat 512 (d.toNat + r.bits.toNat * 2 ^ 256))

/-- Fold the leading records with a stamp below `low` into both chains. -/
def Gate.foldTo (g : Gate) (low : Nat) : Gate :=
  let now := g.recs.filter fun r => decide (r.stamp < low)
  { g with
    recs := g.recs.filter fun r => !decide (r.stamp < low)
    shared := (now.filter fun r => r.kind != 0x10).foldl foldRec g.shared
    localD := now.foldl foldRec g.localD }

/-- The lowest stamp that has not finished its commits, or the next stamp. -/
def Gate.lowest (g : Gate) : Nat := match g.entries with | [] => g.next | (k, _) :: _ => k

/-- Latch both chains at check stamp `t` (R49). -/
def Gate.latchAt (g : Gate) (t : Nat) : Gate :=
  let g := { g with tickCheck := t, tickShared := g.shared }
  if g.hold then g else { g with latShared := g.shared, latLocal := g.localD, latCheck := t, latched := true }

/-- Fold what may be folded, latching where a check tick waits for it (R48, R49). -/
def Gate.settle (g : Gate) : Gate :=
  let low := g.lowest
  let due := g.latchWait.filter fun t => decide (t ≤ low)
  let g1 := due.foldl (fun g t => (g.foldTo t).latchAt t) { g with latchWait := g.latchWait.filter fun t => !decide (t ≤ low) }
  g1.foldTo low

/-- Add a commit record. -/
def State.record (s : State) (r : CRec) : State := { s with gate := { s.gate with recs := insRec r s.gate.recs } }

def State.settle (s : State) : State := { s with gate := s.gate.settle }

/-- Scope of the whole chip: no entry with a higher stamp commits before one that has it (R38). -/
def chipScope : Nat := 2 ^ 64 + 2048

/-- Stamp a system entry (R33); it waits for its commit behind every entry with a lower stamp. -/
def State.enterSys (s : State) (ev : SysEv) : State :=
  let s1 := s.drawStamp
  let e : Entry := { kind := .sysE, ctx := 65536, owner := 1025, nsid := 0, scopes := [chipScope], sys := some ev }
  { s1 with gate := { s1.gate with entries := s1.gate.entries.put s.gate.next e } }

/-- Numbers of the kinds of entries in a STAMP message. -/
def EKind.code : EKind → Nat
  | .writeE => 0 | .appendE => 1 | .readE => 2 | .flushE => 3 | .dsmE => 4 | .sanDsmE => 5 | .openE => 6 | .closeE => 7
  | .finishE => 8 | .resetE => 9 | .sanResetE => 10 | .offlineE => 11 | .zmrE => 12 | .abortE => 13 | .keyRotE => 14
  | .sanitizeE => 15 | .sysE => 16

/-- The resolution of a system entry (R33). -/
def SysEv.body : SysEv → List Nat
  | .staging span => [0, span]
  | .check secs => [1, secs]
  | .dieFail dk cause => [2, dk, cause]
  | .blockFail bk code out => [3, bk, code, if out then 1 else 0]
  | .rebuilt zone row slc => [4, zone, row, if slc then 1 else 0]
  | .pageLost zone row pos => [5, zone, row, pos]
  | .migrated zone => [6, zone]
  | .zoneLost zone => [7, zone]
  | .sag => [8]
  | .config => [9]
  | .seed => [10]
  | .fence c reason => [11, c, reason]
  | .unfence c => [12, c]
  | .freeze => [13]
  | .zeroize => [14]
  | .casAct c a => [15, c, a]

/-- An entry with its resolution as STAMP carries it: of an Abort, whether its target has not been decided. -/
def State.entryBody (s : State) (stamp : Nat) (e : Entry) : List Nat :=
  [stamp, e.kind.code, e.owner, e.nsid, e.off, e.n, match e.token with | some t => t + 1 | none => 0] ++
  (match e.sys with | some ev => ev.body | none => []) ++
  (if e.kind = .abortE then [match s.ctxs.look e.target with | some x => if x.phase = .done then 1 else 0 | none => 1] else []) ++
  e.scopes ++ e.ranges.flatMap fun r => [r.1, r.2.1, r.2.2]

/-- The entries up to a stamp go to the members in stamp order, each once, before the commit of that stamp (R329). -/
def State.stampFlush (s : State) (stamp : Nat) : State :=
  let l := s.gate.entries.filter fun p => decide (s.gate.sent ≤ p.1) && decide (p.1 ≤ stamp)
  l.foldl (fun (t : State) p => t.stampSend (s.entryBody p.1 p.2)) { s with gate := { s.gate with sent := max s.gate.sent (stamp + 1) } }

/-- An admin command's effect that the members' islands follow goes to them at its stamp, behind the lower entries (R329, R346). -/
def State.stampTell (s : State) (stamp : Nat) (body : List Nat) : State := (s.stampFlush stamp).stampSend (stamp :: body)

/-- The entry with a stamp is taken for its commit. -/
def State.sysTake (s : State) (stamp : Nat) : State :=
  let s1 := s.stampFlush stamp
  { s1 with gate := { s1.gate with entries := s1.gate.entries.del stamp } }

/-- Stamp a configuration commit, which closes the epoch (R33, R34). -/
def State.enterCfg (s : State) (ev : SysEv) : State := (s.enterSys ev).epochEnd s.gate.next

/-- The record of a tick or a configuration commit (R47). -/
def State.sysRecord (s : State) (stamp kind : Nat) (resolved : Bool) : State :=
  s.record { stamp := stamp, slice := 1025, kind := kind, resolved := resolved }

/-- Commit the lowest entry when it is a system entry that changes nothing: a configuration epoch leaves its record (R47). -/
def State.markRun (s : State) : State :=
  match s.gate.entries with
  | (k, e) :: _ =>
    if e.sys = some .config then ((s.sysTake k).sysRecord k 0x08 false).settle
    else if e.sys = some .sag then (s.sysTake k).settle
    else s
  | [] => s

/-! ### Contexts -/

def State.ctxEdit (s : State) (c : Nat) (f : Ctx → Ctx) : State := { s with ctxs := s.ctxs.edit c f }

/-- Contexts an owner holds (R26, R88). -/
def State.ctxHeld (s : State) (o : Nat) : Nat := s.ctxs.count fun _ x => qOwner x.q == o

def State.qStrict (s : State) (q : Nat) : Bool := match s.sqs.look q with | some x => x.strict | none => false
def State.qFrozen (s : State) (q : Nat) : Bool := match s.sqs.look q with | some x => x.frozen | none => false

/-- A strict queue freezes at the moment a failing status is decided (R135). -/
def State.qFreeze (s : State) (q : Nat) (st : Status) : State :=
  if st.freezes && s.qStrict q && !s.qFrozen q then
    { s with
      sqs := s.sqs.edit q (fun x => { x with frozen := true })
      qrecs := s.qrecs.upd q {} (fun r => { r with freezeStamp := s.gate.next }) }
  else s

/-- Decide the status of a command (R24, R135). Its completion is posted by COMPLETION_POST. -/
def State.finish (s : State) (c : Nat) (st : Status) (dw0 : Dword := 0) (dw1 : Dword := 0) (check : Nat := 0) : State :=
  match s.ctxs.look c with
  | none => s
  | some x =>
    if x.phase = .done then s
    else
      let froze := st.freezes && s.qStrict x.q && !s.qFrozen x.q && !x.discard
      let y := { x with phase := .done, status := some st, dw0 := dw0, dw1 := dw1, check := check, froze := froze }
      let s1 := { s with ctxs := s.ctxs.put c y }
      if x.discard then s1 else s1.qFreeze x.q st

/-- Complete a held command without freezing its queue; the completion enters no record (R139). -/
def State.finishHeld (s : State) (c : Nat) (st : Status) : State :=
  match s.ctxs.look c with
  | none => s
  | some x => { s with ctxs := s.ctxs.put c { x with phase := .done, status := some st, unrecorded := true } }

/-- Notice of a slice's new state (R108). -/
def State.stateNotice (s : State) (i : Nat) : State :=
  s.notice i 0x02 (s.slice i).st.code (if (s.slice i).st = .frozen then (s.slice i).reason else 0)

/-- End the Quiesce commands that wait for the slice (R95). -/
def State.quiesceEnd (s : State) (i : Nat) (st : Status) : State :=
  let w := (s.slice i).quiesceWait
  forNats w (s.sliceEdit i fun x => { x with quiesceWait := [] }) fun s c => s.finish c st

/-- SLC_STATE_n. -/
def State.stateReg (s : State) (n : Nat) : Nat :=
  let x := s.slice n
  (if x.st = .none then 0 else x.pasid) * 2 ^ 32
    + (s.sqs.count fun q y => decide (1024 ≤ q) && qOwner q == n && y.frozenSeen) * 2 ^ 24
    + bit (x.up.head != x.up.tail) 23 + s.ctxHeld n * 2 ^ 8 + bit x.nr.fault 7 + bit (n == 1023 && s.rsv1023) 6
    + (if x.st = .frozen then x.reason else 0) * 2 ^ 3 + x.st.code

/-- Freeze a slice (R82); a FROZEN slice keeps its first reason. -/
def State.sliceFreeze (s : State) (i reason : Nat) : State :=
  let x := s.slice i
  if x.st = .active ∨ x.st = .quiescing ∨ x.st = .quiesced then
    (((s.sliceEdit i fun x => { x with st := .frozen, reason := reason }).stateNotice i).fire (128 + i / 32)
      [({ s with slices := (s.sliceEdit i fun x => { x with st := .frozen, reason := reason }).slices }).stateReg i]).quiesceEnd i stSliceFrozen
  else s

/-- Freeze every slice. -/
def State.freezeAll (s : State) (reason : Nat) : State :=
  forNats (s.slices.map (·.1)) s fun s i => s.sliceFreeze i reason

/-- A quiescing slice whose last context is free is QUIESCED (R82). -/
def State.quiesceCheck (s : State) (i : Nat) : State :=
  if i < 1024 ∧ (s.slice i).st = .quiescing ∧ s.ctxHeld i = 0 then
    ((s.sliceEdit i fun x => { x with st := .quiesced }).stateNotice i).quiesceEnd i stOk
  else s

/-- A disabled pair with nothing left is no longer ENABLED (R102). -/
def State.drainCheck (s : State) (q : Nat) : State :=
  match s.sqs.look q with
  | some x =>
    if 1024 ≤ q ∧ !x.en ∧ x.enabled ∧ !s.ctxs.any (fun _ y => y.q == q) then
      { s with sqs := s.sqs.put q { x with enabled := false } }
    else s
  | none => s

/-- Free a command's context (R26), with what follows from it (R82, R102). -/
def State.ctxFree (s : State) (c : Nat) : State :=
  match s.ctxs.look c with
  | none => s
  | some x =>
    let w := s.ctxs.keysWhere fun _ y => y.waitFor == some c
    let s1 := forNats w { s with ctxs := s.ctxs.del c } fun s k => (s.ctxEdit k fun y => { y with waitFor := none }).finish k stOk
    (s1.quiesceCheck (qOwner x.q)).drainCheck x.q

/-! ### Asynchronous events (R65, R70, R72) -/

/-- Events of these kinds can be masked by feature 0Bh; error events cannot (R501). Of the health events the reliability
ones (information 0) are masked by the bit of their own critical warning, at `State.aenCrit`. -/
def State.aenEnabled (s : State) (type info : Nat) : Bool :=
  if type = 0 then true
  else if type = 1 then (info == 0 || s.nvme.aenCfg.getLsbD (if info = 1 then 1 else 0))
  else if info = 0xef then s.nvme.aenCfg.getLsbD 27
  else if info = 0 then s.nvme.aenCfg.getLsbD 8
  else s.nvme.aenCfg.getLsbD 9

/-- Answer an outstanding request with an event, or keep the event for the next one. -/
def State.aenRaise (s : State) (type info page : Nat) : State :=
  if !s.aenEnabled type info then s
  else
    match s.nvme.aers with
    | c :: t => ({ s with nvme := { s.nvme with aers := t } }).finish c stOk
        (BitVec.ofNat 32 (type + info * 2 ^ 8 + page * 2 ^ 16))
    | [] => { s with nvme := { s.nvme with aens := s.nvme.aens ++ [(type, info, page)] } }

/-- The health event of a critical warning bit that has just been set (R72, R74): bits 2, 3 and 4 are reported as
reliability, as NVMe Base 2.0 codes it. -/
def State.aenCrit (s : State) (bit : Nat) : State :=
  if s.nvme.aenCfg.getLsbD bit then s.aenRaise 1 (if bit = 0 then 2 else if bit = 1 then 1 else 0) 0x02 else s

end Sys2Proof.Machine
end

