-- ==== Sys2Proof/Machine/Operands.lean ====
section
/-! DEFINITION. The operand forms: fields of a submission entry (R66, R69, R196), data pointers (R249-R252), and
the media and zone geometry that the configuration image fixes (R141-R143, R171, R178, R503). -/

namespace Sys2Proof

open Sys2Proof.Machine

/-! ### Entry fields -/

def SqEntry.slba (e : SqEntry) : Nat := e.cdw10.toNat + e.cdw11.toNat * 2 ^ 32
/-- Blocks of a Read, Write or Zone Append: NLB + 1. -/
def SqEntry.n (e : SqEntry) : Nat := bitsAt e.cdw12.toNat 0 16 + 1
def SqEntry.prinfo (e : SqEntry) : Nat := bitsAt e.cdw12.toNat 26 4
def SqEntry.ord (e : SqEntry) : Bool := e.cdw2.getLsbD 0
def SqEntry.tokv (e : SqEntry) : Bool := e.cdw2.getLsbD 1
def SqEntry.token (e : SqEntry) : Nat := e.cdw3.toNat
def SqEntry.sanz (e : SqEntry) : Bool := e.cdw3.getLsbD 0
def SqEntry.phnd (e : SqEntry) : Nat := bitsAt e.cdw13.toNat 24 8
/-- Zone Send and Receive Action. -/
def SqEntry.zsa (e : SqEntry) : Nat := bitsAt e.cdw13.toNat 0 8
def SqEntry.selAll (e : SqEntry) : Bool := e.cdw13.getLsbD 8
/-- Zone Receive Action Specific. -/
def SqEntry.zras (e : SqEntry) : Nat := bitsAt e.cdw13.toNat 8 8
/-- Dataset Management: ranges, and AD. -/
def SqEntry.ranges (e : SqEntry) : Nat := bitsAt e.cdw10.toNat 0 8 + 1
def SqEntry.ad (e : SqEntry) : Bool := e.cdw11.getLsbD 2
/-- Dwords a Zone Management Receive returns. -/
def SqEntry.zmrDwords (e : SqEntry) : Nat := e.cdw12.toNat + 1
/-- CDW10 and CDW11 of the Yeldezon commands (R66). -/
def SqEntry.sliceNo (e : SqEntry) : Nat := bitsAt e.cdw10.toNat 0 10
def SqEntry.pasid (e : SqEntry) : Nat := bitsAt e.cdw11.toNat 0 20
def SqEntry.cdw1213 (e : SqEntry) : Nat := e.cdw12.toNat + e.cdw13.toNat * 2 ^ 32
def SqEntry.cdw1415 (e : SqEntry) : Nat := e.cdw14.toNat + e.cdw15.toNat * 2 ^ 32

/-- I/O opcodes of R69. -/
def ioOpcode (o : Nat) : Bool := o == 0 || o == 1 || o == 2 || o == 9 || o == 0x79 || o == 0x7a || o == 0x7d

/-- A command that transfers blocks: Read, Write, Zone Append. -/
def SqEntry.isBlock (e : SqEntry) : Bool := e.opc == 1 || e.opc == 2 || e.opc == 0x7d
def SqEntry.isWrite (e : SqEntry) : Bool := e.opc == 1 || e.opc == 0x7d

/-- Bytes of a command's host data, 0 for none. -/
def SqEntry.bytes (e : SqEntry) : Nat :=
  if e.isBlock then e.n * 4096 else if e.opc == 9 then e.ranges * 16
  else if e.opc == 0x7a then e.zmrDwords * 4 else 0

/-! ### Data pointers (R249-R252) -/

/-- Admission check 8: the status on failure, for a transfer of `len` bytes. -/
def SqEntry.dptrFault (e : SqEntry) (len : Nat) (lbaf1 : Bool) : Option Status :=
  let p1 := e.dptr0.toNat
  let p2 := e.dptr1.toNat
  let first := 4096 - p1 % 4096
  let ty := bitsAt p2 60 4
  let segLen := bitsAt p2 0 32
  let head : Option Status :=
    if e.psdt = 0 then
      if p1 % 4 ≠ 0 then some stPrpOffset
      else if len ≤ first then none
      else if len ≤ first + 4096 then (if p2 % 4096 ≠ 0 then some stPrpOffset else none)
      else if p2 % 8 ≠ 0 then some stPrpOffset else none
    else if e.psdt = 1 then
      if ¬((ty = 0 ∨ ty = 2 ∨ ty = 3) ∧ bitsAt p2 56 4 = 0) then some stSglType
      else if ty = 0 then (if segLen ≠ len then some stSglLength else none)
      else if segLen % 16 = 0 ∧ 16 ≤ segLen ∧ segLen ≤ 4096 then none else some stSglCount
    else if p1 % 4096 = 0 ∧ p2 % 64 = 0 ∧ p2 ≠ 0 then none else some stInvField
  match head with
  | some st => some st
  | none => if lbaf1 && decide (e.mptr.toNat % 4 ≠ 0) then some stInvField else none

end Sys2Proof

namespace Sys2Proof.Machine

open Sys2Proof

/-! ### Geometry -/

/-- The geometry in force: from the media profile and the zone cell mode of the image (R141, R419). -/
structure Geom where
  planes : Nat
  /-- codewords per page (R178) -/
  c : Nat
  rows : Nat
  blocks : Nat
  /-- page rows of one zone row that an SLC block divides by: 4 under QLC, 3 under TLC (R161) -/
  ratio : Nat
  ecmax : Nat
  repl : Nat
  deriving DecidableEq, Repr

/-- Slots of a row (R203): 4 KiB units that one page row of one die holds. -/
def Geom.u (g : Geom) : Nat := g.planes * g.c
/-- BDATA in units of 4 KiB. -/
def Geom.bdata (g : Geom) : Nat := g.rows * g.u
def Geom.slcRows (g : Geom) : Nat := g.rows / g.ratio
/-- BDATA_SLC in units of 4 KiB (R161). -/
def Geom.bdataSlc (g : Geom) : Nat := g.bdata / g.ratio
/-- Nominal zone capacity in blocks (R142). -/
def Geom.nominal (g : Geom) : Nat := 14 * g.bdata

/-- The smallest `k` from `k0`, within `fuel` steps, with `n ≤ 2^k`. -/
def log2Up (n : Nat) : Nat → Nat → Nat
  | 0, k => k
  | f + 1, k => if n ≤ 2 ^ k then k else log2Up n f (k + 1)

def Geom.zlog2 (g : Geom) : Nat := log2Up g.nominal 40 0
/-- ZSZE in blocks (R142). -/
def Geom.zsze (g : Geom) : Nat := 2 ^ g.zlog2

def State.geom (s : State) : Geom :=
  match s.img with
  | some i =>
    { planes := i.media.planes, c := i.media.page / 4, rows := i.media.rows, blocks := i.media.blocks
      ratio := if i.qlc then 4 else 3, ecmax := i.media.ecmax, repl := i.media.repl }
  | none => { planes := 0, c := 0, rows := 0, blocks := 0, ratio := 4, ecmax := 0, repl := 0 }

def State.zsze (s : State) : Nat := s.geom.zsze

/-- The key of a zone: namespace and zone index. -/
def zkey (nsid z : Nat) : Nat := nsid * 2 ^ 32 + z
def zNsid (k : Nat) : Nat := k / 2 ^ 32
def zIndex (k : Nat) : Nat := k % 2 ^ 32

/-- Where block `i` of a zone lies (R503): sheaf row, number of the data position that holds a block, slot. -/
structure Loc where
  row : Nat
  k : Nat
  slot : Nat
  deriving DecidableEq, Repr

def locOf (i d u : Nat) : Loc := { row := i / (d * u), k := i % (d * u) / u, slot := i % u }

/-- CRC-32C (Castagnoli), reflected polynomial 0x82f6_3b78: one bit, and the lowest `n` bytes of a number, byte 0 first. -/
def crcBit (c : Nat) : Nat := if c % 2 = 1 then (c / 2) ^^^ 0x82f63b78 else c / 2

def crcByte (c b : Nat) : Nat := (List.range 8).foldl (fun c _ => crcBit c) (c ^^^ b)

def crc32c (v n : Nat) : BitVec 32 :=
  BitVec.ofNat 32 ((List.range n).foldl (fun c i => crcByte c (bitsAt v (8 * i) 8)) 0xffffffff ^^^ 0xffffffff)

/-- Die and block keys are cascade-wide: chip, die (R6), block. -/
def dieKey (chip die : Nat) : Nat := chip * 1024 + die
def blkKey (dk block : Nat) : Nat := dk * 8192 + block
def dkChip (dk : Nat) : Nat := dk / 1024
def dkDie (dk : Nat) : Nat := dk % 1024
def dieChannel (die : Nat) : Nat := die / 32
/-- Die group of a die (R91). -/
def dieGroup (die : Nat) : Nat := (dieChannel die / 16) * 32 + die % 32
/-- Die `i` of group `g` (R91). -/
def groupDie (g i : Nat) : Nat := (16 * (g / 32) + i) * 32 + g % 32

/-- The fence map holds the group of a die (R90). -/
def fenceHas (f : BitVec 256) (dk : Nat) : Bool := f.getLsbD (64 * dkChip dk + dieGroup (dkDie dk))

/-- In the place of a key draw: the content is held as its ciphertext bits, with the metadata above them, as a member of a cascade
holds it (R15). -/
def rawKix : Nat := 2 ^ 64

/-- Bytes 0-4103 of a unit's codeword. -/
def cipherOf (kix lba nsid plain md : Nat) : Nat := if kix = rawKix then plain else Config.cipherBits kix lba nsid plain md

end Sys2Proof.Machine
end

