-- ==== Sys2Proof/Machine/Keys.lean ====
section
/-! DEFINITION. Gauntlet's keys: owners, generations, slots, retirement, usage (R300-R311). -/

namespace Sys2Proof.Machine

open Sys2Proof

/-- The key of draw `n`, its halves never equal (R300): a draw with equal halves is given a second half that differs. -/
def keyHalves (n : Nat) : BitVec 256 × BitVec 256 :=
  let k := Config.keyDraw n
  if k.1 = k.2 then (k.1, ~~~k.1) else k

def State.keyOwner (s : State) (o : Nat) : KeyOwner := s.key.owners.get o {}

def State.keyEdit (s : State) (o : Nat) (f : KeyOwner → KeyOwner) : State :=
  { s with key := { s.key with owners := s.key.owners.upd o {} f } }

/-- LIMIT in units (R309, R317): below 20 acts as 20, above 44 as 44. -/
def State.keyLimit (s : State) : Nat := 2 ^ min 44 (max 20 s.key.limitLog2)

/-- Check 14, key part (R309). -/
def State.keyRoom (s : State) (o n : Nat) : Bool := decide ((s.keyOwner o).use + n ≤ s.keyLimit)

/-- Live generations of an owner. -/
def KeyOwner.live (k : KeyOwner) : Nat := if k.cur = 0 then 0 else k.cur + 1 - k.oldest

/-- Fill the two slots of a new owner (R300). -/
def State.keyCreate (s : State) (o : Nat) : State :=
  ({ s with free := s.free + 2 }).keyEdit o fun _ =>
    { cur := 1, oldest := 1, slots := [(1, s.free), (2, s.free + 1)], refs := [], use := 0, nearSent := false }

/-- Retire generations from the old end of the run (R301). -/
def KeyOwner.retire (k : KeyOwner) : Nat → KeyOwner
  | 0 => k
  | f + 1 =>
    if k.oldest < k.cur ∧ k.refs.get k.oldest 0 = 0 then
      KeyOwner.retire { k with oldest := k.oldest + 1, slots := k.slots.del k.oldest, refs := k.refs.del k.oldest } f
    else k

/-- The content may be under the key of a draw. -/
def Alt.underKey (d : Nat) : Alt → Bool
  | .stored k _ _ _ _ _ | .staged _ k _ _ _ _ _ => k == d
  | _ => false

/-- A key whose draw no slot holds and no read in flight names is zeroized (R301). -/
def State.keyHeld (s : State) (d : Nat) : Bool :=
  s.key.owners.any (fun _ k => k.slots.any fun _ x => x == d) ||
  s.ctxs.any fun _ x => x.runits.any fun _ r => r.st != .sent && r.alts.any (Alt.underKey d)

def State.keySweep (s : State) : State := { s with key := { s.key with ram := s.key.ram.filter s.keyHeld } }

def State.keyRetire (s : State) (o : Nat) : State := (s.keyEdit o fun k => k.retire 16).keySweep

/-- The current and next keys of owners with commands in flight stay in the key RAM (R303). -/
def State.keyPinned (s : State) (d : Nat) : Bool :=
  s.key.owners.any fun o k => s.ctxs.any (fun _ x => qOwner x.q == o) && (k.slots.get k.cur d == d || k.slots.get (k.cur + 1) d == d)

/-- A use of a key unwraps it into the key RAM of 4,096 entries, over the least recently used entry that is not pinned (R303). -/
def State.keyUse (s : State) (d : Nat) : State :=
  let rest := s.key.ram.filter fun x => x != d
  let kept := if rest.length < 4096 then rest else match rest.find? fun x => !s.keyPinned x with | some v => rest.erase v | none => rest
  { s with key := { s.key with ram := kept ++ [d] } }

def State.keyRef (s : State) (o gen n : Nat) : State :=
  s.keyEdit o fun k => { k with refs := k.refs.upd gen 0 (· + n) }

/-- Lower a count at a commit, and examine retirement (R301). -/
def State.keyUnref (s : State) (o gen n : Nat) : State :=
  (s.keyEdit o fun k => { k with refs := k.refs.upd gen 0 (· - n) }).keyRetire o

/-- The key event of the PF, or the notice of a slice, near the limit (R309). -/
def State.keyNear (s : State) (o : Nat) : State :=
  let k := s.keyOwner o
  if !k.nearSent && decide (s.keyLimit ≤ k.use + s.keyLimit / 16) then
    let s1 := s.keyEdit o fun k => { k with nearSent := true }
    if o < 1024 then s1.notice o 0x04 k.cur (s.keyLimit - k.use)
    else s1.fire 11 [k.cur, s.keyLimit - k.use] 0 1024
  else s

/-- Charge a write's units at its stamp (R305, R309), naming the current generation until it commits (R301). -/
def State.keyCharge (s : State) (o n : Nat) : State :=
  ((s.keyEdit o fun k => { k with use := k.use + n }).keyRef o (s.keyOwner o).cur 1).keyNear o

/-- The draw of a generation's key. -/
def State.keyIx (s : State) (o gen : Nat) : Nat := (s.keyOwner o).slots.get gen 0

/-- ACTION 0: the next key becomes current (R311). -/
def State.keyRotate (s : State) (o : Nat) : State :=
  (({ s with free := s.free + 1 }).keyEdit o fun k =>
    { k with cur := k.cur + 1, slots := k.slots.put (k.cur + 2) s.free, use := 0, nearSent := false }).keyRetire o

/-- ACTION 1: the next key is drawn again (R311). -/
def State.keyRenewNext (s : State) (o : Nat) : State :=
  (({ s with free := s.free + 1 }).keyEdit o fun k => { k with slots := k.slots.put (k.cur + 1) s.free }).keySweep

/-- ACTION 2: the current generation's count is set to LIMIT (R311). -/
def State.keyStop (s : State) (o : Nat) : State := s.keyEdit o fun k => { k with use := s.keyLimit }

/-- New keys for every owner (R302, R315 step 3): the current generation becomes the old next plus 1. -/
def State.keyRedraw (s : State) : State :=
  forNats (s.key.owners.map (·.1)) s fun s o =>
    ({ s with free := s.free + 2 }).keyEdit o fun k =>
      { k with cur := k.cur + 2, oldest := k.cur + 2, slots := [(k.cur + 2, s.free), (k.cur + 3, s.free + 1)]
               refs := [], use := 0, nearSent := false }

end Sys2Proof.Machine
end

