-- ==== Sys2Proof/Machine/Place.lean ====
section
/-! DEFINITION. Dies, blocks and placement: good free blocks (R188), fences and held groups (R91, R92, R156), the
declustered permutation (R210-R212), the choice of chip, dies and blocks (R153, R154, R208). -/

namespace Sys2Proof.Machine

open Sys2Proof

/-! ### Dies and blocks -/

def State.die (s : State) (dk : Nat) : Die := s.dies.get dk {}
def State.dieEdit (s : State) (dk : Nat) (f : Die → Die) : State := { s with dies := s.dies.edit dk f }

/-- Populated and not failed. -/
def State.dieGood (s : State) (dk : Nat) : Bool := match s.dies.look dk with | some d => !d.failed | none => false

/-- Good dies of a chip, rising. -/
def State.goodDies (s : State) (chip : Nat) : List Nat := s.dies.keysWhere fun k d => dkChip k == chip && !d.failed

def State.blk (s : State) (bk : Nat) : BInfo := s.blocks.get bk {}
def State.blkEdit (s : State) (bk : Nat) (f : BInfo → BInfo) : State := { s with blocks := s.blocks.upd bk {} f }

/-- A good free block (R188). -/
def BInfo.goodFree (b : BInfo) (ecmax : Nat) : Bool :=
  (b.st == 0 || b.st == 1) && b.retire == 0 && decide (b.erases < ecmax)

/-- The listed blocks of a die. -/
def State.dieBlocks (s : State) (dk : Nat) : Tbl BInfo :=
  s.blocks.filter fun p => decide (dk * 8192 ≤ p.1) && decide (p.1 < dk * 8192 + 8192)

/-- Scan the listed blocks of a die in order: `gap` is the lowest unlisted block so far, `best` the best listed. -/
def scanFree (base ecmax : Nat) : Tbl BInfo → Nat → Option (Nat × Nat) → Nat × Option (Nat × Nat)
  | [], gap, best => (gap, best)
  | (k, b) :: t, gap, best =>
    let n := k - base
    let gap' := if n = gap then gap + 1 else gap
    let best' := if b.goodFree ecmax then
        (match best with
         | some (e, m) => if b.erases < e then some (b.erases, n) else some (e, m)
         | none => some (b.erases, n))
      else best
    scanFree base ecmax t gap' best'

/-- The good free block of lowest ERASES of a die, ties to the lowest number (R188); a block never listed has ERASES 0. -/
def State.pickBlock (s : State) (dk : Nat) : Option Nat :=
  let r := scanFree (dk * 8192) s.geom.ecmax (s.dieBlocks dk) 0 none
  let fresh := decide (r.1 < s.geom.blocks)
  match r.2 with
  | some (e, n) => if fresh && (decide (0 < e) || decide (r.1 < n)) then some r.1 else some n
  | none => if fresh then some r.1 else none

/-- Good free blocks of a die. -/
def State.freeBlocks (s : State) (dk : Nat) : Nat :=
  let l := s.dieBlocks dk
  s.geom.blocks - l.length + (l.filter fun p => p.2.goodFree s.geom.ecmax).length

/-- SPB (R209). -/
def spbOf (e b w : Nat) : Nat := if w ≤ e then b else if b < ceilDiv (e * b) (w - e) then b else ceilDiv (e * b) (w - e)

/-- SPB of the dies of a chip. -/
def State.spbOn (s : State) (chip : Nat) : Nat :=
  match s.img with
  | some i => spbOf i.spareE s.geom.blocks (if i.decl then (s.goodDies chip).length else 16)
  | none => 0

/-- A block outside the spare reserve is free (R209, R212). -/
def State.placeable (s : State) (dk : Nat) : Bool := s.dieGood dk && decide (s.spbOn (dkChip dk) < s.freeBlocks dk)

/-- Allocate a block (R188): ERASES advances. It still has to be erased when it was in state 1 (R151). -/
def State.allocBlock (s : State) (dk b st : Nat) : State :=
  s.blkEdit (blkKey dk b) fun x =>
    { x with st := st, erases := min 16383 (x.erases + 1), unerased := x.st != 0, rows := 0, ptOpen := 0, ptClose := 0
             samples := 0, tpSum := 0, taken := 0 }

/-- Release a block to the free list, marked for erase (R151, R189). -/
def State.freeBlock (s : State) (dk b : Nat) : State :=
  s.blkEdit (blkKey dk b) fun x =>
    { x with st := 1, unerased := true
             retire := if x.retire = 0 ∧ s.geom.ecmax ≤ x.erases then 4 else x.retire }

/-! ### Fences -/

/-- Bits of the groups on which the slice's zones hold blocks. -/
def placeGroups (p : Place) : BitVec 256 :=
  p.pos.foldl (fun m x => match x.2 with
    | some _ => m ||| BitVec.ofNat 256 (2 ^ (64 * dkChip x.1 + dieGroup (dkDie x.1)))
    | none => m) 0

def State.nsOwner (s : State) (nsid : Nat) : Nat := match s.nss.look nsid with | some n => n.owner | none => 1025

/-- Groups on which an owner's zones have blocks. -/
def State.usedGroups (s : State) (o : Nat) : BitVec 256 :=
  s.zones.foldl (fun m p =>
    if s.nsOwner (zNsid p.1) = o then
      let m1 := match p.2.place with | some x => m ||| placeGroups x | none => m
      match p.2.logRow with | some x => m1 ||| placeGroups x | none => m1
    else m) 0

def fenceUnion (l : List (BitVec 256)) : BitVec 256 := l.foldl (· ||| ·) 0

/-- Groups held by a slice beyond its fences (R156). -/
def State.heldGroups (s : State) (i : Nat) : BitVec 256 :=
  s.usedGroups i &&& ~~~(fenceUnion (s.slice i).fences)

/-- The allotment of a slice, held groups included (R92, R156). -/
def State.allotment (s : State) (i : Nat) : BitVec 256 := fenceUnion (s.slice i).fences ||| s.heldGroups i

/-- Groups in the allotment of a slice with EXCL = 1, other than `i`. -/
def State.exclGroups (s : State) (i : Nat) : BitVec 256 :=
  s.slices.foldl (fun m p => if p.2.st ≠ .none ∧ p.2.excl ∧ p.1 ≠ i then m ||| s.allotment p.1 else m) 0

/-- The PF fence in force (R152). -/
def State.pfFence (s : State) : BitVec 256 :=
  match s.img with | some i => i.pfFence &&& ~~~(s.exclGroups 2000) | none => 0

/-- The fence a placement handle selects for an owner (R90, R152). -/
def State.fenceOf (s : State) (o phnd : Nat) : BitVec 256 :=
  if o < 1024 then (s.slice o).fences.getD ((s.slice o).handles.getD phnd 0xf) 0 else s.pfFence

/-- The groups an owner still holds (R216). -/
def State.ownerGroups (s : State) (o : Nat) : BitVec 256 := if o < 1024 then s.allotment o else s.pfFence

/-- A chip takes part: the crown, or a member that is active (R326). -/
def State.chipActive (s : State) (c : Nat) : Bool :=
  c == 0 || (match s.cas.members.look c with | some m => m.st == .active | none => false)

/-- A zone lies on a fenced member (R148 order 1). -/
def State.chipFenced (s : State) (c : Nat) : Bool :=
  c != 0 && (match s.cas.members.look c with | some m => m.st != .active | none => true)

/-! ### The permutation (R210-R212) -/

/-- Reads of a member's zones are served: ACTIVE, or FENCED for reason 1 or 4 with the link up (R326). -/
def State.chipReads (s : State) (c : Nat) : Bool :=
  c == 0 || (match s.cas.members.look c with
    | some m => m.st == .active || (m.st == .fenced && (m.reason == 1 || m.reason == 4) && decide (5 ≤ (s.port (portOf c)).phase))
    | none => false)

/-- Dies of channel `c` of a chip that lie in the fence and are not failed, rising. -/
def State.cand (s : State) (chip : Nat) (f : BitVec 256) (c : Nat) : List Nat :=
  s.dies.keysWhere fun k d => dkChip k == chip && dieChannel (dkDie k) == c && !d.failed && fenceHas f k

/-- The hash of R211. -/
def permH (key : Nat) (seed : BitVec 16) : Nat :=
  let k16 := (key ^^^ (key >>> 16)) % 65536
  (k16 * 0x9e37 + seed.toNat) % 65536

/-- Channel and draw index number `i` of the sequence. -/
def permChan (h i : Nat) : Nat := (h % 32 + i * (2 * bitsAt h 5 4 + 1)) % 32
def permIdx (h i : Nat) : Nat := bitsAt h 9 5 + i * (2 * bitsAt h 14 2 + 1)

/-- Draw the members of a sheaf (R211): up to 16 dies, each on its own channel. -/
def permMembers (cands : Nat → List Nat) (h : Nat) : List Nat :=
  (List.range 32).foldl (fun m i =>
    let cs := cands (permChan h i)
    if cs ≠ [] ∧ m.length < 16 then m ++ [cs.getD (permIdx h i % cs.length) 0] else m) []

/-- Draw indexes whose channel holds no member, in order: the replacement channels (R211). -/
def permSpare (cands : Nat → List Nat) (h : Nat) : List Nat :=
  ((List.range 32).foldl (fun (r : Nat × List Nat) i =>
    if cands (permChan h i) ≠ [] ∧ r.1 < 16 then (r.1 + 1, r.2) else (r.1, r.2 ++ [i])) (0, [])).2

def State.decl (s : State) : Bool := match s.img with | some i => i.decl | none => false

/-- The layout key of a zone (R210). -/
def State.layoutKey (s : State) (zk : Nat) : Nat :=
  ((match s.nss.look (zNsid zk) with | some n => n.zoneBase | none => 0) + zIndex zk) % 2 ^ 32

/-- Rotate left. -/
def rotList (l : List Nat) (n : Nat) : List Nat := l.drop (n % (max l.length 1)) ++ l.take (n % (max l.length 1))

/-- Fixed groups (R153, R208): the fence group with the most dies that have a free block, ties to the lowest. -/
def State.bestGroup (s : State) (chip : Nat) (f : BitVec 256) : Option Nat :=
  ((List.range 64).foldl (fun (r : Option (Nat × Nat)) g =>
    if f.getLsbD (64 * chip + g) then
      let n := ((List.range 16).filter fun i => s.placeable (dieKey chip (groupDie g i))).length
      match r with
      | some (m, _) => if m < n then some (n, g) else r
      | none => some (n, g)
    else r) none).map (·.2)

/-- The members of a new sheaf, in member order. -/
def State.members (s : State) (chip : Nat) (f : BitVec 256) (zk : Nat) : List Nat :=
  if s.decl then permMembers (s.cand chip f) (permH (s.layoutKey zk) s.zne.seedCur)
  else
    match s.bestGroup chip f with
    | some g => (rotList ((List.range 16).map fun i => dieKey chip (groupDie g i)) (s.layoutKey zk % 16)).filter s.dieGood
    | none => []

/-- Roles follow member order (R212): the first two members with a free block become P and Q. -/
def State.roles (s : State) (m : List Nat) : List Nat :=
  let ok := m.filter s.placeable
  let pq := ok.take 2
  pq ++ m.filter fun d => !pq.contains d

/-- Active zones on a chip (R146). -/
def State.chipZones (s : State) (chip : Nat) (f : Zs → Bool) : Nat :=
  s.zones.count fun _ z => !z.conv && f z.zs && (match z.place with | some p => p.chip == chip | none => false)

/-- Good free blocks on the fence's dies of a chip (R153, step 1). -/
def State.fenceFree (s : State) (chip : Nat) (f : BitVec 256) : Nat :=
  (s.goodDies chip).foldl (fun n dk => if fenceHas f dk then n + s.freeBlocks dk else n) 0

def fenceChip (f : BitVec 256) (chip : Nat) : Bool := bitsAt f.toNat (64 * chip) 64 != 0

/-- The chip of a new placement (R153, step 1). -/
def State.pickChip (s : State) (f : BitVec 256) : Option Nat :=
  ((List.range 4).foldl (fun (r : Option (Nat × Nat)) c =>
    if fenceChip f c && s.chipActive c && decide (s.chipZones c Zs.isActive < 1920) then
      let n := s.fenceFree c f
      match r with
      | some (m, _) => if m < n then some (n, c) else r
      | none => some (n, c)
    else r) none).map (·.2)

/-- The dies of a new zone on a chip with a block for each that has one (R153 steps 2 and 3, R154); nothing is taken yet. -/
def State.placeOn (s : State) (chip : Nat) (f : BitVec 256) (zk : Nat) : Option Place :=
  let pos := (s.roles (s.members chip f zk)).map fun dk => (dk, if s.placeable dk then s.pickBlock dk else none)
  let d := ((pos.drop 2).filter fun p => p.2.isSome).length
  if d < 10 then none else some { chip := chip, pos := pos, seed := s.zne.seedCur, fence := f }

/-- The placement of a new zone: none where no chip qualifies, some none where fewer than 10 data positions can be placed. -/
def State.choosePlace (s : State) (f : BitVec 256) (zk : Nat) : Option (Option Place) :=
  (s.pickChip f).map fun chip => s.placeOn chip f zk

/-- Number of data positions that hold a block. -/
def Place.d (p : Place) : Nat := ((p.pos.drop 2).filter fun x => x.2.isSome).length

/-- Data positions that hold a block, in order: (role position, die, block). -/
def Place.dataPos (p : Place) : List (Nat × Nat × Nat) :=
  ((List.range p.pos.length).zip p.pos).filterMap fun (i, dk, b) =>
    if 2 ≤ i then b.map fun b => (i, dk, b) else none

/-- Take the blocks of a placement. -/
def State.takePlace (s : State) (p : Place) (st : Nat) : State :=
  p.pos.foldl (fun s x => match x.2 with | some b => s.allocBlock x.1 b st | none => s) s

/-- A fresh row on the dies of a placement, one block for each position, each taken as it is chosen (R153 step 3, R159,
R160): two positions that a replacement has put on one die take two blocks (R216). DESIGN CHOICE: a die with no block outside
the reserve of R209 gives one of the reserve, since a merge never fails (R160) and its content needs every position. -/
def State.freshRow (s : State) (p : Place) (st : Nat) : Place × State :=
  let r := p.pos.foldl (fun (r : List (Nat × Option Nat) × State) x =>
    match (if r.2.dieGood x.1 then r.2.pickBlock x.1 else none) with
    | some b => (r.1 ++ [(x.1, some b)], r.2.allocBlock x.1 b st)
    | none => (r.1 ++ [(x.1, none)], r.2)) ([], s)
  ({ p with pos := r.1, seed := s.zne.seedCur }, r.2)

end Sys2Proof.Machine
end

