-- ==== Sys2Proof/Machine/Stage.lean ====
section
/-! DEFINITION. Hayrick's pools and buffers (R261-R265), the dirty count (R377), media operations, Bracken's
accumulators (R204, R206), and staged writes: their units, completion, release and withdrawal (R21, R22, R122). -/

namespace Sys2Proof.Machine

open Sys2Proof

/-! ### Pools (R87, R262, R263) -/

/-- Read units granted: READ_POOL, 384 for the PF, 512 for the system. -/
def State.rdGrant (s : State) (o : Nat) : Nat :=
  if o < 1024 then (s.slice o).readPool else if o = 1024 then 384 else if o = 1025 then 512 else 0

/-- 16 KiB staging buffers granted. -/
def State.stgGrant (s : State) (o : Nat) : Nat :=
  if o < 1024 then (s.slice o).stagePool * 64 else if o = 1024 then 768 * 64
  else if o = 1025 then 1024 * 64 - s.bpm.sysStgLost else 0

def State.rdHeld (s : State) (o : Nat) : Nat := s.bpm.rdHeld.get o 0
def State.stgHeld (s : State) (o : Nat) : Nat := s.bpm.bufs.count fun _ b => b.dram && b.named == o

/-- Take and give units of a read pool; they pass through the store's cache (R261). -/
def State.rdTake (s : State) (o n : Nat) : State :=
  { s with bpm := { s.bpm with rdHeld := s.bpm.rdHeld.upd o 0 (· + n), cacheSram := s.bpm.cacheSram - n } }
def State.rdGive (s : State) (o n : Nat) : State :=
  { s with bpm := { s.bpm with rdHeld := s.bpm.rdHeld.upd o 0 (· - n), cacheSram := min 256 (s.bpm.cacheSram + n) } }

/-- A staging buffer returns to its store (R261, R265). -/
def Bpm.giveBuf (b : Bpm) (i : Nat) : Bpm := { b with bufs := b.bufs.del i, cacheDram := min 256 (b.cacheDram + 1) }

/-- Return the read units of a command (R263). -/
def State.rdReturn (s : State) (c : Nat) : State :=
  match s.ctxs.look c with
  | none => s
  | some x => (s.rdGive (qOwner x.q) x.readDraw).ctxEdit c fun x => { x with readDraw := 0 }

/-- Draw `n` staging buffers, each with NAMED the owner and HOLDS 1 (R265). -/
def drawBufs (o : Nat) : Nat → Tbl Buf → List Nat × Tbl Buf
  | 0, t => ([], t)
  | n + 1, t =>
    let i := t.freeFrom 0
    let r := drawBufs o n (t.put i { dram := true, named := o, holds := 1 })
    (i :: r.1, r.2)

/-- Free a buffer for an owner (R265). -/
def State.bufFree (s : State) (o i : Nat) : State :=
  match s.bpm.bufs.look i with
  | none => s
  | some b =>
    if b.named ≠ o then
      ({ s with bpm := { s.bpm with freeRefused := satAdd 0xffffffff s.bpm.freeRefused 1 } }).fire 9
        [satAdd 0xffffffff s.bpm.freeRefused 1] 0 o
    else if b.holds ≤ 1 then { s with bpm := s.bpm.giveBuf i }
    else { s with bpm := { s.bpm with bufs := s.bpm.bufs.put i { b with freeing := true } } }

/-- An engine takes a hold on a buffer (R265). DESIGN CHOICE: HOLDS is 0-15 and the spec gives no rule for a sixteenth hold;
the count stays at 15. -/
def State.bufHold (s : State) (i : Nat) : State :=
  { s with bpm := { s.bpm with bufs := s.bpm.bufs.edit i fun b => { b with holds := min 15 (b.holds + 1) } } }

/-- An engine drops its hold; a deferred free is then carried out (R265). -/
def State.bufDrop (s : State) (i : Nat) : State :=
  match s.bpm.bufs.look i with
  | none => s
  | some b =>
    if b.freeing && decide (b.holds ≤ 2) then { s with bpm := s.bpm.giveBuf i }
    else { s with bpm := { s.bpm with bufs := s.bpm.bufs.put i { b with holds := b.holds - 1 } } }

/-- dirty_max in bytes (R376) and the dirty count (R377). -/
def State.dirtyRoom (s : State) (n : Nat) : Bool := decide (s.gate.dirty + n * 4096 ≤ s.brm.budget)

def State.dirtyAdd (s : State) (n : Nat) : State := { s with gate := { s.gate with dirty := s.gate.dirty + n * 4096 } }
def State.dirtySub (s : State) (n : Nat) : State := { s with gate := { s.gate with dirty := s.gate.dirty - n * 4096 } }

/-- Blocks counted by the written quota of an owner (R89). -/
def State.quotaAdd (s : State) (o n : Nat) : State :=
  if o < 1024 then s.sliceEdit o fun x => { x with written := x.written + n } else s
def State.quotaSub (s : State) (o n : Nat) : State :=
  if o < 1024 then s.sliceEdit o fun x => { x with written := x.written - n } else s

/-! ### Media operations -/

def Op.isRead (o : Op) : Bool := match o.kind with | .direct _ _ | .helper _ _ | .src _ _ => true | _ => false
def Op.isErase (o : Op) : Bool := o.kind == .erase

/-- A request waits at a rung of the drain ladder (R266, R270). -/
def State.rungWait (s : State) (rung : Nat) : State :=
  { s with bpm := { s.bpm with waits := s.bpm.waits.upd (rung - 1) 0 (satAdd 0xffffffff · 1) } }

/-- Slots of a die that are taken: its operations but for those that wait for a slot (R25). -/
def State.dieLoad (s : State) (dk : Nat) : Nat :=
  (s.fch.ops.count fun _ o => o.die == dk) - (s.dies.get dk {}).wait.length

/-- A slot is free for one more operation: 8 per die, 8,192 per chip (R25). -/
def State.slotFree (s : State) (dk : Nat) : Bool :=
  decide (s.dieLoad dk < 8) && decide (s.fch.ops.length - s.dies.sum (fun _ d => d.wait.length) < 8192)

/-- Give free slots of a die to the operations that wait for one, first in, first out (R25). -/
def State.slotGive (s : State) (dk : Nat) : State :=
  match (s.dies.get dk {}).wait with
  | id :: t => if s.slotFree dk then { s with dies := s.dies.edit dk fun d => { d with wait := t, queue := d.queue ++ [id] } } else s
  | [] => s

/-- Queue an operation at its die (R25): one beyond the slots waits at rung 1 (R266, R270). The dies of a member are its own to
drive (R329). -/
def State.opQueue (s : State) (o : Op) : State :=
  if dkChip o.die ≠ 0 then s else
  let id := s.fch.opNext
  let room := s.slotFree o.die && (s.dies.get o.die {}).wait.isEmpty
  let s1 := if room then s else s.rungWait 1
  { s1 with fch := { s1.fch with ops := s1.fch.ops.put id { o with seq := id }, opNext := id + 1 }
            dies := s1.dies.edit o.die fun d =>
              if room then { d with queue := d.queue ++ [id] } else { d with wait := d.wait ++ [id] } }

/-- A die without an operation. -/
def Die.without (d : Die) (id : Nat) : Die :=
  { d with queue := d.queue.filter (· != id), wait := d.wait.filter (· != id)
           running := if d.running = some id then none else d.running
           suspended := if d.suspended = some id then none else d.suspended }

/-- An operation leaves: its table entry, its die's queue or run, its slot, its holds, and the read units it still holds (R240). -/
def State.opEnd (s : State) (id : Nat) : State :=
  match s.fch.ops.look id with
  | none => s
  | some o =>
    let s1 := { s with fch := { s.fch with ops := s.fch.ops.del id }, dies := s.dies.edit o.die fun d => d.without id }
    (o.holds.foldl State.bufDrop (s1.slotGive o.die)).rdGive 1025 o.lend

/-- The die is at work on the operation. -/
def State.opIssued (s : State) (id : Nat) (o : Op) : Bool :=
  (s.dies.get o.die {}).running == some id || (s.dies.get o.die {}).suspended == some id

/-- Withdraw an operation (R240): one the die is at work on runs to its end, its data discarded. -/
def State.opDrop (s : State) (id : Nat) : State :=
  match s.fch.ops.look id with
  | none => s
  | some o =>
    if s.opIssued id o then { s with fch := { s.fch with ops := s.fch.ops.put id { o with withdrawn := true } } }
    else s.opEnd id

/-- An operation goes on with another die or block. -/
def State.opMove (s : State) (id dk b : Nat) : State :=
  match s.fch.ops.look id with
  | none => s
  | some o =>
    let s1 := { s with fch := { s.fch with ops := s.fch.ops.del id }, dies := s.dies.edit o.die fun d => d.without id }
    (s1.slotGive o.die).opQueue { o with die := dk, block := b, failed := false, retried := false, startAt := 0 }

/-- Operations of a read, or of one unit of it. -/
def OpKind.ofRead (k : OpKind) (c : Nat) (u : Option Nat) : Bool :=
  match k with
  | .direct c' u' | .helper c' u' => c' == c && (match u with | some v => u' == v | none => true)
  | _ => false

/-- Units of the system read pool that a helper read keeps until its die is done with it (R240), and keeping them. -/
def State.opKeeps (s : State) (id : Nat) : Nat :=
  match s.fch.ops.look id with
  | some o => (match o.kind with | .helper _ _ => if s.opIssued id o && !o.withdrawn then (o.left ++ o.retry).length else 0 | _ => 0)
  | none => 0

def State.opLend (s : State) (id n : Nat) : State :=
  { s with fch := { s.fch with ops := s.fch.ops.edit id fun o => { o with lend := o.lend + n } } }

/-- Stop a read: its paths are withdrawn, its buffers and those lent to it return (R240, R242, R263). -/
def State.readStop (s : State) (c : Nat) : State :=
  match s.ctxs.look c with
  | none => s
  | some x =>
    let ids := s.fch.ops.keysWhere fun _ o => o.kind.ofRead c none
    let kept := ids.foldl (fun n id => n + s.opKeeps id) 0
    let s1 := forNats ids s fun s id => (s.opLend id (s.opKeeps id)).opDrop id
    let s2 := x.runits.foldl (fun s r => match r.2.hold with | some b => s.bufDrop b | none => s) s1
    let s3 := s2.rdGive 1025 (x.runits.sum (fun _ r => r.lent) - kept)
    (s3.rdReturn c).ctxEdit c fun x => { x with runits := [] }

/-- The erase of a block, in SLC mode where the block is used so (R233). -/
def State.eraseOp (s : State) (dk b owner : Nat) : Op :=
  let st := (s.blk (blkKey dk b)).st
  { die := dk, block := b, kind := .erase, owner := owner, seq := 0, slcMode := st == 4 || st == 5 || st == 9 }

/-- Queue an erase of a block that is not erased. -/
def State.eraseQueue (s : State) (dk b owner : Nat) : State :=
  if s.fch.ops.any fun _ o => o.kind == .erase && o.die == dk && o.block == b then s
  else s.opQueue (s.eraseOp dk b owner)

/-- A block is released (R151): free and marked for erase, and erased at once where it is to be retired (R187, R189). -/
def State.blockLeave (s : State) (dk b : Nat) : State :=
  let e := s.eraseOp dk b 1024
  let s1 := s.freeBlock dk b
  if (s1.blk (blkKey dk b)).retire = 0 ∨ dkChip dk ≠ 0 ∨ s.fch.ops.any (fun _ o => o.kind == .erase && o.die == dk && o.block == b) then s1
  else s1.opQueue e

/-- Release the blocks of a placement. -/
def State.freePlace (s : State) (p : Place) : State :=
  p.pos.foldl (fun s x => match x.2 with | some b => s.blockLeave x.1 b | none => s) s

/-- The copies of a zone's pages are read back to the DRAM: their programs wait for the copy fence (R260). -/
def State.copyFence (s : State) (zk : Nat) : State :=
  { s with dma := { s.dma with fences := s.dma.fences ++ [(3, zk)] } }

/-! ### Bracken (R203-R206) -/

/-- Bytes 0-4103 of a codeword: the ciphertext unit and its metadata, as one number (R178, R204). -/
def synBytes : Nat := 4104

/-- A byte repeated over a syndrome. -/
def rep (b : Nat) : Nat := b * ((256 ^ synBytes - 1) / 255)

/-- Multiply every byte by g = 0x02 in GF(2^8) with 0x11d. -/
def xtime (v : Nat) : Nat := ((v &&& rep 0x7f) <<< 1) ^^^ (((v &&& rep 0x80) >>> 7) * 0x1d)

/-- Multiply every byte by g^k. -/
def mulG (v : Nat) : Nat → Nat
  | 0 => v
  | k + 1 => xtime (mulG v k)

/-- Key of a slot's accumulators: zone, row, slot. -/
def accKey (zk row slot : Nat) : Nat := (zk * 2 ^ 17 + row) * 256 + slot

/-- Rows of a log row are numbered from here on. -/
def logTag : Nat := 65536

/-- Bring a row's accumulators into the SRAM cache, which holds `lim` rows (R27, R206, R266): another row is spilled to its
DRAM home, behind the accumulator fence (R260). DESIGN CHOICE: the spec does not say which; the least recently used one is. -/
def State.accTouch (s : State) (zk row lim : Nat) : State :=
  let k := accKey zk row 0
  let c := s.par.cache.filter (· != k)
  match (if lim ≤ c.length then c else []) with
  | old :: t => { (s.flits brackenOut (dramPort 0) (2 * s.geom.u * unitFlits)).rungWait 3 with par := { s.par with cache := t ++ [k] }, dma := { s.dma with fences := s.dma.fences ++ [(1, old)] } }
  | [] => { s with par := { s.par with cache := c ++ [k] } }

/-- Rows of the cache that any fold may use, and all of them (R27, R266). -/
def accRows : Nat := 60
def accRowsAll : Nat := 64

/-- Fold a unit at data position `k` into P and Q; folding it again removes it (R206). -/
def State.foldUnit (s : State) (zk row slot k v : Nat) : State :=
  let s1 := s.accTouch zk row accRows
  let t := s1.par.acc.upd (accKey zk row slot) (0, 0) fun a => (a.1 ^^^ v, a.2 ^^^ mulG v k)
  { s1 with par := { s1.par with acc := t } }

/-- A row's accumulators are no longer needed. -/
def State.accDrop (s : State) (zk row : Nat) : State :=
  { s with par := { s.par with
    acc := s.par.acc.filter fun a => a.1 / 256 ≠ accKey zk row 0 / 256, cache := s.par.cache.filter (· != accKey zk row 0) } }

/-- Gauntlet makes the unit that goes to staging (R15, R21, R308): ciphertext under the draw `kix`, its metadata, its CRC. -/
def sealUnit (kix lba nsid plain md : Nat) : Sealed :=
  { plain := plain, md := md, crc := crc32c (cipherOf kix lba nsid plain md) 4096 }

/-- The bits of a unit of a staged write, as Bracken, the media and the Ubpel links see them. -/
def Staged.bits (st : Staged) (zsze j : Nat) (u : Sealed) : Nat :=
  cipherOf st.kix (zIndex st.zone * zsze + st.off + j) (zNsid st.zone) u.plain u.md

/-- The row set a staged unit lies in, its index there, and the row's tag. -/
def Staged.coord (st : Staged) (conv : Bool) (j : Nat) : Nat × Nat :=
  if conv then (logTag, st.logBase + j) else (0, st.off + j)

def State.zone (s : State) (zk : Nat) : Zone := s.zones.get zk {}
def State.zoneEdit (s : State) (zk : Nat) (f : Zone → Zone) : State := { s with zones := s.zones.edit zk f }

/-- The placement that holds rows of a tag. -/
def Zone.rowPlace (z : Zone) (tag : Nat) : Option Place := if tag = 0 then z.place else z.logRow

/-- Number of the data position (0-13) of a row that holds the `k`-th block: the k of R204. -/
def Place.dataIx (p : Place) (k : Nat) : Nat := match p.dataPos[k]? with | some x => x.1 - 2 | none => 0

/-- Fold, or fold again, unit `j` of a staged write (R204, R206); a member folds the units of its zones itself. -/
def State.foldStaged (s : State) (st : Staged) (j : Nat) : State :=
  let z := s.zone st.zone
  let c := st.coord z.conv j
  match z.rowPlace c.1, st.data.look j with
  | some p, some u =>
    let l := locOf c.2 p.d s.geom.u
    if p.chip ≠ 0 then s else (s.flits (dramPort j) brackenIn unitFlits).foldUnit st.zone (c.1 + l.row) l.slot (p.dataIx l.k) (st.bits s.zsze j u)
  | _, _ => s

/-! ### Lost positions and their sources (R213-R219) -/

/-- Role positions of a row, or of an SLC entry, that are lost: on a failed die, waiting for rebuild, or P or Q without a
page. -/
def State.lostPos (s : State) (zk row : Nat) (slc : Bool) (pages : List Pg) : List Nat :=
  (List.range 16).filter fun i =>
    (match pages.find? fun g => g.pos == i with | some g => !s.dieGood g.die | none => decide (i < 2)) ||
    s.par.queue.any fun q => q.zone == zk && q.row == row && q.slc == slc && q.lost == i

/-- Sources of a recovery of a position when those in `lost` cannot be read (R213), and whether P is left out: none when three
or more are lost. -/
def recSources (pages : List Pg) (lost : List Nat) (pos : Nat) : Option (List Pg × Bool) :=
  let gone := if lost.contains pos then lost else pos :: lost
  if 3 ≤ gone.length then none
  else
    let data := (List.range 16).filter fun i => decide (2 ≤ i) && !gone.contains i
    let par := match (gone.filter fun i => decide (2 ≤ i)).length with
      | 2 => [0, 1]
      | 1 => if gone.contains 0 then [1] else [0]
      | _ => []
    some ((par ++ data).filterMap fun i => pages.find? fun g => g.pos == i, decide ¬par.contains 0)

/-! ### Page reads for copies and rebuild -/

/-- A page read of a row is under way or queued. -/
def State.srcBusy (s : State) (zk row : Nat) : Bool := s.fch.ops.any fun _ o => o.kind == .src zk row && !o.withdrawn

/-- Queue the reads of pages of a row, each with all its codewords, unless they are queued. -/
def State.srcQueue (s : State) (zk row owner : Nat) (slc : Bool) (pages : List Pg) : State :=
  pages.foldl (fun (s : State) g =>
    if s.fch.ops.any fun _ o => o.kind == .src zk row && o.die == g.die && o.block == g.block && o.row == g.page && !o.withdrawn then s
    else
      let o : Op := { die := g.die, block := g.block, row := g.page, kind := .src zk row, owner := owner, seq := 0, slcMode := slc
                      left := List.range s.geom.u, pos := g.pos, ent := s.now, hint := (s.blk (blkKey g.die g.block)).hint }
      s.opQueue o) s

/-- Positions that a copy or rebuild cannot read. -/
def State.srcLost (s : State) (zk row : Nat) (slc : Bool) (pages : List Pg) : List Nat :=
  (List.range 16).filter fun i => (s.lostPos zk row slc pages).contains i || (s.zone zk).unread.contains (row, i)

/-- Read a page of a row for a copy, or what it can be recovered from. -/
def State.srcRead (s : State) (zk row owner : Nat) (slc : Bool) (pages : List Pg) (pos : Nat) : State :=
  let lost := s.srcLost zk row slc pages
  if lost.contains pos then
    match recSources pages lost pos with
    | some (l, _) => s.srcQueue zk row owner slc l
    | none => s
  else s.srcQueue zk row owner slc (pages.filter fun g => g.pos == pos)

/-- The last read of a row's copy has ended: its content stands behind the copy fence (R260). -/
def State.srcSettle (s : State) (zk row : Nat) : State := if s.srcBusy zk row then s else s.copyFence zk

/-! ### Programming rows (R22, R143, R206) -/

/-- A program of a page row of a zone is queued or at work at a role position. -/
def State.rowOp (s : State) (zk row pos : Nat) : Bool :=
  s.fch.ops.any fun _ o => o.kind == .prog zk row pos && !o.withdrawn

/-- The part of a row that its live SLC entry holds is read back (R164), with what a lost page of it is recovered from. -/
def State.foldRead (s : State) (zk row : Nat) : State :=
  match (s.zone zk).slc with
  | some e =>
    if e.live && e.row == row then
      (e.pages.filter fun g => decide (2 ≤ g.pos)).foldl (fun (s : State) g => s.srcRead zk row 1024 true e.pages g.pos) s
    else s
  | none => s

/-- Queue the programs of the data pages of a full row, behind the staging fence (R260); pages that a stopped start of the
row has already programmed or issued are left, and so are those whose die has failed without a replacement (R219). -/
def State.rowStart (s : State) (zk tag row : Nat) : State :=
  match (s.zone zk).rowPlace tag with
  | none => s
  | some p =>
    if p.chip ≠ 0 then s else
    let old := (s.zone zk).rowPages.get (tag + row) []
    p.dataPos.foldl (fun s x =>
        let o : Op := { die := x.2.1, block := x.2.2, row := row, seq := 0
                        kind := .prog zk (tag + row) x.1, owner := s.nsOwner (zNsid zk) }
        if old.contains x.1 || s.rowOp zk (tag + row) x.1 || !s.dieGood x.2.1 then s else s.opQueue o)
      ({ s.foldRead zk (tag + row) with dma := { s.dma with fences := s.dma.fences ++ [(0, accKey zk (tag + row) 0)] } }.zoneEdit zk fun z =>
        { z with rowPages := z.rowPages.put (tag + row) old, rowsCut := z.rowsCut.filter (· != tag + row) })

/-- Start every row from number `r0` that lies wholly below `upto` units and is not started. -/
def State.rowsStart (s : State) (zk tag upto : Nat) : State :=
  match (s.zone zk).rowPlace tag with
  | none => s
  | some p =>
    let n := upto / (p.d * s.geom.u)
    forNats (List.range n) s fun s r =>
      if (s.zone zk).rowsDone.contains (tag + r) ||
          ((s.zone zk).rowPages.has (tag + r) && !(s.zone zk).rowsCut.contains (tag + r)) then s
      else s.rowStart zk tag r

/-- The rows that hold a withdrawn write's units are no longer full: their programs that no die has been given leave their
queues, and the rows are started again when they are full (R122, R133). -/
def State.rowsCut (s : State) (zk : Nat) (rows : List Nat) : State :=
  let cut := rows.filter fun r => (s.zone zk).rowPages.has r && !(s.zone zk).rowsDone.contains r
  let ids := s.fch.ops.keysWhere fun id o => !s.opIssued id o && (match o.kind with
    | .prog z r _ => z == zk && cut.contains r | _ => false)
  if cut = [] then s
  else (forNats ids s State.opEnd).zoneEdit zk fun z => { z with rowsCut := cut.foldl (fun l r => insNat r l) z.rowsCut }

/-- End of the committed units of a zone whose write is still being staged: the first index of a row set that is not yet
certain, or `d`. -/
def State.pendFrom (s : State) (zk d : Nat) : Nat :=
  s.staging.foldl (fun m p => if p.2.zone = zk ∧ p.2.placed ∧ !p.2.complete ∧ !p.2.dropped ∧ !p.2.merged then min m p.2.logBase else m) d

/-- A committed write of the zone is still being staged. -/
def State.writing (s : State) (zk : Nat) : Bool :=
  s.staging.any fun _ t => t.zone == zk && t.placed && !t.complete && !t.dropped

/-! ### Release (R22, R263) -/

/-- Release units of a staged write: their buffers return, the dirty count falls; the last one ends the entry. -/
def State.releaseUnits (s : State) (stamp : Nat) (js : List Nat) : State :=
  match s.staging.look stamp with
  | none => s
  | some st =>
    let new := js.filter fun j => decide (j < st.n) && !st.released.contains j
    let rel := new ++ st.released
    let full := fun (i : Nat) (l : List Nat) => (List.range 4).all fun t => decide (st.n ≤ 4 * i + t) || l.contains (4 * i + t)
    let s1 := (((List.range st.bufs.length).zip st.bufs).foldl (fun s x =>
      if full x.1 rel && !full x.1 st.released then s.bufFree st.owner x.2 else s) s).dirtySub new.length
    if st.n ≤ rel.length then { s1 with staging := s1.staging.del stamp }
    else { s1 with staging := s1.staging.put stamp { st with released := rel } }

/-- Release every complete staged unit of a zone whose row (with its tag) and index satisfy a test. -/
def State.releaseRow (s : State) (zk : Nat) (test : Nat → Nat → Bool) : State :=
  let z := s.zone zk
  let stamps := s.staging.keysWhere fun _ st => st.zone == zk && st.placed && st.complete && !st.dropped && !st.merged
  forNats stamps s fun s k =>
    match s.staging.look k with
    | none => s
    | some st =>
      s.releaseUnits k ((List.range st.n).filter fun j =>
        let c := st.coord z.conv j
        match z.rowPlace c.1 with
        | some p => test (c.1 + (locOf c.2 p.d s.geom.u).row) c.2
        | none => false)

/-! ### Reads that wait for a write (R125, R126) -/

/-- A write is staged: replace it in the alternatives by its content; what is beneath stays until its completion is posted
(R125, R133). -/
def altsDone (stamp kix zk off : Nat) (base : Option Nat) (data : Tbl Sealed) (l : List Alt) : List Alt :=
  l.map fun a => match a with
    | .wr t j => if t = stamp then (match data.look j with
        | some u => .staged stamp kix u.plain u.md zk (off + j) (base.map (· + j)) | none => .lost) else a
    | a => a

/-- The alternative is the write with this stamp. -/
def Alt.isOf (stamp : Nat) : Alt → Bool
  | .wr t _ | .staged t _ _ _ _ _ _ => t == stamp
  | _ => false

/-- A write has failed: the block resolves to what is beneath. -/
def altsFail (stamp : Nat) (l : List Alt) : List Alt := l.filter fun a => !a.isOf stamp

/-- Apply a change of alternatives to every read unit; a unit whose first alternative is certain need not wait. -/
def State.altsMap (s : State) (f : List Alt → List Alt) : State :=
  { s with ctxs := s.ctxs.mapV fun _ x => if x.runits = [] then x else { x with runits := x.runits.mapV fun _ r =>
      { r with alts := f r.alts } } }

/-- A unit of a read that took the write's content and has not left the chip. -/
def RUnit.tookOf (r : RUnit) (stamp : Nat) : Bool :=
  r.st != .sent && (match r.alts with | a :: _ => a.isOf stamp | [] => false)

def RUnit.undo (r : RUnit) (stamp : Nat) : RUnit :=
  if r.tookOf stamp then { r with alts := altsFail stamp r.alts, st := .waiting, hold := none }
  else { r with alts := altsFail stamp r.alts }

/-- A write fails: every read that resolves to it falls back to what is beneath, and a unit already taken from its staging
is resolved again (R125). -/
def State.altsUndo (s : State) (stamp : Nat) : State :=
  let holds := s.ctxs.flatMap fun p => p.2.runits.filterMap fun r => if r.2.tookOf stamp then r.2.hold else none
  let s1 := holds.foldl State.bufDrop s
  { s1 with ctxs := s1.ctxs.mapV fun _ x =>
      if x.runits = [] then x else { x with runits := x.runits.mapV fun _ r => r.undo stamp } }

/-! ### End of a staged write -/

/-- Tokens of an append (R130). -/
def State.tokCommit (s : State) (o stamp : Nat) : State :=
  { s with toks := s.toks.edit o fun l => l.map fun t => if t.stamp = stamp then { t with committed := true } else t }

def State.tokRemove (s : State) (o : Nat) (f : Tok → Bool) : State :=
  { s with toks := s.toks.edit o fun l => l.filter fun t => !f t }

/-- Content versions beneath a write whose completion is final no longer matter. -/
def verCut (stamp : Nat) : List Ver → List Ver
  | [] => []
  | v :: t => if v.stamp = stamp ∧ (v.arrived ∨ v.dealloc) then [v] else v :: verCut stamp t

/-- The staged content of a write becomes the content of its units. -/
def Zone.fillVers (z : Zone) (stamp : Nat) (st : Staged) : Zone :=
  { z with vers := (List.range st.n).foldl (fun t j =>
      t.edit (st.off + j) fun l => l.map fun v =>
        if v.stamp = stamp && !v.dealloc then
          (match st.data.look j with | some u => { v with plain := u.plain, md := u.md, arrived := true } | none => v)
        else v) z.vers }

/-- Generations of conventional units that pruning drops (R301): (generation, count) pairs. -/
def droppedGens (old new : List Ver) : List Nat :=
  (old.filter fun v => !v.dealloc && !new.any fun w => w.stamp == v.stamp).map (·.gen)

/-- The completion of a write is final, posted or discarded: what lay beneath its blocks `[off, off+n)` is gone (R125, R301). -/
def State.versSettle (s : State) (zk stamp off n : Nat) : State :=
  let z := s.zone zk
  let cut := (List.range n).foldl (fun (t : Tbl (List Ver)) j => t.edit (off + j) (verCut stamp)) z.vers
  let gens := if z.conv then (List.range n).flatMap fun j => droppedGens (z.vers.get (off + j) []) (cut.get (off + j) []) else []
  gens.foldl (fun s g => s.keyUnref (s.nsOwner (zNsid zk)) g 1) (s.zoneEdit zk fun z => { z with vers := cut })

/-- Every unit of the write is staged (R21): it is complete, its token commits, waiting reads take its content, and
rows it fills are programmed. A write whose zone was reset meanwhile is discarded instead (R151). -/
def State.stageDone (s : State) (stamp : Nat) : State :=
  match s.staging.look stamp with
  | none => s
  | some st =>
    let s1 := { s with staging := s.staging.put stamp { st with complete := true } }
    let s2 := (s1.tokCommit st.owner stamp).altsMap (altsDone stamp st.kix st.zone st.off (if (s1.zone st.zone).conv then some st.logBase else none) st.data)
    let s3 := s2.finish st.ctx stOk
    if st.dropped then s3.releaseUnits stamp (List.range st.n)
    else
      let z := s3.zone st.zone
      let upto := if z.conv then s3.pendFrom st.zone z.logUsed else st.off + st.n
      let s4 := s3.zoneEdit st.zone fun z => { z.fillVers stamp st with
        cwp := if z.conv then z.cwp else st.off + st.n, ages := z.ages ++ [(upto, s3.gate.stageClock)] }
      if z.conv then
        -- a log row's row is full when every index below it belongs to a complete write
        s4.rowsStart st.zone logTag upto
      else
        let per := match z.place with | some p => p.d * s.geom.u | none => 1
        s4.rowsStart st.zone 0 (if z.padded then ceilDiv (st.off + st.n) per * per else st.off + st.n)

/-- Blocks of a failed write for which it alone supplied the written data (R89). -/
def Zone.aloneBlocks (z : Zone) (stamp off n : Nat) : Nat :=
  ((List.range n).filter fun j =>
    let l := z.vers.get (off + j) []
    (l.any fun v => v.stamp == stamp && !v.dealloc) && !(l.any fun v => v.stamp != stamp && !v.dealloc)).length

/-- A zone without the units of a withdrawn write; `stands`: nothing has reset it since, so the write pointer returns. -/
def Zone.without (z : Zone) (st : Staged) (stamp : Nat) (stands : Bool) : Zone :=
  { z with
    vers := (List.range st.n).foldl (fun t j => t.edit (st.off + j) fun l => l.filter fun v => v.stamp != stamp) z.vers
    wp := if stands && !z.conv then st.off else z.wp
    cwp := if z.conv then z.cwp else min z.cwp st.off
    returned := if !stands && !z.conv then z.returned + st.n else z.returned
    zs := if stands && !z.conv && z.zs == .full && !z.padded then
        (if z.preFull = .explOpen then .explOpen else .implOpen) else z.zs
    busy := if z.busy = some stamp then none else z.busy }

/-- A staged write leaves staging, and its buffers return. -/
def State.unstage (s : State) (st : Staged) (stamp : Nat) : State :=
  st.bufs.foldl (fun s b => s.bufFree st.owner b) { s with staging := s.staging.del stamp }

/-- The rows, with their tag, that hold units of a staged write. -/
def Staged.rows (st : Staged) (z : Zone) (u : Nat) : List Nat :=
  ((List.range st.n).filterMap fun j =>
    let c := st.coord z.conv j
    (z.rowPlace c.1).map fun p => c.1 + (locOf c.2 p.d u).row).eraseDups

/-- Withdraw a committed write (R115, R122): its units, parity, buffers, budget, quota and token; the write pointer
returns unless a reset, finish or offline has committed since. The quota gets its blocks back whatever has committed since,
but for a reset or offline, which has given them back itself (R89). -/
def State.withdraw (s : State) (stamp : Nat) : State :=
  match s.staging.look stamp with
  | none => s
  | some st =>
    let z := s.zone st.zone
    let o := s.nsOwner (zNsid st.zone)
    let stands := decide (z.lastZsc < stamp) && !st.dropped
    let back := if st.dropped then 0 else if z.conv then z.aloneBlocks stamp st.off st.n else st.n
    let s2 := if st.dropped then s
      else ((st.data.foldl (fun s p => s.foldStaged st p.1) s).rowsCut st.zone (st.rows z s.geom.u)).zoneEdit st.zone
        fun y => y.without st stamp stands
    let s3 := if z.conv && !st.dropped then s2.keyUnref o st.gen st.n else s2
    let s4 := ((s3.quotaSub o back).dirtySub (st.n - st.released.length)).tokRemove o fun t => t.stamp == stamp
    let s5 := (s4.unstage st stamp).altsUndo stamp
    -- a Finish that committed meanwhile pads the row at which the content now ends (R147)
    if z.padded && !z.conv && !st.dropped then
      let per := match z.place with | some p => p.d * s.geom.u | none => 1
      s5.rowsStart st.zone 0 (ceilDiv (s5.zone st.zone).cwp per * per)
    else s5

/-- Latency class of an owner (R90): a slice's, or 1 for the PF. -/
def State.classOf (s : State) (o : Nat) : Nat := if o < 1024 then (s.slice o).lclass else 1

/-- Share weight of an owner: a slice's WEIGHT, else the PF's (R230). -/
def State.weightOf (s : State) (o : Nat) : Nat :=
  if o < 1024 then (s.slice o).weight else match s.img with | some i => i.pfWeight | none => 1

end Sys2Proof.Machine
end

