-- ==== Sys2Proof/Machine/Flash.lean ====
section
/-! DEFINITION. What the flash holds (R178, R203, R205): the codewords of programmed pages, the recovery of a lost position
(R213, R214), and the page reads that feed folds, merges, replacements, migration and rebuild (R164, R190, R217, R222). -/

namespace Sys2Proof.Machine

open Sys2Proof

/-! ### GF(2^8) (R204) -/

/-- Every byte of a syndrome times a byte. -/
def mulC (v c : Nat) : Nat := (List.range 8).foldl (fun r i => if c.testBit i then r ^^^ mulG v i else r) 0

/-- P and Q of data units given with their data positions (R204). -/
def parityOf (l : List (Nat × Nat)) : Nat × Nat := l.foldl (fun a x => (a.1 ^^^ x.2, a.2 ^^^ mulG x.2 x.1)) (0, 0)

/-- Recovery of data position `x` of a slot (R213): `have_` gives the bits of the role positions that can be released. -/
def recoverData (have_ : Nat → Option Nat) (x : Nat) : Option Nat :=
  let data := (List.range 14).filterMap fun k => (have_ (k + 2)).map fun v => (k, v)
  let par := parityOf data
  let p' := (have_ 0).map (· ^^^ par.1)
  let q' := (have_ 1).map (· ^^^ par.2)
  match (List.range 14).filter fun k => (have_ (k + 2)).isNone with
  | [] => have_ (x + 2)
  | [a] =>
    if x ≠ a then have_ (x + 2)
    else match p' with
      | some v => some v
      | none => q'.map fun v => mulG v (255 - a)
  | [a, b] =>
    match p', q' with
    | some p, some q =>
      let dx := mulC (q ^^^ mulG p b) (gfInv (gfPow 1 a ^^^ gfPow 1 b))
      if x = a then some dx else if x = b then some (p ^^^ dx) else have_ (x + 2)
    | _, _ => none
  | _ => none

/-- Recovery of a role position: a data position, or P or Q recomputed from all the data (R213). -/
def recover (have_ : Nat → Option Nat) (x : Nat) : Option Nat :=
  if 2 ≤ x then recoverData have_ (x - 2)
  else
    let all := (List.range 14).filterMap fun k => (recoverData have_ k).map fun v => (k, v)
    if all.length = 14 then some (if x = 0 then (parityOf all).1 else (parityOf all).2) else none

/-- CRC-32C of 4,096 zero bytes: the affine constant of R214. -/
def crcZero : BitVec 32 := crc32c 0 4096

/-- The relation of R214 between the CRC-32C values of a slot: those of P and of the 14 data positions. -/
def crcRelation (p : BitVec 32) (data : List (BitVec 32)) : Bool := p == data.foldl (· ^^^ ·) crcZero

/-! ### Codewords -/

def pageKey (dk b row slot : Nat) : Nat := (blkKey dk b * 4096 + row) * 256 + slot

/-- Program codewords of a page row, by slot. -/
def State.flashPut (s : State) (dk b row : Nat) (l : List (Nat × Codeword)) : State :=
  { s with flash := l.foldl (fun t p => t.put (pageKey dk b row p.1) p.2) s.flash }

/-- A block is erased, or overwritten with zeros. -/
def State.flashWipe (s : State) (bk : Nat) : State := { s with flash := s.flash.filter fun p => p.1 / 2 ^ 20 != bk }

def State.cwAt (s : State) (g : Pg) (slot : Nat) : Option Codeword := s.flash.look (pageKey g.die g.block g.page slot)

/-- TAG of a P or Q unit (R205). -/
def parTag (q : Bool) (row key : Nat) : BitVec 32 :=
  BitVec.ofNat 32 ((if q then 2 else 1) * 2 ^ 28 + row % 4096 * 2 ^ 16 + key % 65536)

/-- The codeword of bits under a TAG: its CRC-32C is computed over bytes 0-4095 (R178, R214). -/
def wordOf (bits : Nat) (tag : BitVec 32) : Codeword := { bits := bits, tag := tag, crc := crc32c bits 4096 }

/-- The tag of a numbered row's set. -/
def tagOf (row : Nat) : Nat := if logTag ≤ row then logTag else 0

/-- Unit of the zone at an index of a row set. -/
def Zone.unitAt (z : Zone) (tag i : Nat) : Nat := if tag = 0 then i else z.logUnits.getD i 0

/-- TAG of host data: bits [31:0] of the unit's LBA (R178). -/
def State.lbaTag (s : State) (zk unit : Nat) : BitVec 32 := BitVec.ofNat 32 (zIndex zk * s.zsze + unit)

/-- The pages of a row set at one page row. -/
def Place.pages (p : Place) (page : Nat) : List Pg :=
  ((List.range p.pos.length).zip p.pos).filterMap fun (i, dk, b) => b.map fun b => { pos := i, die := dk, block := b, page := page }

/-- Number of a role position among the data positions that hold a block. -/
def Place.kOf (p : Place) (pos : Nat) : Nat := (p.dataPos.map (·.1)).idxOf pos

/-- The pages of a row of a zone as they are read: of a block that is being replaced, the old one until its copy stands (R190). -/
def State.rowPgs (s : State) (zk row : Nat) (p : Place) : List Pg :=
  let tag := tagOf row
  let z := s.zone zk
  (p.pages (row - tag)).map fun g =>
    match (if z.rowPlace tag = some p then z.copying.find? fun c => c.tag == tag && c.pos == g.pos && c.rows.contains (row - tag) else none) with
    | some c => { g with die := c.die, block := c.block }
    | none => g

/-- The staged unit at an index of a row set. -/
def State.stagedWord (s : State) (zk tag i : Nat) : Option Codeword :=
  let conv := (s.zone zk).conv
  let base := fun (t : Staged) => if conv then t.logBase else t.off
  if conv && tag == 0 then none
  else
    match s.staging.find? fun p => p.2.zone == zk && p.2.placed && !p.2.dropped && !p.2.merged && decide (base p.2 ≤ i) && decide (i < base p.2 + p.2.n) with
    | some (_, t) => (t.data.look (i - base t)).map fun u =>
        { bits := t.bits s.zsze (i - base t) u, tag := s.lbaTag zk ((s.zone zk).unitAt tag i), crc := u.crc }
    | none => none

/-- The codeword at an index of a row set: from staging, from the row's live SLC entry, or the content the zone names; zeros
where nothing was written (R154, R206). -/
def State.rowWord (s : State) (zk tag i : Nat) : Codeword :=
  let z := s.zone zk
  let unit := z.unitAt tag i
  let inSlc : Option Codeword := match z.slc, z.rowPlace tag with
    | some e, some p =>
      let l := locOf i p.d s.geom.u
      if e.live && e.row == tag + l.row then
        (e.pages.find? fun g => some g.pos == (p.dataPos[l.k]?).map (·.1)).bind fun g => s.cwAt g l.slot
      else none
    | _, _ => none
  match s.stagedWord zk tag i, inSlc with
  | some w, _ => w
  | none, some w => w
  | none, none =>
    match (z.vers.get unit []).find? fun v => v.arrived && !v.dealloc && (if tag = 0 then v.lix.isNone else v.lix == some i) with
    | some v => wordOf (cipherOf v.kix (zIndex zk * s.zsze + unit) (zNsid zk) v.plain v.md) (s.lbaTag zk unit)
    | none => wordOf 0 (s.lbaTag zk unit)

/-- Program pages of a row with its first `lim` units: data units as they stand, P and Q as their syndromes (R204-R207). -/
def State.fillPages (s : State) (zk row : Nat) (p : Place) (pages : List Pg) (lim : Nat) : State :=
  let tag := tagOf row
  let u := s.geom.u
  let word := fun (k j : Nat) => if k * u + j < lim then s.rowWord zk tag ((row - tag) * (p.d * u) + k * u + j)
    else wordOf 0 (s.lbaTag zk ((s.zone zk).unitAt tag ((row - tag) * (p.d * u) + k * u + j)))
  pages.foldl (fun (t : State) g =>
    t.flashPut g.die g.block g.page ((List.range u).map fun j =>
      if g.pos < 2 then
        let a := parityOf ((List.range p.d).map fun k => (p.dataIx k, (word k j).bits))
        (j, wordOf (if g.pos = 0 then a.1 else a.2) (parTag (g.pos == 1) (row - tag) (s.layoutKey zk)))
      else (j, word (p.kOf g.pos) j))) s

/-- Program P or Q of a row from its accumulators (R206). -/
def State.fillParity (s : State) (zk row : Nat) (g : Pg) : State :=
  s.flashPut g.die g.block g.page ((List.range s.geom.u).map fun j =>
    let a := s.par.acc.get (accKey zk row j) (0, 0)
    (j, wordOf (if g.pos = 0 then a.1 else a.2) (parTag (g.pos == 1) (row - tagOf row) (s.layoutKey zk))))

/-- Reload a row's accumulators from the P and Q of its live entry (R207). -/
def State.accReload (s : State) (zk : Nat) (e : SlcEntry) : State :=
  let at_ := fun (i j : Nat) => match e.pages.find? fun g => g.pos == i with
    | some g => (match s.cwAt g j with | some w => w.bits | none => 0) | none => 0
  { s with par := { s.par with
    acc := (List.range s.geom.u).foldl (fun t j => t.put (accKey zk e.row j) (at_ 0 j, at_ 1 j)) s.par.acc } }

/-! ### Recovery (R213, R214) -/

/-- The codeword of a position recovered from those that are not lost (R213, R214): its expected TAG, a fresh CRC-32C. -/
def State.remake (s : State) (zk row : Nat) (p : Place) (pages : List Pg) (lost : List Nat) (pos slot : Nat) : Option Codeword :=
  let have_ := fun (i : Nat) =>
    if i = pos ∨ lost.contains i then none
    else match pages.find? fun g => g.pos == i with
      | some g => some (match s.cwAt g slot with | some w => w.bits | none => 0)
      | none => if i < 2 then none else some 0
  let tag := tagOf row
  let i := (row - tag) * (p.d * s.geom.u) + p.kOf pos * s.geom.u + slot
  let t := if pos < 2 then parTag (pos == 1) (row - tag) (s.layoutKey zk) else s.lbaTag zk ((s.zone zk).unitAt tag i)
  (recover have_ pos).map fun v => wordOf v t

/-- The relation of R214 over a slot with one or two positions recovered. -/
def State.relationHolds (s : State) (zk row : Nat) (p : Place) (pages : List Pg) (lost : List Nat) (pos slot : Nat) : Bool :=
  let crc := fun (i : Nat) =>
    if i = pos ∨ lost.contains i then (s.remake zk row p pages lost i slot).map (·.crc)
    else match pages.find? fun g => g.pos == i with
      | some g => some (match s.cwAt g slot with | some w => w.crc | none => crcZero)
      | none => some crcZero
  match crc 0 with
  | some c => crcRelation c ((List.range 14).filterMap fun k => crc (k + 2))
  | none => false

end Sys2Proof.Machine
end

