-- ==== Sys2Proof/Machine/Zones.lean ====
section
/-! DEFINITION. The zone and placement engine: SLC entries (R161-R165), zone operations (R145-R151), write commits
(R121-R131, R148, R158-R160), read resolution (R125-R127), deallocation and the sanitizing sets (R195-R197). -/

namespace Sys2Proof.Machine

open Sys2Proof

/-! ### SLC entries -/

/-- Blocks of a placement, and those of an SLC entry, as block keys. -/
def Place.keys (p : Place) : List Nat := p.pos.filterMap fun x => x.2.map fun b => blkKey x.1 b
def SlcEntry.keys (e : SlcEntry) : List Nat := e.pages.map fun g => blkKey g.die g.block
def Copying.key (c : Copying) : Nat := blkKey c.die c.block

/-- The row an incomplete zone or log row is filling: tag, row, and the units of it that are staged. -/
def State.partialRow (s : State) (zk : Nat) : Option (Place × Nat × Nat × Nat) :=
  let z := s.zone zk
  let tag := if z.conv then logTag else 0
  match z.rowPlace tag with
  | none => none
  | some p =>
    let per := p.d * s.geom.u
    let upto := if z.conv then s.pendFrom zk z.logUsed else z.cwp
    let n := upto % per
    let row := upto / per
    if n = 0 ∨ p.chip ≠ 0 ∨ z.padded ∨ (z.rowPages.has (tag + row) ∧ !z.rowsCut.contains (tag + row)) then none else some (p, tag, row, n)

/-- The SLC buffer block that takes the next page of an entry on a die: the one in use, else an erased one (R164, R165). -/
def State.slcBlock (s : State) (dk : Nat) : Option Nat :=
  let l := (s.die dk).slc
  let room := fun b => decide ((s.blk (blkKey dk b)).taken < s.geom.slcRows) && !(s.blk (blkKey dk b)).unerased
  match l.find? fun b => room b && decide (0 < (s.blk (blkKey dk b)).taken) with
  | some b => some b
  | none => l.find? room

/-- Erased buffer blocks of a die. -/
def State.slcErased (s : State) (dk : Nat) : Nat :=
  ((s.die dk).slc.filter fun b => (s.blk (blkKey dk b)).taken == 0 && !(s.blk (blkKey dk b)).unerased).length

/-- A live or unfinished entry lies on a block. -/
def Zone.slcOn (z : Zone) (dk b : Nat) : Bool :=
  let on := fun (e : Option SlcEntry) => match e with | some e => e.pages.any fun g => g.die == dk && g.block == b | none => false
  on z.slc || on z.slcNew || on z.oldSlc

/-- Queue the page programs of an entry, PF work of the scheduler (R230), behind the staging fence (R260); false when a die has
no block for it. -/
def State.slcPages (s : State) (zk row n : Nat) (ps : List (Nat × Nat)) : Bool × State :=
  if ps.all fun x => (s.slcBlock x.2).isSome then
    let r := ps.foldl (fun (r : List Pg × State) x =>
      match r.2.slcBlock x.2 with
      | none => r
      | some b =>
        let bk := blkKey x.2 b
        let o : Op := { die := x.2, block := b, row := (r.2.blk bk).taken, kind := .progSlc zk x.1, owner := 1024
                        seq := 0, slcMode := true }
        (r.1 ++ [{ pos := x.1, die := x.2, block := b, page := (r.2.blk bk).taken }]
         , (r.2.blkEdit bk fun i => { i with taken := i.taken + 1, st := 4 }).opQueue o)) ([], s)
    let s1 := { r.2 with dma := { r.2.dma with fences := r.2.dma.fences ++ [(0, accKey zk row 0)] } }
    (true, s1.zoneEdit zk fun z =>
      { z with slcNew := some { row := row, units := n, pages := r.1, left := ps.length }, slcWant := false })
  else (false, s)

/-- Write the partial row of a zone as an SLC entry, or leave it waiting for a block (R164, R165, R207); the dies it
would take a block on. -/
def State.slcWrite (s : State) (zk : Nat) : State × List Nat :=
  match s.partialRow zk with
  | none => (s.zoneEdit zk fun z => { z with slcWant := false }, [])
  | some (p, tag, row, n) =>
    let z := s.zone zk
    if z.slcNew.isSome then (s.zoneEdit zk fun z => { z with slcWant := true }, [])
    else if (match z.slc with | some e => e.live && e.row == tag + row && e.units == n | none => false) && !z.slcWant then (s, [])
    else
      let data := ((List.range p.dataPos.length).zip p.dataPos).filterMap fun (k, i, dk, _) =>
        if k * s.geom.u < n then some (i, dk) else none
      let pq := ((List.range 2).zip p.pos).filterMap fun (i, dk, b) => if b.isSome then some (i, dk) else none
      let r := s.slcPages zk (tag + row) n (pq ++ data)
      (if r.1 then r.2 else s.zoneEdit zk fun z => { z with slcWant := true }, (pq ++ data).map (·.2))

/-- Reclaim the oldest buffer block of a die that holds at most one erased block (R165): it is erased once no entry is on it;
until then its live entries are written again, at the head of the buffer. -/
def State.slcReclaim (s : State) (dk : Nat) : State :=
  if 1 < s.slcErased dk then s
  else
    match (s.die dk).slc.find? fun b => decide (0 < (s.blk (blkKey dk b)).taken) with
    | none => s
    | some b =>
      let zs := s.zones.keysWhere fun _ z => z.slcOn dk b
      if zs = [] then (s.blkEdit (blkKey dk b) fun i => { i with unerased := true }).eraseQueue dk b 1025
      else forNats zs s fun s zk =>
        if (s.zone zk).slcNew.isSome then s else ((s.zoneEdit zk fun z => { z with slcWant := true }).slcWrite zk).1

/-- An entry of a zone is dead (R164): its pages stay until their blocks are erased, and the buffer is reclaimed where that is
due (R165, R197). -/
def State.entryDead (s : State) (zk : Nat) (e : Option SlcEntry) : State :=
  match e with
  | none => s
  | some e =>
    ((e.pages.map (·.die)).eraseDups).foldl State.slcReclaim
      (s.zoneEdit zk fun z => { z with ghosts := (e.keys ++ z.ghosts).eraseDups })

/-- Write a zone's partial row as an entry, and reclaim on the dies that are left with one erased block or none. -/
def State.slcStart (s : State) (zk : Nat) : State :=
  let r := s.slcWrite zk
  r.2.eraseDups.foldl State.slcReclaim r.1

/-- A zone has nothing left of what a Flush waits for (R69). -/
def State.flushDone (s : State) (zk : Nat) : State :=
  let cs := s.ctxs.keysWhere fun _ x => x.flushWait.contains zk
  forNats cs s fun s c =>
    match s.ctxs.look c with
    | none => s
    | some x =>
      let w := x.flushWait.filter (· != zk)
      let s1 := s.ctxEdit c fun x => { x with flushWait := w }
      if w = [] then s1.finish c stOk else s1

/-- The write pointer of a zone as an LBA; all ones for a conventional zone (R47, R157). -/
def State.wpValue (s : State) (zk : Nat) : Nat :=
  if (s.zone zk).conv then 2 ^ 64 - 1 else zIndex zk * s.zsze + (s.zone zk).wp

/-! ### Limits (R146) -/

def State.nsActive (s : State) (nsid : Nat) : Nat :=
  s.zones.count fun k z => zNsid k == nsid && !z.conv && z.zs.isActive
def State.nsOpen (s : State) (nsid : Nat) : Nat :=
  s.zones.count fun k z => zNsid k == nsid && !z.conv && z.zs.isOpen

/-- The Implicitly Opened zone whose last write or append committed at the lowest stamp (R149). -/
def State.implOldest (s : State) (nsid : Nat) : Option Nat :=
  (s.zones.foldl (fun (r : Option (Nat × Nat)) p =>
    if zNsid p.1 = nsid ∧ ¬p.2.conv ∧ p.2.zs = .implOpen then
      match r with
      | some (m, _) => if p.2.lastWrite < m then some (p.2.lastWrite, p.1) else r
      | none => some (p.2.lastWrite, p.1)
    else r) none).map (·.2)

/-- Orders 5 of R148: the zone to close implicitly, or the failure. -/
def State.openCheck (s : State) (zk : Nat) (zs : Zs) : Except Status (Option Nat) :=
  let nsid := zNsid zk
  let needOpen := !zs.isOpen
  let needActive := !zs.isActive
  let victim := if needOpen && decide (256 ≤ s.nsOpen nsid) then s.implOldest nsid else none
  if needOpen && decide (256 ≤ s.nsOpen nsid) && victim.isNone then .error stTooManyOpen
  else if needActive && decide (256 ≤ s.nsActive nsid) then .error stTooManyActive
  else .ok victim

/-- The parity watermark of the zone's open sheaf: the highest page row whose P and Q are programmed (R223). -/
def Zone.mark (z : Zone) : Zone :=
  let tag := if z.conv then logTag else 0
  { z with watermark := (z.rowsDone.filter fun r => tagOf r == tag).foldl (fun m r => max m (r - tag)) 0 }

/-- Close a zone: its watermark is logged, and its partial row goes to the SLC buffer (R149, R150, R223). -/
def State.zoneClosed (s : State) (zk : Nat) : State :=
  (s.zoneEdit zk fun z => { z.mark with zs := .closed }).slcStart zk

/-- Implicit close at a commit of stamp `stamp` (R149), with its record (R48). -/
def State.implClose (s : State) (v : Option Nat) (stamp : Nat) : State :=
  match v with
  | none => s
  | some k =>
    (s.zoneClosed k).record { stamp := stamp, slice := s.nsOwner (zNsid k), kind := 0x03, nsid := zNsid k
                              zone := zIndex k, value := s.wpValue k }

/-! ### Leaving a placement -/

/-- Kind 0x10 records, for pages that this chip places (R48), of the page rows that units `[a, b)` of a row set open, P and Q with the first unit of a row (R47). -/
def placeRecs (p : Place) (u stamp owner zk a b : Nat) : List CRec :=
  if p.chip ≠ 0 then [] else
  (List.range (b - a)).flatMap fun j =>
    let l := locOf (a + j) p.d u
    let one := fun (x : Nat × Nat) => ({ stamp := stamp, slice := owner, kind := 0x10, nsid := zNsid zk
                                         zone := zIndex zk, value := dkDie x.1 + x.2 * 2 ^ 10 + l.row * 2 ^ 26 } : CRec)
    (if l.slot = 0 then (match p.dataPos[l.k]? with | some x => [one x.2] | none => []) else []) ++
    (if l.slot = 0 ∧ l.k = 0 then (p.pos.take 2).filterMap fun x => x.2.map fun b => one (x.1, b) else [])

def State.recordAll (s : State) (l : List CRec) : State := l.foldl State.record s

/-- Drop the programs of a zone's rows: those at work run to their end and change nothing (R151, R159). -/
def State.dropProgs (s : State) (zk : Nat) (f : OpKind → Bool) : State :=
  let ids := s.fch.ops.keysWhere fun _ o => f o.kind && (match o.kind with
    | .prog z _ _ => z == zk | .progSlc z _ => z == zk | .progCopy z => z == zk | .progRebuild z _ _ _ => z == zk
    | .progRepl z _ _ => z == zk | .src z _ => z == zk | _ => false)
  forNats ids s State.opDrop

/-- The staged data of a zone is discarded: complete writes are released, the others end as they do (R151). Writes that
have yet to commit there are not of its content. -/
def State.discardStaged (s : State) (zk : Nat) : State :=
  let ks := s.staging.keysWhere fun _ t => t.zone == zk && t.placed
  forNats ks s fun s k =>
    match s.staging.look k with
    | none => s
    | some t =>
      if t.complete then s.releaseUnits k (List.range t.n)
      else { s with staging := s.staging.put k { t with dropped := true } }

/-- Generations named by a zone key record, each once. -/
def Zone.gens (z : Zone) : List Nat := (z.keyRec.map (·.2)).eraseDups

/-- Key owner of a zone. -/
def State.zoneOwner (s : State) (zk : Nat) : Nat := s.nsOwner (zNsid zk)

/-- The chip that holds a zone. -/
def State.zoneChip (s : State) (zk : Nat) : Nat :=
  let z := s.zone zk
  match z.place, z.logRow with | some p, _ => p.chip | none, some p => p.chip | none, none => 0

/-- Clear a zone key record (R306). -/
def State.keyRecClear (s : State) (zk : Nat) : State :=
  let g := (s.zone zk).gens
  let s1 := s.zoneEdit zk fun z => { z with keyRec := [] }
  g.foldl (fun s g => s.keyUnref (s.zoneOwner zk) g 1) s1

/-- Remove the accumulators of a zone. -/
def State.accClear (s : State) (zk : Nat) : State :=
  { s with par := { s.par with
    acc := s.par.acc.filter fun p => decide (p.1 / 2 ^ 25 ≠ zk), cache := s.par.cache.filter fun k => decide (k / 2 ^ 25 ≠ zk) } }

/-- Rows of a zone leave the rebuild queue (R218). -/
def State.rebClear (s : State) (zk : Nat) : State :=
  (if s.par.queue.any fun r => r.zone == zk then
    { s with par := { s.par with queue := s.par.queue.filter fun r => r.zone != zk } } else s)

/-- A finish discards the rebuild of a zone (R218): the replacement blocks return, and the positions they stood in are those of
the failed dies again, whose units are reconstructed. -/
def State.rebDiscard (s : State) (zk : Nat) : State :=
  let qs := s.par.queue.filter fun q => q.zone == zk && !q.slc && decide (q.row < logTag)
  let ids := s.fch.ops.keysWhere fun _ o => match o.kind with | .progRebuild z _ _ _ => z == zk | _ => false
  let s1 := forNats ids s State.opDrop
  let s2 := qs.foldl (fun (s : State) q =>
    match (s.zone zk).place with
    | some p =>
      match p.pos[q.lost]? with
      | some (dk, some b) =>
        if dk = q.die ∧ b = q.old then s
        else (s.blockLeave dk b).zoneEdit zk fun z => { z with
          place := some { p with pos := p.pos.set q.lost (q.die, some q.old) }, ghosts := (blkKey dk b :: z.ghosts).eraseDups }
      | _ => s
    | none => s) s1
  s2.rebClear zk

/-- Blocks that the zone leaves behind until they are erased (R197). -/
def Zone.leaves (z : Zone) : List Nat :=
  let row := fun (p : Option Place) => match p with | some x => x.keys | none => []
  let ent := fun (e : Option SlcEntry) => match e with | some x => x.keys | none => []
  (row z.place ++ row z.logRow ++ row z.migOld ++ ent z.slc ++ ent z.slcNew ++ ent z.oldSlc ++ z.copying.map Copying.key ++ z.ghosts).eraseDups

/-- Blocks that failed and were still read leave the zone with it (R190, R199). -/
def State.copyingLeave (s : State) (zk : Nat) : State :=
  (s.zone zk).copying.foldl (fun s c => s.blockLeave c.die c.block) s

/-- Everything of a sequential zone's content goes: reset, and the Offline action (R151, R89, R130). -/
def State.zoneRelease (s : State) (zk stamp : Nat) : State :=
  let z := s.zone zk
  let s1 := (s.quotaSub (s.zoneOwner zk) (z.wp - z.returned)).tokRemove (s.zoneOwner zk) fun t => t.nsid == zNsid zk && t.zone == zIndex zk
  let s2 := ((((s1.dropProgs zk fun _ => true).discardStaged zk).accClear zk).rebClear zk).keyRecClear zk
  let s3 := ([z.place, z.migOld].foldl (fun (s : State) p => match p with | some p => s.freePlace p | none => s) s2).copyingLeave zk
  (s3.zoneEdit zk fun z => { z with
    wp := 0, cwp := 0, cap := s.geom.nominal, place := none, vers := [], rowsDone := [], rowPages := [], rowsCut := [], slc := none
    returned := 0, ghosts := z.leaves, unread := []
    slcNew := none, slcWant := false, copying := [], padded := false, busy := none, lastZsc := stamp, watermark := 0, ages := []
    migOld := none, oldData := none, oldLog := none, oldUnits := [], oldSlc := none, oldDone := [], merging := 0 }).flushDone zk

/-- Close back to Empty: each block returns in the state it had, 0 or 1 (R147); at ECMAX it is marked for retirement (R189). -/
def State.zoneUnplace (s : State) (zk : Nat) : State :=
  let z := s.zone zk
  let s1 := (s.keyRecClear zk).accClear zk
  let s2 := match z.place with
    | some p => p.pos.foldl (fun (s : State) (x : Nat × Option Nat) => match x.2 with
        | some b => s.blkEdit (blkKey x.1 b) fun i => { i with
            st := if i.unerased then 1 else 0, retire := if i.retire = 0 ∧ s.geom.ecmax ≤ i.erases then 4 else i.retire }
        | none => s) s1
    | none => s1
  s2.zoneEdit zk fun z => { z with zs := .empty, place := none, cap := s.geom.nominal, cwp := 0 }

/-- A member holds a lease for each active zone that lies on it; it is granted and released at the commits (R330). -/
def State.leaseSync (s : State) (zk : Nat) : State :=
  let z := s.zone zk
  let chip := match z.place with | some p => p.chip | none => 0
  s.cas.members.foldl (fun (s : State) (p : Nat × Member) =>
    let want := decide (p.1 = chip) && z.zs.isActive
    let has := p.2.leases.contains zk
    let set := fun (l : List Nat) => { s with cas := { s.cas with members := s.cas.members.edit p.1 fun m => { m with leases := l } } }
    if p.2.st = .fenced ∨ p.1 = 0 ∨ want = has then s
    else if want then (set (insNat zk p.2.leases)).casSend (portOf p.1) 0 0x11 16 [1, zk]
    else (set (p.2.leases.filter (· != zk))).casSend (portOf p.1) 0 0x11 16 [3, zk]) s

/-- Migration ends at the commit that leaves no row under the previous seed (R169). -/
def State.migCheck (s : State) : State :=
  let old := fun (p : Option Place) => match p with | some x => x.seed == s.zne.seedPrev && x.seed != s.zne.seedCur | none => false
  if s.zne.migrating && !(s.zones.any fun _ z => old z.place || old z.logRow || z.migOld.isSome) then
    ({ s with zne := { s.zne with migrating := false, seedPrev := 0 } }).fire 164 [s.par.migZones]
  else s

/-- The old rows of a migrated zone return, marked for erase, and reads go to the new (R222). -/
def State.migClose (s : State) (zk : Nat) : State :=
  match (s.zone zk).migOld with
  | none => s
  | some p => ((s.freePlace p).zoneEdit zk fun z => { z with
      migOld := none, oldData := none, oldLog := none, oldUnits := [], oldSlc := none, oldDone := [], merging := 0
      ghosts := (p.keys ++ z.ghosts).eraseDups }).entryDead zk (if (s.zone zk).slc = (s.zone zk).oldSlc then none else (s.zone zk).oldSlc)

/-! ### Zone operations (R147) -/

inductive ZOp where
  | open | close | finish | reset | offline
  deriving DecidableEq, Repr

/-- Place a zone that leaves Empty (R148 order 6, R152-R154). -/
def State.placeZone (s : State) (zk stamp : Nat) (p : Place) : State :=
  let cap := p.d * s.geom.bdata
  let s1 := (s.takePlace p 2).zoneEdit zk fun z => { z with place := some p, cap := cap, cwp := 0, rowsDone := [], rowPages := [] }
  let _ := stamp
  if cap < s.geom.nominal then
    let o := s.zoneOwner zk
    let s2 := if o < 1024 then s1.notice o 0x06 (zNsid zk) (zIndex zk) else s1
    ({ s2 with nss := s2.nss.edit (zNsid zk) fun n => { n with changedZones := insNat (zIndex zk) n.changedZones } }).aenRaise
      2 0xef 0xbf
  else s1

/-- One zone operation at its commit: the failure, or the state it leaves. -/
def State.zoneOp (s : State) (op : ZOp) (zk stamp : Nat) (fence : BitVec 256) : Except Status State :=
  let z := s.zone zk
  let fenced := match z.place with | some p => s.chipFenced p.chip | none => false
  if fenced then .error stMemberFenced
  else
    match op with
    | .open =>
      match z.zs with
      | .implOpen | .explOpen => .ok (s.zoneEdit zk fun z => { z with zs := .explOpen })
      | .closed =>
        match s.openCheck zk z.zs with
        | .error e => .error e
        | .ok v => .ok ((s.implClose v stamp).zoneEdit zk fun z => { z with zs := .explOpen })
      | .empty =>
        match s.openCheck zk z.zs with
        | .error e => .error e
        | .ok v =>
          match s.choosePlace fence zk with
          | none => .error stTooManyActive
          | some none => .error stCapacity
          | some (some p) => .ok (((s.implClose v stamp).placeZone zk stamp p).zoneEdit zk fun z => { z with zs := .explOpen })
      | _ => .error stZoneTransition
    | .close =>
      match z.zs with
      | .implOpen | .explOpen => .ok (if z.wp = 0 then s.zoneUnplace zk else s.zoneClosed zk)
      | .closed => .ok s
      | _ => .error stZoneTransition
    | .finish =>
      match z.zs with
      | .empty => .ok (s.zoneEdit zk fun z => { z with zs := .full, lastZsc := stamp })
      | .implOpen | .explOpen | .closed =>
        let per := match z.place with | some p => p.d * s.geom.u | none => 1
        let s1 := (s.rebDiscard zk).zoneEdit zk fun z =>
          { z with zs := .full, padded := true, lastZsc := stamp, busy := none, slcWant := false }
        -- while a committed write is being staged its row is padded when that write ends
        .ok (if s.writing zk then s1 else s1.rowsStart zk 0 (ceilDiv z.cwp per * per))
      | .full => .ok (s.zoneEdit zk fun z => { z with lastZsc := stamp, busy := none })
      | _ => .error stZoneTransition
    | .reset =>
      match z.zs with
      | .empty => .ok s
      | .implOpen | .explOpen | .closed | .full => .ok ((s.zoneRelease zk stamp).zoneEdit zk fun z => { z with zs := .empty })
      | _ => .error stZoneTransition
    | .offline =>
      match z.zs with
      | .readOnly => .ok ((s.zoneRelease zk stamp).zoneEdit zk fun z => { z with zs := .offline })
      | .offline => .ok s
      | _ => .error stZoneTransition

/-! ### Sanitizing sets (R197) -/

/-- Blocks that hold copies of a zone's units (R197): its rows, old rows, every SLC or save-reserve block with an entry of it,
live or dead, and freed or replaced blocks not yet erased. -/
def Zone.copyBlocks (z : Zone) : List Nat :=
  let rows := [z.place, z.logRow, z.oldData, z.oldLog, z.migOld].flatMap fun p => match p with | some x => x.keys | none => []
  let slc := [z.slc, z.slcNew, z.oldSlc].flatMap fun e => match e with | some x => x.keys | none => []
  (rows ++ slc ++ z.copying.map Copying.key ++ z.ghosts).eraseDups

/-- Erase every block of a set for a command, relocating other zones' live entries first (R197). No operation is issued to a
failed die (R192): DESIGN CHOICE, its blocks count as those whose content R198 could not remove. -/
def State.sanErase (s : State) (c : Nat) (set : List Nat) : State :=
  let good := set.filter fun bk => s.dieGood (bk / 8192)
  let s1 := forNats good s fun s bk =>
    let dk := bk / 8192
    let b := bk % 8192
    let zs := s.zones.keysWhere fun _ z => z.slcOn dk b
    let s' := forNats zs s fun s zk => ((s.zoneEdit zk fun z => { z with slcWant := true }).slcWrite zk).1
    s'.eraseQueue dk b 1025
  let n := set.length - good.length
  let s2 := s1.ctxEdit c fun x => { x with eraseSet := good, eraseFails := n }
  if good ≠ [] then s2 else if n = 0 then s2.finish c stOk else s2.finish c stInternal (BitVec.ofNat 32 n)

/-! ### Conventional zones -/

/-- Units of a conventional zone's map that a deallocate or write of `[off, off+n)` finds written (R89). -/
def Zone.written (z : Zone) (off n : Nat) : Nat :=
  ((List.range n).filter fun j => match z.vers.get (off + j) [] with | v :: _ => !v.dealloc | [] => false).length

/-- The pages that hold the newest content of a zone's units outside staging: rows, with their role positions and whether they
are of the SLC entry (R159, R222). -/
def State.copySources (s : State) (zk : Nat) : List (Nat × Nat × Bool) :=
  let z := s.zone zk
  (z.vers.filterMap fun x =>
    match x.2.find? fun v => v.arrived && !v.dealloc with
    | none => none
    | some v =>
      let tag := if v.lix.isSome then logTag else 0
      let i := v.lix.getD x.1
      match (if (s.stagedWord zk tag i).isSome then none else z.rowPlace tag) with
      | none => none
      | some p =>
        let l := locOf i p.d s.geom.u
        (p.dataPos[l.k]?).map fun y =>
          (tag + l.row, y.1, match z.slc with | some e => e.live && e.row == tag + l.row && !z.rowsDone.contains e.row | none => false)).eraseDups

/-- Read pages of a zone for a copy (R159, R190, R222). -/
def State.copyRead (s : State) (zk owner : Nat) (l : List (Nat × Nat × Bool)) : State :=
  l.foldl (fun (s : State) x =>
    let z := s.zone zk
    match (if x.2.2 then z.slc.map (·.pages) else (z.rowPlace (tagOf x.1)).map (s.rowPgs zk x.1)) with
    | some pages => s.srcRead zk x.1 owner x.2.2 pages x.2.1
    | none => s) s

/-- The content of a copy's rows: every page of the data row, and of the log row of a migration (R159, R222). -/
def State.copyFill (s : State) (zk : Nat) : State :=
  let z := s.zone zk
  let fill := fun (s : State) (tag : Nat) (rows : List Nat) => match z.rowPlace tag with
    | some p => rows.foldl (fun (s : State) r => s.fillPages zk (tag + r) p (p.pages r) (p.d * s.geom.u)) s
    | none => s
  let all := List.range s.geom.rows
  if z.migOld.isSome then
    fill (fill s 0 (all.filter z.rowsDone.contains)) logTag (all.filter fun r => z.rowsDone.contains (logTag + r))
  else (fill s 0 all).zoneEdit zk fun z => { z with rowsDone := all.foldl (fun l r => insNat r l) z.rowsDone }

/-- A merge goes to rows that have been chosen and taken: its sources are read, and its copies queued behind the copy fence (R260). -/
def State.mergeTo (s : State) (zk stamp : Nat) (data : Place) (log : Option Place) : State :=
  let s3 := s.dropProgs zk fun k => match k with | .src _ _ => false | _ => true
  let ks := s3.staging.keysWhere fun _ t => t.zone == zk && t.placed
  let s4 := forNats ks s3 fun s k => { s with staging := s.staging.edit k fun t => { t with merged := true } }
  let rows := s4.geom.rows
  let s4 := s4.copyRead zk 1024 (s3.copySources zk)
  let pages := if data.chip ≠ 0 then [] else (List.range rows).flatMap fun i => data.pos.filterMap fun x => x.2.map fun b => (x.1, b, i)
  let s5 := pages.foldl (fun s x =>
    let o : Op := { die := x.1, block := x.2.1, row := x.2.2, kind := .progCopy zk, owner := 1024, seq := 0 }
    s.opQueue o) (if pages.isEmpty then s4 else s4.copyFence zk)
  let s6 := (s5.copyingLeave zk).recordAll (placeRecs data s.geom.u stamp (s.zoneOwner zk) zk 0 (data.d * s.geom.bdata))
  (s6.accClear zk).zoneEdit zk fun z => { z with
    vers := z.vers.mapV fun _ l => l.map fun v => { v with lix := none }
    place := some data, logRow := log, logUsed := 0, logUnits := [], logTaken := stamp, merging := pages.length
    oldData := if z.merging = 0 then z.place else z.oldData
    oldLog := if z.merging = 0 then z.logRow else z.oldLog
    oldUnits := if z.merging = 0 then z.logUnits else z.oldUnits
    oldSlc := if z.merging = 0 then z.slc else z.oldSlc
    copying := [], unread := []
    rowsDone := [], rowPages := [], rowsCut := [], slc := none, slcNew := none, slcWant := false, ages := [], ghosts := z.leaves }

/-- A merge (R159, R160) decided at a commit: new data row, old rows freed, content carried; `keep` gives a fresh log row.
DESIGN CHOICE: the spec gives no order among the three changes of the free list; the data row's blocks are chosen before the
old rows are freed, and the fresh log row's after. DESIGN CHOICE: of a
zone whose migration is still copied, the copy counts as ended first; the spec does not say how the two meet. -/
def State.merge (s : State) (zk stamp : Nat) (keep : Bool) : State :=
  let s := if (s.zone zk).migOld.isSome then ((s.dropProgs zk fun k => match k with | .progCopy _ => true | _ => false).copyFill zk).migClose zk else s
  let z := s.zone zk
  match (match z.logRow with | some l => some l | none => z.place) with
  | none => s
  | some lp =>
    let r := s.freshRow lp 2
    let s1 := match z.place with | some p => r.2.freePlace p | none => r.2
    let s2 := match z.logRow with | some p => s1.freePlace p | none => s1
    let q : Option Place × State := if keep && z.logRow.isSome then (let x := s2.freshRow lp 6; (some x.1, x.2)) else (none, s2)
    q.2.mergeTo zk stamp r.1 q.1

/-- The conventional zone of a chip whose assignment was taken at the lowest stamp (R160). -/
def State.mergeVictim (s : State) (chip : Nat) : Option Nat :=
  (s.zones.foldl (fun (r : Option (Nat × Nat)) p =>
    match p.2.logRow with
    | some x =>
      if x.chip = chip then
        match r with
        | some (m, _) => if p.2.logTaken < m then some (p.2.logTaken, p.1) else r
        | none => some (p.2.logTaken, p.1)
      else r
    | none => r) none).map (·.2)

/-- Log rows of a chip's pool (R158). -/
def State.logRows (s : State) : Nat := match s.img with | some i => i.logRows | none => 0

/-- Assignments of a chip's pool that are free. -/
def State.logFree (s : State) (chip : Nat) : Nat := s.logRows - s.zne.logRowsUsed.get chip 0

/-- Take an assignment from a chip's pool, forcing a merge when none is free: the merged zone's passes on (R160). -/
def State.logAssign (s : State) (chip stamp : Nat) : State :=
  let take := { s with zne := { s.zne with logRowsUsed := s.zne.logRowsUsed.upd chip 0 (· + 1) } }
  if 0 < s.logFree chip then take
  else match s.mergeVictim chip with | some k => s.merge k stamp false | none => take

/-- An assignment returns to its chip's pool. -/
def State.logReturn (s : State) (p : Option Place) : State :=
  match p with
  | some x => { s with zne := { s.zne with logRowsUsed := s.zne.logRowsUsed.upd x.chip 0 (· - 1) } }
  | none => s

/-- Capacity of a log row in units. -/
def State.logCap (s : State) (p : Place) : Nat := p.d * s.geom.bdata

/-- Give a conventional zone a log row with room for `n` units (R158-R160); a forced merge comes before the blocks of the
new row are chosen. -/
def State.logRoom (s : State) (zk stamp n : Nat) (fence : BitVec 256) : Except Status State :=
  let z := s.zone zk
  let give := fun (s : State) (p : Place) =>
    .ok (s.zoneEdit zk fun z => { z with logRow := some p, logUsed := 0, logUnits := [], logTaken := stamp })
  match z.logRow, z.place with
  | some p, _ => if z.logUsed + n ≤ s.logCap p then .ok s else .ok (s.merge zk stamp true)
  | none, some d =>
    let r := (s.logAssign d.chip stamp).freshRow d 6
    give r.2 r.1
  | none, none =>
    match s.choosePlace fence zk with
    | none => .error stTooManyActive
    | some none => .error stCapacity
    | some (some p) =>
      let s1 := s.logAssign p.chip stamp
      let q := (s1.placeOn p.chip fence zk).getD p
      give (s1.takePlace q 6) q

/-! ### Writes -/

/-- End a write that has not committed: everything charged at its stamp returns but the key usage (R115). -/
def State.cancelWrite (s : State) (stamp : Nat) : State :=
  match s.staging.look stamp with
  | none => s
  | some st =>
    let o := s.zoneOwner st.zone
    let s1 := (((s.quotaSub o st.n).dirtySub st.n).keyUnref o st.gen 1).tokRemove o fun t => t.stamp == stamp
    (st.bufs.foldl (fun (s : State) b => s.bufFree st.owner b) { s1 with staging := s1.staging.del stamp }).altsUndo stamp

/-- A write fails: withdrawn after its commit (R122), cancelled before it. -/
def State.failWrite (s : State) (c : Nat) (st : Status) : State :=
  match s.ctxs.look c with
  | none => s
  | some x =>
    ((if x.committed then s.withdraw x.stamp else s.cancelWrite x.stamp).ctxEdit c fun x => { x with failed := true }).finish c st

/-- A committed write fails at its commit point (R148): the record of kind 0x06, and the status. -/
def State.commitFail (s : State) (stamp : Nat) (e : Entry) (zk : Nat) (st : Status) (dw0 : Dword := 0) (dw1 : Dword := 0) : State :=
  let s1 := s.record { stamp := stamp, slice := e.owner, kind := 0x06, status := st.recCode, nsid := zNsid zk, zone := zIndex zk }
  let s2 := if e.kind = .writeE ∨ e.kind = .appendE then s1.cancelWrite stamp
    else if e.kind = .readE then s1.rdReturn e.ctx else s1
  (s2.ctxEdit e.ctx fun x => { x with failed := true }).finish e.ctx st dw0 dw1

/-- Append the boundary of a newer generation to a zone key record (R306). -/
def State.keyRecAdd (s : State) (zk off gen : Nat) : State :=
  let z := s.zone zk
  let has := z.keyRec.any fun p => p.2 == gen
  let s1 := if has then s else
    (s.zoneEdit zk fun z => { z with keyRec := z.keyRec ++ [(if z.keyRec = [] then 0 else off, gen)] }).keyRef (s.zoneOwner zk) gen 1
  s1.keyUnref (s.zoneOwner zk) gen 1

/-- Put the versions of a write on top of its units. -/
def Zone.putVers (z : Zone) (stamp off n gen kix : Nat) (base : Option Nat) : Zone :=
  { z with vers := (List.range n).foldl (fun t j =>
      t.upd (off + j) [] fun l => { stamp := stamp, j := j, gen := gen, kix := kix, lix := base.map (· + j) : Ver } :: l) z.vers }

/-- Host data written, charged at the placement commit for every block on this chip (R344, R346). -/
def State.tallyWr (s : State) (o n : Nat) (p : Option Place) : State :=
  match p with
  | some x => if x.chip = 0 then s.tally o fun t => { t with wr := t.wr + n } else s
  | none => s

/-- A write's commit in a sequential zone, every check passed: `off` is its first block (R147, R148). -/
def State.writeSeq (s : State) (stamp : Nat) (e : Entry) (zk off : Nat) (st : Staged) : State :=
  let z := s.zone zk
  let fills := off + e.n == z.cap
  let z' := { z.putVers stamp off e.n st.gen st.kix none with
    wp := off + e.n, lastWrite := stamp, busy := some stamp
    preFull := if z.zs = .explOpen then .explOpen else .implOpen
    zs := if fills then .full else if z.zs = .explOpen then .explOpen else .implOpen }
  let s1 := s.zoneEdit zk fun _ => z'
  let s2 := { s1 with staging := s1.staging.put stamp { st with zone := zk, off := off, placed := true } }
  let s3 := s2.keyRecAdd zk off st.gen
  let lba := zIndex zk * s.zsze + off
  let app := e.kind = .appendE
  let s4 := s3.record { stamp := stamp, slice := e.owner, kind := if app then 0x02 else 0x01, nsid := zNsid zk
                        zone := zIndex zk, value := if app then lba + e.n * 2 ^ 40 else zIndex zk * s.zsze + off + e.n }
  let s5 := match z.place with
    | some p => s4.recordAll (placeRecs p s.geom.u stamp e.owner zk off (off + e.n))
    | none => s4
  (s5.tallyWr e.owner e.n z.place).ctxEdit e.ctx fun x => { x with
    committed := true, zone := zk, lba := lba
    dw0 := if app then BitVec.ofNat 32 lba else 0, dw1 := if app then BitVec.ofNat 32 (lba / 2 ^ 32) else 0 }

/-- A write's commit in a conventional zone (R124, R157-R160). -/
def State.writeConv (s : State) (stamp : Nat) (e : Entry) (zk : Nat) (st : Staged) : State :=
  let z := s.zone zk
  let o := s.zoneOwner zk
  let renewed := z.written e.off e.n
  let z' := { z.putVers stamp e.off e.n st.gen st.kix (some z.logUsed) with
    lastWrite := stamp, logUsed := z.logUsed + e.n
    logUnits := z.logUnits ++ (List.range e.n).map (e.off + ·) }
  let s1 := (s.quotaSub o renewed).zoneEdit zk fun _ => z'
  let s2 := { s1 with staging := s1.staging.put stamp { st with zone := zk, off := e.off, logBase := z.logUsed, placed := true } }
  let s3 := (s2.keyRef o st.gen e.n).keyUnref o st.gen 1
  let s4 := s3.record { stamp := stamp, slice := e.owner, kind := 0x04, nsid := zNsid zk, zone := zIndex zk
                        value := s.wpValue zk }
  let s5 := match z.logRow with
    | some p => s4.recordAll (placeRecs p s.geom.u stamp e.owner zk z.logUsed (z.logUsed + e.n))
    | none => s4
  (s5.tallyWr e.owner e.n z.logRow).ctxEdit e.ctx fun x => { x with
    committed := true, zone := zk, lba := zIndex zk * s.zsze + e.off }

/-- Note the LBA assigned to an append in its token entry. -/
def State.tokLba (s : State) (o stamp lba : Nat) : State :=
  { s with toks := s.toks.edit o fun l => l.map fun t => if t.stamp = stamp then { t with lba := lba } else t }

/-- The token step (R129, R130): the outcome of a match, or the state with a new pending entry. -/
def State.tokenStep (s : State) (stamp : Nat) (e : Entry) (zk : Nat) : Except (Status × Nat) State :=
  match e.token with
  | none => .ok s
  | some t =>
    let l := s.toks.get e.owner []
    match l.find? fun x => x.token == t && x.nsid == zNsid zk && x.zone == zIndex zk with
    | some x => if x.nlb + 1 = e.n then .error (stDupAppend, x.lba) else .error (stInvField, 0)
    | none =>
      let low := minNat (l.map (·.stamp)) 0
      let l1 := if 4096 ≤ l.length then l.filter fun x => x.stamp != low else l
      .ok { s with toks := s.toks.put e.owner (l1 ++ [{ token := t, nsid := zNsid zk, zone := zIndex zk, nlb := e.n - 1
                                                        committed := false, lba := 0, stamp := stamp }]) }

/-- A Write or Zone Append commits in its zone, or fails there (R148, R157). -/
def State.commitWrite (s : State) (stamp : Nat) (e : Entry) (zk : Nat) : State :=
  match s.staging.look stamp with
  | none => s
  | some st =>
    let z := s.zone zk
    let fencedP := fun (p : Option Place) => match p with | some p => s.chipFenced p.chip | none => false
    if fencedP z.place || fencedP z.logRow then s.commitFail stamp e zk stMemberFenced
    else if z.conv then
      if s.geom.nominal < e.off + e.n then s.commitFail stamp e zk stLbaRange
      else
        match s.logRoom zk stamp e.n e.fence with
        | .error f => s.commitFail stamp e zk f
        | .ok s1 => s1.writeConv stamp e zk st
    else
      match s.tokenStep stamp e zk with
      | .error (f, lba) =>
        s.commitFail stamp e zk f (if f = stDupAppend then BitVec.ofNat 32 lba else 0)
          (if f = stDupAppend then BitVec.ofNat 32 (lba / 2 ^ 32) else 0)
      | .ok s0 =>
        let app := e.kind = .appendE
        if z.zs = .full then s0.commitFail stamp e zk stZoneFull
        else if z.zs = .readOnly then s0.commitFail stamp e zk stZoneRo
        else if z.zs = .offline then s0.commitFail stamp e zk stZoneOffline
        else if ¬app ∧ e.off ≠ z.wp then s0.commitFail stamp e zk stZoneWrite
        else
          match s0.openCheck zk z.zs with
          | .error f => s0.commitFail stamp e zk f
          | .ok v =>
            let pl : Except Status (Option Place) := if z.zs = .empty then
                match s0.choosePlace e.fence zk with
                | none => .error stTooManyActive
                | some none => .error stCapacity
                | some (some p) => .ok (some p)
              else .ok none
            match pl with
            | .error f => s0.commitFail stamp e zk f
            | .ok np =>
              let cap := match np with | some p => p.d * s.geom.bdata | none => z.cap
              if cap < z.wp + e.n then s0.commitFail stamp e zk stZoneFull
              else
                let s1 := s0.implClose v stamp
                let s2 := match np with | some p => s1.placeZone zk stamp p | none => s1
                let s3 := s2.tokLba e.owner stamp (zIndex zk * s.zsze + z.wp)
                s3.writeSeq stamp e zk z.wp st

/-! ### Reads (R125-R127, R147) -/

/-- Alternatives of a block: the lower writes that cover it, newest first, down to what is certain. -/
def altsOf (zk i : Nat) : List Ver → List Alt
  | [] => [.zeros]
  | v :: t =>
    if v.dealloc then [.zeros]
    else if v.lost then [.lost]
    else if v.arrived then [.stored v.kix v.plain v.md zk i v.lix]
    else .wr v.stamp v.j :: altsOf zk i t

/-- Newest position of a unit in a log order. -/
def lastIx (l : List Nat) (i : Nat) : Option Nat :=
  (((List.range l.length).zip l).filter fun p => p.2 == i).getLast?.map (·.1)

/-- A merge of the zone, or the migration of its rows, is being copied (R159, R222). -/
def Zone.copied (z : Zone) : Bool := z.oldData.isSome || z.oldLog.isSome

/-- One unit of a read, resolved against the zone (R125): its alternatives, and the rows that hold them. Until a merge
or a migration has been copied, content that it carries is read from the old rows (R159, R222). -/
def Zone.readUnit (z : Zone) (zk i u : Nat) : RUnit :=
  let mig := z.migOld.isSome
  let inOld := fun (p : Place) (tag ix : Nat) => z.oldDone.contains (tag + (locOf ix p.d u).row)
  let lix := ((z.vers.get i []).find? (·.arrived)).bind (·.lix)
  { alts := altsOf zk i (z.vers.get i [])
    pl := match z.oldData with
      | some p => if !mig || inOld p 0 i then some p else z.place
      | none => if z.copied && !mig then none else z.place
    lg := match z.oldLog, lix with
      | some p, some ix => if mig && inOld p logTag ix then some p else z.logRow
      | _, _ => z.logRow
    lgOld := match z.oldLog, lastIx z.oldUnits i with | some p, some ix => if mig then none else some (p, ix) | _, _ => none
    slc := if !z.copied then z.slc else if mig && z.slc.isSome then z.slc else z.oldSlc }

/-- A Read commits: each unit is resolved. -/
def State.commitRead (s : State) (stamp : Nat) (e : Entry) (zk : Nat) : State :=
  let z := s.zone zk
  let shut := [z.place, z.logRow].any fun p => match p with | some p => !s.chipReads p.chip | none => false
  if shut then s.commitFail stamp e zk stMemberFenced
  else if ¬z.conv ∧ z.zs = .offline then s.commitFail stamp e zk stZoneOffline
  else
    let ru := (List.range e.n).map fun j => (j, { z.readUnit zk (e.off + j) s.geom.u with entered := s.now })
    let here := match z.place, z.logRow with | some p, _ => p.chip == 0 | none, some p => p.chip == 0 | none, none => true
    (if here then s.tally e.owner fun t => { t with rd := t.rd + e.n } else s).ctxEdit e.ctx fun x => { x with
      committed := true, zone := zk, lba := zIndex zk * s.zsze + e.off, runits := ru }

/-! ### Deallocation -/

/-- Deallocate `[off, off+n)` of a conventional zone (R89, R124, R158). -/
def State.deallocate (s : State) (stamp zk off n : Nat) : State :=
  let z := s.zone zk
  let o := s.zoneOwner zk
  let gens := (List.range n).flatMap fun j => (z.vers.get (off + j) []).filterMap fun v => if v.dealloc then none else some v.gen
  let s1 := (s.quotaSub o (z.written off n)).zoneEdit zk fun z => { z with
    vers := (List.range n).foldl (fun t j => t.put (off + j) [{ stamp := stamp, j := j, dealloc := true }]) z.vers }
  gens.foldl (fun s g => s.keyUnref o g 1) s1

/-- The staging buffers of a sanitizing range are zero-filled and freed (R197 step 2): units of writes that stand staged. -/
def State.sanUnstage (s : State) (zk : Nat) (l : List (Nat × Nat × Nat)) : State :=
  forNats (s.staging.keysWhere fun _ t => t.zone == zk && t.placed && t.complete) s fun s k =>
    match s.staging.look k with
    | none => s
    | some t => s.releaseUnits k ((List.range t.n).filter fun j => l.any fun r => decide (r.2.1 ≤ t.off + j) && decide (t.off + j < r.2.1 + r.2.2))

/-- A Dataset Management command commits in one zone (R157, R195-R197). A sanitizing one that names a sequential zone has no
effect anywhere (R196). -/
def State.commitDsm (s : State) (stamp : Nat) (e : Entry) (zk : Nat) : State :=
  let z := s.zone zk
  let mine := e.ranges.filter fun r => r.1 == zk
  let fenced := [z.place, z.logRow].any fun p => match p with | some p => s.chipFenced p.chip | none => false
  let rec_ : CRec := { stamp := stamp, slice := e.owner, kind := 0x05, nsid := zNsid zk, zone := zIndex zk, value := s.wpValue zk }
  if fenced then s.commitFail stamp e zk stMemberFenced
  else if z.conv && e.kind == .sanDsmE && e.ranges.any (fun r => !(s.zone r.1).conv) then s
  else if ¬z.conv then
    if e.kind = .sanDsmE then s.commitFail stamp e zk stZoneOp else s.record rec_
  else if mine.any fun r => decide (s.geom.nominal < r.2.1 + r.2.2) then s.commitFail stamp e zk stLbaRange
  else
    let s1 := mine.foldl (fun s r => s.deallocate stamp zk r.2.1 r.2.2) s
    let s2 := s1.record rec_
    if e.kind = .sanDsmE then
      let set := (s2.zone zk).copyBlocks
      let s3 := (s2.merge zk stamp true).sanUnstage zk mine
      s3.ctxEdit e.ctx fun x => { x with eraseSet := (x.eraseSet ++ set).eraseDups }
    else s2

end Sys2Proof.Machine
end

