-- ==== Sys2Proof/Machine/Gate.lean ====
section
/-! DEFINITION. The commit points (R38): which entry may commit where, and what each kind of entry does there,
with Abort (R132-R134), Key Rotate (R310, R311) and the sanitize operations (R200, R315, R316). -/

namespace Sys2Proof.Machine

open Sys2Proof

/-! ### Scopes (R38) -/

/-- Scope of a whole namespace (Flush, Zone Management Receive). -/
def nsScope (nsid : Nat) : Nat := zkey nsid 0xffffffff
/-- Gauntlet key stage of an owner. -/
def keyScope (o : Nat) : Nat := 2 ^ 64 + o

/-- Two scopes meet: equal, one is the whole chip, or one is the namespace of the other. -/
def scopeMeets (a b : Nat) : Bool :=
  a == b || a == chipScope || b == chipScope || (decide (a < 2 ^ 64) && decide (b < 2 ^ 64) && zNsid a == zNsid b
    && (zIndex a == 0xffffffff || zIndex b == 0xffffffff))

/-- No entry with a lower stamp has still to commit in the scope. -/
def State.scopeFirst (s : State) (stamp sc : Nat) : Bool :=
  !s.gate.entries.any fun k e => decide (k < stamp) && e.scopes.any (scopeMeets sc)

def EKind.writes : EKind → Bool
  | .writeE | .appendE => true
  | _ => false

/-- The groups of a zone's rows. -/
def Zone.fences (z : Zone) : BitVec 256 :=
  (match z.place with | some p => p.fence | none => 0) ||| (match z.logRow with | some p => p.fence | none => 0)

/-- A lower entry of the zone may take it back to Empty before this one commits there. -/
def State.mayEmpty (s : State) (stamp zk : Nat) : Bool :=
  s.gate.entries.any fun k e => decide (k < stamp) && e.scopes.contains zk &&
    (e.kind == .closeE || e.kind == .resetE || e.kind == .sanResetE || e.kind == .offlineE)

/-- The groups on which an entry may still choose or free blocks in a zone: the die-fence scopes it lies in (R38). -/
def State.placeFence (s : State) (stamp : Nat) (e : Entry) (zk : Nat) : BitVec 256 :=
  let z := s.zone zk
  match e.kind with
  | .writeE | .appendE | .openE =>
    if z.conv then (if z.place.isNone && z.logRow.isNone then e.fence else z.fences)
    else if z.place.isNone || s.mayEmpty stamp zk then e.fence else 0
  | .closeE | .resetE | .sanResetE | .offlineE | .sanDsmE => z.fences
  | _ => 0

/-- The fence scope lets the entry commit: no entry with a lower stamp may still choose or free blocks on its dies. -/
def State.fenceFirst (s : State) (stamp : Nat) (e : Entry) (zk : Nat) : Bool :=
  let f := s.placeFence stamp e zk
  f == 0 || !s.gate.entries.any fun k x => decide (k < stamp) && x.scopes.any fun z => s.placeFence k x z &&& f != 0

/-- An entry that looks up, takes or removes append tokens of its owner (R130). -/
def Entry.tokens (e : Entry) : Bool :=
  e.token.isSome || e.kind == .resetE || e.kind == .sanResetE || e.kind == .offlineE

/-- Owner scope: every lower token step and token removal of the owner has been made (R130), and no lower Key Rotate of the
owner waits. -/
def State.ownerFirst (s : State) (stamp : Nat) (e : Entry) : Bool :=
  !s.gate.entries.any fun k x => decide (k < stamp) && x.owner == e.owner &&
    ((e.tokens && x.tokens) || (e.kind.writes && x.kind == .keyRotE))

/-- The member that holds the zone has yet to acknowledge the lease renew of a wake (R366). -/
def State.renewWait (s : State) (zk : Nat) : Bool :=
  match (s.zone zk).place with
  | some p => (match s.cas.members.look p.chip with | some m => m.waitRenew | none => false)
  | none => false

/-- R121: a write or append waits while the zone holds a committed, uncompleted one. -/
def State.zoneFree (s : State) (e : Entry) (zk : Nat) : Bool :=
  !e.kind.writes || (((s.zone zk).conv || (s.zone zk).busy.isNone) && !s.renewWait zk)

/-- Every command stamped earlier has completed (R315 step 1). -/
def State.earlierDone (s : State) (stamp : Nat) : Bool :=
  !s.ctxs.any fun _ x => x.stamped && decide (x.stamp < stamp)

/-- Writes of an owner stamped below that have still to commit or fail (R310). -/
def State.ownerWrites (s : State) (stamp o : Nat) : Bool :=
  s.gate.entries.any fun k x => decide (k < stamp) && x.owner == o && (x.kind.writes || x.kind == .keyRotE)

/-- The entry may commit in the scope now. -/
def State.commitReady (s : State) (stamp : Nat) (e : Entry) (sc : Nat) : Bool :=
  e.scopes.contains sc && s.scopeFirst stamp sc &&
  (match e.kind with
   | .keyRotE => !s.ownerWrites stamp e.owner
   | .sanitizeE => s.earlierDone stamp
   | .sysE => false
   | _ => s.fenceFirst stamp e sc && s.ownerFirst stamp e && s.zoneFree e sc)

/-! ### Abort (R132-R134) -/

/-- Some page that holds a unit of the write has had its program issued. -/
def State.programmed (s : State) (stamp : Nat) : Bool :=
  match s.staging.look stamp with
  | none => true
  | some st =>
    let z := s.zone st.zone
    (List.range st.n).any fun j =>
      let c := st.coord z.conv j
      match z.rowPlace c.1 with
      | none => false
      | some p =>
        let l := locOf c.2 p.d s.geom.u
        let row := c.1 + l.row
        let pos := match p.dataPos[l.k]? with | some x => x.1 | none => 0
        let issued := fun (f : OpKind → Bool) => s.fch.ops.any fun id o => f o.kind &&
          ((s.die o.die).running == some id || (s.die o.die).suspended == some id)
        let inSlc := fun (e : Option SlcEntry) (new : Bool) => match e with
          | some x => x.row == row && decide (c.2 % (p.d * s.geom.u) < x.units) && (!new || decide (x.left < x.pages.length) ||
              issued fun k => match k with | .progSlc z _ => z == st.zone | _ => false)
          | none => false
        z.rowsDone.contains row || (z.rowPages.get row []).contains pos || inSlc z.slc false || inSlc z.slcNew true ||
        issued fun k => match k with | .prog z r q => z == st.zone && r == row && q == pos | _ => false

/-- An Abort decides its outcome for a stamped target, and is finished when the target's completion is posted (R132, R133):
it takes hold on a Read, Write or Zone Append whose completion is not posted and of which nothing is programmed, one that
has been moved whole included. DESIGN CHOICE: a target whose own failure is decided keeps that status, and the Abort does not
take hold on it. -/
def State.abortDecide (s : State) (c t : Nat) : Bool × State :=
  match s.ctxs.look t with
  | none => (false, s.finish c stOk 1)
  | some x =>
    let failed := x.status.any (· != stOk)
    let hit := if x.e.opc = 2 then !failed
      else if x.e.isWrite then !failed && !(x.committed && s.programmed x.stamp) else false
    if hit then
      let s0 := s.ctxEdit t fun x => { x with phase := .stamped, status := none }
      let s1 := if x.e.isWrite then s0.failWrite t stAbortReq else
        ((s0.readStop t).ctxEdit t fun x => { x with failed := true }).finish t stAbortReq
      (true, s1.ctxEdit c fun y => { y with waitFor := some t })
    else (false, s.finish c stOk 1)

/-! ### Key Rotate -/

/-- Dword 0 of every Key Rotate completion: the current generation (R310). -/
def State.keyDw0 (s : State) (o : Nat) : Dword := BitVec.ofNat 32 (s.keyOwner o).cur

/-- An active sequential zone of the owner already has BOUND_2 in use (R310 order 4). -/
def State.bound2 (s : State) (o : Nat) : Bool :=
  s.zones.any fun k z => s.zoneOwner k == o && !z.conv && z.zs.isActive && decide (4 ≤ z.keyRec.length)

/-- Orders 3 and 4 of R310 and the action (R311), at the key stage; a failure there is recorded (R47). -/
def State.keyDecide (s : State) (stamp : Nat) (e : Entry) : State :=
  let o := e.owner
  let fail := fun (s : State) (st : Status) =>
    (s.record { stamp := stamp, slice := o, kind := 0x06, status := st.recCode }).finish e.ctx st (s.keyDw0 o)
  let k := s.keyOwner o
  if e.val ≠ k.cur then fail s stSequence
  else if e.target = 0 then
    if k.live < 15 ∧ ¬s.bound2 o ∧ k.cur < 0xfffffffe then
      if s.key.entropyBad then fail (s.fire 10 [] 0 o) stInternal
      else
        let s1 := (s.keyRotate o).ledger
        s1.finish e.ctx stOk (s1.keyDw0 o)
    else fail s stSequence
  else if e.target = 1 then
    if s.key.entropyBad then fail (s.fire 10 [] 0 o) stInternal
    else ((s.keyRenewNext o).ledger).finish e.ctx stOk (s.keyDw0 o)
  else (s.keyStop o).finish e.ctx stOk (s.keyDw0 o)

/-! ### Sanitize and zeroize (R200, R315, R316) -/

/-- The zone state changes of a sanitize are decided at its commit, and recorded there (R47, R200, R315, R316). -/
def State.sanRecords (s : State) (stamp owner : Nat) (resolved : Bool) : State :=
  s.recordAll ((s.zones.filter fun p => !p.2.conv && p.2.zs != .empty).map fun p =>
    { stamp := stamp, slice := owner, kind := 0x03, resolved := resolved, nsid := zNsid p.1, zone := zIndex p.1, value := zIndex p.1 * s.zsze })

/-- Every program and page read of internal work is withdrawn. -/
def State.sanOps (s : State) : State :=
  forNats (s.fch.ops.keysWhere fun _ o => !o.isErase && o.kind != .progZero &&
    (match o.kind with | .direct _ _ | .helper _ _ => false | _ => true)) s State.opDrop

/-- Step 4 of R200: every zone Empty, the mapping, log rows, SLC entries and tokens cleared; blocks of zones freed. -/
def State.sanZones (s : State) (stamp : Nat) : State :=
  let s1 := s.zones.foldl (fun (s : State) (p : Nat × Zone) =>
    ([p.2.place, p.2.logRow, p.2.oldData, p.2.oldLog, p.2.migOld].foldl (fun (s : State) (x : Option Place) =>
      match x with | some y => s.freePlace y | none => s) s).copyingLeave p.1) s.sanOps
  { s1 with
    zones := s1.zones.mapV fun _ z => { ({} : Zone) with
      conv := z.conv, cap := s.geom.nominal, lastZsc := stamp }
    slices := s1.slices.mapV fun _ x => { x with written := 0 }
    toks := []
    zne := { s1.zne with logRowsUsed := [] }
    par := { s1.par with acc := [], cache := [], queue := [] }
    key := { s1.key with owners := s1.key.owners.mapV fun _ k => { k with refs := [] } } }

/-- ROWS, PT_OPEN and PT_CLOSE become 0 in every record (R200 step 4). -/
def State.sanInfo (s : State) : State :=
  { s with blocks := s.blocks.mapV fun _ b => { b with rows := 0, ptOpen := 0, ptClose := 0, samples := 0, tpSum := 0, taken := 0 } }

/-- Staging is zero-filled and freed (R200 step 2). -/
def State.sanStaging (s : State) : State :=
  { s with staging := [], bpm := { s.bpm with bufs := [] }, gate := { s.gate with dirty := 0 } }

/-- Key store: the key RAM zeroized, the epoch advanced, keys drawn again (R315 steps 2, 3). While no key can be drawn the
units that reach Gauntlet go on to fail (R302, R316). -/
def State.cryptoErase (s : State) : State :=
  let s1 := { s with key := { s.key with epoch := s.key.epoch + 1, ram := [], cleared := s.key.entropyBad } }
  if s.key.entropyBad then s1.fire 10 [] 0 1025 else s1.keyRedraw

/-- SLC buffer blocks marked for erase, their entries gone. -/
def State.slcMark (s : State) : State :=
  { s with blocks := s.blocks.mapV fun _ b => if b.st = 4 ∨ b.st = 5 then { b with unerased := true, rows := 0, taken := 0 } else b }

/-- Blocks of a zone's rows and entries, for the namespaces with LBAF1 (R315 step 4). -/
def State.lbaf1Blocks (s : State) : List Nat :=
  (s.zones.flatMap fun p => match s.nss.look (zNsid p.1) with
    | some n => if n.lbaf1 then p.2.copyBlocks else []
    | none => []).eraseDups

/-- Blocks a block erase covers: every block of every die not in state 7 or 15 (R200 step 3). -/
def State.allBlocks (s : State) : List Nat :=
  s.dies.flatMap fun d => ((List.range s.geom.blocks).map fun b => blkKey d.1 b).filter fun k =>
    (s.blk k).st != 7 && (s.blk k).st != 15

/-- Queue the erases of a sanitize. A block of a failed die, to which no operation is issued (R192), keeps its content and
counts as one that survived R198. -/
def State.sanQueue (s : State) (l : List Nat) : State :=
  let good := l.filter fun k => s.dieGood (k / 8192)
  let s1 := forNats good s fun s k => s.eraseQueue (k / 8192) (k % 8192) 1025
  { s1 with nvme := { s1.nvme with saniErase := good, saniFails := s1.nvme.saniFails + (l.length - good.length) } }

/-- Report in the Sanitize Status log page (R200 step 5, R315 step 5). -/
def State.sanFinish (s : State) : State :=
  if s.nvme.sani = 1 then { s with nvme := { s.nvme with sani := if s.nvme.saniFails = 0 then 2 else 3 } } else s

/-- Every erase of a sanitize has reported: after a block erase the metadata follows (R200 steps 4 and 5). -/
def State.sanErased (s : State) : State :=
  (if s.nvme.saniBlock then ((s.sanZones s.nvme.saniStamp).sanInfo).ledger else s).sanFinish

/-- Steps 2 to 5 once every earlier command has completed. -/
def State.sanRun (s : State) (stamp kind : Nat) : State :=
  let s0 := { s.sanRecords stamp 1024 false with nvme := { s.nvme with saniStamp := stamp, saniBlock := kind != 4 } }
  if kind = 4 then
    let s1 := ((((s0.cryptoErase).sanStaging).sanZones stamp).slcMark).sanQueue s0.lbaf1Blocks
    if s1.nvme.saniErase = [] then s1.sanErased else s1
  else
    let s1 := ((s0.sanStaging).sanOps).sanQueue s0.allBlocks
    if s1.nvme.saniErase = [] then s1.sanErased else s1

/-- A transfer that needs a key of the cleared key RAM ends its command with Internal Error (R316). -/
def State.keyLess (s : State) (c : Nat) : State :=
  match s.ctxs.look c with
  | none => s
  | some x =>
    let s1 := { s with gate := { s.gate with entries := s.gate.entries.filter fun p => p.2.ctx ≠ c } }
    if x.e.isWrite then s1.failWrite c stInternal
    else ((s1.readStop c).ctxEdit c fun y => { y with failed := true }).finish c stInternal

/-- The commit of a zeroize (R316): the commands stamped earlier that still move data have lost their keys; steps 2 to 4 of R315,
and every slice frozen with reason 4. -/
def State.zeroizeAt (s : State) (stamp : Nat) : State :=
  let s1 := (forNats (s.ctxs.keysWhere fun _ x => x.e.isBlock && x.phase == .stamped && decide (x.stamp < stamp)) s State.keyLess).sanRecords stamp 1025 false
  let s2 := { s1 with nvme := { s1.nvme with saniBlock := false } }
  (((((s2.cryptoErase).sanStaging).sanZones stamp).slcMark).sanQueue s2.lbaf1Blocks).freezeAll 4

/-- What a configuration commit of a security alarm does (R316, R465), with its record. -/
def State.alarmApply (s : State) (ev : SysEv) (stamp : Nat) : State :=
  match ev with
  | .freeze => (s.freezeAll 4).sysRecord stamp 0x08 false
  | .zeroize => (s.zeroizeAt stamp).sysRecord stamp 0x08 false
  | _ => s

/-- Commit the lowest entry when it is the commit of a security alarm. -/
def State.alarmRun (s : State) : State :=
  match s.gate.entries with
  | (k, e) :: _ =>
    if e.sys = some .freeze then ((s.sysTake k).alarmApply .freeze k).settle
    else if e.sys = some .zeroize then ((s.sysTake k).alarmApply .zeroize k).settle
    else s
  | [] => s

/-- Stamp the configuration commits of the responses that wait (R465). DESIGN CHOICE: while no stamp can be issued the response
waits, and a tick takes it up. -/
def State.alarmPay (s : State) : State :=
  let one := fun (s : State) (b : Nat) (ev : SysEv) =>
    if s.evt.owed.getLsbD b && s.canStamp then
      (({ s with evt := { s.evt with owed := s.evt.owed &&& ~~~BitVec.ofNat 2 (2 ^ b) } }).enterCfg ev).alarmRun
    else s
  one (one s 0 .freeze) 1 .zeroize

/-! ### Commits -/

/-- The kind of zone operation of an entry. -/
def EKind.zop : EKind → ZOp
  | .openE => .open
  | .closeE => .close
  | .finishE => .finish
  | .offlineE => .offline
  | _ => .reset

/-- The states a Select All covers, as ZNS defines each action (R147). -/
def ZOp.covers : ZOp → Zs → Bool
  | .open, z => z == .closed
  | .close, z => z.isOpen
  | .finish, z => z.isActive
  | .reset, z => z.isActive || z == .full
  | .offline, z => z == .readOnly

/-- A Zone Management Send entry commits in one zone (R147). -/
def State.commitZop (s : State) (stamp : Nat) (e : Entry) (zk : Nat) : State :=
  let set := (s.zone zk).copyBlocks
  if e.all && !e.kind.zop.covers (s.zone zk).zs then s
  else
  match s.zoneOp e.kind.zop zk stamp e.fence with
  | .error f =>
    let s1 := s.record { stamp := stamp, slice := e.owner, kind := 0x06, status := f.recCode, nsid := zNsid zk, zone := zIndex zk }
    { s1 with gate := { s1.gate with entries := s1.gate.entries.edit stamp fun x => { x with fails := x.fails ++ [(zk, f)] } } }
  | .ok s1 =>
    let s2 := s1.record { stamp := stamp, slice := e.owner, kind := 0x03, nsid := zNsid zk, zone := zIndex zk, value := s1.wpValue zk }
    if e.kind = .sanResetE then s2.ctxEdit e.ctx fun x => { x with eraseSet := (x.eraseSet ++ set).eraseDups } else s2

/-- The namespace's partial rows go to the SLC buffer; the Flush waits for them (R69). -/
def State.commitFlush (s : State) (e : Entry) : State :=
  let zs := s.zones.keysWhere fun k _ => zNsid k == e.nsid && (s.partialRow k).isSome
  let s1 := forNats zs s State.slcStart
  let wait := zs.filter fun k => (s1.zone k).slcNew.isSome || (s1.zone k).slcWant
  if wait = [] then s1.finish e.ctx stOk else s1.ctxEdit e.ctx fun x => { x with flushWait := wait }

/-- A Report Zones filter of ZNS 1.1 (R504): none when it is not defined. -/
def zrasFilter (f : Nat) : Option (Option Zs ⊕ Unit) :=
  if f = 0 then some (.inl none)
  else if f = 1 then some (.inl (some .empty))
  else if f = 2 then some (.inl (some .implOpen))
  else if f = 3 then some (.inl (some .explOpen))
  else if f = 4 then some (.inl (some .closed))
  else if f = 5 then some (.inl (some .full))
  else if f = 6 then some (.inl (some .readOnly))
  else if f = 7 then some (.inl (some .offline))
  else if f = 8 ∨ f = 9 ∨ f = 0xa then some (.inr ())
  else none

/-- Zone state as Report Zones shows it: a fenced member's zones read Dh (R334), a conventional zone 0h (R157). -/
def State.zsShown (s : State) (zk : Nat) : Nat :=
  let z := s.zone zk
  if z.conv then 0
  else if (match z.place with | some p => s.chipFenced p.chip | none => false) then 0xd
  else z.zs.code

/-- One 64-byte zone descriptor at an offset: ZT, ZS in bits [7:4], ZCAP, ZSLBA, WP. -/
def State.zoneDesc (s : State) (off zk : Nat) : List (Nat × Nat × Nat) :=
  let z := s.zone zk
  [(off, 1, if z.conv then 1 else 2), (off + 1, 1, s.zsShown zk * 16), (off + 8, 8, z.cap), (off + 16, 8, zIndex zk * s.zsze)
   , (off + 24, 8, s.wpValue zk)]

/-- The report of a Zone Management Receive, and its completion (R157, R504). -/
def State.commitZmr (s : State) (e : Entry) : State :=
  match s.ctxs.look e.ctx with
  | none => s
  | some x =>
    let zs := s.zones.keysWhere fun k _ => zNsid k == e.nsid && decide (x.e.slba ≤ zIndex k * s.zsze)
    let sel := match zrasFilter x.e.zras with
      | some (.inl none) => zs
      | some (.inl (some st)) => zs.filter fun k => s.zsShown k == st.code
      | _ => []
    let room := (x.e.zmrDwords * 4 - 64) / 64
    let ds := ((List.range room).zip sel).flatMap fun p => s.zoneDesc (64 + 64 * p.1) p.2
    let s1 := s.say (.hostData e.ctx 0 (x.e.zmrDwords * 4) ((0, 8, sel.length) :: ds))
    (s1.rdReturn e.ctx).finish e.ctx stOk

/-- What the entry does in the scope. -/
def State.commitIn (s : State) (stamp : Nat) (e : Entry) (sc : Nat) : State :=
  match e.kind with
  | .writeE | .appendE => s.commitWrite stamp e sc
  | .readE => s.commitRead stamp e sc
  | .flushE => s.commitFlush e
  | .dsmE | .sanDsmE => s.commitDsm stamp e sc
  | .openE | .closeE | .finishE | .resetE | .sanResetE | .offlineE => s.commitZop stamp e sc
  | .zmrE => s.commitZmr e
  | .abortE =>
    let r := s.abortDecide e.ctx e.target
    r.2.record { stamp := stamp, slice := 1024, kind := 0x09, resolved := true, nsid := zNsid sc, zone := zIndex sc }
  | .keyRotE => s.keyDecide stamp e
  | .sanitizeE => s.sanRun stamp e.target
  | .sysE => s

/-- A command whose last scope has committed and whose work ends there. -/
def State.commitLast (s : State) (e : Entry) : State :=
  match e.kind with
  | .openE | .closeE | .finishE | .resetE | .offlineE =>
    s.finish e.ctx (match e.fails with | (_, f) :: t => (t.foldl (fun (m : Nat × Status) p => if p.1 < m.1 then p else m) ((e.fails.head?.map (·.1)).getD 0, f)).2 | [] => stOk)
  | .dsmE => s.finish e.ctx stOk
  | .sanResetE | .sanDsmE =>
    match e.fails with
    | (_, f) :: _ => s.finish e.ctx f
    | [] => s.sanErase e.ctx (match s.ctxs.look e.ctx with | some x => if x.phase = .done then [] else x.eraseSet | none => [])
  | _ => s

/-- Remove the scope; the last one ends the entry. -/
def State.scopeDone (s : State) (stamp sc : Nat) : State :=
  match s.gate.entries.look stamp with
  | none => s
  | some e =>
    let left := e.scopes.filter (· != sc)
    if left = [] then ({ s with gate := { s.gate with entries := s.gate.entries.del stamp } }).commitLast e
    else { s with gate := { s.gate with entries := s.gate.entries.put stamp { e with scopes := left } } }

/-- Commit the entry with a stamp in one scope, if it may (R38). -/
def State.commitAt (s : State) (stamp sc : Nat) : State :=
  match s.gate.entries.look stamp with
  | none => s
  | some e =>
    if s.commitReady stamp e sc then
      (((((s.stampFlush stamp).commitIn stamp e sc).scopeDone stamp sc).leaseSync sc).migCheck).settle
    else s

/-- Insert a stamped entry: the stamp is `s.gate.next`. Its command keeps the latency class and weight in force here (R34, R97). -/
def State.enter (s : State) (e : Entry) : State :=
  let st := s.gate.next
  let s1 := s.drawStamp
  ({ s1 with gate := { s1.gate with entries := s1.gate.entries.put st e } }).ctxEdit e.ctx fun x =>
    { x with phase := .stamped, stamped := true, stamp := st, cls := s.classOf (qOwner x.q), weight := s.weightOf (qOwner x.q) }

end Sys2Proof.Machine
end

