-- ==== Sys2Proof/Machine/Alarm.lean ====
section
/-! DEFINITION. The security alarm (R464-R466), and the clear of the Tussock log (R461). -/

namespace Sys2Proof.Machine

open Sys2Proof

/-- EVT_ALARM as a register value (R467). -/
def State.alarmReg (s : State) : Nat :=
  s.evt.latch.toNat + ((List.range 4).map fun k => s.evt.rsp.getD k 0 % 4 * 2 ^ (4 + 2 * k)).sum
    + (if s.evt.stuck then 2 ^ 31 else 0)

/-- A response is asked for: its configuration commit is stamped at once, or as soon as a stamp can be issued (R465). -/
def State.alarmRespond (s : State) (b : Nat) : State :=
  ({ s with evt := { s.evt with owed := s.evt.owed ||| BitVec.ofNat 2 (2 ^ b) } }).alarmPay

/-- The freeze response. -/
def State.alarmFreeze (s : State) : State := s.alarmRespond 0

/-- The zeroize response: the key RAM is cleared at once (R316). -/
def State.zeroize (s : State) : State := ({ s with key := { s.key with ram := [], cleared := true } }).alarmRespond 1

/-- Alarm source `k` fires (R465): latch, event 16 + k, and on a fresh latch bit the response of the ALARM record. -/
def State.alarm (s : State) (k detail : Nat) : State :=
  let fresh := !s.evt.latch.getLsbD k
  let rsp := if fresh then s.evt.rsp.getD k 0 else 0
  let s1 := { s with evt := { s.evt with latch := s.evt.latch ||| BitVec.ofNat 4 (2 ^ k) } }
  let s2 := s1.fire (16 + k) [rsp, detail, s1.alarmReg]
  if rsp = 1 then s2.alarmFreeze else if rsp = 2 then s2.zeroize else s2

/-- Some latched alarm holds frozen slices (R466). -/
def State.alarmHolds (s : State) : Bool :=
  (List.range 4).any fun k => s.evt.latch.getLsbD k && (s.evt.rsp.getD k 0 == 1 || s.evt.rsp.getD k 0 == 2)

/-- The detectors that are off: core, SRAM and core clock while their rails are gated in Stop (R464). -/
def State.glitchSeen (s : State) (detail : Nat) : Nat := if s.pwr.st = 2 then detail % 16 &&& 4 else detail % 16

/-- VOLTAGE_GLITCH (R464): `detail` names the rails, `standing` says that a detector still reads out of range. With no rail named the
detectors read in range again, or not (R466). -/
def execVoltageGlitch (detail : Nat) (standing : Bool) (s : State) : Host.Outcome State Fault Refusal :=
  let d := s.glitchSeen detail
  if !s.evt.glitchArmed then .next s
  else if d = 0 then .next { s with evt := { s.evt with glitchStanding := s.evt.glitchStanding && standing } }
  else .next (({ s with evt := { s.evt with glitchStanding := standing } }).alarm 0 d)

/-- DIE_SHIELD_CHECK (R464): the 1 ms continuity check; a break raises the alarm with its segment. -/
def execDieShieldCheck (pass : Bool) (segment : Nat) (s : State) : Host.Outcome State Fault Refusal :=
  let s1 := { s with evt := { s.evt with shieldBroken := !pass } }
  if pass then .next s1 else .next (s1.alarm 2 (segment % 64))

/-- The source's condition stands (R466). -/
def State.alarmStands (s : State) (k : Nat) : Bool :=
  (k == 0 && s.evt.glitchStanding) || (k == 2 && s.evt.shieldBroken)

/-- A write to EVT_ALARM.LATCH (R466): a bit clears while its condition is absent, else STUCK is set. -/
def State.latchClear (s : State) (mask : Nat) : State :=
  (List.range 4).foldl (fun s k =>
    if mask.testBit k && s.evt.latch.getLsbD k then
      if s.alarmStands k then { s with evt := { s.evt with stuck := true } }
      else { s with evt := { s.evt with latch := s.evt.latch &&& ~~~BitVec.ofNat 4 (2 ^ k) } }
    else s) s

/-- ALARM_LATCH_CLEAR (R466). -/
def execAlarmLatchClear (mask : Nat) (s : State) : Host.Outcome State Fault Refusal := .next (s.latchClear mask)

/-- The clear takes effect between two appends (R461); records that arise until it ends are held. -/
def State.logWipe (s : State) : State :=
  if s.log.clearing then s
  else { s with log := { s.log with slots := s.log.slots.mapV fun _ r => { r with valid := false }, next := 0, dropped := 0, clearing := true, held := [] } }

/-- LOG_CLEAR (R461). -/
def execLogClear (s : State) : Host.Outcome State Fault Refusal := .next s.logWipe

/-- The clear ends: the held records are appended in their order. -/
def State.logWiped (s : State) : State :=
  if s.log.clearing then
    s.log.held.foldl (fun s r => s.logAppend r) { s with log := { s.log with clearing := false, held := [] } }
  else s

end Sys2Proof.Machine
end

