-- ==== Sys2Proof/Machine/Bonnet.lean ====
section
/-! DEFINITION. The Bonnet array (R430-R437): its words, classes and protection groups, the password, the protection levels,
and the EFL commands; the anti-rollback counters (R444). -/

namespace Sys2Proof.Machine

open Sys2Proof

/-! ### Words and classes (R430, R431) -/

def wordErased : Word := BitVec.allOnes 64

/-- Sector of a word address. -/
def secOf (a : Nat) : Nat := a / 256

def secOem (x : Nat) : Bool := decide (x < 2048)
def secControl (x : Nat) : Bool := x == 2046 || x == 2047
def secFactory (x : Nat) : Bool := decide (4092 ≤ x)
def secSealed (x : Nat) : Bool := decide (2048 ≤ x) && decide (x < 4092)

/-- The meter program banks and their selector. -/
def secMeter (x : Nat) : Bool := decide (2560 ≤ x) && decide (x ≤ 3073)

/-- Sectors whose content comes with the chip or from its internal writers. The level words and the counters are not among
them: they start erased. -/
def secFilled (x : Nat) : Bool :=
  secControl x || (decide (2049 ≤ x) && decide (x ≤ 2055)) || secMeter x || secFactory x

/-- A word as a read without error returns it: password words read as erased (R432). -/
def Efl.wordAt (e : Efl) (epoch a : Nat) : Word :=
  match e.words.look a with
  | some v => v
  | none =>
    if e.erased.contains (secOf a) || !secFilled (secOf a) then wordErased
    else Config.sealedWord (if secOf a = 2054 ∨ secOf a = 2055 then epoch else if secControl (secOf a) then e.ctlSeq
      else if secMeter (secOf a) then e.mtrGen else if secFactory (secOf a) then 0 else e.gen) a

/-- Protection level (R435). -/
def Efl.level (e : Efl) : Nat :=
  let w := fun n => (e.words.look (2048 * 256 + n)).getD wordErased
  if w 0 = wordErased then 0 else if w 1 = wordErased then 1 else 2

/-- Anti-rollback counter c: programmed words among words 0-254 of sector 2056 + c (R444). -/
def Efl.svnOf (e : Efl) (c : Nat) : Nat :=
  e.words.count fun a v => decide ((2056 + c) * 256 ≤ a) && decide (a < (2056 + c) * 256 + 255) && v != wordErased

def Efl.svns (e : Efl) : List Nat := (List.range 8).map e.svnOf

/-- The chip raises a counter by programming its lowest erased words (R444). -/
def Efl.svnRaise (e : Efl) (c n : Nat) : Efl :=
  let base := (2056 + c) * 256
  let free := (List.range 255).filter fun w => (e.words.look (base + w)).getD wordErased == wordErased
  { e with words := (free.take (n - e.svnOf c)).foldl (fun t w => t.put (base + w) 0) e.words }

/-- Identity and root key sectors that are erased. -/
def Efl.keysLeft (e : Efl) : Nat := ([2049, 2050, 2051, 2052, 2053].filter e.erased.contains).length

/-- The sealed class has been erased at level 0 (R437). -/
def Efl.keysGone (e : Efl) : Bool := e.level == 0 && e.keysLeft == 5

/-- Part of the class is erased: boot cannot read it (R436). -/
def Efl.keysPart (e : Efl) : Bool := e.keysLeft != 0 && !e.keysGone

/-- New keys are written; the counters are set to 0. -/
def Efl.renew (e : Efl) : Efl :=
  { e with
    words := e.words.filter fun p => !(decide (2049 ≤ secOf p.1) && decide (secOf p.1 ≤ 2063)), gen := e.gen + 1
    erased := e.erased.filter fun x => !(decide (2049 ≤ x) && decide (x ≤ 2055)) }

/-- A meter program is written to its bank, and the selector after it (R361, R431). -/
def Efl.meterNew (e : Efl) : Efl :=
  { e with
    words := e.words.filter fun p => !secMeter (secOf p.1), mtrGen := e.mtrGen + 1
    erased := e.erased.filter fun x => !secMeter x }

/-- A sector is erased. -/
def Efl.eraseSec (e : Efl) (x : Nat) : Efl :=
  { e with words := e.words.filter fun p => secOf p.1 != x, erased := if secFilled x then insNat x e.erased else e.erased }

/-! ### Access (R432, R433) -/

def State.eflEdit (s : State) (f : Efl → Efl) : State := { s with efl := f s.efl }

/-- Word address and sector of EFL_ADDR. -/
def Efl.at_ (e : Efl) : Nat := bitsAt e.addr.toNat 0 20
def Efl.sec (e : Efl) : Nat := secOf e.at_

/-- A refused sealed-class access (R432): counted, an event, and the eighth raises the alarm. -/
def State.eflRefuse (s : State) : State :=
  let n := satAdd 0xffffffff s.efl.viol 1
  let s1 := (s.eflEdit fun e => { e with viol := n, result := 3 }).fire 212 [n]
  if n = 8 then s1.alarm 3 n else s1

/-- The outside may not reach the sealed class above level 0. -/
def State.eflShut (s : State) : Bool := secSealed s.efl.sec && s.efl.level != 0

/-- RESULT of a program or erase that is refused at its sector: the factory row, a control sector or a protected group. -/
def Efl.writeBar (e : Efl) : Option Nat :=
  if secFactory e.sec then some 4
  else if secControl e.sec then some 2
  else if secOem e.sec && e.prot.getLsbD (e.sec / 32) then some 2
  else none

/-- EFL_READ. A word with a double-bit error has data that is undefined. -/
def execEflRead (doubleBit corrected : Bool) (s : State) : Host.Outcome State Fault Refusal :=
  if s.efl.busy then .next s
  else if s.eflShut then .next s.eflRefuse
  else if doubleBit then
    .next ((s.eflEdit fun e => { e with result := 5, corr := false, data := BitVec.ofNat 64 s.freeVal }).freeStep)
  else .next (s.eflEdit fun e => { e with result := 0, corr := corrected, data := e.wordAt s.key.epoch e.at_ })

/-- EFL_PROGRAM: 16 µs on an erased word. -/
def execEflProgram (s : State) : Host.Outcome State Fault Refusal :=
  if s.efl.busy then .next s
  else if s.eflShut then .next s.eflRefuse
  else
    match s.efl.writeBar with
    | some r => .next (s.eflEdit fun e => { e with result := r })
    | none =>
      if s.efl.wordAt s.key.epoch s.efl.at_ ≠ wordErased then .next (s.eflEdit fun e => { e with result := 1 })
      else .next (s.eflEdit fun e => { e with busy := true, opKind := 2, opWord := e.at_, opData := e.data })

/-- EFL_ERASE: 3 ms. -/
def execEflErase (s : State) : Host.Outcome State Fault Refusal :=
  if s.efl.busy then .next s
  else if s.eflShut then .next s.eflRefuse
  else
    match s.efl.writeBar with
    | some r => .next (s.eflEdit fun e => { e with result := r })
    | none => .next (s.eflEdit fun e => { e with busy := true, opKind := 3, opSector := e.sec })

/-- The next sector of a lowering: 2049-4091 in ascending order, and 2048 last; none after it (R436). -/
def rdpNext (x : Nat) : Option Nat := if x = 2048 then none else if x < 4091 then some (x + 1) else some 2048

/-- EFL_OPERATION_COMPLETE: the program or erase has ended, or one erase of a lowering. -/
def execEflOperationComplete (s : State) : Host.Outcome State Fault Refusal :=
  let e := s.efl
  if !e.busy then .next s
  else if e.rdpBusy then
    let e1 := e.eraseSec e.opSector
    match rdpNext e.opSector with
    | some x => .next (s.eflEdit fun _ => { e1 with opSector := x })
    | none => .next (s.eflEdit fun _ => { e1 with rdpBusy := false, busy := false, rdpResult := 0, opKind := 0 })
  else if e.opKind = 2 then
    .next (s.eflEdit fun e => { e with busy := false, opKind := 0, result := 0, words := e.words.put e.opWord e.opData })
  else .next (s.eflEdit fun e => { e.eraseSec e.opSector with busy := false, opKind := 0, result := 0 })

/-! ### The password and the mask (R433, R434) -/

/-- The OEM class is unlocked, or counts as unlocked while no password is programmed. -/
def Efl.open_ (e : Efl) : Bool := e.pwSet.isNone || e.unlocked

/-- OEM_UNLOCK. -/
def execOemUnlock (s : State) : Host.Outcome State Fault Refusal :=
  match s.efl.pwSet with
  | none => .next s
  | some p =>
    if s.efl.lockout then .next s
    else if s.efl.pw = p then .next (s.eflEdit fun e => { e with unlocked := true, attempts := 0 })
    else .next (s.eflEdit fun e => { e with attempts := e.attempts + 1, lockout := decide (16 ≤ e.attempts + 1) })

/-- OEM_LOCK. -/
def execOemLock (s : State) : Host.Outcome State Fault Refusal := .next (s.eflEdit fun e => { e with unlocked := false })

/-- SET_PASSWORD: the other control sector is written. The class stays unlocked until a lock or a reset. -/
def execSetPassword (s : State) : Host.Outcome State Fault Refusal :=
  if !s.efl.open_ then .next s
  else .next (s.eflEdit fun e => { e with pwSet := some e.pw, unlocked := true, ctlSeq := e.ctlSeq + 1 })

/-- WRITE_MASK: EFL_PROT_NEW becomes the protection mask. -/
def execWriteMask (s : State) : Host.Outcome State Fault Refusal :=
  if !s.efl.open_ then .next s else .next (s.eflEdit fun e => { e with prot := e.protNew, ctlSeq := e.ctlSeq + 1 })

/-! ### Protection levels (R436) -/

/-- EFL_RDP: one step up programs a level word; the lowering 1 to 0 erases the class. -/
def execEflRdp (target : Nat) (s : State) : Host.Outcome State Fault Refusal :=
  let e := s.efl
  let l := e.level
  let res := fun (n : Nat) => (Host.Outcome.next (s.eflEdit fun e => { e with rdpResult := n }) : Host.Outcome State Fault Refusal)
  if e.busy then .next s
  else if l = 2 then res 3
  else if target = l + 1 then
    .next (s.eflEdit fun e => { e with rdpResult := 0, words := e.words.put (2048 * 256 + l) 0 })
  else if l = 1 ∧ target = 0 then
    if !e.open_ then res 1
    else if !s.mtr.sealOpen then res 2
    else .next (s.eflEdit fun e => { e with rdpBusy := true, busy := true, opKind := 3, opSector := 2049 })
  else res 4

end Sys2Proof.Machine
end

