-- ==== Sys2Proof/Machine/Heather.lean ====
section
/-! DEFINITION. Heather (R386-R398) and the delay taps (R43-R45). Readings are in units of 0.125 °C. -/

namespace Sys2Proof.Machine

open Sys2Proof

/-- A temperature in °C as a reading. -/
def degC (n : Int) : Int := n * 8

/-- One second of crown time. -/
def secNs : Nat := 1000000000

def State.site (s : State) (k : Nat) : Site := s.thm.sites.get k {}
def State.siteEdit (s : State) (k : Nat) (f : Site → Site) : State := { s with thm := { s.thm with sites := s.thm.sites.upd k {} f } }
def State.region (s : State) (r : Nat) : Region := s.thm.regions.get r {}
def State.regionEdit (s : State) (r : Nat) (f : Region → Region) : State :=
  { s with thm := { s.thm with regions := s.thm.regions.upd r {} f } }

/-- Take the larger of an optional reading and a reading. -/
def maxOpt (a : Option Int) (b : Int) : Option Int := match a with | some x => some (max x b) | none => some b

/-- The median of three, the higher of two, the one (R397). -/
def median : List Int → Option Int
  | [] => none
  | [a] => some a
  | [a, b] => some (max a b)
  | a :: b :: c :: _ => some (max (min a b) (min (max a b) c))

/-- Raw reading of a site that is read and not broken. -/
def State.rawOf (s : State) (k : Nat) : Option Int :=
  let x := s.site k
  if x.read && !x.broken then some x.temp else none

/-- The value Heather uses for a site: for H14 and H15 the median with H12 and H13 (R397). -/
def State.siteVal (s : State) (k : Nat) : Option Int :=
  if k = 14 ∨ k = 15 then median ([k, 12, 13].filterMap s.rawOf) else s.rawOf k

/-- A region's reading: the highest among its valid sites (R386). -/
def State.regionTemp (s : State) (r : Nat) : Option Int :=
  [2 * r, 2 * r + 1].foldl (fun m k => match s.siteVal k with | some v => maxOpt m v | none => m) none

/-- No site of the region gives a value (R396). -/
def State.regionNone (s : State) (r : Nat) : Bool :=
  if r = 7 then [12, 13, 14, 15].all fun k => (s.site k).broken
  else (s.site (2 * r)).broken && (s.site (2 * r + 1)).broken

/-- A region is held at band E by a broken site (R396, R397). -/
def State.regionHeld (s : State) (r : Nat) : Bool :=
  if r = 7 then (s.site 12).broken && (s.site 13).broken && ((s.site 14).broken || (s.site 15).broken)
  else (s.site (2 * r)).broken || (s.site (2 * r + 1)).broken

/-- The hottest region reading: the Composite Temperature (R386). -/
def State.composite (s : State) : Option Int :=
  (List.range 8).foldl (fun m r => match s.regionTemp r with | some v => maxOpt m v | none => m) none

/-- Band of a reading (R388): 0 A to 4 E. -/
def bandOf (t : Int) : Nat :=
  if t < degC 0 then 0 else if t < degC 45 then 1 else if t < degC 75 then 2 else if t ≤ degC 95 then 3 else 4

/-- Lower edge of a band above A. -/
def bandEdge (b : Nat) : Int := if b = 1 then degC 0 else if b = 2 then degC 45 else if b = 3 then degC 75 else degC 95

/-! ### Broken sites (R395) -/

/-- The cause a sample gives, 0 for none. -/
def State.breakCause (s : State) (k : Nat) (raw : Int) (b : Bias) : Nat :=
  let x := s.site k
  if b = .openCircuit then 1
  else if b = .short then 2
  else if raw < degC (-60) ∨ degC 150 < raw then 3
  else if x.fast ∧ x.read ∧ (degC 20 < raw - x.temp ∨ degC 20 < x.temp - raw) then 4
  else 0

/-! ### Bands (R388) and taps (R44) -/

/-- A region enters a band: the event, and LAT_COND.BAND on entering E (R389, R246). -/
def State.bandSet (s : State) (r b : Nat) : State :=
  let old := (s.region r).band
  if b = old then s
  else
    let s1 := (s.regionEdit r fun x => { x with band := b }).fire 20
    if b = 4 then { s1 with lat := { s1.lat with condBand := true } } else s1

/-- A region that its broken sites hold goes to band E with its taps, until chip reset (R396, R397). -/
def State.regionHold (s : State) (r : Nat) : State :=
  if s.regionHeld r && !(s.region r).held then
    let s1 := (s.bandSet r 4).regionEdit r fun x => { x with held := true }
    { s1 with lat := { s1.lat with condBand := true }, thm := { s1.thm with tapsDue := s1.thm.tapsDue.put r 4 } }
  else s

/-- A site that is not broken, or H14 or H15 whose median replaces it (R397). -/
def State.siteValid (s : State) (k : Nat) : Bool := !(s.site k).broken || (decide (k = 14 ∨ k = 15) && ((s.site 12).broken && (s.site 13).broken) == false)

/-- Valid sites of a region. -/
def State.validSites (s : State) (r : Nat) : List Nat := [2 * r, 2 * r + 1].filter s.siteValid

/-- All valid sites have satisfied a condition for one second. -/
def State.heldFor (s : State) (r : Nat) (f : Site → Option Nat) : Bool :=
  s.validSites r != [] && (s.validSites r).all fun k => match f (s.site k) with | some t => decide (t + secNs ≤ s.now) | none => false

/-- The band of a region after a reading: up at once, down by one band after a second (R388). -/
def State.bandEval (s : State) (r k : Nat) (v : Int) : State :=
  let x := s.region r
  if x.held then s
  else
    let cool := decide (v + degC 3 ≤ bandEdge x.band) && decide (0 < x.band)
    let s1 := s.siteEdit k fun y => { y with coolFrom := if cool then some (y.coolFrom.getD s.now) else none }
    if x.band < bandOf v then s1.bandSet r (bandOf v)
    else if s1.heldFor r (·.coolFrom) then
      ((s1.validSites r).foldl (fun (s : State) j => s.siteEdit j fun y => { y with coolFrom := none }) s1).bandSet r (x.band - 1)
    else s1

/-- Regions whose band selects delay taps (R386). DESIGN CHOICE (R50): the other regions have none, and TAPS shows the code of band
E for them, 4, as at reset. -/
def tapRegion (r : Nat) : Bool := r == 0 || r == 1 || r == 2 || r == 4 || r == 7

/-- Tap code that a reading calls for on the way up: 2 °C early (R44). -/
def tapUp (v : Int) : Nat :=
  if v < degC (-2) then 0 else if v < degC 43 then 1 else if v < degC 73 then 2 else if v < degC 93 then 3 else 4

/-- The tap code due in a region after a reading (R44). -/
def State.tapEval (s : State) (r k : Nat) (v : Int) : State :=
  if !tapRegion r || (s.region r).held then s
  else
    let code := s.thm.tapsDue.get r 4
    let cool := decide (v + degC 3 ≤ bandEdge code) && decide (0 < code)
    let s1 := s.siteEdit k fun y => { y with tapFrom := if cool then some (y.tapFrom.getD s.now) else none }
    let put := fun (s : State) (c : Nat) => { s with thm := { s.thm with tapsDue := s.thm.tapsDue.put r c } }
    if code < tapUp v then put s1 (tapUp v)
    else if s1.heldFor r (·.tapFrom) then
      put ((s1.validSites r).foldl (fun (s : State) j => s.siteEdit j fun y => { y with tapFrom := none }) s1) (code - 1)
    else s1

/-! ### Rate of rise (R391) -/

/-- Sum and number of the readings of a window `(from, to]`. -/
def winSum (l : List (Nat × Int)) (a b : Nat) : Int × Nat :=
  l.foldl (fun m p => if a < p.1 ∧ p.1 ≤ b then (m.1 + p.2, m.2 + 1) else m) (0, 0)

/-- r of a site at `now` is at least `lim` (in 1/8 °C per second); false until both windows hold readings. -/
def Site.rising (x : Site) (now : Nat) (lim : Int) : Bool :=
  let a := winSum x.hist (now - secNs / 4) now
  let b := winSum x.hist (now - secNs * 5 / 4) (now - secNs)
  decide (secNs ≤ now) && a.2 != 0 && b.2 != 0 && !x.broken &&
    decide (lim * a.2 * b.2 ≤ a.1 * b.2 - b.1 * a.2)

/-- Move the throttle; STEPS counts what it rises (R405). -/
def State.throttle (s : State) (n : Nat) : State :=
  let n := min 7 n
  { s with thm := { s.thm with step := n, steps := satAdd 0xffff s.thm.steps (n - s.thm.step) } }

/-- One step, at most one at an instant; the 2 s windows and the DOWN period start again (R391, R393). -/
def State.stepUp (s : State) : State :=
  if s.thm.lastStepAt = some s.now then s
  else
    let s1 := s.throttle (s.thm.step + 1)
    { s1 with thm := { s1.thm with
      lastStepAt := some s.now, calmSince := none
      sites := s1.thm.sites.mapV fun _ x => { x with riseFrom := x.riseFrom.map fun _ => s.now } } }

/-- THM_ALARM as a register value (R405). -/
def State.thmAlarm (s : State) : Nat :=
  (if s.thm.aRise then 1 else 0) + (if s.thm.aBroken then 2 else 0) + (if s.thm.aLimit then 4 else 0) + (if s.thm.aTherm then 8 else 0)

def State.alarmRise (s : State) : State := s.fire 21 [s.thmAlarm]

/-- A rise of 5 °C/s or more (R391): the alarm, and step 4 at least. -/
def State.riseAlarm (s : State) : State :=
  let a := ({ s with thm := { s.thm with aRise := true, calmSince := none } }).alarmRise
  if a.thm.step < 4 then a.throttle 4 else a

/-- A rise of 1.5 °C/s or more that has lasted 2 s (R391): one step up. -/
def State.riseStep (s : State) (k : Nat) : State :=
  match (s.site k).riseFrom with
  | some t => if t + 2 * secNs ≤ s.now then s.stepUp else s
  | none => s

/-- The evaluation of r at a sample: the 1.5 °C/s window, the 5.0 °C/s alarm, and the calm period (R391, R393). -/
def State.riseEval (s : State) (k : Nat) : State :=
  let x := s.site k
  let s1 := (s.siteEdit k fun y => { y with riseFrom := if x.rising s.now 12 then some (y.riseFrom.getD s.now) else none }).riseStep k
  let s2 := if x.rising s.now 40 then s1.riseAlarm else s1
  let calm := !x.rising s.now 40 && !s2.thm.sites.any fun _ y => y.rising s.now 4
  { s2 with thm := { s2.thm with calmSince := if calm then some (s2.thm.calmSince.getD s.now) else none } }

/-! ### Floor, limits, THERM_N (R393, R394) -/

def floorOf (t : Int) : Nat := if degC 110 ≤ t then 7 else if degC 105 ≤ t then 4 else if degC 95 < t then 2 else 0

def State.floorEval (s : State) : State :=
  let hot := match s.composite with | some t => floorOf t | none => 0
  let blind := (List.range 8).any s.regionNone
  let f := if blind then max 2 hot else hot
  let old := s.thm.floor
  let lim := fun (s : State) (n : Nat) => if old < n ∧ n ≤ f then { s with thm := { s.thm with aLimit := true } }.fire 22 else s
  let s1 := lim (lim { s with thm := { s.thm with floor := f } } 4) 7
  if s1.thm.step < f then s1.throttle f else s1

def State.thermEval (s : State) : State :=
  let hot := s.composite.getD 0
  let cool := decide (hot < degC 110)
  let s1 := { s with thm := { s.thm with coolSince := if cool then some (s.thm.coolSince.getD s.now) else none } }
  if !s1.thm.thermN && decide (degC 120 ≤ hot) then
    { s1 with thm := { s1.thm with thermN := true, aTherm := true } }.fire 24
  else if s1.thm.thermN && (match s1.thm.coolSince with | some t => decide (t + secNs ≤ s.now) | none => false) then
    { s1 with thm := { s1.thm with thermN := false } }
  else s1

/-! ### Temperature Threshold (R72, R74) -/

/-- A reading in kelvin. -/
def kelvin (t : Int) : Nat := (t / 8 + 273).toNat

/-- Reading of a threshold's sensor: 0 the composite, k + 1 region k. -/
def State.sensorK (s : State) (k : Nat) : Option Nat :=
  (if k = 0 then s.composite else s.regionTemp (k - 1)).map kelvin

/-- A Temperature Threshold is crossed (Critical Warning bit 1). -/
def State.tempCrossed (s : State) : Bool :=
  (List.range 9).any fun k => match s.sensorK k with
    | some t => (match s.nvme.tempOver.look k with | some m => decide (m ≤ t) | none => false) ||
                (match s.nvme.tempUnder.look k with | some m => decide (t ≤ m) | none => false)
    | none => false

/-! ### Samples -/

/-- Less than 4 °C from a band edge or a limit: the site samples at 1 kHz (R387, R398). -/
def nearEdge (stop : Bool) (t : Int) : Bool :=
  ((if stop then [] else [0, 45]) ++ [75, 95, 105, 110, 120] : List Int).any fun e =>
    decide (degC e - t < degC 4) && decide (t - degC e < degC 4)

/-- The first reading of the last valid site of a region ends the band E of reset (R388); its taps come down as R44 says. -/
def State.firstBand (s : State) (r : Nat) : State :=
  match s.regionTemp r with
  | some t => s.bandSet r (bandOf t)
  | none => s

/-- Every valid site of a region has been read. -/
def State.allRead (s : State) (r : Nat) : Bool :=
  (s.validSites r).all fun j => if (s.site j).broken then (s.siteVal j).isSome else (s.site j).read

/-- Mark a site broken: the sensor event (R395). Region 7 depends on H12 and H13 too (R397). Where the site was the last of its
region not yet read, the region's first reading is now complete (R388). -/
def State.siteBreak (s : State) (k cause : Nat) : State :=
  let r := k / 2
  let s1 := ({ s with thm := { s.thm with aBroken := true } }.siteEdit k fun x => { x with broken := true, cause := cause }).fire 23
  let s2 := (s1.regionHold r).regionHold 7
  if !s.allRead r && s2.allRead r && !(s2.region r).held then s2.firstBand r else s2

/-- H14 or H15 is broken, and a sample of H12 or H13 moves the median that stands for it (R397). -/
def State.medianEval (s : State) (k : Nat) : State :=
  if k ≠ 12 ∧ k ≠ 13 then s
  else
    ([14, 15] : List Nat).foldl (fun (s : State) j =>
      match (if (s.site j).broken && s.allRead 7 && !(s.region 7).held then s.siteVal j else none) with
      | some v => (s.bandEval 7 j v).tapEval 7 j v
      | none => s) s

/-- The evaluations of a valid sample. -/
def State.sampleEval (s : State) (k : Nat) (first : Bool) : State :=
  let r := k / 2
  match s.siteVal k with
  | none => s
  | some v =>
    let s1 := if !s.allRead r || (s.region r).held then s
      else if first then (s.firstBand r).tapEval r k v
      else (s.bandEval r k v).tapEval r k v
    (((s1.medianEval k).riseEval k).floorEval).thermEval

/-- The raw reading of H14 or H15 differs from its median by more than 6 °C since when (R395, CAUSE 5). -/
def State.devFrom (s : State) (k : Nat) (raw : Int) : Option Nat :=
  match (if k = 14 ∨ k = 15 then s.siteVal k else none) with
  | some m => if degC 6 < raw - m ∨ degC 6 < m - raw then some ((s.site k).devFrom.getD s.now) else none
  | none => none

/-- A sample of a site that is not broken. -/
def State.siteSample (s : State) (k : Nat) (raw : Int) : State :=
  let first := !(s.site k).read
  let s1 := s.siteEdit k fun x => { x with temp := raw, read := true, fast := nearEdge s.inStop raw }
  let d := s1.devFrom k raw
  let s2 := s1.siteEdit k fun x => { x with
    devFrom := d
    hist := ((s.now, (s1.siteVal k).getD raw) :: x.hist).filter fun p => decide (s.now < p.1 + secNs * 5 / 4) }
  match d with
  | some t => if t + secNs ≤ s.now then s2.siteBreak k 5 else s2.sampleEval k first
  | none => s2.sampleEval k first

/-- HEATHER_SAMPLE (R387-R397): a site takes its raw reading and its bias check. -/
def execHeatherSample (site : Nat) (raw : Int) (bias : Bias) (s : State) : Host.Outcome State Fault Refusal :=
  if 16 ≤ site ∨ (s.site site).broken then .next s
  else
    let was := s.tempCrossed
    let c := s.breakCause site raw bias
    let s1 := if c ≠ 0 then ((s.siteBreak site c).floorEval) else s.siteSample site raw
    .next (if !was && s1.tempCrossed then s1.aenRaise 1 1 0x02 else s1)

/-- STEP_DOWN (R393): THM_CFG.DOWN seconds of calm have passed. -/
def execStepDown (s : State) : Host.Outcome State Fault Refusal :=
  if s.thm.calmSince.isSome ∧ s.thm.floor < s.thm.step ∧ s.thm.lastStepAt ≠ some s.now then
    .next { s with thm := { s.thm with step := s.thm.step - 1, calmSince := some s.now } }
  else .next s

/-- TAP_CHANGE (R44): at a gap between handshakes the domains of a region take the taps that are due. -/
def execTapChange (region : Nat) (s : State) : Host.Outcome State Fault Refusal :=
  if tapRegion region then .next { s with thm := { s.thm with taps := s.thm.taps.put region (s.thm.tapsDue.get region 4) } } else .next s

/-- REPLICA_PATH_FAILURE (R45): the handshake is stretched, counted, and a margin event raised. -/
def execReplicaPathFailure (region : Nat) (s : State) : Host.Outcome State Fault Refusal :=
  let n := satAdd 0xffffffff s.thm.marginCnt 1
  let _ := region
  .next ({ s with thm := { s.thm with marginCnt := n } }.fire 1 [n])

/-- EQUALISATION_REFRESH (R390): a port that is up pauses and refreshes its equaliser. -/
def execEqualisationRefresh (port : Nat) (s : State) : Host.Outcome State Fault Refusal :=
  if (s.cas.ports.get port {}).phase < 5 then .next s
  else .next (s.portEdit port fun p => { p with eqRefreshes := p.eqRefreshes + 1 })

end Sys2Proof.Machine
end

