-- ==== Sys2Proof/Machine/Reads.lean ====
section
/-! DEFINITION. The read path: where a unit lies (R126, R159, R203), the decision of a direct read (R233-R236), the
read-around and its tokens (R235, R237, R241), the retry ladder (R185, R186), reconstruction (R213, R214), and release
(R239, R240). -/

namespace Sys2Proof.Machine

open Sys2Proof

/-! ### Where a unit lies -/

/-- The page row of a unit: its row set, its tagged row, its place among the data positions, its role position and
slot; the die, block and page row that hold it, in SLC mode or not; and the pages of the row or entry it belongs to. -/
structure PageLoc where
  pl : Place
  row : Nat
  k : Nat
  pos : Nat
  slot : Nat
  die : Nat
  block : Nat
  page : Nat
  slc : Bool
  pages : List Pg
  deriving DecidableEq, Repr

/-- The row set, its tag and the unit's index there. -/
def RUnit.rowSet (r : RUnit) (unit : Nat) (lix : Option Nat) : Option (Place × Nat × Nat) :=
  match lix with
  | some i => r.lg.map fun p => (p, logTag, i)
  | none => match r.lgOld with
    | some (p, i) => some (p, logTag, i)
    | none => r.pl.map fun p => (p, 0, unit)

/-- An entry holds the unit with index `i` of a row. -/
def SlcEntry.covers (e : SlcEntry) (row i per : Nat) : Bool := e.live && e.row == row && decide (i % per < e.units)

/-- The content a read unit resolves to: zone, unit and position in a log row; its key draw, plaintext and metadata. -/
structure Known where
  kix : Nat
  plain : Nat
  md : Nat
  zk : Nat
  unit : Nat
  lix : Option Nat
  deriving DecidableEq, Repr

def Alt.known : Alt → Option Known
  | .stored k v m z u l => some { kix := k, plain := v, md := m, zk := z, unit := u, lix := l }
  | .staged _ k v m z u l => some { kix := k, plain := v, md := m, zk := z, unit := u, lix := l }
  | _ => none

def RUnit.known (r : RUnit) : Option Known := r.alts.head?.bind Alt.known

/-- The location in a row or entry whose pages are given, of the unit at `l` in the row set `p`. -/
def PageLoc.make (p : Place) (row : Nat) (l : Loc) (slc : Bool) (pages : List Pg) : Option PageLoc :=
  match p.dataPos[l.k]? with
  | none => none
  | some (pos, dk, b) =>
    match pages.find? fun g => g.pos == pos with
    | some g => some { pl := p, row := row, k := l.k, pos := pos, slot := l.slot, die := g.die, block := g.block, page := g.page, slc := slc, pages := pages }
    | none => some { pl := p, row := row, k := l.k, pos := pos, slot := l.slot, die := dk, block := b, page := l.row, slc := slc, pages := pages }

/-- Where a resolved unit lies in flash (R125, R159, R164): in its row once that is programmed, else in the SLC entry that
covers it: the zone's, the one a merge took over, or the one at its resolution. -/
def State.unitLoc (s : State) (r : RUnit) : Option PageLoc :=
  match r.known with
  | some ⟨_, _, _, zk, unit, lix⟩ =>
    match r.rowSet unit lix with
    | none => none
    | some (p, tag, i) =>
      let per := p.d * s.geom.u
      let l := locOf i p.d s.geom.u
      let row := tag + l.row
      let z := s.zone zk
      let cur := z.rowPlace tag == some p
      let entry := [if cur then z.slc else z.oldSlc, r.slc].findSome? fun e => match e with
        | some x => if x.covers row i per then some x else none
        | none => none
      match (if cur && z.rowsDone.contains row then none else entry) with
      | some e => PageLoc.make p row l true e.pages
      | none => PageLoc.make p row l false (s.rowPgs zk row p)
  | none => none

/-- The staging buffer that still holds a resolved unit (R126). -/
def State.stagedHit (s : State) (r : RUnit) : Option Nat :=
  match r.known with
  | some ⟨kix, v, md, zk, unit, _⟩ =>
    match s.staging.find? fun p => p.2.zone == zk && p.2.complete && p.2.kix == kix && decide (p.2.off ≤ unit) &&
        decide (unit < p.2.off + p.2.n) && ((p.2.data.look (unit - p.2.off)).map fun d => (d.plain, d.md)) == some (v, md) && !p.2.released.contains (unit - p.2.off) with
    | some p => p.2.bufs[(unit - p.2.off) / 4]?
    | none => none
  | none => none

/-- Lost positions of the row or entry a unit belongs to. -/
def State.locLost (s : State) (zk : Nat) (l : PageLoc) : List Nat := s.lostPos zk l.row l.slc l.pages

def RUnit.zoneOf (r : RUnit) : Nat := match r.known with | some k => k.zk | none => 0

/-! ### Estimates (R233) -/

/-- SUSP, RA, ESC and B of a class (R229, R246); class 2 has none. -/
def State.clsSusp (s : State) (k : Nat) : Bool := if k = 0 then s.lat.susp0 else if k = 1 then s.lat.susp1 else false
def State.clsRa (s : State) (k : Nat) : Bool := if k = 0 then s.lat.ra0 else if k = 1 then s.lat.ra1 else false
def State.clsEsc (s : State) (k : Nat) : Bool := if k = 0 then s.lat.esc0 else if k = 1 then s.lat.esc1 else false
/-- B in ns, 0 for none. -/
def State.clsBudget (s : State) (k : Nat) : Nat :=
  let b := if k = 0 then s.lat.budget0 else if k = 1 then s.lat.budget1 else 0
  if b = 0 then 0 else min 4000 (max 10 b) * 1000

def State.media (s : State) (f : Media → Nat) : Nat := match s.img with | some i => f i.media | none => 0

/-- Time estimate of a program or erase, in ns. -/
def State.opEst (s : State) (o : Op) : Nat :=
  if o.isErase then s.media (if o.slcMode then (·.tbersSlc) else (·.tbers)) * 10000
  else s.media (if o.slcMode then (·.tprogSlc) else (·.tprog)) * 1000

def State.opSuspLat (s : State) (o : Op) : Nat := s.media (if o.isErase then (·.tsErase) else (·.tsProg)) * 1000

/-- t_left of an operation. -/
def State.tLeft (s : State) (o : Op) : Nat := s.opEst o - (s.now - o.startAt - o.suspTime)

/-- One hard read, without the queue. -/
def State.tRead (s : State) : Nat := s.media (·.tread) * 100 + 2900

/-- Reads of a class or higher queued at a die, apart from one operation. -/
def State.readsQueued (s : State) (dk cls id : Nat) : Nat :=
  ((s.die dk).queue.filter fun k => k != id && (match s.fch.ops.look k with | some o => o.isRead && decide (o.cls ≤ cls) | none => false)).length

/-- Wait at a die for a helper of a class. -/
def State.dieWait (s : State) (dk cls : Nat) : Nat :=
  (match (s.die dk).running with
   | some k => (match s.fch.ops.look k with | some o => if o.isRead then 0 else s.tLeft o | none => 0)
   | none => 0) + s.tRead * s.readsQueued dk cls 0xffffffffffffffff

/-- Remaining budget of a unit. -/
def State.budgetLeft (s : State) (cls : Nat) (r : RUnit) : Int := (s.clsBudget cls : Int) - ((s.now - r.entered : Nat) : Int)

def State.latCount (s : State) (k : Nat) : State :=
  { s with lat := { s.lat with stats := s.lat.stats.upd k 0 (satAdd (2 ^ 64 - 1) · 1) } }

/-! ### Suspend, tokens -/

def State.opEdit (s : State) (id : Nat) (f : Op → Op) : State := { s with fch := { s.fch with ops := s.fch.ops.edit id f } }

def State.chn (s : State) (c : Nat) : Chn := s.fch.chans.get c {}
def State.chnEdit (s : State) (c : Nat) (f : Chn → Chn) : State := { s with fch := { s.fch with chans := s.fch.chans.upd c {} f } }

/-- Ask for the suspend of the operation a die is at work on (R174, R231). -/
def State.suspendAsk (s : State) (dk id : Nat) : State :=
  ((s.dieEdit dk fun d => { d with suspending := true }).opEdit id fun o => { o with suspends := o.suspends + 1 }).chnEdit
    (dieChannel (dkDie dk)) fun c => { c with suspends := satAdd 0xffff c.suspends 1 }

/-- Bucket size in thousandths (R237). -/
def State.raFull (s : State) : Nat := max 1 s.lat.raDepth * 1000

def State.raAllow (s : State) (o : Nat) : Nat :=
  if o < 1024 then (s.slice o).raAllow else match s.img with | some i => i.pfRaAllow | none => 0

def State.tokensOf (s : State) (o : Nat) : Nat := s.lat.tokens.get o 0

/-- A direct page read is issued: the bucket gains RA_ALLOW (R237). -/
def State.tokenEarn (s : State) (o : Nat) : State :=
  { s with lat := { s.lat with tokens := s.lat.tokens.upd o 0 fun t => min s.raFull (t + s.raAllow o) } }

/-! ### Read-around and reconstruction -/

def State.runit (s : State) (c u : Nat) : Option RUnit := match s.ctxs.look c with | some x => x.runits.look u | none => none

def State.runitEdit (s : State) (c u : Nat) (f : RUnit → RUnit) : State :=
  s.ctxEdit c fun x => { x with runits := x.runits.edit u f }

/-- Take units of the system read pool for helpers; `none` while it has no room (R262, R264). -/
def State.lendRoom (s : State) (n : Nat) : Bool := decide (s.rdHeld 1024 + s.rdHeld 1025 + n ≤ 512)

/-- The helper set of a unit: role positions with their dies and blocks, and whether P is left out (R235). -/
def State.helperSet (s : State) (r : RUnit) (l : PageLoc) (cls : Nat) : Option (List Pg × Bool) :=
  let lost := s.locLost r.zoneOf l
  let all := (List.range 16).filter fun i => i != l.pos && !lost.contains i
  let blockAt := fun (i : Nat) => l.pages.find? fun g => g.pos == i
  if all.length < 14 then none
  else
    let worst := all.foldl (fun (m : Option (Nat × Nat)) i => match blockAt i with
      | some g =>
        let w := s.dieWait g.die cls
        (match m with | some (v, _) => if v ≤ w then some (w, i) else m | none => some (w, i))
      | none => m) none
    let out := if all.length = 15 then (match worst with | some (_, i) => some i | none => none) else none
    let set := all.filter fun i => out != some i
    some (set.filterMap blockAt, !set.contains 0)

/-- Queue the helper reads of a group of units of one page; the group's first unit names them. -/
def State.helpersQueue (s : State) (c owner cls : Nat) (us : List Nat) (l : PageLoc) (set : List Pg) : State :=
  match us with
  | [] => s
  | u :: _ =>
    set.foldl (fun s g =>
      let o : Op := { die := g.die, block := g.block, row := g.page, kind := .helper c u, owner := owner, cls := cls, seq := 0, left := us
                      slcMode := l.slc, pos := g.pos
                      ent := match s.runit c u with | some r => r.entered | none => s.now, hint := (s.blk (blkKey g.die g.block)).hint }
      s.opQueue o) s

/-- Units of the command that share a direct read. -/
def State.groupOf (s : State) (c : Nat) (r : RUnit) (u : Nat) : List Nat :=
  match r.op, s.ctxs.look c with
  | some id, some x => x.runits.keysWhere fun _ q => q.op == some id && q.st == .queued
  | _, _ => [u]

/-- Order 4 of R234: start a read-around for the page of a unit, if it may. The answer says whether it did. -/
def State.aroundTry (s : State) (c u cls owner : Nat) : Bool × State :=
  match s.runit c u with
  | none => (false, s)
  | some r =>
    match s.unitLoc r with
    | none => (false, s)
    | some l =>
      let us := s.groupOf c r u
      match (if s.clsRa cls && s.raAllow owner != 0 && s.lendRoom (14 * us.length) then s.helperSet r l cls else none) with
      | none => (false, s)
      | some (set, pOut) =>
        if s.tokensOf owner < 1000 then
          let s1 := s.latCount 6
          (false, if owner < 1024 then s1.sliceEdit owner fun x => { x with raDenied := satAdd 0xffffffff x.raDenied 1 }
                  else { s1 with lat := { s1.lat with pfDenied := satAdd 0xffffffff s1.lat.pfDenied 1 } })
        else
          let s1 := ({ s with lat := { s.lat with tokens := s.lat.tokens.upd owner 0 (· - 1000) } }).latCount 3
          let s2 := if owner < 1024 then s1.sliceEdit owner fun x => { x with raStarted := satAdd 0xffffffff x.raStarted 1 }
                    else { s1 with lat := { s1.lat with pfStarted := satAdd 0xffffffff s1.lat.pfStarted 1 } }
          let s3 := us.foldl (fun s v => (s.rdTake 1025 14).runitEdit c v fun q =>
            { q with around := true, helpers := set.length, lent := 14, pOut := pOut }) s2
          (true, s3.helpersQueue c owner cls us l set)

/-! ### The decision (R234, R236) -/

/-- The unit by which a shared read is decided: the first that still needs it and has no read-around, else the one that
queued it (R228, R234). -/
def State.judged (s : State) (o : Op) (c u : Nat) : Nat :=
  ((o.left.find? fun v => match s.runit c v with | some r => r.st == .queued && !r.around | none => false).getD u)

/-- Decide a queued read; `ra` tries order 4. DESIGN CHOICE: a die whose suspend has been asked for and is not yet complete
counts as one that holds a suspended operation (order 1); the table of R234 does not name that state. -/
def State.decideWith (s : State) (id : Nat) (ra : State → Bool × State) : State :=
  match s.fch.ops.look id with
  | none => s
  | some o =>
    let dr : Option (Nat × Nat × Bool) := match o.kind with | .direct c u => some (c, s.judged o c u, true) | .helper c u => some (c, u, false) | _ => none
    match dr with
    | none => s
    | some (c, u, direct) =>
      let d := s.die o.die
      let count := fun (s : State) k => if direct then s.latCount k else s
      match s.runit c u, (if d.suspended.isSome || d.suspending then none else d.running.bind fun k => (s.fch.ops.look k).map fun p => (k, p)) with
      | some r, some (k, p) =>
        if p.isRead then count s 0
        else
          let tl := s.tLeft p
          let trd := s.tRead * (1 + s.readsQueued o.die o.cls id)
          let ts := s.opSuspLat p
          let rem := s.budgetLeft o.cls r
          let may := s.clsSusp o.cls && p.suspends < s.media (·.suspMax) && ts < tl
          if s.clsBudget o.cls = 0 ∨ ((tl + trd : Nat) : Int) ≤ rem then count s 1
          else if may = true ∧ ((ts + trd : Nat) : Int) ≤ rem then (s.suspendAsk o.die k).latCount 2
          else
            let a := if r.around then (false, s) else ra s
            if a.1 then a.2
            else if may then (a.2.suspendAsk o.die k).latCount 2
            else count a.2 1
      | _, _ => count s 0

/-- A helper read is decided under orders 1, 2, 3, 5 and 6 (R236). -/
def State.helperDecide (s : State) (id : Nat) : State := s.decideWith id fun s => (false, s)

/-- Start a read-around and decide its helper reads. -/
def State.aroundRun (s : State) (c u cls owner : Nat) : Bool × State :=
  let old := s.fch.opNext
  let r := s.aroundTry c u cls owner
  if r.1 then (true, forNats ((List.range (r.2.fch.opNext - old)).map (old + ·)) r.2 State.helperDecide) else r

/-- Decide a queued direct read (R234). -/
def State.directDecide (s : State) (id : Nat) : State :=
  match s.fch.ops.look id with
  | some o => (match o.kind with
    | .direct c u => s.decideWith id fun s => s.aroundRun c (s.judged o c u) o.cls o.owner
    | _ => s)
  | none => s

/-- The die has started or resumed a program or erase: its waiting direct reads are decided again (R234), except those
decided at order 4. -/
def State.decideAgain (s : State) (dk : Nat) : State :=
  forNats ((s.die dk).queue.filter fun k => match s.fch.ops.look k with
    | some o => (match o.kind with
      | .direct c u => (match s.runit c (s.judged o c u) with | some r => r.st == .queued && !r.around | none => false)
      | _ => false)
    | none => false) s State.directDecide

/-! ### Reads that a member serves (R329) -/

/-- The queue number of the contexts in which a member serves the crown's reads; no host queue has it. -/
def memberQ : Nat := 1023

/-- A unit of 4,104 bytes: its 4,096 content bytes and its 8 metadata bytes. -/
def unitWord (content md : Nat) : Nat := content % 2 ^ 32768 + md % 2 ^ 64 * 2 ^ 32768

/-- Ciphertext and metadata of a released unit, as READ_DATA carries them. -/
def State.unitBits (s : State) (r : RUnit) : Nat × Nat :=
  let v := match r.made, r.known with
    | some bits, _ => bits
    | none, some k => cipherOf k.kix (zIndex k.zk * s.zsze + k.unit) (zNsid k.zk) k.plain k.md
    | none, none => 0
  (v % 2 ^ 32768, bitsAt v 32768 64)

/-- A member answers a read of the crown with the unit that has been released, or says that it cannot be: DESIGN CHOICE, the spec
gives READ_DATA no form for the second. -/
def State.memberReply (s : State) (c : Nat) (ok : Bool) : State :=
  match s.ctxs.look c with
  | none => s
  | some x =>
    if x.q ≠ memberQ then s
    else
      let v := match (if ok then s.runit c 0 else none) with | some r => s.unitBits r | none => (0, 0)
      let s1 := s.readStop c
      { s1 with ctxs := s1.ctxs.del c }.casSend 0 2 0x31 4112 [x.seqNo, x.zone, x.units, if ok then 1 else 0, v.1, v.2]

/-- The context serves a read of the crown. -/
def State.serves (s : State) (c : Nat) : Bool := match s.ctxs.look c with | some x => x.q == memberQ | none => false

/-! ### Failure -/

/-- The command ends with Unrecovered Read Error (R187). -/
def State.unrecovered (s : State) (c u : Nat) : State :=
  let loc := (s.runit c u).bind s.unitLoc
  let s1 := match loc with
    | some l => (s.blkEdit (blkKey l.die l.block) fun b => { b with retire := if b.retire = 0 then 3 else b.retire }).chnEdit
        (dieChannel (dkDie l.die)) fun k => { k with uncorr := satAdd 0xffff k.uncorr 1 }
    | none => s
  let s2 := ({ s1 with nvme := { s1.nvme with mediaErrors := s1.nvme.mediaErrors + 1 } }).fire 167
  if s.serves c then s2.memberReply c false
  else ((s2.readStop c).ctxEdit c fun x => { x with failed := true }).finish c stUnrecovered

/-- A class 0 read met a condition outside the latency bound (R244). -/
def State.condParity (s : State) (cls : Nat) : State :=
  if cls = 0 then { s with lat := { s.lat with condParity := true } } else s

/-- The positions that a reconstruction of the unit goes without: lost ones, and sources whose ladder failed (R213). -/
def State.recLost (s : State) (r : RUnit) (l : PageLoc) : List Nat :=
  (List.range 16).filter fun i => (s.locLost r.zoneOf l).contains i || r.srcLost.contains i

/-- Reconstruction of a unit with full ladders for its sources (R185 step 10, R213, R218): it waits for buffers. -/
def State.recStart (s : State) (c u cls owner : Nat) : State :=
  match s.runit c u with
  | none => s
  | some r =>
    match s.unitLoc r with
    | none => s.unrecovered c u
    | some l =>
      let lost := s.recLost r l
      match recSources l.pages lost l.pos with
      | none => s.unrecovered c u
      | some (set, pOut) =>
        let s0 := if lost = [] then s else s.condParity cls
        if !s0.lendRoom set.length then (s0.rungWait 5).runitEdit c u fun q => { q with st := .waiting, recon := true, op := none }
        else
          let s1 := (s0.rdTake 1025 set.length).runitEdit c u fun q =>
            { q with st := .queued, recon := true, helpers := set.length, lent := q.lent + set.length, pOut := pOut, op := none }
          s1.helpersQueue c owner cls [u] l set

/-- A unit no longer needs an operation: the operation is withdrawn once no unit needs it (R240). -/
def State.opUnitGone (s : State) (u id : Nat) : State :=
  match s.fch.ops.look id with
  | none => s
  | some o =>
    let l := o.left.filter (· != u)
    let r := o.retry.filter (· != u)
    let s1 := s.opEdit id fun o => { o with left := l, retry := r }
    if l = [] ∧ r = [] then s1.opDrop id else s1

/-- The helper reads of a unit are withdrawn and the buffers lent to it return, those of a read that its die is at work on when
that ends (R240, R241). -/
def State.helpersGone (s : State) (c u : Nat) : State :=
  let ids := s.fch.ops.keysWhere fun _ o => (match o.kind with | .helper c' _ => c' == c | _ => false) && (o.left ++ o.retry).contains u
  let kept := ids.countP fun id => s.opKeeps id != 0
  let s1 := forNats ids s fun s id => (s.opLend id (min 1 (s.opKeeps id))).opUnitGone u id
  match s1.runit c u with
  | some r => (s1.rdGive 1025 (r.lent - kept)).runitEdit c u fun q => { q with lent := 0, helpers := 0 }
  | none => s1

/-- The read-around of a unit fails; a direct path at the end of its ladder goes to step 10 (R241). -/
def State.aroundFail (s : State) (c u cls owner : Nat) : State :=
  let s1 := (s.helpersGone c u).runitEdit c u fun q => { q with aroundFailed := true }
  match s1.runit c u with
  | some r => if 10 ≤ r.ladder then s1.recStart c u cls owner else s1
  | none => s1

/-- The direct path of a unit has no further hard or soft step: step 10 (R185, R241). -/
def State.step10 (s : State) (c u cls owner : Nat) : State :=
  match s.runit c u with
  | some r =>
    let s1 := s.runitEdit c u fun q => { q with ladder := 10, op := none }
    if r.around && !r.aroundFailed then s1 else s1.recStart c u cls owner
  | none => s

/-! ### Release (R239, R240) -/

/-- A codeword is released at a ladder step: HINT, the step count, and RETIRE for step 9 (R186, R187). -/
def State.noteStep (s : State) (bk step : Nat) (hint : Option Nat) : State :=
  let s1 := { s with fch := { s.fch with ladder := s.fch.ladder.upd step 0 (satAdd (2 ^ 64 - 1) · 1) } }
  s1.blkEdit bk fun b => { b with
    hint := hint.getD b.hint, retire := if 9 ≤ step ∧ b.retire = 0 then 3 else b.retire }

/-- Put a released unit behind the release fence (R260). -/
def relTag (c u : Nat) : Nat := c * 512 + u

/-- A unit is released: `around` says by its read-around or reconstruction. -/
def State.unitRelease (s : State) (c u : Nat) (around : Bool) : State :=
  match s.runit c u with
  | none => s
  | some r =>
    let s1 := if !r.around then s else if !around then s.latCount 5 else if r.recon then s else s.latCount 4
    let s2 := s1.helpersGone c u
    let s3 := if around then (match r.op with | some id => s2.opUnitGone u id | none => s2) else s2
    let s4 := s3.runitEdit c u fun q => { q with st := .ready, op := none, around := false, recon := false }
    if s.serves c then s4.memberReply c true
    else { s4 with dma := { s4.dma with fences := s4.dma.fences ++ [(2, relTag c u)] } }

/-! ### The ladder (R185) -/

/-- Shift index of a hard read: HINT at step 0, then the others in ascending order. -/
def shiftOf (hint step : Nat) : Nat :=
  if step = 0 then hint else ((List.range 8).filter (· != hint)).getD (step - 1) 0

/-- Array reads of a step. -/
def stepReads (step : Nat) : Nat := if step = 8 then 3 else if step = 9 then 2 else 1

/-! ### Read thresholds (R184) -/

/-- Bin of an age in seconds. -/
def ageBin (secs : Nat) : Nat := if secs < 3600 then 0 else min 15 (log2Up (secs / 3600 + 1) 16 0)

/-- Bin of a mean temperature held as °C + 64. -/
def ptBin (tp : Nat) : Nat := if tp < 89 then 0 else if tp < 114 then 1 else if tp < 139 then 2 else 3

/-- Cell mode of a block as the tables index it: 0 SLC, 1 TLC, 2 QLC; and its read levels. -/
def State.cellMode (s : State) (slc : Bool) : Nat := if slc then 0 else if s.geom.ratio = 4 then 2 else 1
def readLevels (mode : Nat) : Nat := if mode = 0 then 1 else if mode = 1 then 7 else 15

/-- The bins of a block (R184): age, ec, pt, band. -/
def State.thrBins (s : State) (dk b : Nat) : Nat × Nat × Nat × Nat :=
  let x := s.blk (blkKey dk b)
  let age := s.fch.mediaTime - (if x.ptClose = 0 then x.ptOpen else x.ptClose)
  let reg := if dieChannel (dkDie dk) < 16 then 1 else 2
  (ageBin age, min 7 (x.erases * 8 / max 1 (s.media (·.rated))), ptBin x.tpMean, (s.thm.regions.get reg {}).band)

/-- The threshold vector V, one offset per read level, each sum clamped to the die's range. -/
def State.thrVector (s : State) (dk b : Nat) (slc : Bool) : List Int :=
  let m := s.cellMode slc
  let n := s.thrBins dk b
  (List.range (readLevels m)).map fun l =>
    max Config.thrMin (min Config.thrMax (Config.thrBase m n.1 n.2.1 l + Config.thrXt m n.2.2.1 n.2.2.2 l))

/-- The offsets of an array read (R184, R185): V plus the shift vector of its step, and for steps 8 and 9 the deltas, the
reads of a step taken in the order S[b], + and -. -/
def State.readOffsets (s : State) (o : Op) : List Int :=
  let best := match o.kind with
    | .direct c _ | .helper c _ => match o.left.head?.bind fun u => (s.runit c u).bind (·.best) with | some b => b.2 | none => o.hint
    | _ => o.hint
  let ix := if o.step < 8 then shiftOf o.hint o.step else best
  let k : Int := if o.step < 8 then 0 else if o.step = 8 then (if o.reads = 3 then 0 else if o.reads = 2 then 1 else -1)
    else if o.reads = 2 then 2 else -2
  let v := s.thrVector o.die o.block o.slcMode
  ((List.range v.length).zip v).map fun p => p.2 + Config.thrShift ix p.1 + k * Config.thrDelta

/-- An operation whose step is decoded for every unit ends, or reads again for those that need the next step. -/
def State.opStep (s : State) (id : Nat) : State :=
  match s.fch.ops.look id with
  | none => s
  | some o =>
    if o.left ≠ [] then s
    else if o.retry = [] then s.opEnd id
    else
      (s.opEdit id fun o => { o with
        retried := false
        left := o.retry, retry := [], step := o.step + 1, reads := stepReads (o.step + 1), transferred := false }).dieEdit o.die
        fun d => { d with queue := d.queue ++ [id] }

end Sys2Proof.Machine
end

