-- ==== Sys2Proof/Machine/Media.lean ====
section
/-! DEFINITION. The media scheduler: units entering it (R228, R234), a die's next choice (R230-R232), and the ends of
reads, decodes, reconstructions and suspends (R174, R177, R179, R185, R214). -/

namespace Sys2Proof.Machine

open Sys2Proof

/-! ### A unit enters -/

/-- Units of a read that hold one of its read-pool units (R263). -/
def Ctx.unitsHeld (x : Ctx) : Nat := x.runits.count fun _ r => r.st == .queued || (r.st == .ready && r.hold.isNone)

/-- The read whose units the scheduler takes: committed, and neither failed nor decided. -/
def Ctx.reading (x : Ctx) : Bool := x.e.opc == 2 && x.committed && !x.failed && x.phase == .stamped

/-- A direct read of the command that already waits for the unit's page (R228). -/
def State.pageShare (s : State) (c : Nat) (l : PageLoc) : Option Nat :=
  (s.fch.ops.find? fun p => match p.2.kind with
    | .direct c' u' => c' == c && p.2.die == l.die && p.2.block == l.block && p.2.row == l.page && p.2.step == 0 &&
        (s.die l.die).queue.contains p.1 &&
        (match (s.runit c u').bind s.unitLoc with | some m => m.slot / s.geom.c == l.slot / s.geom.c | none => false)
    | _ => false).map (·.1)

/-- Queue the direct read of a unit, or join the one of its page, and decide it. -/
def State.unitDirect (s : State) (c u : Nat) (l : PageLoc) (cls owner : Nat) : State :=
  let hint := (s.blk (blkKey l.die l.block)).hint
  match s.pageShare c l with
  | some id =>
    (s.opEdit id fun o => { o with left := o.left ++ [u] }).runitEdit c u fun q =>
      { q with st := .queued, op := some id, hint0 := hint }
  | none =>
    let id := s.fch.opNext
    let o : Op := { die := l.die, block := l.block, row := l.page, kind := .direct c u, owner := owner, cls := cls
                    seq := 0, slcMode := l.slc, left := [u]
                    ent := match s.runit c u with | some r => r.entered | none => s.now, hint := hint }
    ((s.opQueue o).runitEdit c u fun q => { q with st := .queued, op := some id, hint0 := hint }).directDecide id

/-- A resolved unit is served: zeros and staged units at once, others by a direct read, by reconstruction when their
position is lost (R218), or by the member that holds the zone (R329). -/
def State.unitEnter (s : State) (c u : Nat) (x : Ctx) (r : RUnit) : State :=
  let o := qOwner x.q
  let cls := x.cls
  match r.alts.head?, r.known with
  | some .zeros, _ => (s.runitEdit c u fun q => { q with st := .ready }).memberReply c true
  | some .lost, _ => s.unrecovered c u
  | _, some ⟨_, _, _, zk, unit, _⟩ =>
    if r.recon then s.recStart c u cls o
    else
      match s.stagedHit r with
      | some b => ((s.bufHold b).runitEdit c u fun q => { q with st := .ready, hold := some b }).memberReply c true
      | none =>
        match s.unitLoc r with
        | none => (s.runitEdit c u fun q => { q with st := .ready }).memberReply c true
        | some l =>
          let s0 := s
          if l.pl.chip ≠ 0 then
            (s0.casSend (portOf l.pl.chip) 0 0x30 16 [c * 512 + u, zk, unit, 4096]).runitEdit c u fun q => { q with st := .queued }
          else if (s.locLost zk l).contains l.pos then (s0.condParity cls).recStart c u cls o
          else (if l.pages.any fun g => !s.dieGood g.die then s0.condParity cls else s0).unitDirect c u l cls o
  | _, none => s

/-- UNIT_ENTERS_SCHEDULER: a unit whose write has not finished staging waits (R126), and so does one without a free
read-pool unit (R263). -/
def execUnitEntersScheduler (ctx unit : Nat) (s : State) : Host.Outcome State Fault Refusal :=
  match s.ctxs.look ctx with
  | none => .next s
  | some x =>
    match x.runits.look unit with
    | none => .next s
    | some r =>
      let hit := (s.stagedHit r).isSome
      if !x.reading || r.st != .waiting || (!hit && decide (x.readDraw ≤ x.unitsHeld)) then .next s
      else .next (s.unitEnter ctx unit x r)

/-! ### A die's next choice -/

/-- Weighted round robin (R230). DESIGN CHOICE: the spec names the weights and no order; an owner keeps the turn for WEIGHT
operations in a run while it has work, and the turn then goes to the next higher owner number, wrapping round. -/
def wrrPick (ops : List (Nat × Nat)) (cur left : Nat) (weight : Nat → Nat) : Option (Nat × Nat × Nat) :=
  match (if left = 0 then none else ops.find? fun p => p.2 == cur) with
  | some p => some (p.1, cur, left - 1)
  | none =>
    let owners := ops.map (·.2)
    let above := owners.filter fun o => decide (cur < o)
    match (if above = [] then owners else above) with
    | [] => none
    | a :: t =>
      let o := t.foldl min a
      (ops.find? fun p => p.2 == o).map fun p => (p.1, o, weight o - 1)

/-- Duty cap of a throttle step, in percent (R392). -/
def dutyCap (step : Nat) : Nat := [100, 50, 40, 30, 25, 20, 15, 10].getD step 10

/-- LAT_DUTY.MAX as it acts (R246), or the throttle's cap when lower. -/
def State.dutyLimit (s : State) : Nat := min (min 100 (max 30 s.lat.dutyMax)) (dutyCap s.thm.step)

/-- A die holds programs and erases back (R232, R392). -/
def State.dutyHeld (s : State) (dk : Nat) : Bool := s.dutyLimit < 100 && s.dutyLimit ≤ (s.die dk).dutyPct

/-- No operation, and no read not yet released, names the block (R151, R240). -/
def State.blockIdle (s : State) (dk b id : Nat) : Bool :=
  !(s.fch.ops.any fun k o => k != id && o.die == dk && o.block == b && o.isRead) &&
  !(s.ctxs.any fun _ x => x.runits.any fun _ r => (r.st == .waiting || r.st == .queued) &&
      (match s.unitLoc r with | some l => l.die == dk && l.block == b | none => false)) &&
  (s.nvme.saniErase.contains (blkKey dk b) || !s.zones.any fun _ z => z.slcOn dk b || (z.merging != 0 &&
      ([z.oldData, z.oldLog, z.migOld].any fun p => match p with | some x => x.pos.contains (dk, some b) | none => false)) ||
      z.copying.any fun c => c.block == b && c.die == dk)

/-- Rebuild and migration copies (item 5 of R230, R220); merges and replacements are PF work. -/
def Op.isCopy (o : Op) : Bool :=
  o.owner == 1025 && match o.kind with | .progCopy _ | .progRebuild _ _ _ _ | .src _ _ => true | _ => false

/-- The read of a list whose unit entered the scheduler first (R230, item for class 0). -/
def firstIn (l : List (Nat × Op)) : Option (Nat × Op) :=
  l.foldl (fun (r : Option (Nat × Op)) p => match r with
    | some q => if p.2.ent < q.2.ent then some p else some q
    | none => some p) none

/-- What is read for a copy of a row has been read, and stands behind the copy fence (R260). -/
def State.copyStands (s : State) (z row : Nat) : Bool := !s.srcBusy z row && !s.dma.fences.contains (3, z)

/-- The operation may start now. -/
def State.opReady (s : State) (dk id : Nat) (o : Op) : Bool :=
  if o.isRead then true
  else if s.dutyHeld dk then false
  else match o.kind with
    | .erase => s.blockIdle dk o.block id
    | .prog z row _ =>
      !(s.fch.ops.any fun _ q => q.die == dk && q.block == o.block && (match q.kind with | .progRepl _ _ _ => true | _ => false)) &&
      !(s.dma.fences.contains (0, accKey z row 0)) && !(s.dma.fences.contains (1, accKey z row 0)) && s.copyStands z row
    | .progCopy z => !(s.staging.any fun _ t => t.zone == z && t.merged && !t.complete) && !(s.dma.fences.contains (3, z)) &&
      !(s.fch.ops.any fun _ q => !q.withdrawn && match q.kind with | .src y _ => y == z | _ => false)
    | .progRebuild z row _ _ | .progRepl z row _ => s.copyStands z row
    | .progSlc z _ => (match (s.zone z).slcNew with | some e => !(s.dma.fences.contains (0, accKey z e.row 0)) | none => true)
    | _ => true

/-- Start an operation of the queue; a read is issued with the offsets of R184; a program on a block not yet erased starts the erase instead (R151). -/
def State.opStart (s : State) (dk id : Nat) : State :=
  match s.fch.ops.look id with
  | none => s
  | some o =>
    let bk := blkKey dk o.block
    if !o.isRead && !o.isErase && (s.blk bk).unerased && o.kind != .progZero then
      if s.blockIdle dk o.block id then
        let e : Op := { die := dk, block := o.block, kind := .erase, owner := o.owner, seq := s.fch.opNext, slcMode := o.slcMode, startAt := s.now }
        let k := s.fch.opNext
        (({ s with fch := { s.fch with ops := s.fch.ops.put k e, opNext := k + 1 } }).dieEdit dk fun d =>
          { d with running := some k }).decideAgain dk
      else s
    else
      let s1 := (s.opEdit id fun o => { o with startAt := s.now, suspTime := 0 }).dieEdit dk fun d =>
        { d with queue := d.queue.filter (· != id), running := some id
                 readsSince := if o.isRead && d.suspended.isSome then d.readsSince + 1 else d.readsSince }
      match o.kind with
      | .direct _ _ => (s1.opEdit id fun o => { o with offs := s.readOffsets o }).tokenEarn o.owner
      | .helper _ _ => s1.opEdit id fun o => { o with offs := s.readOffsets o }
      | .erase => s1.decideAgain dk
      | _ => (s1.flits (dramPort 0) (groupPort (dieChannel (dkDie dk))) (s.geom.u * unitFlits)).decideAgain dk

/-- Resume the suspended operation of a die. -/
def State.opResume (s : State) (dk id : Nat) : State :=
  let s1 := (s.opEdit id fun o => { o with suspTime := o.suspTime + (s.now - o.suspAt) }).dieEdit dk fun d =>
    { d with running := some id, suspended := none, readsSince := 0 }
  s1.decideAgain dk

/-- SHARE as it acts (R227). -/
def State.shareOf (s : State) : Nat := min 100 (max 5 s.par.share)

/-- DIE_NEXT_CHOICE: a die that can start an operation takes the first applicable item of R230. -/
def execDieNextChoice (die : Nat) (s : State) : Host.Outcome State Fault Refusal :=
  let d := s.die die
  if !s.dieGood die || d.running.isSome || s.inStop then .next s
  else
    let ops := d.queue.filterMap fun id => (s.fch.ops.look id).map fun o => (id, o)
    let reads := fun (k : Nat) => ops.filter fun p => p.2.isRead && p.2.cls == k
    let owners := fun (l : List (Nat × Op)) => l.map fun p => (p.1, if p.2.owner = 1025 then 1024 else p.2.owner)
    let burst := max 1 s.lat.rdBurst
    match d.suspended, (if d.readsSince < burst then none else d.suspended), firstIn (reads 0) with
    | _, some id, _ => .next (s.opResume die id)
    | _, none, some p => .next (s.opStart die p.1)
    | sus, none, none =>
      match wrrPick (owners (reads 1)) d.wrrOwner d.wrrLeft s.weightOf with
      | some (id, o, n) => .next ((s.dieEdit die fun d => { d with wrrOwner := o, wrrLeft := n }).opStart die id)
      | none =>
        match sus with
        | some id => .next (s.opResume die id)
        | none =>
          match (ops.filter fun p => p.2.isCopy && s.opReady die p.1 p.2 && decide (d.sharePct < s.shareOf)).head? with
          | some p => .next (s.opStart die p.1)
          | none =>
            match wrrPick (owners (ops.filter fun p => (!p.2.isRead || p.2.cls == 2) && !p.2.isCopy && s.opReady die p.1 p.2))
                d.wrr6Owner d.wrr6Left s.weightOf with
            | some (id, o, n) => .next ((s.dieEdit die fun d => { d with wrr6Owner := o, wrr6Left := n }).opStart die id)
            | none => .next s

/-- DUTY_EVALUATION: the trailing busy time of a die is taken (R232, R244). -/
def execDutyEvaluation (die pct sharePct : Nat) (s : State) : Host.Outcome State Fault Refusal :=
  let s1 := s.dieEdit die fun d => { d with dutyPct := pct, sharePct := sharePct }
  let best := s1.dies.foldl (fun (m : Nat × Nat) p => if m.2 < p.2.dutyPct ∧ dkChip p.1 = 0 then (p.1, p.2.dutyPct) else m) (0, 0)
  .next { s1 with lat := { s1.lat with
    dutyDie := dkDie best.1, dutyPct := best.2, condDuty := s1.lat.condDuty || decide (60 < pct) } }

/-! ### Reads end -/

/-- The die is free of an operation that has ended; its busy time is charged to the owner of its data (R345). -/
def State.dieIdle (s : State) (dk id : Nat) : State :=
  let s0 := match s.fch.ops.look id with
    | some o => s.tally o.owner fun t => { t with die := t.die + (s.now - o.startAt - o.suspTime) }
    | none => s
  s0.dieEdit dk fun d => { d with
    running := if d.running = some id then none else d.running, suspending := if d.running = some id then false else d.suspending }

/-- Flits of a raw codeword, its share of the page and the spare area (R178). -/
def State.rawFlits (s : State) : Nat := flitsOf ((s.media (·.page) * 1024 + s.media (·.spare)) / max 1 s.geom.c)

/-- PAGE_READ_COMPLETE: the array read ends and its codewords go to the decoders (R185); a step of several reads goes
on with the next. -/
def execPageReadComplete (op : Nat) (s : State) : Host.Outcome State Fault Refusal :=
  match s.fch.ops.look op with
  | none => .next s
  | some o =>
    if !o.isRead || (s.die o.die).running != some op then .next s
    else
      let s1 := s.dieIdle o.die op
      if o.withdrawn then .next (s1.opEnd op)
      else if 1 < o.reads then
        .next ((s1.opEdit op fun o => { o with reads := o.reads - 1, retried := false }).dieEdit o.die fun d => { d with queue := op :: d.queue })
      else
        let ch := dieChannel (dkDie o.die)
        .next ((s1.opEdit op fun o => { o with transferred := true, retried := false }).flits (groupPort ch) (ldpcPort ch)
          (o.left.length * s.rawFlits))

/-- A codeword of a direct read passes or goes on up the ladder (R179, R185). DESIGN CHOICE: of two steps with the same lowest
syndrome weight the one read first is b; the spec does not break that tie. -/
def State.directDecoded (s : State) (id : Nat) (o : Op) (c u : Nat) (zero crc tag : Bool) (weight : Nat) : State :=
  match s.runit c u with
  | none => s
  | some r =>
    if r.st ≠ .queued then s
    else if zero && crc && tag then
      let h := if o.step < 8 then shiftOf r.hint0 o.step else (match r.best with | some b => b.2 | none => r.hint0)
      (s.noteStep (blkKey o.die o.block) o.step (some h)).unitRelease c u false
    else if (zero && crc && !tag) || 9 ≤ o.step then s.step10 c u o.cls o.owner
    else
      let s1 := (s.opEdit id fun o => { o with retry := o.retry ++ [u] }).runitEdit c u fun q => { q with
        ladder := o.step + 1
        best := if 8 ≤ o.step then q.best else
          (match q.best with | some b => if weight < b.1 then some (weight, shiftOf q.hint0 o.step) else some b
                             | none => some (weight, shiftOf q.hint0 o.step)) }
      if o.step = 0 ∧ s.clsEsc o.cls ∧ s.budgetLeft o.cls r < (s.tRead : Int) ∧ !r.around then
        let a := s1.aroundRun c u o.cls o.owner
        if a.1 then a.2.latCount 7 else a.2
      else s1

/-- A codeword of a helper or source read (R185, R236, R241): `wrong` says that only its TAG failed, which ends its ladder
(R179). A source that its whole ladder does not release is a further lost position (R213). -/
def State.helperDecoded (s : State) (id : Nat) (o : Op) (c u : Nat) (pass wrong : Bool) : State :=
  match s.runit c u with
  | none => s
  | some r =>
    if pass then (s.noteStep (blkKey o.die o.block) o.step none).runitEdit c u fun q => { q with helpers := q.helpers - 1 }
    else
      let lim := if r.recon then 9 else 7
      if o.step < lim ∧ !wrong then s.opEdit id fun o => { o with retry := o.retry ++ [u] }
      else
        let s1 := s.condParity o.cls
        if r.recon then
          ((s1.helpersGone c u).runitEdit c u fun q => { q with srcLost := o.pos :: q.srcLost }).recStart c u o.cls o.owner
        else s1.aroundFail c u o.cls o.owner

/-- The row set, the pages and the mode of a row that a copy reads: the old rows while a merge or a migration is copied. -/
def State.srcSet (s : State) (zk row : Nat) (slc : Bool) : Option (Place × List Pg) :=
  let z := s.zone zk
  let p := if z.copied then (if tagOf row = 0 then z.oldData else z.oldLog) else z.rowPlace (tagOf row)
  match p, (if z.copied then z.oldSlc else z.slc) with
  | some p, some e => some (p, if slc then e.pages else s.rowPgs zk row p)
  | some p, none => some (p, s.rowPgs zk row p)
  | none, _ => none

/-- A page that a copy reads is not released by its ladder: it is recovered from the rest of its row, or the media event of its
loss is stamped (R190, R217, R219). -/
def State.srcFail (s : State) (o : Op) (zk row : Nat) : State :=
  if (s.zone zk).unread.contains (row, o.pos) then s
  else
    let s1 := s.zoneEdit zk fun z => { z with unread := z.unread ++ [(row, o.pos)] }
    match s1.srcSet zk row o.slcMode with
    | none => s1
    | some (_, pages) =>
      match recSources pages (s1.srcLost zk row o.slcMode pages) o.pos with
      | some (l, _) => s1.srcQueue zk row o.owner o.slcMode l
      | none => if s1.canStamp then s1.enterSys (.pageLost zk row o.pos) else s1

/-- A codeword of a page that a copy reads: it climbs the ladder up to step 9 (R185). -/
def State.srcDecoded (s : State) (id : Nat) (o : Op) (zk row u : Nat) (pass wrong : Bool) : State :=
  if pass then s.noteStep (blkKey o.die o.block) o.step none
  else if o.step < 9 ∧ !wrong then s.opEdit id fun o => { o with retry := o.retry ++ [u] }
  else s.srcFail o zk row

/-- The codewords of the reconstructed unit, and whether the relation of R214 holds over its slot; the relation is not asked
when P is lost. -/
def State.unitMade (s : State) (r : RUnit) : Option (Codeword × Bool) :=
  match s.unitLoc r with
  | none => none
  | some l =>
    let lost := s.recLost r l
    (s.remake r.zoneOf l.row l.pl l.pages lost l.pos l.slot).map fun w =>
      (w, r.pOut || lost.contains 0 || s.relationHolds r.zoneOf l.row l.pl l.pages lost l.pos l.slot)

/-- RECONSTRUCTION_DONE: the unit is recovered (R213), and released if every source was, and the CRC relation holds where P is
among them (R214): `relationOk` says so of the codewords as decoded, `State.unitMade` of what the pages hold. -/
def execReconstructionDone (ctx unit : Nat) (sourcesOk relationOk : Bool) (s : State) : Host.Outcome State Fault Refusal :=
  match s.ctxs.look ctx, s.runit ctx unit with
  | some x, some r =>
    if r.st != .queued || !(r.recon || (r.around && !r.aroundFailed)) || r.helpers != 0 then .next s
    else
      let o := qOwner x.q
      match (if sourcesOk && (relationOk || r.pOut) then s.unitMade r else none) with
      | some (w, true) =>
        let s1 := match s.unitLoc r with
          | some l => if 10 ≤ r.ladder then s.noteStep (blkKey l.die l.block) 10 none else s
          | none => s
        .next ((s1.runitEdit ctx unit fun q => { q with made := some w.bits }).unitRelease ctx unit true)
      | _ => if r.recon then .next (s.unrecovered ctx unit) else .next (s.aroundFail ctx unit x.cls o)
  | _, _ => .next s

/-- SUSPEND_COMPLETE: status shows the LUN ready (R174). -/
def execSuspendComplete (die : Nat) (s : State) : Host.Outcome State Fault Refusal :=
  let d := s.die die
  match (if d.suspending then d.running else none) with
  | none => .next s
  | some id => .next ((s.dieEdit die fun d => { d with suspending := false, running := none, suspended := some id, readsSince := 0 }).opEdit id
      fun o => { o with suspAt := s.now })

end Sys2Proof.Machine
end

