-- ==== Sys2Proof/Machine/Admit.lean ====
section
/-! DEFINITION. The admission gate (R114-R119): which entry the gate takes, the checks in order, and what a stamped
I/O command charges. -/

namespace Sys2Proof.Machine

open Sys2Proof

/-- The gate takes a fetched entry: in queue order, not from a frozen queue, an ordered one alone (R117, R119, R120, R135). -/
def State.gateTurn (s : State) (c : Nat) (x : Ctx) : Bool :=
  x.phase == .fetched && !s.gate.stopped && !s.qFrozen x.q &&
  !s.ctxs.any fun k y => k != c && y.q == x.q && decide (y.seqNo < x.seqNo) && (y.phase == .fetched || x.e.ord)

/-- The queue's owner is a FROZEN slice (check 1). -/
def State.ownerFrozen (s : State) (q : Nat) : Bool :=
  decide (1024 ≤ q) && (s.slice (qOwner q)).st == .frozen

/-- One range lies inside the namespace and inside one zone (check 10). -/
def State.inZone (s : State) (nsze lba n : Nat) : Bool :=
  n == 0 || (decide (lba + n ≤ nsze) && lba / s.zsze == (lba + n - 1) / s.zsze)

/-- Zone Send actions of R69: Close, Finish, Open, Reset, Offline. -/
def zsaOk (a : Nat) : Bool := decide (1 ≤ a) && decide (a ≤ 5)

/-- Check 3 and the required fields of R69 and R504. -/
def ioFieldsOk (e : SqEntry) (pi : Bool) : Bool :=
  e.fuse == 0 && e.psdt != 2 && bitsAt e.cdw2.toNat 2 30 == 0 && bitsAt e.cdw13.toNat 16 8 == 0
  && (!e.tokv || e.opc == 0x7d) && (!e.isBlock || e.prinfo == 0 || pi)
  && (e.opc != 9 || e.ad) && (e.opc != 0x79 || zsaOk e.zsa)
  && (e.opc != 0x7a || (e.zsa == 0 && (zrasFilter e.zras).isSome))

/-- Checks 3 to 14 of R114 for an I/O command: the first that fails, with its order number. -/
def State.ioChecks (s : State) (q : Nat) (e : SqEntry) (ranges : List DsmRange) : Option (Status × Nat) :=
  let o := qOwner q
  let ns := s.nss.look e.nsid
  let pi := match ns with | some n => n.lbaf1 && n.pi | none => false
  if !ioFieldsOk e pi then some (stInvField, 3)
  else
    match ns with
    | none => some (stInvNs, 4)
    | some n =>
      let z := e.slba / s.zsze
      let zmsOne := e.opc == 0x79 && !e.selAll
      if !(n.attached && n.owner == o && n.deleting.isNone) then some (stInvNs, 4)
      else if s.nvme.sani == 1 then some (stSanitize, 5)
      else if !s.gate.ioOk then some (stNotReady, 6)
      else if e.isBlock && decide (512 < e.n) then some (stInvField, 7)
      else if e.opc == 0x7a && !(decide (4096 ≤ e.zmrDwords * 4) && decide (e.zmrDwords * 4 ≤ 2097152)) then some (stInvField, 7)
      else
        match (if e.bytes = 0 then none else e.dptrFault e.bytes (n.lbaf1 && e.isBlock)) with
        | some st => some (st, 8)
        | none =>
          if (e.isBlock || zmsOne) && decide (n.nsze ≤ e.slba) then some (stLbaRange, 9)
          else if e.opc == 9 && (ranges.any fun r => decide (n.nsze ≤ r.slba)) then some (stLbaRange, 9)
          else if e.isBlock && !s.inZone n.nsze e.slba e.n then some (stRangeCrosses, 10)
          else if e.opc == 9 && (ranges.any fun r => !s.inZone n.nsze r.slba r.nlb) then some (stRangeCrosses, 10)
          else if (e.opc == 0x7d || zmsOne) && e.slba % s.zsze != 0 then some (stInvField, 11)
          else if (e.opc == 0x7d || zmsOne) && decide (z < n.conv) then some (stZoneOp, 12)
          else if e.isWrite && (if o < 1024 then (s.slice o).handles.getD e.phnd 0xf == 0xf else e.phnd != 0) then some (stFence, 13)
          else if e.isWrite && decide (o < 1024) && (s.slice o).quotaWrite != 0
              && decide ((s.slice o).quotaWrite < ((s.slice o).written + e.n) * 4096) then some (stRangeCrosses, 14)
          else if e.isWrite && !s.keyRoom o e.n then some (stKeyLimit, 14)
          else none

/-- Units a Read draws, or the unit a report uses (R263). -/
def State.readUnits (s : State) (o : Nat) (e : SqEntry) : Nat :=
  if e.opc = 2 then min e.n (min 128 (s.rdGrant o)) else if e.opc = 0x7a then 1 else 0

/-- Staging buffers a write draws (R263). -/
def stageBufs (e : SqEntry) : Nat := if e.isWrite then ceilDiv e.n 4 else 0

/-- Checks 15 and 16. -/
def State.resChecks (s : State) (q : Nat) (e : SqEntry) : Option (Status × Nat) :=
  let o := qOwner q
  if s.rdGrant o < s.rdHeld o + s.readUnits o e then some (stPoolEmpty, 15)
  else if o = 1024 ∧ 512 < s.rdHeld 1024 + s.rdHeld 1025 + s.readUnits o e then some (stPoolEmpty, 15)
  else if e.isWrite && decide (s.stgGrant o < s.stgHeld o + stageBufs e) then some (stPoolEmpty, 15)
  else if e.isWrite ∧ o = 1024 ∧ s.stgGrant 1025 < s.stgHeld 1024 + s.stgHeld 1025 + stageBufs e then some (stPoolEmpty, 15)
  else if e.isWrite && !s.dirtyRoom e.n then some (stDirtyBudget, 16)
  else none

/-- A pool refusal is counted (R272). -/
def State.countEmpty (s : State) (q : Nat) (e : SqEntry) (f : Status × Nat) : State :=
  if f.2 = 15 then
    let o := qOwner q
    if e.isWrite then { s with bpm := { s.bpm with emptyStg := s.bpm.emptyStg.upd o 0 (satAdd 0xffffffff · 1) } }
    else { s with bpm := { s.bpm with emptyRd := s.bpm.emptyRd.upd o 0 (satAdd 0xffffffff · 1) } }
  else s

/-- A Key Rotate of the owner, or a zeroize, waits at the key stage: its later writes are not yet taken (R38, R310, R311). -/
def State.rotatePending (s : State) (o : Nat) : Bool :=
  s.gate.entries.any fun _ x => (x.kind == .keyRotE && x.owner == o) || x.sys == some .zeroize

/-- What a stamped command draws and is charged (R115, R263, R305, R377). -/
def State.charge (s : State) (c : Nat) (x : Ctx) : State :=
  let o := qOwner x.q
  if x.e.isWrite then
    let r := drawBufs o (stageBufs x.e) s.bpm.bufs
    let gen := (s.keyOwner o).cur
    let z := x.e.slba / s.zsze
    let st : Staged := { ctx := c, owner := o, zone := zkey x.e.nsid z, off := x.e.slba % s.zsze, n := x.e.n, bufs := r.1
                         gen := gen, kix := s.keyIx o gen }
    let s1 := { s with bpm := { s.bpm with bufs := r.2, cacheDram := s.bpm.cacheDram - r.1.length }, staging := s.staging.put s.gate.next st }
    (((s1.quotaAdd o x.e.n).dirtyAdd x.e.n).keyCharge o x.e.n).ctxEdit c fun y => { y with units := x.e.n, bufs := r.1 }
  else
    let w := s.readUnits o x.e
    (s.rdTake o w).ctxEdit c fun y => { y with readDraw := w, units := if x.e.opc = 2 then x.e.n else 0 }

/-- Zones a Select All covers: every sequential zone of the namespace. -/
def State.seqZones (s : State) (nsid : Nat) : List Nat := s.zones.keysWhere fun k z => zNsid k == nsid && !z.conv

/-- The entry of an I/O command. -/
def State.ioEntry (s : State) (c : Nat) (x : Ctx) (kind : EKind) (ranges : List DsmRange) : Entry :=
  let e := x.e
  let o := qOwner x.q
  let zk := zkey e.nsid (e.slba / s.zsze)
  let rs := ranges.filterMap fun r => if r.nlb = 0 then none else some (zkey e.nsid (r.slba / s.zsze), r.slba % s.zsze, r.nlb)
  { kind := kind, ctx := c, owner := o, nsid := e.nsid
    scopes := match kind with
      | .flushE | .zmrE => [nsScope e.nsid]
      | .dsmE | .sanDsmE => (rs.map (·.1)).eraseDups
      | .openE | .closeE | .finishE | .resetE | .sanResetE | .offlineE => if e.selAll then s.seqZones e.nsid else [zk]
      | _ => [zk]
    off := e.slba % s.zsze, n := if e.isBlock then e.n else 0
    fence := if e.isWrite then s.fenceOf o e.phnd else if kind = .openE then s.fenceOf o 0 else 0
    token := if e.tokv then some e.token else none
    all := kind ≠ .flushE && e.opc == 0x79 && e.selAll
    ranges := rs }

/-- The gate takes an I/O command of a row (R114): `row` says that the entry is the row's, `kind` its entry. An entry
that is no row's (an opcode or a Send action that R69 does not list) is refused through any row. -/
def State.admitIo (s : State) (c : Nat) (row : SqEntry → Bool) (kind : EKind) (ranges : List DsmRange) : State :=
  match s.ctxs.look c with
  | none => s
  | some x =>
    let mine := row x.e || !ioOpcode x.e.opc || (x.e.opc == 0x79 && !zsaOk x.e.zsa)
    if x.q = 0 || !mine || !s.gateTurn c x then s
    else if s.exhausted then s.finish c stInternal
    else if x.abortMark then s.finish c stAbortReq
    else if s.ownerFrozen x.q then s.finish c stSliceFrozen 0 0 1
    else if !ioOpcode x.e.opc then s.finish c stInvOpcode 0 0 2
    else
      match s.ioChecks x.q x.e ranges with
      | some f => s.finish c f.1 0 0 f.2
      | none =>
        if x.e.isWrite && s.rotatePending (qOwner x.q) then s
        else
          match s.resChecks x.q x.e with
          | some f => (s.countEmpty x.q x.e f).finish c f.1 0 0 f.2
          | none =>
            if !s.canStamp then s
            else
              let e := s.ioEntry c x kind ranges
              if e.scopes = [] then
                ((s.drawStamp).ctxEdit c fun y => { y with phase := .stamped, stamped := true, stamp := s.gate.next }).finish c stOk
              else (s.charge c x).enter e

/-! ### Admin commands -/

/-- Admin opcodes of R65 and R66. -/
def adminOpcode (o : Nat) : Bool :=
  [0x00, 0x01, 0x02, 0x04, 0x05, 0x06, 0x08, 0x09, 0x0a, 0x0c, 0x0d, 0x10, 0x11, 0x15, 0x18, 0x84,
   0xc1, 0xc4, 0xc5, 0xc8, 0xc9, 0xca, 0xce, 0xd2].contains o

/-- A Yeldezon admin command has NSID 0 and every unlisted dword bit 0 (R66): CDW2, CDW3 and the masks of CDW10-CDW15. -/
def vendorOk (e : SqEntry) (m10 m11 m12 m13 m14 m15 : Nat) : Bool :=
  e.nsid == 0 && e.cdw2 == 0 && e.cdw3 == 0
  && (e.cdw10 &&& ~~~BitVec.ofNat 32 m10) == 0 && (e.cdw11 &&& ~~~BitVec.ofNat 32 m11) == 0
  && (e.cdw12 &&& ~~~BitVec.ofNat 32 m12) == 0 && (e.cdw13 &&& ~~~BitVec.ofNat 32 m13) == 0
  && (e.cdw14 &&& ~~~BitVec.ofNat 32 m14) == 0 && (e.cdw15 &&& ~~~BitVec.ofNat 32 m15) == 0

/-- The gate takes an admin command of a row: checks 2 and 3 in their admin form, then `body`, which refuses before the
stamp or performs the command (R114). -/
def State.admitAdmin (s : State) (c : Nat) (row : SqEntry → Bool) (body : State → Ctx → State) : State :=
  match s.ctxs.look c with
  | none => s
  | some x =>
    if x.q != 0 || !(row x.e || !adminOpcode x.e.opc) || !s.gateTurn c x then s
    else if s.exhausted then s.finish c stInternal
    else if x.abortMark then s.finish c stAbortReq
    else if !adminOpcode x.e.opc then s.finish c stInvOpcode 0 0 2
    else if x.e.fuse != 0 || decide (2 ≤ x.e.psdt) then s.finish c stInvField 0 0 3
    else if !s.canStamp then s
    else body s x

/-- Stamp an admin command whose effect is at its stamp. -/
def State.stampCtx (s : State) (c : Nat) : State :=
  (s.drawStamp).ctxEdit c fun y => { y with phase := .stamped, stamped := true, stamp := s.gate.next }

/-- Stamp and complete at once. -/
def State.adminDone (s : State) (c : Nat) (st : Status) (dw0 : Dword := 0) : State := (s.stampCtx c).finish c st dw0

end Sys2Proof.Machine
end

