-- ==== Sys2Proof/Machine/Queues.lean ====
section
/-! DEFINITION. Queues: the PF queue commands (R65, R500), doorbells (R85, R102, R501), slice queue pairs (R102, R139),
submission fetch (R26, R84, R88, R119) and completion posting (R24, R79, R86, R121, R135). -/

namespace Sys2Proof.Machine

open Sys2Proof

/-! ### PF queue commands (R500) -/

def qidOf (e : SqEntry) : Nat := bitsAt e.cdw10.toNat 0 16
def qsizeOf (e : SqEntry) : Nat := bitsAt e.cdw10.toNat 16 16

/-- Checks of Create I/O Completion Queue (R65, R500). -/
def State.createCqCheck (s : State) (e : SqEntry) : Option Status :=
  let q := qidOf e
  let iv := bitsAt e.cdw11.toNat 16 16
  if !e.cdw11.getLsbD 0 then some stInvField
  else if q = 0 ∨ s.pfCount < q ∨ s.cqs.has q then some stQid
  else if qsizeOf e = 0 ∨ 0xfff < qsizeOf e then some stQsize
  else if e.cdw11.getLsbD 1 ∧ s.pfCount < iv then some stIntVector
  else if e.dptr0.toNat % 4096 ≠ 0 then some stPrpOffset
  else none

/-- Create I/O Completion Queue (R500). -/
def execCreateIoCq (ctx : Nat) (s : State) : Host.Outcome State Fault Refusal :=
  .next (s.admitAdmin ctx (fun e => e.opc == 0x05) fun s x =>
    match s.createCqCheck x.e with
    | some st => s.finish ctx st
    | none =>
      let c : Cq := { base := x.e.dptr0, size := qsizeOf x.e, ien := x.e.cdw11.getLsbD 1, iv := bitsAt x.e.cdw11.toNat 16 16 }
      ({ s with cqs := s.cqs.put (qidOf x.e) c }).adminDone ctx stOk)

/-- Checks of Create I/O Submission Queue (R65, R500). -/
def State.createSqCheck (s : State) (e : SqEntry) : Option Status :=
  let q := qidOf e
  let cq := bitsAt e.cdw11.toNat 16 16
  if !e.cdw11.getLsbD 0 then some stInvField
  else if q = 0 ∨ s.pfCount < q ∨ s.sqs.has q then some stQid
  else if qsizeOf e = 0 ∨ 0xfff < qsizeOf e then some stQsize
  else if cq = 0 ∨ 1024 ≤ cq ∨ !s.cqs.has cq then some stCqInvalid
  else if e.dptr0.toNat % 4096 ≠ 0 then some stPrpOffset
  else none

/-- Create I/O Submission Queue (R500); its strict mode is the feature's default (R72, R135). -/
def execCreateIoSq (ctx : Nat) (s : State) : Host.Outcome State Fault Refusal :=
  .next (s.admitAdmin ctx (fun e => e.opc == 0x01) fun s x =>
    match s.createSqCheck x.e with
    | some st => s.finish ctx st
    | none =>
      let y : Sq := { base := x.e.dptr0, size := qsizeOf x.e, cq := bitsAt x.e.cdw11.toNat 16 16
                      en := true, enabled := true, strict := s.nvme.strictDef }
      ({ s with sqs := s.sqs.put (qidOf x.e) y, qrecs := s.qrecs.del (qidOf x.e) }).adminDone ctx stOk)

/-- Complete the commands of a queue that are fetched and not stamped, clear its freeze and its record (R139). -/
def State.flushHeld (s : State) (q : Nat) : State :=
  let cs := s.ctxs.keysWhere fun _ x => x.q == q && x.phase == .fetched
  let s1 := { s with sqs := s.sqs.edit q (fun x => { x with frozen := false, frozenSeen := false }), qrecs := s.qrecs.del q }
  forNats cs s1 fun s c => s.finishHeld c stSqDeletion

/-- A queue whose deletion has been stamped is gone once its commands have posted. -/
def State.sqGone (s : State) (ctx q : Nat) : State :=
  if s.ctxs.any fun _ y => y.q == q then s else ({ s with sqs := s.sqs.del q }).finish ctx stOk

/-- Delete I/O Submission Queue (R139, R500): at its stamp fetching stops and unstamped commands are completed; the command
completes once the queue's other commands have posted, which the command shows when it comes again. -/
def execDeleteIoSq (ctx : Nat) (s : State) : Host.Outcome State Fault Refusal :=
  match s.ctxs.look ctx with
  | none => .next s
  | some x =>
    if x.phase = .stamped ∧ x.q = 0 ∧ x.e.opc = 0 then .next (s.sqGone ctx (qidOf x.e))
    else .next (s.admitAdmin ctx (fun e => e.opc == 0x00) fun s x =>
      let q := qidOf x.e
      if q = 0 ∨ 1024 ≤ q ∨ !s.sqs.has q then s.finish ctx stQid
      else (({ s.stampCtx ctx with sqs := s.sqs.edit q fun y => { y with en := false } }).flushHeld q).sqGone ctx q)

/-- Delete I/O Completion Queue (R500). -/
def execDeleteIoCq (ctx : Nat) (s : State) : Host.Outcome State Fault Refusal :=
  .next (s.admitAdmin ctx (fun e => e.opc == 0x04) fun s x =>
    let q := qidOf x.e
    if q = 0 ∨ 1024 ≤ q ∨ !s.cqs.has q then s.finish ctx stQid
    else if s.sqs.any fun k y => decide (k < 1024) && y.cq == q then s.finish ctx stQdelete
    else ({ s with cqs := s.cqs.del q }).adminDone ctx stOk)

/-! ### Doorbells -/

/-- An invalid BAR0 doorbell write is reported once until the Error Information page is read (R501). -/
def State.doorbellError (s : State) (info : Nat) : State :=
  if s.nvme.dbErr then s else ({ s with nvme := { s.nvme with dbErr := true } }).aenRaise 0 info 0x01

/-- Entries from `a` forward to `b` on a ring of `n`. -/
def ringDist (a b n : Nat) : Nat := (b + n - a) % n

/-- A tail doorbell is acted on: the entries it makes visible are noted with its arrival (R243). -/
def Sq.ring (x : Sq) (value now : Nat) : Sq :=
  { x with tail := value, bells := x.bells ++ [(ringDist x.tail value (x.size + 1), now)] }

/-- The doorbell that made the next entry visible: its arrival, and the entries left. -/
def popBell : List (Nat × Nat) → Nat → Nat × List (Nat × Nat)
  | [], now => (now, [])
  | (0, _) :: t, now => popBell t now
  | (n + 1, at_) :: t, _ => (at_, (n, at_) :: t)

/-- PF submission queue tail doorbell (R501). -/
def execPfSqDoorbell (qid value : Nat) (s : State) : Host.Outcome State Fault Refusal :=
  match (if qid < 1024 then s.sqs.look qid else none) with
  | none => .next (s.doorbellError 0)
  | some x =>
    let n := x.size + 1
    if x.size < value ∨ value = x.tail ∨ n - 1 - ringDist x.head x.tail n < ringDist x.tail value n then .next (s.doorbellError 1)
    else .next { s with sqs := s.sqs.put qid (x.ring value s.now) }

/-- PF completion queue head doorbell (R501). -/
def execPfCqDoorbell (qid value : Nat) (s : State) : Host.Outcome State Fault Refusal :=
  match (if qid < 1024 then s.cqs.look qid else none) with
  | none => .next (s.doorbellError 0)
  | some x =>
    let n := x.size + 1
    if x.size < value ∨ value = x.head ∨ ringDist x.head x.tail n < ringDist x.head value n then .next (s.doorbellError 1)
    else .next { s with cqs := s.cqs.put qid { x with head := value } }

/-- The page of a slice answers this PASID (R59, R81). -/
def State.pageOk (s : State) (i : Nat) (p : Option Nat) : Bool :=
  let x := s.slice i
  x.st != .none && x.st != .destroying && p == some x.pasid

/-- A BAR4 request that fails the PASID check (R59, R80): latched once, counted, an isolation event. -/
def State.bar4Fail (s : State) (i : Nat) (p : Option Nat) (write : Bool) (off : Nat) : State :=
  let v := 2 ^ 63 + (if p.isSome then 2 ^ 62 else 0) + (if write then 2 ^ 61 else 0) + i * 2 ^ 42 + p.getD 0 * 2 ^ 22 + off
  let reg := if s.pci.faultReg.getLsbD 63 then s.pci.faultReg else BitVec.ofNat 64 v
  ({ s with pci := { s.pci with faultReg := reg, faultCnt := satAdd 0xffffffff s.pci.faultCnt 1 } }).fire 3 [reg.toNat]

/-- A tenant register write: it acts only when the page answers its PASID. -/
def State.tenantWrite (s : State) (i : Nat) (p : Option Nat) (off : Nat) (f : State → State) : State :=
  if s.pageOk i p then f s else s.bar4Fail i p true off

/-- BAR4_PASID_CHECK_FAILURE (R59): a failed read answers all ones. -/
def execBar4CheckFailure (slice : Nat) (pasid : Option Nat) (isWrite : Bool) (offset : Nat) (s : State) :
    Host.Outcome State Fault Refusal :=
  if s.pageOk slice pasid then .next s
  else
    let s1 := s.bar4Fail slice pasid isWrite offset
    .next (if isWrite then s1 else s1.say (.readReply slice true))

/-- SLC_DB_SQ (R85, R102). -/
def execSlcDbSq (slice : Nat) (pasid : Option Nat) (q value : Nat) (s : State) : Host.Outcome State Fault Refusal :=
  .next (s.tenantWrite slice pasid (8 * q) fun s =>
    let k := sliceQ slice q
    match s.sqs.look k with
    | some x => if !x.en ∨ x.size < value then s.notice slice 0x09 q value
                else { s with sqs := s.sqs.put k (x.ring value s.now) }
    | none => s.notice slice 0x09 q value)

/-- SLC_DB_CQ (R85, R102). -/
def execSlcDbCq (slice : Nat) (pasid : Option Nat) (q value : Nat) (s : State) : Host.Outcome State Fault Refusal :=
  .next (s.tenantWrite slice pasid (8 * q + 4) fun s =>
    let k := sliceQ slice q
    match s.sqs.look k with
    | some x => if !x.enabled ∨ x.size < value then s.notice slice 0x09 q value
                else { s with cqs := s.cqs.edit k fun c => { c with head := value } }
    | none => s.notice slice 0x09 q value)

/-! ### Queue pairs (R101, R102) -/

/-- The fields of an SLC_QCTL write. -/
def qctlSize (v : Dword) : Nat := bitsAt v.toNat 0 12
def qctlIv (v : Dword) : Nat := bitsAt v.toNat 16 6

/-- ENERR of an enable (R101): the first reason in the order 4, 5, 1, 2, 3. -/
def State.enErr (s : State) (i q : Nat) (x : Sq) (v : Dword) : Nat :=
  let y := s.slice i
  if y.st ≠ .active then 4
  else if x.enabled then 5
  else if y.qpairs ≤ q then 1
  else if qctlSize v = 0 then 2
  else if y.vecCount ≤ qctlIv v then 3
  else 0

/-- Store the fields of SLC_QCTL other than EN. DESIGN CHOICE: a pair that still drains keeps the size, vector and mode it
was enabled with, whatever is written meanwhile (R102 does not say); the written fields act at the next enable. -/
def State.qctlFields (s : State) (k : Nat) (v : Dword) : State :=
  { s with sqs := s.sqs.upd k {} fun x => { x with ctl := v &&& 0x603f0fff, cq := k } }

/-- Offset of SLC_QCTL_q in the slice page. -/
def qctlOff (q : Nat) : Nat := 0x1010 + 32 * q

/-- A write of EN = 1 to SLC_QCTL_q (R102). -/
def execQueuePairEnable (slice : Nat) (pasid : Option Nat) (q : Nat) (v : Dword) (s : State) : Host.Outcome State Fault Refusal :=
  .next (s.tenantWrite slice pasid (qctlOff q) fun s =>
    let k := sliceQ slice q
    let x := s.sqs.get k {}
    if x.en then s
    else
      let err := s.enErr slice q x v
      let s1 := s.qctlFields k v
      if err ≠ 0 then { s1 with sqs := s1.sqs.edit k fun x => { x with enerr := err } }
      else
        { s1 with
          sqs := s1.sqs.edit k (fun x => { x with
            en := true, enabled := true, enerr := 0, head := 0, tail := 0, frozen := false, frozenSeen := false, bells := []
            strict := v.getLsbD 30, size := qctlSize v })
          cqs := s1.cqs.upd k {} (fun x => { x with
            head := 0, tail := 0, phase := true, ien := v.getLsbD 29, iv := qctlIv v, size := qctlSize v })
          qrecs := s1.qrecs.del k })

/-- A write of EN = 0 to SLC_QCTL_q (R102, R139). -/
def execQueuePairDisable (slice : Nat) (pasid : Option Nat) (q : Nat) (v : Dword) (s : State) : Host.Outcome State Fault Refusal :=
  .next (s.tenantWrite slice pasid (qctlOff q) fun s =>
    let k := sliceQ slice q
    let x := s.sqs.get k {}
    let s1 := if x.en then { s with sqs := s.sqs.edit k fun x => { x with en := false } } else s.qctlFields k v
    let s2 := if x.frozen then s1.flushHeld k else s1
    s2.drainCheck k)

/-! ### Submission fetch -/

/-- Free contexts of the shared part (R88). -/
def State.sharedFree (s : State) : Nat :=
  64512 - s.slices.sum fun i x => if x.st = .none then 0 else max x.ctxReserve (s.ctxHeld i)

/-- The owner may take one more context (R26, R87, R88). -/
def State.ctxRoom (s : State) (o : Nat) : Bool :=
  decide (s.ctxs.length < 65536) &&
  (if o < 1024 then
    let x := s.slice o
    let h := s.ctxHeld o
    decide (h < x.ctxReserve) || (decide (h < x.ctxLimit) && decide (0 < s.sharedFree))
  else decide (s.ctxHeld 1024 < 1024))

/-- The channel of an owner is halted (R255): channel s for slice s, 1,024 for the PF. -/
def State.chanHalted (s : State) (o : Nat) : Bool := match s.dma.chans.look o with | some c => c.halted | none => false

/-- The queue engine may fetch from a queue, once a context is free (R84, R119, R135, R255). -/
def State.mayAsk (s : State) (q : Nat) (x : Sq) : Bool :=
  let o := qOwner q
  x.en && x.head != x.tail && !x.frozen && s.linkUp && !s.inStop && s.pci.bme && !s.chanHalted o
  && s.gate.adminOk && !s.gate.stopped
  && (if o < 1024 then (s.slice o).st == .active else s.nvme.cc.getLsbD 0 && s.nvme.rdy && !s.nvme.shutDone)
  && !s.ctxs.any fun _ y => y.q == q && decide (q ≠ 0) && y.e.ord

/-- The queue engine may fetch from a queue now (R26). -/
def State.mayFetch (s : State) (q : Nat) (x : Sq) : Bool := s.mayAsk q x && s.ctxRoom (qOwner q)

/-- SUBMISSION_FETCH: an entry enters a free command context, or waits for one at rung 6 of the drain ladder (R26, R266). -/
def execSubmissionFetch (q : Nat) (e : SqEntry) (s : State) : Host.Outcome State Fault Refusal :=
  match s.sqs.look q with
  | none => .next s
  | some x =>
    if !s.mayFetch q x then .next (if s.mayAsk q x then s.rungWait 6 else s)
    else
      let b := popBell x.bells s.now
      let y : Ctx := { q := q, e := e, slot := x.head, seqNo := s.gate.seqNo, bellAt := b.1 }
      let c := s.ctxs.freeFrom 0
      .next { s.flits swathIn (sramPort c) entryFlits with
        ctxs := s.ctxs.put c y
        gate := { s.gate with seqNo := s.gate.seqNo + 1 }
        sqs := s.sqs.put q { x with head := (if x.head = x.size then 0 else x.head + 1), bells := b.2 } }

/-! ### Completion posting -/

/-- Completion queue of a submission queue. -/
def State.cqOf (s : State) (q : Nat) : Nat := match s.sqs.look q with | some x => x.cq | none => q

def Cq.full (c : Cq) : Bool := (if c.tail = c.size then 0 else c.tail + 1) == c.head

/-- The Error Information log (R73, R136): newest first, 256 entries. -/
def State.errAdd (s : State) (x : Ctx) (st : Status) : State :=
  if st = stOk then s
  else
    let r : ErrRec := { count := s.nvme.errCount + 1, sqid := qIndex x.q, cid := x.e.cid, status := st
                        lba := if x.e.isBlock || x.e.opc == 0x79 || x.e.opc == 0x7a then x.e.slba else 0, nsid := x.e.nsid
                        slice := if 1024 ≤ x.q then qOwner x.q else 0 }
    { s with nvme := { s.nvme with errCount := s.nvme.errCount + 1, errLog := (r :: s.nvme.errLog).take 256 } }

/-- The entry of the queue error record (R137). -/
def qEntryOf (x : Ctx) (dw3 : Dword) : QEntry :=
  let blk := x.e.isBlock || x.e.opc == 0x79 || x.e.opc == 0x7a
  { cid := x.e.cid, opc := x.e.opc, flags := (if x.stamped then 1 else 0) + (if x.begun then 2 else 0), dw3 := dw3
    stamp := x.stamp, slba := if blk then x.e.slba else 0, nlb := if x.e.isBlock then x.e.n - 1 else 0
    check := x.check, dw0 := x.dw0 }

/-- An entry joins a queue error record, whose first seven are kept (R137). -/
def QRec.add (r : QRec) (l : List QEntry) : QRec :=
  { r with entries := l.take 7, overflow := r.overflow || decide (7 < l.length) }

/-- A failing completion on a frozen queue (R135, R137): the one that froze the queue makes the freeze visible and is
ENTRY_0; every other is added in order of completion. What R139 ends is not recorded. -/
def State.freezeShow (s : State) (x : Ctx) (st : Status) (dw3 : Dword) : State :=
  if !st.freezes || !s.qFrozen x.q || x.unrecorded then s
  else
    let e := qEntryOf x dw3
    if !x.froze then { s with qrecs := s.qrecs.upd x.q {} fun r => r.add (r.entries ++ [e]) }
    else
      let s1 := { s with
        sqs := s.sqs.edit x.q (fun y => { y with frozenSeen := true })
        qrecs := s.qrecs.upd x.q {} (fun r => ({ r with freezes := satAdd 0xffffffff r.freezes 1 }).add (e :: r.entries)) }
      let o := qOwner x.q
      if o < 1024 then (s1.notice o 0x01 (qIndex x.q) dw3.toNat).fire (128 + o / 32) [s1.stateReg o] 0 o else s1

/-- The write has completed: R121 holds nothing behind it any more, and its content is final. -/
def State.busyClear (s : State) (x : Ctx) : State :=
  if x.e.isWrite && x.committed then
    (s.zoneEdit x.zone fun z => { z with busy := if z.busy = some x.stamp then none else z.busy }).versSettle x.zone x.stamp
      (x.lba % s.zsze) x.e.n
  else s

/-- A discarded completion is counted for its queue (R86, R265). -/
def State.countLost (s : State) (q : Nat) : State :=
  if 1024 ≤ q then s.sliceEdit (qOwner q) fun x => { x with lostCpl := x.lostCpl.upd (qIndex q) 0 (· + 1) } else s

/-- A queue that was to freeze for a completion now discarded does not (R54, R135). -/
def State.unfreezeLost (s : State) (q : Nat) : State :=
  match s.sqs.look q with
  | some y => if y.frozen && !y.frozenSeen then { s with sqs := s.sqs.put q { y with frozen := false } } else s
  | none => s

/-- Bin of a latency in ns (R246). -/
def histBin (t : Nat) : Nat :=
  if t < 156000 then t / 4000
  else if t ≤ 160000 then 39
  else min 47 (40 + log2Up ((t + 159999) / 160000) 8 1 - 1)

/-- The latency of a counted read: from its doorbell to its completion entry, with a resolution of 10 ns (R243). Counted
are successful reads with NLB 0 on namespaces with LBAF0, of zones on this chip, under their class. -/
def State.histCount (s : State) (x : Ctx) : State :=
  let lbaf0 : Bool := match s.nss.look x.e.nsid with | some n => !n.lbaf1 | none => false
  if x.e.opc ≠ 2 ∨ x.status ≠ some stOk ∨ x.e.n ≠ 1 ∨ !lbaf0 ∨ s.zoneChip x.zone ≠ 0 then s
  else
    let t := (s.now / 10 - x.bellAt / 10) * 10
    let k := 48 * x.cls + histBin t
    { s with lat := { s.lat with live := s.lat.live.upd k 0 (satAdd (2 ^ 64 - 1) · 1) } }

/-- Host data moved, in blocks (R74). -/
def State.smartCount (s : State) (x : Ctx) : State :=
  if x.status ≠ some stOk then s
  else if x.e.opc = 2 then { s with nvme := { s.nvme with unitsRead := s.nvme.unitsRead + x.e.n } }
  else if x.e.isWrite then { s with nvme := { s.nvme with unitsWritten := s.nvme.unitsWritten + x.e.n } }
  else s

/-- The completion of a command will be discarded: it is counted for its slice queue at once (R86, R265). -/
def State.ctxDiscard (s : State) (c : Nat) : State :=
  match s.ctxs.look c with
  | none => s
  | some x => if x.discard then s else (s.countLost x.q).ctxEdit c fun y => { y with discard := true }

/-- The PASID that a queue's DMA carries: its slice's; of the PF's none (R60). -/
def State.dmaPasid (s : State) (q : Nat) : Option Nat := if 1024 ≤ q then some (s.slice (qOwner q)).pasid else none

/-- A decided command's completion entry is posted when its completion queue has room (R24, R269), or discarded (R54,
R265); its context is freed. After a save nothing is posted (R293, R381). -/
def State.postCompletion (s : State) (ctx : Nat) : State :=
  match s.ctxs.look ctx with
  | none => s
  | some x =>
    match x.status with
    | none => s
    | some st =>
      if x.phase ≠ .done then s
      else if x.discard then (let s1 := s.busyClear x; if x.froze then s1.unfreezeLost x.q else s1).ctxFree ctx
      else
        let k := s.cqOf x.q
        match s.cqs.look k with
        | none => s
        | some c =>
          if c.full || !s.linkUp || s.inStop || s.pci.d3hot || !s.pci.bme || s.brm.st == 4 then s
          else
            let dw3 := dword3 st c.phase x.e.cid
            let hd := match s.sqs.look x.q with | some y => y.head | none => 0
            let wrap := c.tail == c.size
            let s1 := ({ s with cqs := s.cqs.put k { c with
                tail := if wrap then 0 else c.tail + 1
                phase := if wrap then !c.phase else c.phase } }).say
              (.cqe (s.dmaPasid x.q) k x.dw0 x.dw1 (BitVec.ofNat 32 (hd + qIndex x.q * 2 ^ 16)) dw3)
            let shut := decide (1024 ≤ x.q) && (s.slice (qOwner x.q)).st == .destroying
            let s2 := if c.ien && !shut then s1.msix (if 1024 ≤ x.q then (s.slice (qOwner x.q)).vecBase + c.iv else c.iv) else s1
            ((((((s2.flits (sramPort ctx) swathOut entryFlits).errAdd x st).freezeShow x st dw3).busyClear x).smartCount x).histCount x).ctxFree ctx

end Sys2Proof.Machine
end

