-- ==== Sys2Proof/Machine/Walk.lean ====
section
/-! DEFINITION. The data pointers of a command (R249-R253): where the host memory of a data unit lies, as PRP entries, SGL
descriptors or offset tables say, and the faults that Swath's walk meets. The descriptors themselves are host memory: a command
carries what was fetched. -/

namespace Sys2Proof.Machine

open Sys2Proof

/-- End of a walk: the pieces of host memory of a unit (address and length), a descriptor fault with its SOURCE and ADDR (R271), or a
descriptor that has not been fetched yet. -/
inductive Walk where
  | pieces (l : List (Nat × Nat))
  | fault (f : DescFault) (src addr : Nat)
  | unfetched
  deriving DecidableEq, Repr

/-- Descriptors fetched at an address, as one little-endian number. -/
def fetched (m : List (Nat × Nat)) (a : Nat) : Option Nat := (m.find? fun p => p.1 == a).map (·.2)

/-- Descriptor fetches of one command (R253). -/
def maxFetches : Nat := 64

/-! ### PRP (R249) -/

/-- Page that entry `k` of the PRP list at `a` names, where `left` entries are still to come: the last entry of a list page points
to the next one whenever more remain. -/
def prpEntry (m : List (Nat × Nat)) : Nat → Nat → Nat → Nat → Walk
  | 0, a, _, _ => .fault .fetch65 2 a
  | fetches + 1, a, left, k =>
    match fetched m a with
    | none => .unfetched
    | some v =>
      let slots := (4096 - a % 4096) / 8
      if left ≤ slots ∨ k + 1 < slots then
        let e := bitsAt v (64 * k) 64
        if e % 4096 ≠ 0 then .fault .prpOffset 2 (a + 8 * k) else .pieces [(e, 4096)]
      else
        let next := bitsAt v (64 * (slots - 1)) 64
        if next % 8 ≠ 0 then .fault .misaligned 2 (a + 8 * (slots - 1))
        else prpEntry m fetches next (left - (slots - 1)) (k - (slots - 1))

/-- Page `i` of a transfer over `n` pages. -/
def prpPage (m : List (Nat × Nat)) (e : SqEntry) (n i : Nat) : Walk :=
  if i = 0 then .pieces [(e.dptr0.toNat / 4096 * 4096, 4096)]
  else if n = 2 then .pieces [(e.dptr1.toNat, 4096)]
  else prpEntry m maxFetches e.dptr1.toNat (n - 1) (i - 1)

def prpWalk (m : List (Nat × Nat)) (e : SqEntry) (units u : Nat) : Walk :=
  let o := e.dptr0.toNat % 4096
  let n := units + (if o = 0 then 0 else 1)
  match prpPage m e n u with
  | .pieces [(a, _)] =>
    if o = 0 then .pieces [(a, 4096)]
    else match prpPage m e n (u + 1) with
      | .pieces [(b, _)] => .pieces [(a + o, 4096 - o), (b, o)]
      | w => w
  | w => w

/-! ### SGL (R250) -/

/-- A length that a Segment or Last Segment descriptor may have. -/
def segLenOk (n : Nat) : Bool := n % 16 == 0 && decide (16 ≤ n) && decide (n ≤ 4096)

/-- What of a Data Block at byte `pos` of the transfer lies in bytes `lo` to `hi`. -/
def overlap (addr len pos lo hi : Nat) : List (Nat × Nat) :=
  let a := max pos lo
  let b := min (pos + len) hi
  if a < b then [(addr + (a - pos), b - a)] else []

/-- Walk the segment at `a` of `n` descriptors from number `i` on, having covered `pos` bytes with `fetches` fetches left. -/
def sglGo (m : List (Nat × Nat)) (lo hi : Nat) : Nat → Nat → Nat → Nat → Nat → Nat → Bool → Nat → List (Nat × Nat) → Walk
  | 0, _, a, _, _, _, _, _, _ => .fault .endedShort 3 a
  | fuel + 1, fetches, a, v, n, i, last, pos, acc =>
    if hi ≤ pos then .pieces acc
    else if n ≤ i then .fault .endedShort 3 a
    else
      let d := bitsAt v (128 * i) 128
      let addr := bitsAt d 0 64
      let len := bitsAt d 64 32
      let ty := bitsAt d 124 4
      let at_ := a + 16 * i
      if bitsAt d 120 4 ≠ 0 ∨ ¬(ty = 0 ∨ ((ty = 2 ∨ ty = 3) ∧ !last ∧ i + 1 = n)) then .fault .unsupportedType 3 at_
      else if bitsAt d 96 24 ≠ 0 then .fault .reserved 3 at_
      else if ty = 0 then
        if 2 ^ 64 < addr + len then .fault .overflow 3 at_
        else sglGo m lo hi fuel fetches a v n (i + 1) last (pos + len) (acc ++ overlap addr len pos lo hi)
      else if !segLenOk len then .fault .segLength 3 at_
      else if 2 ^ 64 < addr + len then .fault .overflow 3 at_
      else if fetches = 0 then .fault .fetch65 3 addr
      else match fetched m addr with
        | none => .unfetched
        | some w => sglGo m lo hi fuel (fetches - 1) addr w (len / 16) 0 (ty == 3) pos acc

/-- Descriptors that 64 segments of 256 can hold, and their segments. -/
def sglFuel : Nat := 64 * 257

/-- `self`: host address of the data pointer in the submission entry (SOURCE 7). -/
def sglWalk (m : List (Nat × Nat)) (e : SqEntry) (self u : Nat) : Walk :=
  let addr := e.dptr0.toNat
  let len := bitsAt e.dptr1.toNat 0 32
  let ty := bitsAt e.dptr1.toNat 60 4
  if bitsAt e.dptr1.toNat 32 24 ≠ 0 then .fault .reserved 7 self
  else if 2 ^ 64 < addr + len then .fault .overflow 7 self
  else if ty = 0 then .pieces (overlap addr len 0 (4096 * u) (4096 * u + 4096))
  else match fetched m addr with
    | none => .unfetched
    | some v => sglGo m (4096 * u) (4096 * u + 4096) sglFuel (maxFetches - 1) addr v (len / 16) 0 (ty == 3) 0 []

/-! ### Offset tables (R251) -/

/-- Host page of entry `k`, counting from the table at `a` on. -/
def tableGo (m : List (Nat × Nat)) (base : Nat) : Nat → Nat → Nat → Walk
  | 0, a, _ => .fault .fetch65 4 a
  | fetches + 1, a, k =>
    match fetched m a with
    | none => .unfetched
    | some v =>
      let count := bitsAt v 0 16
      let next := bitsAt v 64 64
      if count = 0 ∨ 1020 < count then .fault .countRange 4 a
      else if 4096 < a % 4096 + 16 + 4 * count then .fault .tableCross 4 a
      else if bitsAt v 16 48 ≠ 0 then .fault .reserved 4 a
      else if k < count then
        let h := base + bitsAt v (128 + 32 * k) 32 * 4096
        if 2 ^ 64 < h + 4096 then .fault .overflow 4 (a + 16 + 4 * k) else .pieces [(h, 4096)]
      else if next = 0 then .fault .endedShort 4 a
      else if next % 64 ≠ 0 then .fault .misaligned 4 a
      else tableGo m base fetches next (k - count)

/-- Host memory of unit `u` of a command's transfer of `units` units. -/
def walkUnit (m : List (Nat × Nat)) (e : SqEntry) (self units u : Nat) : Walk :=
  if e.psdt = 0 then prpWalk m e units u
  else if e.psdt = 1 then sglWalk m e self u
  else tableGo m e.dptr0.toNat maxFetches e.dptr1.toNat u

end Sys2Proof.Machine
end

