-- ==== Sys2Proof/Machine/Dma.lean ====
section
/-! DEFINITION. Swath and Hayrick: unit transfers (R21, R24, R248, R259, R312), bus errors, the halt and the thaw
(R254-R258), fences (R260), revocation (R265) and the free-store caches (R261). -/

namespace Sys2Proof.Machine

open Sys2Proof

/-! ### Bus errors -/

def busCauseCode : BusCause → Nat
  | .unsupported => 1 | .completerAbort => 2 | .timeout => 3 | .poisoned => 6

def busSourceCode : BusSource → Nat
  | .fetch => 1 | .prpList => 2 | .sglSegment => 3 | .offsetTable => 4 | .data => 5 | .metadata => 6

def descCode : DescFault → Nat
  | .fetch65 => 1 | .endedShort => 2 | .countRange => 3 | .tableCross => 4 | .misaligned => 5 | .unsupportedType => 6
  | .prpOffset => 7 | .overflow => 8 | .reserved => 9 | .segLength => 10

def State.chanEdit (s : State) (o : Nat) (f : Chan → Chan) : State :=
  { s with dma := { s.dma with chans := s.dma.chans.upd o {} f } }

/-- What a channel latches of a bus error (R271). -/
structure BusErr where
  q : Nat
  cid : Nat
  toDevice : Bool
  cause : Nat
  source : Nat
  desc : Nat
  addr : Word
  unit : Nat
  deriving DecidableEq, Repr

/-- The channel after a bus error: the first one halts it and is latched; a later one counts, and sets MULTI when
another command met it (R255). -/
def Chan.fail (k : Chan) (b : BusErr) : Chan :=
  if k.halted then
    { k with faults := satAdd 0xffff k.faults 1, multi := k.multi || decide (k.cid ≠ b.cid ∨ k.qid ≠ qIndex b.q) }
  else
    { k with
      halted := true, multi := false, dir := b.toDevice, cause := b.cause, source := b.source, desc := b.desc
      faults := satAdd 0xffff k.faults 1, cid := b.cid, qid := qIndex b.q, addr := b.addr, unit := b.unit }

/-- A command of the channel with transfers under way waits for the thaw (R255). -/
def Ctx.pauseFor (x : Ctx) (o : Nat) : Ctx :=
  if qOwner x.q = o ∧ x.phase = .stamped ∧ x.begun then { x with paused := true } else x

/-- DMA_HALTED_m. -/
def State.haltedWord (s : State) (m : Nat) : Nat := ((List.range 32).map fun b => bit (s.chanHalted (32 * m + b)) b).sum

/-- A bus error of an owner's channel: the halt with its notice and event, and the transfers that now wait (R255). -/
def State.busHalt (s : State) (b : BusErr) : State :=
  let o := qOwner b.q
  let fresh := !s.chanHalted o
  let s1 := s.chanEdit o fun k => k.fail b
  if !fresh then s1
  else
    let s2 := { s1 with ctxs := s1.ctxs.mapV fun _ x => x.pauseFor o }
    if o < 1024 then (s2.notice o 0x03 0 0).fire (64 + o / 32) [s2.haltedWord (o / 32)] 0 o else s2.fire 14 [] 0 1024

/-- An entry that has not committed leaves the gate. -/
def State.entryDrop (s : State) (c : Nat) : State :=
  { s with gate := { s.gate with entries := s.gate.entries.filter fun p => p.2.ctx ≠ c } }

/-- End a command before its completion with a status of its own: a write is withdrawn (R122), a read stops. -/
def State.cmdEnd (s : State) (c : Nat) (st : Status) : State :=
  match s.ctxs.look c with
  | none => s
  | some x =>
    if x.phase = .done then s
    else
      let s1 := if x.committed then s else s.entryDrop c
      if x.e.isWrite ∧ x.stamped then s1.failWrite c st
      else
        let s2 := if x.e.opc = 2 then s1.readStop c else s1.rdReturn c
        (s2.ctxEdit c fun x => { x with failed := true }).finish c st

/-- A command's own request failed: it ends with DMA_HALTED (R255). -/
def State.busFail (s : State) (c : Nat) (b : BusErr) : State := (s.busHalt b).cmdEnd c stDmaHalted

/-- A command has transfers on its channel that a bus error can end: its data fetch before the stamp, or its transfer. -/
def Ctx.onChannel (x : Ctx) : Bool :=
  x.phase == .stamped || (x.phase == .fetched && (decide (x.q = 0) || x.e.opc == 9))

/-- The command's data requests are non-posted: only those can meet a bus error (R256). -/
def Ctx.readsHost (x : Ctx) : Bool := x.e.opc != 2 && x.e.opc != 0x7a

/-- A bus error answered from outside: on the fetch of a queue, or on a request of a command. -/
def State.busEvent (s : State) (q c : Nat) (cause : Nat) (src : BusSource) (addr : Word) (unit : Nat) : State :=
  if src = .fetch then
    match s.sqs.look q with
    | some x => if s.mayFetch q x then s.busHalt { q := q, cid := 0, toDevice := true, cause := cause, source := 1, desc := 0, addr := addr, unit := 0 }
                else s
    | none => s
  else
    match s.ctxs.look c with
    | none => s
    | some x =>
      if !x.onChannel || ((src == .data || src == .metadata) && !x.readsHost) then s
      else s.busFail c { q := x.q, cid := x.e.cid, toDevice := x.readsHost, cause := cause
                         source := busSourceCode src, desc := 0, addr := addr, unit := min 511 unit }

/-- BUS_ERROR (R254, R255). -/
def execBusError (q ctx : Nat) (cause : BusCause) (src : BusSource) (addr : Word) (unit : Nat) (s : State) :
    Host.Outcome State Fault Refusal := .next (s.busEvent q ctx (busCauseCode cause) src addr unit)

/-- DMA_COMPLETION_TIMEOUT (R52, R254): a bus error with cause 3. -/
def execDmaCompletionTimeout (q ctx : Nat) (src : BusSource) (addr : Word) (unit : Nat) (s : State) :
    Host.Outcome State Fault Refusal := .next (s.busEvent q ctx 3 src addr unit)

/-- Thaw a halted channel (R258). -/
def State.thaw (s : State) (o : Nat) : State :=
  if s.chanHalted o then
    let s1 := s.chanEdit o fun k => { k with halted := false, multi := false, faults := 0, thaws := satAdd 0xffffffff k.thaws 1 }
    { s1 with ctxs := s1.ctxs.mapV fun _ x => if qOwner x.q = o then { x with paused := false } else x }
  else s

/-- SLC_DMA_THAW (R258). -/
def execSlcDmaThaw (slice : Nat) (pasid : Option Nat) (s : State) : Host.Outcome State Fault Refusal :=
  .next (s.tenantWrite slice pasid 0x3818 fun s => s.thaw slice)

/-- DMA_THAW (R258). -/
def execDmaThaw (chan : Nat) (s : State) : Host.Outcome State Fault Refusal := .next (if chan ≤ 1024 then s.thaw chan else s)

/-! ### Unit transfers -/

/-- A member has work until its staging is reported done (R366). -/
def State.memberBusy (s : State) (c : Nat) : State :=
  { s with cas := { s.cas with members := s.cas.members.edit c fun m => { m with idle := false } } }

/-- The LBA of a unit of a command. -/
def Ctx.unitLba (x : Ctx) (u : Nat) : Nat := x.lba + u

/-- A unit of a write is in staging (R21), encrypted (R15): it is folded into P and Q (R206) and sent to the member that holds the zone
(R329); with the last unit the write is complete, at the crown at once, at a member when STAGED arrives. -/
def State.unitIn (s : State) (c u data md : Nat) (x : Ctx) : State :=
  match s.staging.look x.stamp with
  | none => s
  | some st =>
    let unit := sealUnit st.kix (x.unitLba u) x.e.nsid data md
    let st' := { st with data := st.data.put u unit }
    let s1 := ({ s.flits swathIn (dramPort u) unitFlits with staging := s.staging.put x.stamp st' }).ctxEdit c fun y =>
      { y with begun := true, moved := insNat u y.moved }
    let s2 := if st.dropped then s1 else s1.foldStaged st' u
    let chip := s.zoneChip st.zone
    let full := decide (st.n ≤ st'.data.length)
    if chip ≠ 0 ∧ !st.dropped then (s2.memberBusy chip).casSend (portOf chip) 1 0x20 4112 [x.stamp, st.zone, st.off + u, st.bits s.zsze u unit % 2 ^ 32768, md]
    else if full then s2.stageDone x.stamp else s2

/-- What a released unit carries to the host (R126, R127, R308): one that was reconstructed, what its recovered bits open to
(R213). -/
def State.unitContent (s : State) (r : RUnit) : Nat × Nat := match r.known, r.made with
  | some k, some bits => (Config.plainBits k.kix (zIndex k.zk * s.zsze + k.unit) (zNsid k.zk) bits, bitsAt bits 32768 64)
  | some k, none => (k.plain, k.md)
  | none, _ => (0, 0)

/-- Where the unit of a read lies: in staging (R126), or in a cut-through buffer (R16). -/
def RUnit.port (r : RUnit) (u : Nat) : Nat := if r.hold.isSome then dramPort u else sramPort u

/-- A unit of a read has left Swath (R259): its hold ends, and with the last unit the command is decided (R24). -/
def State.unitOut (s : State) (c u : Nat) (r : RUnit) (segs : List (Nat × Nat)) : State :=
  let s1 := ((match r.hold with | some b => s.bufDrop b | none => s).flits (r.port u) swathOut unitFlits).runitEdit c u fun q => { q with st := .sent, hold := none }
  let s2 := (s1.ctxEdit c fun y => { y with begun := true, moved := insNat u y.moved }).say (.readUnit ((s.ctxs.look c).bind fun x => s.dmaPasid x.q) s.pci.relaxed c u (s.unitContent r).1 (s.unitContent r).2 segs)
  match s2.ctxs.look c with
  | some x => if x.runits.all fun _ q => q.st == .sent then (s2.rdReturn c).keySweep.finish c stOk else s2
  | none => s2

/-- PRCHK selects the guard check (R180). -/
def guarded (e : SqEntry) : Bool := bitsAt e.prinfo 2 1 == 1

/-- The transfer of a unit ends in one of its ways. -/
def State.unitDone (s : State) (c u data md : Nat) (x : Ctx) (o : UnitOutcome) (go : State → State) : State :=
  match o with
  | .ok retried => go (if retried then { s with key := { s.key with retries := satAdd 0xffff s.key.retries 1 } } else s)
  | .mismatch =>
    let s1 := { s with key := { s.key with alarms := satAdd 0xffff s.key.alarms 1, retries := satAdd 0xffff s.key.retries 1 } }
    (s1.alarm 1 (x.unitLba u)).cmdEnd c stInternal
  | .guardFail => if guarded x.e then s.cmdEnd c stGuard else (let _ := (data, md); go s)

/-- A unit reaches Gauntlet with the key of a draw, if it needs one: the key comes into the key RAM (R303), but after a zeroize
the unit fails (R316). -/
def State.gauntlet (s : State) (c : Nat) (kix : Option Nat) (go : State → State) : State :=
  match kix with
  | none => go s
  | some d => if s.key.cleared then s.keyLess c else go (s.keyUse d)

/-- The draw of the key of a write's units (R305). -/
def Ctx.wKix (x : Ctx) (s : State) : Option Nat := (s.staging.look x.stamp).map (·.kix)

/-- The walk of a command's descriptors meets a fault (R253, R255). -/
def State.walkFail (s : State) (c u : Nat) (x : Ctx) (f : DescFault) (src addr : Nat) : State :=
  let s1 := { s with dma := { s.dma with walkFaults := satAdd 0xffffffff s.dma.walkFaults 1 } }
  s1.busFail c { q := x.q, cid := x.e.cid, toDevice := x.e.isWrite, cause := 5, source := src, desc := descCode f
                 addr := BitVec.ofNat 64 addr, unit := min 511 u }

/-- Byte 24 of a command's submission entry in host memory, where its data pointer begins (R271). -/
def State.entryPtr (s : State) (x : Ctx) : Nat :=
  match s.sqs.look x.q with | some q => q.base.toNat + 64 * x.slot + 24 | none => 0

/-- Go on with a unit whose place in host memory the walk gives, or end the command with the walk's fault. -/
def State.walked (s : State) (c u : Nat) (x : Ctx) (host : List (Nat × Nat)) (go : List (Nat × Nat) → State) : State :=
  match walkUnit host x.e (s.entryPtr x) x.units u with
  | .pieces l => go l
  | .fault f src addr => s.walkFail c u x f src addr
  | .unfetched => s

/-- UNIT_TRANSFER_DONE (R259): a unit toward the device carries `body`; a unit of a read goes out as it was
resolved. A unit waits while its channel is halted (R255), its write is uncommitted, its release fence is not acknowledged, or a
descriptor it needs has not been fetched. -/
def execUnitTransferDone (ctx unit : Nat) (body : Nat × Nat) (host : List (Nat × Nat)) (o : UnitOutcome) (s : State) : Host.Outcome State Fault Refusal :=
  match s.ctxs.look ctx with
  | none => .next s
  | some x =>
    if x.phase ≠ .stamped ∨ !x.committed ∨ x.failed then .next s
    else if s.chanHalted (qOwner x.q) then .next (s.ctxEdit ctx fun y => { y with paused := true })
    else if !s.linkUp || s.inStop || !s.pci.bme then .next s
    else if x.e.isWrite then
      if x.units ≤ unit ∨ x.moved.contains unit then .next s
      else .next (s.walked ctx unit x host fun _ => s.gauntlet ctx (x.wKix s) fun s => s.unitDone ctx unit body.1 body.2 x o fun s => s.unitIn ctx unit body.1 body.2 x)
    else
      match x.runits.look unit with
      | none => .next s
      | some r =>
        if r.st ≠ .ready ∨ s.dma.fences.contains (2, relTag ctx unit) then .next s
        else .next (s.walked ctx unit x host fun segs => s.gauntlet ctx (r.known.map (·.kix)) fun s => s.unitDone ctx unit body.1 body.2 x o fun s => s.unitOut ctx unit r segs)

/-! ### Fences -/

def fenceCode : FenceKind → Nat
  | .staging => 0 | .accumulator => 1 | .release => 2 | .copy => 3 | .metadata => 4

/-- FENCE_ACKNOWLEDGED (R260). -/
def execFenceAcknowledged (k : FenceKind) (tag : Nat) (s : State) : Host.Outcome State Fault Refusal :=
  .next { s with dma := { s.dma with fences := s.dma.fences.erase (fenceCode k, tag) } }

/-! ### Revocation (R265) -/

/-- Buffers and read units named to an owner. -/
def State.ownerBufs (s : State) (i : Nat) : Nat := s.stgHeld i + s.rdHeld i

/-- The buffers of a slice move to the system; its commands that hold one are ended and their completions discarded. -/
def State.revoke (s : State) (i : Nat) : State :=
  let done := s.staging.keysWhere fun _ t => t.owner == i && t.complete
  let s1 := forNats done s fun s k =>
    match s.staging.look k with
    | none => s
    | some t => { s with staging := s.staging.put k { t with owner := 1025 }
                         bpm := { s.bpm with bufs := t.bufs.foldl (fun (l : Tbl Buf) b => l.edit b fun x => { x with named := 1025 }) s.bpm.bufs } }
  let cs := s1.ctxs.keysWhere fun _ x => qOwner x.q == i && x.phase == .stamped && (x.bufs != [] || x.readDraw != 0)
  let s2 := forNats cs s1 fun s c => (s.ctxDiscard c).cmdEnd c stInternal
  { s2 with bpm := { s2.bpm with bufs := s2.bpm.bufs.mapV fun _ b => if b.named = i then { b with named := 1025 } else b } }

/-- BPM_REVOKE (R265, R272). -/
def execBpmRevoke (slice : Nat) (s : State) : Host.Outcome State Fault Refusal :=
  let i := slice % 1024
  let s1 := { s with bpm := { s.bpm with revokeSlice := i } }
  let st := (s.slice i).st
  if st = .none then .next { s1 with bpm := { s1.bpm with revokeResult := 2 } }
  else if st ≠ .frozen then .next { s1 with bpm := { s1.bpm with revokeResult := 1 } }
  else
    let n := s.ownerBufs i
    let s2 := s1.revoke i
    .next { s2 with bpm := { s2.bpm with revokeResult := 0, revokeBufs := min n (2 ^ 28 - 1) } }

/-! ### Free-store caches -/

/-- Free buffers of a store. -/
def State.storeFree (s : State) (dram : Bool) : Nat :=
  if dram then s.bpm.dramTotal - s.bpm.bufs.length else 6144 - s.bpm.rdHeld.sum fun _ n => n

/-- HAYRICK_CACHE_REFILL (R261): below 64 the cache is refilled, above 192 spilled; to which level, from 64 to 192, is
not stated. -/
def execHayrickCacheRefill (store : Nat) (s : State) : Host.Outcome State Fault Refusal :=
  let n := if store = 0 then s.bpm.cacheSram else s.bpm.cacheDram
  if 64 ≤ n ∧ n ≤ 192 then .next s
  else
    let v := min (s.storeFree (store != 0)) (64 + s.freeVal % 129)
    let s1 := s.freeStep
    .next { s1 with bpm := if store = 0 then { s1.bpm with cacheSram := v } else { s1.bpm with cacheDram := v } }

end Sys2Proof.Machine
end

