-- ==== Sys2Proof/Machine/Slices.lean ====
section
/-! DEFINITION. Slices: Create Slice (R90-R94), Slice Resources (R95-R98, R502), Destroy Slice (R99, R100) and Thaw Queue
(R138). -/

namespace Sys2Proof.Machine

open Sys2Proof

/-! ### Pools (R87, R112) -/

/-- A sum over the slices that exist, apart from one. -/
def State.sliceSum (s : State) (but : Nat) (f : Slice → Nat) : Nat :=
  s.slices.sum fun i x => if x.st = .none ∨ i = but then 0 else f x

/-- Free resources, counting one slice's own grant as free. -/
def State.qpFree (s : State) (but : Nat) : Nat := 8192 - s.pfCount - s.sliceSum but (·.qpairs)
def State.rdFree (s : State) (but : Nat) : Nat := 5632 - s.sliceSum but (·.readPool)
def State.stgFree (s : State) (but : Nat) : Nat := s.bpm.dramTotal / 64 - 1024 - s.sliceSum but (·.stagePool)
def State.ctxFreeFor (s : State) (but : Nat) : Nat :=
  64512 - s.slices.sum fun i x => if x.st = .none ∨ i = but then 0 else max x.ctxReserve (s.ctxHeld i)

/-- Table entries `[base, base+n)` belong neither to the PF nor to a slice other than `but` (R87, R93 order 6). -/
def State.vecsFree (s : State) (but base n : Nat) : Bool :=
  decide (s.pfCount < base) && decide (base + n ≤ 2048) &&
  !s.slices.any fun i x => decide (i ≠ but) && x.st != .none && decide (base < x.vecBase + x.vecCount) && decide (x.vecBase < base + n)

/-! ### The structure (R90, R502) -/

/-- The fields of each CHANGE bit lie within their ranges (R90). -/
def okQp (d : SliceData) : Bool := decide (1 ≤ d.qpairs) && decide (d.qpairs ≤ 128)
def okVec (d : SliceData) : Bool := decide (1 ≤ d.vecCount) && decide (d.vecCount ≤ 64)
/-- The range of VEC_BASE: above the PF's entries, and within the table (R90). -/
def State.okVecBase (s : State) (d : SliceData) : Bool := decide (s.pfCount < d.vecBase) && decide (d.vecBase + d.vecCount ≤ 2048)
def okCtx (d : SliceData) : Bool :=
  decide (16 ≤ d.ctxReserve) && decide (d.ctxReserve ≤ 8192) && decide (d.ctxReserve ≤ d.ctxLimit) && decide (d.ctxLimit ≤ 16384)
def okPool (d : SliceData) : Bool :=
  decide (4 ≤ d.readPool) && decide (d.readPool ≤ 2048) && decide (2 ≤ d.stagePool) && decide (d.stagePool ≤ 8192)
def okClass (d : SliceData) : Bool := decide (d.lclass ≤ 2)
def okWeight (d : SliceData) : Bool := decide (1 ≤ d.weight) && decide (d.weight ≤ 255)
def okRa (d : SliceData) : Bool := decide (d.raAllow ≤ 200)
def okFence (d : SliceData) : Bool :=
  decide (1 ≤ d.fenceCount) && decide (d.fenceCount ≤ 8) && (d.fences.drop d.fenceCount).all (· == 0)
    && d.handles.all fun h => decide (h < 16)
def okQuota (d : SliceData) : Bool :=
  d.quotaProv % 2 ^ 20 == 0 && d.quotaWrite % 2 ^ 20 == 0 && decide (d.quotaProv ≤ 2 ^ 63) && decide (d.quotaWrite ≤ 2 ^ 63)
/-- Reserved bytes. -/
def okRsv (d : SliceData) : Bool := d.rsv30 == 0 && d.rsv49 == 0 && d.rsv52 == 0 && d.rsv576 == 0

/-- Order 5 of R93. -/
def createOk (d : SliceData) : Bool :=
  d.version == 1 && okRsv d && d.action == 0 && d.change == 0 && okQp d && okVec d && okCtx d && okPool d && okClass d
    && okWeight d && okRa d && okFence d && okQuota d && decide (d.flags < 4)

/-- Order 8 of R93: chips present and not fenced, R92, and the handles. -/
def State.fencesOk (s : State) (i : Nat) (d : SliceData) : Bool :=
  let u := fenceUnion (d.fences.take d.fenceCount)
  let excl := d.flags.testBit 0
  let others := s.slices.foldl (fun m p => if p.2.st ≠ .none ∧ p.1 ≠ i then m ||| s.allotment p.1 else m) (0 : BitVec 256)
  ((List.range 4).all fun c => !fenceChip u c || s.chipActive c)
    && (u &&& (if excl then others else s.exclGroups i)) == 0
    && decide (d.handles.getD 0 0xf ≠ 0xf)
    && d.handles.all fun h => h == 0xf || decide (h < d.fenceCount)

/-! ### Create Slice -/

/-- The checks of R93 in their order. -/
def State.createCheck (s : State) (i pasid : Nat) (d : SliceData) : Option Status :=
  if !s.pci.pasidEn then some stInvField
  else if i = 1023 ∧ s.rsv1023 then some stInvField
  else if (s.slice i).st ≠ .none then some stSequence
  else if pasid = 0 ∨ s.slices.any (fun _ x => x.st != .none && x.st != .destroying && x.pasid == pasid) then some stInvField
  else if !createOk d || !s.okVecBase d then some stInvField
  else if !s.vecsFree i d.vecBase d.vecCount then some stInvField
  else if s.qpFree i < d.qpairs ∨ s.ctxFreeFor i < d.ctxReserve ∨ s.rdFree i < d.readPool ∨ s.stgFree i < d.stagePool then some stPoolEmpty
  else if !s.fencesOk i d then some stFence
  else none

/-- A new slice (R93): ACTIVE, its queues disabled with the default strict mode, empty mailboxes, a full read-around
bucket (R237), a current and a next key (R90). -/
def State.sliceMake (s : State) (i pasid : Nat) (d : SliceData) : State :=
  let strict := d.flags.testBit 1
  let s1 := s.sliceEdit i fun x =>
    { ({} : Slice) with
      st := .active, pasid := pasid, qpairs := d.qpairs, vecBase := d.vecBase, vecCount := d.vecCount
      ctxReserve := d.ctxReserve, ctxLimit := d.ctxLimit, readPool := d.readPool, stagePool := d.stagePool
      lclass := d.lclass, weight := d.weight, raAllow := d.raAllow, fenceCount := d.fenceCount, excl := d.flags.testBit 0
      strictDef := strict, quotaProv := d.quotaProv, quotaWrite := d.quotaWrite, fences := d.fences, handles := d.handles
      inst := x.inst + 1 }
  let s2 := (List.range 128).foldl (fun (s : State) q => { s with
    sqs := s.sqs.put (sliceQ i q) { strict := strict, cq := sliceQ i q, ctl := if strict then 0x40000000 else 0 }, cqs := s.cqs.put (sliceQ i q) {}, qrecs := s.qrecs.del (sliceQ i q) }) s1
  (({ s2 with lat := { s2.lat with tokens := s2.lat.tokens.put i s2.raFull }, dma := { s2.dma with chans := s2.dma.chans.del i } }).keyCreate i).tallyOpen i ((s.slice i).inst + 1)

/-- The members' islands learn of a new instance (R346). -/
def State.sliceTold (s : State) (i stamp : Nat) : State := s.stampTell stamp [17, i, (s.slice i).inst]

/-- Create Slice (R93); while the entropy source fails no key can be drawn (R302). -/
def execCreateSlice (ctx : Nat) (d : SliceData) (s : State) : Host.Outcome State Fault Refusal :=
  .next (s.admitAdmin ctx (fun e => e.opc == 0xc1) fun s x =>
    let i := x.e.sliceNo
    if !vendorOk x.e 0x3ff 0xfffff 0 0 0 0 then s.finish ctx stInvField 0 0 3
    else
      match x.e.dptrFault 4096 false with
      | some f => s.finish ctx f
      | none =>
        match s.createCheck i x.e.pasid d with
        | some f => s.finish ctx f
        | none =>
          if s.key.entropyBad then (s.fire 10 [] 0 i).finish ctx stInternal
          else ((((s.sliceMake i x.e.pasid d).ledger).stampCtx ctx).sliceTold i s.gate.next).finish ctx stOk)

/-! ### Slice Resources -/

/-- The structure of Slice Resources is judged before the state (R502). -/
def State.resJudge (s : State) (i : Nat) (d : SliceData) : Option Status :=
  let b := fun k => d.change.testBit k
  if d.version ≠ 1 ∨ 3 < d.action ∨ !okRsv d ∨ 512 ≤ d.change then some stInvField
  else if d.action ≠ 1 then (if d.change = 0 then none else some stInvField)
  else if (b 0 && !okQp d) || (b 1 && !(okVec d && s.okVecBase d)) || (b 2 && !okCtx d) || (b 3 && !okPool d) || (b 4 && !okClass d)
      || (b 5 && !okWeight d) || (b 6 && !okRa d) || (b 7 && !okFence d) || (b 8 && !okQuota d) then some stInvField
  else if b 7 && !s.fencesOk i d then some stFence
  else none

/-- The gate takes a Slice Resources command of one action. An ACTION beyond 3 is refused through any of the rows. -/
def State.sliceRes (s : State) (ctx : Nat) (d : SliceData) (action : Nat) (act : State → Nat → State) : State :=
  s.admitAdmin ctx (fun e => e.opc == 0xc5 && (d.action == action || decide (3 < d.action))) fun s x =>
    let i := x.e.sliceNo
    if !vendorOk x.e 0x3ff 0 0 0 0 0 then s.finish ctx stInvField 0 0 3
    else
      match x.e.dptrFault 4096 false with
      | some f => s.finish ctx f
      | none =>
        match s.resJudge i d with
        | some f => s.finish ctx f
        | none => if (s.slice i).st = .none ∨ (s.slice i).st = .destroying then s.finish ctx stSequence else act s i

/-- Slice Resources, action Quiesce (R95). -/
def execQuiesce (ctx : Nat) (d : SliceData) (s : State) : Host.Outcome State Fault Refusal :=
  .next (s.sliceRes ctx d 0 fun s i =>
    match (s.slice i).st with
    | .active =>
      (((s.stampCtx ctx).sliceEdit i fun x => { x with st := .quiescing, quiesceWait := [ctx] }).stateNotice i).quiesceCheck i
    | .quiescing => (s.stampCtx ctx).sliceEdit i fun x => { x with quiesceWait := x.quiesceWait ++ [ctx] }
    | .quiesced => s.adminDone ctx stOk
    | _ => s.adminDone ctx stSequence)

/-- QUIESCE_TIMEOUT (R95): five seconds after the stamp of the Quiesce. -/
def execQuiesceTimeout (slice : Nat) (s : State) : Host.Outcome State Fault Refusal :=
  if (s.slice slice).st = .quiescing then .next (s.sliceFreeze slice 5) else .next s

/-- Slice Resources, action Freeze (R95). -/
def execFreeze (ctx : Nat) (d : SliceData) (s : State) : Host.Outcome State Fault Refusal :=
  .next (s.sliceRes ctx d 3 fun s i => ((s.stampCtx ctx).sliceFreeze i 1).finish ctx stOk)

/-- COMPLETIONS_LOST, one notice for each queue that lost completions (R86, R265). -/
def State.lostNotices (s : State) (i : Nat) : State :=
  ((s.slice i).lostCpl.foldl (fun s p => if p.2 = 0 then s else s.notice i 0x0a p.1 p.2) s).sliceEdit i fun x => { x with lostCpl := [] }

/-- Slice Resources, action Resume (R95, R83, R86). -/
def execResume (ctx : Nat) (d : SliceData) (s : State) : Host.Outcome State Fault Refusal :=
  .next (s.sliceRes ctx d 2 fun s i =>
    match (s.slice i).st with
    | .quiesced | .frozen =>
      if (s.slice i).st = .frozen ∧ (s.slice i).reason = 4 ∧ s.alarmHolds then s.finish ctx stSliceFrozen
      else
        ((((s.stampCtx ctx).sliceEdit i fun x => { x with st := .active, reason := 0 }).stateNotice i).lostNotices i).finish ctx stOk
    | _ => s.finish ctx stSequence)

/-! ### Change (R96-R98) -/

/-- Highest enabled queue of a slice plus 1. -/
def State.enabledTop (s : State) (i : Nat) : Nat :=
  (List.range 128).foldl (fun m q => match s.sqs.look (sliceQ i q) with | some x => if x.enabled then q + 1 else m | none => m) 0

/-- An enabled queue, the mailbox or the notice ring of a slice uses a vector index at or above `n`. -/
def State.vecsAbove (s : State) (i n : Nat) : Bool :=
  decide (n ≤ (s.slice i).mbvec) || decide (n ≤ (s.slice i).nr.nvec) ||
  (List.range 128).any fun q => match s.sqs.look (sliceQ i q), s.cqs.look (sliceQ i q) with
    | some x, some c => x.enabled && decide (n ≤ c.iv) | _, _ => false

/-- Bytes provisioned to a slice (R75). -/
def State.provisioned (s : State) (i : Nat) : Nat := s.nss.sum fun _ n => if n.owner = i then n.nsze * 4096 else 0

/-- The failure of a Change, its structure having passed (R96, R97). -/
def State.changeCheck (s : State) (i : Nat) (d : SliceData) : Option Status :=
  let b := fun k => d.change.testBit k
  let x := s.slice i
  if d.change % 16 ≠ 0 ∧ ¬(x.st = .quiesced ∨ (x.st = .frozen ∧ s.ctxHeld i = 0)) then some stSequence
  else if b 0 && decide (d.qpairs < s.enabledTop i) then some stInvField
  else if b 1 && (s.vecsAbove i d.vecCount || !s.vecsFree i d.vecBase d.vecCount) then some stInvField
  else if b 3 && (decide (d.readPool < s.rdHeld i) || decide (d.stagePool * 64 < s.stgHeld i)) then some stInvField
  else if b 8 && ((d.quotaProv != 0 && decide (d.quotaProv < s.provisioned i))
      || (d.quotaWrite != 0 && decide (d.quotaWrite < x.written * 4096))) then some stInvField
  else if (b 0 && decide (s.qpFree i < d.qpairs)) || (b 2 && decide (s.ctxFreeFor i < d.ctxReserve))
      || (b 3 && (decide (s.rdFree i < d.readPool) || decide (s.stgFree i < d.stagePool))) then some stPoolEmpty
  else none

/-- The fields of CHANGE bits 0-3. -/
def Slice.changeLow (x : Slice) (d : SliceData) : Slice :=
  let b := fun k => d.change.testBit k
  { x with
    qpairs := if b 0 then d.qpairs else x.qpairs
    vecBase := if b 1 then d.vecBase else x.vecBase, vecCount := if b 1 then d.vecCount else x.vecCount
    ctxReserve := if b 2 then d.ctxReserve else x.ctxReserve, ctxLimit := if b 2 then d.ctxLimit else x.ctxLimit
    readPool := if b 3 then d.readPool else x.readPool, stagePool := if b 3 then d.stagePool else x.stagePool }

/-- The fields of CHANGE bits 4-8. -/
def Slice.changeHigh (x : Slice) (d : SliceData) : Slice :=
  let b := fun k => d.change.testBit k
  { x with
    lclass := if b 4 then d.lclass else x.lclass, weight := if b 5 then d.weight else x.weight
    raAllow := if b 6 then d.raAllow else x.raAllow
    fenceCount := if b 7 then d.fenceCount else x.fenceCount, fences := if b 7 then d.fences else x.fences
    handles := if b 7 then d.handles else x.handles, excl := if b 7 then d.flags.testBit 0 else x.excl
    quotaProv := if b 8 then d.quotaProv else x.quotaProv, quotaWrite := if b 8 then d.quotaWrite else x.quotaWrite }

/-- Apply a Change: bits 0-3 at the stamp, bits 4-8 by a configuration commit at the epoch boundary (R97, R98), each with
its RESOURCES_CHANGED notice. -/
def State.changeApply (s : State) (ctx i : Nat) (d : SliceData) : State :=
  let lo := d.change % 16
  let hi := d.change - lo
  let st := s.gate.next
  let s1 := ((s.stampCtx ctx).sliceEdit i fun x => x.changeLow d).ledger
  let s2 := if lo = 0 then s1 else s1.notice i 0x05 lo st
  let s3 := if hi = 0 then s2 else
    let a := (s2.enterCfg .config).sliceEdit i fun x => x.changeHigh d
    (a.notice i 0x05 hi a.gate.next).markRun
  s3.finish ctx stOk

/-- The gate can issue the command's stamp, and behind it that of the configuration commit (R35, R97). -/
def State.canStampBoth (s : State) (d : SliceData) : Bool := d.change < 16 || (s.stampTo (s.gate.next + 1)).canStamp

/-- Slice Resources, action Change (R96-R98). -/
def execChange (ctx : Nat) (d : SliceData) (s : State) : Host.Outcome State Fault Refusal :=
  .next (s.sliceRes ctx d 1 fun s i =>
    match s.changeCheck i d with
    | some f => s.finish ctx f
    | none => if s.canStampBoth d then s.changeApply ctx i d else s)

/-! ### Destroy Slice (R99, R100) -/

/-- The completion of a decided command cannot be posted: its completion queue is full. -/
def State.cqFull (s : State) (x : Ctx) : Bool :=
  match s.cqs.look (s.cqOf x.q) with | some c => c.full | none => true

/-- Discard the commands of a slice that are fetched and not stamped, and the completions that cannot be posted. -/
def State.sliceDiscard (s : State) (i : Nat) : State :=
  forNats (s.ctxs.keysWhere fun _ x => qOwner x.q == i && (x.phase == .fetched || (x.phase == .done && s.cqFull x))) s State.ctxFree

/-- Empty a mailbox direction (R106). -/
def Mbox.flush (m : Mbox) : Mbox :=
  let past := (m.tail + m.part) % 64
  { m with head := past, tail := past, part := 0, need := 0, flushedSeen := m.flushedSeen || decide (m.part ≠ 0) }

/-- Destroy Slice accepted: steps 1-5 of R99. -/
def State.destroy (s : State) (ctx i : Nat) : State :=
  let s1 := (s.sliceEdit i fun x => { x with st := .destroying, reason := 0, destroyCtx := some ctx }).sliceDiscard i
  let s2 := (s1.revoke i).sliceEdit i fun x => { x with
    up := x.up.flush, down := x.down.flush, nr := { x.nr with en := false }, pasid := 0 }
  { s2 with key := { s2.key with owners := s2.key.owners.del i }
            dma := { s2.dma with chans := s2.dma.chans.edit i fun k => { k with halted := false, multi := false } } }

/-- Destroy Slice (R99). -/
def execDestroySlice (ctx : Nat) (s : State) : Host.Outcome State Fault Refusal :=
  .next (s.admitAdmin ctx (fun e => e.opc == 0xc4) fun s x =>
    let i := x.e.sliceNo
    if !vendorOk x.e 0x3ff 0 0 0 0 0 then s.finish ctx stInvField 0 0 3
    else if i = 1023 ∧ s.rsv1023 then s.finish ctx stInvField
    else if ((s.slice i).st ≠ .quiesced ∧ (s.slice i).st ≠ .frozen) ∨ s.nss.any (fun _ n => n.owner == i) then s.finish ctx stSequence
    else (s.stampCtx ctx).destroy ctx i)

/-- Nothing of a slice is left. -/
def State.sliceEmpty (s : State) (i : Nat) : Bool := s.ctxHeld i == 0 && s.stgHeld i == 0 && s.rdHeld i == 0

/-- The slice reaches NONE; only the count of its creations is kept. -/
def State.sliceGone (s : State) (i : Nat) : State :=
  let c := (s.slice i).destroyCtx
  let s1 := (s.tallyShut i).sliceEdit i fun x => { ({} : Slice) with inst := x.inst }
  let s2 := { s1 with
    sqs := s1.sqs.filter fun p => qOwner p.1 ≠ i ∨ p.1 < 1024, cqs := s1.cqs.filter fun p => qOwner p.1 ≠ i ∨ p.1 < 1024
    qrecs := s1.qrecs.filter fun p => qOwner p.1 ≠ i ∨ p.1 < 1024
    toks := s1.toks.del i, lat := { s1.lat with tokens := s1.lat.tokens.del i }, dma := { s1.dma with chans := s1.dma.chans.del i } }
  let s3 := s2.ledger.stampSend [s2.gate.sent, 18, i]
  match c with | some c => s3.finish c stOk | none => s3

/-- SLICE_RESOURCES_RETURNED: every resource of a slice in DESTROYING has come back (R82, R99). -/
def execSliceReturned (slice : Nat) (s : State) : Host.Outcome State Fault Refusal :=
  if (s.slice slice).st ≠ .destroying then .next s
  else
    let s1 := s.sliceDiscard slice
    .next (if s1.sliceEmpty slice then s1.sliceGone slice else s1)

/-! ### Thaw Queue (R138) -/

/-- The queue a Thaw Queue names, if check 1 passes. -/
def State.thawTarget (s : State) (e : SqEntry) : Option Nat :=
  let qid := bitsAt e.cdw10.toNat 0 16
  let i := bitsAt e.cdw10.toNat 16 10
  if e.cdw10.getLsbD 31 then
    if (s.slice i).st ≠ .none ∧ (s.slice i).st ≠ .destroying ∧ qid < 128 then some (sliceQ i qid) else none
  else if i = 0 ∧ qid ≠ 0 ∧ qid < 1024 ∧ s.sqs.has qid then some qid else none

/-- Commands of a queue stamped and not yet completed (INFLIGHT, R137). -/
def State.inflight (s : State) (q : Nat) : Nat := s.ctxs.count fun _ x => x.q == q && x.stamped

/-- The freeze ends; FREEZES and FREEZE_STAMP are kept (R138). -/
def State.thawQ (s : State) (q : Nat) : State :=
  { s with sqs := s.sqs.edit q (fun x => { x with frozen := false, frozenSeen := false })
           qrecs := s.qrecs.edit q fun r => { r with overflow := false, entries := [] } }

/-- Thaw Queue (R138). -/
def execThawQueue (ctx : Nat) (s : State) : Host.Outcome State Fault Refusal :=
  .next (s.admitAdmin ctx (fun e => e.opc == 0xc8) fun s x =>
    if !vendorOk x.e 0x83ffffff 0 0 0 0 0 then s.finish ctx stInvField 0 0 3
    else
      match s.thawTarget x.e with
      | none => s.finish ctx stInvField
      | some q =>
        if !(match s.sqs.look q with | some y => y.frozenSeen | none => false) then s.finish ctx stSequence
        else if s.inflight q ≠ 0 then s.finish ctx stSequence
        else (s.thawQ q).adminDone ctx stOk)

end Sys2Proof.Machine
end

