-- ==== Sys2Proof/Machine/Meter.lean ====
section
/-! DEFINITION. The Quornany meter island (R339-R363): samples, tally batches, intervals and their records, the metering
zone with its merges and acknowledgements, the seal and the sealed parameters, and Meter Fetch. -/

namespace Sys2Proof.Machine

open Sys2Proof

def State.mtrEdit (s : State) (f : Mtr → Mtr) : State := { s with mtr := f s.mtr }

/-- A legally relevant parameter in force (R359). -/
def Mtr.param (m : Mtr) (k : Nat) : Nat := m.params.get k 0

/-! ### Records (R349-R351) -/

/-- Length in bytes, signature included. -/
def MRec.length (r : MRec) : Nat := match r.audit with | some _ => 448 | none => 352 + 48 * r.entries.length

/-- A full-size record, the metering zone and the island's buffer, in bytes (R349, R352). -/
def fullRecord : Nat := 49600
def zoneBytes : Nat := 8 * 2 ^ 30
def bufferBytes : Nat := 524288

def recBytes (l : List MRec) : Nat := (l.map MRec.length).sum

/-- An entry as bytes at an offset (R350). -/
def Tally.fields (t : Tally) (o : Nat) : List (Nat × Nat × Nat) :=
  [ (o, 2, t.owner), (o + 2, 2, t.eflags), (o + 4, 4, t.inst), (o + 8, 8, t.prov), (o + 16, 8, t.occ), (o + 24, 8, t.rd)
  , (o + 32, 8, t.wr), (o + 40, 8, t.energy) ]

/-- The signed bytes of a record at an offset (R349, R350, R362). -/
def MRec.body (r : MRec) (o : Nat) : List (Nat × Nat × Nat) :=
  [ (o, 1, r.type), (o + 1, 1, r.level), (o + 2, 2, r.flags), (o + 4, 4, r.length), (o + 8, 8, r.recno), (o + 16, 8, r.firstno)
  , (o + 24, 8, r.tStart), (o + 32, 8, r.tEnd), (o + 40, 8, r.crownEnd), (o + 48, 8, r.stampLast), (o + 56, 4, r.sealCnt)
  , (o + 60, 2, r.entries.length), (o + 62, 2, r.minutes), (o + 64, 8, r.eTotal), (o + 72, 48, r.prev.toNat)
  , (o + 120, 48, r.tailhash.toNat), (o + 168, 32, r.swck.toNat) ]
  ++ (match r.audit with
      | some (k, p, old, new, sw) => [(o + 256, 1, k), (o + 257, 1, p), (o + 260, 4, r.sealCnt), (o + 264, 16, old), (o + 280, 16, new), (o + 296, 32, sw)]
      | none => ((List.range r.entries.length).zip r.entries).flatMap fun x => x.2.fields (o + 256 + 48 * x.1))

/-- SHA-384 of the signed bytes (R351). -/
def MRec.hash (r : MRec) : BitVec 384 :=
  Config.recordHash ((r.body 0).map fun f => f.2.2 % 2 ^ (8 * f.2.1) * 2 ^ (8 * f.1)).sum

/-- The link of a record (R351): its TAILHASH when merged. -/
def MRec.link (r : MRec) : BitVec 384 := if r.flags.testBit 0 then r.tailhash else r.hash

/-- A record as bytes at an offset, with its signature. -/
def MRec.fields (r : MRec) (o : Nat) : List (Nat × Nat × Nat) := r.body o ++ [(o + r.length - 96, 96, Config.recordSig r.hash)]

/-! ### Merging (R356) -/

/-- The last entry of each owner instance in a run. -/
def mergeEntries (l : List MRec) : List Tally :=
  (l.flatMap (·.entries)).foldl (fun m t => (m.filter fun x => !(x.owner == t.owner && x.inst == t.inst)) ++ [t]) []

/-- The merged record of a run. -/
def mergeRun (l : List MRec) : Option MRec :=
  match l, l.getLast? with
  | a :: _, some z => some
      { z with
        level := a.level + 1, flags := (l.foldl (fun f r => f ||| r.flags) 1), firstno := a.firstno, tStart := a.tStart
        minutes := (l.map (·.minutes)).sum, prev := a.prev, tailhash := z.link, entries := mergeEntries l }
  | _, _ => none

/-- The first run of `k` consecutive records that satisfy a test. -/
def findRun (p : MRec → Bool) (k : Nat) : List MRec → Option (List MRec)
  | [] => none
  | a :: t => if k ≤ (a :: t).length ∧ ((a :: t).take k).all p then some ((a :: t).take k) else findRun p k t

/-- Record numbers without their chip bits. -/
def recNum (n : Nat) : Nat := n % 2 ^ 62

/-- A record that a run may hold: an unacknowledged interval record of the level, older than 24 hours of island time. -/
def Mtr.inRun (m : Mtr) (level : Nat) (r : MRec) : Bool :=
  r.type == 1 && r.level == level && decide (m.acked < r.recno) && decide (r.tEnd + 86400 * 10 ^ 9 ≤ m.time)

/-- The runs in the order they are taken: the oldest 60 of level 0, then the oldest 24 of level 1; after one that fails
verification, the next run behind it. -/
def Mtr.nextRun (m : Mtr) (skip : Bool) : Option (List MRec) :=
  let from_ := fun (l : List MRec) => match findRun (m.inRun 0) 60 l with
    | some r => some r
    | none => findRun (m.inRun 1) 24 l
  match from_ m.zone with
  | none => none
  | some r => if skip then from_ (m.zone.filter fun x => decide ((r.getLast?.map (·.recno)).getD 0 < x.recno)) else some r

/-- MTR_STATUS. -/
def Mtr.status (m : Mtr) : Nat :=
  bit m.run 31 + m.halt * 2 ^ 28 + bit m.sealOpen 27 + bit m.clkFault 26 + bit m.zoneFull 25 + m.buffer.length * 2 ^ 16
    + recBytes m.zone * 100 / zoneBytes

def Mtr.freeBytes (m : Mtr) : Nat := zoneBytes - recBytes m.zone

/-- Free space below 64 full-size records. -/
def Mtr.low (m : Mtr) : Bool := decide (m.freeBytes < 64 * fullRecord)

/-! ### Writing a record -/

/-- The island's buffer takes a record; one that would overflow it first merges its oldest interval records (R352). -/
def Mtr.bufferAdd (m : Mtr) (r : MRec) : Mtr :=
  let old := m.buffer.takeWhile fun x => x.type == 1
  let buf := if bufferBytes < recBytes m.buffer + r.length then
      match (if 2 ≤ old.length then mergeRun old else none) with
      | some x => x :: m.buffer.drop old.length
      | none => m.buffer
    else m.buffer
  { m with buffer := buf ++ [r], nextRec := m.nextRec + 1, lastLink := r.link }

/-- Header common to every record. -/
def State.mtrHeader (s : State) (type flags : Nat) : MRec :=
  let m := s.mtr
  { type := type, flags := flags, recno := s.cas.chip * 2 ^ 62 + m.nextRec, firstno := s.cas.chip * 2 ^ 62 + m.nextRec
    tStart := m.tStart, tEnd := m.time, crownEnd := m.lastCrown, stampLast := m.lastStamp, sealCnt := m.sealCnt
    eTotal := m.eTotal, prev := m.lastLink, swck := m.swck }

/-- A finished record goes to the buffer; with eight waiting the store event is raised (R352). -/
def State.mtrPut (s : State) (r : MRec) : State :=
  let s1 := s.mtrEdit fun m => m.bufferAdd r
  if s.mtr.buffer.length < 8 ∧ 8 ≤ s1.mtr.buffer.length then s1.fire 195 else s1

/-- An audit record (R362). -/
def State.mtrAudit (s : State) (kind param old new oldSwck : Nat) : State :=
  s.mtrPut { s.mtrHeader 2 0 with tStart := s.mtr.time, audit := some (kind, param, old, new, oldSwck) }

/-! ### Interval close (R342, R347, R348) -/

/-- The PF and the system always have an entry (R344). -/
def Mtr.ensure (m : Mtr) : Mtr :=
  let add := fun (l : List Tally) (o : Nat) => if l.any fun t => t.owner == o then l else l ++ [{ owner := o, inst := 0 }]
  { m with tallies := add (add m.tallies 1024) 1025 }

/-- The active share of an owner: by die time; all of it to the system when no die worked. -/
def actShare (a die total : Nat) : Nat := if total = 0 then 0 else a * die / total

/-- The base share of an owner: by occupied capacity. With CAP_MIB 0 the spec states no result: a free value. -/
def baseShare (b occ cap tNs free : Nat) : Nat :=
  if b = 0 then 0 else if cap * tNs = 0 then free else b * occ * 10 ^ 9 / (cap * tNs)

/-- Entry flags at the close: CREATED and DESTROYED as noted, FROZEN as the slice stands (R350). -/
def State.closeFlags (s : State) (t : Tally) : Nat :=
  if t.owner < 1024 ∧ (s.slice t.owner).st = .frozen ∧ (s.slice t.owner).inst = t.inst then t.eflags ||| 4 else t.eflags

/-- The values at a close are the marks of the next interval. -/
def Tally.mark (t : Tally) : Tally := { t with eflags := 0, occMark := t.occ, dieMark := t.dieUs }

/-- The flags of an interval record (R349). -/
def Mtr.closeFlags (m : Mtr) (part : Bool) : Nat :=
  let drift := decide (10 ^ 9 < m.time - m.lastCrown) || decide (10 ^ 9 < m.lastCrown - m.time)
  (if m.sealSeen then 2 else 0) + (if part then 4 else 0) + (if m.clkFault then 8 else 0) + (if m.adcOvr then 16 else 0)
    + (if drift then 32 else 0) + (if m.tallyFault then 64 else 0) + (if m.restored then 128 else 0) + (if m.zoneFull then 256 else 0)

/-- The island closes the interval under way and writes its record. -/
def State.mtrClose (s : State) (part : Bool) : State :=
  let m := s.mtr.ensure
  let tNs := m.time - m.tStart
  let e := m.energy
  let b := min e (m.param 5 * tNs / 10 ^ 6)
  let a := e - b
  let total := (m.tallies.map fun t => t.dieUs - t.dieMark).sum
  let free := s.freeVal % (b / (m.tallies.length + 1) + 1)
  let share := fun (t : Tally) => if t.owner = 1025 then 0 else
    baseShare b (t.occ - t.occMark) (m.param 6) tNs free + actShare a (t.dieUs - t.dieMark) total
  let rest := e - (m.tallies.map share).sum
  let done : List Tally := m.tallies.map fun t => { t with
    energy := t.energy + (if t.owner = 1025 then rest else share t), eflags := s.closeFlags t }
  let r := { s.mtrHeader 1 (m.closeFlags part) with eTotal := m.eTotal + e, minutes := if part then 0 else 1, entries := done }
  let s1 := { s with mtr := { m with
    tallies := (done.filter fun (t : Tally) => !t.eflags.testBit 1).map Tally.mark
    eTotal := m.eTotal + e, energy := 0, tStart := m.time
    sealSeen := m.sealOpen, clkFault := !m.x32Ok, adcOvr := false, tallyFault := false, restored := false
    powerMw := if tNs = 0 then s.freeVal % 2 ^ 32 else e * 10 ^ 6 / tNs } }
  (s1.freeStep).mtrPut r

/-- The save sequence asks for the chain head: the interval closes early, and the buffered records are saved (R353). -/
def State.mtrSave (s : State) : State :=
  if s.mtr.run then (s.mtrClose true).mtrEdit fun m => { m with zone := m.zone ++ m.buffer, buffer := [] } else s

/-- CLKFAULT or TALLY_FAULT is set: event 196, once while it stands. -/
def State.mtrFault (s : State) (f : Mtr → Mtr) : State :=
  let s1 := s.mtrEdit f
  if (s1.mtr.clkFault && !s.mtr.clkFault) || (s1.mtr.tallyFault && !s.mtr.tallyFault) then s1.fire 196 else s1

/-- INTERVAL_CLOSE: island time reaches the next multiple of 60 s; `ppm` is the difference measured between the crystals,
a million of them for a crystal that stands still (R342, R347). -/
def execIntervalClose (ppm : Nat) (s : State) : Host.Outcome State Fault Refusal :=
  if !s.mtr.run then .next s
  else
    let due := (s.mtr.tStart / (60 * 10 ^ 9) + 1) * (60 * 10 ^ 9)
    let s1 := s.mtrFault fun m => { m with
      time := max m.time due, x32Ok := decide (ppm < 1000000), clkFault := m.clkFault || decide (100 < ppm) }
    .next (s1.mtrClose false)

/-- ADC_SAMPLE (R343): one pair of samples, ISNS and VSNS in µV. An RSHUNT of 0 leaves the current unstated: a free value. -/
def execAdcSample (isnsUv vsnsUv : Int) (s : State) : Host.Outcome State Fault Refusal :=
  if !s.mtr.run then .next s
  else
    let m := s.mtr
    let i := Config.adcCorrect (m.param 3) (max (-100000) (min 100000 isnsUv))
    let v := Config.adcCorrect (m.param 4) (max 0 (min 1250000 vsnsUv))
    let outside := decide (isnsUv < -100000 ∨ 100000 < isnsUv ∨ vsnsUv < 0 ∨ 1250000 < vsnsUv)
    let den := m.param 1 * 10 ^ 9
    let sum := m.frac + (i * v * (m.param 2 : Int) * 125).toNat
    let add := if den = 0 then s.freeVal else sum / den
    .next (({ s with mtr := { m with
      energy := m.energy + add, frac := if den = 0 then m.frac else sum % den, adcOvr := m.adcOvr || outside } }).freeStep)

/-! ### Tally batches (R345) -/

/-- Blocks of a zone that hold host data. -/
def Zone.occupied (z : Zone) : Nat := z.vers.count fun _ l => match l with | v :: _ => !v.dealloc | [] => false

/-- A zone's rows lie on this chip. -/
def Zone.here (z : Zone) : Bool :=
  match z.place, z.logRow with | some p, _ => p.chip == 0 | none, some p => p.chip == 0 | none, none => false

/-- Bytes provisioned to an owner, and bytes it occupies on this chip. -/
def State.provBytes (s : State) (o : Nat) : Nat := s.nss.sum fun _ n => if n.owner = o then n.nsze * 4096 else 0
def State.occBytes (s : State) (o : Nat) : Nat :=
  s.zones.sum fun k z => if s.nsOwner (zNsid k) = o ∧ z.here then z.occupied * 4096 else 0

/-- The tally stage at a staging tick: PROV and OCC for its span in ns, and the batch to the island (R344, R345). -/
def State.tallyTick (s : State) (stamp span : Nat) : State :=
  let owners := (s.nss.map (·.2.owner)).eraseDups
  let s1 := owners.foldl (fun (s : State) o =>
    let p := if s.cas.crown then s.provBytes o * span else 0
    let c := s.occBytes o * span
    if p = 0 ∧ c = 0 then s else s.tally o fun t => { t with prov := t.prov + p, occ := t.occ + c }) s
  let rows := s1.mtr.gone ++ (s1.mtr.stage.filter fun p => !p.2.told).map fun p => p.2.row p.1 false
  (s1.mtrEdit fun m => { m with gone := [], stage := m.stage.mapV fun _ t => { t with told := true } }).say (.tally stamp s.now rows)

/-- A row raises no counter of its instance backwards. -/
def Mtr.rowOk (m : Mtr) (r : TallyRow) : Bool :=
  match m.tallies.find? fun t => t.owner == r.owner && t.inst == r.inst with
  | some t => decide (t.prov ≤ r.prov ∧ t.occ ≤ r.occ ∧ t.rd ≤ r.rd ∧ t.wr ≤ r.wr ∧ t.dieUs ≤ r.dieUs)
  | none => true

/-- The cumulative values of a row replace those held. -/
def Mtr.rowTake (m : Mtr) (r : TallyRow) : Mtr :=
  let new : Tally → Tally := fun t => { t with
    prov := r.prov, occ := r.occ, rd := r.rd, wr := r.wr, dieUs := r.dieUs, eflags := if r.gone then t.eflags ||| 2 else t.eflags }
  if m.tallies.any fun t => t.owner == r.owner && t.inst == r.inst then
    { m with tallies := m.tallies.map fun t => if t.owner = r.owner ∧ t.inst = r.inst then new t else t }
  else { m with tallies := m.tallies ++ [new { owner := r.owner, inst := r.inst, eflags := if r.owner < 1024 then 1 else 0 }] }

/-- TALLY_BATCH: a batch reaches the island (R345). -/
def execTallyBatch (stamp crownNs : Nat) (rows : List TallyRow) (s : State) : Host.Outcome State Fault Refusal :=
  if !s.mtr.run then .next s
  else if stamp ≤ s.mtr.lastStamp ∨ !rows.all s.mtr.rowOk then .next (s.mtrFault fun m => { m with tallyFault := true })
  else .next (s.mtrEdit fun m => { rows.foldl Mtr.rowTake m with lastStamp := stamp, lastCrown := crownNs })

/-! ### Storage (R352, R355, R356, R357) -/

/-- ZONE_FULL clears once space has returned. -/
def State.mtrSpace (s : State) : State := s.mtrEdit fun m => { m with zoneFull := m.zoneFull && m.low }

/-- Acknowledged records at the old end are reclaimed one erase block at a time. Which records share an erase block is not
stated: how far the reclaim has come is a free value. -/
def State.mtrReclaim (s : State) : State :=
  let n := (s.mtr.zone.takeWhile fun r => decide (r.recno ≤ s.mtr.acked)).length
  ((s.mtrEdit fun m => { m with zone := m.zone.drop (s.freeVal % (n + 1)) }).freeStep).mtrSpace

/-- An acknowledgement is applied. -/
def State.mtrAckDo (s : State) (n : Nat) : State := (s.mtrEdit fun m => { m with acked := n }).mtrReclaim

/-- RECORD_STORED: the main chip has programmed a record (R352); a merged record then stands for its originals, and an
acknowledgement that waited for it is applied (R357). -/
def execRecordStored (recno : Nat) (s : State) : Host.Outcome State Fault Refusal :=
  let m := s.mtr
  match m.merging with
  | some r =>
    if r.recno = recno then
      let keep := m.zone.takeWhile fun x => decide (x.recno < r.firstno)
      let rest := m.zone.filter fun x => decide (r.recno < x.recno)
      let s1 := s.mtrEdit fun m => { m with
        zone := keep ++ [r] ++ rest, merging := none, merges := satAdd 0xffff m.merges 1, ackWait := none }
      .next (match m.ackWait with | some n => s1.mtrAckDo n | none => s1.mtrSpace)
    else .next s
  | none =>
    match m.buffer with
    | r :: t =>
      if r.recno = recno ∧ r.length ≤ m.freeBytes then .next (s.mtrEdit fun m => { m with zone := m.zone ++ [r], buffer := t })
      else .next s
    | [] => .next s

/-- METER_MERGE (R356): with little space left the next run is merged; `verified` says that every signature of the oldest run
passes, else that run is skipped and counted. -/
def execMeterMerge (verified : Bool) (s : State) : Host.Outcome State Fault Refusal :=
  let m := s.mtr
  if !m.run ∨ !m.low ∨ m.merging.isSome then .next s
  else
    let s1 := if !verified && (m.nextRun false).isSome then s.mtrEdit fun m => { m with mergeFails := satAdd 0xffff m.mergeFails 1 } else s
    match (m.nextRun !verified).bind mergeRun with
    | some r => .next (s1.mtrEdit fun m => { m with merging := some r })
    | none =>
      let s2 := s1.mtrEdit fun m => { m with zoneFull := true }
      .next (if m.zoneFull then s2 else s2.fire 194)

def Mtr.newest (m : Mtr) : Nat := (m.zone.getLast?.map (·.recno)).getD 0
def Mtr.oldest (m : Mtr) : Nat := (m.zone.head?.map (·.firstno)).getD 0

/-- A member's islands can be reached: ACTIVE, or FENCED with its link up (R354). -/
def State.memberReach (s : State) (c : Nat) : Bool :=
  match s.cas.members.look c with
  | some m => m.st == .active || (m.st == .fenced && decide (5 ≤ (s.port (portOf c)).phase))
  | none => false

/-- MTR_ACK (R355, R357). -/
def execMtrAck (v : Word) (s : State) : Host.Outcome State Fault Refusal :=
  let n := v.toNat
  let res := fun (k : Nat) => s.mtrEdit fun m => { m with ackResult := k }
  if n / 2 ^ 62 ≠ s.cas.chip then
    .next (if s.memberReach (n / 2 ^ 62) then (res 0).casSend (portOf (n / 2 ^ 62)) 0 0x30 16 [0, 2 ^ 65, n, 0] else res 3)
  else if n < s.mtr.acked then .next (res 1)
  else if s.mtr.newest < n then .next (res 2)
  else if s.mtr.merging.isSome then .next ((res 0).mtrEdit fun m => { m with ackWait := some n })
  else .next ((res 0).mtrAckDo n)

/-- The record that holds a number, located as in Meter Fetch (R354). -/
def Mtr.locate (m : Mtr) (n : Nat) : Option MRec := m.zone.find? fun r => decide (n ≤ r.recno)

/-- MTR_REC_SEL (R363). -/
def execMtrRecSel (recno : Word) (s : State) : Host.Outcome State Fault Refusal :=
  let r := s.mtr.locate recno.toNat
  .next (s.mtrEdit fun m => { m with recSel := recno, window := r, windowNone := r.isNone })

/-! ### Parameters (R359, R360) -/

/-- A value lies in the range of its parameter (R359); for PARAM 3 and 4 the gain is bits [31:0] and the offset bits [63:32]. -/
def paramOk (k v : Nat) : Bool :=
  if k = 1 then decide (100 ≤ v ∧ v ≤ 10000)
  else if k = 2 then decide (2000 ≤ v ∧ v ≤ 20000)
  else if k = 3 ∨ k = 4 then
    let g := bitsAt v 0 32
    let o := (BitVec.ofNat 32 (bitsAt v 32 32)).toInt
    decide (v < 2 ^ 64) && decide (58983 ≤ g ∧ g ≤ 72089) && decide (-2048 ≤ o ∧ o ≤ 2048)
  else if k = 5 then decide (v ≤ 100000)
  else if k = 6 then decide (1 ≤ v ∧ v ≤ 2 ^ 40)
  else k == 7 && decide (v < 2 ^ 64)

/-- A parameter takes its value; a fraction of a µJ keeps its size when RSHUNT changes. -/
def Mtr.apply (m : Mtr) (k v : Nat) : Mtr :=
  if k = 7 then { m with time := v, tStart := v }
  else
    { m with
      params := m.params.put k v
      frac := if k = 1 ∧ m.param 1 ≠ 0 then m.frac * v / m.param 1 else m.frac }

/-- The island decides a commit (R360). -/
def State.paramCommit (s : State) : State :=
  let m := s.mtr
  let k := m.paramSel
  let v := m.paramVal.toNat
  let res := fun (n : Nat) => s.mtrEdit fun m => { m with paramResult := n, paramBusy := false }
  if !m.sealOpen then res 1
  else if !paramOk k v then res 2
  else if 0xffffffff ≤ m.sealCnt then res 3
  else
    let old := if k = 7 then m.time else m.param k
    let s1 := ((res 0).mtrClose false).mtrEdit fun m => { m.apply k v with sealCnt := min 0xffffffff (m.sealCnt + 1) }
    s1.mtrAudit (if k = 7 then 2 else 1) k old v 0

/-- MTR_PARAM_COMMIT (R360): BUSY until the island has decided, which one that does not run does at its next start. -/
def execMtrParamCommit (s : State) : Host.Outcome State Fault Refusal :=
  if s.mtr.paramBusy then .next s
  else if !s.mtr.run then .next (s.mtrEdit fun m => { m with paramBusy := true })
  else .next s.paramCommit

/-! ### Program, start and clocks (R340-R342, R353) -/

/-- The island halts. -/
def State.mtrHalt (s : State) (k : Nat) : State := (s.mtrEdit fun m => { m with run := false, halt := k }).fire 192

/-- ISLAND_START (R341, R353): the program's checksum is `swck`, `programOk` says that it equals the sealed one, and
`chainOk` that a clean chain head exists. How long the island was off is not stated: a free value. -/
def execIslandStart (programOk chainOk : Bool) (swid : Dword) (swck : BitVec 256) (s : State) : Host.Outcome State Fault Refusal :=
  if s.mtr.run then .next s
  else if !programOk then .next ((s.mtrEdit fun m => { m with swck := swck }).mtrHalt 2)
  else
    let last := s.mtr.zone.getLast?
    let end_ := (last.map (·.tEnd)).getD 0
    let now := max s.mtr.time (end_ + s.freeVal)
    let s1 := (s.mtrEdit fun m => { m with
      run := true, halt := 0, lost := false, swid := swid, swck := swck, sealedSwck := swck, time := now, tStart := now, energy := 0
      x32Ok := true, x25Ok := true, clkFault := false, sealSeen := m.sealOpen }).freeStep
    let s2 := s1.mtrPut (s1.mtrHeader 4 0)
    let s3 := if chainOk && !s.mtr.lost then s2
      else (s2.mtrPut { s2.mtrHeader 3 0 with tStart := end_ }).mtrEdit fun m => { m with restored := true }
    .next (if s.mtr.paramBusy then s3.paramCommit else s3)

/-- ISLAND_SUPPLY_LOSS (R340): the island stops; what it had not stored is lost, and the chain goes on from the last
stored record (R353). -/
def execIslandSupplyLoss (s : State) : Host.Outcome State Fault Refusal :=
  .next (s.mtrEdit fun m =>
    let last := m.zone.getLast?
    { m with
      run := false, halt := 0, lost := true, buffer := [], merging := none, ackWait := none, energy := 0, frac := 0
      tallies := match last with | some r => r.entries.map Tally.mark | none => []
      eTotal := (last.map (·.eTotal)).getD 0, lastLink := (last.map MRec.link).getD 0
      nextRec := recNum ((last.map (·.recno)).getD 0) + 1, lastStamp := (last.map (·.stampLast)).getD 0 })

/-- A recomputation of the checksum: a difference from the sealed value halts the island (R341). -/
def State.swckCheck (s : State) (sum : BitVec 256) : State :=
  if !s.mtr.run then s
  else
    let s1 := s.mtrEdit fun m => { m with swck := sum }
    if sum = s.mtr.sealedSwck then s1 else s1.mtrHalt 3

/-- MTR_SWCK_GO (R341). -/
def execMtrSwckGo (sum : BitVec 256) (s : State) : Host.Outcome State Fault Refusal := .next (s.swckCheck sum)

/-- HOURLY_CHECKSUM (R341). -/
def execHourlyChecksum (sum : BitVec 256) (s : State) : Host.Outcome State Fault Refusal := .next (s.swckCheck sum)

/-- CRYSTAL_32K_STOP (R342): time goes on from the other crystal, with CLKFAULT in every record until this one returns. -/
def execCrystal32kStop (s : State) : Host.Outcome State Fault Refusal :=
  if s.mtr.run then .next (s.mtrFault fun m => { m with x32Ok := false, clkFault := true })
  else .next (s.mtrEdit fun m => { m with x32Ok := false })

/-- CRYSTAL_25M_STOP (R342). -/
def execCrystal25mStop (s : State) : Host.Outcome State Fault Refusal :=
  let s1 := s.mtrEdit fun m => { m with x25Ok := false }
  .next (if s.mtr.run then s1.mtrHalt 1 else s1)

/-! ### The seal (R358) -/

/-- SEAL_CHANGE (R358): the filtered level of MSEAL_OPEN. -/
def execSealChange (openLevel : Bool) (s : State) : Host.Outcome State Fault Refusal :=
  if openLevel = s.mtr.sealOpen then .next s
  else
    let s1 := s.fire 193 [{ s.mtr with sealOpen := openLevel }.status]
    if !s.mtr.run then .next (s1.mtrEdit fun m => { m with sealOpen := openLevel })
    else
      let s2 := (s1.mtrClose true).mtrEdit fun m => { m with sealOpen := openLevel, sealSeen := openLevel }
      .next (s2.mtrAudit (if openLevel then 5 else 6) 0 0 0 0)

/-! ### Meter Fetch (R354) -/

/-- Records in ascending order, as many as fit. -/
def fitRecs : List MRec → Nat → List MRec
  | [], _ => []
  | r :: t, room => if r.length ≤ room then r :: fitRecs t (room - r.length) else []

/-- Records laid out one after the other from an offset. -/
def layRecs : List MRec → Nat → List (Nat × Nat × Nat)
  | [], _ => []
  | r :: t, o => r.fields o ++ layRecs t (o + r.length)

/-- The data of a Meter Fetch from this chip's own zone. -/
def Mtr.fetch (m : Mtr) (n len : Nat) : List (Nat × Nat × Nat) :=
  let l := m.zone.dropWhile fun r => decide (r.recno < n)
  let got := fitRecs l (len - 40)
  [ (0, 8, (got.head?.map (·.recno)).getD 0), (8, 8, match got.getLast? with | some r => r.recno + 1 | none => n)
  , (16, 8, m.oldest), (24, 8, m.newest), (32, 4, got.length)
  , (36, 4, if got = [] then (match l.head? with | some r => r.length + 40 | none => 0) else 0) ] ++ layRecs got 40

/-- METER_FETCH (R354): a member's records are asked of the member, and the command waits for them (R329). -/
def execMeterFetch (ctx : Nat) (s : State) : Host.Outcome State Fault Refusal :=
  .next (s.admitAdmin ctx (fun e => e.opc == 0xca) fun s x =>
    let e := x.e
    let n := e.cdw1213
    let len := (e.cdw10.toNat + 1) * 4
    let chip := n / 2 ^ 62
    if !vendorOk e 0xffffffff 0 0xffffffff 0xffffffff 0 0 then s.finish ctx stInvField 0 0 3
    else
      match e.dptrFault len false with
      | some st => s.finish ctx st
      | none =>
        if e.cdw10.toNat < 9 then s.finish ctx stInvField
        else if !s.cas.named.getLsbD chip then s.finish ctx stInvField
        else if chip ≠ 0 ∧ !s.memberReach chip then s.finish ctx stMemberFenced
        else if chip ≠ 0 then
          ((s.stampCtx ctx).ctxEdit ctx fun y => { y with units := ceilDiv len 4096 }).casSend (portOf chip) 0 0x30 16 [ctx, 2 ^ 64, n, len]
        else if s.mtr.halt ≠ 0 then s.finish ctx stInternal
        else (s.say (.hostData ctx 0 len (s.mtr.fetch n len))).adminDone ctx stOk)

end Sys2Proof.Machine
end

