-- ==== Sys2Proof/Machine/Program.lean ====
section
/-! DEFINITION. Ends of programs and erases (R22, R151, R164, R181, R191, R197-R200), the media events of the stamped sequence
(R33): grown failures (R190, R192), die failure and rebuild (R215-R219), migration (R222); and channel retraining (R176). -/

namespace Sys2Proof.Machine

open Sys2Proof

/-! ### Block-info records (R181-R183) -/

/-- Temperature of a sample, °C + 64: the die's, or where the media profile gives no address the mapped thermistor, or
the Heather region of the channel when that is flagged (R183). -/
def State.sampleTemp (s : State) (dk dieTemp : Nat) : Nat :=
  if s.media (·.faTemp) ≠ 0 then min 255 dieTemp
  else
    let ch := dieChannel (dkDie dk)
    let m := s.mon.chans.get (14 + bitsAt s.mon.thermMap (2 * (ch / 8)) 2) {}
    let v : Int := if m.ovr then (s.regionTemp (if ch < 16 then 1 else 2)).getD 0 else m.value
    min 255 (v / 8 + 64).toNat

/-- A page row of a block is programmed: ROWS, times and temperature samples. TP_MEAN is the mean of the samples, rounded
down: DESIGN CHOICE, the spec gives no rounding. -/
def State.noteRow (s : State) (dk b dieTemp : Nat) (slc : Bool) : State :=
  let t := s.sampleTemp dk dieTemp
  let total := if slc then s.geom.slcRows else s.geom.rows
  s.blkEdit (blkKey dk b) fun x =>
    let first := x.rows == 0
    let sample := x.rows % 64 == 0
    let sum := x.tpSum + t
    let last := x.rows + 1 == total
    { x with
      rows := x.rows + 1
      ptOpen := if first then s.fch.mediaTime else x.ptOpen
      ptClose := if last then s.fch.mediaTime else x.ptClose
      tpOpen := if first then t else x.tpOpen
      tpMean := if sample then sum / (x.samples + 1) else x.tpMean
      tpSum := if sample then sum else x.tpSum
      samples := if sample then x.samples + 1 else x.samples
      st := if x.st = 2 ∧ last then 3 else if x.st = 4 ∧ last then 5 else x.st }

/-! ### A row, an entry or a copy is programmed -/

/-- A role position of a row that no program can reach: without a block, or on a failed die. -/
def State.posShut (s : State) (x : Nat × Option Nat) : Bool := x.2.isNone || !s.dieGood x.1

/-- What follows once a page of a row is programmed: P and Q after the data, from the accumulators (R206); with them the row is
programmed, and its staging is released (R22). Positions on a failed die that has no replacement are left out (R219). -/
def State.progCheck (s : State) (zk row : Nat) : State :=
  let z := s.zone zk
  let tag := tagOf row
  match (if z.rowPages.has row then z.rowPlace tag else none) with
  | none => s
  | some p =>
    let got := z.rowPages.get row []
    let data := (p.dataPos.filter fun x => s.dieGood x.2.1).map (·.1)
    let pq := ((List.range 2).zip (p.pos.take 2)).filterMap fun (i, x) => if s.posShut x then none else x.2.map fun b => (i, x.1, b)
    if !data.all got.contains then s
    else if pq.all fun x => got.contains x.1 then
      let dead := match z.slc with | some e => e.row == row | none => false
      let s2 := (s.accDrop zk row).zoneEdit zk fun z => { z with
        rowsDone := insNat row z.rowsDone, rowPages := z.rowPages.del row
        slc := if dead then none else z.slc
        slcWant := if (match z.slcNew with | some e => e.row == row | none => false) then false else z.slcWant }
      ((s2.releaseRow zk fun r _ => r == row).entryDead zk (if dead then z.slc else none)).flushDone zk
    else
      pq.foldl (fun s x =>
        let o : Op := { die := x.2.1, block := x.2.2, row := row - tag, kind := .prog zk row x.1, owner := s.zoneOwner zk, seq := 0 }
        if got.contains x.1 || s.rowOp zk row x.1 then s else s.opQueue o) (s.accTouch zk row accRowsAll)

/-- A page of a zone row is programmed with its content. -/
def State.progDone (s : State) (zk row pos : Nat) (g : Pg) : State :=
  match (s.zone zk).rowPlace (tagOf row) with
  | none => s
  | some p =>
    let s1 := if pos < 2 then s.fillParity zk row g else s.fillPages zk row p [g] (p.d * s.geom.u)
    (s1.zoneEdit zk fun z => { z with rowPages := z.rowPages.put row (insNat pos (z.rowPages.get row [])) }).progCheck zk row

/-- A page of an SLC entry is programmed; with its last page the entry is live, its staging is released, and the entry it
replaces is dead (R164). -/
def State.slcDone (s : State) (zk : Nat) : State :=
  match (s.zone zk).slcNew, (s.zone zk).slcNew.bind fun e => (s.zone zk).rowPlace (tagOf e.row) with
  | some e, some p =>
    if 1 < e.left then s.zoneEdit zk fun z => { z with slcNew := some { e with left := e.left - 1 } }
    else
      let done := (s.zone zk).rowsDone.contains e.row
      let new : SlcEntry := { e with left := 0, live := true }
      let old := if done then some new else (s.zone zk).slc
      let per := p.d * s.geom.u
      let s1 := (s.fillPages zk e.row p e.pages e.units).zoneEdit zk fun z => { z with slcNew := none, slc := if done then z.slc else some new }
      let s2 := if done then s1 else s1.releaseRow zk fun r i => r == e.row && decide (i % per < e.units)
      let s3 := s2.entryDead zk old
      let s4 := if (s3.zone zk).slcWant then s3.slcStart zk else s3
      if (s4.zone zk).slcNew.isSome then s4 else s4.flushDone zk
  | _, _ => s

/-- A page of a merge or migration copy is programmed (R159, R222). The last page of a merge ends it; the old rows of a
migration are read until its event. -/
def State.copyDone (s : State) (zk : Nat) : State :=
  let n := (s.zone zk).merging - 1
  let s1 := s.zoneEdit zk fun z => { z with merging := n }
  if n = 0 ∧ (s.zone zk).merging ≠ 0 then
    let s2 := s1.copyFill zk
    if (s.zone zk).migOld.isSome then s2
    else
      let s3 := (s2.zoneEdit zk fun z => { z with oldData := none, oldLog := none, oldUnits := [], oldSlc := none }).entryDead zk (s.zone zk).oldSlc
      forNats (s3.staging.keysWhere fun _ t => t.zone == zk && t.merged) s3 fun s k =>
        match s.staging.look k with | some t => s.releaseUnits k (List.range t.n) | none => s
  else s1

/-- A page is copied to a replacement block: from the failed block, or recovered where that could not be read; with the last one
the failed block is released (R190). -/
def State.replDone (s : State) (zk row pos : Nat) (g : Pg) : State :=
  let tag := tagOf row
  match (s.zone zk).copying.find? fun c => c.tag == tag && c.pos == pos && c.rows.contains (row - tag), (s.zone zk).rowPlace tag with
  | some c, some p =>
    let pages := s.rowPgs zk row p
    let lost := s.srcLost zk row false pages
    let old : Pg := { pos := pos, die := c.die, block := c.block, page := row - tag }
    let words := (List.range s.geom.u).filterMap fun j =>
      (if lost.contains pos then s.remake zk row p pages lost pos j else s.cwAt old j).map fun w => (j, w)
    let rows := c.rows.filter (· != row - tag)
    let s1 := (s.flashPut g.die g.block g.page words).zoneEdit zk fun z => { z with
      unread := z.unread.filter (· != (row, pos))
      copying := if rows = [] then z.copying.filter (· != c) else z.copying.map fun d => if d = c then { c with rows := rows } else d }
    if rows ≠ [] then s1
    else (s1.zoneEdit zk fun z => { z with ghosts := (c.key :: z.ghosts).eraseDups }).blockLeave c.die c.block
  | _, _ => s

/-- Pages of a queued row or entry, with its row set. -/
def State.rebSet (s : State) (zk row : Nat) (slc : Bool) : Option (Place × List Pg) :=
  let z := s.zone zk
  match z.rowPlace (tagOf row) with
  | none => none
  | some p => if slc then z.slc.map fun e => (p, e.pages) else some (p, s.rowPgs zk row p)

/-- A rebuilt page is programmed on the replacement (R214, R217). -/
def State.rebDone (s : State) (zk row pos : Nat) (slc : Bool) (g : Pg) : State :=
  match s.rebSet zk row slc with
  | none => s
  | some (p, pages) =>
    let lost := s.srcLost zk row slc pages
    let words := (List.range s.geom.u).filterMap fun j => (s.remake zk row p pages lost pos j).map fun w => (j, w)
    let s1 := s.flashPut g.die g.block g.page words
    { s1 with par := { s1.par with queue := s1.par.queue.map fun q =>
      if q.zone == zk && q.row == row && q.slc == slc && q.lost == pos then { q with done := true } else q } }

/-! ### Sanitizing sets (R197-R200) -/

/-- A block of sanitizing sets is settled: erased, or lost with its content when `bad`. -/
def State.setDone (s : State) (bk : Nat) (bad : Bool) : State :=
  let n := if bad then 1 else 0
  let cs := s.ctxs.keysWhere fun _ x => x.eraseSet.contains bk
  let s1 := forNats cs s fun s c =>
    match s.ctxs.look c with
    | none => s
    | some x =>
      let l := x.eraseSet.filter (· != bk)
      let s1 := s.ctxEdit c fun x => { x with eraseSet := l, eraseFails := x.eraseFails + n }
      if l ≠ [] then s1
      else if x.eraseFails + n = 0 then s1.finish c stOk else s1.finish c stInternal (BitVec.ofNat 32 (x.eraseFails + n))
  let s2 := { s1 with fch := { s1.fch with eraseList := s1.fch.eraseList.filter (· != bk) } }
  if s2.nvme.saniErase.contains bk then
    let l := s2.nvme.saniErase.filter (· != bk)
    let s3 := { s2 with nvme := { s2.nvme with saniErase := l, saniFails := s2.nvme.saniFails + n } }
    if l = [] then s3.sanErased else s3
  else s2

/-- The block is in a sanitizing set, or in the list saved over a stop. -/
def State.inSet (s : State) (bk : Nat) : Bool :=
  s.nvme.saniErase.contains bk || s.fch.eraseList.contains bk || s.ctxs.any fun _ x => x.eraseSet.contains bk

/-! ### Die failure (R215-R219) -/

/-- Draw indexes of the sequence that the sheaf's drawing did not use, in order: those of the replacement channels (R211). The
drawing is followed on the sheaf as it was, so a channel counts as used while it holds a candidate or the failed die. -/
def State.spareDraws (s : State) (p : Place) (dk h : Nat) : List Nat :=
  permSpare (fun c => let l := s.cand p.chip p.fence c; if l = [] ∧ dieChannel (dkDie dk) = c then [dk] else l) h

/-- The sheaf's dies in member order, starting after a failed die (R208, R211, R216): P and Q were its first two members that
had a block, and a data position without a block was skipped, so the order is drawn again with the failed die in its place. -/
def State.sheafOrder (s : State) (zk : Nat) (p : Place) (dk : Nat) : List Nat :=
  let dies := p.pos.map (·.1)
  let drawn := if s.decl then
      permMembers (fun c => s.dies.keysWhere fun k d => dkChip k == p.chip && dieChannel (dkDie k) == c && fenceHas p.fence k && (!d.failed || dies.contains k))
        (permH (s.layoutKey zk) p.seed)
    else
      let g := dieGroup (dkDie (dies.headD 0))
      rotList ((List.range 16).map fun i => dieKey p.chip (groupDie g i)) (s.layoutKey zk % 16)
  let order := (drawn.filter dies.contains) ++ dies.filter fun d => !drawn.contains d
  let i := order.idxOf dk
  if s.decl then order.filter (· != dk) else (order.drop (i + 1)) ++ order.take i

/-- Candidates for the place of a failed die (R216), in order. -/
def State.replCands (s : State) (zk : Nat) (p : Place) (dk : Nat) : List Nat :=
  let own := s.ownerGroups (s.zoneOwner zk)
  let ok := fun d => s.dieGood d && fenceHas p.fence d && fenceHas own d
  let members := (s.sheafOrder zk p dk).eraseDups
  if s.decl then
    let h := permH (s.layoutKey zk) p.seed
    let cs := s.cand p.chip p.fence
    let spare := (s.spareDraws p dk h).filterMap fun i =>
      let l := cs (permChan h i)
      if l = [] then none else l[permIdx h i % l.length]?
    let chan := cs (dieChannel (dkDie dk))
    let order2 := (chan.filter fun d => decide (dk < d)) ++ chan.filter fun d => decide (d < dk)
    (spare ++ order2 ++ members).filter ok
  else members.filter ok

/-- The replacement: the first candidate with a free block. -/
def State.replacement (s : State) (zk : Nat) (p : Place) (dk : Nat) : Option (Nat × Nat) :=
  (s.replCands zk p dk).foldl (fun (r : Option (Nat × Nat)) d => match r with
    | some x => some x | none => (s.pickBlock d).map fun b => (d, b)) none

/-- PAR_CFG.SPB is computed again (R209). -/
def State.spbCalc (s : State) : State := if s.img.isSome then { s with par := { s.par with spb := s.spbOn 0 } } else s

/-- Lost positions of a queued row. -/
def State.rebLost (s : State) (q : RebRow) : List Nat :=
  match s.rebSet q.zone q.row q.slc with
  | some (_, pages) => s.lostPos q.zone q.row q.slc pages
  | none => []

/-- Order of the rebuild queue (R217): class, then layout key, then page row. -/
def State.rebKey (s : State) (q : RebRow) : Nat :=
  let z := s.zone q.zone
  let cls := if 1 < (s.rebLost q).length then 0 else if z.zs.isActive || z.conv && decide (logTag ≤ q.row) then 1 else 2
  (cls * 2 ^ 32 + s.layoutKey q.zone) * 2 ^ 20 + q.row

/-- The row at the head of the queue. -/
def State.rebHead (s : State) : Option RebRow :=
  (s.par.queue.foldl (fun (r : Option (Nat × RebRow)) q =>
    let k := s.rebKey q
    match r with | some (m, _) => if k < m then some (k, q) else r | none => some (k, q)) none).map (·.2)

/-- Queue one page of a rebuild: the reads of its sources, and its program behind them. -/
def State.rebPage (s : State) (x : RebRow) (pages : List Pg) (dk b page : Nat) : State :=
  if s.fch.ops.any fun _ o => o.kind == .progRebuild x.zone x.row x.lost x.slc && o.die == dk && o.block == b && !o.withdrawn then s
  else
    let o : Op := { die := dk, block := b, row := page, kind := .progRebuild x.zone x.row x.lost x.slc, owner := 1025, seq := 0, slcMode := x.slc }
    (s.srcRead x.zone x.row 1025 x.slc pages x.lost).opQueue o

/-- A lost page of an SLC entry gets an SLC page on the die that stands in its position, once that die has an erased block. -/
def State.rebEntry (s : State) (x : RebRow) (p : Place) (e : SlcEntry) : State :=
  match p.pos[x.lost]?, e.pages.find? fun g => g.pos == x.lost with
  | some (d, _), some g =>
    if s.dieGood g.die then s.rebPage x e.pages g.die g.block g.page
    else
      match (if s.dieGood d then s.slcBlock d else none) with
      | none => s.slcReclaim d
      | some b =>
        let bk := blkKey d b
        let n := (s.blk bk).taken
        let pages := e.pages.map fun y => if y = g then { g with die := d, block := b, page := n } else y
        ((s.blkEdit bk fun i => { i with taken := i.taken + 1, st := 4 }).zoneEdit x.zone fun z =>
          { z with slc := some { e with pages := pages } }).rebPage x pages d b n
  | _, _ => s

/-- Queue the work of the row at the head, unless it is queued (R217). -/
def State.rebKick (s : State) : State :=
  match s.rebHead with
  | none => s
  | some q =>
    (s.par.queue.filter fun x => x.zone == q.zone && x.row == q.row && x.slc == q.slc && !x.done).foldl (fun s x =>
      match s.rebSet x.zone x.row x.slc, (s.zone x.zone).slc with
      | some (p, pages), e =>
        if x.slc then (match e with | some e => s.rebEntry x p e | none => s)
        else match p.pos[x.lost]? with
          | some (dk, some b) => s.rebPage x pages dk b (x.row % logTag)
          | _ => s
      | none, _ => s) s

/-- Reads that wait follow a row set whose blocks have changed. -/
def State.placeSwap (s : State) (old new : Place) : State :=
  let f := fun (p : Option Place) => if p = some old then some new else p
  { s with ctxs := s.ctxs.mapV fun _ x => if x.runits = [] then x else
      { x with runits := x.runits.mapV fun _ r => { r with pl := f r.pl, lg := f r.lg } } }

/-- Put a row in the rebuild queue, once for each lost position. -/
def Par.addRow (p : Par) (r : RebRow) : Par :=
  if p.queue.any fun q => q.zone == r.zone && q.row == r.row && q.slc == r.slc && q.lost == r.lost then
    { p with queue := p.queue.map fun q => if q.zone == r.zone && q.row == r.row && q.slc == r.slc && q.lost == r.lost then r else q }
  else { p with queue := p.queue ++ [r] }

/-- Replace one position of a row set that lies on a failed die, and queue the rows that exist for rebuild; false when no
candidate has a block: its rows leave the queue (R216, R219). -/
def State.replaceAt (s : State) (zk tag dk st i : Nat) : State × Bool :=
  match (s.zone zk).rowPlace tag, ((s.zone zk).rowPlace tag).bind (·.pos[i]?) with
  | some p, some (_, some ob) =>
    let z := s.zone zk
    let inTag := fun (r : Nat) => decide (tag ≤ r) && decide (r < tag + logTag)
    match s.replacement zk p dk with
    | none =>
      let gone := s.fch.ops.keysWhere fun _ o => match o.kind with
        | .progRebuild y r j false => y == zk && inTag r && j == i | _ => false
      let s1 := forNats gone s State.opDrop
      ({ s1 with par := { s1.par with queue := s1.par.queue.filter fun q => !(q.zone == zk && inTag q.row && !q.slc && q.lost == i) } }, false)
    | some (d, b) =>
      let p' := { p with pos := p.pos.set i (d, some b) }
      let s1 := ((s.allocBlock d b st).zoneEdit zk fun z =>
        { z with place := if tag = 0 then some p' else z.place, logRow := if tag = 0 then z.logRow else some p'
                 rowPages := z.rowPages.mapV fun r l => if inTag r then l.filter (· != i) else l
                 copying := z.copying.filter fun c => !(c.tag == tag && c.pos == i)
                 unread := z.unread.filter fun x => !(inTag x.1 && x.2 == i) }).placeSwap p p'
      let s2 := (z.rowsDone.filter inTag).foldl (fun (s : State) r =>
        { s with par := s.par.addRow { zone := zk, row := r, die := dk, lost := i, old := ob } }) s1
      let open_ := (z.rowPages.filter fun x => inTag x.1 && x.2.contains i).map (·.1)
      let s3 := open_.foldl (fun s r =>
        let o : Op := { die := d, block := b, row := r - tag, kind := .prog zk r i, owner := s.zoneOwner zk, seq := 0 }
        s.opQueue o) s2
      let moved := s3.fch.ops.keysWhere fun _ o => o.die == dk && o.block == ob && !o.isRead && !o.isErase && o.kind != .progZero &&
        (match o.kind with | .progRepl _ _ _ => false | _ => true)
      (forNats moved s3 fun s id => s.opMove id d b, true)
  | _, _ => (s, true)

/-- Replace every position of a row set that lies on a failed die. -/
def State.replaceIn (s : State) (zk tag dk st : Nat) : State × Bool :=
  match (s.zone zk).rowPlace tag with
  | none => (s, true)
  | some p =>
    (((List.range p.pos.length).zip p.pos).filter fun x => x.2.1 == dk && x.2.2.isSome).foldl (fun (r : State × Bool) x =>
      let a := r.1.replaceAt zk tag dk st x.1
      (a.1, r.2 && a.2)) (s, true)

/-- The pages of a zone's live entry that lie on a failed die are queued for rebuild (R215). -/
def State.replaceSlc (s : State) (zk dk : Nat) : State :=
  match (s.zone zk).slc with
  | some e =>
    if !e.live then s
    else (e.pages.filter fun g => g.die == dk).foldl (fun (s : State) g =>
      { s with par := s.par.addRow { zone := zk, row := e.row, die := dk, lost := g.pos, old := g.block, slc := true } }) s
  | none => s

/-- Record a zone's change of state at a media event (R33, R47). -/
def State.mediaRecord (s : State) (zk stamp : Nat) : State :=
  s.record { stamp := stamp, slice := 1025, kind := 0x03, resolved := true, nsid := zNsid zk, zone := zIndex zk, value := s.wpValue zk }

/-- A zone enters Read Only at a media event (R219, R225). -/
def State.zoneRo (s : State) (zk stamp : Nat) : State :=
  let z := s.zone zk
  if z.conv ∨ z.zs = .readOnly ∨ z.zs = .offline then s
  else
    let s1 := s.zoneEdit zk fun z => { z with zs := .readOnly }
    ({ s1 with par := { s1.par with lostZones := satAdd 0xffffffff s1.par.lostZones 1 } }).mediaRecord zk stamp

/-- Units lost with three or more positions of a slot (R219): the zone is Read Only and the row leaves the queue. -/
def State.rowLost (s : State) (zk row stamp : Nat) (slc : Bool) (p : Place) (lost : List Nat) : State :=
  let tag := tagOf row
  let u := s.geom.u
  let per := p.d * u
  let lim := match (if slc then (s.zone zk).slc else none) with | some e => e.units | none => per
  let ks := ((List.range p.dataPos.length).zip p.dataPos).filterMap fun (k, i, _) => if lost.contains i then some k else none
  let idx := ks.flatMap fun k => ((List.range u).filter fun j => decide (k * u + j < lim)).map fun j => (row - tag) * per + k * u + j
  let z := s.zone zk
  let hit := fun (unit : Nat) (v : Ver) => if tag = 0 then v.lix.isNone && idx.contains unit
    else match v.lix with | some x => idx.contains x | none => false
  let n : Nat := z.vers.foldl (fun n q => n + (q.2.filter fun v => v.arrived && !v.lost && !v.dealloc && hit q.1 v).length) 0
  let s1 := s.zoneEdit zk fun z => { z with
    vers := z.vers.mapV fun q l => l.map fun v => if v.arrived && hit q v && !v.dealloc then { v with lost := true } else v }
  let s2 := { s1 with par := { s1.par with
    queue := s1.par.queue.filter fun q => !(q.zone == zk && q.row == row && q.slc == slc)
    lostUnits := satAdd 0xffffffff s1.par.lostUnits n } }
  if n = 0 then s2 else (s2.zoneRo zk stamp).fire 163 [zNsid zk, zIndex zk, z.wp, 0] 0 0x7ff (some stamp)

/-- Rows and entries with three or more lost positions (R219). -/
def State.lostCheck (s : State) (stamp : Nat) : State :=
  s.zones.foldl (fun s z =>
    let one := fun (s : State) (row : Nat) (slc : Bool) => match s.rebSet z.1 row slc with
      | some (p, pages) =>
        let l := s.lostPos z.1 row slc pages
        if 3 ≤ l.length then s.rowLost z.1 row stamp slc p l else s
      | none => s
    let s1 := forNats (s.zone z.1).rowsDone s fun s r => one s r false
    match (s1.zone z.1).slc with
    | some e => if e.live then one s1 e.row true else s1
    | none => s1) s

/-- Reads that named a failed die go on without it (R242); a copy reads what the page is recovered from. -/
def State.readsOff (s : State) (dk : Nat) : State :=
  forNats (s.fch.ops.keysWhere fun _ o => o.die == dk && o.isRead) s fun s id =>
    match s.fch.ops.look id with
    | none => s
    | some o =>
      let us := o.left ++ o.retry
      let s1 := s.opEnd id
      match o.kind with
      | .direct c _ => forNats us s1 fun s u => s.step10 c u o.cls o.owner
      | .helper c _ => forNats us s1 fun s u =>
          match s.runit c u with
          | some r => if r.recon then (s.helpersGone c u).recStart c u o.cls o.owner else s.aroundFail c u o.cls o.owner
          | none => s
      | .src zk row => if o.withdrawn then s1 else (s1.srcFail o zk row).srcSettle zk row
      | _ => s1

/-- SLC entries being written that have a page on a block or a die are written again. -/
def State.slcAgain (s : State) (f : Pg → Bool) : State :=
  forNats (s.zones.keysWhere fun _ z => match z.slcNew with | some e => e.pages.any f | none => false) s fun s zk =>
    let s1 := (s.dropProgs zk fun k => match k with | .progSlc _ _ => true | _ => false).zoneEdit zk fun z =>
      { z with slcNew := none, slcWant := true, ghosts := ((match z.slcNew with | some e => e.keys | none => []) ++ z.ghosts).eraseDups }
    s1.slcStart zk

/-- Operations left on a failed die end: a copy counts its page as done, a set counts its block as lost (R192, R198). -/
def State.opsOff (s : State) (dk : Nat) : State :=
  forNats (s.fch.ops.keysWhere fun _ o => o.die == dk) s fun s id =>
    match s.fch.ops.look id with
    | none => s
    | some o =>
      let s1 := s.opEnd id
      let s2 := if o.withdrawn then s1 else match o.kind with | .progCopy zk => s1.copyDone zk | _ => s1
      if s2.inSet (blkKey dk o.block) then s2.setDone (blkKey dk o.block) true else s2

/-- Rows in the queue, and those with two lost positions (R217, R227). -/
def State.rebRows (s : State) : List (Nat × Nat × Bool) := (s.par.queue.map fun q => (q.zone, q.row, q.slc)).eraseDups
def State.exposed (s : State) : Bool := s.par.queue.any fun q => decide (1 < (s.rebLost q).length)

/-- A die is recorded as failed at the stamp of its media event (R192, R215). Row sets are taken in the order of their zones:
DESIGN CHOICE, the spec gives no order in which they take replacement blocks. -/
def State.dieFailAt (s : State) (dk cause stamp : Nat) : State :=
  if !s.dieGood dk then s
  else
    let had := s.rebRows.length
    let s1 := s.dieEdit dk fun d => { d with failed := true, suspending := false, slc := [] }
    let s2 := (if dkChip dk = 0 then (s1.fire (32 + dieChannel (dkDie dk))).fire 160 [dkDie dk, cause] 0 0x7ff (some stamp) else s1).spbCalc
    let s3 := s2.zones.foldl (fun (s : State) (p : Nat × Zone) =>
      let a := s.replaceIn p.1 0 dk 2
      let b := a.1.replaceIn p.1 logTag dk 6
      let s1 := b.1.replaceSlc p.1 dk
      if (!a.2 || !b.2) && !p.2.conv && p.2.zs.isActive then s1.zoneRo p.1 stamp else s1) s2
    let s4 := (((s3.slcAgain fun g => g.die == dk).lostCheck stamp).readsOff dk).opsOff dk
    let s5 := s4.zones.foldl (fun (s : State) p => forNats (p.2.rowPages.map (·.1)) s fun s r => s.progCheck p.1 r) s4
    let rows := s5.rebRows.length
    let s6 := { s5 with par := { s5.par with
      rowsTotal := if had = 0 then rows else s5.par.rowsTotal + (rows - had), rowsDone := if had = 0 then 0 else s5.par.rowsDone } }
    let s7 := if s6.exposed then s6.fire 162 else s6
    (if had = 0 ∧ rows ≠ 0 then s7.aenCrit 2 else s7).rebKick

/-! ### Block replacement (R190) -/

/-- The replacement block of a die: from its reserve, else a free one. DESIGN CHOICE: of the reserve the block of lowest
ERASES, then of lowest number; R188 orders only the free list. -/
def State.replBlock (s : State) (dk : Nat) : Option (Nat × Bool) :=
  let res := (s.dieBlocks dk).filter fun p => p.2.st == 8 && p.2.retire == 0
  match res.foldl (fun (r : Option (Nat × Nat)) p => match r with
      | some (e, _) => if p.2.erases < e then some (p.2.erases, p.1 - dk * 8192) else r
      | none => some (p.2.erases, p.1 - dk * 8192)) none with
  | some (_, b) => some (b, true)
  | none => (s.pickBlock dk).map fun b => (b, false)

/-- Units of a zone's row set that have been placed: the pages its kind 0x10 records name. -/
def State.placedUnits (s : State) (zk tag : Nat) (p : Place) : Nat :=
  let z := s.zone zk
  if !z.conv then z.wp else if tag = 0 then p.d * s.geom.bdata else z.logUsed

/-- The kind 0x10 records of a replacement name the new block (R190), at the media event's stamp. -/
def State.replRecs (s : State) (zk tag stamp dk nb : Nat) (p : Place) : List CRec :=
  ((placeRecs p s.geom.u stamp 1025 zk 0 (s.placedUnits zk tag p)).filter fun r =>
    r.value % 2 ^ 26 == dkDie dk + nb * 2 ^ 10).map fun r => { r with resolved := true }

/-- A block of a zone's row set is replaced: pages already programmed are read and programmed to the new block, the others are
programmed there from staging; reads name the failed block until its pages are copied (R190). -/
def State.replaceZone (s : State) (zk tag pos dk b nb stamp : Nat) (p : Place) : State :=
  let z := s.zone zk
  let p' := { p with pos := p.pos.set pos (dk, some nb) }
  let copied := tag == 0 && z.merging != 0
  let left := s.fch.ops.filterMap fun o => match o.2.kind with
    | .progCopy y => if y = zk ∧ o.2.die = dk ∧ o.2.block = b ∧ !o.2.withdrawn then some o.2.row else none
    | _ => none
  let rows := if dkChip dk ≠ 0 then [] else (List.range s.geom.rows).filter fun r =>
    if copied then !left.contains r else z.rowsDone.contains (tag + r) || (z.rowPages.get (tag + r) []).contains pos
  let ops := s.fch.ops.keysWhere fun _ o => o.die == dk && o.block == b && !o.isRead && !o.isErase && o.kind != .progZero
  let s1 := (s.zoneEdit zk fun z => { z with
    place := if tag = 0 then some p' else z.place, logRow := if tag = 0 then z.logRow else some p'
    merging := if copied then z.merging + rows.length else z.merging
    copying := if copied || rows.isEmpty then z.copying else z.copying ++ [{ tag := tag, pos := pos, die := dk, block := b, rows := rows }] }).placeSwap p p'
  let s2 := rows.foldl (fun (s : State) r =>
    if copied then
      let o : Op := { die := dk, block := nb, row := r, kind := .progCopy zk, owner := 1024, seq := 0 }
      s.opQueue o
    else
      let o : Op := { die := dk, block := nb, row := r, kind := .progRepl zk (tag + r) pos, owner := 1024, seq := 0 }
      (s.srcQueue zk (tag + r) 1024 false [{ pos := pos, die := dk, block := b, page := r }]).opQueue o) s1
  let s3 := (forNats ops s2 fun s id => s.opMove id dk nb).recordAll (s.replRecs zk tag stamp dk nb p')
  if !copied && !rows.isEmpty then s3
  else (s3.zoneEdit zk fun z => { z with ghosts := (blkKey dk b :: z.ghosts).eraseDups }).blockLeave dk b

/-- Put a block in the place of a failed one, at the stamp of the media event: in its row set, or in the SLC buffer with its
entries written again (R190). -/
def State.replaceBlock (s : State) (dk b code stamp : Nat) : State :=
  let bk := blkKey dk b
  let old := s.blk bk
  let s1 := s.blkEdit bk fun x => { x with retire := code }
  match s1.replBlock dk with
  | none => s1.dieFailAt dk 3 stamp
  | some (nb, res) =>
    let s2 := if res then s1.blkEdit (blkKey dk nb) fun x => { x with st := old.st, rows := 0, taken := 0 } else s1.allocBlock dk nb old.st
    if old.st = 4 ∨ old.st = 5 then
      let s3 := (s2.dieEdit dk fun d => { d with slc := d.slc.map fun x => if x = b then nb else x }).blkEdit (blkKey dk nb) fun x => { x with st := 4 }
      let s4 := s3.slcAgain fun g => g.die == dk && g.block == b
      let zs := s4.zones.keysWhere fun _ z => z.slcOn dk b
      (forNats zs s4 fun s zk => (s.zoneEdit zk fun z => { z with slcWant := true }).slcStart zk).blockLeave dk b
    else
      let at_ := fun (p : Option Place) => p.bind fun p => if p.pos.contains (dk, some b) then some (p, p.pos.idxOf (dk, some b)) else none
      match s2.zones.findSome? fun z => match at_ z.2.place, at_ z.2.logRow with
          | some (p, i), _ => some (z.1, 0, p, i)
          | none, some (p, i) => some (z.1, logTag, p, i)
          | none, none => none with
      | none => s2.blockLeave dk b
      | some (zk, tag, p, i) => s2.replaceZone zk tag i dk b nb stamp p

/-- A block in state 2 to 6 serves a row set or the SLC buffer. -/
def BInfo.inUse (b : BInfo) : Bool := decide (2 ≤ b.st) && decide (b.st ≤ 6)

/-- A die whose retired blocks exceed RETIRE_MAX percent is recorded as failed, at a media event of its own (R192, cause 4). -/
def State.retireCheck (s : State) (dk : Nat) : State :=
  let n := ((s.dieBlocks dk).filter fun p => p.2.st == 14).length
  if !s.dieGood dk || dkChip dk != 0 || decide (100 * n ≤ s.media (·.retireMax) * s.geom.blocks) then s
  else if !s.cas.crown then s.casSend 0 3 0x40 16 [0, dk, 4]
  else if s.canStamp && !(s.gate.entries.any fun _ e => e.sys == some (.dieFail dk 4)) then s.enterSys (.dieFail dk 4) else s

/-- A block fails in use (R190), or at its erase (R191, R198). -/
def State.blockFailAt (s : State) (bk code stamp : Nat) (out : Bool) : State :=
  let dk := bk / 8192
  let b := bk % 8192
  if !s.dieGood dk then s
  else if !out then s.replaceBlock dk b code stamp
  else
    let set := s.inSet bk
    let s1 := if (s.blk bk).inUse then s.replaceBlock dk b code stamp else s
    let s2 := (forNats (s1.fch.ops.keysWhere fun _ o => o.kind == .erase && o.die == dk && o.block == b) s1 State.opDrop).blkEdit bk fun x =>
      { x with retire := code, st := 14 }
    let z : Op := { die := dk, block := b, kind := .progZero, owner := 1025, seq := 0 }
    (if set && s2.dieGood dk then ((s2.fire 168 [dkDie dk, b] 0 0x7ff (some stamp)).opQueue z) else s2).retireCheck dk

/-! ### Media events (R33) -/

/-- A rebuilt row leaves the queue (R217). -/
def State.rebuiltAt (s : State) (zk row : Nat) (slc : Bool) : State :=
  let mine := s.par.queue.filter fun q => q.zone == zk && q.row == row && q.slc == slc
  if mine = [] || !(mine.all fun q => q.done) then s
  else
    let rest := s.par.queue.filter fun q => !(q.zone == zk && q.row == row && q.slc == slc)
    let s1 := ({ s with par := { s.par with queue := rest, rowsDone := s.par.rowsDone + 1 } }).zoneEdit zk fun z =>
      { z with unread := z.unread.filter fun x => x.1 != row }
    if rest = [] then s1.fire 161 else s1.rebKick

/-- A migrated zone's copy stands: its old blocks return (R222). -/
def State.migratedAt (s : State) (zk : Nat) : State :=
  if (s.zone zk).migOld.isNone then s else (s.migClose zk).migCheck

/-- A page that nothing can recover: with it three positions of its slots are lost (R219). -/
def State.pageLostAt (s : State) (zk row pos stamp : Nat) : State :=
  match s.srcSet zk row false, (s.zone zk).unread.contains (row, pos) with
  | some (p, pages), true => s.rowLost zk row stamp false p (s.srcLost zk row false pages)
  | _, _ => s

/-- What a media event does at its commit; `none` for an entry of another kind. -/
def State.mediaApply (s : State) (ev : SysEv) (stamp : Nat) : Option State :=
  match ev with
  | .dieFail dk cause => some (s.dieFailAt dk cause stamp)
  | .blockFail bk code out => some (s.blockFailAt bk code stamp out)
  | .rebuilt zk row slc => some (s.rebuiltAt zk row slc)
  | .migrated zk => some (s.migratedAt zk)
  | .pageLost zk row pos => some (s.pageLostAt zk row pos stamp)
  | .zoneLost zk => some (s.zoneRo zk stamp)
  | _ => none

/-- Commit the media events at the front of the entries, in stamp order (R38). -/
def State.mediaRun : Nat → State → State
  | 0, s => s
  | f + 1, s =>
    match s.gate.entries with
    | (k, e) :: _ =>
      match e.sys.bind fun ev => (s.sysTake k).mediaApply ev k with
      | some t => State.mediaRun f t.settle
      | none => s
    | [] => s

/-- Stamp a media event and commit it, unless entries with lower stamps have still to commit. -/
def State.mediaEvent (s : State) (ev : SysEv) : State :=
  let s1 := s.enterSys ev
  State.mediaRun (s1.gate.entries.length + 64) s1

/-- The event waits already for its commit. -/
def State.eventWaits (s : State) (f : SysEv → Bool) : Bool := s.gate.entries.any fun _ e => e.sys.any f

/-- DIE_FAILURE (R215); a member reports it and acts when the crown's stamped copy returns (R329). -/
def execDieFailure (die cause : Nat) (s : State) : Host.Outcome State Fault Refusal :=
  if !s.cas.crown then .next (if s.dieGood die then s.casSend 0 3 0x40 16 [0, die, cause] else s)
  else if s.canStamp && s.dieGood die then .next (s.mediaEvent (.dieFail die cause)) else .next s

/-- PROGRAM_FAILURE: the stamped media event of a failed program (R190). -/
def execProgramFailure (die block row : Nat) (s : State) : Host.Outcome State Fault Refusal :=
  if !s.dieGood die || !(s.fch.ops.any fun _ o => o.failed && o.die == die && o.block == block && o.row == row) then .next s
  else if !s.cas.crown then .next (s.casSend 0 3 0x40 16 [1, die, block])
  else if s.canStamp && !(s.eventWaits fun e => e == .blockFail (blkKey die block) 1 false) then
    .next (s.mediaEvent (.blockFail (blkKey die block) 1 false))
  else .next s

/-! ### Ends of reads, programs and erases, and bounds -/

/-- Where a corrected unit goes (R16): to its cut-through buffer, to Bracken for a recovery, or to staging for a copy. -/
def Op.decodedTo (o : Op) (unit : Nat) : Nat := match o.kind with
  | .direct _ _ => sramPort unit
  | .helper _ _ => brackenIn
  | _ => dramPort unit

/-- CODEWORD_DECODE_DONE (R179): `syndromeZero`, `crcOk` and `tagOk` are the checks, `weight` the syndrome weight left. -/
def execCodewordDecodeDone (op unit : Nat) (syndromeZero crcOk tagOk : Bool) (weight : Nat) (s : State) : Host.Outcome State Fault Refusal :=
  match s.fch.ops.look op with
  | none => .next s
  | some o =>
    if !o.transferred || !o.left.contains unit then .next s
    else
      let s1 := s.opEdit op fun o => { o with left := o.left.filter (· != unit) }
      let pass := syndromeZero && crcOk && tagOk
      let wrong := syndromeZero && crcOk && !tagOk
      let s1 := if pass then s1.flits (ldpcPort (dieChannel (dkDie o.die))) (o.decodedTo unit) unitFlits else s1
      match o.kind with
      | .direct c _ => .next ((s1.directDecoded op o c unit syndromeZero crcOk tagOk weight).opStep op)
      | .helper c _ => .next ((s1.helperDecoded op o c unit pass wrong).opStep op)
      | .src zk row =>
        let s2 := (s1.srcDecoded op o zk row unit pass wrong).opStep op
        let s3 := if s2.fch.ops.has op then s2 else s2.srcSettle zk row
        .next (State.mediaRun (s3.gate.entries.length + 64) s3)
      | _ => .next (s1.opStep op)

/-- A page is programmed with its content: what follows in the row, entry, copy or rebuild it is of. -/
def State.opContent (s : State) (o : Op) : State :=
  let g := fun (pos : Nat) => ({ pos := pos, die := o.die, block := o.block, page := o.row } : Pg)
  match o.kind with
  | .prog zk row pos => s.progDone zk row pos (g pos)
  | .progSlc zk _ => s.slcDone zk
  | .progCopy zk => s.copyDone zk
  | .progRepl zk row pos => s.replDone zk row pos (g pos)
  | .progRebuild zk row pos slc => s.rebDone zk row pos slc (g pos)
  | _ => s

/-- PAGE_PROGRAM_COMPLETE (R22): `pass` is the status, `dieTemp` the die temperature read, °C + 64. -/
def execPageProgramComplete (op : Nat) (pass : Bool) (dieTemp : Nat) (s : State) : Host.Outcome State Fault Refusal :=
  match s.fch.ops.look op with
  | none => .next s
  | some o =>
    if o.isRead || o.isErase || (s.die o.die).running != some op then .next s
    else
      let s1 := s.dieIdle o.die op
      let bk := blkKey o.die o.block
      let s2 := if pass then s1 else s1.chnEdit (dieChannel (dkDie o.die)) fun c => { c with progFail := satAdd 0xffff c.progFail 1 }
      if o.kind = .progZero then
        let s3 := ((s2.opEnd op).blkEdit bk fun b => { b with st := 14, unerased := !pass, rows := 0, ptOpen := 0, ptClose := 0 })
        .next ((if pass then s3.flashWipe bk else s3).setDone bk (!pass))
      else if !pass then .next (if o.withdrawn then s2.opEnd op else s2.opEdit op fun o => { o with failed := true })
      else
        let s3 := (s2.opEnd op).noteRow o.die o.block dieTemp o.slcMode
        .next (if o.withdrawn then s3 else s3.opContent o)

/-- Rows that wait for an SLC block of a die. -/
def State.slcWaiters (s : State) (dk : Nat) : State :=
  (forNats (s.zones.keysWhere fun _ z => z.slcWant && z.slcNew.isNone &&
    ([z.place, z.logRow].any fun p => match p with | some x => x.pos.any fun y => y.1 == dk | none => false)) s State.slcStart).rebKick

/-- A block has been erased: its record, its content, and the zones that had left copies in it (R151, R181, R197). -/
def State.erased (s : State) (dk b : Nat) : State :=
  let bk := blkKey dk b
  let s1 := (s.flashWipe bk).blkEdit bk fun b => { b with
    unerased := false, rows := 0, ptOpen := 0, ptClose := 0, samples := 0, tpSum := 0, taken := 0
    st := if b.retire ≠ 0 then 14 else if b.st = 1 then 0 else if b.st = 5 then 4 else b.st }
  { s1 with zones := s1.zones.mapV fun _ z => if z.ghosts.contains bk then { z with ghosts := z.ghosts.filter (· != bk) } else z }

/-- BLOCK_ERASE_COMPLETE (R151, R191, R198): a failed erase is a stamped media event. -/
def execBlockEraseComplete (op : Nat) (pass : Bool) (s : State) : Host.Outcome State Fault Refusal :=
  match s.fch.ops.look op with
  | none => .next s
  | some o =>
    if !o.isErase || (s.die o.die).running != some op || (!pass && s.cas.crown && !s.canStamp) then .next s
    else
      let s1 := (s.dieIdle o.die op).opEnd op
      let bk := blkKey o.die o.block
      if pass then
        let s2 := (((s1.erased o.die o.block).setDone bk false).slcWaiters o.die).retireCheck o.die
        .next (State.mediaRun (s2.gate.entries.length + 64) s2)
      else
        let s2 := s1.chnEdit (dieChannel (dkDie o.die)) fun c => { c with eraseFail := satAdd 0xffff c.eraseFail 1 }
        .next (if s.cas.crown then s2.mediaEvent (.blockFail bk 2 true) else s2.casSend 0 3 0x40 16 [2, o.die, o.block])

/-- OPERATION_TIMEOUT (R177): the LUN is reset and the operation issued once more; a second timeout fails the die, and the block
of a program gets RETIRE 5. -/
def execOperationTimeout (op : Nat) (s : State) : Host.Outcome State Fault Refusal :=
  match s.fch.ops.look op with
  | none => .next s
  | some o =>
    let ch := dieChannel (dkDie o.die)
    if (s.die o.die).running != some op || (o.retried && s.cas.crown && !s.canStamp) then .next s
    else
      let s1 := (s.chnEdit ch fun c => { c with timeouts := satAdd 0xffff c.timeouts 1 }).fire (32 + ch)
      if o.retried then
        let s2 := if o.isRead || o.isErase then s1 else s1.blkEdit (blkKey o.die o.block) fun b => { b with retire := 5 }
        .next (if s.cas.crown then s2.mediaEvent (.dieFail o.die 2) else s2.casSend 0 3 0x40 16 [0, o.die, 2])
      else .next ((s1.opEdit op fun o => { o with retried := true, startAt := s.now, suspTime := 0 }).dieEdit o.die fun d => { d with suspending := false })

/-! ### Rebuild, migration, retraining -/

/-- REBUILD_ROW_FINISHED: the row's stamped media event (R217). -/
def execRebuildRowFinished (zone row : Nat) (s : State) : Host.Outcome State Fault Refusal :=
  let mine := s.par.queue.filter fun q => q.zone == zone && q.row == row
  match mine.head? with
  | none => .next s
  | some q =>
    if !(mine.all fun x => x.done) then .next s
    else if !s.cas.crown then .next (s.casSend 0 3 0x40 16 [3, zone, row])
    else if !s.canStamp || s.eventWaits fun e => e == .rebuilt zone row q.slc then .next s
    else .next (s.mediaEvent (.rebuilt zone row q.slc))

/-- MIGRATION_COPY_DONE: the stamped completion of a migrated zone's copy (R222). -/
def execMigrationCopyDone (zone : Nat) (s : State) : Host.Outcome State Fault Refusal :=
  if (s.zone zone).migOld.isNone || (s.zone zone).merging != 0 || (s.cas.crown && s.zoneChip zone != 0) then .next s
  else if !s.cas.crown then .next (s.casSend 0 3 0x40 16 [4, zone])
  else if !s.canStamp || s.eventWaits fun e => e == .migrated zone then .next s
  else .next (s.mediaEvent (.migrated zone))

/-- RATE of a timing set: 9-15 act as 0 (R201). -/
def Chn.rate (c : Chn) (k : Nat) : Nat := let r := bitsAt ((c.timing.getD k 0).toNat) 28 4; if 9 ≤ r then 0 else r

/-- The first timing set from `k` on that has a rate and at which every eye is at least EYE_MIN wide (R175), with its eyes. -/
def Chn.train (c : Chn) (eyeMin : Nat) (eyes : List (Option (Nat × Nat))) (k : Nat) : Option (Nat × Nat × Nat) :=
  ((List.range 8).filter fun j => decide (k ≤ j)).findSome? fun j => match eyes.getD j none with
    | some (rd, wr) => if c.rate j ≠ 0 ∧ eyeMin ≤ rd ∧ eyeMin ≤ wr then some (j, rd, wr) else none
    | none => none

/-- Stamp the failure of dies, one media event each. -/
def State.diesFail (s : State) (l : List Nat) (cause : Nat) : State :=
  let s1 := forNats l s fun s d => if s.canStamp then s.enterSys (.dieFail d cause)
    else if !s.cas.crown then s.casSend 0 3 0x40 16 [0, d, cause] else s
  State.mediaRun (s1.gate.entries.length + 64) s1

/-- FCH_TRAIN. -/
def Chn.trainReg (x : Chn) : Nat :=
  bit x.trainDone 31 + bit x.trainFail 30 + x.trainSet * 2 ^ 26 + x.retrains * 2 ^ 16 + x.eyeRd * 2 ^ 8 + x.eyeWr

/-- What training finds at each timing set, from its outcome at the present set and at those after it. -/
def eyesFrom (k : Nat) (pass : Bool) (rd wr : Nat) (later : List (Option (Nat × Nat))) : List (Option (Nat × Nat)) :=
  List.replicate k none ++ (if pass then some (rd, wr) else none) :: later

/-- CHANNEL_RETRAIN (R176): at the present timing set, and where that fails at the following ones; a channel that trains at none
fails with its dies (R175, R192). -/
def execChannelRetrain (ch : Nat) (pass : Bool) (eyeRd eyeWr : Nat) (later : List (Option (Nat × Nat))) (s : State) :
    Host.Outcome State Fault Refusal :=
  let c := s.chn ch
  if !c.active then .next s
  else
    let s1 := s.chnEdit ch fun c => { c with retrains := satAdd 1023 c.retrains 1 }
    match c.train (s.media (·.eyeMin)) (eyesFrom c.trainSet pass eyeRd eyeWr later) c.trainSet with
    | some (k, rd, wr) =>
      let s2 := s1.chnEdit ch fun c => { c with trainSet := k, eyeRd := rd, eyeWr := wr }
      .next (if k = c.trainSet then s2 else s2.fire (32 + ch) [(s2.chn ch).trainReg])
    | none =>
      if s.cas.crown && !s.canStamp then .next s
      else
        let s2 := s1.chnEdit ch fun c => { c with active := false, failed := true, trainFail := true }
        let s3 := s2.fire (32 + ch) [(s2.chn ch).trainReg]
        .next (s3.diesFail ((s3.goodDies 0).filter fun d => dieChannel (dkDie d) == ch) 1)

end Sys2Proof.Machine
end

