-- ==== Sys2Proof/Machine/Rounds.lean ====
section
/-! DEFINITION. What the ticks of the crown's gate set going at their commit (R33, R38): old rows to the SLC buffer (R164,
R378), the buffer's size and the reserves (R162, R163, R165, R189, R190), Available Spare (R221), token ages (R130), media time
(R182), watermarks (R223), migration (R222); the layout seed (R168, R169); and the commits of the system entries. -/

namespace Sys2Proof.Machine

open Sys2Proof

/-! ### Staging tick -/

/-- The units of a zone's partial row that no SLC entry holds yet (R164): the index of the first, and their number. -/
def State.looseAt (s : State) (zk : Nat) : Option (Nat × Nat) :=
  match s.partialRow zk with
  | none => none
  | some (p, tag, row, n) =>
    let held := match (s.zone zk).slc with | some e => if e.live && e.row == tag + row then e.units else 0 | none => 0
    if n ≤ held then none else some (row * (p.d * s.geom.u) + held, n - held)

def State.loose (s : State) (zk : Nat) : Nat := match s.looseAt zk with | some x => x.2 | none => 0

/-- Staging clock at which the oldest loose unit of a zone was staged (R164). -/
def State.looseFrom (s : State) (zk : Nat) : Nat :=
  match s.looseAt zk with
  | some (i, _) => (((s.zone zk).ages.find? fun a => decide (i < a.1)).map (·.2)).getD s.gate.stageClock
  | none => s.gate.stageClock

/-- Zones with loose units, the oldest first. -/
def State.byAge (s : State) : List Nat :=
  let l : List (Nat × Nat) := (s.zones.keysWhere fun k _ => s.loose k != 0).map fun k => (s.looseFrom k, k)
  (l.foldl (fun (r : List (Nat × Nat)) p => (r.takeWhile fun q => decide (q.1 ≤ p.1)) ++ [p] ++ (r.dropWhile fun q => decide (q.1 ≤ p.1))) []).map (·.2)

/-- With OVER set, as many of the oldest rows as bring the dirty count to the budget (R378). -/
def State.overRows (s : State) : List Nat :=
  if !s.brm.ovr then []
  else (s.byAge.foldl (fun (r : List Nat × Nat) k =>
    if r.2 ≤ s.brm.budget then r else (r.1 ++ [k], r.2 - s.loose k * 4096)) ([], s.gate.dirty)).1

/-- A staging tick commits: crown time passes for the ages of rows, those beyond the limit (in 10 ms) go to the SLC buffer, and
PROV and OCC are charged for its span (R164, R344). -/
def State.stagingApply (s : State) (stamp span : Nat) : State :=
  let s1 := { s with gate := { s.gate with stageClock := s.gate.stageClock + span } }
  let limit := match s.img with | some i => i.stageAge | none => 100
  let old := s1.overRows
  let due := s1.zones.keysWhere fun k _ => s1.loose k != 0 && (decide (limit * 10000000 < s1.gate.stageClock - s1.looseFrom k) || old.contains k)
  let s2 := { s1 with zones := s1.zones.mapV fun k z => match s1.looseAt k with
    | some (i, _) => { z with ages := z.ages.filter fun a => decide (i < a.1) } | none => { z with ages := [] } }
  (forNats due s2 State.slcStart).tallyTick stamp span

/-! ### The SLC buffer's sizes (R161, R162, R165) -/

/-- Blocks of a die in one of some states. -/
def State.blocksIn (s : State) (dk : Nat) (f : Nat → Bool) : Nat := ((s.dieBlocks dk).filter fun p => f p.2.st).length

/-- Bytes of data per set of one SLC block on each die: D × BDATA_SLC × 14 ÷ 16, times 16. -/
def State.slcSet16 (s : State) : Nat := (s.goodDies 0).length * (s.geom.bdataSlc * 4096) * 14

structure SlcSizes where
  nmin : Nat
  ksave : Nat
  nt : Nat
  g : Nat
  fill : Nat
  deriving DecidableEq, Repr

/-- n_min, k_save, n_t, g and f (in units of 1/65,536, as ZNE_FILL has it) over the good dies of the chip. -/
def State.slcSizes (s : State) (empty : Bool) : SlcSizes :=
  let ds := s.goodDies 0
  let good := fun dk => s.geom.blocks - s.blocksIn dk fun t => t == 14 || t == 15
  let g := minNat (ds.map good) 0
  let held := if empty then 0 else (ds.map fun dk => s.blocksIn dk fun t => t == 2 || t == 3 || t == 6).sum
  let out := (ds.map fun dk => s.geom.blocks - s.blocksIn dk fun t => t == 4 || t == 5 || t == 14 || t == 15).sum
  let nmin := if s.slcSet16 = 0 then 0 else ceilDiv (2 ^ 36 * 16) s.slcSet16
  let ksave := if s.slcSet16 = 0 then 1 else max 1 (ceilDiv (2 ^ 32 * 16) s.slcSet16)
  let frac := if out = 0 then 0 else (out - held) * g * 2 / (100 * out)
  { nmin := nmin, ksave := ksave, nt := max nmin frac, g := g, fill := if out = 0 then 0 else min 65536 (held * 65536 / out) }

/-- Take the good free block of lowest ERASES of a die for a use, and queue its erase where the use needs it erased. -/
def State.takeFor (s : State) (dk st : Nat) (erase : Bool) : State :=
  match s.pickBlock dk with
  | none => s
  | some b =>
    let s1 := s.allocBlock dk b st
    let s2 := if st = 4 then s1.dieEdit dk fun d => { d with slc := d.slc ++ [b] } else s1
    if erase && (s2.blk (blkKey dk b)).unerased then s2.eraseQueue dk b 1025 else s2

/-! ### Check tick: SLC buffer, reserves and wear -/

/-- RSVOK (R170): every good die holds its k_save erased save-reserve blocks. -/
def State.rsvOk (s : State) : Bool :=
  decide (s.goodDies 0 ≠ []) && (s.goodDies 0).all fun dk => decide (s.zne.ksave ≤ ((s.dieBlocks dk).filter fun p => p.2.st == 9 && !p.2.unerased).length)

/-- Blocks at ECMAX in state 0 or 1 are retired (R189). -/
def State.wearOut (s : State) : State :=
  { s with blocks := s.blocks.mapV fun _ b =>
      if (b.st = 0 ∨ b.st = 1) ∧ b.retire = 0 ∧ s.geom.ecmax ≤ b.erases then { b with retire := 4, st := 14 } else b }

/-- A die short of its replacement reserve or its save reserve takes one block; a surplus of the save reserve returns (R165, R190). -/
def State.dieReserves (s : State) (ksave dk : Nat) : State :=
  let repl := s.media (·.repl)
  let s1 := if s.blocksIn dk (· == 8) < repl then s.takeFor dk 8 false else s
  let held := (s1.dieBlocks dk).filter fun p => p.2.st == 9
  if held.length < ksave then s1.takeFor dk 9 true
  else (held.drop ksave).foldl (fun (s : State) p => s.freeBlock dk (p.1 % 8192)) s1

/-- The oldest SLC block of a die leaves the buffer, its live entries written again (R163). -/
def State.slcShrink (s : State) (dk : Nat) : State :=
  match (s.die dk).slc with
  | [] => s
  | b :: t =>
    let zs := s.zones.keysWhere fun _ z => z.slcOn dk b
    let s1 := s.dieEdit dk fun d => { d with slc := t }
    (forNats zs s1 fun s zk => ((s.zoneEdit zk fun z => { z with slcWant := true }).slcWrite zk).1).blockLeave dk b

/-- n moves one step toward n_t (R163). -/
def State.slcStep (s : State) (nt : Nat) : State :=
  let ds := s.goodDies 0
  if s.zne.cur < nt then
    if ds.all fun dk => (s.pickBlock dk).isSome then
      let s1 := forNats ds s fun s dk => s.takeFor dk 4 true
      { s1 with zne := { s1.zne with cur := s1.zne.cur + 1 } }
    else s
  else if nt < s.zne.cur then
    let s1 := forNats ds s State.slcShrink
    { s1 with zne := { s1.zne with cur := s1.zne.cur - 1 } }
  else s

/-- Sizes, reserves and the buffer at a check tick, with their registers (R162-R165); event 166 when RSVOK clears. -/
def State.slcTick (s : State) : State :=
  let z := s.slcSizes false
  let ok := s.rsvOk
  let s1 := { s with zne := { s.zne with target := z.nt, nmin := z.nmin, ksave := z.ksave, fill := z.fill, rsvDies := (s.goodDies 0).length, ticked := true } }
  let s2 := forNats (s1.goodDies 0) s1.wearOut fun s dk => s.dieReserves z.ksave dk
  let s3 := s2.slcStep z.nt
  let s4 := { s3 with zne := { s3.zne with slcCap := s3.slcSet16 * s3.zne.cur / 16 } }
  let s5 := if ok && !s4.rsvOk then s4.fire 166 else s4
  forNats (s5.goodDies 0) s5 State.retireCheck

/-- Available Spare of some dies (R221): the least of free blocks ÷ SPB × 100, capped at 100, and its die. -/
def State.spareOf (s : State) (ds : List Nat) : Option (Nat × Nat) :=
  ds.foldl (fun (r : Option (Nat × Nat)) dk =>
    let v := min 100 (s.freeBlocks dk * 100 / max 1 (s.spbOn (dkChip dk)))
    match r with | some (m, _) => if v < m then some (v, dk) else r | none => some (v, dk)) none

/-- Available Spare of the whole cascade, 100 where there is no die (R74, R221). -/
def State.spareAll (s : State) : Nat := match s.spareOf (s.dies.keysWhere fun _ d => !d.failed) with | some x => x.1 | none => 100

/-- Event 165 and the health event when Available Spare has fallen below 25. DESIGN CHOICE: the figure is looked at at the check
ticks; the spec does not say when the fall is noticed. -/
def State.spareTick (s : State) : State :=
  match s.spareOf (s.dies.keysWhere fun _ d => !d.failed) with
  | none => s
  | some (v, dk) =>
    let low := decide (25 ≤ s.par.availSpare ∧ v < 25)
    let s1 := { s with par := { s.par with availSpare := v, lowDie := dkDie dk } }
    if low then (s1.fire 165 [v + dkDie dk * 2 ^ 16]).aenCrit 0 else s1

/-! ### Check tick: tokens, media time, watermarks -/

/-- Tokens whose append was stamped 60 s of check ticks ago are removed (R130). -/
def State.tokAge (s : State) (secs : Nat) : State :=
  { s with toks := s.toks.mapV fun _ l => (l.map fun t => { t with age := t.age + secs }).filter fun t => decide (t.age < 60) }

/-- Media time advances with crown time (R182). -/
def State.mediaAdvance (s : State) : State :=
  let n := (s.now - s.fch.mediaMark) / secNs
  { s with fch := { s.fch with mediaTime := (s.fch.mediaTime + n) % 2 ^ 32, mediaMark := s.fch.mediaMark + n * secNs } }

/-- The parity watermark of every open sheaf is logged (R223). -/
def State.waterTick (s : State) : State := { s with zones := s.zones.mapV fun _ z => z.mark }

/-! ### Migration (R222) -/

/-- A placement under the previous seed. -/
def State.oldSeed (s : State) (p : Option Place) : Bool :=
  match p with | some x => x.seed == s.zne.seedPrev && x.seed != s.zne.seedCur | none => false

/-- Zones that can migrate now: Full sequential ones, then conventional ones, by layout key. DESIGN CHOICE: one whose rows are
being merged, rebuilt or copied off a failed block is left for a later tick; the spec does not say how they meet. -/
def State.migNext (s : State) : List Nat :=
  let can := fun (k : Nat) (z : Zone) => (s.oldSeed z.place || (z.conv && s.oldSeed z.logRow)) && z.migOld.isNone && z.merging == 0
    && z.copying.isEmpty && !(s.par.queue.any fun q => q.zone == k)
  let ins := fun (r : List Nat) k => (r.takeWhile fun q => decide (s.layoutKey q ≤ s.layoutKey k)) ++ [k] ++ (r.dropWhile fun q => decide (s.layoutKey q ≤ s.layoutKey k))
  (s.zones.keysWhere fun k z => can k z && !z.conv && z.zs == .full).foldl ins [] ++ (s.zones.keysWhere fun k z => can k z && z.conv).foldl ins []

/-- The rows of a zone that a copy to new rows fills: those that stand, in the numbering of the new rows. A data row of fewer or
more positions takes the units in its own order, once every row of them stands. -/
def Zone.migRows (z : Zone) (u bd : Nat) (data log : Option Place) : Option (List Nat) :=
  let mine := fun (tag : Nat) => z.rowsDone.filter fun r => tagOf r == tag
  let rows := fun (tag used : Nat) (old new : Option Place) => match old, new with
    | some p, some q =>
      if p.d = q.d then some (mine tag)
      else if tag = 0 ∧ ceilDiv used (p.d * u) ≤ (mine tag).length ∧ used ≤ q.d * bd then some (List.range (ceilDiv used (q.d * u)))
      else none
    | _, _ => some []
  match rows 0 (match z.place with | some p => if z.conv then p.d * bd else z.wp | none => 0) z.place data, rows logTag z.logUsed z.logRow log with
  | some a, some b => some (a ++ b)
  | _, _ => none

/-- The placement that a zone's rows share their chip and fence with. -/
def Zone.anyPlace (z : Zone) : Option Place := match z.place with | some p => some p | none => z.logRow

/-- A zone's rows move to new ones that have been chosen and taken: those of `rows` stand, and are read and copied; the others
are programmed to the new rows from staging (R222). -/
def State.migrateTo (s : State) (zk : Nat) (data log : Option Place) (rows : List Nat) : State :=
  let z := s.zone zk
  match z.anyPlace with
  | none => s
  | some old =>
    let src := (s.copySources zk).filter fun x => !x.2.2 && z.rowsDone.contains x.1
    let pages : List (Nat × Nat × Nat) := if old.chip ≠ 0 then [] else rows.flatMap fun r =>
      let pos : List (Nat × Option Nat) := match (if r < logTag then data else log) with | some p => p.pos | none => []
      pos.filterMap fun x => x.2.map fun k => (x.1, k, r - tagOf r)
    let s1 := (s.copyRead zk 1025 src).dropProgs zk fun k => match k with | .prog _ _ _ | .progSlc _ _ => true | _ => false
    let s2 := (pages.foldl (fun (s : State) x =>
      let o : Op := { die := x.1, block := x.2.1, row := x.2.2, kind := .progCopy zk, owner := 1025, seq := 0 }
      s.opQueue o) s1).copyFence zk
    let s3 := s2.zoneEdit zk fun y => { y with
      place := data, logRow := log, merging := pages.length, rowsDone := rows, rowPages := [], rowsCut := []
      migOld := some { old with pos := (match z.place with | some p => p.pos | none => []) ++ (match z.logRow with | some p => p.pos | none => []) }
      oldData := z.place, oldLog := z.logRow, oldUnits := z.logUnits, oldSlc := z.slc, oldDone := z.rowsDone
      slcNew := none, slcWant := z.slc.isSome || z.slcWant || z.slcNew.isSome
      ghosts := ((match z.slcNew with | some e => e.keys | none => []) ++ z.ghosts).eraseDups }
    let per := match data with | some p => p.d * s.geom.u | none => 1
    let s4 := if z.conv then s3.rowsStart zk logTag (s3.pendFrom zk z.logUsed)
      else s3.rowsStart zk 0 (if z.padded then ceilDiv z.cwp per * per else z.cwp)
    if (s4.zone zk).slcWant then s4.slcStart zk else s4

/-- New rows on the dies that the current seed draws, of the same chip and fence (R222). DESIGN CHOICE: a zone whose content the
new rows cannot hold stays where it is. -/
def State.migrateZone (s : State) (zk : Nat) : State :=
  let z := s.zone zk
  match z.anyPlace with
  | none => s
  | some old =>
    let dies := (s.roles (s.members old.chip old.fence zk)).map fun dk => (dk, (none : Option Nat))
    let fresh := fun (s : State) (p : Option Place) (st : Nat) => match p with
      | some x => (let r := s.freshRow { x with pos := dies } st; (some r.1, r.2))
      | none => ((none : Option Place), s)
    let a := fresh s z.place 2
    let b := fresh a.2 z.logRow 6
    match z.migRows s.geom.u s.geom.bdata a.1 b.1 with
    | none => s
    | some rows => b.2.migrateTo zk a.1 b.1 rows

/-- The migrations of a check tick: the crown chooses them (R222); a member follows its stamped entry. -/
def State.migTick (s : State) : State :=
  if s.zne.migrating && s.cas.crown then forNats ((s.migNext).take (min 16 s.par.migZones)) s State.migrateZone else s

/-- A check tick commits (R130, R162-R165, R182, R221-R223). -/
def State.checkApply (s : State) (secs : Nat) : State :=
  ((((((s.tokAge secs).mediaAdvance).waterTick).slcTick).spareTick).migTick)

/-! ### The layout seed (R168, R169) -/

/-- The shadow seed is applied or refused at its stamp; it is in force from the epoch boundary that the commit makes. -/
def State.seedApply (s : State) (stamp : Nat) : State :=
  let why := if !s.decl then 3 else if s.zne.migrating then 1 else if s.zne.seedShadow = s.zne.seedCur then 2 else 0
  let z := { s.zne with result := why, pending := false }
  if why ≠ 0 then { s with zne := z }
  else { s with zne := { z with seedPrev := z.seedCur, seedCur := z.seedShadow, migrating := true, boundary := (stamp / 65536 + 1) * 65536 } }.migCheck

/-! ### Commits of the system entries (R33, R38) -/

/-- What a system entry does at its commit. -/
def State.sysApply (s : State) (ev : SysEv) (stamp : Nat) : State :=
  match ev with
  | .staging span => (s.stagingApply stamp span).sysRecord stamp 0x07 true
  | .check secs => (s.checkApply secs).sysRecord stamp 0x07 true
  | .config => s.sysRecord stamp 0x08 false
  | .seed => (s.seedApply stamp).sysRecord stamp 0x08 false
  | .freeze | .zeroize => s.alarmApply ev stamp
  | .sag | .fence _ _ | .unfence _ | .casAct _ _ => s
  | e => (s.mediaApply e stamp).getD s

/-- Commit the system entries at the front of the stamped sequence, in order; `after` is what they do to the cascade. -/
def State.sysRun (after : State → SysEv → Nat → Nat → State) : Nat → State → State
  | 0, s => s
  | f + 1, s =>
    match s.gate.entries with
    | (k, e) :: _ =>
      match e.sys with
      | some ev =>
        let prev := s.gate.tickCheck
        let t := ((s.sysTake k).sysApply ev k).settle
        State.sysRun after f (after t ev k prev)
      | none => s
    | [] => s

end Sys2Proof.Machine
end

