-- ==== Sys2Proof/Machine/Power.lean ====
section
/-! DEFINITION. Stop (R364-R371), Brim and the dirty-data budget (R372-R378), the save sequence (R379-R381), Thistle
(R399-R404), and completion posting, whose last one lets a shutdown's save go on. -/

namespace Sys2Proof.Machine

open Sys2Proof

/-! ### The budget (R376) -/

/-- C and ESR as the budget uses them: measured, or C_MIN and ESR_MAX before the first test of a boot (R375). -/
def State.capNow (s : State) : Nat := if !s.brm.tested then s.brm.cmin * 10 else s.brm.cap
def State.esrNow (s : State) : Nat := if !s.brm.tested then s.brm.esrmax else s.brm.esr

/-- e_usable in units of 5e-21 J for a bank voltage in mV. -/
def State.eUsable (s : State) (mv : Nat) : Nat :=
  let vb := mv * 1000
  let vf := s.brm.vstop * 100000 + s.brm.isave * s.esrNow * 10
  if vb ≤ vf then 0 else s.capNow * (vb * vb - vf * vf) * s.brm.eta

/-- dirty_max in bytes: 6 J for the metadata, 5.5 J per GiB, at most 4 GiB, in steps of 16 MiB. -/
def dirtyMax (e : Nat) : Nat :=
  if e ≤ 12 * 10 ^ 20 then 0 else min 256 ((e - 12 * 10 ^ 20) * 64 / (11 * 10 ^ 20)) * 2 ^ 24

/-- Lowest bank voltage sampled in the last 10 ms. -/
def State.bankLow (s : State) : Nat :=
  minNat ((s.brm.vhist.filter fun p => decide (s.now < p.1 + 10000000)).map (·.2)) s.brm.vbank

/-- BRM_STATUS.STATE as software reads it (R377). -/
def State.brmState (s : State) : Nat := if s.brm.st ≤ 1 ∧ s.brm.budget < 2 * 2 ^ 20 then 5 else s.brm.st

/-- BRM_STATUS. -/
def State.brmStatus (s : State) : Nat :=
  let b := s.brm
  s.brmState * 2 ^ 29 + bit b.chg 28 + bit b.pfail 27 + bit b.lowcap 26 + bit b.highesr 25 + bit b.ovr 24 + b.vbank / 10

/-- A Brim event, with BRM_STATUS (R459). -/
def State.fireBrm (s : State) (k : Nat) : State := s.fire k [s.brmStatus]

/-- BUDGET_RECOMPUTE (R376, R378). -/
def execBudgetRecompute (s : State) : Host.Outcome State Fault Refusal :=
  let e := s.eUsable s.bankLow
  let excess := decide (dirtyMax e < s.gate.dirty)
  let s1 := { s with brm := { s.brm with budget := dirtyMax e, eMj := min (2 ^ 32 - 1) (e / (2 * 10 ^ 17)), ovr := excess } }
  .next (if excess && !s.brm.ovr then s1.fireBrm 28 else s1)

/-! ### The save sequence (R380) -/

/-- The save starts: admission stops, the crown stamps the supply-sag entry, a member whose supply sags sends SAG (R336),
the charger and the test load are off. -/
def State.saveStart (s : State) (kind : Nat) : State :=
  let s0 := s.fire 27
  let s1 := if s0.canStamp then (s0.enterSys .sag).markRun
    else if !s0.cas.crown && (kind == 1 || kind == 2) then s0.casSend 0 0 0x14 0 [] else s0
  { s1 with gate := { s1.gate with stopped := true }
            brm := { s1.brm with st := 3, chg := false, saveKind := kind, saveBytes := 0 } }

/-- A page of an erased save-reserve block of any die, of the given one first (R165, R167). -/
def State.savePick (s : State) (dk : Nat) : Option (Nat × Nat) :=
  (dk :: s.goodDies 0).findSome? fun d =>
    ((s.dieBlocks d).find? fun p => p.2.st == 9 && !p.2.unerased && p.2.retire == 0 && decide (p.2.taken < s.geom.slcRows)).map fun p => (d, p.1 % 8192)

/-- One page of an entry that the save writes. -/
def State.savePage (r : List Pg × State) (x : Nat × Nat) : List Pg × State :=
  match r.2.savePick x.2 with
  | some (d, b) =>
    let n := (r.2.blk (blkKey d b)).taken
    (r.1 ++ [{ pos := x.1, die := d, block := b, page := n }], r.2.blkEdit (blkKey d b) fun i => { i with taken := n + 1, rows := i.rows + 1 })
  | none => r

/-- The staged part of a zone's partial row is programmed with its P and Q as an SLC entry in the save reserve (R380). -/
def State.saveZone (s : State) (zk : Nat) : State :=
  match (if s.loose zk = 0 then none else s.partialRow zk) with
  | none => s
  | some (p, tag, row, n) =>
    let data := ((List.range p.dataPos.length).zip p.dataPos).filterMap fun (k, i, dk, _) => if k * s.geom.u < n then some (i, dk) else none
    let pq := ((List.range 2).zip p.pos).filterMap fun (i, dk, b) => if b.isSome then some (i, dk) else none
    let r := (pq ++ data).foldl State.savePage ([], s)
    (r.2.fillPages zk (tag + row) p r.1 n).zoneEdit zk fun z => { z with
      slc := some { row := tag + row, units := n, pages := r.1, left := 0, live := true }, slcNew := none, slcWant := false, ages := []
      ghosts := ((match z.slc with | some e => e.keys | none => []) ++ z.ghosts).eraseDups }

/-- Programs given to the dies run to their end (R380). DESIGN CHOICE: every program that stands at a die counts as started; the
spec does not say which do. -/
def State.saveOps : Nat → State → State
  | 0, s => s
  | f + 1, s =>
    match s.fch.ops.find? fun p => !p.2.isRead && !p.2.isErase && p.2.kind != .progZero && !p.2.failed with
    | some (id, o) => State.saveOps f (if o.withdrawn then s.opEnd id else (s.opEnd id).opContent o)
    | none => s

/-- Staging is released: what it held is programmed. -/
def State.saveRelease (s : State) : State :=
  forNats (s.staging.map (·.1)) s fun s k => match s.staging.look k with | some t => s.releaseUnits k (List.range t.n) | none => s

/-- Writes not fully staged and reads not yet released are withdrawn, their completions discarded (R380, R381). -/
def State.saveWithdraw (s : State) : State :=
  forNats (s.ctxs.keysWhere fun _ x => x.phase == .stamped && x.e.isBlock && decide (x.q ≠ 0)) s fun s c =>
    (s.ctxDiscard c).cmdEnd c stInternal

/-- Erases that are still to be done: those of sanitizing sets (R199), and DESIGN CHOICE the others that stand at the dies. -/
def State.eraseDue (s : State) : List Nat :=
  let sets := s.ctxs.foldl (fun l p => p.2.eraseSet.foldl (fun l b => insNat b l) l) (s.nvme.saniErase.foldl (fun l b => insNat b l) s.fch.eraseList)
  (s.fch.ops.filter fun p => p.2.isErase).foldl (fun l p => insNat (blkKey p.2.die p.2.block) l) sets

/-- The rest of the save: dirty rows to the save reserve, the metadata, and the clean marker unless memory-fatal. Its
duration is within the bound of R380; which, is not stated. -/
def State.saveFinish (s : State) (fatal : Bool) : State :=
  let s0 := (s.saveWithdraw).mediaAdvance
  let s1 := State.saveOps (s0.fch.ops.length * 8 + 64) s0
  let bytes := s1.zones.sum (fun zk _ => s1.loose zk) * 4096
  let ms := s1.freeVal % (121 + 110 * ceilDiv s.gate.dirty (2 ^ 30))
  let s2 := (forNats (s1.zones.map (·.1)) s1 State.saveZone).saveRelease
  let s3 := { s2 with
    fch := { s2.fch with ops := [], eraseList := s1.eraseDue }
    dies := s2.dies.mapV fun _ d => { d with queue := [], wait := [], running := none, suspended := none, suspending := false }
    nv := { s2.nv with clean := !fatal, fatalSaved := fatal, savedNext := s2.gate.next, savedLog := some s2.log, savedMedia := s2.fch.mediaTime
                       saveKind := s2.brm.saveKind, saveMs := ms, saveBytes := bytes }
    evt := { s2.evt with glitchArmed := s2.evt.glitchArmed && fatal }
    brm := { s2.brm with st := 4, saveBytes := bytes, saveMs := ms } }
  (s3.freeStep).mtrSave

/-- A save with nothing to wait for: a sag, a memory-fatal stop, a PLDM activation. A second trigger has no effect. -/
def State.saveNow (s : State) (kind : Nat) : State :=
  if 3 ≤ s.brm.st then s else (s.saveStart kind).saveFinish (kind == 4)

/-- A sag in Stop is a wake (R368); the save follows it. -/
def State.wakeForSag (s : State) : State :=
  if s.pwr.st = 2 then
    { s with pwr := { s.pwr with st := 0, lowreg := false, wakeCause := 4, aoPeak := s.freeVal % 256 }
             free := s.free + 1, drc := { s.drc with srState := 0 }
             mon := { s.mon with stopFrame := false } }
  else s

/-- HU_PFAIL_N_LOW (R379). -/
def execHuPfailLow (s : State) : Host.Outcome State Fault Refusal :=
  .next (({ s with brm := { s.brm with pfail := true } }.wakeForSag).saveNow 1)

/-- INPUT_RAIL_SAG (R379): channel 11 was below SAG_V for three consecutive samples. -/
def execInputRailSag (s : State) : Host.Outcome State Fault Refusal :=
  if 3 ≤ s.mon.sagRun then .next ((s.wakeForSag).saveNow 2) else .next s

/-- A memory-fatal stop (R293). -/
def State.memFatal (s : State) : State :=
  if 3 ≤ s.brm.st then s
  else ({ s with nvme := { s.nvme with cfs := true } }.fire 0).saveNow 4

/-! ### Shutdown (R64) -/

/-- Stamped commands that a shutdown lets complete and post. -/
def State.draining (s : State) : Bool := s.ctxs.any fun k x => x.stamped && !s.nvme.aers.contains k

/-- The save of a shutdown goes on; SHST then reads 0b10, and commands are refused until CC.EN is cleared and set (R64). -/
def State.shutDown (s : State) : State :=
  let s1 := s.saveFinish false
  if s1.nvme.shst = 1 then { s1 with nvme := { s1.nvme with shst := 2, shutDone := true } } else s1

/-- The save of a shutdown goes on once nothing that was stamped is left, also where a reset of the controller has come between
(R64). -/
def State.saveGo (s : State) : State := if s.brm.st = 3 ∧ s.brm.saveKind = 3 ∧ !s.draining then s.shutDown else s

/-- SHUTDOWN_NOTIFICATION (R62, R64, R380): stamped commands complete and post first; the notification while that goes on
stands for the end of the 2 s that they have. -/
def execShutdownNotification (shn : Nat) (s : State) : Host.Outcome State Fault Refusal :=
  if shn % 4 = 0 ∨ shn % 4 = 3 ∨ !s.gate.adminOk then .next s
  else if s.brm.saveKind = 3 ∧ s.brm.st = 3 then .next s.shutDown
  else if 3 ≤ s.brm.st then .next s
  else
    let s1 := s.saveStart 3
    let cc := (s1.nvme.cc &&& ~~~0xc000) ||| BitVec.ofNat 32 (shn % 4 * 2 ^ 14)
    let s2 := { s1 with nvme := { s1.nvme with shst := 1, cc := cc } }
    .next (if s2.draining then s2 else s2.shutDown)

/-- COMPLETION_POST (R24): and the save of a shutdown goes on after the last completion (R380). -/
def execCompletionPost (ctx : Nat) (s : State) : Host.Outcome State Fault Refusal :=
  .next (s.postCompletion ctx).saveGo

/-! ### Charger and test (R373-R375) -/

/-- CHARGER_REGULATION (R373); the event of a voltage above V_CHG + 1.0 V is raised once while it stands. -/
def execChargerRegulation (s : State) : Host.Outcome State Fault Refusal :=
  let v := s.brm.vbank
  let top := s.brm.vchg * 100
  let before := s.brm.overV
  let s := { s with brm := { s.brm with overV := decide (top + 1000 < v) } }
  if 2 ≤ s.brm.st then .next { s with brm := { s.brm with chg := false } }
  else if top + 1000 < v then
    let s1 := { s with brm := { s.brm with chg := false, st := 1 } }
    .next (if before then s1 else s1.fireBrm 25)
  else if top ≤ v then .next { s with brm := { s.brm with chg := false, st := 1 } }
  else if v + 300 < top then .next { s with brm := { s.brm with chg := decide (s.brm.iset ≠ 0), st := 0 } }
  else .next s

/-- Division rounded to the nearest whole unit. -/
def divNear (a b : Nat) : Nat := (2 * a + b) / (2 * b)

/-- A capacitance and ESR test (R374) with its measurements. A division by 0 leaves its result open. -/
def State.bankTest (s : State) (m : BankMeas) : State :=
  if 2 ≤ s.brm.st then s
  else
    let res := fun (n : Nat) => { s with brm := { s.brm with testResult := n } }
    if !m.dirtyOk then res 1
    else if m.sag then { (res 2) with brm := { (res 2).brm with pfail := true } }.saveNow 1
    else if !m.settled || m.flagged then res 3
    else
      let f := s.freeVal
      let esr := if m.v1 = 0 then f else divNear ((m.v0 - m.v1) * s.brm.rtest * 1000) m.v1
      let c := if m.v1 ≤ m.v2 ∨ s.brm.rtest = 0 then f else divNear ((m.v1 + m.v2) * m.tUs) (2 * s.brm.rtest * (m.v1 - m.v2))
      let low := decide (c < s.brm.cmin * 10)
      let high := decide (s.brm.esrmax < esr)
      let s1 := { (res 0) with brm := { (res 0).brm with
        cap := c, esr := esr, tested := true, testTime := s.fch.mediaTime, lowcap := low, highesr := high } }.freeStep
      let s2 := if low then (if s.brm.lowcap then s1.fireBrm 26 else (s1.fireBrm 26).aenCrit 4) else s1
      if high then s2.fireBrm 25 else s2

/-- BRM_TEST.GO (R374). -/
def execBrmTestGo (m : BankMeas) (s : State) : Host.Outcome State Fault Refusal := .next (s.bankTest m)

/-- The test period has passed, or the bank has first reached V_CHG (R375). -/
def execTestPeriodExpiry (m : BankMeas) (s : State) : Host.Outcome State Fault Refusal := .next (s.bankTest m)

/-- Ten minutes after a test that was postponed or not settled (R374). -/
def execBrimTestRetry (m : BankMeas) (s : State) : Host.Outcome State Fault Refusal :=
  .next (if s.brm.testResult = 1 ∨ s.brm.testResult = 3 then s.bankTest m else s)

/-! ### Thistle (R399-R404) -/

/-- Full scale of a channel in its unit of MON_VAL (R400). -/
def State.fullScale (s : State) (ch : Nat) : Nat :=
  if ch = 2 ∨ ch = 10 ∨ ch = 18 then 2500
  else if ch = 11 then 1250 * s.mon.div11 / 1000
  else if ch = 12 then 1250 * s.mon.div12 / 1000
  else if ch = 13 then s.mon.ichgFs
  else 1250

/-- The value of a code: a thermistor's temperature, or its share of full scale. -/
def State.monValue (s : State) (ch code : Nat) : Int :=
  if 14 ≤ ch ∧ ch ≤ 17 then Config.ntcTemp s.mon.ntcB s.mon.ntcR25 code else ((code * s.fullScale ch / 4096 : Nat) : Int)

/-- Channel 12 feeds the budget: a flagged 0x000 is 0 V, 0xfff full scale (R403). -/
def State.bankSample (s : State) (code : Nat) : State :=
  let mv := if code = 0xfff then s.fullScale 12 else code * s.fullScale 12 / 4096
  { s with brm := { s.brm with
    vbank := mv, vhist := ((s.now, mv) :: s.brm.vhist).filter fun p => decide (s.now < p.1 + 10000000) } }

/-- Channels of the Stop frame (R399). -/
def stopChan (ch : Nat) : Bool := ch == 2 || (11 ≤ ch && ch ≤ 17)

/-- THISTLE_CONVERSION (R399, R401-R403). -/
def execThistleConversion (chan code : Nat) (ovHi ovLo : Bool) (s : State) : Host.Outcome State Fault Refusal :=
  if 24 ≤ chan ∨ (s.mon.stopFrame ∧ !stopChan chan) then .next s
  else
    let ovr := ovHi || ovLo
    let c := if ovHi then 0xfff else if ovLo then 0 else min 0xffe (max 1 code)
    let settle := decide (0 < s.mon.settleLeft)
    let old := s.mon.chans.get chan {}
    let k : MonChan := { ovr := ovr, settle := settle, code := c, value := if ovr || settle then old.value else s.monValue chan c }
    let s1 := { s with mon := { s.mon with
      chans := s.mon.chans.put chan k
      settleLeft := if ovr then 2 else s.mon.settleLeft - 1
      ovrSeen := if ovr then s.mon.ovrSeen ||| BitVec.ofNat 24 (2 ^ chan) else s.mon.ovrSeen
      sagRun := if chan ≠ 11 ∨ (settle && !ovr) = true then s.mon.sagRun else if c < s.mon.sagv then s.mon.sagRun + 1 else 0 } }
    let s2 := if ovr && !s.mon.ovrSeen.getLsbD chan then s1.fire 29 [s1.mon.ovrSeen.toNat] else s1
    if chan ≠ 12 ∨ (settle && !ovr) = true then .next s2
    else
      let s3 := s2.bankSample c
      .next (if ovHi then { s3 with brm := { s3.brm with chg := false } }.fireBrm 25 else s3)

/-! ### Stop (R365-R369) -/

/-- Every condition of R365 that the chip itself holds; in a cascade every ACTIVE member is idle too (R366). -/
def State.idle (s : State) : Bool :=
  s.ctxs == [] && s.fch.ops == [] && s.nv.norQueue == [] && !s.nv.norErase && s.gate.dirty == 0 && !s.ecc.scrubBusy && s.brm.st != 2 && decide (s.brm.st < 3)
  && decide (s.mtr.buffer.length < 8)
  && (s.linkUp || !s.pci.perstN)
  && s.cas.members.all fun _ m => m.st != .active || m.idle

/-- The chip is in Stop. -/
def State.enterStop (s : State) : State :=
  { s with pwr := { s.pwr with st := 2, lowreg := true, entries := satAdd 0xffffffff s.pwr.entries 1 }
           drc := { s.drc with srState := 2 }, mon := { s.mon with stopFrame := true } }

/-- Requests held over a self-refresh entry are served after its exit; how long they waited is free up to 2.5 µs (R283). -/
def State.dramHeld (s : State) (n : Nat) : State :=
  if n = 0 then s
  else ({ s with drc := { s.drc with srState := 0, srMaxWait := max s.drc.srMaxWait (s.freeVal % 2501) } }).freeStep

/-- STOP_ENTRY (R365-R369): the conditions have held for `elapsedMs`; a level that is asserted abandons the entry. With requests in
the hold queue when self-refresh entry completes, `sources.2` of them, the DRAM leaves it at once and stays out of it (R283). -/
def execStopEntry (elapsedMs : Nat) (sources : List WakeSrc × Nat) (s : State) : Host.Outcome State Fault Refusal :=
  if s.pwr.st ≠ 0 ∨ s.upd.stage ≠ 9 ∨ !s.idle ∨ elapsedMs < s.nvme.stopIdle ∨ !s.cas.crown then .next s
  else if sources.1.any fun w => w != .i3c then .next { s with pwr := { s.pwr with aborts := satAdd 0xffffffff s.pwr.aborts 1 } }
  else
    let s1 := (s.cas.members.keysWhere fun _ m => m.st == .active).foldl (fun s c => s.casSend (portOf c) 3 0x80 0 [1]) s
    .next (s1.enterStop.dramHeld sources.2)

end Sys2Proof.Machine
end

