-- ==== Sys2Proof/Machine/Integrity.lean ====
section
/-! DEFINITION. Memory integrity: the responses to uncorrectable and corrected errors (R284-R294), microcode reloads
(R291, R415), refresh and DQS oscillators (R276, R281, R282), program-stream panic (R280), Scrub Range (R295-R297), and
the health of the entropy source (R302). -/

namespace Sys2Proof.Machine

open Sys2Proof

/-! ### Memory maps (R277) -/

/-- First byte addresses of the SRAM regions. -/
def sramBases : List Nat :=
  [0, 0x800000, 0x2000000, 0x3800000, 0x4000000, 0x4800000, 0x4a00000, 0x4c00000, 0x4e00000, 0x4f00000, 0x4f80000]

def sramSize : Nat := 0x5000000

/-- Region of an SRAM byte address. -/
def sramRegion (a : Nat) : Nat := ((sramBases.filter fun b => decide (b ≤ a)).length) - 1

/-- A running Scrub Range reads the address (port 23, R296). -/
def State.scrubs (s : State) (dram : Bool) (port addr : Nat) : Bool :=
  s.ecc.scrubBusy && s.ecc.scrubMem == dram && port == 23 && decide (s.ecc.scrubStart ≤ addr) &&
    decide (addr < s.ecc.scrubStart + s.ecc.scrubLen)

/-- The summary of a running pass takes an uncorrectable word, or a corrected one (R297). -/
def State.scrubUe (s : State) (dram : Bool) (port addr region : Nat) (fault : Bool) (resp : Nat) : State :=
  if s.scrubs dram port addr then
    let m := s.ecc.scrubSum
    { s with ecc := { s.ecc with scrubSum := { m with
      uncorr := m.uncorr + 1, addrflt := m.addrflt + (if fault then 1 else 0), regions := m.regions ||| 2 ^ region
      firstUe := some (m.firstUe.getD addr), lastUe := some addr, lost := m.lost || !(resp == 1 || resp == 2) } } }
  else s

def State.scrubCe (s : State) (dram : Bool) (port addr : Nat) : State :=
  if s.scrubs dram port addr then
    let m := s.ecc.scrubSum
    { s with ecc := { s.ecc with scrubSum := { m with corrected := m.corrected + 1, firstCe := some (m.firstCe.getD addr) } } }
  else s

/-- Region of a usable DRAM address. -/
def dramRegion (a : Nat) : Nat :=
  if a < 0x40000000 then 0 else if a < 0x80000000 then 1 else if a < 0x90000000 then 2 else if a < 0xa0000000 then 3 else 4

/-- Usable DRAM in bytes: seven eighths of at most 64 GiB (R28). -/
def State.dramUsable (s : State) : Nat := min 64 s.drc.gib * 7 * 2 ^ 27

/-- The Sward port may reach the DRAM region (R278). -/
def portMay (port region : Nat) : Bool :=
  if port = 23 then true
  else if port ≤ 9 ∨ (20 ≤ port ∧ port ≤ 22) then region == 4
  else if port = 18 ∨ port = 19 then region == 1 || region == 4
  else false

/-! ### Counts and records (R288, R294) -/

/-- The record of an uncorrectable or command error: memory, kind, region, port; address; response. -/
def State.ueRecord (s : State) (mem kind region port addr resp : Nat) : State :=
  s.fire 7 [mem + kind * 2 ^ 8 + region * 2 ^ 16 + port * 2 ^ 24, addr, resp]

/-- ECC_UE_ADDR or ECC_CE_ADDR takes the first error since its VALID was cleared (R299). -/
def eccLatch (old : Word) (region port word : Nat) : Word :=
  if old.getLsbD 63 then old
  else BitVec.ofNat 64 (2 ^ 63 + region % 16 * 2 ^ 59 + port % 32 * 2 ^ 54 + word % 2 ^ 24)

/-- DRC_UE_ADDR or DRC_CE_ADDR (R298). -/
def drcLatch (old : Word) (kind port region addr : Nat) : Word :=
  if old.getLsbD 63 then old
  else BitVec.ofNat 64 (2 ^ 63 + kind % 8 * 2 ^ 60 + port % 32 * 2 ^ 55 + region % 8 * 2 ^ 52 + addr / 64 % 2 ^ 36)

/-- An uncorrectable SRAM word is counted and latched. -/
def State.sramCount (s : State) (region port word : Nat) : State :=
  { s with ecc := { s.ecc with
    ueCnt := satAdd 0xffff s.ecc.ueCnt 1, ueAddr := eccLatch s.ecc.ueAddr region port word } }

def dramKind : DramKind → Nat
  | .data => 1 | .addressFault => 2 | .link => 3 | .command => 4

/-- An uncorrectable burst or a command error is counted and latched. -/
def State.dramCount (s : State) (kind port addr : Nat) : State :=
  { s with drc := { s.drc with
    ueData := if kind = 1 then satAdd 0xffff s.drc.ueData 1 else s.drc.ueData
    ueAddrC := if kind = 2 then satAdd 0xffff s.drc.ueAddrC 1 else s.drc.ueAddrC
    ueLink := if kind = 3 then satAdd 0xffff s.drc.ueLink 1 else s.drc.ueLink
    ueCmd := if kind = 4 then satAdd 0xffff s.drc.ueCmd 1 else s.drc.ueCmd
    ueAddr := drcLatch s.drc.ueAddr kind port (dramRegion addr) addr } }

/-! ### Responses (R289, R290) -/

/-- A released unit still in its cut-through buffer is read again from ladder step 0. -/
def State.unitAgain (s : State) (c : Nat) : State :=
  match s.ctxs.look c with
  | none => s
  | some x =>
    match x.runits.find? fun p => p.2.st == .ready && p.2.hold.isNone with
    | none => s
    | some (u, _) =>
      ({ s with dma := { s.dma with fences := s.dma.fences.erase (2, relTag c u) } }).runitEdit c u fun r =>
        { r with st := .waiting, ladder := 0, around := false, aroundFailed := false, best := none }

/-- The channel of a command's owner halts with CAUSE 4, and the command ends with DMA_HALTED (R254, R255). -/
def State.haltFour (s : State) (c u : Nat) : State :=
  match s.ctxs.look c with
  | none => s
  | some x => s.busFail c { q := x.q, cid := x.e.cid, toDevice := x.e.opc ≠ 2 ∧ x.e.opc ≠ 0x7a, cause := 4
                            source := 5, desc := 0, addr := 0, unit := min 511 u }

/-- The response of an SRAM region, and its code in the record (R459). A record states none for regions 9 and 10. -/
def State.sramResponse (s : State) (region word c : Nat) (otherCopyOk repairOk : Bool) : Nat × State :=
  if region = 0 then (5, s.cmdEnd c stInternal)
  else if region = 1 then (2, s.unitAgain c)
  else if region = 5 ∨ region = 7 ∨ region = 8 then
    if otherCopyOk then (1, { s with ecc := { s.ecc with dupFail := satAdd 0xffff s.ecc.dupFail 1 } }) else (6, s.memFatal)
  else if region = 6 then (4, s.haltFour c 0)
  else if region = 9 then
    (s.freeVal % 7, ({ s with log := { s.log with
      slots := s.log.slots.edit ((word * 8 - 0x4f00000) / 64) fun r => { r with valid := false } } }).freeStep)
  else if region = 10 then (s.freeVal % 7, s.freeStep)
  else if !repairOk then (6, s.memFatal)
  else (if region = 2 then 1 else 2, s)

/-- A copy of a control word that a read can use: correct, or corrected (R285). -/
def copyUse (w : Nat) : Option Nat := match secdedDecode w with
  | .clean => some w
  | .corrected b => some b
  | _ => none

/-- The damaged copy of a control word is rewritten from the other (R285). -/
def State.copyRewrite (s : State) (region wordAddr other : Nat) : State :=
  match (if region = 5 ∨ region = 7 ∨ region = 8 then copyUse other else none) with
  | some b => s.say (.writeBack false (wordAddr * 8) b)
  | none => s

/-- An uncorrectable SRAM word at `wordAddr` × 8: counted, answered by its region, recorded. -/
def State.sramUe (s : State) (port wordAddr ctx other : Nat) (repairOk : Bool) : State :=
  let region := sramRegion (wordAddr * 8)
  let r := (s.sramCount region port wordAddr).sramResponse region wordAddr ctx (copyUse other).isSome repairOk
  ((r.2.copyRewrite region wordAddr other).scrubUe false port (wordAddr * 8) region false r.1).ueRecord 0 1 region port (wordAddr * 8) r.1

/-- SRAM_UNCORRECTABLE (R284, R285, R289): `wordAddr` is the SRAM address ÷ 8. Port 24 is a sequencer's fetch (R299). Bits that the
code does not find uncorrectable are no such event. -/
def execSramUncorrectable (port wordAddr ctx raw other : Nat) (repairOk : Bool) (s : State) : Host.Outcome State Fault Refusal :=
  if sramSize ≤ wordAddr * 8 ∨ 24 < port ∨ secdedDecode raw ≠ .uncorrectable then .next s
  else .next (s.sramUe port wordAddr ctx other repairOk)

/-- The 16 buffer indexes of a free-store burst are dropped until the next boot (R290, region 2). -/
def State.storeDrop (s : State) : Bool × State :=
  if (1024 - 256) * 64 < s.bpm.sysStgLost + 16 then (false, s.memFatal)
  else (true, { s with bpm := { s.bpm with sysStgLost := s.bpm.sysStgLost + 16, dramTotal := s.bpm.dramTotal - 16 } })

/-- Unit `j` of the staged write of a stamp is lost; its LBA reads as Unrecovered Read Error (R290). -/
def State.stagedLose (s : State) (stamp j : Nat) : State :=
  match s.staging.look stamp with
  | none => s
  | some st => s.zoneEdit st.zone fun z => { z with
      vers := z.vers.edit (st.off + j) fun l => l.map fun v => if v.stamp = stamp then { v with lost := true } else v }

/-- The response of a DRAM region, with its code. In region 4, `c` and `u` are a read and its unit for a write-buffer hit
(Swath, ports 0 and 1), and otherwise the stamp of the staged write and its unit. -/
def State.dramResponse (s : State) (region port c u : Nat) (rebuilt repairOk : Bool) : Nat × State :=
  if !repairOk then (6, s.memFatal)
  else if region = 2 then
    let r := s.storeDrop
    (if r.1 then 1 else 6, r.2)
  else if region = 3 then (2, s)
  else if region = 4 ∧ !rebuilt then
    if port ≤ 1 then (4, s.haltFour c u) else (3, s.stagedLose c u)
  else (1, s)

/-- What the code finds in a burst read at an address: its 64 bytes and those of its group's check burst (R286). -/
def burstDecode (addr : Nat) (b : Burst) : Decoded := rsDecode addr b.data (checkBytes addr b.check)

/-- The kind of error of a burst that cannot be corrected. -/
def ueKind : Decoded → Option DramKind
  | .addressFault => some .addressFault
  | .uncorrectable => some .data
  | _ => none

/-- A burst that cannot be used: counted by its kind, answered by its region, recorded. -/
def State.dramUe (s : State) (addr port : Nat) (k : DramKind) (ctx unit : Nat) (rebuilt repairOk : Bool) : State :=
  let region := dramRegion addr
  let r := (s.dramCount (dramKind k) port addr).dramResponse region port ctx unit rebuilt repairOk
  (r.2.scrubUe true port addr region (k == .addressFault) r.1).ueRecord 1 (dramKind k) region port addr r.1

/-- DRAM_UNCORRECTABLE (R286, R287, R290): an uncorrectable burst or an address fault. -/
def execDramUncorrectable (addr port : Nat) (b : Burst) (ctx unit : Nat) (rebuilt repairOk : Bool) (s : State) :
    Host.Outcome State Fault Refusal :=
  match ueKind (burstDecode addr b) with
  | none => .next s
  | some k =>
    if s.dramUsable ≤ addr ∨ !portMay port (dramRegion addr) then .next s
    else .next (s.dramUe addr port k ctx unit rebuilt repairOk)

/-- COMMAND_ERROR (R292): a denied region, an address beyond the usable space, or a link error that its retry repeats. The
access is not performed; the requester acts as R290 says for the region named, the damaged unit excepted: the access that
met the error is retried. A link error damages what it read, as an uncorrectable burst does. -/
def execCommandError (addr port : Nat) (k : AccessErr) (s : State) : Host.Outcome State Fault Refusal :=
  match k with
  | .command =>
    if s.dramUsable ≤ addr then .next ((s.dramCount 4 port addr).ueRecord 1 4 (dramRegion addr) port addr 1)
    else if portMay port (dramRegion addr) then .next s
    else .next (s.dramUe addr port .command 65536 0 true true)
  | .link ctx unit rebuilt repairOk =>
    if s.dramUsable ≤ addr then .next s else .next (s.dramUe addr port .link ctx unit rebuilt repairOk)

/-- A corrected burst is counted, and the first since the last clear is latched; the threshold event is raised once (R288). -/
def State.dramCorrected (s : State) (addr port : Nat) : State :=
  let n := satAdd 0xffffffff s.drc.ceCnt 1
  let due := s.drc.ceThr != 0 && decide (s.drc.ceThr ≤ n) && !s.drc.ceFired
  let s1 := { s with drc := { s.drc with
    ceCnt := n, ceAddr := drcLatch s.drc.ceAddr 0 port (dramRegion addr) addr, ceFired := s.drc.ceFired || due } }
  (if due then s1.fire 6 [n] else s1).scrubCe true port addr

/-- A corrected SRAM word, likewise. -/
def State.sramCorrected (s : State) (addr port : Nat) : State :=
  let n := satAdd 0xffffffff s.ecc.ceCnt 1
  let due := s.ecc.ceThr != 0 && decide (s.ecc.ceThr ≤ n) && !s.ecc.ceFired
  let s1 := { s with ecc := { s.ecc with
    ceCnt := n, ceAddr := eccLatch s.ecc.ceAddr (sramRegion addr) port (addr / 8), ceFired := s.ecc.ceFired || due } }
  (if due then s1.fire 5 [n] else s1).scrubCe false port addr

/-- The word or burst goes back corrected, unless a write to it is queued (R288). -/
def State.writeBack (s : State) (dram : Bool) (addr bits : Nat) (queued : Bool) : State :=
  if queued then s else s.say (.writeBack dram addr bits)

/-- CORRECTED_ERROR (R284, R286, R288): an access to an SRAM word or to a DRAM burst that the code corrects. -/
def execCorrectedError (m : MemRead) (port : Nat) (queued : Bool) (s : State) : Host.Outcome State Fault Refusal :=
  match m with
  | .dram addr b =>
    if s.dramUsable ≤ addr ∨ !portMay port (dramRegion addr) then .next s
    else match burstDecode addr b with
      | .corrected v => .next ((s.writeBack true addr v queued).dramCorrected addr port)
      | _ => .next s
  | .sram addr raw =>
    if sramSize ≤ addr ∨ 24 < port then .next s
    else match secdedDecode raw with
      | .corrected v => .next ((s.writeBack false addr v queued).sramCorrected addr port)
      | _ => .next s

/-! ### Microcode (R291, R413, R415) -/

/-- ECC_TRAP. -/
def Ecc.trapReg (e : Ecc) : Nat := e.trapBlock * 2 ^ 16 + e.trapCnt

/-- MICROCODE_TRAP (R291): `again` says that the same block trapped within the last second. -/
def execMicrocodeTrap (blk : Nat) (verifyOk again : Bool) (s : State) : Host.Outcome State Fault Refusal :=
  if blk < 0x3800 ∨ 0x4000 ≤ blk then .next s
  else
    let twice := again && decide (s.ecc.trapBlock = blk) && s.ecc.trapCnt != 0
    let s1 := s.sramCount 3 24 (blk * 512)
    let e := { s1.ecc with trapBlock := blk, trapCnt := satAdd 0xffff s1.ecc.trapCnt 1 }
    let s2 := ({ s1 with ecc := e }).fire 8 [e.trapReg]
    let bad := !verifyOk || twice
    let s3 := s2.ueRecord 0 1 3 24 (blk * 4096) (if bad then 6 else 2)
    .next (if bad then s3.memFatal else s3)

/-- The cache of fetched blocks: 384 of them, the least recently used replaced first (R413). -/
def cacheTouch (l : List Nat) (b : Nat) : List Nat :=
  let m := l.filter (· ≠ b) ++ [b]
  m.drop (m.length - 384)

/-- MICROCODE_BLOCK_FETCH (R415): a mismatch is fetched once more; a second is memory-fatal. -/
def execMicrocodeBlockFetch (blk : Nat) (firstOk secondOk suspended : Bool) (s : State) : Host.Outcome State Fault Refusal :=
  if s.upd.cache.contains blk then .next { s with upd := { s.upd with cache := cacheTouch s.upd.cache blk } }
  else
    let u := s.upd
    let s1 := { s with upd := { u with
      suspends := if suspended then satAdd 0xffff u.suspends 1 else u.suspends
      retries := if firstOk then u.retries else satAdd 0xffff u.retries 1 } }
    if !firstOk && !secondOk then .next s1.memFatal
    else .next { s1 with upd := { s1.upd with fetches := satAdd 0xffffffff u.fetches 1, cache := cacheTouch u.cache blk } }

/-! ### Refresh and the real-time port -/

/-- Multiplier code of the DRAM PHY region's band (R281); a broken sensor holds it at ×4. -/
def State.bandMult (s : State) : Nat :=
  let r := s.region 3
  if r.held ∨ r.band = 4 then 2 else if r.band = 3 then 1 else 0

/-- Class of a DRAM request, 1 served first (R279): a refresh postponed 8 times is of class 1, and the program stream of a group in
panic of class 2. -/
def State.dramClass (s : State) : DramUse → Nat
  | .refresh => if 8 ≤ s.drc.postponed then 1 else 5
  | .selfRefresh => 1
  | .stream g => if s.drc.panic.getLsbD g then 2 else 4
  | .bufferHit | .reload | .reconstruction => 3
  | .staging | .spill | .copy => 4
  | .neighbour => 5
  | .metadata | .scrubber => 6

/-- The request served next of those that wait, oldest first: the lowest class, and class 6 before class 4 once 63 others have been
served since its last turn (R279). -/
def State.dramNext (s : State) (waiting : List DramUse) (since : Nat) : Option DramUse :=
  let rank := fun (u : DramUse) => let c := s.dramClass u; if c = 6 ∧ 63 ≤ since then 3 * 2 + 1 else c * 2
  waiting.foldl (fun (m : Option DramUse) u => match m with
    | some v => if rank u < rank v then some u else some v
    | none => some u) none

/-- A refresh gives way to the program stream of a group in panic (R280). -/
def State.refreshWaits (s : State) : Bool :=
  (List.range 4).any fun g => s.drc.panic.getLsbD g && s.dramNext [.refresh, .stream g] 0 == some (.stream g)

/-- REFRESH_INTERVAL (R281, R282): `mr4` is the multiplier code the devices request. A panic postpones the refresh, up to 8 times
(R280). -/
def execRefreshInterval (mr4 draws dropped : Nat) (s : State) : Host.Outcome State Fault Refusal :=
  if s.drc.srState ≠ 0 then .next s
  else
    let b := s.bandMult
    let m := min 2 mr4
    let n := if s.drc.nbrProb = 0 then 0 else draws
    let lost := min dropped n
    .next { s with drc := { s.drc with
      mult := max b m, mr4 := decide (b < m), postponed := if s.refreshWaits then s.drc.postponed + 1 else 0
      nbrIssued := satAdd 0xffffffff s.drc.nbrIssued (n - lost), nbrDropped := satAdd 0xffffffff s.drc.nbrDropped lost } }

/-- DQS_OSCILLATOR_READ (R276): a drift beyond the profile's limit adjusts the delay; in panic only after 100 µs of waiting.
DESIGN CHOICE: the spec ties no program stream to a DRAM channel, and a panic of any channel group holds back every channel. -/
def execDqsOscillatorRead (ch drift : Nat) (panicWait : Bool) (s : State) : Host.Outcome State Fault Refusal :=
  let lim := match s.img with | some i => i.dqsLimit | none => 0
  if ch < 16 ∧ lim < drift ∧ (s.drc.panic = 0 ∨ panicWait) ∧ s.drc.srState = 0 then
    .next { s with drc := { s.drc with adjusts := s.drc.adjusts + 1 } }
  else .next s

/-- Panic level and release level in sixteenths as they act (R298). -/
def State.rtOn (s : State) : Nat := max 1 s.drc.rtOn
def State.rtOff (s : State) : Nat := if s.drc.rtOff ≤ s.rtOn then s.rtOn + 1 else s.drc.rtOff

/-- PROGRAM_STREAM_PANIC (R280): the FIFO of a flash channel holds `level` sixteenths; its group is one of four. -/
def execProgramStreamPanic (ch level : Nat) (s : State) : Host.Outcome State Fault Refusal :=
  let g := ch / 8
  if 32 ≤ ch ∨ s.rtOn ≤ level then .next s
  else
    .next { s with drc := { s.drc with
      fifo := s.drc.fifo.put ch level
      panic := s.drc.panic ||| BitVec.ofNat 4 (2 ^ g)
      panics := if s.drc.panic.getLsbD g then s.drc.panics else satAdd 0xffffffff s.drc.panics 1
      pauses := if level = 0 ∧ s.drc.fifo.get ch 16 ≠ 0 then satAdd 0xffffffff s.drc.pauses 1 else s.drc.pauses } }

/-- PANIC_END (R280): every FIFO of the group holds at least OFF sixteenths. -/
def execPanicEnd (group : Nat) (s : State) : Host.Outcome State Fault Refusal :=
  .next { s with drc := { s.drc with
    panic := s.drc.panic &&& ~~~(BitVec.ofNat 4 (2 ^ group))
    fifo := s.drc.fifo.mapV fun c l => if c / 8 = group then max l s.rtOff else l } }

/-! ### Scrub Range -/

/-- SCRUB_RANGE (R295, R296): the checks, and the pass starts. -/
def execScrubRange (ctx : Nat) (s : State) : Host.Outcome State Fault Refusal :=
  .next (s.admitAdmin ctx (fun e => e.opc == 0xd2) fun s x =>
    let e := x.e
    let dram := e.cdw10.getLsbD 0
    let a := e.cdw1213
    let n := e.cdw1415
    let w := if dram then 64 else 8
    if !vendorOk e 0xffffffff 0 0xffffffff 0xffffffff 0xffffffff 0xffffffff then s.finish ctx stInvField 0 0 3
    else
    match e.dptrFault 64 false with
    | some st => s.finish ctx st
    | none =>
    if 2 ≤ e.cdw10.toNat then s.finish ctx stInvField
    else if a % w ≠ 0 ∨ n % w ≠ 0 ∨ n = 0 then s.finish ctx stInvField
    else if (if dram then s.dramUsable else sramSize) < a + n then s.finish ctx stInvField
    else if s.ecc.scrubBusy then s.finish ctx stSequence
    else { s.stampCtx ctx with ecc := { s.ecc with
          scrubBusy := true, scrubMem := dram, scrubDone := 0, scrubCtx := ctx, scrubStart := a, scrubLen := n, scrubSum := {} } })

/-- The scrubber's read of the last word or burst of its range, through port 23 (R296): corrected, or handled as a read by its
region's owner. -/
def State.scrubLast (s : State) (raw check other ctx unit : Nat) (rebuilt repairOk queued : Bool) : State :=
  let upto := s.ecc.scrubStart + s.ecc.scrubLen
  if s.ecc.scrubMem then
    let a := upto - 64
    match burstDecode a { data := raw, check := check } with
    | .clean => s
    | .corrected v => (s.writeBack true a v queued).dramCorrected a 23
    | .addressFault => s.dramUe a 23 .addressFault ctx unit rebuilt repairOk
    | .uncorrectable => s.dramUe a 23 .data ctx unit rebuilt repairOk
  else
    let a := upto - 8
    match secdedDecode raw with
    | .corrected v => (s.writeBack false a v queued).sramCorrected a 23
    | .uncorrectable => s.sramUe 23 (a / 8) ctx other repairOk
    | _ => s

/-- The pass has covered its range: the summary of what it found, and the command's completion (R297). -/
def State.scrubReport (s : State) (ms : Nat) : State :=
  let none64 := 2 ^ 64 - 1
  let c := s.ecc.scrubCtx
  let m := s.ecc.scrubSum
  let s1 := s.say (.hostData c 0 64
    [ (0, 8, s.ecc.scrubStart), (8, 8, s.ecc.scrubLen), (16, 1, if s.ecc.scrubMem then 1 else 0)
    , (17, 1, if m.lost then 1 else 3), (18, 2, m.regions), (20, 4, m.corrected), (24, 4, m.uncorr)
    , (28, 4, if s.ecc.scrubMem then m.addrflt else 0), (32, 8, m.firstUe.getD none64)
    , (40, 8, m.lastUe.getD none64), (48, 8, m.firstCe.getD none64), (56, 4, ms)])
  ({ s1 with ecc := { s1.ecc with scrubBusy := false, scrubDone := 100 } }).finish c stOk

/-- SCRUB_COMPLETE (R296, R297): the last word of the range is read, and the pass reports. -/
def execScrubComplete (raw check other ctx unit : Nat) (rebuilt repairOk queued : Bool) (ms : Nat) (s : State) :
    Host.Outcome State Fault Refusal :=
  if !s.ecc.scrubBusy then .next s
  else .next ((s.scrubLast raw check other ctx unit rebuilt repairOk queued).scrubReport ms)

/-! ### Entropy -/

/-- ENTROPY_HEALTH_FAILURE (R302): no key is drawn from here on. -/
def execEntropyHealthFailure (s : State) : Host.Outcome State Fault Refusal :=
  .next { s with key := { s.key with entropyBad := true } }

end Sys2Proof.Machine
end

