-- ==== Sys2Proof/Machine/Reset.lean ====
section
/-! DEFINITION. Chip resets (R371, R380, R490, R493): what a reset of the whole chip keeps — NOR, the system zone and the
flash with all they hold, the Bonnet array, the meter island, the outside world — and what it brings back to the Reset column. -/

namespace Sys2Proof.Machine

open Sys2Proof

/-- Causes of a chip reset, as PWR_RESET_CAUSE shows them. -/
inductive RstCause where
  | por | aobor | saved | fatal
  deriving DecidableEq, Repr

/-- A slice's definition, as the settings ledger keeps it (R449): its queues, mailbox and ring are at reset, and it is
frozen as by a host reset (R54, R82). -/
def Slice.overStop (x : Slice) : Slice :=
  if x.st = .none then x
  else if x.st = .destroying then { ({} : Slice) with inst := x.inst }
  else
    { x with
      st := .frozen, reason := if x.st = .frozen then x.reason else 2, quiesceWait := [], destroyCtx := none
      up := {}, down := {}, mbien := false, mbvec := 0, nr := {}, lostCpl := [], raStarted := 0, raDenied := 0 }

/-- A zone over a stop: nothing is in flight; every opened zone is Closed (R150). The copies of a merge, a migration or a
replacement are started again at the boot. -/
def Zone.overStop (z : Zone) : Zone :=
  { z with
    zs := if z.zs.isOpen then .closed else z.zs
    busy := none, ages := [], slcNew := none, slcWant := false, unread := []
    ghosts := ((match z.slcNew with | some e => e.keys | none => []) ++ z.ghosts).eraseDups }

/-- A unit that only a merge's staging held is gone without a save: its content is lost (R383). -/
def Zone.loseMerged (z : Zone) (st : Staged) (stamp : Nat) : Zone :=
  { z with vers := (List.range st.n).foldl (fun t j =>
      if st.released.contains j then t else t.edit (st.off + j) fun l => l.map fun v =>
        if v.stamp = stamp ∧ !v.dealloc then { v with lost := true } else v) z.vers }

/-- A stop without a save: writes that are not fully staged are absent, with all that was charged for them (R89, R123, R129);
what the others left in flash the boot finds (R223). -/
def State.loseWrites (s : State) : State :=
  forNats (s.staging.map (·.1)) s fun s k =>
    match s.staging.look k with
    | none => s
    | some t =>
      if !t.placed then s.cancelWrite k
      else if !t.complete then s.withdraw k
      else if t.merged && !t.dropped then s.zoneEdit t.zone fun z => z.loseMerged t k
      else s

/-- A die over a stop. -/
def Die.overStop (d : Die) : Die := { ({} : Die) with failed := d.failed, slc := d.slc }

/-- What SMART, the sanitize state and the error count keep over every power loss (R73, R74, R76). -/
def Nvme.overStop (n : Nvme) : Nvme :=
  { ({} : Nvme) with
    sani := n.sani, saniKind := n.saniKind, saniDw := n.saniDw, saniFails := n.saniFails, saniStamp := n.saniStamp, saniBlock := n.saniBlock, errLog := n.errLog, errCount := n.errCount
    unitsRead := n.unitsRead, unitsWritten := n.unitsWritten, mediaErrors := n.mediaErrors }

/-- The saved Tussock log as the boot restores it, with RESTORED set (R428, R463). -/
def Log.restored (l : Log) : Log :=
  { ({} : Log) with slots := l.slots.mapV fun _ r => { r with restored := true }, next := l.next, dropped := l.dropped, seq := l.seq }

/-- The update state over a reset of the chip: a piece, a copy, a session or a commit under way is lost (R438, R439). -/
def Nv.overStop (n : Nv) : Nv :=
  { n with
    stgDiscard := false, pldmMax := 0, pldmState := 0, pldmSelf := false, copying := false, norQueue := [], norErase := false
    norCtx := none, commitAct := 0, commitCtx := none
    slotRevA := if n.copying && n.commitTarget == 0 then 0 else n.slotRevA
    slotRevB := if n.copying && n.commitTarget == 1 then 0 else n.slotRevB }

/-- Reset of the whole chip as at power-on. -/
def State.chipReset (s : State) (c : RstCause) : State :=
  let saved := s.brm.st == 4
  let s := if saved then s else s.loseWrites
  let kept := { State.reset with
    pending := s.pending, now := s.now, free := s.free, out := s.out, nv := { s.nv.overStop with savedLog := if saved then s.nv.savedLog else none }, mtr := s.mtr
    nss := s.nss, zones := s.zones.mapV fun _ z => z.overStop
    slices := s.slices.mapV fun _ x => x.overStop
    toks := s.toks, blocks := s.blocks, flash := s.flash, dies := s.dies.mapV fun _ d => d.overStop }
  { kept with
    key := { kept.key with owners := s.key.owners, epoch := s.key.epoch }
    fch := { kept.fch with eraseList := s.eraseDue, mediaTime := s.nv.savedMedia, opNext := s.fch.opNext }
    zne := { kept.zne with
      seedCur := s.zne.seedCur, seedPrev := s.zne.seedPrev, migrating := s.zne.migrating, cur := s.zne.cur
      logRowsUsed := s.zne.logRowsUsed, ksave := s.zne.ksave, zonesMade := s.zne.zonesMade }
    par := { kept.par with queue := s.par.queue, rowsDone := s.par.rowsDone, rowsTotal := s.par.rowsTotal }
    gate := { kept.gate with next := s.gate.next, ckpt := s.gate.ckpt, shared := s.gate.shared, localD := s.gate.localD
                             recs := if saved then s.gate.recs else [] }
    nvme := s.nvme.overStop
    efl := { kept.efl with
      words := s.efl.words, erased := s.efl.erased, gen := s.efl.gen, mtrGen := s.efl.mtrGen, pwSet := s.efl.pwSet, prot := s.efl.prot
      ctlSeq := s.efl.ctlSeq, nocert := s.efl.nocert
      lockout := s.efl.lockout && (c == .saved || c == .fatal), attempts := if c == .saved || c == .fatal then s.efl.attempts else 0 }
    log := { kept.log with seq := s.log.seq }
    evt := { kept.evt with shieldBroken := s.evt.shieldBroken, glitchStanding := s.evt.glitchStanding }
    pci := { kept.pci with perstN := s.pci.perstN }
    pwr := { kept.pwr with rcPor := c == .por, rcAobor := c == .aobor, rcSaved := c == .saved, rcFatal := c == .fatal } }

/-- The chip is out of its power-on reset. -/
def State.powered (s : State) : Bool := s.upd.stage != 0

/-- AO_BROWN_OUT_RESET (R371): in Stop, a load above 12 mA. -/
def execAoBrownOutReset (s : State) : Host.Outcome State Fault Refusal :=
  if s.pwr.st = 2 then .next (s.chipReset .aobor) else .next s

/-- INPUT_GOOD_RESTART (R380): after a sag's save, or a memory-fatal one, the input has been good for 100 ms. -/
def execInputGoodRestart (s : State) : Host.Outcome State Fault Refusal :=
  if s.brm.st = 4 ∧ (s.brm.saveKind = 1 ∨ s.brm.saveKind = 2) then .next (s.chipReset .saved)
  else if s.brm.st = 4 ∧ s.brm.saveKind = 4 then .next (s.chipReset .fatal)
  else .next s

/-- SUPPLY_RESET (R490). -/
def execSupplyReset (s : State) : Host.Outcome State Fault Refusal := .next (s.chipReset .por)

/-- SYS_RST_N (R493). -/
def execSysRstN (s : State) : Host.Outcome State Fault Refusal := .next (s.chipReset .por)

/-- GLITCH_DETECTORS_ARM (R488): 10 ms after release; not once a clean marker is written (R490). -/
def execGlitchDetectorsArm (s : State) : Host.Outcome State Fault Refusal :=
  if s.powered ∧ ¬(s.brm.st = 4 ∧ s.nv.clean) then .next { s with evt := { s.evt with glitchArmed := true } } else .next s

end Sys2Proof.Machine
end

