-- ==== Sys2Proof/Machine/Boot.lean ====
section
/-! DEFINITION. Boot (R407-R429, R448): the choice of a slot, the checks of the configuration section, the loading of its
fields, training, first configuration, and recovery after a clean or an unclean stop. -/

namespace Sys2Proof.Machine

open Sys2Proof

/-! ### The configuration section (R417-R419) -/

def between (a n b : Nat) : Bool := decide (a ≤ n) && decide (n ≤ b)

/-- Bytes of LDPC parity of a codeword (R178). -/
def parityBytes (m : Media) : Nat := m.spare / (m.page / 4) - 16

/-- The geometry and bounds of R171, R172 and R420. -/
def mediaOk (m : Media) (qlc : Bool) : Bool :=
  (m.page == 16 || m.page == 32) && (m.planes == 2 || m.planes == 4 || m.planes == 6) && between 1024 m.blocks 8192
  && between 256 (parityBytes m) 768 && parityBytes m % 16 == 0
  && between 192 m.rows 4096 && m.rows % (if qlc then 4 else 3) == 0
  && between 1 m.suspMax 16 && decide (m.pair ≤ 16) && between 2 m.repl 16 && between 2 m.retireMax 20
  && between 100 m.rated 16000 && between m.rated m.ecmax 16383 && between 10 m.tread 2000
  && between 1 m.tprogSlc 65535 && between 1 m.tbersSlc 65535
  && decide (m.page * 1024 * m.planes * m.rows * m.blocks ≤ 500000000000)

/-- PAIR records: one per named member on a crown, exactly one on a member. -/
def imagePairsOk (i : Image) : Bool :=
  if i.crown then (i.pairs.map (·.1)) == ((List.range 3).filter fun p => i.named.getLsbD (p + 1))
  else (i.pairs.map (·.1)) == [0xff]

def budgetOk (n : Nat) : Bool := n == 0 || between 10 n 4000

/-- NQN that the Ennik tool writes: its prefix and the SN without its trailing spaces (R505). -/
def toolNqn (sn : List Nat) : List Nat :=
  ("nqn.2025-01.com.yeldezon:gz960:".toList.map Char.toNat) ++ ((sn.reverse.dropWhile (· == 32)).reverse)

/-- The values that the Ennik tool writes where the integrator gives none; every other field has no default (R505). -/
def toolDefaults (i : Image) : Image :=
  { i with
    ssvid := i.vid, subnqn := toolNqn i.sn, joinwait := 10, auto := true, pfQueues := 64, pfWeight := 16, stopIdle := 100, pfRaAllow := 50
    nbrProb := 8, nbrDist := false, rtOn := 4, rtOff := 8, drcCeThr := 1024, eccCeThr := 1024
    budget0 := 100, flags0 := 7, budget1 := 400, flags1 := 3, raDepth := 32, rdBurst := 4, duty := 100
    limitLog2 := 40, testPeriod := 24, iset := 16, down := 10, retrain := 600, logRows := 256, stageAge := 10, migZones := 4, locks := 0x7f }

/-- Every value of the section lies in its range, and the cross-checks of R418 hold. -/
def imageOk (i : Image) : Bool :=
  (i.crown == i.named.getLsbD 0) && between 1 i.joinwait 30 && imagePairsOk i
  && between 1 i.pfQueues 256 && between 1 i.pfWeight 255 && between 1 i.stopIdle 10000 && decide (i.pfRaAllow ≤ 200)
  && between 1 i.dramGib 4 && between 1 i.dramRanks 2 && between 1 i.dqsLimit 255
  && decide (i.nbrProb ≤ 4095) && between 1 i.rtOn 14 && between (i.rtOn + 1) i.rtOff 15
  && budgetOk i.budget0 && budgetOk i.budget1 && between 1 i.raDepth 255 && between 1 i.rdBurst 15 && between 30 i.duty 100
  && between 20 i.limitLog2 44 && i.alarm.length == 4 && (i.alarm.all fun a => decide (a ≤ 2))
  && between 280 i.vchg 380 && between 60 i.vstop 160 && between 10 i.isave 200 && between 1 i.testPeriod 168
  && between 700 i.eta 980 && between 10 i.rtest 1000 && between 200 i.cmin 600 && between 1 i.esrmax 65535 && decide (i.iset ≤ 63)
  && between 1 i.sagv 0xffe && between 1000 i.div11 65535 && between 1000 i.div12 65535 && between 100 i.ichgFs 20000
  && between 2500 i.ntcB 5000 && between 5000 i.ntcR25 20000 && decide (i.vchg * 100 + 2000 < 1250 * i.div12 / 1000)
  && between 5 i.down 60 && between 60 i.retrain 3600 && between 64 i.logRows 512 && between 1 i.stageAge 100
  && decide (i.migZones ≤ 16) && !i.locks.getLsbD 7 && mediaOk i.media i.qlc && between 1 i.spareE 4
  && (match i.slice1023 with | some (p, d) => between 1 p 0xfffff && createOk d | none => true)

/-- The OEM configuration key's hash is programmed: sector 0, bytes 0-47 (R416). -/
def State.oemKeyed (s : State) : Bool := (List.range 6).any fun w => s.efl.wordAt s.key.epoch w != wordErased

/-! ### Slot choice (R410, R411) -/

/-- The order of the first check of R411 that a slot fails, or 0. -/
def State.slotCheck (s : State) (f : SlotFind) : Nat :=
  if !f.headerOk then 1
  else if !f.manifestOk || f.manifest.stepping != 0xb0 then 2
  else if (List.range 8).any fun c => decide (f.manifest.svn.getD c 0 < s.efl.svnOf c) then 3
  else if !(if f.image.crown then f.manifest.crownParts else f.manifest.memberParts) then 4
  else if !f.image.formOk || !imageOk f.image || (s.oemKeyed && !f.image.signed) then 5
  else if s.nv.anchor && f.image.digest != s.nv.digest then 6
  else if !f.hashesOk then 7
  else 0

/-- NEXT, then CURRENT, then the other slot. -/
def Nv.slotOrder (n : Nv) : List Nat :=
  (if n.next ≤ 1 then insKeep [n.next] n.current else [n.current]) ++ [1 - n.current] |>.eraseDups
where
  insKeep (l : List Nat) (k : Nat) : List Nat := l ++ [k]

def slotOf (b : BootIn) (k : Nat) : SlotFind := if k = 0 then b.slotA else b.slotB

/-- A Failed Update Record entry of a chip (R450). -/
def State.failRecOf (s : State) (chip stage code slot fromRev toRev : Nat) : State :=
  let r : FailRec := { time := s.fch.mediaTime, chip := chip, stage := stage, code := code, slot := slot
                       fromRev := fromRev, toRev := toRev, ledger := s.nv.ledgerFormat }
  ({ s with nv := { s.nv with failRecs := (r :: s.nv.failRecs).take 15, failCount := s.nv.failCount + 1 } }).fire 210

/-- An entry of this chip. -/
def State.failRecAt (s : State) (stage code slot fromRev toRev : Nat) : State := s.failRecOf s.cas.chip stage code slot fromRev toRev

/-- An entry with the revisions of the activation record. -/
def State.failRec (s : State) (stage code slot : Nat) : State := s.failRecAt stage code slot s.nv.actFromRev s.nv.actToRev

/-- Try the slots in order; each failure is noted in UPD_SLOT. -/
def State.slotTry (s : State) (b : BootIn) : List Nat → State × Option Nat
  | [] => (s, none)
  | k :: t =>
    let n := s.slotCheck (slotOf b k)
    if n = 0 then (s, some k)
    else
      let s1 := { s with upd := { s.upd with
        fallback := true, failA := if k = 0 then n else s.upd.failA, failB := if k = 1 then n else s.upd.failB } }
      let s2 := if k = s.nv.next then
          ({ s1 with nv := { s1.nv with next := 255, actState := if s1.nv.actState = 1 then 4 else s1.nv.actState } }).failRec 3 n k
        else s1
      s2.slotTry b t

/-! ### Loading the cfg fields (R418, R421) -/

def tout (m : Media) : Chn := { timing := m.timing, tout := m.tout }

/-- The fields whose Reset is cfg. -/
def State.loadCfg (s : State) (i : Image) (m : Manifest) : State :=
  let chans := (List.range 32).map fun c => (c, { tout i.media with retrain := i.retrain })
  { s with
    img := some i, manifest := some m
    nvme := { s.nvme with stopIdle := i.stopIdle }
    fch := { s.fch with chans := chans }
    lat := { s.lat with
      susp0 := i.flags0.getLsbD 0, ra0 := i.flags0.getLsbD 1, esc0 := i.flags0.getLsbD 2, budget0 := i.budget0
      susp1 := i.flags1.getLsbD 0, ra1 := i.flags1.getLsbD 1, esc1 := i.flags1.getLsbD 2, budget1 := i.budget1
      raDepth := i.raDepth, rdBurst := i.rdBurst, dutyMax := i.duty }
    drc := { s.drc with nbrProb := i.nbrProb, nbrDist := i.nbrDist, rtOn := i.rtOn, rtOff := i.rtOff, ceThr := i.drcCeThr.toNat }
    ecc := { s.ecc with ceThr := i.eccCeThr.toNat }
    key := { s.key with limitLog2 := i.limitLog2 }
    evt := { s.evt with rsp := i.alarm }
    brm := { s.brm with
      vchg := i.vchg, vstop := i.vstop, isave := i.isave, period := i.testPeriod, eta := i.eta, rtest := i.rtest, cmin := i.cmin
      esrmax := i.esrmax, iset := i.iset }
    mon := { s.mon with sagv := i.sagv, div11 := i.div11, div12 := i.div12, ichgFs := i.ichgFs, ntcB := i.ntcB
                        ntcR25 := i.ntcR25, thermMap := i.thermMap }
    thm := { s.thm with down := i.down }
    par := { s.par with migZones := i.migZones }
    cas := { s.cas with
      crown := i.crown, auto := i.auto, named := i.named, joinwait := i.joinwait
      members := ((List.range 4).filter fun k => k != 0 && i.crown && i.named.getLsbD k).map fun k => (k, {}) }
    upd := { s.upd with cfgRev := i.revision, digest := i.digest, devcfg := !s.oemKeyed } }

/-- The lock bits named in LOCKS, set at the end of step 7 (R421). -/
def State.setLocks (s : State) (l : BitVec 8) : State :=
  { s with
    fch := { s.fch with lock := s.fch.lock || l.getLsbD 0 }, lat := { s.lat with lock := s.lat.lock || l.getLsbD 1 }
    drc := { s.drc with lock := s.drc.lock || l.getLsbD 2 }, ecc := { s.ecc with lock := s.ecc.lock || l.getLsbD 3 }
    key := { s.key with lock := s.key.lock || l.getLsbD 4 }, brm := { s.brm with lock := s.brm.lock || l.getLsbD 5 }
    thm := { s.thm with lock := s.thm.lock || l.getLsbD 6 } }

/-! ### DRAM and flash (R28, R172, R274, R275) -/

/-- A channel trains at a rate: its eyes reach the DRAM profile's minima (R275 step 4). -/
def dramTrains (i : Image) (d : DramIn) (r : Nat) : Bool := match d.eyes.getD (r - 1) none with
  | some (rd, wr) => decide (i.dramEyeRd ≤ rd) && decide (i.dramEyeWr ≤ wr)
  | none => false

/-- The highest rate code up to `lim` at which a channel trains, 0 for none; a channel that does not match the profile trains at
none (R275 steps 1 and 6). -/
def dramBest (i : Image) (lim : Nat) (d : DramIn) : Nat :=
  if d.gib = i.dramGib ∧ d.ranks = i.dramRanks ∧ (d.linkEcc || !i.dramLinkEcc) = true then
    (List.range (lim + 1)).foldl (fun m r => if r ≠ 0 ∧ dramTrains i d r then r else m) 0
  else 0

/-- The one rate of all channels (R274, R275): the lowest at which they settle, where each trains again; with the channels that are
missing. -/
def dramRate (i : Image) (l : List DramIn) : Nat → Nat → Nat × Nat
  | 0, _ => (0, 0)
  | fuel + 1, lim =>
    let b := l.map (dramBest i lim)
    let miss := (List.range 16).foldl (fun n c => if b.getD c 0 = 0 then n + 2 ^ c else n) 0
    let low := minNat b 0
    if miss ≠ 0 then (0, miss) else if low = lim then (lim, 0) else dramRate i l fuel low

/-- Step 5: DRC_TRAIN and the fitted capacity; false when boot stops with code 4. -/
def State.dramBoot (s : State) (i : Image) (b : BootIn) : State × Bool :=
  let l := b.dram.take 16
  let r := dramRate i l 6 5
  let total : Nat := (l.map fun c => c.gib).sum
  let ok := r.1 != 0 && decide (16 ≤ total)
  let gib := min 64 total
  ({ s with
     drc := { s.drc with trainDone := true, rate := if ok then r.1 else 0, missing := BitVec.ofNat 16 r.2
                         linkEcc := ok && l.all fun c => c.linkEcc
                         gib := if ok then gib else 0 }
     bpm := { s.bpm with dramTotal := if ok then (gib * 7 * 2 ^ 27 - 0xa0000000) / 16384 else 0 } }, ok)

/-- The die numbers that chip enables and LUNs populate, alike on every channel (R6, R172). -/
def populated (b : BootIn) : List Nat :=
  (List.range 32).flatMap fun c => (List.range b.ces).flatMap fun e => (List.range b.luns).map fun l => c * 32 + e * 4 + l

/-- Step 6: the channels' registers, and every populated die in the table. -/
def State.flashBoot (s : State) (b : BootIn) : State :=
  let chans := s.fch.chans.mapV fun c k => match k.train (s.media (·.eyeMin)) (b.chTrain.getD c []) 0 with
    | some (set, rd, wr) => { k with active := true, failed := false, trainDone := true, trainSet := set, eyeRd := rd, eyeWr := wr }
    | none => { k with active := false, failed := true, trainDone := true, trainFail := true }
  let s1 := { s with fch := { s.fch with chans := chans } }
  forNats (populated b) s1 fun s d => if s.dies.has d then s else { s with dies := s.dies.put d {} }

/-- A die group holds more than two dies that are not used. -/
def State.mediaFault (b : BootIn) : Bool :=
  !(between 1 b.ces 8 && between 1 b.luns 4) ||
  (List.range 64).any fun g => decide (2 < (b.badDies.filter fun d => dieGroup d == g).length)

/-! ### First configuration (R426) -/

/-- Anchor blocks: 1-4 of dies 0, 256, 512 and 768. -/
def State.anchors (s : State) : State :=
  forNats [0, 256, 512, 768] s fun s d => if s.dies.has d then
      forNats [1, 2, 3, 4] s fun s b => s.blkEdit (blkKey d b) fun x => { x with st := 7, erases := x.erases + 1 }
    else s

def State.firstConfig (s : State) (i : Image) (b : BootIn) : State :=
  let s1 : State := b.factoryBad.foldl (fun (s : State) p => s.blkEdit (blkKey p.1 p.2) fun x => { x with st := 15 }) s
  let s2 := s1.anchors
  let z := s2.slcSizes true
  let s3 : State := forNats (s2.goodDies 0) s2 fun s dk =>
    let a := forNats (List.range i.media.repl) s fun s _ => s.takeFor dk 8 false
    let c := forNats (List.range z.ksave) a fun s _ => s.takeFor dk 9 true
    forNats (List.range z.nt) c fun s _ => s.takeFor dk 4 true
  let wr := match s3.manifest with | some m => m.ledgerWrite | none => 0
  let s4 : State := { s3 with
    nv := { s3.nv with anchor := true, digest := i.digest, ledgerFormat := wr, ledgerGen := 0, savedMedia := 0 }
    zne := { s3.zne with seedCur := i.seed, seedShadow := i.seed, cur := z.nt, ksave := z.ksave, logRowsUsed := [], zonesMade := 0 }
    key := { s3.key with epoch := s3.key.epoch + 1 }
    gate := { s3.gate with next := 0x10000, ckpt := 0, shared := 0, localD := 0 }
    fch := { s3.fch with mediaTime := 0, bootEst := 0, mediaMark := s3.now }
    upd := { s3.upd with firstcfg := true } }
  s4.keyCreate 1024

/-! ### Recovery (R382, R383, R427, R428) -/

def insSort (n : Nat) : List Nat → List Nat
  | [] => [n]
  | a :: t => if n ≤ a then n :: a :: t else a :: insSort n t

/-- Median of the sentinels' ages; of an even count, the lower of the two in the middle. -/
def medianNat (l : List Nat) : Nat := (l.foldr insSort []).getD ((l.length - 1) / 2) 0

/-- The estimate of the time off is added to media time (R182). -/
def State.mediaEst (s : State) (b : BootIn) : State :=
  let e := min (2 ^ 31) (medianNat b.sentinels - b.sentinelBase)
  { s with fch := { s.fch with mediaTime := (s.fch.mediaTime + e) % 2 ^ 32, bootEst := e, mediaMark := s.now } }

/-- The pending erases are finished (R199); a sanitize under way at the stop then reports. -/
def State.eraseRest (s : State) : State :=
  let s1 := forNats s.fch.eraseList { s with fch := { s.fch with eraseList := [] } } fun s k => s.erased (k / 8192) (k % 8192)
  if s1.nvme.sani = 1 then s1.sanErased else s1

/-- The stamp counter after a boot; a checkpoint that it has passed, or stands at, is started (R35). -/
def State.stampBoot (s : State) (n : Nat) : State :=
  let c := n / 2 ^ 24 * 2 ^ 24
  if s.gate.ckpt < c then
    { s with gate := { s.gate with next := n, ckptPend := some c }, dma := { s.dma with fences := s.dma.fences ++ [(4, c)] } }
  else { s with gate := { s.gate with next := n } }

/-- Copies that the stop cut short are finished. DESIGN CHOICE: the spec says nothing of them; a migration still waits for its
event. -/
def State.bootCopies (s : State) : State :=
  s.zones.foldl (fun (s : State) (p : Nat × Zone) =>
    let s1 := if p.2.merging = 0 then s else (s.zoneEdit p.1 fun z => { z with merging := 1 }).copyDone p.1
    p.2.copying.foldl (fun (s : State) c => c.rows.foldl (fun (s : State) r =>
      match ((s.zone p.1).rowPlace c.tag).bind (·.pos[c.pos]?) with
      | some (dk, some b) => s.replDone p.1 (c.tag + r) c.pos { pos := c.pos, die := dk, block := b, page := r }
      | _ => s) s) s1) s

/-- A page of an entry moves from the save reserve to the SLC buffer of the die of its position (R167, R382). -/
def State.saveBackPage (p : Place) (r : List Pg × State) (g : Pg) : List Pg × State :=
  if (r.2.blk (blkKey g.die g.block)).st ≠ 9 then (r.1 ++ [g], r.2)
  else
    let dk := match p.pos[g.pos]? with | some x => x.1 | none => g.die
    match r.2.slcBlock dk with
    | none => (r.1 ++ [g], r.2)
    | some b =>
      let n := (r.2.blk (blkKey dk b)).taken
      let words := (List.range r.2.geom.u).filterMap fun j => (r.2.cwAt g j).map fun w => (j, w)
      (r.1 ++ [{ g with die := dk, block := b, page := n }]
       , (r.2.blkEdit (blkKey dk b) fun i => { i with taken := n + 1, rows := i.rows + 1, st := 4 }).flashPut dk b n words)

/-- Save-reserve entries move to the SLC buffer, the reserve is erased, and the accumulators are loaded again (R207, R382). -/
def State.saveBack (s : State) : State :=
  let s1 := s.zones.foldl (fun (s : State) (x : Nat × Zone) =>
    match x.2.slc, x.2.slc.bind fun e => x.2.rowPlace (tagOf e.row) with
    | some e, some p =>
      let r := e.pages.foldl (State.saveBackPage p) ([], s)
      let e' := { e with pages := r.1 }
      (r.2.zoneEdit x.1 fun z => { z with slc := some e' }).accReload x.1 e'
    | _, _ => s) s
  let used := s1.blocks.keysWhere fun _ b => b.st == 9 && b.taken != 0
  forNats (used.filter fun k => !s1.zones.any fun _ z => z.slcOn (k / 8192) (k % 8192)) s1 fun s k => s.erased (k / 8192) (k % 8192)

/-- A zone joins the Changed Zone List of its namespace (R70, R383). -/
def State.zoneChanged (s : State) (zk : Nat) : State :=
  { s with nss := s.nss.edit (zNsid zk) fun n => { n with changedZones := insNat (zIndex zk) n.changedZones } }

/-- A zone has lost content at boot: it enters Read Only at a stamped media event (R145), which a member reports to the crown (R329), with its record of the log (R219, R225,
R383, R459). -/
def State.zoneLost (s : State) (zk wp ack units : Nat) : State :=
  let s1 := if s.cas.crown then (s.mediaEvent (.zoneLost zk)).zoneChanged zk else s.casSend 0 3 0x40 16 [5, zk]
  ({ s1 with
    par := { s1.par with lostUnits := satAdd 0xffffffff s1.par.lostUnits units }
    brm := { s1.brm with
      lossZones := satAdd 0xffff s1.brm.lossZones 1
      lossUnits := satAdd 0xffff s1.brm.lossUnits (if (s.zone zk).conv then units else 0) } }).fire 163 [zNsid zk, zIndex zk, wp, ack]

/-! ### Resynchronisation (R223-R225) -/

/-- A page is programmed. -/
def State.pageThere (s : State) (g : Pg) : Bool := (s.cwAt g 0).isSome

/-- The open sheaf of a zone: its tag, its rows' placement, and the units committed to it (R223). -/
def State.openSheaf (s : State) (zk : Nat) : Option (Nat × Place × Nat) :=
  let z := s.zone zk
  if z.conv then z.logRow.map fun p => (logTag, p, z.logUsed)
  else
    match z.place with
    | some p => if z.zs.isActive || (z.zs == .full && decide (z.rowsDone.length < ceilDiv z.wp (p.d * s.geom.u))) then some (0, p, z.wp) else none
    | none => none

/-- A block of a position takes the place of another, with its pages but those that `drop` names; pages that cannot be read are
recovered. The old block is marked for erase (R190 steps 2-4, R224). -/
def State.swapBlock (s : State) (zk tag pos : Nat) (bad : List (Nat × Nat)) (drop : Nat → Bool) : State :=
  match (s.zone zk).rowPlace tag, ((s.zone zk).rowPlace tag).bind (·.pos[pos]?) with
  | some p, some (dk, some b) =>
    match s.replBlock dk with
    | none => s
    | some (nb, res) =>
      let old := s.blk (blkKey dk b)
      let rows := (List.range s.geom.rows).filter fun r => !drop r && s.pageThere { pos := pos, die := dk, block := b, page := r }
      let s1 := if res then s.blkEdit (blkKey dk nb) fun x => { x with st := old.st, rows := 0, taken := 0 } else s.allocBlock dk nb old.st
      let s2 := rows.foldl (fun (t : State) r =>
        let g : Pg := { pos := pos, die := dk, block := b, page := r }
        let lost := (bad.filter fun x => x.1 == tag + r).map (·.2)
        let words := (List.range s.geom.u).filterMap fun j =>
          (if lost.contains pos then s.remake zk (tag + r) p (s.rowPgs zk (tag + r) p) lost pos j else s.cwAt g j).map fun w => (j, w)
        t.flashPut dk nb r words) s1
      let p' := { p with pos := p.pos.set pos (dk, some nb) }
      ((s2.blkEdit (blkKey dk nb) fun x => { x with rows := rows.length, unerased := false, ptOpen := old.ptOpen, tpOpen := old.tpOpen }).zoneEdit zk fun z =>
        { z with place := if tag = 0 then some p' else z.place, logRow := if tag = 0 then z.logRow else some p'
                 ghosts := (blkKey dk b :: z.ghosts).eraseDups }).freeBlock dk b
  | _, _ => s

/-- One row of the window is settled (R224): the state, the pages that are still bad, and whether it was repaired or lost. -/
def State.resyncRow (s : State) (zk tag r : Nat) (bad : List (Nat × Nat)) : State × List (Nat × Nat) × Bool × Bool :=
  match (s.zone zk).rowPlace tag with
  | none => (s, bad, false, false)
  | some p =>
    let row := tag + r
    let pages := s.rowPgs zk row p
    let out := (pages.filter fun g => !s.pageThere g || bad.contains (row, g.pos)).map (·.pos)
    let data := out.filter fun i => decide (2 ≤ i)
    if !pages.any s.pageThere || out = [] then (s, bad, false, false)
    else if data = [] then
      -- all data released: parity that was never programmed is, unreadable parity gets a new block
      let blank := pages.filter fun g => out.contains g.pos && !s.pageThere g
      let s2 := s.fillPages zk row p blank (p.d * s.geom.u)
      let s3 := (out.filter fun i => bad.contains (row, i)).foldl (fun (s : State) i => s.swapBlock zk tag i bad fun _ => false) s2
      (s3, bad.filter fun x => !(x.1 == row && out.contains x.2), true, false)
    else if out.length ≤ 2 then
      let s2 := out.foldl (fun (s : State) i => s.swapBlock zk tag i (bad ++ out.map fun j => (row, j)) fun _ => false) s
      (s2, bad.filter fun x => !(x.1 == row && out.contains x.2), true, false)
    else (s, bad, false, true)

/-- A unit of an open sheaf can be read after the resynchronisation. -/
def State.unitHeld (s : State) (zk tag i : Nat) (bad : List (Nat × Nat)) : Bool :=
  let z := s.zone zk
  match z.rowPlace tag with
  | none => false
  | some p =>
    let l := locOf i p.d s.geom.u
    (match z.slc with | some e => e.live && e.row == tag + l.row && decide (i % (p.d * s.geom.u) < e.units) | none => false) ||
    (match p.dataPos[l.k]? with
     | some x => !bad.contains (tag + l.row, x.1) && s.pageThere { pos := x.1, die := x.2.1, block := x.2.2, page := l.row }
     | none => false)

/-- Accumulators of a partial row, from its first `n` units (R223 step 5). -/
def State.accBuild (s : State) (zk row n : Nat) : State :=
  match (s.zone zk).rowPlace (tagOf row) with
  | none => s
  | some p =>
    let tag := tagOf row
    (List.range n).foldl (fun (t : State) i =>
      t.foldUnit zk row (i % s.geom.u) (p.dataIx (i / s.geom.u)) (s.rowWord zk tag ((row - tag) * (p.d * s.geom.u) + i)).bits) (s.accDrop zk row)

/-- Rows above the last unit that is kept: programmed pages that hold none of it make way (DESIGN CHOICE: the spec only says that
the units are discarded, and a page can be programmed again only in an erased block). -/
def State.sheafCut (s : State) (zk tag upto : Nat) (bad : List (Nat × Nat)) : State :=
  match (s.zone zk).rowPlace tag with
  | none => s
  | some p =>
    let per := p.d * s.geom.u
    let gone := fun (pos r : Nat) => if pos < 2 then decide (upto < (r + 1) * per) else decide (upto ≤ r * per + p.kOf pos * s.geom.u)
    let s1 := (p.pages 0).foldl (fun (s : State) g =>
      if (List.range s.geom.rows).any fun r => gone g.pos r && s.pageThere { g with page := r } then s.swapBlock zk tag g.pos bad (gone g.pos) else s) s
    let row := tag + upto / per
    let held := ((p.pages (upto / per)).filter fun g => decide (2 ≤ g.pos) && decide (p.kOf g.pos * s.geom.u + s.geom.u ≤ upto % per) &&
      (match (s1.zone zk).rowPlace tag with
       | some q => (q.pages (upto / per)).any fun h => h.pos == g.pos && s1.pageThere h | none => false)).map (·.pos)
    let s2 := s1.zoneEdit zk fun z =>
      let other := fun (r : Nat) => tagOf r != tag
      let full := ((List.range (upto / per)).map (tag + ·))
      { z with
        rowsDone := full.foldl (fun l r => insNat r l) (z.rowsDone.filter other)
        rowPages := (z.rowPages.filter fun (x : Nat × List Nat) => other x.1) ++ (if held = [] then [] else [(row, held)])
        rowsCut := (z.rowsCut.filter other) ++ (if held = [] then [] else [row])
        slc := match z.slc with | some e => if e.row = row then some e else none | none => none
        ghosts := ((match z.slc with | some e => if e.row = row then [] else e.keys | none => []) ++ z.ghosts).eraseDups }.mark
    if upto % per = 0 then s2 else s2.accBuild zk row (upto % per)

/-- One open sheaf is resynchronised (R223-R225). Sequential: the write pointer is set just past the last unit that is held
without a gap, what lies above is discarded, and acknowledged data among it makes the zone Read Only (R383). A log row: units
that are not held are lost. -/
def State.resyncZone (s : State) (zk : Nat) (bad : List (Nat × Nat)) : State :=
  match s.openSheaf zk with
  | none => s
  | some (tag, p, used) =>
    let z := s.zone zk
    let per := max 1 (p.d * s.geom.u)
    let from_ := z.watermark - s.media (·.pair)
    let rows := (List.range (ceilDiv used per)).filter fun r => decide (from_ ≤ r)
    let bad0 := bad.filter fun x => rows.contains (x.1 - tag) && tagOf x.1 == tag
    let r := rows.foldl (fun (a : State × List (Nat × Nat) × Nat × Nat) i =>
      let b := a.1.resyncRow zk tag i a.2.1
      (b.1, b.2.1, a.2.2.1 + (if b.2.2.1 then 1 else 0), a.2.2.2 + (if b.2.2.2 then 1 else 0))) (s, bad0, 0, 0)
    let t := { r.1 with par := { r.1.par with
      repaired := satAdd 0xffff r.1.par.repaired r.2.2.1, lostRows := satAdd 0xffff r.1.par.lostRows r.2.2.2 } }
    let held := fun (i : Nat) => t.unitHeld zk tag i r.2.1
    if z.conv then
      let gone := (List.range used).filter fun i => !held i
      let upto := ((List.range used).filter held).foldl (fun m i => max m (i + 1)) 0
      let t1 := (t.zoneEdit zk fun z => { z with
        logUsed := upto, logUnits := z.logUnits.take upto
        vers := z.vers.mapV fun _ l => l.map fun v => match v.lix with
          | some x => if gone.contains x && v.arrived then { v with lost := true } else v | none => v }).sheafCut zk tag upto r.2.1
      let n := ((t1.zone zk).vers.filter fun q => q.2.head?.any fun v => v.lost && (match v.lix with | some x => gone.contains x | none => false)).length
      if n = 0 then t1 else t1.zoneLost zk 0 0 n
    else
      let wp := ((List.range used).find? fun i => !held i).getD used
      let t1 := ((t.quotaSub (t.zoneOwner zk) (z.wp - wp)).zoneEdit zk fun z => { z with
        wp := wp, cwp := min z.cwp wp, zs := if z.zs == .full && decide (wp < used) && !z.padded then .closed else z.zs
        vers := z.vers.filter fun q => decide (q.1 < wp) }).sheafCut zk tag wp r.2.1
      if wp < z.cwp then t1.zoneLost zk wp z.cwp (z.cwp - wp) else t1

/-- Recovery without the clean marker (R223, R383, R428). -/
def State.recoverUnclean (s : State) (b : BootIn) : State :=
  let active := s.zones.keysWhere fun _ z => !z.conv && z.zs.isActive
  let s1 := ({ s with
    nv := { s.nv with unsafe_ := s.nv.unsafe_ + 1 }
    par := { s.par with resyncRan := true, resyncSecs := min 255 b.resyncSecs } }.stampBoot (s.gate.ckpt + 2 * 2 ^ 24)).settle
  let s2 := (s1.bootCopies).saveBack
  let s3 := forNats (s2.zones.map (·.1)) s2 fun s zk => s.resyncZone zk (((b.resync.find? fun r => r.key == zk).map (·.bad)).getD [])
  if b.intentOk then s3
  else forNats (active.filter fun k => (s3.zone k).zs != .readOnly) s3 fun s k => s.zoneLost k (s.zone k).wp 0 0

/-- Recovery with the clean marker (R382, R427). The saved records are folded before any new one (R48). -/
def State.recoverClean (s : State) : State :=
  let n := s.nv.savedNext
  let s1 := (({ s with upd := { s.upd with clean := true } }.stampBoot (if n % 65536 = 0 then n else (n / 65536 + 1) * 65536)).settle)
  s1.bootCopies.saveBack

/-- Confirm a trial (R448 step 4): the counters rise to the manifest's versions, and the previous ledger copy goes. -/
def State.confirm (s : State) : State :=
  if s.nv.actState ≠ 2 then s
  else
    let svn := (s.manifest.map (·.svn)).getD []
    ({ s with
       efl := (List.range 8).foldl (fun e c => e.svnRaise c (svn.getD c 0)) s.efl
       nv := { s.nv with actState := 3, prevLedger := none } }).fire 211

/-- A meter part at the boot that activates it (R361): taken only with the seal open, and when the program verifies. The new program's identifier and
checksum are not given: free values. -/
def State.meterPart (s : State) (m : Manifest) (sealOpen ok : Bool) : State :=
  if !m.meter || !(s.mtr.run || s.mtr.halt == 2) then s
  else if sealOpen && ok then
    let old := s.mtr.swid.toNat
    let new := s.freeVal % 2 ^ 32
    let sum := BitVec.ofNat 256 (Config.freeNat (s.free + 1))
    let s0 : State := { s with free := s.free + 2 }
    let s1 := ({ (if s.mtr.run then s0.mtrClose false else s0) with efl := s.efl.meterNew }).mtrEdit fun m => { m with
      run := true, halt := 0, swid := BitVec.ofNat 32 new, swck := sum, sealedSwck := sum, sealCnt := min 0xffffffff (m.sealCnt + 1) }
    s1.mtrAudit 3 0 old new s.mtr.swck.toNat
  else s.freeStep.mtrAudit 4 0 s.mtr.swid.toNat (s.freeVal % 2 ^ 32) s.mtr.swck.toNat

/-! ### The boot sequence -/

/-- Boot stops (R425). -/
def State.bootStop (s : State) (code : Nat) : State := { s with upd := { s.upd with stage := 15, stop := code } }

/-- I/O is accepted once every named chip is ACTIVE, EXCLUDED, or FENCED for reason 2 after JOINWAIT (R325). -/
def State.ioAccept (s : State) : State :=
  let ok := fun (m : Member) => m.st == .active || m.st == .excluded || (m.st == .fenced && (m.reason != 2 || s.cas.joinwaitDone))
  if s.upd.stage = 8 ∧ s.cas.members.all fun _ m => ok m then
    { s with upd := { s.upd with stage := 9 }, gate := { s.gate with ioOk := s.cas.crown }
             nvme := { s.nvme with rdy := s.nvme.rdy || s.nvme.cc.getLsbD 0 } }
  else s

/-- The boot is a return from the trial: its slot is FROM, and a previous ledger copy is kept. -/
def State.revertBoot (s : State) : Bool := s.nv.prevLedger.isSome && s.upd.booted == s.nv.actFrom && s.nv.actState != 3

/-- The ledger can be read by this manifest (R449): on a return to FROM, the previous copy. -/
def State.ledgerOk (s : State) (m : Manifest) : Bool :=
  let f := match (if s.revertBoot then s.nv.prevLedger else none) with | some p => p.format | none => s.nv.ledgerFormat
  !s.nv.anchor || between m.ledgerMin f m.ledgerMax

/-- The content of the settings ledger. -/
def State.ledgerCopy (s : State) : LedgerCopy :=
  { format := s.nv.ledgerFormat, slices := s.slices, nss := s.nss, owners := s.key.owners, c0 := s.nv.savedC0, c1 := s.nv.savedC1 }

/-- A ledger copy comes into use. Zones of namespaces it does not hold are released; those it holds and that are gone are
there again, Empty. -/
def State.ledgerUse (s : State) (p : LedgerCopy) : State :=
  let gone := s.zones.keysWhere fun k _ => !p.nss.has (zNsid k)
  let s1 := forNats gone s fun s zk =>
    [(s.zone zk).place, (s.zone zk).logRow].foldl (fun (s : State) x => match x with | some y => s.freePlace y | none => s) s
  let kept := s1.zones.filter fun z => p.nss.has (zNsid z.1)
  let need := p.nss.flatMap fun n => ((List.range (n.2.nsze / max 1 s.zsze)).map fun z => (zkey n.1 z, decide (z < n.2.conv)))
  let zones := need.foldl (fun (t : Tbl Zone) z => if t.has z.1 then t else t.put z.1 { conv := z.2, cap := s.geom.nominal }) kept
  { s1 with
    zones := zones, nss := p.nss, slices := p.slices.mapV fun _ x => x.overStop, key := { s1.key with owners := p.owners }
    nv := { s1.nv with savedC0 := p.c0, savedC1 := p.c1, prevLedger := none, ledgerFormat := p.format } }

/-- Step 2 of R448: the first boot of a trial keeps the old copy as previous; a return to FROM uses it (R449). -/
def State.ledgerMigrate (s : State) (fresh : Bool) : State :=
  if s.revertBoot then
    match s.nv.prevLedger with | some p => s.ledgerUse p | none => s
  else if fresh ∧ s.nv.actState = 2 then { s with nv := { s.nv with prevLedger := some s.ledgerCopy } }
  else s

/-- R437: the class was erased at level 0. New root and identity keys, counters at 0, no certificate; then steps 3 and 4 of
R315; the island halts. -/
def State.classErased (s : State) : State :=
  let l := s.lbaf1Blocks
  let s1 := (((s.keyRedraw).sanStaging).sanZones s.gate.next).slcMark
  ({ s1 with
    efl := { s1.efl.renew with nocert := true }
    fch := { s1.fch with eraseList := l.foldl (fun t k => insNat k t) s1.fch.eraseList } }).mtrHalt 2

/-- The saved log is restored; what was recorded since the reset follows it (R428). -/
def State.logRestore (s : State) : State :=
  match s.nv.savedLog with
  | none => s
  | some l => s.log.slots.foldl (fun (t : State) r => (t.logAppend r.2).logFill t.log.next) { s with log := { l.restored with dropped := l.dropped + s.log.dropped } }

/-- The system zone and the settings ledger: first configuration, or recovery after a clean or an unclean stop (R426, R427). -/
def State.bootZone (s : State) (i : Image) (b : BootIn) (fresh : Bool) : State :=
  let first := !s.nv.anchor
  let s1 : State := if first then s.firstConfig i b else (if s.nv.clean then s.recoverClean else s.recoverUnclean b).mediaEst b
  let sK : State := if s1.efl.keysGone then s1.classErased else s1
  if first then sK else (sK.eraseRest.ledgerMigrate fresh).logRestore

/-- Slice 1023, the saved features and the read-around buckets. DESIGN CHOICE (R12): ZNE_SEED_SHADOW of a configured drive takes the
seed in force; R421 loads `cfg` fields from the image, and R418 uses its seed at the first configuration only. -/
def State.bootSettings (s : State) (i : Image) : State :=
  let s3 : State := match i.slice1023 with
    | some (p, d) => if (s.slice 1023).st = .none then s.sliceMake 1023 p d else s
    | none => s
  let tokens : List (Nat × Nat) := [(1024, s3.raFull)] ++
    (s3.slices.keysWhere fun _ x => x.st != .none).filterMap fun k => if k < 1024 then some (k, s3.raFull) else none
  { s3 with
    nvme := { s3.nvme with
      stopIdle := s3.nv.savedC0.getD i.stopIdle, strictDef := s3.nv.savedC1.getD true, nQueues := (i.pfQueues - 1) * 65537 }
    zne := { s3.zne with seedShadow := s3.zne.seedCur }
    lat := { s3.lat with tokens := tokens.foldl (fun (t : Tbl Nat) p => t.put p.1 p.2) [] } }

/-- Boot has passed step 8: the marker is consumed, a clean boot of a trial counts, and the gate opens for the manager. `clean`,
`saved` and `first` tell what the boot found. -/
def State.bootOpen (s : State) (i : Image) (m : Manifest) (b : BootIn) (clean saved first fresh : Bool) : State :=
  let seen := clean && !first
  { s with
    nv := { s.nv with
      clean := false, savedLog := none, fatalSaved := false
      actClean := if seen ∧ s.nv.actState = 2 ∧ !fresh ∧ s.upd.booted = s.nv.actTo then s.nv.actClean + 1 else s.nv.actClean
      ledgerFormat := m.ledgerWrite
      ledgerGen := if m.ledgerWrite ≠ s.nv.ledgerFormat ∨ (fresh ∧ s.nv.actState = 2) then (s.nv.ledgerGen + 1) % 32768 else s.nv.ledgerGen }
    brm := { s.brm with
      saveKind := if saved then s.nv.saveKind else 0, saveMs := if saved then s.nv.saveMs else 0
      saveBytes := if saved then s.nv.saveBytes else 0 }
    gate := { s.gate with adminOk := i.crown, stopped := false, lastStaging := s.now, lastCheck := s.now }
    upd := { s.upd with stage := 8, ms := min 0xfffff b.ms } }

/-- What follows step 8: the confirmation of a trial; the dies that did not answer, which until here took no part, are recorded as
failed at their media events (R192); the meter part. -/
def State.bootEnd (s : State) (m : Manifest) (b : BootIn) (dead : List Nat) (fresh : Bool) : State :=
  let s7 := if 3 ≤ s.nv.actClean then s.confirm else s
  let up := (forNats dead s7 fun s d => s.dieEdit d fun d => { d with failed := false })
  let s8 := if s7.cas.crown then up.diesFail dead 1 else forNats dead up fun s d => s.dieFailAt d 1 s.gate.next
  (if fresh then s8.meterPart m b.sealOpen b.meterOk else s8).ioAccept

/-- Steps 7 and 8: the system zone, the ledger, slice 1023, the saved features, the locks; then recovery. -/
def State.bootRest (s : State) (i : Image) (m : Manifest) (b : BootIn) (dead : List Nat) (fresh : Bool) : State :=
  let s5 := ((s.bootZone i b fresh).bootSettings i).spbCalc.setLocks i.locks
  (s5.bootOpen i m b s.nv.clean (s.nv.clean || s.nv.fatalSaved) (!s.nv.anchor) fresh).bootEnd m b dead fresh

/-- The boot runs slot `k`: the record takes up a trial or the end of one, and the cfg fields are loaded (R410, R447). -/
def State.bootPick (s : State) (f : SlotFind) (k : Nat) (fresh : Bool) : State :=
  let nv1 := if fresh then { s.nv with
      current := k, next := 255, bootSeq := s.nv.bootSeq + 1, actClean := 0
      actState := if s.nv.actState = 1 then 2 else if s.nv.actState = 2 ∧ k = s.nv.actFrom then 0 else s.nv.actState }
    else s.nv
  let nv2 := if k = 0 then { nv1 with slotRevA := f.manifest.revision, slotFrA := f.manifest.fr }
    else { nv1 with slotRevB := f.manifest.revision, slotFrB := f.manifest.fr }
  ({ s with nv := nv2, upd := { s.upd with booted := k } }).loadCfg f.image f.manifest

/-- A trial whose ledger cannot be read: the failure is recorded, and the chip starts again from FROM (R448 step 2). -/
def State.bootBack (s : State) (k : Nat) : State :=
  let s1 := (s.failRec 4 0 k).chipReset .por
  { s1 with nv := { s1.nv with current := s1.nv.actFrom, next := 255, actState := 4 }, upd := { s1.upd with stage := 3 } }

/-- Steps 3 to 8 from the boot record as it stands; a trial whose ledger cannot be read falls back once to its FROM slot
(R448 step 2). -/
def State.bootSlot (s : State) (b : BootIn) : Nat → State
  | 0 => s.bootStop 8
  | fuel + 1 =>
    let r := s.slotTry b s.nv.slotOrder
    match r.2 with
    | none => r.1.bootStop 2
    | some k =>
      let f := slotOf b k
      let fresh := decide (r.1.nv.next = k)
      let d := (r.1.bootPick f k fresh).dramBoot f.image b
      if !d.2 then d.1.bootStop 4
      else if State.mediaFault b then d.1.bootStop 5
      else
        let s1 : State := d.1.flashBoot b
        let dead := (populated b).filter fun d => s1.dieGood d && (b.badDies.contains d || (s1.chn (dieChannel d)).failed)
        let s2 : State := forNats dead s1 fun s d => s.dieEdit d fun d => { d with failed := true }
        let z : SlcSizes := s2.slcSizes (!s2.nv.anchor)
        if z.g < (z.nmin + z.ksave) * 10 then s2.bootStop 5
        else if b.anchorBad then s2.bootStop 7
        else if b.ledgerBad then s2.bootStop 8
        else if s2.ledgerOk f.manifest then s2.bootRest f.image f.manifest b dead fresh
        else if s2.nv.actState = 2 then (s2.bootBack k).bootSlot b fuel
        else s2.bootStop 8

/-- POWER_ON_RESET_RELEASE (R422): the whole boot, with what the world outside answers. -/
def execPowerOnResetRelease (b : BootIn) (s : State) : Host.Outcome State Fault Refusal :=
  if s.powered then .next s
  else
    let s0 := { s with upd := { s.upd with stage := 1 }, pci := { s.pci with perstN := b.perstN } }
    if !b.bonnetOk || s.efl.keysPart then .next (s0.bootStop 6)
    else
      let s1 := { s0 with upd := { s0.upd with norMib := b.norMib, norMhz := b.norMhz, nosusp := !b.norSuspend } }
      if !b.norOk || !(b.norMib == 32 || b.norMib == 64 || b.norMib == 128 || b.norMib == 256) then .next (s1.bootStop 1)
      else .next ((if b.recordOk then s1 else { s1 with nv := { s1.nv with current := 0, next := 255 } }).bootSlot b 2)

end Sys2Proof.Machine
end

