-- ==== Sys2Proof/Machine/Cascade.lean ====
section
/-! DEFINITION. The Ubpel cascade (R318-R338): receiving frames, the join, the states of members and what a fence
does, leases, time, digests, resynchronisation, and a member's own side of each. -/

namespace Sys2Proof.Machine

open Sys2Proof

/-! ### Members as the crown sees them -/

/-- R326. -/
def MSt.code : MSt → Nat
  | .absent => 0 | .joining => 1 | .refused => 2 | .held => 3 | .active => 4 | .fenced => 5 | .excluded => 6

def State.member (s : State) (c : Nat) : Member := s.cas.members.get c {}
def State.memEdit (s : State) (c : Nat) (f : Member → Member) : State :=
  { s with cas := { s.cas with members := s.cas.members.edit c f } }

/-- CAS_MEMBER_k as a register value (R338); the crown reads ACTIVE. -/
def State.casMember (s : State) (c : Nat) : Nat :=
  if c = 0 then (if s.cas.crown then 4 * 2 ^ 28 else 0)
  else
    match s.cas.members.look c with
    | some m => m.st.code * 2 ^ 28 + m.reason % 16 * 2 ^ 24 + min 255 m.misses * 2 ^ 16 + m.leases.length % 2048
    | none => 0

/-! ### Commit across the cascade (R446) -/

/-- The staging slot is discarded: erased, its owner none (R442). -/
def State.stgDrop (s : State) : State :=
  { s with nv := { s.nv with stgOwner := 0, stgBlocks := [], stgDirty := [], stgErasing := true, stgDiscard := false } }

/-- A commit ends: event 209, its command's completion, and after a success the discard of the staging slot. -/
def State.commitEnd (s : State) (st : Option Status) : State :=
  let c := s.nv.commitCtx
  let act := s.nv.commitAct
  let s1 := ({ s with nv := { s.nv with commitAct := 0, commitCtx := none, copying := false }
                      cas := { s.cas with voteStep := 0 } }).fire 209
  match st with
  | some f =>
    let s2 := { s1 with nv := { s1.nv with pldmSelf := false } }
    (match c with | some k => s2.finish k f | none => s2)
  | none =>
    let s2 := if act = 3 then s1 else s1.stgDrop
    match c with | some k => s2.finish k (if act = 1 then stOk else stFwReset) | none => s2

/-- Members of the cascade that are linked. -/
def State.linkedMembers (s : State) : List Nat := s.cas.members.keysWhere fun c _ => decide (5 ≤ (s.port (portOf c)).phase)

/-- The commit fails before step 4: ABANDON goes to every member, and no NEXT is written. -/
def State.voteAbort (s : State) (st : Status) : State :=
  (s.linkedMembers.foldl (fun (s : State) c => s.casSend (portOf c) 3 0x42 0 [3]) s).commitEnd (some st)

/-- Steps 5 and 6: once every member still ACTIVE has voted ARMED, the command completes. -/
def State.armCheck (s : State) : State :=
  if s.cas.voteStep = 2 ∧ s.cas.members.all fun _ m => m.st != .active || m.vote == 2 then s.commitEnd none else s

/-- The self-reset of a self-contained activation (R441): the save runs, unless boot has stopped and there is nothing to save. -/
def State.selfReset (s : State) : State := if s.upd.stage = 15 then s.chipReset .por else (s.saveNow 5).chipReset .saved

/-- A self-contained activation that waited resets the chip once its commit has ended; a check tick looks too. -/
def State.selfCheck (s : State) : State :=
  if s.nv.pldmSelf && s.nv.commitAct == 0 then s.selfReset else s

/-- A member changes state: event 176 to 178 (R453). A member that leaves ACTIVE ends a commit that awaits votes. -/
def State.memSt (s : State) (c : Nat) (st : MSt) (reason : Nat) : State :=
  let old := (s.member c).st
  let s1 := s.memEdit c fun m => { m with st := st, reason := reason }
  if old = st then s1
  else
    let s2 := s1.fire (175 + c) [s1.casMember c]
    if old ≠ .active then s2 else if s2.cas.voteStep = 1 then s2.voteAbort stMemberFenced else s2.armCheck

/-- The zone has blocks on a chip. -/
def Zone.onChip (z : Zone) (c : Nat) : Bool := match z.anyPlace with | some x => x.chip == c | none => false

/-- A namespace has a zone on the chip that a fence makes read-only (R74, R334). -/
def State.fenceRo (s : State) (c : Nat) : Bool := (s.member c).st == .fenced && s.zones.any fun _ z => z.onChip c

/-- MEMBER_FENCED notices to the slices that own a namespace with a zone on the chip (R108, R334). -/
def State.memNotices (s : State) (c : Nat) : State :=
  s.nss.foldl (fun (s : State) (p : Nat × Ns) =>
    if p.2.owner < 1024 ∧ (s.zones.any fun k z => zNsid k == p.1 && z.onChip c) then
      s.notice p.2.owner 0x07 p.1 c
    else s) s

/-- Commands of a chip's zones end with MEMBER_FENCED: its committed and uncompleted writes (R331), and, unless reads are
still served, its reads and Meter Fetch commands that wait for it. -/
def State.casLose (s : State) (c : Nat) (reads : Bool) : State :=
  let ws := s.staging.keysWhere fun _ t => !t.complete && !t.dropped && s.zoneChip t.zone == c
  let s1 := forNats ws s fun s k => match s.staging.look k with
    | some t => (match s.ctxs.look t.ctx with | some x => if x.committed then s.failWrite t.ctx stMemberFenced else s | none => s)
    | none => s
  if reads then s1
  else
    let rs := s1.ctxs.keysWhere fun _ x => x.phase == .stamped &&
      ((x.e.opc == 2 && x.committed && s1.zoneChip x.zone == c && x.runits.any fun _ r => r.st == .waiting || r.st == .queued)
        || (x.e.opc == 0xca && x.q == 0 && x.e.cdw1213 / 2 ^ 62 == c))
    forNats rs s1 fun s k => s.cmdEnd k stMemberFenced

/-- The link of a crown port is joined. -/
def State.linkJoined (s : State) (c : Nat) : Bool := decide (5 ≤ (s.port (portOf c)).phase)

/-- A fence of a member (R331, R334) at its commit. -/
def State.fenceApply (s : State) (c reason stamp : Nat) : State :=
  let had := s.cas.members.any fun k _ => s.fenceRo k
  let s1 := (s.memEdit c fun m => { m with fenceStamp := stamp, resync := 0, misses := 0 }).memSt c .fenced reason
  let s2 := s1.casLose c ((reason == 1 || reason == 4) && s1.linkJoined c)
  let s3 := s2.memNotices c
  let s4 := if !had && s3.fenceRo c then s3.aenCrit 3 else s3
  (if s4.cas.auto && s4.linkJoined c && reason != 5 then s4.memEdit c fun m => { m with resync := 1 } else s4).ioAccept

/-- The media event that admits a member, or unfences it: leases for its active zones, the notices again (R324 step 8, R335). -/
def State.unfenceApply (s : State) (c : Nat) : State :=
  let zs := s.zones.keysWhere fun _ z => z.zs.isActive && (match z.place with | some p => p.chip == c | none => false)
  let was := (s.member c).st == .fenced
  let s1 := (s.memEdit c fun m => { m with resync := 0, leases := zs, misses := 0 }).memSt c .active 0
  let s2 := forNats zs s1 fun s k => s.casSend (portOf c) 0 0x11 16 [1, k]
  (if was then s2.memNotices c else s2).ioAccept

/-! ### Links (R319-R323) -/

/-- A link goes down: its unacknowledged messages are gone; a joining member is ABSENT again; reads that a fenced member
still served end. -/
def State.linkDrop (s : State) (p cause : Nat) : State :=
  let s1 := ((s.lanesDrop (ubpelPort p)).portEdit p fun q => { q with
    phase := 0, downCause := cause, unacked := [], txSeq := [], rxSeq := [], credits := [], tagRun := 0, downAt := s.now }).fire (179 + p)
  if !s1.cas.crown then
    if p = 0 then { s1 with cas := { s1.cas with snap := false, snapBuf := [], snapToks := [], held := [], recent := [], voteStep := 0 } } else s1
  else
    let c := p + 1
    let m := s1.member c
    let s2 := s1.memEdit c fun m => { m with resync := 0, waitRenew := false }
    if m.st = .joining ∨ m.st = .held ∨ m.st = .refused then s2.memSt c .absent 0
    else if m.st = .fenced then s2.casLose c false
    else s2

/-! ### Members at a check tick (R333, R335) -/

/-- The zone table, the token tables and the zone key records as SNAPSHOT carries them (R335 step 2), in parts of at most 512
items. -/
def State.snapBody (s : State) : List Nat :=
  let row := fun (p : Option Place) => match p with
    | some x => [x.pos.length, x.seed.toNat, x.fence.toNat] ++ x.pos.flatMap fun y => [y.1, match y.2 with | some b => b + 1 | none => 0]
    | none => [0]
  (s.zones.flatMap fun p => [p.1, if p.2.conv then 0 else p.2.zs.code, p.2.wp, p.2.cap, if p.2.padded then 1 else 0, s.zoneOwner p.1] ++
    row p.2.place ++ row p.2.logRow ++ [p.2.keyRec.length] ++ p.2.keyRec.flatMap fun x => [x.1, x.2]) ++
  s.toks.flatMap fun p => p.2.flatMap fun t => [p.1, t.token, t.nsid, t.zone, t.nlb, t.lba, t.stamp, t.age]

def snapParts : Nat → List Nat → List (List Nat)
  | 0, _ => []
  | f + 1, l => if l.length ≤ 512 then [l] else l.take 512 :: snapParts f (l.drop 512)

/-- One member at the check tick `stamp`; `prev` is the check tick before it. -/
def State.memberTick (s : State) (stamp prev c : Nat) : State :=
  let m := s.member c
  if m.resync = 1 then
    let body := s.snapBody
    let s1 := (snapParts (body.length + 1) body).foldl (fun (s : State) l =>
      s.casSend (portOf c) 3 0x41 (l.length * 8 + 48) ([stamp, s.gate.tickShared.toNat] ++ l)) s
    s1.memEdit c fun m => { m with resync := 2, snapAt := stamp }
  else if m.st = .active ∧ prev ≠ 0 ∧ m.check < prev then
    let s1 := s.memEdit c fun m => { m with misses := m.misses + 1, matched := false }
    if 3 ≤ m.misses + 1 ∧ s1.canStamp then s1.enterSys (.fence c 3) else s1
  else s

/-- What an action of CAS_CTL other than a fence does at its commit (R328): Exclude, Include, Resync. -/
def State.casActApply (s : State) (c action : Nat) : State :=
  if action = 1 then
    let s1 := s.memSt c .excluded 0
    let s2 := if (s1.port (portOf c)).phase = 0 then s1.portEdit (portOf c) fun q => { q with downCause := 5 } else s1.linkDrop (portOf c) 5
    (s2.casLose c false).ioAccept
  else if action = 2 then (s.memSt c .absent 0).portEdit (portOf c) fun q => { q with phase := 1 }
  else (if (s.member c).st = .held then s.memSt c .joining 0 else s).memEdit c fun m => { m with resync := 1 }

/-- What a system entry that has committed does to the cascade. -/
def State.sysAfter (s : State) (ev : SysEv) (stamp prev : Nat) : State :=
  match ev with
  | .check _ => forNats (s.cas.members.keysWhere fun c _ => c != 0 && s.linkJoined c) s fun s c => s.memberTick stamp prev c
  | .fence c reason => s.fenceApply c reason stamp
  | .unfence c => s.unfenceApply c
  | .casAct c a => s.casActApply c a
  | _ => s

/-- Commit the system entries that may commit. -/
def State.sysGo (s : State) : State := State.sysRun State.sysAfter (s.gate.entries.length + 64) s

/-- Stamp an event of the cascade, and commit it when every lower entry has. -/
def State.casEvent (s : State) (ev : SysEv) : State :=
  if s.eventWaits (· == ev) then s else (s.enterSys ev).sysGo

def State.memberFence (s : State) (c reason : Nat) : State := s.casEvent (.fence c reason)

/-! ### Frames (R320-R323) -/

/-- A frame is received on a port whose phase is at least `ph`: its tag, its place in the sequence of its VC, and its
delivery (R322, R323). -/
def State.frameIn (s : State) (f : Frame) (ph : Nat) (go : State → State) : State :=
  let q := s.port f.port
  if q.phase < ph ∨ s.inStop ∨ 3 ≤ s.brm.st then s
  else if !f.tagOk then
    let s1 := s.portEdit f.port fun x => { x with tagFail := satAdd 0xffffffff x.tagFail 1, tagRun := x.tagRun + 1 }
    if 16 ≤ q.tagRun + 1 then s1.linkDrop f.port 2 else s1
  else
    let s1 := (s.portEdit f.port fun x => { x with tagRun := 0 }).memEdit (f.port + 1) fun m => { m with contact := s.now }
    let e := q.rxSeq.get f.vc 1
    if f.mseq < e then (s1.portEdit f.port fun x => { x with dups := satAdd 0xffff x.dups 1 }).ackOut f.port f.vc (ceilDiv f.len 256)
    else if e < f.mseq then s1.portEdit f.port fun x => { x with gaps := satAdd 0xffff x.gaps 1 }
    else go ((s1.portEdit f.port fun x => { x with rxSeq := x.rxSeq.put f.vc (e + 1) }).ackOut f.port f.vc (ceilDiv f.len 256))

/-- A frame that only the crown takes, on the port of a member. -/
def State.crownIn (s : State) (f : Frame) (go : State → Nat → State) : State :=
  if s.cas.crown then s.frameIn f 5 fun s => go s (f.port + 1) else s

/-- A frame that only a member takes, on its port 0. -/
def State.memberIn (s : State) (f : Frame) (go : State → State) : State :=
  if !s.cas.crown && f.port == 0 then s.frameIn f 5 go else s

/-- Send the messages that wait for credits, in order on each VC (R321). -/
def State.pump (s : State) (p : Nat) : State :=
  ((s.port p).unacked.foldl (fun (t : State × List Nat) m =>
    if m.sends ≠ 0 ∨ t.2.contains m.vc then t
    else
      let n := ceilDiv m.len 256
      let q := t.1.port p
      if q.credit m.vc < n then (t.1, m.vc :: t.2)
      else
        let s1 := t.1.portEdit p fun x => { x with
          credits := x.credits.put m.vc (x.credit m.vc - n)
          unacked := x.unacked.map fun u => if u.vc = m.vc ∧ u.mseq = m.mseq then { u with sends := 1 } else u }
        ((s1.frameOut p m).flitsTaken (msgPort m.type) (ubpelPort p) (flitsOf m.len), t.2)) (s, [])).1

/-- ACK (R321, R322): the highest MSEQ received in order and the credits returned, by VC. -/
def execAck (f : Frame) (acked credits : List Nat) (s : State) : Host.Outcome State Fault Refusal :=
  let q := s.port f.port
  if q.phase < 4 ∨ s.inStop ∨ 3 ≤ s.brm.st then .next s
  else if !f.tagOk then .next (s.frameIn { f with tagOk := false } 4 id)
  else
    let s1 := s.portEdit f.port fun x => { x with
      tagRun := 0
      unacked := x.unacked.filter fun m => m.sends == 0 || decide (acked.getD m.vc 0 < m.mseq)
      credits := (List.range 4).foldl (fun t v => t.put v (min 64 (x.credit v + credits.getD v 0))) x.credits }
    let s2 := s1.memEdit (f.port + 1) fun m => { m with
      contact := s.now, waitRenew := m.waitRenew && (s1.port f.port).unacked.any fun u => u.type == 0x11 }
    .next (s2.pump f.port)

/-- ACK_TIMEOUT (R322, R323): 20 µs without an ACK; the message and every later one of its VC are sent again, 64 times at
most. -/
def execAckTimeout (port vc mseq : Nat) (s : State) : Host.Outcome State Fault Refusal :=
  match (s.port port).unacked.find? fun m => m.vc == vc && m.mseq == mseq && m.sends != 0 with
  | none => .next s
  | some m =>
    if s.inStop ∨ 3 ≤ s.brm.st then .next s
    else if 64 ≤ m.sends then .next (s.linkDrop port 3)
    else
      let l := (s.port port).unacked.filter fun u => u.vc == vc && decide (mseq ≤ u.mseq) && u.sends != 0
      .next (l.foldl (fun (s : State) u =>
        (s.portEdit port fun x => { x with
          retries := satAdd 0xffff x.retries 1
          unacked := x.unacked.map fun w => if w.vc = vc ∧ w.mseq = u.mseq then { w with sends := w.sends + 1 } else w }).frameOut port u) s)

/-- LINK_DOWN (R323). -/
def execLinkDown (port cause : Nat) (s : State) : Host.Outcome State Fault Refusal :=
  if (s.port port).phase = 0 then .next s else .next (s.linkDrop port cause)

/-- PORT_TRAINING_RETRY (R323): 1 s after a link of the crown went down. The fence of a member that was ACTIVE comes
first (R331), and the link of an EXCLUDED one stays down (R328). -/
def execPortTrainingRetry (port : Nat) (s : State) : Host.Outcome State Fault Refusal :=
  let m := s.member (port + 1)
  if !s.cas.crown ∨ (s.port port).phase ≠ 0 ∨ !s.cas.named.getLsbD (port + 1) ∨ m.st = .active ∨ m.st = .excluded then .next s
  else .next (s.portEdit port fun q => { q with phase := 1 })

/-- UBPEL_REKEY (R314): a direction takes its next key. -/
def execUbpelRekey (port : Nat) (tx : Bool) (s : State) : Host.Outcome State Fault Refusal :=
  if (s.port port).phase < 4 then .next s
  else .next (s.portEdit port fun q => { q with rekeys := q.rekeys + 1, fseqTx := if tx then 0 else q.fseqTx })

/-! ### The join (R324) -/

/-- JOIN, step 1: the PHYs train. A member's ports 1 and 2 are taken down at once (R318). -/
def execJoin (port : Nat) (trained : Bool) (s : State) : Host.Outcome State Fault Refusal :=
  let q := s.port port
  let c := port + 1
  if !s.powered ∨ s.upd.stage = 15 ∨ s.inStop ∨ 1 < q.phase then .next s
  else if !s.cas.crown ∧ port ≠ 0 then .next (if trained then s.linkDrop port 4 else s)
  else if s.cas.crown ∧ (!s.cas.named.getLsbD c ∨ (s.member c).st = .excluded ∨ (s.member c).st = .active ∨ (q.phase = 0 ∧ q.downCause ≠ 0)) then .next s
  else if !trained then .next (s.linkDrop port 4)
  else
    let s1 := (s.lanesDrop (ubpelPort port)).portEdit port fun q => { q with phase := 2, txSeq := [], rxSeq := [], credits := [], unacked := [], fseqTx := 1 }
    let s2 := if s1.cas.crown ∧ (s1.member c).st = .absent then s1.memSt c .joining 0 else s1
    .next (s2.say (.frame port 1 0 0 1 [if s.cas.crown then 1 else 0, if s.cas.crown then c else 0]))

/-- HELLO, step 2: the peer has the other role; a member learns its chip number from the crown. -/
def execHello (port : Nat) (m : HelloMsg) (s : State) : Host.Outcome State Fault Refusal :=
  if (s.port port).phase ≠ 2 then .next s
  else if m.crown = s.cas.crown then .next (s.linkDrop port 4)
  else
    let s1 := s.portEdit port fun q => { q with phase := 3, peerKey := m.keyHash, fseqTx := 2 }
    let s2 := if s.cas.crown then s1 else { s1 with cas := { s1.cas with chip := m.chip % 4 } }
    .next (s2.say (.frame port 2 0 0 2 []))

/-- The pairing entry of the image names the peer's key (R324 step 3). -/
def State.paired (s : State) (port : Nat) : Bool :=
  match s.img with
  | some i => i.pairs.contains (if i.crown then port else 0xff, (s.port port).peerKey)
  | none => false

/-- AUTH, steps 3 to 5: both checks pass, the link is keyed with FSEQ from 1, and a member sends IDENT. -/
def execAuth (port : Nat) (sigOk : Bool) (s : State) : Host.Outcome State Fault Refusal :=
  if (s.port port).phase ≠ 3 then .next s
  else if !sigOk || !s.paired port then .next (s.linkDrop port 4)
  else
    let s1 := s.portEdit port fun q => { q with phase := 4, fseqTx := 0 }
    if s.cas.crown then .next s1
    else
      let rev := match s.manifest with | some m => m.revision | none => 0
      let s2 := s1.casSend 0 0 3 192 ([s.upd.digest.toNat, rev, s.dies.length, s.gate.tickCheck, s.gate.tickShared.toNat, s.mtr.time] ++ s.efl.svns)
      .next (({ s2 with cas := { s2.cas with snap := true, snapBuf := [], held := [] } }).portEdit 0 fun q => { q with phase := 5 })

/-- The member's versions are the crown's (R327). -/
def State.versionsMatch (s : State) (c : Nat) : Bool :=
  let m := s.member c
  (match s.manifest with | some x => x.revision == m.manifest | none => false) && s.efl.svns == m.svns

/-- The chip resets itself before I/O readiness because member `c` runs FROM: every chip runs FROM again (R448 step 3). -/
def State.trialFallback (s : State) (c : Nat) : State :=
  let s1 := ({ s with nv := { s.nv with next := s.nv.actFrom, actState := 4 } }).failRecOf c 5 0 s.nv.actTo s.nv.actFromRev s.nv.actToRev
  ((s1.cas.members.keysWhere fun c _ => s1.linkJoined c).foldl (fun s c => s.casSend (portOf c) 3 0x42 0 [4]) s1).chipReset .por

/-- Step 6: the crown compares IDENT with its own values (R327). -/
def State.identAt (s : State) (c : Nat) (m : IdentMsg) : State :=
  let s1 := (s.portEdit (portOf c) fun q => { q with phase := 5 }).memEdit c fun x => { x with
    manifest := m.revision, svns := m.secver, dies := m.dies, cfgDigest := m.cfgDigest, shared := m.shared, check := m.check, matched := false }
  let s2 := (List.range (min 32 (m.dies / 32))).foldl (fun (s : State) k =>
    (List.range 32).foldl (fun (s : State) ch =>
      let dk := dieKey c (ch * 32 + k)
      if s.dies.has dk then s else { s with dies := s.dies.put dk {} }) s) s1
  let fell := s.nv.actState == 2 && m.revision == s.nv.actFromRev && !m.prepared && decide (s.upd.stage < 9)
  if m.cfgDigest ≠ s.upd.digest then s2.memSt c .refused 0
  else if !s2.versionsMatch c then
    if fell then s2.trialFallback c
    else
      let s3 := s2.memSt c .held 0
      if m.prepared then s3.casSend (portOf c) 3 0x42 0 [2] else s3
  else if (s2.member c).st = .fenced then s2.memEdit c fun x => { x with resync := if s.cas.auto then 1 else 0 }
  else (s2.memSt c .joining 0).memEdit c fun x => { x with resync := 1 }

/-- IDENT, steps 5 and 6. -/
def execIdent (f : Frame) (m : IdentMsg) (s : State) : Host.Outcome State Fault Refusal :=
  if !s.cas.crown ∨ (s.port f.port).phase ≠ 4 then .next s
  else .next (s.frameIn f 4 fun s => if s.cas.members.has (f.port + 1) then s.identAt (f.port + 1) m else s)

/-- JOINWAIT_EXPIRY (R325): members still ABSENT or JOINING are fenced with reason 2. -/
def execJoinwaitExpiry (s : State) : Host.Outcome State Fault Refusal :=
  if !s.cas.crown ∨ s.upd.stage ≠ 8 ∨ s.cas.joinwaitDone ∨ !s.canStamp then .next s
  else
    let l := s.cas.members.keysWhere fun _ m => m.st == .absent || m.st == .joining
    .next (forNats l { s with cas := { s.cas with joinwaitDone := true } } fun s c => s.memberFence c 2).ioAccept

/-! ### The stamped sequence on a member (R329) -/

def RowImg.place (r : RowImg) : Place := { chip := 0, pos := r.pos, seed := r.seed, fence := r.fence }

def recOf (r : RecImg) (stamp : Nat) : CRec :=
  { stamp := stamp, slice := r.owner, kind := r.kind, resolved := r.resolved, status := r.status, nsid := r.nsid, zone := r.zone
    value := r.value }

/-- A row set of the replica names blocks that it did not: they are in use from now on. -/
def State.takeNew (s : State) (old new : Place) (st : Nat) : State :=
  s.takePlace { new with pos := new.pos.filter fun x => !old.pos.contains x && !(match x.2 with
    | some b => (s.blk (blkKey x.1 b)).inUse | none => false) } st

/-- The rows of a zone become those that the crown's table names: placed, left, merged, moved by a migration, or with a block
replaced. -/
def State.memberRows (s : State) (stamp : Nat) (act : StampAct) (zk : Nat) (data log : Option Place) : State :=
  let z := s.zone zk
  if z.place = data ∧ z.logRow = log then s
  else
    match z.anyPlace, act with
    | some _, .check _ =>
      let take := fun (s : State) (p : Option Place) (st : Nat) => match p with | some x => s.takePlace x st | none => s
      match z.migRows s.geom.u s.geom.bdata data log with
      | some rows => (take (take s data 2) log 6).migrateTo zk data log rows
      | none => s
    | some _, .media _ =>
      let swap := fun (s : State) (old new : Option Place) (st : Nat) => match old, new with
        | some a, some b => if a = b then s else (s.takeNew a b st).placeSwap a b
        | _, _ => s
      (swap (swap s z.place data 2) z.logRow log 6).zoneEdit zk fun y => { y with place := data, logRow := log }
    | _, _ =>
      if z.conv ∧ z.place ≠ data then
        match data with
        | none => s
        | some d =>
          let free := fun (s : State) (p : Option Place) => match p with | some x => s.freePlace x | none => s
          let s1 := free (free (s.takePlace d 2) z.place) z.logRow
          (match log with | some l => s1.takePlace l 6 | none => s1).mergeTo zk stamp d log
      else
        let take := fun (s : State) (old new : Option Place) (st : Nat) => match old, new with
          | none, some x => s.takePlace x st
          | _, _ => s
        (take (take s z.place data 2) z.logRow log 6).zoneEdit zk fun y => { y with
          place := data, logRow := log
          logUsed := if z.logRow.isNone then 0 else y.logUsed, logUnits := if z.logRow.isNone then [] else y.logUnits }

/-- A zone of the replica as an entry leaves it (R37, R329). -/
def State.memberZone (s : State) (stamp : Nat) (act : StampAct) (i : ZoneImg) : State :=
  let s0 := { s with nss := s.nss.upd (zNsid i.key) { owner := i.owner, nsze := 0, conv := 0 } fun n => { n with owner := i.owner, zoneBase := i.base } }
  let s1 := if (s0.zones.look i.key).isSome then s0 else { s0 with zones := s0.zones.put i.key { conv := i.zs == 0 } }
  let z := s1.zone i.key
  let data := i.row.map RowImg.place
  let log := i.log.map RowImg.place
  if i.zs = 0 then s1.memberRows stamp act i.key data log
  else
    let nz := Zs.ofCode i.zs
    let s2 := if z.place.isSome ∧ data.isNone then
        (if z.wp = 0 ∧ nz = .empty ∧ z.zs ≠ .full then s1.zoneUnplace i.key else s1.zoneRelease i.key stamp)
      else s1.memberRows stamp act i.key data none
    let s3 := if z.zs.isOpen ∧ nz = .closed then s2.zoneClosed i.key else s2
    let s4 := s3.zoneEdit i.key fun y => { y with zs := nz, wp := i.wp, cap := i.cap, padded := i.padded, keyRec := i.keys }
    let y := s4.zone i.key
    match y.place with
    | some p => if i.padded ∧ !z.padded ∧ !s4.writing i.key then s4.rowsStart i.key 0 (ceilDiv y.cwp (p.d * s.geom.u) * (p.d * s.geom.u)) else s4
    | none => s4

/-- A write or append that commits in a zone of this chip: its units come as DATA, are staged, folded and programmed here (R329).
DESIGN CHOICE: the spec names no pool that a member's staging is drawn from; none is charged but the dirty count. -/
def State.memberWrite (s : State) (stamp zk off n : Nat) : State :=
  let z := s.zone zk
  let tag := if z.conv then logTag else 0
  match z.rowPlace tag with
  | none => s
  | some p =>
    let base := if z.conv then z.logUsed else off
    let stale := s.staging.keysWhere fun _ t => t.zone == zk && !t.complete && decide (t.off < off + n) && decide (off < t.off + t.n) && !z.conv
    let s1 := forNats stale s State.withdraw
    let t : Staged := { ctx := 65536, owner := s.zoneOwner zk, zone := zk, off := off, n := n, bufs := [], kix := rawKix, placed := true, logBase := base }
    let s2 := { s1 with staging := s1.staging.put stamp t }
    ((s2.zoneEdit zk fun z =>
      let y := z.putVers stamp off n 0 rawKix (if z.conv then some base else none)
      if z.conv then { y with logUsed := base + n, logUnits := z.logUnits ++ (List.range n).map (off + ·) } else y).recordAll
      (placeRecs p s.geom.u stamp t.owner zk base (base + n))).dirtyAdd n |>.tallyWr t.owner n (some p)

/-- A check tick at a member: the latch, and its DIGEST to the crown (R49, R333). -/
def State.memberCheck (s : State) (stamp : Nat) : State :=
  let s1 := ({ s with gate := { s.gate with latchWait := s.gate.latchWait ++ [stamp] } }).settle
  s1.casSend 0 0 0x13 48 [stamp, s1.gate.tickShared.toNat, s1.mtr.time]

/-- What an entry does on the chip besides its zones. -/
def State.memberAct (s : State) (stamp : Nat) (a : StampAct) : State :=
  match a with
  | .write zk off n => s.memberWrite stamp zk off n
  | .read zk _ n => if (s.zone zk).here then s.tally (s.zoneOwner zk) fun t => { t with rd := t.rd + n } else s
  | .sliceMade i inst => s.tallyOpen i inst
  | .sliceGone i => s.tallyShut i
  | .dealloc zk off n => s.deallocate stamp zk off n
  | .staging span => let t := s.stagingApply stamp span; { t with gate := { t.gate with lastStaging := t.now } }
  | .check secs => let t := s.checkApply secs; { t with gate := { t.gate with lastCheck := t.now } }
  | .media (.dieFail d cause) => s.dieFailAt (d % 1024) cause stamp
  | .media (.programFail d b) => s.blockFailAt (blkKey (d % 1024) (b % 8192)) 1 stamp false
  | .media (.eraseFail d b) => s.blockFailAt (blkKey (d % 1024) (b % 8192)) 2 stamp true
  | .media (.rowRebuilt zk row) => ([false, true]).foldl (fun (s : State) slc => s.rebuiltAt zk row slc) s
  | .media (.migrated zk) => s.migratedAt zk
  | .media (.zoneLost zk) => s.zoneRo zk stamp
  | .seed new => { s with zne := { s.zne with seedPrev := s.zne.seedCur, seedCur := new, migrating := true } }.migCheck
  | .sag | .other => s

/-- An entry of a token table comes to the replica, the oldest one leaving a full table (R129, R130). -/
def State.tokTake (s : State) (t : TokImg) : State :=
  let l := s.toks.get t.owner []
  let low := minNat (l.map (·.stamp)) 0
  let l1 := if 4096 ≤ l.length then l.filter fun x => x.stamp != low else l
  { s with toks := s.toks.put t.owner (l1 ++ [{
      token := t.token, nsid := t.nsid, zone := t.zone, nlb := t.nlb, committed := true, lba := t.lba, stamp := t.stamp, age := t.age }]) }

/-- A member applies one entry of the crown's stamped sequence. Its shared chain takes the records of the crown's resolution;
those of pages placed here are its own (R47, R48). -/
def State.memberApply (s : State) (e : StampMsg) : State :=
  if e.stamp ≤ s.cas.applied then s
  else
    let s0 := { s with cas := { s.cas with applied := e.stamp }, gate := { s.gate with next := e.stamp } }
    let write := match e.act with | .write _ _ _ => true | _ => false
    let zones := fun (s : State) => e.zones.foldl (fun (s : State) i => s.memberZone e.stamp e.act i) s
    let s1 := if write then (zones s0).memberAct e.stamp e.act else zones (s0.memberAct e.stamp e.act)
    let own := s1.gate.recs.filter fun r => r.stamp != e.stamp || r.kind == 0x10
    let s2 := (e.recs.map fun r => recOf r e.stamp).foldl State.record { (match e.tok with | some t => s1.tokTake t | none => s1) with
      gate := { s1.gate with recs := own, next := e.stamp + 1 }
      cas := { s1.cas with recent := match e.act with | .check _ => [] | _ => s1.cas.recent ++ [e] } }
    match e.act with
    | .check _ => s2.memberCheck e.stamp
    | .sag => ({ s2.settle with cas := { s2.cas with myLeases := [] } }).saveNow 0
    | _ => s2.settle

/-- STAMP: entries in stamp order; while a resynchronisation runs they are held unapplied (R335 step 2). -/
def execStampFrame (f : Frame) (entries : List StampMsg) (s : State) : Host.Outcome State Fault Refusal :=
  .next (s.memberIn f fun s =>
    if s.cas.snap then { s with cas := { s.cas with held := s.cas.held ++ entries } }
    else entries.foldl State.memberApply s)

/-- Content of a zone here that the snapshot does not hold is discarded: staged writes that it does not know, and units above
its write pointer (R335 step 4). -/
def State.snapZone (s : State) (stamp : Nat) (i : ZoneImg) : State :=
  let z := s.zone i.key
  let s1 := if i.zs = 0 ∨ z.wp ≤ i.wp then s
    else
      let lost := s.staging.keysWhere fun _ t => t.zone == i.key && decide (i.wp < t.off + t.n)
      let s2 := (forNats lost s State.withdraw).zoneEdit i.key fun z => { z with wp := i.wp, cwp := min z.cwp i.wp, vers := z.vers.filter fun q => decide (q.1 < i.wp) }
      s2.sheafCut i.key 0 i.wp []
  s1.memberZone stamp .other i

/-- SNAPSHOT (R335 steps 2 to 5): with its last part the replica is replaced, the digest chain takes its new head, units
above each write pointer are discarded, the rows below it are scanned as at a boot (R223; `body.scan` names the pages of each zone that
cannot be released), and the entries above S are applied. -/
def execSnapshot (f : Frame) (body : SnapBody) (shared : BitVec 256) (stamp : Nat) (last : Bool) (s : State) :
    Host.Outcome State Fault Refusal :=
  .next (s.memberIn f fun s =>
    let buf := body.zones.foldl (fun (t : Tbl ZoneImg) z => t.put z.key z) s.cas.snapBuf
    if !last then { s with cas := { s.cas with snap := true, snapBuf := buf, snapToks := s.cas.snapToks ++ body.toks } }
    else
      let gone := s.zones.keysWhere fun k _ => !buf.has k
      let s1 := forNats gone s fun s k => let t := s.zoneRelease k stamp; { t with zones := t.zones.del k }
      let s2 := buf.foldl (fun (s : State) p => s.snapZone stamp p.2) s1
      let s3 := (s.cas.snapToks ++ body.toks).foldl State.tokTake { s2 with
        toks := []
        cas := { s2.cas with snapBuf := [], snapToks := [], snap := false, held := [], recent := [], applied := stamp }
        gate := { s2.gate with shared := shared, recs := [], next := stamp + 1 } }
      let s4 := forNats (s3.zones.map (·.1)) s3 fun s zk => s.resyncZone zk (((body.scan.find? fun r => r.key == zk).map (·.bad)).getD [])
      ((s.cas.recent ++ s.cas.held).filter fun e => decide (stamp < e.stamp)).foldl State.memberApply s4)

/-! ### Data, reads and leases -/

/-- LEASE at a member (R330): grant, renew or release; each grant and renew starts the expiry. -/
def execLease (f : Frame) (op : LeaseOp) (s : State) : Host.Outcome State Fault Refusal :=
  .next (s.memberIn f fun s =>
    let l := s.cas.myLeases
    { s with cas := { s.cas with myLeases := match op with
        | .grant z => l.put z true
        | .renew => l.mapV fun _ _ => true
        | .release z => l.del z } })

/-- LEASE_EXPIRY (R331): 100 ms after the last grant or renew that the member received. -/
def execLeaseExpiry (zone : Nat) (s : State) : Host.Outcome State Fault Refusal :=
  if s.cas.crown then .next s
  else .next { s with cas := { s.cas with myLeases := s.cas.myLeases.edit zone fun _ => false } }

/-- LEASE_RENEW (R330): every 25 ms, one renew for all leases of a member. -/
def execLeaseRenew (chip : Nat) (s : State) : Host.Outcome State Fault Refusal :=
  if !s.cas.crown ∨ (s.member chip).st ≠ .active ∨ !s.linkJoined chip ∨ s.pwr.st ≠ 0 ∨ 3 ≤ s.brm.st then .next s
  else .next ((s.casSend (portOf chip) 0 0x11 16 [2]).memEdit chip fun m => { m with lastRenew := s.now })

/-- LINK_LOSS_FENCE (R331): 101 ms after the last renew over a link that is down. -/
def execLinkLossFence (chip : Nat) (s : State) : Host.Outcome State Fault Refusal :=
  if !s.cas.crown ∨ (s.member chip).st ≠ .active ∨ s.linkJoined chip ∨ !s.canStamp then .next s
  else .next ((s.memberFence chip 2).ioAccept)

/-- A unit as a member stages it: the bits that came, and their CRC-32C (R21). -/
def Sealed.taken (content md : Nat) : Sealed :=
  { plain := unitWord content md, md := md % 2 ^ 64, crc := crc32c (unitWord content md) 4096 }

/-- DATA at a member (R331): taken under an unexpired lease; with the write's last unit it sends STAGED. -/
def execDataFrame (f : Frame) (stamp zone unit content md : Nat) (s : State) : Host.Outcome State Fault Refusal :=
  .next (s.memberIn f fun s =>
    match s.staging.look stamp with
    | none => s
    | some t =>
      let j := unit - t.off
      if !s.cas.myLeases.get zone false ∨ t.zone ≠ zone ∨ unit < t.off ∨ t.n ≤ j ∨ t.complete ∨ t.data.has j then s
      else
        let t1 := { t with data := t.data.put j (Sealed.taken content md) }
        let s1 := { s.flits (ubpelPort 0) (dramPort j) unitFlits with staging := s.staging.put stamp t1 }
        let s2 := if t1.dropped then s1 else s1.foldStaged t1 j
        if t1.data.length < t1.n then s2
        else ((s2.stageDone stamp).versSettle zone stamp t1.off t1.n).casSend 0 0 0x21 16 [stamp])

/-- A fence or an exclusion of the chip has been stamped, and waits for its commit. -/
def State.fenceStamped (s : State) (c : Nat) : Bool :=
  s.eventWaits fun e => match e with | .fence k _ => k == c | .casAct k a => k == c && a == 1 | _ => false

/-- STAGED at the crown (R21, R329): the write is complete; after a stamped fence it is discarded (R331). The crown's own
staging of it is then no longer needed. -/
def execStaged (f : Frame) (stamp : Nat) (s : State) : Host.Outcome State Fault Refusal :=
  .next (s.crownIn f fun s c =>
    match s.staging.look stamp with
    | some t =>
      if (s.member c).st ≠ .active ∨ s.fenceStamped c ∨ s.zoneChip t.zone ≠ c ∨ t.complete ∨ t.data.length < t.n then s
      else (s.stageDone stamp).releaseUnits stamp (List.range t.n)
    | none => s)

/-- The command of a context that serves a read of the crown: a Read, of which no other field is used. -/
def SqEntry.reading : SqEntry :=
  { opc := 2, fuse := 0, psdt := 0, cid := 0, nsid := 0, cdw2 := 0, cdw3 := 0, mptr := 0, dptr0 := 0, dptr1 := 0
    cdw10 := 0, cdw11 := 0, cdw12 := 0, cdw13 := 0, cdw14 := 0, cdw15 := 0 }

/-- The meter records that a member returns, 4 KiB to a READ_DATA; none from a halted island (R329, R354). -/
def State.meterReply (s : State) (req n len : Nat) : State :=
  let l := s.mtr.fetch n len
  (List.range (ceilDiv len 4096)).foldl (fun (t : State) u =>
    t.casSend 0 2 0x31 4112 ([req, u, if s.mtr.halt = 0 then 1 else 0] ++
      (l.filter fun x => decide (x.1 < 4096 * u + 4096) && decide (4096 * u < x.1 + x.2.1)).flatMap fun x => [x.1, x.2.1, x.2.2])) s

/-- READ_REQ at a member: a unit of a zone, which goes the way of any read here and is answered once it is released (R239, R329);
or its meter records (zone 2^64), or their acknowledgement (2^65): DESIGN CHOICE, the spec gives READ_REQ no form for these. -/
def execReadReq (f : Frame) (req zone : Nat) (units : Nat × Nat) (s : State) : Host.Outcome State Fault Refusal :=
  .next (s.memberIn f fun s =>
    if zone = 2 ^ 65 then (match execMtrAck (BitVec.ofNat 64 units.1) s with | .next t => t | _ => s)
    else if zone = 2 ^ 64 then s.meterReply req units.1 units.2
    else
      let c := s.ctxs.freeFrom 0
      let x : Ctx := { q := memberQ, e := SqEntry.reading, seqNo := req, phase := .stamped, committed := true, zone := zone, units := units.1
                       runits := [(0, { (s.zone zone).readUnit zone units.1 s.geom.u with entered := s.now })] }
      { s with ctxs := s.ctxs.put c x })

/-- READ_DATA at the crown: the unit is released to its command, or the member has not been able to; the data of a Meter Fetch
goes out as it comes. -/
def execReadData (f : Frame) (ctx unit : Nat) (content : Option Nat) (md : Nat) (s : State) : Host.Outcome State Fault Refusal :=
  .next (s.crownIn f fun s c =>
    match s.ctxs.look ctx with
    | none => s
    | some x =>
      if x.phase ≠ .stamped then s
      else if x.e.opc = 0xca ∧ x.q = 0 then
        if x.moved.contains unit ∨ x.units ≤ unit ∨ x.e.cdw1213 / 2 ^ 62 ≠ c then s
        else match content with
        | none => s.finish ctx stInternal
        | some v =>
          let s1 := (s.ctxEdit ctx fun y => { y with moved := insNat unit y.moved }).say (.hostData ctx (unit * 4096) 4096 [(0, 4096, v)])
          if x.units ≤ x.moved.length + 1 then s1.finish ctx stOk else s1
      else
        match x.runits.look unit with
        | none => s
        | some r =>
          if r.st ≠ .queued ∨ r.op.isSome ∨ s.zoneChip x.zone ≠ c then s
          else match content with
          | some v => ((s.flits (ubpelPort f.port) (sramPort unit) unitFlits).runitEdit ctx unit fun q => { q with made := some (unitWord v md) }).unitRelease ctx unit false
          | none => s.unrecovered ctx unit)

/-! ### Time and digests (R332, R333) -/

/-- TIME_SEND: every 10 ms; the round trip that the crown measures is not an input of this command: a free value. -/
def execTimeSend (port : Nat) (s : State) : Host.Outcome State Fault Refusal :=
  if !s.cas.crown ∨ !s.linkJoined (port + 1) ∨ s.pwr.st ≠ 0 ∨ 3 ≤ s.brm.st then .next s
  else .next ((s.freeStep).casSend port 0 0x12 16 [s.now + s.freeVal / 2])

/-- TIME at a member: a step beyond 10 ms, else a slew of at most 100 µs per second, 1 µs in the 10 ms of an exchange. -/
def execTimeFrame (f : Frame) (crownNs rttNs : Nat) (s : State) : Host.Outcome State Fault Refusal :=
  .next (s.memberIn f fun s =>
    let diff : Int := (crownNs + rttNs / 2 : Nat) - (s.now : Int)
    if 10000000 < diff ∨ diff < -10000000 then { s with now := crownNs + rttNs / 2 }
    else
      let adj := max (-1000) (min 1000 diff)
      { s with now := (s.now + adj).toNat })

/-- DIGEST at the crown (R332, R333, R335 step 6): compared with the crown's latch at the same check stamp; it waits for
that latch, and for a stamp where the comparison asks for one. -/
def execDigest (f : Frame) (check : Nat) (shared : BitVec 256) (islandNs : Nat) (s : State) : Host.Outcome State Fault Refusal :=
  if s.gate.tickCheck < check ∨ !s.canStamp then .next s
  else .next (s.crownIn f fun s c =>
    let ms : Int := ((islandNs : Int) - (s.now : Int)) / 1000000
    let idle := !s.staging.any fun _ t => !t.complete && s.zoneChip t.zone == c
    let s1 := s.memEdit c fun m => { m with drift := ms, idle := idle }
    let s2 := if 1000 < ms ∨ ms < -1000 ∨ 10 ^ 9 < islandNs - s.now ∨ 10 ^ 9 < s.now - islandNs then s1.fire 182 [(ms % 2 ^ 32).toNat] else s1
    let m := s2.member c
    if check ≠ s.gate.tickCheck ∨ (m.resync = 2 ∧ check ≤ m.snapAt) then s2
    else
      let ok := decide (shared = s.gate.tickShared)
      let s3 := { s2.memEdit c (fun m => { m with shared := shared, check := check, matched := ok, misses := if ok then 0 else m.misses }) with
        cas := { (s2.memEdit c (fun m => { m with shared := shared, check := check, matched := ok, misses := if ok then 0 else m.misses })).cas with
          lastCheck := check, lastShared := s.gate.tickShared } }
      if ok then (if m.resync = 2 then s3.casEvent (.unfence c) else s3)
      else
        let s4 := s3.fire 183
        if m.st = .active then s4.memberFence c 1
        else if m.resync = 2 then s4.memEdit c fun m => { m with resync := 1 } else s4)

/-- SAG at the crown (R336): the fence of reason 5 is stamped at once. -/
def execSag (f : Frame) (s : State) : Host.Outcome State Fault Refusal :=
  if !s.canStamp then .next s
  else .next (s.crownIn f fun s c => if (s.member c).st = .active then s.memberFence c 5 else s)

/-! ### Media events of a member (R215, R329) -/

/-- MEDIA_EVENT at the crown: it is stamped, and acts on the crown's tables as the crown's own events do. -/
def execMediaEvent (f : Frame) (k : MediaKind) (s : State) : Host.Outcome State Fault Refusal :=
  if !s.canStamp then .next s
  else .next (s.crownIn f fun s c =>
    let go := fun (s : State) (e : SysEv) => (if s.eventWaits (· == e) then s else s.enterSys e).sysGo
    match k with
    | .dieFail d cause => if s.dieGood (dieKey c (d % 1024)) then go s (.dieFail (dieKey c (d % 1024)) cause) else s
    | .programFail d b => go s (.blockFail (blkKey (dieKey c (d % 1024)) (b % 8192)) 1 false)
    | .eraseFail d b => go s (.blockFail (blkKey (dieKey c (d % 1024)) (b % 8192)) 2 true)
    | .rowRebuilt zk row =>
      match s.par.queue.find? fun q => q.zone == zk && q.row == row with
      | none => s
      | some q => go { s with par := { s.par with queue := s.par.queue.map fun q => if q.zone = zk ∧ q.row = row then { q with done := true } else q } }
          (.rebuilt zk row q.slc)
    | .migrated zk => if s.zoneChip zk = c ∧ (s.zone zk).migOld.isSome then go s (.migrated zk) else s
    | .zoneLost zk => if s.zoneChip zk = c then go s (.zoneLost zk) else s)

/-! ### CAS_CTL (R328) -/

/-- The action is accepted from the member's state. -/
def State.casOk (s : State) (c action : Nat) (m : Member) : Bool :=
  if action = 1 then m.st != .excluded
  else if action = 2 then m.st == .excluded
  else if action = 3 then m.st == .active
  else s.linkJoined c && (m.st == .fenced || (m.st == .held && s.versionsMatch c))

/-- An action that CAS_CTL names on a chip (R328): refused, or stamped; while no stamp can be issued it waits, and BUSY reads 1. -/
def State.casAction (s : State) (c action : Nat) : State :=
  if s.cas.todo.isSome then s
  else
    match (if s.cas.crown then s.cas.members.look c else none) with
    | none => { s with cas := { s.cas with result := 1 } }
    | some m =>
      if !s.casOk c action m then { s with cas := { s.cas with result := 1 } }
      else if !s.canStamp then { s with cas := { s.cas with todo := some (c, action) } }
      else
        let s1 := { s with cas := { s.cas with result := 0 } }
        if action = 3 then s1.memberFence c 4 else s1.casEvent (.casAct c action)

/-- The action that waits for a stamp is taken up. -/
def State.casPay (s : State) : State :=
  match s.cas.todo with
  | some (c, a) => if s.canStamp then { s with cas := { s.cas with todo := none } }.casAction c a else s
  | none => s

/-- Exclude (R328): the link is taken down and stays down. -/
def execExcludeChip (chip : Nat) (s : State) : Host.Outcome State Fault Refusal := .next (s.casAction chip 1)

/-- Include (R328): the link trains again. -/
def execIncludeChip (chip : Nat) (s : State) : Host.Outcome State Fault Refusal := .next (s.casAction chip 2)

/-- Fence (R328). -/
def execFenceChip (chip : Nat) (s : State) : Host.Outcome State Fault Refusal := .next (s.casAction chip 3)

/-- Resync (R328, R335): from FENCED with the link up, or from HELD once versions match. -/
def execResyncChip (chip : Nat) (s : State) : Host.Outcome State Fault Refusal := .next (s.casAction chip 4)

/-! ### Stop (R366) -/

/-- STOP_ORDER: a member enters Stop. -/
def execStopOrder (f : Frame) (s : State) : Host.Outcome State Fault Refusal :=
  .next (s.memberIn f fun s => if s.pwr.st = 0 then s.enterStop else s)

end Sys2Proof.Machine
end

