-- ==== Sys2Proof/Machine/Ticks.lean ====
section
/-! DEFINITION. The internal ticks of the crown's gate (R33): stamping the staging tick and the check tick, whose effects come at
their commits; the layout seed commit (R168); the wake that stamps one tick of each kind (R370); and the commits of entries at
their commit points (R38). -/

namespace Sys2Proof.Machine

open Sys2Proof

/-- Ticks are stamped by the crown's running gate. -/
def State.tickReady (s : State) : Bool := s.gate.adminOk && s.canStamp && s.pwr.st == 0 && decide (s.brm.st < 3)

/-- A staging tick with its span in ns is stamped (R33). -/
def State.stagingAt (s : State) (span : Nat) : State :=
  let t := s.alarmPay.casPay.enterSys (.staging span)
  ({ t with gate := { t.gate with lastStaging := t.now } }).sysGo

/-- STAGING_TICK (R33): 10 ms of crown time. -/
def execStagingTick (s : State) : Host.Outcome State Fault Refusal :=
  if s.tickReady then .next (s.stagingAt 10000000) else .next s

/-- A check tick with its span in seconds is stamped; it closes the epoch, and the digests are latched at it (R33, R34, R49). -/
def State.checkAt (s : State) (secs : Nat) : State :=
  let t := ({ s with gate := { s.gate with latchWait := s.gate.latchWait ++ [s.gate.next] } }).enterCfg (.check secs)
  ({ t with gate := { t.gate with lastCheck := t.now } }).sysGo

/-- CHECK_TICK (R33): 1 s of crown time. A self-contained activation whose commit has ended meanwhile resets the chip (R441). -/
def execCheckTick (s : State) : Host.Outcome State Fault Refusal :=
  if s.tickReady then .next (s.checkAt 1).selfCheck else .next s

/-- ZNE_CFG_COMMIT: the configuration commit of the shadow seed is stamped; PENDING until it commits (R168, R170). -/
def execZneCfgCommit (s : State) : Host.Outcome State Fault Refusal :=
  if s.zne.pending || !s.tickReady then .next s
  else .next (({ s with zne := { s.zne with pending := true } }).enterCfg .seed).sysGo

/-- COMMIT: an entry commits at a commit point (R38); the ticks and media events before it and after it commit with it, as soon
as no lower entry is left. -/
def execCommit (stamp zone : Nat) (s : State) : Host.Outcome State Fault Refusal := .next ((s.sysGo.commitAt stamp zone).sysGo)

/-! ### Wake (R368, R370) -/

/-- Bit of PWR_WAKE.CAUSE, in the order of the table of R368. -/
def wakeBit : WakeSrc → Nat
  | .pcie => 0 | .perst => 1 | .sag => 2 | .heather => 3 | .alarm => 4 | .quornany => 5 | .brimTimer => 6 | .i3c => 7

/-- WAKE: back to Run after `elapsedNs`, the two catch-up ticks, a lease renew to each member, and what waited for the wake:
held messages and in-band interrupts (R370, R366, R455, R456). The load that the always-on domain drew is a free value. -/
def execWake (src : WakeSrc) (elapsedNs : Nat) (s : State) : Host.Outcome State Fault Refusal :=
  if s.pwr.st ≠ 2 then .next s
  else
    let now := s.now + elapsedNs
    let s1 := { s with
      now := now
      pwr := { s.pwr with st := 0, lowreg := false, wakeCause := BitVec.ofNat 8 (2 ^ wakeBit src), aoPeak := s.freeVal % 256 }
      free := s.free + 1
      drc := { s.drc with srState := 0, srMaxWait := max s.drc.srMaxWait (s.freeVal / 256 % 2501) }, mon := { s.mon with stopFrame := false }
      mtr := { s.mtr with time := if s.mtr.run then s.mtr.time + elapsedNs else s.mtr.time } }
    let s2 := (s1.cas.members.keysWhere fun c m => m.st == .active && s1.linkJoined c).foldl (fun (s : State) c =>
      (s.casSend (portOf c) 0 0x11 16 [2]).memEdit c fun m => { m with waitRenew := true, lastRenew := s.now }) s1
    let s3 := if s2.tickReady then s2.stagingAt (now - s2.gate.lastStaging) else s2
    let s4 := if s3.tickReady then s3.checkAt ((now - s3.gate.lastCheck) / secNs) else s3
    .next s4.msiCatchUp.ibiEval

end Sys2Proof.Machine
end

