-- ==== Sys2Proof/Machine/Host.lean ====
section
/-! DEFINITION. The host link (R51-R61), the NVMe controller (R62-R64) and their resets (R54), with MSI-X masking (R455) and
the Keep Alive timer (R65, R72). -/

namespace Sys2Proof.Machine

open Sys2Proof

/-! ### Resets (R54) -/

/-- A fetched command that has no stamp is discarded; the completion of any other will be. Both count as lost (R86). -/
def State.ctxDrop (s : State) (c : Nat) : State :=
  match s.ctxs.look c with
  | none => s
  | some x =>
    if x.phase = .fetched ∨ s.nvme.aers.contains c then
      ({ s.countLost x.q with nvme := { s.nvme with aers := s.nvme.aers.filter (· != c) } }).ctxFree c
    else s.ctxDiscard c

/-- The registers of the controller and its features after a controller reset (R62, R72): the saved values of C0h and C1h. -/
def Nvme.reset (n : Nvme) (nq stopIdle : Nat) (strict fatal : Bool) : Nvme :=
  { n with
    cc := n.cc &&& ~~~1, rdy := false, cfs := fatal, shst := 0, shutDone := false, aers := [], aens := [], dbErr := false
    arbitration := 0, tempOver := [], tempUnder := [], tler := 0, coalesce := 0, ivConfig := [], aenCfg := 0, kato := 0
    nQueues := nq, stopIdle := stopIdle, strictDef := strict }

def State.nvmeReset (s : State) : State :=
  let idle := s.nv.savedC0.getD (match s.img with | some i => i.stopIdle | none => 0)
  { s with nvme := s.nvme.reset ((s.pfCount - 1) * 65537) idle (s.nv.savedC1.getD true) (decide (3 ≤ s.brm.st) && s.brm.saveKind == 4) }

/-- A namespace whose deletion had no stamp stays (R75). -/
def State.deletesDrop (s : State) : State :=
  { s with nss := s.nss.mapV fun _ n => match n.deleting with
      | some c => if s.ctxs.has c then n else { n with deleting := none }
      | none => n }

/-- The PF controller resets: its queues are deleted, its commands completed or discarded. -/
def State.pfReset (s : State) : State :=
  let s1 := forNats (s.ctxs.keysWhere fun _ x => decide (x.q < 1024)) s State.ctxDrop
  ({ s1 with
    sqs := s1.sqs.filter fun p => decide (1024 ≤ p.1), cqs := s1.cqs.filter fun p => decide (1024 ≤ p.1)
    qrecs := s1.qrecs.filter fun p => decide (1024 ≤ p.1) }.deletesDrop).nvmeReset

/-- Every slice is frozen with reason 2; its commands without a stamp are discarded, the completions of the others will be. -/
def State.slicesReset (s : State) : State :=
  let s1 := s.freezeAll 2
  forNats (s1.ctxs.keysWhere fun _ x => decide (1024 ≤ x.q)) s1 State.ctxDrop

/-- Configuration space and the MSI-X table after a function reset. -/
def State.functionReset (s : State) : State :=
  { s with
    pci := { ({} : Pci) with rate := s.pci.rate, width := s.pci.width, flit := s.pci.flit, perstN := s.pci.perstN
                             faultReg := s.pci.faultReg, faultCnt := s.pci.faultCnt }
    nvme := { s.nvme with aqa := 0, asq := 0, acq := 0, cc := 0 }
    evt := { s.evt with unmasked := [], msixTbl := [], fmask := true, pba := [] } }

/-- A host reset (R54). -/
def State.hostReset (s : State) : State := (((s.slicesReset).pfReset).functionReset).saveGo

/-- The link goes down (R80). -/
def State.pcieDrop (s : State) : State := { s with pci := { s.pci with rate := 0, width := 0, flit := false } }

/-- PERST_N_ASSERTED (R54). -/
def execPerstAsserted (s : State) : Host.Outcome State Fault Refusal :=
  let s1 : State := s.pcieDrop.hostReset
  .next { s1 with pci := { s1.pci with perstN := false } }

/-- PERST_N_DEASSERTED (R423): the link may train. -/
def execPerstDeasserted (s : State) : Host.Outcome State Fault Refusal := .next { s with pci := { s.pci with perstN := true } }

/-- FUNCTION_LEVEL_RESET (R54): no link retraining. -/
def execFunctionLevelReset (s : State) : Host.Outcome State Fault Refusal := .next s.hostReset

/-- HOT_RESET, or the link down without PERST_N (R54). -/
def execHotReset (s : State) : Host.Outcome State Fault Refusal := .next s.pcieDrop.hostReset

/-- PASID_ENABLE_CLEARED (R60): with any slice, every slice is frozen with reason 3. -/
def execPasidEnableCleared (s : State) : Host.Outcome State Fault Refusal :=
  .next ({ s with pci := { s.pci with pasidEn := false } }.freezeAll 3)

/-! ### CC.EN (R62-R64) -/

/-- CC_EN_CLEAR (R54): slices and media work are untouched. -/
def execCcEnClear (s : State) : Host.Outcome State Fault Refusal := .next s.pfReset.saveGo

/-- After a shutdown the next CC.EN starts from the saved state as after a clean stop (R64). -/
def State.resumeSaved (s : State) : State :=
  let s1 : State := { s with
    zones := s.zones.mapV fun _ z => z.overStop, slices := s.slices.mapV fun _ x => x.overStop
    sqs := [], cqs := [], qrecs := [], ctxs := [], staging := []
    bpm := { s.bpm with bufs := [], rdHeld := [], waits := [] }
    dma := { s.dma with fences := s.dma.fences.filter fun f => f.1 == 4 }
    par := { s.par with acc := [], cache := [] }
    gate := { s.gate with entries := [], latchWait := [], stopped := false, dirty := 0 }
    nv := { s.nv with clean := false, fatalSaved := false, savedLog := none }
    brm := { s.brm with st := 0 } }
  (s1.recoverClean).eraseRest

/-- The admin queue from AQA, ASQ and ACQ: its completion queue interrupts on table entry 0. -/
def State.adminQueues (s : State) : State :=
  let a := s.nvme.aqa.toNat
  let sq : Sq := { base := s.nvme.asq, size := bitsAt a 0 12, cq := 0, en := true, enabled := true }
  let cq : Cq := { base := s.nvme.acq, size := bitsAt a 16 12, ien := true, iv := 0 }
  { s with sqs := s.sqs.put 0 sq, cqs := s.cqs.put 0 cq }

/-- The fields of CC that R62 lists; the others are 0 and reserved. -/
def ccMask (cc : Dword) : Dword := cc &&& 0x01ffc7f1

/-- CC is written, EN apart: a CSS other than 110b sets CFS (R62). -/
def State.ccPut (s : State) (cc : Dword) : State :=
  { s with nvme := { s.nvme with cc := ccMask cc, cfs := s.nvme.cfs || bitsAt cc.toNat 4 3 != 6 } }

/-- CC_EN_SET (R62-R64). -/
def execCcEnSet (cc : Dword) (s : State) : Host.Outcome State Fault Refusal :=
  let cc := ccMask cc ||| 1
  if !s.linkUp ∨ s.inStop ∨ s.pci.d3hot then .next s
  else if s.nvme.cc.getLsbD 0 then .next (s.ccPut cc)
  else if s.upd.stage = 15 ∨ bitsAt cc.toNat 4 3 ≠ 6 then .next { s with nvme := { s.nvme with cc := cc, cfs := true } }
  else
    let s1 : State := if s.brm.st = 4 ∧ s.brm.saveKind = 3 then s.resumeSaved else s
    let s2 : State := { s1 with
      nvme := { s1.nvme with cc := cc, rdy := if cc.getLsbD 24 then s1.gate.adminOk else s1.gate.ioOk } }
    .next s2.adminQueues

/-- RDY_BOUND (R63): 100 s after CC.EN or the admin milestone. -/
def execRdyBound (s : State) : Host.Outcome State Fault Refusal :=
  if s.nvme.cc.getLsbD 0 && !s.nvme.cfs && s.gate.adminOk then .next { s with nvme := { s.nvme with rdy := true } } else .next s

/-! ### The link and its interrupts (R51, R455) -/

/-- The rates and widths at which the link stands (R51): 16, 32 or 64 GT/s, the lower ones being for training only; Flit mode
always at 64 GT/s. -/
def linkOk (rate width : Nat) (flit : Bool) : Bool :=
  decide (4 ≤ rate) && decide (rate ≤ 6) && (width == 1 || width == 2 || width == 4 || width == 8) && (rate != 6 || flit)

/-- PCIE_LINK_UP (R455): a crown's link, or that of a chip whose boot has stopped. -/
def execPcieLinkUp (rate width : Nat) (flit : Bool) (s : State) : Host.Outcome State Fault Refusal :=
  if !s.pci.perstN ∨ !s.powered ∨ s.inStop ∨ !linkOk rate width flit ∨ (!s.cas.crown ∧ s.upd.stage ≠ 15) then .next s
  else
    let s1 := { s with pci := { s.pci with rate := rate, width := width, flit := flit } }.msiCatchUp
    .next (forNats (s1.slices.map (·.1)) s1 State.noticeFlush)

/-- Send a message held in the pending bit array, once neither the vector nor the function is masked. -/
def State.pbaSend (s : State) (v : Nat) : State :=
  if s.evt.pba.contains v && !s.evt.fmask && s.evt.unmasked.contains v && s.linkUp && !s.inStop then
    ({ s with evt := { s.evt with pba := s.evt.pba.filter (· != v) } }).say (.msi v)
  else s

/-- VECTOR_UNMASK (R455): a vector, or the function. -/
def execVectorUnmask (vec : Option Nat) (s : State) : Host.Outcome State Fault Refusal :=
  match vec with
  | some v => if 2048 ≤ v then .next s
              else .next ({ s with evt := { s.evt with unmasked := insNat v s.evt.unmasked } }.pbaSend v)
  | none => .next (forNats s.evt.pba { s with evt := { s.evt with fmask := false } } State.pbaSend)

/-- FUNCTION_POWER_STATE_CHANGE (R51, R56): D0 or D3hot, with PME enabled or not. -/
def execFunctionPowerStateChange (d3hot pme : Bool) (s : State) : Host.Outcome State Fault Refusal :=
  if !s.linkUp then .next s else .next { s with pci := { s.pci with d3hot := d3hot, pmeEn := pme } }

/-- WAKE_N is driven low (R56): an Asynchronous Event Request completion is pending in D3hot with PME enabled. -/
def State.wakeDriven (s : State) : Bool :=
  s.pci.d3hot && s.pci.pmeEn && s.ctxs.any fun _ x => decide (x.q = 0) && x.e.opc == 0x0c && x.phase == .done

/-! ### Configuration space (R51, R52, R57, R60) -/

/-- log2 of the sizes of BAR0, BAR2 and BAR4 (R57). -/
def barLog (i : Nat) : Nat := if i = 0 then 17 else if i = 1 then 26 else 24

/-- The timeout in effect for a value of Device Control 2, in µs, where it is one of Ranges A and B (R52). DESIGN CHOICE: PCI
Express gives each value a range of durations; the longest is taken, but for the default, which is 50 ms. -/
def ctoOf (v : Nat) : Option Nat :=
  match v % 32 with
  | 0 => some 50000 | 1 => some 100 | 2 => some 10000 | 5 => some 55000 | 6 => some 64000 | _ => none

/-- Write a register of configuration space. Fields of other widths or of capabilities that R51 does not list are absent. -/
def State.cfgWrite (s : State) (r : CfgReg) (v : Nat) : State :=
  match r with
  | .command => { s with pci := { s.pci with memEn := v.testBit 1, bme := v.testBit 2 } }
  | .bar i =>
    if 6 ≤ i then s
    else
      let old := (s.pci.bars.getD (i / 2) 0).toNat
      let new := if i % 2 = 0 then old / 2 ^ 32 * 2 ^ 32 + v % 2 ^ 32 else old % 2 ^ 32 + v % 2 ^ 32 * 2 ^ 32
      { s with pci := { s.pci with bars := s.pci.bars.set (i / 2) (BitVec.ofNat 64 (new / 2 ^ barLog (i / 2) * 2 ^ barLog (i / 2))) } }
  | .devCtl => { s with pci := { s.pci with
      relaxed := v.testBit 4, mps := if bitsAt v 5 3 ≤ 2 then bitsAt v 5 3 else s.pci.mps
      mrrs := if bitsAt v 12 3 ≤ 5 then bitsAt v 12 3 else s.pci.mrrs } }
  | .devCtl2 => match ctoOf v with
    | some us => { s with pci := { s.pci with ctoVal := v % 16, ctoUs := us } }
    | none => s
  | .pasidCtl =>
    if v.testBit 0 then { s with pci := { s.pci with pasidEn := true } }
    else match execPasidEnableCleared s with | .next t => t | _ => s
  | .aerCtl => { s with pci := { s.pci with ecrcGen := v.testBit 6, ecrcChk := v.testBit 8 } }
  | .pmcsr =>
    if v % 4 = 0 ∨ v % 4 = 3 then (match execFunctionPowerStateChange (v % 4 == 3) (v.testBit 8) s with | .next t => t | _ => s)
    else s

/-- Read a register of configuration space: a BAR gives its address and its type, 64-bit and non-prefetchable; Device Control 2
its value, with Completion Timeout Ranges Supported, 0011b, in bits [19:16]: DESIGN CHOICE, one dword for the pair of registers. -/
def State.cfgRead (s : State) (r : CfgReg) : Nat :=
  let p := s.pci
  match r with
  | .command => (if p.memEn then 2 else 0) + if p.bme then 4 else 0
  | .bar i =>
    let b := (p.bars.getD (i / 2) 0).toNat
    if 6 ≤ i then 0 else if i % 2 = 0 then b % 2 ^ 32 + 4 else b / 2 ^ 32
  | .devCtl => (if p.relaxed then 16 else 0) + p.mps * 2 ^ 5 + p.mrrs * 2 ^ 12
  | .devCtl2 => p.ctoVal + 3 * 2 ^ 16
  | .pasidCtl => if p.pasidEn then 1 else 0
  | .aerCtl => (if p.ecrcGen then 64 else 0) + if p.ecrcChk then 256 else 0
  | .pmcsr => (if p.d3hot then 3 else 0) + if p.pmeEn then 256 else 0

/-! ### Keep Alive (R65, R72) -/

/-- KEEP_ALIVE_EXPIRY: an event, and no other effect. -/
def execKeepAliveExpiry (s : State) : Host.Outcome State Fault Refusal :=
  .next (if s.nvme.kato ≠ 0 ∧ s.nvme.cc.getLsbD 0 then s.fire 4 else s)

/-- Keep Alive: the timer starts again. -/
def execKeepAlive (ctx : Nat) (s : State) : Host.Outcome State Fault Refusal :=
  .next (s.admitAdmin ctx (fun e => e.opc == 0x18) fun s _ =>
    ({ s with nvme := { s.nvme with kaAt := s.now } }).adminDone ctx stOk)

end Sys2Proof.Machine
end

