-- ==== Sys2Proof/Machine/Admin.lean ====
section
/-! DEFINITION. Admin commands of the NVMe subset: Identify (R70, R71), features (R72), log pages (R73, R74, R137, R450,
R462), Asynchronous Event Request, Abort (R132, R133), namespaces (R75, R144, R500), Sanitize (R76), Key Rotate (R310) and
Cascade Status (R337). Structures go to the host as their fields that are not 0. -/

namespace Sys2Proof.Machine

open Sys2Proof

/-- One field of a structure: offset, bytes, value. -/
abbrev Fld := Nat × Nat × Nat

/-- Bytes as one little-endian number. -/
def leBytes (l : List Nat) : Nat := l.foldr (fun b n => b % 256 + n * 256) 0

/-- Bytes of the window `[off, off+len)` of a structure go to the host: its fields that touch the window. -/
def State.sendTo (s : State) (c off len : Nat) (l : List Fld) : State :=
  s.say (.hostData c off len (l.filter fun f => f.2.2 != 0 && decide (f.1 < off + len) && decide (off < f.1 + f.2.1)))

/-! ### Identify -/

/-- Dies populated across the cascade: this chip's, and what each member reported. -/
def State.diesAll (s : State) : Nat :=
  s.dies.count (fun k _ => dkChip k == 0) + s.cas.members.sum fun _ m => m.dies

/-- Raw flash capacity across the cascade in bytes (R71). -/
def State.rawBytes (s : State) : Nat := s.diesAll * s.geom.bdata * s.geom.blocks * 4096

/-- Chips named in the image. -/
def State.chips (s : State) : Nat := popcount s.cas.named.toNat 4

/-- The Yeldezon area (R71). -/
def State.yeldezonArea (s : State) : List Fld :=
  [ (3072, 2, 0x960), (3074, 1, 0xb0), (3075, 1, s.chips), (3076, 2, if s.rsv1023 then 1023 else 1024)
  , (3078, 1, (if s.rsv1023 then 1 else 0) + (if s.decl then 2 else 0)), (3080, 2, s.diesAll), (3082, 2, s.qpFree 1024)
  , (3084, 4, s.sharedFree), (3088, 2, 2047 - s.pfCount - s.sliceSum 1024 (·.vecCount)), (3090, 2, 0xff)
  , (3096, 8, s.brm.budget), (3104, 8, s.rawBytes)]

/-- Identify Controller (R70). -/
def State.idController (s : State) : List Fld :=
  match s.img with
  | none => []
  | some i =>
    let total := Config.userCapacity s.rawBytes
    let fr := match s.manifest with | some m => leBytes m.fr | none => 0
    [ (0, 2, i.vid), (2, 2, i.ssvid), (4, 20, leBytes i.sn), (24, 40, leBytes i.mn), (64, 8, fr), (73, 3, i.ieee), (77, 1, 9)
    , (78, 2, 1), (80, 4, 0x20000), (84, 4, 8000000), (88, 4, 3000000), (92, 4, 0x08000300), (256, 2, 0xc), (258, 1, 7)
    , (259, 1, 3), (260, 1, 4), (261, 1, 6), (262, 1, 255), (266, 2, 368), (268, 2, 383), (280, 16, total)
    , (296, 16, total - s.nss.sum fun _ n => n.nsze * 4096), (319, 1, 0xff), (328, 4, 3), (512, 1, 0x66), (513, 1, 0x44)
    , (516, 4, 4096), (520, 2, 4), (536, 4, 1), (540, 4, 4096), (768, 256, leBytes i.subnqn)] ++ s.yeldezonArea

/-- NPWG, NPWA and NOWS: data of a full sheaf row in blocks, minus 1. -/
def State.npwg (s : State) : Nat := 14 * s.geom.u - 1

/-- What every namespace has. -/
def State.idNsCommon (s : State) : List Fld :=
  [ (25, 1, 1), (27, 1, 2), (28, 1, 0x0d), (64, 2, s.npwg), (66, 2, s.npwg), (72, 2, s.npwg), (128, 4, 12 * 2 ^ 16)
  , (132, 4, 8 + 12 * 2 ^ 16)]

/-- Identify Namespace: no thin provisioning, so NCAP and NUSE are NSZE. -/
def State.idNs (s : State) (n : Ns) : List Fld :=
  [(0, 8, n.nsze), (8, 8, n.nsze), (16, 8, n.nsze), (26, 1, if n.lbaf1 then 1 else 0), (29, 1, n.dps)] ++ s.idNsCommon

/-- Identify Namespace of the ZNS command set: ZOC, MAR, MOR, and ZSZE of both formats. -/
def State.idZns (s : State) : List Fld :=
  [(0, 2, 1), (4, 4, 255), (8, 4, 255), (2816, 8, s.zsze), (2832, 8, s.zsze)]

/-- A list of namespace identifiers above one, as 32-bit words. -/
def State.nsList (s : State) (above : Nat) (f : Ns → Bool) : List Fld :=
  let l := s.nss.keysWhere fun k n => decide (above < k) && f n
  ((List.range 1024).zip l).map fun p => (4 * p.1, 4, p.2)

/-- The structure that CNS and CSI select, or the failure. DESIGN CHOICE (R70): "the namespace's NVM data" of CNS 05h with CSI 00h
are the fields of Identify Namespace, as with CNS 00h. -/
def State.identifyData (s : State) (e : SqEntry) : Except Status (List Fld) :=
  let cns := bitsAt e.cdw10.toNat 0 8
  let cnt := bitsAt e.cdw10.toNat 16 16
  let csi := bitsAt e.cdw11.toNat 24 8
  let csiOk := csi == 0 || csi == 2
  let one := fun (f : Ns → Bool) (g : Ns → List Fld) => match s.nss.look e.nsid with
    | some n => if f n then Except.ok (g n) else .ok []
    | none => if e.nsid = 0 ∨ 4096 < e.nsid then .error stInvNs else .ok []
  let list := fun (f : Ns → Bool) => if 0xfffffffe ≤ e.nsid then Except.error stInvNs else .ok (s.nsList e.nsid f)
  let ctl := fun (b : Bool) => Except.ok (if b ∧ cnt ≤ 1 then [(0, 2, 1), (2, 2, 1)] else [])
  if cns = 0x00 then (if e.nsid = 0xffffffff then .ok s.idNsCommon else one (·.attached) s.idNs)
  else if cns = 0x01 then .ok s.idController
  else if cns = 0x02 then list (·.attached)
  else if cns = 0x03 then one (·.attached) fun _ => [(0, 1, 4), (1, 1, 1), (4, 1, 2)]
  else if cns = 0x05 ∧ csiOk then
    (if csi = 0 then one (·.attached) s.idNs else if e.nsid = 0xffffffff then .ok s.idZns else one (·.attached) fun _ => s.idZns)
  else if cns = 0x06 ∧ csiOk then .ok []
  else if cns = 0x07 ∧ csiOk then (if csi = 2 then list (·.attached) else .ok [])
  else if cns = 0x08 then one (·.attached) fun _ => []
  else if cns = 0x10 then list fun _ => true
  else if cns = 0x11 then one (fun _ => true) s.idNs
  else if cns = 0x12 then ctl (match s.nss.look e.nsid with | some n => n.attached | none => false)
  else if cns = 0x13 then ctl true
  else if cns = 0x1c then .ok [(0, 8, 5)]
  else .error stInvField

/-- Identify. -/
def execIdentify (ctx : Nat) (s : State) : Host.Outcome State Fault Refusal :=
  .next (s.admitAdmin ctx (fun e => e.opc == 0x06) fun s x =>
    match x.e.dptrFault 4096 false with
    | some st => s.finish ctx st
    | none =>
      match s.identifyData x.e with
      | .error st => s.finish ctx st
      | .ok l => (s.sendTo ctx 0 4096 l).adminDone ctx stOk)

/-! ### Log pages -/

/-- Error Information, newest first (R73): the slice in bytes 28-29. -/
def State.pageErr (s : State) : List Fld :=
  ((List.range 256).zip s.nvme.errLog).flatMap fun (k, r) =>
    let o := 64 * k
    [(o, 8, r.count), (o + 8, 2, r.sqid), (o + 10, 2, r.cid), (o + 12, 2, (dword3 r.status false 0).toNat / 65536)
    , (o + 16, 8, r.lba), (o + 24, 4, r.nsid), (o + 28, 2, r.slice)]

/-- Critical Warning (R74). -/
def State.critWarn (s : State) : Nat :=
  (if s.spareAll < 25 then 1 else 0) + (if s.tempCrossed then 2 else 0)
  + (if s.par.queue ≠ [] ∧ s.dies.any (fun _ d => d.failed) then 4 else 0)
  + (if s.cas.members.any fun c _ => s.fenceRo c then 8 else 0) + (if s.brm.lowcap then 16 else 0)

/-- Host data in units of 512,000 bytes, rounded up. -/
def dataUnits (blocks : Nat) : Nat := ceilDiv (blocks * 4096) 512000

/-- Mean erase count of the blocks in use over rated cycles, in percent. -/
def State.pctUsed (s : State) : Nat :=
  let l := s.blocks.filter fun p => p.2.st != 0 && p.2.st != 1 && p.2.st != 14 && p.2.st != 15
  let rated := match s.img with | some i => i.media.rated | none => 0
  if l.length * rated = 0 then 0 else min 255 ((l.map fun p => p.2.erases).sum * 100 / (l.length * rated))

/-- SMART / Health Information (R74). -/
def State.pageSmart (s : State) : List Fld :=
  [ (0, 1, s.critWarn), (1, 2, (s.sensorK 0).getD 0), (3, 1, s.spareAll), (5, 1, s.pctUsed)
  , (32, 16, dataUnits s.nvme.unitsRead), (48, 16, dataUnits s.nvme.unitsWritten), (144, 16, s.nv.unsafe_)
  , (160, 16, s.nvme.mediaErrors)] ++ (List.range 8).map fun k => (200 + 2 * k, 2, (s.sensorK (k + 1)).getD 0)

/-- Firmware Slot Information: slots 1 and 2 are A and B. -/
def State.pageFw (s : State) : List Fld :=
  [ (0, 1, s.upd.booted + 1 + (if s.nv.next ≤ 1 then s.nv.next + 1 else 0) * 16), (8, 8, leBytes s.nv.slotFrA)
  , (16, 8, leBytes s.nv.slotFrB)]

/-- Commands Supported and Effects: CSUPP of every command of R65, R66 and R69. -/
def pageEffects : List Fld :=
  ((List.range 256).filter adminOpcode).map (fun o => (4 * o, 4, 1)) ++ ((List.range 256).filter ioOpcode).map fun o => (1024 + 4 * o, 4, 1)

/-- Sanitize Status. While a sanitize runs its progress is not stated. -/
def State.pageSani (s : State) : List Fld :=
  let st := if s.nvme.sani = 1 then 2 else if s.nvme.sani = 2 then 1 else s.nvme.sani
  [(0, 2, if s.nvme.sani = 1 then s.freeVal % 65535 else 0xffff), (2, 2, st), (4, 4, s.nvme.saniDw.toNat)]

/-- Changed Zone List of a namespace. -/
def State.pageZones (s : State) (n : Ns) : List Fld :=
  let l := n.changedZones
  if 511 < l.length then [(0, 2, 0xffff)]
  else (0, 2, l.length) :: ((List.range 511).zip l).map fun p => (8 + 8 * p.1, 8, p.2 * s.zsze)

/-- Changed Namespace List: beyond 1,024 entries only the mark for it. -/
def State.pageChanged (s : State) : List Fld :=
  if 1024 < s.nvme.changedNs.length then [(0, 4, 0xffffffff)]
  else ((List.range 1024).zip s.nvme.changedNs).map fun p => (4 * p.1, 4, p.2)

/-- The namespaces attached to the controller change (R70, R73): with the first since the list was read comes the Namespace
Attribute notice. -/
def State.nsChanged (s : State) (id : Nat) : State :=
  let first := s.nvme.changedNs.isEmpty
  let s1 := { s with nvme := { s.nvme with changedNs := insNat id s.nvme.changedNs } }
  if first then s1.aenRaise 2 0 0x04 else s1

/-- One queue error record at its index (R137); zeros until the queue freezes, and always for queue 0. -/
def State.qrecFields (s : State) (q : Nat) (r : QRec) : List Fld :=
  if r.freezes = 0 ∨ q = 0 then []
  else
    let o := 256 * q
    let seen := match s.sqs.look q with | some y => y.frozenSeen | none => false
    let held := s.ctxs.count fun _ x => x.q == q && x.phase == .fetched
    [ (o, 2, qIndex q), (o + 2, 2, if 1024 ≤ q then qOwner q + 32768 else 0), (o + 4, 1, if seen then 1 + (if r.overflow then 2 else 0) else 0)
    , (o + 5, 1, if seen then r.entries.length else 0), (o + 6, 2, if seen then held else 0), (o + 8, 2, if seen then s.inflight q else 0)
    , (o + 12, 4, r.freezes), (o + 16, 8, r.freezeStamp)] ++
    ((List.range 7).zip (if seen then r.entries else [])).flatMap fun (k, e) =>
      let b := o + 32 + 32 * k
      [ (b, 2, e.cid), (b + 2, 1, e.opc), (b + 3, 1, e.flags), (b + 4, 4, e.dw3.toNat), (b + 8, 8, e.stamp), (b + 16, 8, e.slba)
      , (b + 24, 2, e.nlb), (b + 26, 1, e.check), (b + 28, 4, e.dw0.toNat)]

def qrecBytes : Nat := 33816576

/-- The records whose bytes a window touches. -/
def State.pageQrec (s : State) (off len : Nat) : List Fld :=
  s.qrecs.flatMap fun (q, r) => if 256 * q < off + len ∧ off < 256 * q + 256 then s.qrecFields q r else []

/-- The words of a record (R458). -/
def LogRec.words (r : LogRec) : List Nat :=
  [ r.time, r.stamp
  , r.source * 2 ^ 48 + r.code * 2 ^ 40 + (if r.stamped then 2 ^ 32 else 0) + (if r.restored then 2 ^ 33 else 0) + r.owner
  , r.arg0.toNat, r.arg1.toNat, r.arg2.toNat, r.arg3.toNat, (if r.valid then 2 ^ 63 else 0) + r.seq]

/-- The Tussock log (R462). -/
def State.pageTussock (s : State) : List Fld :=
  [(0, 4, s.log.next), (4, 4, s.log.dropped), (8, 4, s.log.seq)] ++
  s.log.slots.flatMap fun (k, r) => ((List.range 8).zip r.words).map fun p => (64 + 64 * k + 8 * p.1, 8, p.2)

/-- The Failed Update Record (R450). -/
def State.pageFail (s : State) : List Fld :=
  (0, 4, s.nv.failCount) :: ((List.range 15).zip s.nv.failRecs).flatMap fun (k, r) =>
    let o := 64 + 64 * k
    [ (o, 4, r.time), (o + 4, 1, r.chip), (o + 5, 1, r.stage), (o + 6, 1, r.code), (o + 7, 1, r.slot), (o + 8, 4, r.fromRev)
    , (o + 12, 4, r.toRev), (o + 16, 2, r.ledger)]

/-- Length and content of a page, or the failure. -/
def State.logData (s : State) (e : SqEntry) (off len : Nat) : Except Status (Nat × List Fld) :=
  let lid := bitsAt e.cdw10.toNat 0 8
  if lid = 0x01 then .ok (16384, s.pageErr)
  else if lid = 0x02 then .ok (512, s.pageSmart)
  else if lid = 0x03 then .ok (512, s.pageFw)
  else if lid = 0x04 then .ok (4096, s.pageChanged)
  else if lid = 0x05 then .ok (4096, pageEffects)
  else if lid = 0x81 then .ok (512, s.pageSani)
  else if lid = 0xbf then (match s.nss.look e.nsid with | some n => .ok (4096, s.pageZones n) | none => .error stInvNs)
  else if lid = 0xc0 then .ok (qrecBytes, s.pageQrec off len)
  else if lid = 0xc1 then .ok (524352, s.pageTussock)
  else if lid = 0xc2 then .ok (1024, s.pageFail)
  else .error stLogPage

/-- What a read of a page clears: the doorbell error (R501), the Changed Namespace List, the Changed Zone List, and with LSP bit 0 the log (R461). -/
def State.logRead (s : State) (e : SqEntry) : State :=
  let lid := bitsAt e.cdw10.toNat 0 8
  let rae := e.cdw10.getLsbD 15
  if lid = 0x01 ∧ !rae then { s with nvme := { s.nvme with dbErr := false } }
  else if lid = 0x04 ∧ !rae then { s with nvme := { s.nvme with changedNs := [] } }
  else if lid = 0xbf ∧ !rae then { s with nss := s.nss.edit e.nsid fun n => { n with changedZones := [] } }
  else if lid = 0xc1 ∧ e.cdw10.getLsbD 8 then s.logWipe
  else s

/-- Get Log Page (R65, R73). -/
def execGetLogPage (ctx : Nat) (s : State) : Host.Outcome State Fault Refusal :=
  .next (s.admitAdmin ctx (fun e => e.opc == 0x02) fun s x =>
    let e := x.e
    let len := (bitsAt e.cdw10.toNat 16 16 + bitsAt e.cdw11.toNat 0 16 * 65536 + 1) * 4
    let off := e.cdw1213
    match s.logData e off len with
    | .error st => s.finish ctx st
    | .ok (size, l) =>
      if off % 4 ≠ 0 ∨ size ≤ off ∨ 2097152 < len then s.finish ctx stInvField
      else
        match e.dptrFault len false with
        | some st => s.finish ctx st
        | none => (((s.sendTo ctx off len l).freeStep).logRead e).adminDone ctx stOk)

/-! ### Features (R72) -/

/-- Fields of CDW11 for Temperature Threshold: TMPSEL and THSEL. -/
def tempSel (v : Dword) : Nat := bitsAt v.toNat 16 4
def tempUnder (v : Dword) : Bool := bitsAt v.toNat 20 2 == 1

/-- A feature takes its value, or the failure; dword 0 is the reply. -/
def State.setFeature (s : State) (fid : Nat) (v : Dword) (save : Bool) : Except Status (State × Dword) :=
  let n := v.toNat
  let ok := fun (f : Nvme → Nvme) => (Except.ok ({ s with nvme := f s.nvme }, (0 : Dword)) : Except Status (State × Dword))
  if fid = 0x01 then ok fun m => { m with arbitration := bitsAt n 0 3 }
  else if fid = 0x02 then (if bitsAt n 0 5 = 0 then ok id else .error stInvField)
  else if fid = 0x04 then
    if (8 < tempSel v ∧ tempSel v ≠ 15) ∨ 2 ≤ bitsAt n 20 2 then .error stInvField
    else
      let ks := if tempSel v = 15 then List.range 9 else [tempSel v]
      let put := fun (t : Tbl Nat) => ks.foldl (fun t k => t.put k (bitsAt n 0 16)) t
      ok fun m => if tempUnder v then { m with tempUnder := put m.tempUnder } else { m with tempOver := put m.tempOver }
  else if fid = 0x05 then (if v.getLsbD 16 then .error stInvField else ok fun m => { m with tler := bitsAt n 0 16 })
  else if fid = 0x07 then
    if bitsAt n 0 16 = 0xffff ∨ bitsAt n 16 16 = 0xffff then .error stInvField
    -- once an I/O queue has been created the command comes too late (NVMe Base 2.0)
    else if (s.sqs.any fun k _ => decide (0 < k) && decide (k < 1024)) || s.cqs.any fun k _ => decide (0 < k) && decide (k < 1024) then .error stSequence
    else
      let r := min (bitsAt n 0 16) (s.pfCount - 1) + min (bitsAt n 16 16) (s.pfCount - 1) * 65536
      .ok ({ s with nvme := { s.nvme with nQueues := r } }, BitVec.ofNat 32 r)
  else if fid = 0x08 then ok fun m => { m with coalesce := bitsAt n 0 16 }
  else if fid = 0x09 then
    if s.pfCount < bitsAt n 0 16 then .error stInvField
    else ok fun m => { m with ivConfig := m.ivConfig.put (bitsAt n 0 16) (bitsAt n 16 1) }
  else if fid = 0x0b then (if v &&& ~~~0x080003ff = 0 then ok fun m => { m with aenCfg := v } else .error stInvField)
  else if fid = 0x0f then
    if n = 0 ∨ (1000 ≤ n ∧ n ≤ 3600000) then ok fun m => { m with kato := n, kaAt := s.now } else .error stInvField
  else if fid = 0xc0 then
    let ms := bitsAt n 0 14
    if ms = 0 ∨ 10000 < ms then .error stInvField
    else
      let s1 := { s with nvme := { s.nvme with stopIdle := ms } }
      .ok (if save then { s1 with nv := { s1.nv with savedC0 := some ms } }.ledger else s1, 0)
  else if fid = 0xc1 then
    let s1 := { s with nvme := { s.nvme with strictDef := v.getLsbD 0 } }
    .ok (if save then { s1 with nv := { s1.nv with savedC1 := some (v.getLsbD 0) } }.ledger else s1, 0)
  else .error stInvField

/-- Set Features; SV belongs to C0h and C1h alone (R500). -/
def execSetFeatures (ctx : Nat) (s : State) : Host.Outcome State Fault Refusal :=
  .next (s.admitAdmin ctx (fun e => e.opc == 0x09) fun s x =>
    let fid := bitsAt x.e.cdw10.toNat 0 8
    let sv := x.e.cdw10.getLsbD 31
    match s.setFeature fid x.e.cdw11 sv with
    | .error st => s.finish ctx st
    | .ok (s1, dw) => if sv ∧ fid ≠ 0xc0 ∧ fid ≠ 0xc1 then s.finish ctx stNotSaveable else s1.adminDone ctx stOk dw)

/-- A feature's value as it stands. DESIGN CHOICE (R72): the spec gives no default over-temperature threshold; 0xffff is taken for
every sensor, the composite one too. -/
def State.featureNow (s : State) (fid : Nat) (v : Dword) : Option Nat :=
  let m := s.nvme
  if fid = 0x01 then some m.arbitration
  else if fid = 0x02 then some 0
  else if fid = 0x04 then
    if 8 < tempSel v ∨ 2 ≤ bitsAt v.toNat 20 2 then none
    else some (if tempUnder v then m.tempUnder.get (tempSel v) 0 else m.tempOver.get (tempSel v) 0xffff)
  else if fid = 0x05 then some m.tler
  else if fid = 0x07 then some m.nQueues
  else if fid = 0x08 then some m.coalesce
  else if fid = 0x09 then
    let iv := bitsAt v.toNat 0 16
    if s.pfCount < iv then none else some (iv + m.ivConfig.get iv 0 * 65536)
  else if fid = 0x0b then some m.aenCfg.toNat
  else if fid = 0x0f then some m.kato
  else if fid = 0xc0 then some m.stopIdle
  else if fid = 0xc1 then some (if m.strictDef then 1 else 0)
  else none

/-- The state whose features are at their defaults, or at the saved values. -/
def State.featureBase (s : State) (saved : Bool) : State :=
  let idle := match s.img with | some i => i.stopIdle | none => 0
  let strict := if saved then s.nv.savedC1.getD true else true
  { s with nvme := s.nvme.reset ((s.pfCount - 1) * 65537) (if saved then s.nv.savedC0.getD idle else idle) strict false }

/-- Get Features: SEL 0 current, 1 default, 2 saved, 3 capabilities. -/
def execGetFeatures (ctx : Nat) (s : State) : Host.Outcome State Fault Refusal :=
  .next (s.admitAdmin ctx (fun e => e.opc == 0x0a) fun s x =>
    let fid := bitsAt x.e.cdw10.toNat 0 8
    let sel := bitsAt x.e.cdw10.toNat 8 3
    if 4 ≤ sel then s.finish ctx stInvField
    else
      let from_ := if sel = 1 then s.featureBase false else if sel = 2 then s.featureBase true else s
      match from_.featureNow fid x.e.cdw11 with
      | none => s.finish ctx stInvField
      | some n => s.adminDone ctx stOk (BitVec.ofNat 32 (if sel = 3 then (if fid = 0xc0 ∨ fid = 0xc1 then 5 else 4) else n)))

/-! ### Asynchronous Event Request and Abort -/

/-- Asynchronous Event Request: held until an event completes it; up to 4 outstanding (R65). -/
def execAsyncEventRequest (ctx : Nat) (s : State) : Host.Outcome State Fault Refusal :=
  .next (s.admitAdmin ctx (fun e => e.opc == 0x0c) fun s _ =>
    if 4 ≤ s.nvme.aers.length then s.finish ctx stAerLimit
    else
      let s1 := s.stampCtx ctx
      match s1.nvme.aens with
      | (t, i, p) :: l => ({ s1 with nvme := { s1.nvme with aens := l } }).finish ctx stOk
          (BitVec.ofNat 32 (t + i * 2 ^ 8 + p * 2 ^ 16))
      | [] => { s1 with nvme := { s1.nvme with aers := s1.nvme.aers ++ [ctx] } })

/-- The first command fetched from a queue with an identifier that has not completed (R132). -/
def State.abortTarget (s : State) (q cid : Nat) : Option (Nat × Ctx) :=
  s.ctxs.foldl (fun (r : Option (Nat × Ctx)) p =>
    if p.2.q = q ∧ p.2.e.cid = cid then
      match r with
      | some m => if p.2.seqNo < m.2.seqNo then some p else r
      | none => some p
    else r) none

/-- Abort (R132, R133). -/
def execAbort (ctx : Nat) (s : State) : Host.Outcome State Fault Refusal :=
  .next (s.admitAdmin ctx (fun e => e.opc == 0x08) fun s x =>
    let q := bitsAt x.e.cdw10.toNat 0 16
    let others := s.ctxs.count fun k y => k != ctx && decide (y.q = 0) && y.e.opc == 0x08 && y.stamped
    if 8 ≤ others then s.finish ctx stAbortLimit
    else
      match (if q = 0 ∨ 1024 ≤ q then none else s.abortTarget q (bitsAt x.e.cdw10.toNat 16 16)) with
      | none => s.adminDone ctx stOk 1
      | some (t, y) =>
        if !y.e.isBlock then s.adminDone ctx stOk 1
        else if y.phase = .fetched then
          ((s.stampCtx ctx).ctxEdit t fun z => { z with abortMark := true }).ctxEdit ctx fun z => { z with waitFor := some t }
        else if !y.stamped then s.adminDone ctx stOk 1
        else s.enter { kind := .abortE, ctx := ctx, owner := 1024, nsid := y.e.nsid
                       scopes := [zkey y.e.nsid (y.e.slba / max 1 s.zsze)], target := t })

/-! ### Namespaces -/

/-- The checks of R75 with those of R144; FLBAS names one of the two formats and DPS a type of R70. -/
def State.nsCreateCheck (s : State) (e : SqEntry) (d : NsData) : Option Status :=
  let o := d.owner.toNat % 1024
  let bySlice := d.owner.getLsbD 15
  let type := d.dps % 8
  if bitsAt e.cdw10.toNat 0 4 ≠ 0 then some stInvField
  else if e.nsid ≠ 0 then some stInvField
  else if bitsAt e.cdw11.toNat 24 8 ≠ 2 then some stInvField
  else if d.owner.toNat / 1024 % 32 ≠ 0 ∨ (bySlice ∧ ((s.slice o).st = .none ∨ (s.slice o).st = .destroying)) then some stInvField
  else if d.nsze ≠ d.ncap ∨ d.nsze = 0 ∨ d.nsze % s.zsze ≠ 0 ∨ d.nsze / s.zsze < d.conv then some stInvField
  else if 1 < d.flbas ∨ 16 ≤ d.dps ∨ ¬(type = 0 ∨ type = 1 ∨ type = 3) ∨ (type ≠ 0 ∧ d.flbas = 0) then some stInvField
  else if 4096 ≤ s.nss.length then some stNsIdUnavail
  else if bySlice ∧ (s.slice o).quotaProv ≠ 0 ∧ (s.slice o).quotaProv < s.provisioned o + d.nsze * 4096 then some stNsCapacity
  else none

/-- A namespace with its zones, all Empty. -/
def State.nsMake (s : State) (id : Nat) (d : NsData) : State :=
  let nz := d.nsze / max 1 s.zsze
  let n : Ns := { owner := if d.owner.getLsbD 15 then d.owner.toNat % 1024 else 1024, nsze := d.nsze, conv := d.conv
                  lbaf1 := decide (d.flbas = 1), dps := d.dps, pi := decide (d.dps % 8 ≠ 0), zoneBase := s.zne.zonesMade }
  let s1 := { s with nss := s.nss.put id n, zne := { s.zne with zonesMade := s.zne.zonesMade + nz } }
  (forNats (List.range nz) s1 fun s z => { s with
    zones := s.zones.put (zkey id z) { conv := decide (z < d.conv), cap := s.geom.nominal } }).ledger

/-- Namespace Management, create (R75); a SEL beyond delete is refused here. -/
def execNsCreate (ctx : Nat) (d : NsData) (s : State) : Host.Outcome State Fault Refusal :=
  .next (s.admitAdmin ctx (fun e => e.opc == 0x0d && bitsAt e.cdw10.toNat 0 4 != 1) fun s x =>
    match x.e.dptrFault 4096 false with
    | some st => s.finish ctx st
    | none =>
      match s.nsCreateCheck x.e d with
      | some st => s.finish ctx st
      | none =>
        let id := s.nss.freeFrom 1
        (s.nsMake id d).adminDone ctx stOk (BitVec.ofNat 32 id))

/-- A conventional zone's content goes: its rows, its log assignment, its quota and its key references. -/
def State.convGone (s : State) (zk stamp : Nat) : State :=
  let z := s.zone zk
  let live := z.vers.flatMap fun p => p.2.filter fun v => !v.dealloc
  let n := z.vers.count fun _ l => match l with | v :: _ => !v.dealloc | [] => false
  let s1 := live.foldl (fun (s : State) v => s.keyUnref (s.zoneOwner zk) v.gen 1) (s.quotaSub (s.zoneOwner zk) n)
  let s2 := ((((s1.dropProgs zk fun _ => true).discardStaged zk).accClear zk).rebClear zk)
  let s3 := [z.place, z.logRow].foldl (fun (s : State) p => match p with | some x => s.freePlace x | none => s) s2
  (s3.logReturn z.logRow).zoneEdit zk fun _ => { ({} : Zone) with conv := true, lastZsc := stamp }

/-- The namespace and its zones are gone (R75). -/
def State.nsGone (s : State) (id : Nat) : State :=
  let zs := s.zones.keysWhere fun k _ => zNsid k == id
  let s1 := forNats zs s fun s zk =>
    let a := if (s.zone zk).conv then s.convGone zk s.gate.next else s.zoneRelease zk s.gate.next
    (a.zoneEdit zk fun z => { z with zs := .empty }).leaseSync zk
  let was := match s.nss.look id with | some n => n.attached | none => false
  let s2 := { s1 with zones := s1.zones.filter fun p => zNsid p.1 != id, nss := s1.nss.del id }.ledger.migCheck
  if was then s2.nsChanged id else s2

/-- Commands in flight in the namespace's zones. -/
def State.nsBusy (s : State) (id : Nat) : Bool :=
  s.ctxs.any fun _ x => decide (x.q ≠ 0) && x.stamped && decide (x.e.nsid = id)

/-- The deletion ends once nothing is in flight. -/
def State.nsDeleteEnd (s : State) (id ctx : Nat) : State := if s.nsBusy id then s else (s.nsGone id).finish ctx stOk

/-- Namespace Management, delete (R75): stamped at its turn, it waits for the commands in flight. -/
def execNsDelete (ctx : Nat) (s : State) : Host.Outcome State Fault Refusal :=
  match s.nss.keysWhere fun _ n => n.deleting == some ctx with
  | id :: _ => .next (s.nsDeleteEnd id ctx)
  | [] => .next (s.admitAdmin ctx (fun e => e.opc == 0x0d && bitsAt e.cdw10.toNat 0 4 == 1) fun s x =>
      if (match s.nss.look x.e.nsid with | some n => n.deleting.isSome | none => true) then s.finish ctx stInvNs
      else
        let s1 : State := { s.stampCtx ctx with nss := s.nss.edit x.e.nsid fun n => { n with deleting := some ctx } }
        s1.nsDeleteEnd x.e.nsid ctx)

/-- Namespace Attachment (R500). -/
def execNsAttach (ctx : Nat) (controllers : List Nat) (s : State) : Host.Outcome State Fault Refusal :=
  .next (s.admitAdmin ctx (fun e => e.opc == 0x15) fun s x =>
    let sel := bitsAt x.e.cdw10.toNat 0 4
    match x.e.dptrFault 4096 false with
    | some st => s.finish ctx st
    | none =>
      if 2 ≤ sel then s.finish ctx stInvField
      else
        match s.nss.look x.e.nsid with
        | none => s.finish ctx stInvNs
        | some n =>
          if sel = 0 ∧ n.attached then s.finish ctx stNsAttached
          else if sel = 1 ∧ !n.attached then s.finish ctx stNsNotAttached
          else if controllers ≠ [1] then s.finish ctx stCtrlList
          else
            (({ s with nss := s.nss.put x.e.nsid { n with attached := decide (sel = 0) } }.ledger).adminDone ctx stOk).nsChanged x.e.nsid)

/-! ### Sanitize (R76) -/

/-- Sanitize Action. -/
def sanact (e : SqEntry) : Nat := bitsAt e.cdw10.toNat 0 3

/-- A sanitize starts at its stamp: the entry of the whole chip runs once every earlier command has completed; the command
itself completes, and the Sanitize Status page reports the end. -/
def State.sanStart (s : State) (ctx act : Nat) (dw : Dword) : State :=
  if s.nvme.sani = 1 then s.finish ctx stSanitize
  else
    let s1 := s.enter { kind := .sanitizeE, ctx := ctx, owner := 1025, nsid := 0, scopes := [chipScope], target := act }
    ({ s1 with nvme := { s1.nvme with sani := 1, saniKind := act, saniFails := 0, saniDw := dw } }).finish ctx stOk

/-- Sanitize, crypto erase (R315); while the entropy source fails no key can be drawn (R302). -/
def execSanitizeCrypto (ctx : Nat) (s : State) : Host.Outcome State Fault Refusal :=
  .next (s.admitAdmin ctx (fun e => e.opc == 0x84 && sanact e == 4) fun s x =>
    if s.key.entropyBad && s.nvme.sani != 1 then (s.fire 10 [] 0 1025).finish ctx stInternal else s.sanStart ctx 4 x.e.cdw10)

/-- Sanitize, block erase (R200). -/
def execSanitizeBlock (ctx : Nat) (s : State) : Host.Outcome State Fault Refusal :=
  .next (s.admitAdmin ctx (fun e => e.opc == 0x84 && sanact e == 2) fun s x => s.sanStart ctx 2 x.e.cdw10)

/-- Sanitize, Exit Failure Mode (R76); the actions not supported are refused here. -/
def execSanitizeExit (ctx : Nat) (s : State) : Host.Outcome State Fault Refusal :=
  .next (s.admitAdmin ctx (fun e => e.opc == 0x84 && sanact e != 4 && sanact e != 2) fun s x =>
    if sanact x.e ≠ 1 then s.finish ctx stInvField
    else if s.nvme.sani = 1 then s.finish ctx stSanitize
    else ({ s with nvme := { s.nvme with sani := if s.nvme.sani = 3 then 0 else s.nvme.sani } }).adminDone ctx stOk)

/-! ### Key Rotate (R310) -/

/-- The key owner exists (order 1). -/
def State.keyOwnerOk (s : State) (o : Nat) : Bool :=
  o == 1024 || ((s.slice o).st != .none && (s.slice o).st != .destroying)

/-- A Key Rotate of one action; an ACTION beyond 2 is refused through any of the rows. Dword 0 holds the current generation. -/
def State.keyCmd (s : State) (ctx : Nat) (d : KeyData) (act : Nat) : State :=
  s.admitAdmin ctx (fun e => e.opc == 0xc9 && (d.action == act || decide (2 < d.action))) fun s x =>
    let pf := x.e.cdw10.getLsbD 10
    let o := if pf then 1024 else x.e.sliceNo
    let dw := s.keyDw0 o
    if !vendorOk x.e 0x7ff 0 0 0 0 0 ∨ (pf ∧ x.e.sliceNo ≠ 0) then s.finish ctx stInvField dw 0 3
    else
      match x.e.dptrFault 512 false with
      | some st => s.finish ctx st dw
      | none =>
        if !s.keyOwnerOk o then s.finish ctx stSequence dw
        else if d.version ≠ 1 ∨ 2 < d.action ∨ d.rsv3 ≠ 0 ∨ d.rsv8 ≠ 0 then s.finish ctx stInvField dw
        else s.enter { kind := .keyRotE, ctx := ctx, owner := o, nsid := 0, scopes := [keyScope o], target := d.action
                       val := d.expectGen }

/-- Key Rotate, action 0 (R311). -/
def execKeyRotate (ctx : Nat) (d : KeyData) (s : State) : Host.Outcome State Fault Refusal := .next (s.keyCmd ctx d 0)

/-- Key Rotate, action 1 (R311). -/
def execKeyRenew (ctx : Nat) (d : KeyData) (s : State) : Host.Outcome State Fault Refusal := .next (s.keyCmd ctx d 1)

/-- Key Rotate, action 2 (R311). -/
def execKeyStop (ctx : Nat) (d : KeyData) (s : State) : Host.Outcome State Fault Refusal := .next (s.keyCmd ctx d 2)

/-! ### Cascade Status (R337) -/

/-- The lowest of the security versions. -/
def lowSvn (l : List Nat) : Nat := minNat l 0

/-- The entry of a chip. For the crown itself the fields that a member reports are its own. -/
def State.chipEntry (s : State) (c : Nat) : List Fld :=
  let o := 64 + 256 * c
  if c = 0 then
    [ (o, 1, 4), (o + 2, 1, 0xff), (o + 3, 1, 1), (o + 4, 4, match s.manifest with | some m => m.revision | none => 0)
    , (o + 8, 4, lowSvn s.efl.svns), (o + 12, 2, s.dies.count fun k _ => dkChip k == 0), (o + 16, 32, s.upd.digest.toNat)
    , (o + 48, 32, s.cas.lastShared.toNat), (o + 88, 8, s.now)]
  else
    match s.cas.members.look c with
    | none => []
    | some m =>
      let p := s.port (portOf c)
      [ (o, 1, m.st.code), (o + 1, 1, m.reason), (o + 2, 1, portOf c)
      , (o + 3, 1, (if m.matched then 1 else 0) + (if s.linkJoined c then 2 else 0)), (o + 4, 4, m.manifest), (o + 8, 4, lowSvn m.svns)
      , (o + 12, 2, m.dies), (o + 14, 2, m.leases.length), (o + 16, 32, m.cfgDigest.toNat), (o + 48, 32, m.shared.toNat)
      , (o + 80, 4, m.misses), (o + 84, 4, (BitVec.ofInt 32 m.drift).toNat), (o + 88, 8, m.contact), (o + 96, 8, m.fenceStamp)
      , (o + 104, 8, p.retries), (o + 112, 8, p.dups)]

def State.cascadeData (s : State) : List Fld :=
  [ (0, 2, 1), (2, 1, s.chips), (3, 1, 1 + s.cas.members.count fun _ m => m.st == .active)
  , (4, 4, (if s.cas.members.any fun _ m => m.st == .held then 1 else 0) + (if s.cas.members.any fun _ m => m.resync != 0 then 2 else 0))
  , (8, 8, s.gate.next), (16, 8, s.cas.lastCheck), (24, 32, s.cas.lastShared.toNat), (56, 8, s.now)] ++
  (List.range 4).flatMap s.chipEntry

/-- Cascade Status. -/
def execCascadeStatus (ctx : Nat) (s : State) : Host.Outcome State Fault Refusal :=
  .next (s.admitAdmin ctx (fun e => e.opc == 0xce) fun s x =>
    if !vendorOk x.e 0 0 0 0 0 0 then s.finish ctx stInvField 0 0 3
    else
      match x.e.dptrFault 4096 false with
      | some st => s.finish ctx st
      | none => (s.sendTo ctx 0 4096 s.cascadeData).adminDone ctx stOk)

end Sys2Proof.Machine
end

