-- ==== Sys2Proof/Machine/Io.lean ====
section
/-! DEFINITION. The I/O commands (R69): each row's turn at the admission gate (R114). The effects follow at the commit
points (COMMIT) and in the transfers. -/

namespace Sys2Proof.Machine

open Sys2Proof

/-- Flush (R69). -/
def execFlush (ctx : Nat) (s : State) : Host.Outcome State Fault Refusal :=
  .next (s.admitIo ctx (fun e => e.opc == 0x00) .flushE [])

/-- Write (R114). -/
def execWriteCmd (ctx : Nat) (s : State) : Host.Outcome State Fault Refusal :=
  .next (s.admitIo ctx (fun e => e.opc == 0x01) .writeE [])

/-- Read (R125). -/
def execReadCmd (ctx : Nat) (s : State) : Host.Outcome State Fault Refusal :=
  .next (s.admitIo ctx (fun e => e.opc == 0x02) .readE [])

/-- Zone Append (R129). -/
def execZoneAppend (ctx : Nat) (s : State) : Host.Outcome State Fault Refusal :=
  .next (s.admitIo ctx (fun e => e.opc == 0x7d) .appendE [])

/-- Dataset Management, Deallocate (R195); `ranges` is what its data pointer names. -/
def execDsm (ctx : Nat) (ranges : List DsmRange) (s : State) : Host.Outcome State Fault Refusal :=
  .next (s.admitIo ctx (fun e => e.opc == 0x09 && !e.sanz && ranges.length == e.ranges) .dsmE ranges)

/-- Dataset Management with SANZ (R196, R197). -/
def execSanitizingDeallocate (ctx : Nat) (ranges : List DsmRange) (s : State) : Host.Outcome State Fault Refusal :=
  .next (s.admitIo ctx (fun e => e.opc == 0x09 && e.sanz && ranges.length == e.ranges) .sanDsmE ranges)

/-- Zone Management Send, Open (R147). -/
def execZoneOpen (ctx : Nat) (s : State) : Host.Outcome State Fault Refusal :=
  .next (s.admitIo ctx (fun e => e.opc == 0x79 && e.zsa == 3) .openE [])

/-- Zone Management Send, Close (R147). -/
def execZoneClose (ctx : Nat) (s : State) : Host.Outcome State Fault Refusal :=
  .next (s.admitIo ctx (fun e => e.opc == 0x79 && e.zsa == 1) .closeE [])

/-- Zone Management Send, Finish (R147). -/
def execZoneFinish (ctx : Nat) (s : State) : Host.Outcome State Fault Refusal :=
  .next (s.admitIo ctx (fun e => e.opc == 0x79 && e.zsa == 2) .finishE [])

/-- Zone Management Send, Reset (R151). -/
def execZoneReset (ctx : Nat) (s : State) : Host.Outcome State Fault Refusal :=
  .next (s.admitIo ctx (fun e => e.opc == 0x79 && e.zsa == 4 && !e.sanz) .resetE [])

/-- Zone Management Send, Reset with SANZ (R196, R197). -/
def execSanitizingReset (ctx : Nat) (s : State) : Host.Outcome State Fault Refusal :=
  .next (s.admitIo ctx (fun e => e.opc == 0x79 && e.zsa == 4 && e.sanz) .sanResetE [])

/-- Zone Management Send, Offline (R147). -/
def execZoneOffline (ctx : Nat) (s : State) : Host.Outcome State Fault Refusal :=
  .next (s.admitIo ctx (fun e => e.opc == 0x79 && e.zsa == 5) .offlineE [])

/-- Zone Management Receive, Report Zones (R504). -/
def execZoneMgmtReceive (ctx : Nat) (s : State) : Host.Outcome State Fault Refusal :=
  .next (s.admitIo ctx (fun e => e.opc == 0x7a) .zmrE [])

/-- A stamp checkpoint is persisted (R35); media time is saved with it (R182). -/
def execCheckpointPersisted (value : Nat) (s : State) : Host.Outcome State Fault Refusal :=
  if s.gate.ckptPend = some value ∧ !s.dma.fences.contains (4, value) then
    let c := s.gate.next / 2 ^ 24 * 2 ^ 24
    let more := decide (c ≠ value)
    .next { s with
      nv := { s.nv with savedMedia := (s.fch.mediaTime + (s.now - s.fch.mediaMark) / 1000000000) % 2 ^ 32 }
      gate := { s.gate with ckpt := value, ckptPend := if more then some c else none }
      dma := { s.dma with fences := if more then s.dma.fences ++ [(4, c)] else s.dma.fences } }
  else .next s

end Sys2Proof.Machine
end

