-- ==== Sys2Proof/Machine/Mailbox.lean ====
section
/-! DEFINITION. Mailboxes (R103-R107) and the notice ring's registers (R108-R110). -/

namespace Sys2Proof.Machine

open Sys2Proof

/-- Result codes of a push (RESULT, R104). -/
inductive Push where
  | ok | full | flushed | dup | seq | badlen | closed | size
  deriving DecidableEq, Repr

def Push.code : Push → Nat
  | .ok => 0 | .full => 1 | .flushed => 2 | .dup => 3 | .seq => 4 | .badlen => 5 | .closed => 6 | .size => 7

/-- FREE: outbound slots, partial words counted as used. -/
def Mbox.free (m : Mbox) : Nat := 32 - (m.tail + 64 - m.head) % 64 - m.part

/-- A push at the serialisation point of a direction (R105): the direction after it, and whether a message completed. -/
def Mbox.push (m : Mbox) (closed aligned8 : Bool) (w : Word) : Mbox × Bool :=
  let seq := bitsAt w.toNat 48 16
  let len := bitsAt w.toNat 40 8
  let with_ := fun (m : Mbox) (r : Push) => (({ m with result := r.code } : Mbox), false)
  if closed then with_ m .closed
  else if m.fullSeen then with_ m .full
  else if m.flushedSeen then with_ m .flushed
  else if m.errSeen then (m, false)
  else if !aligned8 then with_ { m with part := 0, need := 0, dupRun := 0, errSeen := true } .size
  else if m.dupRun ≠ 0 then with_ { m with dupRun := m.dupRun - 1 } .dup
  else if m.free = 0 then with_ { m with part := 0, need := 0, fullSeen := true } .full
  else if m.part = 0 ∧ (len = 0 ∨ 32 < len) then with_ { m with errSeen := true } .badlen
  else if m.part = 0 ∧ (seq + 1) % 65536 = m.nextSeq then with_ { m with dupSeen := true, dupRun := len - 1 } .dup
  else if m.part = 0 ∧ seq ≠ m.nextSeq then with_ { m with errSeen := true } .seq
  else
    let need := if m.part = 0 then len else m.need
    let slots := m.slots.put ((m.tail + m.part) % 32) w
    if m.part + 1 = need then
      ({ m with slots := slots, tail := (m.tail + need) % 64, nextSeq := (m.nextSeq + 1) % 65536, part := 0, need := 0, result := 0 }, true)
    else ({ m with slots := slots, part := m.part + 1, need := need, result := 0 }, false)

/-- The mailbox of a slice is closed (R81). -/
def State.mbClosed (s : State) (i : Nat) : Bool := (s.slice i).st == .none || (s.slice i).st == .destroying

/-- SLC_MBOX_PEND_m. -/
def State.mboxWord (s : State) (m : Nat) : Nat := bitsAt s.evt.mboxPend.toNat (32 * m) 32

/-- An up message completed: the pending bit and the slice mailbox event (R107). -/
def State.upDone (s : State) (i : Nat) : State :=
  let s1 := { s with evt := { s.evt with mboxPend := s.evt.mboxPend ||| BitVec.ofNat 1024 (2 ^ i) } }
  s1.fire (96 + i / 32) [s1.mboxWord (i / 32)] 0 i

/-- A down message completed: the mailbox vector (R107). -/
def State.downDone (s : State) (i : Nat) : State :=
  let x := s.slice i
  if x.mbien then s.msix (x.vecBase + x.mbvec) else s

/-- A push on a direction. -/
def State.mbPush (s : State) (i : Nat) (up aligned8 : Bool) (w : Word) : State :=
  let x := s.slice i
  let r := (if up then x.up else x.down).push (s.mbClosed i) aligned8 w
  let s1 := s.sliceEdit i fun x => if up then { x with up := r.1 } else { x with down := r.1 }
  if r.2 then (if up then s1.upDone i else s1.downDone i) else s1

/-- SLC_MBOUT_PUSH (R105): a tenant pushes up, the manager down. -/
def execSlcMboutPush (p : Party) (slice : Nat) (aligned8 : Bool) (word : Word) (s : State) : Host.Outcome State Fault Refusal :=
  match p with
  | .tenant pasid => .next (s.tenantWrite slice pasid 0x2108 fun s => s.mbPush slice true aligned8 word)
  | .manager => .next (if slice < 1024 then s.mbPush slice false aligned8 word else s)

/-- A flush of a direction (R106): the manager's posts a notice, the tenant's raises the mailbox event. -/
def State.mbFlush (s : State) (i : Nat) (up : Bool) (manager : Bool) : State :=
  if s.mbClosed i then s
  else
    let s1 := s.sliceEdit i fun x => if up then { x with up := x.up.flush } else { x with down := x.down.flush }
    if manager then s1.notice i 0x08 (if up then 1 else 0) 0 else s1.fire (96 + i / 32) [s1.mboxWord (i / 32)] 0 i

/-- FLUSH_IN (R104, R106): the tenant's inbound direction is down, the manager's is up. -/
def execFlushIn (p : Party) (slice : Nat) (s : State) : Host.Outcome State Fault Refusal :=
  match p with
  | .tenant pasid => .next (s.tenantWrite slice pasid 0x2118 fun s => s.mbFlush slice false false)
  | .manager => .next (if slice < 1024 then s.mbFlush slice true true else s)

/-- FLUSH_OUT (R104, R106). -/
def execFlushOut (p : Party) (slice : Nat) (s : State) : Host.Outcome State Fault Refusal :=
  match p with
  | .tenant pasid => .next (s.tenantWrite slice pasid 0x2118 fun s => s.mbFlush slice true false)
  | .manager => .next (if slice < 1024 then s.mbFlush slice false true else s)

/-- A HEAD write is taken unless it passes TAIL or goes behind the present HEAD (R107). -/
def Mbox.headWrite (m : Mbox) (h : Nat) : Mbox :=
  let h := h % 64
  if (h + 64 - m.head) % 64 ≤ (m.tail + 64 - m.head) % 64 then { m with head := h } else m

/-- SLC_MBIN_PTR.HEAD (R107). -/
def execSlcMbinPtr (p : Party) (slice head : Nat) (s : State) : Host.Outcome State Fault Refusal :=
  match p with
  | .tenant pasid => .next (s.tenantWrite slice pasid 0x2100 fun s => s.sliceEdit slice fun x => { x with down := x.down.headWrite head })
  | .manager => .next (if slice < 1024 ∧ !s.mbClosed slice then s.sliceEdit slice fun x => { x with up := x.up.headWrite head } else s)

/-! ### Notice ring -/

/-- A write of SLC_NR_CTL (R109). -/
def NRing.ctl (r : NRing) (vecCount : Nat) (v : Dword) : NRing :=
  let en := v.getLsbD 31
  let nvec := bitsAt v.toNat 16 6
  let r1 := { r with nvec := if nvec < vecCount then nvec else r.nvec, ien := v.getLsbD 15
                     size := if r.en then r.size else bitsAt v.toNat 0 12 }
  if r.en then { r1 with en := en }
  else if en && decide (15 ≤ r1.size) then { r1 with en := true, head := 0, tail := 0, phase := true, fault := false }
  else r1

/-- SLC_NR_CTL (R109); on a ring just enabled a count of lost notices is reported (R110). -/
def execSlcNrCtl (slice : Nat) (pasid : Option Nat) (v : Dword) (s : State) : Host.Outcome State Fault Refusal :=
  .next (s.tenantWrite slice pasid 0x3008 fun s =>
    (s.sliceEdit slice fun x => { x with nr := x.nr.ctl x.vecCount v }).noticeFlush slice)

/-- SLC_NR_HEAD (R110): freed entries may let NOTICES_LOST be written. -/
def execSlcNrHead (slice : Nat) (pasid : Option Nat) (head : Nat) (s : State) : Host.Outcome State Fault Refusal :=
  .next (s.tenantWrite slice pasid 0x300c fun s =>
    (s.sliceEdit slice fun x => { x with nr := { x.nr with head := head % 4096 } }).noticeFlush slice)

end Sys2Proof.Machine
end

