-- ==== Sys2Proof/Machine/Update.lean ====
section
/-! DEFINITION. Firmware update (R438-R450): Firmware Image Download and Commit, the staging slot, PLDM for Firmware Update,
the commit across a cascade, confirmation. -/

namespace Sys2Proof.Machine

open Sys2Proof

/-! ### The staging slot (R408, R438, R439) -/

/-- Blocks of 4 KiB that the staging slot has: a quarter of the NOR. -/
def State.stgCap (s : State) : Nat := s.upd.norMib * 64

/-- SLOT_LEN of the staged package (R412), in blocks; known once block 0 is present. -/
def State.stgBlocksLen (s : State) : Option Nat := (s.nv.stgBlocks.look 0).map fun b => ceilDiv (bitsAt b 224 32) 4096

/-- Every block up to SLOT_LEN is present. -/
def State.stgComplete (s : State) : Bool :=
  match s.stgBlocksLen with | some n => (List.range n).all fun b => s.nv.stgBlocks.has b | none => false

/-- The slot that was not booted. -/
def State.otherSlot (s : State) : Nat := if s.upd.booted ≤ 1 then 1 - s.upd.booted else 1 - s.nv.current

/-- Manifest revision of a slot. -/
def State.slotRev (s : State) (k : Nat) : Nat := if k = 0 then s.nv.slotRevA else s.nv.slotRevB

/-- The first block of the queue starts: an erase when it is not blank, else its program. -/
def State.norStart (s : State) : State :=
  match s.nv.norQueue with
  | [] => s
  | (b, _) :: _ =>
    if s.nv.stgDirty.contains b then { s with nv := { s.nv with norErase := true } }
    else { s with nv := { s.nv with norErase := false, stgDirty := insNat b s.nv.stgDirty } }

/-- The discard takes effect (R442); the piece being written, if any, goes first. -/
def State.stgDiscard (s : State) : State :=
  if s.nv.norQueue = [] then s.stgDrop else { s with nv := { s.nv with stgDiscard := true } }

/-! ### PLDM output (R441) -/

/-- A PLDM reply or request leaves over the sideband: its command code and content. -/
def State.pldmSay (s : State) (code : Nat) (l : List Nat) : State := s.say (.pldm code l)

/-- The lowest block of the component that is missing. -/
def State.pldmNext (s : State) : Option Nat :=
  (List.range (ceilDiv s.nv.stgLen 4096)).find? fun b => !s.nv.stgBlocks.has b

/-- RequestFirmwareData for one block, in chunks of min(1,024, MaximumTransferSize) bytes. -/
def State.pldmAsk (s : State) : State :=
  if s.nv.pldmState ≠ 3 ∨ s.nv.stgErasing then s
  else
    match s.pldmNext with
    | none => s
    | some b =>
      let c := min 1024 s.nv.pldmMax
      (List.range (ceilDiv 4096 c)).foldl (fun s i => s.pldmSay 0x15 [b * 4096 + i * c, min c (4096 - i * c)]) s

/-! ### Firmware Image Download (R440) -/

def dlLen (e : SqEntry) : Nat := (e.cdw10.toNat + 1) * 4
def dlOff (e : SqEntry) : Nat := e.cdw11.toNat * 4

/-- The checks in their order; `blocks` is the content of the piece. -/
def State.dlCheck (s : State) (e : SqEntry) (blocks : List UnitData) : Option Status :=
  let first := dlOff e / 4096
  if dlOff e % 4096 ≠ 0 ∨ dlLen e % 4096 ≠ 0 ∨ 2 ^ 20 < dlLen e ∨ s.stgCap * 4096 < dlOff e + dlLen e then some stInvField
  else if s.upd.nosusp then some stSequence1
  else if s.nv.stgOwner = 2 ∨ s.nv.commitAct ≠ 0 ∨ s.nv.stgErasing then some stSequence
  else if ((List.range blocks.length).zip blocks).any (fun p => match s.nv.stgBlocks.look (first + p.1) with
      | some c => c != p.2 | none => false) then some stOverlap
  else none

/-- The missing blocks of a piece. -/
def State.dlMissing (s : State) (first : Nat) (blocks : List UnitData) : Tbl UnitData :=
  (((List.range blocks.length).zip blocks).map fun p => (first + p.1, p.2)).filter fun p => !s.nv.stgBlocks.has p.1

/-- Firmware Image Download: one piece at a time is written. -/
def execFwDownload (ctx : Nat) (blocks : List UnitData) (s : State) : Host.Outcome State Fault Refusal :=
  if s.nv.norQueue ≠ [] ∧ s.nv.stgOwner = 1 then .next s
  else
    .next (s.admitAdmin ctx (fun e => e.opc == 0x11 && blocks.length == dlLen e / 4096) fun s x =>
      match x.e.dptrFault (dlLen x.e) false with
      | some st => s.finish ctx st
      | none =>
        match s.dlCheck x.e blocks with
        | some st => s.finish ctx st
        | none =>
          let l := s.dlMissing (dlOff x.e / 4096) blocks
          let s1 : State := { s.stampCtx ctx with nv := { s.nv with stgOwner := 1, norQueue := l, norCtx := some ctx } }
          if l = [] then ({ s1 with nv := { s1.nv with norCtx := none } }).finish ctx stOk else s1.norStart)

/-! ### Firmware Commit (R445, R446) -/

/-- The target slot that FS names, for FS 0-2. -/
def State.fsTarget (s : State) (fs : Nat) : Nat := if fs = 0 then s.otherSlot else fs - 1

/-- Every chip named in the image is ACTIVE. -/
def State.allActive (s : State) : Bool := s.cas.members.all fun _ m => m.st == .active

/-- Orders 3 to 7 of R445, for a package in staging (`staged`; `complete` tells whether all its blocks are there) or in its slot:
the order number and status of the first that fails. -/
def State.pkgCheck (s : State) (pkg : SlotFind) (target : Nat) (staged complete : Bool) : Option (Nat × Status) :=
  let m := pkg.manifest
  if staged && !complete then some (3, stFwImage)
  else if staged ∧ target = s.upd.booted then some (4, stFwSlot)
  else if !pkg.headerOk || !pkg.manifestOk || m.stepping != 0xb0 || (decide (1 < s.chips) && !(m.crownParts && m.memberParts)) then
    some (5, stFwImage)
  else if (List.range 8).any fun c => decide (m.svn.getD c 0 < s.efl.svnOf c) then some (6, stFwProhibited true)
  else if m.meter && !s.mtr.sealOpen then some (7, stSealClosed)
  else none

/-- All orders after the first two. -/
def State.commitCheck (s : State) (pkg : SlotFind) (target : Nat) (staged : Bool) : Option (Nat × Status) :=
  match s.pkgCheck pkg target staged s.stgComplete with
  | some f => some f
  | none => if s.allActive then none else some (8, stMemberFenced)

/-- The activation record and NEXT are written (step 4 and 5). A return to FROM during the trial leaves the record. -/
def State.armSelf (s : State) (target rev : Nat) : State :=
  let trial := s.nv.actState = 2 ∧ target = s.nv.actFrom
  { s with nv := { s.nv with
      next := target, bootSeq := s.nv.bootSeq + 1
      actState := if trial then 2 else 1, actFrom := if trial then s.nv.actFrom else s.upd.booted
      actTo := if trial then s.nv.actTo else target
      actFromRev := if trial then s.nv.actFromRev else s.slotRev s.upd.booted, actToRev := if trial then s.nv.actToRev else rev
      actClean := if trial then s.nv.actClean else 0 } }

/-- Steps 4 to 6: without another chip the command completes at once; else ARM goes out. -/
def State.commitArm (s : State) : State :=
  let s1 := if s.nv.commitAct = 1 then s else s.armSelf s.nv.commitTarget s.nv.commitRev
  if s.nv.commitAct = 1 ∨ s.cas.members = [] then s1.commitEnd none
  else
    let s2 := s1.linkedMembers.foldl (fun (s : State) c => s.casSend (portOf c) 3 0x42 0 [2]) s1
    ({ s2 with cas := { s2.cas with voteStep := 2, members := s2.cas.members.mapV fun _ m => { m with vote := 0 } } }).armCheck

/-- Step 2: the package goes to every member; alone, the commit goes on to step 4. -/
def State.commitSend (s : State) : State :=
  if s.cas.members = [] then s.commitArm
  else if !s.allActive then s.commitEnd (some stMemberFenced)
  else
    let s1 := s.linkedMembers.foldl (fun (s : State) c => s.casSend (portOf c) 3 0x42 0 [1, s.nv.commitRev]) s
    { s1 with cas := { s1.cas with voteStep := 1, members := s1.cas.members.mapV fun _ m => { m with vote := 0 } } }

/-- The copy to the target slot starts; NOR_OPERATION_COMPLETE ends it. -/
def State.copyStart (s : State) (act target : Nat) (c : Option Nat) (m : Manifest) (staged : Bool) : State :=
  let s1 := { s with nv := { s.nv with
    copying := staged, commitAct := act, commitCtx := c, commitTarget := target, commitRev := m.revision, commitFr := m.fr } }
  if staged then s1 else s1.commitSend

/-- Firmware Commit; `pkg` is what the package in the staging slot, or in the slot named, holds. -/
def execFwCommit (ctx : Nat) (pkg : SlotFind) (s : State) : Host.Outcome State Fault Refusal :=
  .next (s.admitAdmin ctx (fun e => e.opc == 0x10) fun s x =>
    let fs := bitsAt x.e.cdw10.toNat 0 3
    let ca := bitsAt x.e.cdw10.toNat 3 3
    let t := s.fsTarget fs
    let from_ := s.slotRev s.upd.booted
    let fail := fun (n : Nat) (st : Status) => (s.failRecAt 1 n t from_ pkg.manifest.revision).finish ctx st
    if 2 < ca then s.finish ctx stInvField
    else if 2 < fs then fail 1 stFwSlot
    else if s.nv.pldmState ≠ 0 ∨ s.nv.stgErasing ∨ s.nv.commitAct ≠ 0 then fail 2 stSequence
    else if ca = 2 ∧ t = s.upd.booted then
      ({ s with nv := { s.nv with next := 255, bootSeq := s.nv.bootSeq + 1 } }.adminDone ctx stOk).fire 209
    else
      match s.commitCheck pkg t (ca != 2) with
      | some (n, st) => fail n st
      | none => (s.stampCtx ctx).copyStart (ca + 1) t (some ctx) pkg.manifest (ca != 2))

/-- The copy has ended: the slot holds the package. -/
def State.slotCopied (s : State) : State :=
  let t := s.nv.commitTarget
  let s1 : State := { s with nv := { s.nv with
    copying := false
    slotRevA := if t = 0 then s.nv.commitRev else s.nv.slotRevA, slotFrA := if t = 0 then s.nv.commitFr else s.nv.slotFrA
    slotRevB := if t = 0 then s.nv.slotRevB else s.nv.commitRev, slotFrB := if t = 0 then s.nv.slotFrB else s.nv.commitFr } }
  if s.nv.commitAct = 4 then
    ({ s1 with nv := { s1.nv with commitAct := 0 }, cas := { s1.cas with voteStep := 1 } }).casSend 0 3 0x43 0 [1]
  else if s.nv.commitAct = 5 then
    ({ s1 with nv := { s1.nv with commitAct := 0, pldmState := 6 } }).pldmSay 0x18 [0]
  else if s.nv.commitAct = 0 then s1
  else s1.commitSend

/-- One NOR operation of the piece has ended: an erase leads to the program, a program to the next block (R439). -/
def State.pieceStep (s : State) : State :=
  match s.nv.norQueue with
  | [] => s
  | (b, d) :: t =>
    if s.nv.norErase then { s with nv := { s.nv with norErase := false } }
    else
      let was := s.stgComplete
      let s1 : State := { s with nv := { s.nv with
        stgBlocks := s.nv.stgBlocks.put b d, stgDirty := s.nv.stgDirty.filter (· != b), norQueue := t } }
      let s2 := if !was && s1.stgComplete then s1.fire 208 else s1
      if t ≠ [] then s2.norStart
      else
        let s3 := match s2.nv.norCtx with
          | some c => ({ s2 with nv := { s2.nv with norCtx := none } }).finish c stOk
          | none => s2
        if s3.nv.stgDiscard then s3.stgDrop else s3.pldmAsk

/-- NOR_OPERATION_COMPLETE (R439, R445): of the piece being written; or the last operation of a copy. -/
def execNorOperationComplete (s : State) : Host.Outcome State Fault Refusal :=
  .next (if s.nv.norQueue ≠ [] then s.pieceStep else if s.nv.copying then s.slotCopied.selfCheck else s)

/-! ### Discard and confirmation (R442, R448) -/

/-- UPD_STG_CTL.DISCARD; discarded while a commit runs. -/
def execDiscard (s : State) : Host.Outcome State Fault Refusal :=
  .next (if s.nv.commitAct ≠ 0 ∨ s.nv.stgErasing then s else s.stgDiscard)

/-- DISCARD_ERASE_DONE. -/
def execDiscardEraseDone (s : State) : Host.Outcome State Fault Refusal :=
  .next (if s.nv.stgErasing then ({ s with nv := { s.nv with stgErasing := false } }).pldmAsk else s)

/-- UPD_ACT.CONFIRM on the crown; it is then sent to every member. No effect outside TRIAL. -/
def execConfirm (s : State) : Host.Outcome State Fault Refusal :=
  if s.nv.actState ≠ 2 ∨ !s.cas.crown then .next s
  else .next ((s.linkedMembers.foldl (fun (s : State) c => s.casSend (portOf c) 3 0x42 0 [5]) s).confirm)

/-! ### The commit across the cascade (R446) -/

/-- UPDATE at a member: the package, ARM, ABANDON; a return to FROM, and the confirmation (R448). A member that is
sent the orders to arm at its join, or to return to FROM, resets itself. -/
def execUpdate (f : Frame) (op : UpdateOp) (s : State) : Host.Outcome State Fault Refusal :=
  .next (s.memberIn f fun s =>
    match op with
    | .package complete pkg =>
      let m := pkg.manifest
      match s.pkgCheck pkg s.otherSlot true complete with
      | some (n, _) => (s.failRecAt 2 n s.otherSlot (s.slotRev s.upd.booted) m.revision).casSend 0 3 0x43 0 [2, n]
      | none =>
        { s with nv := { s.nv with
          copying := true, commitAct := 4, commitCtx := none, commitTarget := s.otherSlot, commitRev := m.revision, commitFr := m.fr } }
    | .arm =>
      let s1 := s.armSelf s.otherSlot (s.slotRev s.otherSlot)
      if s.cas.voteStep = 1 then ({ s1 with cas := { s1.cas with voteStep := 0 } }).casSend 0 3 0x43 0 [3]
      else s1.chipReset .por
    | .abandon =>
      { s with
        cas := { s.cas with voteStep := 0 }, nv := { s.nv with commitAct := if s.nv.commitAct = 4 then 0 else s.nv.commitAct } }
    | .confirm => s.confirm
    | .revert =>
      if s.nv.actState ≠ 2 then s
      else ({ s with nv := { s.nv with next := s.nv.actFrom, bootSeq := s.nv.bootSeq + 1, actState := 4 } }).chipReset .por)

/-- VOTE at the crown: READY, FAIL with its order, or ARMED. -/
def execVote (f : Frame) (v : VoteKind) (s : State) : Host.Outcome State Fault Refusal :=
  .next (s.crownIn f fun s c =>
    match v with
    | .ready =>
      if s.cas.voteStep ≠ 1 then s
      else
        let s1 := s.memEdit c fun m => { m with vote := 1 }
        (if s1.cas.members.all fun _ m => m.vote == 1 then s1.commitArm else s1).selfCheck
    | .fail n =>
      if s.cas.voteStep ≠ 1 then s
      else
        (s.failRecOf c 2 n s.nv.commitTarget (s.slotRev s.upd.booted) s.nv.commitRev).voteAbort (stFwProhibited false)
    | .armed =>
      if s.cas.voteStep ≠ 2 then s else ((s.memEdit c fun m => { m with vote := 2 }).armCheck).selfCheck)

/-- VOTE_TIMEOUT: 300 s have passed at step 3. -/
def execVoteTimeout (s : State) : Host.Outcome State Fault Refusal :=
  if s.cas.voteStep ≠ 1 ∨ !s.cas.crown then .next s
  else .next (s.voteAbort (stFwProhibited false))

/-! ### PLDM for Firmware Update (R441) -/

/-- The sideband answers: the chip is out of reset and not in Stop. -/
def State.pldmUp (s : State) : Bool := s.powered && !s.inStop

/-- Completion codes of PLDM for Firmware Update (DSP0267). -/
def pldmNotInUpdate : Nat := 0x80
def pldmAlready : Nat := 0x81
def pldmLength : Nat := 0x83
def pldmState : Nat := 0x84
def pldmUnable : Nat := 0x8a
def pldmNotSelf : Nat := 0x8c

/-- QueryDeviceIdentifiers: part, stepping, serial number. -/
def execQueryDeviceIdentifiers (s : State) : Host.Outcome State Fault Refusal :=
  if !s.pldmUp then .next s
  else .next (s.pldmSay 0x01 ([0, 0x960, 0xb0] ++ (match s.img with | some i => i.sn | none => [])))

/-- GetFirmwareParameters: the revision of the active slot, and of the other. -/
def execGetFirmwareParameters (s : State) : Host.Outcome State Fault Refusal :=
  if !s.pldmUp then .next s else .next (s.pldmSay 0x02 [0, s.slotRev (1 - s.otherSlot), s.slotRev s.otherSlot])

/-- RequestUpdate. -/
def execRequestUpdate (maxTransfer : Nat) (s : State) : Host.Outcome State Fault Refusal :=
  if !s.pldmUp then .next s
  else if s.nv.pldmState ≠ 0 then .next (s.pldmSay 0x10 [pldmAlready])
  else if s.nv.stgOwner = 1 ∨ s.nv.commitAct ≠ 0 ∨ s.nv.stgErasing ∨ s.upd.nosusp then .next (s.pldmSay 0x10 [pldmUnable])
  else if maxTransfer < 64 then .next (s.pldmSay 0x10 [pldmLength])
  else .next ({ s with nv := { s.nv with pldmMax := maxTransfer, pldmState := 1, pldmSelf := false } }.pldmSay 0x10 [0])

/-- The staged content belongs to another stamp: it is discarded. -/
def State.stampKeep (s : State) (stamp : Nat) : State :=
  if s.nv.stgOwner = 2 ∧ s.nv.pldmStamp = stamp then s
  else if s.nv.stgBlocks = [] ∧ s.nv.stgDirty = [] then s
  else s.stgDrop

/-- PassComponentTable. -/
def execPassComponentTable (stamp : Nat) (s : State) : Host.Outcome State Fault Refusal :=
  if !s.pldmUp then .next s
  else if s.nv.pldmState ≠ 1 then .next (s.pldmSay 0x13 [if s.nv.pldmState = 0 then pldmNotInUpdate else pldmState])
  else
    let s1 := s.stampKeep stamp
    .next ({ s1 with nv := { s1.nv with pldmState := 2 } }.pldmSay 0x13 [0])

/-- UpdateComponent; a component larger than the staging slot cannot be updated. -/
def execUpdateComponent (stamp imageSize : Nat) (s : State) : Host.Outcome State Fault Refusal :=
  if !s.pldmUp then .next s
  else if s.nv.pldmState ≠ 2 then .next (s.pldmSay 0x14 [if s.nv.pldmState = 0 then pldmNotInUpdate else pldmState])
  else if s.stgCap * 4096 < imageSize then .next (s.pldmSay 0x14 [0, 1])
  else
    let s1 := s.stampKeep stamp
    .next (({ s1 with nv := { s1.nv with stgOwner := 2, pldmStamp := stamp, stgLen := imageSize, pldmState := 3 } }.pldmSay 0x14 [0, 0]).pldmAsk)

/-- The data of one requested block has come (RequestFirmwareData): it is written (R439). -/
def execRequestFirmwareData (blk : Nat) (content : UnitData) (s : State) : Host.Outcome State Fault Refusal :=
  if !s.pldmUp ∨ s.nv.pldmState ≠ 3 ∨ s.nv.stgErasing ∨ s.nv.norQueue ≠ [] ∨ s.pldmNext ≠ some blk then .next s
  else .next ({ s with nv := { s.nv with norQueue := [(blk, content)] } }.norStart)

/-- TransferComplete: every block of the component is present. -/
def execTransferComplete (s : State) : Host.Outcome State Fault Refusal :=
  if !s.pldmUp ∨ s.nv.pldmState ≠ 3 ∨ s.nv.stgErasing ∨ s.nv.norQueue ≠ [] ∨ s.pldmNext ≠ none then .next s
  else .next ({ s with nv := { s.nv with pldmState := 4 } }.pldmSay 0x16 [0])

/-- VerifyComplete: the commit checks of R445, orders 3 to 8. -/
def execVerifyComplete (pkg : SlotFind) (s : State) : Host.Outcome State Fault Refusal :=
  if !s.pldmUp ∨ s.nv.pldmState ≠ 4 then .next s
  else
    let t := s.otherSlot
    match s.commitCheck pkg t true with
    | some (n, _) => .next ((s.failRecAt 1 n t (s.slotRev s.upd.booted) pkg.manifest.revision).pldmSay 0x17 [n])
    | none => .next ({ s with nv := { s.nv with
        pldmState := 5, commitTarget := t, commitRev := pkg.manifest.revision, commitFr := pkg.manifest.fr } }.pldmSay 0x17 [0])

/-- ApplyComplete: the copy to the slot that was not booted; the message follows it. -/
def execApplyComplete (s : State) : Host.Outcome State Fault Refusal :=
  if !s.pldmUp ∨ s.nv.pldmState ≠ 5 ∨ s.nv.commitAct ≠ 0 then .next s
  else .next { s with nv := { s.nv with copying := true, commitAct := 5, commitCtx := none } }

/-- ActivateFirmware: the slot becomes NEXT under R446. Self-contained activation only while CC.EN is 0 or boot has stopped. -/
def execActivateFirmware (selfContained : Bool) (s : State) : Host.Outcome State Fault Refusal :=
  if !s.pldmUp then .next s
  else if s.nv.pldmState ≠ 6 then .next (s.pldmSay 0x1a [if s.nv.pldmState = 0 then pldmNotInUpdate else pldmState])
  else
    let may := selfContained && (!s.nvme.cc.getLsbD 0 || s.upd.stage == 15)
    let s1 := s.pldmSay 0x1a [if selfContained && !may then pldmNotSelf else 0]
    .next ({ s1 with nv := { s1.nv with commitAct := 2, commitCtx := none, pldmState := 0, pldmSelf := may } }.commitSend.selfCheck)

/-- GetStatus: the state of the session and what it waits for. -/
def execGetStatus (s : State) : Host.Outcome State Fault Refusal :=
  if !s.pldmUp then .next s else .next (s.pldmSay 0x1b [0, s.nv.pldmState, s.nv.stgBlocks.length])

/-- CancelUpdateComponent: the staged blocks are kept. -/
def execCancelUpdateComponent (s : State) : Host.Outcome State Fault Refusal :=
  if !s.pldmUp then .next s
  else if s.nv.pldmState < 3 ∨ s.nv.commitAct = 5 then .next (s.pldmSay 0x1c [if s.nv.pldmState = 0 then pldmNotInUpdate else pldmState])
  else .next ({ s with nv := { s.nv with pldmState := 2 } }.pldmSay 0x1c [0])

/-- CancelUpdate: the session ends, the staged blocks are kept. -/
def execCancelUpdate (s : State) : Host.Outcome State Fault Refusal :=
  if !s.pldmUp then .next s
  else if s.nv.pldmState = 0 then .next (s.pldmSay 0x1d [pldmNotInUpdate])
  else if s.nv.commitAct = 5 then .next (s.pldmSay 0x1d [pldmState])
  else .next ({ s with nv := { s.nv with pldmState := 0 } }.pldmSay 0x1d [0])

end Sys2Proof.Machine
end

