-- ==== Sys2Proof/Machine/Window.lean ====
section
/-! DEFINITION. What every register reads (R9, R469-R482): the Cuff window, the slice pages of BAR4 (R101) and the
controller registers of BAR0 (R57, R62). -/

namespace Sys2Proof.Machine

open Sys2Proof

/-! ### Register descriptions -/

/-- Registers of one name: offset of index 0, count, stride and width in bytes, and the value of index k. -/
structure Reg where
  off : Nat
  n : Nat
  stride : Nat
  bytes : Nat
  val : Nat → Nat

/-- A 32-bit register, a 64-bit one, a run of 32-bit registers that show one wide value, and an indexed one. -/
def r4 (off v : Nat) : Reg := ⟨off, 1, 4, 4, fun _ => v⟩
def r8 (off v : Nat) : Reg := ⟨off, 1, 8, 8, fun _ => v⟩
def rw (off bytes v : Nat) : Reg := ⟨off, 1, bytes, bytes, fun _ => v⟩
def r4n (off n stride : Nat) (f : Nat → Nat) : Reg := ⟨off, n, stride, 4, f⟩
def r8n (off n stride : Nat) (f : Nat → Nat) : Reg := ⟨off, n, stride, 8, f⟩

/-- The dword at an offset, if one of these registers occupies it. -/
def Reg.dword (r : Reg) (o : Nat) : Option Nat :=
  let k := (o - r.off) / r.stride
  let b := (o - r.off) % r.stride
  if r.off ≤ o ∧ k < r.n ∧ b < r.bytes then some ((r.val k >>> (8 * b)) % 2 ^ 32) else none

/-- An offset that no register occupies reads 0 (R470). -/
def viewAt (l : List Reg) (o : Nat) : Nat := (l.findSome? fun r => r.dword o).getD 0

/-- A field that reads 0 until the image is loaded (R12). -/
def State.cfg (s : State) (v : Nat) : Nat := if s.img.isSome then v else 0

/-- Two's complement in `n` bits. -/
def twos (n : Nat) (v : Int) : Nat := (BitVec.ofInt n v).toNat

/-! ### GLB, PWR, THM, MON, BRM -/

def State.viewGlb (s : State) : List Reg :=
  [ r4 0x0000 0x0960b000
  , r4 0x0100 (bit s.pci.flit 11 + s.pci.rate * 2 ^ 8 + s.pci.width * 2 ^ 4 + bit s.pci.pasidEn 3)
  , r8 0x0108 s.pci.faultReg.toNat, r4 0x0110 s.pci.faultCnt
  , r8 0x0200 s.gate.next, rw 0x0220 32 s.gate.latShared.toNat, rw 0x0240 32 s.gate.latLocal.toNat, r8 0x0260 s.gate.latCheck
  , r4 0x0268 (bit s.gate.latched 1 + bit s.gate.hold 0)
  , r4 0x0270 (((List.range 8).map fun k => s.thm.taps.get k 4 * 8 ^ k).sum), r4 0x0274 s.thm.marginCnt ]

def State.viewPwr (s : State) : List Reg :=
  [ r4 0x0000 (bit s.pwr.lowreg 3 + bit s.idle 2 + s.pwr.st), r4 0x0004 s.nvme.stopIdle, r4 0x0008 s.pwr.wakeCause.toNat
  , r8 0x0010 (s.pwr.entries * 2 ^ 32 + s.pwr.aborts)
  , r4 0x0018 (bit s.pwr.rcFatal 3 + bit s.pwr.rcSaved 2 + bit s.pwr.rcAobor 1 + bit s.pwr.rcPor 0), r4 0x001c s.pwr.aoPeak ]

def State.viewThm (s : State) : List Reg :=
  [ r4n 0x0000 16 4 fun k =>
      bit (s.site k).broken 31 + (s.site k).cause * 2 ^ 28 + bit (s.site k).fast 27 + twos 16 (s.site k).temp
  , r4n 0x0040 8 4 fun k =>
      (s.region k).band * 2 ^ 29 + bit (s.regionNone k) 28 + bit (s.region k).held 27
        + (if s.regionNone k then 0 else twos 16 ((s.regionTemp k).getD 0))
  , r4 0x0080 (s.thm.steps * 2 ^ 16 + s.thm.floor * 2 ^ 4 + s.thm.step), r4 0x0084 s.thmAlarm, r4 0x0088 s.thm.down
  , r4 0x008c (bit s.thm.lock 0) ]

def State.viewMon (s : State) : List Reg :=
  let ch := fun k => s.mon.chans.get k ({} : MonChan)
  [ r4n 0x0000 24 4 fun k => bit (ch k).ovr 31 + bit (ch k).settle 30 + (ch k).code
  , r4n 0x0080 24 4 fun k => twos 20 (ch k).value
  , r4 0x0100 s.mon.ovrSeen.toNat, r4 0x0104 (bit s.mon.stopFrame 0), r4 0x0108 s.mon.sagv, r4 0x010c s.mon.thermMap ]

def State.viewBrm (s : State) : List Reg :=
  let b := s.brm
  [ r4 0x0000 (b.vchg * 2 ^ 16 + b.vstop * 2 ^ 8 + b.isave), r4 0x0004 (b.eta * 2 ^ 22 + b.rtest * 2 ^ 12 + b.cmin)
  , r4 0x0008 (b.period * 2 ^ 24 + b.esrmax)
  , r4 0x0010 s.brmStatus
  , r4 0x0014 b.iset, r8 0x0018 (b.cap % 65536 * 2 ^ 48 + b.esr % 65536 * 2 ^ 32 + b.testTime), r4 0x0020 (b.testResult * 2 ^ 28)
  , r8 0x0028 b.budget, r8 0x0030 s.gate.dirty, r4 0x0038 b.eMj
  , r8 0x0040 (b.saveMs * 2 ^ 48 + b.saveKind * 2 ^ 40 + b.saveBytes), r8 0x0048 (b.lossZones * 2 ^ 32 + b.lossUnits)
  , r4 0x0050 (bit b.lock 0) ]

/-! ### EVT, LOG, EFL, UPD, KEY -/

def Route.bits (r : Route) (fixed : Bool) : Nat :=
  bit r.en 31 + bit (r.log || fixed) 30 + bit r.sb 29 + bit r.msi 28 + r.vec

def State.viewEvt (s : State) : List Reg :=
  [ r4n 0x0000 320 4 fun k => (s.route k).bits (logFixed k)
  , rw 0x0800 40 s.evt.pend.toNat, r4 0x0840 (bit s.evt.ibien 0), r4 0x0844 (bit s.evt.badvec 31 + s.evt.last)
  , r4 0x0850 (bit s.evt.stuck 31 + ((List.range 4).map fun k => s.evt.rsp.getD k 0 * 2 ^ (4 + 2 * k)).sum + s.evt.latch.toNat) ]

def State.viewLog (s : State) : List Reg :=
  [ r4 0x0000 (bit (decide (8192 ≤ s.log.next)) 31 + bit s.log.clearing 30 + s.log.next), r4 0x0004 s.log.dropped
  , r4 0x0010 s.log.sel
  , r8n 0x0020 8 8 fun k => match s.log.slots.look s.log.sel with | some r => r.words.getD k 0 | none => 0 ]

def State.viewEfl (s : State) : List Reg :=
  let e := s.efl
  [ r4 0x0000 e.at_, r8 0x0008 e.data.toNat
  , r4 0x0014 (bit e.busy 31 + e.result * 2 ^ 28 + bit e.corr 27 + bit e.nocert 26 + e.level * 2 ^ 24)
  , r4 0x0034 (bit e.pwSet.isSome 31 + bit e.open_ 30 + bit e.lockout 29 + e.attempts * 2 ^ 24)
  , r8 0x0038 e.prot.toNat, r8 0x0040 e.protNew.toNat, r4 0x0048 (e.rdpResult * 2 ^ 26 + bit e.rdpBusy 25), r4 0x004c e.viol
  , r4n 0x0060 8 4 e.svnOf ]

def State.viewUpd (s : State) : List Reg :=
  let u := s.upd
  let n := s.nv
  [ r4 0x0000 (u.stage * 2 ^ 28 + u.stop * 2 ^ 24 + bit u.devcfg 23 + bit u.firstcfg 22 + bit u.clean 21 + bit u.nosusp 20 + u.ms)
  , r4 0x0004 (u.booted * 2 ^ 30 + bit u.fallback 29 + u.failA * 2 ^ 20 + u.failB * 2 ^ 16), r4 0x0008 u.cfgRev
  , r4 0x0010 (u.norMib * 2 ^ 16 + u.norMhz * 2 ^ 8), rw 0x0020 32 u.digest.toNat
  , r8 0x0040 (u.fetches * 2 ^ 32 + u.retries * 2 ^ 16 + u.suspends)
  , r4 0x0100 (n.stgOwner * 2 ^ 30 + bit n.stgErasing 29 + bit s.stgComplete 28 + n.stgBlocks.length)
  , r4 0x0108 (n.actState * 2 ^ 29 + n.actFrom % 2 * 2 ^ 27 + n.actTo % 2 * 2 ^ 26 + n.actClean * 2 ^ 24)
  , r8 0x0110 (n.actFromRev * 2 ^ 32 + n.actToRev)
  , r4 0x0118 (n.ledgerFormat * 2 ^ 16 + bit n.prevLedger.isSome 15 + n.ledgerGen) ]

/-- KEY_EPOCH is a free value until step 1 of the boot has read it (R317). -/
def State.viewKey (s : State) : List Reg :=
  let k := s.key
  let o := s.keyOwner k.sel
  let live := decide (k.sel ≤ 1024) && (k.sel == 1024 || (s.slice k.sel).st != .none)
  [ r4 0x0000 k.limitLog2, r8 0x0008 (if s.upd.stage = 0 ∨ s.upd.stop = 6 then s.freeVal else k.epoch), r4 0x0010 k.sel
  , r8 0x0018 (if live then o.cur * 2 ^ 32 + o.oldest % 2 ^ 28 * 16 + o.live else 0), r8 0x0020 (if live then o.use else 0)
  , r4 0x0030 (k.alarms * 2 ^ 16 + k.retries)
  , r8n 0x0040 3 8 fun p => (s.port p).fseqTx * 2 ^ 16 + (s.port p).tagFail
  , r4 0x0080 (bit k.lock 0) ]

/-! ### SLC, BPM, DMA -/

/-- Vectors that belong neither to a slice nor to the PF. -/
def State.vecFree (s : State) : Nat := 2048 - (s.pfCount + 1) - s.sliceSum 1024 (·.vecCount)

def State.viewSlc (s : State) : List Reg :=
  [ r4 0x0000 (s.cfg (s.qpFree 1024)), r4 0x0004 s.sharedFree, r4 0x0008 (s.cfg s.vecFree), r4 0x000c (s.rdFree 1024)
  , r4 0x0010 (s.cfg (s.stgFree 1024)), rw 0x0100 128 s.evt.mboxPend.toNat, r8n 0x1000 1024 8 s.stateReg ]

/-- RSVSIZE of rung k + 1 (R266). -/
def rungReserve (k : Nat) : Nat := [0, 128, 4, 256, 128, 256, 256, 64].getD k 0

/-- Reserve of rung k + 1 in use, where the model holds what it is made of: cache rows, MiB of the system staging pool, units of
the system read pool. -/
def State.rungUse (s : State) (k : Nat) : Option Nat :=
  if k = 0 then some 0
  else if k = 2 then some (s.par.cache.length - accRows)
  else if k = 3 then some (s.stgHeld 1025 / 64 - 768)
  else if k = 4 then some (s.rdHeld 1025 - 384)
  else none

/-- A rung of the drain ladder (R266, R272). Waits at rungs 1, 3, 5 and 6 are counted. What waits at the other rungs, and how much
of the reserves of rungs 2, 6, 7 and 8 is in use, passes within one command of this model: free values, 0 while nothing has gone
over the Sward since reset. -/
def State.rungReg (s : State) (k : Nat) : Nat :=
  let v := if s.sward = [] then 0 else s.freeVal
  (if k = 0 ∨ k = 2 ∨ k = 4 ∨ k = 5 then s.bpm.waits.get k 0 else v % 2 ^ 32) * 2 ^ 32
    + min (rungReserve k) ((s.rungUse k).getD (v / 2 ^ 32 % (rungReserve k + 1))) * 2 ^ 16 + s.cfg (rungReserve k)

def State.viewBpm (s : State) : List Reg :=
  let b := s.bpm
  [ r8 0x0000 (s.cfg (s.storeFree false) * 2 ^ 32 + b.cacheSram * 2 ^ 16), r8 0x0008 (s.cfg (s.storeFree true) * 2 ^ 32 + b.cacheDram * 2 ^ 16)
  , r4 0x0020 b.sel, r4 0x0024 (s.rdHeld b.sel * 2 ^ 16 + s.rdGrant b.sel), r8 0x0028 (s.stgHeld b.sel * 2 ^ 32 + s.stgGrant b.sel)
  , r8 0x0030 (b.emptyRd.get b.sel 0 * 2 ^ 32 + b.emptyStg.get b.sel 0), r4 0x0038 b.freeRefused, r4 0x0040 b.revokeSlice
  , r4 0x0044 (b.revokeResult * 2 ^ 28 + b.revokeBufs), r8n 0x0080 8 8 s.rungReg ]

/-- A channel has work: a command whose transfers have begun. -/
def State.chanWork (s : State) : Nat :=
  (((s.ctxs.filter fun p => p.2.begun && p.2.phase == .stamped).map fun p => qOwner p.2.q).eraseDups).length

/-- Engines at work (R247): at most 16 on a channel, 32 in all, one for each unit still to move. -/
def State.engines (s : State) : Nat :=
  let left := (s.ctxs.filter fun p => p.2.begun && p.2.phase == .stamped).map fun p => (qOwner p.2.q, p.2.units - p.2.moved.length)
  min 32 (((left.map (·.1)).eraseDups).foldl (fun n o => n + min 16 (left.foldl (fun m p => if p.1 = o then m + p.2 else m) 0)) 0)

def Chan.faultReg (c : Chan) : Nat :=
  bit c.halted 63 + bit c.multi 62 + bit c.dir 61 + c.cause * 2 ^ 58 + c.source * 2 ^ 54 + c.desc * 2 ^ 48 + c.faults * 2 ^ 32
    + c.cid * 2 ^ 16 + c.qid

/-- FCMD: commands whose transfers wait for the thaw, and the unit at the fault. -/
def State.fcmdReg (s : State) (o : Nat) : Nat :=
  (s.ctxs.count fun _ x => qOwner x.q == o && x.paused) * 2 ^ 16 + (s.dma.chans.get o {}).unit

def State.viewDma (s : State) : List Reg :=
  let d := s.dma
  let c := d.chans.get d.sel {}
  let show_ := fun v => if d.sel ≤ 1024 then v else 0
  [ r4 0x0000 (s.engines * 2 ^ 16 + s.chanWork)
  , r4n 0x0100 32 4 fun m => s.haltedWord m
  , r4 0x0200 d.sel, r8 0x0208 (show_ c.faultReg), r8 0x0210 (show_ c.addr.toNat), r4 0x0218 (show_ (s.fcmdReg d.sel))
  , r4 0x0230 d.walkFaults ]

/-! ### DRC, ECC, FCH -/

def State.viewDrc (s : State) : List Reg :=
  let d := s.drc
  [ r4 0x0000 (bit d.trainDone 31 + d.rate * 2 ^ 24 + bit d.linkEcc 16 + d.missing.toNat), r4 0x0004 (d.mult * 2 ^ 4 + bit d.mr4 3)
  , r4 0x0008 (bit d.nbrDist 12 + d.nbrProb), r8 0x0010 (d.nbrIssued * 2 ^ 32 + d.nbrDropped)
  , r4 0x0018 (d.panic.toNat * 2 ^ 28 + d.rtOff * 2 ^ 4 + d.rtOn), r8 0x0020 (d.panics * 2 ^ 32 + d.pauses)
  , r4 0x0028 (d.srState * 2 ^ 30 + d.srMaxWait), r4 0x0030 d.ceCnt, r4 0x0034 d.ceThr
  , r8 0x0038 (d.ueData * 2 ^ 48 + d.ueAddrC * 2 ^ 32 + d.ueLink * 2 ^ 16 + d.ueCmd), r8 0x0040 d.ueAddr.toNat
  , r8 0x0048 d.ceAddr.toNat, r4 0x0050 (bit d.lock 0) ]

def State.viewEcc (s : State) : List Reg :=
  let e := s.ecc
  [ r4 0x0000 e.ceCnt, r4 0x0004 e.ceThr, r4 0x0008 (e.dupFail * 2 ^ 16 + e.ueCnt), r8 0x0010 e.ueAddr.toNat, r8 0x0018 e.ceAddr.toNat
  , r4 0x0020 e.trapReg, r4 0x0028 (bit e.scrubBusy 31 + bit e.scrubMem 30 + (if e.scrubBusy then s.freeVal % 100 else e.scrubDone))
  , r4 0x0030 (bit e.lock 0) ]

/-- A block-info record as 128 bits (R181). -/
def BInfo.bits (b : BInfo) : Nat :=
  b.ptOpen * 2 ^ 96 + b.ptClose * 2 ^ 64 + b.tpOpen * 2 ^ 56 + b.tpMean * 2 ^ 48 + b.erases * 2 ^ 34 + b.st * 2 ^ 30
    + b.retire * 2 ^ 26 + b.hint * 2 ^ 22 + b.rows

/-- Operations in flight on a channel: at most eight per die (R25). -/
def State.chanOps (s : State) (c : Nat) : Nat :=
  (s.dies.filter fun p => dkChip p.1 == 0 && dieChannel (dkDie p.1) == c).foldl (fun n p => n + s.dieLoad p.1) 0

def State.viewChn (s : State) (c : Nat) : List Reg :=
  let x := s.chn c
  [ r4 0x000 (bit x.active 31 + bit x.failed 30 + s.chanOps c * 2 ^ 16 + x.suspends)
  , r4n 0x010 8 4 fun k => (x.timing.getD k 0).toNat
  , r4 0x030 x.tout.toNat, r4 0x034 x.retrain
  , r4 0x040 x.trainReg
  , r8 0x048 (x.timeouts * 2 ^ 48 + x.progFail * 2 ^ 32 + x.eraseFail * 2 ^ 16 + x.uncorr) ]

/-- Blocks of this chip in a state. -/
def State.blocksAt (s : State) (st : Nat) : Nat :=
  s.blocks.count fun k b => dkChip (k / 8192) == 0 && b.st == st

def State.viewFch (s : State) : List Reg :=
  [ r4 0x0 (bit s.fch.lock 0), r8 0x8 (s.fch.bootEst * 2 ^ 32 + s.fch.mediaTime)
  , r4 0x10 (s.media (·.ecmax) * 2 ^ 16 + s.media (·.rated)), r8 0x18 (s.blocksAt 14 * 2 ^ 32 + s.blocksAt 15)
  , r4 0x40 s.fch.biSel.toNat, rw 0x44 16 s.fch.biSnap.toNat, r8n 0x100 11 8 fun k => s.fch.ladder.get k 0 ]

/-! ### ZNE, PAR, LAT -/

def State.viewZne (s : State) : List Reg :=
  let z := s.zne
  let on := decide (8 ≤ s.upd.stage)
  [ r4 0x0000 (match s.img with
      | some i => (if i.qlc then 3 else 2) * 2 ^ 30 + s.geom.zlog2 * 2 ^ 24 + s.geom.bdata
      | none => 0)
  , r4 0x0004 (s.chipZones 0 Zs.isActive * 2 ^ 16 + s.chipZones 0 Zs.isOpen)
  , r4 0x0008 (match s.img with | some i => i.logRows * 2 ^ 16 + s.logFree 0 | none => 0)
  , r4 0x000c (match s.img with | some i => i.stageAge | none => 0), r4 0x0010 z.fill
  , r4 0x0014 (bit (on && s.rsvOk) 31 + z.target * 2 ^ 20 + z.nmin * 2 ^ 10 + if on then z.cur else 0)
  , r8 0x0018 (if on then s.slcSet16 * z.cur / 16 else 0)
  , r8 0x0020 (s.zones.sum fun _ x => match x.slc with | some e => if e.live then e.units * 4096 else 0 | none => 0)
  , r4 0x0028 (z.rsvDies * 2 ^ 10 + if z.ticked then z.ksave else 0), r4 0x0040 z.seedShadow.toNat
  , r4 0x0044 ((if z.migrating then z.seedPrev.toNat else 0) * 2 ^ 16 + z.seedCur.toNat)
  , r4 0x004c (bit z.pending 31 + bit z.migrating 30 + z.result * 2 ^ 27), r8 0x0050 z.boundary, r4 0x0080 z.heldSel
  , rw 0x0084 32 (s.heldGroups z.heldSel).toNat ]

/-- Zones still under the previous seed. -/
def State.migLeft (s : State) : Nat := s.zones.count fun _ z => s.oldSeed z.place || z.conv && s.oldSeed z.logRow

def State.viewPar (s : State) : List Reg :=
  let p := s.par
  [ r4 0x0000 (match s.img with
      | some i => bit i.decl 31 + i.spareE * 2 ^ 24 + i.media.pair * 2 ^ 16 + p.spb
      | none => 0)
  , r4 0x0004 p.share
  , r4 0x0008 (bit (p.queue != []) 31 + bit s.exposed 30
      + (s.dies.count fun k d => dkChip k == 0 && d.failed) * 2 ^ 16
      + (match s.rebHead with | some q => dkDie q.die | none => 0))
  , r8 0x0010 (p.rowsDone * 2 ^ 32 + p.rowsTotal), r8 0x0018 (p.lostZones * 2 ^ 32 + p.lostUnits), r4 0x0020 p.migZones
  , r4 0x0024 s.migLeft, r8 0x0028 (bit p.resyncRan 63 + p.resyncSecs * 2 ^ 32 + p.repaired * 2 ^ 16 + p.lostRows)
  , r4 0x0030 (match s.spareOf (s.goodDies 0) with | some x => dkDie x.2 * 2 ^ 16 + x.1 | none => 100)
  , r4n 0x0100 32 4 fun k => ((List.range 32).map fun b =>
      bit (match s.dies.look (dieKey 0 (32 * k + b)) with | some d => d.failed | none => false) b).sum ]

/-- LAT_CLASS_k. -/
def State.classReg (s : State) (k : Nat) : Nat :=
  bit (s.clsSusp k) 31 + bit (s.clsRa k) 30 + bit (s.clsEsc k) 29
    + (if k = 0 then s.lat.budget0 else if k = 1 then s.lat.budget1 else 0)

def State.viewLat (s : State) : List Reg :=
  let l := s.lat
  let sel := l.sliceSel
  [ r4n 0x0000 3 4 s.classReg, r4 0x000c l.raDepth, r4 0x0010 l.rdBurst, r4 0x0014 l.dutyMax, r4 0x001c (bit l.lock 0)
  , r4 0x0020 (s.media (·.tsErase) * 2 ^ 8 + s.media (·.tsProg)), r4 0x0024 (s.media (·.tprog) * 2 ^ 16 + s.media (·.tbers))
  , r8 0x0028 (s.media (·.tread) * 2 ^ 48 + s.media (·.tprogSlc) * 2 ^ 32 + s.media (·.tbersSlc) * 2 ^ 16)
  , r4 0x0030 (dkDie l.dutyDie * 2 ^ 16 + l.dutyPct), r4 0x0034 (bit l.condDuty 31 + bit l.condBand 30 + bit l.condParity 29)
  , r8n 0x0040 8 8 fun k => l.stats.get k 0
  , r4 0x0100 sel, r4 0x0104 (if sel = 1024 ∨ (sel < 1024 ∧ (s.slice sel).st ≠ .none) then s.tokensOf sel else 0)
  , r8 0x0108 (if sel < 1024 then (s.slice sel).raStarted * 2 ^ 32 + (s.slice sel).raDenied
      else if sel = 1024 then l.pfStarted * 2 ^ 32 + l.pfDenied else 0)
  , r4 0x0200 l.histSel, r8n 0x0280 48 8 fun k => if l.histSel < 3 then l.snap.get (48 * l.histSel + k) 0 else 0 ]

/-! ### CAS, MTR -/

def State.viewCas (s : State) : List Reg :=
  let c := s.cas
  [ r4 0x0000 (bit c.crown 31 + bit c.auto 30 + c.chip * 2 ^ 28 + c.named.toNat * 2 ^ 24 + c.joinwait), r4 0x0008 (bit c.todo.isSome 31 + c.result * 2 ^ 28)
  , r4n 0x0010 4 4 fun k =>
      if k = 0 then (if c.crown then 4 * 2 ^ 28 else 0)
      else (s.member k).st.code * 2 ^ 28 + (s.member k).reason * 2 ^ 24 + min 255 (s.member k).misses * 2 ^ 16 + (s.member k).leases.length
  , r8n 0x0040 3 8 fun p =>
      bit (decide (5 ≤ (s.port p).phase)) 63 + (s.port p).downCause * 2 ^ 60 + (s.port p).retries * 2 ^ 32 + (s.port p).dups * 2 ^ 16
        + (s.port p).gaps
  , r4n 0x0084 3 4 fun k => twos 32 (s.member (k + 1)).drift ]

/-- The dword at an offset of a structure given by its nonzero fields. -/
def fldDword (l : List (Nat × Nat × Nat)) (o : Nat) : Nat :=
  l.foldl (fun n f =>
    if f.1 < o + 4 ∧ o < f.1 + f.2.1 then
      n + (if o ≤ f.1 then (f.2.2 % 2 ^ (8 * f.2.1)) <<< (8 * (f.1 - o)) else (f.2.2 % 2 ^ (8 * f.2.1)) >>> (8 * (o - f.1))) % 2 ^ 32
    else n) 0

def State.viewMtr (s : State) : List Reg :=
  let m := s.mtr
  [ r4 0x0000 m.status
  , r4 0x0004 m.swid.toNat, rw 0x0010 32 m.swck.toNat, r4 0x0034 m.sealCnt, r8 0x0038 m.time, r8 0x0040 m.newest, r8 0x0048 m.oldest
  , r8 0x0050 m.acked, r4 0x0060 (m.ackResult * 2 ^ 30), r4 0x0068 (m.mergeFails * 2 ^ 16 + m.merges), r4 0x0070 m.powerMw
  , rw 0x0100 96 Config.meterPubKey.toNat, r4 0x0200 m.paramSel, rw 0x0210 16 m.paramVal.toNat
  , rw 0x0220 16 (if m.paramSel = 7 then m.time else m.param m.paramSel), r4 0x0230 (bit m.paramBusy 30 + m.paramResult * 2 ^ 27)
  , r8 0x0300 m.recSel.toNat
  , r4 0x0308 (bit m.window.isSome 31 + bit m.windowNone 30 + (match m.window with | some r => r.length | none => 0))
  , r4n 0x10000 16384 4 fun k => match m.window with | some r => fldDword (r.fields 0) (4 * k) | none => 0 ]

/-! ### Mailbox pages and the slice page -/

/-- The mailbox registers (R104) of one side: `inb` is its inbound direction; `ctl` the value of SLC_MB_CTL. -/
def mboxView (inb out : Mbox) (ctl : Nat) : List Reg :=
  [ r8n 0x000 32 8 fun k => (inb.slots.get k 0).toNat
  , r4 0x100 (inb.tail * 2 ^ 16 + inb.head)
  , r4 0x110 (bit out.fullSeen 31 + bit out.flushedSeen 30 + bit out.dupSeen 29 + bit out.errSeen 28 + out.result * 2 ^ 25
      + bit (out.part != 0) 24 + out.free * 2 ^ 16 + out.nextSeq)
  , r4 0x118 ctl ]

/-- The slice page (R101). -/
def State.slicePage (s : State) (i o : Nat) : Nat :=
  let x := s.slice i
  let sq := fun k => s.sqs.get (sliceQ i k) ({} : Sq)
  let cq := fun k => s.cqs.get (sliceQ i k) ({} : Cq)
  let c := s.dma.chans.get i ({} : Chan)
  if 0x2000 ≤ o ∧ o < 0x2120 then viewAt (mboxView x.down x.up (bit x.mbien 15 + x.mbvec * 2 ^ 8)) (o - 0x2000)
  else viewAt
    [ r8n 0x1000 128 32 fun k => (sq k).base.toNat
    , r8n 0x1008 128 32 fun k => (cq k).base.toNat
    , r4n 0x1010 128 32 fun k =>
        bit (sq k).en 31 + (sq k).ctl.toNat
    , r4n 0x1014 128 32 fun k =>
        bit (sq k).enabled 31 + bit (sq k).frozenSeen 30 + (sq k).enerr * 2 ^ 27 + (cq k).tail * 2 ^ 12 + (sq k).head
    , r8 0x3000 x.nr.base.toNat
    , r4 0x3008 (bit x.nr.en 31 + bit x.nr.fault 30 + x.nr.nvec * 2 ^ 16 + bit x.nr.ien 15 + x.nr.size), r4 0x300c x.nr.head
    , r4 0x3010 (x.nr.lost * 2 ^ 16 + x.nr.tail)
    , r4 0x3020 ((if x.st = .frozen then x.reason else 0) * 2 ^ 3 + x.st.code)
    , r4 0x3030 (x.lclass * 2 ^ 24 + x.qpairs * 2 ^ 16 + x.vecCount), r4 0x3034 x.ctxLimit
    , r8 0x3800 c.faultReg, r8 0x3808 c.addr.toNat, r4 0x3810 (s.fcmdReg i), r4 0x381c c.thaws ] o

/-! ### The whole window -/

/-- GLB, PWR, THM, MON, BRM and LOG: before step 4 of boot the sideband reaches these blocks alone (R476). -/
def earlyBlock (o : Nat) : Bool := decide (o < 0x40000) || (decide (0x50000 ≤ o) && decide (o < 0x60000))

/-- A boot that stopped leaves these and UPD readable (R425). -/
def stoppedBlock (o : Nat) : Bool := earlyBlock o || (decide (0x80000 ≤ o) && decide (o < 0xa0000))

/-- The dword at an offset of the Cuff window (R469, R470). -/
def State.cuff (s : State) (o : Nat) : Nat :=
  if s.upd.stage = 15 ∧ !stoppedBlock o then 0
  else if o < 0x10000 then viewAt s.viewGlb o
  else if o < 0x20000 then viewAt s.viewPwr (o - 0x10000)
  else if o < 0x28000 then viewAt s.viewThm (o - 0x20000)
  else if o < 0x30000 then viewAt s.viewMon (o - 0x28000)
  else if o < 0x40000 then viewAt s.viewBrm (o - 0x30000)
  else if o < 0x50000 then viewAt s.viewEvt (o - 0x40000)
  else if o < 0x60000 then viewAt s.viewLog (o - 0x50000)
  else if o < 0x80000 then viewAt s.viewEfl (o - 0x60000)
  else if o < 0xa0000 then viewAt s.viewUpd (o - 0x80000)
  else if o < 0xc0000 then viewAt s.viewKey (o - 0xa0000)
  else if o < 0x100000 then viewAt s.viewSlc (o - 0xc0000)
  else if o < 0x120000 then viewAt s.viewBpm (o - 0x100000)
  else if o < 0x140000 then viewAt s.viewDma (o - 0x120000)
  else if o < 0x160000 then viewAt s.viewDrc (o - 0x140000)
  else if o < 0x180000 then viewAt s.viewEcc (o - 0x160000)
  else if o < 0x190000 then viewAt (s.viewChn ((o - 0x180000) / 0x800)) ((o - 0x180000) % 0x800)
  else if o < 0x1a0000 then viewAt s.viewFch (o - 0x190000)
  else if o < 0x1c0000 then viewAt s.viewZne (o - 0x1a0000)
  else if o < 0x1e0000 then viewAt s.viewPar (o - 0x1c0000)
  else if o < 0x200000 then viewAt s.viewLat (o - 0x1e0000)
  else if o < 0x220000 then viewAt s.viewCas (o - 0x200000)
  else if o < 0x400000 then viewAt s.viewMtr (o - 0x220000)
  else if o < 0x800000 then
    let x := s.slice ((o - 0x400000) / 0x1000)
    viewAt (mboxView x.up x.down 0) ((o - 0x400000) % 0x1000)
  else 0

/-- FCH_BI_0. -/
def biOff : Nat := 0x190044

/-- A read of FCH_BI_0 takes the snapshot that FCH_BI_0 to FCH_BI_3 show (R202). -/
def State.biLatch (s : State) : State :=
  let v := s.fch.biSel.toNat
  let dk := dieKey 0 (bitsAt v 13 10)
  let b := bitsAt v 0 13
  let r := if (s.dies.look dk).isSome ∧ b < s.geom.blocks then (s.blk (blkKey dk b)).bits else 0
  { s with fch := { s.fch with biSnap := BitVec.ofNat 128 r } }

/-- Read one dword of the window: the value, and the state after the read. -/
def State.cuffRead (s : State) (o : Nat) : Nat × State :=
  let s1 := if o = biOff then s.biLatch else s
  (s1.cuff o, s1)

/-- The controller registers of BAR0 (R57, R62), the MSI-X table and its pending bit array; reserved ranges read 0 (R58). -/
def State.bar0Read (s : State) (o : Nat) : Nat :=
  let n := s.nvme
  viewAt
    [ r8 0x0 (0xfff + 2 ^ 16 + 200 * 2 ^ 24 + 0x41 * 2 ^ 37 + 3 * 2 ^ 59), r4 0x8 0x20000, r4 0x14 n.cc.toNat
    , r4 0x1c (bit n.rdy 0 + bit n.cfs 1 + n.shst * 4), r4 0x24 n.aqa.toNat, r8 0x28 n.asq.toNat, r8 0x30 n.acq.toNat
    , r4 0x68 (4 * 2 ^ 16 + 200)
    , ⟨0x10000, 2048, 16, 16, fun v => (s.evt.msixTbl.get v 0).toNat + bit (!s.evt.unmasked.contains v) 96⟩
    , r4n 0x18000 64 4 fun k => ((List.range 32).map fun b => bit (s.evt.pba.contains (32 * k + b)) b).sum ] o

end Sys2Proof.Machine
end

