-- ==== Sys2Proof/Machine/Registers.lean ====
section
/-! DEFINITION. Register writes by access code (R9-R11, R473-R475), the lock bits (R471), and the rows HIST_SNAP, HIST_CLEAR,
LOCK_SET and REGISTER_WRITE. A write to a register that has rows of its own does what its row does; what that row takes from
outside (a measurement, a checksum) is a free value here. -/

namespace Sys2Proof.Machine

open Sys2Proof

/-! ### Helpers -/

/-- The state that a command leaves. -/
def State.after (s : State) (o : Host.Outcome State Fault Refusal) : State := match o with | .next t => t | _ => s

/-- A number with dword `i` replaced. -/
def setDw (v i x : Nat) : Nat := v - bitsAt v (32 * i) 32 * 2 ^ (32 * i) + x % 2 ^ 32 * 2 ^ (32 * i)

/-- The `k`-th free value from here, and the state after `n` of them. -/
def State.freeAt (s : State) (k : Nat) : Nat := Config.freeNat (s.free + k)
def State.freeSkip (s : State) (n : Nat) : State := { s with free := s.free + n }

/-- A write to a register with RWL fields (R11): with the lock set the fields stay, and event 2 records offset and value. -/
def State.rwl (s : State) (lock : Bool) (o v : Nat) (f : State → State) : State := if lock then s.fire 2 [o, v] else f s

/-- Bits of a flag that a write of 1 clears. -/
def w1c (b : Bool) (v n : Nat) : Bool := b && !v.testBit n

/-- A 32-bit W1C field: each 1 clears its bit (R9). -/
def w1cBits (n v : Nat) : Nat := n &&& (0xffffffff ^^^ v % 2 ^ 32)

/-- VALID of a latched address, cleared by bit 63. -/
def validClear (r : Word) (v : Nat) : Word := if v.testBit 31 then r &&& ~~~BitVec.ofNat 64 (2 ^ 63) else r

/-! ### Latency counts (R243, R246) -/

def State.histSnapNow (s : State) : State := { s with lat := { s.lat with snap := s.lat.live } }
def State.histClearNow (s : State) : State := { s with lat := { s.lat with live := [] } }

/-- HIST_SNAP: with CLEAR in the same write the copy is taken first. -/
def execHistSnap (alsoClear : Bool) (s : State) : Host.Outcome State Fault Refusal :=
  .next (if alsoClear then s.histSnapNow.histClearNow else s.histSnapNow)

/-- HIST_CLEAR. -/
def execHistClear (s : State) : Host.Outcome State Fault Refusal := .next s.histClearNow

/-! ### Locks -/

/-- LOCK_SET (R471): blocks in the order of LOCKS: FCH, LAT, DRC, ECC, KEY, BRM, THM. -/
def execLockSet (blk : Nat) (s : State) : Host.Outcome State Fault Refusal :=
  .next (if blk < 7 then s.setLocks (BitVec.ofNat 8 (2 ^ blk)) else s)

def State.lockBit (s : State) (v blk : Nat) : State := if v.testBit 0 then s.after (execLockSet blk s) else s

/-! ### Events -/

/-- A write to EVT_ROUTE_k. -/
def Route.ofBits (k v : Nat) : Route where
  en := v.testBit 31
  log := v.testBit 30 || logFixed k
  sb := v.testBit 29
  msi := v.testBit 28
  vec := bitsAt v 0 11

/-- Pending bits are cleared; once no SB-routed one is left, the next in-band interrupt may be raised (R456). -/
def State.pendClear (s : State) (m v : Nat) : State :=
  let p := s.evt.pend &&& ~~~BitVec.ofNat 320 (v * 2 ^ (32 * m))
  let left := (List.range 320).any fun k => p.getLsbD k && (s.route k).sb
  ({ s with evt := { s.evt with pend := p, ibiOut := s.evt.ibiOut && left } }).ibiEval

/-! ### One dword -/

/-- GLB. -/
def State.wrGlb (s : State) (o v : Nat) : State :=
  if o = 0x10c then { s with pci := { s.pci with faultReg := validClear s.pci.faultReg v } }
  else if o = 0x268 then { s with gate := { s.gate with hold := v.testBit 0, latched := w1c s.gate.latched v 1 } }
  else s

def State.wrPwr (s : State) (o v : Nat) : State :=
  if o = 0x8 then { s with pwr := { s.pwr with wakeCause := s.pwr.wakeCause &&& ~~~BitVec.ofNat 8 v } }
  else if o = 0x18 then
    { s with pwr := { s.pwr with
        rcFatal := w1c s.pwr.rcFatal v 3, rcSaved := w1c s.pwr.rcSaved v 2, rcAobor := w1c s.pwr.rcAobor v 1
        rcPor := w1c s.pwr.rcPor v 0 } }
  else s

def State.wrThm (s : State) (o v : Nat) : State :=
  if o = 0x84 then
    { s with thm := { s.thm with
        aTherm := w1c s.thm.aTherm v 3, aLimit := w1c s.thm.aLimit v 2, aBroken := w1c s.thm.aBroken v 1, aRise := w1c s.thm.aRise v 0 } }
  else if o = 0x88 then s.rwl s.thm.lock (0x20000 + o) v fun s => { s with thm := { s.thm with down := bitsAt v 0 6 } }
  else if o = 0x8c then s.lockBit v 6
  else s

def State.wrMon (s : State) (o v : Nat) : State :=
  if o = 0x100 then { s with mon := { s.mon with ovrSeen := s.mon.ovrSeen &&& ~~~BitVec.ofNat 24 v } } else s

/-- A measurement that nothing constrains. -/
def State.freeMeas (s : State) : BankMeas where
  v0 := s.freeAt 0
  v1 := s.freeAt 1
  v2 := s.freeAt 2
  tUs := s.freeAt 3
  settled := s.freeAt 4 % 2 == 1
  flagged := s.freeAt 5 % 2 == 1
  dirtyOk := s.freeAt 6 % 2 == 1
  sag := s.freeAt 7 % 2 == 1

def State.wrBrm (s : State) (o v : Nat) : State :=
  if o = 0x14 then s.rwl s.brm.lock (0x30000 + o) v fun s => { s with brm := { s.brm with iset := bitsAt v 0 6 } }
  else if o = 0x20 then (if v.testBit 31 then (s.freeSkip 8).after (execBrmTestGo s.freeMeas (s.freeSkip 8)) else s)
  else if o = 0x50 then s.lockBit v 5
  else s

def State.wrEvt (s : State) (o v : Nat) : State :=
  if o < 0x500 then { s with evt := { s.evt with routes := s.evt.routes.put (o / 4) (Route.ofBits (o / 4) v) } }
  else if 0x800 ≤ o ∧ o < 0x828 then s.pendClear ((o - 0x800) / 4) v
  else if o = 0x840 then ({ s with evt := { s.evt with ibien := v.testBit 0 } }).ibiEval
  else if o = 0x844 then { s with evt := { s.evt with badvec := w1c s.evt.badvec v 31 } }
  else if o = 0x850 then ({ s with evt := { s.evt with stuck := w1c s.evt.stuck v 31 } }).latchClear (bitsAt v 0 4)
  else s

def State.wrLog (s : State) (o v : Nat) : State :=
  if o = 0x8 then (if v.testBit 0 then s.logWipe else s)
  else if o = 0x10 then { s with log := { s.log with sel := bitsAt v 0 13 } }
  else s

def State.wrEfl (s : State) (o v : Nat) : State :=
  if o = 0x0 then s.eflEdit fun e => { e with addr := BitVec.ofNat 32 (bitsAt v 0 20) }
  else if o = 0x8 ∨ o = 0xc then s.eflEdit fun e => { e with data := BitVec.ofNat 64 (setDw e.data.toNat ((o - 0x8) / 4) v) }
  else if o = 0x10 then
    (if !v.testBit 31 then s
     else if bitsAt v 28 3 = 1 then (s.freeSkip 2).after (execEflRead (s.freeAt 0 % 2 == 1) (s.freeAt 1 % 2 == 1) (s.freeSkip 2))
     else if bitsAt v 28 3 = 2 then s.after (execEflProgram s)
     else if bitsAt v 28 3 = 3 then s.after (execEflErase s)
     else s)
  else if 0x20 ≤ o ∧ o < 0x30 then s.eflEdit fun e => { e with pw := BitVec.ofNat 128 (setDw e.pw.toNat ((o - 0x20) / 4) v) }
  else if o = 0x30 then
    (if !v.testBit 31 then s
     else if bitsAt v 28 3 = 1 then s.after (execOemUnlock s)
     else if bitsAt v 28 3 = 2 then s.after (execOemLock s)
     else if bitsAt v 28 3 = 3 then s.after (execSetPassword s)
     else if bitsAt v 28 3 = 4 then s.after (execWriteMask s)
     else s)
  else if o = 0x40 ∨ o = 0x44 then s.eflEdit fun e => { e with protNew := BitVec.ofNat 64 (setDw e.protNew.toNat ((o - 0x40) / 4) v) }
  else if o = 0x48 then (if v.testBit 31 then s.after (execEflRdp (bitsAt v 29 2) s) else s)
  else s

def State.wrUpd (s : State) (o v : Nat) : State :=
  if o = 0x104 then (if v.testBit 31 then s.after (execDiscard s) else s)
  else if o = 0x108 then (if v.testBit 28 then s.after (execConfirm s) else s)
  else s

def State.wrKey (s : State) (o v : Nat) : State :=
  if o = 0x0 then s.rwl s.key.lock (0xa0000 + o) v fun s => { s with key := { s.key with limitLog2 := bitsAt v 0 6 } }
  else if o = 0x10 then { s with key := { s.key with sel := bitsAt v 0 11 } }
  else if o = 0x80 then s.lockBit v 4
  else s

def State.wrSlc (s : State) (o v : Nat) : State :=
  if 0x100 ≤ o ∧ o < 0x180 then
    { s with evt := { s.evt with mboxPend := s.evt.mboxPend &&& ~~~BitVec.ofNat 1024 (v * 2 ^ (8 * (o - 0x100))) } }
  else s

def State.wrBpm (s : State) (o v : Nat) : State :=
  if o = 0x20 then { s with bpm := { s.bpm with sel := bitsAt v 0 11 } }
  else if o = 0x40 then
    let s1 : State := { s with bpm := { s.bpm with revokeSlice := bitsAt v 0 10 } }
    if v.testBit 31 then s1.after (execBpmRevoke (bitsAt v 0 10) s1) else s1
  else s

def State.wrDma (s : State) (o v : Nat) : State :=
  if o = 0x200 then { s with dma := { s.dma with sel := bitsAt v 0 11 } }
  else if o = 0x220 then (if v.testBit 31 then s.after (execDmaThaw (bitsAt v 0 11) s) else s)
  else s

def State.wrDrc (s : State) (o v : Nat) : State :=
  if o = 0x8 then s.rwl s.drc.lock (0x140000 + o) v fun s =>
    { s with drc := { s.drc with nbrDist := v.testBit 12, nbrProb := bitsAt v 0 12 } }
  else if o = 0x18 then s.rwl s.drc.lock (0x140000 + o) v fun s =>
    { s with drc := { s.drc with rtOff := bitsAt v 4 4, rtOn := bitsAt v 0 4 } }
  else if o = 0x30 then { s with drc := { s.drc with ceCnt := w1cBits s.drc.ceCnt v, ceFired := s.drc.ceFired && w1cBits s.drc.ceCnt v != 0 } }
  else if o = 0x34 then s.rwl s.drc.lock (0x140000 + o) v fun s => { s with drc := { s.drc with ceThr := v } }
  else if o = 0x44 then { s with drc := { s.drc with ueAddr := validClear s.drc.ueAddr v } }
  else if o = 0x4c then { s with drc := { s.drc with ceAddr := validClear s.drc.ceAddr v } }
  else if o = 0x50 then s.lockBit v 2
  else s

def State.wrEcc (s : State) (o v : Nat) : State :=
  if o = 0x0 then { s with ecc := { s.ecc with ceCnt := w1cBits s.ecc.ceCnt v, ceFired := s.ecc.ceFired && w1cBits s.ecc.ceCnt v != 0 } }
  else if o = 0x4 then s.rwl s.ecc.lock (0x160000 + o) v fun s => { s with ecc := { s.ecc with ceThr := v } }
  else if o = 0x14 then { s with ecc := { s.ecc with ueAddr := validClear s.ecc.ueAddr v } }
  else if o = 0x1c then { s with ecc := { s.ecc with ceAddr := validClear s.ecc.ceAddr v } }
  else if o = 0x30 then s.lockBit v 3
  else s

/-- FCH, with the channels below 0x1_0000. -/
def State.wrFch (s : State) (o v : Nat) : State :=
  let c := o / 0x800
  let r := o % 0x800
  if o < 0x10000 then
    if 0x10 ≤ r ∧ r < 0x30 then s.rwl s.fch.lock (0x180000 + o) v fun s =>
      s.chnEdit c fun x =>
        { x with timing := (List.range 8).map fun k => if k = (r - 0x10) / 4 then BitVec.ofNat 32 v else x.timing.getD k 0 }
    else if r = 0x30 then s.rwl s.fch.lock (0x180000 + o) v fun s => s.chnEdit c fun x => { x with tout := BitVec.ofNat 32 v }
    else if r = 0x34 then s.rwl s.fch.lock (0x180000 + o) v fun s => s.chnEdit c fun x => { x with retrain := bitsAt v 0 12 }
    else s
  else if o = 0x10000 then s.lockBit v 0
  else if o = 0x10040 then { s with fch := { s.fch with biSel := BitVec.ofNat 32 (bitsAt v 0 23) } }
  else s

def State.wrZne (s : State) (o v : Nat) : State :=
  if o = 0x40 then if s.zne.pending then s else { s with zne := { s.zne with seedShadow := BitVec.ofNat 16 v } }
  else if o = 0x48 then (if v.testBit 0 then s.after (execZneCfgCommit s) else s)
  else if o = 0x80 then { s with zne := { s.zne with heldSel := bitsAt v 0 10 } }
  else s

def State.wrPar (s : State) (o v : Nat) : State :=
  if o = 0x4 then { s with par := { s.par with share := bitsAt v 0 7 } }
  else if o = 0x20 then { s with par := { s.par with migZones := bitsAt v 0 5 } }
  else s

def State.wrLat (s : State) (o v : Nat) : State :=
  if o = 0x0 then s.rwl s.lat.lock (0x1e0000 + o) v fun s =>
    { s with lat := { s.lat with susp0 := v.testBit 31, ra0 := v.testBit 30, esc0 := v.testBit 29, budget0 := bitsAt v 0 12 } }
  else if o = 0x4 then s.rwl s.lat.lock (0x1e0000 + o) v fun s =>
    { s with lat := { s.lat with susp1 := v.testBit 31, ra1 := v.testBit 30, esc1 := v.testBit 29, budget1 := bitsAt v 0 12 } }
  else if o = 0xc then s.rwl s.lat.lock (0x1e0000 + o) v fun s => { s with lat := { s.lat with raDepth := bitsAt v 0 8 } }
  else if o = 0x10 then s.rwl s.lat.lock (0x1e0000 + o) v fun s => { s with lat := { s.lat with rdBurst := bitsAt v 0 4 } }
  else if o = 0x14 then s.rwl s.lat.lock (0x1e0000 + o) v fun s => { s with lat := { s.lat with dutyMax := bitsAt v 0 7 } }
  else if o = 0x1c then s.lockBit v 1
  else if o = 0x34 then
    { s with lat := { s.lat with
        condDuty := w1c s.lat.condDuty v 31, condBand := w1c s.lat.condBand v 30, condParity := w1c s.lat.condParity v 29 } }
  else if o = 0x100 then { s with lat := { s.lat with sliceSel := bitsAt v 0 11 } }
  else if o = 0x200 then
    let s1 : State := { s with lat := { s.lat with histSel := bitsAt v 0 2 } }
    let s2 := if v.testBit 31 then s1.histSnapNow else s1
    if v.testBit 30 then s2.histClearNow else s2
  else s

/-- CAS_CTL (R328): an action that does not exist, or chip 0, sets RESULT 1. -/
def State.wrCas (s : State) (o v : Nat) : State :=
  let c := bitsAt v 0 2
  let a := bitsAt v 28 3
  if o ≠ 0x4 ∨ !v.testBit 31 ∨ s.cas.todo.isSome then s
  else if a = 1 then s.after (execExcludeChip c s)
  else if a = 2 then s.after (execIncludeChip c s)
  else if a = 3 then s.after (execFenceChip c s)
  else if a = 4 then s.after (execResyncChip c s)
  else { s with cas := { s.cas with result := 1 } }

def State.wrMtr (s : State) (o v : Nat) : State :=
  if o = 0x30 then
    (if v.testBit 0 then (s.freeSkip 1).after (execMtrSwckGo (BitVec.ofNat 256 (s.freeAt 0)) (s.freeSkip 1)) else s)
  else if o = 0x200 then s.mtrEdit fun m => { m with paramSel := bitsAt v 0 3 }
  else if 0x210 ≤ o ∧ o < 0x220 then
    s.mtrEdit fun m => { m with paramVal := BitVec.ofNat 128 (setDw m.paramVal.toNat ((o - 0x210) / 4) v) }
  else if o = 0x230 then (if v.testBit 31 then s.after (execMtrParamCommit s) else s)
  else if o = 0x300 ∨ o = 0x304 then
    s.after (execMtrRecSel (BitVec.ofNat 64 (setDw s.mtr.recSel.toNat ((o - 0x300) / 4) v)) s)
  else s

/-- The flags of SLC_MBOUT_STS that a write of 1 clears. -/
def Mbox.stsWrite (m : Mbox) (v : Nat) : Mbox :=
  { m with
    fullSeen := w1c m.fullSeen v 31, flushedSeen := w1c m.flushedSeen v 30, dupSeen := w1c m.dupSeen v 29
    errSeen := w1c m.errSeen v 28 }

/-- A manager's mailbox page (R104, R482). -/
def State.wrMail (s : State) (i r v : Nat) : State :=
  if r = 0x100 then s.after (execSlcMbinPtr .manager i (bitsAt v 0 6) s)
  else if r = 0x108 ∨ r = 0x10c then s.after (execSlcMboutPush .manager i false 0 s)
  else if r = 0x110 then s.sliceEdit i fun x => { x with down := x.down.stsWrite v }
  else if r = 0x118 then
    let s1 := if v.testBit 1 then s.after (execFlushIn .manager i s) else s
    if v.testBit 0 then s1.after (execFlushOut .manager i s1) else s1
  else s

/-- Write one dword of the Cuff window; an offset that no register occupies discards it (R470). -/
def State.cuffWrite4 (s : State) (o v : Nat) : State :=
  let v := v % 2 ^ 32
  if o < 0x10000 then s.wrGlb o v
  else if o < 0x20000 then s.wrPwr (o - 0x10000) v
  else if o < 0x28000 then s.wrThm (o - 0x20000) v
  else if o < 0x30000 then s.wrMon (o - 0x28000) v
  else if o < 0x40000 then s.wrBrm (o - 0x30000) v
  else if o < 0x50000 then s.wrEvt (o - 0x40000) v
  else if o < 0x60000 then s.wrLog (o - 0x50000) v
  else if o < 0x80000 then s.wrEfl (o - 0x60000) v
  else if o < 0xa0000 then s.wrUpd (o - 0x80000) v
  else if o < 0xc0000 then s.wrKey (o - 0xa0000) v
  else if o < 0x100000 then s.wrSlc (o - 0xc0000) v
  else if o < 0x120000 then s.wrBpm (o - 0x100000) v
  else if o < 0x140000 then s.wrDma (o - 0x120000) v
  else if o < 0x160000 then s.wrDrc (o - 0x140000) v
  else if o < 0x180000 then s.wrEcc (o - 0x160000) v
  else if o < 0x1a0000 then s.wrFch (o - 0x180000) v
  else if o < 0x1c0000 then s.wrZne (o - 0x1a0000) v
  else if o < 0x1e0000 then s.wrPar (o - 0x1c0000) v
  else if o < 0x200000 then s.wrLat (o - 0x1e0000) v
  else if o < 0x220000 then s.wrCas (o - 0x200000) v
  else if o < 0x400000 then s.wrMtr (o - 0x220000) v
  else if o < 0x800000 then s.wrMail ((o - 0x400000) / 0x1000) ((o - 0x400000) % 0x1000) v
  else s

/-- The 64-bit registers that one 8-byte write reaches as a whole (R474): MTR_ACK, MTR_REC_SEL, SLC_MBOUT_PUSH. -/
def whole64 (o : Nat) : Bool :=
  o == 0x220058 || o == 0x220300 || (decide (0x400000 ≤ o) && decide (o < 0x800000) && o % 0x1000 == 0x108)

/-- An 8-byte write: two 4-byte ones in ascending order elsewhere (R473). -/
def State.cuffWrite8 (s : State) (o v : Nat) : State :=
  if o = 0x220058 then s.after (execMtrAck (BitVec.ofNat 64 v) s)
  else if o = 0x220300 then s.after (execMtrRecSel (BitVec.ofNat 64 v) s)
  else if whole64 o then s.after (execSlcMboutPush .manager ((o - 0x400000) / 0x1000) true (BitVec.ofNat 64 v) s)
  else (s.cuffWrite4 o v).cuffWrite4 (o + 4) (v / 2 ^ 32)

/-! ### BAR0 -/

/-- A write of CC (R62-R64): EN set, EN cleared, or the other fields; then a shutdown notification. -/
def State.ccWrite (s : State) (v : Nat) : State :=
  let cc := BitVec.ofNat 32 v
  let s1 : State :=
    if cc.getLsbD 0 then s.after (execCcEnSet cc s)
    else
      let s0 := if s.nvme.cc.getLsbD 0 then s.after (execCcEnClear s) else s
      s0.ccPut cc
  if bitsAt v 14 2 ≠ 0 ∧ bitsAt s.nvme.cc.toNat 14 2 = 0 then s1.after (execShutdownNotification (bitsAt v 14 2) s1) else s1

/-- A dword of the MSI-X table: message address, data, or the mask bit (R455). -/
def State.msixWrite (s : State) (e r v : Nat) : State :=
  if r < 12 then
    { s with evt := { s.evt with msixTbl := s.evt.msixTbl.upd e 0 fun x => BitVec.ofNat 96 (setDw x.toNat (r / 4) v) } }
  else if v.testBit 0 then { s with evt := { s.evt with unmasked := s.evt.unmasked.filter (· != e) } }
  else s.after (execVectorUnmask (some e) s)

/-- Write one dword of BAR0; a reserved range discards it (R58). -/
def State.bar0Write (s : State) (o v : Nat) : State :=
  let v := v % 2 ^ 32
  if o = 0x14 then s.ccWrite v
  else if o = 0x24 then { s with nvme := { s.nvme with aqa := BitVec.ofNat 32 (v &&& 0x0fff0fff) } }
  else if o = 0x28 ∨ o = 0x2c then
    { s with nvme := { s.nvme with asq := BitVec.ofNat 64 (setDw s.nvme.asq.toNat ((o - 0x28) / 4) v / 4096 * 4096) } }
  else if o = 0x30 ∨ o = 0x34 then
    { s with nvme := { s.nvme with acq := BitVec.ofNat 64 (setDw s.nvme.acq.toNat ((o - 0x30) / 4) v / 4096 * 4096) } }
  else if 0x1000 ≤ o ∧ o < 0x2000 then
    if o % 8 = 0 then s.after (execPfSqDoorbell ((o - 0x1000) / 8) (v % 65536) s)
    else s.after (execPfCqDoorbell ((o - 0x1000) / 8) (v % 65536) s)
  else if 0x10000 ≤ o ∧ o < 0x18000 then s.msixWrite ((o - 0x10000) / 16) (o % 16) v
  else s

/-! ### BAR4 -/

/-- A queue's base register: discarded while EN is 1 (R102). -/
def State.baseWrite (s : State) (k : Nat) (sq : Bool) (i v : Nat) : State :=
  let put := fun (b : Word) => BitVec.ofNat 64 (setDw b.toNat i v / 4096 * 4096)
  if (s.sqs.get k {}).en then s
  else if sq then { s with sqs := s.sqs.upd k {} fun x => { x with base := put x.base, cq := k } }
  else { s with cqs := s.cqs.upd k {} fun x => { x with base := put x.base } }

/-- SLC_MB_CTL on the slice page: MBIEN, MBVEC within VEC_COUNT (R107), and the flush bits. -/
def State.mbCtl (s : State) (i : Nat) (p : Option Nat) (v : Nat) : State :=
  let s0 := s.sliceEdit i fun x =>
    { x with mbien := v.testBit 15, mbvec := if bitsAt v 8 6 < x.vecCount then bitsAt v 8 6 else x.mbvec }
  let s1 := if v.testBit 1 then s0.after (execFlushIn (.tenant p) i s0) else s0
  if v.testBit 0 then s1.after (execFlushOut (.tenant p) i s1) else s1

/-- Write one dword of a slice page (R59, R101). -/
def State.pageWrite (s : State) (i : Nat) (p : Option Nat) (o v : Nat) : State :=
  let v := v % 2 ^ 32
  let q := (o - 0x1000) / 32
  let r := (o - 0x1000) % 32
  if o < 0x400 then
    if o % 8 = 0 then s.after (execSlcDbSq i p (o / 8) (v % 4096) s) else s.after (execSlcDbCq i p (o / 8) (v % 4096) s)
  else if 0x1000 ≤ o ∧ o < 0x2000 ∧ r = 0x10 then
    if v.testBit 31 then s.after (execQueuePairEnable i p q (BitVec.ofNat 32 v) s)
    else s.after (execQueuePairDisable i p q (BitVec.ofNat 32 v) s)
  else if o = 0x2100 then s.after (execSlcMbinPtr (.tenant p) i (bitsAt v 0 6) s)
  else if o = 0x2108 ∨ o = 0x210c then s.after (execSlcMboutPush (.tenant p) i false 0 s)
  else if o = 0x3008 then s.after (execSlcNrCtl i p (BitVec.ofNat 32 v) s)
  else if o = 0x300c then s.after (execSlcNrHead i p (v % 4096) s)
  else if o = 0x3818 ∧ v.testBit 0 then s.after (execSlcDmaThaw i p s)
  else s.tenantWrite i p o fun s =>
    if 0x1000 ≤ o ∧ o < 0x2000 ∧ r < 0x10 then s.baseWrite (sliceQ i q) (decide (r < 8)) (r % 8 / 4) v
    else if o = 0x2110 then s.sliceEdit i fun x => { x with up := x.up.stsWrite v }
    else if o = 0x2118 then s.mbCtl i p v
    else if o = 0x3000 ∨ o = 0x3004 then s.sliceEdit i fun x =>
      if x.nr.en then x
      else { x with nr := { x.nr with base := BitVec.ofNat 64 (setDw x.nr.base.toNat ((o - 0x3000) / 4) v / 4096 * 4096) } }
    else s

/-! ### REGISTER_WRITE -/

/-- The host reaches the BARs of a crown in D0 with the link up and the chip out of Stop. -/
def State.barsUp (s : State) : Bool := s.linkUp && !s.inStop && !s.pci.d3hot && s.powered

/-- Cover `size` bytes with 4-byte writes. -/
def twice (size : Nat) (o v : Nat) (f : State → Nat → Nat → State) (s : State) : State :=
  if size = 8 then f (f s o v) (o + 4) (v / 2 ^ 32) else f s o v

/-- REGISTER_WRITE: 4 or 8 bytes, naturally aligned (R473); a write of another form to SLC_MBOUT_PUSH is a SIZE push (R105). -/
def execRegisterWrite (sp : RegSpace) (offset size : Nat) (v : Word) (s : State) : Host.Outcome State Fault Refusal :=
  let ok := (size == 4 || size == 8) && offset % size == 0
  if !s.barsUp then (match sp with | .config r => .next (if s.linkUp ∧ !s.inStop ∧ s.powered then s.cfgWrite r v.toNat else s) | _ => .next s)
  else
    match sp with
    | .config r => .next (s.cfgWrite r v.toNat)
    | .bar0 => .next (if ok then twice size offset v.toNat State.bar0Write s else s)
    | .bar2 =>
      if !ok ∨ 0x4000000 ≤ offset then .next s
      else if size = 8 then .next (s.cuffWrite8 offset v.toNat)
      else .next (s.cuffWrite4 offset v.toNat)
    | .bar4 i p =>
      if !s.pageOk i p then .next (s.bar4Fail i p true offset)
      else if offset = 0x2108 ∧ size = 8 then .next (s.after (execSlcMboutPush (.tenant p) i true v s))
      else if ok then .next (twice size offset v.toNat (fun s o v => s.pageWrite i p o v) s)
      else if offset < 0x2110 ∧ 0x2108 < offset + size then .next (s.after (execSlcMboutPush (.tenant p) i false 0 s))
      else .next s

end Sys2Proof.Machine
end

