-- ==== Sys2Proof/Machine/Sideband.lean ====
section
/-! DEFINITION. The sideband: MCTP READ and WRITE of the Cuff window (R476-R480) and the I3C common command codes (R495). -/

namespace Sys2Proof.Machine

open Sys2Proof

/-! ### MCTP (R478-R480) -/

/-- Every block is released: boot has passed step 4 (R476). -/
def State.released (s : State) : Bool := s.upd.stage != 0

/-- CC of a request (R478); before an image is loaded the chip has no VID to compare with. -/
def State.mctpCc (s : State) (vendor offset count : Nat) : Nat :=
  let vid := match s.img with | some i => i.vid | none => vendor
  if vendor ≠ vid then 1
  else if count < 1 ∨ 60 < count ∨ offset % 4 ≠ 0 then 2
  else if 0x4000000 < offset + 4 * count then 3
  else if !s.released ∧ (List.range count).any (fun k => !earlyBlock (offset + 4 * k)) then 4
  else 0

/-- Read a run of dwords at ascending offsets: the values in order, and the state afterwards. -/
def State.readRun (s : State) (o : Nat) : Nat → List Dword × State
  | 0 => ([], s)
  | n + 1 =>
    let r := s.cuffRead o
    let t := r.2.readRun (o + 4) n
    (BitVec.ofNat 32 r.1 :: t.1, t.2)

/-- Write a run of dwords at ascending offsets; the two halves of a 64-bit register form one access (R479). -/
def State.writeRun (s : State) (o : Nat) : List Dword → State
  | [] => s
  | [a] => s.cuffWrite4 o a.toNat
  | a :: b :: t =>
    if whole64 o then (s.cuffWrite8 o (a.toNat + b.toNat * 2 ^ 32)).writeRun (o + 8) t
    else (s.cuffWrite4 o a.toNat).writeRun (o + 4) (b :: t)

def State.respond (s : State) (port eid seq cc : Nat) (l : List Dword) : State := s.say (.sideband port eid seq cc l)

/-- Keep the response of a request that was performed (R480), and send it. -/
def State.keepResponse (s : State) (port eid seq : Nat) (l : List Dword) : State :=
  { s with side := { s.side with kept := s.side.kept.put (port * 256 + eid) { seq := seq, cc := 0, data := l } } }.respond
    port eid seq 0 l

/-- A request in Stop is an edge wake, and is served after it (R477). -/
def State.sidebandWake (s : State) : State := if s.pwr.st = 2 then s.after (execWake .i3c 0 s) else s

/-- A request: refused with its CC, answered with the kept response when its SEQ is the kept one, or performed. -/
def State.mctp (s : State) (port eid vendor seq offset count : Nat) (act : State → List Dword × State) : State :=
  if 2 ≤ port then s
  else
    let s1 := s.sidebandWake
    let cc := s1.mctpCc vendor offset count
    match s1.side.kept.look (port * 256 + eid) with
    | some k =>
      if k.seq = seq then s1.respond port eid seq k.cc k.data
      else if cc ≠ 0 then s1.respond port eid seq cc []
      else let r := act s1; r.2.keepResponse port eid seq r.1
    | none =>
      if cc ≠ 0 then s1.respond port eid seq cc []
      else let r := act s1; r.2.keepResponse port eid seq r.1

/-- MCTP_READ. A free value shown by one of the dwords is used up. -/
def execMctpRead (port eid vendor seq offset count : Nat) (s : State) : Host.Outcome State Fault Refusal :=
  .next (s.mctp port eid vendor seq offset count fun s =>
    let r := s.readRun offset count
    (r.1, r.2.freeStep))

/-- MCTP_WRITE. -/
def execMctpWrite (port eid vendor seq offset count : Nat) (dws : List Dword) (s : State) : Host.Outcome State Fault Refusal :=
  .next (s.mctp port eid vendor seq offset count fun s => ([], s.writeRun offset ((List.range count).map fun k => dws.getD k 0)))

/-! ### I3C (R495) -/

/-- I3C_CCC. ENTDAA and SETDASA give an address to a port that has none; what GETBCR, GETDCR, GETSTATUS and GETMXDS return
apart from tSCO is not stated. -/
def execI3cCcc (port : Nat) (c : Ccc) (s : State) : Host.Outcome State Fault Refusal :=
  if 2 ≤ port then .next s
  else
    let ans := fun (l : List Nat) => (Host.Outcome.next (s.say (.i3c port l)) : Host.Outcome State Fault Refusal)
    let open_ := fun (a : Nat) => (Host.Outcome.next
      (if s.side.addr.has port then s else { s with side := { s.side with addr := s.side.addr.put port a } }) : Host.Outcome State Fault Refusal)
    match c with
    | .entdaa a => open_ a
    | .setdasa a => open_ a
    | .enec => .next ({ s with side := { s.side with ibiEn := s.side.ibiEn.put port true } }.ibiEval)
    | .disec => .next { s with side := { s.side with ibiEn := s.side.ibiEn.put port false } }
    | .rstdaa => .next { s with side := { s.side with addr := s.side.addr.del port } }
    | .getpid => ans [match s.img with | some i => i.vid | none => 0, Config.partSerial % 2 ^ 32]
    | .getbcr | .getdcr | .getstatus => .next ((s.say (.i3c port [s.freeVal])).freeStep)
    | .getmxds => .next ((s.say (.i3c port [12, s.freeVal])).freeStep)
    | .rstact => .next s

end Sys2Proof.Machine
end

