-- ==== Sys2Proof/Machine/Dispatch.lean ====
section
/-! DEFINITION. Which meaning each command has: one arm per constructor. -/

namespace Sys2Proof.Machine

open Sys2Proof

/-- The effect of a command on everything but the queue. -/
def exec (i : Instr) (s : State) : Host.Outcome State Fault Refusal :=
  match i with
  | .createIoSq ctx => Sys2Proof.Machine.execCreateIoSq ctx s
  | .deleteIoSq ctx => Sys2Proof.Machine.execDeleteIoSq ctx s
  | .createIoCq ctx => Sys2Proof.Machine.execCreateIoCq ctx s
  | .deleteIoCq ctx => Sys2Proof.Machine.execDeleteIoCq ctx s
  | .getLogPage ctx => Sys2Proof.Machine.execGetLogPage ctx s
  | .identify ctx => Sys2Proof.Machine.execIdentify ctx s
  | .abort ctx => Sys2Proof.Machine.execAbort ctx s
  | .setFeatures ctx => Sys2Proof.Machine.execSetFeatures ctx s
  | .getFeatures ctx => Sys2Proof.Machine.execGetFeatures ctx s
  | .asyncEventRequest ctx => Sys2Proof.Machine.execAsyncEventRequest ctx s
  | .nsCreate ctx d => Sys2Proof.Machine.execNsCreate ctx d s
  | .nsDelete ctx => Sys2Proof.Machine.execNsDelete ctx s
  | .nsAttach ctx controllers => Sys2Proof.Machine.execNsAttach ctx controllers s
  | .fwDownload ctx blocks => Sys2Proof.Machine.execFwDownload ctx blocks s
  | .fwCommit ctx pkg => Sys2Proof.Machine.execFwCommit ctx pkg s
  | .keepAlive ctx => Sys2Proof.Machine.execKeepAlive ctx s
  | .keepAliveExpiry => Sys2Proof.Machine.execKeepAliveExpiry s
  | .sanitizeCrypto ctx => Sys2Proof.Machine.execSanitizeCrypto ctx s
  | .sanitizeBlock ctx => Sys2Proof.Machine.execSanitizeBlock ctx s
  | .sanitizeExit ctx => Sys2Proof.Machine.execSanitizeExit ctx s
  | .createSlice ctx d => Sys2Proof.Machine.execCreateSlice ctx d s
  | .destroySlice ctx => Sys2Proof.Machine.execDestroySlice ctx s
  | .sliceReturned slice => Sys2Proof.Machine.execSliceReturned slice s
  | .quiesce ctx d => Sys2Proof.Machine.execQuiesce ctx d s
  | .change ctx d => Sys2Proof.Machine.execChange ctx d s
  | .resume ctx d => Sys2Proof.Machine.execResume ctx d s
  | .freeze ctx d => Sys2Proof.Machine.execFreeze ctx d s
  | .quiesceTimeout slice => Sys2Proof.Machine.execQuiesceTimeout slice s
  | .thawQueue ctx => Sys2Proof.Machine.execThawQueue ctx s
  | .keyRotate ctx d => Sys2Proof.Machine.execKeyRotate ctx d s
  | .keyRenew ctx d => Sys2Proof.Machine.execKeyRenew ctx d s
  | .keyStop ctx d => Sys2Proof.Machine.execKeyStop ctx d s
  | .meterFetch ctx => Sys2Proof.Machine.execMeterFetch ctx s
  | .cascadeStatus ctx => Sys2Proof.Machine.execCascadeStatus ctx s
  | .scrubRange ctx => Sys2Proof.Machine.execScrubRange ctx s
  | .flush ctx => Sys2Proof.Machine.execFlush ctx s
  | .writeCmd ctx => Sys2Proof.Machine.execWriteCmd ctx s
  | .readCmd ctx => Sys2Proof.Machine.execReadCmd ctx s
  | .zoneAppend ctx => Sys2Proof.Machine.execZoneAppend ctx s
  | .dsm ctx ranges => Sys2Proof.Machine.execDsm ctx ranges s
  | .sanitizingDeallocate ctx ranges => Sys2Proof.Machine.execSanitizingDeallocate ctx ranges s
  | .zoneOpen ctx => Sys2Proof.Machine.execZoneOpen ctx s
  | .zoneClose ctx => Sys2Proof.Machine.execZoneClose ctx s
  | .zoneFinish ctx => Sys2Proof.Machine.execZoneFinish ctx s
  | .zoneReset ctx => Sys2Proof.Machine.execZoneReset ctx s
  | .sanitizingReset ctx => Sys2Proof.Machine.execSanitizingReset ctx s
  | .zoneOffline ctx => Sys2Proof.Machine.execZoneOffline ctx s
  | .zoneMgmtReceive ctx => Sys2Proof.Machine.execZoneMgmtReceive ctx s
  | .pfSqDoorbell qid value => Sys2Proof.Machine.execPfSqDoorbell qid value s
  | .pfCqDoorbell qid value => Sys2Proof.Machine.execPfCqDoorbell qid value s
  | .slcDbSq slice pasid q value => Sys2Proof.Machine.execSlcDbSq slice pasid q value s
  | .slcDbCq slice pasid q value => Sys2Proof.Machine.execSlcDbCq slice pasid q value s
  | .queuePairEnable slice pasid q v => Sys2Proof.Machine.execQueuePairEnable slice pasid q v s
  | .queuePairDisable slice pasid q v => Sys2Proof.Machine.execQueuePairDisable slice pasid q v s
  | .slcMboutPush p slice aligned8 word => Sys2Proof.Machine.execSlcMboutPush p slice aligned8 word s
  | .flushIn p slice => Sys2Proof.Machine.execFlushIn p slice s
  | .flushOut p slice => Sys2Proof.Machine.execFlushOut p slice s
  | .slcMbinPtr p slice head => Sys2Proof.Machine.execSlcMbinPtr p slice head s
  | .slcNrCtl slice pasid v => Sys2Proof.Machine.execSlcNrCtl slice pasid v s
  | .slcNrHead slice pasid head => Sys2Proof.Machine.execSlcNrHead slice pasid head s
  | .slcDmaThaw slice pasid => Sys2Proof.Machine.execSlcDmaThaw slice pasid s
  | .dmaThaw chan => Sys2Proof.Machine.execDmaThaw chan s
  | .ccEnSet cc => Sys2Proof.Machine.execCcEnSet cc s
  | .ccEnClear => Sys2Proof.Machine.execCcEnClear s
  | .shutdownNotification shn => Sys2Proof.Machine.execShutdownNotification shn s
  | .perstAsserted => Sys2Proof.Machine.execPerstAsserted s
  | .perstDeasserted => Sys2Proof.Machine.execPerstDeasserted s
  | .functionLevelReset => Sys2Proof.Machine.execFunctionLevelReset s
  | .hotReset => Sys2Proof.Machine.execHotReset s
  | .pasidEnableCleared => Sys2Proof.Machine.execPasidEnableCleared s
  | .bar4CheckFailure slice pasid isWrite offset => Sys2Proof.Machine.execBar4CheckFailure slice pasid isWrite offset s
  | .submissionFetch q e => Sys2Proof.Machine.execSubmissionFetch q e s
  | .checkpointPersisted value => Sys2Proof.Machine.execCheckpointPersisted value s
  | .commit stamp zone => Sys2Proof.Machine.execCommit stamp zone s
  | .unitTransferDone ctx unit body host o => Sys2Proof.Machine.execUnitTransferDone ctx unit body host o s
  | .fenceAcknowledged k tag => Sys2Proof.Machine.execFenceAcknowledged k tag s
  | .completionPost ctx => Sys2Proof.Machine.execCompletionPost ctx s
  | .busError q ctx cause src addr unit => Sys2Proof.Machine.execBusError q ctx cause src addr unit s
  | .dmaCompletionTimeout q ctx src addr unit => Sys2Proof.Machine.execDmaCompletionTimeout q ctx src addr unit s
  | .bpmRevoke slice => Sys2Proof.Machine.execBpmRevoke slice s
  | .hayrickCacheRefill store => Sys2Proof.Machine.execHayrickCacheRefill store s
  | .unitEntersScheduler ctx unit => Sys2Proof.Machine.execUnitEntersScheduler ctx unit s
  | .dieNextChoice die => Sys2Proof.Machine.execDieNextChoice die s
  | .dutyEvaluation die pct sharePct => Sys2Proof.Machine.execDutyEvaluation die pct sharePct s
  | .pageReadComplete op => Sys2Proof.Machine.execPageReadComplete op s
  | .codewordDecodeDone op unit syndromeZero crcOk tagOk weight => Sys2Proof.Machine.execCodewordDecodeDone op unit syndromeZero crcOk tagOk weight s
  | .reconstructionDone ctx unit sourcesOk relationOk => Sys2Proof.Machine.execReconstructionDone ctx unit sourcesOk relationOk s
  | .pageProgramComplete op pass dieTemp => Sys2Proof.Machine.execPageProgramComplete op pass dieTemp s
  | .blockEraseComplete op pass => Sys2Proof.Machine.execBlockEraseComplete op pass s
  | .suspendComplete die => Sys2Proof.Machine.execSuspendComplete die s
  | .operationTimeout op => Sys2Proof.Machine.execOperationTimeout op s
  | .programFailure die block row => Sys2Proof.Machine.execProgramFailure die block row s
  | .dieFailure die cause => Sys2Proof.Machine.execDieFailure die cause s
  | .rebuildRowFinished zone row => Sys2Proof.Machine.execRebuildRowFinished zone row s
  | .migrationCopyDone zone => Sys2Proof.Machine.execMigrationCopyDone zone s
  | .channelRetrain ch pass eyeRd eyeWr later => Sys2Proof.Machine.execChannelRetrain ch pass eyeRd eyeWr later s
  | .stagingTick => Sys2Proof.Machine.execStagingTick s
  | .checkTick => Sys2Proof.Machine.execCheckTick s
  | .zneCfgCommit => Sys2Proof.Machine.execZneCfgCommit s
  | .sramUncorrectable port wordAddr ctx raw other repairOk => Sys2Proof.Machine.execSramUncorrectable port wordAddr ctx raw other repairOk s
  | .dramUncorrectable addr port b ctx unit rebuilt repairOk => Sys2Proof.Machine.execDramUncorrectable addr port b ctx unit rebuilt repairOk s
  | .commandError addr port k => Sys2Proof.Machine.execCommandError addr port k s
  | .correctedError m port queued => Sys2Proof.Machine.execCorrectedError m port queued s
  | .microcodeTrap blk verifyOk again => Sys2Proof.Machine.execMicrocodeTrap blk verifyOk again s
  | .microcodeBlockFetch blk firstOk secondOk suspended => Sys2Proof.Machine.execMicrocodeBlockFetch blk firstOk secondOk suspended s
  | .refreshInterval mr4 draws dropped => Sys2Proof.Machine.execRefreshInterval mr4 draws dropped s
  | .dqsOscillatorRead ch drift panicWait => Sys2Proof.Machine.execDqsOscillatorRead ch drift panicWait s
  | .programStreamPanic ch level => Sys2Proof.Machine.execProgramStreamPanic ch level s
  | .panicEnd group => Sys2Proof.Machine.execPanicEnd group s
  | .entropyHealthFailure => Sys2Proof.Machine.execEntropyHealthFailure s
  | .ubpelRekey port tx => Sys2Proof.Machine.execUbpelRekey port tx s
  | .join port trained => Sys2Proof.Machine.execJoin port trained s
  | .hello port m => Sys2Proof.Machine.execHello port m s
  | .auth port sigOk => Sys2Proof.Machine.execAuth port sigOk s
  | .ident f m => Sys2Proof.Machine.execIdent f m s
  | .ack f acked credits => Sys2Proof.Machine.execAck f acked credits s
  | .stampFrame f entries => Sys2Proof.Machine.execStampFrame f entries s
  | .lease f op => Sys2Proof.Machine.execLease f op s
  | .timeFrame f crownNs rttNs => Sys2Proof.Machine.execTimeFrame f crownNs rttNs s
  | .digest f check shared islandNs => Sys2Proof.Machine.execDigest f check shared islandNs s
  | .sag f => Sys2Proof.Machine.execSag f s
  | .dataFrame f stamp zone unit content md => Sys2Proof.Machine.execDataFrame f stamp zone unit content md s
  | .staged f stamp => Sys2Proof.Machine.execStaged f stamp s
  | .readReq f req zone units => Sys2Proof.Machine.execReadReq f req zone units s
  | .readData f ctx unit content md => Sys2Proof.Machine.execReadData f ctx unit content md s
  | .mediaEvent f k => Sys2Proof.Machine.execMediaEvent f k s
  | .snapshot f body shared stamp last => Sys2Proof.Machine.execSnapshot f body shared stamp last s
  | .update f op => Sys2Proof.Machine.execUpdate f op s
  | .vote f v => Sys2Proof.Machine.execVote f v s
  | .voteTimeout => Sys2Proof.Machine.execVoteTimeout s
  | .ackTimeout port vc mseq => Sys2Proof.Machine.execAckTimeout port vc mseq s
  | .linkDown port cause => Sys2Proof.Machine.execLinkDown port cause s
  | .portTrainingRetry port => Sys2Proof.Machine.execPortTrainingRetry port s
  | .joinwaitExpiry => Sys2Proof.Machine.execJoinwaitExpiry s
  | .leaseRenew chip => Sys2Proof.Machine.execLeaseRenew chip s
  | .leaseExpiry zone => Sys2Proof.Machine.execLeaseExpiry zone s
  | .linkLossFence chip => Sys2Proof.Machine.execLinkLossFence chip s
  | .timeSend port => Sys2Proof.Machine.execTimeSend port s
  | .excludeChip chip => Sys2Proof.Machine.execExcludeChip chip s
  | .includeChip chip => Sys2Proof.Machine.execIncludeChip chip s
  | .fenceChip chip => Sys2Proof.Machine.execFenceChip chip s
  | .resyncChip chip => Sys2Proof.Machine.execResyncChip chip s
  | .stopOrder f => Sys2Proof.Machine.execStopOrder f s
  | .tallyBatch stamp crownNs rows => Sys2Proof.Machine.execTallyBatch stamp crownNs rows s
  | .intervalClose ppm => Sys2Proof.Machine.execIntervalClose ppm s
  | .recordStored recno => Sys2Proof.Machine.execRecordStored recno s
  | .meterMerge verified => Sys2Proof.Machine.execMeterMerge verified s
  | .islandStart programOk chainOk swid swck => Sys2Proof.Machine.execIslandStart programOk chainOk swid swck s
  | .islandSupplyLoss => Sys2Proof.Machine.execIslandSupplyLoss s
  | .sealChange openLevel => Sys2Proof.Machine.execSealChange openLevel s
  | .mtrSwckGo sum => Sys2Proof.Machine.execMtrSwckGo sum s
  | .hourlyChecksum sum => Sys2Proof.Machine.execHourlyChecksum sum s
  | .crystal32kStop => Sys2Proof.Machine.execCrystal32kStop s
  | .crystal25mStop => Sys2Proof.Machine.execCrystal25mStop s
  | .mtrAck v => Sys2Proof.Machine.execMtrAck v s
  | .mtrParamCommit => Sys2Proof.Machine.execMtrParamCommit s
  | .mtrRecSel recno => Sys2Proof.Machine.execMtrRecSel recno s
  | .stopEntry elapsedMs sources => Sys2Proof.Machine.execStopEntry elapsedMs sources s
  | .wake src elapsedNs => Sys2Proof.Machine.execWake src elapsedNs s
  | .aoBrownOutReset => Sys2Proof.Machine.execAoBrownOutReset s
  | .budgetRecompute => Sys2Proof.Machine.execBudgetRecompute s
  | .chargerRegulation => Sys2Proof.Machine.execChargerRegulation s
  | .brmTestGo m => Sys2Proof.Machine.execBrmTestGo m s
  | .testPeriodExpiry m => Sys2Proof.Machine.execTestPeriodExpiry m s
  | .brimTestRetry m => Sys2Proof.Machine.execBrimTestRetry m s
  | .huPfailLow => Sys2Proof.Machine.execHuPfailLow s
  | .inputRailSag => Sys2Proof.Machine.execInputRailSag s
  | .inputGoodRestart => Sys2Proof.Machine.execInputGoodRestart s
  | .supplyReset => Sys2Proof.Machine.execSupplyReset s
  | .sysRstN => Sys2Proof.Machine.execSysRstN s
  | .powerOnResetRelease b => Sys2Proof.Machine.execPowerOnResetRelease b s
  | .glitchDetectorsArm => Sys2Proof.Machine.execGlitchDetectorsArm s
  | .heatherSample site raw bias => Sys2Proof.Machine.execHeatherSample site raw bias s
  | .stepDown => Sys2Proof.Machine.execStepDown s
  | .tapChange region => Sys2Proof.Machine.execTapChange region s
  | .replicaPathFailure region => Sys2Proof.Machine.execReplicaPathFailure region s
  | .equalisationRefresh port => Sys2Proof.Machine.execEqualisationRefresh port s
  | .adcSample isnsUv vsnsUv => Sys2Proof.Machine.execAdcSample isnsUv vsnsUv s
  | .thistleConversion chan code ovHi ovLo => Sys2Proof.Machine.execThistleConversion chan code ovHi ovLo s
  | .voltageGlitch detail standing => Sys2Proof.Machine.execVoltageGlitch detail standing s
  | .dieShieldCheck pass segment => Sys2Proof.Machine.execDieShieldCheck pass segment s
  | .alarmLatchClear mask => Sys2Proof.Machine.execAlarmLatchClear mask s
  | .logClear => Sys2Proof.Machine.execLogClear s
  | .eflRead doubleBit corrected => Sys2Proof.Machine.execEflRead doubleBit corrected s
  | .eflProgram => Sys2Proof.Machine.execEflProgram s
  | .eflErase => Sys2Proof.Machine.execEflErase s
  | .oemUnlock => Sys2Proof.Machine.execOemUnlock s
  | .oemLock => Sys2Proof.Machine.execOemLock s
  | .setPassword => Sys2Proof.Machine.execSetPassword s
  | .writeMask => Sys2Proof.Machine.execWriteMask s
  | .eflRdp target => Sys2Proof.Machine.execEflRdp target s
  | .eflOperationComplete => Sys2Proof.Machine.execEflOperationComplete s
  | .discard => Sys2Proof.Machine.execDiscard s
  | .discardEraseDone => Sys2Proof.Machine.execDiscardEraseDone s
  | .confirm => Sys2Proof.Machine.execConfirm s
  | .queryDeviceIdentifiers => Sys2Proof.Machine.execQueryDeviceIdentifiers s
  | .getFirmwareParameters => Sys2Proof.Machine.execGetFirmwareParameters s
  | .requestUpdate maxTransfer => Sys2Proof.Machine.execRequestUpdate maxTransfer s
  | .passComponentTable stamp => Sys2Proof.Machine.execPassComponentTable stamp s
  | .updateComponent stamp imageSize => Sys2Proof.Machine.execUpdateComponent stamp imageSize s
  | .requestFirmwareData blk content => Sys2Proof.Machine.execRequestFirmwareData blk content s
  | .transferComplete => Sys2Proof.Machine.execTransferComplete s
  | .verifyComplete pkg => Sys2Proof.Machine.execVerifyComplete pkg s
  | .applyComplete => Sys2Proof.Machine.execApplyComplete s
  | .activateFirmware selfContained => Sys2Proof.Machine.execActivateFirmware selfContained s
  | .getStatus => Sys2Proof.Machine.execGetStatus s
  | .cancelUpdateComponent => Sys2Proof.Machine.execCancelUpdateComponent s
  | .cancelUpdate => Sys2Proof.Machine.execCancelUpdate s
  | .norOperationComplete => Sys2Proof.Machine.execNorOperationComplete s
  | .mctpRead port eid vendor seq offset count => Sys2Proof.Machine.execMctpRead port eid vendor seq offset count s
  | .mctpWrite port eid vendor seq offset count dws => Sys2Proof.Machine.execMctpWrite port eid vendor seq offset count dws s
  | .histSnap alsoClear => Sys2Proof.Machine.execHistSnap alsoClear s
  | .histClear => Sys2Proof.Machine.execHistClear s
  | .lockSet blk => Sys2Proof.Machine.execLockSet blk s
  | .registerWrite sp offset size v => Sys2Proof.Machine.execRegisterWrite sp offset size v s
  | .rdyBound => Sys2Proof.Machine.execRdyBound s
  | .scrubComplete raw check other ctx unit rebuilt repairOk queued ms => Sys2Proof.Machine.execScrubComplete raw check other ctx unit rebuilt repairOk queued ms s
  | .pcieLinkUp rate width flit => Sys2Proof.Machine.execPcieLinkUp rate width flit s
  | .vectorUnmask vec => Sys2Proof.Machine.execVectorUnmask vec s
  | .functionPowerStateChange d3hot pme => Sys2Proof.Machine.execFunctionPowerStateChange d3hot pme s
  | .i3cCcc port c => Sys2Proof.Machine.execI3cCcc port c s

end Sys2Proof.Machine
end

