-- ==== Sys2Proof/Machine/Tick.lean ====
section
/-! DEFINITION. What passes when no command waits: one nanosecond of crown time, and of island time while the
island runs; a log clear under way ends (R461). -/

namespace Sys2Proof.Machine

/-- One nanosecond passes. -/
def State.tick (s : State) : State :=
  let s1 := s.logWiped
  { s1 with now := s1.now + 1, mtr := { s1.mtr with time := if s1.mtr.run then s1.mtr.time + 1 else s1.mtr.time } }

end Sys2Proof.Machine
end

