-- ==== Sys2Proof/Safety.lean ====
section
/-! DEFINITION. What counts as a safe run of the block, in the terms the claims use: the parts of the state and what it
is for two states to agree outside some parts, the parts that each command may change, the forms that the addressed
memories and the Tussock log keep, and the promises that every step keeps. -/

namespace Sys2Proof.Safety

open Sys2Proof Sys2Proof.Machine

/-- The step answers a next state: the block neither stops with a fault nor refuses. -/
def Runs (s : State) : Prop := ∃ t, step s = .next t

/-! ### Parts of the state -/

/-- The parts of the state: one for each field of `State`. -/
inductive Piece where
  | pending
  | now
  | free
  | out
  | img
  | manifest
  | pci
  | nvme
  | sqs
  | cqs
  | qrecs
  | ctxs
  | slices
  | nss
  | zones
  | gate
  | staging
  | toks
  | bpm
  | dma
  | sward
  | blocks
  | dies
  | flash
  | fch
  | zne
  | par
  | lat
  | drc
  | ecc
  | key
  | cas
  | mtr
  | pwr
  | brm
  | thm
  | mon
  | upd
  | nv
  | efl
  | evt
  | log
  | side
  deriving DecidableEq, Repr

/-- Every part. -/
def Piece.every : List Piece :=
  [.pending, .now, .free, .out, .img, .manifest, .pci, .nvme, .sqs, .cqs, .qrecs, .ctxs, .slices, .nss,
   .zones, .gate, .staging, .toks, .bpm, .dma, .sward, .blocks, .dies, .flash, .fch, .zne, .par, .lat, .drc, .ecc,
   .key, .cas, .mtr, .pwr, .brm, .thm, .mon, .upd, .nv, .efl, .evt, .log, .side]

/-- Two states agree on a part. -/
def Piece.same (s t : State) : Piece → Prop
  | .pending => t.pending = s.pending
  | .now => t.now = s.now
  | .free => t.free = s.free
  | .out => t.out = s.out
  | .img => t.img = s.img
  | .manifest => t.manifest = s.manifest
  | .pci => t.pci = s.pci
  | .nvme => t.nvme = s.nvme
  | .sqs => t.sqs = s.sqs
  | .cqs => t.cqs = s.cqs
  | .qrecs => t.qrecs = s.qrecs
  | .ctxs => t.ctxs = s.ctxs
  | .slices => t.slices = s.slices
  | .nss => t.nss = s.nss
  | .zones => t.zones = s.zones
  | .gate => t.gate = s.gate
  | .staging => t.staging = s.staging
  | .toks => t.toks = s.toks
  | .bpm => t.bpm = s.bpm
  | .dma => t.dma = s.dma
  | .sward => t.sward = s.sward
  | .blocks => t.blocks = s.blocks
  | .dies => t.dies = s.dies
  | .flash => t.flash = s.flash
  | .fch => t.fch = s.fch
  | .zne => t.zne = s.zne
  | .par => t.par = s.par
  | .lat => t.lat = s.lat
  | .drc => t.drc = s.drc
  | .ecc => t.ecc = s.ecc
  | .key => t.key = s.key
  | .cas => t.cas = s.cas
  | .mtr => t.mtr = s.mtr
  | .pwr => t.pwr = s.pwr
  | .brm => t.brm = s.brm
  | .thm => t.thm = s.thm
  | .mon => t.mon = s.mon
  | .upd => t.upd = s.upd
  | .nv => t.nv = s.nv
  | .efl => t.efl = s.efl
  | .evt => t.evt = s.evt
  | .log => t.log = s.log
  | .side => t.side = s.side

/-- Two states agree on every part that is not listed: the frame of a command that may change the listed parts. -/
def Same (r : List Piece) (s t : State) : Prop := ∀ p, p ∉ r → p.same s t

/-! ### What a command may change -/

/-- Every part but the queue of waiting commands. -/
def Piece.rest : List Piece := Piece.every.filter (· ≠ .pending)

/-- What the commit of the ticks and media events that are due may change. -/
def Piece.system : List Piece := [.free, .out, .nvme, .sqs, .qrecs, .ctxs, .slices, .zones, .gate, .staging, .toks, .bpm, .dma,
  .sward, .blocks, .dies, .flash, .fch, .zne, .par, .lat, .key, .cas, .mtr, .upd, .nv, .evt, .log]

/-- What the failure of a write may change. -/
def Piece.fails : List Piece := [.out, .sqs, .qrecs, .ctxs, .slices, .zones, .gate, .staging, .toks, .bpm, .dma, .sward, .dies,
  .fch, .par, .key, .evt, .log]

/-- What the gate changes for an admin entry. -/
def Piece.admin : List Piece := [.sqs, .qrecs, .ctxs, .gate, .dma]

/-- What an event changes. -/
def Piece.event : List Piece := [.out, .evt, .log]

/-- An event and some further parts. -/
def Piece.withEvent (r : List Piece) : List Piece := Piece.event ++ r

/-- The parts that a command may change, whatever the state. -/
def touch : Instr → List Piece
  | .createIoSq _ | .deleteIoSq _ | .abort _ | .getFeatures _ | .thawQueue _ | .keyRotate _ _ | .keyRenew _ _
  | .keyStop _ _ => Piece.admin
  | .createIoCq _ | .deleteIoCq _ => Piece.admin ++ [.cqs]
  | .getLogPage _ => Piece.admin ++ [.free, .out, .nvme, .nss, .log]
  | .identify _ | .cascadeStatus _ => Piece.admin ++ [.out]
  | .setFeatures _ => Piece.admin ++ [.nvme, .nv]
  | .asyncEventRequest _ | .keepAlive _ | .sanitizeBlock _ | .sanitizeExit _ => Piece.admin ++ [.nvme]
  | .nsCreate _ _ => Piece.admin ++ [.nss, .zones, .zne, .nv]
  | .nsDelete _ => Piece.fails ++ [.nvme, .nss, .blocks, .zne, .cas, .nv]
  | .nsAttach _ _ => Piece.admin ++ [.nvme, .nss, .nv]
  | .fwDownload _ _ => Piece.admin ++ [.nv]
  | .fwCommit _ _ => Piece.admin ++ Piece.event ++ [.sward, .cas, .nv]
  | .keepAliveExpiry => Piece.event
  | .sanitizeCrypto _ => Piece.admin ++ Piece.event ++ [.nvme]
  | .createSlice _ _ => Piece.admin ++ Piece.event ++ [.free, .cqs, .slices, .sward, .lat, .key, .cas, .mtr, .nv]
  | .destroySlice _ | .busError _ _ _ _ _ _ | .dmaCompletionTimeout _ _ _ _ _ | .bpmRevoke _ => Piece.fails
  | .sliceReturned _ => [.out, .sqs, .cqs, .qrecs, .ctxs, .slices, .toks, .dma, .sward, .lat, .cas, .mtr, .nv, .evt]
  | .quiesce _ _ | .resume _ _ => Piece.admin ++ [.out, .slices, .evt]
  | .change _ _ => Piece.admin ++ [.out, .slices, .sward, .cas, .nv, .evt]
  | .freeze _ _ => Piece.admin ++ Piece.event ++ [.slices]
  | .quiesceTimeout _ => Piece.event ++ [.sqs, .qrecs, .ctxs, .slices]
  | .meterFetch _ => Piece.admin ++ [.out, .sward, .cas]
  | .scrubRange _ => Piece.admin ++ [.ecc]
  | .flush _ | .readCmd _ | .dsm _ _ | .sanitizingDeallocate _ _ | .zoneOpen _ | .zoneClose _ | .zoneFinish _
  | .zoneReset _ | .sanitizingReset _ | .zoneOffline _ | .zoneMgmtReceive _ => Piece.admin ++ [.bpm]
  | .writeCmd _ | .zoneAppend _ => Piece.admin ++ Piece.event ++ [.slices, .staging, .bpm, .key]
  | .pfSqDoorbell _ _ => [.nvme, .sqs, .qrecs, .ctxs]
  | .pfCqDoorbell _ _ => [.nvme, .sqs, .cqs, .qrecs, .ctxs]
  | .slcDbSq _ _ _ _ => Piece.event ++ [.pci, .sqs, .slices]
  | .slcDbCq _ _ _ _ => Piece.event ++ [.pci, .cqs, .slices]
  | .queuePairEnable _ _ _ _ => Piece.event ++ [.pci, .sqs, .cqs, .qrecs]
  | .queuePairDisable _ _ _ _ => Piece.event ++ [.pci, .sqs, .qrecs, .ctxs]
  | .slcMboutPush _ _ _ _ | .flushIn _ _ | .flushOut _ _ | .slcMbinPtr _ _ _ | .slcNrCtl _ _ _ | .slcNrHead _ _ _ =>
    Piece.event ++ [.pci, .slices]
  | .slcDmaThaw _ _ => Piece.event ++ [.pci, .ctxs, .dma]
  | .dmaThaw _ => [.ctxs, .dma]
  | .ccEnSet _ => Piece.admin ++ Piece.event ++ [.nvme, .cqs, .slices, .zones, .staging, .toks, .bpm, .blocks, .dies,
    .flash, .fch, .zne, .par, .key, .brm, .upd, .nv]
  | .ccEnClear => Piece.fails ++ [.free, .nvme, .cqs, .nss, .blocks, .flash, .mtr, .brm, .nv]
  | .shutdownNotification _ | .brmTestGo _ | .testPeriodExpiry _ | .brimTestRetry _ => Piece.fails ++ [.free, .nvme,
    .blocks, .flash, .cas, .mtr, .brm, .nv]
  | .perstAsserted | .functionLevelReset | .hotReset => Piece.fails ++ [.free, .pci, .nvme, .cqs, .nss, .blocks,
    .flash, .mtr, .brm, .nv]
  | .perstDeasserted | .functionPowerStateChange _ _ => [.pci]
  | .pasidEnableCleared => Piece.event ++ [.pci, .sqs, .qrecs, .ctxs, .slices]
  | .bar4CheckFailure _ _ _ _ => Piece.event ++ [.pci]
  | .submissionFetch _ _ => [.sqs, .ctxs, .gate, .bpm, .sward]
  | .checkpointPersisted _ => [.gate, .dma, .nv]
  | .commit _ _ => Piece.system ++ [.nss]
  | .unitTransferDone _ _ _ _ _ | .voltageGlitch _ _ | .dieShieldCheck _ _ => Piece.fails ++ [.free, .nvme,
    .blocks, .zne, .cas]
  | .fenceAcknowledged _ _ => [.dma]
  | .completionPost _ => Piece.fails ++ [.free, .nvme, .cqs, .blocks, .flash, .lat, .mtr, .brm, .nv]
  | .hayrickCacheRefill _ => [.free, .bpm]
  | .unitEntersScheduler _ _ => Piece.event ++ [.nvme, .sqs, .qrecs, .ctxs, .slices, .bpm, .sward, .blocks, .dies,
    .fch, .lat, .cas]
  | .dieNextChoice _ => [.ctxs, .slices, .bpm, .sward, .dies, .fch, .lat]
  | .dutyEvaluation _ _ _ => [.dies, .lat]
  | .pageReadComplete _ => [.bpm, .sward, .dies, .fch, .mtr]
  | .codewordDecodeDone _ _ _ _ _ _ | .operationTimeout _ | .programFailure _ _ _ | .dieFailure _ _
  | .rebuildRowFinished _ _ | .migrationCopyDone _ | .channelRetrain _ _ _ _ _ => Piece.fails ++ [.nvme, .blocks, .flash,
    .zne, .lat, .cas, .nv]
  | .reconstructionDone _ _ _ _ => Piece.event ++ [.nvme, .sqs, .qrecs, .ctxs, .bpm, .dma, .sward, .blocks, .dies,
    .fch, .lat, .cas]
  | .pageProgramComplete _ _ _ => Piece.fails ++ [.nvme, .blocks, .flash, .zne, .mtr, .nv]
  | .blockEraseComplete _ _ => Piece.fails ++ [.nvme, .blocks, .flash, .zne, .lat, .cas, .mtr, .nv]
  | .suspendComplete _ => [.dies, .fch]
  | .stagingTick | .zneCfgCommit | .digest _ _ _ _ | .sag _ | .mediaEvent _ _ | .joinwaitExpiry | .linkLossFence _
  | .excludeChip _ | .includeChip _ | .fenceChip _ | .resyncChip _ => Piece.system
  | .checkTick | .ident _ _ | .update _ _ | .vote _ _ | .aoBrownOutReset | .inputGoodRestart | .supplyReset
  | .sysRstN | .powerOnResetRelease _ | .activateFirmware _ | .norOperationComplete => Piece.rest
  | .sramUncorrectable _ _ _ _ _ _ | .microcodeTrap _ _ _ => Piece.fails ++ [.free, .nvme, .blocks, .flash, .ecc,
    .cas, .mtr, .brm, .nv]
  | .dramUncorrectable _ _ _ _ _ _ _ | .commandError _ _ _ | .scrubComplete _ _ _ _ _ _ _ _ _ => Piece.fails ++ [.free, .nvme, .blocks,
    .flash, .drc, .ecc, .cas, .mtr, .brm, .nv]
  | .correctedError _ _ _ => Piece.event ++ [.drc, .ecc]
  | .microcodeBlockFetch _ _ _ _ => Piece.fails ++ [.free, .nvme, .blocks, .flash, .cas, .mtr, .brm, .upd, .nv]
  | .refreshInterval _ _ _ | .dqsOscillatorRead _ _ _ | .programStreamPanic _ _ | .panicEnd _ => [.drc]
  | .entropyHealthFailure => [.key]
  | .ubpelRekey _ _ | .portTrainingRetry _ | .leaseExpiry _ | .equalisationRefresh _ => [.cas]
  | .join _ _ | .hello _ _ | .auth _ _ | .ack _ _ _ | .lease _ _ | .dataFrame _ _ _ _ _ _ | .staged _ _
  | .ackTimeout _ _ _ | .linkDown _ _ => Piece.fails ++ [.cas, .nv]
  | .stampFrame _ _ | .snapshot _ _ _ _ _ => Piece.fails ++ [.free, .nvme, .nss, .blocks, .flash, .zne, .lat,
    .cas, .mtr, .brm, .nv]
  | .timeFrame _ _ _ => Piece.fails ++ [.now, .cas, .nv]
  | .readReq _ _ _ _ => Piece.fails ++ [.free, .cas, .mtr, .nv]
  | .readData _ _ _ _ _ => Piece.fails ++ [.nvme, .blocks, .lat, .cas, .nv]
  | .voteTimeout => Piece.event ++ [.sqs, .qrecs, .ctxs, .sward, .cas, .nv]
  | .leaseRenew _ => [.out, .sward, .cas]
  | .timeSend _ => [.free, .out, .sward, .cas]
  | .stopOrder _ => Piece.fails ++ [.drc, .cas, .pwr, .mon, .nv]
  | .tallyBatch _ _ _ | .meterMerge _ | .mtrSwckGo _ | .hourlyChecksum _ | .crystal32kStop | .crystal25mStop =>
    Piece.event ++ [.mtr]
  | .intervalClose _ | .islandStart _ _ _ _ | .sealChange _ | .mtrParamCommit => Piece.event ++ [.free, .mtr]
  | .recordStored _ | .adcSample _ _ => [.free, .mtr]
  | .islandSupplyLoss | .mtrRecSel _ => [.mtr]
  | .mtrAck _ => [.free, .out, .sward, .cas, .mtr]
  | .stopEntry _ _ => [.free, .out, .sward, .drc, .cas, .pwr, .mon]
  | .wake _ _ => Piece.system ++ [.now, .drc, .pwr, .mon]
  | .budgetRecompute | .chargerRegulation => Piece.event ++ [.brm]
  | .huPfailLow | .inputRailSag => Piece.fails ++ [.free, .blocks, .flash, .drc, .cas, .mtr, .pwr, .brm, .mon, .nv]
  | .glitchDetectorsArm | .alarmLatchClear _ => [.evt]
  | .heatherSample _ _ _ => Piece.event ++ [.nvme, .sqs, .qrecs, .ctxs, .lat, .thm]
  | .stepDown | .tapChange _ => [.thm]
  | .replicaPathFailure _ => Piece.event ++ [.thm]
  | .thistleConversion _ _ _ _ => Piece.event ++ [.brm, .mon]
  | .logClear => [.log]
  | .eflRead _ _ | .eflProgram | .eflErase => Piece.fails ++ [.free, .nvme, .blocks, .zne, .cas, .efl]
  | .oemUnlock | .oemLock | .setPassword | .writeMask | .eflRdp _ | .eflOperationComplete => [.efl]
  | .discard | .requestFirmwareData _ _ | .applyComplete => [.nv]
  | .discardEraseDone | .requestUpdate _ | .passComponentTable _ | .updateComponent _ _ | .transferComplete
  | .cancelUpdateComponent | .cancelUpdate => [.out, .nv]
  | .confirm => Piece.event ++ [.sward, .cas, .nv, .efl]
  | .queryDeviceIdentifiers | .getFirmwareParameters | .getStatus => [.out]
  | .verifyComplete _ => Piece.event ++ [.nv]
  | .mctpRead _ _ _ _ _ _ => Piece.system ++ [.now, .drc, .pwr, .mon, .side]
  | .mctpWrite _ _ _ _ _ _ _ => Piece.system ++ [.now, .pci, .drc, .ecc, .pwr, .brm, .thm, .mon, .efl, .side]
  | .histSnap _ | .histClear => [.lat]
  | .lockSet _ => [.fch, .lat, .drc, .ecc, .key, .brm, .thm]
  | .registerWrite _ _ _ _ => Piece.system ++ [.pci, .cqs, .nss, .drc, .ecc, .pwr, .brm, .thm, .mon, .efl]
  | .rdyBound => [.nvme]
  | .pcieLinkUp _ _ _ => [.out, .pci, .slices, .evt]
  | .vectorUnmask _ => [.out, .evt]
  | .i3cCcc _ _ => [.free, .out, .evt, .side]

/-! ### Forms -/

/-- The Tussock log: at most 8,192 records appended since the last clear (R457, R460), at most 8 held during a clear
(R461), and its memory in canonical form. -/
def LogOk (l : Log) : Prop := l.next ≤ 8192 ∧ l.held.length ≤ 8 ∧ l.slots.wf = true

/-- The addressed memories of the block in canonical form, their addresses strictly rising: the Bonnet array (R430), the
staging slot of the NOR (R438), the MSI-X table, and the pages of the flash dies (R171). -/
def MemOk (s : State) : Prop :=
  s.efl.words.wf = true ∧ s.nv.stgBlocks.wf = true ∧ s.evt.msixTbl.wf = true ∧ s.flash.wf = true

/-- A lowering keeps the array busy; at level 2 no operation under way reaches the level words: no lowering runs, and a
program or an erase is at another sector than 2048 (R432, R435, R436). -/
def EflOk (e : Efl) : Prop :=
  (e.rdpBusy = true → e.busy = true) ∧
  (e.level = 2 → e.busy = true →
    e.rdpBusy = false ∧ (e.opKind = 2 → secOf e.opWord ≠ 2048) ∧ (e.opKind ≠ 2 → e.opSector ≠ 2048))

/-- A log that a save kept (R428) has the form of the log it was. -/
def SavedOk (n : Nv) : Prop := ∀ l, n.savedLog = some l → LogOk l

/-- The invariant of the block's memories. -/
def Keeps (s : State) : Prop := (LogOk s.log ∧ SavedOk s.nv) ∧ MemOk s ∧ EflOk s.efl

/-! ### Promises -/

/-- What no operation of the block breaks: the forms above are kept, protection level 2 stays (R435), the key-store epoch
never falls (R303), and the seal counter neither falls nor passes its saturation (R362). -/
structure Good (s t : State) : Prop where
  log : LogOk s.log ∧ SavedOk s.nv → LogOk t.log ∧ SavedOk t.nv
  mem : MemOk s → MemOk t
  efl : EflOk s.efl → EflOk t.efl ∧ (s.efl.level = 2 → t.efl.level = 2)
  epoch : s.key.epoch ≤ t.key.epoch
  sealCnt : s.mtr.sealCnt ≤ 0xffffffff → s.mtr.sealCnt ≤ t.mtr.sealCnt ∧ t.mtr.sealCnt ≤ 0xffffffff
  free : s.free ≤ t.free

/-- What an operation may do: it changes no part but the listed ones, and it breaks no promise. -/
structure Law (r : List Piece) (s t : State) : Prop where
  same : Same r s t
  good : Good s t

/-! ### Commands at the gate -/

/-- It is the turn of the admin entry in context `c`, and the gate can stamp it: the checks that R114 and R500 make of every
entry pass. -/
structure AdminTurn (s : State) (c : Nat) (x : Ctx) : Prop where
  here : s.ctxs.look c = some x
  admin : x.q = 0
  fresh : x.abortMark = false ∧ x.discard = false
  plain : x.e.fuse = 0 ∧ x.e.psdt < 2
  turn : s.gateTurn c x = true
  stamp : s.canStamp = true

/-- It is the turn of the I/O entry in context `c`, and the gate can stamp it: every check of R114 passes. -/
structure IoTurn (s : State) (c : Nat) (x : Ctx) (ranges : List DsmRange) : Prop where
  here : s.ctxs.look c = some x
  io : x.q ≠ 0
  fresh : x.abortMark = false ∧ x.discard = false
  turn : s.gateTurn c x = true
  owner : s.ownerFrozen x.q = false
  checks : s.ioChecks x.q x.e ranges = none
  rotate : (x.e.isWrite && s.rotatePending (qOwner x.q)) = false
  room : s.resChecks x.q x.e = none
  stamp : s.canStamp = true

/-- The command in context `c` has drawn the next stamp and is complete with a status and a dword 0. -/
def Ends (s t : State) (c : Nat) (st : Status) (dw0 : Dword) : Prop :=
  ∃ y, t.ctxs.look c = some y ∧ y.phase = .done ∧ y.status = some st ∧ y.dw0 = dw0 ∧ y.stamped = true ∧ y.stamp = s.gate.next

/-- The command in context `c` has drawn the next stamp and stays at work. -/
def Holds (s t : State) (c : Nat) : Prop :=
  ∃ y, t.ctxs.look c = some y ∧ y.phase = .stamped ∧ y.stamped = true ∧ y.stamp = s.gate.next

/-- The command in context `c` has drawn the next stamp and is complete with success, and no other context has changed. -/
def Done (s t : State) (c : Nat) (dw0 : Dword) : Prop := Ends s t c stOk dw0 ∧ ∀ k, k ≠ c → t.ctxs.look k = s.ctxs.look k

/-- The command in context `c` is complete with a status, without a stamp of its own. -/
def Fails (t : State) (c : Nat) (st : Status) : Prop :=
  ∃ y, t.ctxs.look c = some y ∧ y.phase = .done ∧ y.status = some st

/-- Every other context is as it was. -/
def OthersSame (s t : State) (c : Nat) : Prop := ∀ k, k ≠ c → t.ctxs.look k = s.ctxs.look k

/-- A frame is the next in order on its VC of a port whose link has come to a phase, and the chip takes frames (R322). -/
structure FrameTurn (s : State) (f : Frame) (phase : Nat) : Prop where
  up : phase ≤ (s.port f.port).phase
  awake : s.inStop = false
  powered : s.brm.st < 3
  tag : f.tagOk = true
  turn : f.mseq = (s.port f.port).rxSeq.get f.vc 1

/-- A slice apart from its notice ring. -/
def apart (x : Slice) : Slice := { x with nr := {} }

end Sys2Proof.Safety
end

