-- ==== Sys2Proof/Certificates/Slice0/Obligations.lean ====
section
/-! DEFINITION. The statements for the provers: one `Obligations.<Name>` each, over `Sys2Proof.Machine.exec` and `step`. They are
listed in OBLIGATIONS.json with the rules of spec/ they rest on. `Same ps s t` says that `t` and `s` agree on every piece of state
outside `ps`. -/

open Sys2Proof Sys2Proof.Machine Sys2Proof.Safety

/-! ### Steps, frames, invariants -/

/-- A step takes the command at the front of the queue and runs it on the state whose queue is the rest. -/
def Obligations.StepRunsTheFrontCommand : Prop :=
  ∀ (c : Instr) (rest : List Instr) (s : State),
    step { s with pending := c :: rest } = exec c { s with pending := rest }

/-- Log entry 1, the model's choice: with no command waiting, a step is one nanosecond of crown time, and of island time
while the island runs; a log clear under way ends, and nothing else changes. -/
def Obligations.EmptyQueueLetsTimePass : Prop :=
  ∀ s : State, s.pending = [] →
    ∃ t, step s = .next t ∧ t.now = s.now + 1 ∧ t.mtr.time = (if s.mtr.run then s.mtr.time + 1 else s.mtr.time) ∧
      t.log.clearing = false ∧ Same [.now, .mtr, .log] s t

/-- Every command, in every state, answers a next state, and leaves the queue of the commands that wait alone. -/
def Obligations.EveryCommandAnswersAndKeepsTheQueue : Prop :=
  ∀ (c : Instr) (s : State), ∃ t, exec c s = .next t ∧ t.pending = s.pending

/-- The frame of every command: the parts of the state that `touch` does not list for it are as they were. -/
def Obligations.CommandsChangeOnlyTheirParts : Prop :=
  ∀ (c : Instr) (s t : State), exec c s = .next t → Same (touch c) s t

/-- As many steps as there are commands waiting run them all, first in, first out, and leave the queue empty. -/
def Obligations.WaitingCommandsAllRun : Prop :=
  ∀ s : State, ∃ t, Sys2Proof.core.run s.pending.length s = .next t ∧ t.pending = []

/-- The state after reset keeps the forms of the addressed memories, of the Tussock log and its saved copy, and of the
Bonnet array. -/
def Obligations.ResetHasTheInvariant : Prop := Keeps State.reset

/-- Every step from a state with the invariant ends in a state with it: at most 8,192 log records, at most 8 held during a
clear, the log and its saved copy, the Bonnet words, the staging slot, the MSI-X table and the flash pages in canonical form, and
at level 2 no operation under way that reaches the level words. -/
def Obligations.EveryStepKeepsTheInvariant : Prop :=
  ∀ s t : State, Keeps s → step s = .next t → Keeps t

/-- No step lowers the key-store epoch. -/
def Obligations.KeyStoreEpochNeverFalls : Prop :=
  ∀ s t : State, step s = .next t → s.key.epoch ≤ t.key.epoch

/-- No step lowers the seal counter, and none takes it past its saturation. -/
def Obligations.SealCounterNeverFalls : Prop :=
  ∀ s t : State, step s = .next t → s.mtr.sealCnt ≤ 0xffffffff →
    s.mtr.sealCnt ≤ t.mtr.sealCnt ∧ t.mtr.sealCnt ≤ 0xffffffff

/-- Protection level 2 is for good: from a state with the invariant no step leaves it. -/
def Obligations.LevelTwoIsPermanent : Prop :=
  ∀ s t : State, Keeps s → s.efl.level = 2 → step s = .next t → t.efl.level = 2


/-! ### Admin commands

Each clause: it is the turn of an admin entry of the row, its checks pass; the command completes with success at its stamp
(or is held, where it waits), with the effect on the state given. -/

/-- The four queue commands of the PF. -/
def Obligations.PfQueueCommandsComplete : Prop :=
  ∀ (s : State) (c : Nat) (x : Ctx), AdminTurn s c x →
    let q := bitsAt x.e.cdw10.toNat 0 16
    let size := bitsAt x.e.cdw10.toNat 16 16
    let hi := bitsAt x.e.cdw11.toNat 16 16
    (x.e.opc = 0x05 → s.createCqCheck x.e = none →
      ∃ t, exec (.createIoCq c) s = .next t ∧ Done s t c 0 ∧ Same [.ctxs, .gate, .dma, .cqs] s t ∧
        t.cqs = s.cqs.put q { base := x.e.dptr0, size := size, ien := x.e.cdw11.getLsbD 1, iv := hi }) ∧
    (x.e.opc = 0x04 → q ≠ 0 → q < 1024 → s.cqs.has q = true → s.sqs.any (fun k y => decide (k < 1024) && y.cq == q) = false →
      ∃ t, exec (.deleteIoCq c) s = .next t ∧ Done s t c 0 ∧ Same [.ctxs, .gate, .dma, .cqs] s t ∧ t.cqs = s.cqs.del q) ∧
    (x.e.opc = 0x01 → s.createSqCheck x.e = none →
      ∃ t, exec (.createIoSq c) s = .next t ∧ Done s t c 0 ∧ Same [.ctxs, .gate, .dma, .sqs, .qrecs] s t ∧
        t.sqs = s.sqs.put q { base := x.e.dptr0, size := size, cq := hi, en := true, enabled := true, strict := s.nvme.strictDef } ∧
        t.qrecs = s.qrecs.del q) ∧
    (x.e.opc = 0x00 → q ≠ 0 → q < 1024 → s.sqs.has q = true → s.ctxs.any (fun _ y => y.q == q) = false →
      ∃ t, exec (.deleteIoSq c) s = .next t ∧ Done s t c 0 ∧ Same [.ctxs, .gate, .dma, .sqs, .qrecs] s t ∧
        t.sqs.look q = none ∧ t.qrecs = s.qrecs.del q)

/-- The admin commands that only read: their structure goes to the host. Of a log page the read may clear what it reports. -/
def Obligations.ReportingCommandsComplete : Prop :=
  ∀ (s : State) (c : Nat) (x : Ctx), AdminTurn s c x →
    (∀ l, x.e.opc = 0x06 → x.e.dptrFault 4096 false = none → s.identifyData x.e = .ok l →
      ∃ t, exec (.identify c) s = .next t ∧ Done s t c 0 ∧ Same [.ctxs, .gate, .dma, .out] s t ∧
        t.out = (s.sendTo c 0 4096 l).out) ∧
    (∀ size l,
      let off := x.e.cdw1213
      let len := (bitsAt x.e.cdw10.toNat 16 16 + bitsAt x.e.cdw11.toNat 0 16 * 65536 + 1) * 4
      x.e.opc = 0x02 → s.logData x.e off len = .ok (size, l) → off % 4 = 0 → off < size → len ≤ 2097152 →
      x.e.dptrFault len false = none →
      ∃ t, exec (.getLogPage c) s = .next t ∧ Done s t c 0 ∧ Same [.ctxs, .gate, .dma, .out, .free, .nvme, .nss, .log] s t ∧
        t.out = (s.sendTo c off len l).out ∧
        (bitsAt x.e.cdw10.toNat 0 8 = 0x01 → t.nvme = { s.nvme with dbErr := if x.e.cdw10.getLsbD 15 then s.nvme.dbErr else false })) ∧
    (∀ n, bitsAt x.e.cdw10.toNat 8 3 = 0 → x.e.opc = 0x0a → s.featureNow (bitsAt x.e.cdw10.toNat 0 8) x.e.cdw11 = some n →
      ∃ t, exec (.getFeatures c) s = .next t ∧ Done s t c (BitVec.ofNat 32 n) ∧ Same [.ctxs, .gate, .dma] s t) ∧
    (x.e.opc = 0xce → vendorOk x.e 0 0 0 0 0 0 = true → x.e.dptrFault 4096 false = none →
      ∃ t, exec (.cascadeStatus c) s = .next t ∧ Done s t c 0 ∧ Same [.ctxs, .gate, .dma, .out] s t ∧
        t.out = (s.sendTo c 0 4096 s.cascadeData).out) ∧
    (
      let len := (x.e.cdw10.toNat + 1) * 4
      x.e.opc = 0xca → vendorOk x.e 0xffffffff 0 0xffffffff 0xffffffff 0 0 = true → x.e.dptrFault len false = none →
      9 ≤ x.e.cdw10.toNat → x.e.cdw1213 < 2 ^ 62 → s.cas.named.getLsbD 0 = true → s.mtr.halt = 0 →
      ∃ t, exec (.meterFetch c) s = .next t ∧ Done s t c 0 ∧ Same [.ctxs, .gate, .dma, .out] s t ∧
        t.out = .hostData c 0 len (s.mtr.fetch x.e.cdw1213 len) :: s.out)

/-- Set Features, Keep Alive, Asynchronous Event Request and Abort. A request for an event is held while none waits, and
completes with the oldest event that waits. An Abort marks a block command that its queue has not yet stamped, and waits for it;
of a stamped one it enters the commit order of that command's zone; where it names no command of an I/O queue it has no
effect, and dword 0 bit 0 says so (R132). -/
def Obligations.ControlCommandsComplete : Prop :=
  ∀ (s : State) (c : Nat) (x : Ctx), AdminTurn s c x →
    (∀ u dw,
      let fid := bitsAt x.e.cdw10.toNat 0 8
      let save := x.e.cdw10.getLsbD 31
      x.e.opc = 0x09 → save = false ∨ fid = 0xc0 ∨ fid = 0xc1 → s.setFeature fid x.e.cdw11 save = .ok (u, dw) →
      ∃ t, exec (.setFeatures c) s = .next t ∧ Done s t c dw ∧ Same [.ctxs, .gate, .dma, .nvme, .nv] s t ∧ t.nvme = u.nvme ∧
        t.nv = u.nv) ∧
    (x.e.opc = 0x18 →
      ∃ t, exec (.keepAlive c) s = .next t ∧ Done s t c 0 ∧ Same [.ctxs, .gate, .dma, .nvme] s t ∧
        t.nvme = { s.nvme with kaAt := s.now }) ∧
    (x.e.opc = 0x0c → s.nvme.aers.length < 4 → s.nvme.aens = [] →
      ∃ t, exec (.asyncEventRequest c) s = .next t ∧ Holds s t c ∧ Same [.ctxs, .gate, .dma, .nvme] s t ∧
        t.nvme = { s.nvme with aers := s.nvme.aers ++ [c] }) ∧
    (∀ a l, x.e.opc = 0x0c → s.nvme.aers.length < 4 → s.nvme.aens = a :: l →
      ∃ t, exec (.asyncEventRequest c) s = .next t ∧ Done s t c (BitVec.ofNat 32 (a.1 + a.2.1 * 2 ^ 8 + a.2.2 * 2 ^ 16)) ∧
        Same [.ctxs, .gate, .dma, .nvme] s t ∧ t.nvme = { s.nvme with aens := l }) ∧
    (x.e.opc = 0x08 → s.ctxs.count (fun k y => k != c && decide (y.q = 0) && y.e.opc == 0x08 && y.stamped) < 8 →
      let q := bitsAt x.e.cdw10.toNat 0 16
      let target := s.abortTarget q (bitsAt x.e.cdw10.toNat 16 16)
      (∀ k y, q ≠ 0 → q < 1024 → target = some (k, y) → k ≠ c → s.ctxs.look k = some y → y.e.isBlock = true →
        (y.phase = .fetched →
          ∃ t, exec (.abort c) s = .next t ∧ Holds s t c ∧ Same [.ctxs, .gate, .dma] s t ∧
            t.ctxs.look k = some { y with abortMark := true } ∧ (∀ j, j ≠ c → j ≠ k → t.ctxs.look j = s.ctxs.look j) ∧
            ∃ w, t.ctxs.look c = some w ∧ w.waitFor = some k) ∧
        (y.phase ≠ .fetched → y.stamped = true →
          ∃ t, exec (.abort c) s = .next t ∧ Holds s t c ∧ OthersSame s t c ∧ Same [.ctxs, .gate, .dma] s t ∧
            t.gate.entries = s.gate.entries.put s.gate.next
              { kind := .abortE, ctx := c, owner := 1024, nsid := y.e.nsid
                scopes := [zkey y.e.nsid (y.e.slba / max 1 s.zsze)], target := k })) ∧
      (q = 0 ∨ 1024 ≤ q ∨ target = none →
        ∃ t, exec (.abort c) s = .next t ∧ Done s t c 1 ∧ Same [.ctxs, .gate, .dma] s t))

/-- Namespace Management and Namespace Attachment. An attachment that changes what the controller sees is noted in the Changed
Namespace List, and may complete the oldest event request. A deletion waits for the commands in flight in the namespace, and then
the namespace and its zones are gone. -/
def Obligations.NamespaceCommandsComplete : Prop :=
  ∀ (s : State) (c : Nat) (x : Ctx), AdminTurn s c x →
    (∀ d : NsData, x.e.opc = 0x0d → x.e.dptrFault 4096 false = none → s.nsCreateCheck x.e d = none →
      let id := s.nss.freeFrom 1
      ∃ t, exec (.nsCreate c d) s = .next t ∧ Done s t c (BitVec.ofNat 32 id) ∧
        Same [.ctxs, .gate, .dma, .nss, .zne, .zones, .nv] s t ∧ t.zne.zonesMade = s.zne.zonesMade + d.nsze / max 1 s.zsze ∧
        (∃ n, t.nss.look id = some n ∧ n.nsze = d.nsze ∧ n.conv = d.conv ∧ n.attached = false ∧
          n.owner = if d.owner.getLsbD 15 then d.owner.toNat % 1024 else 1024) ∧
        ∀ k, k ≠ id → t.nss.look k = s.nss.look k) ∧
    (∀ n, x.e.opc = 0x15 → x.e.dptrFault 4096 false = none → bitsAt x.e.cdw10.toNat 0 4 < 2 → s.nss.look x.e.nsid = some n →
      n.attached = decide (bitsAt x.e.cdw10.toNat 0 4 = 1) →
      ∃ t, exec (.nsAttach c [1]) s = .next t ∧ Ends s t c stOk 0 ∧ Same [.ctxs, .gate, .dma, .nvme, .nss, .nv] s t ∧
        t.nss = s.nss.put x.e.nsid { n with attached := decide (bitsAt x.e.cdw10.toNat 0 4 = 0) } ∧
        t.nvme.changedNs = insNat x.e.nsid s.nvme.changedNs ∧
        ∀ k, k ≠ c → s.nvme.aers.head? ≠ some k → t.ctxs.look k = s.ctxs.look k) ∧
    (∀ n, x.e.opc = 0x0d → bitsAt x.e.cdw10.toNat 0 4 = 1 → s.nss.look x.e.nsid = some n → n.deleting = none →
      s.nss.keysWhere (fun _ n => n.deleting == some c) = [] →
      let u := { s.stampCtx c with nss := s.nss.edit x.e.nsid fun n => { n with deleting := some c } }
      (s.nsBusy x.e.nsid = true → exec (.nsDelete c) s = .next u) ∧
      (s.nsBusy x.e.nsid = false → ∃ t, exec (.nsDelete c) s = .next t ∧ t = (u.nsGone x.e.nsid).finish c stOk ∧
        t.nss.look x.e.nsid = none ∧ t.zones.any (fun k _ => zNsid k == x.e.nsid) = false))


/-- Sanitize: the command completes at its stamp, the operation enters the commit order of the whole chip and runs once every
earlier command has completed (a crypto erase while keys can be drawn, R302); Exit Failure Mode ends a failed one. -/
def Obligations.SanitizeCommandsComplete : Prop :=
  ∀ (s : State) (c : Nat) (x : Ctx), AdminTurn s c x → x.e.opc = 0x84 → s.nvme.sani ≠ 1 →
    let started := fun (act : Nat) (t : State) =>
      Done s t c 0 ∧ Same [.ctxs, .gate, .dma, .nvme] s t ∧
      t.gate.entries.look s.gate.next =
        some { kind := .sanitizeE, ctx := c, owner := 1025, nsid := 0, scopes := [chipScope], target := act } ∧
      t.nvme = { s.nvme with sani := 1, saniKind := act, saniFails := 0, saniDw := x.e.cdw10 }
    (bitsAt x.e.cdw10.toNat 0 3 = 4 → s.key.entropyBad = false → ∃ t, exec (.sanitizeCrypto c) s = .next t ∧ started 4 t) ∧
    (bitsAt x.e.cdw10.toNat 0 3 = 2 → ∃ t, exec (.sanitizeBlock c) s = .next t ∧ started 2 t) ∧
    (bitsAt x.e.cdw10.toNat 0 3 = 1 →
      ∃ t, exec (.sanitizeExit c) s = .next t ∧ Done s t c 0 ∧ Same [.ctxs, .gate, .dma, .nvme] s t ∧
        t.nvme = { s.nvme with sani := if s.nvme.sani = 3 then 0 else s.nvme.sani })

/-- Key Rotate in its three actions: the command is stamped and enters the Gauntlet key stage of its owner, where it acts. -/
def Obligations.KeyCommandsEnterTheKeyStage : Prop :=
  ∀ (s : State) (c : Nat) (x : Ctx) (d : KeyData), AdminTurn s c x → x.e.opc = 0xc9 →
    vendorOk x.e 0x7ff 0 0 0 0 0 = true → x.e.dptrFault 512 false = none →
    let o := if x.e.cdw10.getLsbD 10 then 1024 else x.e.sliceNo
    (x.e.cdw10.getLsbD 10 = true → x.e.sliceNo = 0) → s.keyOwnerOk o = true → d.version = 1 → d.rsv3 = 0 → d.rsv8 = 0 →
    let entered := fun (t : State) =>
      Holds s t c ∧ OthersSame s t c ∧ Same [.ctxs, .gate, .dma] s t ∧
      t.gate.entries = s.gate.entries.put s.gate.next
        { kind := .keyRotE, ctx := c, owner := o, nsid := 0, scopes := [keyScope o], target := d.action, val := d.expectGen }
    (d.action = 0 → ∃ t, exec (.keyRotate c d) s = .next t ∧ entered t) ∧
    (d.action = 1 → ∃ t, exec (.keyRenew c d) s = .next t ∧ entered t) ∧
    (d.action = 2 → ∃ t, exec (.keyStop c d) s = .next t ∧ entered t)

/-- Thaw Queue ends the freeze of a queue whose stamped commands have completed; FREEZES and FREEZE_STAMP are kept. -/
def Obligations.ThawQueueCompletes : Prop :=
  ∀ (s : State) (c q : Nat) (x : Ctx) (y : Sq), AdminTurn s c x → x.e.opc = 0xc8 → vendorOk x.e 0x83ffffff 0 0 0 0 0 = true →
    s.thawTarget x.e = some q → s.sqs.look q = some y → y.frozenSeen = true → s.inflight q = 0 →
    ∃ t, exec (.thawQueue c) s = .next t ∧ Done s t c 0 ∧ Same [.ctxs, .gate, .dma, .sqs, .qrecs] s t ∧
      t.sqs = s.sqs.put q { y with frozen := false, frozenSeen := false } ∧
      (∀ r, s.qrecs.look q = some r → t.qrecs.look q = some { r with overflow := false, entries := [] }) ∧
      ∀ k, k ≠ q → t.qrecs.look k = s.qrecs.look k

/-- Firmware Image Download and Firmware Commit. A piece whose blocks are all present completes at once, and any other is
written block by block; a commit of the package in staging copies it to its slot, and one that returns to the slot booted
(Commit Action 2) only clears NEXT. -/
def Obligations.FirmwareCommandsComplete : Prop :=
  ∀ (s : State) (c : Nat) (x : Ctx), AdminTurn s c x →
    (∀ blocks : List UnitData, x.e.opc = 0x11 → blocks.length = dlLen x.e / 4096 → s.nv.norQueue = [] →
      x.e.dptrFault (dlLen x.e) false = none → s.dlCheck x.e blocks = none →
      let l := s.dlMissing (dlOff x.e / 4096) blocks
      (l = [] → ∃ t, exec (.fwDownload c blocks) s = .next t ∧ Done s t c 0 ∧ Same [.ctxs, .gate, .dma, .nv] s t ∧
        t.nv = { s.nv with stgOwner := 1, norCtx := none }) ∧
      (∀ b d r, l = (b, d) :: r → ∃ t, exec (.fwDownload c blocks) s = .next t ∧ Holds s t c ∧ Same [.ctxs, .gate, .dma, .nv] s t ∧
        t.nv.stgOwner = 1 ∧ t.nv.norQueue = l ∧ t.nv.norCtx = some c ∧ t.nv.norErase = s.nv.stgDirty.contains b)) ∧
    (∀ pkg : SlotFind,
      let fs := bitsAt x.e.cdw10.toNat 0 3
      let ca := bitsAt x.e.cdw10.toNat 3 3
      x.e.opc = 0x10 → fs ≤ 2 → s.nv.pldmState = 0 → s.nv.stgErasing = false → s.nv.commitAct = 0 →
      (ca ≤ 1 → s.commitCheck pkg (s.fsTarget fs) true = none →
        ∃ t, exec (.fwCommit c pkg) s = .next t ∧ Holds s t c ∧ OthersSame s t c ∧ Same [.ctxs, .gate, .dma, .nv] s t ∧
          t.nv = { s.nv with copying := true, commitAct := ca + 1, commitCtx := some c, commitTarget := s.fsTarget fs
                             commitRev := pkg.manifest.revision, commitFr := pkg.manifest.fr }) ∧
      (ca = 2 → s.fsTarget fs = s.upd.booted →
        ∃ t, exec (.fwCommit c pkg) s = .next t ∧ Done s t c 0 ∧ t.nv = { s.nv with next := 255, bootSeq := s.nv.bootSeq + 1 } ∧
          Same (Piece.withEvent [.ctxs, .gate, .dma, .nv]) s t))

/-- Scrub Range starts a pass with an empty summary, and its end reports the summary of what the pass found, the last word of its range
included, to the host and completes the command. -/
def Obligations.ScrubRunsAndReports : Prop :=
  ∀ (s : State) (c : Nat) (x : Ctx),
    (AdminTurn s c x → x.e.opc = 0xd2 → vendorOk x.e 0xffffffff 0 0xffffffff 0xffffffff 0xffffffff 0xffffffff = true →
      x.e.dptrFault 64 false = none → s.ecc.scrubBusy = false → x.e.cdw10.toNat < 2 →
      let dram := x.e.cdw10.getLsbD 0
      let w := if dram then 64 else 8
      x.e.cdw1213 % w = 0 → x.e.cdw1415 % w = 0 → x.e.cdw1415 ≠ 0 →
      x.e.cdw1213 + x.e.cdw1415 ≤ (if dram then s.dramUsable else sramSize) →
      ∃ t, exec (.scrubRange c) s = .next t ∧ Holds s t c ∧ OthersSame s t c ∧ Same [.ctxs, .gate, .dma, .ecc] s t ∧
        t.ecc = { s.ecc with scrubBusy := true, scrubMem := dram, scrubDone := 0, scrubCtx := c
                             scrubStart := x.e.cdw1213, scrubLen := x.e.cdw1415, scrubSum := {} }) ∧
    (∀ raw check other cx u rebuilt repair queued ms, s.ecc.scrubBusy = true → s.ecc.scrubCtx = c → s.ctxs.look c = some x → x.phase ≠ .done →
      let m := s.ecc.scrubSum
      let run := exec (.scrubComplete raw check other cx u rebuilt repair queued ms) s
      (∀ v, s.ecc.scrubMem = false → 8 ≤ s.ecc.scrubLen → secdedDecode raw = .corrected v →
        ∃ t l, run = .next t ∧ .hostData c 0 64 l ∈ t.out ∧ (20, 4, m.corrected + 1) ∈ l ∧ t.ecc.ceCnt = satAdd 0xffffffff s.ecc.ceCnt 1) ∧
      ((if s.ecc.scrubMem = true then burstDecode (s.ecc.scrubStart + s.ecc.scrubLen - 64) { data := raw, check := check } else secdedDecode raw) = .clean →
      ∃ t l y, run = .next t ∧
        t.out = .hostData c 0 64 l :: s.out ∧ (0, 8, s.ecc.scrubStart) ∈ l ∧ (8, 8, s.ecc.scrubLen) ∈ l ∧
        (20, 4, m.corrected) ∈ l ∧ (24, 4, m.uncorr) ∈ l ∧ (18, 2, m.regions) ∈ l ∧ (56, 4, ms) ∈ l ∧
        (32, 8, m.firstUe.getD (2 ^ 64 - 1)) ∈ l ∧ (40, 8, m.lastUe.getD (2 ^ 64 - 1)) ∈ l ∧ (48, 8, m.firstCe.getD (2 ^ 64 - 1)) ∈ l ∧
        t.ecc = { s.ecc with scrubBusy := false, scrubDone := 100 } ∧
        t.ctxs = s.ctxs.put c y ∧ y.phase = .done ∧ y.status = some stOk ∧ y.dw0 = 0 ∧ Same [.out, .ecc, .ctxs] s t))

/-! ### Slices -/

/-- Create Slice makes an ACTIVE slice with the resources of its structure, its queues disabled, a first key; the PASID is bound.
Destroy Slice unbinds it, and once nothing of the slice is left it is NONE again. -/
def Obligations.SlicesAreCreatedAndDestroyed : Prop :=
  ∀ (s : State) (c : Nat) (x : Ctx),
    (∀ d : SliceData, AdminTurn s c x → x.e.opc = 0xc1 → vendorOk x.e 0x3ff 0xfffff 0 0 0 0 = true →
      x.e.dptrFault 4096 false = none →
      let i := x.e.sliceNo
      s.createCheck i x.e.pasid d = none → s.key.entropyBad = false →
      ∃ t, exec (.createSlice c d) s = .next t ∧ Done s t c 0 ∧ (t.slice i).st = .active ∧ (t.slice i).pasid = x.e.pasid ∧
        (t.slice i).qpairs = d.qpairs ∧ (t.slice i).vecBase = d.vecBase ∧ (t.slice i).vecCount = d.vecCount ∧
        (t.slice i).ctxReserve = d.ctxReserve ∧ (t.slice i).ctxLimit = d.ctxLimit ∧ (t.slice i).readPool = d.readPool ∧
        (t.slice i).stagePool = d.stagePool ∧ (t.slice i).lclass = d.lclass ∧ (t.slice i).weight = d.weight ∧
        (t.slice i).raAllow = d.raAllow ∧ (t.slice i).fences = d.fences ∧ (t.slice i).handles = d.handles ∧
        (t.slice i).quotaProv = d.quotaProv ∧ (t.slice i).quotaWrite = d.quotaWrite ∧ (t.slice i).written = 0 ∧
        (t.slice i).inst = (s.slice i).inst + 1 ∧ (∀ k, k ≠ i → t.slice k = s.slice k) ∧
        (∀ q, q < 128 → t.sqs.look (sliceQ i q) = 
          some { strict := d.flags.testBit 1, cq := sliceQ i q, ctl := if d.flags.testBit 1 then 0x40000000 else 0 }) ∧
        (t.keyOwner i).cur = 1 ∧ (t.keyOwner i).use = 0) ∧
    (AdminTurn s c x → x.e.opc = 0xc4 → vendorOk x.e 0x3ff 0 0 0 0 0 = true → ¬(x.e.sliceNo = 1023 ∧ s.rsv1023 = true) →
      ((s.slice x.e.sliceNo).st = .quiesced ∨ (s.slice x.e.sliceNo).st = .frozen) →
      s.nss.any (fun _ n => n.owner == x.e.sliceNo) = false →
      ∃ t, exec (.destroySlice c) s = .next t ∧ t = (s.stampCtx c).destroy c x.e.sliceNo ∧ (t.slice x.e.sliceNo).pasid = 0 ∧
        (t.slice x.e.sliceNo).nr.en = false ∧ t.key.owners.look x.e.sliceNo = none) ∧
    (∀ i, (s.slice i).st = .destroying → (s.sliceDiscard i).sliceEmpty i = true →
      ∃ t, exec (.sliceReturned i) s = .next t ∧ t = (s.sliceDiscard i).sliceGone i ∧ (t.slice i).st = .none ∧
        t.toks.look i = none ∧ t.dma.chans.look i = none ∧ ∀ k, k ≠ i → t.slice k = (s.sliceDiscard i).slice k)

/-- Slice Resources in its four actions, and the timeout of a Quiesce. A slice is compared apart from its notice ring, where
the change of state is reported. -/
def Obligations.SliceResourcesActs : Prop :=
  ∀ (s : State) (c : Nat) (x : Ctx) (d : SliceData), AdminTurn s c x → x.e.opc = 0xc5 → vendorOk x.e 0x3ff 0 0 0 0 0 = true →
    x.e.dptrFault 4096 false = none →
    let i := x.e.sliceNo
    let y := s.slice i
    s.resJudge i d = none →
    (d.action = 0 → y.st = .active →
      ∃ t, exec (.quiesce c d) s = .next t ∧ (∀ k, k ≠ i → t.slice k = s.slice k) ∧
        apart (t.slice i) = apart (if s.ctxHeld i = 0 then { y with st := .quiesced, quiesceWait := [] }
                                   else { y with st := .quiescing, quiesceWait := [c] })) ∧
    (d.action = 0 → y.st = .quiesced → ∃ t, exec (.quiesce c d) s = .next t ∧ Done s t c 0 ∧ Same [.ctxs, .gate, .dma] s t) ∧
    (d.action = 3 → (y.st = .active ∨ y.st = .quiescing ∨ y.st = .quiesced) →
      ∃ t, exec (.freeze c d) s = .next t ∧ (∀ k, k ≠ i → t.slice k = s.slice k) ∧
        apart (t.slice i) = apart { y with st := .frozen, reason := 1, quiesceWait := [] }) ∧
    (d.action = 2 → (y.st = .quiesced ∨ y.st = .frozen) → ¬(y.st = .frozen ∧ y.reason = 4 ∧ s.alarmHolds = true) →
      ∃ t, exec (.resume c d) s = .next t ∧ (∀ k, k ≠ i → t.slice k = s.slice k) ∧ Ends s t c stOk 0 ∧
        apart (t.slice i) = apart { y with st := .active, reason := 0, lostCpl := [] }) ∧
    (d.action = 1 → (y.st = .active ∨ y.st = .quiescing ∨ y.st = .quiesced ∨ y.st = .frozen) → s.changeCheck i d = none →
      s.canStampBoth d = true →
      ∃ t, exec (.change c d) s = .next t ∧ (∀ k, k ≠ i → t.slice k = s.slice k) ∧ Ends s t c stOk 0 ∧
        apart (t.slice i) = apart ((y.changeLow d).changeHigh d))

/-- A slice that has not quiesced five seconds after its Quiesce is frozen with reason 5. -/
def Obligations.QuiesceTimeoutFreezes : Prop :=
  ∀ (s : State) (i : Nat), (s.slice i).st = .quiescing →
    ∃ t, exec (.quiesceTimeout i) s = .next t ∧ (∀ k, k ≠ i → t.slice k = s.slice k) ∧
      apart (t.slice i) = apart { s.slice i with st := .frozen, reason := 5, quiesceWait := [] }


/-! ### I/O commands -/

/-- An I/O command whose turn it is and that passes every check is stamped, charged and enters the commit order: reads draw
their pool, a write draws staging buffers, quota, the dirty budget and key usage. -/
def Obligations.IoCommandsEnterTheCommitOrder : Prop :=
  ∀ (s : State) (c : Nat) (x : Ctx) (ranges : List DsmRange), IoTurn s c x ranges →
    let entered := fun (k : EKind) (t : State) =>
      Holds s t c ∧ OthersSame s t c ∧ Same [.ctxs, .gate, .dma, .bpm] s t ∧ t.gate.next = s.gate.next + 1 ∧
      t.gate.entries = s.gate.entries.put s.gate.next (s.ioEntry c x k ranges) ∧
      t.bpm.rdHeld = s.bpm.rdHeld.upd (qOwner x.q) 0 (· + s.readUnits (qOwner x.q) x.e)
    (ranges = [] →
      (x.e.opc = 0x00 → ∃ t, exec (.flush c) s = .next t ∧ entered .flushE t) ∧
      (x.e.opc = 0x02 → ∃ t, exec (.readCmd c) s = .next t ∧ entered .readE t) ∧
      (x.e.opc = 0x7a → ∃ t, exec (.zoneMgmtReceive c) s = .next t ∧ entered .zmrE t) ∧
      (x.e.opc = 0x79 → (x.e.selAll = true → s.seqZones x.e.nsid ≠ []) →
        (x.e.zsa = 3 → ∃ t, exec (.zoneOpen c) s = .next t ∧ entered .openE t) ∧
        (x.e.zsa = 1 → ∃ t, exec (.zoneClose c) s = .next t ∧ entered .closeE t) ∧
        (x.e.zsa = 2 → ∃ t, exec (.zoneFinish c) s = .next t ∧ entered .finishE t) ∧
        (x.e.zsa = 4 → x.e.sanz = false → ∃ t, exec (.zoneReset c) s = .next t ∧ entered .resetE t) ∧
        (x.e.zsa = 4 → x.e.sanz = true → ∃ t, exec (.sanitizingReset c) s = .next t ∧ entered .sanResetE t) ∧
        (x.e.zsa = 5 → ∃ t, exec (.zoneOffline c) s = .next t ∧ entered .offlineE t))) ∧
    (x.e.opc = 0x09 → ranges.length = x.e.ranges → (∃ r, r ∈ ranges ∧ r.nlb ≠ 0) →
      (x.e.sanz = false → ∃ t, exec (.dsm c ranges) s = .next t ∧ entered .dsmE t) ∧
      (x.e.sanz = true → ∃ t, exec (.sanitizingDeallocate c ranges) s = .next t ∧ entered .sanDsmE t)) ∧
    (let o := qOwner x.q
     let wrote := fun (k : EKind) (t : State) =>
       Holds s t c ∧ OthersSame s t c ∧ t.gate.next = s.gate.next + 1 ∧
       t.gate.entries = s.gate.entries.put s.gate.next (s.ioEntry c x k ranges) ∧
       Same (Piece.admin ++ Piece.withEvent [.slices, .staging, .bpm, .key]) s t ∧
       t.gate.dirty = s.gate.dirty + x.e.n * 4096 ∧ (t.keyOwner o).use = (s.keyOwner o).use + x.e.n ∧
       (t.slice o).written = (s.slice o).written + (if o < 1024 then x.e.n else 0) ∧
       ∃ st, t.staging = s.staging.put s.gate.next st ∧ st.ctx = c ∧ st.owner = o ∧ st.n = x.e.n ∧
         st.bufs.length = ceilDiv x.e.n 4 ∧ st.gen = (s.keyOwner o).cur
     ranges = [] →
      (x.e.opc = 0x01 → ∃ t, exec (.writeCmd c) s = .next t ∧ wrote .writeE t) ∧
      (x.e.opc = 0x7d → ∃ t, exec (.zoneAppend c) s = .next t ∧ wrote .appendE t))

/-- A commit of a zone operation in a zone that no fence stops, with no system entry waiting for its own commit: the new state
of the zone, as the table of R147 gives it for the actions that open no zone. A Finish of a Full zone leaves it Full. -/
def Obligations.ZoneOperationsCommit : Prop :=
  ∀ (s : State) (stamp zk : Nat) (e : Entry) (z : Zone), (∀ p ∈ s.gate.entries, p.2.sys = none) →
    s.gate.entries.look stamp = some e → s.commitReady stamp e zk = true → e.all = false → s.zones.look zk = some z → (∀ p, z.place = some p → s.chipFenced p.chip = false) →
    ∃ t, exec (.commit stamp zk) s = .next t ∧ t.pending = s.pending ∧
      (e.kind = .openE → (z.zs = .implOpen ∨ z.zs = .explOpen) → (t.zone zk).zs = .explOpen) ∧
      (e.kind = .closeE → (z.zs = .implOpen ∨ z.zs = .explOpen) → (t.zone zk).zs = if z.wp = 0 then .empty else .closed) ∧
      (e.kind = .finishE → (z.zs = .empty ∨ z.zs = .implOpen ∨ z.zs = .explOpen ∨ z.zs = .closed ∨ z.zs = .full) →
        (t.zone zk).zs = .full) ∧
      (e.kind = .resetE → (z.zs = .implOpen ∨ z.zs = .explOpen ∨ z.zs = .closed ∨ z.zs = .full) → (t.zone zk).zs = .empty) ∧
      (e.kind = .offlineE → z.zs = .readOnly → (t.zone zk).zs = .offline) ∧
      ((e.kind = .closeE ∧ z.zs = .closed ∨ e.kind = .resetE ∧ z.zs = .empty ∨
        e.kind = .offlineE ∧ z.zs = .offline ∨
        e.kind = .openE ∧ (z.zs = .full ∨ z.zs = .readOnly ∨ z.zs = .offline) ∨
        e.kind = .closeE ∧ (z.zs = .empty ∨ z.zs = .full ∨ z.zs = .readOnly ∨ z.zs = .offline) ∨
        e.kind = .finishE ∧ (z.zs = .readOnly ∨ z.zs = .offline) ∨ e.kind = .resetE ∧ (z.zs = .readOnly ∨ z.zs = .offline) ∨
        e.kind = .offlineE ∧ z.zs ≠ .readOnly ∧ z.zs ≠ .offline) → t.zones = s.zones)

/-- A commit of a Key Rotate that names the current generation, with no system entry waiting: action 0 makes the next key current and draws a new next
key, action 1 draws the next key again, action 2 sets the usage to LIMIT. -/
def Obligations.KeyRotateCommits : Prop :=
  ∀ (s : State) (stamp zk : Nat) (e : Entry), (∀ p ∈ s.gate.entries, p.2.sys = none) → s.gate.entries.look stamp = some e →
    s.commitReady stamp e zk = true → e.kind = .keyRotE → e.val = (s.keyOwner e.owner).cur → s.key.entropyBad = false →
    let k := s.keyOwner e.owner
    ∃ t, exec (.commit stamp zk) s = .next t ∧ t.zones = s.zones ∧
      (e.target = 0 → k.live < 15 → s.bound2 e.owner = false → k.cur < 0xfffffffe →
        (t.keyOwner e.owner).cur = k.cur + 1 ∧ (t.keyOwner e.owner).use = 0 ∧ (t.keyOwner e.owner).slots.look (k.cur + 2) = some s.free) ∧
      (e.target = 1 → t.keyOwner e.owner = { k with slots := k.slots.put (k.cur + 1) s.free }) ∧
      (e.target = 2 → t.keyOwner e.owner = { k with use := s.keyLimit })

/-! ### Queues, mailboxes, notice rings -/

/-- R501: a BAR0 doorbell of an existing PF queue is acted on where its value is valid. A doorbell of a queue that does not
exist, or with an invalid value, is discarded and reported by an Error Status event through the next Asynchronous Event Request;
while that report is not cleared, further ones are discarded without an event. -/
def Obligations.PfDoorbellsAct : Prop :=
  ∀ (s : State) (q v : Nat),
    let reported := fun (info : Nat) (t : State) =>
      (s.nvme.dbErr = true → t = s) ∧
      (s.nvme.dbErr = false → Same [.nvme, .sqs, .qrecs, .ctxs] s t ∧ (∀ k, k ∉ s.nvme.aers → t.ctxs.look k = s.ctxs.look k) ∧
        (s.nvme.aers = [] → t = { s with nvme := { s.nvme with dbErr := true, aens := s.nvme.aens ++ [(0, info, 0x01)] } }) ∧
        ∀ c l, s.nvme.aers = c :: l → t.nvme = { s.nvme with dbErr := true, aers := l } ∧
          ∀ x, s.ctxs.look c = some x → x.phase ≠ .done → ∃ y, t.ctxs.look c = some y ∧ y.phase = .done ∧ y.status = some stOk ∧
            y.dw0 = BitVec.ofNat 32 (info * 2 ^ 8 + 0x01 * 2 ^ 16))
    (1024 ≤ q ∨ s.sqs.look q = none → ∃ t, exec (.pfSqDoorbell q v) s = .next t ∧ reported 0 t) ∧
    (1024 ≤ q ∨ s.cqs.look q = none → ∃ t, exec (.pfCqDoorbell q v) s = .next t ∧ reported 0 t) ∧
    (q < 1024 → ∀ x : Sq, s.sqs.look q = some x →
      let n := x.size + 1
      let bad := x.size < v ∨ v = x.tail ∨ n - 1 - ringDist x.head x.tail n < ringDist x.tail v n
      (¬ bad → ∃ t, exec (.pfSqDoorbell q v) s = .next t ∧ Same [.sqs] s t ∧
        t.sqs = s.sqs.put q { x with tail := v, bells := x.bells ++ [(ringDist x.tail v n, s.now)] }) ∧
      (bad → ∃ t, exec (.pfSqDoorbell q v) s = .next t ∧ reported 1 t)) ∧
    (q < 1024 → ∀ x : Cq, s.cqs.look q = some x →
      let n := x.size + 1
      let bad := x.size < v ∨ v = x.head ∨ ringDist x.head x.tail n < ringDist x.head v n
      (¬ bad → ∃ t, exec (.pfCqDoorbell q v) s = .next t ∧ Same [.cqs] s t ∧ t.cqs = s.cqs.put q { x with head := v }) ∧
      (bad → ∃ t, exec (.pfCqDoorbell q v) s = .next t ∧ reported 1 t))

/-- R85: a tail doorbell of an enabled queue pair of a slice is recorded in every state of
the slice, and while the slice is not ACTIVE nothing is fetched; a head doorbell is acted on in every state; both keep the checks
of R102; of an ACTIVE slice the entries up to the recorded tail are fetched. -/
def Obligations.SliceDoorbellsAreRecorded : Prop :=
  ∀ (s : State) (i q v : Nat) (pasid : Option Nat) (x : Sq) (e : SqEntry), i < 1024 → q < 128 → s.pageOk i pasid = true →
    s.sqs.look (sliceQ i q) = some x →
    (x.en = true → v ≤ x.size → ∃ t, exec (.slcDbSq i pasid q v) s = .next t ∧ Same [.sqs] s t ∧
      t.sqs = s.sqs.put (sliceQ i q) { x with tail := v, bells := x.bells ++ [(ringDist x.tail v (x.size + 1), s.now)] }) ∧
    (x.enabled = true → v ≤ x.size → ∃ t, exec (.slcDbCq i pasid q v) s = .next t ∧ Same [.cqs] s t ∧
      t.cqs = s.cqs.edit (sliceQ i q) fun c => { c with head := v }) ∧
    (x.en = false ∨ x.size < v → ∃ t, exec (.slcDbSq i pasid q v) s = .next t ∧ t = s.notice i 0x09 q v ∧ t.sqs = s.sqs) ∧
    (x.enabled = false ∨ x.size < v → ∃ t, exec (.slcDbCq i pasid q v) s = .next t ∧ t = s.notice i 0x09 q v ∧ t.cqs = s.cqs) ∧
    ((s.slice i).st ≠ .active → exec (.submissionFetch (sliceQ i q) e) s = .next s) ∧
    (x.head = x.tail → exec (.submissionFetch (sliceQ i q) e) s = .next s) ∧
    ((s.slice i).st = .active → s.mayFetch (sliceQ i q) x = true →
      ∃ t, exec (.submissionFetch (sliceQ i q) e) s = .next t ∧ Same [.sqs, .ctxs, .gate, .sward] s t ∧
        (∃ y, t.sqs.look (sliceQ i q) = some y ∧ y.tail = x.tail ∧ y.head = if x.head = x.size then 0 else x.head + 1) ∧
        ∃ y, t.ctxs = s.ctxs.put (s.ctxs.freeFrom 0) y ∧ y.q = sliceQ i q ∧ y.e = e ∧ y.phase = .fetched)

/-- R26: with every command context held the queue engines fetch nothing, the entries stay in their queues and no error comes;
with a context free again the fetch goes on. -/
def Obligations.FetchStopsWithEveryContextHeld : Prop :=
  ∀ (s : State) (q : Nat) (e : SqEntry),
    (65536 ≤ s.ctxs.length → ∃ t, exec (.submissionFetch q e) s = .next t ∧ Same [.bpm] s t ∧
      t.bpm = { s.bpm with waits := t.bpm.waits }) ∧
    (∀ x, s.sqs.look q = some x → s.mayFetch q x = true → s.ctxs.length < 65536 ∧
      ∃ t y, exec (.submissionFetch q e) s = .next t ∧ t.ctxs = s.ctxs.put (s.ctxs.freeFrom 0) y ∧ y.q = q ∧ y.e = e ∧
        t.gate.seqNo = s.gate.seqNo + 1 ∧ Same [.sqs, .ctxs, .gate, .sward] s t)

/-- A decided command whose completion queue has room posts its completion entry, and its context is free again; the DMA of a PF
queue carries no PASID. -/
def Obligations.CompletionIsPosted : Prop :=
  ∀ (s : State) (c : Nat) (x : Ctx) (st : Status) (y : Cq), s.ctxs.look c = some x → x.phase = .done → x.status = some st →
    x.discard = false → s.cqs.look (s.cqOf x.q) = some y → y.full = false → s.linkUp = true → s.inStop = false →
    s.pci.d3hot = false → s.pci.bme = true → s.brm.st < 3 →
    ∃ t, exec (.completionPost c) s = .next t ∧ t.ctxs.look c = none ∧
      t.cqs = s.cqs.put (s.cqOf x.q) { y with tail := if y.tail = y.size then 0 else y.tail + 1
                                              phase := if y.tail = y.size then !y.phase else y.phase } ∧
      (st = stOk → x.q < 1024 → y.ien = false → s.ctxs.any (fun _ z => z.waitFor == some c) = false →
        ∃ dw2, t.out = .cqe none (s.cqOf x.q) x.dw0 x.dw1 dw2 (dword3 st y.phase x.e.cid) :: s.out)

/-- R102: an accepted enable sets SQHEAD, CQTAIL, the tail and the head to 0 and the phase to 1, and a refused one records its
reason; a disable stops fetching at once, and ENABLED stays until the commands fetched have posted. -/
def Obligations.QueuePairsEnableAndDisable : Prop :=
  ∀ (s : State) (i q : Nat) (pasid : Option Nat) (v : Dword), s.pageOk i pasid = true →
    let k := sliceQ i q
    let x := s.sqs.get k {}
    (x.en = true → exec (.queuePairEnable i pasid q v) s = .next s) ∧
    (x.en = false → s.enErr i q x v = 0 → ∃ t y z, exec (.queuePairEnable i pasid q v) s = .next t ∧
      Same [.sqs, .cqs, .qrecs] s t ∧ t.sqs.look k = some y ∧ t.cqs.look k = some z ∧
      y = { x with en := true, enabled := true, enerr := 0, head := 0, tail := 0, frozen := false, frozenSeen := false, bells := []
                   strict := v.getLsbD 30, size := bitsAt v.toNat 0 12, cq := k, ctl := v &&& 0x603f0fff } ∧
      z = { s.cqs.get k {} with head := 0, tail := 0, phase := true, ien := v.getLsbD 29, iv := bitsAt v.toNat 16 6
                                size := bitsAt v.toNat 0 12 }) ∧
    (x.en = false → s.enErr i q x v ≠ 0 → ∃ t y, exec (.queuePairEnable i pasid q v) s = .next t ∧ Same [.sqs] s t ∧
      t.sqs.look k = some y ∧ y.en = false ∧ y.enerr = s.enErr i q x v ∧ y.head = x.head ∧ y.tail = x.tail) ∧
    (x.en = true → x.frozen = false → ∃ t y, exec (.queuePairDisable i pasid q v) s = .next t ∧ Same [.sqs] s t ∧
      t.sqs.look k = some y ∧ y.en = false ∧
      y.enabled = if 1024 ≤ k ∧ s.ctxs.any (fun _ z => z.q == k) = false then false else x.enabled)

/-- R105: the outcome of a push, row by row, on the direction it goes to: a tenant pushes up and the manager down. -/
def Obligations.MailboxPushes : Prop :=
  ∀ (s : State) (i : Nat) (pasid : Nat) (aligned : Bool) (w : Word),
    let seq := bitsAt w.toNat 48 16
    let len := bitsAt w.toNat 40 8
    let outcome := fun (closed : Bool) (m m' : Mbox) =>
      let seen := m.fullSeen = true ∨ m.flushedSeen = true ∨ m.errSeen = true
      let header := ¬ closed = true ∧ ¬ seen ∧ aligned = true ∧ m.dupRun = 0 ∧ m.free ≠ 0 ∧ m.part = 0
      let stored := fun need =>
        (m.part + 1 = need → m' = { m with slots := m.slots.put ((m.tail + m.part) % 32) w, tail := (m.tail + need) % 64
                                           nextSeq := (m.nextSeq + 1) % 65536, part := 0, need := 0, result := 0 }) ∧
        (m.part + 1 ≠ need → m' = { m with slots := m.slots.put ((m.tail + m.part) % 32) w, part := m.part + 1, need := need
                                           result := 0 })
      (closed = true → m' = { m with result := 6 }) ∧
      (¬ closed = true → seen → m' = { m with result := if m.fullSeen then 1 else if m.flushedSeen then 2 else m.result }) ∧
      (¬ closed = true → ¬ seen → aligned = false → m' = { m with part := 0, need := 0, dupRun := 0, errSeen := true, result := 7 }) ∧
      (¬ closed = true → ¬ seen → aligned = true → m.dupRun ≠ 0 → m' = { m with dupRun := m.dupRun - 1, result := 3 }) ∧
      (¬ closed = true → ¬ seen → aligned = true → m.dupRun = 0 → m.free = 0 →
        m' = { m with part := 0, need := 0, fullSeen := true, result := 1 }) ∧
      (header → (len = 0 ∨ 32 < len) → m' = { m with errSeen := true, result := 5 }) ∧
      (header → 1 ≤ len → len ≤ 32 → (seq + 1) % 65536 = m.nextSeq → m' = { m with dupSeen := true, dupRun := len - 1, result := 3 }) ∧
      (header → 1 ≤ len → len ≤ 32 → (seq + 1) % 65536 ≠ m.nextSeq → seq ≠ m.nextSeq → m' = { m with errSeen := true, result := 4 }) ∧
      (header → 1 ≤ len → len ≤ 32 → seq = m.nextSeq → stored len) ∧
      (¬ closed = true → ¬ seen → aligned = true → m.dupRun = 0 → m.free ≠ 0 → m.part ≠ 0 → stored m.need)
    (s.pageOk i (some pasid) = true →
      ∃ t m, exec (.slcMboutPush (.tenant (some pasid)) i aligned w) s = .next t ∧ (∀ k, k ≠ i → t.slice k = s.slice k) ∧
        Same [.out, .slices, .evt, .log] s t ∧ t.slice i = { s.slice i with up := m } ∧ outcome false (s.slice i).up m) ∧
    (i < 1024 →
      ∃ t m, exec (.slcMboutPush .manager i aligned w) s = .next t ∧ (∀ k, k ≠ i → t.slice k = s.slice k) ∧
        Same [.out, .slices, .evt, .log] s t ∧ t.slice i = { s.slice i with down := m } ∧
        outcome ((s.slice i).st == .none || (s.slice i).st == .destroying) (s.slice i).down m)

/-- A flush empties its direction at the index just past the last stored word, and a partial message cut is noted (R106); a HEAD
write is taken within the ring's occupied part (R107); the notice ring's control and head (R109, R110). -/
def Obligations.FlushesHeadsAndNoticeRing : Prop :=
  ∀ (s : State) (i h : Nat) (pasid : Nat) (v : Dword), s.pageOk i (some pasid) = true →
    let y := s.slice i
    let flushed := fun (m : Mbox) => { m with
      head := (m.tail + m.part) % 64, tail := (m.tail + m.part) % 64, part := 0, need := 0
      flushedSeen := m.flushedSeen || decide (m.part ≠ 0) }
    let headed := fun (m : Mbox) => if (h % 64 + 64 - m.head) % 64 ≤ (m.tail + 64 - m.head) % 64 then { m with head := h % 64 } else m
    let only := fun (t : State) => (∀ k, k ≠ i → t.slice k = s.slice k) ∧ Same [.out, .slices, .evt, .log] s t
    (∃ t, exec (.flushIn (.tenant (some pasid)) i) s = .next t ∧ only t ∧ t.slice i = { y with down := flushed y.down }) ∧
    (∃ t, exec (.flushOut (.tenant (some pasid)) i) s = .next t ∧ only t ∧ t.slice i = { y with up := flushed y.up }) ∧
    (i < 1024 → ∃ t, exec (.flushIn .manager i) s = .next t ∧ only t ∧ apart (t.slice i) = apart { y with up := flushed y.up }) ∧
    (i < 1024 → ∃ t, exec (.flushOut .manager i) s = .next t ∧ only t ∧ apart (t.slice i) = apart { y with down := flushed y.down }) ∧
    (∃ t, exec (.slcMbinPtr (.tenant (some pasid)) i h) s = .next t ∧ only t ∧ t.slice i = { y with down := headed y.down }) ∧
    (i < 1024 → ∃ t, exec (.slcMbinPtr .manager i h) s = .next t ∧ only t ∧ t.slice i = { y with up := headed y.up }) ∧
    (y.nr.lost = 0 →
      let nvec := bitsAt v.toNat 16 6
      let nr := { y.nr with nvec := if nvec < y.vecCount then nvec else y.nr.nvec, ien := v.getLsbD 15 }
      (y.nr.en = true → ∃ t, exec (.slcNrCtl i (some pasid) v) s = .next t ∧ only t ∧
        t.slice i = { y with nr := { nr with en := v.getLsbD 31 } }) ∧
      (y.nr.en = false → v.getLsbD 31 = true → 15 ≤ bitsAt v.toNat 0 12 → ∃ t, exec (.slcNrCtl i (some pasid) v) s = .next t ∧ only t ∧
        t.slice i = { y with nr := { nr with size := bitsAt v.toNat 0 12, en := true, head := 0, tail := 0, phase := true, fault := false } }) ∧
      (y.nr.en = false → v.getLsbD 31 = false ∨ bitsAt v.toNat 0 12 < 15 → ∃ t, exec (.slcNrCtl i (some pasid) v) s = .next t ∧ only t ∧
        t.slice i = { y with nr := { nr with size := bitsAt v.toNat 0 12 } }) ∧
      (∃ t, exec (.slcNrHead i (some pasid) h) s = .next t ∧ only t ∧ t.slice i = { y with nr := { y.nr with head := h % 4096 } }))

/-! ### Swath and Hayrick -/

/-- The first bus error that a request of a channel can meet (a data request only toward the device, R256) halts it and latches what failed; a later one counts, and another command's sets MULTI;
the other channels go on (R254, R255). A thaw ends the halt, keeps the latched fields, and resumes the paused transfers (R258). -/
def Obligations.ChannelsHaltAndThaw : Prop :=
  ∀ (s : State) (q c : Nat) (x : Ctx) (cause : BusCause) (src : BusSource) (addr : Word) (unit : Nat),
    let o := qOwner x.q
    let k := s.dma.chans.get o {}
    let meets := s.ctxs.look c = some x ∧ x.onChannel = true ∧ src ≠ .fetch ∧ (src = .data ∨ src = .metadata → x.readsHost = true)
    (meets → k.halted = false →
      let latched := fun (code : Nat) (t : State) =>
        t.dma.chans = s.dma.chans.put o { k with
          halted := true, multi := false, dir := x.readsHost, cause := code, source := busSourceCode src
          desc := 0, faults := satAdd 0xffff k.faults 1, cid := x.e.cid, qid := qIndex x.q, addr := addr, unit := min 511 unit }
      (∃ t, exec (.busError q c cause src addr unit) s = .next t ∧ latched (busCauseCode cause) t) ∧
      (∃ t, exec (.dmaCompletionTimeout q c src addr unit) s = .next t ∧ latched 3 t)) ∧
    (meets → k.halted = true →
      ∃ t, exec (.busError q c cause src addr unit) s = .next t ∧ t.dma.chans = s.dma.chans.put o { k with
        faults := satAdd 0xffff k.faults 1, multi := k.multi || decide (k.cid ≠ x.e.cid ∨ k.qid ≠ qIndex x.q) }) ∧
    (∀ i pasid, s.chanHalted i = true →
      let h := s.dma.chans.get i {}
      let thawed := fun (t : State) => Same [.ctxs, .dma] s t ∧
        t.dma.chans = s.dma.chans.put i { h with halted := false, multi := false, faults := 0, thaws := satAdd 0xffffffff h.thaws 1 } ∧
        t.ctxs = s.ctxs.mapV fun _ y => if qOwner y.q = i then { y with paused := false } else y
      (i ≤ 1024 → ∃ t, exec (.dmaThaw i) s = .next t ∧ thawed t) ∧
      (s.pageOk i pasid = true → ∃ t, exec (.slcDmaThaw i pasid) s = .next t ∧ thawed t)) ∧
    (∀ i, s.chanHalted i = false → exec (.dmaThaw i) s = .next s)

/-- A unit whose host memory the command's descriptors give and whose key is held moves: of a write it is in staging, encrypted and
with its CRC (R15, R21), and of a read it has gone to the host with its channel's PASID (R60, R259); an acknowledged fence is gone (R260); a
checkpoint persisted stands, and with no crossing since then no other is pending (R35); a revocation is answered by the state of its
slice (R265, R272); a cache outside 64 to 192 entries is refilled or spilled, to a level within them that the spec leaves open
(R261), and one within is left alone. -/
def Obligations.TransfersFencesAndStores : Prop :=
  ∀ (s : State) (c u data md : Nat) (host l : List (Nat × Nat)) (x : Ctx),
    (s.ctxs.look c = some x → x.phase = .stamped → x.committed = true → x.failed = false → s.chanHalted (qOwner x.q) = false →
      s.linkUp = true → s.inStop = false → s.pci.bme = true → s.key.cleared = false →
      walkUnit host x.e (s.entryPtr x) x.units u = .pieces l →
      (∀ st, x.e.isWrite = true → u < x.units → x.moved.contains u = false → s.staging.look x.stamp = some st → s.zoneChip st.zone = 0 →
        let unit := sealUnit st.kix (x.lba + u) x.e.nsid data md
        (st.data.put u unit).length < st.n →
        ∃ t y, exec (.unitTransferDone c u (data, md) host (.ok false)) s = .next t ∧ t.ctxs = s.ctxs.put c y ∧ y = { x with begun := true, moved := insNat u x.moved } ∧
          t.staging = s.staging.put x.stamp { st with data := st.data.put u unit } ∧
          Same [.ctxs, .staging, .par, .sward, .key, .bpm, .dma] s t ∧ t.key = { s.key with ram := t.key.ram }) ∧
      (∀ r, x.e.isWrite = false → x.runits.look u = some r → r.st = .ready → r.hold = none → s.dma.fences.contains (2, relTag c u) = false →
        ∃ t, exec (.unitTransferDone c u (data, md) host (.ok false)) s = .next t ∧
          t.out = .readUnit (s.dmaPasid x.q) s.pci.relaxed c u (s.unitContent r).1 (s.unitContent r).2 l :: s.out)) ∧
    (∀ k tag, ∃ t, exec (.fenceAcknowledged k tag) s = .next t ∧ Same [.dma] s t ∧ t.dma = { s.dma with fences := s.dma.fences.erase (fenceCode k, tag) }) ∧
    (∀ v, s.gate.ckptPend = some v → s.dma.fences.contains (4, v) = false → s.gate.next / 2 ^ 24 * 2 ^ 24 = v →
      ∃ t, exec (.checkpointPersisted v) s = .next t ∧ Same [.gate, .nv] s t ∧
        t.gate = { s.gate with ckpt := v, ckptPend := none } ∧ t.nv = { s.nv with savedMedia := t.nv.savedMedia }) ∧
    (∀ i, i < 1024 → ∃ t, exec (.bpmRevoke i) s = .next t ∧
      t.bpm.revokeResult = (if (s.slice i).st = .none then 2 else if (s.slice i).st ≠ .frozen then 1 else 0) ∧
      ((s.slice i).st ≠ .frozen → t.bpm.revokeSlice = i ∧ Same [.bpm] s t) ∧
      ((s.slice i).st = .frozen → t.bpm.revokeBufs = min (s.ownerBufs i) (2 ^ 28 - 1) ∧ t.bpm.bufs.any (fun _ b => b.named == i) = false)) ∧
    (∀ store, store < 2 →
      let n := fun (t : State) => if store = 0 then t.bpm.cacheSram else t.bpm.cacheDram
      (64 ≤ n s → n s ≤ 192 → exec (.hayrickCacheRefill store) s = .next s) ∧
      (n s < 64 ∨ 192 < n s → ∃ t, exec (.hayrickCacheRefill store) s = .next t ∧ Same [.free, .bpm] s t ∧ n t ≤ 192 ∧
        (192 ≤ s.storeFree (store != 0) → 64 ≤ n t)))

/-! ### Host link, controller, resets -/

/-- The host resets of R54, while no save sequence runs: the PF's queues and the controller's enable are gone, every slice that ran
is frozen with reason 2 (reason 3 when PASID Enable is cleared, R60), and the media work goes on. With CC.EN cleared the slices are
untouched. -/
def Obligations.HostResetsFreezeTheSlices : Prop :=
  ∀ s : State, s.brm.st < 3 →
    let frozen := fun (r : Nat) (t : State) => ∀ i, i ∈ s.slices.map (·.1) →
      (s.slice i).st = .active ∨ (s.slice i).st = .quiescing ∨ (s.slice i).st = .quiesced →
      (t.slice i).st = .frozen ∧ (t.slice i).reason = r
    let pfGone := fun (t : State) => t.sqs.any (fun q _ => decide (q < 1024)) = false ∧
      t.cqs.any (fun q _ => decide (q < 1024)) = false ∧ t.nvme.rdy = false ∧ t.nvme.shst = 0 ∧ t.nvme.aers = []
    let down := fun (t : State) => t.nvme.cc = 0 ∧ t.pci.pasidEn = false ∧ t.pci.bme = false ∧ t.evt.fmask = true ∧ t.evt.msixTbl = []
    let media := fun (t : State) => Same [.out, .pci, .nvme, .sqs, .cqs, .qrecs, .ctxs, .slices, .nss, .evt, .log] s t
    (∃ t, exec .perstAsserted s = .next t ∧ frozen 2 t ∧ pfGone t ∧ down t ∧ media t ∧ t.pci.rate = 0 ∧ t.pci.perstN = false) ∧
    (∃ t, exec .hotReset s = .next t ∧ frozen 2 t ∧ pfGone t ∧ down t ∧ media t ∧ t.pci.rate = 0 ∧ t.pci.perstN = s.pci.perstN) ∧
    (∃ t, exec .functionLevelReset s = .next t ∧ frozen 2 t ∧ pfGone t ∧ down t ∧ media t ∧ t.pci.rate = s.pci.rate) ∧
    (∃ t, exec .pasidEnableCleared s = .next t ∧ frozen 3 t ∧ t.pci = { s.pci with pasidEn := false } ∧ media t) ∧
    (∃ t, exec .ccEnClear s = .next t ∧ pfGone t ∧ t.nvme.cc.getLsbD 0 = false ∧
      Same [.out, .nvme, .sqs, .cqs, .qrecs, .ctxs, .nss, .evt] s t)

/-- CC.EN set on a link that is up makes the admin queues and enables the controller; a wrong command set sets CFS (R62, R63); the
bits of CC that R62 does not list stay 0. The RDY bound, the link, its power state,
the doorbell of a failed PASID check and the vectors. -/
def Obligations.ControllerAndLinkEventsAct : Prop :=
  ∀ s : State,
    (∀ cc : Dword, s.linkUp = true → s.inStop = false → s.pci.d3hot = false → s.nvme.cc.getLsbD 0 = false → s.upd.stage ≠ 15 →
      let en := (cc &&& 0x01ffc7f1) ||| 1
      (bitsAt en.toNat 4 3 = 6 → ¬(s.brm.st = 4 ∧ s.brm.saveKind = 3) →
        ∃ t x y, exec (.ccEnSet cc) s = .next t ∧ Same [.nvme, .sqs, .cqs] s t ∧ t.nvme.cc = en ∧ t.sqs = s.sqs.put 0 x ∧
          t.cqs = s.cqs.put 0 y ∧ x.base = s.nvme.asq ∧ y.base = s.nvme.acq ∧ x.size = bitsAt s.nvme.aqa.toNat 0 12 ∧
          y.size = bitsAt s.nvme.aqa.toNat 16 12 ∧ x.en = true ∧
          t.nvme.rdy = if en.getLsbD 24 then s.gate.adminOk else s.gate.ioOk) ∧
      (bitsAt en.toNat 4 3 ≠ 6 → ∃ t, exec (.ccEnSet cc) s = .next t ∧ Same [.nvme] s t ∧
        t.nvme = { s.nvme with cc := en, cfs := true })) ∧
    (∃ t, exec .rdyBound s = .next t ∧ Same [.nvme] s t ∧
      t.nvme = if s.nvme.cc.getLsbD 0 = true ∧ s.nvme.cfs = false ∧ s.gate.adminOk = true then { s.nvme with rdy := true } else s.nvme) ∧
    (∃ t, exec .perstDeasserted s = .next t ∧ Same [.pci] s t ∧ t.pci = { s.pci with perstN := true }) ∧
    (∀ rate width flit, s.pci.perstN = true → s.powered = true → s.inStop = false → linkOk rate width flit = true → s.cas.crown = true →
      ∃ t, exec (.pcieLinkUp rate width flit) s = .next t ∧ Same [.out, .pci, .evt, .slices] s t ∧
        t.pci = { s.pci with rate := rate, width := width, flit := flit } ∧ t.evt.msiWait = [] ∧
        ∀ k, apart (t.slice k) = apart (s.slice k)) ∧
    (∀ d pme, s.linkUp = true → ∃ t, exec (.functionPowerStateChange d pme) s = .next t ∧ Same [.pci] s t ∧
      t.pci = { s.pci with d3hot := d, pmeEn := pme }) ∧
    (∀ v, v < 2048 → ∃ t, exec (.vectorUnmask (some v)) s = .next t ∧ Same [.out, .evt] s t ∧ t.evt.unmasked = insNat v s.evt.unmasked ∧
      (s.evt.pba.contains v = true → s.evt.fmask = false → s.linkUp = true → s.inStop = false →
        t.out = .msi v :: s.out ∧ t.evt.pba = s.evt.pba.filter (· != v))) ∧
    (∃ t, exec (.vectorUnmask none) s = .next t ∧ Same [.out, .evt] s t ∧ t.evt.fmask = false ∧ t.evt.unmasked = s.evt.unmasked) ∧
    (∀ i p w off, s.pageOk i p = false → ∃ t, exec (.bar4CheckFailure i p w off) s = .next t ∧ Same [.out, .pci, .evt, .log] s t ∧
      t.pci.faultCnt = satAdd 0xffffffff s.pci.faultCnt 1 ∧ (s.pci.faultReg.getLsbD 63 = true → t.pci.faultReg = s.pci.faultReg) ∧
      (w = false → ∃ l, t.out = .readReply i true :: l)) ∧
    (∃ t, exec .keepAliveExpiry s = .next t ∧ t = if s.nvme.kato ≠ 0 ∧ s.nvme.cc.getLsbD 0 = true then s.fire 4 else s)

/-- A chip reset (R371, R380, R490, R493): what NOR, the flash, the Bonnet array and the meter island hold is kept, after a save
with the tokens, the keys and the stamps; the controller, the contexts and the power state are at reset, and the cause is recorded.
A shutdown notification saves (R64). -/
def Obligations.ChipResetsKeepWhatPersists : Prop :=
  ∀ s : State,
    let chip := fun (t : State) => t.mtr = s.mtr ∧ t.nss = s.nss ∧ t.blocks = s.blocks ∧ t.flash = s.flash ∧ t.efl.words = s.efl.words ∧
      t.now = s.now ∧ t.zne.seedCur = s.zne.seedCur ∧
      t.ctxs = [] ∧ t.sqs = [] ∧ t.cqs = [] ∧ t.staging = [] ∧ t.gate.entries = [] ∧ t.upd.stage = 0 ∧ t.pci.rate = 0 ∧ t.efl.busy = false ∧
      t.pwr.st = State.reset.pwr.st ∧ t.nvme.cc = 0 ∧ t.drc = State.reset.drc ∧ t.lat = State.reset.lat ∧ t.side = State.reset.side ∧
      t.log.slots = [] ∧
      (s.brm.st = 4 → t.toks = s.toks ∧ t.key.owners = s.key.owners ∧ t.key.epoch = s.key.epoch ∧ t.gate.next = s.gate.next ∧
        t.gate.shared = s.gate.shared ∧ t.gate.localD = s.gate.localD ∧ t.gate.recs = s.gate.recs ∧ t.log.seq = s.log.seq ∧
        t.nv.savedLog = s.nv.savedLog ∧ t.out = s.out)
    let cause := fun (t : State) => (t.pwr.rcPor, t.pwr.rcAobor, t.pwr.rcSaved, t.pwr.rcFatal)
    (∃ t, exec .supplyReset s = .next t ∧ chip t ∧ cause t = (true, false, false, false)) ∧
    (∃ t, exec .sysRstN s = .next t ∧ chip t ∧ cause t = (true, false, false, false)) ∧
    (s.pwr.st = 2 → ∃ t, exec .aoBrownOutReset s = .next t ∧ chip t ∧ cause t = (false, true, false, false)) ∧
    (s.brm.st = 4 → (s.brm.saveKind = 1 ∨ s.brm.saveKind = 2) →
      ∃ t, exec .inputGoodRestart s = .next t ∧ chip t ∧ cause t = (false, false, true, false)) ∧
    (s.brm.st = 4 → s.brm.saveKind = 4 → ∃ t, exec .inputGoodRestart s = .next t ∧ chip t ∧ cause t = (false, false, false, true)) ∧
    (∃ t, exec .glitchDetectorsArm s = .next t ∧ Same [.evt] s t ∧
      (s.powered = true → ¬(s.brm.st = 4 ∧ s.nv.clean = true) → t.evt = { s.evt with glitchArmed := true })) ∧
    (∀ shn, (shn = 1 ∨ shn = 2) → s.gate.adminOk = true → s.brm.st < 3 →
      ∃ t u, exec (.shutdownNotification shn) s = .next t ∧ u.nvme = { (s.saveStart 3).nvme with
          shst := 1, cc := ((s.saveStart 3).nvme.cc &&& ~~~0xc000) ||| BitVec.ofNat 32 (shn * 2 ^ 14) } ∧
        Same [.nvme] (s.saveStart 3) u ∧ (u.draining = true → t = u) ∧
        (u.draining = false → t.nvme.shst = 2 ∧ t.nvme.shutDone = true))

/-! ### Media -/

/-- The way of a unit of a read: into the scheduler, on the die (the class 0 read whose unit entered first, R230), off the array
(R185), and out of the decoder or, made of its row with the CRC relation, out of the reconstruction to its release, with a release
fence (R179, R213, R214, R239, R260); suspend and duty (R174, R232). -/
def Obligations.UnitsPassTheMedia : Prop :=
  ∀ s : State,
    (∀ c u x r l, s.ctxs.look c = some x → x.runits.look u = some r → x.reading = true → r.st = .waiting → r.alts = .zeros :: l →
      x.q ≠ 1023 → x.unitsHeld < x.readDraw → ∃ t, exec (.unitEntersScheduler c u) s = .next t ∧ Same [.ctxs] s t ∧
        t.ctxs = s.ctxs.put c { x with runits := x.runits.put u { r with st := .ready } }) ∧
    (∀ die d id o c u rest, s.dies.look die = some d → s.dieGood die = true → d.running = none → d.suspended = none → s.inStop = false →
      (d.queue.filterMap fun id => (s.fch.ops.look id).map fun o => (id, o)).filter (fun p => p.2.isRead && p.2.cls == 0) = (id, o) :: rest →
      (∀ p ∈ rest, o.ent ≤ p.2.ent) → s.fch.ops.look id = some o → o.kind = .direct c u →
      ∃ t, exec (.dieNextChoice die) s = .next t ∧ Same [.dies, .fch, .lat] s t ∧ (t.die die).running = some id ∧
        (t.die die).queue = d.queue.filter (· != id) ∧ ∃ offs, t.fch.ops = s.fch.ops.put id { o with startAt := s.now, suspTime := 0, offs := offs }) ∧
    (∀ op o d, s.fch.ops.look op = some o → o.isRead = true → s.dies.look o.die = some d → d.running = some op → o.withdrawn = false →
      o.reads ≤ 1 → ∃ t, exec (.pageReadComplete op) s = .next t ∧ Same [.dies, .fch, .mtr, .sward] s t ∧ (t.die o.die).running = none ∧
        t.fch.ops = s.fch.ops.put op { o with transferred := true, retried := false }) ∧
    (∀ op u o c v r w, s.fch.ops.look op = some o → o.transferred = true → o.left.contains u = true → o.kind = .direct c v →
      s.runit c u = some r → r.st = .queued → s.serves c = false → ∃ t, exec (.codewordDecodeDone op u true true true w) s = .next t ∧
        (∃ r', t.runit c u = some r' ∧ r'.st = .ready ∧ r'.alts = r.alts) ∧ (2, relTag c u) ∈ t.dma.fences) ∧
    (∀ c u x r w, s.ctxs.look c = some x → x.q ≠ 1023 → s.runit c u = some r → r.st = .queued → r.recon = true → r.helpers = 0 →
      s.unitMade r = some (w, true) → ∃ t, exec (.reconstructionDone c u true true) s = .next t ∧
        (∃ r', t.runit c u = some r' ∧ r'.st = .ready ∧ r'.alts = r.alts ∧ r'.made = some w.bits) ∧
        (2, relTag c u) ∈ t.dma.fences) ∧
    (∀ die d id, s.dies.look die = some d → d.suspending = true → d.running = some id →
      ∃ t, exec (.suspendComplete die) s = .next t ∧ Same [.dies, .fch] s t ∧
        t.dies = s.dies.put die { d with suspending := false, running := none, suspended := some id, readsSince := 0 }) ∧
    (∀ die pct share d, s.dies.look die = some d → ∃ t, exec (.dutyEvaluation die pct share) s = .next t ∧ Same [.dies, .lat] s t ∧
      t.dies = s.dies.put die { d with dutyPct := pct, sharePct := share } ∧
      t.lat.condDuty = (s.lat.condDuty || decide (60 < pct)))

/-- The ends of programs and erases, their failures, the failure of a die, a first timeout (R177) and a retrain (R176). A failure
is a stamped media event (R33, R190-R192): it waits for its commit behind every entry with a lower stamp. -/
def Obligations.ProgramsErasesAndFailures : Prop :=
  ∀ s : State,
    let stamped := fun (u : State) (ev : SysEv) (t : State) => t = u.mediaEvent ev ∧
      ∀ k e l, u.gate.entries = (k, e) :: l → e.sys = none → k < u.gate.next →
        Same [.gate, .dma] u t ∧ t.gate.next = u.gate.next + 1 ∧ t.gate.entries = u.gate.entries.put u.gate.next
          { kind := .sysE, ctx := 65536, owner := 1025, nsid := 0, scopes := [chipScope], sys := some ev }
    (∀ op o d temp, s.fch.ops.look op = some o → o.isRead = false → o.isErase = false → o.kind ≠ .progZero → s.dies.look o.die = some d →
      d.running = some op →
      (o.withdrawn = false → ∃ t, exec (.pageProgramComplete op false temp) s = .next t ∧
        t.fch.ops = s.fch.ops.put op { o with failed := true } ∧ (t.die o.die).running = none ∧ t.blocks = s.blocks ∧
        (t.chn (dieChannel (dkDie o.die))).progFail = satAdd 0xffff (s.chn (dieChannel (dkDie o.die))).progFail 1) ∧
      ∃ u, exec (.pageProgramComplete op true temp) s = .next (if o.withdrawn then u else u.opContent o) ∧
        u.fch.ops = s.fch.ops.del op ∧ (u.die o.die).running = none ∧ u.zones = s.zones ∧
        (u.blk (blkKey o.die o.block)).rows = (s.blk (blkKey o.die o.block)).rows + 1) ∧
    (∀ op o d, s.fch.ops.look op = some o → o.kind = .erase → s.dies.look o.die = some d → d.running = some op →
      (s.inSet (blkKey o.die o.block) = false → s.zones.any (fun _ z => z.slcWant) = false → s.par.queue = [] → s.cas.crown = true →
        s.canStamp = false → (∀ p ∈ s.gate.entries, p.2.sys = none) →
        let k := s.blk (blkKey o.die o.block)
        ∃ t, exec (.blockEraseComplete op true) s = .next t ∧ t.fch.ops = s.fch.ops.del op ∧ t.blk (blkKey o.die o.block) =
          { k with unerased := false, rows := 0, ptOpen := 0, ptClose := 0, samples := 0, tpSum := 0, taken := 0
                   st := if k.retire ≠ 0 then 14 else if k.st = 1 then 0 else if k.st = 5 then 4 else k.st }) ∧
      (s.cas.crown = true → s.canStamp = true → ∃ t u, exec (.blockEraseComplete op false) s = .next t ∧
        stamped u (.blockFail (blkKey o.die o.block) 2 true) t ∧ u.fch.ops = s.fch.ops.del op ∧ u.blocks = s.blocks ∧
        u.gate = s.gate ∧
        (u.chn (dieChannel (dkDie o.die))).eraseFail = satAdd 0xffff (s.chn (dieChannel (dkDie o.die))).eraseFail 1) ∧
      (s.cas.crown = true → s.canStamp = false → exec (.blockEraseComplete op false) s = .next s)) ∧
    (∀ die block row o, s.cas.crown = true → s.canStamp = true → s.dieGood die = true → (∃ id, s.fch.ops.look id = some o) →
      o.failed = true → o.die = die → o.block = block → o.row = row →
      s.gate.entries.any (fun _ e => e.sys == some (.blockFail (blkKey die block) 1 false)) = false →
      ∃ t, exec (.programFailure die block row) s = .next t ∧ stamped s (.blockFail (blkKey die block) 1 false) t) ∧
    (∀ die cause, s.dieGood die = true →
      (s.cas.crown = true → s.canStamp = true → ∃ t, exec (.dieFailure die cause) s = .next t ∧ stamped s (.dieFail die cause) t) ∧
      (s.cas.crown = false → exec (.dieFailure die cause) s = .next (s.casSend 0 3 0x40 16 [0, die, cause]))) ∧
    (∀ op o d, s.fch.ops.look op = some o → s.dies.look o.die = some d → d.running = some op → o.retried = false →
      ∃ t, exec (.operationTimeout op) s = .next t ∧ Same [.out, .dies, .fch, .evt, .log] s t ∧
        t.fch.ops = s.fch.ops.put op { o with retried := true, startAt := s.now, suspTime := 0 } ∧
        (t.chn (dieChannel (dkDie o.die))).timeouts = satAdd 0xffff (s.chn (dieChannel (dkDie o.die))).timeouts 1) ∧
    (∀ ch pass eyeRd eyeWr later k rd wr, (s.chn ch).active = true →
      (s.chn ch).train (s.media (·.eyeMin)) (eyesFrom (s.chn ch).trainSet pass eyeRd eyeWr later) (s.chn ch).trainSet = some (k, rd, wr) →
      ∃ t, exec (.channelRetrain ch pass eyeRd eyeWr later) s = .next t ∧ Same [.out, .fch, .evt, .log] s t ∧ (k = (s.chn ch).trainSet → Same [.fch] s t) ∧
        t.chn ch = { s.chn ch with retrains := satAdd 1023 (s.chn ch).retrains 1, trainSet := k, eyeRd := rd, eyeWr := wr })

/-- A rebuilt row leaves the queue (R217) and a migrated zone names its old rows no more (R222), each at its stamped event; the seed
commit is a configuration commit that is refused or swaps the seeds (R34, R168, R169); with no entry waiting it commits at once.
The staging tick draws a stamp, and the check tick too, closing the epoch (R33, R34) and ageing the append tokens (R130). -/
def Obligations.RebuildMigrationAndTicks : Prop :=
  ∀ s : State,
    (∀ zk row slc q, s.par.queue.filter (fun q => q.zone == zk && q.row == row) = [q] → q.slc = slc → q.done = true →
      s.cas.crown = true → s.canStamp = true → s.gate.entries = [] → s.par.queue = [q] →
      ∃ t, exec (.rebuildRowFinished zk row) s = .next t ∧ t.gate.next = s.gate.next + 1 ∧ t.par.rowsDone = s.par.rowsDone + 1 ∧
        t.par.queue = []) ∧
    (∀ zk z p, s.zones.look zk = some z → z.migOld = some p → z.merging = 0 → s.cas.crown = true → s.canStamp = true →
      s.zoneChip zk = 0 → s.gate.entries = [] →
      ∃ t, exec (.migrationCopyDone zk) s = .next t ∧ t.gate.next = s.gate.next + 1 ∧ (t.zone zk).migOld = none) ∧
    (s.zne.pending = false → s.tickReady = true → s.gate.entries = [] →
      ∃ t, exec .zneCfgCommit s = .next t ∧ t.gate.next = (s.gate.next / 65536 + 1) * 65536 ∧ t.zne.pending = false ∧
        t.zne.result = (if s.decl = false then 3 else if s.zne.migrating then 1 else if s.zne.seedShadow = s.zne.seedCur then 2 else 0) ∧
        (t.zne.result = 0 → t.zne.seedCur = s.zne.seedShadow) ∧ (t.zne.result ≠ 0 → t.zne.seedCur = s.zne.seedCur)) ∧
    (s.tickReady = true →
      (∃ t, exec .stagingTick s = .next t ∧ t = s.stagingAt 10000000 ∧ s.gate.next < t.gate.next ∧ t.gate.lastStaging = s.now) ∧
      (∃ t, exec .checkTick s = .next t ∧ t = (s.checkAt 1).selfCheck ∧ (s.nv.pldmSelf = false → t.gate.lastCheck = s.now)) ∧
      (∀ ev, (s.enterCfg ev).gate.next = (s.gate.next / 65536 + 1) * 65536) ∧
      (s.tokAge 1).toks = s.toks.mapV fun _ l => (l.map fun k => { k with age := k.age + 1 }).filter fun k => decide (k.age < 60)) ∧
    (s.tickReady = false → exec .stagingTick s = .next s ∧ exec .checkTick s = .next s)

/-! ### Memory integrity -/

/-- An uncorrectable SRAM word (R284) is counted, the first since the last clear is latched (R294, R299), and its region's response is
made (R289): a repaired word changes nothing else, a duplicated word uses its other copy (R285), a cut-through unit is read
again, a Swath context halts the channel with CAUSE 4, and a repair that fails stops the chip (R293, CSTS.CFS). Bits that the code
corrects are no such event. A microcode trap reloads its block, or stops the chip when it fails or repeats (R291). -/
def Obligations.SramErrorsAreAnswered : Prop :=
  ∀ (s : State) (w port c raw other : Nat) (repair : Bool), w * 8 < 0x5000000 → port ≤ 24 →
    let region := sramRegion (w * 8)
    (secdedDecode raw = .uncorrectable →
      ∃ t, exec (.sramUncorrectable port w c raw other repair) s = .next t ∧ t.ecc.ueCnt = satAdd 0xffff s.ecc.ueCnt 1 ∧
      t.ecc.ueAddr = (if s.ecc.ueAddr.getLsbD 63 then s.ecc.ueAddr
        else BitVec.ofNat 64 (2 ^ 63 + region % 16 * 2 ^ 59 + port % 32 * 2 ^ 54 + w % 2 ^ 24)) ∧
      (region = 1 → Same [.out, .ctxs, .dma, .ecc, .evt, .log] s t) ∧
      ((region = 2 ∨ region = 3 ∨ region = 4) → repair = true → Same (Piece.withEvent [.ecc]) s t) ∧
      ((region = 5 ∨ region = 7 ∨ region = 8) → (copyUse other).isSome = true →
        Same (Piece.withEvent [.ecc]) s t ∧ t.ecc.dupFail = satAdd 0xffff s.ecc.dupFail 1) ∧
      (∀ x, region = 6 → s.ctxs.look c = some x → (t.dma.chans.get (qOwner x.q) {}).halted = true ∧
        ((s.dma.chans.get (qOwner x.q) {}).halted = false → (t.dma.chans.get (qOwner x.q) {}).cause = 4)) ∧
      ((region = 2 ∨ region = 3 ∨ region = 4) ∧ repair = false ∨ (region = 5 ∨ region = 7 ∨ region = 8) ∧ copyUse other = none →
        s.brm.st < 3 → t.nvme.cfs = true)) ∧
    (secdedDecode raw ≠ .uncorrectable → exec (.sramUncorrectable port w c raw other repair) s = .next s) ∧
    (∀ b verify again, 0x3800 ≤ b → b < 0x4000 →
      ∃ t, exec (.microcodeTrap b verify again) s = .next t ∧ t.ecc.trapCnt = satAdd 0xffff s.ecc.trapCnt 1 ∧ t.ecc.trapBlock = b ∧
        t.ecc.ueCnt = satAdd 0xffff s.ecc.ueCnt 1 ∧
        (verify = true → again = false → Same (Piece.withEvent [.ecc]) s t) ∧
        ((verify = false ∨ again = true ∧ s.ecc.trapBlock = b ∧ s.ecc.trapCnt ≠ 0) → s.brm.st < 3 → t.nvme.cfs = true))

/-- A DRAM burst that the code cannot correct and an address fault (R286, R287), and a command error, are counted by kind, the first
since the last clear is latched (R294, R298), and the region's response is made (R290, R292): a rebuilt burst changes nothing
else (the summary of a running scrub pass apart), a free-store burst loses its 16 buffers, and a write-buffer hit that cannot be
rebuilt halts its channel with CAUSE 4. A corrected error is counted and, at the threshold, raises its event once (R288); it is
not logged. -/
def Obligations.DramAndCorrectedErrors : Prop :=
  ∀ (s : State) (a port data : Nat) (b : Burst),
    let region := dramRegion a
    let latched := fun (kind : Nat) => if s.drc.ueAddr.getLsbD 63 then s.drc.ueAddr
      else BitVec.ofNat 64 (2 ^ 63 + kind % 8 * 2 ^ 60 + port % 32 * 2 ^ 55 + region % 8 * 2 ^ 52 + a / 64 % 2 ^ 36)
    (∀ k c u rebuilt repair, a < s.dramUsable → portMay port region = true → ueKind (burstDecode a b) = some k →
      ∃ t, exec (.dramUncorrectable a port b c u rebuilt repair) s = .next t ∧
        t.drc = { s.drc with
          ueData := if k = .data then satAdd 0xffff s.drc.ueData 1 else s.drc.ueData
          ueAddrC := if k = .data then s.drc.ueAddrC else satAdd 0xffff s.drc.ueAddrC 1
          ueAddr := latched (if k = .data then 1 else 2) } ∧
        (s.scrubs true port a = false → repair = true → (region = 0 ∨ region = 1 ∨ region = 3 ∨ region = 4 ∧ rebuilt = true) →
          Same (Piece.withEvent [.drc]) s t) ∧
        (repair = true → (region = 0 ∨ region = 1 ∨ region = 3 ∨ region = 4 ∧ rebuilt = true) → Same (Piece.withEvent [.drc, .ecc]) s t) ∧
        (repair = true → region = 2 → s.bpm.sysStgLost + 16 ≤ (1024 - 256) * 64 → Same (Piece.withEvent [.bpm, .drc, .ecc]) s t ∧
          t.bpm = { s.bpm with sysStgLost := s.bpm.sysStgLost + 16, dramTotal := s.bpm.dramTotal - 16 }) ∧
        (repair = true → region = 2 → (1024 - 256) * 64 < s.bpm.sysStgLost + 16 → s.brm.st < 3 → t.nvme.cfs = true) ∧
        (∀ x, repair = true → region = 4 → rebuilt = false → port ≤ 1 → s.ctxs.look c = some x →
          (t.dma.chans.get (qOwner x.q) {}).halted = true) ∧
        (repair = true → region = 4 → rebuilt = false → 1 < port → Same (Piece.withEvent [.zones, .drc, .ecc]) s t) ∧
        (repair = false → s.brm.st < 3 → t.nvme.cfs = true)) ∧
    (s.dramUsable ≤ a ∨ portMay port region = false →
      ∃ t, exec (.commandError a port .command) s = .next t ∧
        t.drc = { s.drc with ueCmd := satAdd 0xffff s.drc.ueCmd 1, ueAddr := latched 4 } ∧
        ((s.dramUsable ≤ a ∨ region = 0 ∨ region = 1 ∨ region = 3 ∨ region = 4) → Same (Piece.withEvent [.drc, .ecc]) s t)) ∧
    (∀ c u rebuilt repair, a < s.dramUsable → ∃ t, exec (.commandError a port (.link c u rebuilt repair)) s = .next t ∧
        t.drc = { s.drc with ueLink := satAdd 0xffff s.drc.ueLink 1, ueAddr := latched 3 } ∧
        (repair = true → (region = 0 ∨ region = 1 ∨ region = 3 ∨ region = 4 ∧ rebuilt = true) → Same (Piece.withEvent [.drc, .ecc]) s t)) ∧
    (∀ v queued, a < s.dramUsable → portMay port region = true → burstDecode a b = .corrected v →
     let n := satAdd 0xffffffff s.drc.ceCnt 1
     let due := s.drc.ceThr != 0 && decide (s.drc.ceThr ≤ n) && !s.drc.ceFired
     ∃ t, exec (.correctedError (.dram a b) port queued) s = .next t ∧ Same (Piece.withEvent [.drc, .ecc]) s t ∧ t.drc.ceCnt = n ∧
       t.drc.ceFired = (s.drc.ceFired || due) ∧ (due = false → Same [.out, .drc, .ecc] s t) ∧
       (due = false → t.out = if queued then s.out else .writeBack true a v :: s.out)) ∧
    (∀ v queued, a < 0x5000000 → port ≤ 24 → secdedDecode data = .corrected v →
     let n := satAdd 0xffffffff s.ecc.ceCnt 1
     let due := s.ecc.ceThr != 0 && decide (s.ecc.ceThr ≤ n) && !s.ecc.ceFired
     ∃ t, exec (.correctedError (.sram a data) port queued) s = .next t ∧ Same (Piece.withEvent [.ecc]) s t ∧ t.ecc.ceCnt = n ∧
       t.ecc.ceFired = (s.ecc.ceFired || due) ∧ (due = false → Same [.out, .ecc] s t))

/-- A block fetched into the cache (R413, R415), the refresh multiplier (R281), postponed by a panic at most 8 times (R279, R280), and the draws for neighbours (R282), the DQS adjustment
(R276), the panic of a channel group (R280), and the entropy source whose health test fails: a command that needs a key
ends with Internal Error from then on (R302). -/
def Obligations.MicrocodeRefreshAndEntropy : Prop :=
  ∀ s : State,
    (∀ b first second susp, s.upd.cache.contains b = false →
      (first = true ∨ second = true → ∃ t, exec (.microcodeBlockFetch b first second susp) s = .next t ∧ Same [.upd] s t ∧
        t.upd.fetches = satAdd 0xffffffff s.upd.fetches 1 ∧ t.upd.cache = (s.upd.cache.filter (· ≠ b) ++ [b]).drop ((s.upd.cache.filter (· ≠ b) ++ [b]).length - 384) ∧
        t.upd.retries = (if first then s.upd.retries else satAdd 0xffff s.upd.retries 1) ∧
        t.upd.suspends = (if susp then satAdd 0xffff s.upd.suspends 1 else s.upd.suspends)) ∧
      (first = false → second = false → s.brm.st < 3 → ∃ t, exec (.microcodeBlockFetch b first second susp) s = .next t ∧
        t.nvme.cfs = true ∧ t.upd.cache = s.upd.cache)) ∧
    (∀ mr4 draws drop, s.drc.srState = 0 → ∃ t, exec (.refreshInterval mr4 draws drop) s = .next t ∧ Same [.drc] s t ∧
      t.drc.mult = max (if (s.region 3).held ∨ (s.region 3).band = 4 then 2 else if (s.region 3).band = 3 then 1 else 0) (min 2 mr4) ∧
      t.drc.postponed = (if s.refreshWaits then s.drc.postponed + 1 else 0) ∧ t.drc.postponed ≤ 8 ∧
      (s.drc.nbrProb = 0 → t.drc.nbrIssued = satAdd 0xffffffff s.drc.nbrIssued 0) ∧
      (s.drc.nbrProb ≠ 0 → t.drc.nbrIssued = satAdd 0xffffffff s.drc.nbrIssued (draws - min drop draws) ∧
        t.drc.nbrDropped = satAdd 0xffffffff s.drc.nbrDropped (min drop draws))) ∧
    (∀ ch drift wait i, s.img = some i → ch < 16 → s.drc.srState = 0 →
      (i.dqsLimit < drift → s.drc.panic = 0 ∨ wait = true →
        exec (.dqsOscillatorRead ch drift wait) s = .next { s with drc := { s.drc with adjusts := s.drc.adjusts + 1 } }) ∧
      (drift ≤ i.dqsLimit ∨ s.drc.panic ≠ 0 ∧ wait = false → exec (.dqsOscillatorRead ch drift wait) s = .next s)) ∧
    (∀ ch level, ch < 32 → level < max 1 s.drc.rtOn → ∃ t, exec (.programStreamPanic ch level) s = .next t ∧ Same [.drc] s t ∧
      t.drc.panic.getLsbD (ch / 8) = true ∧ (∀ g, g < 4 → g ≠ ch / 8 → t.drc.panic.getLsbD g = s.drc.panic.getLsbD g) ∧
      t.drc.panics = (if s.drc.panic.getLsbD (ch / 8) then s.drc.panics else satAdd 0xffffffff s.drc.panics 1) ∧
      (s.drc.fifo.get ch 16 ≠ 0 → t.drc.pauses = if level = 0 then satAdd 0xffffffff s.drc.pauses 1 else s.drc.pauses)) ∧
    (∀ g, g < 4 → ∃ t, exec (.panicEnd g) s = .next t ∧ Same [.drc] s t ∧ t.drc.panic.getLsbD g = false ∧
      (∀ h, h < 4 → h ≠ g → t.drc.panic.getLsbD h = s.drc.panic.getLsbD h)) ∧
    exec .entropyHealthFailure s = .next { s with key := { s.key with entropyBad := true } }

/-! ### Ubpel links -/

/-- Frames are taken in order (R322): a member takes the next LEASE of the VC and acts on it (R330), acknowledges a duplicate
again, counts a gap, and counts a failed tag, the sixteenth in a row taking the link down (R323). An ACK releases what it covers and
returns credits, at most 64 for each VC (R321). After 20 µs without one a message and every later one of its VC are sent
again under new FSEQs, and the 64th send ends the link. -/
def Obligations.FramesAreTakenInOrder : Prop :=
  ∀ s : State,
    (∀ f op, s.cas.crown = false → f.port = 0 → 5 ≤ (s.port 0).phase → s.inStop = false → s.brm.st < 3 →
      let q := s.port 0
      let e := q.rxSeq.get f.vc 1
      ∃ t, exec (.lease f op) s = .next t ∧
        (f.tagOk = true → Same [.out, .cas] s t ∧ (t.port 0).tagRun = 0 ∧ (t.port 0).phase = q.phase ∧
          (f.mseq = e → (t.port 0).rxSeq = q.rxSeq.put f.vc (e + 1) ∧ t.cas.myLeases = match op with
            | .grant z => s.cas.myLeases.put z true
            | .renew => s.cas.myLeases.mapV fun _ _ => true
            | .release z => s.cas.myLeases.del z) ∧
          (f.mseq ≠ e → t.cas.myLeases = s.cas.myLeases ∧ (t.port 0).rxSeq = q.rxSeq) ∧
          (f.mseq < e → (t.port 0).dups = satAdd 0xffff q.dups 1 ∧
            t.out = .frame 0 0 0 0 (q.fseqTx + 1) (((List.range 4).map fun v => q.rxSeq.get v 1 - 1) ++
              (List.range 4).map fun v => if v = f.vc then ceilDiv f.len 256 else 0) :: s.out) ∧
          (e < f.mseq → (t.port 0).gaps = satAdd 0xffff q.gaps 1 ∧ t.out = s.out)) ∧
        (f.tagOk = false → t.cas.myLeases = s.cas.myLeases ∧ (t.port 0).tagFail = satAdd 0xffffffff q.tagFail 1 ∧
          (t.port 0).phase = (if 16 ≤ q.tagRun + 1 then 0 else q.phase))) ∧
    (∀ f acked credits, 4 ≤ (s.port f.port).phase → s.inStop = false → s.brm.st < 3 → f.tagOk = true →
      (s.port f.port).unacked.all (fun m => m.sends != 0) = true →
      ∃ t, exec (.ack f acked credits) s = .next t ∧ Same [.cas] s t ∧
        (t.port f.port).unacked = (s.port f.port).unacked.filter (fun m => decide (acked.getD m.vc 0 < m.mseq)) ∧
        ∀ v, v < 4 → (t.port f.port).credit v = min 64 ((s.port f.port).credit v + credits.getD v 0)) ∧
    (∀ p vc mseq m, (s.port p).unacked.find? (fun m => m.vc == vc && m.mseq == mseq && m.sends != 0) = some m → s.inStop = false → s.brm.st < 3 →
      (m.sends < 64 → ∃ t, exec (.ackTimeout p vc mseq) s = .next t ∧ Same [.out, .cas] s t ∧
        (let l := (s.port p).unacked.filter fun u => u.vc == vc && decide (mseq ≤ u.mseq) && u.sends != 0
         (t.port p).fseqTx = (s.port p).fseqTx + l.length ∧ t.out.length = s.out.length + l.length) ∧
        (t.port p).unacked.map (fun u => (u.vc, u.mseq, u.body)) = (s.port p).unacked.map fun u => (u.vc, u.mseq, u.body)) ∧
      (64 ≤ m.sends → ∃ t, exec (.ackTimeout p vc mseq) s = .next t ∧ (t.port p).phase = 0 ∧ (t.port p).downCause = 3 ∧ (t.port p).unacked = [])) ∧
    (∀ p cause, (s.port p).phase ≠ 0 → ∃ t, exec (.linkDown p cause) s = .next t ∧ (t.port p).phase = 0 ∧
      (t.port p).downCause = cause ∧ (t.port p).unacked = [])

/-- The join, step by step (R324, R327): training, HELLO with the other role, AUTH with the paired key, IDENT with the crown's own
values; a step that fails takes the link down. A port of the crown trains again (R323), a direction takes its next key (R314). -/
def Obligations.LinksTrainAndJoin : Prop :=
  ∀ (s : State) (p : Nat),
    let q := s.port p
    let failed := fun (t : State) => (t.port p).phase = 0 ∧ (t.port p).downCause = 4 ∧ (t.port p).unacked = []
    (s.powered = true → s.upd.stage ≠ 15 → s.inStop = false → q.phase = 1 →
      (s.cas.crown = true → s.cas.named.getLsbD (p + 1) = true → (s.member (p + 1)).st ≠ .active → (s.member (p + 1)).st ≠ .excluded →
        (∃ t, exec (.join p true) s = .next t ∧ (t.port p).phase = 2 ∧ (t.port p).unacked = [] ∧
          ((s.member (p + 1)).st = .absent → s.cas.members.has (p + 1) = true → (t.member (p + 1)).st = .joining)) ∧
        (∃ t, exec (.join p false) s = .next t ∧ failed t)) ∧
      (s.cas.crown = false → p = 0 → ∃ t, exec (.join p true) s = .next t ∧ Same [.out, .sward, .cas] s t ∧ (t.port p).phase = 2 ∧
        t.out = .frame 0 1 0 0 1 [0, 0] :: s.out)) ∧
    (∀ m, q.phase = 2 →
      (m.crown ≠ s.cas.crown → ∃ t, exec (.hello p m) s = .next t ∧ Same [.out, .cas] s t ∧ (t.port p).phase = 3 ∧
        (t.port p).peerKey = m.keyHash ∧ t.cas.chip = (if s.cas.crown then s.cas.chip else m.chip % 4)) ∧
      (m.crown = s.cas.crown → ∃ t, exec (.hello p m) s = .next t ∧ failed t)) ∧
    (∀ sig, q.phase = 3 →
      (sig = true → s.paired p = true → s.cas.crown = true →
        ∃ t, exec (.auth p sig) s = .next t ∧ Same [.cas] s t ∧ (t.port p).phase = 4 ∧ (t.port p).fseqTx = 0) ∧
      (sig = true → s.paired p = true → s.cas.crown = false → p = 0 →
        ∃ t, exec (.auth p sig) s = .next t ∧ Same [.out, .sward, .cas] s t ∧ (t.port p).phase = 5 ∧ t.cas.snap = true) ∧
      (sig = false ∨ s.paired p = false → ∃ t, exec (.auth p sig) s = .next t ∧ failed t)) ∧
    (∀ f m x, s.cas.crown = true → f.port = p → q.phase = 4 → FrameTurn s f 4 → s.cas.members.look (p + 1) = some x → x.st ≠ .active →
      (m.cfgDigest ≠ s.upd.digest → ∃ t, exec (.ident f m) s = .next t ∧ (t.member (p + 1)).st = .refused) ∧
      (∀ i, m.cfgDigest = s.upd.digest → s.manifest = some i → i.revision ≠ m.revision ∨ s.efl.svns ≠ m.secver → s.nv.actState ≠ 2 →
        ∃ t, exec (.ident f m) s = .next t ∧ (t.member (p + 1)).st = .held) ∧
      (∀ i, m.cfgDigest = s.upd.digest → s.manifest = some i → i.revision = m.revision → s.efl.svns = m.secver →
        ∃ t, exec (.ident f m) s = .next t ∧ (t.port p).phase = 5 ∧
          (x.st = .fenced → (t.member (p + 1)).st = .fenced ∧ (t.member (p + 1)).resync = if s.cas.auto then 1 else 0) ∧
          (x.st ≠ .fenced → (t.member (p + 1)).st = .joining ∧ (t.member (p + 1)).resync = 1))) ∧
    (s.cas.crown = true → q.phase = 0 → s.cas.named.getLsbD (p + 1) = true → (s.member (p + 1)).st ≠ .active → (s.member (p + 1)).st ≠ .excluded →
      ∃ t, exec (.portTrainingRetry p) s = .next t ∧ Same [.cas] s t ∧ t.port p = { q with phase := 1 }) ∧
    (∀ tx, 4 ≤ q.phase → ∃ t, exec (.ubpelRekey p tx) s = .next t ∧ Same [.cas] s t ∧
      t.port p = { q with rekeys := q.rekeys + 1, fseqTx := if tx then 0 else q.fseqTx }) ∧
    (5 ≤ q.phase → ∃ t, exec (.equalisationRefresh p) s = .next t ∧ Same [.cas] s t ∧ t.port p = { q with eqRefreshes := q.eqRefreshes + 1 })

/-! ### A member of the cascade -/

/-- What a member does with the crown's frames: stamped entries in stamp order, each one once (R329), with the zones and the token that
they name, held while a snapshot is under way, and the snapshot taken with its last part (R335); data under an unexpired lease, staged,
and STAGED sent with the last unit (R331); a read put on its way (R239, R329); the crown's time, slewed or stepped (R332); Stop, and the
orders of an update and of a return to FROM (R446, R448). A lease expires 100 ms after its last grant or renew (R331). -/
def Obligations.MembersFollowTheCrown : Prop :=
  ∀ (s : State) (f : Frame), s.cas.crown = false → f.port = 0 → FrameTurn s f 5 →
    (∀ zone, ∃ t, exec (.leaseExpiry zone) s = .next t ∧ Same [.cas] s t ∧ t.cas.myLeases.get zone false = false ∧
      ∀ z, z ≠ zone → t.cas.myLeases.look z = s.cas.myLeases.look z) ∧
    (∀ entries, s.cas.snap = true → ∃ t, exec (.stampFrame f entries) s = .next t ∧ Same [.out, .cas] s t ∧
      t.cas.held = s.cas.held ++ entries ∧ t.cas.applied = s.cas.applied) ∧
    (∀ e, s.cas.snap = false →
      (e.stamp ≤ s.cas.applied → ∃ t, exec (.stampFrame f [e]) s = .next t ∧ Same [.out, .cas] s t ∧ t.cas.applied = s.cas.applied) ∧
      (s.cas.applied < e.stamp → e.act ≠ .sag → ∃ t, exec (.stampFrame f [e]) s = .next t ∧ t.cas.applied = e.stamp ∧
        t.gate.next = e.stamp + 1 ∧
        (∀ k, e.tok = some k → ∃ l, t.toks.get k.owner [] = l ++ [{ token := k.token, nsid := k.nsid, zone := k.zone, nlb := k.nlb
                                                                    committed := true, lba := k.lba, stamp := k.stamp, age := k.age }]) ∧
        (∀ i, e.act = .other → e.zones = [i] → i.zs ≠ 0 → i.padded = false → (t.zone i.key).wp = i.wp ∧ (t.zone i.key).cap = i.cap ∧
          (t.zone i.key).zs = Zs.ofCode i.zs ∧ (t.zone i.key).keyRec = i.keys))) ∧
    (∀ body shared stamp,
      let buf := body.zones.foldl (fun (t : Tbl ZoneImg) z => t.put z.key z) s.cas.snapBuf
      (∃ t, exec (.snapshot f body shared stamp false) s = .next t ∧ Same [.out, .cas] s t ∧ t.cas.snap = true ∧
        t.cas.snapBuf = buf ∧ t.cas.snapToks = s.cas.snapToks ++ body.toks) ∧
      ((∀ e ∈ s.cas.recent ++ s.cas.held, e.stamp ≤ stamp) →
        ∃ t, exec (.snapshot f body shared stamp true) s = .next t ∧ t.cas.snap = false ∧ t.cas.held = [] ∧ t.cas.applied = stamp ∧
        t.gate.next = stamp + 1 ∧ t.gate.shared = shared ∧ ∀ zk, buf.has zk = false → t.zones.has zk = false)) ∧
    (∀ stamp zone unit content md,
      (∀ w, s.cas.myLeases.get zone false = true → s.staging.look stamp = some w → w.zone = zone → w.off ≤ unit → unit < w.off + w.n →
        w.complete = false → w.data.has (unit - w.off) = false →
        let u := { w with data := w.data.put (unit - w.off) (Sealed.taken content md) }
        ∃ t, exec (.dataFrame f stamp zone unit content md) s = .next t ∧
          (w.data.length + 1 < w.n → t.staging.look stamp = some u ∧ Same [.out, .staging, .bpm, .dma, .sward, .par, .cas] s t) ∧
          (w.n ≤ w.data.length + 1 → ∃ l m, (t.port 0).unacked = l ++ [m] ∧ m.type = 0x21 ∧ m.body = [stamp])) ∧
      (s.cas.myLeases.get zone false = false → ∃ t, exec (.dataFrame f stamp zone unit content md) s = .next t ∧ Same [.out, .cas] s t)) ∧
    (∀ req zone units, zone < 2 ^ 64 → ∃ t x, exec (.readReq f req zone units) s = .next t ∧ Same [.out, .ctxs, .cas] s t ∧
      t.ctxs = s.ctxs.put (s.ctxs.freeFrom 0) x ∧ x.q = 1023 ∧ x.phase = .stamped ∧ x.zone = zone ∧ x.units = units.1 ∧ x.seqNo = req ∧
      x.reading = true ∧ x.runits.length = 1) ∧
    (∀ crownNs rtt,
      let target := crownNs + rtt / 2
      ∃ t, exec (.timeFrame f crownNs rtt) s = .next t ∧ Same [.now, .out, .cas] s t ∧
        (s.now + 10000000 < target ∨ target + 10000000 < s.now → t.now = target) ∧
        (s.now ≤ target → target ≤ s.now + 10000000 → t.now = min target (s.now + 1000)) ∧
        (target ≤ s.now → s.now ≤ target + 10000000 → t.now = max target (s.now - 1000))) ∧
    (s.pwr.st = 0 → ∃ t, exec (.stopOrder f) s = .next t ∧ t.pwr.st = 2 ∧ t.drc.srState = 2) ∧
    (∀ complete pkg,
      (s.pkgCheck pkg s.otherSlot true complete = none → ∃ t, exec (.update f (.package complete pkg)) s = .next t ∧ Same [.out, .cas, .nv] s t ∧
        t.nv = { s.nv with copying := true, commitAct := 4, commitCtx := none, commitTarget := s.otherSlot
                           commitRev := pkg.manifest.revision, commitFr := pkg.manifest.fr }) ∧
      (∀ n st, s.pkgCheck pkg s.otherSlot true complete = some (n, st) → ∃ t, exec (.update f (.package complete pkg)) s = .next t ∧
        ∃ l m, (t.port 0).unacked = l ++ [m] ∧ m.type = 0x43 ∧ m.body = [2, n])) ∧
    (s.cas.voteStep = 1 → ∃ t, exec (.update f .arm) s = .next t ∧ Same [.out, .sward, .cas, .nv] s t ∧ t.cas.voteStep = 0 ∧
      t.nv = (s.armSelf s.otherSlot (s.slotRev s.otherSlot)).nv ∧ ∃ l m, (t.port 0).unacked = l ++ [m] ∧ m.type = 0x43 ∧ m.body = [3]) ∧
    (∃ t, exec (.update f .abandon) s = .next t ∧ Same [.out, .cas, .nv] s t ∧ t.cas.voteStep = 0 ∧
      t.nv.commitAct = if s.nv.commitAct = 4 then 0 else s.nv.commitAct) ∧
    (s.nv.actState = 2 → ∃ t, exec (.update f .confirm) s = .next t ∧ Same [.out, .cas, .nv, .efl, .evt, .log] s t ∧ t.nv.actState = 3) ∧
    (s.nv.actState = 2 → ∃ u, Same [.out, .cas, .nv] s u ∧ u.nv = { s.nv with next := s.nv.actFrom, bootSeq := s.nv.bootSeq + 1, actState := 4 } ∧
      exec (.update f .revert) s = .next (u.chipReset .por)) ∧
    (s.nv.actState ≠ 2 → ∃ t, exec (.update f .revert) s = .next t ∧ Same [.out, .cas] s t)

/-! ### The crown of the cascade -/

/-- What the crown does with a member's frames: STAGED completes the write of an ACTIVE member and is discarded after a fence, from its
stamp on (R331); READ_DATA releases its unit, or ends the read (R187); a digest is compared with the latch of its check stamp, a
mismatch fences (R333) and a match in a resynchronisation readmits (R335); SAG fences with reason 5 (R336); a media event is stamped
and acts on the crown's tables at its commit (R33, R329); a vote is counted, and a failed or late one ends the commit (R446). A fence
and a readmission are stamped events; with no entry waiting they commit at once. -/
def Obligations.CrownHearsItsMembers : Prop :=
  ∀ (s : State) (f : Frame) (m : Member), s.cas.crown = true → FrameTurn s f 5 → s.cas.members.look (f.port + 1) = some m →
    let c := f.port + 1
    (∀ stamp st x, s.staging.look stamp = some st → s.zoneChip st.zone = c → st.complete = false → st.n ≤ st.data.length →
      s.ctxs.look st.ctx = some x → x.phase = .stamped → ∃ t, exec (.staged f stamp) s = .next t ∧
        (m.st = .active → s.fenceStamped c = false → ∃ y, t.ctxs.look st.ctx = some y ∧ y.phase = .done ∧ y.status = some stOk) ∧
        (m.st ≠ .active ∨ s.fenceStamped c = true → Same [.out, .cas] s t)) ∧
    (∀ ctx unit content md x r, s.ctxs.look ctx = some x → x.phase = .stamped → x.e.opc = 2 → x.q ≠ 1023 → x.runits.look unit = some r →
      r.st = .queued → r.op = none → s.zoneChip x.zone = c →
      (∃ t, exec (.readData f ctx unit (some content) md) s = .next t ∧
        (∃ r', t.runit ctx unit = some r' ∧ r'.st = .ready ∧ r'.alts = r.alts ∧ r'.made = some (unitWord content md)) ∧
        (2, relTag ctx unit) ∈ t.dma.fences) ∧
      (∃ t y, exec (.readData f ctx unit none md) s = .next t ∧ t.ctxs.look ctx = some y ∧ y.phase = .done ∧
        y.status = some stUnrecovered)) ∧
    (∀ check shared island, s.gate.tickCheck = check → s.canStamp = true → s.gate.entries = [] → (m.resync = 2 → m.snapAt < check) →
      ∃ t, exec (.digest f check shared island) s = .next t ∧ ∃ n,
      t.cas.members.look c = some n ∧ n.shared = shared ∧ n.check = check ∧ n.matched = decide (shared = s.gate.tickShared) ∧
      (shared = s.gate.tickShared → n.misses = 0 ∧ (m.resync = 2 → n.st = .active ∧ n.resync = 0) ∧ (m.resync ≠ 2 → n.st = m.st)) ∧
      (shared ≠ s.gate.tickShared → m.st = .active → n.st = .fenced ∧ n.reason = 1 ∧ n.fenceStamp = s.gate.next) ∧
      (shared ≠ s.gate.tickShared → m.st ≠ .active → m.resync = 2 → n.resync = 1)) ∧
    (s.canStamp = true → m.st = .active → s.gate.entries = [] → ∃ t, exec (.sag f) s = .next t ∧ ∃ n, t.cas.members.look c = some n ∧
      n.st = .fenced ∧ n.reason = 5 ∧ n.fenceStamp = s.gate.next) ∧
    (s.canStamp = true →
      let stamped := fun (k : MediaKind) (ev : SysEv) => s.eventWaits (· == ev) = false →
        ∃ u, Same [.out, .cas] s u ∧ exec (.mediaEvent f k) s = .next (u.enterSys ev).sysGo
      (∀ die block, die < 1024 → block < 8192 →
        stamped (.programFail die block) (.blockFail (blkKey (dieKey c die) block) 1 false) ∧
        stamped (.eraseFail die block) (.blockFail (blkKey (dieKey c die) block) 2 true)) ∧
      (∀ die cause, die < 1024 → s.dieGood (dieKey c die) = true → stamped (.dieFail die cause) (.dieFail (dieKey c die) cause)) ∧
      (∀ zone, s.zoneChip zone = c → stamped (.zoneLost zone) (.zoneLost zone) ∧
        ((s.zone zone).migOld.isSome = true → stamped (.migrated zone) (.migrated zone)))) ∧
    (s.cas.voteStep = 1 →
      (s.cas.members.any (fun k m => k != c && m.vote != 1) = true → s.nv.pldmSelf = false →
        ∃ t, exec (.vote f .ready) s = .next t ∧ Same [.out, .cas] s t ∧ ∃ n, t.cas.members.look c = some n ∧ n.vote = 1) ∧
      (∀ order, ∃ t, exec (.vote f (.fail order)) s = .next t ∧ t.cas.voteStep = 0 ∧ t.nv.commitAct = 0 ∧ t.nv.pldmSelf = false ∧
        t.nv.failCount = s.nv.failCount + 1)) ∧
    (s.cas.voteStep = 1 → ∃ t, exec .voteTimeout s = .next t ∧ t.cas.voteStep = 0 ∧ t.nv.commitAct = 0 ∧ t.nv.pldmSelf = false)

/-- What the crown does to a member on its own: the actions of CAS_CTL from the states that R328 gives, RESULT 1 and no change from
any other, and an action that waits while no stamp can be issued; the fences after a lost link (R331) and after JOINWAIT (R325); and
the renews and times that it sends (R330, R332), the round trip in the time being a free value. Each of these acts is a stamped
event; with no entry waiting it commits at once. -/
def Obligations.CrownActsOnMembers : Prop :=
  ∀ (s : State) (c : Nat) (m : Member), s.cas.crown = true → s.cas.members.look c = some m → 1 ≤ c →
    let joined := decide (5 ≤ (s.port (c - 1)).phase)
    let refused := fun (i : Instr) => exec i s = .next { s with cas := { s.cas with result := 1 } }
    let waits := fun (i : Instr) (a : Nat) => exec i s = .next { s with cas := { s.cas with todo := some (c, a) } }
    let sent := fun (i : Instr) (type : Nat) (body : List Nat) => ∃ t l u, exec i s = .next t ∧ Same [.free, .out, .sward, .cas] s t ∧
      (t.port (c - 1)).unacked = l ++ [u] ∧ u.type = type ∧ u.body = body
    (s.canStamp = true → s.cas.todo = none → s.gate.entries = [] →
      (m.st ≠ .excluded → ∃ t n, exec (.excludeChip c) s = .next t ∧ t.cas.result = 0 ∧ t.cas.members.look c = some n ∧ n.st = .excluded ∧
        (t.port (c - 1)).phase = 0) ∧
      (m.st = .excluded → ∃ t n, exec (.includeChip c) s = .next t ∧ t.cas.result = 0 ∧ t.cas.members.look c = some n ∧ n.st = .absent ∧
        (t.port (c - 1)).phase = 1) ∧
      (m.st = .active → ∃ t n, exec (.fenceChip c) s = .next t ∧ t.cas.result = 0 ∧ t.cas.members.look c = some n ∧ n.st = .fenced ∧
        n.reason = 4 ∧ n.fenceStamp = s.gate.next) ∧
      (joined = true → m.st = .fenced ∨ m.st = .held ∧ s.versionsMatch c = true → ∃ t n, exec (.resyncChip c) s = .next t ∧
        t.cas.result = 0 ∧ t.cas.members.look c = some n ∧ n.resync = 1 ∧ n.st = if m.st = .held then .joining else .fenced) ∧
      (m.st = .active → joined = false → ∃ t n, exec (.linkLossFence c) s = .next t ∧ t.cas.members.look c = some n ∧ n.st = .fenced ∧
        n.reason = 2 ∧ n.fenceStamp = s.gate.next) ∧
      (s.upd.stage = 8 → s.cas.joinwaitDone = false → s.cas.members = [(c, m)] → ∃ t n, exec .joinwaitExpiry s = .next t ∧
        t.cas.joinwaitDone = true ∧ t.cas.members.look c = some n ∧
        (m.st = .absent ∨ m.st = .joining → n.st = .fenced ∧ n.reason = 2) ∧ (m.st ≠ .absent → m.st ≠ .joining → n = m))) ∧
    (s.cas.todo = none →
      (m.st = .excluded → refused (.excludeChip c)) ∧ (m.st ≠ .excluded → refused (.includeChip c)) ∧ (m.st ≠ .active → refused (.fenceChip c)) ∧
      (joined = false ∨ m.st ≠ .fenced ∧ (m.st ≠ .held ∨ s.versionsMatch c = false) → refused (.resyncChip c))) ∧
    (s.cas.todo = none → s.canStamp = false →
      (m.st ≠ .excluded → waits (.excludeChip c) 1) ∧ (m.st = .excluded → waits (.includeChip c) 2) ∧ (m.st = .active → waits (.fenceChip c) 3) ∧
      (joined = true → m.st = .fenced ∨ m.st = .held ∧ s.versionsMatch c = true → waits (.resyncChip c) 4)) ∧
    (m.st = .active → joined = true → s.pwr.st = 0 → s.brm.st < 3 → sent (.leaseRenew c) 0x11 [2]) ∧
    (joined = true → s.pwr.st = 0 → s.brm.st < 3 → sent (.timeSend (c - 1)) 0x12 [s.now + s.freeVal / 2])

/-! ### The Quornany meter island -/

/-- The island counts and closes (R342, R343, R345, R347): a tally batch replaces the counters or sets TALLY_FAULT, a sample adds its
energy with the fraction carried, and the close at the next multiple of 60 s appends a chained record of the interval. It starts
with the sealed program, with a gap record where the chain broke or its supply was lost (R353), or halts with 2; it halts with 1 and 3
as R341 and R342 say, and loses with its supply what it had not stored (R353). -/
def Obligations.IslandCountsAndCloses : Prop :=
  ∀ s : State,
    let m := s.mtr
    let eventOnly := fun (t : State) => Same (Piece.withEvent [.mtr]) s t
    (∀ stamp crownNs rows, m.run = true →
      (stamp ≤ m.lastStamp ∨ rows.all m.rowOk = false → ∃ t, exec (.tallyBatch stamp crownNs rows) s = .next t ∧ eventOnly t ∧
        t.mtr = { m with tallyFault := true }) ∧
      (m.lastStamp < stamp → rows.all m.rowOk = true → ∃ t, exec (.tallyBatch stamp crownNs rows) s = .next t ∧ Same [.mtr] s t ∧
        t.mtr.lastStamp = stamp ∧ t.mtr.lastCrown = crownNs ∧ t.mtr.tallyFault = m.tallyFault ∧
        ∀ r a, rows = [r] → m.tallies = [a] → a.owner = r.owner → a.inst = r.inst →
          t.mtr.tallies = [{ a with prov := r.prov, occ := r.occ, rd := r.rd, wr := r.wr, dieUs := r.dieUs,
                                        eflags := if r.gone then a.eflags ||| 2 else a.eflags }])) ∧
    (∀ i v : Int, m.run = true → ∃ t, exec (.adcSample i v) s = .next t ∧ Same [.free, .mtr] s t ∧
      t.mtr.adcOvr = (m.adcOvr || decide (i < -100000 ∨ 100000 < i ∨ v < 0 ∨ 1250000 < v)) ∧
      (m.param 1 ≠ 0 → ∃ pair : Nat, t.mtr.energy = m.energy + (m.frac + pair) / (m.param 1 * 10 ^ 9) ∧
        t.mtr.frac = (m.frac + pair) % (m.param 1 * 10 ^ 9) ∧
        pair = (Config.adcCorrect (m.param 3) (max (-100000) (min 100000 i)) * Config.adcCorrect (m.param 4) (max 0 (min 1250000 v)) *
          (m.param 2 : Int) * 125).toNat)) ∧
    (∀ ppm, m.run = true → ∃ t r, exec (.intervalClose ppm) s = .next t ∧ Same (Piece.withEvent [.free, .mtr]) s t ∧
      t.mtr.time = max m.time ((m.tStart / (60 * 10 ^ 9) + 1) * (60 * 10 ^ 9)) ∧ t.mtr.tStart = t.mtr.time ∧ t.mtr.energy = 0 ∧
      t.mtr.eTotal = m.eTotal + m.energy ∧ t.mtr.nextRec = m.nextRec + 1 ∧ t.mtr.buffer.getLast? = some r ∧ r.type = 1 ∧
      r.recno = s.cas.chip * 2 ^ 62 + m.nextRec ∧ r.prev = m.lastLink ∧ t.mtr.lastLink = r.link ∧ r.eTotal = m.eTotal + m.energy ∧
      r.minutes = 1 ∧ r.tEnd = t.mtr.time ∧ r.flags.testBit 2 = false) ∧
    (∀ swid sum chain, m.run = false →
      (∃ t, exec (.islandStart false chain swid sum) s = .next t ∧ eventOnly t ∧ t.mtr = { m with swck := sum, run := false, halt := 2 }) ∧
      (m.paramBusy = false → ∃ t r, exec (.islandStart true chain swid sum) s = .next t ∧ t.mtr.run = true ∧ t.mtr.halt = 0 ∧
        t.mtr.swid = swid ∧ t.mtr.swck = sum ∧ t.mtr.sealedSwck = sum ∧ t.mtr.lost = false ∧ t.mtr.buffer.getLast? = some r ∧
        (chain = true → m.lost = false → r.type = 4 ∧ r.prev = m.lastLink ∧ t.mtr.restored = m.restored) ∧
        (chain = false ∨ m.lost = true → r.type = 3 ∧ t.mtr.restored = true))) ∧
    (∃ t, exec .islandSupplyLoss s = .next t ∧ Same [.mtr] s t ∧ t.mtr.run = false ∧ t.mtr.lost = true ∧ t.mtr.buffer = [] ∧ t.mtr.zone = m.zone ∧
      t.mtr.sealCnt = m.sealCnt ∧ ∀ r, m.zone.getLast? = some r → t.mtr.lastLink = r.link ∧ t.mtr.eTotal = r.eTotal ∧
        t.mtr.nextRec = r.recno % 2 ^ 62 + 1 ∧ t.mtr.lastStamp = r.stampLast) ∧
    (∀ sum, m.run = true →
      (sum = m.sealedSwck → exec (.mtrSwckGo sum) s = .next { s with mtr := { m with swck := sum } } ∧
        exec (.hourlyChecksum sum) s = .next { s with mtr := { m with swck := sum } }) ∧
      (sum ≠ m.sealedSwck → ∃ t, exec (.mtrSwckGo sum) s = .next t ∧ exec (.hourlyChecksum sum) s = .next t ∧ eventOnly t ∧
        t.mtr = { m with swck := sum, run := false, halt := 3 })) ∧
    (m.run = true → (∃ t, exec .crystal32kStop s = .next t ∧ eventOnly t ∧ t.mtr = { m with x32Ok := false, clkFault := true }) ∧
      ∃ t, exec .crystal25mStop s = .next t ∧ eventOnly t ∧ t.mtr = { m with x25Ok := false, run := false, halt := 1 })

/-- Records are stored in order (R352), merged when space runs low (R356), acknowledged (R355) and selected (R363); a change of the
seal is audited (R358), and a parameter is set only with the seal open, in its range and below the counter's end, the counter then
one higher and the change audited (R359, R360, R362). -/
def Obligations.RecordsAreStoredAndSealed : Prop :=
  ∀ s : State,
    let m := s.mtr
    (∀ r l, m.merging = none → m.buffer = r :: l → r.length ≤ m.freeBytes →
      exec (.recordStored r.recno) s = .next { s with mtr := { m with zone := m.zone ++ [r], buffer := l } }) ∧
    (∀ r, m.merging = some r → m.ackWait = none → ∃ t, exec (.recordStored r.recno) s = .next t ∧ Same [.mtr] s t ∧ t.mtr.merging = none ∧
      t.mtr.merges = satAdd 0xffff m.merges 1 ∧ t.mtr.zone = (m.zone.takeWhile fun x => decide (x.recno < r.firstno)) ++ [r] ++
        (m.zone.filter fun x => decide (r.recno < x.recno))) ∧
    (m.run = true → m.low = true → m.merging = none →
      (∀ a z l, m.nextRun false = some (a :: l) → (a :: l).getLast? = some z → ∃ t r, exec (.meterMerge true) s = .next t ∧ Same [.mtr] s t ∧
        t.mtr.merging = some r ∧ r.level = a.level + 1 ∧ r.firstno = a.firstno ∧ r.tStart = a.tStart ∧ r.prev = a.prev ∧ r.recno = z.recno ∧
        r.tEnd = z.tEnd ∧ r.eTotal = z.eTotal ∧ r.tailhash = z.link ∧ r.minutes = ((a :: l).map (·.minutes)).sum) ∧
      (m.nextRun false = none → ∃ t, exec (.meterMerge true) s = .next t ∧ Same (Piece.withEvent [.mtr]) s t ∧ t.mtr = { m with zoneFull := true })) ∧
    (∀ v : Word, v.toNat / 2 ^ 62 = s.cas.chip →
      (v.toNat < m.acked → exec (.mtrAck v) s = .next { s with mtr := { m with ackResult := 1 } }) ∧
      (m.acked ≤ v.toNat → m.newest < v.toNat → exec (.mtrAck v) s = .next { s with mtr := { m with ackResult := 2 } }) ∧
      (m.acked ≤ v.toNat → v.toNat ≤ m.newest → m.merging = none → ∃ t k, exec (.mtrAck v) s = .next t ∧ Same [.free, .mtr] s t ∧
        t.mtr.ackResult = 0 ∧ t.mtr.acked = v.toNat ∧ t.mtr.zone = m.zone.drop k ∧ k ≤ (m.zone.takeWhile fun r => decide (r.recno ≤ v.toNat)).length)) ∧
    (∀ v : Word, exec (.mtrRecSel v) s = .next { s with mtr := { m with
      recSel := v, window := m.zone.find? (fun r => decide (v.toNat ≤ r.recno))
      windowNone := (m.zone.find? fun r => decide (v.toNat ≤ r.recno)).isNone } }) ∧
    (∀ level, level ≠ m.sealOpen → m.run = true → ∃ t r, exec (.sealChange level) s = .next t ∧ Same (Piece.withEvent [.free, .mtr]) s t ∧
      t.mtr.sealOpen = level ∧ t.mtr.sealCnt = m.sealCnt ∧ t.mtr.nextRec = m.nextRec + 2 ∧ t.mtr.buffer.getLast? = some r ∧ r.type = 2 ∧
      r.audit = some (if level then 5 else 6, 0, 0, 0, 0)) ∧
    (m.paramBusy = false → m.run = true →
      let v := m.paramVal.toNat
      (m.sealOpen = false → exec .mtrParamCommit s = .next { s with mtr := { m with paramResult := 1, paramBusy := false } }) ∧
      (m.sealOpen = true → paramOk m.paramSel v = false → exec .mtrParamCommit s = .next { s with mtr := { m with paramResult := 2, paramBusy := false } }) ∧
      (m.sealOpen = true → paramOk m.paramSel v = true → 0xffffffff ≤ m.sealCnt →
        exec .mtrParamCommit s = .next { s with mtr := { m with paramResult := 3, paramBusy := false } }) ∧
      (m.sealOpen = true → paramOk m.paramSel v = true → m.sealCnt < 0xffffffff → ∃ t r, exec .mtrParamCommit s = .next t ∧
        Same (Piece.withEvent [.free, .mtr]) s t ∧ t.mtr.paramResult = 0 ∧ t.mtr.sealCnt = m.sealCnt + 1 ∧ t.mtr.buffer.getLast? = some r ∧
        r.type = 2 ∧ r.sealCnt = m.sealCnt + 1 ∧
        (m.paramSel ≠ 7 → t.mtr.param m.paramSel = v ∧ r.audit = some (1, m.paramSel, m.param m.paramSel, v, 0)) ∧
        (m.paramSel = 7 → t.mtr.time = v ∧ r.audit = some (2, 7, m.time, v, 0))))

/-! ### Power, the hold-up bank and the monitor -/

/-- The bank's budget is computed from the energy above the floor voltage (R376, R378), the charger is regulated within its band
(R373), and a test, however it is started, measures the capacitance and the ESR, or is postponed, discarded or repeated, and sets
LOWCAP and HIGHESR (R374, R375). -/
def Obligations.BankIsBudgetedChargedAndTested : Prop :=
  ∀ s : State,
    let b := s.brm
    (let vf := b.vstop * 100000 + b.isave * s.esrNow * 10
     let e := if s.bankLow * 1000 ≤ vf then 0 else s.capNow * ((s.bankLow * 1000) * (s.bankLow * 1000) - vf * vf) * b.eta
     ∃ t, exec .budgetRecompute s = .next t ∧ Same (Piece.withEvent [.brm]) s t ∧
       t.brm = { b with budget := t.brm.budget, eMj := min (2 ^ 32 - 1) (e / (2 * 10 ^ 17)), ovr := decide (t.brm.budget < s.gate.dirty) } ∧
       t.brm.budget % 2 ^ 24 = 0 ∧ t.brm.budget ≤ 2 ^ 32 ∧ (e ≤ 12 * 10 ^ 20 → t.brm.budget = 0) ∧
       (t.brm.budget < 2 ^ 32 → 12 * 10 ^ 20 < e →
         t.brm.budget / 2 ^ 24 * (11 * 10 ^ 20) ≤ (e - 12 * 10 ^ 20) * 64 ∧
         (e - 12 * 10 ^ 20) * 64 < (t.brm.budget / 2 ^ 24 + 1) * (11 * 10 ^ 20)) ∧
       (s.gate.dirty ≤ t.brm.budget → Same [.brm] s t)) ∧
    (let top := b.vchg * 100
     let v := { b with overV := decide (top + 1000 < b.vbank) }
     (2 ≤ b.st → exec .chargerRegulation s = .next { s with brm := { v with chg := false } }) ∧
     (b.st < 2 →
       (b.vbank + 300 < top → exec .chargerRegulation s = .next { s with brm := { v with chg := decide (b.iset ≠ 0), st := 0 } }) ∧
       (b.vbank < top → top ≤ b.vbank + 300 → exec .chargerRegulation s = .next { s with brm := v }) ∧
       (top ≤ b.vbank → b.vbank ≤ top + 1000 → exec .chargerRegulation s = .next { s with brm := { v with chg := false, st := 1 } }) ∧
       (top + 1000 < b.vbank → ∃ t, exec .chargerRegulation s = .next t ∧ Same (Piece.withEvent [.brm]) s t ∧
         t.brm = { v with chg := false, st := 1 }))) ∧
    (∀ c m, (c = .brmTestGo m ∨ c = .testPeriodExpiry m ∨ c = .brimTestRetry m ∧ (b.testResult = 1 ∨ b.testResult = 3)) → b.st < 2 →
      (m.dirtyOk = false → exec c s = .next { s with brm := { b with testResult := 1 } }) ∧
      (m.dirtyOk = true → m.sag = true → ∃ t, exec c s = .next t ∧ t.brm.st = 4 ∧ t.brm.testResult = 2 ∧ t.brm.pfail = true ∧ t.brm.saveKind = 1) ∧
      (m.dirtyOk = true → m.sag = false → m.settled = false ∨ m.flagged = true → exec c s = .next { s with brm := { b with testResult := 3 } }) ∧
      (m.dirtyOk = true → m.sag = false → m.settled = true → m.flagged = false → ∃ t, exec c s = .next t ∧
        Same (Piece.withEvent [.free, .nvme, .sqs, .qrecs, .ctxs, .brm]) s t ∧
        (t.brm.lowcap = false ∨ b.lowcap = true → Same (Piece.withEvent [.free, .brm]) s t) ∧
        t.free = s.free + 1 ∧ t.brm.testResult = 0 ∧ t.brm.tested = true ∧ t.brm.testTime = s.fch.mediaTime ∧
        (m.v1 ≠ 0 → m.v2 < m.v1 → b.rtest ≠ 0 →
          let esr := divNear ((m.v0 - m.v1) * b.rtest * 1000) m.v1
          let cap := divNear ((m.v1 + m.v2) * m.tUs) (2 * b.rtest * (m.v1 - m.v2))
          t.brm = { b with testResult := 0, tested := true, testTime := s.fch.mediaTime, cap := cap, esr := esr
                           lowcap := decide (cap < b.cmin * 10), highesr := decide (b.esrmax < esr) })))

/-- Stop is entered when every condition has held for the idle time, unless a level wake source is asserted (R365, R367); a wake
brings Run back, renews the leases of the members, and draws the two catch-up ticks (R366, R368, R370). A sag saves, after a wake
if need be, and a second trigger has no effect (R379, R380). A conversion writes its channel, saturated when it overranges (R401,
R402), and feeds the bank voltage and the sag test (R379, R403). -/
def Obligations.StopWakeSagAndConversions : Prop :=
  ∀ s : State,
    (∀ ms levels held, s.pwr.st = 0 → s.upd.stage = 9 → s.idle = true → s.nvme.stopIdle ≤ ms → s.cas.crown = true →
      ((∃ w ∈ levels, w ≠ .i3c) → exec (.stopEntry ms (levels, held)) s = .next { s with pwr := { s.pwr with aborts := satAdd 0xffffffff s.pwr.aborts 1 } }) ∧
      ((∀ w ∈ levels, w = .i3c) → ∃ t, exec (.stopEntry ms (levels, held)) s = .next t ∧ Same [.free, .out, .sward, .drc, .cas, .pwr, .mon] s t ∧
        t.pwr = { s.pwr with st := 2, lowreg := true, entries := satAdd 0xffffffff s.pwr.entries 1 } ∧ t.mon = { s.mon with stopFrame := true } ∧
        (held = 0 → t.drc = { s.drc with srState := 2 } ∧ t.free = s.free) ∧
        (held ≠ 0 → t.drc = { s.drc with srState := 0, srMaxWait := max s.drc.srMaxWait (s.freeVal % 2501) } ∧ t.free = s.free + 1) ∧
        t.cas.members = s.cas.members ∧ (s.cas.members.all (fun _ m => m.st != .active) = true → t.cas = s.cas))) ∧
    (∀ src ns, s.pwr.st = 2 → ∃ w t, exec (.wake src ns) s = .next t ∧ Same [.now, .free, .out, .sward, .drc, .cas, .mtr, .pwr, .mon] s w ∧
      w.now = s.now + ns ∧ w.pwr = { s.pwr with st := 0, lowreg := false, wakeCause := BitVec.ofNat 8 (2 ^ wakeBit src), aoPeak := s.freeVal % 256 } ∧
      w.drc.srState = 0 ∧ w.free = s.free + 1 ∧
      (∀ k m, s.cas.members.look k = some m → m.st = .active → s.linkJoined k = true →
        ∃ m', w.cas.members.look k = some m' ∧ m'.waitRenew = true ∧ m'.lastRenew = w.now) ∧
      let u := if w.tickReady then w.stagingAt (w.now - w.gate.lastStaging) else w
      t = (if u.tickReady then u.checkAt ((w.now - u.gate.lastCheck) / secNs) else u).msiCatchUp.ibiEval) ∧
    (∀ c kind, (c = .huPfailLow ∧ kind = 1 ∨ c = .inputRailSag ∧ kind = 2 ∧ 3 ≤ s.mon.sagRun) →
      ∃ t, exec c s = .next t ∧ (c = .huPfailLow → t.brm.pfail = true) ∧ (s.pwr.st = 2 → t.pwr.st = 0 ∧ t.pwr.wakeCause = 4) ∧
        (s.brm.st < 3 → t.brm.st = 4 ∧ t.brm.saveKind = kind ∧ t.brm.chg = false ∧ t.nv.clean = true ∧ t.nv.saveKind = kind ∧ t.fch.ops = []) ∧
        (3 ≤ s.brm.st → Same [.free, .drc, .pwr, .mon, .brm] s t ∧ (s.pwr.st ≠ 2 → Same [.brm] s t))) ∧
    (s.mon.sagRun < 3 → exec .inputRailSag s = .next s) ∧
    (∀ chan code hi lo, chan < 24 → s.mon.stopFrame = true → ¬ (chan = 2 ∨ 11 ≤ chan ∧ chan ≤ 17) →
      exec (.thistleConversion chan code hi lo) s = .next s) ∧
    (∀ chan code hi lo, chan < 24 → s.mon.stopFrame = false ∨ chan = 2 ∨ 11 ≤ chan ∧ chan ≤ 17 → ∃ t, exec (.thistleConversion chan code hi lo) s = .next t ∧ Same (Piece.withEvent [.brm, .mon]) s t ∧
      let ovr := hi || lo
      let settle := decide (0 < s.mon.settleLeft)
      let k := t.mon.chans.get chan {}
      k.code = (if hi then 0xfff else if lo then 0 else min 0xffe (max 1 code)) ∧ k.ovr = ovr ∧ k.settle = settle ∧
      k.value = (if ovr ∨ settle then (s.mon.chans.get chan {}).value else s.monValue chan k.code) ∧
      (∀ j, j ≠ chan → t.mon.chans.get j {} = s.mon.chans.get j {}) ∧
      t.mon.settleLeft = (if ovr then 2 else s.mon.settleLeft - 1) ∧
      (∀ j, j < 24 → t.mon.ovrSeen.getLsbD j = (s.mon.ovrSeen.getLsbD j || decide (j = chan) && ovr)) ∧
      (chan = 11 → settle = false ∨ ovr = true → t.mon.sagRun = if k.code < s.mon.sagv then s.mon.sagRun + 1 else 0) ∧
      (chan ≠ 11 → t.mon.sagRun = s.mon.sagRun) ∧
      (chan = 12 → settle = false ∨ ovr = true →
        t.brm.vbank = (if hi then s.fullScale 12 else k.code * s.fullScale 12 / 4096) ∧ (hi = true → t.brm.chg = false)) ∧
      (chan ≠ 12 → t.brm = s.brm))

/-! ### The thermal manager, the alarms and the log -/

/-- A sample of a site is kept with its sampling rate (R387), a broken site takes no more samples and holds its region at band E
(R395, R396), a region rises at once and falls one band after a second (R388), the throttle is at its floor at least and THERM_N is
low from 120 °C (R393, R394). A calm period lowers the step by one down to the floor (R393), a region takes the taps that are due
(R44), and a replica path's failure is counted (R45). -/
def Obligations.ThermalManagerActs : Prop :=
  ∀ s : State,
    (∀ k raw bias, 16 ≤ k ∨ (s.site k).broken = true → exec (.heatherSample k raw bias) s = .next s) ∧
    (∀ k raw bias, k < 16 → (s.site k).broken = false → ∃ t, exec (.heatherSample k raw bias) s = .next t ∧
      Same (Piece.withEvent [.nvme, .sqs, .qrecs, .ctxs, .lat, .thm]) s t ∧
      (s.nvme.tempOver = [] → s.nvme.tempUnder = [] → Same (Piece.withEvent [.lat, .thm]) s t) ∧
      (s.breakCause k raw bias ≠ 0 → (t.site k).broken = true ∧ (t.site k).cause = s.breakCause k raw bias ∧ t.thm.aBroken = true ∧
        (k < 12 → (s.region (k / 2)).held = false → (t.region (k / 2)).held = true ∧ (t.region (k / 2)).band = 4 ∧ t.lat.condBand = true) ∧
        (k < 12 → (s.region (k / 2)).held = true → t.region (k / 2) = s.region (k / 2))) ∧
      (s.breakCause k raw bias = 0 → (t.site k).temp = raw ∧ (t.site k).read = true ∧ (t.site k).fast = nearEdge s.inStop raw) ∧
      (s.breakCause k raw bias = 0 → k < 14 →
        let r := k / 2
        let old := (s.region r).band
        (t.site k).broken = false ∧ t.thm.floor ≤ t.thm.step ∧
        (degC 110 ≤ raw → t.thm.floor = 7 ∧ 7 ≤ t.thm.step) ∧ (degC 120 ≤ raw → t.thm.thermN = true) ∧
        ((s.site (4 * r + 1 - k)).broken = false → (s.site (4 * r + 1 - k)).read = false → (t.region r).band = old) ∧
        ((s.site k).read = true → (s.site (4 * r + 1 - k)).broken = false → (s.site (4 * r + 1 - k)).read = true → (s.region r).held = false →
          (old < bandOf raw → (t.region r).band = bandOf raw) ∧
          (bandOf raw ≤ old → bandEdge old < raw + degC 3 → (t.region r).band = old) ∧
          (∀ a b, bandOf raw ≤ old → 0 < old → raw + degC 3 ≤ bandEdge old → (s.site k).coolFrom = some a → (s.site (4 * r + 1 - k)).coolFrom = some b →
            a + secNs ≤ s.now → b + secNs ≤ s.now → (t.region r).band = old - 1)))) ∧
    (s.thm.calmSince.isSome = true → s.thm.floor < s.thm.step → s.thm.lastStepAt ≠ some s.now →
      exec .stepDown s = .next { s with thm := { s.thm with step := s.thm.step - 1, calmSince := some s.now } }) ∧
    (s.thm.calmSince = none ∨ s.thm.step ≤ s.thm.floor → exec .stepDown s = .next s) ∧
    (∀ r, (r = 0 ∨ r = 1 ∨ r = 2 ∨ r = 4 ∨ r = 7) →
      exec (.tapChange r) s = .next { s with thm := { s.thm with taps := s.thm.taps.put r (s.thm.tapsDue.get r 4) } }) ∧
    (∀ r, ¬ (r = 0 ∨ r = 1 ∨ r = 2 ∨ r = 4 ∨ r = 7) → exec (.tapChange r) s = .next s) ∧
    (∀ r, ∃ t, exec (.replicaPathFailure r) s = .next t ∧ Same (Piece.withEvent [.thm]) s t ∧
      t.thm = { s.thm with marginCnt := satAdd 0xffffffff s.thm.marginCnt 1 })

/-- A glitch and a broken shield latch their alarm and ask for its response once (R464, R465): nothing, a freeze or a zeroize, which
clears the key RAM at once (R316). With nothing before it, its configuration commit freezes every live slice with reason 4, or erases the
keys and the staged data (R316); behind commands not yet committed it waits stamped; while no stamp can be issued it is owed. A latch
bit clears only while its condition is absent, else STUCK is set (R466). A clear empties the log, SEQ carrying on (R461), and the latency
counts are copied and cleared on command. -/
def Obligations.AlarmsLogAndCountsAct : Prop :=
  ∀ s : State,
    (∀ d st, s.evt.glitchArmed = false → exec (.voltageGlitch d st) s = .next s) ∧
    (∀ d st, s.evt.glitchArmed = true → s.glitchSeen d = 0 →
      exec (.voltageGlitch d st) s = .next { s with evt := { s.evt with glitchStanding := s.evt.glitchStanding && st } }) ∧
    (∀ c k u, (∃ d st, c = .voltageGlitch d st ∧ k = 0 ∧ s.evt.glitchArmed = true ∧ s.glitchSeen d ≠ 0 ∧
          u = { s with evt := { s.evt with glitchStanding := st } }) ∨
        (∃ seg, c = .dieShieldCheck false seg ∧ k = 2 ∧ u = { s with evt := { s.evt with shieldBroken := true } }) →
      ∃ v t, exec c s = .next t ∧ Same Piece.event s v ∧ v.evt.latch = s.evt.latch ||| BitVec.ofNat 4 (2 ^ k) ∧
        v.evt.glitchStanding = u.evt.glitchStanding ∧ v.evt.shieldBroken = u.evt.shieldBroken ∧ v.evt.owed = s.evt.owed ∧
        (s.evt.latch.getLsbD k = true ∨ s.evt.rsp.getD k 0 = 0 → t = v) ∧
        (s.evt.latch.getLsbD k = false → s.evt.rsp.getD k 0 = 1 → t = v.alarmFreeze) ∧
        (s.evt.latch.getLsbD k = false → s.evt.rsp.getD k 0 = 2 → t = v.zeroize)) ∧
    (s.evt.owed = 0 →
      let cleared := { s.key with ram := [], cleared := true }
      (s.canStamp = false → s.alarmFreeze = { s with evt := { s.evt with owed := 1 } } ∧
        s.zeroize = { s with key := cleared, evt := { s.evt with owed := 2 } }) ∧
      (s.canStamp = true → s.gate.entries = [] →
        (∀ i, i ∈ s.slices.map (·.1) → (s.slice i).st = .active ∨ (s.slice i).st = .quiescing ∨ (s.slice i).st = .quiesced →
          (s.alarmFreeze.slice i).st = .frozen ∧ (s.alarmFreeze.slice i).reason = 4) ∧
        s.key.epoch < s.zeroize.key.epoch ∧ s.zeroize.toks = [] ∧ s.zeroize.staging = []) ∧
      (s.canStamp = true → s.gate.entries ≠ [] → (∀ k e, s.gate.entries.look k = some e → k < s.gate.next ∧ e.sys = none) →
        Same [.gate, .dma, .evt] s s.alarmFreeze ∧ Same [.gate, .dma, .key, .evt] s s.zeroize ∧ s.zeroize.key = cleared ∧
        (∃ e, s.alarmFreeze.gate.entries.look s.gate.next = some e ∧ e.sys = some .freeze) ∧
        (∃ e, s.zeroize.gate.entries.look s.gate.next = some e ∧ e.sys = some .zeroize))) ∧
    (∀ seg, exec (.dieShieldCheck true seg) s = .next { s with evt := { s.evt with shieldBroken := false } }) ∧
    (∀ mask, ∃ t, exec (.alarmLatchClear mask) s = .next t ∧ Same [.evt] s t ∧ (∀ k, k < 4 →
        t.evt.latch.getLsbD k = (s.evt.latch.getLsbD k && !(mask.testBit k &&
          !(k == 0 && s.evt.glitchStanding || k == 2 && s.evt.shieldBroken)))) ∧
      t.evt.stuck = (s.evt.stuck || mask.testBit 0 && s.evt.latch.getLsbD 0 && s.evt.glitchStanding ||
        mask.testBit 2 && s.evt.latch.getLsbD 2 && s.evt.shieldBroken)) ∧
    (s.log.clearing = false → ∃ t, exec .logClear s = .next t ∧ Same [.log] s t ∧ t.log.next = 0 ∧ t.log.dropped = 0 ∧ t.log.seq = s.log.seq ∧
      t.log.held = [] ∧ t.log.clearing = true ∧ ∀ k, t.log.slots.look k = (s.log.slots.look k).map fun r => { r with valid := false }) ∧
    (∀ also, exec (.histSnap also) s = .next { s with lat := { s.lat with snap := s.lat.live, live := if also then [] else s.lat.live } }) ∧
    exec .histClear s = .next { s with lat := { s.lat with live := [] } }

/-! ### The Bonnet array -/

/-- The outside reads and writes the array as R430 and R432 say: a refused sealed-class access is counted with RESULT 3, the factory
row answers 4, a control sector or a protected group 2, a program of a word that is not erased 1; a program or an erase holds the array
busy, and its completion writes the one word or erases the one sector. The data of a double-bit error is a free value (R430). The levels
are changed as R436 says, the lowering erasing sector 2048 last, and the password and the mask as R433 and R434 say. -/
def Obligations.BonnetArrayAnswers : Prop :=
  ∀ s : State,
    let e := s.efl
    let sets := fun (c : Instr) (f : Efl) => exec c s = .next { s with efl := f }
    (∀ c, (∃ d k, c = .eflRead d k) ∨ c = .eflProgram ∨ c = .eflErase → e.busy = false → secSealed e.sec = true → e.level ≠ 0 →
      ∃ t, exec c s = .next t ∧ t.efl = { e with viol := satAdd 0xffffffff e.viol 1, result := 3 } ∧
        (satAdd 0xffffffff e.viol 1 ≠ 8 → Same (Piece.withEvent [.efl]) s t)) ∧
    (∀ k, e.busy = false → secSealed e.sec = false ∨ e.level = 0 →
      sets (.eflRead false k) { e with result := 0, corr := k, data := e.wordAt s.key.epoch e.at_ } ∧
      (∀ v, e.words.look e.at_ = some v → e.wordAt s.key.epoch e.at_ = v) ∧
      (e.words.look e.at_ = none → e.erased.contains e.sec = true ∨ secFilled e.sec = false → e.wordAt s.key.epoch e.at_ = BitVec.allOnes 64) ∧
      ∃ v, exec (.eflRead true k) s = .next { s with free := s.free + 1, efl := { e with result := 5, corr := false, data := v } }) ∧
    (e.busy = false → secSealed e.sec = false ∨ e.level = 0 →
      (secFactory e.sec = true → sets .eflProgram { e with result := 4 } ∧ sets .eflErase { e with result := 4 }) ∧
      (secFactory e.sec = false → secControl e.sec = true ∨ secOem e.sec = true ∧ e.prot.getLsbD (e.sec / 32) = true →
        sets .eflProgram { e with result := 2 } ∧ sets .eflErase { e with result := 2 }) ∧
      (secFactory e.sec = false → secControl e.sec = false → secOem e.sec = false ∨ e.prot.getLsbD (e.sec / 32) = false →
        (e.wordAt s.key.epoch e.at_ ≠ BitVec.allOnes 64 → sets .eflProgram { e with result := 1 }) ∧
        (e.wordAt s.key.epoch e.at_ = BitVec.allOnes 64 →
          sets .eflProgram { e with busy := true, opKind := 2, opWord := e.at_, opData := e.data }) ∧
        sets .eflErase { e with busy := true, opKind := 3, opSector := e.sec })) ∧
    (e.busy = true → e.rdpBusy = false →
      (e.opKind = 2 → sets .eflOperationComplete { e with busy := false, opKind := 0, result := 0, words := e.words.put e.opWord e.opData }) ∧
      (e.opKind ≠ 2 → ∃ t, exec .eflOperationComplete s = .next t ∧ Same [.efl] s t ∧
        t.efl = { e with busy := false, opKind := 0, result := 0, words := t.efl.words, erased := t.efl.erased } ∧
        (∀ a, secOf a = e.opSector → t.efl.wordAt s.key.epoch a = BitVec.allOnes 64) ∧
        ∀ a, secOf a ≠ e.opSector → t.efl.words.look a = e.words.look a ∧ t.efl.erased.contains (secOf a) = e.erased.contains (secOf a))) ∧
    (e.busy = true → e.rdpBusy = true → ∃ t, exec .eflOperationComplete s = .next t ∧ Same [.efl] s t ∧
      (∀ a, secOf a = e.opSector → t.efl.words.look a = none) ∧ (∀ a, secOf a ≠ e.opSector → t.efl.words.look a = e.words.look a) ∧
      (e.opSector < 4091 → e.opSector ≠ 2048 → t.efl.rdpBusy = true ∧ t.efl.opSector = e.opSector + 1) ∧
      (e.opSector = 4091 → t.efl.rdpBusy = true ∧ t.efl.opSector = 2048) ∧
      (e.opSector = 2048 → t.efl.rdpBusy = false ∧ t.efl.busy = false ∧ t.efl.rdpResult = 0 ∧ t.efl.level = 0)) ∧
    (∀ target, e.busy = false →
      (e.level = 2 → sets (.eflRdp target) { e with rdpResult := 3 }) ∧
      (e.level = 1 → target = 2 → ∃ t, exec (.eflRdp target) s = .next t ∧ Same [.efl] s t ∧ t.efl.rdpResult = 0 ∧ t.efl.level = 2) ∧
      (e.level = 0 → target = 1 → ∃ t, exec (.eflRdp target) s = .next t ∧ Same [.efl] s t ∧ t.efl.rdpResult = 0 ∧
        ((e.words.look (2048 * 256 + 1)).getD (BitVec.allOnes 64) = BitVec.allOnes 64 → t.efl.level = 1)) ∧
      (e.level = 1 → target = 0 → ((∃ p, e.pwSet = some p) ∧ e.unlocked = false → sets (.eflRdp target) { e with rdpResult := 1 }) ∧
        (e.pwSet = none ∨ e.unlocked = true → s.mtr.sealOpen = false → sets (.eflRdp target) { e with rdpResult := 2 }) ∧
        (e.pwSet = none ∨ e.unlocked = true → s.mtr.sealOpen = true →
          sets (.eflRdp target) { e with rdpBusy := true, busy := true, opKind := 3, opSector := 2049 })) ∧
      (e.level ≠ 2 → target ≠ e.level + 1 → ¬(e.level = 1 ∧ target = 0) → sets (.eflRdp target) { e with rdpResult := 4 })) ∧
    (e.pwSet = none → sets .oemUnlock e) ∧
    (∀ p, e.pwSet = some p → (e.lockout = true → sets .oemUnlock e) ∧
      (e.lockout = false → e.pw = p → sets .oemUnlock { e with unlocked := true, attempts := 0 }) ∧
      (e.lockout = false → e.pw ≠ p → sets .oemUnlock { e with attempts := e.attempts + 1, lockout := decide (16 ≤ e.attempts + 1) })) ∧
    sets .oemLock { e with unlocked := false } ∧
    (e.pwSet = none ∨ e.unlocked = true → sets .setPassword { e with pwSet := some e.pw, unlocked := true, ctlSeq := e.ctlSeq + 1 } ∧
      sets .writeMask { e with prot := e.protNew, ctlSeq := e.ctlSeq + 1 }) ∧
    (e.pwSet ≠ none → e.unlocked = false → sets .setPassword e ∧ sets .writeMask e)

/-! ### Update and boot -/

/-- The staging slot is written block by block, erased first where it is not blank (R439), and dropped on a discard (R442); the copy
of a package fills its slot and, on a chip alone, ends the commit with its slot as NEXT (R445, R446). A confirmation raises the
counters and ends the trial (R448). -/
def Obligations.StagingSlotIsWrittenAndCommitted : Prop :=
  ∀ s : State,
    let n := s.nv
    (n.commitAct ≠ 0 ∨ n.stgErasing = true → exec .discard s = .next s) ∧
    (n.commitAct = 0 → n.stgErasing = false →
      (n.norQueue = [] → exec .discard s = .next { s with nv := { n with
        stgOwner := 0, stgBlocks := [], stgDirty := [], stgErasing := true, stgDiscard := false } }) ∧
      (n.norQueue ≠ [] → exec .discard s = .next { s with nv := { n with stgDiscard := true } })) ∧
    (n.stgErasing = true → ∃ t, exec .discardEraseDone s = .next t ∧ t.nv = { n with stgErasing := false } ∧ Same [.out, .nv] s t ∧
      (n.pldmState ≠ 3 → t.out = s.out)) ∧
    (n.stgErasing = false → exec .discardEraseDone s = .next s) ∧
    (∀ b d l, n.norQueue = (b, d) :: l →
      (n.norErase = true → exec .norOperationComplete s = .next { s with nv := { n with norErase := false } }) ∧
      (n.norErase = false → ∃ t, exec .norOperationComplete s = .next t ∧ t.nv.norQueue = l ∧
        (n.stgDiscard = false ∨ l ≠ [] → t.nv.stgBlocks = n.stgBlocks.put b d ∧ t.nv.stgOwner = n.stgOwner) ∧
        (n.stgDiscard = true → l = [] → t.nv.stgBlocks = [] ∧ t.nv.stgErasing = true ∧ t.nv.stgOwner = 0) ∧
        (∀ b' d' l', l = (b', d') :: l' → t.nv.norErase = (n.stgDirty.filter (· != b)).contains b') ∧
        (∀ c x, l = [] → n.norCtx = some c → s.ctxs.look c = some x → x.phase ≠ .done → t.nv.norCtx = none ∧
          ∃ y, t.ctxs.look c = some y ∧ y.phase = .done ∧ y.status = some stOk))) ∧
    (n.norQueue = [] → n.copying = true → n.pldmSelf = false →
      (n.commitAct = 5 → ∃ t, exec .norOperationComplete s = .next t ∧ Same [.out, .nv] s t ∧ t.out = .pldm 0x18 [0] :: s.out ∧
        t.nv.copying = false ∧ t.nv.commitAct = 0 ∧ t.nv.pldmState = 6 ∧ t.slotRev n.commitTarget = n.commitRev) ∧
      (∀ c x, (n.commitAct = 1 ∨ n.commitAct = 2) → s.cas.members = [] → n.commitCtx = some c → s.ctxs.look c = some x → x.phase ≠ .done →
        ∃ t, exec .norOperationComplete s = .next t ∧ t.nv.copying = false ∧ t.nv.commitAct = 0 ∧ t.slotRev n.commitTarget = n.commitRev ∧
          t.nv.stgOwner = 0 ∧ t.nv.stgErasing = true ∧
          (∃ y, t.ctxs.look c = some y ∧ y.phase = .done ∧ y.status = some (if n.commitAct = 1 then stOk else stFwReset)) ∧
          (n.commitAct = 1 → t.nv.next = n.next ∧ t.nv.actState = n.actState) ∧
          (n.commitAct = 2 → t.nv.next = n.commitTarget ∧ t.nv.bootSeq = n.bootSeq + 1 ∧ (n.actState ≠ 2 → t.nv.actState = 1 ∧
            t.nv.actFrom = s.upd.booted ∧ t.nv.actTo = n.commitTarget ∧ t.nv.actToRev = n.commitRev ∧ t.nv.actClean = 0)))) ∧
    (n.actState = 2 → s.cas.crown = true → ∃ t, exec .confirm s = .next t ∧ Same (Piece.withEvent [.sward, .cas, .nv, .efl]) s t ∧
      t.nv = { n with actState := 3, prevLedger := none } ∧ t.cas.members = s.cas.members ∧
      t.efl = (List.range 8).foldl (fun e c => e.svnRaise c (((s.manifest.map (·.svn)).getD []).getD c 0)) s.efl) ∧
    (n.actState ≠ 2 ∨ s.cas.crown = false → exec .confirm s = .next s)

/-- The PLDM path runs its session (R441): each request is answered, and taken in its state alone; the staged content is kept for its
own comparison stamp and discarded for another; the device asks for the lowest missing block, and cancelling keeps what is staged. The
completion codes are those of DSP0267 (log entry 7). -/
def Obligations.PldmSessionRuns : Prop :=
  ∀ s : State, s.powered = true → s.inStop = false →
    let n := s.nv
    let tells := fun (c : Instr) (f : Nv) (code : Nat) (l : List Nat) => exec c s = .next { s with nv := f, out := .pldm code l :: s.out }
    let wrong := if n.pldmState = 0 then 0x80 else 0x84
    tells .queryDeviceIdentifiers n 0x01 ([0, 0x960, 0xb0] ++ (match s.img with | some i => i.sn | none => [])) ∧
    tells .getFirmwareParameters n 0x02 [0, s.slotRev (1 - s.otherSlot), s.slotRev s.otherSlot] ∧
    tells .getStatus n 0x1b [0, n.pldmState, n.stgBlocks.length] ∧
    (∀ max, (n.pldmState ≠ 0 → tells (.requestUpdate max) n 0x10 [0x81]) ∧
      (n.pldmState = 0 → n.stgOwner = 1 ∨ n.commitAct ≠ 0 ∨ n.stgErasing = true ∨ s.upd.nosusp = true → tells (.requestUpdate max) n 0x10 [0x8a]) ∧
      (n.pldmState = 0 → n.stgOwner ≠ 1 → n.commitAct = 0 → n.stgErasing = false → s.upd.nosusp = false →
        (max < 64 → tells (.requestUpdate max) n 0x10 [0x83]) ∧
        (64 ≤ max → tells (.requestUpdate max) { n with pldmMax := max, pldmState := 1, pldmSelf := false } 0x10 [0]))) ∧
    (∀ stamp size,
      let kept := n.stgOwner = 2 ∧ n.pldmStamp = stamp
      (n.pldmState ≠ 1 → tells (.passComponentTable stamp) n 0x13 [wrong]) ∧
      (n.pldmState = 1 → ∃ t, exec (.passComponentTable stamp) s = .next t ∧ Same [.out, .nv] s t ∧ t.out = .pldm 0x13 [0] :: s.out ∧
        t.nv.pldmState = 2 ∧ (kept → t.nv = { n with pldmState := 2 }) ∧ (¬kept → t.nv.stgBlocks = [])) ∧
      (n.pldmState ≠ 2 → tells (.updateComponent stamp size) n 0x14 [wrong]) ∧
      (n.pldmState = 2 → s.stgCap * 4096 < size → tells (.updateComponent stamp size) n 0x14 [0, 1]) ∧
      (n.pldmState = 2 → size ≤ s.stgCap * 4096 → ∃ t, exec (.updateComponent stamp size) s = .next t ∧ Same [.out, .nv] s t ∧
        t.nv.pldmState = 3 ∧ t.nv.stgOwner = 2 ∧ t.nv.pldmStamp = stamp ∧ t.nv.stgLen = size ∧
        (kept → t.nv.stgBlocks = n.stgBlocks ∧ t.nv.stgErasing = n.stgErasing) ∧ (¬kept → t.nv.stgBlocks = []))) ∧
    (∀ blk content, n.pldmState = 3 → n.stgErasing = false → n.norQueue = [] → s.pldmNext = some blk →
      ∃ t, exec (.requestFirmwareData blk content) s = .next t ∧ Same [.nv] s t ∧ t.nv.norQueue = [(blk, content)] ∧
        t.nv.norErase = n.stgDirty.contains blk ∧ t.nv.stgBlocks = n.stgBlocks) ∧
    (n.pldmState = 3 → n.stgErasing = false → n.norQueue = [] → s.pldmNext = none →
      tells .transferComplete { n with pldmState := 4 } 0x16 [0]) ∧
    (∀ pkg, n.pldmState = 4 →
      (s.commitCheck pkg s.otherSlot true = none → tells (.verifyComplete pkg) { n with
        pldmState := 5, commitTarget := s.otherSlot, commitRev := pkg.manifest.revision, commitFr := pkg.manifest.fr } 0x17 [0]) ∧
      (∀ k st, s.commitCheck pkg s.otherSlot true = some (k, st) → ∃ t, exec (.verifyComplete pkg) s = .next t ∧
        Same (Piece.withEvent [.nv]) s t ∧ t.nv.pldmState = 4 ∧ t.nv.failCount = n.failCount + 1)) ∧
    (n.pldmState = 5 → n.commitAct = 0 → exec .applyComplete s = .next { s with nv := { n with copying := true, commitAct := 5, commitCtx := none } }) ∧
    (∀ self, (n.pldmState ≠ 6 → tells (.activateFirmware self) n 0x1a [wrong]) ∧
      (n.pldmState = 6 → s.cas.members = [] →
        let may := self && (!s.nvme.cc.getLsbD 0 || s.upd.stage == 15)
        ∃ t, exec (.activateFirmware self) s = .next t ∧ t.nv.next = n.commitTarget ∧ t.nv.bootSeq = n.bootSeq + 1 ∧ t.nv.pldmState = 0 ∧
          t.nv.stgOwner = 0 ∧ (n.actState ≠ 2 → t.nv.actState = 1 ∧ t.nv.actTo = n.commitTarget) ∧
          (may = true → t.upd.stage = 0) ∧ (may = false → Same (Piece.withEvent [.cas, .nv]) s t))) ∧
    (n.pldmState < 3 ∨ n.commitAct = 5 → tells .cancelUpdateComponent n 0x1c [wrong]) ∧
    (3 ≤ n.pldmState → n.commitAct ≠ 5 → tells .cancelUpdateComponent { n with pldmState := 2 } 0x1c [0]) ∧
    (n.pldmState = 0 → tells .cancelUpdate n 0x1d [0x80]) ∧
    (n.pldmState ≠ 0 → n.commitAct = 5 → tells .cancelUpdate n 0x1d [0x84]) ∧
    (n.pldmState ≠ 0 → n.commitAct ≠ 5 → tells .cancelUpdate { n with pldmState := 0 } 0x1d [0])

/-- The release of the power-on reset runs the boot (R410, R411, R422, R425): it stops with the code of the first thing that fails, and
otherwise boots the first slot in the order NEXT, CURRENT, other that passes its checks (a lost boot record counts as CURRENT 0 with no
NEXT), loads its configuration and comes to stage 8, or to 9 with I/O accepted (R325). A trial whose ledger cannot be read goes back to its
FROM slot once (R448). -/
def Obligations.BootRunsOrStops : Prop :=
  ∀ (s : State) (b : BootIn), s.powered = false →
    let stops := fun (t : State) (code : Nat) => exec (.powerOnResetRelease b) s = .next t ∧ t.upd.stage = 15 ∧ t.upd.stop = code
    let norFine := b.norOk && (b.norMib == 32 || b.norMib == 64 || b.norMib == 128 || b.norMib == 256)
    let record := if b.recordOk then s.nv else { s.nv with current := 0, next := 255 }
    let slot := record.slotOrder.find? fun k => s.slotCheck (slotOf b k) == 0
    (b.bonnetOk = false ∨ s.efl.keysPart = true → ∃ t, stops t 6 ∧ Same [.pci, .upd] s t) ∧
    (b.bonnetOk = true → s.efl.keysPart = false → norFine = false → ∃ t, stops t 1 ∧ Same [.pci, .upd] s t) ∧
    (b.bonnetOk = true → s.efl.keysPart = false → norFine = true → slot = none →
      ∃ t, stops t 2 ∧ Same (Piece.withEvent [.pci, .upd, .nv]) s t) ∧
    (∀ k, b.bonnetOk = true → s.efl.keysPart = false → norFine = true → slot = some k →
      let f := slotOf b k
      ∃ p t : State, exec (.powerOnResetRelease b) s = .next t ∧ p.upd.booted = k ∧ p.img = some f.image ∧ p.manifest = some f.manifest ∧
        p.efl = s.efl ∧ p.key.owners = s.key.owners ∧ p.zones = s.zones ∧ p.blocks = s.blocks ∧ p.nv.anchor = s.nv.anchor ∧
        (∀ d ∈ populated b, b.badDies.contains d = true → p.dieGood d = false) ∧
        let dramFine := (s.dramBoot f.image b).2
        let z := p.slcSizes (!s.nv.anchor)
        (dramFine = false → stops t 4) ∧
        (dramFine = true → State.mediaFault b = true → stops t 5) ∧
        (dramFine = true → State.mediaFault b = false →
          (z.g < (z.nmin + z.ksave) * 10 → stops t 5) ∧
          ((z.nmin + z.ksave) * 10 ≤ z.g →
            (b.anchorBad = true → stops t 7) ∧
            (b.anchorBad = false → b.ledgerBad = true → stops t 8) ∧
            (b.anchorBad = false → b.ledgerBad = false → p.ledgerOk f.manifest = true →
              t.upd.booted = k ∧ t.upd.stop = s.upd.stop ∧ t.img = some f.image ∧ t.nv.clean = false ∧ (t.upd.stage = 8 ∨ t.upd.stage = 9) ∧
              (t.upd.stage = 9 → t.gate.ioOk = t.cas.crown)) ∧
            (b.anchorBad = false → b.ledgerBad = false → p.ledgerOk f.manifest = false → p.nv.actState ≠ 2 → stops t 8) ∧
            (b.anchorBad = false → b.ledgerBad = false → p.ledgerOk f.manifest = false → p.nv.actState = 2 →
              t = (p.bootBack k).bootSlot b 1 ∧ (p.bootBack k).nv.current = p.nv.actFrom ∧ (p.bootBack k).nv.next = 255 ∧
              (p.bootBack k).nv.actState = 4))))

/-! ### Registers and sideband -/

/-- A lock command sets its block's bit alone (R471), and a register write follows the access code of its register: nothing while the
BARs cannot be reached, for a misaligned access (R473) or an unoccupied offset (R470); a locked field stays and event 2 records the
write (R11); and a register with a row of its own acts as that row (R474), each half in turn for any other 8 bytes. The configuration space is
written while the link can carry the request (R51, R52, R57). -/
def Obligations.RegisterWritesFollowTheirCodes : Prop :=
  ∀ s : State,
    let locks := fun (u : State) => [u.fch.lock, u.lat.lock, u.drc.lock, u.ecc.lock, u.key.lock, u.brm.lock, u.thm.lock]
    (∀ blk, blk < 7 → ∃ t, exec (.lockSet blk) s = .next t ∧ Same [.fch, .lat, .drc, .ecc, .key, .brm, .thm] s t ∧
      locks t = (locks s).set blk true) ∧
    (∀ blk, 7 ≤ blk → exec (.lockSet blk) s = .next s) ∧
    (∀ r o size v, let x := v.toNat
      let write := exec (.registerWrite (.config r) o size v) s
      (s.barsUp = false → s.linkUp = false ∨ s.inStop = true ∨ s.powered = false → write = .next s) ∧
      (s.barsUp = true ∨ s.linkUp = true ∧ s.inStop = false ∧ s.powered = true →
        (r = .command → write = .next { s with pci := { s.pci with memEn := x.testBit 1, bme := x.testBit 2 } }) ∧
        (r = .pasidCtl → write = if x.testBit 0 then .next { s with pci := { s.pci with pasidEn := true } } else exec .pasidEnableCleared s) ∧
        (r = .pmcsr → write = if x % 4 = 0 ∨ x % 4 = 3 then exec (.functionPowerStateChange (x % 4 == 3) (x.testBit 8)) s else .next s) ∧
        ((∃ i, r = .bar i) ∨ r = .devCtl ∨ r = .devCtl2 ∨ r = .aerCtl → ∃ p, write = .next { s with pci := p }))) ∧
    (s.barsUp = false → ∀ sp o size v, (∀ r, sp ≠ .config r) → exec (.registerWrite sp o size v) s = .next s) ∧
    (s.barsUp = true → ∀ v : Word,
      let x := v.toNat % 2 ^ 32
      let write4 := fun o => exec (.registerWrite .bar2 o 4 v) s
      let write8 := fun o => exec (.registerWrite .bar2 o 8 v) s
      (∀ o size, ¬((size = 4 ∨ size = 8) ∧ o % size = 0) →
        exec (.registerWrite .bar0 o size v) s = .next s ∧ exec (.registerWrite .bar2 o size v) s = .next s) ∧
      (∀ o, 0x800000 ≤ o → o % 8 = 0 → write4 o = .next s ∧ write8 o = .next s) ∧
      write4 0x10008 = .next { s with pwr := { s.pwr with wakeCause := s.pwr.wakeCause &&& ~~~BitVec.ofNat 8 x } } ∧
      write4 0x50010 = .next { s with log := { s.log with sel := x % 2 ^ 13 } } ∧
      (s.brm.lock = false → write4 0x30014 = .next { s with brm := { s.brm with iset := x % 2 ^ 6 } }) ∧
      (s.brm.lock = true → write4 0x30014 = .next (s.fire 2 [0x30014, x])) ∧
      (s.thm.lock = false → write4 0x20088 = .next { s with thm := { s.thm with down := x % 2 ^ 6 } }) ∧
      (s.thm.lock = true → write4 0x20088 = .next (s.fire 2 [0x20088, x])) ∧
      (∀ m, m < 10 → ∃ t, write4 (0x40800 + 4 * m) = .next t ∧ Same [.out, .evt] s t ∧ ∀ k, k < 320 →
        t.evt.pend.getLsbD k = (s.evt.pend.getLsbD k && !(decide (k / 32 = m) && x.testBit (k % 32)))) ∧
      (∀ b o, (b, o) ∈ [(0, 0x190000), (1, 0x1e001c), (2, 0x140050), (3, 0x160030), (4, 0xa0080), (5, 0x30050), (6, 0x2008c)] →
        write4 o = if x.testBit 0 then exec (.lockSet b) s else .next s) ∧
      write8 0x220058 = exec (.mtrAck v) s ∧ write8 0x220300 = exec (.mtrRecSel v) s ∧
      (∀ i, i < 1024 → write8 (0x400108 + 0x1000 * i) = exec (.slcMboutPush .manager i true v) s ∧
        write4 (0x400108 + 0x1000 * i) = exec (.slcMboutPush .manager i false 0) s) ∧
      (∀ o t, o % 8 = 0 → o < 0x220000 → write4 o = .next t → t.barsUp = true →
        write8 o = exec (.registerWrite .bar2 (o + 4) 4 (v >>> 32)) t) ∧
      exec (.registerWrite .bar0 0x24 4 v) s = .next { s with nvme := { s.nvme with aqa := BitVec.ofNat 32 x &&& 0x0fff0fff } } ∧
      (∀ q, q < 512 → exec (.registerWrite .bar0 (0x1000 + 8 * q) 4 v) s = exec (.pfSqDoorbell q (x % 65536)) s ∧
        exec (.registerWrite .bar0 (0x1004 + 8 * q) 4 v) s = exec (.pfCqDoorbell q (x % 65536)) s) ∧
      (∀ i p,
        let page := fun o size => exec (.registerWrite (.bar4 i p) o size v) s
        (s.pageOk i p = false → ∀ o size, page o size = .next (s.bar4Fail i p true o)) ∧
        (s.pageOk i p = true → (∀ q, q < 128 → page (8 * q) 4 = exec (.slcDbSq i p q (x % 4096)) s ∧
            page (8 * q + 4) 4 = exec (.slcDbCq i p q (x % 4096)) s) ∧
          page 0x2100 4 = exec (.slcMbinPtr (.tenant p) i (x % 64)) s ∧ page 0x2108 8 = exec (.slcMboutPush (.tenant p) i true v) s ∧
          page 0x3008 4 = exec (.slcNrCtl i p (BitVec.ofNat 32 x)) s)))

/-- A sideband request is answered from what is kept when its SEQ repeats (R480), refused with its CC, with nothing performed (R478),
or performed as a run of accesses, answered and kept (R479). The I3C codes give and take addresses and enable interrupts (R495); what
GETBCR, GETDCR, GETSTATUS and the rest of GETMXDS return is a free value (log entry 59 of the model). -/
def Obligations.SidebandRequestsAreServed : Prop :=
  ∀ s : State,
    (∀ port eid vendor seq offset count dws, 2 ≤ port → exec (.mctpRead port eid vendor seq offset count) s = .next s ∧
      exec (.mctpWrite port eid vendor seq offset count dws) s = .next s) ∧
    (∀ port c, 2 ≤ port → exec (.i3cCcc port c) s = .next s) ∧
    (∀ i, s.img = some i → s.pwr.st ≠ 2 → ∀ port eid vendor seq offset count dws, port < 2 →
      let read := exec (.mctpRead port eid vendor seq offset count) s
      let write := exec (.mctpWrite port eid vendor seq offset count dws) s
      let answer := fun (u : State) cc l => ({ u with out := .sideband port eid seq cc l :: u.out } : State)
      let kept := s.side.kept.look (port * 256 + eid)
      let fit := 1 ≤ count ∧ count ≤ 60 ∧ offset % 4 = 0
      let inWindow := offset + 4 * count ≤ 0x4000000
      (∀ k, kept = some k → k.seq = seq → read = .next (answer s k.cc k.data) ∧ write = .next (answer s k.cc k.data)) ∧
      ((∀ k, kept = some k → k.seq ≠ seq) →
        (vendor ≠ i.vid → read = .next (answer s 1 []) ∧ write = .next (answer s 1 [])) ∧
        (vendor = i.vid → ¬fit → read = .next (answer s 2 []) ∧ write = .next (answer s 2 [])) ∧
        (vendor = i.vid → fit → ¬inWindow → read = .next (answer s 3 []) ∧ write = .next (answer s 3 [])) ∧
        (vendor = i.vid → fit → inWindow → s.upd.stage = 0 → ∀ k, k < count → earlyBlock (offset + 4 * k) = false →
          read = .next (answer s 4 []) ∧ write = .next (answer s 4 [])) ∧
        (vendor = i.vid → fit → inWindow → s.upd.stage ≠ 0 →
          (∃ t, read = .next t ∧ t.out = .sideband port eid seq 0 (s.readRun offset count).1 :: (s.readRun offset count).2.out ∧
            t.side.kept = (s.readRun offset count).2.side.kept.put (port * 256 + eid)
              { seq := seq, cc := 0, data := (s.readRun offset count).1 } ∧
            (s.readRun offset count).1.length = count) ∧
          (∃ t, write = .next t ∧
            (∀ u, u = s.writeRun offset ((List.range count).map fun k => dws.getD k 0) →
              t.out = .sideband port eid seq 0 [] :: u.out ∧ Same [.out, .side] u t ∧
              t.side.kept = u.side.kept.put (port * 256 + eid) { seq := seq, cc := 0, data := [] }))))) ∧
    (∀ port, port < 2 →
      let does := fun c (d : Side) => exec (.i3cCcc port c) s = .next { s with side := d }
      let tells := fun c (l : List Nat) (n : Nat) => exec (.i3cCcc port c) s = .next { s with out := .i3c port l :: s.out, free := s.free + n }
      (∀ a, s.side.addr.has port = false →
        does (.entdaa a) { s.side with addr := s.side.addr.put port a } ∧ does (.setdasa a) { s.side with addr := s.side.addr.put port a }) ∧
      (∀ a, s.side.addr.has port = true → does (.entdaa a) s.side ∧ does (.setdasa a) s.side) ∧
      does .rstdaa { s.side with addr := s.side.addr.del port } ∧ does .rstact s.side ∧
      does .disec { s.side with ibiEn := s.side.ibiEn.put port false } ∧
      (∃ t, exec (.i3cCcc port .enec) s = .next t ∧ Same [.out, .side, .evt] s t ∧ t.side = { s.side with ibiEn := s.side.ibiEn.put port true }) ∧
      (∀ i, s.img = some i → tells .getpid [i.vid, Config.partSerial % 2 ^ 32] 0) ∧
      tells .getbcr [Config.freeNat s.free] 1 ∧ tells .getdcr [Config.freeNat s.free] 1 ∧ tells .getstatus [Config.freeNat s.free] 1 ∧
      tells .getmxds [12, Config.freeNat s.free] 1)
end

