-- ==== Sys2Proof/Laws/Table.lean ====
section
/-! SUPPORT. The laws of finite tables: reading after writing, and that every operation keeps the canonical form. -/

namespace Sys2Proof

variable {α : Type}

/-- Every key of a table is above `k`. -/
def Tbl.above (k : Nat) : Tbl α → Prop
  | [] => True
  | (a, _) :: t => k < a ∧ Tbl.above k t

theorem Tbl.above_mono {j k : Nat} (h : j ≤ k) : ∀ {t : Tbl α}, Tbl.above k t → Tbl.above j t
  | [], _ => trivial
  | _ :: _, ⟨a, b⟩ => ⟨Nat.lt_of_le_of_lt h a, Tbl.above_mono h b⟩

theorem Tbl.wf_cons {a : Nat} {v : α} {t : Tbl α} : Tbl.wf ((a, v) :: t) = true ↔ Tbl.above a t ∧ Tbl.wf t = true := by
  induction t generalizing a v with
  | nil => simp [Tbl.wf, Tbl.above]
  | cons p t ih =>
    obtain ⟨b, w⟩ := p
    simp only [Tbl.wf, Bool.and_eq_true, decide_eq_true_eq]
    constructor
    · rintro ⟨h, k⟩
      exact ⟨⟨h, Tbl.above_mono (Nat.le_of_lt h) (ih.mp k).1⟩, k⟩
    · rintro ⟨⟨h, -⟩, k⟩
      exact ⟨h, k⟩

theorem Tbl.above_put {j k : Nat} {v : α} (hj : j < k) : ∀ {t : Tbl α}, Tbl.above j t → Tbl.above j (t.put k v)
  | [], _ => ⟨hj, trivial⟩
  | (a, w) :: t, ⟨ha, ht⟩ => by
    unfold Tbl.put
    split
    · exact ⟨hj, ht⟩
    · split
      · exact ⟨hj, ha, ht⟩
      · exact ⟨ha, Tbl.above_put hj ht⟩

theorem Tbl.wf_put {k : Nat} {v : α} : ∀ {t : Tbl α}, t.wf = true → (t.put k v).wf = true
  | [], _ => rfl
  | (a, w) :: t, h => by
    obtain ⟨ha, ht⟩ := Tbl.wf_cons.mp h
    unfold Tbl.put
    split
    · rename_i e
      exact Tbl.wf_cons.mpr ⟨e ▸ ha, ht⟩
    · split
      · rename_i n l
        exact Tbl.wf_cons.mpr ⟨⟨l, Tbl.above_mono (Nat.le_of_lt l) ha⟩, h⟩
      · rename_i n l
        exact Tbl.wf_cons.mpr ⟨Tbl.above_put (Nat.lt_of_le_of_ne (Nat.le_of_not_lt l) n) ha, Tbl.wf_put ht⟩

theorem Tbl.wf_upd {k : Nat} {d : α} {f : α → α} {t : Tbl α} (h : t.wf = true) : (t.upd k d f).wf = true := Tbl.wf_put h

theorem Tbl.wf_edit {k : Nat} {f : α → α} {t : Tbl α} (h : t.wf = true) : (t.edit k f).wf = true := by
  unfold Tbl.edit
  split
  · exact Tbl.wf_put h
  · exact h

theorem Tbl.above_filter {j : Nat} {p : Nat × α → Bool} : ∀ {t : Tbl α}, Tbl.above j t → Tbl.above j (List.filter p t)
  | [], _ => trivial
  | x :: t, ⟨ha, ht⟩ => by
    simp only [List.filter]
    split
    · exact ⟨ha, Tbl.above_filter ht⟩
    · exact Tbl.above_filter ht

theorem Tbl.wf_filter {p : Nat × α → Bool} : ∀ {t : Tbl α}, t.wf = true → Tbl.wf (List.filter p t) = true
  | [], _ => rfl
  | (a, v) :: t, h => by
    obtain ⟨ha, ht⟩ := Tbl.wf_cons.mp h
    simp only [List.filter]
    split
    · exact Tbl.wf_cons.mpr ⟨Tbl.above_filter ha, Tbl.wf_filter ht⟩
    · exact Tbl.wf_filter ht

theorem Tbl.above_mapV {j : Nat} {f : Nat → α → α} : ∀ {t : Tbl α}, Tbl.above j t → Tbl.above j (t.mapV f)
  | [], _ => trivial
  | _ :: _, ⟨ha, ht⟩ => ⟨ha, Tbl.above_mapV ht⟩

theorem Tbl.wf_mapV {f : Nat → α → α} : ∀ {t : Tbl α}, t.wf = true → (t.mapV f).wf = true
  | [], _ => rfl
  | (_, _) :: _, h => Tbl.wf_cons.mpr ⟨Tbl.above_mapV (Tbl.wf_cons.mp h).1, Tbl.wf_mapV (Tbl.wf_cons.mp h).2⟩

theorem Tbl.above_del {j k : Nat} : ∀ {t : Tbl α}, Tbl.above j t → Tbl.above j (t.del k)
  | [], _ => trivial
  | (a, v) :: t, ⟨ha, ht⟩ => by
    unfold Tbl.del
    split
    · exact Tbl.above_del ht
    · exact ⟨ha, Tbl.above_del ht⟩

theorem Tbl.wf_del {k : Nat} : ∀ {t : Tbl α}, t.wf = true → (t.del k).wf = true
  | [], _ => rfl
  | (a, v) :: t, h => by
    obtain ⟨ha, ht⟩ := Tbl.wf_cons.mp h
    unfold Tbl.del
    split
    · exact Tbl.wf_del ht
    · exact Tbl.wf_cons.mpr ⟨Tbl.above_del ha, Tbl.wf_del ht⟩

/-- Reading what was just written. -/
@[simp] theorem Tbl.look_put (t : Tbl α) (k : Nat) (v : α) : (t.put k v).look k = some v := by
  induction t with
  | nil => simp [Tbl.put, Tbl.look]
  | cons p t ih =>
    obtain ⟨a, w⟩ := p
    by_cases h : a = k
    · simp [Tbl.put, Tbl.look, h]
    · by_cases l : k < a
      · simp [Tbl.put, Tbl.look, h, l]
      · simp [Tbl.put, Tbl.look, h, l, ih]

/-- A write leaves every other key alone. -/
theorem Tbl.look_put_ne (t : Tbl α) {j k : Nat} (v : α) (h : j ≠ k) : (t.put k v).look j = t.look j := by
  have h' : ¬ k = j := fun e => h e.symm
  induction t with
  | nil => simp [Tbl.put, Tbl.look, h']
  | cons p t ih =>
    obtain ⟨a, w⟩ := p
    by_cases e : a = k
    · subst e
      simp [Tbl.put, Tbl.look, h']
    · by_cases l : k < a
      · simp [Tbl.put, Tbl.look, e, l, h']
      · simp [Tbl.put, Tbl.look, e, l, ih]

@[simp] theorem Tbl.look_del (t : Tbl α) (k : Nat) : (t.del k).look k = none := by
  induction t with
  | nil => rfl
  | cons p t ih =>
    obtain ⟨a, w⟩ := p
    by_cases h : a = k <;> simp [Tbl.del, Tbl.look, h, ih]

theorem Tbl.look_del_ne (t : Tbl α) {j k : Nat} (h : j ≠ k) : (t.del k).look j = t.look j := by
  induction t with
  | nil => rfl
  | cons p t ih =>
    obtain ⟨a, w⟩ := p
    by_cases e : a = k
    · subst e
      have h' : ¬ a = j := fun e => h e.symm
      simp [Tbl.del, Tbl.look, h', ih]
    · simp [Tbl.del, Tbl.look, e, ih]

/-- Entries kept by their keys. -/
theorem Tbl.look_filter (t : Tbl α) (p : Nat → Bool) (k : Nat) :
    Tbl.look (List.filter (fun q => p q.1) t) k = if p k then t.look k else none := by
  induction t with
  | nil => simp [Tbl.look]
  | cons q t ih =>
    obtain ⟨a, w⟩ := q
    by_cases h : p a = true
    · by_cases e : a = k
      · subst e
        simp [List.filter, Tbl.look, h]
      · simp [List.filter, Tbl.look, h, e, ih]
    · by_cases e : a = k
      · subst e
        simp [List.filter, h, ih]
      · simp [List.filter, Tbl.look, h, e, ih]

@[simp] theorem Tbl.get_put (t : Tbl α) (k : Nat) (v d : α) : (t.put k v).get k d = v := by simp [Tbl.get]

@[simp] theorem Tbl.get_upd (t : Tbl α) (k : Nat) (d : α) (f : α → α) : (t.upd k d f).get k d = f (t.get k d) := by
  simp [Tbl.upd]

theorem Tbl.get_upd_ne (t : Tbl α) {j k : Nat} (d : α) (f : α → α) (h : j ≠ k) : (t.upd k d f).get j d = t.get j d := by
  simp [Tbl.upd, Tbl.get, Tbl.look_put_ne t _ h]

theorem Tbl.look_edit (t : Tbl α) {k : Nat} {v : α} {f : α → α} (h : t.look k = some v) : (t.edit k f).look k = some (f v) := by
  simp [Tbl.edit, h]

theorem Tbl.look_edit_ne (t : Tbl α) {j k : Nat} (f : α → α) (h : j ≠ k) : (t.edit k f).look j = t.look j := by
  unfold Tbl.edit
  split
  · exact Tbl.look_put_ne t _ h
  · rfl

end Sys2Proof
end

