-- ==== Sys2Proof/Laws/Compose.lean ====
section
/-! SUPPORT. How the laws of operations compose: `Law` is reflexive and transitive, holds of a record update that keeps
the promised parts, and of the two branches of a choice. -/

-- One theorem after another: side by side they need more threads than the memory limit allows.
set_option Elab.async false

namespace Sys2Proof.Laws

open Sys2Proof Sys2Proof.Machine Sys2Proof.Safety

/-- `r` has no part outside `q`. -/
def sub (r q : List Piece) : Bool := r.all fun p => q.contains p

theorem sub_mem {r q : List Piece} (h : sub r q = true) {p : Piece} (hp : p ∈ r) : p ∈ q := by
  have := List.all_eq_true.mp h p hp
  simpa using this

theorem same_refl (p : Piece) (s : State) : p.same s s := by cases p <;> rfl

theorem same_trans {p : Piece} {s t u : State} (h : p.same s t) (k : p.same t u) : p.same s u := by
  cases p <;> exact Eq.trans k h

theorem Good.refl (s : State) : Good s s :=
  ⟨id, id, fun h => ⟨h, id⟩, Nat.le_refl _, fun h => ⟨Nat.le_refl _, h⟩, Nat.le_refl _⟩

theorem Good.trans {s t u : State} (h : Good s t) (k : Good t u) : Good s u :=
  ⟨fun a => k.log (h.log a), fun a => k.mem (h.mem a),
   fun a => ⟨(k.efl (h.efl a).1).1, fun b => (k.efl (h.efl a).1).2 ((h.efl a).2 b)⟩,
   Nat.le_trans h.epoch k.epoch,
   fun a => ⟨Nat.le_trans (h.sealCnt a).1 (k.sealCnt (h.sealCnt a).2).1, (k.sealCnt (h.sealCnt a).2).2⟩,
   Nat.le_trans h.free k.free⟩

/-- What a change of the Tussock log keeps. -/
def LogLaw (l m : Log) : Prop := LogOk l → LogOk m

/-- What a change of the Bonnet array keeps. -/
def EflLaw (e f : Efl) : Prop :=
  (e.words.wf = true → f.words.wf = true) ∧ (EflOk e → EflOk f ∧ (e.level = 2 → f.level = 2))

/-- What a change of the seal counter keeps. -/
def SealLaw (a b : Nat) : Prop := a ≤ 0xffffffff → a ≤ b ∧ b ≤ 0xffffffff

theorem LogLaw.refl (l : Log) : LogLaw l l := id

theorem LogLaw.edit (l : Log) (k : Nat) (f : LogRec → LogRec) : LogLaw l { l with slots := l.slots.edit k f } :=
  fun h => ⟨h.1, h.2.1, Tbl.wf_edit h.2.2⟩

theorem SealLaw.refl (a : Nat) : SealLaw a a := fun h => ⟨Nat.le_refl _, h⟩

theorem EflLaw.refl (e : Efl) : EflLaw e e := ⟨id, fun h => ⟨h, id⟩⟩

theorem EflLaw.trans {e f g : Efl} (h : EflLaw e f) (k : EflLaw f g) : EflLaw e g :=
  ⟨fun w => k.1 (h.1 w), fun o => ⟨(k.2 (h.2 o).1).1, fun l => (k.2 (h.2 o).1).2 ((h.2 o).2 l)⟩⟩

/-- A change that touches neither the words nor the operation under way. -/
theorem EflLaw.of {e f : Efl} (hw : f.words = e.words) (hb : f.busy = e.busy) (hr : f.rdpBusy = e.rdpBusy)
    (hk : f.opKind = e.opKind) (ho : f.opWord = e.opWord) (hs : f.opSector = e.opSector) : EflLaw e f := by
  have hl : f.level = e.level := by simp only [Efl.level, hw]
  refine ⟨fun m => hw ▸ m, fun o => ⟨?_, fun l => hl.trans l⟩⟩
  unfold EflOk
  rw [hl, hb, hr, hk, ho, hs]
  exact o

/-- An update that keeps what the promises speak of keeps them. -/
theorem Good.of {s t : State} (hl : LogLaw s.log t.log) (hv : LogOk s.log → SavedOk s.nv → SavedOk t.nv)
    (he : EflLaw s.efl t.efl)
    (hn : s.nv.stgBlocks.wf = true → t.nv.stgBlocks.wf = true)
    (hm : s.evt.msixTbl.wf = true → t.evt.msixTbl.wf = true) (hx : s.flash.wf = true → t.flash.wf = true) (hk : s.key.epoch ≤ t.key.epoch)
    (hs : SealLaw s.mtr.sealCnt t.mtr.sealCnt) (hf : s.free ≤ t.free) : Good s t :=
  ⟨fun h => ⟨hl h.1, hv h.1 h.2⟩, fun h => ⟨he.1 h.1, hn h.2.1, hm h.2.2.1, hx h.2.2.2⟩, he.2, hk, hs, hf⟩

theorem Law.refl {r : List Piece} (s : State) : Law r s s := ⟨fun p _ => same_refl p s, Good.refl s⟩

theorem Law.idle {r : List Piece} (s : State) : Law r s (id s) := Law.refl s

/-- One law after another. -/
theorem Law.next {r q : List Piece} {s t u : State} (h : Law r s t) (k : Law q t u) (hq : sub q r = true) : Law r s u :=
  ⟨fun p hp => same_trans (h.same p hp) (k.same p fun m => hp (sub_mem hq m)), Good.trans h.good k.good⟩

/-- A choice, branch by branch. -/
theorem ite_cases {α : Sort _} {P : α → Prop} {c : Prop} [Decidable c] {a b : α} (h : c → P a) (k : ¬c → P b) :
    P (if c then a else b) := by
  split
  · exact h ‹_›
  · exact k ‹_›

theorem Law.ite {r : List Piece} {s t u : State} {c : Prop} [Decidable c] (h : Law r s t) (k : Law r s u) :
    Law r s (if c then t else u) := by split <;> assumption

theorem Law.foldl {α : Type} {r : List Piece} {s t : State} (l : List α) {f : State → α → State}
    (h : Law r s t) (hf : ∀ u a, Law r u (f u a)) : Law r s (l.foldl f t) := by
  induction l generalizing t with
  | nil => exact h
  | cons a l ih => exact ih (Law.next h (hf t a) (by simp [sub, List.all_eq_true]))

theorem Law.foldlSnd {α β : Type} {r : List Piece} {s : State} {p : β × State} (l : List α) {f : β × State → α → β × State}
    (h : Law r s p.2) (hf : ∀ q a, Law r q.2 (f q a).2) : Law r s (l.foldl f p).2 := by
  induction l generalizing p with
  | nil => exact h
  | cons a l ih => exact ih (Law.next h (hf p a) (by simp [sub, List.all_eq_true]))

theorem Law.foldlFst {α β : Type} {r : List Piece} {s : State} {p : State × β} (l : List α) {f : State × β → α → State × β}
    (h : Law r s p.1) (hf : ∀ q a, Law r q.1 (f q a).1) : Law r s (l.foldl f p).1 := by
  induction l generalizing p with
  | nil => exact h
  | cons a l ih => exact ih (Law.next h (hf p a) (by simp [sub, List.all_eq_true]))

theorem Law.forNats {r : List Piece} {s t : State} (l : List Nat) {f : State → Nat → State}
    (h : Law r s t) (hf : ∀ u a, Law r u (f u a)) : Law r s (forNats l t f) := Law.foldl l h hf

/-- The law of an operation that may answer a status, or a state and a value. -/
def LawP {ε β : Type} (r : List Piece) (s : State) (o : Except ε (State × β)) : Prop := ∀ t b, o = .ok (t, b) → Law r s t

theorem LawP.ok {ε β : Type} {r : List Piece} {s t : State} {b : β} (h : Law r s t) : LawP r s (.ok (t, b) : Except ε (State × β)) :=
  fun _ _ k => by cases k; exact h

theorem LawP.error {ε β : Type} {r : List Piece} {s : State} (e : ε) : LawP r s (.error e : Except ε (State × β)) :=
  fun _ _ k => nomatch k

theorem LawP.get {ε β : Type} {r : List Piece} {s t : State} {b : β} {o : Except ε (State × β)} (h : LawP r s o)
    (k : o = .ok (t, b)) : Law r s t := h t b k

theorem LawP.ite {ε β : Type} {r : List Piece} {s : State} {o p : Except ε (State × β)} {c : Prop} [Decidable c]
    (h : LawP r s o) (k : LawP r s p) : LawP r s (if c then o else p) := by split <;> assumption

/-- A record update: the unlisted parts are those of `u`. -/
theorem Law.mk' {r : List Piece} {s u : State}
    {x_now : Nat}
    {x_free : Nat}
    {x_out : List Out}
    {x_img : Option Image}
    {x_manifest : Option Manifest}
    {x_pci : Pci}
    {x_nvme : Nvme}
    {x_sqs : Tbl Sq}
    {x_cqs : Tbl Cq}
    {x_qrecs : Tbl QRec}
    {x_ctxs : Tbl Ctx}
    {x_slices : Tbl Slice}
    {x_nss : Tbl Ns}
    {x_zones : Tbl Zone}
    {x_gate : Gate}
    {x_staging : Tbl Staged}
    {x_toks : Tbl (List Tok)}
    {x_bpm : Bpm}
    {x_dma : Dma}
    {x_sward : Tbl Lane}
    {x_blocks : Tbl BInfo}
    {x_dies : Tbl Die}
    {x_flash : Tbl Codeword}
    {x_fch : Fch}
    {x_zne : Zne}
    {x_par : Par}
    {x_lat : Machine.Lat}
    {x_drc : Drc}
    {x_ecc : Ecc}
    {x_key : Key}
    {x_cas : Cas}
    {x_mtr : Mtr}
    {x_pwr : Pwr}
    {x_brm : Brm}
    {x_thm : Thm}
    {x_mon : Mon}
    {x_upd : Upd}
    {x_nv : Nv}
    {x_efl : Efl}
    {x_evt : Evt}
    {x_log : Log}
    {x_side : Side}
    (h : Law r s u)
    (h_now : x_now = u.now ∨ r.contains .now = true)
    (h_free : x_free = u.free ∨ r.contains .free = true)
    (h_out : x_out = u.out ∨ r.contains .out = true)
    (h_img : x_img = u.img ∨ r.contains .img = true)
    (h_manifest : x_manifest = u.manifest ∨ r.contains .manifest = true)
    (h_pci : x_pci = u.pci ∨ r.contains .pci = true)
    (h_nvme : x_nvme = u.nvme ∨ r.contains .nvme = true)
    (h_sqs : x_sqs = u.sqs ∨ r.contains .sqs = true)
    (h_cqs : x_cqs = u.cqs ∨ r.contains .cqs = true)
    (h_qrecs : x_qrecs = u.qrecs ∨ r.contains .qrecs = true)
    (h_ctxs : x_ctxs = u.ctxs ∨ r.contains .ctxs = true)
    (h_slices : x_slices = u.slices ∨ r.contains .slices = true)
    (h_nss : x_nss = u.nss ∨ r.contains .nss = true)
    (h_zones : x_zones = u.zones ∨ r.contains .zones = true)
    (h_gate : x_gate = u.gate ∨ r.contains .gate = true)
    (h_staging : x_staging = u.staging ∨ r.contains .staging = true)
    (h_toks : x_toks = u.toks ∨ r.contains .toks = true)
    (h_bpm : x_bpm = u.bpm ∨ r.contains .bpm = true)
    (h_dma : x_dma = u.dma ∨ r.contains .dma = true)
    (h_sward : x_sward = u.sward ∨ r.contains .sward = true)
    (h_blocks : x_blocks = u.blocks ∨ r.contains .blocks = true)
    (h_dies : x_dies = u.dies ∨ r.contains .dies = true)
    (h_flash : x_flash = u.flash ∨ r.contains .flash = true)
    (h_fch : x_fch = u.fch ∨ r.contains .fch = true)
    (h_zne : x_zne = u.zne ∨ r.contains .zne = true)
    (h_par : x_par = u.par ∨ r.contains .par = true)
    (h_lat : x_lat = u.lat ∨ r.contains .lat = true)
    (h_drc : x_drc = u.drc ∨ r.contains .drc = true)
    (h_ecc : x_ecc = u.ecc ∨ r.contains .ecc = true)
    (h_key : x_key = u.key ∨ r.contains .key = true)
    (h_cas : x_cas = u.cas ∨ r.contains .cas = true)
    (h_mtr : x_mtr = u.mtr ∨ r.contains .mtr = true)
    (h_pwr : x_pwr = u.pwr ∨ r.contains .pwr = true)
    (h_brm : x_brm = u.brm ∨ r.contains .brm = true)
    (h_thm : x_thm = u.thm ∨ r.contains .thm = true)
    (h_mon : x_mon = u.mon ∨ r.contains .mon = true)
    (h_upd : x_upd = u.upd ∨ r.contains .upd = true)
    (h_nv : x_nv = u.nv ∨ r.contains .nv = true)
    (h_efl : x_efl = u.efl ∨ r.contains .efl = true)
    (h_evt : x_evt = u.evt ∨ r.contains .evt = true)
    (h_log : x_log = u.log ∨ r.contains .log = true)
    (h_side : x_side = u.side ∨ r.contains .side = true)
    (g : Good u ⟨u.pending, x_now, x_free, x_out, x_img, x_manifest, x_pci, x_nvme, x_sqs, x_cqs, x_qrecs, x_ctxs, x_slices, x_nss, x_zones, x_gate, x_staging, x_toks, x_bpm, x_dma, x_sward, x_blocks, x_dies, x_flash, x_fch, x_zne, x_par, x_lat, x_drc, x_ecc, x_key, x_cas, x_mtr, x_pwr, x_brm, x_thm, x_mon, x_upd, x_nv, x_efl, x_evt, x_log, x_side⟩) :
    Law r s ⟨u.pending, x_now, x_free, x_out, x_img, x_manifest, x_pci, x_nvme, x_sqs, x_cqs, x_qrecs, x_ctxs, x_slices, x_nss, x_zones, x_gate, x_staging, x_toks, x_bpm, x_dma, x_sward, x_blocks, x_dies, x_flash, x_fch, x_zne, x_par, x_lat, x_drc, x_ecc, x_key, x_cas, x_mtr, x_pwr, x_brm, x_thm, x_mon, x_upd, x_nv, x_efl, x_evt, x_log, x_side⟩ := by
  refine ⟨fun p hp => same_trans (h.same p hp) ?_, Good.trans h.good g⟩
  have e : ∀ {q : Piece}, r.contains q = true → q ∈ r := fun h => by simpa using h
  cases p
  · rfl
  · exact h_now.resolve_right fun k => hp (e k)
  · exact h_free.resolve_right fun k => hp (e k)
  · exact h_out.resolve_right fun k => hp (e k)
  · exact h_img.resolve_right fun k => hp (e k)
  · exact h_manifest.resolve_right fun k => hp (e k)
  · exact h_pci.resolve_right fun k => hp (e k)
  · exact h_nvme.resolve_right fun k => hp (e k)
  · exact h_sqs.resolve_right fun k => hp (e k)
  · exact h_cqs.resolve_right fun k => hp (e k)
  · exact h_qrecs.resolve_right fun k => hp (e k)
  · exact h_ctxs.resolve_right fun k => hp (e k)
  · exact h_slices.resolve_right fun k => hp (e k)
  · exact h_nss.resolve_right fun k => hp (e k)
  · exact h_zones.resolve_right fun k => hp (e k)
  · exact h_gate.resolve_right fun k => hp (e k)
  · exact h_staging.resolve_right fun k => hp (e k)
  · exact h_toks.resolve_right fun k => hp (e k)
  · exact h_bpm.resolve_right fun k => hp (e k)
  · exact h_dma.resolve_right fun k => hp (e k)
  · exact h_sward.resolve_right fun k => hp (e k)
  · exact h_blocks.resolve_right fun k => hp (e k)
  · exact h_dies.resolve_right fun k => hp (e k)
  · exact h_flash.resolve_right fun k => hp (e k)
  · exact h_fch.resolve_right fun k => hp (e k)
  · exact h_zne.resolve_right fun k => hp (e k)
  · exact h_par.resolve_right fun k => hp (e k)
  · exact h_lat.resolve_right fun k => hp (e k)
  · exact h_drc.resolve_right fun k => hp (e k)
  · exact h_ecc.resolve_right fun k => hp (e k)
  · exact h_key.resolve_right fun k => hp (e k)
  · exact h_cas.resolve_right fun k => hp (e k)
  · exact h_mtr.resolve_right fun k => hp (e k)
  · exact h_pwr.resolve_right fun k => hp (e k)
  · exact h_brm.resolve_right fun k => hp (e k)
  · exact h_thm.resolve_right fun k => hp (e k)
  · exact h_mon.resolve_right fun k => hp (e k)
  · exact h_upd.resolve_right fun k => hp (e k)
  · exact h_nv.resolve_right fun k => hp (e k)
  · exact h_efl.resolve_right fun k => hp (e k)
  · exact h_evt.resolve_right fun k => hp (e k)
  · exact h_log.resolve_right fun k => hp (e k)
  · exact h_side.resolve_right fun k => hp (e k)

theorem sub_refl (r : List Piece) : sub r r = true := by simp [sub, List.all_eq_true]

theorem sub_trans {r q p : List Piece} (h : sub r q = true) (k : sub q p = true) : sub r p = true := by
  refine List.all_eq_true.mpr fun x hx => ?_
  simpa using sub_mem k (sub_mem h hx)

theorem sub_contains {r q : List Piece} (h : sub r q = true) {p : Piece} (hp : r.contains p = true) : q.contains p = true := by
  have : p ∈ r := by simpa using hp
  simpa using sub_mem h this

/-- The law of a pair's state. -/
theorem Law.snd {α : Type} {r : List Piece} {s t : State} {p : α × State} {a : α} (h : Law r s p.2) (k : p = (a, t)) :
    Law r s t := by subst k; exact h

theorem Law.fst {α : Type} {r : List Piece} {s t : State} {p : State × α} {a : α} (h : Law r s p.1) (k : p = (t, a)) :
    Law r s t := by subst k; exact h

/-- The law of an outcome: a next state, under the law. -/
def LawO (r : List Piece) (s : State) (o : Host.Outcome State Fault Refusal) : Prop := ∃ t, o = .next t ∧ Law r s t

theorem Law.iteSnd {α : Type} {r : List Piece} {s : State} {c : Prop} [Decidable c] {p q : α × State} (h : Law r s p.2)
    (k : Law r s q.2) : Law r s (if c then p else q).2 := by split <;> assumption

theorem Law.iteFst {α : Type} {r : List Piece} {s : State} {c : Prop} [Decidable c] {p q : State × α} (h : Law r s p.1)
    (k : Law r s q.1) : Law r s (if c then p else q).1 := by split <;> assumption

theorem LawO.next {r : List Piece} {s t : State} (h : Law r s t) : LawO r s (.next t) := ⟨t, rfl, h⟩

theorem LawO.ite {r : List Piece} {s : State} {o p : Host.Outcome State Fault Refusal} {c : Prop} [Decidable c]
    (h : LawO r s o) (k : LawO r s p) : LawO r s (if c then o else p) := by split <;> assumption

theorem LawO.mono {r q : List Piece} {s : State} {o : Host.Outcome State Fault Refusal} (h : LawO q s o)
    (hq : sub q r = true) : LawO r s o := by
  obtain ⟨t, e, l⟩ := h
  exact ⟨t, e, Law.next (Law.refl _) l hq⟩

/-- A row run inside another. -/
theorem LawO.after {r q : List Piece} {s u v : State} {o : Host.Outcome State Fault Refusal} (h : Law r s u) (k : LawO q u o)
    (hq : sub q r = true) : Law r s (v.after o) := by
  obtain ⟨t, e, l⟩ := k
  subst e
  exact Law.next h l hq

theorem LawO.get {r : List Piece} {s t : State} {o : Host.Outcome State Fault Refusal} (h : LawO r s o) (k : o = .next t) :
    Law r s t := by
  obtain ⟨u, e, l⟩ := h
  rw [k] at e
  cases e
  exact l

/-- The law of an operation that may not apply. -/
def LawM (r : List Piece) (s : State) (o : Option State) : Prop := ∀ t, o = some t → Law r s t

theorem LawM.some {r : List Piece} {s t : State} (h : Law r s t) : LawM r s (.some t) := fun _ k => by cases k; exact h

theorem LawM.none {r : List Piece} {s : State} : LawM r s .none := fun _ k => nomatch k

theorem LawM.get {r : List Piece} {s t : State} {o : Option State} (h : LawM r s o) (k : o = .some t) : Law r s t := h t k

theorem LawM.getD {r : List Piece} {s : State} {o : Option State} (h : LawM r s o) : Law r s (o.getD s) := by
  cases o
  · exact Law.refl s
  · exact h _ rfl

theorem LawM.mono {r q : List Piece} {s : State} {o : Option State} (h : LawM q s o) (hq : sub q r = true) : LawM r s o :=
  fun t k => Law.next (Law.refl _) (h t k) hq

theorem LawM.ite {r : List Piece} {s : State} {o p : Option State} {c : Prop} [Decidable c] (h : LawM r s o)
    (k : LawM r s p) : LawM r s (if c then o else p) := by split <;> assumption

/-- The law of an operation that may answer a status instead. -/
def LawE {ε : Type} (r : List Piece) (s : State) (o : Except ε State) : Prop := ∀ t, o = .ok t → Law r s t

theorem LawE.ok {ε : Type} {r : List Piece} {s t : State} (h : Law r s t) : LawE r s (.ok t : Except ε State) :=
  fun _ k => by cases k; exact h

theorem LawE.error {ε : Type} {r : List Piece} {s : State} (e : ε) : LawE r s (.error e) := fun _ k => nomatch k

theorem LawE.get {ε : Type} {r : List Piece} {s t : State} {o : Except ε State} (h : LawE r s o) (k : o = .ok t) : Law r s t := h t k

theorem LawE.mono {ε : Type} {r q : List Piece} {s : State} {o : Except ε State} (h : LawE q s o) (hq : sub q r = true) :
    LawE r s o := fun t k => Law.next (Law.refl _) (h t k) hq

theorem LawE.ite {ε : Type} {r : List Piece} {s : State} {o p : Except ε State} {c : Prop} [Decidable c]
    (h : LawE r s o) (k : LawE r s p) : LawE r s (if c then o else p) := by split <;> assumption

/-- A record update: the unlisted parts are those of `u`, and what the promises speak of is kept. -/
theorem Law.mk {r : List Piece} {s u : State}
    {x_now : Nat}
    {x_free : Nat}
    {x_out : List Out}
    {x_img : Option Image}
    {x_manifest : Option Manifest}
    {x_pci : Pci}
    {x_nvme : Nvme}
    {x_sqs : Tbl Sq}
    {x_cqs : Tbl Cq}
    {x_qrecs : Tbl QRec}
    {x_ctxs : Tbl Ctx}
    {x_slices : Tbl Slice}
    {x_nss : Tbl Ns}
    {x_zones : Tbl Zone}
    {x_gate : Gate}
    {x_staging : Tbl Staged}
    {x_toks : Tbl (List Tok)}
    {x_bpm : Bpm}
    {x_dma : Dma}
    {x_sward : Tbl Lane}
    {x_blocks : Tbl BInfo}
    {x_dies : Tbl Die}
    {x_flash : Tbl Codeword}
    {x_fch : Fch}
    {x_zne : Zne}
    {x_par : Par}
    {x_lat : Machine.Lat}
    {x_drc : Drc}
    {x_ecc : Ecc}
    {x_key : Key}
    {x_cas : Cas}
    {x_mtr : Mtr}
    {x_pwr : Pwr}
    {x_brm : Brm}
    {x_thm : Thm}
    {x_mon : Mon}
    {x_upd : Upd}
    {x_nv : Nv}
    {x_efl : Efl}
    {x_evt : Evt}
    {x_log : Log}
    {x_side : Side}
    (h : Law r s u)
    (h_now : x_now = u.now ∨ r.contains .now = true := by
      first | (apply Or.inl; with_reducible rfl) | exact Or.inr (by first | with_reducible rfl | with_unfolding_all rfl) | exact Or.inr (sub_contains (by assumption) (by first | with_reducible rfl | with_unfolding_all rfl)))
    (h_free : x_free = u.free ∨ r.contains .free = true := by
      first | (apply Or.inl; with_reducible rfl) | exact Or.inr (by first | with_reducible rfl | with_unfolding_all rfl) | exact Or.inr (sub_contains (by assumption) (by first | with_reducible rfl | with_unfolding_all rfl)))
    (h_out : x_out = u.out ∨ r.contains .out = true := by
      first | (apply Or.inl; with_reducible rfl) | exact Or.inr (by first | with_reducible rfl | with_unfolding_all rfl) | exact Or.inr (sub_contains (by assumption) (by first | with_reducible rfl | with_unfolding_all rfl)))
    (h_img : x_img = u.img ∨ r.contains .img = true := by
      first | (apply Or.inl; with_reducible rfl) | exact Or.inr (by first | with_reducible rfl | with_unfolding_all rfl) | exact Or.inr (sub_contains (by assumption) (by first | with_reducible rfl | with_unfolding_all rfl)))
    (h_manifest : x_manifest = u.manifest ∨ r.contains .manifest = true := by
      first | (apply Or.inl; with_reducible rfl) | exact Or.inr (by first | with_reducible rfl | with_unfolding_all rfl) | exact Or.inr (sub_contains (by assumption) (by first | with_reducible rfl | with_unfolding_all rfl)))
    (h_pci : x_pci = u.pci ∨ r.contains .pci = true := by
      first | (apply Or.inl; with_reducible rfl) | exact Or.inr (by first | with_reducible rfl | with_unfolding_all rfl) | exact Or.inr (sub_contains (by assumption) (by first | with_reducible rfl | with_unfolding_all rfl)))
    (h_nvme : x_nvme = u.nvme ∨ r.contains .nvme = true := by
      first | (apply Or.inl; with_reducible rfl) | exact Or.inr (by first | with_reducible rfl | with_unfolding_all rfl) | exact Or.inr (sub_contains (by assumption) (by first | with_reducible rfl | with_unfolding_all rfl)))
    (h_sqs : x_sqs = u.sqs ∨ r.contains .sqs = true := by
      first | (apply Or.inl; with_reducible rfl) | exact Or.inr (by first | with_reducible rfl | with_unfolding_all rfl) | exact Or.inr (sub_contains (by assumption) (by first | with_reducible rfl | with_unfolding_all rfl)))
    (h_cqs : x_cqs = u.cqs ∨ r.contains .cqs = true := by
      first | (apply Or.inl; with_reducible rfl) | exact Or.inr (by first | with_reducible rfl | with_unfolding_all rfl) | exact Or.inr (sub_contains (by assumption) (by first | with_reducible rfl | with_unfolding_all rfl)))
    (h_qrecs : x_qrecs = u.qrecs ∨ r.contains .qrecs = true := by
      first | (apply Or.inl; with_reducible rfl) | exact Or.inr (by first | with_reducible rfl | with_unfolding_all rfl) | exact Or.inr (sub_contains (by assumption) (by first | with_reducible rfl | with_unfolding_all rfl)))
    (h_ctxs : x_ctxs = u.ctxs ∨ r.contains .ctxs = true := by
      first | (apply Or.inl; with_reducible rfl) | exact Or.inr (by first | with_reducible rfl | with_unfolding_all rfl) | exact Or.inr (sub_contains (by assumption) (by first | with_reducible rfl | with_unfolding_all rfl)))
    (h_slices : x_slices = u.slices ∨ r.contains .slices = true := by
      first | (apply Or.inl; with_reducible rfl) | exact Or.inr (by first | with_reducible rfl | with_unfolding_all rfl) | exact Or.inr (sub_contains (by assumption) (by first | with_reducible rfl | with_unfolding_all rfl)))
    (h_nss : x_nss = u.nss ∨ r.contains .nss = true := by
      first | (apply Or.inl; with_reducible rfl) | exact Or.inr (by first | with_reducible rfl | with_unfolding_all rfl) | exact Or.inr (sub_contains (by assumption) (by first | with_reducible rfl | with_unfolding_all rfl)))
    (h_zones : x_zones = u.zones ∨ r.contains .zones = true := by
      first | (apply Or.inl; with_reducible rfl) | exact Or.inr (by first | with_reducible rfl | with_unfolding_all rfl) | exact Or.inr (sub_contains (by assumption) (by first | with_reducible rfl | with_unfolding_all rfl)))
    (h_gate : x_gate = u.gate ∨ r.contains .gate = true := by
      first | (apply Or.inl; with_reducible rfl) | exact Or.inr (by first | with_reducible rfl | with_unfolding_all rfl) | exact Or.inr (sub_contains (by assumption) (by first | with_reducible rfl | with_unfolding_all rfl)))
    (h_staging : x_staging = u.staging ∨ r.contains .staging = true := by
      first | (apply Or.inl; with_reducible rfl) | exact Or.inr (by first | with_reducible rfl | with_unfolding_all rfl) | exact Or.inr (sub_contains (by assumption) (by first | with_reducible rfl | with_unfolding_all rfl)))
    (h_toks : x_toks = u.toks ∨ r.contains .toks = true := by
      first | (apply Or.inl; with_reducible rfl) | exact Or.inr (by first | with_reducible rfl | with_unfolding_all rfl) | exact Or.inr (sub_contains (by assumption) (by first | with_reducible rfl | with_unfolding_all rfl)))
    (h_bpm : x_bpm = u.bpm ∨ r.contains .bpm = true := by
      first | (apply Or.inl; with_reducible rfl) | exact Or.inr (by first | with_reducible rfl | with_unfolding_all rfl) | exact Or.inr (sub_contains (by assumption) (by first | with_reducible rfl | with_unfolding_all rfl)))
    (h_dma : x_dma = u.dma ∨ r.contains .dma = true := by
      first | (apply Or.inl; with_reducible rfl) | exact Or.inr (by first | with_reducible rfl | with_unfolding_all rfl) | exact Or.inr (sub_contains (by assumption) (by first | with_reducible rfl | with_unfolding_all rfl)))
    (h_sward : x_sward = u.sward ∨ r.contains .sward = true := by
      first | (apply Or.inl; with_reducible rfl) | exact Or.inr (by first | with_reducible rfl | with_unfolding_all rfl) | exact Or.inr (sub_contains (by assumption) (by first | with_reducible rfl | with_unfolding_all rfl)))
    (h_blocks : x_blocks = u.blocks ∨ r.contains .blocks = true := by
      first | (apply Or.inl; with_reducible rfl) | exact Or.inr (by first | with_reducible rfl | with_unfolding_all rfl) | exact Or.inr (sub_contains (by assumption) (by first | with_reducible rfl | with_unfolding_all rfl)))
    (h_dies : x_dies = u.dies ∨ r.contains .dies = true := by
      first | (apply Or.inl; with_reducible rfl) | exact Or.inr (by first | with_reducible rfl | with_unfolding_all rfl) | exact Or.inr (sub_contains (by assumption) (by first | with_reducible rfl | with_unfolding_all rfl)))
    (h_flash : x_flash = u.flash ∨ r.contains .flash = true := by
      first | (apply Or.inl; with_reducible rfl) | exact Or.inr (by first | with_reducible rfl | with_unfolding_all rfl) | exact Or.inr (sub_contains (by assumption) (by first | with_reducible rfl | with_unfolding_all rfl)))
    (h_fch : x_fch = u.fch ∨ r.contains .fch = true := by
      first | (apply Or.inl; with_reducible rfl) | exact Or.inr (by first | with_reducible rfl | with_unfolding_all rfl) | exact Or.inr (sub_contains (by assumption) (by first | with_reducible rfl | with_unfolding_all rfl)))
    (h_zne : x_zne = u.zne ∨ r.contains .zne = true := by
      first | (apply Or.inl; with_reducible rfl) | exact Or.inr (by first | with_reducible rfl | with_unfolding_all rfl) | exact Or.inr (sub_contains (by assumption) (by first | with_reducible rfl | with_unfolding_all rfl)))
    (h_par : x_par = u.par ∨ r.contains .par = true := by
      first | (apply Or.inl; with_reducible rfl) | exact Or.inr (by first | with_reducible rfl | with_unfolding_all rfl) | exact Or.inr (sub_contains (by assumption) (by first | with_reducible rfl | with_unfolding_all rfl)))
    (h_lat : x_lat = u.lat ∨ r.contains .lat = true := by
      first | (apply Or.inl; with_reducible rfl) | exact Or.inr (by first | with_reducible rfl | with_unfolding_all rfl) | exact Or.inr (sub_contains (by assumption) (by first | with_reducible rfl | with_unfolding_all rfl)))
    (h_drc : x_drc = u.drc ∨ r.contains .drc = true := by
      first | (apply Or.inl; with_reducible rfl) | exact Or.inr (by first | with_reducible rfl | with_unfolding_all rfl) | exact Or.inr (sub_contains (by assumption) (by first | with_reducible rfl | with_unfolding_all rfl)))
    (h_ecc : x_ecc = u.ecc ∨ r.contains .ecc = true := by
      first | (apply Or.inl; with_reducible rfl) | exact Or.inr (by first | with_reducible rfl | with_unfolding_all rfl) | exact Or.inr (sub_contains (by assumption) (by first | with_reducible rfl | with_unfolding_all rfl)))
    (h_key : x_key = u.key ∨ r.contains .key = true := by
      first | (apply Or.inl; with_reducible rfl) | exact Or.inr (by first | with_reducible rfl | with_unfolding_all rfl) | exact Or.inr (sub_contains (by assumption) (by first | with_reducible rfl | with_unfolding_all rfl)))
    (h_cas : x_cas = u.cas ∨ r.contains .cas = true := by
      first | (apply Or.inl; with_reducible rfl) | exact Or.inr (by first | with_reducible rfl | with_unfolding_all rfl) | exact Or.inr (sub_contains (by assumption) (by first | with_reducible rfl | with_unfolding_all rfl)))
    (h_mtr : x_mtr = u.mtr ∨ r.contains .mtr = true := by
      first | (apply Or.inl; with_reducible rfl) | exact Or.inr (by first | with_reducible rfl | with_unfolding_all rfl) | exact Or.inr (sub_contains (by assumption) (by first | with_reducible rfl | with_unfolding_all rfl)))
    (h_pwr : x_pwr = u.pwr ∨ r.contains .pwr = true := by
      first | (apply Or.inl; with_reducible rfl) | exact Or.inr (by first | with_reducible rfl | with_unfolding_all rfl) | exact Or.inr (sub_contains (by assumption) (by first | with_reducible rfl | with_unfolding_all rfl)))
    (h_brm : x_brm = u.brm ∨ r.contains .brm = true := by
      first | (apply Or.inl; with_reducible rfl) | exact Or.inr (by first | with_reducible rfl | with_unfolding_all rfl) | exact Or.inr (sub_contains (by assumption) (by first | with_reducible rfl | with_unfolding_all rfl)))
    (h_thm : x_thm = u.thm ∨ r.contains .thm = true := by
      first | (apply Or.inl; with_reducible rfl) | exact Or.inr (by first | with_reducible rfl | with_unfolding_all rfl) | exact Or.inr (sub_contains (by assumption) (by first | with_reducible rfl | with_unfolding_all rfl)))
    (h_mon : x_mon = u.mon ∨ r.contains .mon = true := by
      first | (apply Or.inl; with_reducible rfl) | exact Or.inr (by first | with_reducible rfl | with_unfolding_all rfl) | exact Or.inr (sub_contains (by assumption) (by first | with_reducible rfl | with_unfolding_all rfl)))
    (h_upd : x_upd = u.upd ∨ r.contains .upd = true := by
      first | (apply Or.inl; with_reducible rfl) | exact Or.inr (by first | with_reducible rfl | with_unfolding_all rfl) | exact Or.inr (sub_contains (by assumption) (by first | with_reducible rfl | with_unfolding_all rfl)))
    (h_nv : x_nv = u.nv ∨ r.contains .nv = true := by
      first | (apply Or.inl; with_reducible rfl) | exact Or.inr (by first | with_reducible rfl | with_unfolding_all rfl) | exact Or.inr (sub_contains (by assumption) (by first | with_reducible rfl | with_unfolding_all rfl)))
    (h_efl : x_efl = u.efl ∨ r.contains .efl = true := by
      first | (apply Or.inl; with_reducible rfl) | exact Or.inr (by first | with_reducible rfl | with_unfolding_all rfl) | exact Or.inr (sub_contains (by assumption) (by first | with_reducible rfl | with_unfolding_all rfl)))
    (h_evt : x_evt = u.evt ∨ r.contains .evt = true := by
      first | (apply Or.inl; with_reducible rfl) | exact Or.inr (by first | with_reducible rfl | with_unfolding_all rfl) | exact Or.inr (sub_contains (by assumption) (by first | with_reducible rfl | with_unfolding_all rfl)))
    (h_log : x_log = u.log ∨ r.contains .log = true := by
      first | (apply Or.inl; with_reducible rfl) | exact Or.inr (by first | with_reducible rfl | with_unfolding_all rfl) | exact Or.inr (sub_contains (by assumption) (by first | with_reducible rfl | with_unfolding_all rfl)))
    (h_side : x_side = u.side ∨ r.contains .side = true := by
      first | (apply Or.inl; with_reducible rfl) | exact Or.inr (by first | with_reducible rfl | with_unfolding_all rfl) | exact Or.inr (sub_contains (by assumption) (by first | with_reducible rfl | with_unfolding_all rfl)))
    (hl : LogLaw u.log x_log := by with_unfolding_all first | exact LogLaw.refl _ | exact LogLaw.edit _ _ _)
    (hv : LogOk u.log → SavedOk u.nv → SavedOk x_nv := by
      with_unfolding_all first | exact fun _ h l k => h l k | exact fun a _ _ k => Option.some.inj k ▸ a | (intro _ _ _ k; cases k))
    (he : EflLaw u.efl x_efl := by with_unfolding_all exact EflLaw.refl _)
    (hn : u.nv.stgBlocks.wf = true → x_nv.stgBlocks.wf = true := by
      with_unfolding_all first | exact fun h => h | exact fun _ => rfl | exact fun h => Tbl.wf_put h)
    (hm : u.evt.msixTbl.wf = true → x_evt.msixTbl.wf = true := by
      with_unfolding_all first | exact fun h => h | exact fun _ => rfl | exact fun h => Tbl.wf_put h)
    (hx : u.flash.wf = true → x_flash.wf = true := by with_unfolding_all first | exact fun h => h | exact fun h => Tbl.wf_filter h)
    (hk : u.key.epoch ≤ x_key.epoch := by with_unfolding_all first | exact Nat.le_refl _ | exact Nat.le_add_right _ _)
    (hs : SealLaw u.mtr.sealCnt x_mtr.sealCnt := by with_unfolding_all exact SealLaw.refl _)
    (hf : u.free ≤ x_free := by with_unfolding_all first | exact Nat.le_refl _ | exact Nat.le_add_right _ _) :
    Law r s ⟨u.pending, x_now, x_free, x_out, x_img, x_manifest, x_pci, x_nvme, x_sqs, x_cqs, x_qrecs, x_ctxs, x_slices, x_nss, x_zones, x_gate, x_staging, x_toks, x_bpm, x_dma, x_sward, x_blocks, x_dies, x_flash, x_fch, x_zne, x_par, x_lat, x_drc, x_ecc, x_key, x_cas, x_mtr, x_pwr, x_brm, x_thm, x_mon, x_upd, x_nv, x_efl, x_evt, x_log, x_side⟩ :=
  Law.mk' h h_now h_free h_out h_img h_manifest h_pci h_nvme h_sqs h_cqs h_qrecs h_ctxs h_slices h_nss h_zones h_gate h_staging h_toks h_bpm h_dma h_sward h_blocks h_dies h_flash h_fch h_zne h_par h_lat h_drc h_ecc h_key h_cas h_mtr h_pwr h_brm h_thm h_mon h_upd h_nv h_efl h_evt h_log h_side (Good.of hl hv he hn hm hx hk hs hf)

end Sys2Proof.Laws
end

