-- ==== Sys2Proof/Laws/Admit.lean ====
section
/-! SUPPORT. What the gate does with an entry whose turn it is: the body of its row runs on a stamped context, and its end
leaves the other contexts alone. -/

-- One theorem after another: side by side they need more threads than the memory limit allows.
set_option Elab.async false

namespace Sys2Proof.Laws

open Sys2Proof Sys2Proof.Machine Sys2Proof.Safety

theorem not_exhausted {s : State} (h : s.canStamp = true) : s.exhausted = false := by
  unfold State.canStamp at h
  revert h
  cases s.exhausted <;> simp

/-- An admin entry whose turn it is runs the body of its row. -/
theorem admitAdmin_body {s : State} {c : Nat} {x : Ctx} (h : AdminTurn s c x) {row : SqEntry → Bool} (hr : row x.e = true)
    (ho : adminOpcode x.e.opc = true) (body : State → Ctx → State) : s.admitAdmin c row body = body s x := by
  have hp := h.plain.2
  unfold State.admitAdmin
  rw [h.here]
  simp [h.admin, hr, h.turn, not_exhausted h.stamp, h.fresh.1, ho, h.plain.1, h.stamp, Nat.not_le.mpr hp]

/-- An I/O entry whose turn it is and that passes every check is charged and enters the commit order. -/
theorem admitIo_body {s : State} {c : Nat} {x : Ctx} {ranges : List DsmRange} (h : IoTurn s c x ranges)
    {row : SqEntry → Bool} (hr : row x.e = true) (ho : ioOpcode x.e.opc = true) (kind : EKind)
    (hs : (s.ioEntry c x kind ranges).scopes ≠ []) :
    s.admitIo c row kind ranges = (s.charge c x).enter (s.ioEntry c x kind ranges) := by
  unfold State.admitIo
  rw [h.here]
  simp only [hr, h.io, h.turn, not_exhausted h.stamp, h.fresh.1, h.owner, ho, h.checks, h.rotate, h.room, h.stamp, hs,
    Bool.true_or, Bool.not_true, Bool.or_self, Bool.false_eq_true, if_false, decide_false]

/-- A success freezes no queue. -/
theorem ok_not_freezes : stOk.freezes = false := by decide

@[simp] theorem stampTo_ctxs (s : State) (n : Nat) : (s.stampTo n).ctxs = s.ctxs := rfl
@[simp] theorem stampTo_next (s : State) (n : Nat) : (s.stampTo n).gate.next = n := rfl
@[simp] theorem drawStamp_ctxs (s : State) : s.drawStamp.ctxs = s.ctxs := rfl
@[simp] theorem drawStamp_next (s : State) : s.drawStamp.gate.next = s.gate.next + 1 := rfl
@[simp] theorem ctxEdit_ctxs (s : State) (c : Nat) (f : Ctx → Ctx) : (s.ctxEdit c f).ctxs = s.ctxs.edit c f := rfl
@[simp] theorem stampCtx_ctxs (s : State) (c : Nat) : (s.stampCtx c).ctxs =
    s.ctxs.edit c fun y => { y with phase := .stamped, stamped := true, stamp := s.gate.next } := rfl
@[simp] theorem stampCtx_next (s : State) (c : Nat) : (s.stampCtx c).gate.next = s.gate.next + 1 := rfl
@[simp] theorem qFreeze_ctxs (s : State) (q : Nat) (st : Status) : (s.qFreeze q st).ctxs = s.ctxs := by
  unfold State.qFreeze
  split <;> rfl

/-- What `finish` leaves in the context of a command that is not complete. -/
theorem finish_ctxs {s : State} {c : Nat} {x : Ctx} (h : s.ctxs.look c = some x) (hp : x.phase ≠ .done) (st : Status)
    (dw0 dw1 : Dword) (k : Nat) :
    (s.finish c st dw0 dw1 k).ctxs =
      s.ctxs.put c { x with
        phase := .done, status := some st, dw0 := dw0, dw1 := dw1, check := k
        froze := st.freezes && s.qStrict x.q && !s.qFrozen x.q && !x.discard } := by
  unfold State.finish
  rw [h]
  simp only [hp, if_false]
  split <;> simp

theorem finish_fails {s : State} {c : Nat} {x : Ctx} (h : s.ctxs.look c = some x) (hp : x.phase ≠ .done) (st : Status)
    (dw0 dw1 : Dword) (k : Nat) : Fails (s.finish c st dw0 dw1 k) c st :=
  ⟨_, by rw [finish_ctxs h hp, Tbl.look_put], rfl, rfl⟩

theorem finish_others {s : State} (c : Nat) (st : Status) (dw0 dw1 : Dword) (k : Nat) :
    OthersSame s (s.finish c st dw0 dw1 k) c := by
  intro j hj
  unfold State.finish
  split
  · rfl
  · split
    · rfl
    · dsimp only
      split
      · exact Tbl.look_put_ne _ _ hj
      · rw [qFreeze_ctxs]
        exact Tbl.look_put_ne _ _ hj

/-- A completion with a stamp, on a state whose gate and contexts are those of `s`. -/
theorem adminDone_ends {s u : State} {c : Nat} {x : Ctx} (h : s.ctxs.look c = some x) (hc : u.ctxs = s.ctxs)
    (hg : u.gate.next = s.gate.next) (st : Status) (dw0 : Dword) : Ends s (u.adminDone c st dw0) c st dw0 := by
  have e : (u.stampCtx c).ctxs.look c = some { x with phase := .stamped, stamped := true, stamp := u.gate.next } := by
    rw [stampCtx_ctxs, hc]
    exact Tbl.look_edit _ h
  unfold State.adminDone
  exact ⟨_, by rw [finish_ctxs e (by simp), Tbl.look_put], rfl, rfl, rfl, rfl, hg⟩

theorem adminDone_others {s u : State} (c : Nat) (hc : u.ctxs = s.ctxs) (st : Status) (dw0 : Dword) :
    OthersSame s (u.adminDone c st dw0) c := by
  intro j hj
  unfold State.adminDone
  rw [finish_others c st dw0 0 0 j hj, stampCtx_ctxs, hc]
  exact Tbl.look_edit_ne _ _ hj

theorem stampCtx_holds {s : State} {c : Nat} {x : Ctx} (h : s.ctxs.look c = some x) : Holds s (s.stampCtx c) c :=
  ⟨_, by rw [stampCtx_ctxs]; exact Tbl.look_edit _ h, rfl, rfl, rfl⟩

/-! ### Frames of a success -/

theorem Same.refl (r : List Piece) (s : State) : Same r s s := by
  intro p _
  cases p <;> rfl

theorem Same.trans {r q : List Piece} {s t u : State} (h : Same r s t) (g : Same q t u) : Same (r ++ q) s u := by
  intro p hp
  rw [List.mem_append, not_or] at hp
  have a := h p hp.1
  have b := g p hp.2
  cases p <;> exact Eq.trans b a

theorem Same.mono {r q : List Piece} {s t : State} (h : Same r s t) (hs : sub r q = true) : Same q s t := by
  intro p hp
  refine h p fun m => hp ?_
  exact sub_mem hs m

/-- A success changes the command's own context only. -/
theorem finish_ok_same (s : State) (c : Nat) (dw0 dw1 : Dword) (k : Nat) : Same [.ctxs] s (s.finish c stOk dw0 dw1 k) := by
  unfold State.finish
  split
  · exact Same.refl _ _
  · split
    · exact Same.refl _ _
    · dsimp only
      split
      · intro p hp
        cases p <;> first | rfl | simp at hp
      · unfold State.qFreeze
        rw [ok_not_freezes]
        intro p hp
        cases p <;> first | rfl | simp at hp

theorem stampCtx_same (s : State) (c : Nat) : Same [.ctxs, .gate, .dma] s (s.stampCtx c) := by
  intro p hp
  cases p <;> first | rfl | simp at hp

/-- A stamped success changes the gate, its checkpoint fence and the command's own context. -/
theorem adminDone_same (s : State) (c : Nat) (dw0 : Dword) : Same [.ctxs, .gate, .dma] s (s.adminDone c stOk dw0) := by
  unfold State.adminDone
  exact Same.mono (Same.trans (stampCtx_same s c) (finish_ok_same _ c dw0 0 0)) (by decide)

/-- A command that its row performs on `u` and then completes. -/
theorem adminDone_done {s u : State} {c : Nat} {x : Ctx} (h : s.ctxs.look c = some x) (hc : u.ctxs = s.ctxs)
    (hg : u.gate.next = s.gate.next) (dw0 : Dword) : Done s (u.adminDone c stOk dw0) c dw0 :=
  ⟨adminDone_ends h hc hg stOk dw0, adminDone_others c hc stOk dw0⟩

/-- The success of a command whose stamp was drawn before. -/
theorem finish_done {s u : State} {c : Nat} {z : Ctx} (h : u.ctxs.look c = some z) (hp : z.phase ≠ .done) (h1 : z.stamped = true)
    (h2 : z.stamp = s.gate.next) (ho : ∀ k, k ≠ c → u.ctxs.look k = s.ctxs.look k) (dw0 : Dword) :
    Done s (u.finish c stOk dw0) c dw0 :=
  ⟨⟨_, (congrArg (Tbl.look · c) (finish_ctxs h hp stOk dw0 0 0)).trans (Tbl.look_put ..), rfl, rfl, rfl, h1, h2⟩,
    fun k hk => (finish_others c stOk dw0 0 0 k hk).trans (ho k hk)⟩

/-- What a stamp leaves in the context that drew it. -/
theorem stampCtx_look {s : State} {c : Nat} {x : Ctx} (h : s.ctxs.look c = some x) :
    (s.stampCtx c).ctxs.look c = some { x with phase := .stamped, stamped := true, stamp := s.gate.next } := by
  rw [stampCtx_ctxs]
  exact Tbl.look_edit _ h

theorem stampCtx_others (s : State) (c : Nat) : OthersSame s (s.stampCtx c) c := by
  intro k hk
  rw [stampCtx_ctxs]
  exact Tbl.look_edit_ne _ _ hk

/-- Entering the commit order stamps the command's own context. -/
theorem enter_look {s u : State} {e : Entry} {x : Ctx} (h : s.ctxs.look e.ctx = some x) (hc : u.ctxs = s.ctxs) :
    (u.enter e).ctxs.look e.ctx = some { x with
      phase := .stamped, stamped := true, stamp := u.gate.next, cls := u.classOf (qOwner x.q), weight := u.weightOf (qOwner x.q) } := by
  unfold State.enter
  rw [ctxEdit_ctxs]
  dsimp only
  rw [drawStamp_ctxs, hc]
  exact Tbl.look_edit _ h

theorem enter_others (s : State) (e : Entry) : OthersSame s (s.enter e) e.ctx := by
  intro k hk
  unfold State.enter
  rw [ctxEdit_ctxs]
  exact Tbl.look_edit_ne _ _ hk

theorem enter_same (s : State) (e : Entry) : Same [.ctxs, .gate, .dma] s (s.enter e) := by
  intro p hp
  cases p <;> first | rfl | simp at hp

@[simp] theorem enter_entries (s : State) (e : Entry) : (s.enter e).gate.entries = s.gate.entries.put s.gate.next e := rfl

/-- A queue entry's command holds its stamp. -/
theorem enter_holds {s u : State} {e : Entry} {x : Ctx} (h : s.ctxs.look e.ctx = some x) (hc : u.ctxs = s.ctxs)
    (hg : u.gate.next = s.gate.next) : Holds s (u.enter e) e.ctx := ⟨_, enter_look h hc, rfl, rfl, hg⟩

end Sys2Proof.Laws
end

