-- ==== Sys2Proof/Laws/Level.lean ====
section
/-! SUPPORT. The laws of the Bonnet array's own operations: level words away from which an operation stays, and what the
program, erase and level rows keep. -/

-- One theorem after another: side by side they need more threads than the memory limit allows.
set_option Elab.async false

namespace Sys2Proof.Laws

open Sys2Proof Sys2Proof.Machine Sys2Proof.Safety

/-- The level depends on the two level words. -/
theorem level_congr {e f : Efl} (h : ∀ n, n < 2 → f.words.look (2048 * 256 + n) = e.words.look (2048 * 256 + n)) :
    f.level = e.level := by
  simp only [Efl.level, h 0 (by decide), h 1 (by decide)]

/-- A change of words away from the level words, with no operation started. -/
theorem EflLaw.words {e f : Efl} (hw : e.words.wf = true → f.words.wf = true) (hl : f.level = e.level) (hb : f.busy = e.busy)
    (hr : f.rdpBusy = e.rdpBusy) (hk : f.opKind = e.opKind) (ho : f.opWord = e.opWord) (hs : f.opSector = e.opSector) :
    EflLaw e f := by
  refine ⟨hw, fun o => ⟨?_, fun l => hl.trans l⟩⟩
  unfold EflOk
  rw [hl, hb, hr, hk, ho, hs]
  exact o

theorem puts_keep (l : List Nat) (base : Nat) (h : ∀ w ∈ l, 2048 * 256 + 2 ≤ base + w) (t : Tbl Word) :
    (t.wf = true → (l.foldl (fun t w => t.put (base + w) 0) t).wf = true) ∧
    ∀ n, n < 2 → (l.foldl (fun t w => t.put (base + w) 0) t).look (2048 * 256 + n) = t.look (2048 * 256 + n) := by
  induction l generalizing t with
  | nil => exact ⟨fun h => h, fun _ _ => rfl⟩
  | cons a l ih =>
    have k := ih (fun w m => h w (List.mem_cons_of_mem _ m)) (t.put (base + a) 0)
    have ha := h a (List.mem_cons_self ..)
    refine ⟨fun m => k.1 (Tbl.wf_put m), fun n hn => ?_⟩
    rw [List.foldl_cons, k.2 n hn]
    exact Tbl.look_put_ne t _ (by omega)

theorem EflLaw.svnRaise (e : Efl) (c n : Nat) : EflLaw e (e.svnRaise c n) := by
  unfold Efl.svnRaise
  have k := puts_keep (((List.range 255).filter fun w => (e.words.look ((2056 + c) * 256 + w)).getD wordErased == wordErased).take
    (n - e.svnOf c)) ((2056 + c) * 256) (fun w _ => by omega) e.words
  exact EflLaw.words k.1 (level_congr k.2) rfl rfl rfl rfl rfl

theorem EflLaw.raises (l : List Nat) (f : Nat → Nat) (e : Efl) : EflLaw e (l.foldl (fun e c => e.svnRaise c (f c)) e) := by
  induction l generalizing e with
  | nil => exact EflLaw.refl e
  | cons c l ih => exact EflLaw.trans (EflLaw.svnRaise e c _) (ih _)

theorem EflLaw.renew (e : Efl) : EflLaw e { e.renew with nocert := true } := by
  refine EflLaw.words (fun m => Tbl.wf_filter m) (level_congr fun n hn => ?_) rfl rfl rfl rfl rfl
  have k := Tbl.look_filter e.words (fun a => !(decide (2049 ≤ secOf a) && decide (secOf a ≤ 2063))) (2048 * 256 + n)
  have z : secOf (2048 * 256 + n) = 2048 := by unfold secOf; omega
  rw [z] at k
  exact k

/-- New meter banks leave the level words alone. -/
theorem EflLaw.meterNew (e : Efl) : EflLaw e e.meterNew := by
  refine EflLaw.words (fun m => Tbl.wf_filter m) (level_congr fun n hn => ?_) rfl rfl rfl rfl rfl
  have k := Tbl.look_filter e.words (fun a => !secMeter (secOf a)) (2048 * 256 + n)
  have z : secOf (2048 * 256 + n) = 2048 := by unfold secOf; omega
  rw [z] at k
  exact k

/-- An erase of another sector leaves the level words alone. -/
theorem level_eraseSec {e : Efl} {x : Nat} (h : x ≠ 2048) : (e.eraseSec x).level = e.level := by
  refine level_congr fun n hn => ?_
  have k := Tbl.look_filter e.words (fun a => secOf a != x) (2048 * 256 + n)
  have z : secOf (2048 * 256 + n) = 2048 := by unfold secOf; omega
  have y : (2048 != x) = true := by simpa using fun e => h e.symm
  simp only [z, y, if_true] at k
  exact k

theorem level_put {e f : Efl} {a : Nat} {v : Word} (hf : f.words = e.words.put a v) (h : secOf a ≠ 2048) :
    f.level = e.level := by
  refine level_congr fun n hn => ?_
  rw [hf]
  refine Tbl.look_put_ne _ _ fun k => h ?_
  unfold secOf
  omega

/-- An erase never raises the level to 2. -/
theorem level_eraseSec_two {e : Efl} {x : Nat} (h : (e.eraseSec x).level = 2) : e.level = 2 := by
  by_cases k : x = 2048
  · subst k
    exfalso
    have j := Tbl.look_filter e.words (fun a => secOf a != 2048) (2048 * 256 + 0)
    have z : secOf (2048 * 256 + 0) = 2048 := by decide
    simp only [z, bne_self_eq_false, Bool.false_eq_true, if_false] at j
    have w : (e.eraseSec 2048).words.look (2048 * 256 + 0) = none := j
    simp only [Efl.level, w, Option.getD_none, if_true] at h
    exact absurd h (by decide)
  · rwa [level_eraseSec k] at h

theorem level_of_not_shut {s : State} (h : ¬ s.eflShut = true) (l : s.efl.level = 2) : secSealed s.efl.sec = false := by
  cases c : secSealed s.efl.sec
  · rfl
  · exact absurd (by simp [State.eflShut, c, l]) h

theorem not_sealed {x : Nat} (h : secSealed x = false) : x ≠ 2048 := fun e => by subst e; exact absurd h (by decide)

end Sys2Proof.Laws
end

