-- ==== Sys2Proof/Laws/Ops.lean ====
section
/-! SUPPORT. One law for each operation of Machine/: Sward, Link, Ops, Heather, Keys, Place:
the parts of the state that it may change, and that it breaks no promise. A row that another row runs has its law
here too. -/

-- One theorem after another: side by side they need more threads than the memory limit allows.
set_option Elab.async false

namespace Sys2Proof.Laws

open Sys2Proof Sys2Proof.Machine Sys2Proof.Safety

theorem State.flitsSend_law (s : State) (src : Nat) (dst : Nat) (n : Nat) :
    Law [.sward] s (State.flitsSend s src dst n) := by
  unfold Sys2Proof.Machine.State.flitsSend
  try dsimp only
  repeat' first
    | with_reducible
        first
          | apply Law.refl
    | with_reducible apply Law.mk ?_

theorem State.flitsTaken_law (s : State) (src : Nat) (dst : Nat) (n : Nat) :
    Law [.sward] s (State.flitsTaken s src dst n) := by
  unfold Sys2Proof.Machine.State.flitsTaken
  try dsimp only
  repeat' first
    | with_reducible
        first
          | apply Law.refl
    | with_reducible apply Law.mk ?_

theorem State.flits_law (s : State) (src : Nat) (dst : Nat) (n : Nat) :
    Law [.sward] s (State.flits s src dst n) := by
  unfold Sys2Proof.Machine.State.flits
  try dsimp only
  repeat' first
    | with_reducible
        first
          | apply Law.refl | apply Law.next ?_ (State.flitsTaken_law _ _ _ _) ?_
          | apply Law.next ?_ (State.flitsSend_law _ _ _ _) ?_ | decide

theorem State.lanesDrop_law (s : State) (dst : Nat) :
    Law [.sward] s (State.lanesDrop s dst) := by
  unfold Sys2Proof.Machine.State.lanesDrop
  try dsimp only
  repeat' first
    | with_reducible
        first
          | apply Law.refl
    | with_reducible apply Law.mk ?_

theorem State.say_law (s : State) (o : Out) :
    Law [.out] s (State.say s o) := by
  unfold Sys2Proof.Machine.State.say
  try dsimp only
  repeat' first
    | with_reducible
        first
          | apply Law.refl
    | with_reducible apply Law.mk ?_

theorem State.portEdit_law (s : State) (p : Nat) (f : Port → Port) :
    Law [.cas] s (State.portEdit s p f) := by
  unfold Sys2Proof.Machine.State.portEdit
  try dsimp only
  repeat' first
    | with_reducible
        first
          | apply Law.refl
    | with_reducible apply Law.mk ?_

theorem State.frameOut_law (s : State) (p : Nat) (m : Unacked) :
    Law [.out, .cas] s (State.frameOut s p m) := by
  unfold Sys2Proof.Machine.State.frameOut
  try dsimp only
  repeat' first
    | with_reducible
        first
          | apply Law.refl | apply Law.next ?_ (State.say_law _ _) ?_
          | apply Law.next ?_ (State.portEdit_law _ _ _) ?_ | decide

theorem State.casSend_law (s : State) (p : Nat) (vc : Nat) (type : Nat) (len : Nat) (body : List Nat) :
    Law [.out, .sward, .cas] s (State.casSend s p vc type len body) := by
  unfold Sys2Proof.Machine.State.casSend
  try dsimp only
  repeat' first
    | with_reducible
        first
          | apply Law.refl | apply Law.ite | apply Law.next ?_ (State.portEdit_law _ _ _) ?_
          | apply Law.next ?_ (State.flitsSend_law _ _ _ _) ?_ | apply Law.next ?_ (State.flitsTaken_law _ _ _ _) ?_
          | apply Law.next ?_ (State.frameOut_law _ _ _) ?_ | decide

theorem State.ackOut_law (s : State) (p : Nat) (vc : Nat) (units : Nat) :
    Law [.out, .cas] s (State.ackOut s p vc units) := by
  unfold Sys2Proof.Machine.State.ackOut
  try dsimp only
  repeat' first
    | with_reducible
        first
          | apply Law.refl | apply Law.ite | apply Law.next ?_ (State.say_law _ _) ?_
          | apply Law.next ?_ (State.portEdit_law _ _ _) ?_ | decide

theorem State.stampSend_law (s : State) (body : List Nat) :
    Law [.out, .sward, .cas] s (State.stampSend s body) := by
  unfold Sys2Proof.Machine.State.stampSend
  try dsimp only
  repeat' first
    | with_reducible
        first
          | apply Law.refl | apply Law.next ?_ (State.casSend_law _ _ _ _ _ _) ?_ | apply Law.foldl
          | apply Law.foldlSnd | apply Law.foldlFst | decide
    | (intro _; try dsimp only)

theorem State.freeStep_law (s : State) :
    Law [.free] s (State.freeStep s) := by
  unfold Sys2Proof.Machine.State.freeStep
  try dsimp only
  repeat' first
    | with_reducible
        first
          | apply Law.refl
    | with_reducible apply Law.mk ?_

theorem State.msix_law (s : State) (v : Nat) :
    Law [.out, .evt] s (State.msix s v) := by
  unfold Sys2Proof.Machine.State.msix
  try dsimp only
  repeat' first
    | with_reducible
        first
          | apply Law.refl | apply Law.ite | apply Law.next ?_ (State.say_law _ _) ?_ | decide
    | with_reducible apply Law.mk ?_

theorem State.ledger_law (s : State) :
    Law [.nv] s (State.ledger s) := by
  unfold Sys2Proof.Machine.State.ledger
  try dsimp only
  repeat' first
    | with_reducible
        first
          | apply Law.refl
    | with_reducible apply Law.mk ?_

theorem State.ibiEval_law (s : State) :
    Law [.out, .evt] s (State.ibiEval s) := by
  unfold Sys2Proof.Machine.State.ibiEval
  try dsimp only
  repeat' first
    | with_reducible
        first
          | apply Law.refl | apply Law.ite
    | with_reducible apply Law.mk ?_

theorem State.logAppend_law (s : State) (r : LogRec) :
    Law [.log] s (State.logAppend s r) := by
  unfold Sys2Proof.Machine.State.logAppend
  refine ⟨fun p hp => by cases p <;> first | exact absurd (by decide) hp | (dsimp only [Piece.same]; repeat' split) <;> rfl, ?_⟩
  split
  · split
    · refine ⟨fun h => (fun (h : LogOk s.log) v => ⟨⟨h.1, ?_, h.2.2⟩, v⟩) h.1 h.2, id, fun h => ⟨h, id⟩, Nat.le_refl _, fun h => ⟨Nat.le_refl _, h⟩, Nat.le_refl _⟩
      simp only [List.length_append, List.length_singleton]
      omega
    · exact ⟨id, id, fun h => ⟨h, id⟩, Nat.le_refl _, fun h => ⟨Nat.le_refl _, h⟩, Nat.le_refl _⟩
  · split
    · exact ⟨id, id, fun h => ⟨h, id⟩, Nat.le_refl _, fun h => ⟨Nat.le_refl _, h⟩, Nat.le_refl _⟩
    · refine ⟨fun h => (fun (h : LogOk s.log) v => ⟨⟨?_, h.2.1, Tbl.wf_put h.2.2⟩, v⟩) h.1 h.2, id, fun h => ⟨h, id⟩, Nat.le_refl _, fun h => ⟨Nat.le_refl _, h⟩, Nat.le_refl _⟩
      dsimp only
      omega

theorem State.fireOnce_law (s : State) (k : Nat) (r : LogRec) :
    Law [.out, .evt, .log] s (State.fireOnce s k r) := by
  unfold Sys2Proof.Machine.State.fireOnce
  try dsimp only
  repeat' first
    | with_reducible
        first
          | apply Law.refl | apply Law.ite | apply Law.next ?_ (State.msix_law _ _) ?_
          | apply Law.next ?_ (State.ibiEval_law _) ?_ | apply Law.next ?_ (State.logAppend_law _ _) ?_ | decide
    | with_reducible apply Law.mk ?_

theorem State.logFill_law (s : State) (before : Nat) :
    Law [.out, .evt, .log] s (State.logFill s before) := by
  unfold Sys2Proof.Machine.State.logFill
  try dsimp only
  repeat' first
    | with_reducible
        first
          | apply Law.refl | apply Law.ite | apply Law.next ?_ (State.fireOnce_law _ _ _) ?_ | decide

theorem State.fire_law (s : State) (k : Nat) (args : (List Nat)) (code : Nat) (owner : Nat) (stamp : (Option Nat)) :
    Law [.out, .evt, .log] s (State.fire s k args code owner stamp) := by
  unfold Sys2Proof.Machine.State.fire
  try dsimp only
  repeat' first
    | with_reducible
        first
          | apply Law.refl | apply Law.ite | apply Law.next ?_ (State.logFill_law _ _) ?_
          | apply Law.next ?_ (State.fireOnce_law _ _ _) ?_ | decide

theorem State.msiCatchUp_law (s : State) :
    Law [.out, .evt] s (State.msiCatchUp s) := by
  unfold Sys2Proof.Machine.State.msiCatchUp
  try dsimp only
  repeat' first
    | with_reducible
        first
          | apply Law.refl | apply Law.ite | apply Law.next ?_ (State.msix_law _ _) ?_ | apply Law.forNats | decide
    | (intro _; try dsimp only)
    | with_reducible apply Law.mk ?_

theorem State.sliceEdit_law (s : State) (i : Nat) (f : Slice → Slice) :
    Law [.slices] s (State.sliceEdit s i f) := by
  unfold Sys2Proof.Machine.State.sliceEdit
  try dsimp only
  repeat' first
    | with_reducible
        first
          | apply Law.refl
    | with_reducible apply Law.mk ?_

theorem State.tally_law (s : State) (o : Nat) (f : TStage → TStage) :
    Law [.mtr] s (State.tally s o f) := by
  unfold Sys2Proof.Machine.State.tally
  try dsimp only
  repeat' first
    | with_reducible
        first
          | apply Law.refl
    | with_reducible apply Law.mk ?_

theorem State.tallyOpen_law (s : State) (o : Nat) (inst : Nat) :
    Law [.mtr] s (State.tallyOpen s o inst) := by
  unfold Sys2Proof.Machine.State.tallyOpen
  try dsimp only
  repeat' first
    | with_reducible
        first
          | apply Law.refl
    | with_reducible apply Law.mk ?_

theorem State.tallyShut_law (s : State) (o : Nat) :
    Law [.mtr] s (State.tallyShut s o) := by
  unfold Sys2Proof.Machine.State.tallyShut
  try dsimp only
  repeat' first
    | with_reducible
        first
          | apply Law.refl
    | with_reducible apply Law.mk ?_

theorem State.noticeWrite_law (s : State) (i : Nat) (type : Nat) (arg0 : Nat) (arg1 : Nat) :
    Law [.out, .slices, .evt] s (State.noticeWrite s i type arg0 arg1) := by
  unfold Sys2Proof.Machine.State.noticeWrite
  try dsimp only
  repeat' first
    | with_reducible
        first
          | apply Law.refl | apply Law.ite | apply Law.next ?_ (State.say_law _ _) ?_
          | apply Law.next ?_ (State.sliceEdit_law _ _ _) ?_ | apply Law.next ?_ (State.msix_law _ _) ?_ | decide

theorem State.noticeLose_law (s : State) (i : Nat) (n : Nat) :
    Law [.slices] s (State.noticeLose s i n) := by
  unfold Sys2Proof.Machine.State.noticeLose
  try dsimp only
  repeat' first
    | with_reducible
        first
          | apply Law.refl | apply Law.next ?_ (State.sliceEdit_law _ _ _) ?_ | decide

theorem State.noticeBreak_law (s : State) (i : Nat) (n : Nat) :
    Law [.slices] s (State.noticeBreak s i n) := by
  unfold Sys2Proof.Machine.State.noticeBreak
  try dsimp only
  repeat' first
    | with_reducible
        first
          | apply Law.refl | apply Law.next ?_ (State.noticeLose_law _ _ _) ?_
          | apply Law.next ?_ (State.sliceEdit_law _ _ _) ?_ | decide

theorem State.noticeFlush_law (s : State) (i : Nat) :
    Law [.out, .slices, .evt] s (State.noticeFlush s i) := by
  unfold Sys2Proof.Machine.State.noticeFlush
  try dsimp only
  repeat' first
    | with_reducible
        first
          | apply Law.refl | apply Law.ite | apply Law.next ?_ (State.noticeBreak_law _ _ _) ?_
          | apply Law.next ?_ (State.noticeWrite_law _ _ _ _ _) ?_
          | apply Law.next ?_ (State.sliceEdit_law _ _ _) ?_ | decide

theorem State.notice_law (s : State) (i : Nat) (type : Nat) (arg0 : Nat) (arg1 : Nat) :
    Law [.out, .slices, .evt] s (State.notice s i type arg0 arg1) := by
  unfold Sys2Proof.Machine.State.notice
  try dsimp only
  repeat' first
    | with_reducible
        first
          | apply Law.refl | apply Law.ite | apply Law.next ?_ (State.noticeLose_law _ _ _) ?_
          | apply Law.next ?_ (State.noticeFlush_law _ _) ?_ | apply Law.next ?_ (State.noticeBreak_law _ _ _) ?_
          | apply Law.next ?_ (State.noticeWrite_law _ _ _ _ _) ?_ | decide

theorem State.stampTo_law (s : State) (n : Nat) :
    Law [.gate, .dma] s (State.stampTo s n) := by
  unfold Sys2Proof.Machine.State.stampTo
  try dsimp only
  repeat' first
    | with_reducible
        first
          | apply Law.refl | apply Law.ite
    | with_reducible apply Law.mk ?_

theorem State.drawStamp_law (s : State) :
    Law [.gate, .dma] s (State.drawStamp s) := by
  unfold Sys2Proof.Machine.State.drawStamp
  try dsimp only
  repeat' first
    | with_reducible
        first
          | apply Law.refl | apply Law.next ?_ (State.stampTo_law _ _) ?_ | decide

theorem State.epochEnd_law (s : State) (k : Nat) :
    Law [.gate, .dma] s (State.epochEnd s k) := by
  unfold Sys2Proof.Machine.State.epochEnd
  try dsimp only
  repeat' first
    | with_reducible
        first
          | apply Law.refl | apply Law.next ?_ (State.stampTo_law _ _) ?_ | decide

theorem State.record_law (s : State) (r : CRec) :
    Law [.gate] s (State.record s r) := by
  unfold Sys2Proof.Machine.State.record
  try dsimp only
  repeat' first
    | with_reducible
        first
          | apply Law.refl
    | with_reducible apply Law.mk ?_

theorem State.settle_law (s : State) :
    Law [.gate] s (State.settle s) := by
  unfold Sys2Proof.Machine.State.settle
  try dsimp only
  repeat' first
    | with_reducible
        first
          | apply Law.refl
    | with_reducible apply Law.mk ?_

theorem State.enterSys_law (s : State) (ev : SysEv) :
    Law [.gate, .dma] s (State.enterSys s ev) := by
  unfold Sys2Proof.Machine.State.enterSys
  try dsimp only
  repeat' first
    | with_reducible
        first
          | apply Law.refl | apply Law.next ?_ (State.drawStamp_law _) ?_ | decide
    | with_reducible apply Law.mk ?_

theorem State.stampFlush_law (s : State) (stamp : Nat) :
    Law [.out, .gate, .sward, .cas] s (State.stampFlush s stamp) := by
  unfold Sys2Proof.Machine.State.stampFlush
  try dsimp only
  repeat' first
    | with_reducible
        first
          | apply Law.refl | apply Law.next ?_ (State.stampSend_law _ _) ?_ | apply Law.foldl | apply Law.foldlSnd
          | apply Law.foldlFst | decide
    | (intro _; try dsimp only)
    | with_reducible apply Law.mk ?_

theorem State.stampTell_law (s : State) (stamp : Nat) (body : List Nat) :
    Law [.out, .gate, .sward, .cas] s (State.stampTell s stamp body) := by
  unfold Sys2Proof.Machine.State.stampTell
  try dsimp only
  repeat' first
    | with_reducible
        first
          | apply Law.refl | apply Law.next ?_ (State.stampSend_law _ _) ?_
          | apply Law.next ?_ (State.stampFlush_law _ _) ?_ | decide

theorem State.sysTake_law (s : State) (stamp : Nat) :
    Law [.out, .gate, .sward, .cas] s (State.sysTake s stamp) := by
  unfold Sys2Proof.Machine.State.sysTake
  try dsimp only
  repeat' first
    | with_reducible
        first
          | apply Law.refl | apply Law.next ?_ (State.stampFlush_law _ _) ?_ | decide
    | with_reducible apply Law.mk ?_

theorem State.enterCfg_law (s : State) (ev : SysEv) :
    Law [.gate, .dma] s (State.enterCfg s ev) := by
  unfold Sys2Proof.Machine.State.enterCfg
  try dsimp only
  repeat' first
    | with_reducible
        first
          | apply Law.refl | apply Law.next ?_ (State.epochEnd_law _ _) ?_
          | apply Law.next ?_ (State.enterSys_law _ _) ?_ | decide

theorem State.sysRecord_law (s : State) (stamp : Nat) (kind : Nat) (resolved : Bool) :
    Law [.gate] s (State.sysRecord s stamp kind resolved) := by
  unfold Sys2Proof.Machine.State.sysRecord
  try dsimp only
  repeat' first
    | with_reducible
        first
          | apply Law.refl | apply Law.next ?_ (State.record_law _ _) ?_ | decide

theorem State.markRun_law (s : State) :
    Law [.out, .gate, .sward, .cas] s (State.markRun s) := by
  unfold Sys2Proof.Machine.State.markRun
  try dsimp only
  repeat' first
    | with_reducible
        first
          | apply Law.refl | apply Law.ite | apply Law.next ?_ (State.settle_law _) ?_
          | apply Law.next ?_ (State.sysRecord_law _ _ _ _) ?_ | apply Law.next ?_ (State.sysTake_law _ _) ?_
          | decide
    | split

theorem State.ctxEdit_law (s : State) (c : Nat) (f : Ctx → Ctx) :
    Law [.ctxs] s (State.ctxEdit s c f) := by
  unfold Sys2Proof.Machine.State.ctxEdit
  try dsimp only
  repeat' first
    | with_reducible
        first
          | apply Law.refl
    | with_reducible apply Law.mk ?_

theorem State.qFreeze_law (s : State) (q : Nat) (st : Status) :
    Law [.sqs, .qrecs] s (State.qFreeze s q st) := by
  unfold Sys2Proof.Machine.State.qFreeze
  try dsimp only
  repeat' first
    | with_reducible
        first
          | apply Law.refl | apply Law.ite
    | with_reducible apply Law.mk ?_

theorem State.finish_law (s : State) (c : Nat) (st : Status) (dw0 : Dword) (dw1 : Dword) (check : Nat) :
    Law [.sqs, .qrecs, .ctxs] s (State.finish s c st dw0 dw1 check) := by
  unfold Sys2Proof.Machine.State.finish
  try dsimp only
  repeat' first
    | with_reducible
        first
          | apply Law.refl | apply Law.ite | apply Law.next ?_ (State.qFreeze_law _ _ _) ?_ | decide
    | split
    | with_reducible apply Law.mk ?_

theorem State.finishHeld_law (s : State) (c : Nat) (st : Status) :
    Law [.ctxs] s (State.finishHeld s c st) := by
  unfold Sys2Proof.Machine.State.finishHeld
  try dsimp only
  repeat' first
    | with_reducible
        first
          | apply Law.refl
    | split
    | with_reducible apply Law.mk ?_

theorem State.stateNotice_law (s : State) (i : Nat) :
    Law [.out, .slices, .evt] s (State.stateNotice s i) := by
  unfold Sys2Proof.Machine.State.stateNotice
  try dsimp only
  repeat' first
    | with_reducible
        first
          | apply Law.refl | apply Law.ite | apply Law.next ?_ (State.notice_law _ _ _ _ _) ?_ | decide

theorem State.quiesceEnd_law (s : State) (i : Nat) (st : Status) :
    Law [.sqs, .qrecs, .ctxs, .slices] s (State.quiesceEnd s i st) := by
  unfold Sys2Proof.Machine.State.quiesceEnd
  try dsimp only
  repeat' first
    | with_reducible
        first
          | apply Law.refl | apply Law.next ?_ (State.sliceEdit_law _ _ _) ?_
          | apply Law.next ?_ (State.finish_law _ _ _ _ _ _) ?_ | apply Law.forNats | decide
    | (intro _; try dsimp only)

theorem State.sliceFreeze_law (s : State) (i : Nat) (reason : Nat) :
    Law [.out, .sqs, .qrecs, .ctxs, .slices, .evt, .log] s (State.sliceFreeze s i reason) := by
  unfold Sys2Proof.Machine.State.sliceFreeze
  try dsimp only
  repeat' first
    | with_reducible
        first
          | apply Law.refl | apply Law.ite | apply Law.next ?_ (State.quiesceEnd_law _ _ _) ?_
          | apply Law.next ?_ (State.fire_law _ _ _ _ _ _) ?_ | apply Law.next ?_ (State.stateNotice_law _ _) ?_
          | apply Law.next ?_ (State.sliceEdit_law _ _ _) ?_ | decide
    | with_reducible apply Law.mk ?_

theorem State.freezeAll_law (s : State) (reason : Nat) :
    Law [.out, .sqs, .qrecs, .ctxs, .slices, .evt, .log] s (State.freezeAll s reason) := by
  unfold Sys2Proof.Machine.State.freezeAll
  try dsimp only
  repeat' first
    | with_reducible
        first
          | apply Law.refl | apply Law.next ?_ (State.sliceFreeze_law _ _ _) ?_ | apply Law.forNats | decide
    | (intro _; try dsimp only)

theorem State.quiesceCheck_law (s : State) (i : Nat) :
    Law [.out, .sqs, .qrecs, .ctxs, .slices, .evt] s (State.quiesceCheck s i) := by
  unfold Sys2Proof.Machine.State.quiesceCheck
  try dsimp only
  repeat' first
    | with_reducible
        first
          | apply Law.refl | apply Law.ite | apply Law.next ?_ (State.quiesceEnd_law _ _ _) ?_
          | apply Law.next ?_ (State.stateNotice_law _ _) ?_ | apply Law.next ?_ (State.sliceEdit_law _ _ _) ?_
          | decide

theorem State.drainCheck_law (s : State) (q : Nat) :
    Law [.sqs] s (State.drainCheck s q) := by
  unfold Sys2Proof.Machine.State.drainCheck
  try dsimp only
  repeat' first
    | with_reducible
        first
          | apply Law.refl | apply Law.ite
    | split
    | with_reducible apply Law.mk ?_

theorem State.ctxFree_law (s : State) (c : Nat) :
    Law [.out, .sqs, .qrecs, .ctxs, .slices, .evt] s (State.ctxFree s c) := by
  unfold Sys2Proof.Machine.State.ctxFree
  try dsimp only
  repeat' first
    | with_reducible
        first
          | apply Law.refl | apply Law.next ?_ (State.finish_law _ _ _ _ _ _) ?_
          | apply Law.next ?_ (State.ctxEdit_law _ _ _) ?_ | apply Law.next ?_ (State.drainCheck_law _ _) ?_
          | apply Law.next ?_ (State.quiesceCheck_law _ _) ?_ | apply Law.forNats | decide
    | (intro _; try dsimp only)
    | split
    | with_reducible apply Law.mk ?_

theorem State.aenRaise_law (s : State) (type : Nat) (info : Nat) (page : Nat) :
    Law [.nvme, .sqs, .qrecs, .ctxs] s (State.aenRaise s type info page) := by
  unfold Sys2Proof.Machine.State.aenRaise
  try dsimp only
  repeat' first
    | with_reducible
        first
          | apply Law.refl | apply Law.ite | apply Law.next ?_ (State.finish_law _ _ _ _ _ _) ?_ | decide
    | split
    | with_reducible apply Law.mk ?_

theorem State.aenCrit_law (s : State) (bit : Nat) :
    Law [.nvme, .sqs, .qrecs, .ctxs] s (State.aenCrit s bit) := by
  unfold Sys2Proof.Machine.State.aenCrit
  try dsimp only
  repeat' first
    | with_reducible
        first
          | apply Law.refl | apply Law.ite | apply Law.next ?_ (State.aenRaise_law _ _ _ _) ?_ | decide

theorem State.siteEdit_law (s : State) (k : Nat) (f : Site → Site) :
    Law [.thm] s (State.siteEdit s k f) := by
  unfold Sys2Proof.Machine.State.siteEdit
  try dsimp only
  repeat' first
    | with_reducible
        first
          | apply Law.refl
    | with_reducible apply Law.mk ?_

theorem State.regionEdit_law (s : State) (r : Nat) (f : Region → Region) :
    Law [.thm] s (State.regionEdit s r f) := by
  unfold Sys2Proof.Machine.State.regionEdit
  try dsimp only
  repeat' first
    | with_reducible
        first
          | apply Law.refl
    | with_reducible apply Law.mk ?_

theorem State.bandSet_law (s : State) (r : Nat) (b : Nat) :
    Law [.out, .lat, .thm, .evt, .log] s (State.bandSet s r b) := by
  unfold Sys2Proof.Machine.State.bandSet
  try dsimp only
  repeat' first
    | with_reducible
        first
          | apply Law.refl | apply Law.ite | apply Law.next ?_ (State.fire_law _ _ _ _ _ _) ?_
          | apply Law.next ?_ (State.regionEdit_law _ _ _) ?_ | decide
    | with_reducible apply Law.mk ?_

theorem State.regionHold_law (s : State) (r : Nat) :
    Law [.out, .lat, .thm, .evt, .log] s (State.regionHold s r) := by
  unfold Sys2Proof.Machine.State.regionHold
  try dsimp only
  repeat' first
    | with_reducible
        first
          | apply Law.refl | apply Law.ite | apply Law.next ?_ (State.regionEdit_law _ _ _) ?_
          | apply Law.next ?_ (State.bandSet_law _ _ _) ?_ | decide
    | with_reducible apply Law.mk ?_

theorem State.bandEval_law (s : State) (r : Nat) (k : Nat) (v : Int) :
    Law [.out, .lat, .thm, .evt, .log] s (State.bandEval s r k v) := by
  unfold Sys2Proof.Machine.State.bandEval
  try dsimp only
  repeat' first
    | with_reducible
        first
          | apply Law.refl | apply Law.ite | apply Law.next ?_ (State.siteEdit_law _ _ _) ?_
          | apply Law.next ?_ (State.bandSet_law _ _ _) ?_ | apply Law.foldl | apply Law.foldlSnd
          | apply Law.foldlFst | decide
    | (intro _; try dsimp only)

theorem State.tapEval_law (s : State) (r : Nat) (k : Nat) (v : Int) :
    Law [.thm] s (State.tapEval s r k v) := by
  unfold Sys2Proof.Machine.State.tapEval
  try dsimp only
  repeat' first
    | with_reducible
        first
          | apply Law.refl | apply Law.ite | apply Law.next ?_ (State.siteEdit_law _ _ _) ?_ | apply Law.foldl
          | apply Law.foldlSnd | apply Law.foldlFst | decide
    | (intro _; try dsimp only)
    | with_reducible apply Law.mk ?_

theorem State.throttle_law (s : State) (n : Nat) :
    Law [.thm] s (State.throttle s n) := by
  unfold Sys2Proof.Machine.State.throttle
  try dsimp only
  repeat' first
    | with_reducible
        first
          | apply Law.refl
    | with_reducible apply Law.mk ?_

theorem State.stepUp_law (s : State) :
    Law [.thm] s (State.stepUp s) := by
  unfold Sys2Proof.Machine.State.stepUp
  try dsimp only
  repeat' first
    | with_reducible
        first
          | apply Law.refl | apply Law.ite | apply Law.next ?_ (State.throttle_law _ _) ?_ | decide
    | with_reducible apply Law.mk ?_

theorem State.alarmRise_law (s : State) :
    Law [.out, .evt, .log] s (State.alarmRise s) := by
  unfold Sys2Proof.Machine.State.alarmRise
  try dsimp only
  repeat' first
    | with_reducible
        first
          | apply Law.refl | apply Law.next ?_ (State.fire_law _ _ _ _ _ _) ?_ | decide

theorem State.riseAlarm_law (s : State) :
    Law [.out, .thm, .evt, .log] s (State.riseAlarm s) := by
  unfold Sys2Proof.Machine.State.riseAlarm
  try dsimp only
  repeat' first
    | with_reducible
        first
          | apply Law.refl | apply Law.ite | apply Law.next ?_ (State.alarmRise_law _) ?_
          | apply Law.next ?_ (State.throttle_law _ _) ?_ | decide
    | with_reducible apply Law.mk ?_

theorem State.riseStep_law (s : State) (k : Nat) :
    Law [.thm] s (State.riseStep s k) := by
  unfold Sys2Proof.Machine.State.riseStep
  try dsimp only
  repeat' first
    | with_reducible
        first
          | apply Law.refl | apply Law.ite | apply Law.next ?_ (State.stepUp_law _) ?_ | decide
    | split

theorem State.riseEval_law (s : State) (k : Nat) :
    Law [.out, .thm, .evt, .log] s (State.riseEval s k) := by
  unfold Sys2Proof.Machine.State.riseEval
  try dsimp only
  repeat' first
    | with_reducible
        first
          | apply Law.refl | apply Law.ite | apply Law.next ?_ (State.riseStep_law _ _) ?_
          | apply Law.next ?_ (State.siteEdit_law _ _ _) ?_ | apply Law.next ?_ (State.riseAlarm_law _) ?_ | decide
    | with_reducible apply Law.mk ?_

theorem State.floorEval_law (s : State) :
    Law [.out, .thm, .evt, .log] s (State.floorEval s) := by
  unfold Sys2Proof.Machine.State.floorEval
  try dsimp only
  repeat' first
    | with_reducible
        first
          | apply Law.refl | apply Law.ite | apply Law.next ?_ (State.fire_law _ _ _ _ _ _) ?_
          | apply Law.next ?_ (State.throttle_law _ _) ?_ | decide
    | split
    | with_reducible apply Law.mk ?_

theorem State.thermEval_law (s : State) :
    Law [.out, .thm, .evt, .log] s (State.thermEval s) := by
  unfold Sys2Proof.Machine.State.thermEval
  try dsimp only
  repeat' first
    | with_reducible
        first
          | apply Law.refl | apply Law.ite | apply Law.next ?_ (State.fire_law _ _ _ _ _ _) ?_ | decide
    | split
    | with_reducible apply Law.mk ?_

theorem State.firstBand_law (s : State) (r : Nat) :
    Law [.out, .lat, .thm, .evt, .log] s (State.firstBand s r) := by
  unfold Sys2Proof.Machine.State.firstBand
  try dsimp only
  repeat' first
    | with_reducible
        first
          | apply Law.refl | apply Law.next ?_ (State.bandSet_law _ _ _) ?_ | decide
    | split

theorem State.siteBreak_law (s : State) (k : Nat) (cause : Nat) :
    Law [.out, .lat, .thm, .evt, .log] s (State.siteBreak s k cause) := by
  unfold Sys2Proof.Machine.State.siteBreak
  try dsimp only
  repeat' first
    | with_reducible
        first
          | apply Law.refl | apply Law.ite | apply Law.next ?_ (State.fire_law _ _ _ _ _ _) ?_
          | apply Law.next ?_ (State.siteEdit_law _ _ _) ?_ | apply Law.next ?_ (State.regionHold_law _ _) ?_
          | apply Law.next ?_ (State.firstBand_law _ _) ?_ | decide
    | with_reducible apply Law.mk ?_

theorem State.medianEval_law (s : State) (k : Nat) :
    Law [.out, .lat, .thm, .evt, .log] s (State.medianEval s k) := by
  unfold Sys2Proof.Machine.State.medianEval
  try dsimp only
  repeat' first
    | with_reducible
        first
          | apply Law.refl | apply Law.ite | apply Law.next ?_ (State.tapEval_law _ _ _ _) ?_
          | apply Law.next ?_ (State.bandEval_law _ _ _ _) ?_ | apply Law.foldl | apply Law.foldlSnd
          | apply Law.foldlFst | decide
    | (intro _; try dsimp only)
    | split

theorem State.sampleEval_law (s : State) (k : Nat) (first : Bool) :
    Law [.out, .lat, .thm, .evt, .log] s (State.sampleEval s k first) := by
  unfold Sys2Proof.Machine.State.sampleEval
  try dsimp only
  repeat' first
    | with_reducible
        first
          | apply Law.refl | apply Law.ite | apply Law.next ?_ (State.tapEval_law _ _ _ _) ?_
          | apply Law.next ?_ (State.firstBand_law _ _) ?_ | apply Law.next ?_ (State.bandEval_law _ _ _ _) ?_
          | apply Law.next ?_ (State.thermEval_law _) ?_ | apply Law.next ?_ (State.floorEval_law _) ?_
          | apply Law.next ?_ (State.riseEval_law _ _) ?_ | apply Law.next ?_ (State.medianEval_law _ _) ?_ | decide
    | split

theorem State.siteSample_law (s : State) (k : Nat) (raw : Int) :
    Law [.out, .lat, .thm, .evt, .log] s (State.siteSample s k raw) := by
  unfold Sys2Proof.Machine.State.siteSample
  try dsimp only
  repeat' first
    | with_reducible
        first
          | apply Law.refl | apply Law.ite | apply Law.next ?_ (State.siteEdit_law _ _ _) ?_
          | apply Law.next ?_ (State.siteBreak_law _ _ _) ?_ | apply Law.next ?_ (State.sampleEval_law _ _ _) ?_
          | decide
    | split

theorem State.keyEdit_law (s : State) (o : Nat) (f : KeyOwner → KeyOwner) :
    Law [.key] s (State.keyEdit s o f) := by
  unfold Sys2Proof.Machine.State.keyEdit
  try dsimp only
  repeat' first
    | with_reducible
        first
          | apply Law.refl
    | with_reducible apply Law.mk ?_

theorem State.keyCreate_law (s : State) (o : Nat) :
    Law [.free, .key] s (State.keyCreate s o) := by
  unfold Sys2Proof.Machine.State.keyCreate
  try dsimp only
  repeat' first
    | with_reducible
        first
          | apply Law.refl | apply Law.next ?_ (State.keyEdit_law _ _ _) ?_ | decide
    | with_reducible apply Law.mk ?_

theorem State.keySweep_law (s : State) :
    Law [.key] s (State.keySweep s) := by
  unfold Sys2Proof.Machine.State.keySweep
  try dsimp only
  repeat' first
    | with_reducible
        first
          | apply Law.refl
    | with_reducible apply Law.mk ?_

theorem State.keyRetire_law (s : State) (o : Nat) :
    Law [.key] s (State.keyRetire s o) := by
  unfold Sys2Proof.Machine.State.keyRetire
  try dsimp only
  repeat' first
    | with_reducible
        first
          | apply Law.refl | apply Law.next ?_ (State.keySweep_law _) ?_
          | apply Law.next ?_ (State.keyEdit_law _ _ _) ?_ | decide

theorem State.keyUse_law (s : State) (d : Nat) :
    Law [.key] s (State.keyUse s d) := by
  unfold Sys2Proof.Machine.State.keyUse
  try dsimp only
  repeat' first
    | with_reducible
        first
          | apply Law.refl | apply Law.ite
    | split
    | with_reducible apply Law.mk ?_

theorem State.keyRef_law (s : State) (o : Nat) (gen : Nat) (n : Nat) :
    Law [.key] s (State.keyRef s o gen n) := by
  unfold Sys2Proof.Machine.State.keyRef
  try dsimp only
  repeat' first
    | with_reducible
        first
          | apply Law.refl | apply Law.next ?_ (State.keyEdit_law _ _ _) ?_ | decide

theorem State.keyUnref_law (s : State) (o : Nat) (gen : Nat) (n : Nat) :
    Law [.key] s (State.keyUnref s o gen n) := by
  unfold Sys2Proof.Machine.State.keyUnref
  try dsimp only
  repeat' first
    | with_reducible
        first
          | apply Law.refl | apply Law.next ?_ (State.keyRetire_law _ _) ?_
          | apply Law.next ?_ (State.keyEdit_law _ _ _) ?_ | decide

theorem State.keyNear_law (s : State) (o : Nat) :
    Law [.out, .slices, .key, .evt, .log] s (State.keyNear s o) := by
  unfold Sys2Proof.Machine.State.keyNear
  try dsimp only
  repeat' first
    | with_reducible
        first
          | apply Law.refl | apply Law.ite | apply Law.next ?_ (State.keyEdit_law _ _ _) ?_
          | apply Law.next ?_ (State.notice_law _ _ _ _ _) ?_ | apply Law.next ?_ (State.fire_law _ _ _ _ _ _) ?_
          | decide

theorem State.keyCharge_law (s : State) (o : Nat) (n : Nat) :
    Law [.out, .slices, .key, .evt, .log] s (State.keyCharge s o n) := by
  unfold Sys2Proof.Machine.State.keyCharge
  try dsimp only
  repeat' first
    | with_reducible
        first
          | apply Law.refl | apply Law.next ?_ (State.keyNear_law _ _) ?_
          | apply Law.next ?_ (State.keyRef_law _ _ _ _) ?_ | apply Law.next ?_ (State.keyEdit_law _ _ _) ?_
          | decide

theorem State.keyRotate_law (s : State) (o : Nat) :
    Law [.free, .key] s (State.keyRotate s o) := by
  unfold Sys2Proof.Machine.State.keyRotate
  try dsimp only
  repeat' first
    | with_reducible
        first
          | apply Law.refl | apply Law.next ?_ (State.keyRetire_law _ _) ?_
          | apply Law.next ?_ (State.keyEdit_law _ _ _) ?_ | decide
    | with_reducible apply Law.mk ?_

theorem State.keyRenewNext_law (s : State) (o : Nat) :
    Law [.free, .key] s (State.keyRenewNext s o) := by
  unfold Sys2Proof.Machine.State.keyRenewNext
  try dsimp only
  repeat' first
    | with_reducible
        first
          | apply Law.refl | apply Law.next ?_ (State.keySweep_law _) ?_
          | apply Law.next ?_ (State.keyEdit_law _ _ _) ?_ | decide
    | with_reducible apply Law.mk ?_

theorem State.keyStop_law (s : State) (o : Nat) :
    Law [.key] s (State.keyStop s o) := by
  unfold Sys2Proof.Machine.State.keyStop
  try dsimp only
  repeat' first
    | with_reducible
        first
          | apply Law.refl | apply Law.next ?_ (State.keyEdit_law _ _ _) ?_ | decide

theorem State.keyRedraw_law (s : State) :
    Law [.free, .key] s (State.keyRedraw s) := by
  unfold Sys2Proof.Machine.State.keyRedraw
  try dsimp only
  repeat' first
    | with_reducible
        first
          | apply Law.refl | apply Law.next ?_ (State.keyEdit_law _ _ _) ?_ | apply Law.forNats | decide
    | (intro _; try dsimp only)
    | with_reducible apply Law.mk ?_

theorem State.dieEdit_law (s : State) (dk : Nat) (f : Die → Die) :
    Law [.dies] s (State.dieEdit s dk f) := by
  unfold Sys2Proof.Machine.State.dieEdit
  try dsimp only
  repeat' first
    | with_reducible
        first
          | apply Law.refl
    | with_reducible apply Law.mk ?_

theorem State.blkEdit_law (s : State) (bk : Nat) (f : BInfo → BInfo) :
    Law [.blocks] s (State.blkEdit s bk f) := by
  unfold Sys2Proof.Machine.State.blkEdit
  try dsimp only
  repeat' first
    | with_reducible
        first
          | apply Law.refl
    | with_reducible apply Law.mk ?_

theorem State.allocBlock_law (s : State) (dk : Nat) (b : Nat) (st : Nat) :
    Law [.blocks] s (State.allocBlock s dk b st) := by
  unfold Sys2Proof.Machine.State.allocBlock
  try dsimp only
  repeat' first
    | with_reducible
        first
          | apply Law.refl | apply Law.next ?_ (State.blkEdit_law _ _ _) ?_ | decide

theorem State.freeBlock_law (s : State) (dk : Nat) (b : Nat) :
    Law [.blocks] s (State.freeBlock s dk b) := by
  unfold Sys2Proof.Machine.State.freeBlock
  try dsimp only
  repeat' first
    | with_reducible
        first
          | apply Law.refl | apply Law.ite | apply Law.next ?_ (State.blkEdit_law _ _ _) ?_ | decide

theorem State.takePlace_law (s : State) (p : Place) (st : Nat) :
    Law [.blocks] s (State.takePlace s p st) := by
  unfold Sys2Proof.Machine.State.takePlace
  try dsimp only
  repeat' first
    | with_reducible
        first
          | apply Law.refl | apply Law.next ?_ (State.allocBlock_law _ _ _ _) ?_ | apply Law.foldl
          | apply Law.foldlSnd | apply Law.foldlFst | decide
    | (intro _; try dsimp only)
    | split

theorem State.freshRow_law (s : State) (p : Place) (st : Nat) :
    Law [.blocks] s (State.freshRow s p st).2 := by
  unfold Sys2Proof.Machine.State.freshRow
  try dsimp only
  repeat' first
    | with_reducible
        first
          | apply Law.refl | apply Law.ite | apply Law.iteSnd | apply Law.next ?_ (State.allocBlock_law _ _ _ _) ?_
          | apply Law.foldl | apply Law.foldlSnd | apply Law.foldlFst | decide
    | (intro _; try dsimp only)
    | split
    | dsimp only

end Sys2Proof.Laws
end

