-- ==== Sys2Proof/Laws/Stage.lean ====
section
/-! SUPPORT. One law for each operation of Machine/: Stage, Flash:
the parts of the state that it may change, and that it breaks no promise. A row that another row runs has its law
here too. -/

-- One theorem after another: side by side they need more threads than the memory limit allows.
set_option Elab.async false

namespace Sys2Proof.Laws

open Sys2Proof Sys2Proof.Machine Sys2Proof.Safety

theorem State.rdTake_law (s : State) (o : Nat) (n : Nat) :
    Law [.bpm] s (State.rdTake s o n) := by
  unfold Sys2Proof.Machine.State.rdTake
  try dsimp only
  repeat' first
    | with_reducible
        first
          | apply Law.refl
    | with_reducible apply Law.mk ?_

theorem State.rdGive_law (s : State) (o : Nat) (n : Nat) :
    Law [.bpm] s (State.rdGive s o n) := by
  unfold Sys2Proof.Machine.State.rdGive
  try dsimp only
  repeat' first
    | with_reducible
        first
          | apply Law.refl
    | with_reducible apply Law.mk ?_

theorem State.rdReturn_law (s : State) (c : Nat) :
    Law [.ctxs, .bpm] s (State.rdReturn s c) := by
  unfold Sys2Proof.Machine.State.rdReturn
  try dsimp only
  repeat' first
    | with_reducible
        first
          | apply Law.refl | apply Law.next ?_ (State.ctxEdit_law _ _ _) ?_
          | apply Law.next ?_ (State.rdGive_law _ _ _) ?_ | decide
    | split

theorem State.bufFree_law (s : State) (o : Nat) (i : Nat) :
    Law [.out, .bpm, .evt, .log] s (State.bufFree s o i) := by
  unfold Sys2Proof.Machine.State.bufFree
  try dsimp only
  repeat' first
    | with_reducible
        first
          | apply Law.refl | apply Law.ite | apply Law.next ?_ (State.fire_law _ _ _ _ _ _) ?_ | decide
    | split
    | with_reducible apply Law.mk ?_

theorem State.bufHold_law (s : State) (i : Nat) :
    Law [.bpm] s (State.bufHold s i) := by
  unfold Sys2Proof.Machine.State.bufHold
  try dsimp only
  repeat' first
    | with_reducible
        first
          | apply Law.refl
    | with_reducible apply Law.mk ?_

theorem State.bufDrop_law (s : State) (i : Nat) :
    Law [.bpm] s (State.bufDrop s i) := by
  unfold Sys2Proof.Machine.State.bufDrop
  try dsimp only
  repeat' first
    | with_reducible
        first
          | apply Law.refl | apply Law.ite
    | split
    | with_reducible apply Law.mk ?_

theorem State.dirtyAdd_law (s : State) (n : Nat) :
    Law [.gate] s (State.dirtyAdd s n) := by
  unfold Sys2Proof.Machine.State.dirtyAdd
  try dsimp only
  repeat' first
    | with_reducible
        first
          | apply Law.refl
    | with_reducible apply Law.mk ?_

theorem State.dirtySub_law (s : State) (n : Nat) :
    Law [.gate] s (State.dirtySub s n) := by
  unfold Sys2Proof.Machine.State.dirtySub
  try dsimp only
  repeat' first
    | with_reducible
        first
          | apply Law.refl
    | with_reducible apply Law.mk ?_

theorem State.quotaAdd_law (s : State) (o : Nat) (n : Nat) :
    Law [.slices] s (State.quotaAdd s o n) := by
  unfold Sys2Proof.Machine.State.quotaAdd
  try dsimp only
  repeat' first
    | with_reducible
        first
          | apply Law.refl | apply Law.ite | apply Law.next ?_ (State.sliceEdit_law _ _ _) ?_ | decide

theorem State.quotaSub_law (s : State) (o : Nat) (n : Nat) :
    Law [.slices] s (State.quotaSub s o n) := by
  unfold Sys2Proof.Machine.State.quotaSub
  try dsimp only
  repeat' first
    | with_reducible
        first
          | apply Law.refl | apply Law.ite | apply Law.next ?_ (State.sliceEdit_law _ _ _) ?_ | decide

theorem State.rungWait_law (s : State) (rung : Nat) :
    Law [.bpm] s (State.rungWait s rung) := by
  unfold Sys2Proof.Machine.State.rungWait
  try dsimp only
  repeat' first
    | with_reducible
        first
          | apply Law.refl
    | with_reducible apply Law.mk ?_

theorem State.slotGive_law (s : State) (dk : Nat) :
    Law [.dies] s (State.slotGive s dk) := by
  unfold Sys2Proof.Machine.State.slotGive
  try dsimp only
  repeat' first
    | with_reducible
        first
          | apply Law.refl | apply Law.ite
    | split
    | with_reducible apply Law.mk ?_

theorem State.opQueue_law (s : State) (o : Op) :
    Law [.bpm, .dies, .fch] s (State.opQueue s o) := by
  unfold Sys2Proof.Machine.State.opQueue
  try dsimp only
  repeat' first
    | with_reducible
        first
          | apply Law.refl | apply Law.ite | apply Law.next ?_ (State.rungWait_law _ _) ?_ | decide
    | with_reducible apply Law.mk ?_

theorem State.opEnd_law (s : State) (id : Nat) :
    Law [.bpm, .dies, .fch] s (State.opEnd s id) := by
  unfold Sys2Proof.Machine.State.opEnd
  try dsimp only
  repeat' first
    | with_reducible
        first
          | apply Law.refl | apply Law.next ?_ (State.rdGive_law _ _ _) ?_
          | apply Law.next ?_ (State.bufDrop_law _ _) ?_ | apply Law.next ?_ (State.slotGive_law _ _) ?_
          | apply Law.foldl | apply Law.foldlSnd | apply Law.foldlFst | decide
    | (intro _; try dsimp only)
    | split
    | with_reducible apply Law.mk ?_

theorem State.opDrop_law (s : State) (id : Nat) :
    Law [.bpm, .dies, .fch] s (State.opDrop s id) := by
  unfold Sys2Proof.Machine.State.opDrop
  try dsimp only
  repeat' first
    | with_reducible
        first
          | apply Law.refl | apply Law.ite | apply Law.next ?_ (State.opEnd_law _ _) ?_ | decide
    | split
    | with_reducible apply Law.mk ?_

theorem State.opMove_law (s : State) (id : Nat) (dk : Nat) (b : Nat) :
    Law [.bpm, .dies, .fch] s (State.opMove s id dk b) := by
  unfold Sys2Proof.Machine.State.opMove
  try dsimp only
  repeat' first
    | with_reducible
        first
          | apply Law.refl | apply Law.next ?_ (State.opQueue_law _ _) ?_
          | apply Law.next ?_ (State.slotGive_law _ _) ?_ | decide
    | split
    | with_reducible apply Law.mk ?_

theorem State.opLend_law (s : State) (id : Nat) (n : Nat) :
    Law [.fch] s (State.opLend s id n) := by
  unfold Sys2Proof.Machine.State.opLend
  try dsimp only
  repeat' first
    | with_reducible
        first
          | apply Law.refl
    | with_reducible apply Law.mk ?_

theorem State.readStop_law (s : State) (c : Nat) :
    Law [.ctxs, .bpm, .dies, .fch] s (State.readStop s c) := by
  unfold Sys2Proof.Machine.State.readStop
  try dsimp only
  repeat' first
    | with_reducible
        first
          | apply Law.refl | apply Law.next ?_ (State.opDrop_law _ _) ?_
          | apply Law.next ?_ (State.opLend_law _ _ _) ?_ | apply Law.next ?_ (State.bufDrop_law _ _) ?_
          | apply Law.next ?_ (State.rdGive_law _ _ _) ?_ | apply Law.next ?_ (State.ctxEdit_law _ _ _) ?_
          | apply Law.next ?_ (State.rdReturn_law _ _) ?_ | apply Law.forNats | apply Law.foldl | apply Law.foldlSnd
          | apply Law.foldlFst | decide
    | (intro _; try dsimp only)
    | split

theorem State.eraseQueue_law (s : State) (dk : Nat) (b : Nat) (owner : Nat) :
    Law [.bpm, .dies, .fch] s (State.eraseQueue s dk b owner) := by
  unfold Sys2Proof.Machine.State.eraseQueue
  try dsimp only
  repeat' first
    | with_reducible
        first
          | apply Law.refl | apply Law.ite | apply Law.next ?_ (State.opQueue_law _ _) ?_ | decide

theorem State.blockLeave_law (s : State) (dk : Nat) (b : Nat) :
    Law [.bpm, .blocks, .dies, .fch] s (State.blockLeave s dk b) := by
  unfold Sys2Proof.Machine.State.blockLeave
  try dsimp only
  repeat' first
    | with_reducible
        first
          | apply Law.refl | apply Law.ite | apply Law.next ?_ (State.freeBlock_law _ _ _) ?_
          | apply Law.next ?_ (State.opQueue_law _ _) ?_ | decide

theorem State.freePlace_law (s : State) (p : Place) :
    Law [.bpm, .blocks, .dies, .fch] s (State.freePlace s p) := by
  unfold Sys2Proof.Machine.State.freePlace
  try dsimp only
  repeat' first
    | with_reducible
        first
          | apply Law.refl | apply Law.next ?_ (State.blockLeave_law _ _ _) ?_ | apply Law.foldl
          | apply Law.foldlSnd | apply Law.foldlFst | decide
    | (intro _; try dsimp only)
    | split

theorem State.copyFence_law (s : State) (zk : Nat) :
    Law [.dma] s (State.copyFence s zk) := by
  unfold Sys2Proof.Machine.State.copyFence
  try dsimp only
  repeat' first
    | with_reducible
        first
          | apply Law.refl
    | with_reducible apply Law.mk ?_

theorem State.accTouch_law (s : State) (zk : Nat) (row : Nat) (lim : Nat) :
    Law [.bpm, .dma, .sward, .par] s (State.accTouch s zk row lim) := by
  unfold Sys2Proof.Machine.State.accTouch
  try dsimp only
  repeat' first
    | with_reducible
        first
          | apply Law.refl | apply Law.ite | apply Law.next ?_ (State.rungWait_law _ _) ?_
          | apply Law.next ?_ (State.flits_law _ _ _ _) ?_ | decide
    | split
    | with_reducible apply Law.mk ?_

theorem State.foldUnit_law (s : State) (zk : Nat) (row : Nat) (slot : Nat) (k : Nat) (v : Nat) :
    Law [.bpm, .dma, .sward, .par] s (State.foldUnit s zk row slot k v) := by
  unfold Sys2Proof.Machine.State.foldUnit
  try dsimp only
  repeat' first
    | with_reducible
        first
          | apply Law.refl | apply Law.next ?_ (State.accTouch_law _ _ _ _) ?_ | decide
    | with_reducible apply Law.mk ?_

theorem State.accDrop_law (s : State) (zk : Nat) (row : Nat) :
    Law [.par] s (State.accDrop s zk row) := by
  unfold Sys2Proof.Machine.State.accDrop
  try dsimp only
  repeat' first
    | with_reducible
        first
          | apply Law.refl
    | with_reducible apply Law.mk ?_

theorem State.zoneEdit_law (s : State) (zk : Nat) (f : Zone → Zone) :
    Law [.zones] s (State.zoneEdit s zk f) := by
  unfold Sys2Proof.Machine.State.zoneEdit
  try dsimp only
  repeat' first
    | with_reducible
        first
          | apply Law.refl
    | with_reducible apply Law.mk ?_

theorem State.foldStaged_law (s : State) (st : Staged) (j : Nat) :
    Law [.bpm, .dma, .sward, .par] s (State.foldStaged s st j) := by
  unfold Sys2Proof.Machine.State.foldStaged
  try dsimp only
  repeat' first
    | with_reducible
        first
          | apply Law.refl | apply Law.ite | apply Law.next ?_ (State.foldUnit_law _ _ _ _ _ _) ?_
          | apply Law.next ?_ (State.flits_law _ _ _ _) ?_ | decide
    | split

theorem State.srcQueue_law (s : State) (zk : Nat) (row : Nat) (owner : Nat) (slc : Bool) (pages : List Pg) :
    Law [.bpm, .dies, .fch] s (State.srcQueue s zk row owner slc pages) := by
  unfold Sys2Proof.Machine.State.srcQueue
  try dsimp only
  repeat' first
    | with_reducible
        first
          | apply Law.refl | apply Law.ite | apply Law.next ?_ (State.opQueue_law _ _) ?_ | apply Law.foldl
          | apply Law.foldlSnd | apply Law.foldlFst | decide
    | (intro _; try dsimp only)

theorem State.srcRead_law (s : State) (zk : Nat) (row : Nat) (owner : Nat) (slc : Bool) (pages : List Pg) (pos : Nat) :
    Law [.bpm, .dies, .fch] s (State.srcRead s zk row owner slc pages pos) := by
  unfold Sys2Proof.Machine.State.srcRead
  try dsimp only
  repeat' first
    | with_reducible
        first
          | apply Law.refl | apply Law.ite | apply Law.next ?_ (State.srcQueue_law _ _ _ _ _ _) ?_ | decide
    | split

theorem State.srcSettle_law (s : State) (zk : Nat) (row : Nat) :
    Law [.dma] s (State.srcSettle s zk row) := by
  unfold Sys2Proof.Machine.State.srcSettle
  try dsimp only
  repeat' first
    | with_reducible
        first
          | apply Law.refl | apply Law.ite | apply Law.next ?_ (State.copyFence_law _ _) ?_ | decide

theorem State.foldRead_law (s : State) (zk : Nat) (row : Nat) :
    Law [.bpm, .dies, .fch] s (State.foldRead s zk row) := by
  unfold Sys2Proof.Machine.State.foldRead
  try dsimp only
  repeat' first
    | with_reducible
        first
          | apply Law.refl | apply Law.ite | apply Law.next ?_ (State.srcRead_law _ _ _ _ _ _ _) ?_
          | apply Law.foldl | apply Law.foldlSnd | apply Law.foldlFst | decide
    | (intro _; try dsimp only)
    | split

theorem State.rowStart_law (s : State) (zk : Nat) (tag : Nat) (row : Nat) :
    Law [.zones, .bpm, .dma, .dies, .fch] s (State.rowStart s zk tag row) := by
  unfold Sys2Proof.Machine.State.rowStart
  try dsimp only
  repeat' first
    | with_reducible
        first
          | apply Law.refl | apply Law.ite | apply Law.next ?_ (State.opQueue_law _ _) ?_
          | apply Law.next ?_ (State.zoneEdit_law _ _ _) ?_ | apply Law.next ?_ (State.foldRead_law _ _ _) ?_
          | apply Law.foldl | apply Law.foldlSnd | apply Law.foldlFst | decide
    | (intro _; try dsimp only)
    | split
    | with_reducible apply Law.mk ?_

theorem State.rowsStart_law (s : State) (zk : Nat) (tag : Nat) (upto : Nat) :
    Law [.zones, .bpm, .dma, .dies, .fch] s (State.rowsStart s zk tag upto) := by
  unfold Sys2Proof.Machine.State.rowsStart
  try dsimp only
  repeat' first
    | with_reducible
        first
          | apply Law.refl | apply Law.ite | apply Law.next ?_ (State.rowStart_law _ _ _ _) ?_ | apply Law.forNats
          | decide
    | (intro _; try dsimp only)
    | split

theorem State.rowsCut_law (s : State) (zk : Nat) (rows : List Nat) :
    Law [.zones, .bpm, .dies, .fch] s (State.rowsCut s zk rows) := by
  unfold Sys2Proof.Machine.State.rowsCut
  try dsimp only
  repeat' first
    | with_reducible
        first
          | apply Law.refl | apply Law.ite | apply Law.next ?_ (State.zoneEdit_law _ _ _) ?_
          | apply Law.next ?_ (State.opEnd_law _ _) ?_ | apply Law.forNats | apply Law.foldl | apply Law.foldlSnd
          | apply Law.foldlFst | decide
    | (intro _; try dsimp only)
    | split

theorem State.releaseUnits_law (s : State) (stamp : Nat) (js : List Nat) :
    Law [.out, .gate, .staging, .bpm, .evt, .log] s (State.releaseUnits s stamp js) := by
  unfold Sys2Proof.Machine.State.releaseUnits
  try dsimp only
  repeat' first
    | with_reducible
        first
          | apply Law.refl | apply Law.ite | apply Law.next ?_ (State.dirtySub_law _ _) ?_
          | apply Law.next ?_ (State.bufFree_law _ _ _) ?_ | apply Law.foldl | apply Law.foldlSnd
          | apply Law.foldlFst | decide
    | (intro _; try dsimp only)
    | split
    | with_reducible apply Law.mk ?_

theorem State.releaseRow_law (s : State) (zk : Nat) (test : Nat → Nat → Bool) :
    Law [.out, .gate, .staging, .bpm, .evt, .log] s (State.releaseRow s zk test) := by
  unfold Sys2Proof.Machine.State.releaseRow
  try dsimp only
  repeat' first
    | with_reducible
        first
          | apply Law.refl | apply Law.next ?_ (State.releaseUnits_law _ _ _) ?_ | apply Law.forNats | decide
    | (intro _; try dsimp only)
    | split

theorem State.altsMap_law (s : State) (f : List Alt → List Alt) :
    Law [.ctxs] s (State.altsMap s f) := by
  unfold Sys2Proof.Machine.State.altsMap
  try dsimp only
  repeat' first
    | with_reducible
        first
          | apply Law.refl | apply Law.ite
    | with_reducible apply Law.mk ?_

theorem State.altsUndo_law (s : State) (stamp : Nat) :
    Law [.ctxs, .bpm] s (State.altsUndo s stamp) := by
  unfold Sys2Proof.Machine.State.altsUndo
  try dsimp only
  repeat' first
    | with_reducible
        first
          | apply Law.refl | apply Law.ite | apply Law.next ?_ (State.bufDrop_law _ _) ?_ | apply Law.foldl
          | apply Law.foldlSnd | apply Law.foldlFst | decide
    | (intro _; try dsimp only)
    | with_reducible apply Law.mk ?_

theorem State.tokCommit_law (s : State) (o : Nat) (stamp : Nat) :
    Law [.toks] s (State.tokCommit s o stamp) := by
  unfold Sys2Proof.Machine.State.tokCommit
  try dsimp only
  repeat' first
    | with_reducible
        first
          | apply Law.refl | apply Law.ite
    | with_reducible apply Law.mk ?_

theorem State.tokRemove_law (s : State) (o : Nat) (f : Tok → Bool) :
    Law [.toks] s (State.tokRemove s o f) := by
  unfold Sys2Proof.Machine.State.tokRemove
  try dsimp only
  repeat' first
    | with_reducible
        first
          | apply Law.refl
    | with_reducible apply Law.mk ?_

theorem State.versSettle_law (s : State) (zk : Nat) (stamp : Nat) (off : Nat) (n : Nat) :
    Law [.zones, .key] s (State.versSettle s zk stamp off n) := by
  unfold Sys2Proof.Machine.State.versSettle
  try dsimp only
  repeat' first
    | with_reducible
        first
          | apply Law.refl | apply Law.ite | apply Law.next ?_ (State.keyUnref_law _ _ _ _) ?_
          | apply Law.next ?_ (State.zoneEdit_law _ _ _) ?_ | apply Law.foldl | apply Law.foldlSnd
          | apply Law.foldlFst | decide
    | (intro _; try dsimp only)

theorem State.stageDone_law (s : State) (stamp : Nat) :
    Law [.out, .sqs, .qrecs, .ctxs, .zones, .gate, .staging, .toks, .bpm, .dma, .dies, .fch, .evt, .log] s (State.stageDone s stamp) := by
  unfold Sys2Proof.Machine.State.stageDone
  try dsimp only
  repeat' first
    | with_reducible
        first
          | apply Law.refl | apply Law.ite | apply Law.next ?_ (State.altsMap_law _ _) ?_
          | apply Law.next ?_ (State.tokCommit_law _ _ _) ?_ | apply Law.next ?_ (State.finish_law _ _ _ _ _ _) ?_
          | apply Law.next ?_ (State.releaseUnits_law _ _ _) ?_ | apply Law.next ?_ (State.zoneEdit_law _ _ _) ?_
          | apply Law.next ?_ (State.rowsStart_law _ _ _ _) ?_ | decide
    | split
    | with_reducible apply Law.mk ?_

theorem State.unstage_law (s : State) (st : Staged) (stamp : Nat) :
    Law [.out, .staging, .bpm, .evt, .log] s (State.unstage s st stamp) := by
  unfold Sys2Proof.Machine.State.unstage
  try dsimp only
  repeat' first
    | with_reducible
        first
          | apply Law.refl | apply Law.next ?_ (State.bufFree_law _ _ _) ?_ | apply Law.foldl | apply Law.foldlSnd
          | apply Law.foldlFst | decide
    | (intro _; try dsimp only)
    | with_reducible apply Law.mk ?_

theorem State.withdraw_law (s : State) (stamp : Nat) :
    Law [.out, .ctxs, .slices, .zones, .gate, .staging, .toks, .bpm, .dma, .sward, .dies, .fch, .par, .key, .evt, .log] s (State.withdraw s stamp) := by
  unfold Sys2Proof.Machine.State.withdraw
  try dsimp only
  repeat' first
    | with_reducible
        first
          | apply Law.refl | apply Law.ite | apply Law.next ?_ (State.zoneEdit_law _ _ _) ?_
          | apply Law.next ?_ (State.rowsCut_law _ _ _) ?_ | apply Law.next ?_ (State.foldStaged_law _ _ _) ?_
          | apply Law.next ?_ (State.keyUnref_law _ _ _ _) ?_ | apply Law.next ?_ (State.tokRemove_law _ _ _) ?_
          | apply Law.next ?_ (State.dirtySub_law _ _) ?_ | apply Law.next ?_ (State.quotaSub_law _ _ _) ?_
          | apply Law.next ?_ (State.altsUndo_law _ _) ?_ | apply Law.next ?_ (State.unstage_law _ _ _) ?_
          | apply Law.next ?_ (State.rowsStart_law _ _ _ _) ?_ | apply Law.foldl | apply Law.foldlSnd
          | apply Law.foldlFst | decide
    | (intro _; try dsimp only)
    | split

theorem State.flashPut_law (s : State) (dk : Nat) (b : Nat) (row : Nat) (l : List (Nat × Codeword)) :
    Law [.flash] s (State.flashPut s dk b row l) := by
  unfold Sys2Proof.Machine.State.flashPut
  have k : ∀ (l : List (Nat × Codeword)) (t : Tbl Codeword), t.wf = true →
      (l.foldl (fun t p => t.put (pageKey dk b row p.1) p.2) t).wf = true := fun l => by
    induction l with
    | nil => exact fun _ h => h
    | cons a l ih => exact fun t h => ih _ (Tbl.wf_put h)
  exact Law.mk (Law.refl _) (hx := fun h => k l s.flash h)

theorem State.flashWipe_law (s : State) (bk : Nat) :
    Law [.flash] s (State.flashWipe s bk) := by
  unfold Sys2Proof.Machine.State.flashWipe
  try dsimp only
  repeat' first
    | with_reducible
        first
          | apply Law.refl
    | with_reducible apply Law.mk ?_

theorem State.fillPages_law (s : State) (zk : Nat) (row : Nat) (p : Place) (pages : List Pg) (lim : Nat) :
    Law [.flash] s (State.fillPages s zk row p pages lim) := by
  unfold Sys2Proof.Machine.State.fillPages
  try dsimp only
  repeat' first
    | with_reducible
        first
          | apply Law.refl | apply Law.ite | apply Law.next ?_ (State.flashPut_law _ _ _ _ _) ?_ | apply Law.foldl
          | apply Law.foldlSnd | apply Law.foldlFst | decide
    | (intro _; try dsimp only)

theorem State.fillParity_law (s : State) (zk : Nat) (row : Nat) (g : Pg) :
    Law [.flash] s (State.fillParity s zk row g) := by
  unfold Sys2Proof.Machine.State.fillParity
  try dsimp only
  repeat' first
    | with_reducible
        first
          | apply Law.refl | apply Law.ite | apply Law.next ?_ (State.flashPut_law _ _ _ _ _) ?_ | decide

theorem State.accReload_law (s : State) (zk : Nat) (e : SlcEntry) :
    Law [.par] s (State.accReload s zk e) := by
  unfold Sys2Proof.Machine.State.accReload
  try dsimp only
  repeat' first
    | with_reducible
        first
          | apply Law.refl | apply Law.foldl | apply Law.foldlSnd | apply Law.foldlFst
    | (intro _; try dsimp only)
    | split
    | with_reducible apply Law.mk ?_

end Sys2Proof.Laws
end

