-- ==== Sys2Proof/Laws/Zones.lean ====
section
/-! SUPPORT. One law for each operation of Machine/: Zones, Gate:
the parts of the state that it may change, and that it breaks no promise. A row that another row runs has its law
here too. -/

-- One theorem after another: side by side they need more threads than the memory limit allows.
set_option Elab.async false

namespace Sys2Proof.Laws

open Sys2Proof Sys2Proof.Machine Sys2Proof.Safety

theorem State.slcPages_law (s : State) (zk : Nat) (row : Nat) (n : Nat) (ps : List (Nat × Nat)) :
    Law [.zones, .bpm, .dma, .blocks, .dies, .fch] s (State.slcPages s zk row n ps).2 := by
  unfold Sys2Proof.Machine.State.slcPages
  refine Law.iteSnd ?_ (Law.refl _)
  dsimp only
  refine Law.next ?_ (State.zoneEdit_law _ _ _) (by decide)
  refine Law.mk ?_
  refine Law.foldlSnd _ (Law.refl _) fun q a => ?_
  split
  · exact Law.refl _
  · exact Law.next (Law.next (Law.refl _) (State.blkEdit_law _ _ _) (by decide)) (State.opQueue_law _ _) (by decide)

theorem State.slcWrite_law (s : State) (zk : Nat) :
    Law [.zones, .bpm, .dma, .blocks, .dies, .fch] s (State.slcWrite s zk).1 := by
  unfold Sys2Proof.Machine.State.slcWrite
  try dsimp only
  repeat' first
    | with_reducible
        first
          | apply Law.refl | apply Law.iteSnd | apply Law.ite | apply Law.iteFst
          | apply Law.next ?_ (State.zoneEdit_law _ _ _) ?_ | apply Law.next ?_ (State.slcPages_law _ _ _ _ _) ?_
          | refine Law.next ?_ (Law.snd (State.slcPages_law _ _ _ _ _) ‹_ = (_, _)›) ?_ | assumption | decide
    | split
    | dsimp only

theorem State.slcReclaim_law (s : State) (dk : Nat) :
    Law [.zones, .bpm, .dma, .blocks, .dies, .fch] s (State.slcReclaim s dk) := by
  unfold Sys2Proof.Machine.State.slcReclaim
  try dsimp only
  repeat' first
    | with_reducible
        first
          | apply Law.refl | apply Law.iteFst | apply Law.ite | apply Law.next ?_ (State.eraseQueue_law _ _ _ _) ?_
          | apply Law.next ?_ (State.blkEdit_law _ _ _) ?_ | apply Law.next ?_ (State.slcWrite_law _ _) ?_
          | refine Law.next ?_ (Law.fst (State.slcWrite_law _ _) ‹_ = (_, _)›) ?_
          | apply Law.next ?_ (State.zoneEdit_law _ _ _) ?_ | apply Law.forNats | assumption | decide
    | (intro _; try dsimp only)
    | split

theorem State.entryDead_law (s : State) (zk : Nat) (e : Option SlcEntry) :
    Law [.zones, .bpm, .dma, .blocks, .dies, .fch] s (State.entryDead s zk e) := by
  unfold Sys2Proof.Machine.State.entryDead
  try dsimp only
  repeat' first
    | with_reducible
        first
          | apply Law.refl | apply Law.next ?_ (State.slcReclaim_law _ _) ?_
          | apply Law.next ?_ (State.zoneEdit_law _ _ _) ?_ | apply Law.foldl | apply Law.foldlSnd
          | apply Law.foldlFst | decide
    | (intro _; try dsimp only)
    | split

theorem State.slcStart_law (s : State) (zk : Nat) :
    Law [.zones, .bpm, .dma, .blocks, .dies, .fch] s (State.slcStart s zk) := by
  unfold Sys2Proof.Machine.State.slcStart
  try dsimp only
  repeat' first
    | with_reducible
        first
          | apply Law.refl | apply Law.iteFst | apply Law.next ?_ (State.slcWrite_law _ _) ?_
          | refine Law.next ?_ (Law.fst (State.slcWrite_law _ _) ‹_ = (_, _)›) ?_
          | apply Law.next ?_ (State.slcReclaim_law _ _) ?_ | apply Law.foldl | apply Law.foldlSnd
          | apply Law.foldlFst | assumption | decide
    | (intro _; try dsimp only)

theorem State.flushDone_law (s : State) (zk : Nat) :
    Law [.sqs, .qrecs, .ctxs] s (State.flushDone s zk) := by
  unfold Sys2Proof.Machine.State.flushDone
  try dsimp only
  repeat' first
    | with_reducible
        first
          | apply Law.refl | apply Law.ite | apply Law.next ?_ (State.ctxEdit_law _ _ _) ?_
          | apply Law.next ?_ (State.finish_law _ _ _ _ _ _) ?_ | apply Law.forNats | decide
    | (intro _; try dsimp only)
    | split

theorem State.zoneClosed_law (s : State) (zk : Nat) :
    Law [.zones, .bpm, .dma, .blocks, .dies, .fch] s (State.zoneClosed s zk) := by
  unfold Sys2Proof.Machine.State.zoneClosed
  try dsimp only
  repeat' first
    | with_reducible
        first
          | apply Law.refl | apply Law.next ?_ (State.slcStart_law _ _) ?_
          | apply Law.next ?_ (State.zoneEdit_law _ _ _) ?_ | decide

theorem State.implClose_law (s : State) (v : Option Nat) (stamp : Nat) :
    Law [.zones, .gate, .bpm, .dma, .blocks, .dies, .fch] s (State.implClose s v stamp) := by
  unfold Sys2Proof.Machine.State.implClose
  try dsimp only
  repeat' first
    | with_reducible
        first
          | apply Law.refl | apply Law.next ?_ (State.record_law _ _) ?_
          | apply Law.next ?_ (State.zoneClosed_law _ _) ?_ | decide
    | split

theorem State.recordAll_law (s : State) (l : List CRec) :
    Law [.gate] s (State.recordAll s l) := by
  unfold Sys2Proof.Machine.State.recordAll
  try dsimp only
  repeat' first
    | with_reducible
        first
          | apply Law.refl | apply Law.next ?_ (State.record_law _ _) ?_ | apply Law.foldl | apply Law.foldlSnd
          | apply Law.foldlFst | decide
    | (intro _; try dsimp only)

theorem State.dropProgs_law (s : State) (zk : Nat) (f : OpKind → Bool) :
    Law [.bpm, .dies, .fch] s (State.dropProgs s zk f) := by
  unfold Sys2Proof.Machine.State.dropProgs
  try dsimp only
  repeat' first
    | with_reducible
        first
          | apply Law.refl | apply Law.next ?_ (State.opDrop_law _ _) ?_ | apply Law.forNats | decide
    | (intro _; try dsimp only)
    | split

theorem State.discardStaged_law (s : State) (zk : Nat) :
    Law [.out, .gate, .staging, .bpm, .evt, .log] s (State.discardStaged s zk) := by
  unfold Sys2Proof.Machine.State.discardStaged
  try dsimp only
  repeat' first
    | with_reducible
        first
          | apply Law.refl | apply Law.ite | apply Law.next ?_ (State.releaseUnits_law _ _ _) ?_ | apply Law.forNats
          | decide
    | (intro _; try dsimp only)
    | split
    | with_reducible apply Law.mk ?_

theorem State.keyRecClear_law (s : State) (zk : Nat) :
    Law [.zones, .key] s (State.keyRecClear s zk) := by
  unfold Sys2Proof.Machine.State.keyRecClear
  try dsimp only
  repeat' first
    | with_reducible
        first
          | apply Law.refl | apply Law.next ?_ (State.zoneEdit_law _ _ _) ?_
          | apply Law.next ?_ (State.keyUnref_law _ _ _ _) ?_ | apply Law.foldl | apply Law.foldlSnd
          | apply Law.foldlFst | decide
    | (intro _; try dsimp only)

theorem State.accClear_law (s : State) (zk : Nat) :
    Law [.par] s (State.accClear s zk) := by
  unfold Sys2Proof.Machine.State.accClear
  try dsimp only
  repeat' first
    | with_reducible
        first
          | apply Law.refl
    | with_reducible apply Law.mk ?_

theorem State.rebClear_law (s : State) (zk : Nat) :
    Law [.par] s (State.rebClear s zk) := by
  unfold Sys2Proof.Machine.State.rebClear
  try dsimp only
  repeat' first
    | with_reducible
        first
          | apply Law.refl | apply Law.ite
    | with_reducible apply Law.mk ?_

theorem State.rebDiscard_law (s : State) (zk : Nat) :
    Law [.zones, .bpm, .blocks, .dies, .fch, .par] s (State.rebDiscard s zk) := by
  unfold Sys2Proof.Machine.State.rebDiscard
  try dsimp only
  repeat' first
    | with_reducible
        first
          | apply Law.refl | apply Law.ite | apply Law.next ?_ (State.opDrop_law _ _) ?_
          | apply Law.next ?_ (State.zoneEdit_law _ _ _) ?_ | apply Law.next ?_ (State.blockLeave_law _ _ _) ?_
          | apply Law.next ?_ (State.rebClear_law _ _) ?_ | apply Law.forNats | apply Law.foldl | apply Law.foldlSnd
          | apply Law.foldlFst | decide
    | (intro _; try dsimp only)
    | split

theorem State.copyingLeave_law (s : State) (zk : Nat) :
    Law [.bpm, .blocks, .dies, .fch] s (State.copyingLeave s zk) := by
  unfold Sys2Proof.Machine.State.copyingLeave
  try dsimp only
  repeat' first
    | with_reducible
        first
          | apply Law.refl | apply Law.next ?_ (State.blockLeave_law _ _ _) ?_ | apply Law.foldl
          | apply Law.foldlSnd | apply Law.foldlFst | decide
    | (intro _; try dsimp only)

theorem State.zoneRelease_law (s : State) (zk : Nat) (stamp : Nat) :
    Law [.out, .sqs, .qrecs, .ctxs, .slices, .zones, .gate, .staging, .toks, .bpm, .blocks, .dies, .fch, .par, .key, .evt, .log] s (State.zoneRelease s zk stamp) := by
  unfold Sys2Proof.Machine.State.zoneRelease
  try dsimp only
  repeat' first
    | with_reducible
        first
          | apply Law.refl | apply Law.next ?_ (State.tokRemove_law _ _ _) ?_
          | apply Law.next ?_ (State.quotaSub_law _ _ _) ?_ | apply Law.next ?_ (State.keyRecClear_law _ _) ?_
          | apply Law.next ?_ (State.rebClear_law _ _) ?_ | apply Law.next ?_ (State.accClear_law _ _) ?_
          | apply Law.next ?_ (State.discardStaged_law _ _) ?_ | apply Law.next ?_ (State.dropProgs_law _ _ _) ?_
          | apply Law.next ?_ (State.copyingLeave_law _ _) ?_ | apply Law.next ?_ (State.freePlace_law _ _) ?_
          | apply Law.next ?_ (State.flushDone_law _ _) ?_ | apply Law.next ?_ (State.zoneEdit_law _ _ _) ?_
          | apply Law.foldl | apply Law.foldlSnd | apply Law.foldlFst | decide
    | (intro _; try dsimp only)
    | split

theorem State.zoneUnplace_law (s : State) (zk : Nat) :
    Law [.zones, .blocks, .par, .key] s (State.zoneUnplace s zk) := by
  unfold Sys2Proof.Machine.State.zoneUnplace
  try dsimp only
  repeat' first
    | with_reducible
        first
          | apply Law.refl | apply Law.ite | apply Law.next ?_ (State.accClear_law _ _) ?_
          | apply Law.next ?_ (State.keyRecClear_law _ _) ?_ | apply Law.next ?_ (State.blkEdit_law _ _ _) ?_
          | apply Law.next ?_ (State.zoneEdit_law _ _ _) ?_ | apply Law.foldl | apply Law.foldlSnd
          | apply Law.foldlFst | decide
    | (intro _; try dsimp only)
    | split

theorem State.leaseSync_law (s : State) (zk : Nat) :
    Law [.out, .sward, .cas] s (State.leaseSync s zk) := by
  unfold Sys2Proof.Machine.State.leaseSync
  try dsimp only
  repeat' first
    | with_reducible
        first
          | apply Law.refl | apply Law.ite | apply Law.next ?_ (State.casSend_law _ _ _ _ _ _) ?_ | apply Law.foldl
          | apply Law.foldlSnd | apply Law.foldlFst | decide
    | (intro _; try dsimp only)
    | split
    | with_reducible apply Law.mk ?_

theorem State.migCheck_law (s : State) :
    Law [.out, .zne, .evt, .log] s (State.migCheck s) := by
  unfold Sys2Proof.Machine.State.migCheck
  try dsimp only
  repeat' first
    | with_reducible
        first
          | apply Law.refl | apply Law.ite | apply Law.next ?_ (State.fire_law _ _ _ _ _ _) ?_ | decide
    | split
    | with_reducible apply Law.mk ?_

theorem State.migClose_law (s : State) (zk : Nat) :
    Law [.zones, .bpm, .dma, .blocks, .dies, .fch] s (State.migClose s zk) := by
  unfold Sys2Proof.Machine.State.migClose
  try dsimp only
  repeat' first
    | with_reducible
        first
          | apply Law.refl | apply Law.ite | apply Law.next ?_ (State.entryDead_law _ _ _) ?_
          | apply Law.next ?_ (State.zoneEdit_law _ _ _) ?_ | apply Law.next ?_ (State.freePlace_law _ _) ?_
          | decide
    | split

theorem State.placeZone_law (s : State) (zk : Nat) (stamp : Nat) (p : Place) :
    Law [.out, .nvme, .sqs, .qrecs, .ctxs, .slices, .nss, .zones, .blocks, .evt] s (State.placeZone s zk stamp p) := by
  unfold Sys2Proof.Machine.State.placeZone
  try dsimp only
  repeat' first
    | with_reducible
        first
          | apply Law.refl | apply Law.ite | apply Law.next ?_ (State.zoneEdit_law _ _ _) ?_
          | apply Law.next ?_ (State.takePlace_law _ _ _) ?_ | apply Law.next ?_ (State.notice_law _ _ _ _ _) ?_
          | apply Law.next ?_ (State.aenRaise_law _ _ _ _) ?_ | decide
    | with_reducible apply Law.mk ?_

theorem State.zoneOp_law (s : State) (op : ZOp) (zk : Nat) (stamp : Nat) (fence : BitVec (OfNat.ofNat 256)) :
    LawE [.out, .nvme, .sqs, .qrecs, .ctxs, .slices, .nss, .zones, .gate, .staging, .toks, .bpm, .dma, .blocks, .dies, .fch, .par, .key, .evt, .log] s (State.zoneOp s op zk stamp fence) := by
  unfold Sys2Proof.Machine.State.zoneOp
  try dsimp only
  repeat' first
    | with_reducible
        first
          | apply Law.refl | apply Law.ite | apply LawE.ite | apply LawE.error | apply LawE.ok
          | apply Law.next ?_ (State.zoneEdit_law _ _ _) ?_ | apply Law.next ?_ (State.implClose_law _ _ _) ?_
          | apply Law.next ?_ (State.placeZone_law _ _ _ _) ?_ | apply Law.next ?_ (State.zoneUnplace_law _ _) ?_
          | apply Law.next ?_ (State.zoneClosed_law _ _) ?_ | apply Law.next ?_ (State.rebDiscard_law _ _) ?_
          | apply Law.next ?_ (State.rowsStart_law _ _ _ _) ?_ | apply Law.next ?_ (State.zoneRelease_law _ _ _) ?_
          | decide
    | split

theorem State.sanErase_law (s : State) (c : Nat) (set : List Nat) :
    Law [.sqs, .qrecs, .ctxs, .zones, .bpm, .dma, .blocks, .dies, .fch] s (State.sanErase s c set) := by
  unfold Sys2Proof.Machine.State.sanErase
  try dsimp only
  repeat' first
    | with_reducible
        first
          | apply Law.refl | apply Law.iteFst | apply Law.ite | apply Law.next ?_ (State.slcWrite_law _ _) ?_
          | refine Law.next ?_ (Law.fst (State.slcWrite_law _ _) ‹_ = (_, _)›) ?_
          | apply Law.next ?_ (State.zoneEdit_law _ _ _) ?_ | apply Law.next ?_ (State.eraseQueue_law _ _ _ _) ?_
          | apply Law.next ?_ (State.ctxEdit_law _ _ _) ?_ | apply Law.next ?_ (State.finish_law _ _ _ _ _ _) ?_
          | apply Law.forNats | assumption | decide
    | (intro _; try dsimp only)

theorem State.copyRead_law (s : State) (zk : Nat) (owner : Nat) (l : List (Nat × Nat × Bool)) :
    Law [.bpm, .dies, .fch] s (State.copyRead s zk owner l) := by
  unfold Sys2Proof.Machine.State.copyRead
  try dsimp only
  repeat' first
    | with_reducible
        first
          | apply Law.refl | apply Law.ite | apply Law.next ?_ (State.srcRead_law _ _ _ _ _ _ _) ?_
          | apply Law.foldl | apply Law.foldlSnd | apply Law.foldlFst | decide
    | (intro _; try dsimp only)
    | split

theorem State.copyFill_law (s : State) (zk : Nat) :
    Law [.zones, .flash] s (State.copyFill s zk) := by
  unfold Sys2Proof.Machine.State.copyFill
  try dsimp only
  repeat' first
    | with_reducible
        first
          | apply Law.refl | apply Law.ite | apply Law.next ?_ (State.fillPages_law _ _ _ _ _ _) ?_
          | apply Law.next ?_ (State.zoneEdit_law _ _ _) ?_ | apply Law.foldl | apply Law.foldlSnd
          | apply Law.foldlFst | decide
    | (intro _; try dsimp only)
    | split

theorem State.mergeTo_law (s : State) (zk : Nat) (stamp : Nat) (data : Place) (log : Option Place) :
    Law [.zones, .gate, .staging, .bpm, .dma, .blocks, .dies, .fch, .par] s (State.mergeTo s zk stamp data log) := by
  unfold Sys2Proof.Machine.State.mergeTo
  try dsimp only
  repeat' first
    | with_reducible
        first
          | apply Law.refl | apply Law.ite | apply Law.next ?_ (State.dropProgs_law _ _ _) ?_
          | apply Law.next ?_ (State.copyRead_law _ _ _ _) ?_ | apply Law.next ?_ (State.opQueue_law _ _) ?_
          | apply Law.next ?_ (State.copyFence_law _ _) ?_ | apply Law.next ?_ (State.recordAll_law _ _) ?_
          | apply Law.next ?_ (State.copyingLeave_law _ _) ?_ | apply Law.next ?_ (State.zoneEdit_law _ _ _) ?_
          | apply Law.next ?_ (State.accClear_law _ _) ?_ | apply Law.forNats | apply Law.foldl | apply Law.foldlSnd
          | apply Law.foldlFst | decide
    | (intro _; try dsimp only)
    | split
    | with_reducible apply Law.mk ?_

theorem State.merge_law (s : State) (zk : Nat) (stamp : Nat) (keep : Bool) :
    Law [.zones, .gate, .staging, .bpm, .dma, .blocks, .dies, .flash, .fch, .par] s (State.merge s zk stamp keep) := by
  unfold Sys2Proof.Machine.State.merge
  try dsimp only
  repeat' first
    | with_reducible
        first
          | apply Law.refl | apply Law.iteSnd | apply Law.ite | apply Law.next ?_ (State.migClose_law _ _) ?_
          | apply Law.next ?_ (State.copyFill_law _ _) ?_ | apply Law.next ?_ (State.dropProgs_law _ _ _) ?_
          | apply Law.next ?_ (State.freshRow_law _ _ _) ?_
          | refine Law.next ?_ (Law.snd (State.freshRow_law _ _ _) ‹_ = (_, _)›) ?_
          | apply Law.next ?_ (State.freePlace_law _ _) ?_ | apply Law.next ?_ (State.mergeTo_law _ _ _ _ _) ?_
          | assumption | decide
    | split

theorem State.logAssign_law (s : State) (chip : Nat) (stamp : Nat) :
    Law [.zones, .gate, .staging, .bpm, .dma, .blocks, .dies, .flash, .fch, .zne, .par] s (State.logAssign s chip stamp) := by
  unfold Sys2Proof.Machine.State.logAssign
  try dsimp only
  repeat' first
    | with_reducible
        first
          | apply Law.refl | apply Law.ite | apply Law.next ?_ (State.merge_law _ _ _ _) ?_ | decide
    | split
    | with_reducible apply Law.mk ?_

theorem State.logReturn_law (s : State) (p : Option Place) :
    Law [.zne] s (State.logReturn s p) := by
  unfold Sys2Proof.Machine.State.logReturn
  try dsimp only
  repeat' first
    | with_reducible
        first
          | apply Law.refl
    | split
    | with_reducible apply Law.mk ?_

theorem State.logRoom_law (s : State) (zk : Nat) (stamp : Nat) (n : Nat) (fence : BitVec (OfNat.ofNat 256)) :
    LawE [.zones, .gate, .staging, .bpm, .dma, .blocks, .dies, .flash, .fch, .zne, .par] s (State.logRoom s zk stamp n fence) := by
  unfold Sys2Proof.Machine.State.logRoom
  try dsimp only
  repeat' first
    | with_reducible
        first
          | apply Law.refl | apply Law.iteSnd | apply Law.ite | apply LawE.ite | apply LawE.error | apply LawE.ok
          | apply Law.next ?_ (State.zoneEdit_law _ _ _) ?_ | apply Law.next ?_ (State.merge_law _ _ _ _) ?_
          | apply Law.next ?_ (State.freshRow_law _ _ _) ?_
          | refine Law.next ?_ (Law.snd (State.freshRow_law _ _ _) ‹_ = (_, _)›) ?_
          | apply Law.next ?_ (State.logAssign_law _ _ _) ?_ | apply Law.next ?_ (State.takePlace_law _ _ _) ?_
          | assumption | decide
    | split

theorem State.cancelWrite_law (s : State) (stamp : Nat) :
    Law [.out, .ctxs, .slices, .gate, .staging, .toks, .bpm, .key, .evt, .log] s (State.cancelWrite s stamp) := by
  unfold Sys2Proof.Machine.State.cancelWrite
  try dsimp only
  repeat' first
    | with_reducible
        first
          | apply Law.refl | apply Law.next ?_ (State.tokRemove_law _ _ _) ?_
          | apply Law.next ?_ (State.keyUnref_law _ _ _ _) ?_ | apply Law.next ?_ (State.dirtySub_law _ _) ?_
          | apply Law.next ?_ (State.quotaSub_law _ _ _) ?_ | apply Law.next ?_ (State.altsUndo_law _ _) ?_
          | apply Law.next ?_ (State.bufFree_law _ _ _) ?_ | apply Law.foldl | apply Law.foldlSnd
          | apply Law.foldlFst | decide
    | (intro _; try dsimp only)
    | split
    | with_reducible apply Law.mk ?_

theorem State.failWrite_law (s : State) (c : Nat) (st : Status) :
    Law [.out, .sqs, .qrecs, .ctxs, .slices, .zones, .gate, .staging, .toks, .bpm, .dma, .sward, .dies, .fch, .par, .key, .evt, .log] s (State.failWrite s c st) := by
  unfold Sys2Proof.Machine.State.failWrite
  try dsimp only
  repeat' first
    | with_reducible
        first
          | apply Law.refl | apply Law.ite | apply Law.next ?_ (State.finish_law _ _ _ _ _ _) ?_
          | apply Law.next ?_ (State.ctxEdit_law _ _ _) ?_ | apply Law.next ?_ (State.withdraw_law _ _) ?_
          | apply Law.next ?_ (State.cancelWrite_law _ _) ?_ | decide
    | split

theorem State.commitFail_law (s : State) (stamp : Nat) (e : Entry) (zk : Nat) (st : Status) (dw0 : Dword) (dw1 : Dword) :
    Law [.out, .sqs, .qrecs, .ctxs, .slices, .gate, .staging, .toks, .bpm, .key, .evt, .log] s (State.commitFail s stamp e zk st dw0 dw1) := by
  unfold Sys2Proof.Machine.State.commitFail
  try dsimp only
  repeat' first
    | with_reducible
        first
          | apply Law.refl | apply Law.ite | apply Law.next ?_ (State.record_law _ _) ?_
          | apply Law.next ?_ (State.cancelWrite_law _ _) ?_ | apply Law.next ?_ (State.rdReturn_law _ _) ?_
          | apply Law.next ?_ (State.finish_law _ _ _ _ _ _) ?_ | apply Law.next ?_ (State.ctxEdit_law _ _ _) ?_
          | decide

theorem State.keyRecAdd_law (s : State) (zk : Nat) (off : Nat) (gen : Nat) :
    Law [.zones, .key] s (State.keyRecAdd s zk off gen) := by
  unfold Sys2Proof.Machine.State.keyRecAdd
  try dsimp only
  repeat' first
    | with_reducible
        first
          | apply Law.refl | apply Law.ite | apply Law.next ?_ (State.keyRef_law _ _ _ _) ?_
          | apply Law.next ?_ (State.zoneEdit_law _ _ _) ?_ | apply Law.next ?_ (State.keyUnref_law _ _ _ _) ?_
          | decide

theorem State.tallyWr_law (s : State) (o : Nat) (n : Nat) (p : Option Place) :
    Law [.mtr] s (State.tallyWr s o n p) := by
  unfold Sys2Proof.Machine.State.tallyWr
  try dsimp only
  repeat' first
    | with_reducible
        first
          | apply Law.refl | apply Law.ite | apply Law.next ?_ (State.tally_law _ _ _) ?_ | decide
    | split

theorem State.writeSeq_law (s : State) (stamp : Nat) (e : Entry) (zk : Nat) (off : Nat) (st : Staged) :
    Law [.ctxs, .zones, .gate, .staging, .key, .mtr] s (State.writeSeq s stamp e zk off st) := by
  unfold Sys2Proof.Machine.State.writeSeq
  try dsimp only
  repeat' first
    | with_reducible
        first
          | apply Law.refl | apply Law.ite | apply Law.next ?_ (State.zoneEdit_law _ _ _) ?_
          | apply Law.next ?_ (State.keyRecAdd_law _ _ _ _) ?_ | apply Law.next ?_ (State.record_law _ _) ?_
          | apply Law.next ?_ (State.recordAll_law _ _) ?_ | apply Law.next ?_ (State.ctxEdit_law _ _ _) ?_
          | apply Law.next ?_ (State.tallyWr_law _ _ _ _) ?_ | decide
    | split
    | with_reducible apply Law.mk ?_

theorem State.writeConv_law (s : State) (stamp : Nat) (e : Entry) (zk : Nat) (st : Staged) :
    Law [.ctxs, .slices, .zones, .gate, .staging, .key, .mtr] s (State.writeConv s stamp e zk st) := by
  unfold Sys2Proof.Machine.State.writeConv
  try dsimp only
  repeat' first
    | with_reducible
        first
          | apply Law.refl | apply Law.next ?_ (State.zoneEdit_law _ _ _) ?_
          | apply Law.next ?_ (State.quotaSub_law _ _ _) ?_ | apply Law.next ?_ (State.keyUnref_law _ _ _ _) ?_
          | apply Law.next ?_ (State.keyRef_law _ _ _ _) ?_ | apply Law.next ?_ (State.record_law _ _) ?_
          | apply Law.next ?_ (State.recordAll_law _ _) ?_ | apply Law.next ?_ (State.ctxEdit_law _ _ _) ?_
          | apply Law.next ?_ (State.tallyWr_law _ _ _ _) ?_ | decide
    | split
    | with_reducible apply Law.mk ?_

theorem State.tokLba_law (s : State) (o : Nat) (stamp : Nat) (lba : Nat) :
    Law [.toks] s (State.tokLba s o stamp lba) := by
  unfold Sys2Proof.Machine.State.tokLba
  try dsimp only
  repeat' first
    | with_reducible
        first
          | apply Law.refl | apply Law.ite
    | with_reducible apply Law.mk ?_

theorem State.tokenStep_law (s : State) (stamp : Nat) (e : Entry) (zk : Nat) :
    LawE [.toks] s (State.tokenStep s stamp e zk) := by
  unfold Sys2Proof.Machine.State.tokenStep
  try dsimp only
  repeat' first
    | with_reducible
        first
          | apply Law.refl | apply Law.ite | apply LawE.ite | apply LawE.error | apply LawE.ok
    | split
    | with_reducible apply Law.mk ?_

theorem State.commitWrite_law (s : State) (stamp : Nat) (e : Entry) (zk : Nat) :
    Law [.out, .nvme, .sqs, .qrecs, .ctxs, .slices, .nss, .zones, .gate, .staging, .toks, .bpm, .dma, .blocks, .dies, .flash, .fch, .zne, .par, .key, .mtr, .evt, .log] s (State.commitWrite s stamp e zk) := by
  unfold Sys2Proof.Machine.State.commitWrite
  try dsimp only
  repeat' first
    | with_reducible
        first
          | apply Law.refl | apply Law.ite | apply Law.next ?_ (State.commitFail_law _ _ _ _ _ _ _) ?_
          | refine Law.next ?_ (LawE.get (State.logRoom_law _ _ _ _ _) ‹_ = Except.ok _›) ?_
          | apply LawE.mono (State.logRoom_law _ _ _ _ _) ?_ | apply Law.next ?_ (State.writeConv_law _ _ _ _ _) ?_
          | refine Law.next ?_ (LawE.get (State.tokenStep_law _ _ _ _) ‹_ = Except.ok _›) ?_
          | apply LawE.mono (State.tokenStep_law _ _ _ _) ?_ | apply Law.next ?_ (State.implClose_law _ _ _) ?_
          | apply Law.next ?_ (State.placeZone_law _ _ _ _) ?_ | apply Law.next ?_ (State.tokLba_law _ _ _ _) ?_
          | apply Law.next ?_ (State.writeSeq_law _ _ _ _ _ _) ?_ | decide
    | split

theorem State.commitRead_law (s : State) (stamp : Nat) (e : Entry) (zk : Nat) :
    Law [.out, .sqs, .qrecs, .ctxs, .slices, .gate, .staging, .toks, .bpm, .key, .mtr, .evt, .log] s (State.commitRead s stamp e zk) := by
  unfold Sys2Proof.Machine.State.commitRead
  try dsimp only
  repeat' first
    | with_reducible
        first
          | apply Law.refl | apply Law.ite | apply Law.next ?_ (State.commitFail_law _ _ _ _ _ _ _) ?_
          | apply Law.next ?_ (State.ctxEdit_law _ _ _) ?_ | apply Law.next ?_ (State.tally_law _ _ _) ?_ | decide
    | split

theorem State.deallocate_law (s : State) (stamp : Nat) (zk : Nat) (off : Nat) (n : Nat) :
    Law [.slices, .zones, .key] s (State.deallocate s stamp zk off n) := by
  unfold Sys2Proof.Machine.State.deallocate
  try dsimp only
  repeat' first
    | with_reducible
        first
          | apply Law.refl | apply Law.ite | apply Law.next ?_ (State.zoneEdit_law _ _ _) ?_
          | apply Law.next ?_ (State.quotaSub_law _ _ _) ?_ | apply Law.next ?_ (State.keyUnref_law _ _ _ _) ?_
          | apply Law.foldl | apply Law.foldlSnd | apply Law.foldlFst | decide
    | (intro _; try dsimp only)

theorem State.sanUnstage_law (s : State) (zk : Nat) (l : List (Nat × Nat × Nat)) :
    Law [.out, .gate, .staging, .bpm, .evt, .log] s (State.sanUnstage s zk l) := by
  unfold Sys2Proof.Machine.State.sanUnstage
  try dsimp only
  repeat' first
    | with_reducible
        first
          | apply Law.refl | apply Law.next ?_ (State.releaseUnits_law _ _ _) ?_ | apply Law.forNats | decide
    | (intro _; try dsimp only)
    | split

theorem State.commitDsm_law (s : State) (stamp : Nat) (e : Entry) (zk : Nat) :
    Law [.out, .sqs, .qrecs, .ctxs, .slices, .zones, .gate, .staging, .toks, .bpm, .dma, .blocks, .dies, .flash, .fch, .par, .key, .evt, .log] s (State.commitDsm s stamp e zk) := by
  unfold Sys2Proof.Machine.State.commitDsm
  try dsimp only
  repeat' first
    | with_reducible
        first
          | apply Law.refl | apply Law.ite | apply Law.next ?_ (State.commitFail_law _ _ _ _ _ _ _) ?_
          | apply Law.next ?_ (State.record_law _ _) ?_ | apply Law.next ?_ (State.deallocate_law _ _ _ _ _) ?_
          | apply Law.next ?_ (State.sanUnstage_law _ _ _) ?_ | apply Law.next ?_ (State.merge_law _ _ _ _) ?_
          | apply Law.next ?_ (State.ctxEdit_law _ _ _) ?_ | apply Law.foldl | apply Law.foldlSnd
          | apply Law.foldlFst | decide
    | (intro _; try dsimp only)
    | split

theorem State.abortDecide_law (s : State) (c : Nat) (t : Nat) :
    Law [.out, .sqs, .qrecs, .ctxs, .slices, .zones, .gate, .staging, .toks, .bpm, .dma, .sward, .dies, .fch, .par, .key, .evt, .log] s (State.abortDecide s c t).2 := by
  unfold Sys2Proof.Machine.State.abortDecide
  try dsimp only
  repeat' first
    | with_reducible
        first
          | apply Law.refl | apply Law.ite | apply Law.iteSnd | apply Law.next ?_ (State.finish_law _ _ _ _ _ _) ?_
          | apply Law.next ?_ (State.ctxEdit_law _ _ _) ?_ | apply Law.next ?_ (State.failWrite_law _ _ _) ?_
          | apply Law.next ?_ (State.readStop_law _ _) ?_ | decide
    | split
    | dsimp only

theorem State.keyDecide_law (s : State) (stamp : Nat) (e : Entry) :
    Law [.free, .out, .sqs, .qrecs, .ctxs, .gate, .key, .nv, .evt, .log] s (State.keyDecide s stamp e) := by
  unfold Sys2Proof.Machine.State.keyDecide
  try dsimp only
  repeat' first
    | with_reducible
        first
          | apply Law.refl | apply Law.ite | apply Law.next ?_ (State.finish_law _ _ _ _ _ _) ?_
          | apply Law.next ?_ (State.record_law _ _) ?_ | apply Law.next ?_ (State.fire_law _ _ _ _ _ _) ?_
          | apply Law.next ?_ (State.ledger_law _) ?_ | apply Law.next ?_ (State.keyRotate_law _ _) ?_
          | apply Law.next ?_ (State.keyRenewNext_law _ _) ?_ | apply Law.next ?_ (State.keyStop_law _ _) ?_
          | decide

theorem State.sanRecords_law (s : State) (stamp : Nat) (owner : Nat) (resolved : Bool) :
    Law [.gate] s (State.sanRecords s stamp owner resolved) := by
  unfold Sys2Proof.Machine.State.sanRecords
  try dsimp only
  repeat' first
    | with_reducible
        first
          | apply Law.refl | apply Law.next ?_ (State.recordAll_law _ _) ?_ | decide

theorem State.sanOps_law (s : State) :
    Law [.bpm, .dies, .fch] s (State.sanOps s) := by
  unfold Sys2Proof.Machine.State.sanOps
  try dsimp only
  repeat' first
    | with_reducible
        first
          | apply Law.refl | apply Law.next ?_ (State.opDrop_law _ _) ?_ | apply Law.forNats | decide
    | (intro _; try dsimp only)
    | split

theorem State.sanZones_law (s : State) (stamp : Nat) :
    Law [.slices, .zones, .toks, .bpm, .blocks, .dies, .fch, .zne, .par, .key] s (State.sanZones s stamp) := by
  unfold Sys2Proof.Machine.State.sanZones
  try dsimp only
  repeat' first
    | with_reducible
        first
          | apply Law.refl | apply Law.next ?_ (State.copyingLeave_law _ _) ?_
          | apply Law.next ?_ (State.freePlace_law _ _) ?_ | apply Law.next ?_ (State.sanOps_law _) ?_
          | apply Law.foldl | apply Law.foldlSnd | apply Law.foldlFst | decide
    | (intro _; try dsimp only)
    | split
    | with_reducible apply Law.mk ?_

theorem State.sanInfo_law (s : State) :
    Law [.blocks] s (State.sanInfo s) := by
  unfold Sys2Proof.Machine.State.sanInfo
  try dsimp only
  repeat' first
    | with_reducible
        first
          | apply Law.refl
    | with_reducible apply Law.mk ?_

theorem State.sanStaging_law (s : State) :
    Law [.gate, .staging, .bpm] s (State.sanStaging s) := by
  unfold Sys2Proof.Machine.State.sanStaging
  try dsimp only
  repeat' first
    | with_reducible
        first
          | apply Law.refl
    | with_reducible apply Law.mk ?_

theorem State.cryptoErase_law (s : State) :
    Law [.free, .out, .key, .evt, .log] s (State.cryptoErase s) := by
  unfold Sys2Proof.Machine.State.cryptoErase
  try dsimp only
  repeat' first
    | with_reducible
        first
          | apply Law.refl | apply Law.ite | apply Law.next ?_ (State.fire_law _ _ _ _ _ _) ?_
          | apply Law.next ?_ (State.keyRedraw_law _) ?_ | decide
    | with_reducible apply Law.mk ?_

theorem State.slcMark_law (s : State) :
    Law [.blocks] s (State.slcMark s) := by
  unfold Sys2Proof.Machine.State.slcMark
  try dsimp only
  repeat' first
    | with_reducible
        first
          | apply Law.refl | apply Law.ite
    | with_reducible apply Law.mk ?_

theorem State.sanQueue_law (s : State) (l : List Nat) :
    Law [.nvme, .bpm, .dies, .fch] s (State.sanQueue s l) := by
  unfold Sys2Proof.Machine.State.sanQueue
  try dsimp only
  repeat' first
    | with_reducible
        first
          | apply Law.refl | apply Law.next ?_ (State.eraseQueue_law _ _ _ _) ?_ | apply Law.forNats | decide
    | (intro _; try dsimp only)
    | with_reducible apply Law.mk ?_

theorem State.sanFinish_law (s : State) :
    Law [.nvme] s (State.sanFinish s) := by
  unfold Sys2Proof.Machine.State.sanFinish
  try dsimp only
  repeat' first
    | with_reducible
        first
          | apply Law.refl | apply Law.ite
    | with_reducible apply Law.mk ?_

theorem State.sanErased_law (s : State) :
    Law [.nvme, .slices, .zones, .toks, .bpm, .blocks, .dies, .fch, .zne, .par, .key, .nv] s (State.sanErased s) := by
  unfold Sys2Proof.Machine.State.sanErased
  try dsimp only
  repeat' first
    | with_reducible
        first
          | apply Law.refl | apply Law.ite | apply Law.next ?_ (State.sanFinish_law _) ?_
          | apply Law.next ?_ (State.ledger_law _) ?_ | apply Law.next ?_ (State.sanInfo_law _) ?_
          | apply Law.next ?_ (State.sanZones_law _ _) ?_ | decide

theorem State.sanRun_law (s : State) (stamp : Nat) (kind : Nat) :
    Law [.free, .out, .nvme, .slices, .zones, .gate, .staging, .toks, .bpm, .blocks, .dies, .fch, .zne, .par, .key, .nv, .evt, .log] s (State.sanRun s stamp kind) := by
  unfold Sys2Proof.Machine.State.sanRun
  try dsimp only
  repeat' first
    | with_reducible
        first
          | apply Law.refl | apply Law.ite | apply Law.next ?_ (State.sanRecords_law _ _ _ _) ?_
          | apply Law.next ?_ (State.sanQueue_law _ _) ?_ | apply Law.next ?_ (State.slcMark_law _) ?_
          | apply Law.next ?_ (State.sanZones_law _ _) ?_ | apply Law.next ?_ (State.sanStaging_law _) ?_
          | apply Law.next ?_ (State.cryptoErase_law _) ?_ | apply Law.next ?_ (State.sanErased_law _) ?_
          | apply Law.next ?_ (State.sanOps_law _) ?_ | decide
    | with_reducible apply Law.mk ?_

theorem State.keyLess_law (s : State) (c : Nat) :
    Law [.out, .sqs, .qrecs, .ctxs, .slices, .zones, .gate, .staging, .toks, .bpm, .dma, .sward, .dies, .fch, .par, .key, .evt, .log] s (State.keyLess s c) := by
  unfold Sys2Proof.Machine.State.keyLess
  try dsimp only
  repeat' first
    | with_reducible
        first
          | apply Law.refl | apply Law.ite | apply Law.next ?_ (State.failWrite_law _ _ _) ?_
          | apply Law.next ?_ (State.finish_law _ _ _ _ _ _) ?_ | apply Law.next ?_ (State.ctxEdit_law _ _ _) ?_
          | apply Law.next ?_ (State.readStop_law _ _) ?_ | decide
    | split
    | with_reducible apply Law.mk ?_

theorem State.zeroizeAt_law (s : State) (stamp : Nat) :
    Law [.free, .out, .nvme, .sqs, .qrecs, .ctxs, .slices, .zones, .gate, .staging, .toks, .bpm, .dma, .sward, .blocks, .dies, .fch, .zne, .par, .key, .evt, .log] s (State.zeroizeAt s stamp) := by
  unfold Sys2Proof.Machine.State.zeroizeAt
  try dsimp only
  repeat' first
    | with_reducible
        first
          | apply Law.refl | apply Law.next ?_ (State.sanRecords_law _ _ _ _) ?_
          | apply Law.next ?_ (State.keyLess_law _ _) ?_ | apply Law.next ?_ (State.freezeAll_law _ _) ?_
          | apply Law.next ?_ (State.sanQueue_law _ _) ?_ | apply Law.next ?_ (State.slcMark_law _) ?_
          | apply Law.next ?_ (State.sanZones_law _ _) ?_ | apply Law.next ?_ (State.sanStaging_law _) ?_
          | apply Law.next ?_ (State.cryptoErase_law _) ?_ | apply Law.forNats | decide
    | (intro _; try dsimp only)
    | with_reducible apply Law.mk ?_

theorem State.alarmApply_law (s : State) (ev : SysEv) (stamp : Nat) :
    Law [.free, .out, .nvme, .sqs, .qrecs, .ctxs, .slices, .zones, .gate, .staging, .toks, .bpm, .dma, .sward, .blocks, .dies, .fch, .zne, .par, .key, .evt, .log] s (State.alarmApply s ev stamp) := by
  unfold Sys2Proof.Machine.State.alarmApply
  try dsimp only
  repeat' first
    | with_reducible
        first
          | apply Law.refl | apply Law.next ?_ (State.sysRecord_law _ _ _ _) ?_
          | apply Law.next ?_ (State.freezeAll_law _ _) ?_ | apply Law.next ?_ (State.zeroizeAt_law _ _) ?_ | decide
    | split

theorem State.alarmRun_law (s : State) :
    Law [.free, .out, .nvme, .sqs, .qrecs, .ctxs, .slices, .zones, .gate, .staging, .toks, .bpm, .dma, .sward, .blocks, .dies, .fch, .zne, .par, .key, .cas, .evt, .log] s (State.alarmRun s) := by
  unfold Sys2Proof.Machine.State.alarmRun
  try dsimp only
  repeat' first
    | with_reducible
        first
          | apply Law.refl | apply Law.ite | apply Law.next ?_ (State.settle_law _) ?_
          | apply Law.next ?_ (State.alarmApply_law _ _ _) ?_ | apply Law.next ?_ (State.sysTake_law _ _) ?_
          | decide
    | split

theorem State.alarmPay_law (s : State) :
    Law [.free, .out, .nvme, .sqs, .qrecs, .ctxs, .slices, .zones, .gate, .staging, .toks, .bpm, .dma, .sward, .blocks, .dies, .fch, .zne, .par, .key, .cas, .evt, .log] s (State.alarmPay s) := by
  unfold Sys2Proof.Machine.State.alarmPay
  try dsimp only
  repeat' first
    | with_reducible
        first
          | apply Law.refl | apply Law.ite | apply Law.next ?_ (State.alarmRun_law _) ?_
          | apply Law.next ?_ (State.enterCfg_law _ _) ?_ | decide
    | with_reducible apply Law.mk ?_

theorem State.commitZop_law (s : State) (stamp : Nat) (e : Entry) (zk : Nat) :
    Law [.out, .nvme, .sqs, .qrecs, .ctxs, .slices, .nss, .zones, .gate, .staging, .toks, .bpm, .dma, .blocks, .dies, .fch, .par, .key, .evt, .log] s (State.commitZop s stamp e zk) := by
  unfold Sys2Proof.Machine.State.commitZop
  try dsimp only
  repeat' first
    | with_reducible
        first
          | apply Law.refl | apply Law.ite
          | refine Law.next ?_ (LawE.get (State.zoneOp_law _ _ _ _ _) ‹_ = Except.ok _›) ?_
          | apply LawE.mono (State.zoneOp_law _ _ _ _ _) ?_ | apply Law.next ?_ (State.record_law _ _) ?_
          | apply Law.next ?_ (State.ctxEdit_law _ _ _) ?_ | decide
    | split
    | with_reducible apply Law.mk ?_

theorem State.commitFlush_law (s : State) (e : Entry) :
    Law [.sqs, .qrecs, .ctxs, .zones, .bpm, .dma, .blocks, .dies, .fch] s (State.commitFlush s e) := by
  unfold Sys2Proof.Machine.State.commitFlush
  try dsimp only
  repeat' first
    | with_reducible
        first
          | apply Law.refl | apply Law.ite | apply Law.next ?_ (State.slcStart_law _ _) ?_
          | apply Law.next ?_ (State.finish_law _ _ _ _ _ _) ?_ | apply Law.next ?_ (State.ctxEdit_law _ _ _) ?_
          | apply Law.forNats | decide
    | (intro _; try dsimp only)

theorem State.commitZmr_law (s : State) (e : Entry) :
    Law [.out, .sqs, .qrecs, .ctxs, .bpm] s (State.commitZmr s e) := by
  unfold Sys2Proof.Machine.State.commitZmr
  try dsimp only
  repeat' first
    | with_reducible
        first
          | apply Law.refl | apply Law.next ?_ (State.say_law _ _) ?_
          | apply Law.next ?_ (State.finish_law _ _ _ _ _ _) ?_ | apply Law.next ?_ (State.rdReturn_law _ _) ?_
          | decide
    | split

theorem State.commitIn_law (s : State) (stamp : Nat) (e : Entry) (sc : Nat) :
    Law [.free, .out, .nvme, .sqs, .qrecs, .ctxs, .slices, .nss, .zones, .gate, .staging, .toks, .bpm, .dma, .sward, .blocks, .dies, .flash, .fch, .zne, .par, .key, .mtr, .nv, .evt, .log] s (State.commitIn s stamp e sc) := by
  unfold Sys2Proof.Machine.State.commitIn
  try dsimp only
  repeat' first
    | with_reducible
        first
          | apply Law.refl | apply Law.iteSnd | apply Law.next ?_ (State.commitWrite_law _ _ _ _) ?_
          | apply Law.next ?_ (State.commitRead_law _ _ _ _) ?_ | apply Law.next ?_ (State.commitFlush_law _ _) ?_
          | apply Law.next ?_ (State.commitDsm_law _ _ _ _) ?_ | apply Law.next ?_ (State.commitZop_law _ _ _ _) ?_
          | apply Law.next ?_ (State.commitZmr_law _ _) ?_ | apply Law.next ?_ (State.abortDecide_law _ _ _) ?_
          | refine Law.next ?_ (Law.snd (State.abortDecide_law _ _ _) ‹_ = (_, _)›) ?_
          | apply Law.next ?_ (State.record_law _ _) ?_ | apply Law.next ?_ (State.keyDecide_law _ _ _) ?_
          | apply Law.next ?_ (State.sanRun_law _ _ _) ?_ | assumption | decide
    | split

theorem State.commitLast_law (s : State) (e : Entry) :
    Law [.sqs, .qrecs, .ctxs, .zones, .bpm, .dma, .blocks, .dies, .fch] s (State.commitLast s e) := by
  unfold Sys2Proof.Machine.State.commitLast
  try dsimp only
  repeat' first
    | with_reducible
        first
          | apply Law.refl | apply Law.ite | apply Law.next ?_ (State.finish_law _ _ _ _ _ _) ?_
          | apply Law.next ?_ (State.sanErase_law _ _ _) ?_ | apply Law.foldl | apply Law.foldlSnd
          | apply Law.foldlFst | decide
    | (intro _; try dsimp only)
    | split

theorem State.scopeDone_law (s : State) (stamp : Nat) (sc : Nat) :
    Law [.sqs, .qrecs, .ctxs, .zones, .gate, .bpm, .dma, .blocks, .dies, .fch] s (State.scopeDone s stamp sc) := by
  unfold Sys2Proof.Machine.State.scopeDone
  try dsimp only
  repeat' first
    | with_reducible
        first
          | apply Law.refl | apply Law.ite | apply Law.next ?_ (State.commitLast_law _ _) ?_ | decide
    | split
    | with_reducible apply Law.mk ?_

theorem State.commitAt_law (s : State) (stamp : Nat) (sc : Nat) :
    Law [.free, .out, .nvme, .sqs, .qrecs, .ctxs, .slices, .nss, .zones, .gate, .staging, .toks, .bpm, .dma, .sward, .blocks, .dies, .flash, .fch, .zne, .par, .key, .cas, .mtr, .nv, .evt, .log] s (State.commitAt s stamp sc) := by
  unfold Sys2Proof.Machine.State.commitAt
  try dsimp only
  repeat' first
    | with_reducible
        first
          | apply Law.refl | apply Law.ite | apply Law.next ?_ (State.settle_law _) ?_
          | apply Law.next ?_ (State.migCheck_law _) ?_ | apply Law.next ?_ (State.leaseSync_law _ _) ?_
          | apply Law.next ?_ (State.scopeDone_law _ _ _) ?_ | apply Law.next ?_ (State.commitIn_law _ _ _ _) ?_
          | apply Law.next ?_ (State.stampFlush_law _ _) ?_ | decide
    | split

theorem State.enter_law (s : State) (e : Entry) :
    Law [.ctxs, .gate, .dma] s (State.enter s e) := by
  unfold Sys2Proof.Machine.State.enter
  try dsimp only
  repeat' first
    | with_reducible
        first
          | apply Law.refl | apply Law.next ?_ (State.drawStamp_law _) ?_
          | apply Law.next ?_ (State.ctxEdit_law _ _ _) ?_ | decide
    | with_reducible apply Law.mk ?_

end Sys2Proof.Laws
end

