-- ==== Sys2Proof/Laws/Queues.lean ====
section
/-! SUPPORT. One law for each operation of Machine/: Admit, Io, Queues:
the parts of the state that it may change, and that it breaks no promise. A row that another row runs has its law
here too. -/

-- One theorem after another: side by side they need more threads than the memory limit allows.
set_option Elab.async false

namespace Sys2Proof.Laws

open Sys2Proof Sys2Proof.Machine Sys2Proof.Safety

theorem State.countEmpty_law (s : State) (q : Nat) (e : SqEntry) (f : Status × Nat) :
    Law [.bpm] s (State.countEmpty s q e f) := by
  unfold Sys2Proof.Machine.State.countEmpty
  try dsimp only
  repeat' first
    | with_reducible
        first
          | apply Law.refl | apply Law.ite
    | with_reducible apply Law.mk ?_

theorem State.charge_law (s : State) (c : Nat) (x : Ctx) :
    Law [.out, .ctxs, .slices, .gate, .staging, .bpm, .key, .evt, .log] s (State.charge s c x) := by
  unfold Sys2Proof.Machine.State.charge
  try dsimp only
  repeat' first
    | with_reducible
        first
          | apply Law.refl | apply Law.ite | apply Law.next ?_ (State.ctxEdit_law _ _ _) ?_
          | apply Law.next ?_ (State.keyCharge_law _ _ _) ?_ | apply Law.next ?_ (State.dirtyAdd_law _ _) ?_
          | apply Law.next ?_ (State.quotaAdd_law _ _ _) ?_ | apply Law.next ?_ (State.rdTake_law _ _ _) ?_ | decide
    | with_reducible apply Law.mk ?_

theorem State.admitIo_law (s : State) (c : Nat) (row : SqEntry → Bool) (kind : EKind) (ranges : List DsmRange) :
    Law [.out, .sqs, .qrecs, .ctxs, .slices, .gate, .staging, .bpm, .dma, .key, .evt, .log] s (State.admitIo s c row kind ranges) := by
  unfold Sys2Proof.Machine.State.admitIo
  try dsimp only
  repeat' first
    | with_reducible
        first
          | apply Law.refl | apply Law.ite | apply Law.next ?_ (State.finish_law _ _ _ _ _ _) ?_
          | apply Law.next ?_ (State.countEmpty_law _ _ _ _) ?_ | apply Law.next ?_ (State.ctxEdit_law _ _ _) ?_
          | apply Law.next ?_ (State.drawStamp_law _) ?_ | apply Law.next ?_ (State.enter_law _ _) ?_
          | apply Law.next ?_ (State.charge_law _ _ _) ?_ | decide
    | split

theorem State.admitAdmin_law (s : State) (c : Nat) (row : SqEntry → Bool) (body : State → Ctx → State) {r : List Piece} (hr : sub [.sqs, .qrecs, .ctxs] r = true) (h_body : ∀ u x1, Law r u (body u x1)) :
    Law r s (State.admitAdmin s c row body) := by
  unfold Sys2Proof.Machine.State.admitAdmin
  try dsimp only
  repeat' first
    | with_reducible
        first
          | apply Law.refl | apply Law.ite | apply Law.next ?_ (State.finish_law _ _ _ _ _ _) ?_
          | apply Law.next ?_ (h_body _ _) (sub_refl _) | exact sub_refl _ | exact hr
          | (refine sub_trans ?_ hr; decide)
    | (intro _; try dsimp only)
    | split

theorem State.stampCtx_law (s : State) (c : Nat) :
    Law [.ctxs, .gate, .dma] s (State.stampCtx s c) := by
  unfold Sys2Proof.Machine.State.stampCtx
  try dsimp only
  repeat' first
    | with_reducible
        first
          | apply Law.refl | apply Law.next ?_ (State.ctxEdit_law _ _ _) ?_
          | apply Law.next ?_ (State.drawStamp_law _) ?_ | decide

theorem State.adminDone_law (s : State) (c : Nat) (st : Status) (dw0 : Dword) :
    Law [.sqs, .qrecs, .ctxs, .gate, .dma] s (State.adminDone s c st dw0) := by
  unfold Sys2Proof.Machine.State.adminDone
  try dsimp only
  repeat' first
    | with_reducible
        first
          | apply Law.refl | apply Law.next ?_ (State.finish_law _ _ _ _ _ _) ?_
          | apply Law.next ?_ (State.stampCtx_law _ _) ?_ | decide

theorem State.flushHeld_law (s : State) (q : Nat) :
    Law [.sqs, .qrecs, .ctxs] s (State.flushHeld s q) := by
  unfold Sys2Proof.Machine.State.flushHeld
  try dsimp only
  repeat' first
    | with_reducible
        first
          | apply Law.refl | apply Law.next ?_ (State.finishHeld_law _ _ _) ?_ | apply Law.forNats | decide
    | (intro _; try dsimp only)
    | with_reducible apply Law.mk ?_

theorem State.sqGone_law (s : State) (ctx : Nat) (q : Nat) :
    Law [.sqs, .qrecs, .ctxs] s (State.sqGone s ctx q) := by
  unfold Sys2Proof.Machine.State.sqGone
  try dsimp only
  repeat' first
    | with_reducible
        first
          | apply Law.refl | apply Law.ite | apply Law.next ?_ (State.finish_law _ _ _ _ _ _) ?_ | decide
    | with_reducible apply Law.mk ?_

theorem State.doorbellError_law (s : State) (info : Nat) :
    Law [.nvme, .sqs, .qrecs, .ctxs] s (State.doorbellError s info) := by
  unfold Sys2Proof.Machine.State.doorbellError
  try dsimp only
  repeat' first
    | with_reducible
        first
          | apply Law.refl | apply Law.ite | apply Law.next ?_ (State.aenRaise_law _ _ _ _) ?_ | decide
    | with_reducible apply Law.mk ?_

theorem execPfSqDoorbell_law (qid : Nat) (value : Nat) (s : State) :
    LawO [.nvme, .sqs, .qrecs, .ctxs] s (execPfSqDoorbell qid value s) := by
  unfold Sys2Proof.Machine.execPfSqDoorbell
  try dsimp only
  repeat' first
    | with_reducible
        first
          | apply Law.refl | apply Law.ite | apply LawO.next | apply LawO.ite
          | apply Law.next ?_ (State.doorbellError_law _ _) ?_ | decide
    | split
    | with_reducible apply Law.mk ?_

theorem execPfCqDoorbell_law (qid : Nat) (value : Nat) (s : State) :
    LawO [.nvme, .sqs, .cqs, .qrecs, .ctxs] s (execPfCqDoorbell qid value s) := by
  unfold Sys2Proof.Machine.execPfCqDoorbell
  try dsimp only
  repeat' first
    | with_reducible
        first
          | apply Law.refl | apply Law.ite | apply LawO.next | apply LawO.ite
          | apply Law.next ?_ (State.doorbellError_law _ _) ?_ | decide
    | split
    | with_reducible apply Law.mk ?_

theorem State.bar4Fail_law (s : State) (i : Nat) (p : Option Nat) (write : Bool) (off : Nat) :
    Law [.out, .pci, .evt, .log] s (State.bar4Fail s i p write off) := by
  unfold Sys2Proof.Machine.State.bar4Fail
  try dsimp only
  repeat' first
    | with_reducible
        first
          | apply Law.refl | apply Law.ite | apply Law.next ?_ (State.fire_law _ _ _ _ _ _) ?_ | decide
    | with_reducible apply Law.mk ?_

theorem State.tenantWrite_law (s : State) (i : Nat) (p : Option Nat) (off : Nat) (f : State → State) {r : List Piece} (hr : sub [.out, .pci, .evt, .log] r = true) (h_f : ∀ u, Law r u (f u)) :
    Law r s (State.tenantWrite s i p off f) := by
  unfold Sys2Proof.Machine.State.tenantWrite
  try dsimp only
  repeat' first
    | with_reducible
        first
          | apply Law.refl | apply Law.ite | apply Law.next ?_ (State.bar4Fail_law _ _ _ _ _) ?_
          | apply Law.next ?_ (h_f _) (sub_refl _) | exact sub_refl _ | exact hr | (refine sub_trans ?_ hr; decide)
    | (intro _; try dsimp only)

theorem execSlcDbSq_law (slice : Nat) (pasid : Option Nat) (q : Nat) (value : Nat) (s : State) :
    LawO [.out, .pci, .sqs, .slices, .evt, .log] s (execSlcDbSq slice pasid q value s) := by
  unfold Sys2Proof.Machine.execSlcDbSq
  try dsimp only
  repeat' first
    | with_reducible
        first
          | apply Law.refl | exact Law.idle | apply Law.ite | apply LawO.next | apply LawO.ite
          | apply Law.next ?_ (State.tenantWrite_law _ _ _ _ _ (r := [.out, .pci, .sqs, .slices, .evt, .log]) ?_ ?_) ?_
          | apply Law.next ?_ (State.notice_law _ _ _ _ _) ?_ | decide | (exact fun u => Law.refl u)
    | (intro _; try dsimp only)
    | split
    | with_reducible apply Law.mk ?_

theorem execSlcDbCq_law (slice : Nat) (pasid : Option Nat) (q : Nat) (value : Nat) (s : State) :
    LawO [.out, .pci, .cqs, .slices, .evt, .log] s (execSlcDbCq slice pasid q value s) := by
  unfold Sys2Proof.Machine.execSlcDbCq
  try dsimp only
  repeat' first
    | with_reducible
        first
          | apply Law.refl | exact Law.idle | apply Law.ite | apply LawO.next | apply LawO.ite
          | apply Law.next ?_ (State.tenantWrite_law _ _ _ _ _ (r := [.out, .pci, .cqs, .slices, .evt, .log]) ?_ ?_) ?_
          | apply Law.next ?_ (State.notice_law _ _ _ _ _) ?_ | decide | (exact fun u => Law.refl u)
    | (intro _; try dsimp only)
    | split
    | with_reducible apply Law.mk ?_

theorem State.qctlFields_law (s : State) (k : Nat) (v : Dword) :
    Law [.sqs] s (State.qctlFields s k v) := by
  unfold Sys2Proof.Machine.State.qctlFields
  try dsimp only
  repeat' first
    | with_reducible
        first
          | apply Law.refl
    | with_reducible apply Law.mk ?_

theorem execQueuePairEnable_law (slice : Nat) (pasid : Option Nat) (q : Nat) (v : Dword) (s : State) :
    LawO [.out, .pci, .sqs, .cqs, .qrecs, .evt, .log] s (execQueuePairEnable slice pasid q v s) := by
  unfold Sys2Proof.Machine.execQueuePairEnable
  try dsimp only
  repeat' first
    | with_reducible
        first
          | apply Law.refl | exact Law.idle | apply Law.ite | apply LawO.next | apply LawO.ite
          | apply Law.next ?_ (State.tenantWrite_law _ _ _ _ _ (r := [.out, .pci, .sqs, .cqs, .qrecs, .evt, .log]) ?_ ?_) ?_
          | apply Law.next ?_ (State.qctlFields_law _ _ _) ?_ | decide | (exact fun u => Law.refl u)
    | (intro _; try dsimp only)
    | with_reducible apply Law.mk ?_

theorem execQueuePairDisable_law (slice : Nat) (pasid : Option Nat) (q : Nat) (v : Dword) (s : State) :
    LawO [.out, .pci, .sqs, .qrecs, .ctxs, .evt, .log] s (execQueuePairDisable slice pasid q v s) := by
  unfold Sys2Proof.Machine.execQueuePairDisable
  try dsimp only
  repeat' first
    | with_reducible
        first
          | apply Law.refl | exact Law.idle | apply Law.ite | apply LawO.next | apply LawO.ite
          | apply Law.next ?_ (State.tenantWrite_law _ _ _ _ _ (r := [.out, .pci, .sqs, .qrecs, .ctxs, .evt, .log]) ?_ ?_) ?_
          | apply Law.next ?_ (State.qctlFields_law _ _ _) ?_ | apply Law.next ?_ (State.flushHeld_law _ _) ?_
          | apply Law.next ?_ (State.drainCheck_law _ _) ?_ | decide | (exact fun u => Law.refl u)
    | (intro _; try dsimp only)
    | with_reducible apply Law.mk ?_

theorem State.errAdd_law (s : State) (x : Ctx) (st : Status) :
    Law [.nvme] s (State.errAdd s x st) := by
  unfold Sys2Proof.Machine.State.errAdd
  try dsimp only
  repeat' first
    | with_reducible
        first
          | apply Law.refl | apply Law.ite
    | with_reducible apply Law.mk ?_

theorem State.freezeShow_law (s : State) (x : Ctx) (st : Status) (dw3 : Dword) :
    Law [.out, .sqs, .qrecs, .slices, .evt, .log] s (State.freezeShow s x st dw3) := by
  unfold Sys2Proof.Machine.State.freezeShow
  try dsimp only
  repeat' first
    | with_reducible
        first
          | apply Law.refl | apply Law.ite | apply Law.next ?_ (State.fire_law _ _ _ _ _ _) ?_
          | apply Law.next ?_ (State.notice_law _ _ _ _ _) ?_ | decide
    | with_reducible apply Law.mk ?_

theorem State.busyClear_law (s : State) (x : Ctx) :
    Law [.zones, .key] s (State.busyClear s x) := by
  unfold Sys2Proof.Machine.State.busyClear
  try dsimp only
  repeat' first
    | with_reducible
        first
          | apply Law.refl | apply Law.ite | apply Law.next ?_ (State.versSettle_law _ _ _ _ _) ?_
          | apply Law.next ?_ (State.zoneEdit_law _ _ _) ?_ | decide

theorem State.countLost_law (s : State) (q : Nat) :
    Law [.slices] s (State.countLost s q) := by
  unfold Sys2Proof.Machine.State.countLost
  try dsimp only
  repeat' first
    | with_reducible
        first
          | apply Law.refl | apply Law.ite | apply Law.next ?_ (State.sliceEdit_law _ _ _) ?_ | decide

theorem State.unfreezeLost_law (s : State) (q : Nat) :
    Law [.sqs] s (State.unfreezeLost s q) := by
  unfold Sys2Proof.Machine.State.unfreezeLost
  try dsimp only
  repeat' first
    | with_reducible
        first
          | apply Law.refl | apply Law.ite
    | split
    | with_reducible apply Law.mk ?_

theorem State.histCount_law (s : State) (x : Ctx) :
    Law [.lat] s (State.histCount s x) := by
  unfold Sys2Proof.Machine.State.histCount
  try dsimp only
  repeat' first
    | with_reducible
        first
          | apply Law.refl | apply Law.ite
    | split
    | with_reducible apply Law.mk ?_

theorem State.smartCount_law (s : State) (x : Ctx) :
    Law [.nvme] s (State.smartCount s x) := by
  unfold Sys2Proof.Machine.State.smartCount
  try dsimp only
  repeat' first
    | with_reducible
        first
          | apply Law.refl | apply Law.ite
    | with_reducible apply Law.mk ?_

theorem State.ctxDiscard_law (s : State) (c : Nat) :
    Law [.ctxs, .slices] s (State.ctxDiscard s c) := by
  unfold Sys2Proof.Machine.State.ctxDiscard
  try dsimp only
  repeat' first
    | with_reducible
        first
          | apply Law.refl | apply Law.ite | apply Law.next ?_ (State.ctxEdit_law _ _ _) ?_
          | apply Law.next ?_ (State.countLost_law _ _) ?_ | decide
    | split

theorem State.postCompletion_law (s : State) (ctx : Nat) :
    Law [.out, .nvme, .sqs, .cqs, .qrecs, .ctxs, .slices, .zones, .sward, .lat, .key, .evt, .log] s (State.postCompletion s ctx) := by
  unfold Sys2Proof.Machine.State.postCompletion
  try dsimp only
  repeat' first
    | with_reducible
        first
          | apply Law.refl | apply Law.ite | apply Law.next ?_ (State.ctxFree_law _ _) ?_
          | apply Law.next ?_ (State.busyClear_law _ _) ?_ | apply Law.next ?_ (State.unfreezeLost_law _ _) ?_
          | apply Law.next ?_ (State.say_law _ _) ?_ | apply Law.next ?_ (State.msix_law _ _) ?_
          | apply Law.next ?_ (State.histCount_law _ _) ?_ | apply Law.next ?_ (State.smartCount_law _ _) ?_
          | apply Law.next ?_ (State.freezeShow_law _ _ _ _) ?_ | apply Law.next ?_ (State.errAdd_law _ _ _) ?_
          | apply Law.next ?_ (State.flits_law _ _ _ _) ?_ | decide
    | split
    | with_reducible apply Law.mk ?_

end Sys2Proof.Laws
end

