-- ==== Sys2Proof/Laws/Media.lean ====
section
/-! SUPPORT. One law for each operation of Machine/: Reads, Media, Program:
the parts of the state that it may change, and that it breaks no promise. A row that another row runs has its law
here too. -/

-- One theorem after another: side by side they need more threads than the memory limit allows.
set_option Elab.async false

namespace Sys2Proof.Laws

open Sys2Proof Sys2Proof.Machine Sys2Proof.Safety

theorem State.latCount_law (s : State) (k : Nat) :
    Law [.lat] s (State.latCount s k) := by
  unfold Sys2Proof.Machine.State.latCount
  try dsimp only
  repeat' first
    | with_reducible
        first
          | apply Law.refl
    | with_reducible apply Law.mk ?_

theorem State.opEdit_law (s : State) (id : Nat) (f : Op → Op) :
    Law [.fch] s (State.opEdit s id f) := by
  unfold Sys2Proof.Machine.State.opEdit
  try dsimp only
  repeat' first
    | with_reducible
        first
          | apply Law.refl
    | with_reducible apply Law.mk ?_

theorem State.chnEdit_law (s : State) (c : Nat) (f : Chn → Chn) :
    Law [.fch] s (State.chnEdit s c f) := by
  unfold Sys2Proof.Machine.State.chnEdit
  try dsimp only
  repeat' first
    | with_reducible
        first
          | apply Law.refl
    | with_reducible apply Law.mk ?_

theorem State.suspendAsk_law (s : State) (dk : Nat) (id : Nat) :
    Law [.dies, .fch] s (State.suspendAsk s dk id) := by
  unfold Sys2Proof.Machine.State.suspendAsk
  try dsimp only
  repeat' first
    | with_reducible
        first
          | apply Law.refl | apply Law.next ?_ (State.chnEdit_law _ _ _) ?_
          | apply Law.next ?_ (State.opEdit_law _ _ _) ?_ | apply Law.next ?_ (State.dieEdit_law _ _ _) ?_ | decide

theorem State.tokenEarn_law (s : State) (o : Nat) :
    Law [.lat] s (State.tokenEarn s o) := by
  unfold Sys2Proof.Machine.State.tokenEarn
  try dsimp only
  repeat' first
    | with_reducible
        first
          | apply Law.refl
    | with_reducible apply Law.mk ?_

theorem State.runitEdit_law (s : State) (c : Nat) (u : Nat) (f : RUnit → RUnit) :
    Law [.ctxs] s (State.runitEdit s c u f) := by
  unfold Sys2Proof.Machine.State.runitEdit
  try dsimp only
  repeat' first
    | with_reducible
        first
          | apply Law.refl | apply Law.next ?_ (State.ctxEdit_law _ _ _) ?_ | decide

theorem State.helpersQueue_law (s : State) (c : Nat) (owner : Nat) (cls : Nat) (us : List Nat) (l : PageLoc) (set : List Pg) :
    Law [.bpm, .dies, .fch] s (State.helpersQueue s c owner cls us l set) := by
  unfold Sys2Proof.Machine.State.helpersQueue
  try dsimp only
  repeat' first
    | with_reducible
        first
          | apply Law.refl | apply Law.next ?_ (State.opQueue_law _ _) ?_ | apply Law.foldl | apply Law.foldlSnd
          | apply Law.foldlFst | decide
    | (intro _; try dsimp only)
    | split

theorem State.aroundTry_law (s : State) (c : Nat) (u : Nat) (cls : Nat) (owner : Nat) :
    Law [.ctxs, .slices, .bpm, .dies, .fch, .lat] s (State.aroundTry s c u cls owner).2 := by
  unfold Sys2Proof.Machine.State.aroundTry
  try dsimp only
  repeat' first
    | with_reducible
        first
          | apply Law.refl | apply Law.ite | apply Law.iteSnd | apply Law.next ?_ (State.latCount_law _ _) ?_
          | apply Law.next ?_ (State.sliceEdit_law _ _ _) ?_ | apply Law.next ?_ (State.runitEdit_law _ _ _ _) ?_
          | apply Law.next ?_ (State.rdTake_law _ _ _) ?_
          | apply Law.next ?_ (State.helpersQueue_law _ _ _ _ _ _ _) ?_ | apply Law.foldl | apply Law.foldlSnd
          | apply Law.foldlFst | decide
    | (intro _; try dsimp only)
    | split
    | dsimp only
    | with_reducible apply Law.mk ?_

theorem State.decideWith_law (s : State) (id : Nat) (ra : State → Bool × State) {r : List Piece} (hr : sub [.dies, .fch, .lat] r = true) (h_ra : ∀ u, Law r u (ra u).2) :
    Law r s (State.decideWith s id ra) := by
  unfold Sys2Proof.Machine.State.decideWith
  try dsimp only
  repeat' first
    | with_reducible
        first
          | apply Law.refl | apply Law.ite | apply Law.next ?_ (State.latCount_law _ _) ?_
          | apply Law.next ?_ (State.suspendAsk_law _ _ _) ?_ | apply Law.next ?_ (h_ra _) (sub_refl _)
          | refine Law.next ?_ (Law.snd (h_ra _) ‹_ = (_, _)›) (sub_refl _) | assumption | exact sub_refl _
          | exact hr | (refine sub_trans ?_ hr; decide)
    | (intro _; try dsimp only)
    | split

theorem State.helperDecide_law (s : State) (id : Nat) :
    Law [.dies, .fch, .lat] s (State.helperDecide s id) := by
  unfold Sys2Proof.Machine.State.helperDecide
  try dsimp only
  repeat' first
    | with_reducible
        first
          | apply Law.refl | exact Law.idle
          | apply Law.next ?_ (State.decideWith_law _ _ _ (r := [.dies, .fch, .lat]) ?_ ?_) ?_ | decide
          | (exact fun u => Law.refl u)
    | (intro _; try dsimp only)

theorem State.aroundRun_law (s : State) (c : Nat) (u : Nat) (cls : Nat) (owner : Nat) :
    Law [.ctxs, .slices, .bpm, .dies, .fch, .lat] s (State.aroundRun s c u cls owner).2 := by
  unfold Sys2Proof.Machine.State.aroundRun
  try dsimp only
  repeat' first
    | with_reducible
        first
          | apply Law.refl | apply Law.ite | apply Law.iteSnd | apply Law.next ?_ (State.aroundTry_law _ _ _ _ _) ?_
          | refine Law.next ?_ (Law.snd (State.aroundTry_law _ _ _ _ _) ‹_ = (_, _)›) ?_
          | apply Law.next ?_ (State.helperDecide_law _ _) ?_ | apply Law.forNats | assumption | decide
    | (intro _; try dsimp only)
    | dsimp only

theorem State.directDecide_law (s : State) (id : Nat) :
    Law [.ctxs, .slices, .bpm, .dies, .fch, .lat] s (State.directDecide s id) := by
  unfold Sys2Proof.Machine.State.directDecide
  try dsimp only
  repeat' first
    | with_reducible
        first
          | apply Law.refl | exact Law.idle | apply Law.iteSnd
          | apply Law.next ?_ (State.decideWith_law _ _ _ (r := [.ctxs, .slices, .bpm, .dies, .fch, .lat]) ?_ ?_) ?_
          | apply Law.next ?_ (State.aroundRun_law _ _ _ _ _) ?_
          | refine Law.next ?_ (Law.snd (State.aroundRun_law _ _ _ _ _) ‹_ = (_, _)›) ?_ | assumption | decide
          | (exact fun u => Law.refl u)
    | (intro _; try dsimp only)
    | split

theorem State.decideAgain_law (s : State) (dk : Nat) :
    Law [.ctxs, .slices, .bpm, .dies, .fch, .lat] s (State.decideAgain s dk) := by
  unfold Sys2Proof.Machine.State.decideAgain
  try dsimp only
  repeat' first
    | with_reducible
        first
          | apply Law.refl | apply Law.next ?_ (State.directDecide_law _ _) ?_ | apply Law.forNats | decide
    | (intro _; try dsimp only)
    | split

theorem State.memberReply_law (s : State) (c : Nat) (ok : Bool) :
    Law [.out, .ctxs, .bpm, .sward, .dies, .fch, .cas] s (State.memberReply s c ok) := by
  unfold Sys2Proof.Machine.State.memberReply
  try dsimp only
  repeat' first
    | with_reducible
        first
          | apply Law.refl | apply Law.ite | apply Law.next ?_ (State.readStop_law _ _) ?_
          | apply Law.next ?_ (State.casSend_law _ _ _ _ _ _) ?_ | decide
    | split
    | with_reducible apply Law.mk ?_

theorem State.unrecovered_law (s : State) (c : Nat) (u : Nat) :
    Law [.out, .nvme, .sqs, .qrecs, .ctxs, .bpm, .sward, .blocks, .dies, .fch, .cas, .evt, .log] s (State.unrecovered s c u) := by
  unfold Sys2Proof.Machine.State.unrecovered
  try dsimp only
  repeat' first
    | with_reducible
        first
          | apply Law.refl | apply Law.ite | apply Law.next ?_ (State.chnEdit_law _ _ _) ?_
          | apply Law.next ?_ (State.blkEdit_law _ _ _) ?_ | apply Law.next ?_ (State.fire_law _ _ _ _ _ _) ?_
          | apply Law.next ?_ (State.memberReply_law _ _ _) ?_ | apply Law.next ?_ (State.finish_law _ _ _ _ _ _) ?_
          | apply Law.next ?_ (State.ctxEdit_law _ _ _) ?_ | apply Law.next ?_ (State.readStop_law _ _) ?_ | decide
    | split
    | with_reducible apply Law.mk ?_

theorem State.condParity_law (s : State) (cls : Nat) :
    Law [.lat] s (State.condParity s cls) := by
  unfold Sys2Proof.Machine.State.condParity
  try dsimp only
  repeat' first
    | with_reducible
        first
          | apply Law.refl | apply Law.ite
    | with_reducible apply Law.mk ?_

theorem State.recStart_law (s : State) (c : Nat) (u : Nat) (cls : Nat) (owner : Nat) :
    Law [.out, .nvme, .sqs, .qrecs, .ctxs, .bpm, .sward, .blocks, .dies, .fch, .lat, .cas, .evt, .log] s (State.recStart s c u cls owner) := by
  unfold Sys2Proof.Machine.State.recStart
  try dsimp only
  repeat' first
    | with_reducible
        first
          | apply Law.refl | apply Law.ite | apply Law.next ?_ (State.unrecovered_law _ _ _) ?_
          | apply Law.next ?_ (State.condParity_law _ _) ?_ | apply Law.next ?_ (State.runitEdit_law _ _ _ _) ?_
          | apply Law.next ?_ (State.rungWait_law _ _) ?_ | apply Law.next ?_ (State.rdTake_law _ _ _) ?_
          | apply Law.next ?_ (State.helpersQueue_law _ _ _ _ _ _ _) ?_ | decide
    | split

theorem State.opUnitGone_law (s : State) (u : Nat) (id : Nat) :
    Law [.bpm, .dies, .fch] s (State.opUnitGone s u id) := by
  unfold Sys2Proof.Machine.State.opUnitGone
  try dsimp only
  repeat' first
    | with_reducible
        first
          | apply Law.refl | apply Law.ite | apply Law.next ?_ (State.opEdit_law _ _ _) ?_
          | apply Law.next ?_ (State.opDrop_law _ _) ?_ | decide
    | split

theorem State.helpersGone_law (s : State) (c : Nat) (u : Nat) :
    Law [.ctxs, .bpm, .dies, .fch] s (State.helpersGone s c u) := by
  unfold Sys2Proof.Machine.State.helpersGone
  try dsimp only
  repeat' first
    | with_reducible
        first
          | apply Law.refl | apply Law.next ?_ (State.opUnitGone_law _ _ _) ?_
          | apply Law.next ?_ (State.opLend_law _ _ _) ?_ | apply Law.next ?_ (State.runitEdit_law _ _ _ _) ?_
          | apply Law.next ?_ (State.rdGive_law _ _ _) ?_ | apply Law.forNats | decide
    | (intro _; try dsimp only)
    | split

theorem State.aroundFail_law (s : State) (c : Nat) (u : Nat) (cls : Nat) (owner : Nat) :
    Law [.out, .nvme, .sqs, .qrecs, .ctxs, .bpm, .sward, .blocks, .dies, .fch, .lat, .cas, .evt, .log] s (State.aroundFail s c u cls owner) := by
  unfold Sys2Proof.Machine.State.aroundFail
  try dsimp only
  repeat' first
    | with_reducible
        first
          | apply Law.refl | apply Law.ite | apply Law.next ?_ (State.runitEdit_law _ _ _ _) ?_
          | apply Law.next ?_ (State.helpersGone_law _ _ _) ?_ | apply Law.next ?_ (State.recStart_law _ _ _ _ _) ?_
          | decide
    | split

theorem State.step10_law (s : State) (c : Nat) (u : Nat) (cls : Nat) (owner : Nat) :
    Law [.out, .nvme, .sqs, .qrecs, .ctxs, .bpm, .sward, .blocks, .dies, .fch, .lat, .cas, .evt, .log] s (State.step10 s c u cls owner) := by
  unfold Sys2Proof.Machine.State.step10
  try dsimp only
  repeat' first
    | with_reducible
        first
          | apply Law.refl | apply Law.ite | apply Law.next ?_ (State.runitEdit_law _ _ _ _) ?_
          | apply Law.next ?_ (State.recStart_law _ _ _ _ _) ?_ | decide
    | split

theorem State.noteStep_law (s : State) (bk : Nat) (step : Nat) (hint : Option Nat) :
    Law [.blocks, .fch] s (State.noteStep s bk step hint) := by
  unfold Sys2Proof.Machine.State.noteStep
  try dsimp only
  repeat' first
    | with_reducible
        first
          | apply Law.refl | apply Law.ite | apply Law.next ?_ (State.blkEdit_law _ _ _) ?_ | decide
    | with_reducible apply Law.mk ?_

theorem State.unitRelease_law (s : State) (c : Nat) (u : Nat) (around : Bool) :
    Law [.out, .ctxs, .bpm, .dma, .sward, .dies, .fch, .lat, .cas] s (State.unitRelease s c u around) := by
  unfold Sys2Proof.Machine.State.unitRelease
  try dsimp only
  repeat' first
    | with_reducible
        first
          | apply Law.refl | apply Law.ite | apply Law.next ?_ (State.latCount_law _ _) ?_
          | apply Law.next ?_ (State.helpersGone_law _ _ _) ?_ | apply Law.next ?_ (State.opUnitGone_law _ _ _) ?_
          | apply Law.next ?_ (State.runitEdit_law _ _ _ _) ?_ | apply Law.next ?_ (State.memberReply_law _ _ _) ?_
          | decide
    | split
    | with_reducible apply Law.mk ?_

theorem State.opStep_law (s : State) (id : Nat) :
    Law [.bpm, .dies, .fch] s (State.opStep s id) := by
  unfold Sys2Proof.Machine.State.opStep
  try dsimp only
  repeat' first
    | with_reducible
        first
          | apply Law.refl | apply Law.ite | apply Law.next ?_ (State.opEnd_law _ _) ?_
          | apply Law.next ?_ (State.dieEdit_law _ _ _) ?_ | apply Law.next ?_ (State.opEdit_law _ _ _) ?_ | decide
    | split

theorem State.unitDirect_law (s : State) (c : Nat) (u : Nat) (l : PageLoc) (cls : Nat) (owner : Nat) :
    Law [.ctxs, .slices, .bpm, .dies, .fch, .lat] s (State.unitDirect s c u l cls owner) := by
  unfold Sys2Proof.Machine.State.unitDirect
  try dsimp only
  repeat' first
    | with_reducible
        first
          | apply Law.refl | apply Law.next ?_ (State.runitEdit_law _ _ _ _) ?_
          | apply Law.next ?_ (State.opEdit_law _ _ _) ?_ | apply Law.next ?_ (State.directDecide_law _ _) ?_
          | apply Law.next ?_ (State.opQueue_law _ _) ?_ | decide
    | split

theorem State.unitEnter_law (s : State) (c : Nat) (u : Nat) (x : Ctx) (r : RUnit) :
    Law [.out, .nvme, .sqs, .qrecs, .ctxs, .slices, .bpm, .sward, .blocks, .dies, .fch, .lat, .cas, .evt, .log] s (State.unitEnter s c u x r) := by
  unfold Sys2Proof.Machine.State.unitEnter
  try dsimp only
  repeat' first
    | with_reducible
        first
          | apply Law.refl | apply Law.ite | apply Law.next ?_ (State.memberReply_law _ _ _) ?_
          | apply Law.next ?_ (State.runitEdit_law _ _ _ _) ?_ | apply Law.next ?_ (State.unrecovered_law _ _ _) ?_
          | apply Law.next ?_ (State.recStart_law _ _ _ _ _) ?_ | apply Law.next ?_ (State.bufHold_law _ _) ?_
          | apply Law.next ?_ (State.casSend_law _ _ _ _ _ _) ?_ | apply Law.next ?_ (State.condParity_law _ _) ?_
          | apply Law.next ?_ (State.unitDirect_law _ _ _ _ _ _) ?_ | decide
    | split

theorem State.opStart_law (s : State) (dk : Nat) (id : Nat) :
    Law [.ctxs, .slices, .bpm, .sward, .dies, .fch, .lat] s (State.opStart s dk id) := by
  unfold Sys2Proof.Machine.State.opStart
  try dsimp only
  repeat' first
    | with_reducible
        first
          | apply Law.refl | apply Law.ite | apply Law.next ?_ (State.decideAgain_law _ _) ?_
          | apply Law.next ?_ (State.dieEdit_law _ _ _) ?_ | apply Law.next ?_ (State.opEdit_law _ _ _) ?_
          | apply Law.next ?_ (State.tokenEarn_law _ _) ?_ | apply Law.next ?_ (State.flits_law _ _ _ _) ?_ | decide
    | split
    | with_reducible apply Law.mk ?_

theorem State.opResume_law (s : State) (dk : Nat) (id : Nat) :
    Law [.ctxs, .slices, .bpm, .dies, .fch, .lat] s (State.opResume s dk id) := by
  unfold Sys2Proof.Machine.State.opResume
  try dsimp only
  repeat' first
    | with_reducible
        first
          | apply Law.refl | apply Law.next ?_ (State.dieEdit_law _ _ _) ?_
          | apply Law.next ?_ (State.opEdit_law _ _ _) ?_ | apply Law.next ?_ (State.decideAgain_law _ _) ?_
          | decide

theorem State.dieIdle_law (s : State) (dk : Nat) (id : Nat) :
    Law [.dies, .mtr] s (State.dieIdle s dk id) := by
  unfold Sys2Proof.Machine.State.dieIdle
  try dsimp only
  repeat' first
    | with_reducible
        first
          | apply Law.refl | apply Law.ite | apply Law.next ?_ (State.tally_law _ _ _) ?_
          | apply Law.next ?_ (State.dieEdit_law _ _ _) ?_ | decide
    | split

theorem State.directDecoded_law (s : State) (id : Nat) (o : Op) (c : Nat) (u : Nat) (zero : Bool) (crc : Bool) (tag : Bool) (weight : Nat) :
    Law [.out, .nvme, .sqs, .qrecs, .ctxs, .slices, .bpm, .dma, .sward, .blocks, .dies, .fch, .lat, .cas, .evt, .log] s (State.directDecoded s id o c u zero crc tag weight) := by
  unfold Sys2Proof.Machine.State.directDecoded
  try dsimp only
  repeat' first
    | with_reducible
        first
          | apply Law.refl | apply Law.iteSnd | apply Law.ite | apply Law.next ?_ (State.unitRelease_law _ _ _ _) ?_
          | apply Law.next ?_ (State.noteStep_law _ _ _ _) ?_ | apply Law.next ?_ (State.step10_law _ _ _ _ _) ?_
          | apply Law.next ?_ (State.runitEdit_law _ _ _ _) ?_ | apply Law.next ?_ (State.opEdit_law _ _ _) ?_
          | apply Law.next ?_ (State.aroundRun_law _ _ _ _ _) ?_
          | refine Law.next ?_ (Law.snd (State.aroundRun_law _ _ _ _ _) ‹_ = (_, _)›) ?_
          | apply Law.next ?_ (State.latCount_law _ _) ?_ | assumption | decide
    | split

theorem State.helperDecoded_law (s : State) (id : Nat) (o : Op) (c : Nat) (u : Nat) (pass : Bool) (wrong : Bool) :
    Law [.out, .nvme, .sqs, .qrecs, .ctxs, .bpm, .sward, .blocks, .dies, .fch, .lat, .cas, .evt, .log] s (State.helperDecoded s id o c u pass wrong) := by
  unfold Sys2Proof.Machine.State.helperDecoded
  try dsimp only
  repeat' first
    | with_reducible
        first
          | apply Law.refl | apply Law.ite | apply Law.next ?_ (State.runitEdit_law _ _ _ _) ?_
          | apply Law.next ?_ (State.noteStep_law _ _ _ _) ?_ | apply Law.next ?_ (State.opEdit_law _ _ _) ?_
          | apply Law.next ?_ (State.condParity_law _ _) ?_ | apply Law.next ?_ (State.recStart_law _ _ _ _ _) ?_
          | apply Law.next ?_ (State.helpersGone_law _ _ _) ?_
          | apply Law.next ?_ (State.aroundFail_law _ _ _ _ _) ?_ | decide
    | split

theorem State.srcFail_law (s : State) (o : Op) (zk : Nat) (row : Nat) :
    Law [.zones, .gate, .bpm, .dma, .dies, .fch] s (State.srcFail s o zk row) := by
  unfold Sys2Proof.Machine.State.srcFail
  try dsimp only
  repeat' first
    | with_reducible
        first
          | apply Law.refl | apply Law.ite | apply Law.next ?_ (State.zoneEdit_law _ _ _) ?_
          | apply Law.next ?_ (State.srcQueue_law _ _ _ _ _ _) ?_ | apply Law.next ?_ (State.enterSys_law _ _) ?_
          | decide
    | split

theorem State.srcDecoded_law (s : State) (id : Nat) (o : Op) (zk : Nat) (row : Nat) (u : Nat) (pass : Bool) (wrong : Bool) :
    Law [.zones, .gate, .bpm, .dma, .blocks, .dies, .fch] s (State.srcDecoded s id o zk row u pass wrong) := by
  unfold Sys2Proof.Machine.State.srcDecoded
  try dsimp only
  repeat' first
    | with_reducible
        first
          | apply Law.refl | apply Law.ite | apply Law.next ?_ (State.noteStep_law _ _ _ _) ?_
          | apply Law.next ?_ (State.opEdit_law _ _ _) ?_ | apply Law.next ?_ (State.srcFail_law _ _ _ _) ?_
          | decide

theorem State.noteRow_law (s : State) (dk : Nat) (b : Nat) (dieTemp : Nat) (slc : Bool) :
    Law [.blocks] s (State.noteRow s dk b dieTemp slc) := by
  unfold Sys2Proof.Machine.State.noteRow
  try dsimp only
  repeat' first
    | with_reducible
        first
          | apply Law.refl | apply Law.ite | apply Law.next ?_ (State.blkEdit_law _ _ _) ?_ | decide

theorem State.progCheck_law (s : State) (zk : Nat) (row : Nat) :
    Law [.out, .sqs, .qrecs, .ctxs, .zones, .gate, .staging, .bpm, .dma, .sward, .blocks, .dies, .fch, .par, .evt, .log] s (State.progCheck s zk row) := by
  unfold Sys2Proof.Machine.State.progCheck
  try dsimp only
  repeat' first
    | with_reducible
        first
          | apply Law.refl | apply Law.ite | apply Law.next ?_ (State.zoneEdit_law _ _ _) ?_
          | apply Law.next ?_ (State.accDrop_law _ _ _) ?_ | apply Law.next ?_ (State.flushDone_law _ _) ?_
          | apply Law.next ?_ (State.entryDead_law _ _ _) ?_ | apply Law.next ?_ (State.releaseRow_law _ _ _) ?_
          | apply Law.next ?_ (State.opQueue_law _ _) ?_ | apply Law.next ?_ (State.accTouch_law _ _ _ _) ?_
          | apply Law.foldl | apply Law.foldlSnd | apply Law.foldlFst | decide
    | (intro _; try dsimp only)
    | split

theorem State.progDone_law (s : State) (zk : Nat) (row : Nat) (pos : Nat) (g : Pg) :
    Law [.out, .sqs, .qrecs, .ctxs, .zones, .gate, .staging, .bpm, .dma, .sward, .blocks, .dies, .flash, .fch, .par, .evt, .log] s (State.progDone s zk row pos g) := by
  unfold Sys2Proof.Machine.State.progDone
  try dsimp only
  repeat' first
    | with_reducible
        first
          | apply Law.refl | apply Law.ite | apply Law.next ?_ (State.fillParity_law _ _ _ _) ?_
          | apply Law.next ?_ (State.fillPages_law _ _ _ _ _ _) ?_
          | apply Law.next ?_ (State.progCheck_law _ _ _) ?_ | apply Law.next ?_ (State.zoneEdit_law _ _ _) ?_
          | decide
    | split

theorem State.slcDone_law (s : State) (zk : Nat) :
    Law [.out, .sqs, .qrecs, .ctxs, .zones, .gate, .staging, .bpm, .dma, .blocks, .dies, .flash, .fch, .evt, .log] s (State.slcDone s zk) := by
  unfold Sys2Proof.Machine.State.slcDone
  try dsimp only
  repeat' first
    | with_reducible
        first
          | apply Law.refl | apply Law.ite | apply Law.next ?_ (State.zoneEdit_law _ _ _) ?_
          | apply Law.next ?_ (State.fillPages_law _ _ _ _ _ _) ?_
          | apply Law.next ?_ (State.releaseRow_law _ _ _) ?_ | apply Law.next ?_ (State.entryDead_law _ _ _) ?_
          | apply Law.next ?_ (State.slcStart_law _ _) ?_ | apply Law.next ?_ (State.flushDone_law _ _) ?_ | decide
    | split

theorem State.copyDone_law (s : State) (zk : Nat) :
    Law [.out, .zones, .gate, .staging, .bpm, .dma, .blocks, .dies, .flash, .fch, .evt, .log] s (State.copyDone s zk) := by
  unfold Sys2Proof.Machine.State.copyDone
  try dsimp only
  repeat' first
    | with_reducible
        first
          | apply Law.refl | apply Law.ite | apply Law.next ?_ (State.zoneEdit_law _ _ _) ?_
          | apply Law.next ?_ (State.copyFill_law _ _) ?_ | apply Law.next ?_ (State.entryDead_law _ _ _) ?_
          | apply Law.next ?_ (State.releaseUnits_law _ _ _) ?_ | apply Law.forNats | decide
    | (intro _; try dsimp only)
    | split

theorem State.replDone_law (s : State) (zk : Nat) (row : Nat) (pos : Nat) (g : Pg) :
    Law [.zones, .bpm, .blocks, .dies, .flash, .fch] s (State.replDone s zk row pos g) := by
  unfold Sys2Proof.Machine.State.replDone
  try dsimp only
  repeat' first
    | with_reducible
        first
          | apply Law.refl | apply Law.ite | apply Law.next ?_ (State.zoneEdit_law _ _ _) ?_
          | apply Law.next ?_ (State.flashPut_law _ _ _ _ _) ?_ | apply Law.next ?_ (State.blockLeave_law _ _ _) ?_
          | decide
    | split

theorem State.rebDone_law (s : State) (zk : Nat) (row : Nat) (pos : Nat) (slc : Bool) (g : Pg) :
    Law [.flash, .par] s (State.rebDone s zk row pos slc g) := by
  unfold Sys2Proof.Machine.State.rebDone
  try dsimp only
  repeat' first
    | with_reducible
        first
          | apply Law.refl | apply Law.ite | apply Law.next ?_ (State.flashPut_law _ _ _ _ _) ?_ | decide
    | split
    | with_reducible apply Law.mk ?_

theorem State.setDone_law (s : State) (bk : Nat) (bad : Bool) :
    Law [.nvme, .sqs, .qrecs, .ctxs, .slices, .zones, .toks, .bpm, .blocks, .dies, .fch, .zne, .par, .key, .nv] s (State.setDone s bk bad) := by
  unfold Sys2Proof.Machine.State.setDone
  try dsimp only
  repeat' first
    | with_reducible
        first
          | apply Law.refl | apply Law.ite | apply Law.next ?_ (State.ctxEdit_law _ _ _) ?_
          | apply Law.next ?_ (State.finish_law _ _ _ _ _ _) ?_ | apply Law.next ?_ (State.sanErased_law _) ?_
          | apply Law.forNats | decide
    | (intro _; try dsimp only)
    | split
    | with_reducible apply Law.mk ?_

theorem State.spbCalc_law (s : State) :
    Law [.par] s (State.spbCalc s) := by
  unfold Sys2Proof.Machine.State.spbCalc
  try dsimp only
  repeat' first
    | with_reducible
        first
          | apply Law.refl | apply Law.ite
    | with_reducible apply Law.mk ?_

theorem State.rebPage_law (s : State) (x : RebRow) (pages : List Pg) (dk : Nat) (b : Nat) (page : Nat) :
    Law [.bpm, .dies, .fch] s (State.rebPage s x pages dk b page) := by
  unfold Sys2Proof.Machine.State.rebPage
  try dsimp only
  repeat' first
    | with_reducible
        first
          | apply Law.refl | apply Law.ite | apply Law.next ?_ (State.opQueue_law _ _) ?_
          | apply Law.next ?_ (State.srcRead_law _ _ _ _ _ _ _) ?_ | decide

theorem State.rebEntry_law (s : State) (x : RebRow) (p : Place) (e : SlcEntry) :
    Law [.zones, .bpm, .dma, .blocks, .dies, .fch] s (State.rebEntry s x p e) := by
  unfold Sys2Proof.Machine.State.rebEntry
  try dsimp only
  repeat' first
    | with_reducible
        first
          | apply Law.refl | apply Law.ite | apply Law.next ?_ (State.rebPage_law _ _ _ _ _ _) ?_
          | apply Law.next ?_ (State.slcReclaim_law _ _) ?_ | apply Law.next ?_ (State.zoneEdit_law _ _ _) ?_
          | apply Law.next ?_ (State.blkEdit_law _ _ _) ?_ | decide
    | split

theorem State.rebKick_law (s : State) :
    Law [.zones, .bpm, .dma, .blocks, .dies, .fch] s (State.rebKick s) := by
  unfold Sys2Proof.Machine.State.rebKick
  try dsimp only
  repeat' first
    | with_reducible
        first
          | apply Law.refl | apply Law.ite | apply Law.next ?_ (State.rebEntry_law _ _ _ _) ?_
          | apply Law.next ?_ (State.rebPage_law _ _ _ _ _ _) ?_ | apply Law.foldl | apply Law.foldlSnd
          | apply Law.foldlFst | decide
    | (intro _; try dsimp only)
    | split

theorem State.placeSwap_law (s : State) (old : Place) (new : Place) :
    Law [.ctxs] s (State.placeSwap s old new) := by
  unfold Sys2Proof.Machine.State.placeSwap
  try dsimp only
  repeat' first
    | with_reducible
        first
          | apply Law.refl | apply Law.ite
    | with_reducible apply Law.mk ?_

theorem State.replaceAt_law (s : State) (zk : Nat) (tag : Nat) (dk : Nat) (st : Nat) (i : Nat) :
    Law [.ctxs, .zones, .bpm, .blocks, .dies, .fch, .par] s (State.replaceAt s zk tag dk st i).1 := by
  unfold Sys2Proof.Machine.State.replaceAt
  try dsimp only
  repeat' first
    | with_reducible
        first
          | apply Law.refl | apply Law.ite | apply Law.iteFst | apply Law.next ?_ (State.opDrop_law _ _) ?_
          | apply Law.next ?_ (State.placeSwap_law _ _ _) ?_ | apply Law.next ?_ (State.zoneEdit_law _ _ _) ?_
          | apply Law.next ?_ (State.allocBlock_law _ _ _ _) ?_ | apply Law.next ?_ (State.opQueue_law _ _) ?_
          | apply Law.next ?_ (State.opMove_law _ _ _ _) ?_ | apply Law.forNats | apply Law.foldl
          | apply Law.foldlSnd | apply Law.foldlFst | decide
    | (intro _; try dsimp only)
    | split
    | dsimp only
    | with_reducible apply Law.mk ?_

theorem State.replaceIn_law (s : State) (zk : Nat) (tag : Nat) (dk : Nat) (st : Nat) :
    Law [.ctxs, .zones, .bpm, .blocks, .dies, .fch, .par] s (State.replaceIn s zk tag dk st).1 := by
  unfold Sys2Proof.Machine.State.replaceIn
  try dsimp only
  repeat' first
    | with_reducible
        first
          | apply Law.refl | apply Law.iteFst | apply Law.next ?_ (State.replaceAt_law _ _ _ _ _ _) ?_
          | refine Law.next ?_ (Law.fst (State.replaceAt_law _ _ _ _ _ _) ‹_ = (_, _)›) ?_ | apply Law.foldl
          | apply Law.foldlSnd | apply Law.foldlFst | assumption | decide
    | (intro _; try dsimp only)
    | split
    | dsimp only

theorem State.replaceSlc_law (s : State) (zk : Nat) (dk : Nat) :
    Law [.par] s (State.replaceSlc s zk dk) := by
  unfold Sys2Proof.Machine.State.replaceSlc
  try dsimp only
  repeat' first
    | with_reducible
        first
          | apply Law.refl | apply Law.ite | apply Law.foldl | apply Law.foldlSnd | apply Law.foldlFst
    | (intro _; try dsimp only)
    | split
    | with_reducible apply Law.mk ?_

theorem State.mediaRecord_law (s : State) (zk : Nat) (stamp : Nat) :
    Law [.gate] s (State.mediaRecord s zk stamp) := by
  unfold Sys2Proof.Machine.State.mediaRecord
  try dsimp only
  repeat' first
    | with_reducible
        first
          | apply Law.refl | apply Law.next ?_ (State.record_law _ _) ?_ | decide

theorem State.zoneRo_law (s : State) (zk : Nat) (stamp : Nat) :
    Law [.zones, .gate, .par] s (State.zoneRo s zk stamp) := by
  unfold Sys2Proof.Machine.State.zoneRo
  try dsimp only
  repeat' first
    | with_reducible
        first
          | apply Law.refl | apply Law.ite | apply Law.next ?_ (State.zoneEdit_law _ _ _) ?_
          | apply Law.next ?_ (State.mediaRecord_law _ _ _) ?_ | decide
    | with_reducible apply Law.mk ?_

theorem State.rowLost_law (s : State) (zk : Nat) (row : Nat) (stamp : Nat) (slc : Bool) (p : Place) (lost : List Nat) :
    Law [.out, .zones, .gate, .par, .evt, .log] s (State.rowLost s zk row stamp slc p lost) := by
  unfold Sys2Proof.Machine.State.rowLost
  try dsimp only
  repeat' first
    | with_reducible
        first
          | apply Law.refl | apply Law.ite | apply Law.next ?_ (State.zoneEdit_law _ _ _) ?_
          | apply Law.next ?_ (State.fire_law _ _ _ _ _ _) ?_ | apply Law.next ?_ (State.zoneRo_law _ _ _) ?_
          | apply Law.foldl | apply Law.foldlSnd | apply Law.foldlFst | decide
    | (intro _; try dsimp only)
    | split
    | with_reducible apply Law.mk ?_

theorem State.lostCheck_law (s : State) (stamp : Nat) :
    Law [.out, .zones, .gate, .par, .evt, .log] s (State.lostCheck s stamp) := by
  unfold Sys2Proof.Machine.State.lostCheck
  try dsimp only
  repeat' first
    | with_reducible
        first
          | apply Law.refl | apply Law.ite | apply Law.next ?_ (State.rowLost_law _ _ _ _ _ _ _) ?_
          | apply Law.forNats | apply Law.foldl | apply Law.foldlSnd | apply Law.foldlFst | decide
    | (intro _; try dsimp only)
    | split

theorem State.readsOff_law (s : State) (dk : Nat) :
    Law [.out, .nvme, .sqs, .qrecs, .ctxs, .zones, .gate, .bpm, .dma, .sward, .blocks, .dies, .fch, .lat, .cas, .evt, .log] s (State.readsOff s dk) := by
  unfold Sys2Proof.Machine.State.readsOff
  try dsimp only
  repeat' first
    | with_reducible
        first
          | apply Law.refl | apply Law.ite | apply Law.next ?_ (State.opEnd_law _ _) ?_
          | apply Law.next ?_ (State.step10_law _ _ _ _ _) ?_ | apply Law.next ?_ (State.recStart_law _ _ _ _ _) ?_
          | apply Law.next ?_ (State.helpersGone_law _ _ _) ?_
          | apply Law.next ?_ (State.aroundFail_law _ _ _ _ _) ?_ | apply Law.next ?_ (State.srcSettle_law _ _ _) ?_
          | apply Law.next ?_ (State.srcFail_law _ _ _ _) ?_ | apply Law.forNats | decide
    | (intro _; try dsimp only)
    | split

theorem State.slcAgain_law (s : State) (f : Pg → Bool) :
    Law [.zones, .bpm, .dma, .blocks, .dies, .fch] s (State.slcAgain s f) := by
  unfold Sys2Proof.Machine.State.slcAgain
  try dsimp only
  repeat' first
    | with_reducible
        first
          | apply Law.refl | apply Law.next ?_ (State.zoneEdit_law _ _ _) ?_
          | apply Law.next ?_ (State.dropProgs_law _ _ _) ?_ | apply Law.next ?_ (State.slcStart_law _ _) ?_
          | apply Law.forNats | decide
    | (intro _; try dsimp only)
    | split

theorem State.opsOff_law (s : State) (dk : Nat) :
    Law [.out, .nvme, .sqs, .qrecs, .ctxs, .slices, .zones, .gate, .staging, .toks, .bpm, .dma, .blocks, .dies, .flash, .fch, .zne, .par, .key, .nv, .evt, .log] s (State.opsOff s dk) := by
  unfold Sys2Proof.Machine.State.opsOff
  try dsimp only
  repeat' first
    | with_reducible
        first
          | apply Law.refl | apply Law.ite | apply Law.next ?_ (State.opEnd_law _ _) ?_
          | apply Law.next ?_ (State.copyDone_law _ _) ?_ | apply Law.next ?_ (State.setDone_law _ _ _) ?_
          | apply Law.forNats | decide
    | (intro _; try dsimp only)
    | split

theorem State.dieFailAt_law (s : State) (dk : Nat) (cause : Nat) (stamp : Nat) :
    Law [.out, .nvme, .sqs, .qrecs, .ctxs, .slices, .zones, .gate, .staging, .toks, .bpm, .dma, .sward, .blocks, .dies, .flash, .fch, .zne, .par, .lat, .key, .cas, .nv, .evt, .log] s (State.dieFailAt s dk cause stamp) := by
  unfold Sys2Proof.Machine.State.dieFailAt
  try dsimp only
  repeat' first
    | with_reducible
        first
          | apply Law.refl | apply Law.iteFst | apply Law.ite | apply Law.next ?_ (State.dieEdit_law _ _ _) ?_
          | apply Law.next ?_ (State.spbCalc_law _) ?_ | apply Law.next ?_ (State.fire_law _ _ _ _ _ _) ?_
          | apply Law.next ?_ (State.replaceIn_law _ _ _ _ _) ?_
          | refine Law.next ?_ (Law.fst (State.replaceIn_law _ _ _ _ _) ‹_ = (_, _)›) ?_
          | apply Law.next ?_ (State.replaceSlc_law _ _ _) ?_ | apply Law.next ?_ (State.zoneRo_law _ _ _) ?_
          | apply Law.next ?_ (State.opsOff_law _ _) ?_ | apply Law.next ?_ (State.readsOff_law _ _) ?_
          | apply Law.next ?_ (State.lostCheck_law _ _) ?_ | apply Law.next ?_ (State.slcAgain_law _ _) ?_
          | apply Law.next ?_ (State.progCheck_law _ _ _) ?_ | apply Law.next ?_ (State.rebKick_law _) ?_
          | apply Law.next ?_ (State.aenCrit_law _ _) ?_ | apply Law.forNats | apply Law.foldl | apply Law.foldlSnd
          | apply Law.foldlFst | assumption | decide
    | (intro _; try dsimp only)
    | with_reducible apply Law.mk ?_

theorem State.replaceZone_law (s : State) (zk : Nat) (tag : Nat) (pos : Nat) (dk : Nat) (b : Nat) (nb : Nat) (stamp : Nat) (p : Place) :
    Law [.ctxs, .zones, .gate, .bpm, .blocks, .dies, .fch] s (State.replaceZone s zk tag pos dk b nb stamp p) := by
  unfold Sys2Proof.Machine.State.replaceZone
  try dsimp only
  repeat' first
    | with_reducible
        first
          | apply Law.refl | apply Law.ite | apply Law.next ?_ (State.placeSwap_law _ _ _) ?_
          | apply Law.next ?_ (State.zoneEdit_law _ _ _) ?_ | apply Law.next ?_ (State.opQueue_law _ _) ?_
          | apply Law.next ?_ (State.srcQueue_law _ _ _ _ _ _) ?_ | apply Law.next ?_ (State.recordAll_law _ _) ?_
          | apply Law.next ?_ (State.opMove_law _ _ _ _) ?_ | apply Law.next ?_ (State.blockLeave_law _ _ _) ?_
          | apply Law.forNats | apply Law.foldl | apply Law.foldlSnd | apply Law.foldlFst | decide
    | (intro _; try dsimp only)
    | split

theorem State.replaceBlock_law (s : State) (dk : Nat) (b : Nat) (code : Nat) (stamp : Nat) :
    Law [.out, .nvme, .sqs, .qrecs, .ctxs, .slices, .zones, .gate, .staging, .toks, .bpm, .dma, .sward, .blocks, .dies, .flash, .fch, .zne, .par, .lat, .key, .cas, .nv, .evt, .log] s (State.replaceBlock s dk b code stamp) := by
  unfold Sys2Proof.Machine.State.replaceBlock
  try dsimp only
  repeat' first
    | with_reducible
        first
          | apply Law.refl | apply Law.ite | apply Law.next ?_ (State.blkEdit_law _ _ _) ?_
          | apply Law.next ?_ (State.dieFailAt_law _ _ _ _) ?_ | apply Law.next ?_ (State.allocBlock_law _ _ _ _) ?_
          | apply Law.next ?_ (State.dieEdit_law _ _ _) ?_ | apply Law.next ?_ (State.slcAgain_law _ _) ?_
          | apply Law.next ?_ (State.blockLeave_law _ _ _) ?_ | apply Law.next ?_ (State.slcStart_law _ _) ?_
          | apply Law.next ?_ (State.zoneEdit_law _ _ _) ?_
          | apply Law.next ?_ (State.replaceZone_law _ _ _ _ _ _ _ _ _) ?_ | apply Law.forNats | decide
    | (intro _; try dsimp only)
    | split

theorem State.retireCheck_law (s : State) (dk : Nat) :
    Law [.out, .gate, .dma, .sward, .cas] s (State.retireCheck s dk) := by
  unfold Sys2Proof.Machine.State.retireCheck
  try dsimp only
  repeat' first
    | with_reducible
        first
          | apply Law.refl | apply Law.ite | apply Law.next ?_ (State.casSend_law _ _ _ _ _ _) ?_
          | apply Law.next ?_ (State.enterSys_law _ _) ?_ | decide

theorem State.blockFailAt_law (s : State) (bk : Nat) (code : Nat) (stamp : Nat) (out : Bool) :
    Law [.out, .nvme, .sqs, .qrecs, .ctxs, .slices, .zones, .gate, .staging, .toks, .bpm, .dma, .sward, .blocks, .dies, .flash, .fch, .zne, .par, .lat, .key, .cas, .nv, .evt, .log] s (State.blockFailAt s bk code stamp out) := by
  unfold Sys2Proof.Machine.State.blockFailAt
  try dsimp only
  repeat' first
    | with_reducible
        first
          | apply Law.refl | apply Law.ite | apply Law.next ?_ (State.replaceBlock_law _ _ _ _ _) ?_
          | apply Law.next ?_ (State.blkEdit_law _ _ _) ?_ | apply Law.next ?_ (State.opDrop_law _ _) ?_
          | apply Law.next ?_ (State.retireCheck_law _ _) ?_ | apply Law.next ?_ (State.opQueue_law _ _) ?_
          | apply Law.next ?_ (State.fire_law _ _ _ _ _ _) ?_ | apply Law.forNats | decide
    | (intro _; try dsimp only)

theorem State.rebuiltAt_law (s : State) (zk : Nat) (row : Nat) (slc : Bool) :
    Law [.out, .zones, .bpm, .dma, .blocks, .dies, .fch, .par, .evt, .log] s (State.rebuiltAt s zk row slc) := by
  unfold Sys2Proof.Machine.State.rebuiltAt
  try dsimp only
  repeat' first
    | with_reducible
        first
          | apply Law.refl | apply Law.ite | apply Law.next ?_ (State.zoneEdit_law _ _ _) ?_
          | apply Law.next ?_ (State.fire_law _ _ _ _ _ _) ?_ | apply Law.next ?_ (State.rebKick_law _) ?_ | decide
    | with_reducible apply Law.mk ?_

theorem State.migratedAt_law (s : State) (zk : Nat) :
    Law [.out, .zones, .bpm, .dma, .blocks, .dies, .fch, .zne, .evt, .log] s (State.migratedAt s zk) := by
  unfold Sys2Proof.Machine.State.migratedAt
  try dsimp only
  repeat' first
    | with_reducible
        first
          | apply Law.refl | apply Law.ite | apply Law.next ?_ (State.migCheck_law _) ?_
          | apply Law.next ?_ (State.migClose_law _ _) ?_ | decide

theorem State.pageLostAt_law (s : State) (zk : Nat) (row : Nat) (pos : Nat) (stamp : Nat) :
    Law [.out, .zones, .gate, .par, .evt, .log] s (State.pageLostAt s zk row pos stamp) := by
  unfold Sys2Proof.Machine.State.pageLostAt
  try dsimp only
  repeat' first
    | with_reducible
        first
          | apply Law.refl | apply Law.next ?_ (State.rowLost_law _ _ _ _ _ _ _) ?_ | decide
    | split

theorem State.mediaApply_law (s : State) (ev : SysEv) (stamp : Nat) :
    LawM [.out, .nvme, .sqs, .qrecs, .ctxs, .slices, .zones, .gate, .staging, .toks, .bpm, .dma, .sward, .blocks, .dies, .flash, .fch, .zne, .par, .lat, .key, .cas, .nv, .evt, .log] s (State.mediaApply s ev stamp) := by
  unfold Sys2Proof.Machine.State.mediaApply
  try dsimp only
  repeat' first
    | with_reducible
        first
          | apply Law.refl | apply LawM.ite | apply LawM.none | apply LawM.some
          | apply Law.next ?_ (State.dieFailAt_law _ _ _ _) ?_
          | apply Law.next ?_ (State.blockFailAt_law _ _ _ _ _) ?_
          | apply Law.next ?_ (State.rebuiltAt_law _ _ _ _) ?_ | apply Law.next ?_ (State.migratedAt_law _ _) ?_
          | apply Law.next ?_ (State.pageLostAt_law _ _ _ _ _) ?_ | apply Law.next ?_ (State.zoneRo_law _ _ _) ?_
          | decide
    | split

theorem State.mediaRun_law (a0 : Nat) (a1 : State) :
    Law [.out, .nvme, .sqs, .qrecs, .ctxs, .slices, .zones, .gate, .staging, .toks, .bpm, .dma, .sward, .blocks, .dies, .flash, .fch, .zne, .par, .lat, .key, .cas, .nv, .evt, .log] a1 (State.mediaRun a0 a1) := by
  induction a0 generalizing a1 with
  | zero => exact Law.refl _
  | succ f ih =>
    unfold Sys2Proof.Machine.State.mediaRun
    split
    · split
      · rename_i t ht
        obtain ⟨ev, _, hm⟩ := Option.bind_eq_some_iff.mp ht
        refine Law.next (Law.next ?_ (State.settle_law _) (by decide)) (ih _) (sub_refl _)
        exact Law.next (Law.next (Law.refl _) (State.sysTake_law _ _) (by decide)) (LawM.get (State.mediaApply_law _ _ _) hm) (by decide)
      · exact Law.refl _
    · exact Law.refl _

theorem State.mediaEvent_law (s : State) (ev : SysEv) :
    Law [.out, .nvme, .sqs, .qrecs, .ctxs, .slices, .zones, .gate, .staging, .toks, .bpm, .dma, .sward, .blocks, .dies, .flash, .fch, .zne, .par, .lat, .key, .cas, .nv, .evt, .log] s (State.mediaEvent s ev) := by
  unfold Sys2Proof.Machine.State.mediaEvent
  try dsimp only
  repeat' first
    | with_reducible
        first
          | apply Law.refl | apply Law.next ?_ (State.enterSys_law _ _) ?_
          | apply Law.next ?_ (State.mediaRun_law _ _) ?_ | decide

theorem State.opContent_law (s : State) (o : Op) :
    Law [.out, .sqs, .qrecs, .ctxs, .zones, .gate, .staging, .bpm, .dma, .sward, .blocks, .dies, .flash, .fch, .par, .evt, .log] s (State.opContent s o) := by
  unfold Sys2Proof.Machine.State.opContent
  try dsimp only
  repeat' first
    | with_reducible
        first
          | apply Law.refl | apply Law.next ?_ (State.progDone_law _ _ _ _ _) ?_
          | apply Law.next ?_ (State.slcDone_law _ _) ?_ | apply Law.next ?_ (State.copyDone_law _ _) ?_
          | apply Law.next ?_ (State.replDone_law _ _ _ _ _) ?_
          | apply Law.next ?_ (State.rebDone_law _ _ _ _ _ _) ?_ | decide
    | split

theorem State.slcWaiters_law (s : State) (dk : Nat) :
    Law [.zones, .bpm, .dma, .blocks, .dies, .fch] s (State.slcWaiters s dk) := by
  unfold Sys2Proof.Machine.State.slcWaiters
  try dsimp only
  repeat' first
    | with_reducible
        first
          | apply Law.refl | apply Law.next ?_ (State.rebKick_law _) ?_
          | apply Law.next ?_ (State.slcStart_law _ _) ?_ | apply Law.forNats | decide
    | (intro _; try dsimp only)
    | split

theorem State.erased_law (s : State) (dk : Nat) (b : Nat) :
    Law [.zones, .blocks, .flash] s (State.erased s dk b) := by
  unfold Sys2Proof.Machine.State.erased
  try dsimp only
  repeat' first
    | with_reducible
        first
          | apply Law.refl | apply Law.ite | apply Law.next ?_ (State.blkEdit_law _ _ _) ?_
          | apply Law.next ?_ (State.flashWipe_law _ _) ?_ | decide
    | with_reducible apply Law.mk ?_

theorem State.diesFail_law (s : State) (l : List Nat) (cause : Nat) :
    Law [.out, .nvme, .sqs, .qrecs, .ctxs, .slices, .zones, .gate, .staging, .toks, .bpm, .dma, .sward, .blocks, .dies, .flash, .fch, .zne, .par, .lat, .key, .cas, .nv, .evt, .log] s (State.diesFail s l cause) := by
  unfold Sys2Proof.Machine.State.diesFail
  try dsimp only
  repeat' first
    | with_reducible
        first
          | apply Law.refl | apply Law.ite | apply Law.next ?_ (State.enterSys_law _ _) ?_
          | apply Law.next ?_ (State.casSend_law _ _ _ _ _ _) ?_ | apply Law.next ?_ (State.mediaRun_law _ _) ?_
          | apply Law.forNats | decide
    | (intro _; try dsimp only)

end Sys2Proof.Laws
end

