-- ==== Sys2Proof/Laws/Data.lean ====
section
/-! SUPPORT. One law for each operation of Machine/: Alarm, Bonnet, Dma, Slices, Mailbox:
the parts of the state that it may change, and that it breaks no promise. A row that another row runs has its law
here too. -/

-- One theorem after another: side by side they need more threads than the memory limit allows.
set_option Elab.async false

namespace Sys2Proof.Laws

open Sys2Proof Sys2Proof.Machine Sys2Proof.Safety

theorem State.alarmRespond_law (s : State) (b : Nat) :
    Law [.free, .out, .nvme, .sqs, .qrecs, .ctxs, .slices, .zones, .gate, .staging, .toks, .bpm, .dma, .sward, .blocks, .dies, .fch, .zne, .par, .key, .cas, .evt, .log] s (State.alarmRespond s b) := by
  unfold Sys2Proof.Machine.State.alarmRespond
  try dsimp only
  repeat' first
    | with_reducible
        first
          | apply Law.refl | apply Law.next ?_ (State.alarmPay_law _) ?_ | decide
    | with_reducible apply Law.mk ?_

theorem State.alarmFreeze_law (s : State) :
    Law [.free, .out, .nvme, .sqs, .qrecs, .ctxs, .slices, .zones, .gate, .staging, .toks, .bpm, .dma, .sward, .blocks, .dies, .fch, .zne, .par, .key, .cas, .evt, .log] s (State.alarmFreeze s) := by
  unfold Sys2Proof.Machine.State.alarmFreeze
  try dsimp only
  repeat' first
    | with_reducible
        first
          | apply Law.refl | apply Law.next ?_ (State.alarmRespond_law _ _) ?_ | decide

theorem State.zeroize_law (s : State) :
    Law [.free, .out, .nvme, .sqs, .qrecs, .ctxs, .slices, .zones, .gate, .staging, .toks, .bpm, .dma, .sward, .blocks, .dies, .fch, .zne, .par, .key, .cas, .evt, .log] s (State.zeroize s) := by
  unfold Sys2Proof.Machine.State.zeroize
  try dsimp only
  repeat' first
    | with_reducible
        first
          | apply Law.refl | apply Law.next ?_ (State.alarmRespond_law _ _) ?_ | decide
    | with_reducible apply Law.mk ?_

theorem State.alarm_law (s : State) (k : Nat) (detail : Nat) :
    Law [.free, .out, .nvme, .sqs, .qrecs, .ctxs, .slices, .zones, .gate, .staging, .toks, .bpm, .dma, .sward, .blocks, .dies, .fch, .zne, .par, .key, .cas, .evt, .log] s (State.alarm s k detail) := by
  unfold Sys2Proof.Machine.State.alarm
  try dsimp only
  repeat' first
    | with_reducible
        first
          | apply Law.refl | apply Law.ite | apply Law.next ?_ (State.fire_law _ _ _ _ _ _) ?_
          | apply Law.next ?_ (State.alarmFreeze_law _) ?_ | apply Law.next ?_ (State.zeroize_law _) ?_ | decide
    | with_reducible apply Law.mk ?_

theorem State.latchClear_law (s : State) (mask : Nat) :
    Law [.evt] s (State.latchClear s mask) := by
  unfold Sys2Proof.Machine.State.latchClear
  try dsimp only
  repeat' first
    | with_reducible
        first
          | apply Law.refl | apply Law.ite | apply Law.foldl | apply Law.foldlSnd | apply Law.foldlFst
    | (intro _; try dsimp only)
    | with_reducible apply Law.mk ?_

theorem State.logWipe_law (s : State) :
    Law [.log] s (State.logWipe s) := by
  unfold Sys2Proof.Machine.State.logWipe
  refine Law.ite (Law.refl _) (Law.mk (Law.refl _) (hl := fun h => ⟨Nat.zero_le _, Nat.zero_le _, ?_⟩))
  dsimp only
  exact Tbl.wf_mapV h.2.2

theorem State.logWiped_law (s : State) :
    Law [.log] s (State.logWiped s) := by
  unfold Sys2Proof.Machine.State.logWiped
  refine Law.ite (Law.foldl _ ?_ fun u a => State.logAppend_law u a) (Law.refl _)
  exact Law.mk (Law.refl _) (hl := fun h => ⟨h.1, Nat.zero_le _, h.2.2⟩)

theorem State.eflEdit_law (s : State) (f : Efl → Efl) (h : EflLaw s.efl (f s.efl)) :
    Law [.efl] s (State.eflEdit s f) := by
  unfold Sys2Proof.Machine.State.eflEdit
  exact Law.mk (Law.refl _) (he := h)

theorem State.eflRefuse_law (s : State) :
    Law [.free, .out, .nvme, .sqs, .qrecs, .ctxs, .slices, .zones, .gate, .staging, .toks, .bpm, .dma, .sward, .blocks, .dies, .fch, .zne, .par, .key, .cas, .efl, .evt, .log] s (State.eflRefuse s) := by
  unfold Sys2Proof.Machine.State.eflRefuse
  try dsimp only
  repeat' first
    | with_reducible
        first
          | apply Law.refl | apply Law.ite | apply Law.next ?_ (State.fire_law _ _ _ _ _ _) ?_
          | apply Law.next ?_ (State.eflEdit_law _ _ ?_) ?_ | apply Law.next ?_ (State.alarm_law _ _ _) ?_
          | assumption | decide | (with_unfolding_all rfl) | (with_unfolding_all exact SealLaw.refl _)
          | (with_unfolding_all exact EflLaw.of rfl rfl rfl rfl rfl rfl)

theorem execEflRead_law (doubleBit : Bool) (corrected : Bool) (s : State) :
    LawO [.free, .out, .nvme, .sqs, .qrecs, .ctxs, .slices, .zones, .gate, .staging, .toks, .bpm, .dma, .sward, .blocks, .dies, .fch, .zne, .par, .key, .cas, .efl, .evt, .log] s (execEflRead doubleBit corrected s) := by
  unfold Sys2Proof.Machine.execEflRead
  try dsimp only
  repeat' first
    | with_reducible
        first
          | apply Law.refl | apply Law.ite | apply LawO.next | apply LawO.ite
          | apply Law.next ?_ (State.eflRefuse_law _) ?_ | apply Law.next ?_ (State.freeStep_law _) ?_
          | apply Law.next ?_ (State.eflEdit_law _ _ ?_) ?_ | assumption | decide | (with_unfolding_all rfl)
          | (with_unfolding_all exact SealLaw.refl _) | (with_unfolding_all exact EflLaw.of rfl rfl rfl rfl rfl rfl)

theorem execEflProgram_law (s : State) :
    LawO [.free, .out, .nvme, .sqs, .qrecs, .ctxs, .slices, .zones, .gate, .staging, .toks, .bpm, .dma, .sward, .blocks, .dies, .fch, .zne, .par, .key, .cas, .efl, .evt, .log] s (execEflProgram s) := by
  unfold Sys2Proof.Machine.execEflProgram
  have base : ∀ f : Efl → Efl, EflLaw s.efl (f s.efl) → LawO [.free, .out, .nvme, .sqs, .qrecs, .ctxs, .slices, .zones, .gate, .staging, .toks, .bpm, .dma, .sward, .blocks, .dies, .fch, .zne, .par, .key, .cas, .efl, .evt, .log] s (.next (s.eflEdit f)) :=
    fun f h => LawO.next (Law.next (Law.refl _) (State.eflEdit_law s f h) (by decide))
  refine ite_cases (fun _ => LawO.next (Law.refl _)) fun hb => ?_
  refine ite_cases (fun _ => LawO.next (Law.next (Law.refl _) (State.eflRefuse_law s) (by decide))) fun hs => ?_
  split
  · exact base _ (EflLaw.of rfl rfl rfl rfl rfl rfl)
  · refine ite_cases (fun _ => base _ (EflLaw.of rfl rfl rfl rfl rfl rfl)) fun _ => base _ ⟨id, fun o => ⟨?_, id⟩⟩
    refine ⟨fun _ => rfl, fun l _ => ⟨?_, fun _ => not_sealed (level_of_not_shut hs l), fun k => absurd rfl k⟩⟩
    refine Bool.eq_false_iff.mpr fun r => ?_
    exact absurd (o.1 r) hb

theorem execEflErase_law (s : State) :
    LawO [.free, .out, .nvme, .sqs, .qrecs, .ctxs, .slices, .zones, .gate, .staging, .toks, .bpm, .dma, .sward, .blocks, .dies, .fch, .zne, .par, .key, .cas, .efl, .evt, .log] s (execEflErase s) := by
  unfold Sys2Proof.Machine.execEflErase
  have base : ∀ f : Efl → Efl, EflLaw s.efl (f s.efl) → LawO [.free, .out, .nvme, .sqs, .qrecs, .ctxs, .slices, .zones, .gate, .staging, .toks, .bpm, .dma, .sward, .blocks, .dies, .fch, .zne, .par, .key, .cas, .efl, .evt, .log] s (.next (s.eflEdit f)) :=
    fun f h => LawO.next (Law.next (Law.refl _) (State.eflEdit_law s f h) (by decide))
  refine ite_cases (fun _ => LawO.next (Law.refl _)) fun hb => ?_
  refine ite_cases (fun _ => LawO.next (Law.next (Law.refl _) (State.eflRefuse_law s) (by decide))) fun hs => ?_
  split
  · exact base _ (EflLaw.of rfl rfl rfl rfl rfl rfl)
  · refine base _ ⟨id, fun o => ⟨?_, id⟩⟩
    refine ⟨fun _ => rfl, fun l _ => ⟨?_, fun k => absurd k (by dsimp only; decide), fun _ => not_sealed (level_of_not_shut hs l)⟩⟩
    refine Bool.eq_false_iff.mpr fun r => ?_
    exact absurd (o.1 r) hb

theorem execOemUnlock_law (s : State) :
    LawO [.efl] s (execOemUnlock s) := by
  unfold Sys2Proof.Machine.execOemUnlock
  try dsimp only
  repeat' first
    | with_reducible
        first
          | apply Law.refl | apply Law.ite | apply LawO.next | apply LawO.ite
          | apply Law.next ?_ (State.eflEdit_law _ _ ?_) ?_ | assumption | decide | (with_unfolding_all rfl)
          | (with_unfolding_all exact SealLaw.refl _) | (with_unfolding_all exact EflLaw.of rfl rfl rfl rfl rfl rfl)
    | split

theorem execOemLock_law (s : State) :
    LawO [.efl] s (execOemLock s) := by
  unfold Sys2Proof.Machine.execOemLock
  try dsimp only
  repeat' first
    | with_reducible
        first
          | apply Law.refl | apply LawO.next | apply LawO.ite | apply Law.next ?_ (State.eflEdit_law _ _ ?_) ?_
          | assumption | decide | (with_unfolding_all rfl) | (with_unfolding_all exact SealLaw.refl _)
          | (with_unfolding_all exact EflLaw.of rfl rfl rfl rfl rfl rfl)

theorem execSetPassword_law (s : State) :
    LawO [.efl] s (execSetPassword s) := by
  unfold Sys2Proof.Machine.execSetPassword
  try dsimp only
  repeat' first
    | with_reducible
        first
          | apply Law.refl | apply Law.ite | apply LawO.next | apply LawO.ite
          | apply Law.next ?_ (State.eflEdit_law _ _ ?_) ?_ | assumption | decide | (with_unfolding_all rfl)
          | (with_unfolding_all exact SealLaw.refl _) | (with_unfolding_all exact EflLaw.of rfl rfl rfl rfl rfl rfl)

theorem execWriteMask_law (s : State) :
    LawO [.efl] s (execWriteMask s) := by
  unfold Sys2Proof.Machine.execWriteMask
  try dsimp only
  repeat' first
    | with_reducible
        first
          | apply Law.refl | apply Law.ite | apply LawO.next | apply LawO.ite
          | apply Law.next ?_ (State.eflEdit_law _ _ ?_) ?_ | assumption | decide | (with_unfolding_all rfl)
          | (with_unfolding_all exact SealLaw.refl _) | (with_unfolding_all exact EflLaw.of rfl rfl rfl rfl rfl rfl)

theorem execEflRdp_law (target : Nat) (s : State) :
    LawO [.efl] s (execEflRdp target s) := by
  unfold Sys2Proof.Machine.execEflRdp
  have base : ∀ f : Efl → Efl, EflLaw s.efl (f s.efl) → LawO [.efl] s (.next (s.eflEdit f)) :=
    fun f h => LawO.next (Law.next (Law.refl _) (State.eflEdit_law s f h) (by decide))
  have plain : ∀ n : Nat, LawO [.efl] s (.next (s.eflEdit fun e => { e with rdpResult := n })) :=
    fun n => base _ (EflLaw.of rfl rfl rfl rfl rfl rfl)
  dsimp only
  refine ite_cases (fun _ => LawO.next (Law.refl _)) fun hb => ?_
  have idle : s.efl.busy = false := by simpa using hb
  refine ite_cases (fun _ => plain 3) fun l2 => ite_cases (fun _ => ?_) fun _ => ite_cases (fun l1 => ?_) fun _ => plain 4
  · refine base _ ⟨fun m => Tbl.wf_put m, fun o => ⟨⟨o.1, fun _ k => ?_⟩, fun l => absurd l l2⟩⟩
    exact absurd (idle.symm.trans k) (by decide)
  · refine ite_cases (fun _ => plain 1) fun _ => ite_cases (fun _ => plain 2) fun _ => base _ ⟨id, fun o => ⟨⟨fun _ => rfl, fun l => ?_⟩, id⟩⟩
    exact absurd l l2

theorem State.chanEdit_law (s : State) (o : Nat) (f : Chan → Chan) :
    Law [.dma] s (State.chanEdit s o f) := by
  unfold Sys2Proof.Machine.State.chanEdit
  try dsimp only
  repeat' first
    | with_reducible
        first
          | apply Law.refl
    | with_reducible apply Law.mk ?_

theorem State.busHalt_law (s : State) (b : BusErr) :
    Law [.out, .ctxs, .slices, .dma, .evt, .log] s (State.busHalt s b) := by
  unfold Sys2Proof.Machine.State.busHalt
  try dsimp only
  repeat' first
    | with_reducible
        first
          | apply Law.refl | apply Law.ite | apply Law.next ?_ (State.chanEdit_law _ _ _) ?_
          | apply Law.next ?_ (State.fire_law _ _ _ _ _ _) ?_ | apply Law.next ?_ (State.notice_law _ _ _ _ _) ?_
          | decide
    | with_reducible apply Law.mk ?_

theorem State.entryDrop_law (s : State) (c : Nat) :
    Law [.gate] s (State.entryDrop s c) := by
  unfold Sys2Proof.Machine.State.entryDrop
  try dsimp only
  repeat' first
    | with_reducible
        first
          | apply Law.refl
    | with_reducible apply Law.mk ?_

theorem State.cmdEnd_law (s : State) (c : Nat) (st : Status) :
    Law [.out, .sqs, .qrecs, .ctxs, .slices, .zones, .gate, .staging, .toks, .bpm, .dma, .sward, .dies, .fch, .par, .key, .evt, .log] s (State.cmdEnd s c st) := by
  unfold Sys2Proof.Machine.State.cmdEnd
  try dsimp only
  repeat' first
    | with_reducible
        first
          | apply Law.refl | apply Law.ite | apply Law.next ?_ (State.entryDrop_law _ _) ?_
          | apply Law.next ?_ (State.failWrite_law _ _ _) ?_ | apply Law.next ?_ (State.readStop_law _ _) ?_
          | apply Law.next ?_ (State.rdReturn_law _ _) ?_ | apply Law.next ?_ (State.finish_law _ _ _ _ _ _) ?_
          | apply Law.next ?_ (State.ctxEdit_law _ _ _) ?_ | decide
    | split

theorem State.busFail_law (s : State) (c : Nat) (b : BusErr) :
    Law [.out, .sqs, .qrecs, .ctxs, .slices, .zones, .gate, .staging, .toks, .bpm, .dma, .sward, .dies, .fch, .par, .key, .evt, .log] s (State.busFail s c b) := by
  unfold Sys2Proof.Machine.State.busFail
  try dsimp only
  repeat' first
    | with_reducible
        first
          | apply Law.refl | apply Law.next ?_ (State.cmdEnd_law _ _ _) ?_
          | apply Law.next ?_ (State.busHalt_law _ _) ?_ | decide

theorem State.busEvent_law (s : State) (q : Nat) (c : Nat) (cause : Nat) (src : BusSource) (addr : Word) (unit : Nat) :
    Law [.out, .sqs, .qrecs, .ctxs, .slices, .zones, .gate, .staging, .toks, .bpm, .dma, .sward, .dies, .fch, .par, .key, .evt, .log] s (State.busEvent s q c cause src addr unit) := by
  unfold Sys2Proof.Machine.State.busEvent
  try dsimp only
  repeat' first
    | with_reducible
        first
          | apply Law.refl | apply Law.ite | apply Law.next ?_ (State.busHalt_law _ _) ?_
          | apply Law.next ?_ (State.busFail_law _ _ _) ?_ | decide
    | split

theorem State.thaw_law (s : State) (o : Nat) :
    Law [.ctxs, .dma] s (State.thaw s o) := by
  unfold Sys2Proof.Machine.State.thaw
  try dsimp only
  repeat' first
    | with_reducible
        first
          | apply Law.refl | apply Law.ite | apply Law.next ?_ (State.chanEdit_law _ _ _) ?_ | decide
    | with_reducible apply Law.mk ?_

theorem execSlcDmaThaw_law (slice : Nat) (pasid : Option Nat) (s : State) :
    LawO [.out, .pci, .ctxs, .dma, .evt, .log] s (execSlcDmaThaw slice pasid s) := by
  unfold Sys2Proof.Machine.execSlcDmaThaw
  try dsimp only
  repeat' first
    | with_reducible
        first
          | apply Law.refl | exact Law.idle | apply LawO.next | apply LawO.ite
          | apply Law.next ?_ (State.tenantWrite_law _ _ _ _ _ (r := [.out, .pci, .ctxs, .dma, .evt, .log]) ?_ ?_) ?_
          | apply Law.next ?_ (State.thaw_law _ _) ?_ | decide | (exact fun u => Law.refl u)
    | (intro _; try dsimp only)

theorem execDmaThaw_law (chan : Nat) (s : State) :
    LawO [.ctxs, .dma] s (execDmaThaw chan s) := by
  unfold Sys2Proof.Machine.execDmaThaw
  try dsimp only
  repeat' first
    | with_reducible
        first
          | apply Law.refl | apply Law.ite | apply LawO.next | apply LawO.ite
          | apply Law.next ?_ (State.thaw_law _ _) ?_ | decide

theorem State.memberBusy_law (s : State) (c : Nat) :
    Law [.cas] s (State.memberBusy s c) := by
  unfold Sys2Proof.Machine.State.memberBusy
  try dsimp only
  repeat' first
    | with_reducible
        first
          | apply Law.refl
    | with_reducible apply Law.mk ?_

theorem State.unitIn_law (s : State) (c : Nat) (u : Nat) (data : Nat) (md : Nat) (x : Ctx) :
    Law [.out, .sqs, .qrecs, .ctxs, .zones, .gate, .staging, .toks, .bpm, .dma, .sward, .dies, .fch, .par, .cas, .evt, .log] s (State.unitIn s c u data md x) := by
  unfold Sys2Proof.Machine.State.unitIn
  try dsimp only
  repeat' first
    | with_reducible
        first
          | apply Law.refl | apply Law.ite | apply Law.next ?_ (State.ctxEdit_law _ _ _) ?_
          | apply Law.next ?_ (State.flits_law _ _ _ _) ?_ | apply Law.next ?_ (State.foldStaged_law _ _ _) ?_
          | apply Law.next ?_ (State.casSend_law _ _ _ _ _ _) ?_ | apply Law.next ?_ (State.memberBusy_law _ _) ?_
          | apply Law.next ?_ (State.stageDone_law _ _) ?_ | decide
    | split
    | with_reducible apply Law.mk ?_

theorem State.unitOut_law (s : State) (c : Nat) (u : Nat) (r : RUnit) (segs : List (Nat × Nat)) :
    Law [.out, .sqs, .qrecs, .ctxs, .bpm, .sward, .key] s (State.unitOut s c u r segs) := by
  unfold Sys2Proof.Machine.State.unitOut
  try dsimp only
  repeat' first
    | with_reducible
        first
          | apply Law.refl | apply Law.ite | apply Law.next ?_ (State.runitEdit_law _ _ _ _) ?_
          | apply Law.next ?_ (State.flits_law _ _ _ _) ?_ | apply Law.next ?_ (State.bufDrop_law _ _) ?_
          | apply Law.next ?_ (State.say_law _ _) ?_ | apply Law.next ?_ (State.ctxEdit_law _ _ _) ?_
          | apply Law.next ?_ (State.finish_law _ _ _ _ _ _) ?_ | apply Law.next ?_ (State.keySweep_law _) ?_
          | apply Law.next ?_ (State.rdReturn_law _ _) ?_ | decide
    | split

theorem State.unitDone_law (s : State) (c : Nat) (u : Nat) (data : Nat) (md : Nat) (x : Ctx) (o : UnitOutcome) (go : State → State) {r : List Piece} (hr : sub [.free, .out, .nvme, .sqs, .qrecs, .ctxs, .slices, .zones, .gate, .staging, .toks, .bpm, .dma, .sward, .blocks, .dies, .fch, .zne, .par, .key, .cas, .evt, .log] r = true) (h_go : ∀ u, Law r u (go u)) :
    Law r s (State.unitDone s c u data md x o go) := by
  unfold Sys2Proof.Machine.State.unitDone
  try dsimp only
  repeat' first
    | with_reducible
        first
          | apply Law.refl | apply Law.ite | apply Law.next ?_ (State.cmdEnd_law _ _ _) ?_
          | apply Law.next ?_ (State.alarm_law _ _ _) ?_ | apply Law.next ?_ (h_go _) (sub_refl _)
          | exact sub_refl _ | exact hr | (refine sub_trans ?_ hr; decide)
    | (intro _; try dsimp only)
    | split
    | with_reducible apply Law.mk ?_

theorem State.gauntlet_law (s : State) (c : Nat) (kix : Option Nat) (go : State → State) {r : List Piece} (hr : sub [.out, .sqs, .qrecs, .ctxs, .slices, .zones, .gate, .staging, .toks, .bpm, .dma, .sward, .dies, .fch, .par, .key, .evt, .log] r = true) (h_go : ∀ u, Law r u (go u)) :
    Law r s (State.gauntlet s c kix go) := by
  unfold Sys2Proof.Machine.State.gauntlet
  try dsimp only
  repeat' first
    | with_reducible
        first
          | apply Law.refl | apply Law.ite | apply Law.next ?_ (State.keyLess_law _ _) ?_
          | apply Law.next ?_ (State.keyUse_law _ _) ?_ | apply Law.next ?_ (h_go _) (sub_refl _) | exact sub_refl _
          | exact hr | (refine sub_trans ?_ hr; decide)
    | (intro _; try dsimp only)
    | split

theorem State.walkFail_law (s : State) (c : Nat) (u : Nat) (x : Ctx) (f : DescFault) (src : Nat) (addr : Nat) :
    Law [.out, .sqs, .qrecs, .ctxs, .slices, .zones, .gate, .staging, .toks, .bpm, .dma, .sward, .dies, .fch, .par, .key, .evt, .log] s (State.walkFail s c u x f src addr) := by
  unfold Sys2Proof.Machine.State.walkFail
  try dsimp only
  repeat' first
    | with_reducible
        first
          | apply Law.refl | apply Law.next ?_ (State.busFail_law _ _ _) ?_ | decide
    | with_reducible apply Law.mk ?_

theorem State.walked_law (s : State) (c : Nat) (u : Nat) (x : Ctx) (host : List (Nat × Nat)) (go : List (Nat × Nat) → State) {r : List Piece} (hr : sub [.out, .sqs, .qrecs, .ctxs, .slices, .zones, .gate, .staging, .toks, .bpm, .dma, .sward, .dies, .fch, .par, .key, .evt, .log] r = true) (h_go : ∀ x0, Law r s (go x0)) :
    Law r s (State.walked s c u x host go) := by
  unfold Sys2Proof.Machine.State.walked
  try dsimp only
  repeat' first
    | with_reducible
        first
          | apply Law.refl | apply Law.next ?_ (State.walkFail_law _ _ _ _ _ _ _) ?_ | exact h_go _
          | exact sub_refl _ | exact hr | (refine sub_trans ?_ hr; decide)
    | (intro _; try dsimp only)
    | split

theorem State.revoke_law (s : State) (i : Nat) :
    Law [.out, .sqs, .qrecs, .ctxs, .slices, .zones, .gate, .staging, .toks, .bpm, .dma, .sward, .dies, .fch, .par, .key, .evt, .log] s (State.revoke s i) := by
  unfold Sys2Proof.Machine.State.revoke
  try dsimp only
  repeat' first
    | with_reducible
        first
          | apply Law.refl | apply Law.ite | apply Law.next ?_ (State.cmdEnd_law _ _ _) ?_
          | apply Law.next ?_ (State.ctxDiscard_law _ _) ?_ | apply Law.forNats | apply Law.foldl
          | apply Law.foldlSnd | apply Law.foldlFst | decide
    | (intro _; try dsimp only)
    | split
    | with_reducible apply Law.mk ?_

theorem execBpmRevoke_law (slice : Nat) (s : State) :
    LawO [.out, .sqs, .qrecs, .ctxs, .slices, .zones, .gate, .staging, .toks, .bpm, .dma, .sward, .dies, .fch, .par, .key, .evt, .log] s (execBpmRevoke slice s) := by
  unfold Sys2Proof.Machine.execBpmRevoke
  try dsimp only
  repeat' first
    | with_reducible
        first
          | apply Law.refl | apply Law.ite | apply LawO.next | apply LawO.ite
          | apply Law.next ?_ (State.revoke_law _ _) ?_ | decide
    | with_reducible apply Law.mk ?_

theorem State.sliceMake_law (s : State) (i : Nat) (pasid : Nat) (d : SliceData) :
    Law [.free, .sqs, .cqs, .qrecs, .slices, .dma, .lat, .key, .mtr] s (State.sliceMake s i pasid d) := by
  unfold Sys2Proof.Machine.State.sliceMake
  try dsimp only
  repeat' first
    | with_reducible
        first
          | apply Law.refl | apply Law.ite | apply Law.next ?_ (State.sliceEdit_law _ _ _) ?_
          | apply Law.next ?_ (State.tallyOpen_law _ _ _) ?_ | apply Law.next ?_ (State.keyCreate_law _ _) ?_
          | apply Law.foldl | apply Law.foldlSnd | apply Law.foldlFst | decide
    | (intro _; try dsimp only)
    | with_reducible apply Law.mk ?_

theorem State.sliceTold_law (s : State) (i : Nat) (stamp : Nat) :
    Law [.out, .gate, .sward, .cas] s (State.sliceTold s i stamp) := by
  unfold Sys2Proof.Machine.State.sliceTold
  try dsimp only
  repeat' first
    | with_reducible
        first
          | apply Law.refl | apply Law.next ?_ (State.stampTell_law _ _ _) ?_ | decide

theorem State.sliceRes_law (s : State) (ctx : Nat) (d : SliceData) (action : Nat) (act : State → Nat → State) {r : List Piece} (hr : sub [.sqs, .qrecs, .ctxs] r = true) (h_act : ∀ u x1, Law r u (act u x1)) :
    Law r s (State.sliceRes s ctx d action act) := by
  unfold Sys2Proof.Machine.State.sliceRes
  try dsimp only
  repeat' first
    | with_reducible
        first
          | apply Law.refl | exact Law.idle | apply Law.ite
          | apply Law.next ?_ (State.admitAdmin_law _ _ _ _ (r := r) ?_ ?_) ?_
          | apply Law.next ?_ (State.finish_law _ _ _ _ _ _) ?_ | apply Law.next ?_ (h_act _ _) (sub_refl _)
          | exact sub_refl _ | exact hr | (refine sub_trans ?_ hr; decide) | (exact fun u => Law.refl u)
    | (intro _; try dsimp only)
    | split

theorem State.lostNotices_law (s : State) (i : Nat) :
    Law [.out, .slices, .evt] s (State.lostNotices s i) := by
  unfold Sys2Proof.Machine.State.lostNotices
  try dsimp only
  repeat' first
    | with_reducible
        first
          | apply Law.refl | apply Law.ite | apply Law.next ?_ (State.sliceEdit_law _ _ _) ?_
          | apply Law.next ?_ (State.notice_law _ _ _ _ _) ?_ | apply Law.foldl | apply Law.foldlSnd
          | apply Law.foldlFst | decide
    | (intro _; try dsimp only)

theorem State.changeApply_law (s : State) (ctx : Nat) (i : Nat) (d : SliceData) :
    Law [.out, .sqs, .qrecs, .ctxs, .slices, .gate, .dma, .sward, .cas, .nv, .evt] s (State.changeApply s ctx i d) := by
  unfold Sys2Proof.Machine.State.changeApply
  try dsimp only
  repeat' first
    | with_reducible
        first
          | apply Law.refl | apply Law.ite | apply Law.next ?_ (State.ledger_law _) ?_
          | apply Law.next ?_ (State.sliceEdit_law _ _ _) ?_ | apply Law.next ?_ (State.stampCtx_law _ _) ?_
          | apply Law.next ?_ (State.notice_law _ _ _ _ _) ?_ | apply Law.next ?_ (State.enterCfg_law _ _) ?_
          | apply Law.next ?_ (State.markRun_law _) ?_ | apply Law.next ?_ (State.finish_law _ _ _ _ _ _) ?_
          | decide

theorem State.sliceDiscard_law (s : State) (i : Nat) :
    Law [.out, .sqs, .qrecs, .ctxs, .slices, .evt] s (State.sliceDiscard s i) := by
  unfold Sys2Proof.Machine.State.sliceDiscard
  try dsimp only
  repeat' first
    | with_reducible
        first
          | apply Law.refl | apply Law.next ?_ (State.ctxFree_law _ _) ?_ | apply Law.forNats | decide
    | (intro _; try dsimp only)

theorem State.destroy_law (s : State) (ctx : Nat) (i : Nat) :
    Law [.out, .sqs, .qrecs, .ctxs, .slices, .zones, .gate, .staging, .toks, .bpm, .dma, .sward, .dies, .fch, .par, .key, .evt, .log] s (State.destroy s ctx i) := by
  unfold Sys2Proof.Machine.State.destroy
  try dsimp only
  repeat' first
    | with_reducible
        first
          | apply Law.refl | apply Law.next ?_ (State.sliceDiscard_law _ _) ?_
          | apply Law.next ?_ (State.sliceEdit_law _ _ _) ?_ | apply Law.next ?_ (State.revoke_law _ _) ?_ | decide
    | with_reducible apply Law.mk ?_

theorem State.sliceGone_law (s : State) (i : Nat) :
    Law [.out, .sqs, .cqs, .qrecs, .ctxs, .slices, .toks, .dma, .sward, .lat, .cas, .mtr, .nv] s (State.sliceGone s i) := by
  unfold Sys2Proof.Machine.State.sliceGone
  try dsimp only
  repeat' first
    | with_reducible
        first
          | apply Law.refl | apply Law.next ?_ (State.sliceEdit_law _ _ _) ?_
          | apply Law.next ?_ (State.tallyShut_law _ _) ?_ | apply Law.next ?_ (State.stampSend_law _ _) ?_
          | apply Law.next ?_ (State.ledger_law _) ?_ | apply Law.next ?_ (State.finish_law _ _ _ _ _ _) ?_ | decide
    | split
    | with_reducible apply Law.mk ?_

theorem State.thawQ_law (s : State) (q : Nat) :
    Law [.sqs, .qrecs] s (State.thawQ s q) := by
  unfold Sys2Proof.Machine.State.thawQ
  try dsimp only
  repeat' first
    | with_reducible
        first
          | apply Law.refl
    | with_reducible apply Law.mk ?_

theorem State.upDone_law (s : State) (i : Nat) :
    Law [.out, .evt, .log] s (State.upDone s i) := by
  unfold Sys2Proof.Machine.State.upDone
  try dsimp only
  repeat' first
    | with_reducible
        first
          | apply Law.refl | apply Law.next ?_ (State.fire_law _ _ _ _ _ _) ?_ | decide
    | with_reducible apply Law.mk ?_

theorem State.downDone_law (s : State) (i : Nat) :
    Law [.out, .evt] s (State.downDone s i) := by
  unfold Sys2Proof.Machine.State.downDone
  try dsimp only
  repeat' first
    | with_reducible
        first
          | apply Law.refl | apply Law.ite | apply Law.next ?_ (State.msix_law _ _) ?_ | decide

theorem State.mbPush_law (s : State) (i : Nat) (up : Bool) (aligned8 : Bool) (w : Word) :
    Law [.out, .slices, .evt, .log] s (State.mbPush s i up aligned8 w) := by
  unfold Sys2Proof.Machine.State.mbPush
  try dsimp only
  repeat' first
    | with_reducible
        first
          | apply Law.refl | apply Law.ite | apply Law.next ?_ (State.sliceEdit_law _ _ _) ?_
          | apply Law.next ?_ (State.upDone_law _ _) ?_ | apply Law.next ?_ (State.downDone_law _ _) ?_ | decide

theorem execSlcMboutPush_law (p : Party) (slice : Nat) (aligned8 : Bool) (word : Word) (s : State) :
    LawO [.out, .pci, .slices, .evt, .log] s (execSlcMboutPush p slice aligned8 word s) := by
  unfold Sys2Proof.Machine.execSlcMboutPush
  try dsimp only
  repeat' first
    | with_reducible
        first
          | apply Law.refl | exact Law.idle | apply Law.ite | apply LawO.next | apply LawO.ite
          | apply Law.next ?_ (State.tenantWrite_law _ _ _ _ _ (r := [.out, .pci, .slices, .evt, .log]) ?_ ?_) ?_
          | apply Law.next ?_ (State.mbPush_law _ _ _ _ _) ?_ | decide | (exact fun u => Law.refl u)
    | (intro _; try dsimp only)
    | split

theorem State.mbFlush_law (s : State) (i : Nat) (up : Bool) (manager : Bool) :
    Law [.out, .slices, .evt, .log] s (State.mbFlush s i up manager) := by
  unfold Sys2Proof.Machine.State.mbFlush
  try dsimp only
  repeat' first
    | with_reducible
        first
          | apply Law.refl | apply Law.ite | apply Law.next ?_ (State.sliceEdit_law _ _ _) ?_
          | apply Law.next ?_ (State.notice_law _ _ _ _ _) ?_ | apply Law.next ?_ (State.fire_law _ _ _ _ _ _) ?_
          | decide

theorem execFlushIn_law (p : Party) (slice : Nat) (s : State) :
    LawO [.out, .pci, .slices, .evt, .log] s (execFlushIn p slice s) := by
  unfold Sys2Proof.Machine.execFlushIn
  try dsimp only
  repeat' first
    | with_reducible
        first
          | apply Law.refl | exact Law.idle | apply Law.ite | apply LawO.next | apply LawO.ite
          | apply Law.next ?_ (State.tenantWrite_law _ _ _ _ _ (r := [.out, .pci, .slices, .evt, .log]) ?_ ?_) ?_
          | apply Law.next ?_ (State.mbFlush_law _ _ _ _) ?_ | decide | (exact fun u => Law.refl u)
    | (intro _; try dsimp only)
    | split

theorem execFlushOut_law (p : Party) (slice : Nat) (s : State) :
    LawO [.out, .pci, .slices, .evt, .log] s (execFlushOut p slice s) := by
  unfold Sys2Proof.Machine.execFlushOut
  try dsimp only
  repeat' first
    | with_reducible
        first
          | apply Law.refl | exact Law.idle | apply Law.ite | apply LawO.next | apply LawO.ite
          | apply Law.next ?_ (State.tenantWrite_law _ _ _ _ _ (r := [.out, .pci, .slices, .evt, .log]) ?_ ?_) ?_
          | apply Law.next ?_ (State.mbFlush_law _ _ _ _) ?_ | decide | (exact fun u => Law.refl u)
    | (intro _; try dsimp only)
    | split

theorem execSlcMbinPtr_law (p : Party) (slice : Nat) (head : Nat) (s : State) :
    LawO [.out, .pci, .slices, .evt, .log] s (execSlcMbinPtr p slice head s) := by
  unfold Sys2Proof.Machine.execSlcMbinPtr
  try dsimp only
  repeat' first
    | with_reducible
        first
          | apply Law.refl | exact Law.idle | apply Law.ite | apply LawO.next | apply LawO.ite
          | apply Law.next ?_ (State.tenantWrite_law _ _ _ _ _ (r := [.out, .pci, .slices, .evt, .log]) ?_ ?_) ?_
          | apply Law.next ?_ (State.sliceEdit_law _ _ _) ?_ | decide | (exact fun u => Law.refl u)
    | (intro _; try dsimp only)
    | split

theorem execSlcNrCtl_law (slice : Nat) (pasid : Option Nat) (v : Dword) (s : State) :
    LawO [.out, .pci, .slices, .evt, .log] s (execSlcNrCtl slice pasid v s) := by
  unfold Sys2Proof.Machine.execSlcNrCtl
  try dsimp only
  repeat' first
    | with_reducible
        first
          | apply Law.refl | exact Law.idle | apply LawO.next | apply LawO.ite
          | apply Law.next ?_ (State.tenantWrite_law _ _ _ _ _ (r := [.out, .pci, .slices, .evt, .log]) ?_ ?_) ?_
          | apply Law.next ?_ (State.noticeFlush_law _ _) ?_ | apply Law.next ?_ (State.sliceEdit_law _ _ _) ?_
          | decide | (exact fun u => Law.refl u)
    | (intro _; try dsimp only)

theorem execSlcNrHead_law (slice : Nat) (pasid : Option Nat) (head : Nat) (s : State) :
    LawO [.out, .pci, .slices, .evt, .log] s (execSlcNrHead slice pasid head s) := by
  unfold Sys2Proof.Machine.execSlcNrHead
  try dsimp only
  repeat' first
    | with_reducible
        first
          | apply Law.refl | exact Law.idle | apply LawO.next | apply LawO.ite
          | apply Law.next ?_ (State.tenantWrite_law _ _ _ _ _ (r := [.out, .pci, .slices, .evt, .log]) ?_ ?_) ?_
          | apply Law.next ?_ (State.noticeFlush_law _ _) ?_ | apply Law.next ?_ (State.sliceEdit_law _ _ _) ?_
          | decide | (exact fun u => Law.refl u)
    | (intro _; try dsimp only)

end Sys2Proof.Laws
end

