-- ==== Sys2Proof/Laws/Island.lean ====
section
/-! SUPPORT. One law for each operation of Machine/: Meter, Rounds, Power:
the parts of the state that it may change, and that it breaks no promise. A row that another row runs has its law
here too. -/

-- One theorem after another: side by side they need more threads than the memory limit allows.
set_option Elab.async false

namespace Sys2Proof.Laws

open Sys2Proof Sys2Proof.Machine Sys2Proof.Safety

theorem State.mtrEdit_law (s : State) (f : Mtr → Mtr) (h : SealLaw s.mtr.sealCnt (f s.mtr).sealCnt) :
    Law [.mtr] s (State.mtrEdit s f) := by
  unfold Sys2Proof.Machine.State.mtrEdit
  exact Law.mk (Law.refl _) (hs := h)

theorem State.mtrPut_law (s : State) (r : MRec) :
    Law [.out, .mtr, .evt, .log] s (State.mtrPut s r) := by
  unfold Sys2Proof.Machine.State.mtrPut
  try dsimp only
  repeat' first
    | with_reducible
        first
          | apply Law.refl | apply Law.ite | apply Law.next ?_ (State.mtrEdit_law _ _ ?_) ?_
          | apply Law.next ?_ (State.fire_law _ _ _ _ _ _) ?_ | assumption | decide | (with_unfolding_all rfl)
          | (with_unfolding_all exact SealLaw.refl _) | (with_unfolding_all exact EflLaw.of rfl rfl rfl rfl rfl rfl)

theorem State.mtrAudit_law (s : State) (kind : Nat) (param : Nat) (old : Nat) (new : Nat) (oldSwck : Nat) :
    Law [.out, .mtr, .evt, .log] s (State.mtrAudit s kind param old new oldSwck) := by
  unfold Sys2Proof.Machine.State.mtrAudit
  try dsimp only
  repeat' first
    | with_reducible
        first
          | apply Law.refl | apply Law.next ?_ (State.mtrPut_law _ _) ?_ | decide

theorem State.mtrClose_law (s : State) (part : Bool) :
    Law [.free, .out, .mtr, .evt, .log] s (State.mtrClose s part) := by
  unfold Sys2Proof.Machine.State.mtrClose
  try dsimp only
  repeat' first
    | with_reducible
        first
          | apply Law.refl | apply Law.ite | apply Law.next ?_ (State.mtrPut_law _ _) ?_
          | apply Law.next ?_ (State.freeStep_law _) ?_ | decide
    | with_reducible apply Law.mk ?_

theorem State.mtrSave_law (s : State) :
    Law [.free, .out, .mtr, .evt, .log] s (State.mtrSave s) := by
  unfold Sys2Proof.Machine.State.mtrSave
  try dsimp only
  repeat' first
    | with_reducible
        first
          | apply Law.refl | apply Law.ite | apply Law.next ?_ (State.mtrEdit_law _ _ ?_) ?_
          | apply Law.next ?_ (State.mtrClose_law _ _) ?_ | assumption | decide | (with_unfolding_all rfl)
          | (with_unfolding_all exact SealLaw.refl _) | (with_unfolding_all exact EflLaw.of rfl rfl rfl rfl rfl rfl)

theorem State.mtrFault_law (s : State) (f : Mtr → Mtr) (h : SealLaw s.mtr.sealCnt (f s.mtr).sealCnt) :
    Law [.out, .mtr, .evt, .log] s (State.mtrFault s f) := by
  unfold Sys2Proof.Machine.State.mtrFault
  have k : Law [.out, .mtr, .evt, .log] s (s.mtrEdit f) := Law.next (Law.refl _) (State.mtrEdit_law s f h) (by decide)
  exact Law.ite (Law.next k (State.fire_law _ _ _ _ _ _) (by decide)) k

theorem State.tallyTick_law (s : State) (stamp : Nat) (span : Nat) :
    Law [.out, .mtr] s (State.tallyTick s stamp span) := by
  unfold Sys2Proof.Machine.State.tallyTick
  try dsimp only
  repeat' first
    | with_reducible
        first
          | apply Law.refl | apply Law.ite | apply Law.next ?_ (State.tally_law _ _ _) ?_
          | apply Law.next ?_ (State.say_law _ _) ?_ | apply Law.next ?_ (State.mtrEdit_law _ _ ?_) ?_
          | apply Law.foldl | apply Law.foldlSnd | apply Law.foldlFst | assumption | decide
          | (with_unfolding_all rfl) | (with_unfolding_all exact SealLaw.refl _)
          | (with_unfolding_all exact EflLaw.of rfl rfl rfl rfl rfl rfl)
    | (intro _; try dsimp only)

theorem State.mtrSpace_law (s : State) :
    Law [.mtr] s (State.mtrSpace s) := by
  unfold Sys2Proof.Machine.State.mtrSpace
  try dsimp only
  repeat' first
    | with_reducible
        first
          | apply Law.refl | apply Law.next ?_ (State.mtrEdit_law _ _ ?_) ?_ | assumption | decide
          | (with_unfolding_all rfl) | (with_unfolding_all exact SealLaw.refl _)
          | (with_unfolding_all exact EflLaw.of rfl rfl rfl rfl rfl rfl)

theorem State.mtrReclaim_law (s : State) :
    Law [.free, .mtr] s (State.mtrReclaim s) := by
  unfold Sys2Proof.Machine.State.mtrReclaim
  try dsimp only
  repeat' first
    | with_reducible
        first
          | apply Law.refl | apply Law.next ?_ (State.mtrSpace_law _) ?_
          | apply Law.next ?_ (State.freeStep_law _) ?_ | apply Law.next ?_ (State.mtrEdit_law _ _ ?_) ?_
          | assumption | decide | (with_unfolding_all rfl) | (with_unfolding_all exact SealLaw.refl _)
          | (with_unfolding_all exact EflLaw.of rfl rfl rfl rfl rfl rfl)

theorem State.mtrAckDo_law (s : State) (n : Nat) :
    Law [.free, .mtr] s (State.mtrAckDo s n) := by
  unfold Sys2Proof.Machine.State.mtrAckDo
  try dsimp only
  repeat' first
    | with_reducible
        first
          | apply Law.refl | apply Law.next ?_ (State.mtrReclaim_law _) ?_
          | apply Law.next ?_ (State.mtrEdit_law _ _ ?_) ?_ | assumption | decide | (with_unfolding_all rfl)
          | (with_unfolding_all exact SealLaw.refl _) | (with_unfolding_all exact EflLaw.of rfl rfl rfl rfl rfl rfl)

theorem execMtrAck_law (v : Word) (s : State) :
    LawO [.free, .out, .sward, .cas, .mtr] s (execMtrAck v s) := by
  unfold Sys2Proof.Machine.execMtrAck
  try dsimp only
  repeat' first
    | with_reducible
        first
          | apply Law.refl | apply Law.ite | apply LawO.next | apply LawO.ite
          | apply Law.next ?_ (State.mtrEdit_law _ _ ?_) ?_ | apply Law.next ?_ (State.casSend_law _ _ _ _ _ _) ?_
          | apply Law.next ?_ (State.mtrAckDo_law _ _) ?_ | assumption | decide | (with_unfolding_all rfl)
          | (with_unfolding_all exact SealLaw.refl _) | (with_unfolding_all exact EflLaw.of rfl rfl rfl rfl rfl rfl)

theorem execMtrRecSel_law (recno : Word) (s : State) :
    LawO [.mtr] s (execMtrRecSel recno s) := by
  unfold Sys2Proof.Machine.execMtrRecSel
  try dsimp only
  repeat' first
    | with_reducible
        first
          | apply Law.refl | apply LawO.next | apply LawO.ite | apply Law.next ?_ (State.mtrEdit_law _ _ ?_) ?_
          | assumption | decide | (with_unfolding_all rfl) | (with_unfolding_all exact SealLaw.refl _)
          | (with_unfolding_all exact EflLaw.of rfl rfl rfl rfl rfl rfl)

theorem State.paramCommit_law (s : State) :
    Law [.free, .out, .mtr, .evt, .log] s (State.paramCommit s) := by
  have base : ∀ n : Nat, Law [.free, .out, .mtr, .evt, .log] s (s.mtrEdit fun m => { m with paramResult := n, paramBusy := false }) :=
    fun n => Law.next (Law.refl _) (State.mtrEdit_law _ _ (SealLaw.refl _)) (by decide)
  unfold Sys2Proof.Machine.State.paramCommit
  dsimp only
  refine ite_cases (fun _ => base 1) fun _ => ite_cases (fun _ => base 2) fun _ => ite_cases (fun _ => base 3) fun hs => ?_
  refine Law.next (Law.next (Law.next (base 0) (State.mtrClose_law _ _) (by decide)) (State.mtrEdit_law _ _ ?_) (by decide))
    (State.mtrAudit_law _ _ _ _ _ _) (by decide)
  intro h
  dsimp only
  omega

theorem execMtrParamCommit_law (s : State) :
    LawO [.free, .out, .mtr, .evt, .log] s (execMtrParamCommit s) := by
  unfold Sys2Proof.Machine.execMtrParamCommit
  try dsimp only
  repeat' first
    | with_reducible
        first
          | apply Law.refl | apply Law.ite | apply LawO.next | apply LawO.ite
          | apply Law.next ?_ (State.mtrEdit_law _ _ ?_) ?_ | apply Law.next ?_ (State.paramCommit_law _) ?_
          | assumption | decide | (with_unfolding_all rfl) | (with_unfolding_all exact SealLaw.refl _)
          | (with_unfolding_all exact EflLaw.of rfl rfl rfl rfl rfl rfl)

theorem State.mtrHalt_law (s : State) (k : Nat) :
    Law [.out, .mtr, .evt, .log] s (State.mtrHalt s k) := by
  unfold Sys2Proof.Machine.State.mtrHalt
  try dsimp only
  repeat' first
    | with_reducible
        first
          | apply Law.refl | apply Law.next ?_ (State.fire_law _ _ _ _ _ _) ?_
          | apply Law.next ?_ (State.mtrEdit_law _ _ ?_) ?_ | assumption | decide | (with_unfolding_all rfl)
          | (with_unfolding_all exact SealLaw.refl _) | (with_unfolding_all exact EflLaw.of rfl rfl rfl rfl rfl rfl)

theorem State.swckCheck_law (s : State) (sum : BitVec (OfNat.ofNat 256)) :
    Law [.out, .mtr, .evt, .log] s (State.swckCheck s sum) := by
  unfold Sys2Proof.Machine.State.swckCheck
  try dsimp only
  repeat' first
    | with_reducible
        first
          | apply Law.refl | apply Law.ite | apply Law.next ?_ (State.mtrEdit_law _ _ ?_) ?_
          | apply Law.next ?_ (State.mtrHalt_law _ _) ?_ | assumption | decide | (with_unfolding_all rfl)
          | (with_unfolding_all exact SealLaw.refl _) | (with_unfolding_all exact EflLaw.of rfl rfl rfl rfl rfl rfl)

theorem execMtrSwckGo_law (sum : BitVec (OfNat.ofNat 256)) (s : State) :
    LawO [.out, .mtr, .evt, .log] s (execMtrSwckGo sum s) := by
  unfold Sys2Proof.Machine.execMtrSwckGo
  try dsimp only
  repeat' first
    | with_reducible
        first
          | apply Law.refl | apply LawO.next | apply LawO.ite | apply Law.next ?_ (State.swckCheck_law _ _) ?_
          | decide

theorem State.stagingApply_law (s : State) (stamp : Nat) (span : Nat) :
    Law [.out, .zones, .gate, .bpm, .dma, .blocks, .dies, .fch, .mtr] s (State.stagingApply s stamp span) := by
  unfold Sys2Proof.Machine.State.stagingApply
  try dsimp only
  repeat' first
    | with_reducible
        first
          | apply Law.refl | apply Law.next ?_ (State.tallyTick_law _ _ _) ?_
          | apply Law.next ?_ (State.slcStart_law _ _) ?_ | apply Law.forNats | decide
    | (intro _; try dsimp only)
    | split
    | with_reducible apply Law.mk ?_

theorem State.takeFor_law (s : State) (dk : Nat) (st : Nat) (erase : Bool) :
    Law [.bpm, .blocks, .dies, .fch] s (State.takeFor s dk st erase) := by
  unfold Sys2Proof.Machine.State.takeFor
  try dsimp only
  repeat' first
    | with_reducible
        first
          | apply Law.refl | apply Law.ite | apply Law.next ?_ (State.allocBlock_law _ _ _ _) ?_
          | apply Law.next ?_ (State.dieEdit_law _ _ _) ?_ | apply Law.next ?_ (State.eraseQueue_law _ _ _ _) ?_
          | decide
    | split

theorem State.wearOut_law (s : State) :
    Law [.blocks] s (State.wearOut s) := by
  unfold Sys2Proof.Machine.State.wearOut
  try dsimp only
  repeat' first
    | with_reducible
        first
          | apply Law.refl | apply Law.ite
    | with_reducible apply Law.mk ?_

theorem State.dieReserves_law (s : State) (ksave : Nat) (dk : Nat) :
    Law [.bpm, .blocks, .dies, .fch] s (State.dieReserves s ksave dk) := by
  unfold Sys2Proof.Machine.State.dieReserves
  try dsimp only
  repeat' first
    | with_reducible
        first
          | apply Law.refl | apply Law.ite | apply Law.next ?_ (State.takeFor_law _ _ _ _) ?_
          | apply Law.next ?_ (State.freeBlock_law _ _ _) ?_ | apply Law.foldl | apply Law.foldlSnd
          | apply Law.foldlFst | decide
    | (intro _; try dsimp only)

theorem State.slcShrink_law (s : State) (dk : Nat) :
    Law [.zones, .bpm, .dma, .blocks, .dies, .fch] s (State.slcShrink s dk) := by
  unfold Sys2Proof.Machine.State.slcShrink
  try dsimp only
  repeat' first
    | with_reducible
        first
          | apply Law.refl | apply Law.iteFst | apply Law.next ?_ (State.dieEdit_law _ _ _) ?_
          | apply Law.next ?_ (State.blockLeave_law _ _ _) ?_ | apply Law.next ?_ (State.slcWrite_law _ _) ?_
          | refine Law.next ?_ (Law.fst (State.slcWrite_law _ _) ‹_ = (_, _)›) ?_
          | apply Law.next ?_ (State.zoneEdit_law _ _ _) ?_ | apply Law.forNats | assumption | decide
    | (intro _; try dsimp only)
    | split

theorem State.slcStep_law (s : State) (nt : Nat) :
    Law [.zones, .bpm, .dma, .blocks, .dies, .fch, .zne] s (State.slcStep s nt) := by
  unfold Sys2Proof.Machine.State.slcStep
  try dsimp only
  repeat' first
    | with_reducible
        first
          | apply Law.refl | apply Law.ite | apply Law.next ?_ (State.takeFor_law _ _ _ _) ?_
          | apply Law.next ?_ (State.slcShrink_law _ _) ?_ | apply Law.forNats | decide
    | (intro _; try dsimp only)
    | with_reducible apply Law.mk ?_

theorem State.slcTick_law (s : State) :
    Law [.out, .zones, .gate, .bpm, .dma, .sward, .blocks, .dies, .fch, .zne, .cas, .evt, .log] s (State.slcTick s) := by
  unfold Sys2Proof.Machine.State.slcTick
  try dsimp only
  repeat' first
    | with_reducible
        first
          | apply Law.refl | apply Law.ite | apply Law.next ?_ (State.wearOut_law _) ?_
          | apply Law.next ?_ (State.dieReserves_law _ _ _) ?_ | apply Law.next ?_ (State.slcStep_law _ _) ?_
          | apply Law.next ?_ (State.fire_law _ _ _ _ _ _) ?_ | apply Law.next ?_ (State.retireCheck_law _ _) ?_
          | apply Law.forNats | decide
    | (intro _; try dsimp only)
    | with_reducible apply Law.mk ?_

theorem State.spareTick_law (s : State) :
    Law [.out, .nvme, .sqs, .qrecs, .ctxs, .par, .evt, .log] s (State.spareTick s) := by
  unfold Sys2Proof.Machine.State.spareTick
  try dsimp only
  repeat' first
    | with_reducible
        first
          | apply Law.refl | apply Law.ite | apply Law.next ?_ (State.aenCrit_law _ _) ?_
          | apply Law.next ?_ (State.fire_law _ _ _ _ _ _) ?_ | decide
    | split
    | with_reducible apply Law.mk ?_

theorem State.tokAge_law (s : State) (secs : Nat) :
    Law [.toks] s (State.tokAge s secs) := by
  unfold Sys2Proof.Machine.State.tokAge
  try dsimp only
  repeat' first
    | with_reducible
        first
          | apply Law.refl
    | with_reducible apply Law.mk ?_

theorem State.mediaAdvance_law (s : State) :
    Law [.fch] s (State.mediaAdvance s) := by
  unfold Sys2Proof.Machine.State.mediaAdvance
  try dsimp only
  repeat' first
    | with_reducible
        first
          | apply Law.refl
    | with_reducible apply Law.mk ?_

theorem State.waterTick_law (s : State) :
    Law [.zones] s (State.waterTick s) := by
  unfold Sys2Proof.Machine.State.waterTick
  try dsimp only
  repeat' first
    | with_reducible
        first
          | apply Law.refl
    | with_reducible apply Law.mk ?_

theorem State.migrateTo_law (s : State) (zk : Nat) (data : Option Place) (log : Option Place) (rows : List Nat) :
    Law [.zones, .bpm, .dma, .blocks, .dies, .fch] s (State.migrateTo s zk data log rows) := by
  unfold Sys2Proof.Machine.State.migrateTo
  try dsimp only
  repeat' first
    | with_reducible
        first
          | apply Law.refl | apply Law.ite | apply Law.next ?_ (State.dropProgs_law _ _ _) ?_
          | apply Law.next ?_ (State.copyRead_law _ _ _ _) ?_ | apply Law.next ?_ (State.copyFence_law _ _) ?_
          | apply Law.next ?_ (State.opQueue_law _ _) ?_ | apply Law.next ?_ (State.zoneEdit_law _ _ _) ?_
          | apply Law.next ?_ (State.rowsStart_law _ _ _ _) ?_ | apply Law.next ?_ (State.slcStart_law _ _) ?_
          | apply Law.foldl | apply Law.foldlSnd | apply Law.foldlFst | decide
    | (intro _; try dsimp only)
    | split

theorem State.migrateZone_law (s : State) (zk : Nat) :
    Law [.zones, .bpm, .dma, .blocks, .dies, .fch] s (State.migrateZone s zk) := by
  unfold Sys2Proof.Machine.State.migrateZone
  try dsimp only
  repeat' first
    | with_reducible
        first
          | apply Law.refl | apply Law.iteSnd | apply Law.next ?_ (State.freshRow_law _ _ _) ?_
          | refine Law.next ?_ (Law.snd (State.freshRow_law _ _ _) ‹_ = (_, _)›) ?_
          | apply Law.next ?_ (State.migrateTo_law _ _ _ _ _) ?_ | assumption | decide
    | split

theorem State.migTick_law (s : State) :
    Law [.zones, .bpm, .dma, .blocks, .dies, .fch] s (State.migTick s) := by
  unfold Sys2Proof.Machine.State.migTick
  try dsimp only
  repeat' first
    | with_reducible
        first
          | apply Law.refl | apply Law.ite | apply Law.next ?_ (State.migrateZone_law _ _) ?_ | apply Law.forNats
          | decide
    | (intro _; try dsimp only)

theorem State.checkApply_law (s : State) (secs : Nat) :
    Law [.out, .nvme, .sqs, .qrecs, .ctxs, .zones, .gate, .toks, .bpm, .dma, .sward, .blocks, .dies, .fch, .zne, .par, .cas, .evt, .log] s (State.checkApply s secs) := by
  unfold Sys2Proof.Machine.State.checkApply
  try dsimp only
  repeat' first
    | with_reducible
        first
          | apply Law.refl | apply Law.next ?_ (State.migTick_law _) ?_
          | apply Law.next ?_ (State.spareTick_law _) ?_ | apply Law.next ?_ (State.slcTick_law _) ?_
          | apply Law.next ?_ (State.waterTick_law _) ?_ | apply Law.next ?_ (State.mediaAdvance_law _) ?_
          | apply Law.next ?_ (State.tokAge_law _ _) ?_ | decide

theorem State.seedApply_law (s : State) (stamp : Nat) :
    Law [.out, .zne, .evt, .log] s (State.seedApply s stamp) := by
  unfold Sys2Proof.Machine.State.seedApply
  try dsimp only
  repeat' first
    | with_reducible
        first
          | apply Law.refl | apply Law.ite | apply Law.next ?_ (State.migCheck_law _) ?_ | decide
    | with_reducible apply Law.mk ?_

theorem State.sysApply_law (s : State) (ev : SysEv) (stamp : Nat) :
    Law [.free, .out, .nvme, .sqs, .qrecs, .ctxs, .slices, .zones, .gate, .staging, .toks, .bpm, .dma, .sward, .blocks, .dies, .flash, .fch, .zne, .par, .lat, .key, .cas, .mtr, .nv, .evt, .log] s (State.sysApply s ev stamp) := by
  unfold Sys2Proof.Machine.State.sysApply
  try dsimp only
  repeat' first
    | with_reducible
        first
          | apply Law.refl | apply Law.next ?_ (State.sysRecord_law _ _ _ _) ?_
          | apply Law.next ?_ (State.stagingApply_law _ _ _) ?_ | apply Law.next ?_ (State.checkApply_law _ _) ?_
          | apply Law.next ?_ (State.seedApply_law _ _) ?_ | apply Law.next ?_ (State.alarmApply_law _ _ _) ?_
          | refine Law.next ?_ (LawM.get (State.mediaApply_law _ _ _) ‹_ = some _›) ?_
          | apply Law.next ?_ (LawM.getD (State.mediaApply_law _ _ _)) ?_
          | apply LawM.mono (State.mediaApply_law _ _ _) ?_ | decide
    | split

theorem State.sysRun_law (after : State → SysEv → Nat → Nat → State) (a1 : Nat) (a2 : State) {r : List Piece} (hr : sub [.free, .out, .nvme, .sqs, .qrecs, .ctxs, .slices, .zones, .gate, .staging, .toks, .bpm, .dma, .sward, .blocks, .dies, .flash, .fch, .zne, .par, .lat, .key, .cas, .mtr, .nv, .evt, .log] r = true) (h_after : ∀ u x1 x2 x3, Law r u (after u x1 x2 x3)) :
    Law r a2 (State.sysRun after a1 a2) := by
  induction a1 generalizing a2 with
  | zero => exact Law.refl _
  | succ f ih =>
    unfold Sys2Proof.Machine.State.sysRun
    split
    · split
      · dsimp only
        refine Law.next (Law.next ?_ (h_after _ _ _ _) (sub_refl _)) (ih _) (sub_refl _)
        refine Law.next (Law.next (Law.next (Law.refl _) (State.sysTake_law _ _) (sub_trans (by decide) hr))
          (State.sysApply_law _ _ _) (sub_trans (by decide) hr)) (State.settle_law _) (sub_trans (by decide) hr)
      · exact Law.refl _
    · exact Law.refl _

theorem State.fireBrm_law (s : State) (k : Nat) :
    Law [.out, .evt, .log] s (State.fireBrm s k) := by
  unfold Sys2Proof.Machine.State.fireBrm
  try dsimp only
  repeat' first
    | with_reducible
        first
          | apply Law.refl | apply Law.next ?_ (State.fire_law _ _ _ _ _ _) ?_ | decide

theorem State.saveStart_law (s : State) (kind : Nat) :
    Law [.out, .gate, .dma, .sward, .cas, .brm, .evt, .log] s (State.saveStart s kind) := by
  unfold Sys2Proof.Machine.State.saveStart
  try dsimp only
  repeat' first
    | with_reducible
        first
          | apply Law.refl | apply Law.ite | apply Law.next ?_ (State.fire_law _ _ _ _ _ _) ?_
          | apply Law.next ?_ (State.markRun_law _) ?_ | apply Law.next ?_ (State.enterSys_law _ _) ?_
          | apply Law.next ?_ (State.casSend_law _ _ _ _ _ _) ?_ | decide
    | with_reducible apply Law.mk ?_

theorem State.savePage_law (r : List Pg × State) (x : Nat × Nat) :
    Law [.blocks] r.2 (State.savePage r x).2 := by
  unfold Sys2Proof.Machine.State.savePage
  try dsimp only
  repeat' first
    | with_reducible
        first
          | apply Law.refl | apply Law.iteSnd | apply Law.next ?_ (State.blkEdit_law _ _ _) ?_ | decide
    | split
    | dsimp only

theorem State.saveZone_law (s : State) (zk : Nat) :
    Law [.zones, .blocks, .flash] s (State.saveZone s zk) := by
  unfold Sys2Proof.Machine.State.saveZone
  try dsimp only
  repeat' first
    | with_reducible
        first
          | apply Law.refl | apply Law.iteSnd | apply Law.ite | apply Law.next ?_ (State.savePage_law _ _) ?_
          | refine Law.next ?_ (Law.snd (State.savePage_law _ _) ‹_ = (_, _)›) ?_
          | apply Law.next ?_ (State.zoneEdit_law _ _ _) ?_ | apply Law.next ?_ (State.fillPages_law _ _ _ _ _ _) ?_
          | apply Law.foldl | apply Law.foldlSnd | apply Law.foldlFst | assumption | decide
    | (intro _; try dsimp only)
    | split

theorem State.saveOps_law (a0 : Nat) (a1 : State) :
    Law [.out, .sqs, .qrecs, .ctxs, .zones, .gate, .staging, .bpm, .dma, .sward, .blocks, .dies, .flash, .fch, .par, .evt, .log] a1 (State.saveOps a0 a1) := by
  induction a0 generalizing a1 with
  | zero => exact Law.refl _
  | succ f ih =>
    unfold Sys2Proof.Machine.State.saveOps
    split
    · refine Law.next (Law.ite ?_ (Law.next ?_ (State.opContent_law _ _) (by decide))) (ih _) (sub_refl _) <;>
        exact Law.next (Law.refl _) (State.opEnd_law _ _) (by decide)
    · exact Law.refl _

theorem State.saveRelease_law (s : State) :
    Law [.out, .gate, .staging, .bpm, .evt, .log] s (State.saveRelease s) := by
  unfold Sys2Proof.Machine.State.saveRelease
  try dsimp only
  repeat' first
    | with_reducible
        first
          | apply Law.refl | apply Law.next ?_ (State.releaseUnits_law _ _ _) ?_ | apply Law.forNats | decide
    | (intro _; try dsimp only)
    | split

theorem State.saveWithdraw_law (s : State) :
    Law [.out, .sqs, .qrecs, .ctxs, .slices, .zones, .gate, .staging, .toks, .bpm, .dma, .sward, .dies, .fch, .par, .key, .evt, .log] s (State.saveWithdraw s) := by
  unfold Sys2Proof.Machine.State.saveWithdraw
  try dsimp only
  repeat' first
    | with_reducible
        first
          | apply Law.refl | apply Law.next ?_ (State.cmdEnd_law _ _ _) ?_
          | apply Law.next ?_ (State.ctxDiscard_law _ _) ?_ | apply Law.forNats | decide
    | (intro _; try dsimp only)

theorem State.saveFinish_law (s : State) (fatal : Bool) :
    Law [.free, .out, .sqs, .qrecs, .ctxs, .slices, .zones, .gate, .staging, .toks, .bpm, .dma, .sward, .blocks, .dies, .flash, .fch, .par, .key, .mtr, .brm, .nv, .evt, .log] s (State.saveFinish s fatal) := by
  unfold Sys2Proof.Machine.State.saveFinish
  try dsimp only
  repeat' first
    | with_reducible
        first
          | apply Law.refl | apply Law.next ?_ (State.mediaAdvance_law _) ?_
          | apply Law.next ?_ (State.saveWithdraw_law _) ?_ | apply Law.next ?_ (State.saveOps_law _ _) ?_
          | apply Law.next ?_ (State.saveRelease_law _) ?_ | apply Law.next ?_ (State.saveZone_law _ _) ?_
          | apply Law.next ?_ (State.mtrSave_law _) ?_ | apply Law.next ?_ (State.freeStep_law _) ?_
          | apply Law.forNats | decide
    | (intro _; try dsimp only)
    | with_reducible apply Law.mk ?_

theorem State.saveNow_law (s : State) (kind : Nat) :
    Law [.free, .out, .sqs, .qrecs, .ctxs, .slices, .zones, .gate, .staging, .toks, .bpm, .dma, .sward, .blocks, .dies, .flash, .fch, .par, .key, .cas, .mtr, .brm, .nv, .evt, .log] s (State.saveNow s kind) := by
  unfold Sys2Proof.Machine.State.saveNow
  try dsimp only
  repeat' first
    | with_reducible
        first
          | apply Law.refl | apply Law.ite | apply Law.next ?_ (State.saveFinish_law _ _) ?_
          | apply Law.next ?_ (State.saveStart_law _ _) ?_ | decide

theorem State.wakeForSag_law (s : State) :
    Law [.free, .drc, .pwr, .mon] s (State.wakeForSag s) := by
  unfold Sys2Proof.Machine.State.wakeForSag
  try dsimp only
  repeat' first
    | with_reducible
        first
          | apply Law.refl | apply Law.ite
    | with_reducible apply Law.mk ?_

theorem State.memFatal_law (s : State) :
    Law [.free, .out, .nvme, .sqs, .qrecs, .ctxs, .slices, .zones, .gate, .staging, .toks, .bpm, .dma, .sward, .blocks, .dies, .flash, .fch, .par, .key, .cas, .mtr, .brm, .nv, .evt, .log] s (State.memFatal s) := by
  unfold Sys2Proof.Machine.State.memFatal
  try dsimp only
  repeat' first
    | with_reducible
        first
          | apply Law.refl | apply Law.ite | apply Law.next ?_ (State.saveNow_law _ _) ?_
          | apply Law.next ?_ (State.fire_law _ _ _ _ _ _) ?_ | decide
    | with_reducible apply Law.mk ?_

theorem State.shutDown_law (s : State) :
    Law [.free, .out, .nvme, .sqs, .qrecs, .ctxs, .slices, .zones, .gate, .staging, .toks, .bpm, .dma, .sward, .blocks, .dies, .flash, .fch, .par, .key, .mtr, .brm, .nv, .evt, .log] s (State.shutDown s) := by
  unfold Sys2Proof.Machine.State.shutDown
  try dsimp only
  repeat' first
    | with_reducible
        first
          | apply Law.refl | apply Law.ite | apply Law.next ?_ (State.saveFinish_law _ _) ?_ | decide
    | with_reducible apply Law.mk ?_

theorem State.saveGo_law (s : State) :
    Law [.free, .out, .nvme, .sqs, .qrecs, .ctxs, .slices, .zones, .gate, .staging, .toks, .bpm, .dma, .sward, .blocks, .dies, .flash, .fch, .par, .key, .mtr, .brm, .nv, .evt, .log] s (State.saveGo s) := by
  unfold Sys2Proof.Machine.State.saveGo
  try dsimp only
  repeat' first
    | with_reducible
        first
          | apply Law.refl | apply Law.ite | apply Law.next ?_ (State.shutDown_law _) ?_ | decide

theorem execShutdownNotification_law (shn : Nat) (s : State) :
    LawO [.free, .out, .nvme, .sqs, .qrecs, .ctxs, .slices, .zones, .gate, .staging, .toks, .bpm, .dma, .sward, .blocks, .dies, .flash, .fch, .par, .key, .cas, .mtr, .brm, .nv, .evt, .log] s (execShutdownNotification shn s) := by
  unfold Sys2Proof.Machine.execShutdownNotification
  try dsimp only
  repeat' first
    | with_reducible
        first
          | apply Law.refl | apply Law.ite | apply LawO.next | apply LawO.ite
          | apply Law.next ?_ (State.shutDown_law _) ?_ | apply Law.next ?_ (State.saveStart_law _ _) ?_ | decide
    | with_reducible apply Law.mk ?_

theorem State.bankTest_law (s : State) (m : BankMeas) :
    Law [.free, .out, .nvme, .sqs, .qrecs, .ctxs, .slices, .zones, .gate, .staging, .toks, .bpm, .dma, .sward, .blocks, .dies, .flash, .fch, .par, .key, .cas, .mtr, .brm, .nv, .evt, .log] s (State.bankTest s m) := by
  unfold Sys2Proof.Machine.State.bankTest
  try dsimp only
  repeat' first
    | with_reducible
        first
          | apply Law.refl | apply Law.ite | apply Law.next ?_ (State.saveNow_law _ _) ?_
          | apply Law.next ?_ (State.freeStep_law _) ?_ | apply Law.next ?_ (State.fireBrm_law _ _) ?_
          | apply Law.next ?_ (State.aenCrit_law _ _) ?_ | decide
    | with_reducible apply Law.mk ?_

theorem execBrmTestGo_law (m : BankMeas) (s : State) :
    LawO [.free, .out, .nvme, .sqs, .qrecs, .ctxs, .slices, .zones, .gate, .staging, .toks, .bpm, .dma, .sward, .blocks, .dies, .flash, .fch, .par, .key, .cas, .mtr, .brm, .nv, .evt, .log] s (execBrmTestGo m s) := by
  unfold Sys2Proof.Machine.execBrmTestGo
  try dsimp only
  repeat' first
    | with_reducible
        first
          | apply Law.refl | apply LawO.next | apply LawO.ite | apply Law.next ?_ (State.bankTest_law _ _) ?_
          | decide

theorem State.bankSample_law (s : State) (code : Nat) :
    Law [.brm] s (State.bankSample s code) := by
  unfold Sys2Proof.Machine.State.bankSample
  try dsimp only
  repeat' first
    | with_reducible
        first
          | apply Law.refl | apply Law.ite
    | with_reducible apply Law.mk ?_

theorem State.enterStop_law (s : State) :
    Law [.drc, .pwr, .mon] s (State.enterStop s) := by
  unfold Sys2Proof.Machine.State.enterStop
  try dsimp only
  repeat' first
    | with_reducible
        first
          | apply Law.refl
    | with_reducible apply Law.mk ?_

theorem State.dramHeld_law (s : State) (n : Nat) :
    Law [.free, .drc] s (State.dramHeld s n) := by
  unfold Sys2Proof.Machine.State.dramHeld
  try dsimp only
  repeat' first
    | with_reducible
        first
          | apply Law.refl | apply Law.ite | apply Law.next ?_ (State.freeStep_law _) ?_ | decide
    | with_reducible apply Law.mk ?_

end Sys2Proof.Laws
end

