-- ==== Sys2Proof/Laws/Boot.lean ====
section
/-! SUPPORT. One law for each operation of Machine/: Integrity, Reset, Boot:
the parts of the state that it may change, and that it breaks no promise. A row that another row runs has its law
here too. -/

-- One theorem after another: side by side they need more threads than the memory limit allows.
set_option Elab.async false

namespace Sys2Proof.Laws

open Sys2Proof Sys2Proof.Machine Sys2Proof.Safety

theorem State.scrubUe_law (s : State) (dram : Bool) (port : Nat) (addr : Nat) (region : Nat) (fault : Bool) (resp : Nat) :
    Law [.ecc] s (State.scrubUe s dram port addr region fault resp) := by
  unfold Sys2Proof.Machine.State.scrubUe
  try dsimp only
  repeat' first
    | with_reducible
        first
          | apply Law.refl | apply Law.ite
    | with_reducible apply Law.mk ?_

theorem State.scrubCe_law (s : State) (dram : Bool) (port : Nat) (addr : Nat) :
    Law [.ecc] s (State.scrubCe s dram port addr) := by
  unfold Sys2Proof.Machine.State.scrubCe
  try dsimp only
  repeat' first
    | with_reducible
        first
          | apply Law.refl | apply Law.ite
    | with_reducible apply Law.mk ?_

theorem State.ueRecord_law (s : State) (mem : Nat) (kind : Nat) (region : Nat) (port : Nat) (addr : Nat) (resp : Nat) :
    Law [.out, .evt, .log] s (State.ueRecord s mem kind region port addr resp) := by
  unfold Sys2Proof.Machine.State.ueRecord
  try dsimp only
  repeat' first
    | with_reducible
        first
          | apply Law.refl | apply Law.next ?_ (State.fire_law _ _ _ _ _ _) ?_ | decide

theorem State.sramCount_law (s : State) (region : Nat) (port : Nat) (word : Nat) :
    Law [.ecc] s (State.sramCount s region port word) := by
  unfold Sys2Proof.Machine.State.sramCount
  try dsimp only
  repeat' first
    | with_reducible
        first
          | apply Law.refl
    | with_reducible apply Law.mk ?_

theorem State.dramCount_law (s : State) (kind : Nat) (port : Nat) (addr : Nat) :
    Law [.drc] s (State.dramCount s kind port addr) := by
  unfold Sys2Proof.Machine.State.dramCount
  try dsimp only
  repeat' first
    | with_reducible
        first
          | apply Law.refl | apply Law.ite
    | with_reducible apply Law.mk ?_

theorem State.unitAgain_law (s : State) (c : Nat) :
    Law [.ctxs, .dma] s (State.unitAgain s c) := by
  unfold Sys2Proof.Machine.State.unitAgain
  try dsimp only
  repeat' first
    | with_reducible
        first
          | apply Law.refl | apply Law.next ?_ (State.runitEdit_law _ _ _ _) ?_ | decide
    | split
    | with_reducible apply Law.mk ?_

theorem State.haltFour_law (s : State) (c : Nat) (u : Nat) :
    Law [.out, .sqs, .qrecs, .ctxs, .slices, .zones, .gate, .staging, .toks, .bpm, .dma, .sward, .dies, .fch, .par, .key, .evt, .log] s (State.haltFour s c u) := by
  unfold Sys2Proof.Machine.State.haltFour
  try dsimp only
  repeat' first
    | with_reducible
        first
          | apply Law.refl | apply Law.next ?_ (State.busFail_law _ _ _) ?_ | decide
    | split

theorem State.sramResponse_law (s : State) (region : Nat) (word : Nat) (c : Nat) (otherCopyOk : Bool) (repairOk : Bool) :
    Law [.free, .out, .nvme, .sqs, .qrecs, .ctxs, .slices, .zones, .gate, .staging, .toks, .bpm, .dma, .sward, .blocks, .dies, .flash, .fch, .par, .ecc, .key, .cas, .mtr, .brm, .nv, .evt, .log] s (State.sramResponse s region word c otherCopyOk repairOk).2 := by
  unfold Sys2Proof.Machine.State.sramResponse
  try dsimp only
  repeat' first
    | with_reducible
        first
          | apply Law.refl | apply Law.ite | apply Law.iteSnd | apply Law.next ?_ (State.cmdEnd_law _ _ _) ?_
          | apply Law.next ?_ (State.unitAgain_law _ _) ?_ | apply Law.next ?_ (State.memFatal_law _) ?_
          | apply Law.next ?_ (State.haltFour_law _ _ _) ?_ | apply Law.next ?_ (State.freeStep_law _) ?_ | decide
    | dsimp only
    | with_reducible apply Law.mk ?_

theorem State.copyRewrite_law (s : State) (region : Nat) (wordAddr : Nat) (other : Nat) :
    Law [.out] s (State.copyRewrite s region wordAddr other) := by
  unfold Sys2Proof.Machine.State.copyRewrite
  try dsimp only
  repeat' first
    | with_reducible
        first
          | apply Law.refl | apply Law.ite | apply Law.next ?_ (State.say_law _ _) ?_ | decide
    | split

theorem State.storeDrop_law (s : State) :
    Law [.free, .out, .nvme, .sqs, .qrecs, .ctxs, .slices, .zones, .gate, .staging, .toks, .bpm, .dma, .sward, .blocks, .dies, .flash, .fch, .par, .key, .cas, .mtr, .brm, .nv, .evt, .log] s (State.storeDrop s).2 := by
  unfold Sys2Proof.Machine.State.storeDrop
  try dsimp only
  repeat' first
    | with_reducible
        first
          | apply Law.refl | apply Law.ite | apply Law.iteSnd | apply Law.next ?_ (State.memFatal_law _) ?_ | decide
    | dsimp only
    | with_reducible apply Law.mk ?_

theorem State.stagedLose_law (s : State) (stamp : Nat) (j : Nat) :
    Law [.zones] s (State.stagedLose s stamp j) := by
  unfold Sys2Proof.Machine.State.stagedLose
  try dsimp only
  repeat' first
    | with_reducible
        first
          | apply Law.refl | apply Law.ite | apply Law.next ?_ (State.zoneEdit_law _ _ _) ?_ | decide
    | split

theorem State.dramResponse_law (s : State) (region : Nat) (port : Nat) (c : Nat) (u : Nat) (rebuilt : Bool) (repairOk : Bool) :
    Law [.free, .out, .nvme, .sqs, .qrecs, .ctxs, .slices, .zones, .gate, .staging, .toks, .bpm, .dma, .sward, .blocks, .dies, .flash, .fch, .par, .key, .cas, .mtr, .brm, .nv, .evt, .log] s (State.dramResponse s region port c u rebuilt repairOk).2 := by
  unfold Sys2Proof.Machine.State.dramResponse
  try dsimp only
  repeat' first
    | with_reducible
        first
          | apply Law.refl | apply Law.ite | apply Law.iteSnd | apply Law.next ?_ (State.memFatal_law _) ?_
          | apply Law.next ?_ (State.storeDrop_law _) ?_
          | refine Law.next ?_ (Law.snd (State.storeDrop_law _) ‹_ = (_, _)›) ?_
          | apply Law.next ?_ (State.haltFour_law _ _ _) ?_ | apply Law.next ?_ (State.stagedLose_law _ _ _) ?_
          | assumption | decide
    | dsimp only

theorem State.dramCorrected_law (s : State) (addr : Nat) (port : Nat) :
    Law [.out, .drc, .ecc, .evt, .log] s (State.dramCorrected s addr port) := by
  unfold Sys2Proof.Machine.State.dramCorrected
  try dsimp only
  repeat' first
    | with_reducible
        first
          | apply Law.refl | apply Law.ite | apply Law.next ?_ (State.scrubCe_law _ _ _ _) ?_
          | apply Law.next ?_ (State.fire_law _ _ _ _ _ _) ?_ | decide
    | with_reducible apply Law.mk ?_

theorem State.sramCorrected_law (s : State) (addr : Nat) (port : Nat) :
    Law [.out, .ecc, .evt, .log] s (State.sramCorrected s addr port) := by
  unfold Sys2Proof.Machine.State.sramCorrected
  try dsimp only
  repeat' first
    | with_reducible
        first
          | apply Law.refl | apply Law.ite | apply Law.next ?_ (State.scrubCe_law _ _ _ _) ?_
          | apply Law.next ?_ (State.fire_law _ _ _ _ _ _) ?_ | decide
    | with_reducible apply Law.mk ?_

theorem State.writeBack_law (s : State) (dram : Bool) (addr : Nat) (bits : Nat) (queued : Bool) :
    Law [.out] s (State.writeBack s dram addr bits queued) := by
  unfold Sys2Proof.Machine.State.writeBack
  try dsimp only
  repeat' first
    | with_reducible
        first
          | apply Law.refl | apply Law.ite | apply Law.next ?_ (State.say_law _ _) ?_ | decide

theorem State.loseWrites_law (s : State) :
    Law [.out, .ctxs, .slices, .zones, .gate, .staging, .toks, .bpm, .dma, .sward, .dies, .fch, .par, .key, .evt, .log] s (State.loseWrites s) := by
  unfold Sys2Proof.Machine.State.loseWrites
  try dsimp only
  repeat' first
    | with_reducible
        first
          | apply Law.refl | apply Law.ite | apply Law.next ?_ (State.cancelWrite_law _ _) ?_
          | apply Law.next ?_ (State.withdraw_law _ _) ?_ | apply Law.next ?_ (State.zoneEdit_law _ _ _) ?_
          | apply Law.forNats | decide
    | (intro _; try dsimp only)
    | split

theorem State.chipReset_law (s : State) (c : RstCause) :
    Law [.now, .free, .out, .img, .manifest, .pci, .nvme, .sqs, .cqs, .qrecs, .ctxs, .slices, .nss, .zones, .gate, .staging, .toks, .bpm, .dma, .sward, .blocks, .dies, .flash, .fch, .zne, .par, .lat, .drc, .ecc, .key, .cas, .mtr, .pwr, .brm, .thm, .mon, .upd, .nv, .efl, .evt, .log, .side] s (State.chipReset s c) := by
  unfold Sys2Proof.Machine.State.chipReset
  dsimp only
  have k : Law [.now, .free, .out, .img, .manifest, .pci, .nvme, .sqs, .cqs, .qrecs, .ctxs, .slices, .nss, .zones, .gate, .staging, .toks, .bpm, .dma, .sward, .blocks, .dies, .flash, .fch, .zne, .par, .lat, .drc, .ecc, .key, .cas, .mtr, .pwr, .brm, .thm, .mon, .upd, .nv, .efl, .evt, .log, .side] s (if (s.brm.st == 4) = true then s else s.loseWrites) :=
    Law.ite (Law.refl _) (Law.next (Law.refl _) (State.loseWrites_law _) (by decide))
  generalize (if (s.brm.st == 4) = true then s else s.loseWrites) = u at k
  refine Law.next k (q := [.now, .free, .out, .img, .manifest, .pci, .nvme, .sqs, .cqs, .qrecs, .ctxs, .slices, .nss, .zones, .gate, .staging, .toks, .bpm, .dma, .sward, .blocks, .dies, .flash, .fch, .zne, .par, .lat, .drc, .ecc, .key, .cas, .mtr, .pwr, .brm, .thm, .mon, .upd, .nv, .efl, .evt, .log, .side]) ?_ (sub_refl _)
  refine ⟨fun p hp => by cases p <;> first | exact absurd (by decide) hp | rfl, ⟨fun h => ⟨⟨Nat.zero_le _, Nat.zero_le _, rfl⟩, ?_⟩, fun m => ?_, fun o => ?_,
    Nat.le_refl _, SealLaw.refl _, Nat.le_refl _⟩⟩
  · intro l e
    dsimp only at e
    split at e
    · exact h.2 l e
    · exact nomatch e
  · exact ⟨m.1, m.2.1, rfl, m.2.2.2⟩
  · exact ⟨⟨fun k => (nomatch k), fun _ k => (nomatch k)⟩, fun l => l⟩

theorem State.failRecOf_law (s : State) (chip : Nat) (stage : Nat) (code : Nat) (slot : Nat) (fromRev : Nat) (toRev : Nat) :
    Law [.out, .nv, .evt, .log] s (State.failRecOf s chip stage code slot fromRev toRev) := by
  unfold Sys2Proof.Machine.State.failRecOf
  try dsimp only
  repeat' first
    | with_reducible
        first
          | apply Law.refl | apply Law.next ?_ (State.fire_law _ _ _ _ _ _) ?_ | decide
    | with_reducible apply Law.mk ?_

theorem State.failRecAt_law (s : State) (stage : Nat) (code : Nat) (slot : Nat) (fromRev : Nat) (toRev : Nat) :
    Law [.out, .nv, .evt, .log] s (State.failRecAt s stage code slot fromRev toRev) := by
  unfold Sys2Proof.Machine.State.failRecAt
  try dsimp only
  repeat' first
    | with_reducible
        first
          | apply Law.refl | apply Law.next ?_ (State.failRecOf_law _ _ _ _ _ _ _) ?_ | decide

theorem State.failRec_law (s : State) (stage : Nat) (code : Nat) (slot : Nat) :
    Law [.out, .nv, .evt, .log] s (State.failRec s stage code slot) := by
  unfold Sys2Proof.Machine.State.failRec
  try dsimp only
  repeat' first
    | with_reducible
        first
          | apply Law.refl | apply Law.next ?_ (State.failRecAt_law _ _ _ _ _ _) ?_ | decide

theorem State.slotTry_law (s : State) (b : BootIn) (a2 : List Nat) :
    Law [.out, .upd, .nv, .evt, .log] s (State.slotTry s b a2).1 := by
  induction a2 generalizing s with
  | nil => exact Law.refl _
  | cons k t ih =>
    unfold Sys2Proof.Machine.State.slotTry
    dsimp only
    refine Law.iteFst (Law.refl _) (Law.next ?_ (ih _) (by decide))
    refine Law.ite (Law.next (Law.mk (Law.mk (Law.refl _))) (State.failRec_law _ _ _ _) (by decide)) (Law.mk (Law.refl _))

theorem State.loadCfg_law (s : State) (i : Image) (m : Manifest) :
    Law [.img, .manifest, .nvme, .fch, .par, .lat, .drc, .ecc, .key, .cas, .brm, .thm, .mon, .upd, .evt] s (State.loadCfg s i m) := by
  unfold Sys2Proof.Machine.State.loadCfg
  try dsimp only
  repeat' first
    | with_reducible
        first
          | apply Law.refl
    | with_reducible apply Law.mk ?_

theorem State.setLocks_law (s : State) (l : BitVec (OfNat.ofNat 8)) :
    Law [.fch, .lat, .drc, .ecc, .key, .brm, .thm] s (State.setLocks s l) := by
  unfold Sys2Proof.Machine.State.setLocks
  try dsimp only
  repeat' first
    | with_reducible
        first
          | apply Law.refl
    | with_reducible apply Law.mk ?_

theorem State.dramBoot_law (s : State) (i : Image) (b : BootIn) :
    Law [.bpm, .drc] s (State.dramBoot s i b).1 := by
  unfold Sys2Proof.Machine.State.dramBoot
  try dsimp only
  repeat' first
    | with_reducible
        first
          | apply Law.refl | apply Law.ite | apply Law.iteFst
    | dsimp only
    | with_reducible apply Law.mk ?_

theorem State.flashBoot_law (s : State) (b : BootIn) :
    Law [.dies, .fch] s (State.flashBoot s b) := by
  unfold Sys2Proof.Machine.State.flashBoot
  try dsimp only
  repeat' first
    | with_reducible
        first
          | apply Law.refl | apply Law.ite | apply Law.forNats
    | (intro _; try dsimp only)
    | split
    | with_reducible apply Law.mk ?_

theorem State.anchors_law (s : State) :
    Law [.blocks] s (State.anchors s) := by
  unfold Sys2Proof.Machine.State.anchors
  try dsimp only
  repeat' first
    | with_reducible
        first
          | apply Law.refl | apply Law.ite | apply Law.next ?_ (State.blkEdit_law _ _ _) ?_ | apply Law.forNats
          | decide
    | (intro _; try dsimp only)

theorem State.firstConfig_law (s : State) (i : Image) (b : BootIn) :
    Law [.free, .gate, .bpm, .blocks, .dies, .fch, .zne, .key, .upd, .nv] s (State.firstConfig s i b) := by
  unfold Sys2Proof.Machine.State.firstConfig
  try dsimp only
  repeat' first
    | with_reducible
        first
          | apply Law.refl | apply Law.next ?_ (State.blkEdit_law _ _ _) ?_
          | apply Law.next ?_ (State.anchors_law _) ?_ | apply Law.next ?_ (State.takeFor_law _ _ _ _) ?_
          | apply Law.next ?_ (State.keyCreate_law _ _) ?_ | apply Law.forNats | apply Law.foldl
          | apply Law.foldlSnd | apply Law.foldlFst | decide
    | (intro _; try dsimp only)
    | split
    | with_reducible apply Law.mk ?_

theorem State.mediaEst_law (s : State) (b : BootIn) :
    Law [.fch] s (State.mediaEst s b) := by
  unfold Sys2Proof.Machine.State.mediaEst
  try dsimp only
  repeat' first
    | with_reducible
        first
          | apply Law.refl
    | with_reducible apply Law.mk ?_

theorem State.eraseRest_law (s : State) :
    Law [.nvme, .slices, .zones, .toks, .bpm, .blocks, .dies, .flash, .fch, .zne, .par, .key, .nv] s (State.eraseRest s) := by
  unfold Sys2Proof.Machine.State.eraseRest
  try dsimp only
  repeat' first
    | with_reducible
        first
          | apply Law.refl | apply Law.ite | apply Law.next ?_ (State.erased_law _ _ _) ?_
          | apply Law.next ?_ (State.sanErased_law _) ?_ | apply Law.forNats | decide
    | (intro _; try dsimp only)
    | with_reducible apply Law.mk ?_

theorem State.stampBoot_law (s : State) (n : Nat) :
    Law [.gate, .dma] s (State.stampBoot s n) := by
  unfold Sys2Proof.Machine.State.stampBoot
  try dsimp only
  repeat' first
    | with_reducible
        first
          | apply Law.refl | apply Law.ite
    | with_reducible apply Law.mk ?_

theorem State.bootCopies_law (s : State) :
    Law [.out, .zones, .gate, .staging, .bpm, .dma, .blocks, .dies, .flash, .fch, .evt, .log] s (State.bootCopies s) := by
  unfold Sys2Proof.Machine.State.bootCopies
  try dsimp only
  repeat' first
    | with_reducible
        first
          | apply Law.refl | apply Law.ite | apply Law.next ?_ (State.copyDone_law _ _) ?_
          | apply Law.next ?_ (State.zoneEdit_law _ _ _) ?_ | apply Law.next ?_ (State.replDone_law _ _ _ _ _) ?_
          | apply Law.foldl | apply Law.foldlSnd | apply Law.foldlFst | decide
    | (intro _; try dsimp only)
    | split

theorem State.saveBackPage_law (p : Place) (r : List Pg × State) (g : Pg) :
    Law [.blocks, .flash] r.2 (State.saveBackPage p r g).2 := by
  unfold Sys2Proof.Machine.State.saveBackPage
  try dsimp only
  repeat' first
    | with_reducible
        first
          | apply Law.refl | apply Law.ite | apply Law.iteSnd | apply Law.next ?_ (State.flashPut_law _ _ _ _ _) ?_
          | apply Law.next ?_ (State.blkEdit_law _ _ _) ?_ | decide
    | split
    | dsimp only

theorem State.saveBack_law (s : State) :
    Law [.zones, .blocks, .flash, .par] s (State.saveBack s) := by
  unfold Sys2Proof.Machine.State.saveBack
  try dsimp only
  repeat' first
    | with_reducible
        first
          | apply Law.refl | apply Law.iteSnd | apply Law.next ?_ (State.saveBackPage_law _ _ _) ?_
          | refine Law.next ?_ (Law.snd (State.saveBackPage_law _ _ _) ‹_ = (_, _)›) ?_
          | apply Law.next ?_ (State.accReload_law _ _ _) ?_ | apply Law.next ?_ (State.zoneEdit_law _ _ _) ?_
          | apply Law.next ?_ (State.erased_law _ _ _) ?_ | apply Law.forNats | apply Law.foldl | apply Law.foldlSnd
          | apply Law.foldlFst | assumption | decide
    | (intro _; try dsimp only)
    | split

theorem State.zoneChanged_law (s : State) (zk : Nat) :
    Law [.nss] s (State.zoneChanged s zk) := by
  unfold Sys2Proof.Machine.State.zoneChanged
  try dsimp only
  repeat' first
    | with_reducible
        first
          | apply Law.refl
    | with_reducible apply Law.mk ?_

theorem State.zoneLost_law (s : State) (zk : Nat) (wp : Nat) (ack : Nat) (units : Nat) :
    Law [.out, .nvme, .sqs, .qrecs, .ctxs, .slices, .nss, .zones, .gate, .staging, .toks, .bpm, .dma, .sward, .blocks, .dies, .flash, .fch, .zne, .par, .lat, .key, .cas, .brm, .nv, .evt, .log] s (State.zoneLost s zk wp ack units) := by
  unfold Sys2Proof.Machine.State.zoneLost
  try dsimp only
  repeat' first
    | with_reducible
        first
          | apply Law.refl | apply Law.ite | apply Law.next ?_ (State.zoneChanged_law _ _) ?_
          | apply Law.next ?_ (State.mediaEvent_law _ _) ?_ | apply Law.next ?_ (State.casSend_law _ _ _ _ _ _) ?_
          | apply Law.next ?_ (State.fire_law _ _ _ _ _ _) ?_ | decide
    | with_reducible apply Law.mk ?_

theorem State.swapBlock_law (s : State) (zk : Nat) (tag : Nat) (pos : Nat) (bad : List (Nat × Nat)) (drop : Nat → Bool) :
    Law [.zones, .blocks, .flash] s (State.swapBlock s zk tag pos bad drop) := by
  unfold Sys2Proof.Machine.State.swapBlock
  try dsimp only
  repeat' first
    | with_reducible
        first
          | apply Law.refl | apply Law.ite | apply Law.next ?_ (State.blkEdit_law _ _ _) ?_
          | apply Law.next ?_ (State.allocBlock_law _ _ _ _) ?_
          | apply Law.next ?_ (State.flashPut_law _ _ _ _ _) ?_ | apply Law.next ?_ (State.freeBlock_law _ _ _) ?_
          | apply Law.next ?_ (State.zoneEdit_law _ _ _) ?_ | apply Law.foldl | apply Law.foldlSnd
          | apply Law.foldlFst | decide
    | (intro _; try dsimp only)
    | split

theorem State.resyncRow_law (s : State) (zk : Nat) (tag : Nat) (r : Nat) (bad : List (Nat × Nat)) :
    Law [.zones, .blocks, .flash] s (State.resyncRow s zk tag r bad).1 := by
  unfold Sys2Proof.Machine.State.resyncRow
  try dsimp only
  repeat' first
    | with_reducible
        first
          | apply Law.refl | apply Law.ite | apply Law.iteFst
          | apply Law.next ?_ (State.fillPages_law _ _ _ _ _ _) ?_
          | apply Law.next ?_ (State.swapBlock_law _ _ _ _ _ _) ?_ | apply Law.foldl | apply Law.foldlSnd
          | apply Law.foldlFst | decide
    | (intro _; try dsimp only)
    | split
    | dsimp only

theorem State.accBuild_law (s : State) (zk : Nat) (row : Nat) (n : Nat) :
    Law [.bpm, .dma, .sward, .par] s (State.accBuild s zk row n) := by
  unfold Sys2Proof.Machine.State.accBuild
  try dsimp only
  repeat' first
    | with_reducible
        first
          | apply Law.refl | apply Law.next ?_ (State.foldUnit_law _ _ _ _ _ _) ?_
          | apply Law.next ?_ (State.accDrop_law _ _ _) ?_ | apply Law.foldl | apply Law.foldlSnd
          | apply Law.foldlFst | decide
    | (intro _; try dsimp only)
    | split

theorem State.sheafCut_law (s : State) (zk : Nat) (tag : Nat) (upto : Nat) (bad : List (Nat × Nat)) :
    Law [.zones, .bpm, .dma, .sward, .blocks, .flash, .par] s (State.sheafCut s zk tag upto bad) := by
  unfold Sys2Proof.Machine.State.sheafCut
  try dsimp only
  repeat' first
    | with_reducible
        first
          | apply Law.refl | apply Law.ite | apply Law.next ?_ (State.swapBlock_law _ _ _ _ _ _) ?_
          | apply Law.next ?_ (State.zoneEdit_law _ _ _) ?_ | apply Law.next ?_ (State.accBuild_law _ _ _ _) ?_
          | apply Law.foldl | apply Law.foldlSnd | apply Law.foldlFst | decide
    | (intro _; try dsimp only)
    | split

theorem State.resyncZone_law (s : State) (zk : Nat) (bad : List (Nat × Nat)) :
    Law [.out, .nvme, .sqs, .qrecs, .ctxs, .slices, .nss, .zones, .gate, .staging, .toks, .bpm, .dma, .sward, .blocks, .dies, .flash, .fch, .zne, .par, .lat, .key, .cas, .brm, .nv, .evt, .log] s (State.resyncZone s zk bad) := by
  unfold Sys2Proof.Machine.State.resyncZone
  try dsimp only
  repeat' first
    | with_reducible
        first
          | apply Law.refl | apply Law.iteFst | apply Law.ite | apply Law.next ?_ (State.resyncRow_law _ _ _ _ _) ?_
          | refine Law.next ?_ (Law.fst (State.resyncRow_law _ _ _ _ _) ‹_ = (_, _)›) ?_
          | apply Law.next ?_ (State.sheafCut_law _ _ _ _ _) ?_ | apply Law.next ?_ (State.zoneEdit_law _ _ _) ?_
          | apply Law.next ?_ (State.zoneLost_law _ _ _ _ _) ?_ | apply Law.next ?_ (State.quotaSub_law _ _ _) ?_
          | apply Law.foldl | apply Law.foldlSnd | apply Law.foldlFst | assumption | decide
    | (intro _; try dsimp only)
    | split
    | with_reducible apply Law.mk ?_

theorem State.recoverUnclean_law (s : State) (b : BootIn) :
    Law [.out, .nvme, .sqs, .qrecs, .ctxs, .slices, .nss, .zones, .gate, .staging, .toks, .bpm, .dma, .sward, .blocks, .dies, .flash, .fch, .zne, .par, .lat, .key, .cas, .brm, .nv, .evt, .log] s (State.recoverUnclean s b) := by
  unfold Sys2Proof.Machine.State.recoverUnclean
  try dsimp only
  repeat' first
    | with_reducible
        first
          | apply Law.refl | apply Law.ite | apply Law.next ?_ (State.settle_law _) ?_
          | apply Law.next ?_ (State.stampBoot_law _ _) ?_ | apply Law.next ?_ (State.saveBack_law _) ?_
          | apply Law.next ?_ (State.bootCopies_law _) ?_ | apply Law.next ?_ (State.resyncZone_law _ _ _) ?_
          | apply Law.next ?_ (State.zoneLost_law _ _ _ _ _) ?_ | apply Law.forNats | decide
    | (intro _; try dsimp only)
    | with_reducible apply Law.mk ?_

theorem State.recoverClean_law (s : State) :
    Law [.out, .zones, .gate, .staging, .bpm, .dma, .blocks, .dies, .flash, .fch, .par, .upd, .evt, .log] s (State.recoverClean s) := by
  unfold Sys2Proof.Machine.State.recoverClean
  try dsimp only
  repeat' first
    | with_reducible
        first
          | apply Law.refl | apply Law.ite | apply Law.next ?_ (State.settle_law _) ?_
          | apply Law.next ?_ (State.stampBoot_law _ _) ?_ | apply Law.next ?_ (State.saveBack_law _) ?_
          | apply Law.next ?_ (State.bootCopies_law _) ?_ | decide
    | with_reducible apply Law.mk ?_

theorem State.confirm_law (s : State) :
    Law [.out, .nv, .efl, .evt, .log] s (State.confirm s) := by
  unfold Sys2Proof.Machine.State.confirm
  refine Law.ite (Law.refl _) ?_
  refine Law.next ?_ (State.fire_law _ _ _ _ _ _) (by decide)
  exact Law.mk (Law.refl _) (he := EflLaw.raises _ _ _)

theorem State.meterPart_law (s : State) (m : Manifest) (sealOpen : Bool) (ok : Bool) :
    Law [.free, .out, .mtr, .efl, .evt, .log] s (State.meterPart s m sealOpen ok) := by
  unfold Sys2Proof.Machine.State.meterPart
  dsimp only
  refine Law.ite (Law.refl _) (Law.ite ?_ (Law.next (Law.next (Law.refl _) (State.freeStep_law _) (by decide)) (State.mtrAudit_law _ _ _ _ _ _) (by decide)))
  have a : Law [.free, .out, .mtr, .evt, .log] s (if s.mtr.run = true then
      ({ s with free := s.free + 2 } : State).mtrClose false else { s with free := s.free + 2 }) :=
    Law.ite (Law.next (Law.mk (Law.refl _)) (State.mtrClose_law _ _) (by decide)) (Law.mk (Law.refl _))
  generalize (if s.mtr.run = true then ({ s with free := s.free + 2 } : State).mtrClose false else { s with free := s.free + 2 }) = v at a
  have e : EflLaw v.efl s.efl.meterNew := by rw [a.same .efl (by decide)]; exact EflLaw.meterNew _
  have b : Law [.free, .out, .mtr, .efl, .evt, .log] s { v with efl := s.efl.meterNew } := Law.mk (Law.next (Law.refl _) a (by decide)) (he := e)
  refine Law.next (Law.next b (State.mtrEdit_law _ _ ?_) (by decide)) (State.mtrAudit_law _ _ _ _ _ _) (by decide)
  show SealLaw v.mtr.sealCnt (min 0xffffffff (v.mtr.sealCnt + 1))
  intro h
  omega

theorem State.bootStop_law (s : State) (code : Nat) :
    Law [.upd] s (State.bootStop s code) := by
  unfold Sys2Proof.Machine.State.bootStop
  try dsimp only
  repeat' first
    | with_reducible
        first
          | apply Law.refl
    | with_reducible apply Law.mk ?_

theorem State.ioAccept_law (s : State) :
    Law [.nvme, .gate, .upd] s (State.ioAccept s) := by
  unfold Sys2Proof.Machine.State.ioAccept
  try dsimp only
  repeat' first
    | with_reducible
        first
          | apply Law.refl | apply Law.ite
    | with_reducible apply Law.mk ?_

theorem State.ledgerUse_law (s : State) (p : LedgerCopy) :
    Law [.slices, .nss, .zones, .bpm, .blocks, .dies, .fch, .key, .nv] s (State.ledgerUse s p) := by
  unfold Sys2Proof.Machine.State.ledgerUse
  try dsimp only
  repeat' first
    | with_reducible
        first
          | apply Law.refl | apply Law.ite | apply Law.next ?_ (State.freePlace_law _ _) ?_ | apply Law.forNats
          | apply Law.foldl | apply Law.foldlSnd | apply Law.foldlFst | decide
    | (intro _; try dsimp only)
    | split
    | with_reducible apply Law.mk ?_

theorem State.ledgerMigrate_law (s : State) (fresh : Bool) :
    Law [.slices, .nss, .zones, .bpm, .blocks, .dies, .fch, .key, .nv] s (State.ledgerMigrate s fresh) := by
  unfold Sys2Proof.Machine.State.ledgerMigrate
  try dsimp only
  repeat' first
    | with_reducible
        first
          | apply Law.refl | apply Law.ite | apply Law.next ?_ (State.ledgerUse_law _ _) ?_ | decide
    | split
    | with_reducible apply Law.mk ?_

theorem State.classErased_law (s : State) :
    Law [.free, .out, .slices, .zones, .gate, .staging, .toks, .bpm, .blocks, .dies, .fch, .zne, .par, .key, .mtr, .efl, .evt, .log] s (State.classErased s) := by
  unfold Sys2Proof.Machine.State.classErased
  dsimp only
  refine Law.next ?_ (State.mtrHalt_law _ _) (by decide)
  refine Law.mk ?_ (he := EflLaw.renew _)
  refine Law.next ?_ (State.slcMark_law _) (by decide)
  refine Law.next ?_ (State.sanZones_law _ _) (by decide)
  refine Law.next ?_ (State.sanStaging_law _) (by decide)
  exact Law.next (Law.refl _) (State.keyRedraw_law _) (by decide)

theorem State.logRestore_law (s : State) :
    Law [.out, .evt, .log] s (State.logRestore s) := by
  unfold Sys2Proof.Machine.State.logRestore
  split
  · exact Law.refl _
  · rename_i l hl
    refine Law.foldl _ ?_ fun u a => Law.next (Law.next (Law.refl _) (State.logAppend_law _ _) (by decide)) (State.logFill_law _ _) (by decide)
    refine ⟨fun p hp => by cases p <;> first | exact absurd (by decide) hp | rfl, ⟨fun h => ⟨?_, h.2⟩, id, fun h => ⟨h, id⟩, Nat.le_refl _, SealLaw.refl _, Nat.le_refl _⟩⟩
    have k := h.2 l hl
    refine ⟨k.1, Nat.zero_le _, ?_⟩
    show (l.slots.mapV fun _ r => { r with restored := true }).wf = true
    exact Tbl.wf_mapV k.2.2

theorem State.bootZone_law (s : State) (i : Image) (b : BootIn) (fresh : Bool) :
    Law [.free, .out, .nvme, .sqs, .qrecs, .ctxs, .slices, .nss, .zones, .gate, .staging, .toks, .bpm, .dma, .sward, .blocks, .dies, .flash, .fch, .zne, .par, .lat, .key, .cas, .mtr, .brm, .upd, .nv, .efl, .evt, .log] s (State.bootZone s i b fresh) := by
  unfold Sys2Proof.Machine.State.bootZone
  try dsimp only
  repeat' first
    | with_reducible
        first
          | apply Law.refl | apply Law.ite | apply Law.next ?_ (State.firstConfig_law _ _ _) ?_
          | apply Law.next ?_ (State.mediaEst_law _ _) ?_ | apply Law.next ?_ (State.recoverClean_law _) ?_
          | apply Law.next ?_ (State.recoverUnclean_law _ _) ?_ | apply Law.next ?_ (State.classErased_law _) ?_
          | apply Law.next ?_ (State.logRestore_law _) ?_ | apply Law.next ?_ (State.ledgerMigrate_law _ _) ?_
          | apply Law.next ?_ (State.eraseRest_law _) ?_ | decide

theorem State.bootSettings_law (s : State) (i : Image) :
    Law [.free, .nvme, .sqs, .cqs, .qrecs, .slices, .dma, .zne, .lat, .key, .mtr] s (State.bootSettings s i) := by
  unfold Sys2Proof.Machine.State.bootSettings
  try dsimp only
  repeat' first
    | with_reducible
        first
          | apply Law.refl | apply Law.ite | apply Law.next ?_ (State.sliceMake_law _ _ _ _) ?_ | apply Law.foldl
          | apply Law.foldlSnd | apply Law.foldlFst | decide
    | (intro _; try dsimp only)
    | split
    | with_reducible apply Law.mk ?_

theorem State.bootOpen_law (s : State) (i : Image) (m : Manifest) (b : BootIn) (clean : Bool) (saved : Bool) (first : Bool) (fresh : Bool) :
    Law [.gate, .brm, .upd, .nv] s (State.bootOpen s i m b clean saved first fresh) := by
  unfold Sys2Proof.Machine.State.bootOpen
  try dsimp only
  repeat' first
    | with_reducible
        first
          | apply Law.refl | apply Law.ite
    | with_reducible apply Law.mk ?_

theorem State.bootEnd_law (s : State) (m : Manifest) (b : BootIn) (dead : List Nat) (fresh : Bool) :
    Law [.free, .out, .nvme, .sqs, .qrecs, .ctxs, .slices, .zones, .gate, .staging, .toks, .bpm, .dma, .sward, .blocks, .dies, .flash, .fch, .zne, .par, .lat, .key, .cas, .mtr, .upd, .nv, .efl, .evt, .log] s (State.bootEnd s m b dead fresh) := by
  unfold Sys2Proof.Machine.State.bootEnd
  try dsimp only
  repeat' first
    | with_reducible
        first
          | apply Law.refl | apply Law.ite | apply Law.next ?_ (State.confirm_law _) ?_
          | apply Law.next ?_ (State.dieEdit_law _ _ _) ?_ | apply Law.next ?_ (State.diesFail_law _ _ _) ?_
          | apply Law.next ?_ (State.dieFailAt_law _ _ _ _) ?_ | apply Law.next ?_ (State.ioAccept_law _) ?_
          | apply Law.next ?_ (State.meterPart_law _ _ _ _) ?_ | apply Law.forNats | decide
    | (intro _; try dsimp only)

theorem State.bootRest_law (s : State) (i : Image) (m : Manifest) (b : BootIn) (dead : List Nat) (fresh : Bool) :
    Law [.free, .out, .nvme, .sqs, .cqs, .qrecs, .ctxs, .slices, .nss, .zones, .gate, .staging, .toks, .bpm, .dma, .sward, .blocks, .dies, .flash, .fch, .zne, .par, .lat, .drc, .ecc, .key, .cas, .mtr, .brm, .thm, .upd, .nv, .efl, .evt, .log] s (State.bootRest s i m b dead fresh) := by
  unfold Sys2Proof.Machine.State.bootRest
  try dsimp only
  repeat' first
    | with_reducible
        first
          | apply Law.refl | apply Law.next ?_ (State.setLocks_law _ _) ?_
          | apply Law.next ?_ (State.spbCalc_law _) ?_ | apply Law.next ?_ (State.bootSettings_law _ _) ?_
          | apply Law.next ?_ (State.bootZone_law _ _ _ _) ?_ | apply Law.next ?_ (State.bootEnd_law _ _ _ _ _) ?_
          | apply Law.next ?_ (State.bootOpen_law _ _ _ _ _ _ _ _) ?_ | decide

theorem State.bootPick_law (s : State) (f : SlotFind) (k : Nat) (fresh : Bool) :
    Law [.img, .manifest, .nvme, .fch, .par, .lat, .drc, .ecc, .key, .cas, .brm, .thm, .mon, .upd, .nv, .evt] s (State.bootPick s f k fresh) := by
  unfold Sys2Proof.Machine.State.bootPick
  refine Law.next (Law.mk (Law.refl _) (hn := ?_) (hv := ?_)) (State.loadCfg_law _ _ _) (by decide)
  · cases fresh <;> by_cases h : k = 0 <;> simp only [h, if_true, if_false, Bool.false_eq_true] <;> exact fun _ m l e => m l e
  · cases fresh <;> by_cases h : k = 0 <;> simp only [h, if_true, if_false, Bool.false_eq_true] <;> exact fun m => m

theorem State.bootBack_law (s : State) (k : Nat) :
    Law [.now, .free, .out, .img, .manifest, .pci, .nvme, .sqs, .cqs, .qrecs, .ctxs, .slices, .nss, .zones, .gate, .staging, .toks, .bpm, .dma, .sward, .blocks, .dies, .flash, .fch, .zne, .par, .lat, .drc, .ecc, .key, .cas, .mtr, .pwr, .brm, .thm, .mon, .upd, .nv, .efl, .evt, .log, .side] s (State.bootBack s k) := by
  unfold Sys2Proof.Machine.State.bootBack
  try dsimp only
  repeat' first
    | with_reducible
        first
          | apply Law.refl | apply Law.next ?_ (State.chipReset_law _ _) ?_
          | apply Law.next ?_ (State.failRec_law _ _ _ _) ?_ | decide
    | with_reducible apply Law.mk ?_

theorem State.bootSlot_law (s : State) (b : BootIn) (a2 : Nat) :
    Law [.now, .free, .out, .img, .manifest, .pci, .nvme, .sqs, .cqs, .qrecs, .ctxs, .slices, .nss, .zones, .gate, .staging, .toks, .bpm, .dma, .sward, .blocks, .dies, .flash, .fch, .zne, .par, .lat, .drc, .ecc, .key, .cas, .mtr, .pwr, .brm, .thm, .mon, .upd, .nv, .efl, .evt, .log, .side] s (State.bootSlot s b a2) := by
  induction a2 generalizing s with
  | zero => exact Law.next (Law.refl _) (State.bootStop_law _ _) (by decide)
  | succ n ih =>
    unfold Sys2Proof.Machine.State.bootSlot
    have t : Law [.now, .free, .out, .img, .manifest, .pci, .nvme, .sqs, .cqs, .qrecs, .ctxs, .slices, .nss, .zones, .gate, .staging, .toks, .bpm, .dma, .sward, .blocks, .dies, .flash, .fch, .zne, .par, .lat, .drc, .ecc, .key, .cas, .mtr, .pwr, .brm, .thm, .mon, .upd, .nv, .efl, .evt, .log, .side] s (s.slotTry b s.nv.slotOrder).1 := Law.next (Law.refl _) (State.slotTry_law _ _ _) (by decide)
    generalize s.slotTry b s.nv.slotOrder = r at t
    obtain ⟨s0, o⟩ := r
    cases o with
    | none => exact Law.next t (State.bootStop_law _ _) (by decide)
    | some k =>
      dsimp only at t ⊢
      have d := Law.next (Law.next t (State.bootPick_law _ (slotOf b k) k (decide (s0.nv.next = k))) (by decide))
        (State.dramBoot_law _ (slotOf b k).image b) (by decide)
      generalize State.dramBoot _ _ _ = q at d
      have e := Law.next d (State.flashBoot_law _ b) (by decide)
      refine Law.ite (Law.next d (State.bootStop_law _ _) (by decide)) (Law.ite (Law.next d (State.bootStop_law _ _) (by decide)) ?_)
      have e2 := Law.forNats ((populated b).filter fun d => (q.1.flashBoot b).dieGood d && (b.badDies.contains d || ((q.1.flashBoot b).chn (dieChannel d)).failed)) e
        (f := fun s d => s.dieEdit d fun d => { d with failed := true }) fun u a => Law.next (Law.refl _) (State.dieEdit_law _ _ _) (by decide)
      generalize forNats _ _ _ = s2 at e2 ⊢
      have stop := fun c => Law.next e2 (State.bootStop_law s2 c) (by decide)
      exact Law.ite (stop 5) (Law.ite (stop 7) (Law.ite (stop 8) (Law.ite (Law.next e2 (State.bootRest_law _ _ _ _ _ _) (by decide))
        (Law.ite (Law.next (Law.next e2 (State.bootBack_law _ _) (by decide)) (ih _) (sub_refl _)) (stop 8)))))

end Sys2Proof.Laws
end

