-- ==== Sys2Proof/Laws/Cascade.lean ====
section
/-! SUPPORT. One law for each operation of Machine/: Cascade, Ticks:
the parts of the state that it may change, and that it breaks no promise. A row that another row runs has its law
here too. -/

-- One theorem after another: side by side they need more threads than the memory limit allows.
set_option Elab.async false

namespace Sys2Proof.Laws

open Sys2Proof Sys2Proof.Machine Sys2Proof.Safety

theorem State.memEdit_law (s : State) (c : Nat) (f : Member → Member) :
    Law [.cas] s (State.memEdit s c f) := by
  unfold Sys2Proof.Machine.State.memEdit
  try dsimp only
  repeat' first
    | with_reducible
        first
          | apply Law.refl
    | with_reducible apply Law.mk ?_

theorem State.stgDrop_law (s : State) :
    Law [.nv] s (State.stgDrop s) := by
  unfold Sys2Proof.Machine.State.stgDrop
  try dsimp only
  repeat' first
    | with_reducible
        first
          | apply Law.refl
    | with_reducible apply Law.mk ?_

theorem State.commitEnd_law (s : State) (st : Option Status) :
    Law [.out, .sqs, .qrecs, .ctxs, .cas, .nv, .evt, .log] s (State.commitEnd s st) := by
  unfold Sys2Proof.Machine.State.commitEnd
  try dsimp only
  repeat' first
    | with_reducible
        first
          | apply Law.refl | apply Law.ite | apply Law.next ?_ (State.fire_law _ _ _ _ _ _) ?_
          | apply Law.next ?_ (State.finish_law _ _ _ _ _ _) ?_ | apply Law.next ?_ (State.stgDrop_law _) ?_
          | decide
    | split
    | with_reducible apply Law.mk ?_

theorem State.voteAbort_law (s : State) (st : Status) :
    Law [.out, .sqs, .qrecs, .ctxs, .sward, .cas, .nv, .evt, .log] s (State.voteAbort s st) := by
  unfold Sys2Proof.Machine.State.voteAbort
  try dsimp only
  repeat' first
    | with_reducible
        first
          | apply Law.refl | apply Law.next ?_ (State.commitEnd_law _ _) ?_
          | apply Law.next ?_ (State.casSend_law _ _ _ _ _ _) ?_ | apply Law.foldl | apply Law.foldlSnd
          | apply Law.foldlFst | decide
    | (intro _; try dsimp only)

theorem State.armCheck_law (s : State) :
    Law [.out, .sqs, .qrecs, .ctxs, .cas, .nv, .evt, .log] s (State.armCheck s) := by
  unfold Sys2Proof.Machine.State.armCheck
  try dsimp only
  repeat' first
    | with_reducible
        first
          | apply Law.refl | apply Law.ite | apply Law.next ?_ (State.commitEnd_law _ _) ?_ | decide

theorem State.selfReset_law (s : State) :
    Law [.now, .free, .out, .img, .manifest, .pci, .nvme, .sqs, .cqs, .qrecs, .ctxs, .slices, .nss, .zones, .gate, .staging, .toks, .bpm, .dma, .sward, .blocks, .dies, .flash, .fch, .zne, .par, .lat, .drc, .ecc, .key, .cas, .mtr, .pwr, .brm, .thm, .mon, .upd, .nv, .efl, .evt, .log, .side] s (State.selfReset s) := by
  unfold Sys2Proof.Machine.State.selfReset
  try dsimp only
  repeat' first
    | with_reducible
        first
          | apply Law.refl | apply Law.ite | apply Law.next ?_ (State.chipReset_law _ _) ?_
          | apply Law.next ?_ (State.saveNow_law _ _) ?_ | decide

theorem State.selfCheck_law (s : State) :
    Law [.now, .free, .out, .img, .manifest, .pci, .nvme, .sqs, .cqs, .qrecs, .ctxs, .slices, .nss, .zones, .gate, .staging, .toks, .bpm, .dma, .sward, .blocks, .dies, .flash, .fch, .zne, .par, .lat, .drc, .ecc, .key, .cas, .mtr, .pwr, .brm, .thm, .mon, .upd, .nv, .efl, .evt, .log, .side] s (State.selfCheck s) := by
  unfold Sys2Proof.Machine.State.selfCheck
  try dsimp only
  repeat' first
    | with_reducible
        first
          | apply Law.refl | apply Law.ite | apply Law.next ?_ (State.selfReset_law _) ?_ | decide

theorem State.memSt_law (s : State) (c : Nat) (st : MSt) (reason : Nat) :
    Law [.out, .sqs, .qrecs, .ctxs, .sward, .cas, .nv, .evt, .log] s (State.memSt s c st reason) := by
  unfold Sys2Proof.Machine.State.memSt
  try dsimp only
  repeat' first
    | with_reducible
        first
          | apply Law.refl | apply Law.ite | apply Law.next ?_ (State.memEdit_law _ _ _) ?_
          | apply Law.next ?_ (State.fire_law _ _ _ _ _ _) ?_ | apply Law.next ?_ (State.voteAbort_law _ _) ?_
          | apply Law.next ?_ (State.armCheck_law _) ?_ | decide

theorem State.memNotices_law (s : State) (c : Nat) :
    Law [.out, .slices, .evt] s (State.memNotices s c) := by
  unfold Sys2Proof.Machine.State.memNotices
  try dsimp only
  repeat' first
    | with_reducible
        first
          | apply Law.refl | apply Law.ite | apply Law.next ?_ (State.notice_law _ _ _ _ _) ?_ | apply Law.foldl
          | apply Law.foldlSnd | apply Law.foldlFst | decide
    | (intro _; try dsimp only)

theorem State.casLose_law (s : State) (c : Nat) (reads : Bool) :
    Law [.out, .sqs, .qrecs, .ctxs, .slices, .zones, .gate, .staging, .toks, .bpm, .dma, .sward, .dies, .fch, .par, .key, .evt, .log] s (State.casLose s c reads) := by
  unfold Sys2Proof.Machine.State.casLose
  try dsimp only
  repeat' first
    | with_reducible
        first
          | apply Law.refl | apply Law.ite | apply Law.next ?_ (State.failWrite_law _ _ _) ?_
          | apply Law.next ?_ (State.cmdEnd_law _ _ _) ?_ | apply Law.forNats | decide
    | (intro _; try dsimp only)
    | split

theorem State.fenceApply_law (s : State) (c : Nat) (reason : Nat) (stamp : Nat) :
    Law [.out, .nvme, .sqs, .qrecs, .ctxs, .slices, .zones, .gate, .staging, .toks, .bpm, .dma, .sward, .dies, .fch, .par, .key, .cas, .upd, .nv, .evt, .log] s (State.fenceApply s c reason stamp) := by
  unfold Sys2Proof.Machine.State.fenceApply
  try dsimp only
  repeat' first
    | with_reducible
        first
          | apply Law.refl | apply Law.ite | apply Law.next ?_ (State.memSt_law _ _ _ _) ?_
          | apply Law.next ?_ (State.memEdit_law _ _ _) ?_ | apply Law.next ?_ (State.casLose_law _ _ _) ?_
          | apply Law.next ?_ (State.memNotices_law _ _) ?_ | apply Law.next ?_ (State.aenCrit_law _ _) ?_
          | apply Law.next ?_ (State.ioAccept_law _) ?_ | decide

theorem State.unfenceApply_law (s : State) (c : Nat) :
    Law [.out, .nvme, .sqs, .qrecs, .ctxs, .slices, .gate, .sward, .cas, .upd, .nv, .evt, .log] s (State.unfenceApply s c) := by
  unfold Sys2Proof.Machine.State.unfenceApply
  try dsimp only
  repeat' first
    | with_reducible
        first
          | apply Law.refl | apply Law.ite | apply Law.next ?_ (State.memSt_law _ _ _ _) ?_
          | apply Law.next ?_ (State.memEdit_law _ _ _) ?_ | apply Law.next ?_ (State.casSend_law _ _ _ _ _ _) ?_
          | apply Law.next ?_ (State.ioAccept_law _) ?_ | apply Law.next ?_ (State.memNotices_law _ _) ?_
          | apply Law.forNats | decide
    | (intro _; try dsimp only)
    | split

theorem State.linkDrop_law (s : State) (p : Nat) (cause : Nat) :
    Law [.out, .sqs, .qrecs, .ctxs, .slices, .zones, .gate, .staging, .toks, .bpm, .dma, .sward, .dies, .fch, .par, .key, .cas, .nv, .evt, .log] s (State.linkDrop s p cause) := by
  unfold Sys2Proof.Machine.State.linkDrop
  try dsimp only
  repeat' first
    | with_reducible
        first
          | apply Law.refl | apply Law.ite | apply Law.next ?_ (State.fire_law _ _ _ _ _ _) ?_
          | apply Law.next ?_ (State.portEdit_law _ _ _) ?_ | apply Law.next ?_ (State.lanesDrop_law _ _) ?_
          | apply Law.next ?_ (State.memEdit_law _ _ _) ?_ | apply Law.next ?_ (State.memSt_law _ _ _ _) ?_
          | apply Law.next ?_ (State.casLose_law _ _ _) ?_ | decide
    | with_reducible apply Law.mk ?_

theorem State.memberTick_law (s : State) (stamp : Nat) (prev : Nat) (c : Nat) :
    Law [.out, .gate, .dma, .sward, .cas] s (State.memberTick s stamp prev c) := by
  unfold Sys2Proof.Machine.State.memberTick
  try dsimp only
  repeat' first
    | with_reducible
        first
          | apply Law.refl | apply Law.ite | apply Law.next ?_ (State.casSend_law _ _ _ _ _ _) ?_
          | apply Law.next ?_ (State.memEdit_law _ _ _) ?_ | apply Law.next ?_ (State.enterSys_law _ _) ?_
          | apply Law.foldl | apply Law.foldlSnd | apply Law.foldlFst | decide
    | (intro _; try dsimp only)

theorem State.casActApply_law (s : State) (c : Nat) (action : Nat) :
    Law [.out, .nvme, .sqs, .qrecs, .ctxs, .slices, .zones, .gate, .staging, .toks, .bpm, .dma, .sward, .dies, .fch, .par, .key, .cas, .upd, .nv, .evt, .log] s (State.casActApply s c action) := by
  unfold Sys2Proof.Machine.State.casActApply
  try dsimp only
  repeat' first
    | with_reducible
        first
          | apply Law.refl | apply Law.ite | apply Law.next ?_ (State.memSt_law _ _ _ _) ?_
          | apply Law.next ?_ (State.portEdit_law _ _ _) ?_ | apply Law.next ?_ (State.linkDrop_law _ _ _) ?_
          | apply Law.next ?_ (State.ioAccept_law _) ?_ | apply Law.next ?_ (State.casLose_law _ _ _) ?_
          | apply Law.next ?_ (State.memEdit_law _ _ _) ?_ | decide

theorem State.sysAfter_law (s : State) (ev : SysEv) (stamp : Nat) (prev : Nat) :
    Law [.out, .nvme, .sqs, .qrecs, .ctxs, .slices, .zones, .gate, .staging, .toks, .bpm, .dma, .sward, .dies, .fch, .par, .key, .cas, .upd, .nv, .evt, .log] s (State.sysAfter s ev stamp prev) := by
  unfold Sys2Proof.Machine.State.sysAfter
  try dsimp only
  repeat' first
    | with_reducible
        first
          | apply Law.refl | apply Law.next ?_ (State.memberTick_law _ _ _ _) ?_
          | apply Law.next ?_ (State.fenceApply_law _ _ _ _) ?_ | apply Law.next ?_ (State.unfenceApply_law _ _) ?_
          | apply Law.next ?_ (State.casActApply_law _ _ _) ?_ | apply Law.forNats | decide
    | (intro _; try dsimp only)
    | split

theorem State.sysGo_law (s : State) :
    Law [.free, .out, .nvme, .sqs, .qrecs, .ctxs, .slices, .zones, .gate, .staging, .toks, .bpm, .dma, .sward, .blocks, .dies, .flash, .fch, .zne, .par, .lat, .key, .cas, .mtr, .upd, .nv, .evt, .log] s (State.sysGo s) := by
  unfold Sys2Proof.Machine.State.sysGo
  try dsimp only
  repeat' first
    | with_reducible
        first
          | apply Law.refl | exact Law.idle
          | apply Law.next ?_ (State.sysRun_law _ _ _ (r := [.free, .out, .nvme, .sqs, .qrecs, .ctxs, .slices, .zones, .gate, .staging, .toks, .bpm, .dma, .sward, .blocks, .dies, .flash, .fch, .zne, .par, .lat, .key, .cas, .mtr, .upd, .nv, .evt, .log]) ?_ ?_) ?_
          | apply Law.next ?_ (State.sysAfter_law _ _ _ _) ?_ | decide | (exact fun u => Law.refl u)
    | (intro _; try dsimp only)

theorem State.casEvent_law (s : State) (ev : SysEv) :
    Law [.free, .out, .nvme, .sqs, .qrecs, .ctxs, .slices, .zones, .gate, .staging, .toks, .bpm, .dma, .sward, .blocks, .dies, .flash, .fch, .zne, .par, .lat, .key, .cas, .mtr, .upd, .nv, .evt, .log] s (State.casEvent s ev) := by
  unfold Sys2Proof.Machine.State.casEvent
  try dsimp only
  repeat' first
    | with_reducible
        first
          | apply Law.refl | apply Law.ite | apply Law.next ?_ (State.sysGo_law _) ?_
          | apply Law.next ?_ (State.enterSys_law _ _) ?_ | decide

theorem State.memberFence_law (s : State) (c : Nat) (reason : Nat) :
    Law [.free, .out, .nvme, .sqs, .qrecs, .ctxs, .slices, .zones, .gate, .staging, .toks, .bpm, .dma, .sward, .blocks, .dies, .flash, .fch, .zne, .par, .lat, .key, .cas, .mtr, .upd, .nv, .evt, .log] s (State.memberFence s c reason) := by
  unfold Sys2Proof.Machine.State.memberFence
  try dsimp only
  repeat' first
    | with_reducible
        first
          | apply Law.refl | apply Law.next ?_ (State.casEvent_law _ _) ?_ | decide

theorem State.frameIn_law (s : State) (f : Frame) (ph : Nat) (go : State → State) {r : List Piece} (hr : sub [.out, .sqs, .qrecs, .ctxs, .slices, .zones, .gate, .staging, .toks, .bpm, .dma, .sward, .dies, .fch, .par, .key, .cas, .nv, .evt, .log] r = true) (h_go : ∀ u, Law r u (go u)) :
    Law r s (State.frameIn s f ph go) := by
  unfold Sys2Proof.Machine.State.frameIn
  try dsimp only
  repeat' first
    | with_reducible
        first
          | apply Law.refl | apply Law.ite | apply Law.next ?_ (State.portEdit_law _ _ _) ?_
          | apply Law.next ?_ (State.linkDrop_law _ _ _) ?_ | apply Law.next ?_ (State.memEdit_law _ _ _) ?_
          | apply Law.next ?_ (State.ackOut_law _ _ _ _) ?_ | apply Law.next ?_ (h_go _) (sub_refl _)
          | exact sub_refl _ | exact hr | (refine sub_trans ?_ hr; decide)
    | (intro _; try dsimp only)

theorem State.crownIn_law (s : State) (f : Frame) (go : State → Nat → State) {r : List Piece} (hr : sub [.out, .sqs, .qrecs, .ctxs, .slices, .zones, .gate, .staging, .toks, .bpm, .dma, .sward, .dies, .fch, .par, .key, .cas, .nv, .evt, .log] r = true) (h_go : ∀ u x1, Law r u (go u x1)) :
    Law r s (State.crownIn s f go) := by
  unfold Sys2Proof.Machine.State.crownIn
  try dsimp only
  repeat' first
    | with_reducible
        first
          | apply Law.refl | exact Law.idle | apply Law.ite
          | apply Law.next ?_ (State.frameIn_law _ _ _ _ (r := r) ?_ ?_) ?_
          | apply Law.next ?_ (h_go _ _) (sub_refl _) | exact sub_refl _ | exact hr
          | (refine sub_trans ?_ hr; decide) | (exact fun u => Law.refl u)
    | (intro _; try dsimp only)

theorem State.memberIn_law (s : State) (f : Frame) (go : State → State) {r : List Piece} (hr : sub [.out, .sqs, .qrecs, .ctxs, .slices, .zones, .gate, .staging, .toks, .bpm, .dma, .sward, .dies, .fch, .par, .key, .cas, .nv, .evt, .log] r = true) (h_go : ∀ u, Law r u (go u)) :
    Law r s (State.memberIn s f go) := by
  unfold Sys2Proof.Machine.State.memberIn
  try dsimp only
  repeat' first
    | with_reducible
        first
          | apply Law.refl | exact Law.idle | apply Law.ite
          | apply Law.next ?_ (State.frameIn_law _ _ _ _ (r := r) ?_ ?_) ?_
          | apply Law.next ?_ (h_go _) (sub_refl _) | exact sub_refl _ | exact hr | (refine sub_trans ?_ hr; decide)
          | (exact fun u => Law.refl u)
    | (intro _; try dsimp only)

theorem State.pump_law (s : State) (p : Nat) :
    Law [.out, .sward, .cas] s (State.pump s p) := by
  unfold Sys2Proof.Machine.State.pump
  refine Law.foldlFst _ (Law.refl _) fun q a => Law.iteFst (Law.refl _) (Law.iteFst (Law.refl _) ?_)
  exact Law.next (Law.next (Law.next (Law.refl _) (State.portEdit_law _ _ _) (by decide)) (State.frameOut_law _ _ _) (by decide))
    (State.flitsTaken_law _ _ _ _) (by decide)

theorem State.trialFallback_law (s : State) (c : Nat) :
    Law [.now, .free, .out, .img, .manifest, .pci, .nvme, .sqs, .cqs, .qrecs, .ctxs, .slices, .nss, .zones, .gate, .staging, .toks, .bpm, .dma, .sward, .blocks, .dies, .flash, .fch, .zne, .par, .lat, .drc, .ecc, .key, .cas, .mtr, .pwr, .brm, .thm, .mon, .upd, .nv, .efl, .evt, .log, .side] s (State.trialFallback s c) := by
  unfold Sys2Proof.Machine.State.trialFallback
  try dsimp only
  repeat' first
    | with_reducible
        first
          | apply Law.refl | apply Law.next ?_ (State.failRecOf_law _ _ _ _ _ _ _) ?_
          | apply Law.next ?_ (State.chipReset_law _ _) ?_ | apply Law.next ?_ (State.casSend_law _ _ _ _ _ _) ?_
          | apply Law.foldl | apply Law.foldlSnd | apply Law.foldlFst | decide
    | (intro _; try dsimp only)
    | with_reducible apply Law.mk ?_

theorem State.identAt_law (s : State) (c : Nat) (m : IdentMsg) :
    Law [.now, .free, .out, .img, .manifest, .pci, .nvme, .sqs, .cqs, .qrecs, .ctxs, .slices, .nss, .zones, .gate, .staging, .toks, .bpm, .dma, .sward, .blocks, .dies, .flash, .fch, .zne, .par, .lat, .drc, .ecc, .key, .cas, .mtr, .pwr, .brm, .thm, .mon, .upd, .nv, .efl, .evt, .log, .side] s (State.identAt s c m) := by
  unfold Sys2Proof.Machine.State.identAt
  try dsimp only
  repeat' first
    | with_reducible
        first
          | apply Law.refl | apply Law.ite | apply Law.next ?_ (State.memEdit_law _ _ _) ?_
          | apply Law.next ?_ (State.portEdit_law _ _ _) ?_ | apply Law.next ?_ (State.memSt_law _ _ _ _) ?_
          | apply Law.next ?_ (State.trialFallback_law _ _) ?_
          | apply Law.next ?_ (State.casSend_law _ _ _ _ _ _) ?_ | apply Law.foldl | apply Law.foldlSnd
          | apply Law.foldlFst | decide
    | (intro _; try dsimp only)
    | with_reducible apply Law.mk ?_

theorem State.takeNew_law (s : State) (old : Place) (new : Place) (st : Nat) :
    Law [.blocks] s (State.takeNew s old new st) := by
  unfold Sys2Proof.Machine.State.takeNew
  try dsimp only
  repeat' first
    | with_reducible
        first
          | apply Law.refl | apply Law.next ?_ (State.takePlace_law _ _ _) ?_ | decide
    | split

theorem State.memberRows_law (s : State) (stamp : Nat) (act : StampAct) (zk : Nat) (data : Option Place) (log : Option Place) :
    Law [.ctxs, .zones, .gate, .staging, .bpm, .dma, .blocks, .dies, .fch, .par] s (State.memberRows s stamp act zk data log) := by
  unfold Sys2Proof.Machine.State.memberRows
  try dsimp only
  repeat' first
    | with_reducible
        first
          | apply Law.refl | apply Law.ite | apply Law.next ?_ (State.takePlace_law _ _ _) ?_
          | apply Law.next ?_ (State.migrateTo_law _ _ _ _ _) ?_ | apply Law.next ?_ (State.placeSwap_law _ _ _) ?_
          | apply Law.next ?_ (State.takeNew_law _ _ _ _) ?_ | apply Law.next ?_ (State.zoneEdit_law _ _ _) ?_
          | apply Law.next ?_ (State.freePlace_law _ _) ?_ | apply Law.next ?_ (State.mergeTo_law _ _ _ _ _) ?_
          | decide
    | split

theorem State.memberZone_law (s : State) (stamp : Nat) (act : StampAct) (i : ZoneImg) :
    Law [.out, .sqs, .qrecs, .ctxs, .slices, .nss, .zones, .gate, .staging, .toks, .bpm, .dma, .blocks, .dies, .fch, .par, .key, .evt, .log] s (State.memberZone s stamp act i) := by
  unfold Sys2Proof.Machine.State.memberZone
  try dsimp only
  repeat' first
    | with_reducible
        first
          | apply Law.refl | apply Law.ite | apply Law.next ?_ (State.memberRows_law _ _ _ _ _ _) ?_
          | apply Law.next ?_ (State.zoneUnplace_law _ _) ?_ | apply Law.next ?_ (State.zoneRelease_law _ _ _) ?_
          | apply Law.next ?_ (State.zoneClosed_law _ _) ?_ | apply Law.next ?_ (State.zoneEdit_law _ _ _) ?_
          | apply Law.next ?_ (State.rowsStart_law _ _ _ _) ?_ | decide
    | split
    | with_reducible apply Law.mk ?_

theorem State.memberWrite_law (s : State) (stamp : Nat) (zk : Nat) (off : Nat) (n : Nat) :
    Law [.out, .ctxs, .slices, .zones, .gate, .staging, .toks, .bpm, .dma, .sward, .dies, .fch, .par, .key, .mtr, .evt, .log] s (State.memberWrite s stamp zk off n) := by
  unfold Sys2Proof.Machine.State.memberWrite
  try dsimp only
  repeat' first
    | with_reducible
        first
          | apply Law.refl | apply Law.ite | apply Law.next ?_ (State.withdraw_law _ _) ?_
          | apply Law.next ?_ (State.tallyWr_law _ _ _ _) ?_ | apply Law.next ?_ (State.dirtyAdd_law _ _) ?_
          | apply Law.next ?_ (State.recordAll_law _ _) ?_ | apply Law.next ?_ (State.zoneEdit_law _ _ _) ?_
          | apply Law.forNats | decide
    | (intro _; try dsimp only)
    | split
    | with_reducible apply Law.mk ?_

theorem State.memberCheck_law (s : State) (stamp : Nat) :
    Law [.out, .gate, .sward, .cas] s (State.memberCheck s stamp) := by
  unfold Sys2Proof.Machine.State.memberCheck
  try dsimp only
  repeat' first
    | with_reducible
        first
          | apply Law.refl | apply Law.next ?_ (State.settle_law _) ?_
          | apply Law.next ?_ (State.casSend_law _ _ _ _ _ _) ?_ | decide
    | with_reducible apply Law.mk ?_

theorem State.memberAct_law (s : State) (stamp : Nat) (a : StampAct) :
    Law [.out, .nvme, .sqs, .qrecs, .ctxs, .slices, .zones, .gate, .staging, .toks, .bpm, .dma, .sward, .blocks, .dies, .flash, .fch, .zne, .par, .lat, .key, .cas, .mtr, .nv, .evt, .log] s (State.memberAct s stamp a) := by
  unfold Sys2Proof.Machine.State.memberAct
  try dsimp only
  repeat' first
    | with_reducible
        first
          | apply Law.refl | apply Law.ite | apply Law.next ?_ (State.memberWrite_law _ _ _ _ _) ?_
          | apply Law.next ?_ (State.tally_law _ _ _) ?_ | apply Law.next ?_ (State.tallyOpen_law _ _ _) ?_
          | apply Law.next ?_ (State.tallyShut_law _ _) ?_ | apply Law.next ?_ (State.deallocate_law _ _ _ _ _) ?_
          | apply Law.next ?_ (State.stagingApply_law _ _ _) ?_ | apply Law.next ?_ (State.checkApply_law _ _) ?_
          | apply Law.next ?_ (State.dieFailAt_law _ _ _ _) ?_
          | apply Law.next ?_ (State.blockFailAt_law _ _ _ _ _) ?_
          | apply Law.next ?_ (State.rebuiltAt_law _ _ _ _) ?_ | apply Law.next ?_ (State.migratedAt_law _ _) ?_
          | apply Law.next ?_ (State.zoneRo_law _ _ _) ?_ | apply Law.next ?_ (State.migCheck_law _) ?_
          | apply Law.foldl | apply Law.foldlSnd | apply Law.foldlFst | decide
    | (intro _; try dsimp only)
    | split
    | with_reducible apply Law.mk ?_

theorem State.tokTake_law (s : State) (t : TokImg) :
    Law [.toks] s (State.tokTake s t) := by
  unfold Sys2Proof.Machine.State.tokTake
  try dsimp only
  repeat' first
    | with_reducible
        first
          | apply Law.refl | apply Law.ite
    | with_reducible apply Law.mk ?_

theorem State.memberApply_law (s : State) (e : StampMsg) :
    Law [.free, .out, .nvme, .sqs, .qrecs, .ctxs, .slices, .nss, .zones, .gate, .staging, .toks, .bpm, .dma, .sward, .blocks, .dies, .flash, .fch, .zne, .par, .lat, .key, .cas, .mtr, .brm, .nv, .evt, .log] s (State.memberApply s e) := by
  unfold Sys2Proof.Machine.State.memberApply
  try dsimp only
  repeat' first
    | with_reducible
        first
          | apply Law.refl | apply Law.ite | apply Law.next ?_ (State.memberZone_law _ _ _ _) ?_
          | apply Law.next ?_ (State.memberAct_law _ _ _) ?_ | apply Law.next ?_ (State.record_law _ _) ?_
          | apply Law.next ?_ (State.tokTake_law _ _) ?_ | apply Law.next ?_ (State.memberCheck_law _ _) ?_
          | apply Law.next ?_ (State.saveNow_law _ _) ?_ | apply Law.next ?_ (State.settle_law _) ?_
          | apply Law.foldl | apply Law.foldlSnd | apply Law.foldlFst | decide
    | (intro _; try dsimp only)
    | split
    | with_reducible apply Law.mk ?_

theorem State.snapZone_law (s : State) (stamp : Nat) (i : ZoneImg) :
    Law [.out, .sqs, .qrecs, .ctxs, .slices, .nss, .zones, .gate, .staging, .toks, .bpm, .dma, .sward, .blocks, .dies, .flash, .fch, .par, .key, .evt, .log] s (State.snapZone s stamp i) := by
  unfold Sys2Proof.Machine.State.snapZone
  try dsimp only
  repeat' first
    | with_reducible
        first
          | apply Law.refl | apply Law.ite | apply Law.next ?_ (State.zoneEdit_law _ _ _) ?_
          | apply Law.next ?_ (State.withdraw_law _ _) ?_ | apply Law.next ?_ (State.sheafCut_law _ _ _ _ _) ?_
          | apply Law.next ?_ (State.memberZone_law _ _ _ _) ?_ | apply Law.forNats | decide
    | (intro _; try dsimp only)

theorem State.meterReply_law (s : State) (req : Nat) (n : Nat) (len : Nat) :
    Law [.out, .sward, .cas] s (State.meterReply s req n len) := by
  unfold Sys2Proof.Machine.State.meterReply
  try dsimp only
  repeat' first
    | with_reducible
        first
          | apply Law.refl | apply Law.ite | apply Law.next ?_ (State.casSend_law _ _ _ _ _ _) ?_ | apply Law.foldl
          | apply Law.foldlSnd | apply Law.foldlFst | decide
    | (intro _; try dsimp only)

theorem State.casAction_law (s : State) (c : Nat) (action : Nat) :
    Law [.free, .out, .nvme, .sqs, .qrecs, .ctxs, .slices, .zones, .gate, .staging, .toks, .bpm, .dma, .sward, .blocks, .dies, .flash, .fch, .zne, .par, .lat, .key, .cas, .mtr, .upd, .nv, .evt, .log] s (State.casAction s c action) := by
  unfold Sys2Proof.Machine.State.casAction
  try dsimp only
  repeat' first
    | with_reducible
        first
          | apply Law.refl | apply Law.ite | apply Law.next ?_ (State.memberFence_law _ _ _) ?_
          | apply Law.next ?_ (State.casEvent_law _ _) ?_ | decide
    | split
    | with_reducible apply Law.mk ?_

theorem State.casPay_law (s : State) :
    Law [.free, .out, .nvme, .sqs, .qrecs, .ctxs, .slices, .zones, .gate, .staging, .toks, .bpm, .dma, .sward, .blocks, .dies, .flash, .fch, .zne, .par, .lat, .key, .cas, .mtr, .upd, .nv, .evt, .log] s (State.casPay s) := by
  unfold Sys2Proof.Machine.State.casPay
  try dsimp only
  repeat' first
    | with_reducible
        first
          | apply Law.refl | apply Law.ite | apply Law.next ?_ (State.casAction_law _ _ _) ?_ | decide
    | split
    | with_reducible apply Law.mk ?_

theorem execExcludeChip_law (chip : Nat) (s : State) :
    LawO [.free, .out, .nvme, .sqs, .qrecs, .ctxs, .slices, .zones, .gate, .staging, .toks, .bpm, .dma, .sward, .blocks, .dies, .flash, .fch, .zne, .par, .lat, .key, .cas, .mtr, .upd, .nv, .evt, .log] s (execExcludeChip chip s) := by
  unfold Sys2Proof.Machine.execExcludeChip
  try dsimp only
  repeat' first
    | with_reducible
        first
          | apply Law.refl | apply LawO.next | apply LawO.ite | apply Law.next ?_ (State.casAction_law _ _ _) ?_
          | decide

theorem execIncludeChip_law (chip : Nat) (s : State) :
    LawO [.free, .out, .nvme, .sqs, .qrecs, .ctxs, .slices, .zones, .gate, .staging, .toks, .bpm, .dma, .sward, .blocks, .dies, .flash, .fch, .zne, .par, .lat, .key, .cas, .mtr, .upd, .nv, .evt, .log] s (execIncludeChip chip s) := by
  unfold Sys2Proof.Machine.execIncludeChip
  try dsimp only
  repeat' first
    | with_reducible
        first
          | apply Law.refl | apply LawO.next | apply LawO.ite | apply Law.next ?_ (State.casAction_law _ _ _) ?_
          | decide

theorem execFenceChip_law (chip : Nat) (s : State) :
    LawO [.free, .out, .nvme, .sqs, .qrecs, .ctxs, .slices, .zones, .gate, .staging, .toks, .bpm, .dma, .sward, .blocks, .dies, .flash, .fch, .zne, .par, .lat, .key, .cas, .mtr, .upd, .nv, .evt, .log] s (execFenceChip chip s) := by
  unfold Sys2Proof.Machine.execFenceChip
  try dsimp only
  repeat' first
    | with_reducible
        first
          | apply Law.refl | apply LawO.next | apply LawO.ite | apply Law.next ?_ (State.casAction_law _ _ _) ?_
          | decide

theorem execResyncChip_law (chip : Nat) (s : State) :
    LawO [.free, .out, .nvme, .sqs, .qrecs, .ctxs, .slices, .zones, .gate, .staging, .toks, .bpm, .dma, .sward, .blocks, .dies, .flash, .fch, .zne, .par, .lat, .key, .cas, .mtr, .upd, .nv, .evt, .log] s (execResyncChip chip s) := by
  unfold Sys2Proof.Machine.execResyncChip
  try dsimp only
  repeat' first
    | with_reducible
        first
          | apply Law.refl | apply LawO.next | apply LawO.ite | apply Law.next ?_ (State.casAction_law _ _ _) ?_
          | decide

theorem State.stagingAt_law (s : State) (span : Nat) :
    Law [.free, .out, .nvme, .sqs, .qrecs, .ctxs, .slices, .zones, .gate, .staging, .toks, .bpm, .dma, .sward, .blocks, .dies, .flash, .fch, .zne, .par, .lat, .key, .cas, .mtr, .upd, .nv, .evt, .log] s (State.stagingAt s span) := by
  unfold Sys2Proof.Machine.State.stagingAt
  try dsimp only
  repeat' first
    | with_reducible
        first
          | apply Law.refl | apply Law.next ?_ (State.enterSys_law _ _) ?_
          | apply Law.next ?_ (State.casPay_law _) ?_ | apply Law.next ?_ (State.alarmPay_law _) ?_
          | apply Law.next ?_ (State.sysGo_law _) ?_ | decide
    | with_reducible apply Law.mk ?_

theorem State.checkAt_law (s : State) (secs : Nat) :
    Law [.free, .out, .nvme, .sqs, .qrecs, .ctxs, .slices, .zones, .gate, .staging, .toks, .bpm, .dma, .sward, .blocks, .dies, .flash, .fch, .zne, .par, .lat, .key, .cas, .mtr, .upd, .nv, .evt, .log] s (State.checkAt s secs) := by
  unfold Sys2Proof.Machine.State.checkAt
  try dsimp only
  repeat' first
    | with_reducible
        first
          | apply Law.refl | apply Law.next ?_ (State.enterCfg_law _ _) ?_
          | apply Law.next ?_ (State.sysGo_law _) ?_ | decide
    | with_reducible apply Law.mk ?_

theorem execZneCfgCommit_law (s : State) :
    LawO [.free, .out, .nvme, .sqs, .qrecs, .ctxs, .slices, .zones, .gate, .staging, .toks, .bpm, .dma, .sward, .blocks, .dies, .flash, .fch, .zne, .par, .lat, .key, .cas, .mtr, .upd, .nv, .evt, .log] s (execZneCfgCommit s) := by
  unfold Sys2Proof.Machine.execZneCfgCommit
  try dsimp only
  repeat' first
    | with_reducible
        first
          | apply Law.refl | apply Law.ite | apply LawO.next | apply LawO.ite
          | apply Law.next ?_ (State.sysGo_law _) ?_ | apply Law.next ?_ (State.enterCfg_law _ _) ?_ | decide
    | with_reducible apply Law.mk ?_

theorem execWake_law (src : WakeSrc) (elapsedNs : Nat) (s : State) :
    LawO [.now, .free, .out, .nvme, .sqs, .qrecs, .ctxs, .slices, .zones, .gate, .staging, .toks, .bpm, .dma, .sward, .blocks, .dies, .flash, .fch, .zne, .par, .lat, .drc, .key, .cas, .mtr, .pwr, .mon, .upd, .nv, .evt, .log] s (execWake src elapsedNs s) := by
  unfold Sys2Proof.Machine.execWake
  try dsimp only
  repeat' first
    | with_reducible
        first
          | apply Law.refl | apply Law.ite | apply LawO.next | apply LawO.ite
          | apply Law.next ?_ (State.memEdit_law _ _ _) ?_ | apply Law.next ?_ (State.casSend_law _ _ _ _ _ _) ?_
          | apply Law.next ?_ (State.stagingAt_law _ _) ?_ | apply Law.next ?_ (State.checkAt_law _ _) ?_
          | apply Law.next ?_ (State.ibiEval_law _) ?_ | apply Law.next ?_ (State.msiCatchUp_law _) ?_
          | apply Law.foldl | apply Law.foldlSnd | apply Law.foldlFst | decide
    | (intro _; try dsimp only)
    | with_reducible apply Law.mk ?_

end Sys2Proof.Laws
end

