-- ==== Sys2Proof/Laws/Host.lean ====
section
/-! SUPPORT. One law for each operation of Machine/: Host, Admin, Update:
the parts of the state that it may change, and that it breaks no promise. A row that another row runs has its law
here too. -/

-- One theorem after another: side by side they need more threads than the memory limit allows.
set_option Elab.async false

namespace Sys2Proof.Laws

open Sys2Proof Sys2Proof.Machine Sys2Proof.Safety

theorem State.ctxDrop_law (s : State) (c : Nat) :
    Law [.out, .nvme, .sqs, .qrecs, .ctxs, .slices, .evt] s (State.ctxDrop s c) := by
  unfold Sys2Proof.Machine.State.ctxDrop
  try dsimp only
  repeat' first
    | with_reducible
        first
          | apply Law.refl | apply Law.ite | apply Law.next ?_ (State.ctxFree_law _ _) ?_
          | apply Law.next ?_ (State.countLost_law _ _) ?_ | apply Law.next ?_ (State.ctxDiscard_law _ _) ?_
          | decide
    | split
    | with_reducible apply Law.mk ?_

theorem State.nvmeReset_law (s : State) :
    Law [.nvme] s (State.nvmeReset s) := by
  unfold Sys2Proof.Machine.State.nvmeReset
  try dsimp only
  repeat' first
    | with_reducible
        first
          | apply Law.refl
    | split
    | with_reducible apply Law.mk ?_

theorem State.deletesDrop_law (s : State) :
    Law [.nss] s (State.deletesDrop s) := by
  unfold Sys2Proof.Machine.State.deletesDrop
  try dsimp only
  repeat' first
    | with_reducible
        first
          | apply Law.refl | apply Law.ite
    | split
    | with_reducible apply Law.mk ?_

theorem State.pfReset_law (s : State) :
    Law [.out, .nvme, .sqs, .cqs, .qrecs, .ctxs, .slices, .nss, .evt] s (State.pfReset s) := by
  unfold Sys2Proof.Machine.State.pfReset
  try dsimp only
  repeat' first
    | with_reducible
        first
          | apply Law.refl | apply Law.next ?_ (State.ctxDrop_law _ _) ?_
          | apply Law.next ?_ (State.nvmeReset_law _) ?_ | apply Law.next ?_ (State.deletesDrop_law _) ?_
          | apply Law.forNats | decide
    | (intro _; try dsimp only)
    | with_reducible apply Law.mk ?_

theorem State.slicesReset_law (s : State) :
    Law [.out, .nvme, .sqs, .qrecs, .ctxs, .slices, .evt, .log] s (State.slicesReset s) := by
  unfold Sys2Proof.Machine.State.slicesReset
  try dsimp only
  repeat' first
    | with_reducible
        first
          | apply Law.refl | apply Law.next ?_ (State.freezeAll_law _ _) ?_
          | apply Law.next ?_ (State.ctxDrop_law _ _) ?_ | apply Law.forNats | decide
    | (intro _; try dsimp only)

theorem State.functionReset_law (s : State) :
    Law [.pci, .nvme, .evt] s (State.functionReset s) := by
  unfold Sys2Proof.Machine.State.functionReset
  try dsimp only
  repeat' first
    | with_reducible
        first
          | apply Law.refl
    | with_reducible apply Law.mk ?_

theorem State.hostReset_law (s : State) :
    Law [.free, .out, .pci, .nvme, .sqs, .cqs, .qrecs, .ctxs, .slices, .nss, .zones, .gate, .staging, .toks, .bpm, .dma, .sward, .blocks, .dies, .flash, .fch, .par, .key, .mtr, .brm, .nv, .evt, .log] s (State.hostReset s) := by
  unfold Sys2Proof.Machine.State.hostReset
  try dsimp only
  repeat' first
    | with_reducible
        first
          | apply Law.refl | apply Law.next ?_ (State.saveGo_law _) ?_
          | apply Law.next ?_ (State.functionReset_law _) ?_ | apply Law.next ?_ (State.pfReset_law _) ?_
          | apply Law.next ?_ (State.slicesReset_law _) ?_ | decide

theorem State.pcieDrop_law (s : State) :
    Law [.pci] s (State.pcieDrop s) := by
  unfold Sys2Proof.Machine.State.pcieDrop
  try dsimp only
  repeat' first
    | with_reducible
        first
          | apply Law.refl
    | with_reducible apply Law.mk ?_

theorem execPasidEnableCleared_law (s : State) :
    LawO [.out, .pci, .sqs, .qrecs, .ctxs, .slices, .evt, .log] s (execPasidEnableCleared s) := by
  unfold Sys2Proof.Machine.execPasidEnableCleared
  try dsimp only
  repeat' first
    | with_reducible
        first
          | apply Law.refl | apply LawO.next | apply LawO.ite | apply Law.next ?_ (State.freezeAll_law _ _) ?_
          | decide
    | with_reducible apply Law.mk ?_

theorem execCcEnClear_law (s : State) :
    LawO [.free, .out, .nvme, .sqs, .cqs, .qrecs, .ctxs, .slices, .nss, .zones, .gate, .staging, .toks, .bpm, .dma, .sward, .blocks, .dies, .flash, .fch, .par, .key, .mtr, .brm, .nv, .evt, .log] s (execCcEnClear s) := by
  unfold Sys2Proof.Machine.execCcEnClear
  try dsimp only
  repeat' first
    | with_reducible
        first
          | apply Law.refl | apply LawO.next | apply LawO.ite | apply Law.next ?_ (State.saveGo_law _) ?_
          | apply Law.next ?_ (State.pfReset_law _) ?_ | decide

theorem State.resumeSaved_law (s : State) :
    Law [.out, .nvme, .sqs, .cqs, .qrecs, .ctxs, .slices, .zones, .gate, .staging, .toks, .bpm, .dma, .blocks, .dies, .flash, .fch, .zne, .par, .key, .brm, .upd, .nv, .evt, .log] s (State.resumeSaved s) := by
  unfold Sys2Proof.Machine.State.resumeSaved
  try dsimp only
  repeat' first
    | with_reducible
        first
          | apply Law.refl | apply Law.next ?_ (State.eraseRest_law _) ?_
          | apply Law.next ?_ (State.recoverClean_law _) ?_ | decide
    | with_reducible apply Law.mk ?_

theorem State.adminQueues_law (s : State) :
    Law [.sqs, .cqs] s (State.adminQueues s) := by
  unfold Sys2Proof.Machine.State.adminQueues
  try dsimp only
  repeat' first
    | with_reducible
        first
          | apply Law.refl
    | with_reducible apply Law.mk ?_

theorem State.ccPut_law (s : State) (cc : Dword) :
    Law [.nvme] s (State.ccPut s cc) := by
  unfold Sys2Proof.Machine.State.ccPut
  try dsimp only
  repeat' first
    | with_reducible
        first
          | apply Law.refl
    | with_reducible apply Law.mk ?_

theorem execCcEnSet_law (cc : Dword) (s : State) :
    LawO [.out, .nvme, .sqs, .cqs, .qrecs, .ctxs, .slices, .zones, .gate, .staging, .toks, .bpm, .dma, .blocks, .dies, .flash, .fch, .zne, .par, .key, .brm, .upd, .nv, .evt, .log] s (execCcEnSet cc s) := by
  unfold Sys2Proof.Machine.execCcEnSet
  try dsimp only
  repeat' first
    | with_reducible
        first
          | apply Law.refl | apply Law.ite | apply LawO.next | apply LawO.ite
          | apply Law.next ?_ (State.ccPut_law _ _) ?_ | apply Law.next ?_ (State.resumeSaved_law _) ?_
          | apply Law.next ?_ (State.adminQueues_law _) ?_ | decide
    | with_reducible apply Law.mk ?_

theorem State.pbaSend_law (s : State) (v : Nat) :
    Law [.out, .evt] s (State.pbaSend s v) := by
  unfold Sys2Proof.Machine.State.pbaSend
  try dsimp only
  repeat' first
    | with_reducible
        first
          | apply Law.refl | apply Law.ite | apply Law.next ?_ (State.say_law _ _) ?_ | decide
    | with_reducible apply Law.mk ?_

theorem execVectorUnmask_law (vec : Option Nat) (s : State) :
    LawO [.out, .evt] s (execVectorUnmask vec s) := by
  unfold Sys2Proof.Machine.execVectorUnmask
  try dsimp only
  repeat' first
    | with_reducible
        first
          | apply Law.refl | apply Law.ite | apply LawO.next | apply LawO.ite
          | apply Law.next ?_ (State.pbaSend_law _ _) ?_ | apply Law.forNats | decide
    | (intro _; try dsimp only)
    | split
    | with_reducible apply Law.mk ?_

theorem execFunctionPowerStateChange_law (d3hot : Bool) (pme : Bool) (s : State) :
    LawO [.pci] s (execFunctionPowerStateChange d3hot pme s) := by
  unfold Sys2Proof.Machine.execFunctionPowerStateChange
  try dsimp only
  repeat' first
    | with_reducible
        first
          | apply Law.refl | apply Law.ite | apply LawO.next | apply LawO.ite
    | with_reducible apply Law.mk ?_

theorem State.cfgWrite_law (s : State) (r : CfgReg) (v : Nat) :
    Law [.out, .pci, .sqs, .qrecs, .ctxs, .slices, .evt, .log] s (State.cfgWrite s r v) := by
  unfold Sys2Proof.Machine.State.cfgWrite
  try dsimp only
  repeat' first
    | with_reducible
        first
          | apply Law.refl | apply Law.ite
          | refine Law.next ?_ (LawO.get (execPasidEnableCleared_law _) ‹_ = Host.Outcome.next _›) ?_
          | apply LawO.after ?_ (execPasidEnableCleared_law _) ?_
          | apply LawO.mono (execPasidEnableCleared_law _) ?_
          | refine Law.next ?_ (LawO.get (execFunctionPowerStateChange_law _ _ _) ‹_ = Host.Outcome.next _›) ?_
          | apply LawO.after ?_ (execFunctionPowerStateChange_law _ _ _) ?_
          | apply LawO.mono (execFunctionPowerStateChange_law _ _ _) ?_ | decide
    | split
    | with_reducible apply Law.mk ?_

theorem State.sendTo_law (s : State) (c : Nat) (off : Nat) (len : Nat) (l : List Fld) :
    Law [.out] s (State.sendTo s c off len l) := by
  unfold Sys2Proof.Machine.State.sendTo
  try dsimp only
  repeat' first
    | with_reducible
        first
          | apply Law.refl | apply Law.next ?_ (State.say_law _ _) ?_ | decide

theorem State.nsChanged_law (s : State) (id : Nat) :
    Law [.nvme, .sqs, .qrecs, .ctxs] s (State.nsChanged s id) := by
  unfold Sys2Proof.Machine.State.nsChanged
  try dsimp only
  repeat' first
    | with_reducible
        first
          | apply Law.refl | apply Law.ite | apply Law.next ?_ (State.aenRaise_law _ _ _ _) ?_ | decide
    | with_reducible apply Law.mk ?_

theorem State.logRead_law (s : State) (e : SqEntry) :
    Law [.nvme, .nss, .log] s (State.logRead s e) := by
  unfold Sys2Proof.Machine.State.logRead
  try dsimp only
  repeat' first
    | with_reducible
        first
          | apply Law.refl | apply Law.ite | apply Law.next ?_ (State.logWipe_law _) ?_ | decide
    | with_reducible apply Law.mk ?_

theorem State.setFeature_law (s : State) (fid : Nat) (v : Dword) (save : Bool) :
    LawP [.nvme, .nv] s (State.setFeature s fid v save) := by
  unfold Sys2Proof.Machine.State.setFeature
  try dsimp only
  repeat' first
    | with_reducible
        first
          | apply Law.refl | apply Law.ite | apply LawP.ite | apply LawP.error | apply LawP.ok
          | apply Law.next ?_ (State.ledger_law _) ?_ | apply Law.foldl | apply Law.foldlSnd | apply Law.foldlFst
          | decide
    | (intro _; try dsimp only)
    | with_reducible apply Law.mk ?_

theorem State.featureBase_law (s : State) (saved : Bool) :
    Law [.nvme] s (State.featureBase s saved) := by
  unfold Sys2Proof.Machine.State.featureBase
  try dsimp only
  repeat' first
    | with_reducible
        first
          | apply Law.refl | apply Law.ite
    | split
    | with_reducible apply Law.mk ?_

theorem State.nsMake_law (s : State) (id : Nat) (d : NsData) :
    Law [.nss, .zones, .zne, .nv] s (State.nsMake s id d) := by
  unfold Sys2Proof.Machine.State.nsMake
  try dsimp only
  repeat' first
    | with_reducible
        first
          | apply Law.refl | apply Law.ite | apply Law.next ?_ (State.ledger_law _) ?_ | apply Law.forNats | decide
    | (intro _; try dsimp only)
    | with_reducible apply Law.mk ?_

theorem State.convGone_law (s : State) (zk : Nat) (stamp : Nat) :
    Law [.out, .slices, .zones, .gate, .staging, .bpm, .blocks, .dies, .fch, .zne, .par, .key, .evt, .log] s (State.convGone s zk stamp) := by
  unfold Sys2Proof.Machine.State.convGone
  try dsimp only
  repeat' first
    | with_reducible
        first
          | apply Law.refl | apply Law.next ?_ (State.keyUnref_law _ _ _ _) ?_
          | apply Law.next ?_ (State.quotaSub_law _ _ _) ?_ | apply Law.next ?_ (State.rebClear_law _ _) ?_
          | apply Law.next ?_ (State.accClear_law _ _) ?_ | apply Law.next ?_ (State.discardStaged_law _ _) ?_
          | apply Law.next ?_ (State.dropProgs_law _ _ _) ?_ | apply Law.next ?_ (State.freePlace_law _ _) ?_
          | apply Law.next ?_ (State.zoneEdit_law _ _ _) ?_ | apply Law.next ?_ (State.logReturn_law _ _) ?_
          | apply Law.foldl | apply Law.foldlSnd | apply Law.foldlFst | decide
    | (intro _; try dsimp only)
    | split

theorem State.nsGone_law (s : State) (id : Nat) :
    Law [.out, .nvme, .sqs, .qrecs, .ctxs, .slices, .nss, .zones, .gate, .staging, .toks, .bpm, .sward, .blocks, .dies, .fch, .zne, .par, .key, .cas, .nv, .evt, .log] s (State.nsGone s id) := by
  unfold Sys2Proof.Machine.State.nsGone
  try dsimp only
  repeat' first
    | with_reducible
        first
          | apply Law.refl | apply Law.ite | apply Law.next ?_ (State.convGone_law _ _ _) ?_
          | apply Law.next ?_ (State.zoneRelease_law _ _ _) ?_ | apply Law.next ?_ (State.leaseSync_law _ _) ?_
          | apply Law.next ?_ (State.zoneEdit_law _ _ _) ?_ | apply Law.next ?_ (State.migCheck_law _) ?_
          | apply Law.next ?_ (State.ledger_law _) ?_ | apply Law.next ?_ (State.nsChanged_law _ _) ?_
          | apply Law.forNats | decide
    | (intro _; try dsimp only)
    | split
    | with_reducible apply Law.mk ?_

theorem State.nsDeleteEnd_law (s : State) (id : Nat) (ctx : Nat) :
    Law [.out, .nvme, .sqs, .qrecs, .ctxs, .slices, .nss, .zones, .gate, .staging, .toks, .bpm, .sward, .blocks, .dies, .fch, .zne, .par, .key, .cas, .nv, .evt, .log] s (State.nsDeleteEnd s id ctx) := by
  unfold Sys2Proof.Machine.State.nsDeleteEnd
  try dsimp only
  repeat' first
    | with_reducible
        first
          | apply Law.refl | apply Law.ite | apply Law.next ?_ (State.finish_law _ _ _ _ _ _) ?_
          | apply Law.next ?_ (State.nsGone_law _ _) ?_ | decide

theorem State.sanStart_law (s : State) (ctx : Nat) (act : Nat) (dw : Dword) :
    Law [.nvme, .sqs, .qrecs, .ctxs, .gate, .dma] s (State.sanStart s ctx act dw) := by
  unfold Sys2Proof.Machine.State.sanStart
  try dsimp only
  repeat' first
    | with_reducible
        first
          | apply Law.refl | apply Law.ite | apply Law.next ?_ (State.finish_law _ _ _ _ _ _) ?_
          | apply Law.next ?_ (State.enter_law _ _) ?_ | decide
    | with_reducible apply Law.mk ?_

theorem State.keyCmd_law (s : State) (ctx : Nat) (d : KeyData) (act : Nat) :
    Law [.sqs, .qrecs, .ctxs, .gate, .dma] s (State.keyCmd s ctx d act) := by
  unfold Sys2Proof.Machine.State.keyCmd
  try dsimp only
  repeat' first
    | with_reducible
        first
          | apply Law.refl | exact Law.idle | apply Law.ite
          | apply Law.next ?_ (State.admitAdmin_law _ _ _ _ (r := [.sqs, .qrecs, .ctxs, .gate, .dma]) ?_ ?_) ?_
          | apply Law.next ?_ (State.finish_law _ _ _ _ _ _) ?_ | apply Law.next ?_ (State.enter_law _ _) ?_
          | decide | (exact fun u => Law.refl u)
    | (intro _; try dsimp only)
    | split

theorem State.norStart_law (s : State) :
    Law [.nv] s (State.norStart s) := by
  unfold Sys2Proof.Machine.State.norStart
  try dsimp only
  repeat' first
    | with_reducible
        first
          | apply Law.refl | apply Law.ite
    | split
    | with_reducible apply Law.mk ?_

theorem State.stgDiscard_law (s : State) :
    Law [.nv] s (State.stgDiscard s) := by
  unfold Sys2Proof.Machine.State.stgDiscard
  try dsimp only
  repeat' first
    | with_reducible
        first
          | apply Law.refl | apply Law.ite | apply Law.next ?_ (State.stgDrop_law _) ?_ | decide
    | with_reducible apply Law.mk ?_

theorem State.pldmSay_law (s : State) (code : Nat) (l : List Nat) :
    Law [.out] s (State.pldmSay s code l) := by
  unfold Sys2Proof.Machine.State.pldmSay
  try dsimp only
  repeat' first
    | with_reducible
        first
          | apply Law.refl | apply Law.next ?_ (State.say_law _ _) ?_ | decide

theorem State.pldmAsk_law (s : State) :
    Law [.out] s (State.pldmAsk s) := by
  unfold Sys2Proof.Machine.State.pldmAsk
  try dsimp only
  repeat' first
    | with_reducible
        first
          | apply Law.refl | apply Law.ite | apply Law.next ?_ (State.pldmSay_law _ _ _) ?_ | apply Law.foldl
          | apply Law.foldlSnd | apply Law.foldlFst | decide
    | (intro _; try dsimp only)
    | split

theorem State.armSelf_law (s : State) (target : Nat) (rev : Nat) :
    Law [.nv] s (State.armSelf s target rev) := by
  unfold Sys2Proof.Machine.State.armSelf
  try dsimp only
  repeat' first
    | with_reducible
        first
          | apply Law.refl | apply Law.ite
    | with_reducible apply Law.mk ?_

theorem State.commitArm_law (s : State) :
    Law [.out, .sqs, .qrecs, .ctxs, .sward, .cas, .nv, .evt, .log] s (State.commitArm s) := by
  unfold Sys2Proof.Machine.State.commitArm
  try dsimp only
  repeat' first
    | with_reducible
        first
          | apply Law.refl | apply Law.ite | apply Law.next ?_ (State.armSelf_law _ _ _) ?_
          | apply Law.next ?_ (State.commitEnd_law _ _) ?_ | apply Law.next ?_ (State.casSend_law _ _ _ _ _ _) ?_
          | apply Law.next ?_ (State.armCheck_law _) ?_ | apply Law.foldl | apply Law.foldlSnd | apply Law.foldlFst
          | decide
    | (intro _; try dsimp only)
    | with_reducible apply Law.mk ?_

theorem State.commitSend_law (s : State) :
    Law [.out, .sqs, .qrecs, .ctxs, .sward, .cas, .nv, .evt, .log] s (State.commitSend s) := by
  unfold Sys2Proof.Machine.State.commitSend
  try dsimp only
  repeat' first
    | with_reducible
        first
          | apply Law.refl | apply Law.ite | apply Law.next ?_ (State.commitArm_law _) ?_
          | apply Law.next ?_ (State.commitEnd_law _ _) ?_ | apply Law.next ?_ (State.casSend_law _ _ _ _ _ _) ?_
          | apply Law.foldl | apply Law.foldlSnd | apply Law.foldlFst | decide
    | (intro _; try dsimp only)
    | with_reducible apply Law.mk ?_

theorem State.copyStart_law (s : State) (act : Nat) (target : Nat) (c : Option Nat) (m : Manifest) (staged : Bool) :
    Law [.out, .sqs, .qrecs, .ctxs, .sward, .cas, .nv, .evt, .log] s (State.copyStart s act target c m staged) := by
  unfold Sys2Proof.Machine.State.copyStart
  try dsimp only
  repeat' first
    | with_reducible
        first
          | apply Law.refl | apply Law.ite | apply Law.next ?_ (State.commitSend_law _) ?_ | decide
    | with_reducible apply Law.mk ?_

theorem State.slotCopied_law (s : State) :
    Law [.out, .sqs, .qrecs, .ctxs, .sward, .cas, .nv, .evt, .log] s (State.slotCopied s) := by
  unfold Sys2Proof.Machine.State.slotCopied
  try dsimp only
  repeat' first
    | with_reducible
        first
          | apply Law.refl | apply Law.ite | apply Law.next ?_ (State.casSend_law _ _ _ _ _ _) ?_
          | apply Law.next ?_ (State.pldmSay_law _ _ _) ?_ | apply Law.next ?_ (State.commitSend_law _) ?_ | decide
    | with_reducible apply Law.mk ?_

theorem State.pieceStep_law (s : State) :
    Law [.out, .sqs, .qrecs, .ctxs, .nv, .evt, .log] s (State.pieceStep s) := by
  unfold Sys2Proof.Machine.State.pieceStep
  try dsimp only
  repeat' first
    | with_reducible
        first
          | apply Law.refl | apply Law.ite | apply Law.next ?_ (State.fire_law _ _ _ _ _ _) ?_
          | apply Law.next ?_ (State.norStart_law _) ?_ | apply Law.next ?_ (State.finish_law _ _ _ _ _ _) ?_
          | apply Law.next ?_ (State.stgDrop_law _) ?_ | apply Law.next ?_ (State.pldmAsk_law _) ?_ | decide
    | split
    | with_reducible apply Law.mk ?_

theorem execDiscard_law (s : State) :
    LawO [.nv] s (execDiscard s) := by
  unfold Sys2Proof.Machine.execDiscard
  try dsimp only
  repeat' first
    | with_reducible
        first
          | apply Law.refl | apply Law.ite | apply LawO.next | apply LawO.ite
          | apply Law.next ?_ (State.stgDiscard_law _) ?_ | decide

theorem execConfirm_law (s : State) :
    LawO [.out, .sward, .cas, .nv, .efl, .evt, .log] s (execConfirm s) := by
  unfold Sys2Proof.Machine.execConfirm
  try dsimp only
  repeat' first
    | with_reducible
        first
          | apply Law.refl | apply Law.ite | apply LawO.next | apply LawO.ite
          | apply Law.next ?_ (State.confirm_law _) ?_ | apply Law.next ?_ (State.casSend_law _ _ _ _ _ _) ?_
          | apply Law.foldl | apply Law.foldlSnd | apply Law.foldlFst | decide
    | (intro _; try dsimp only)

theorem State.stampKeep_law (s : State) (stamp : Nat) :
    Law [.nv] s (State.stampKeep s stamp) := by
  unfold Sys2Proof.Machine.State.stampKeep
  try dsimp only
  repeat' first
    | with_reducible
        first
          | apply Law.refl | apply Law.ite | apply Law.next ?_ (State.stgDrop_law _) ?_ | decide

end Sys2Proof.Laws
end

