-- ==== Sys2Proof/Laws/Registers.lean ====
section
/-! SUPPORT. One law for each operation of Machine/: Window, Registers, Sideband, Tick:
the parts of the state that it may change, and that it breaks no promise. A row that another row runs has its law
here too. -/

-- One theorem after another: side by side they need more threads than the memory limit allows.
set_option Elab.async false

namespace Sys2Proof.Laws

open Sys2Proof Sys2Proof.Machine Sys2Proof.Safety

theorem State.biLatch_law (s : State) :
    Law [.fch] s (State.biLatch s) := by
  unfold Sys2Proof.Machine.State.biLatch
  try dsimp only
  repeat' first
    | with_reducible
        first
          | apply Law.refl | apply Law.ite
    | with_reducible apply Law.mk ?_

theorem State.cuffRead_law (s : State) (o : Nat) :
    Law [.fch] s (State.cuffRead s o).2 := by
  unfold Sys2Proof.Machine.State.cuffRead
  try dsimp only
  repeat' first
    | with_reducible
        first
          | apply Law.refl | apply Law.ite | apply Law.iteSnd | apply Law.next ?_ (State.biLatch_law _) ?_ | decide
    | dsimp only

theorem State.freeSkip_law (s : State) (n : Nat) :
    Law [.free] s (State.freeSkip s n) := by
  unfold Sys2Proof.Machine.State.freeSkip
  try dsimp only
  repeat' first
    | with_reducible
        first
          | apply Law.refl
    | with_reducible apply Law.mk ?_

theorem State.rwl_law (s : State) (lock : Bool) (o : Nat) (v : Nat) (f : State → State) {r : List Piece} (hr : sub [.out, .evt, .log] r = true) (h_f : ∀ u, Law r u (f u)) :
    Law r s (State.rwl s lock o v f) := by
  unfold Sys2Proof.Machine.State.rwl
  try dsimp only
  repeat' first
    | with_reducible
        first
          | apply Law.refl | apply Law.ite | apply Law.next ?_ (State.fire_law _ _ _ _ _ _) ?_
          | apply Law.next ?_ (h_f _) (sub_refl _) | exact sub_refl _ | exact hr | (refine sub_trans ?_ hr; decide)
    | (intro _; try dsimp only)

theorem State.histSnapNow_law (s : State) :
    Law [.lat] s (State.histSnapNow s) := by
  unfold Sys2Proof.Machine.State.histSnapNow
  try dsimp only
  repeat' first
    | with_reducible
        first
          | apply Law.refl
    | with_reducible apply Law.mk ?_

theorem State.histClearNow_law (s : State) :
    Law [.lat] s (State.histClearNow s) := by
  unfold Sys2Proof.Machine.State.histClearNow
  try dsimp only
  repeat' first
    | with_reducible
        first
          | apply Law.refl
    | with_reducible apply Law.mk ?_

theorem execLockSet_law (blk : Nat) (s : State) :
    LawO [.fch, .lat, .drc, .ecc, .key, .brm, .thm] s (execLockSet blk s) := by
  unfold Sys2Proof.Machine.execLockSet
  try dsimp only
  repeat' first
    | with_reducible
        first
          | apply Law.refl | apply Law.ite | apply LawO.next | apply LawO.ite
          | apply Law.next ?_ (State.setLocks_law _ _) ?_ | decide

theorem State.lockBit_law (s : State) (v : Nat) (blk : Nat) :
    Law [.fch, .lat, .drc, .ecc, .key, .brm, .thm] s (State.lockBit s v blk) := by
  unfold Sys2Proof.Machine.State.lockBit
  try dsimp only
  repeat' first
    | with_reducible
        first
          | apply Law.refl | apply Law.ite
          | refine Law.next ?_ (LawO.get (execLockSet_law _ _) ‹_ = Host.Outcome.next _›) ?_
          | apply LawO.after ?_ (execLockSet_law _ _) ?_ | apply LawO.mono (execLockSet_law _ _) ?_ | decide

theorem State.pendClear_law (s : State) (m : Nat) (v : Nat) :
    Law [.out, .evt] s (State.pendClear s m v) := by
  unfold Sys2Proof.Machine.State.pendClear
  try dsimp only
  repeat' first
    | with_reducible
        first
          | apply Law.refl | apply Law.next ?_ (State.ibiEval_law _) ?_ | decide
    | with_reducible apply Law.mk ?_

theorem State.wrGlb_law (s : State) (o : Nat) (v : Nat) :
    Law [.pci, .gate] s (State.wrGlb s o v) := by
  unfold Sys2Proof.Machine.State.wrGlb
  try dsimp only
  repeat' first
    | with_reducible
        first
          | apply Law.refl | apply Law.ite
    | with_reducible apply Law.mk ?_

theorem State.wrPwr_law (s : State) (o : Nat) (v : Nat) :
    Law [.pwr] s (State.wrPwr s o v) := by
  unfold Sys2Proof.Machine.State.wrPwr
  try dsimp only
  repeat' first
    | with_reducible
        first
          | apply Law.refl | apply Law.ite
    | with_reducible apply Law.mk ?_

theorem State.wrThm_law (s : State) (o : Nat) (v : Nat) :
    Law [.out, .fch, .lat, .drc, .ecc, .key, .brm, .thm, .evt, .log] s (State.wrThm s o v) := by
  unfold Sys2Proof.Machine.State.wrThm
  try dsimp only
  repeat' first
    | with_reducible
        first
          | apply Law.refl | exact Law.idle | apply Law.ite
          | apply Law.next ?_ (State.rwl_law _ _ _ _ _ (r := [.out, .fch, .lat, .drc, .ecc, .key, .brm, .thm, .evt, .log]) ?_ ?_) ?_
          | apply Law.next ?_ (State.lockBit_law _ _ _) ?_ | decide | (exact fun u => Law.refl u)
    | (intro _; try dsimp only)
    | with_reducible apply Law.mk ?_

theorem State.wrMon_law (s : State) (o : Nat) (v : Nat) :
    Law [.mon] s (State.wrMon s o v) := by
  unfold Sys2Proof.Machine.State.wrMon
  try dsimp only
  repeat' first
    | with_reducible
        first
          | apply Law.refl | apply Law.ite
    | with_reducible apply Law.mk ?_

theorem State.wrBrm_law (s : State) (o : Nat) (v : Nat) :
    Law [.free, .out, .nvme, .sqs, .qrecs, .ctxs, .slices, .zones, .gate, .staging, .toks, .bpm, .dma, .sward, .blocks, .dies, .flash, .fch, .par, .lat, .drc, .ecc, .key, .cas, .mtr, .brm, .thm, .nv, .evt, .log] s (State.wrBrm s o v) := by
  unfold Sys2Proof.Machine.State.wrBrm
  try dsimp only
  repeat' first
    | with_reducible
        first
          | apply Law.refl | exact Law.idle | apply Law.ite
          | apply Law.next ?_ (State.rwl_law _ _ _ _ _ (r := [.free, .out, .nvme, .sqs, .qrecs, .ctxs, .slices, .zones, .gate, .staging, .toks, .bpm, .dma, .sward, .blocks, .dies, .flash, .fch, .par, .lat, .drc, .ecc, .key, .cas, .mtr, .brm, .thm, .nv, .evt, .log]) ?_ ?_) ?_
          | apply Law.next ?_ (State.freeSkip_law _ _) ?_
          | refine Law.next ?_ (LawO.get (execBrmTestGo_law _ _) ‹_ = Host.Outcome.next _›) ?_
          | apply LawO.after ?_ (execBrmTestGo_law _ _) ?_ | apply LawO.mono (execBrmTestGo_law _ _) ?_
          | apply Law.next ?_ (State.lockBit_law _ _ _) ?_ | decide | (exact fun u => Law.refl u)
    | (intro _; try dsimp only)
    | with_reducible apply Law.mk ?_

theorem State.wrEvt_law (s : State) (o : Nat) (v : Nat) :
    Law [.out, .evt] s (State.wrEvt s o v) := by
  unfold Sys2Proof.Machine.State.wrEvt
  try dsimp only
  repeat' first
    | with_reducible
        first
          | apply Law.refl | apply Law.ite | apply Law.next ?_ (State.pendClear_law _ _ _) ?_
          | apply Law.next ?_ (State.ibiEval_law _) ?_ | apply Law.next ?_ (State.latchClear_law _ _) ?_ | decide
    | with_reducible apply Law.mk ?_

theorem State.wrLog_law (s : State) (o : Nat) (v : Nat) :
    Law [.log] s (State.wrLog s o v) := by
  unfold Sys2Proof.Machine.State.wrLog
  try dsimp only
  repeat' first
    | with_reducible
        first
          | apply Law.refl | apply Law.ite | apply Law.next ?_ (State.logWipe_law _) ?_ | decide
    | with_reducible apply Law.mk ?_

theorem State.wrEfl_law (s : State) (o : Nat) (v : Nat) :
    Law [.free, .out, .nvme, .sqs, .qrecs, .ctxs, .slices, .zones, .gate, .staging, .toks, .bpm, .dma, .sward, .blocks, .dies, .fch, .zne, .par, .key, .cas, .efl, .evt, .log] s (State.wrEfl s o v) := by
  unfold Sys2Proof.Machine.State.wrEfl
  try dsimp only
  repeat' first
    | with_reducible
        first
          | apply Law.refl | apply Law.ite | apply Law.next ?_ (State.eflEdit_law _ _ ?_) ?_
          | apply Law.next ?_ (State.freeSkip_law _ _) ?_
          | refine Law.next ?_ (LawO.get (execEflRead_law _ _ _) ‹_ = Host.Outcome.next _›) ?_
          | apply LawO.after ?_ (execEflRead_law _ _ _) ?_ | apply LawO.mono (execEflRead_law _ _ _) ?_
          | refine Law.next ?_ (LawO.get (execEflProgram_law _) ‹_ = Host.Outcome.next _›) ?_
          | apply LawO.after ?_ (execEflProgram_law _) ?_ | apply LawO.mono (execEflProgram_law _) ?_
          | refine Law.next ?_ (LawO.get (execEflErase_law _) ‹_ = Host.Outcome.next _›) ?_
          | apply LawO.after ?_ (execEflErase_law _) ?_ | apply LawO.mono (execEflErase_law _) ?_
          | refine Law.next ?_ (LawO.get (execOemUnlock_law _) ‹_ = Host.Outcome.next _›) ?_
          | apply LawO.after ?_ (execOemUnlock_law _) ?_ | apply LawO.mono (execOemUnlock_law _) ?_
          | refine Law.next ?_ (LawO.get (execOemLock_law _) ‹_ = Host.Outcome.next _›) ?_
          | apply LawO.after ?_ (execOemLock_law _) ?_ | apply LawO.mono (execOemLock_law _) ?_
          | refine Law.next ?_ (LawO.get (execSetPassword_law _) ‹_ = Host.Outcome.next _›) ?_
          | apply LawO.after ?_ (execSetPassword_law _) ?_ | apply LawO.mono (execSetPassword_law _) ?_
          | refine Law.next ?_ (LawO.get (execWriteMask_law _) ‹_ = Host.Outcome.next _›) ?_
          | apply LawO.after ?_ (execWriteMask_law _) ?_ | apply LawO.mono (execWriteMask_law _) ?_
          | refine Law.next ?_ (LawO.get (execEflRdp_law _ _) ‹_ = Host.Outcome.next _›) ?_
          | apply LawO.after ?_ (execEflRdp_law _ _) ?_ | apply LawO.mono (execEflRdp_law _ _) ?_ | assumption
          | decide | (with_unfolding_all rfl) | (with_unfolding_all exact SealLaw.refl _)
          | (with_unfolding_all exact EflLaw.of rfl rfl rfl rfl rfl rfl)

theorem State.wrUpd_law (s : State) (o : Nat) (v : Nat) :
    Law [.out, .sward, .cas, .nv, .efl, .evt, .log] s (State.wrUpd s o v) := by
  unfold Sys2Proof.Machine.State.wrUpd
  try dsimp only
  repeat' first
    | with_reducible
        first
          | apply Law.refl | apply Law.ite
          | refine Law.next ?_ (LawO.get (execDiscard_law _) ‹_ = Host.Outcome.next _›) ?_
          | apply LawO.after ?_ (execDiscard_law _) ?_ | apply LawO.mono (execDiscard_law _) ?_
          | refine Law.next ?_ (LawO.get (execConfirm_law _) ‹_ = Host.Outcome.next _›) ?_
          | apply LawO.after ?_ (execConfirm_law _) ?_ | apply LawO.mono (execConfirm_law _) ?_ | decide

theorem State.wrKey_law (s : State) (o : Nat) (v : Nat) :
    Law [.out, .fch, .lat, .drc, .ecc, .key, .brm, .thm, .evt, .log] s (State.wrKey s o v) := by
  unfold Sys2Proof.Machine.State.wrKey
  try dsimp only
  repeat' first
    | with_reducible
        first
          | apply Law.refl | exact Law.idle | apply Law.ite
          | apply Law.next ?_ (State.rwl_law _ _ _ _ _ (r := [.out, .fch, .lat, .drc, .ecc, .key, .brm, .thm, .evt, .log]) ?_ ?_) ?_
          | apply Law.next ?_ (State.lockBit_law _ _ _) ?_ | decide | (exact fun u => Law.refl u)
    | (intro _; try dsimp only)
    | with_reducible apply Law.mk ?_

theorem State.wrSlc_law (s : State) (o : Nat) (v : Nat) :
    Law [.evt] s (State.wrSlc s o v) := by
  unfold Sys2Proof.Machine.State.wrSlc
  try dsimp only
  repeat' first
    | with_reducible
        first
          | apply Law.refl | apply Law.ite
    | with_reducible apply Law.mk ?_

theorem State.wrBpm_law (s : State) (o : Nat) (v : Nat) :
    Law [.out, .sqs, .qrecs, .ctxs, .slices, .zones, .gate, .staging, .toks, .bpm, .dma, .sward, .dies, .fch, .par, .key, .evt, .log] s (State.wrBpm s o v) := by
  unfold Sys2Proof.Machine.State.wrBpm
  try dsimp only
  repeat' first
    | with_reducible
        first
          | apply Law.refl | apply Law.ite
          | refine Law.next ?_ (LawO.get (execBpmRevoke_law _ _) ‹_ = Host.Outcome.next _›) ?_
          | apply LawO.after ?_ (execBpmRevoke_law _ _) ?_ | apply LawO.mono (execBpmRevoke_law _ _) ?_ | decide
    | with_reducible apply Law.mk ?_

theorem State.wrDma_law (s : State) (o : Nat) (v : Nat) :
    Law [.ctxs, .dma] s (State.wrDma s o v) := by
  unfold Sys2Proof.Machine.State.wrDma
  try dsimp only
  repeat' first
    | with_reducible
        first
          | apply Law.refl | apply Law.ite
          | refine Law.next ?_ (LawO.get (execDmaThaw_law _ _) ‹_ = Host.Outcome.next _›) ?_
          | apply LawO.after ?_ (execDmaThaw_law _ _) ?_ | apply LawO.mono (execDmaThaw_law _ _) ?_ | decide
    | with_reducible apply Law.mk ?_

theorem State.wrDrc_law (s : State) (o : Nat) (v : Nat) :
    Law [.out, .fch, .lat, .drc, .ecc, .key, .brm, .thm, .evt, .log] s (State.wrDrc s o v) := by
  unfold Sys2Proof.Machine.State.wrDrc
  try dsimp only
  repeat' first
    | with_reducible
        first
          | apply Law.refl | exact Law.idle | apply Law.ite
          | apply Law.next ?_ (State.rwl_law _ _ _ _ _ (r := [.out, .fch, .lat, .drc, .ecc, .key, .brm, .thm, .evt, .log]) ?_ ?_) ?_
          | apply Law.next ?_ (State.lockBit_law _ _ _) ?_ | decide | (exact fun u => Law.refl u)
    | (intro _; try dsimp only)
    | with_reducible apply Law.mk ?_

theorem State.wrEcc_law (s : State) (o : Nat) (v : Nat) :
    Law [.out, .fch, .lat, .drc, .ecc, .key, .brm, .thm, .evt, .log] s (State.wrEcc s o v) := by
  unfold Sys2Proof.Machine.State.wrEcc
  try dsimp only
  repeat' first
    | with_reducible
        first
          | apply Law.refl | exact Law.idle | apply Law.ite
          | apply Law.next ?_ (State.rwl_law _ _ _ _ _ (r := [.out, .fch, .lat, .drc, .ecc, .key, .brm, .thm, .evt, .log]) ?_ ?_) ?_
          | apply Law.next ?_ (State.lockBit_law _ _ _) ?_ | decide | (exact fun u => Law.refl u)
    | (intro _; try dsimp only)
    | with_reducible apply Law.mk ?_

theorem State.wrFch_law (s : State) (o : Nat) (v : Nat) :
    Law [.out, .fch, .lat, .drc, .ecc, .key, .brm, .thm, .evt, .log] s (State.wrFch s o v) := by
  unfold Sys2Proof.Machine.State.wrFch
  try dsimp only
  repeat' first
    | with_reducible
        first
          | apply Law.refl | exact Law.idle | apply Law.ite
          | apply Law.next ?_ (State.rwl_law _ _ _ _ _ (r := [.out, .fch, .lat, .drc, .ecc, .key, .brm, .thm, .evt, .log]) ?_ ?_) ?_
          | apply Law.next ?_ (State.chnEdit_law _ _ _) ?_ | apply Law.next ?_ (State.lockBit_law _ _ _) ?_ | decide
          | (exact fun u => Law.refl u)
    | (intro _; try dsimp only)
    | with_reducible apply Law.mk ?_

theorem State.wrZne_law (s : State) (o : Nat) (v : Nat) :
    Law [.free, .out, .nvme, .sqs, .qrecs, .ctxs, .slices, .zones, .gate, .staging, .toks, .bpm, .dma, .sward, .blocks, .dies, .flash, .fch, .zne, .par, .lat, .key, .cas, .mtr, .upd, .nv, .evt, .log] s (State.wrZne s o v) := by
  unfold Sys2Proof.Machine.State.wrZne
  try dsimp only
  repeat' first
    | with_reducible
        first
          | apply Law.refl | apply Law.ite
          | refine Law.next ?_ (LawO.get (execZneCfgCommit_law _) ‹_ = Host.Outcome.next _›) ?_
          | apply LawO.after ?_ (execZneCfgCommit_law _) ?_ | apply LawO.mono (execZneCfgCommit_law _) ?_ | decide
    | with_reducible apply Law.mk ?_

theorem State.wrPar_law (s : State) (o : Nat) (v : Nat) :
    Law [.par] s (State.wrPar s o v) := by
  unfold Sys2Proof.Machine.State.wrPar
  try dsimp only
  repeat' first
    | with_reducible
        first
          | apply Law.refl | apply Law.ite
    | with_reducible apply Law.mk ?_

theorem State.wrLat_law (s : State) (o : Nat) (v : Nat) :
    Law [.out, .fch, .lat, .drc, .ecc, .key, .brm, .thm, .evt, .log] s (State.wrLat s o v) := by
  unfold Sys2Proof.Machine.State.wrLat
  try dsimp only
  repeat' first
    | with_reducible
        first
          | apply Law.refl | exact Law.idle | apply Law.ite
          | apply Law.next ?_ (State.rwl_law _ _ _ _ _ (r := [.out, .fch, .lat, .drc, .ecc, .key, .brm, .thm, .evt, .log]) ?_ ?_) ?_
          | apply Law.next ?_ (State.lockBit_law _ _ _) ?_ | apply Law.next ?_ (State.histSnapNow_law _) ?_
          | apply Law.next ?_ (State.histClearNow_law _) ?_ | decide | (exact fun u => Law.refl u)
    | (intro _; try dsimp only)
    | with_reducible apply Law.mk ?_

theorem State.wrCas_law (s : State) (o : Nat) (v : Nat) :
    Law [.free, .out, .nvme, .sqs, .qrecs, .ctxs, .slices, .zones, .gate, .staging, .toks, .bpm, .dma, .sward, .blocks, .dies, .flash, .fch, .zne, .par, .lat, .key, .cas, .mtr, .upd, .nv, .evt, .log] s (State.wrCas s o v) := by
  unfold Sys2Proof.Machine.State.wrCas
  try dsimp only
  repeat' first
    | with_reducible
        first
          | apply Law.refl | apply Law.ite
          | refine Law.next ?_ (LawO.get (execExcludeChip_law _ _) ‹_ = Host.Outcome.next _›) ?_
          | apply LawO.after ?_ (execExcludeChip_law _ _) ?_ | apply LawO.mono (execExcludeChip_law _ _) ?_
          | refine Law.next ?_ (LawO.get (execIncludeChip_law _ _) ‹_ = Host.Outcome.next _›) ?_
          | apply LawO.after ?_ (execIncludeChip_law _ _) ?_ | apply LawO.mono (execIncludeChip_law _ _) ?_
          | refine Law.next ?_ (LawO.get (execFenceChip_law _ _) ‹_ = Host.Outcome.next _›) ?_
          | apply LawO.after ?_ (execFenceChip_law _ _) ?_ | apply LawO.mono (execFenceChip_law _ _) ?_
          | refine Law.next ?_ (LawO.get (execResyncChip_law _ _) ‹_ = Host.Outcome.next _›) ?_
          | apply LawO.after ?_ (execResyncChip_law _ _) ?_ | apply LawO.mono (execResyncChip_law _ _) ?_ | decide
    | with_reducible apply Law.mk ?_

theorem State.wrMtr_law (s : State) (o : Nat) (v : Nat) :
    Law [.free, .out, .mtr, .evt, .log] s (State.wrMtr s o v) := by
  unfold Sys2Proof.Machine.State.wrMtr
  try dsimp only
  repeat' first
    | with_reducible
        first
          | apply Law.refl | apply Law.ite | apply Law.next ?_ (State.freeSkip_law _ _) ?_
          | refine Law.next ?_ (LawO.get (execMtrSwckGo_law _ _) ‹_ = Host.Outcome.next _›) ?_
          | apply LawO.after ?_ (execMtrSwckGo_law _ _) ?_ | apply LawO.mono (execMtrSwckGo_law _ _) ?_
          | apply Law.next ?_ (State.mtrEdit_law _ _ ?_) ?_
          | refine Law.next ?_ (LawO.get (execMtrParamCommit_law _) ‹_ = Host.Outcome.next _›) ?_
          | apply LawO.after ?_ (execMtrParamCommit_law _) ?_ | apply LawO.mono (execMtrParamCommit_law _) ?_
          | refine Law.next ?_ (LawO.get (execMtrRecSel_law _ _) ‹_ = Host.Outcome.next _›) ?_
          | apply LawO.after ?_ (execMtrRecSel_law _ _) ?_ | apply LawO.mono (execMtrRecSel_law _ _) ?_ | assumption
          | decide | (with_unfolding_all rfl) | (with_unfolding_all exact SealLaw.refl _)
          | (with_unfolding_all exact EflLaw.of rfl rfl rfl rfl rfl rfl)

theorem State.wrMail_law (s : State) (i : Nat) (r : Nat) (v : Nat) :
    Law [.out, .pci, .slices, .evt, .log] s (State.wrMail s i r v) := by
  unfold Sys2Proof.Machine.State.wrMail
  try dsimp only
  repeat' first
    | with_reducible
        first
          | apply Law.refl | apply Law.ite
          | refine Law.next ?_ (LawO.get (execSlcMbinPtr_law _ _ _ _) ‹_ = Host.Outcome.next _›) ?_
          | apply LawO.after ?_ (execSlcMbinPtr_law _ _ _ _) ?_ | apply LawO.mono (execSlcMbinPtr_law _ _ _ _) ?_
          | refine Law.next ?_ (LawO.get (execSlcMboutPush_law _ _ _ _ _) ‹_ = Host.Outcome.next _›) ?_
          | apply LawO.after ?_ (execSlcMboutPush_law _ _ _ _ _) ?_
          | apply LawO.mono (execSlcMboutPush_law _ _ _ _ _) ?_ | apply Law.next ?_ (State.sliceEdit_law _ _ _) ?_
          | refine Law.next ?_ (LawO.get (execFlushIn_law _ _ _) ‹_ = Host.Outcome.next _›) ?_
          | apply LawO.after ?_ (execFlushIn_law _ _ _) ?_ | apply LawO.mono (execFlushIn_law _ _ _) ?_
          | refine Law.next ?_ (LawO.get (execFlushOut_law _ _ _) ‹_ = Host.Outcome.next _›) ?_
          | apply LawO.after ?_ (execFlushOut_law _ _ _) ?_ | apply LawO.mono (execFlushOut_law _ _ _) ?_ | decide

theorem State.cuffWrite4_law (s : State) (o : Nat) (v : Nat) :
    Law [.free, .out, .pci, .nvme, .sqs, .qrecs, .ctxs, .slices, .zones, .gate, .staging, .toks, .bpm, .dma, .sward, .blocks, .dies, .flash, .fch, .zne, .par, .lat, .drc, .ecc, .key, .cas, .mtr, .pwr, .brm, .thm, .mon, .upd, .nv, .efl, .evt, .log] s (State.cuffWrite4 s o v) := by
  unfold Sys2Proof.Machine.State.cuffWrite4
  try dsimp only
  repeat' first
    | with_reducible
        first
          | apply Law.refl | apply Law.ite | apply Law.next ?_ (State.wrGlb_law _ _ _) ?_
          | apply Law.next ?_ (State.wrPwr_law _ _ _) ?_ | apply Law.next ?_ (State.wrThm_law _ _ _) ?_
          | apply Law.next ?_ (State.wrMon_law _ _ _) ?_ | apply Law.next ?_ (State.wrBrm_law _ _ _) ?_
          | apply Law.next ?_ (State.wrEvt_law _ _ _) ?_ | apply Law.next ?_ (State.wrLog_law _ _ _) ?_
          | apply Law.next ?_ (State.wrEfl_law _ _ _) ?_ | apply Law.next ?_ (State.wrUpd_law _ _ _) ?_
          | apply Law.next ?_ (State.wrKey_law _ _ _) ?_ | apply Law.next ?_ (State.wrSlc_law _ _ _) ?_
          | apply Law.next ?_ (State.wrBpm_law _ _ _) ?_ | apply Law.next ?_ (State.wrDma_law _ _ _) ?_
          | apply Law.next ?_ (State.wrDrc_law _ _ _) ?_ | apply Law.next ?_ (State.wrEcc_law _ _ _) ?_
          | apply Law.next ?_ (State.wrFch_law _ _ _) ?_ | apply Law.next ?_ (State.wrZne_law _ _ _) ?_
          | apply Law.next ?_ (State.wrPar_law _ _ _) ?_ | apply Law.next ?_ (State.wrLat_law _ _ _) ?_
          | apply Law.next ?_ (State.wrCas_law _ _ _) ?_ | apply Law.next ?_ (State.wrMtr_law _ _ _) ?_
          | apply Law.next ?_ (State.wrMail_law _ _ _ _) ?_ | decide

theorem State.cuffWrite8_law (s : State) (o : Nat) (v : Nat) :
    Law [.free, .out, .pci, .nvme, .sqs, .qrecs, .ctxs, .slices, .zones, .gate, .staging, .toks, .bpm, .dma, .sward, .blocks, .dies, .flash, .fch, .zne, .par, .lat, .drc, .ecc, .key, .cas, .mtr, .pwr, .brm, .thm, .mon, .upd, .nv, .efl, .evt, .log] s (State.cuffWrite8 s o v) := by
  unfold Sys2Proof.Machine.State.cuffWrite8
  try dsimp only
  repeat' first
    | with_reducible
        first
          | apply Law.refl | apply Law.ite
          | refine Law.next ?_ (LawO.get (execMtrAck_law _ _) ‹_ = Host.Outcome.next _›) ?_
          | apply LawO.after ?_ (execMtrAck_law _ _) ?_ | apply LawO.mono (execMtrAck_law _ _) ?_
          | refine Law.next ?_ (LawO.get (execMtrRecSel_law _ _) ‹_ = Host.Outcome.next _›) ?_
          | apply LawO.after ?_ (execMtrRecSel_law _ _) ?_ | apply LawO.mono (execMtrRecSel_law _ _) ?_
          | refine Law.next ?_ (LawO.get (execSlcMboutPush_law _ _ _ _ _) ‹_ = Host.Outcome.next _›) ?_
          | apply LawO.after ?_ (execSlcMboutPush_law _ _ _ _ _) ?_
          | apply LawO.mono (execSlcMboutPush_law _ _ _ _ _) ?_ | apply Law.next ?_ (State.cuffWrite4_law _ _ _) ?_
          | decide

theorem State.ccWrite_law (s : State) (v : Nat) :
    Law [.free, .out, .nvme, .sqs, .cqs, .qrecs, .ctxs, .slices, .nss, .zones, .gate, .staging, .toks, .bpm, .dma, .sward, .blocks, .dies, .flash, .fch, .zne, .par, .key, .cas, .mtr, .brm, .upd, .nv, .evt, .log] s (State.ccWrite s v) := by
  unfold Sys2Proof.Machine.State.ccWrite
  try dsimp only
  repeat' first
    | with_reducible
        first
          | apply Law.refl | apply Law.ite
          | refine Law.next ?_ (LawO.get (execCcEnSet_law _ _) ‹_ = Host.Outcome.next _›) ?_
          | apply LawO.after ?_ (execCcEnSet_law _ _) ?_ | apply LawO.mono (execCcEnSet_law _ _) ?_
          | refine Law.next ?_ (LawO.get (execCcEnClear_law _) ‹_ = Host.Outcome.next _›) ?_
          | apply LawO.after ?_ (execCcEnClear_law _) ?_ | apply LawO.mono (execCcEnClear_law _) ?_
          | apply Law.next ?_ (State.ccPut_law _ _) ?_
          | refine Law.next ?_ (LawO.get (execShutdownNotification_law _ _) ‹_ = Host.Outcome.next _›) ?_
          | apply LawO.after ?_ (execShutdownNotification_law _ _) ?_
          | apply LawO.mono (execShutdownNotification_law _ _) ?_ | decide

theorem State.msixWrite_law (s : State) (e : Nat) (r : Nat) (v : Nat) :
    Law [.out, .evt] s (State.msixWrite s e r v) := by
  unfold Sys2Proof.Machine.State.msixWrite
  try dsimp only
  repeat' first
    | with_reducible
        first
          | apply Law.refl | apply Law.ite
          | refine Law.next ?_ (LawO.get (execVectorUnmask_law _ _) ‹_ = Host.Outcome.next _›) ?_
          | apply LawO.after ?_ (execVectorUnmask_law _ _) ?_ | apply LawO.mono (execVectorUnmask_law _ _) ?_
          | decide
    | with_reducible apply Law.mk ?_

theorem State.bar0Write_law (s : State) (o : Nat) (v : Nat) :
    Law [.free, .out, .nvme, .sqs, .cqs, .qrecs, .ctxs, .slices, .nss, .zones, .gate, .staging, .toks, .bpm, .dma, .sward, .blocks, .dies, .flash, .fch, .zne, .par, .key, .cas, .mtr, .brm, .upd, .nv, .evt, .log] s (State.bar0Write s o v) := by
  unfold Sys2Proof.Machine.State.bar0Write
  try dsimp only
  repeat' first
    | with_reducible
        first
          | apply Law.refl | apply Law.ite | apply Law.next ?_ (State.ccWrite_law _ _) ?_
          | refine Law.next ?_ (LawO.get (execPfSqDoorbell_law _ _ _) ‹_ = Host.Outcome.next _›) ?_
          | apply LawO.after ?_ (execPfSqDoorbell_law _ _ _) ?_ | apply LawO.mono (execPfSqDoorbell_law _ _ _) ?_
          | refine Law.next ?_ (LawO.get (execPfCqDoorbell_law _ _ _) ‹_ = Host.Outcome.next _›) ?_
          | apply LawO.after ?_ (execPfCqDoorbell_law _ _ _) ?_ | apply LawO.mono (execPfCqDoorbell_law _ _ _) ?_
          | apply Law.next ?_ (State.msixWrite_law _ _ _ _) ?_ | decide
    | with_reducible apply Law.mk ?_

theorem State.baseWrite_law (s : State) (k : Nat) (sq : Bool) (i : Nat) (v : Nat) :
    Law [.sqs, .cqs] s (State.baseWrite s k sq i v) := by
  unfold Sys2Proof.Machine.State.baseWrite
  try dsimp only
  repeat' first
    | with_reducible
        first
          | apply Law.refl | apply Law.ite
    | with_reducible apply Law.mk ?_

theorem State.mbCtl_law (s : State) (i : Nat) (p : Option Nat) (v : Nat) :
    Law [.out, .pci, .slices, .evt, .log] s (State.mbCtl s i p v) := by
  unfold Sys2Proof.Machine.State.mbCtl
  try dsimp only
  repeat' first
    | with_reducible
        first
          | apply Law.refl | apply Law.ite | apply Law.next ?_ (State.sliceEdit_law _ _ _) ?_
          | refine Law.next ?_ (LawO.get (execFlushIn_law _ _ _) ‹_ = Host.Outcome.next _›) ?_
          | apply LawO.after ?_ (execFlushIn_law _ _ _) ?_ | apply LawO.mono (execFlushIn_law _ _ _) ?_
          | refine Law.next ?_ (LawO.get (execFlushOut_law _ _ _) ‹_ = Host.Outcome.next _›) ?_
          | apply LawO.after ?_ (execFlushOut_law _ _ _) ?_ | apply LawO.mono (execFlushOut_law _ _ _) ?_ | decide

theorem State.pageWrite_law (s : State) (i : Nat) (p : Option Nat) (o : Nat) (v : Nat) :
    Law [.out, .pci, .sqs, .cqs, .qrecs, .ctxs, .slices, .dma, .evt, .log] s (State.pageWrite s i p o v) := by
  unfold Sys2Proof.Machine.State.pageWrite
  try dsimp only
  repeat' first
    | with_reducible
        first
          | apply Law.refl | exact Law.idle | apply Law.ite
          | refine Law.next ?_ (LawO.get (execSlcDbSq_law _ _ _ _ _) ‹_ = Host.Outcome.next _›) ?_
          | apply LawO.after ?_ (execSlcDbSq_law _ _ _ _ _) ?_ | apply LawO.mono (execSlcDbSq_law _ _ _ _ _) ?_
          | refine Law.next ?_ (LawO.get (execSlcDbCq_law _ _ _ _ _) ‹_ = Host.Outcome.next _›) ?_
          | apply LawO.after ?_ (execSlcDbCq_law _ _ _ _ _) ?_ | apply LawO.mono (execSlcDbCq_law _ _ _ _ _) ?_
          | refine Law.next ?_ (LawO.get (execQueuePairEnable_law _ _ _ _ _) ‹_ = Host.Outcome.next _›) ?_
          | apply LawO.after ?_ (execQueuePairEnable_law _ _ _ _ _) ?_
          | apply LawO.mono (execQueuePairEnable_law _ _ _ _ _) ?_
          | refine Law.next ?_ (LawO.get (execQueuePairDisable_law _ _ _ _ _) ‹_ = Host.Outcome.next _›) ?_
          | apply LawO.after ?_ (execQueuePairDisable_law _ _ _ _ _) ?_
          | apply LawO.mono (execQueuePairDisable_law _ _ _ _ _) ?_
          | refine Law.next ?_ (LawO.get (execSlcMbinPtr_law _ _ _ _) ‹_ = Host.Outcome.next _›) ?_
          | apply LawO.after ?_ (execSlcMbinPtr_law _ _ _ _) ?_ | apply LawO.mono (execSlcMbinPtr_law _ _ _ _) ?_
          | refine Law.next ?_ (LawO.get (execSlcMboutPush_law _ _ _ _ _) ‹_ = Host.Outcome.next _›) ?_
          | apply LawO.after ?_ (execSlcMboutPush_law _ _ _ _ _) ?_
          | apply LawO.mono (execSlcMboutPush_law _ _ _ _ _) ?_
          | refine Law.next ?_ (LawO.get (execSlcNrCtl_law _ _ _ _) ‹_ = Host.Outcome.next _›) ?_
          | apply LawO.after ?_ (execSlcNrCtl_law _ _ _ _) ?_ | apply LawO.mono (execSlcNrCtl_law _ _ _ _) ?_
          | refine Law.next ?_ (LawO.get (execSlcNrHead_law _ _ _ _) ‹_ = Host.Outcome.next _›) ?_
          | apply LawO.after ?_ (execSlcNrHead_law _ _ _ _) ?_ | apply LawO.mono (execSlcNrHead_law _ _ _ _) ?_
          | refine Law.next ?_ (LawO.get (execSlcDmaThaw_law _ _ _) ‹_ = Host.Outcome.next _›) ?_
          | apply LawO.after ?_ (execSlcDmaThaw_law _ _ _) ?_ | apply LawO.mono (execSlcDmaThaw_law _ _ _) ?_
          | apply Law.next ?_ (State.tenantWrite_law _ _ _ _ _ (r := [.out, .pci, .sqs, .cqs, .qrecs, .ctxs, .slices, .dma, .evt, .log]) ?_ ?_) ?_
          | apply Law.next ?_ (State.baseWrite_law _ _ _ _ _) ?_ | apply Law.next ?_ (State.sliceEdit_law _ _ _) ?_
          | apply Law.next ?_ (State.mbCtl_law _ _ _ _) ?_ | decide | (exact fun u => Law.refl u)
    | (intro _; try dsimp only)

theorem twice_law (size : Nat) (o : Nat) (v : Nat) (f : State → Nat → Nat → State) (s : State) {r : List Piece} (hr : sub [] r = true) (h_f : ∀ u x1 x2, Law r u (f u x1 x2)) :
    Law r s (twice size o v f s) := by
  unfold Sys2Proof.Machine.twice
  try dsimp only
  repeat' first
    | with_reducible
        first
          | apply Law.refl | apply Law.ite | apply Law.next ?_ (h_f _ _ _) (sub_refl _) | exact sub_refl _
          | exact hr | (refine sub_trans ?_ hr; decide)
    | (intro _; try dsimp only)

theorem State.readRun_law (s : State) (o : Nat) (a2 : Nat) :
    Law [.fch] s (State.readRun s o a2).2 := by
  induction a2 generalizing s o with
  | zero => exact Law.refl _
  | succ n ih =>
    unfold Sys2Proof.Machine.State.readRun
    exact Law.next (Law.next (Law.refl _) (State.cuffRead_law _ _) (by decide)) (ih _ _) (by decide)

theorem State.writeRun_law (s : State) (o : Nat) (a2 : List Dword) :
    Law [.free, .out, .pci, .nvme, .sqs, .qrecs, .ctxs, .slices, .zones, .gate, .staging, .toks, .bpm, .dma, .sward, .blocks, .dies, .flash, .fch, .zne, .par, .lat, .drc, .ecc, .key, .cas, .mtr, .pwr, .brm, .thm, .mon, .upd, .nv, .efl, .evt, .log] s (State.writeRun s o a2) := by
  have k : ∀ (n : Nat) (l : List Dword), l.length ≤ n → ∀ (s : State) (o : Nat), Law [.free, .out, .pci, .nvme, .sqs, .qrecs, .ctxs, .slices, .zones, .gate, .staging, .toks, .bpm, .dma, .sward, .blocks, .dies, .flash, .fch, .zne, .par, .lat, .drc, .ecc, .key, .cas, .mtr, .pwr, .brm, .thm, .mon, .upd, .nv, .efl, .evt, .log] s (s.writeRun o l) := fun n => by
    induction n with
    | zero =>
      intro l h s o
      have : l = [] := List.eq_nil_of_length_eq_zero (by omega)
      subst this
      exact Law.refl _
    | succ n ih =>
      intro l h s o
      match l with
      | [] => exact Law.refl _
      | [a] => exact Law.next (Law.refl _) (State.cuffWrite4_law _ _ _) (by decide)
      | a :: b :: t =>
        unfold Sys2Proof.Machine.State.writeRun
        refine Law.ite (Law.next (Law.next (Law.refl _) (State.cuffWrite8_law _ _ _) (by decide)) (ih t ?_ _ _) (by decide))
          (Law.next (Law.next (Law.refl _) (State.cuffWrite4_law _ _ _) (by decide)) (ih (b :: t) ?_ _ _) (by decide))
        · simp only [List.length_cons] at h
          omega
        · simp only [List.length_cons] at h ⊢
          omega
  exact k _ _ (Nat.le_refl _) _ _

theorem State.respond_law (s : State) (port : Nat) (eid : Nat) (seq : Nat) (cc : Nat) (l : List Dword) :
    Law [.out] s (State.respond s port eid seq cc l) := by
  unfold Sys2Proof.Machine.State.respond
  try dsimp only
  repeat' first
    | with_reducible
        first
          | apply Law.refl | apply Law.next ?_ (State.say_law _ _) ?_ | decide

theorem State.keepResponse_law (s : State) (port : Nat) (eid : Nat) (seq : Nat) (l : List Dword) :
    Law [.out, .side] s (State.keepResponse s port eid seq l) := by
  unfold Sys2Proof.Machine.State.keepResponse
  try dsimp only
  repeat' first
    | with_reducible
        first
          | apply Law.refl | apply Law.next ?_ (State.respond_law _ _ _ _ _ _) ?_ | decide
    | with_reducible apply Law.mk ?_

theorem State.sidebandWake_law (s : State) :
    Law [.now, .free, .out, .nvme, .sqs, .qrecs, .ctxs, .slices, .zones, .gate, .staging, .toks, .bpm, .dma, .sward, .blocks, .dies, .flash, .fch, .zne, .par, .lat, .drc, .key, .cas, .mtr, .pwr, .mon, .upd, .nv, .evt, .log] s (State.sidebandWake s) := by
  unfold Sys2Proof.Machine.State.sidebandWake
  try dsimp only
  repeat' first
    | with_reducible
        first
          | apply Law.refl | apply Law.ite
          | refine Law.next ?_ (LawO.get (execWake_law _ _ _) ‹_ = Host.Outcome.next _›) ?_
          | apply LawO.after ?_ (execWake_law _ _ _) ?_ | apply LawO.mono (execWake_law _ _ _) ?_ | decide

theorem State.mctp_law (s : State) (port : Nat) (eid : Nat) (vendor : Nat) (seq : Nat) (offset : Nat) (count : Nat) (act : State → List Dword × State) {r : List Piece} (hr : sub [.now, .free, .out, .nvme, .sqs, .qrecs, .ctxs, .slices, .zones, .gate, .staging, .toks, .bpm, .dma, .sward, .blocks, .dies, .flash, .fch, .zne, .par, .lat, .drc, .key, .cas, .mtr, .pwr, .mon, .upd, .nv, .evt, .log, .side] r = true) (h_act : ∀ u, Law r u (act u).2) :
    Law r s (State.mctp s port eid vendor seq offset count act) := by
  unfold Sys2Proof.Machine.State.mctp
  try dsimp only
  repeat' first
    | with_reducible
        first
          | apply Law.refl | apply Law.ite | apply Law.next ?_ (State.sidebandWake_law _) ?_
          | apply Law.next ?_ (State.respond_law _ _ _ _ _ _) ?_
          | apply Law.next ?_ (State.keepResponse_law _ _ _ _ _) ?_ | apply Law.next ?_ (h_act _) (sub_refl _)
          | refine Law.next ?_ (Law.snd (h_act _) ‹_ = (_, _)›) (sub_refl _) | assumption | exact sub_refl _
          | exact hr | (refine sub_trans ?_ hr; decide)
    | (intro _; try dsimp only)
    | split

theorem State.tick_law (s : State) :
    Law [.now, .mtr, .log] s (State.tick s) := by
  unfold Sys2Proof.Machine.State.tick
  try dsimp only
  repeat' first
    | with_reducible
        first
          | apply Law.refl | apply Law.ite | apply Law.next ?_ (State.logWiped_law _) ?_ | decide
    | with_reducible apply Law.mk ?_

end Sys2Proof.Laws
end

