-- ==== Sys2Proof/Laws/Rows.lean ====
section
/-! SUPPORT. One law for each row that no other row runs: it answers a next state, changes at most the listed parts, and
breaks no promise. -/

-- One theorem after another: side by side they need more threads than the memory limit allows.
set_option Elab.async false

namespace Sys2Proof.Laws

open Sys2Proof Sys2Proof.Machine Sys2Proof.Safety

theorem execHeatherSample_law (site : Nat) (raw : Int) (bias : Bias) (s : State) :
    LawO [.out, .nvme, .sqs, .qrecs, .ctxs, .lat, .thm, .evt, .log] s (execHeatherSample site raw bias s) := by
  unfold Sys2Proof.Machine.execHeatherSample
  try dsimp only
  repeat' first
    | with_reducible
        first
          | apply Law.refl | apply Law.ite | apply LawO.next | apply LawO.ite
          | apply Law.next ?_ (State.floorEval_law _) ?_ | apply Law.next ?_ (State.siteBreak_law _ _ _) ?_
          | apply Law.next ?_ (State.siteSample_law _ _ _) ?_ | apply Law.next ?_ (State.aenRaise_law _ _ _ _) ?_
          | decide

theorem execStepDown_law (s : State) :
    LawO [.thm] s (execStepDown s) := by
  unfold Sys2Proof.Machine.execStepDown
  try dsimp only
  repeat' first
    | with_reducible
        first
          | apply Law.refl | apply Law.ite | apply LawO.next | apply LawO.ite
    | with_reducible apply Law.mk ?_

theorem execTapChange_law (region : Nat) (s : State) :
    LawO [.thm] s (execTapChange region s) := by
  unfold Sys2Proof.Machine.execTapChange
  try dsimp only
  repeat' first
    | with_reducible
        first
          | apply Law.refl | apply Law.ite | apply LawO.next | apply LawO.ite
    | with_reducible apply Law.mk ?_

theorem execReplicaPathFailure_law (region : Nat) (s : State) :
    LawO [.out, .thm, .evt, .log] s (execReplicaPathFailure region s) := by
  unfold Sys2Proof.Machine.execReplicaPathFailure
  try dsimp only
  repeat' first
    | with_reducible
        first
          | apply Law.refl | apply LawO.next | apply LawO.ite | apply Law.next ?_ (State.fire_law _ _ _ _ _ _) ?_
          | decide
    | with_reducible apply Law.mk ?_

theorem execEqualisationRefresh_law (port : Nat) (s : State) :
    LawO [.cas] s (execEqualisationRefresh port s) := by
  unfold Sys2Proof.Machine.execEqualisationRefresh
  try dsimp only
  repeat' first
    | with_reducible
        first
          | apply Law.refl | apply Law.ite | apply LawO.next | apply LawO.ite
          | apply Law.next ?_ (State.portEdit_law _ _ _) ?_ | decide

theorem execWriteCmd_law (ctx : Nat) (s : State) :
    LawO [.out, .sqs, .qrecs, .ctxs, .slices, .gate, .staging, .bpm, .dma, .key, .evt, .log] s (execWriteCmd ctx s) := by
  unfold Sys2Proof.Machine.execWriteCmd
  try dsimp only
  repeat' first
    | with_reducible
        first
          | apply Law.refl | apply LawO.next | apply LawO.ite | apply Law.next ?_ (State.admitIo_law _ _ _ _ _) ?_
          | decide

theorem execZoneAppend_law (ctx : Nat) (s : State) :
    LawO [.out, .sqs, .qrecs, .ctxs, .slices, .gate, .staging, .bpm, .dma, .key, .evt, .log] s (execZoneAppend ctx s) := by
  unfold Sys2Proof.Machine.execZoneAppend
  try dsimp only
  repeat' first
    | with_reducible
        first
          | apply Law.refl | apply LawO.next | apply LawO.ite | apply Law.next ?_ (State.admitIo_law _ _ _ _ _) ?_
          | decide

theorem execCheckpointPersisted_law (value : Nat) (s : State) :
    LawO [.gate, .dma, .nv] s (execCheckpointPersisted value s) := by
  unfold Sys2Proof.Machine.execCheckpointPersisted
  try dsimp only
  repeat' first
    | with_reducible
        first
          | apply Law.refl | apply Law.ite | apply LawO.next | apply LawO.ite
    | with_reducible apply Law.mk ?_

theorem execCreateIoCq_law (ctx : Nat) (s : State) :
    LawO [.sqs, .cqs, .qrecs, .ctxs, .gate, .dma] s (execCreateIoCq ctx s) := by
  unfold Sys2Proof.Machine.execCreateIoCq
  try dsimp only
  repeat' first
    | with_reducible
        first
          | apply Law.refl | exact Law.idle | apply LawO.next | apply LawO.ite
          | apply Law.next ?_ (State.admitAdmin_law _ _ _ _ (r := [.sqs, .cqs, .qrecs, .ctxs, .gate, .dma]) ?_ ?_) ?_
          | apply Law.next ?_ (State.finish_law _ _ _ _ _ _) ?_ | apply Law.next ?_ (State.adminDone_law _ _ _ _) ?_
          | decide | (exact fun u => Law.refl u)
    | (intro _; try dsimp only)
    | split
    | with_reducible apply Law.mk ?_

theorem execCreateIoSq_law (ctx : Nat) (s : State) :
    LawO [.sqs, .qrecs, .ctxs, .gate, .dma] s (execCreateIoSq ctx s) := by
  unfold Sys2Proof.Machine.execCreateIoSq
  try dsimp only
  repeat' first
    | with_reducible
        first
          | apply Law.refl | exact Law.idle | apply LawO.next | apply LawO.ite
          | apply Law.next ?_ (State.admitAdmin_law _ _ _ _ (r := [.sqs, .qrecs, .ctxs, .gate, .dma]) ?_ ?_) ?_
          | apply Law.next ?_ (State.finish_law _ _ _ _ _ _) ?_ | apply Law.next ?_ (State.adminDone_law _ _ _ _) ?_
          | decide | (exact fun u => Law.refl u)
    | (intro _; try dsimp only)
    | split
    | with_reducible apply Law.mk ?_

theorem execDeleteIoSq_law (ctx : Nat) (s : State) :
    LawO [.sqs, .qrecs, .ctxs, .gate, .dma] s (execDeleteIoSq ctx s) := by
  unfold Sys2Proof.Machine.execDeleteIoSq
  try dsimp only
  repeat' first
    | with_reducible
        first
          | apply Law.refl | exact Law.idle | apply Law.ite | apply LawO.next | apply LawO.ite
          | apply Law.next ?_ (State.sqGone_law _ _ _) ?_
          | apply Law.next ?_ (State.admitAdmin_law _ _ _ _ (r := [.sqs, .qrecs, .ctxs, .gate, .dma]) ?_ ?_) ?_
          | apply Law.next ?_ (State.finish_law _ _ _ _ _ _) ?_ | apply Law.next ?_ (State.flushHeld_law _ _) ?_
          | apply Law.next ?_ (State.stampCtx_law _ _) ?_ | decide | (exact fun u => Law.refl u)
    | (intro _; try dsimp only)
    | split
    | with_reducible apply Law.mk ?_

theorem execDeleteIoCq_law (ctx : Nat) (s : State) :
    LawO [.sqs, .cqs, .qrecs, .ctxs, .gate, .dma] s (execDeleteIoCq ctx s) := by
  unfold Sys2Proof.Machine.execDeleteIoCq
  try dsimp only
  repeat' first
    | with_reducible
        first
          | apply Law.refl | exact Law.idle | apply Law.ite | apply LawO.next | apply LawO.ite
          | apply Law.next ?_ (State.admitAdmin_law _ _ _ _ (r := [.sqs, .cqs, .qrecs, .ctxs, .gate, .dma]) ?_ ?_) ?_
          | apply Law.next ?_ (State.finish_law _ _ _ _ _ _) ?_ | apply Law.next ?_ (State.adminDone_law _ _ _ _) ?_
          | decide | (exact fun u => Law.refl u)
    | (intro _; try dsimp only)
    | with_reducible apply Law.mk ?_

theorem execBar4CheckFailure_law (slice : Nat) (pasid : Option Nat) (isWrite : Bool) (offset : Nat) (s : State) :
    LawO [.out, .pci, .evt, .log] s (execBar4CheckFailure slice pasid isWrite offset s) := by
  unfold Sys2Proof.Machine.execBar4CheckFailure
  try dsimp only
  repeat' first
    | with_reducible
        first
          | apply Law.refl | apply Law.ite | apply LawO.next | apply LawO.ite
          | apply Law.next ?_ (State.bar4Fail_law _ _ _ _ _) ?_ | apply Law.next ?_ (State.say_law _ _) ?_ | decide

theorem execSubmissionFetch_law (q : Nat) (e : SqEntry) (s : State) :
    LawO [.sqs, .ctxs, .gate, .bpm, .sward] s (execSubmissionFetch q e s) := by
  unfold Sys2Proof.Machine.execSubmissionFetch
  try dsimp only
  repeat' first
    | with_reducible
        first
          | apply Law.refl | apply Law.ite | apply LawO.next | apply LawO.ite
          | apply Law.next ?_ (State.rungWait_law _ _) ?_ | apply Law.next ?_ (State.flits_law _ _ _ _) ?_ | decide
    | split
    | with_reducible apply Law.mk ?_

theorem execUnitEntersScheduler_law (ctx : Nat) (unit : Nat) (s : State) :
    LawO [.out, .nvme, .sqs, .qrecs, .ctxs, .slices, .bpm, .sward, .blocks, .dies, .fch, .lat, .cas, .evt, .log] s (execUnitEntersScheduler ctx unit s) := by
  unfold Sys2Proof.Machine.execUnitEntersScheduler
  try dsimp only
  repeat' first
    | with_reducible
        first
          | apply Law.refl | apply Law.ite | apply LawO.next | apply LawO.ite
          | apply Law.next ?_ (State.unitEnter_law _ _ _ _ _) ?_ | decide
    | split

theorem execDieNextChoice_law (die : Nat) (s : State) :
    LawO [.ctxs, .slices, .bpm, .sward, .dies, .fch, .lat] s (execDieNextChoice die s) := by
  unfold Sys2Proof.Machine.execDieNextChoice
  try dsimp only
  repeat' first
    | with_reducible
        first
          | apply Law.refl | apply Law.ite | apply LawO.next | apply LawO.ite
          | apply Law.next ?_ (State.opResume_law _ _ _) ?_ | apply Law.next ?_ (State.opStart_law _ _ _) ?_
          | apply Law.next ?_ (State.dieEdit_law _ _ _) ?_ | decide
    | split

theorem execDutyEvaluation_law (die : Nat) (pct : Nat) (sharePct : Nat) (s : State) :
    LawO [.dies, .lat] s (execDutyEvaluation die pct sharePct s) := by
  unfold Sys2Proof.Machine.execDutyEvaluation
  try dsimp only
  repeat' first
    | with_reducible
        first
          | apply Law.refl | apply Law.ite | apply LawO.next | apply LawO.ite
          | apply Law.next ?_ (State.dieEdit_law _ _ _) ?_ | apply Law.foldl | apply Law.foldlSnd
          | apply Law.foldlFst | decide
    | (intro _; try dsimp only)
    | with_reducible apply Law.mk ?_

theorem execPageReadComplete_law (op : Nat) (s : State) :
    LawO [.bpm, .sward, .dies, .fch, .mtr] s (execPageReadComplete op s) := by
  unfold Sys2Proof.Machine.execPageReadComplete
  try dsimp only
  repeat' first
    | with_reducible
        first
          | apply Law.refl | apply Law.ite | apply LawO.next | apply LawO.ite
          | apply Law.next ?_ (State.dieIdle_law _ _ _) ?_ | apply Law.next ?_ (State.opEnd_law _ _) ?_
          | apply Law.next ?_ (State.dieEdit_law _ _ _) ?_ | apply Law.next ?_ (State.opEdit_law _ _ _) ?_
          | apply Law.next ?_ (State.flits_law _ _ _ _) ?_ | decide
    | split

theorem execReconstructionDone_law (ctx : Nat) (unit : Nat) (sourcesOk : Bool) (relationOk : Bool) (s : State) :
    LawO [.out, .nvme, .sqs, .qrecs, .ctxs, .bpm, .dma, .sward, .blocks, .dies, .fch, .lat, .cas, .evt, .log] s (execReconstructionDone ctx unit sourcesOk relationOk s) := by
  unfold Sys2Proof.Machine.execReconstructionDone
  try dsimp only
  repeat' first
    | with_reducible
        first
          | apply Law.refl | apply Law.ite | apply LawO.next | apply LawO.ite
          | apply Law.next ?_ (State.noteStep_law _ _ _ _) ?_ | apply Law.next ?_ (State.unitRelease_law _ _ _ _) ?_
          | apply Law.next ?_ (State.runitEdit_law _ _ _ _) ?_ | apply Law.next ?_ (State.unrecovered_law _ _ _) ?_
          | apply Law.next ?_ (State.aroundFail_law _ _ _ _ _) ?_ | decide
    | split

theorem execSuspendComplete_law (die : Nat) (s : State) :
    LawO [.dies, .fch] s (execSuspendComplete die s) := by
  unfold Sys2Proof.Machine.execSuspendComplete
  try dsimp only
  repeat' first
    | with_reducible
        first
          | apply Law.refl | apply Law.ite | apply LawO.next | apply LawO.ite
          | apply Law.next ?_ (State.opEdit_law _ _ _) ?_ | apply Law.next ?_ (State.dieEdit_law _ _ _) ?_ | decide
    | split

theorem execDieFailure_law (die : Nat) (cause : Nat) (s : State) :
    LawO [.out, .nvme, .sqs, .qrecs, .ctxs, .slices, .zones, .gate, .staging, .toks, .bpm, .dma, .sward, .blocks, .dies, .flash, .fch, .zne, .par, .lat, .key, .cas, .nv, .evt, .log] s (execDieFailure die cause s) := by
  unfold Sys2Proof.Machine.execDieFailure
  try dsimp only
  repeat' first
    | with_reducible
        first
          | apply Law.refl | apply Law.ite | apply LawO.next | apply LawO.ite
          | apply Law.next ?_ (State.casSend_law _ _ _ _ _ _) ?_ | apply Law.next ?_ (State.mediaEvent_law _ _) ?_
          | decide

theorem execProgramFailure_law (die : Nat) (block : Nat) (row : Nat) (s : State) :
    LawO [.out, .nvme, .sqs, .qrecs, .ctxs, .slices, .zones, .gate, .staging, .toks, .bpm, .dma, .sward, .blocks, .dies, .flash, .fch, .zne, .par, .lat, .key, .cas, .nv, .evt, .log] s (execProgramFailure die block row s) := by
  unfold Sys2Proof.Machine.execProgramFailure
  try dsimp only
  repeat' first
    | with_reducible
        first
          | apply Law.refl | apply Law.ite | apply LawO.next | apply LawO.ite
          | apply Law.next ?_ (State.casSend_law _ _ _ _ _ _) ?_ | apply Law.next ?_ (State.mediaEvent_law _ _) ?_
          | decide

theorem execCodewordDecodeDone_law (op : Nat) (unit : Nat) (syndromeZero : Bool) (crcOk : Bool) (tagOk : Bool) (weight : Nat) (s : State) :
    LawO [.out, .nvme, .sqs, .qrecs, .ctxs, .slices, .zones, .gate, .staging, .toks, .bpm, .dma, .sward, .blocks, .dies, .flash, .fch, .zne, .par, .lat, .key, .cas, .nv, .evt, .log] s (execCodewordDecodeDone op unit syndromeZero crcOk tagOk weight s) := by
  unfold Sys2Proof.Machine.execCodewordDecodeDone
  try dsimp only
  repeat' first
    | with_reducible
        first
          | apply Law.refl | apply Law.ite | apply LawO.next | apply LawO.ite
          | apply Law.next ?_ (State.opEdit_law _ _ _) ?_ | apply Law.next ?_ (State.flits_law _ _ _ _) ?_
          | apply Law.next ?_ (State.opStep_law _ _) ?_
          | apply Law.next ?_ (State.directDecoded_law _ _ _ _ _ _ _ _ _) ?_
          | apply Law.next ?_ (State.helperDecoded_law _ _ _ _ _ _ _) ?_
          | apply Law.next ?_ (State.srcDecoded_law _ _ _ _ _ _ _ _) ?_
          | apply Law.next ?_ (State.srcSettle_law _ _ _) ?_ | apply Law.next ?_ (State.mediaRun_law _ _) ?_
          | decide
    | split

theorem execPageProgramComplete_law (op : Nat) (pass : Bool) (dieTemp : Nat) (s : State) :
    LawO [.out, .nvme, .sqs, .qrecs, .ctxs, .slices, .zones, .gate, .staging, .toks, .bpm, .dma, .sward, .blocks, .dies, .flash, .fch, .zne, .par, .key, .mtr, .nv, .evt, .log] s (execPageProgramComplete op pass dieTemp s) := by
  unfold Sys2Proof.Machine.execPageProgramComplete
  try dsimp only
  repeat' first
    | with_reducible
        first
          | apply Law.refl | apply Law.ite | apply LawO.next | apply LawO.ite
          | apply Law.next ?_ (State.dieIdle_law _ _ _) ?_ | apply Law.next ?_ (State.chnEdit_law _ _ _) ?_
          | apply Law.next ?_ (State.blkEdit_law _ _ _) ?_ | apply Law.next ?_ (State.opEnd_law _ _) ?_
          | apply Law.next ?_ (State.setDone_law _ _ _) ?_ | apply Law.next ?_ (State.flashWipe_law _ _) ?_
          | apply Law.next ?_ (State.opEdit_law _ _ _) ?_ | apply Law.next ?_ (State.noteRow_law _ _ _ _ _) ?_
          | apply Law.next ?_ (State.opContent_law _ _) ?_ | decide
    | split

theorem execBlockEraseComplete_law (op : Nat) (pass : Bool) (s : State) :
    LawO [.out, .nvme, .sqs, .qrecs, .ctxs, .slices, .zones, .gate, .staging, .toks, .bpm, .dma, .sward, .blocks, .dies, .flash, .fch, .zne, .par, .lat, .key, .cas, .mtr, .nv, .evt, .log] s (execBlockEraseComplete op pass s) := by
  unfold Sys2Proof.Machine.execBlockEraseComplete
  try dsimp only
  repeat' first
    | with_reducible
        first
          | apply Law.refl | apply Law.ite | apply LawO.next | apply LawO.ite
          | apply Law.next ?_ (State.opEnd_law _ _) ?_ | apply Law.next ?_ (State.dieIdle_law _ _ _) ?_
          | apply Law.next ?_ (State.retireCheck_law _ _) ?_ | apply Law.next ?_ (State.slcWaiters_law _ _) ?_
          | apply Law.next ?_ (State.setDone_law _ _ _) ?_ | apply Law.next ?_ (State.erased_law _ _ _) ?_
          | apply Law.next ?_ (State.mediaRun_law _ _) ?_ | apply Law.next ?_ (State.chnEdit_law _ _ _) ?_
          | apply Law.next ?_ (State.mediaEvent_law _ _) ?_ | apply Law.next ?_ (State.casSend_law _ _ _ _ _ _) ?_
          | decide
    | split

theorem execOperationTimeout_law (op : Nat) (s : State) :
    LawO [.out, .nvme, .sqs, .qrecs, .ctxs, .slices, .zones, .gate, .staging, .toks, .bpm, .dma, .sward, .blocks, .dies, .flash, .fch, .zne, .par, .lat, .key, .cas, .nv, .evt, .log] s (execOperationTimeout op s) := by
  unfold Sys2Proof.Machine.execOperationTimeout
  try dsimp only
  repeat' first
    | with_reducible
        first
          | apply Law.refl | apply Law.ite | apply LawO.next | apply LawO.ite
          | apply Law.next ?_ (State.fire_law _ _ _ _ _ _) ?_ | apply Law.next ?_ (State.chnEdit_law _ _ _) ?_
          | apply Law.next ?_ (State.blkEdit_law _ _ _) ?_ | apply Law.next ?_ (State.mediaEvent_law _ _) ?_
          | apply Law.next ?_ (State.casSend_law _ _ _ _ _ _) ?_ | apply Law.next ?_ (State.dieEdit_law _ _ _) ?_
          | apply Law.next ?_ (State.opEdit_law _ _ _) ?_ | decide
    | split

theorem execRebuildRowFinished_law (zone : Nat) (row : Nat) (s : State) :
    LawO [.out, .nvme, .sqs, .qrecs, .ctxs, .slices, .zones, .gate, .staging, .toks, .bpm, .dma, .sward, .blocks, .dies, .flash, .fch, .zne, .par, .lat, .key, .cas, .nv, .evt, .log] s (execRebuildRowFinished zone row s) := by
  unfold Sys2Proof.Machine.execRebuildRowFinished
  try dsimp only
  repeat' first
    | with_reducible
        first
          | apply Law.refl | apply Law.ite | apply LawO.next | apply LawO.ite
          | apply Law.next ?_ (State.casSend_law _ _ _ _ _ _) ?_ | apply Law.next ?_ (State.mediaEvent_law _ _) ?_
          | decide
    | split

theorem execMigrationCopyDone_law (zone : Nat) (s : State) :
    LawO [.out, .nvme, .sqs, .qrecs, .ctxs, .slices, .zones, .gate, .staging, .toks, .bpm, .dma, .sward, .blocks, .dies, .flash, .fch, .zne, .par, .lat, .key, .cas, .nv, .evt, .log] s (execMigrationCopyDone zone s) := by
  unfold Sys2Proof.Machine.execMigrationCopyDone
  try dsimp only
  repeat' first
    | with_reducible
        first
          | apply Law.refl | apply Law.ite | apply LawO.next | apply LawO.ite
          | apply Law.next ?_ (State.casSend_law _ _ _ _ _ _) ?_ | apply Law.next ?_ (State.mediaEvent_law _ _) ?_
          | decide

theorem execChannelRetrain_law (ch : Nat) (pass : Bool) (eyeRd eyeWr : Nat) (later : List (Option (Nat × Nat))) (s : State) :
    LawO [.out, .nvme, .sqs, .qrecs, .ctxs, .slices, .zones, .gate, .staging, .toks, .bpm, .dma, .sward, .blocks, .dies, .flash, .fch, .zne, .par, .lat, .key, .cas, .nv, .evt, .log] s (execChannelRetrain ch pass eyeRd eyeWr later s) := by
  unfold Sys2Proof.Machine.execChannelRetrain
  try dsimp only
  repeat' first
    | with_reducible
        first
          | apply Law.refl | apply Law.ite | apply LawO.next | apply LawO.ite
          | apply Law.next ?_ (State.chnEdit_law _ _ _) ?_ | apply Law.next ?_ (State.fire_law _ _ _ _ _ _) ?_
          | apply Law.next ?_ (State.diesFail_law _ _ _) ?_ | decide
    | split

theorem execVoltageGlitch_law (detail : Nat) (standing : Bool) (s : State) :
    LawO [.free, .out, .nvme, .sqs, .qrecs, .ctxs, .slices, .zones, .gate, .staging, .toks, .bpm, .dma, .sward, .blocks, .dies, .fch, .zne, .par, .key, .cas, .evt, .log] s (execVoltageGlitch detail standing s) := by
  unfold Sys2Proof.Machine.execVoltageGlitch
  try dsimp only
  repeat' first
    | with_reducible
        first
          | apply Law.refl | apply Law.ite | apply LawO.next | apply LawO.ite
          | apply Law.next ?_ (State.alarm_law _ _ _) ?_ | decide
    | with_reducible apply Law.mk ?_

theorem execDieShieldCheck_law (pass : Bool) (segment : Nat) (s : State) :
    LawO [.free, .out, .nvme, .sqs, .qrecs, .ctxs, .slices, .zones, .gate, .staging, .toks, .bpm, .dma, .sward, .blocks, .dies, .fch, .zne, .par, .key, .cas, .evt, .log] s (execDieShieldCheck pass segment s) := by
  unfold Sys2Proof.Machine.execDieShieldCheck
  try dsimp only
  repeat' first
    | with_reducible
        first
          | apply Law.refl | apply Law.ite | apply LawO.next | apply LawO.ite
          | apply Law.next ?_ (State.alarm_law _ _ _) ?_ | decide
    | with_reducible apply Law.mk ?_

theorem execAlarmLatchClear_law (mask : Nat) (s : State) :
    LawO [.evt] s (execAlarmLatchClear mask s) := by
  unfold Sys2Proof.Machine.execAlarmLatchClear
  try dsimp only
  repeat' first
    | with_reducible
        first
          | apply Law.refl | apply LawO.next | apply LawO.ite | apply Law.next ?_ (State.latchClear_law _ _) ?_
          | decide

theorem execLogClear_law (s : State) :
    LawO [.log] s (execLogClear s) := by
  unfold Sys2Proof.Machine.execLogClear
  try dsimp only
  repeat' first
    | with_reducible
        first
          | apply Law.refl | apply LawO.next | apply LawO.ite | apply Law.next ?_ (State.logWipe_law _) ?_ | decide

theorem execEflOperationComplete_law (s : State) :
    LawO [.efl] s (execEflOperationComplete s) := by
  unfold Sys2Proof.Machine.execEflOperationComplete
  have base : ∀ f : Efl → Efl, EflLaw s.efl (f s.efl) → LawO [.efl] s (.next (s.eflEdit f)) :=
    fun f h => LawO.next (Law.next (Law.refl _) (State.eflEdit_law s f h) (by decide))
  dsimp only
  refine ite_cases (fun _ => LawO.next (Law.refl _)) fun hb => ?_
  have busy : s.efl.busy = true := by simpa using hb
  refine ite_cases (fun r => ?_) fun r => ite_cases (fun k2 => ?_) fun k2 => ?_
  · have no : EflOk s.efl → s.efl.level = 2 → False := fun o l => by
      have := (o.2 l busy).1
      rw [r] at this
      exact absurd this (by decide)
    split
    · exact base _ ⟨fun m => Tbl.wf_filter m,
        fun o => ⟨⟨fun _ => busy, fun l _ => (no o (level_eraseSec_two l)).elim⟩, fun l => (no o l).elim⟩⟩
    · exact base _ ⟨fun m => Tbl.wf_filter m,
        fun o => ⟨⟨fun k => (nomatch k), fun l _ => (no o (level_eraseSec_two l)).elim⟩, fun l => (no o l).elim⟩⟩
  · have r0 : s.efl.rdpBusy = false := by simpa using r
    refine base _ ⟨fun m => Tbl.wf_put m, fun o => ⟨⟨fun k => ?_, fun _ k => (nomatch k)⟩, fun l => ?_⟩⟩
    · exact absurd (r0.symm.trans k) (by decide)
    · exact (level_put rfl ((o.2 l busy).2.1 k2)).trans l
  · have r0 : s.efl.rdpBusy = false := by simpa using r
    refine base _ ⟨fun m => Tbl.wf_filter m, fun o => ⟨⟨fun k => ?_, fun _ k => (nomatch k)⟩, fun l => ?_⟩⟩
    · exact absurd (r0.symm.trans k) (by decide)
    · exact (level_eraseSec ((o.2 l busy).2.2 k2)).trans l

theorem execBusError_law (q : Nat) (ctx : Nat) (cause : BusCause) (src : BusSource) (addr : Word) (unit : Nat) (s : State) :
    LawO [.out, .sqs, .qrecs, .ctxs, .slices, .zones, .gate, .staging, .toks, .bpm, .dma, .sward, .dies, .fch, .par, .key, .evt, .log] s (execBusError q ctx cause src addr unit s) := by
  unfold Sys2Proof.Machine.execBusError
  try dsimp only
  repeat' first
    | with_reducible
        first
          | apply Law.refl | apply LawO.next | apply LawO.ite
          | apply Law.next ?_ (State.busEvent_law _ _ _ _ _ _ _) ?_ | decide

theorem execDmaCompletionTimeout_law (q : Nat) (ctx : Nat) (src : BusSource) (addr : Word) (unit : Nat) (s : State) :
    LawO [.out, .sqs, .qrecs, .ctxs, .slices, .zones, .gate, .staging, .toks, .bpm, .dma, .sward, .dies, .fch, .par, .key, .evt, .log] s (execDmaCompletionTimeout q ctx src addr unit s) := by
  unfold Sys2Proof.Machine.execDmaCompletionTimeout
  try dsimp only
  repeat' first
    | with_reducible
        first
          | apply Law.refl | apply LawO.next | apply LawO.ite
          | apply Law.next ?_ (State.busEvent_law _ _ _ _ _ _ _) ?_ | decide

theorem execUnitTransferDone_law (ctx : Nat) (unit : Nat) (body : Nat × Nat) (host : List (Nat × Nat)) (o : UnitOutcome) (s : State) :
    LawO [.free, .out, .nvme, .sqs, .qrecs, .ctxs, .slices, .zones, .gate, .staging, .toks, .bpm, .dma, .sward, .blocks, .dies, .fch, .zne, .par, .key, .cas, .evt, .log] s (execUnitTransferDone ctx unit body host o s) := by
  unfold Sys2Proof.Machine.execUnitTransferDone
  try dsimp only
  repeat' first
    | with_reducible
        first
          | apply Law.refl | exact Law.idle | apply Law.ite | apply LawO.next | apply LawO.ite
          | apply Law.next ?_ (State.ctxEdit_law _ _ _) ?_
          | apply Law.next ?_ (State.walked_law _ _ _ _ _ _ (r := [.free, .out, .nvme, .sqs, .qrecs, .ctxs, .slices, .zones, .gate, .staging, .toks, .bpm, .dma, .sward, .blocks, .dies, .fch, .zne, .par, .key, .cas, .evt, .log]) ?_ ?_) ?_
          | apply Law.next ?_ (State.gauntlet_law _ _ _ _ (r := [.free, .out, .nvme, .sqs, .qrecs, .ctxs, .slices, .zones, .gate, .staging, .toks, .bpm, .dma, .sward, .blocks, .dies, .fch, .zne, .par, .key, .cas, .evt, .log]) ?_ ?_) ?_
          | apply Law.next ?_ (State.unitDone_law _ _ _ _ _ _ _ _ (r := [.free, .out, .nvme, .sqs, .qrecs, .ctxs, .slices, .zones, .gate, .staging, .toks, .bpm, .dma, .sward, .blocks, .dies, .fch, .zne, .par, .key, .cas, .evt, .log]) ?_ ?_) ?_
          | apply Law.next ?_ (State.unitIn_law _ _ _ _ _ _) ?_ | apply Law.next ?_ (State.unitOut_law _ _ _ _ _) ?_
          | decide | (exact fun u => Law.refl u)
    | (intro _; try dsimp only)
    | split

theorem execFenceAcknowledged_law (k : FenceKind) (tag : Nat) (s : State) :
    LawO [.dma] s (execFenceAcknowledged k tag s) := by
  unfold Sys2Proof.Machine.execFenceAcknowledged
  try dsimp only
  repeat' first
    | with_reducible
        first
          | apply Law.refl | apply LawO.next | apply LawO.ite
    | with_reducible apply Law.mk ?_

theorem execHayrickCacheRefill_law (store : Nat) (s : State) :
    LawO [.free, .bpm] s (execHayrickCacheRefill store s) := by
  unfold Sys2Proof.Machine.execHayrickCacheRefill
  try dsimp only
  repeat' first
    | with_reducible
        first
          | apply Law.refl | apply Law.ite | apply LawO.next | apply LawO.ite
          | apply Law.next ?_ (State.freeStep_law _) ?_ | decide
    | with_reducible apply Law.mk ?_

theorem execCreateSlice_law (ctx : Nat) (d : SliceData) (s : State) :
    LawO [.free, .out, .sqs, .cqs, .qrecs, .ctxs, .slices, .gate, .dma, .sward, .lat, .key, .cas, .mtr, .nv, .evt, .log] s (execCreateSlice ctx d s) := by
  unfold Sys2Proof.Machine.execCreateSlice
  try dsimp only
  repeat' first
    | with_reducible
        first
          | apply Law.refl | exact Law.idle | apply Law.ite | apply LawO.next | apply LawO.ite
          | apply Law.next ?_ (State.admitAdmin_law _ _ _ _ (r := [.free, .out, .sqs, .cqs, .qrecs, .ctxs, .slices, .gate, .dma, .sward, .lat, .key, .cas, .mtr, .nv, .evt, .log]) ?_ ?_) ?_
          | apply Law.next ?_ (State.finish_law _ _ _ _ _ _) ?_ | apply Law.next ?_ (State.fire_law _ _ _ _ _ _) ?_
          | apply Law.next ?_ (State.sliceTold_law _ _ _) ?_ | apply Law.next ?_ (State.stampCtx_law _ _) ?_
          | apply Law.next ?_ (State.ledger_law _) ?_ | apply Law.next ?_ (State.sliceMake_law _ _ _ _) ?_ | decide
          | (exact fun u => Law.refl u)
    | (intro _; try dsimp only)
    | split

theorem execQuiesce_law (ctx : Nat) (d : SliceData) (s : State) :
    LawO [.out, .sqs, .qrecs, .ctxs, .slices, .gate, .dma, .evt] s (execQuiesce ctx d s) := by
  unfold Sys2Proof.Machine.execQuiesce
  try dsimp only
  repeat' first
    | with_reducible
        first
          | apply Law.refl | exact Law.idle | apply LawO.next | apply LawO.ite
          | apply Law.next ?_ (State.sliceRes_law _ _ _ _ _ (r := [.out, .sqs, .qrecs, .ctxs, .slices, .gate, .dma, .evt]) ?_ ?_) ?_
          | apply Law.next ?_ (State.quiesceCheck_law _ _) ?_ | apply Law.next ?_ (State.stateNotice_law _ _) ?_
          | apply Law.next ?_ (State.sliceEdit_law _ _ _) ?_ | apply Law.next ?_ (State.stampCtx_law _ _) ?_
          | apply Law.next ?_ (State.adminDone_law _ _ _ _) ?_ | decide | (exact fun u => Law.refl u)
    | (intro _; try dsimp only)
    | split

theorem execQuiesceTimeout_law (slice : Nat) (s : State) :
    LawO [.out, .sqs, .qrecs, .ctxs, .slices, .evt, .log] s (execQuiesceTimeout slice s) := by
  unfold Sys2Proof.Machine.execQuiesceTimeout
  try dsimp only
  repeat' first
    | with_reducible
        first
          | apply Law.refl | apply Law.ite | apply LawO.next | apply LawO.ite
          | apply Law.next ?_ (State.sliceFreeze_law _ _ _) ?_ | decide

theorem execFreeze_law (ctx : Nat) (d : SliceData) (s : State) :
    LawO [.out, .sqs, .qrecs, .ctxs, .slices, .gate, .dma, .evt, .log] s (execFreeze ctx d s) := by
  unfold Sys2Proof.Machine.execFreeze
  try dsimp only
  repeat' first
    | with_reducible
        first
          | apply Law.refl | exact Law.idle | apply LawO.next | apply LawO.ite
          | apply Law.next ?_ (State.sliceRes_law _ _ _ _ _ (r := [.out, .sqs, .qrecs, .ctxs, .slices, .gate, .dma, .evt, .log]) ?_ ?_) ?_
          | apply Law.next ?_ (State.finish_law _ _ _ _ _ _) ?_ | apply Law.next ?_ (State.sliceFreeze_law _ _ _) ?_
          | apply Law.next ?_ (State.stampCtx_law _ _) ?_ | decide | (exact fun u => Law.refl u)
    | (intro _; try dsimp only)

theorem execResume_law (ctx : Nat) (d : SliceData) (s : State) :
    LawO [.out, .sqs, .qrecs, .ctxs, .slices, .gate, .dma, .evt] s (execResume ctx d s) := by
  unfold Sys2Proof.Machine.execResume
  try dsimp only
  repeat' first
    | with_reducible
        first
          | apply Law.refl | exact Law.idle | apply Law.ite | apply LawO.next | apply LawO.ite
          | apply Law.next ?_ (State.sliceRes_law _ _ _ _ _ (r := [.out, .sqs, .qrecs, .ctxs, .slices, .gate, .dma, .evt]) ?_ ?_) ?_
          | apply Law.next ?_ (State.finish_law _ _ _ _ _ _) ?_ | apply Law.next ?_ (State.lostNotices_law _ _) ?_
          | apply Law.next ?_ (State.stateNotice_law _ _) ?_ | apply Law.next ?_ (State.sliceEdit_law _ _ _) ?_
          | apply Law.next ?_ (State.stampCtx_law _ _) ?_ | decide | (exact fun u => Law.refl u)
    | (intro _; try dsimp only)
    | split

theorem execChange_law (ctx : Nat) (d : SliceData) (s : State) :
    LawO [.out, .sqs, .qrecs, .ctxs, .slices, .gate, .dma, .sward, .cas, .nv, .evt] s (execChange ctx d s) := by
  unfold Sys2Proof.Machine.execChange
  try dsimp only
  repeat' first
    | with_reducible
        first
          | apply Law.refl | exact Law.idle | apply Law.ite | apply LawO.next | apply LawO.ite
          | apply Law.next ?_ (State.sliceRes_law _ _ _ _ _ (r := [.out, .sqs, .qrecs, .ctxs, .slices, .gate, .dma, .sward, .cas, .nv, .evt]) ?_ ?_) ?_
          | apply Law.next ?_ (State.finish_law _ _ _ _ _ _) ?_
          | apply Law.next ?_ (State.changeApply_law _ _ _ _) ?_ | decide | (exact fun u => Law.refl u)
    | (intro _; try dsimp only)
    | split

theorem execDestroySlice_law (ctx : Nat) (s : State) :
    LawO [.out, .sqs, .qrecs, .ctxs, .slices, .zones, .gate, .staging, .toks, .bpm, .dma, .sward, .dies, .fch, .par, .key, .evt, .log] s (execDestroySlice ctx s) := by
  unfold Sys2Proof.Machine.execDestroySlice
  try dsimp only
  repeat' first
    | with_reducible
        first
          | apply Law.refl | exact Law.idle | apply Law.ite | apply LawO.next | apply LawO.ite
          | apply Law.next ?_ (State.admitAdmin_law _ _ _ _ (r := [.out, .sqs, .qrecs, .ctxs, .slices, .zones, .gate, .staging, .toks, .bpm, .dma, .sward, .dies, .fch, .par, .key, .evt, .log]) ?_ ?_) ?_
          | apply Law.next ?_ (State.finish_law _ _ _ _ _ _) ?_ | apply Law.next ?_ (State.destroy_law _ _ _) ?_
          | apply Law.next ?_ (State.stampCtx_law _ _) ?_ | decide | (exact fun u => Law.refl u)
    | (intro _; try dsimp only)

theorem execSliceReturned_law (slice : Nat) (s : State) :
    LawO [.out, .sqs, .cqs, .qrecs, .ctxs, .slices, .toks, .dma, .sward, .lat, .cas, .mtr, .nv, .evt] s (execSliceReturned slice s) := by
  unfold Sys2Proof.Machine.execSliceReturned
  try dsimp only
  repeat' first
    | with_reducible
        first
          | apply Law.refl | apply Law.ite | apply LawO.next | apply LawO.ite
          | apply Law.next ?_ (State.sliceDiscard_law _ _) ?_ | apply Law.next ?_ (State.sliceGone_law _ _) ?_
          | decide

theorem execThawQueue_law (ctx : Nat) (s : State) :
    LawO [.sqs, .qrecs, .ctxs, .gate, .dma] s (execThawQueue ctx s) := by
  unfold Sys2Proof.Machine.execThawQueue
  try dsimp only
  repeat' first
    | with_reducible
        first
          | apply Law.refl | exact Law.idle | apply Law.ite | apply LawO.next | apply LawO.ite
          | apply Law.next ?_ (State.admitAdmin_law _ _ _ _ (r := [.sqs, .qrecs, .ctxs, .gate, .dma]) ?_ ?_) ?_
          | apply Law.next ?_ (State.finish_law _ _ _ _ _ _) ?_ | apply Law.next ?_ (State.adminDone_law _ _ _ _) ?_
          | apply Law.next ?_ (State.thawQ_law _ _) ?_ | decide | (exact fun u => Law.refl u)
    | (intro _; try dsimp only)
    | split

theorem execIntervalClose_law (ppm : Nat) (s : State) :
    LawO [.free, .out, .mtr, .evt, .log] s (execIntervalClose ppm s) := by
  unfold Sys2Proof.Machine.execIntervalClose
  try dsimp only
  repeat' first
    | with_reducible
        first
          | apply Law.refl | apply Law.ite | apply LawO.next | apply LawO.ite
          | apply Law.next ?_ (State.mtrFault_law _ _ ?_) ?_ | apply Law.next ?_ (State.mtrClose_law _ _) ?_
          | assumption | decide | (with_unfolding_all rfl) | (with_unfolding_all exact SealLaw.refl _)
          | (with_unfolding_all exact EflLaw.of rfl rfl rfl rfl rfl rfl)

theorem execAdcSample_law (isnsUv : Int) (vsnsUv : Int) (s : State) :
    LawO [.free, .mtr] s (execAdcSample isnsUv vsnsUv s) := by
  unfold Sys2Proof.Machine.execAdcSample
  try dsimp only
  repeat' first
    | with_reducible
        first
          | apply Law.refl | apply Law.ite | apply LawO.next | apply LawO.ite
          | apply Law.next ?_ (State.freeStep_law _) ?_ | decide
    | with_reducible apply Law.mk ?_

theorem execTallyBatch_law (stamp : Nat) (crownNs : Nat) (rows : List TallyRow) (s : State) :
    LawO [.out, .mtr, .evt, .log] s (execTallyBatch stamp crownNs rows s) := by
  have e : ∀ (l : List TallyRow) (m : Mtr), (l.foldl Mtr.rowTake m).sealCnt = m.sealCnt := fun l => by
    induction l with
    | nil => exact fun _ => rfl
    | cons r l ih =>
      intro m
      rw [List.foldl_cons, ih]
      unfold Mtr.rowTake
      dsimp only
      split <;> rfl
  unfold Sys2Proof.Machine.execTallyBatch
  refine LawO.ite (LawO.next (Law.refl _)) (LawO.ite (LawO.next ?_) (LawO.next ?_))
  · exact Law.next (Law.refl _) (State.mtrFault_law _ _ (SealLaw.refl _)) (by decide)
  · refine Law.next (Law.refl _) (State.mtrEdit_law _ _ ?_) (by decide)
    dsimp only
    rw [e]
    exact SealLaw.refl _

theorem execRecordStored_law (recno : Nat) (s : State) :
    LawO [.free, .mtr] s (execRecordStored recno s) := by
  unfold Sys2Proof.Machine.execRecordStored
  try dsimp only
  repeat' first
    | with_reducible
        first
          | apply Law.refl | apply Law.ite | apply LawO.next | apply LawO.ite
          | apply Law.next ?_ (State.mtrEdit_law _ _ ?_) ?_ | apply Law.next ?_ (State.mtrAckDo_law _ _) ?_
          | apply Law.next ?_ (State.mtrSpace_law _) ?_ | assumption | decide | (with_unfolding_all rfl)
          | (with_unfolding_all exact SealLaw.refl _) | (with_unfolding_all exact EflLaw.of rfl rfl rfl rfl rfl rfl)
    | split

theorem execMeterMerge_law (verified : Bool) (s : State) :
    LawO [.out, .mtr, .evt, .log] s (execMeterMerge verified s) := by
  unfold Sys2Proof.Machine.execMeterMerge
  try dsimp only
  repeat' first
    | with_reducible
        first
          | apply Law.refl | apply Law.ite | apply LawO.next | apply LawO.ite
          | apply Law.next ?_ (State.mtrEdit_law _ _ ?_) ?_ | apply Law.next ?_ (State.fire_law _ _ _ _ _ _) ?_
          | assumption | decide | (with_unfolding_all rfl) | (with_unfolding_all exact SealLaw.refl _)
          | (with_unfolding_all exact EflLaw.of rfl rfl rfl rfl rfl rfl)
    | split

theorem execIslandStart_law (programOk : Bool) (chainOk : Bool) (swid : Dword) (swck : BitVec (OfNat.ofNat 256)) (s : State) :
    LawO [.free, .out, .mtr, .evt, .log] s (execIslandStart programOk chainOk swid swck s) := by
  unfold Sys2Proof.Machine.execIslandStart
  try dsimp only
  repeat' first
    | with_reducible
        first
          | apply Law.refl | apply Law.ite | apply LawO.next | apply LawO.ite
          | apply Law.next ?_ (State.mtrHalt_law _ _) ?_ | apply Law.next ?_ (State.mtrEdit_law _ _ ?_) ?_
          | apply Law.next ?_ (State.freeStep_law _) ?_ | apply Law.next ?_ (State.mtrPut_law _ _) ?_
          | apply Law.next ?_ (State.paramCommit_law _) ?_ | assumption | decide | (with_unfolding_all rfl)
          | (with_unfolding_all exact SealLaw.refl _) | (with_unfolding_all exact EflLaw.of rfl rfl rfl rfl rfl rfl)

theorem execIslandSupplyLoss_law (s : State) :
    LawO [.mtr] s (execIslandSupplyLoss s) := by
  unfold Sys2Proof.Machine.execIslandSupplyLoss
  try dsimp only
  repeat' first
    | with_reducible
        first
          | apply Law.refl | apply LawO.next | apply LawO.ite | apply Law.next ?_ (State.mtrEdit_law _ _ ?_) ?_
          | assumption | decide | (with_unfolding_all rfl) | (with_unfolding_all exact SealLaw.refl _)
          | (with_unfolding_all exact EflLaw.of rfl rfl rfl rfl rfl rfl)
    | split

theorem execHourlyChecksum_law (sum : BitVec (OfNat.ofNat 256)) (s : State) :
    LawO [.out, .mtr, .evt, .log] s (execHourlyChecksum sum s) := by
  unfold Sys2Proof.Machine.execHourlyChecksum
  try dsimp only
  repeat' first
    | with_reducible
        first
          | apply Law.refl | apply LawO.next | apply LawO.ite | apply Law.next ?_ (State.swckCheck_law _ _) ?_
          | decide

theorem execCrystal32kStop_law (s : State) :
    LawO [.out, .mtr, .evt, .log] s (execCrystal32kStop s) := by
  unfold Sys2Proof.Machine.execCrystal32kStop
  try dsimp only
  repeat' first
    | with_reducible
        first
          | apply Law.refl | apply Law.ite | apply LawO.next | apply LawO.ite
          | apply Law.next ?_ (State.mtrFault_law _ _ ?_) ?_ | apply Law.next ?_ (State.mtrEdit_law _ _ ?_) ?_
          | assumption | decide | (with_unfolding_all rfl) | (with_unfolding_all exact SealLaw.refl _)
          | (with_unfolding_all exact EflLaw.of rfl rfl rfl rfl rfl rfl)

theorem execCrystal25mStop_law (s : State) :
    LawO [.out, .mtr, .evt, .log] s (execCrystal25mStop s) := by
  unfold Sys2Proof.Machine.execCrystal25mStop
  try dsimp only
  repeat' first
    | with_reducible
        first
          | apply Law.refl | apply Law.ite | apply LawO.next | apply LawO.ite
          | apply Law.next ?_ (State.mtrEdit_law _ _ ?_) ?_ | apply Law.next ?_ (State.mtrHalt_law _ _) ?_
          | assumption | decide | (with_unfolding_all rfl) | (with_unfolding_all exact SealLaw.refl _)
          | (with_unfolding_all exact EflLaw.of rfl rfl rfl rfl rfl rfl)

theorem execSealChange_law (openLevel : Bool) (s : State) :
    LawO [.free, .out, .mtr, .evt, .log] s (execSealChange openLevel s) := by
  unfold Sys2Proof.Machine.execSealChange
  try dsimp only
  repeat' first
    | with_reducible
        first
          | apply Law.refl | apply Law.ite | apply LawO.next | apply LawO.ite
          | apply Law.next ?_ (State.fire_law _ _ _ _ _ _) ?_ | apply Law.next ?_ (State.mtrEdit_law _ _ ?_) ?_
          | apply Law.next ?_ (State.mtrClose_law _ _) ?_ | apply Law.next ?_ (State.mtrAudit_law _ _ _ _ _ _) ?_
          | assumption | decide | (with_unfolding_all rfl) | (with_unfolding_all exact SealLaw.refl _)
          | (with_unfolding_all exact EflLaw.of rfl rfl rfl rfl rfl rfl)

theorem execMeterFetch_law (ctx : Nat) (s : State) :
    LawO [.out, .sqs, .qrecs, .ctxs, .gate, .dma, .sward, .cas] s (execMeterFetch ctx s) := by
  unfold Sys2Proof.Machine.execMeterFetch
  try dsimp only
  repeat' first
    | with_reducible
        first
          | apply Law.refl | exact Law.idle | apply Law.ite | apply LawO.next | apply LawO.ite
          | apply Law.next ?_ (State.admitAdmin_law _ _ _ _ (r := [.out, .sqs, .qrecs, .ctxs, .gate, .dma, .sward, .cas]) ?_ ?_) ?_
          | apply Law.next ?_ (State.finish_law _ _ _ _ _ _) ?_
          | apply Law.next ?_ (State.casSend_law _ _ _ _ _ _) ?_ | apply Law.next ?_ (State.ctxEdit_law _ _ _) ?_
          | apply Law.next ?_ (State.stampCtx_law _ _) ?_ | apply Law.next ?_ (State.adminDone_law _ _ _ _) ?_
          | apply Law.next ?_ (State.say_law _ _) ?_ | decide | (exact fun u => Law.refl u)
    | (intro _; try dsimp only)
    | split

theorem execBudgetRecompute_law (s : State) :
    LawO [.out, .brm, .evt, .log] s (execBudgetRecompute s) := by
  unfold Sys2Proof.Machine.execBudgetRecompute
  try dsimp only
  repeat' first
    | with_reducible
        first
          | apply Law.refl | apply Law.ite | apply LawO.next | apply LawO.ite
          | apply Law.next ?_ (State.fireBrm_law _ _) ?_ | decide
    | with_reducible apply Law.mk ?_

theorem execHuPfailLow_law (s : State) :
    LawO [.free, .out, .sqs, .qrecs, .ctxs, .slices, .zones, .gate, .staging, .toks, .bpm, .dma, .sward, .blocks, .dies, .flash, .fch, .par, .drc, .key, .cas, .mtr, .pwr, .brm, .mon, .nv, .evt, .log] s (execHuPfailLow s) := by
  unfold Sys2Proof.Machine.execHuPfailLow
  try dsimp only
  repeat' first
    | with_reducible
        first
          | apply Law.refl | apply LawO.next | apply LawO.ite | apply Law.next ?_ (State.saveNow_law _ _) ?_
          | apply Law.next ?_ (State.wakeForSag_law _) ?_ | decide
    | with_reducible apply Law.mk ?_

theorem execInputRailSag_law (s : State) :
    LawO [.free, .out, .sqs, .qrecs, .ctxs, .slices, .zones, .gate, .staging, .toks, .bpm, .dma, .sward, .blocks, .dies, .flash, .fch, .par, .drc, .key, .cas, .mtr, .pwr, .brm, .mon, .nv, .evt, .log] s (execInputRailSag s) := by
  unfold Sys2Proof.Machine.execInputRailSag
  try dsimp only
  repeat' first
    | with_reducible
        first
          | apply Law.refl | apply Law.ite | apply LawO.next | apply LawO.ite
          | apply Law.next ?_ (State.saveNow_law _ _) ?_ | apply Law.next ?_ (State.wakeForSag_law _) ?_ | decide

theorem execCompletionPost_law (ctx : Nat) (s : State) :
    LawO [.free, .out, .nvme, .sqs, .cqs, .qrecs, .ctxs, .slices, .zones, .gate, .staging, .toks, .bpm, .dma, .sward, .blocks, .dies, .flash, .fch, .par, .lat, .key, .mtr, .brm, .nv, .evt, .log] s (execCompletionPost ctx s) := by
  unfold Sys2Proof.Machine.execCompletionPost
  try dsimp only
  repeat' first
    | with_reducible
        first
          | apply Law.refl | apply LawO.next | apply LawO.ite | apply Law.next ?_ (State.saveGo_law _) ?_
          | apply Law.next ?_ (State.postCompletion_law _ _) ?_ | decide

theorem execChargerRegulation_law (s : State) :
    LawO [.out, .brm, .evt, .log] s (execChargerRegulation s) := by
  unfold Sys2Proof.Machine.execChargerRegulation
  try dsimp only
  repeat' first
    | with_reducible
        first
          | apply Law.refl | apply Law.ite | apply LawO.next | apply LawO.ite
          | apply Law.next ?_ (State.fireBrm_law _ _) ?_ | decide
    | with_reducible apply Law.mk ?_

theorem execTestPeriodExpiry_law (m : BankMeas) (s : State) :
    LawO [.free, .out, .nvme, .sqs, .qrecs, .ctxs, .slices, .zones, .gate, .staging, .toks, .bpm, .dma, .sward, .blocks, .dies, .flash, .fch, .par, .key, .cas, .mtr, .brm, .nv, .evt, .log] s (execTestPeriodExpiry m s) := by
  unfold Sys2Proof.Machine.execTestPeriodExpiry
  try dsimp only
  repeat' first
    | with_reducible
        first
          | apply Law.refl | apply LawO.next | apply LawO.ite | apply Law.next ?_ (State.bankTest_law _ _) ?_
          | decide

theorem execBrimTestRetry_law (m : BankMeas) (s : State) :
    LawO [.free, .out, .nvme, .sqs, .qrecs, .ctxs, .slices, .zones, .gate, .staging, .toks, .bpm, .dma, .sward, .blocks, .dies, .flash, .fch, .par, .key, .cas, .mtr, .brm, .nv, .evt, .log] s (execBrimTestRetry m s) := by
  unfold Sys2Proof.Machine.execBrimTestRetry
  try dsimp only
  repeat' first
    | with_reducible
        first
          | apply Law.refl | apply Law.ite | apply LawO.next | apply LawO.ite
          | apply Law.next ?_ (State.bankTest_law _ _) ?_ | decide

theorem execThistleConversion_law (chan : Nat) (code : Nat) (ovHi : Bool) (ovLo : Bool) (s : State) :
    LawO [.out, .brm, .mon, .evt, .log] s (execThistleConversion chan code ovHi ovLo s) := by
  unfold Sys2Proof.Machine.execThistleConversion
  try dsimp only
  repeat' first
    | with_reducible
        first
          | apply Law.refl | apply Law.ite | apply LawO.next | apply LawO.ite
          | apply Law.next ?_ (State.fire_law _ _ _ _ _ _) ?_ | apply Law.next ?_ (State.bankSample_law _ _) ?_
          | apply Law.next ?_ (State.fireBrm_law _ _) ?_ | decide
    | with_reducible apply Law.mk ?_

theorem execStopEntry_law (elapsedMs : Nat) (sources : List WakeSrc × Nat) (s : State) :
    LawO [.free, .out, .sward, .drc, .cas, .pwr, .mon] s (execStopEntry elapsedMs sources s) := by
  unfold Sys2Proof.Machine.execStopEntry
  try dsimp only
  repeat' first
    | with_reducible
        first
          | apply Law.refl | apply Law.ite | apply LawO.next | apply LawO.ite
          | apply Law.next ?_ (State.casSend_law _ _ _ _ _ _) ?_ | apply Law.next ?_ (State.dramHeld_law _ _) ?_
          | apply Law.next ?_ (State.enterStop_law _) ?_ | apply Law.foldl | apply Law.foldlSnd | apply Law.foldlFst
          | decide
    | (intro _; try dsimp only)
    | with_reducible apply Law.mk ?_

theorem State.sramUe_law (s : State) (port wordAddr ctx other : Nat) (repairOk : Bool) :
    Law [.free, .out, .nvme, .sqs, .qrecs, .ctxs, .slices, .zones, .gate, .staging, .toks, .bpm, .dma, .sward, .blocks, .dies, .flash, .fch, .par, .ecc, .key, .cas, .mtr, .brm, .nv, .evt, .log] s (s.sramUe port wordAddr ctx other repairOk) := by
  unfold Sys2Proof.Machine.State.sramUe
  try dsimp only
  repeat' first
    | with_reducible
        first
          | apply Law.refl | apply Law.next ?_ (State.ueRecord_law _ _ _ _ _ _ _) ?_
          | apply Law.next ?_ (State.scrubUe_law _ _ _ _ _ _ _) ?_ | apply Law.next ?_ (State.copyRewrite_law _ _ _ _) ?_
          | apply Law.next ?_ (State.sramResponse_law _ _ _ _ _ _) ?_
          | apply Law.next ?_ (State.sramCount_law _ _ _ _) ?_ | decide

theorem execSramUncorrectable_law (port wordAddr ctx raw other : Nat) (repairOk : Bool) (s : State) :
    LawO [.free, .out, .nvme, .sqs, .qrecs, .ctxs, .slices, .zones, .gate, .staging, .toks, .bpm, .dma, .sward, .blocks, .dies, .flash, .fch, .par, .ecc, .key, .cas, .mtr, .brm, .nv, .evt, .log] s (execSramUncorrectable port wordAddr ctx raw other repairOk s) := by
  unfold Sys2Proof.Machine.execSramUncorrectable
  with_reducible
    repeat' first
      | apply Law.refl | apply LawO.next | apply LawO.ite | apply Law.next ?_ (State.sramUe_law _ _ _ _ _ _) ?_ | decide

theorem State.dramUe_law (s : State) (addr port : Nat) (k : DramKind) (ctx unit : Nat) (rebuilt repairOk : Bool) :
    Law [.free, .out, .nvme, .sqs, .qrecs, .ctxs, .slices, .zones, .gate, .staging, .toks, .bpm, .dma, .sward, .blocks, .dies, .flash, .fch, .par, .drc, .ecc, .key, .cas, .mtr, .brm, .nv, .evt, .log] s (s.dramUe addr port k ctx unit rebuilt repairOk) := by
  unfold Sys2Proof.Machine.State.dramUe
  try dsimp only
  repeat' first
    | with_reducible
        first
          | apply Law.refl | apply Law.next ?_ (State.ueRecord_law _ _ _ _ _ _ _) ?_
          | apply Law.next ?_ (State.scrubUe_law _ _ _ _ _ _ _) ?_
          | apply Law.next ?_ (State.dramResponse_law _ _ _ _ _ _ _) ?_
          | apply Law.next ?_ (State.dramCount_law _ _ _ _) ?_ | decide

theorem execDramUncorrectable_law (addr port : Nat) (b : Burst) (ctx unit : Nat) (rebuilt repairOk : Bool) (s : State) :
    LawO [.free, .out, .nvme, .sqs, .qrecs, .ctxs, .slices, .zones, .gate, .staging, .toks, .bpm, .dma, .sward, .blocks, .dies, .flash, .fch, .par, .drc, .ecc, .key, .cas, .mtr, .brm, .nv, .evt, .log] s (execDramUncorrectable addr port b ctx unit rebuilt repairOk s) := by
  unfold Sys2Proof.Machine.execDramUncorrectable
  repeat' first
    | with_reducible
        first
          | apply Law.refl | apply LawO.next | apply LawO.ite | apply Law.next ?_ (State.dramUe_law _ _ _ _ _ _ _ _) ?_ | decide
    | split

theorem execCommandError_law (addr port : Nat) (k : AccessErr) (s : State) :
    LawO [.free, .out, .nvme, .sqs, .qrecs, .ctxs, .slices, .zones, .gate, .staging, .toks, .bpm, .dma, .sward, .blocks, .dies, .flash, .fch, .par, .drc, .ecc, .key, .cas, .mtr, .brm, .nv, .evt, .log] s (execCommandError addr port k s) := by
  unfold Sys2Proof.Machine.execCommandError
  repeat' first
    | with_reducible
        first
          | apply Law.refl | apply LawO.next | apply LawO.ite | apply Law.next ?_ (State.dramUe_law _ _ _ _ _ _ _ _) ?_
          | apply Law.next ?_ (State.ueRecord_law _ _ _ _ _ _ _) ?_ | apply Law.next ?_ (State.dramCount_law _ _ _ _) ?_ | decide
    | split

theorem execCorrectedError_law (m : MemRead) (port : Nat) (queued : Bool) (s : State) :
    LawO [.out, .drc, .ecc, .evt, .log] s (execCorrectedError m port queued s) := by
  unfold Sys2Proof.Machine.execCorrectedError
  repeat' first
    | with_reducible
        first
          | apply Law.refl | apply Law.ite | apply LawO.next | apply LawO.ite
          | apply Law.next ?_ (State.dramCorrected_law _ _ _) ?_
          | apply Law.next ?_ (State.writeBack_law _ _ _ _ _) ?_
          | apply Law.next ?_ (State.sramCorrected_law _ _ _) ?_ | decide
    | split

theorem State.scrubLast_law (s : State) (raw check other ctx unit : Nat) (rebuilt repairOk queued : Bool) :
    Law [.free, .out, .nvme, .sqs, .qrecs, .ctxs, .slices, .zones, .gate, .staging, .toks, .bpm, .dma, .sward, .blocks, .dies, .flash, .fch, .par, .drc, .ecc, .key, .cas, .mtr, .brm, .nv, .evt, .log] s (s.scrubLast raw check other ctx unit rebuilt repairOk queued) := by
  unfold Sys2Proof.Machine.State.scrubLast
  try dsimp only
  repeat' first
    | with_reducible
        first
          | apply Law.refl | apply Law.ite | apply Law.next ?_ (State.dramCorrected_law _ _ _) ?_
          | apply Law.next ?_ (State.writeBack_law _ _ _ _ _) ?_ | apply Law.next ?_ (State.sramCorrected_law _ _ _) ?_
          | apply Law.next ?_ (State.dramUe_law _ _ _ _ _ _ _ _) ?_ | apply Law.next ?_ (State.sramUe_law _ _ _ _ _ _) ?_ | decide
    | split

theorem State.scrubReport_law (s : State) (ms : Nat) :
    Law [.out, .sqs, .qrecs, .ctxs, .ecc] s (s.scrubReport ms) := by
  unfold Sys2Proof.Machine.State.scrubReport
  try dsimp only
  repeat' first
    | with_reducible
        first
          | apply Law.refl | apply Law.next ?_ (State.say_law _ _) ?_ | apply Law.next ?_ (State.finish_law _ _ _ _ _ _) ?_ | decide
    | with_reducible apply Law.mk ?_

theorem execMicrocodeTrap_law (blk : Nat) (verifyOk : Bool) (again : Bool) (s : State) :
    LawO [.free, .out, .nvme, .sqs, .qrecs, .ctxs, .slices, .zones, .gate, .staging, .toks, .bpm, .dma, .sward, .blocks, .dies, .flash, .fch, .par, .ecc, .key, .cas, .mtr, .brm, .nv, .evt, .log] s (execMicrocodeTrap blk verifyOk again s) := by
  unfold Sys2Proof.Machine.execMicrocodeTrap
  try dsimp only
  repeat' first
    | with_reducible
        first
          | apply Law.refl | apply Law.ite | apply LawO.next | apply LawO.ite
          | apply Law.next ?_ (State.sramCount_law _ _ _ _) ?_ | apply Law.next ?_ (State.fire_law _ _ _ _ _ _) ?_
          | apply Law.next ?_ (State.ueRecord_law _ _ _ _ _ _ _) ?_ | apply Law.next ?_ (State.memFatal_law _) ?_
          | decide
    | with_reducible apply Law.mk ?_

theorem execMicrocodeBlockFetch_law (blk : Nat) (firstOk : Bool) (secondOk : Bool) (suspended : Bool) (s : State) :
    LawO [.free, .out, .nvme, .sqs, .qrecs, .ctxs, .slices, .zones, .gate, .staging, .toks, .bpm, .dma, .sward, .blocks, .dies, .flash, .fch, .par, .key, .cas, .mtr, .brm, .upd, .nv, .evt, .log] s (execMicrocodeBlockFetch blk firstOk secondOk suspended s) := by
  unfold Sys2Proof.Machine.execMicrocodeBlockFetch
  try dsimp only
  repeat' first
    | with_reducible
        first
          | apply Law.refl | apply Law.ite | apply LawO.next | apply LawO.ite
          | apply Law.next ?_ (State.memFatal_law _) ?_ | decide
    | with_reducible apply Law.mk ?_

theorem execRefreshInterval_law (mr4 : Nat) (draws : Nat) (dropped : Nat) (s : State) :
    LawO [.drc] s (execRefreshInterval mr4 draws dropped s) := by
  unfold Sys2Proof.Machine.execRefreshInterval
  try dsimp only
  repeat' first
    | with_reducible
        first
          | apply Law.refl | apply Law.ite | apply LawO.next | apply LawO.ite
    | with_reducible apply Law.mk ?_

theorem execDqsOscillatorRead_law (ch : Nat) (drift : Nat) (panicWait : Bool) (s : State) :
    LawO [.drc] s (execDqsOscillatorRead ch drift panicWait s) := by
  unfold Sys2Proof.Machine.execDqsOscillatorRead
  try dsimp only
  repeat' first
    | with_reducible
        first
          | apply Law.refl | apply Law.ite | apply LawO.next | apply LawO.ite
    | split
    | with_reducible apply Law.mk ?_

theorem execProgramStreamPanic_law (ch : Nat) (level : Nat) (s : State) :
    LawO [.drc] s (execProgramStreamPanic ch level s) := by
  unfold Sys2Proof.Machine.execProgramStreamPanic
  try dsimp only
  repeat' first
    | with_reducible
        first
          | apply Law.refl | apply Law.ite | apply LawO.next | apply LawO.ite
    | with_reducible apply Law.mk ?_

theorem execPanicEnd_law (group : Nat) (s : State) :
    LawO [.drc] s (execPanicEnd group s) := by
  unfold Sys2Proof.Machine.execPanicEnd
  try dsimp only
  repeat' first
    | with_reducible
        first
          | apply Law.refl | apply Law.ite | apply LawO.next | apply LawO.ite
    | with_reducible apply Law.mk ?_

theorem execScrubRange_law (ctx : Nat) (s : State) :
    LawO [.sqs, .qrecs, .ctxs, .gate, .dma, .ecc] s (execScrubRange ctx s) := by
  unfold Sys2Proof.Machine.execScrubRange
  try dsimp only
  repeat' first
    | with_reducible
        first
          | apply Law.refl | exact Law.idle | apply Law.ite | apply LawO.next | apply LawO.ite
          | apply Law.next ?_ (State.admitAdmin_law _ _ _ _ (r := [.sqs, .qrecs, .ctxs, .gate, .dma, .ecc]) ?_ ?_) ?_
          | apply Law.next ?_ (State.finish_law _ _ _ _ _ _) ?_ | apply Law.next ?_ (State.stampCtx_law _ _) ?_
          | decide | (exact fun u => Law.refl u)
    | (intro _; try dsimp only)
    | split
    | with_reducible apply Law.mk ?_

theorem execScrubComplete_law (raw check other ctx unit : Nat) (rebuilt repairOk queued : Bool) (ms : Nat) (s : State) :
    LawO [.free, .out, .nvme, .sqs, .qrecs, .ctxs, .slices, .zones, .gate, .staging, .toks, .bpm, .dma, .sward, .blocks, .dies, .flash, .fch, .par, .drc, .ecc, .key, .cas, .mtr, .brm, .nv, .evt, .log] s (execScrubComplete raw check other ctx unit rebuilt repairOk queued ms s) := by
  unfold Sys2Proof.Machine.execScrubComplete
  with_reducible
    repeat' first
      | apply Law.refl | apply LawO.next | apply LawO.ite | apply Law.next ?_ (State.scrubReport_law _ _) ?_
      | apply Law.next ?_ (State.scrubLast_law _ _ _ _ _ _ _ _ _) ?_ | decide

theorem execEntropyHealthFailure_law (s : State) :
    LawO [.key] s (execEntropyHealthFailure s) := by
  unfold Sys2Proof.Machine.execEntropyHealthFailure
  try dsimp only
  repeat' first
    | with_reducible
        first
          | apply Law.refl | apply LawO.next | apply LawO.ite
    | with_reducible apply Law.mk ?_

theorem execAoBrownOutReset_law (s : State) :
    LawO [.now, .free, .out, .img, .manifest, .pci, .nvme, .sqs, .cqs, .qrecs, .ctxs, .slices, .nss, .zones, .gate, .staging, .toks, .bpm, .dma, .sward, .blocks, .dies, .flash, .fch, .zne, .par, .lat, .drc, .ecc, .key, .cas, .mtr, .pwr, .brm, .thm, .mon, .upd, .nv, .efl, .evt, .log, .side] s (execAoBrownOutReset s) := by
  unfold Sys2Proof.Machine.execAoBrownOutReset
  try dsimp only
  repeat' first
    | with_reducible
        first
          | apply Law.refl | apply Law.ite | apply LawO.next | apply LawO.ite
          | apply Law.next ?_ (State.chipReset_law _ _) ?_ | decide

theorem execInputGoodRestart_law (s : State) :
    LawO [.now, .free, .out, .img, .manifest, .pci, .nvme, .sqs, .cqs, .qrecs, .ctxs, .slices, .nss, .zones, .gate, .staging, .toks, .bpm, .dma, .sward, .blocks, .dies, .flash, .fch, .zne, .par, .lat, .drc, .ecc, .key, .cas, .mtr, .pwr, .brm, .thm, .mon, .upd, .nv, .efl, .evt, .log, .side] s (execInputGoodRestart s) := by
  unfold Sys2Proof.Machine.execInputGoodRestart
  try dsimp only
  repeat' first
    | with_reducible
        first
          | apply Law.refl | apply Law.ite | apply LawO.next | apply LawO.ite
          | apply Law.next ?_ (State.chipReset_law _ _) ?_ | decide

theorem execSupplyReset_law (s : State) :
    LawO [.now, .free, .out, .img, .manifest, .pci, .nvme, .sqs, .cqs, .qrecs, .ctxs, .slices, .nss, .zones, .gate, .staging, .toks, .bpm, .dma, .sward, .blocks, .dies, .flash, .fch, .zne, .par, .lat, .drc, .ecc, .key, .cas, .mtr, .pwr, .brm, .thm, .mon, .upd, .nv, .efl, .evt, .log, .side] s (execSupplyReset s) := by
  unfold Sys2Proof.Machine.execSupplyReset
  try dsimp only
  repeat' first
    | with_reducible
        first
          | apply Law.refl | apply LawO.next | apply LawO.ite | apply Law.next ?_ (State.chipReset_law _ _) ?_
          | decide

theorem execSysRstN_law (s : State) :
    LawO [.now, .free, .out, .img, .manifest, .pci, .nvme, .sqs, .cqs, .qrecs, .ctxs, .slices, .nss, .zones, .gate, .staging, .toks, .bpm, .dma, .sward, .blocks, .dies, .flash, .fch, .zne, .par, .lat, .drc, .ecc, .key, .cas, .mtr, .pwr, .brm, .thm, .mon, .upd, .nv, .efl, .evt, .log, .side] s (execSysRstN s) := by
  unfold Sys2Proof.Machine.execSysRstN
  try dsimp only
  repeat' first
    | with_reducible
        first
          | apply Law.refl | apply LawO.next | apply LawO.ite | apply Law.next ?_ (State.chipReset_law _ _) ?_
          | decide

theorem execGlitchDetectorsArm_law (s : State) :
    LawO [.evt] s (execGlitchDetectorsArm s) := by
  unfold Sys2Proof.Machine.execGlitchDetectorsArm
  try dsimp only
  repeat' first
    | with_reducible
        first
          | apply Law.refl | apply Law.ite | apply LawO.next | apply LawO.ite
    | with_reducible apply Law.mk ?_

theorem execPowerOnResetRelease_law (b : BootIn) (s : State) :
    LawO [.now, .free, .out, .img, .manifest, .pci, .nvme, .sqs, .cqs, .qrecs, .ctxs, .slices, .nss, .zones, .gate, .staging, .toks, .bpm, .dma, .sward, .blocks, .dies, .flash, .fch, .zne, .par, .lat, .drc, .ecc, .key, .cas, .mtr, .pwr, .brm, .thm, .mon, .upd, .nv, .efl, .evt, .log, .side] s (execPowerOnResetRelease b s) := by
  unfold Sys2Proof.Machine.execPowerOnResetRelease
  try dsimp only
  repeat' first
    | with_reducible
        first
          | apply Law.refl | apply Law.ite | apply LawO.next | apply LawO.ite
          | apply Law.next ?_ (State.bootStop_law _ _) ?_ | apply Law.next ?_ (State.bootSlot_law _ _ _) ?_ | decide
    | with_reducible apply Law.mk ?_

theorem execAck_law (f : Frame) (acked : List Nat) (credits : List Nat) (s : State) :
    LawO [.out, .sqs, .qrecs, .ctxs, .slices, .zones, .gate, .staging, .toks, .bpm, .dma, .sward, .dies, .fch, .par, .key, .cas, .nv, .evt, .log] s (execAck f acked credits s) := by
  unfold Sys2Proof.Machine.execAck
  try dsimp only
  repeat' first
    | with_reducible
        first
          | apply Law.refl | exact Law.idle | apply Law.ite | apply LawO.next | apply LawO.ite
          | apply Law.next ?_ (State.frameIn_law _ _ _ _ (r := [.out, .sqs, .qrecs, .ctxs, .slices, .zones, .gate, .staging, .toks, .bpm, .dma, .sward, .dies, .fch, .par, .key, .cas, .nv, .evt, .log]) ?_ ?_) ?_
          | apply Law.next ?_ (State.portEdit_law _ _ _) ?_ | apply Law.next ?_ (State.memEdit_law _ _ _) ?_
          | apply Law.next ?_ (State.pump_law _ _) ?_ | apply Law.foldl | apply Law.foldlSnd | apply Law.foldlFst
          | decide | (exact fun u => Law.refl u)
    | (intro _; try dsimp only)

theorem execAckTimeout_law (port : Nat) (vc : Nat) (mseq : Nat) (s : State) :
    LawO [.out, .sqs, .qrecs, .ctxs, .slices, .zones, .gate, .staging, .toks, .bpm, .dma, .sward, .dies, .fch, .par, .key, .cas, .nv, .evt, .log] s (execAckTimeout port vc mseq s) := by
  unfold Sys2Proof.Machine.execAckTimeout
  try dsimp only
  repeat' first
    | with_reducible
        first
          | apply Law.refl | apply Law.ite | apply LawO.next | apply LawO.ite
          | apply Law.next ?_ (State.linkDrop_law _ _ _) ?_ | apply Law.next ?_ (State.frameOut_law _ _ _) ?_
          | apply Law.next ?_ (State.portEdit_law _ _ _) ?_ | apply Law.foldl | apply Law.foldlSnd
          | apply Law.foldlFst | decide
    | (intro _; try dsimp only)
    | split

theorem execLinkDown_law (port : Nat) (cause : Nat) (s : State) :
    LawO [.out, .sqs, .qrecs, .ctxs, .slices, .zones, .gate, .staging, .toks, .bpm, .dma, .sward, .dies, .fch, .par, .key, .cas, .nv, .evt, .log] s (execLinkDown port cause s) := by
  unfold Sys2Proof.Machine.execLinkDown
  try dsimp only
  repeat' first
    | with_reducible
        first
          | apply Law.refl | apply Law.ite | apply LawO.next | apply LawO.ite
          | apply Law.next ?_ (State.linkDrop_law _ _ _) ?_ | decide

theorem execPortTrainingRetry_law (port : Nat) (s : State) :
    LawO [.cas] s (execPortTrainingRetry port s) := by
  unfold Sys2Proof.Machine.execPortTrainingRetry
  try dsimp only
  repeat' first
    | with_reducible
        first
          | apply Law.refl | apply Law.ite | apply LawO.next | apply LawO.ite
          | apply Law.next ?_ (State.portEdit_law _ _ _) ?_ | decide

theorem execUbpelRekey_law (port : Nat) (tx : Bool) (s : State) :
    LawO [.cas] s (execUbpelRekey port tx s) := by
  unfold Sys2Proof.Machine.execUbpelRekey
  try dsimp only
  repeat' first
    | with_reducible
        first
          | apply Law.refl | apply Law.ite | apply LawO.next | apply LawO.ite
          | apply Law.next ?_ (State.portEdit_law _ _ _) ?_ | decide

theorem execJoin_law (port : Nat) (trained : Bool) (s : State) :
    LawO [.out, .sqs, .qrecs, .ctxs, .slices, .zones, .gate, .staging, .toks, .bpm, .dma, .sward, .dies, .fch, .par, .key, .cas, .nv, .evt, .log] s (execJoin port trained s) := by
  unfold Sys2Proof.Machine.execJoin
  try dsimp only
  repeat' first
    | with_reducible
        first
          | apply Law.refl | apply Law.ite | apply LawO.next | apply LawO.ite
          | apply Law.next ?_ (State.linkDrop_law _ _ _) ?_ | apply Law.next ?_ (State.portEdit_law _ _ _) ?_
          | apply Law.next ?_ (State.lanesDrop_law _ _) ?_ | apply Law.next ?_ (State.memSt_law _ _ _ _) ?_
          | apply Law.next ?_ (State.say_law _ _) ?_ | decide

theorem execHello_law (port : Nat) (m : HelloMsg) (s : State) :
    LawO [.out, .sqs, .qrecs, .ctxs, .slices, .zones, .gate, .staging, .toks, .bpm, .dma, .sward, .dies, .fch, .par, .key, .cas, .nv, .evt, .log] s (execHello port m s) := by
  unfold Sys2Proof.Machine.execHello
  try dsimp only
  repeat' first
    | with_reducible
        first
          | apply Law.refl | apply Law.ite | apply LawO.next | apply LawO.ite
          | apply Law.next ?_ (State.linkDrop_law _ _ _) ?_ | apply Law.next ?_ (State.portEdit_law _ _ _) ?_
          | apply Law.next ?_ (State.say_law _ _) ?_ | decide
    | with_reducible apply Law.mk ?_

theorem execAuth_law (port : Nat) (sigOk : Bool) (s : State) :
    LawO [.out, .sqs, .qrecs, .ctxs, .slices, .zones, .gate, .staging, .toks, .bpm, .dma, .sward, .dies, .fch, .par, .key, .cas, .nv, .evt, .log] s (execAuth port sigOk s) := by
  unfold Sys2Proof.Machine.execAuth
  try dsimp only
  repeat' first
    | with_reducible
        first
          | apply Law.refl | apply Law.ite | apply LawO.next | apply LawO.ite
          | apply Law.next ?_ (State.linkDrop_law _ _ _) ?_ | apply Law.next ?_ (State.portEdit_law _ _ _) ?_
          | apply Law.next ?_ (State.casSend_law _ _ _ _ _ _) ?_ | decide
    | split
    | with_reducible apply Law.mk ?_

theorem execIdent_law (f : Frame) (m : IdentMsg) (s : State) :
    LawO [.now, .free, .out, .img, .manifest, .pci, .nvme, .sqs, .cqs, .qrecs, .ctxs, .slices, .nss, .zones, .gate, .staging, .toks, .bpm, .dma, .sward, .blocks, .dies, .flash, .fch, .zne, .par, .lat, .drc, .ecc, .key, .cas, .mtr, .pwr, .brm, .thm, .mon, .upd, .nv, .efl, .evt, .log, .side] s (execIdent f m s) := by
  unfold Sys2Proof.Machine.execIdent
  try dsimp only
  repeat' first
    | with_reducible
        first
          | apply Law.refl | exact Law.idle | apply Law.ite | apply LawO.next | apply LawO.ite
          | apply Law.next ?_ (State.frameIn_law _ _ _ _ (r := [.now, .free, .out, .img, .manifest, .pci, .nvme, .sqs, .cqs, .qrecs, .ctxs, .slices, .nss, .zones, .gate, .staging, .toks, .bpm, .dma, .sward, .blocks, .dies, .flash, .fch, .zne, .par, .lat, .drc, .ecc, .key, .cas, .mtr, .pwr, .brm, .thm, .mon, .upd, .nv, .efl, .evt, .log, .side]) ?_ ?_) ?_
          | apply Law.next ?_ (State.identAt_law _ _ _) ?_ | decide | (exact fun u => Law.refl u)
    | (intro _; try dsimp only)

theorem execJoinwaitExpiry_law (s : State) :
    LawO [.free, .out, .nvme, .sqs, .qrecs, .ctxs, .slices, .zones, .gate, .staging, .toks, .bpm, .dma, .sward, .blocks, .dies, .flash, .fch, .zne, .par, .lat, .key, .cas, .mtr, .upd, .nv, .evt, .log] s (execJoinwaitExpiry s) := by
  unfold Sys2Proof.Machine.execJoinwaitExpiry
  try dsimp only
  repeat' first
    | with_reducible
        first
          | apply Law.refl | apply Law.ite | apply LawO.next | apply LawO.ite
          | apply Law.next ?_ (State.ioAccept_law _) ?_ | apply Law.next ?_ (State.memberFence_law _ _ _) ?_
          | apply Law.forNats | decide
    | (intro _; try dsimp only)
    | with_reducible apply Law.mk ?_

theorem execStampFrame_law (f : Frame) (entries : List StampMsg) (s : State) :
    LawO [.free, .out, .nvme, .sqs, .qrecs, .ctxs, .slices, .nss, .zones, .gate, .staging, .toks, .bpm, .dma, .sward, .blocks, .dies, .flash, .fch, .zne, .par, .lat, .key, .cas, .mtr, .brm, .nv, .evt, .log] s (execStampFrame f entries s) := by
  unfold Sys2Proof.Machine.execStampFrame
  try dsimp only
  repeat' first
    | with_reducible
        first
          | apply Law.refl | exact Law.idle | apply Law.ite | apply LawO.next | apply LawO.ite
          | apply Law.next ?_ (State.memberIn_law _ _ _ (r := [.free, .out, .nvme, .sqs, .qrecs, .ctxs, .slices, .nss, .zones, .gate, .staging, .toks, .bpm, .dma, .sward, .blocks, .dies, .flash, .fch, .zne, .par, .lat, .key, .cas, .mtr, .brm, .nv, .evt, .log]) ?_ ?_) ?_
          | apply Law.next ?_ (State.memberApply_law _ _) ?_ | apply Law.foldl | apply Law.foldlSnd
          | apply Law.foldlFst | decide | (exact fun u => Law.refl u)
    | (intro _; try dsimp only)
    | with_reducible apply Law.mk ?_

theorem execSnapshot_law (f : Frame) (body : SnapBody) (shared : BitVec (OfNat.ofNat 256)) (stamp : Nat) (last : Bool) (s : State) :
    LawO [.free, .out, .nvme, .sqs, .qrecs, .ctxs, .slices, .nss, .zones, .gate, .staging, .toks, .bpm, .dma, .sward, .blocks, .dies, .flash, .fch, .zne, .par, .lat, .key, .cas, .mtr, .brm, .nv, .evt, .log] s (execSnapshot f body shared stamp last s) := by
  unfold Sys2Proof.Machine.execSnapshot
  try dsimp only
  repeat' first
    | with_reducible
        first
          | apply Law.refl | exact Law.idle | apply Law.ite | apply LawO.next | apply LawO.ite
          | apply Law.next ?_ (State.memberIn_law _ _ _ (r := [.free, .out, .nvme, .sqs, .qrecs, .ctxs, .slices, .nss, .zones, .gate, .staging, .toks, .bpm, .dma, .sward, .blocks, .dies, .flash, .fch, .zne, .par, .lat, .key, .cas, .mtr, .brm, .nv, .evt, .log]) ?_ ?_) ?_
          | apply Law.next ?_ (State.zoneRelease_law _ _ _) ?_ | apply Law.next ?_ (State.snapZone_law _ _ _) ?_
          | apply Law.next ?_ (State.tokTake_law _ _) ?_ | apply Law.next ?_ (State.resyncZone_law _ _ _) ?_
          | apply Law.next ?_ (State.memberApply_law _ _) ?_ | apply Law.forNats | apply Law.foldl
          | apply Law.foldlSnd | apply Law.foldlFst | decide | (exact fun u => Law.refl u)
    | (intro _; try dsimp only)
    | with_reducible apply Law.mk ?_

theorem execLease_law (f : Frame) (op : LeaseOp) (s : State) :
    LawO [.out, .sqs, .qrecs, .ctxs, .slices, .zones, .gate, .staging, .toks, .bpm, .dma, .sward, .dies, .fch, .par, .key, .cas, .nv, .evt, .log] s (execLease f op s) := by
  unfold Sys2Proof.Machine.execLease
  try dsimp only
  repeat' first
    | with_reducible
        first
          | apply Law.refl | exact Law.idle | apply LawO.next | apply LawO.ite
          | apply Law.next ?_ (State.memberIn_law _ _ _ (r := [.out, .sqs, .qrecs, .ctxs, .slices, .zones, .gate, .staging, .toks, .bpm, .dma, .sward, .dies, .fch, .par, .key, .cas, .nv, .evt, .log]) ?_ ?_) ?_
          | decide | (exact fun u => Law.refl u)
    | (intro _; try dsimp only)
    | split
    | with_reducible apply Law.mk ?_

theorem execLeaseExpiry_law (zone : Nat) (s : State) :
    LawO [.cas] s (execLeaseExpiry zone s) := by
  unfold Sys2Proof.Machine.execLeaseExpiry
  try dsimp only
  repeat' first
    | with_reducible
        first
          | apply Law.refl | apply Law.ite | apply LawO.next | apply LawO.ite
    | with_reducible apply Law.mk ?_

theorem execLeaseRenew_law (chip : Nat) (s : State) :
    LawO [.out, .sward, .cas] s (execLeaseRenew chip s) := by
  unfold Sys2Proof.Machine.execLeaseRenew
  try dsimp only
  repeat' first
    | with_reducible
        first
          | apply Law.refl | apply Law.ite | apply LawO.next | apply LawO.ite
          | apply Law.next ?_ (State.memEdit_law _ _ _) ?_ | apply Law.next ?_ (State.casSend_law _ _ _ _ _ _) ?_
          | decide

theorem execLinkLossFence_law (chip : Nat) (s : State) :
    LawO [.free, .out, .nvme, .sqs, .qrecs, .ctxs, .slices, .zones, .gate, .staging, .toks, .bpm, .dma, .sward, .blocks, .dies, .flash, .fch, .zne, .par, .lat, .key, .cas, .mtr, .upd, .nv, .evt, .log] s (execLinkLossFence chip s) := by
  unfold Sys2Proof.Machine.execLinkLossFence
  try dsimp only
  repeat' first
    | with_reducible
        first
          | apply Law.refl | apply Law.ite | apply LawO.next | apply LawO.ite
          | apply Law.next ?_ (State.ioAccept_law _) ?_ | apply Law.next ?_ (State.memberFence_law _ _ _) ?_
          | decide

theorem execDataFrame_law (f : Frame) (stamp : Nat) (zone : Nat) (unit : Nat) (content : Nat) (md : Nat) (s : State) :
    LawO [.out, .sqs, .qrecs, .ctxs, .slices, .zones, .gate, .staging, .toks, .bpm, .dma, .sward, .dies, .fch, .par, .key, .cas, .nv, .evt, .log] s (execDataFrame f stamp zone unit content md s) := by
  unfold Sys2Proof.Machine.execDataFrame
  try dsimp only
  repeat' first
    | with_reducible
        first
          | apply Law.refl | exact Law.idle | apply Law.ite | apply LawO.next | apply LawO.ite
          | apply Law.next ?_ (State.memberIn_law _ _ _ (r := [.out, .sqs, .qrecs, .ctxs, .slices, .zones, .gate, .staging, .toks, .bpm, .dma, .sward, .dies, .fch, .par, .key, .cas, .nv, .evt, .log]) ?_ ?_) ?_
          | apply Law.next ?_ (State.flits_law _ _ _ _) ?_ | apply Law.next ?_ (State.foldStaged_law _ _ _) ?_
          | apply Law.next ?_ (State.casSend_law _ _ _ _ _ _) ?_
          | apply Law.next ?_ (State.versSettle_law _ _ _ _ _) ?_ | apply Law.next ?_ (State.stageDone_law _ _) ?_
          | decide | (exact fun u => Law.refl u)
    | (intro _; try dsimp only)
    | split
    | with_reducible apply Law.mk ?_

theorem execStaged_law (f : Frame) (stamp : Nat) (s : State) :
    LawO [.out, .sqs, .qrecs, .ctxs, .slices, .zones, .gate, .staging, .toks, .bpm, .dma, .sward, .dies, .fch, .par, .key, .cas, .nv, .evt, .log] s (execStaged f stamp s) := by
  unfold Sys2Proof.Machine.execStaged
  try dsimp only
  repeat' first
    | with_reducible
        first
          | apply Law.refl | exact Law.idle | apply Law.ite | apply LawO.next | apply LawO.ite
          | apply Law.next ?_ (State.crownIn_law _ _ _ (r := [.out, .sqs, .qrecs, .ctxs, .slices, .zones, .gate, .staging, .toks, .bpm, .dma, .sward, .dies, .fch, .par, .key, .cas, .nv, .evt, .log]) ?_ ?_) ?_
          | apply Law.next ?_ (State.releaseUnits_law _ _ _) ?_ | apply Law.next ?_ (State.stageDone_law _ _) ?_
          | decide | (exact fun u => Law.refl u)
    | (intro _; try dsimp only)
    | split

theorem execReadReq_law (f : Frame) (req : Nat) (zone : Nat) (units : Nat × Nat) (s : State) :
    LawO [.free, .out, .sqs, .qrecs, .ctxs, .slices, .zones, .gate, .staging, .toks, .bpm, .dma, .sward, .dies, .fch, .par, .key, .cas, .mtr, .nv, .evt, .log] s (execReadReq f req zone units s) := by
  unfold Sys2Proof.Machine.execReadReq
  try dsimp only
  repeat' first
    | with_reducible
        first
          | apply Law.refl | exact Law.idle | apply Law.ite | apply LawO.next | apply LawO.ite
          | apply Law.next ?_ (State.memberIn_law _ _ _ (r := [.free, .out, .sqs, .qrecs, .ctxs, .slices, .zones, .gate, .staging, .toks, .bpm, .dma, .sward, .dies, .fch, .par, .key, .cas, .mtr, .nv, .evt, .log]) ?_ ?_) ?_
          | refine Law.next ?_ (LawO.get (execMtrAck_law _ _) ‹_ = Host.Outcome.next _›) ?_
          | apply LawO.after ?_ (execMtrAck_law _ _) ?_ | apply LawO.mono (execMtrAck_law _ _) ?_
          | apply Law.next ?_ (State.meterReply_law _ _ _ _) ?_ | decide | (exact fun u => Law.refl u)
    | (intro _; try dsimp only)
    | split
    | with_reducible apply Law.mk ?_

theorem execReadData_law (f : Frame) (ctx : Nat) (unit : Nat) (content : Option Nat) (md : Nat) (s : State) :
    LawO [.out, .nvme, .sqs, .qrecs, .ctxs, .slices, .zones, .gate, .staging, .toks, .bpm, .dma, .sward, .blocks, .dies, .fch, .par, .lat, .key, .cas, .nv, .evt, .log] s (execReadData f ctx unit content md s) := by
  unfold Sys2Proof.Machine.execReadData
  try dsimp only
  repeat' first
    | with_reducible
        first
          | apply Law.refl | exact Law.idle | apply Law.ite | apply LawO.next | apply LawO.ite
          | apply Law.next ?_ (State.crownIn_law _ _ _ (r := [.out, .nvme, .sqs, .qrecs, .ctxs, .slices, .zones, .gate, .staging, .toks, .bpm, .dma, .sward, .blocks, .dies, .fch, .par, .lat, .key, .cas, .nv, .evt, .log]) ?_ ?_) ?_
          | apply Law.next ?_ (State.finish_law _ _ _ _ _ _) ?_ | apply Law.next ?_ (State.say_law _ _) ?_
          | apply Law.next ?_ (State.ctxEdit_law _ _ _) ?_ | apply Law.next ?_ (State.unitRelease_law _ _ _ _) ?_
          | apply Law.next ?_ (State.runitEdit_law _ _ _ _) ?_ | apply Law.next ?_ (State.flits_law _ _ _ _) ?_
          | apply Law.next ?_ (State.unrecovered_law _ _ _) ?_ | decide | (exact fun u => Law.refl u)
    | (intro _; try dsimp only)
    | split

theorem execTimeSend_law (port : Nat) (s : State) :
    LawO [.free, .out, .sward, .cas] s (execTimeSend port s) := by
  unfold Sys2Proof.Machine.execTimeSend
  try dsimp only
  repeat' first
    | with_reducible
        first
          | apply Law.refl | apply Law.ite | apply LawO.next | apply LawO.ite
          | apply Law.next ?_ (State.casSend_law _ _ _ _ _ _) ?_ | apply Law.next ?_ (State.freeStep_law _) ?_
          | decide

theorem execTimeFrame_law (f : Frame) (crownNs : Nat) (rttNs : Nat) (s : State) :
    LawO [.now, .out, .sqs, .qrecs, .ctxs, .slices, .zones, .gate, .staging, .toks, .bpm, .dma, .sward, .dies, .fch, .par, .key, .cas, .nv, .evt, .log] s (execTimeFrame f crownNs rttNs s) := by
  unfold Sys2Proof.Machine.execTimeFrame
  try dsimp only
  repeat' first
    | with_reducible
        first
          | apply Law.refl | exact Law.idle | apply Law.ite | apply LawO.next | apply LawO.ite
          | apply Law.next ?_ (State.memberIn_law _ _ _ (r := [.now, .out, .sqs, .qrecs, .ctxs, .slices, .zones, .gate, .staging, .toks, .bpm, .dma, .sward, .dies, .fch, .par, .key, .cas, .nv, .evt, .log]) ?_ ?_) ?_
          | decide | (exact fun u => Law.refl u)
    | (intro _; try dsimp only)
    | with_reducible apply Law.mk ?_

theorem execDigest_law (f : Frame) (check : Nat) (shared : BitVec (OfNat.ofNat 256)) (islandNs : Nat) (s : State) :
    LawO [.free, .out, .nvme, .sqs, .qrecs, .ctxs, .slices, .zones, .gate, .staging, .toks, .bpm, .dma, .sward, .blocks, .dies, .flash, .fch, .zne, .par, .lat, .key, .cas, .mtr, .upd, .nv, .evt, .log] s (execDigest f check shared islandNs s) := by
  unfold Sys2Proof.Machine.execDigest
  try dsimp only
  repeat' first
    | with_reducible
        first
          | apply Law.refl | exact Law.idle | apply Law.ite | apply LawO.next | apply LawO.ite
          | apply Law.next ?_ (State.crownIn_law _ _ _ (r := [.free, .out, .nvme, .sqs, .qrecs, .ctxs, .slices, .zones, .gate, .staging, .toks, .bpm, .dma, .sward, .blocks, .dies, .flash, .fch, .zne, .par, .lat, .key, .cas, .mtr, .upd, .nv, .evt, .log]) ?_ ?_) ?_
          | apply Law.next ?_ (State.memEdit_law _ _ _) ?_ | apply Law.next ?_ (State.fire_law _ _ _ _ _ _) ?_
          | apply Law.next ?_ (State.casEvent_law _ _) ?_ | apply Law.next ?_ (State.memberFence_law _ _ _) ?_
          | decide | (exact fun u => Law.refl u)
    | (intro _; try dsimp only)
    | with_reducible apply Law.mk ?_

theorem execSag_law (f : Frame) (s : State) :
    LawO [.free, .out, .nvme, .sqs, .qrecs, .ctxs, .slices, .zones, .gate, .staging, .toks, .bpm, .dma, .sward, .blocks, .dies, .flash, .fch, .zne, .par, .lat, .key, .cas, .mtr, .upd, .nv, .evt, .log] s (execSag f s) := by
  unfold Sys2Proof.Machine.execSag
  try dsimp only
  repeat' first
    | with_reducible
        first
          | apply Law.refl | exact Law.idle | apply Law.ite | apply LawO.next | apply LawO.ite
          | apply Law.next ?_ (State.crownIn_law _ _ _ (r := [.free, .out, .nvme, .sqs, .qrecs, .ctxs, .slices, .zones, .gate, .staging, .toks, .bpm, .dma, .sward, .blocks, .dies, .flash, .fch, .zne, .par, .lat, .key, .cas, .mtr, .upd, .nv, .evt, .log]) ?_ ?_) ?_
          | apply Law.next ?_ (State.memberFence_law _ _ _) ?_ | decide | (exact fun u => Law.refl u)
    | (intro _; try dsimp only)

theorem execMediaEvent_law (f : Frame) (k : MediaKind) (s : State) :
    LawO [.free, .out, .nvme, .sqs, .qrecs, .ctxs, .slices, .zones, .gate, .staging, .toks, .bpm, .dma, .sward, .blocks, .dies, .flash, .fch, .zne, .par, .lat, .key, .cas, .mtr, .upd, .nv, .evt, .log] s (execMediaEvent f k s) := by
  unfold Sys2Proof.Machine.execMediaEvent
  try dsimp only
  repeat' first
    | with_reducible
        first
          | apply Law.refl | exact Law.idle | apply Law.ite | apply LawO.next | apply LawO.ite
          | apply Law.next ?_ (State.crownIn_law _ _ _ (r := [.free, .out, .nvme, .sqs, .qrecs, .ctxs, .slices, .zones, .gate, .staging, .toks, .bpm, .dma, .sward, .blocks, .dies, .flash, .fch, .zne, .par, .lat, .key, .cas, .mtr, .upd, .nv, .evt, .log]) ?_ ?_) ?_
          | apply Law.next ?_ (State.sysGo_law _) ?_ | apply Law.next ?_ (State.enterSys_law _ _) ?_ | decide
          | (exact fun u => Law.refl u)
    | (intro _; try dsimp only)
    | split
    | with_reducible apply Law.mk ?_

theorem execStopOrder_law (f : Frame) (s : State) :
    LawO [.out, .sqs, .qrecs, .ctxs, .slices, .zones, .gate, .staging, .toks, .bpm, .dma, .sward, .dies, .fch, .par, .drc, .key, .cas, .pwr, .mon, .nv, .evt, .log] s (execStopOrder f s) := by
  unfold Sys2Proof.Machine.execStopOrder
  try dsimp only
  repeat' first
    | with_reducible
        first
          | apply Law.refl | exact Law.idle | apply Law.ite | apply LawO.next | apply LawO.ite
          | apply Law.next ?_ (State.memberIn_law _ _ _ (r := [.out, .sqs, .qrecs, .ctxs, .slices, .zones, .gate, .staging, .toks, .bpm, .dma, .sward, .dies, .fch, .par, .drc, .key, .cas, .pwr, .mon, .nv, .evt, .log]) ?_ ?_) ?_
          | apply Law.next ?_ (State.enterStop_law _) ?_ | decide | (exact fun u => Law.refl u)
    | (intro _; try dsimp only)

theorem execStagingTick_law (s : State) :
    LawO [.free, .out, .nvme, .sqs, .qrecs, .ctxs, .slices, .zones, .gate, .staging, .toks, .bpm, .dma, .sward, .blocks, .dies, .flash, .fch, .zne, .par, .lat, .key, .cas, .mtr, .upd, .nv, .evt, .log] s (execStagingTick s) := by
  unfold Sys2Proof.Machine.execStagingTick
  try dsimp only
  repeat' first
    | with_reducible
        first
          | apply Law.refl | apply Law.ite | apply LawO.next | apply LawO.ite
          | apply Law.next ?_ (State.stagingAt_law _ _) ?_ | decide

theorem execCheckTick_law (s : State) :
    LawO [.now, .free, .out, .img, .manifest, .pci, .nvme, .sqs, .cqs, .qrecs, .ctxs, .slices, .nss, .zones, .gate, .staging, .toks, .bpm, .dma, .sward, .blocks, .dies, .flash, .fch, .zne, .par, .lat, .drc, .ecc, .key, .cas, .mtr, .pwr, .brm, .thm, .mon, .upd, .nv, .efl, .evt, .log, .side] s (execCheckTick s) := by
  unfold Sys2Proof.Machine.execCheckTick
  try dsimp only
  repeat' first
    | with_reducible
        first
          | apply Law.refl | apply Law.ite | apply LawO.next | apply LawO.ite
          | apply Law.next ?_ (State.selfCheck_law _) ?_ | apply Law.next ?_ (State.checkAt_law _ _) ?_ | decide

theorem execCommit_law (stamp : Nat) (zone : Nat) (s : State) :
    LawO [.free, .out, .nvme, .sqs, .qrecs, .ctxs, .slices, .nss, .zones, .gate, .staging, .toks, .bpm, .dma, .sward, .blocks, .dies, .flash, .fch, .zne, .par, .lat, .key, .cas, .mtr, .upd, .nv, .evt, .log] s (execCommit stamp zone s) := by
  unfold Sys2Proof.Machine.execCommit
  try dsimp only
  repeat' first
    | with_reducible
        first
          | apply Law.refl | apply LawO.next | apply LawO.ite | apply Law.next ?_ (State.sysGo_law _) ?_
          | apply Law.next ?_ (State.commitAt_law _ _ _) ?_ | decide

theorem execPerstAsserted_law (s : State) :
    LawO [.free, .out, .pci, .nvme, .sqs, .cqs, .qrecs, .ctxs, .slices, .nss, .zones, .gate, .staging, .toks, .bpm, .dma, .sward, .blocks, .dies, .flash, .fch, .par, .key, .mtr, .brm, .nv, .evt, .log] s (execPerstAsserted s) := by
  unfold Sys2Proof.Machine.execPerstAsserted
  try dsimp only
  repeat' first
    | with_reducible
        first
          | apply Law.refl | apply LawO.next | apply LawO.ite | apply Law.next ?_ (State.hostReset_law _) ?_
          | apply Law.next ?_ (State.pcieDrop_law _) ?_ | decide
    | with_reducible apply Law.mk ?_

theorem execPerstDeasserted_law (s : State) :
    LawO [.pci] s (execPerstDeasserted s) := by
  unfold Sys2Proof.Machine.execPerstDeasserted
  try dsimp only
  repeat' first
    | with_reducible
        first
          | apply Law.refl | apply LawO.next | apply LawO.ite
    | with_reducible apply Law.mk ?_

theorem execFunctionLevelReset_law (s : State) :
    LawO [.free, .out, .pci, .nvme, .sqs, .cqs, .qrecs, .ctxs, .slices, .nss, .zones, .gate, .staging, .toks, .bpm, .dma, .sward, .blocks, .dies, .flash, .fch, .par, .key, .mtr, .brm, .nv, .evt, .log] s (execFunctionLevelReset s) := by
  unfold Sys2Proof.Machine.execFunctionLevelReset
  try dsimp only
  repeat' first
    | with_reducible
        first
          | apply Law.refl | apply LawO.next | apply LawO.ite | apply Law.next ?_ (State.hostReset_law _) ?_
          | decide

theorem execHotReset_law (s : State) :
    LawO [.free, .out, .pci, .nvme, .sqs, .cqs, .qrecs, .ctxs, .slices, .nss, .zones, .gate, .staging, .toks, .bpm, .dma, .sward, .blocks, .dies, .flash, .fch, .par, .key, .mtr, .brm, .nv, .evt, .log] s (execHotReset s) := by
  unfold Sys2Proof.Machine.execHotReset
  try dsimp only
  repeat' first
    | with_reducible
        first
          | apply Law.refl | apply LawO.next | apply LawO.ite | apply Law.next ?_ (State.hostReset_law _) ?_
          | apply Law.next ?_ (State.pcieDrop_law _) ?_ | decide

theorem execRdyBound_law (s : State) :
    LawO [.nvme] s (execRdyBound s) := by
  unfold Sys2Proof.Machine.execRdyBound
  try dsimp only
  repeat' first
    | with_reducible
        first
          | apply Law.refl | apply Law.ite | apply LawO.next | apply LawO.ite
    | with_reducible apply Law.mk ?_

theorem execPcieLinkUp_law (rate : Nat) (width : Nat) (flit : Bool) (s : State) :
    LawO [.out, .pci, .slices, .evt] s (execPcieLinkUp rate width flit s) := by
  unfold Sys2Proof.Machine.execPcieLinkUp
  try dsimp only
  repeat' first
    | with_reducible
        first
          | apply Law.refl | apply Law.ite | apply LawO.next | apply LawO.ite
          | apply Law.next ?_ (State.msiCatchUp_law _) ?_ | apply Law.next ?_ (State.noticeFlush_law _ _) ?_
          | apply Law.forNats | decide
    | (intro _; try dsimp only)
    | with_reducible apply Law.mk ?_

theorem execKeepAliveExpiry_law (s : State) :
    LawO [.out, .evt, .log] s (execKeepAliveExpiry s) := by
  unfold Sys2Proof.Machine.execKeepAliveExpiry
  try dsimp only
  repeat' first
    | with_reducible
        first
          | apply Law.refl | apply Law.ite | apply LawO.next | apply LawO.ite
          | apply Law.next ?_ (State.fire_law _ _ _ _ _ _) ?_ | decide

theorem execKeepAlive_law (ctx : Nat) (s : State) :
    LawO [.nvme, .sqs, .qrecs, .ctxs, .gate, .dma] s (execKeepAlive ctx s) := by
  unfold Sys2Proof.Machine.execKeepAlive
  try dsimp only
  repeat' first
    | with_reducible
        first
          | apply Law.refl | exact Law.idle | apply LawO.next | apply LawO.ite
          | apply Law.next ?_ (State.admitAdmin_law _ _ _ _ (r := [.nvme, .sqs, .qrecs, .ctxs, .gate, .dma]) ?_ ?_) ?_
          | apply Law.next ?_ (State.adminDone_law _ _ _ _) ?_ | decide | (exact fun u => Law.refl u)
    | (intro _; try dsimp only)
    | with_reducible apply Law.mk ?_

theorem execIdentify_law (ctx : Nat) (s : State) :
    LawO [.out, .sqs, .qrecs, .ctxs, .gate, .dma] s (execIdentify ctx s) := by
  unfold Sys2Proof.Machine.execIdentify
  try dsimp only
  repeat' first
    | with_reducible
        first
          | apply Law.refl | exact Law.idle | apply LawO.next | apply LawO.ite
          | apply Law.next ?_ (State.admitAdmin_law _ _ _ _ (r := [.out, .sqs, .qrecs, .ctxs, .gate, .dma]) ?_ ?_) ?_
          | apply Law.next ?_ (State.finish_law _ _ _ _ _ _) ?_ | apply Law.next ?_ (State.adminDone_law _ _ _ _) ?_
          | apply Law.next ?_ (State.sendTo_law _ _ _ _ _) ?_ | decide | (exact fun u => Law.refl u)
    | (intro _; try dsimp only)
    | split

theorem execGetLogPage_law (ctx : Nat) (s : State) :
    LawO [.free, .out, .nvme, .sqs, .qrecs, .ctxs, .nss, .gate, .dma, .log] s (execGetLogPage ctx s) := by
  unfold Sys2Proof.Machine.execGetLogPage
  try dsimp only
  repeat' first
    | with_reducible
        first
          | apply Law.refl | exact Law.idle | apply Law.ite | apply LawO.next | apply LawO.ite
          | apply Law.next ?_ (State.admitAdmin_law _ _ _ _ (r := [.free, .out, .nvme, .sqs, .qrecs, .ctxs, .nss, .gate, .dma, .log]) ?_ ?_) ?_
          | apply Law.next ?_ (State.finish_law _ _ _ _ _ _) ?_ | apply Law.next ?_ (State.adminDone_law _ _ _ _) ?_
          | apply Law.next ?_ (State.logRead_law _ _) ?_ | apply Law.next ?_ (State.freeStep_law _) ?_
          | apply Law.next ?_ (State.sendTo_law _ _ _ _ _) ?_ | decide | (exact fun u => Law.refl u)
    | (intro _; try dsimp only)
    | split

theorem execSetFeatures_law (ctx : Nat) (s : State) :
    LawO [.nvme, .sqs, .qrecs, .ctxs, .gate, .dma, .nv] s (execSetFeatures ctx s) := by
  unfold Sys2Proof.Machine.execSetFeatures
  try dsimp only
  repeat' first
    | with_reducible
        first
          | apply Law.refl | exact Law.idle | apply Law.ite | apply LawO.next | apply LawO.ite
          | apply Law.next ?_ (State.admitAdmin_law _ _ _ _ (r := [.nvme, .sqs, .qrecs, .ctxs, .gate, .dma, .nv]) ?_ ?_) ?_
          | refine Law.next ?_ (LawP.get (State.setFeature_law _ _ _ _) ‹_ = Except.ok (_, _)›) ?_
          | apply Law.next ?_ (State.finish_law _ _ _ _ _ _) ?_ | apply Law.next ?_ (State.adminDone_law _ _ _ _) ?_
          | decide | (exact fun u => Law.refl u)
    | (intro _; try dsimp only)
    | split

theorem execGetFeatures_law (ctx : Nat) (s : State) :
    LawO [.sqs, .qrecs, .ctxs, .gate, .dma] s (execGetFeatures ctx s) := by
  unfold Sys2Proof.Machine.execGetFeatures
  try dsimp only
  repeat' first
    | with_reducible
        first
          | apply Law.refl | exact Law.idle | apply Law.ite | apply LawO.next | apply LawO.ite
          | apply Law.next ?_ (State.admitAdmin_law _ _ _ _ (r := [.sqs, .qrecs, .ctxs, .gate, .dma]) ?_ ?_) ?_
          | apply Law.next ?_ (State.finish_law _ _ _ _ _ _) ?_ | apply Law.next ?_ (State.featureBase_law _ _) ?_
          | apply Law.next ?_ (State.adminDone_law _ _ _ _) ?_ | decide | (exact fun u => Law.refl u)
    | (intro _; try dsimp only)
    | split

theorem execAsyncEventRequest_law (ctx : Nat) (s : State) :
    LawO [.nvme, .sqs, .qrecs, .ctxs, .gate, .dma] s (execAsyncEventRequest ctx s) := by
  unfold Sys2Proof.Machine.execAsyncEventRequest
  try dsimp only
  repeat' first
    | with_reducible
        first
          | apply Law.refl | exact Law.idle | apply Law.ite | apply LawO.next | apply LawO.ite
          | apply Law.next ?_ (State.admitAdmin_law _ _ _ _ (r := [.nvme, .sqs, .qrecs, .ctxs, .gate, .dma]) ?_ ?_) ?_
          | apply Law.next ?_ (State.finish_law _ _ _ _ _ _) ?_ | apply Law.next ?_ (State.stampCtx_law _ _) ?_
          | decide | (exact fun u => Law.refl u)
    | (intro _; try dsimp only)
    | split
    | with_reducible apply Law.mk ?_

theorem execAbort_law (ctx : Nat) (s : State) :
    LawO [.sqs, .qrecs, .ctxs, .gate, .dma] s (execAbort ctx s) := by
  unfold Sys2Proof.Machine.execAbort
  try dsimp only
  repeat' first
    | with_reducible
        first
          | apply Law.refl | exact Law.idle | apply Law.ite | apply LawO.next | apply LawO.ite
          | apply Law.next ?_ (State.admitAdmin_law _ _ _ _ (r := [.sqs, .qrecs, .ctxs, .gate, .dma]) ?_ ?_) ?_
          | apply Law.next ?_ (State.finish_law _ _ _ _ _ _) ?_ | apply Law.next ?_ (State.adminDone_law _ _ _ _) ?_
          | apply Law.next ?_ (State.ctxEdit_law _ _ _) ?_ | apply Law.next ?_ (State.stampCtx_law _ _) ?_
          | apply Law.next ?_ (State.enter_law _ _) ?_ | decide | (exact fun u => Law.refl u)
    | (intro _; try dsimp only)
    | split

theorem execNsCreate_law (ctx : Nat) (d : NsData) (s : State) :
    LawO [.sqs, .qrecs, .ctxs, .nss, .zones, .gate, .dma, .zne, .nv] s (execNsCreate ctx d s) := by
  unfold Sys2Proof.Machine.execNsCreate
  try dsimp only
  repeat' first
    | with_reducible
        first
          | apply Law.refl | exact Law.idle | apply LawO.next | apply LawO.ite
          | apply Law.next ?_ (State.admitAdmin_law _ _ _ _ (r := [.sqs, .qrecs, .ctxs, .nss, .zones, .gate, .dma, .zne, .nv]) ?_ ?_) ?_
          | apply Law.next ?_ (State.finish_law _ _ _ _ _ _) ?_ | apply Law.next ?_ (State.adminDone_law _ _ _ _) ?_
          | apply Law.next ?_ (State.nsMake_law _ _ _) ?_ | decide | (exact fun u => Law.refl u)
    | (intro _; try dsimp only)
    | split

theorem execNsDelete_law (ctx : Nat) (s : State) :
    LawO [.out, .nvme, .sqs, .qrecs, .ctxs, .slices, .nss, .zones, .gate, .staging, .toks, .bpm, .dma, .sward, .blocks, .dies, .fch, .zne, .par, .key, .cas, .nv, .evt, .log] s (execNsDelete ctx s) := by
  unfold Sys2Proof.Machine.execNsDelete
  try dsimp only
  repeat' first
    | with_reducible
        first
          | apply Law.refl | exact Law.idle | apply Law.ite | apply LawO.next | apply LawO.ite
          | apply Law.next ?_ (State.nsDeleteEnd_law _ _ _) ?_
          | apply Law.next ?_ (State.admitAdmin_law _ _ _ _ (r := [.out, .nvme, .sqs, .qrecs, .ctxs, .slices, .nss, .zones, .gate, .staging, .toks, .bpm, .dma, .sward, .blocks, .dies, .fch, .zne, .par, .key, .cas, .nv, .evt, .log]) ?_ ?_) ?_
          | apply Law.next ?_ (State.finish_law _ _ _ _ _ _) ?_ | apply Law.next ?_ (State.stampCtx_law _ _) ?_
          | decide | (exact fun u => Law.refl u)
    | (intro _; try dsimp only)
    | split
    | with_reducible apply Law.mk ?_

theorem execNsAttach_law (ctx : Nat) (controllers : List Nat) (s : State) :
    LawO [.nvme, .sqs, .qrecs, .ctxs, .nss, .gate, .dma, .nv] s (execNsAttach ctx controllers s) := by
  unfold Sys2Proof.Machine.execNsAttach
  try dsimp only
  repeat' first
    | with_reducible
        first
          | apply Law.refl | exact Law.idle | apply Law.ite | apply LawO.next | apply LawO.ite
          | apply Law.next ?_ (State.admitAdmin_law _ _ _ _ (r := [.nvme, .sqs, .qrecs, .ctxs, .nss, .gate, .dma, .nv]) ?_ ?_) ?_
          | apply Law.next ?_ (State.finish_law _ _ _ _ _ _) ?_ | apply Law.next ?_ (State.nsChanged_law _ _) ?_
          | apply Law.next ?_ (State.adminDone_law _ _ _ _) ?_ | apply Law.next ?_ (State.ledger_law _) ?_ | decide
          | (exact fun u => Law.refl u)
    | (intro _; try dsimp only)
    | split
    | with_reducible apply Law.mk ?_

theorem execSanitizeCrypto_law (ctx : Nat) (s : State) :
    LawO [.out, .nvme, .sqs, .qrecs, .ctxs, .gate, .dma, .evt, .log] s (execSanitizeCrypto ctx s) := by
  unfold Sys2Proof.Machine.execSanitizeCrypto
  try dsimp only
  repeat' first
    | with_reducible
        first
          | apply Law.refl | exact Law.idle | apply Law.ite | apply LawO.next | apply LawO.ite
          | apply Law.next ?_ (State.admitAdmin_law _ _ _ _ (r := [.out, .nvme, .sqs, .qrecs, .ctxs, .gate, .dma, .evt, .log]) ?_ ?_) ?_
          | apply Law.next ?_ (State.finish_law _ _ _ _ _ _) ?_ | apply Law.next ?_ (State.fire_law _ _ _ _ _ _) ?_
          | apply Law.next ?_ (State.sanStart_law _ _ _ _) ?_ | decide | (exact fun u => Law.refl u)
    | (intro _; try dsimp only)

theorem execSanitizeBlock_law (ctx : Nat) (s : State) :
    LawO [.nvme, .sqs, .qrecs, .ctxs, .gate, .dma] s (execSanitizeBlock ctx s) := by
  unfold Sys2Proof.Machine.execSanitizeBlock
  try dsimp only
  repeat' first
    | with_reducible
        first
          | apply Law.refl | exact Law.idle | apply LawO.next | apply LawO.ite
          | apply Law.next ?_ (State.admitAdmin_law _ _ _ _ (r := [.nvme, .sqs, .qrecs, .ctxs, .gate, .dma]) ?_ ?_) ?_
          | apply Law.next ?_ (State.sanStart_law _ _ _ _) ?_ | decide | (exact fun u => Law.refl u)
    | (intro _; try dsimp only)

theorem execSanitizeExit_law (ctx : Nat) (s : State) :
    LawO [.nvme, .sqs, .qrecs, .ctxs, .gate, .dma] s (execSanitizeExit ctx s) := by
  unfold Sys2Proof.Machine.execSanitizeExit
  try dsimp only
  repeat' first
    | with_reducible
        first
          | apply Law.refl | exact Law.idle | apply Law.ite | apply LawO.next | apply LawO.ite
          | apply Law.next ?_ (State.admitAdmin_law _ _ _ _ (r := [.nvme, .sqs, .qrecs, .ctxs, .gate, .dma]) ?_ ?_) ?_
          | apply Law.next ?_ (State.finish_law _ _ _ _ _ _) ?_ | apply Law.next ?_ (State.adminDone_law _ _ _ _) ?_
          | decide | (exact fun u => Law.refl u)
    | (intro _; try dsimp only)
    | with_reducible apply Law.mk ?_

theorem execKeyRotate_law (ctx : Nat) (d : KeyData) (s : State) :
    LawO [.sqs, .qrecs, .ctxs, .gate, .dma] s (execKeyRotate ctx d s) := by
  unfold Sys2Proof.Machine.execKeyRotate
  try dsimp only
  repeat' first
    | with_reducible
        first
          | apply Law.refl | apply LawO.next | apply LawO.ite | apply Law.next ?_ (State.keyCmd_law _ _ _ _) ?_
          | decide

theorem execKeyRenew_law (ctx : Nat) (d : KeyData) (s : State) :
    LawO [.sqs, .qrecs, .ctxs, .gate, .dma] s (execKeyRenew ctx d s) := by
  unfold Sys2Proof.Machine.execKeyRenew
  try dsimp only
  repeat' first
    | with_reducible
        first
          | apply Law.refl | apply LawO.next | apply LawO.ite | apply Law.next ?_ (State.keyCmd_law _ _ _ _) ?_
          | decide

theorem execKeyStop_law (ctx : Nat) (d : KeyData) (s : State) :
    LawO [.sqs, .qrecs, .ctxs, .gate, .dma] s (execKeyStop ctx d s) := by
  unfold Sys2Proof.Machine.execKeyStop
  try dsimp only
  repeat' first
    | with_reducible
        first
          | apply Law.refl | apply LawO.next | apply LawO.ite | apply Law.next ?_ (State.keyCmd_law _ _ _ _) ?_
          | decide

theorem execCascadeStatus_law (ctx : Nat) (s : State) :
    LawO [.out, .sqs, .qrecs, .ctxs, .gate, .dma] s (execCascadeStatus ctx s) := by
  unfold Sys2Proof.Machine.execCascadeStatus
  try dsimp only
  repeat' first
    | with_reducible
        first
          | apply Law.refl | exact Law.idle | apply Law.ite | apply LawO.next | apply LawO.ite
          | apply Law.next ?_ (State.admitAdmin_law _ _ _ _ (r := [.out, .sqs, .qrecs, .ctxs, .gate, .dma]) ?_ ?_) ?_
          | apply Law.next ?_ (State.finish_law _ _ _ _ _ _) ?_ | apply Law.next ?_ (State.adminDone_law _ _ _ _) ?_
          | apply Law.next ?_ (State.sendTo_law _ _ _ _ _) ?_ | decide | (exact fun u => Law.refl u)
    | (intro _; try dsimp only)
    | split

theorem execFwDownload_law (ctx : Nat) (blocks : List UnitData) (s : State) :
    LawO [.sqs, .qrecs, .ctxs, .gate, .dma, .nv] s (execFwDownload ctx blocks s) := by
  unfold Sys2Proof.Machine.execFwDownload
  try dsimp only
  repeat' first
    | with_reducible
        first
          | apply Law.refl | exact Law.idle | apply Law.ite | apply LawO.next | apply LawO.ite
          | apply Law.next ?_ (State.admitAdmin_law _ _ _ _ (r := [.sqs, .qrecs, .ctxs, .gate, .dma, .nv]) ?_ ?_) ?_
          | apply Law.next ?_ (State.finish_law _ _ _ _ _ _) ?_ | apply Law.next ?_ (State.stampCtx_law _ _) ?_
          | apply Law.next ?_ (State.norStart_law _) ?_ | decide | (exact fun u => Law.refl u)
    | (intro _; try dsimp only)
    | split
    | with_reducible apply Law.mk ?_

theorem execFwCommit_law (ctx : Nat) (pkg : SlotFind) (s : State) :
    LawO [.out, .sqs, .qrecs, .ctxs, .gate, .dma, .sward, .cas, .nv, .evt, .log] s (execFwCommit ctx pkg s) := by
  unfold Sys2Proof.Machine.execFwCommit
  try dsimp only
  repeat' first
    | with_reducible
        first
          | apply Law.refl | exact Law.idle | apply Law.ite | apply LawO.next | apply LawO.ite
          | apply Law.next ?_ (State.admitAdmin_law _ _ _ _ (r := [.out, .sqs, .qrecs, .ctxs, .gate, .dma, .sward, .cas, .nv, .evt, .log]) ?_ ?_) ?_
          | apply Law.next ?_ (State.finish_law _ _ _ _ _ _) ?_
          | apply Law.next ?_ (State.failRecAt_law _ _ _ _ _ _) ?_
          | apply Law.next ?_ (State.fire_law _ _ _ _ _ _) ?_ | apply Law.next ?_ (State.adminDone_law _ _ _ _) ?_
          | apply Law.next ?_ (State.copyStart_law _ _ _ _ _ _) ?_ | apply Law.next ?_ (State.stampCtx_law _ _) ?_
          | decide | (exact fun u => Law.refl u)
    | (intro _; try dsimp only)
    | split
    | with_reducible apply Law.mk ?_

theorem execNorOperationComplete_law (s : State) :
    LawO [.now, .free, .out, .img, .manifest, .pci, .nvme, .sqs, .cqs, .qrecs, .ctxs, .slices, .nss, .zones, .gate, .staging, .toks, .bpm, .dma, .sward, .blocks, .dies, .flash, .fch, .zne, .par, .lat, .drc, .ecc, .key, .cas, .mtr, .pwr, .brm, .thm, .mon, .upd, .nv, .efl, .evt, .log, .side] s (execNorOperationComplete s) := by
  unfold Sys2Proof.Machine.execNorOperationComplete
  try dsimp only
  repeat' first
    | with_reducible
        first
          | apply Law.refl | apply Law.ite | apply LawO.next | apply LawO.ite
          | apply Law.next ?_ (State.pieceStep_law _) ?_ | apply Law.next ?_ (State.selfCheck_law _) ?_
          | apply Law.next ?_ (State.slotCopied_law _) ?_ | decide

theorem execDiscardEraseDone_law (s : State) :
    LawO [.out, .nv] s (execDiscardEraseDone s) := by
  unfold Sys2Proof.Machine.execDiscardEraseDone
  try dsimp only
  repeat' first
    | with_reducible
        first
          | apply Law.refl | apply Law.ite | apply LawO.next | apply LawO.ite
          | apply Law.next ?_ (State.pldmAsk_law _) ?_ | decide
    | with_reducible apply Law.mk ?_

theorem execUpdate_law (f : Frame) (op : UpdateOp) (s : State) :
    LawO [.now, .free, .out, .img, .manifest, .pci, .nvme, .sqs, .cqs, .qrecs, .ctxs, .slices, .nss, .zones, .gate, .staging, .toks, .bpm, .dma, .sward, .blocks, .dies, .flash, .fch, .zne, .par, .lat, .drc, .ecc, .key, .cas, .mtr, .pwr, .brm, .thm, .mon, .upd, .nv, .efl, .evt, .log, .side] s (execUpdate f op s) := by
  unfold Sys2Proof.Machine.execUpdate
  try dsimp only
  repeat' first
    | with_reducible
        first
          | apply Law.refl | exact Law.idle | apply Law.ite | apply LawO.next | apply LawO.ite
          | apply Law.next ?_ (State.memberIn_law _ _ _ (r := [.now, .free, .out, .img, .manifest, .pci, .nvme, .sqs, .cqs, .qrecs, .ctxs, .slices, .nss, .zones, .gate, .staging, .toks, .bpm, .dma, .sward, .blocks, .dies, .flash, .fch, .zne, .par, .lat, .drc, .ecc, .key, .cas, .mtr, .pwr, .brm, .thm, .mon, .upd, .nv, .efl, .evt, .log, .side]) ?_ ?_) ?_
          | apply Law.next ?_ (State.casSend_law _ _ _ _ _ _) ?_
          | apply Law.next ?_ (State.failRecAt_law _ _ _ _ _ _) ?_ | apply Law.next ?_ (State.armSelf_law _ _ _) ?_
          | apply Law.next ?_ (State.chipReset_law _ _) ?_ | apply Law.next ?_ (State.confirm_law _) ?_ | decide
          | (exact fun u => Law.refl u)
    | (intro _; try dsimp only)
    | split
    | with_reducible apply Law.mk ?_

theorem execVote_law (f : Frame) (v : VoteKind) (s : State) :
    LawO [.now, .free, .out, .img, .manifest, .pci, .nvme, .sqs, .cqs, .qrecs, .ctxs, .slices, .nss, .zones, .gate, .staging, .toks, .bpm, .dma, .sward, .blocks, .dies, .flash, .fch, .zne, .par, .lat, .drc, .ecc, .key, .cas, .mtr, .pwr, .brm, .thm, .mon, .upd, .nv, .efl, .evt, .log, .side] s (execVote f v s) := by
  unfold Sys2Proof.Machine.execVote
  try dsimp only
  repeat' first
    | with_reducible
        first
          | apply Law.refl | exact Law.idle | apply Law.ite | apply LawO.next | apply LawO.ite
          | apply Law.next ?_ (State.crownIn_law _ _ _ (r := [.now, .free, .out, .img, .manifest, .pci, .nvme, .sqs, .cqs, .qrecs, .ctxs, .slices, .nss, .zones, .gate, .staging, .toks, .bpm, .dma, .sward, .blocks, .dies, .flash, .fch, .zne, .par, .lat, .drc, .ecc, .key, .cas, .mtr, .pwr, .brm, .thm, .mon, .upd, .nv, .efl, .evt, .log, .side]) ?_ ?_) ?_
          | apply Law.next ?_ (State.memEdit_law _ _ _) ?_ | apply Law.next ?_ (State.selfCheck_law _) ?_
          | apply Law.next ?_ (State.commitArm_law _) ?_ | apply Law.next ?_ (State.voteAbort_law _ _) ?_
          | apply Law.next ?_ (State.failRecOf_law _ _ _ _ _ _ _) ?_ | apply Law.next ?_ (State.armCheck_law _) ?_
          | decide | (exact fun u => Law.refl u)
    | (intro _; try dsimp only)
    | split

theorem execVoteTimeout_law (s : State) :
    LawO [.out, .sqs, .qrecs, .ctxs, .sward, .cas, .nv, .evt, .log] s (execVoteTimeout s) := by
  unfold Sys2Proof.Machine.execVoteTimeout
  try dsimp only
  repeat' first
    | with_reducible
        first
          | apply Law.refl | apply Law.ite | apply LawO.next | apply LawO.ite
          | apply Law.next ?_ (State.voteAbort_law _ _) ?_ | decide

theorem execQueryDeviceIdentifiers_law (s : State) :
    LawO [.out] s (execQueryDeviceIdentifiers s) := by
  unfold Sys2Proof.Machine.execQueryDeviceIdentifiers
  try dsimp only
  repeat' first
    | with_reducible
        first
          | apply Law.refl | apply Law.ite | apply LawO.next | apply LawO.ite
          | apply Law.next ?_ (State.pldmSay_law _ _ _) ?_ | decide
    | split

theorem execGetFirmwareParameters_law (s : State) :
    LawO [.out] s (execGetFirmwareParameters s) := by
  unfold Sys2Proof.Machine.execGetFirmwareParameters
  try dsimp only
  repeat' first
    | with_reducible
        first
          | apply Law.refl | apply Law.ite | apply LawO.next | apply LawO.ite
          | apply Law.next ?_ (State.pldmSay_law _ _ _) ?_ | decide

theorem execRequestUpdate_law (maxTransfer : Nat) (s : State) :
    LawO [.out, .nv] s (execRequestUpdate maxTransfer s) := by
  unfold Sys2Proof.Machine.execRequestUpdate
  try dsimp only
  repeat' first
    | with_reducible
        first
          | apply Law.refl | apply Law.ite | apply LawO.next | apply LawO.ite
          | apply Law.next ?_ (State.pldmSay_law _ _ _) ?_ | decide
    | with_reducible apply Law.mk ?_

theorem execPassComponentTable_law (stamp : Nat) (s : State) :
    LawO [.out, .nv] s (execPassComponentTable stamp s) := by
  unfold Sys2Proof.Machine.execPassComponentTable
  try dsimp only
  repeat' first
    | with_reducible
        first
          | apply Law.refl | apply Law.ite | apply LawO.next | apply LawO.ite
          | apply Law.next ?_ (State.pldmSay_law _ _ _) ?_ | apply Law.next ?_ (State.stampKeep_law _ _) ?_ | decide
    | with_reducible apply Law.mk ?_

theorem execUpdateComponent_law (stamp : Nat) (imageSize : Nat) (s : State) :
    LawO [.out, .nv] s (execUpdateComponent stamp imageSize s) := by
  unfold Sys2Proof.Machine.execUpdateComponent
  try dsimp only
  repeat' first
    | with_reducible
        first
          | apply Law.refl | apply Law.ite | apply LawO.next | apply LawO.ite
          | apply Law.next ?_ (State.pldmSay_law _ _ _) ?_ | apply Law.next ?_ (State.stampKeep_law _ _) ?_
          | apply Law.next ?_ (State.pldmAsk_law _) ?_ | decide
    | with_reducible apply Law.mk ?_

theorem execRequestFirmwareData_law (blk : Nat) (content : UnitData) (s : State) :
    LawO [.nv] s (execRequestFirmwareData blk content s) := by
  unfold Sys2Proof.Machine.execRequestFirmwareData
  try dsimp only
  repeat' first
    | with_reducible
        first
          | apply Law.refl | apply Law.ite | apply LawO.next | apply LawO.ite
          | apply Law.next ?_ (State.norStart_law _) ?_ | decide
    | with_reducible apply Law.mk ?_

theorem execTransferComplete_law (s : State) :
    LawO [.out, .nv] s (execTransferComplete s) := by
  unfold Sys2Proof.Machine.execTransferComplete
  try dsimp only
  repeat' first
    | with_reducible
        first
          | apply Law.refl | apply Law.ite | apply LawO.next | apply LawO.ite
          | apply Law.next ?_ (State.pldmSay_law _ _ _) ?_ | decide
    | with_reducible apply Law.mk ?_

theorem execVerifyComplete_law (pkg : SlotFind) (s : State) :
    LawO [.out, .nv, .evt, .log] s (execVerifyComplete pkg s) := by
  unfold Sys2Proof.Machine.execVerifyComplete
  try dsimp only
  repeat' first
    | with_reducible
        first
          | apply Law.refl | apply Law.ite | apply LawO.next | apply LawO.ite
          | apply Law.next ?_ (State.pldmSay_law _ _ _) ?_ | apply Law.next ?_ (State.failRecAt_law _ _ _ _ _ _) ?_
          | decide
    | split
    | with_reducible apply Law.mk ?_

theorem execApplyComplete_law (s : State) :
    LawO [.nv] s (execApplyComplete s) := by
  unfold Sys2Proof.Machine.execApplyComplete
  try dsimp only
  repeat' first
    | with_reducible
        first
          | apply Law.refl | apply Law.ite | apply LawO.next | apply LawO.ite
    | with_reducible apply Law.mk ?_

theorem execActivateFirmware_law (selfContained : Bool) (s : State) :
    LawO [.now, .free, .out, .img, .manifest, .pci, .nvme, .sqs, .cqs, .qrecs, .ctxs, .slices, .nss, .zones, .gate, .staging, .toks, .bpm, .dma, .sward, .blocks, .dies, .flash, .fch, .zne, .par, .lat, .drc, .ecc, .key, .cas, .mtr, .pwr, .brm, .thm, .mon, .upd, .nv, .efl, .evt, .log, .side] s (execActivateFirmware selfContained s) := by
  unfold Sys2Proof.Machine.execActivateFirmware
  try dsimp only
  repeat' first
    | with_reducible
        first
          | apply Law.refl | apply Law.ite | apply LawO.next | apply LawO.ite
          | apply Law.next ?_ (State.pldmSay_law _ _ _) ?_ | apply Law.next ?_ (State.selfCheck_law _) ?_
          | apply Law.next ?_ (State.commitSend_law _) ?_ | decide
    | with_reducible apply Law.mk ?_

theorem execGetStatus_law (s : State) :
    LawO [.out] s (execGetStatus s) := by
  unfold Sys2Proof.Machine.execGetStatus
  try dsimp only
  repeat' first
    | with_reducible
        first
          | apply Law.refl | apply Law.ite | apply LawO.next | apply LawO.ite
          | apply Law.next ?_ (State.pldmSay_law _ _ _) ?_ | decide

theorem execCancelUpdateComponent_law (s : State) :
    LawO [.out, .nv] s (execCancelUpdateComponent s) := by
  unfold Sys2Proof.Machine.execCancelUpdateComponent
  try dsimp only
  repeat' first
    | with_reducible
        first
          | apply Law.refl | apply Law.ite | apply LawO.next | apply LawO.ite
          | apply Law.next ?_ (State.pldmSay_law _ _ _) ?_ | decide
    | with_reducible apply Law.mk ?_

theorem execCancelUpdate_law (s : State) :
    LawO [.out, .nv] s (execCancelUpdate s) := by
  unfold Sys2Proof.Machine.execCancelUpdate
  try dsimp only
  repeat' first
    | with_reducible
        first
          | apply Law.refl | apply Law.ite | apply LawO.next | apply LawO.ite
          | apply Law.next ?_ (State.pldmSay_law _ _ _) ?_ | decide
    | with_reducible apply Law.mk ?_

theorem execHistSnap_law (alsoClear : Bool) (s : State) :
    LawO [.lat] s (execHistSnap alsoClear s) := by
  unfold Sys2Proof.Machine.execHistSnap
  try dsimp only
  repeat' first
    | with_reducible
        first
          | apply Law.refl | apply Law.ite | apply LawO.next | apply LawO.ite
          | apply Law.next ?_ (State.histClearNow_law _) ?_ | apply Law.next ?_ (State.histSnapNow_law _) ?_
          | decide

theorem execHistClear_law (s : State) :
    LawO [.lat] s (execHistClear s) := by
  unfold Sys2Proof.Machine.execHistClear
  try dsimp only
  repeat' first
    | with_reducible
        first
          | apply Law.refl | apply LawO.next | apply LawO.ite | apply Law.next ?_ (State.histClearNow_law _) ?_
          | decide

theorem execRegisterWrite_law (sp : RegSpace) (offset : Nat) (size : Nat) (v : Word) (s : State) :
    LawO [.free, .out, .pci, .nvme, .sqs, .cqs, .qrecs, .ctxs, .slices, .nss, .zones, .gate, .staging, .toks, .bpm, .dma, .sward, .blocks, .dies, .flash, .fch, .zne, .par, .lat, .drc, .ecc, .key, .cas, .mtr, .pwr, .brm, .thm, .mon, .upd, .nv, .efl, .evt, .log] s (execRegisterWrite sp offset size v s) := by
  unfold Sys2Proof.Machine.execRegisterWrite
  try dsimp only
  repeat' first
    | with_reducible
        first
          | apply Law.refl | exact Law.idle | apply Law.ite | apply LawO.next | apply LawO.ite
          | apply Law.next ?_ (State.cfgWrite_law _ _ _) ?_
          | apply Law.next ?_ (twice_law _ _ _ _ _ (r := [.free, .out, .pci, .nvme, .sqs, .cqs, .qrecs, .ctxs, .slices, .nss, .zones, .gate, .staging, .toks, .bpm, .dma, .sward, .blocks, .dies, .flash, .fch, .zne, .par, .lat, .drc, .ecc, .key, .cas, .mtr, .pwr, .brm, .thm, .mon, .upd, .nv, .efl, .evt, .log]) ?_ ?_) ?_
          | apply Law.next ?_ (State.bar0Write_law _ _ _) ?_ | apply Law.next ?_ (State.cuffWrite8_law _ _ _) ?_
          | apply Law.next ?_ (State.cuffWrite4_law _ _ _) ?_ | apply Law.next ?_ (State.bar4Fail_law _ _ _ _ _) ?_
          | refine Law.next ?_ (LawO.get (execSlcMboutPush_law _ _ _ _ _) ‹_ = Host.Outcome.next _›) ?_
          | apply LawO.after ?_ (execSlcMboutPush_law _ _ _ _ _) ?_
          | apply LawO.mono (execSlcMboutPush_law _ _ _ _ _) ?_
          | apply Law.next ?_ (State.pageWrite_law _ _ _ _ _) ?_ | decide | (exact fun u => Law.refl u)
    | (intro _; try dsimp only)
    | split

theorem execMctpRead_law (port : Nat) (eid : Nat) (vendor : Nat) (seq : Nat) (offset : Nat) (count : Nat) (s : State) :
    LawO [.now, .free, .out, .nvme, .sqs, .qrecs, .ctxs, .slices, .zones, .gate, .staging, .toks, .bpm, .dma, .sward, .blocks, .dies, .flash, .fch, .zne, .par, .lat, .drc, .key, .cas, .mtr, .pwr, .mon, .upd, .nv, .evt, .log, .side] s (execMctpRead port eid vendor seq offset count s) := by
  unfold Sys2Proof.Machine.execMctpRead
  try dsimp only
  repeat' first
    | with_reducible
        first
          | apply Law.refl | exact Law.idle | apply Law.iteSnd | apply LawO.next | apply LawO.ite
          | apply Law.next ?_ (State.mctp_law _ _ _ _ _ _ _ _ (r := [.now, .free, .out, .nvme, .sqs, .qrecs, .ctxs, .slices, .zones, .gate, .staging, .toks, .bpm, .dma, .sward, .blocks, .dies, .flash, .fch, .zne, .par, .lat, .drc, .key, .cas, .mtr, .pwr, .mon, .upd, .nv, .evt, .log, .side]) ?_ ?_) ?_
          | apply Law.next ?_ (State.readRun_law _ _ _) ?_
          | refine Law.next ?_ (Law.snd (State.readRun_law _ _ _) ‹_ = (_, _)›) ?_
          | apply Law.next ?_ (State.freeStep_law _) ?_ | assumption | decide | (exact fun u => Law.refl u)
    | (intro _; try dsimp only)

theorem execMctpWrite_law (port : Nat) (eid : Nat) (vendor : Nat) (seq : Nat) (offset : Nat) (count : Nat) (dws : List Dword) (s : State) :
    LawO [.now, .free, .out, .pci, .nvme, .sqs, .qrecs, .ctxs, .slices, .zones, .gate, .staging, .toks, .bpm, .dma, .sward, .blocks, .dies, .flash, .fch, .zne, .par, .lat, .drc, .ecc, .key, .cas, .mtr, .pwr, .brm, .thm, .mon, .upd, .nv, .efl, .evt, .log, .side] s (execMctpWrite port eid vendor seq offset count dws s) := by
  unfold Sys2Proof.Machine.execMctpWrite
  try dsimp only
  repeat' first
    | with_reducible
        first
          | apply Law.refl | exact Law.idle | apply LawO.next | apply LawO.ite
          | apply Law.next ?_ (State.mctp_law _ _ _ _ _ _ _ _ (r := [.now, .free, .out, .pci, .nvme, .sqs, .qrecs, .ctxs, .slices, .zones, .gate, .staging, .toks, .bpm, .dma, .sward, .blocks, .dies, .flash, .fch, .zne, .par, .lat, .drc, .ecc, .key, .cas, .mtr, .pwr, .brm, .thm, .mon, .upd, .nv, .efl, .evt, .log, .side]) ?_ ?_) ?_
          | apply Law.next ?_ (State.writeRun_law _ _ _) ?_ | decide | (exact fun u => Law.refl u)
    | (intro _; try dsimp only)

theorem execI3cCcc_law (port : Nat) (c : Ccc) (s : State) :
    LawO [.free, .out, .evt, .side] s (execI3cCcc port c s) := by
  unfold Sys2Proof.Machine.execI3cCcc
  try dsimp only
  repeat' first
    | with_reducible
        first
          | apply Law.refl | apply Law.ite | apply LawO.next | apply LawO.ite
          | apply Law.next ?_ (State.say_law _ _) ?_ | apply Law.next ?_ (State.ibiEval_law _) ?_
          | apply Law.next ?_ (State.freeStep_law _) ?_ | decide
    | split
    | with_reducible apply Law.mk ?_

/-- A row that takes no writes draws read-pool units at most. -/
theorem State.admitIo_reads_law (s : State) (c : Nat) (row : SqEntry → Bool) (kind : EKind) (ranges : List DsmRange)
    (hr : ∀ e, row e = true → e.isWrite = false) :
    Law [.sqs, .qrecs, .ctxs, .gate, .bpm, .dma] s (State.admitIo s c row kind ranges) := by
  unfold Sys2Proof.Machine.State.admitIo
  split
  · exact Law.refl _
  · rename_i x hx
    dsimp only
    by_cases hw : x.e.isWrite = true
    · have h1 : x.e.opc = 1 ∨ x.e.opc = 0x7d := by
        have := hw
        unfold SqEntry.isWrite at this
        simpa using this
      have h2 : row x.e = false := by
        cases h : row x.e
        · rfl
        · rw [hr _ h] at hw
          cases hw
      have h3 : ioOpcode x.e.opc = true := by rcases h1 with h | h <;> rw [h] <;> decide
      have h4 : (x.e.opc == 0x79) = false := by rcases h1 with h | h <;> rw [h] <;> decide
      rw [h2, h3, h4]
      simp
      exact Law.refl _
    · have hw' : x.e.isWrite = false := by simpa using hw
      unfold State.charge
      rw [hw']
      simp only [Bool.false_and, Bool.false_eq_true, if_false]
      repeat' first
        | with_reducible
            first
              | apply Law.refl | apply Law.ite | apply Law.next ?_ (State.finish_law _ _ _ _ _ _) ?_
              | apply Law.next ?_ (State.countEmpty_law _ _ _ _) ?_ | apply Law.next ?_ (State.enter_law _ _) ?_
              | apply Law.next ?_ (State.ctxEdit_law _ _ _) ?_ | apply Law.next ?_ (State.rdTake_law _ _ _) ?_
              | apply Law.next ?_ (State.drawStamp_law _) ?_ | decide
        | (intro _; try dsimp only)
        | split

theorem execFlush_law (ctx : Nat) (s : State) :
    LawO [.sqs, .qrecs, .ctxs, .gate, .bpm, .dma] s (execFlush ctx s) := by
  unfold Sys2Proof.Machine.execFlush
  apply LawO.next
  apply State.admitIo_reads_law
  intro e h
  unfold SqEntry.isWrite
  simp at h ⊢
  omega

theorem execReadCmd_law (ctx : Nat) (s : State) :
    LawO [.sqs, .qrecs, .ctxs, .gate, .bpm, .dma] s (execReadCmd ctx s) := by
  unfold Sys2Proof.Machine.execReadCmd
  apply LawO.next
  apply State.admitIo_reads_law
  intro e h
  unfold SqEntry.isWrite
  simp at h ⊢
  omega

theorem execDsm_law (ctx : Nat) (ranges : List DsmRange) (s : State) :
    LawO [.sqs, .qrecs, .ctxs, .gate, .bpm, .dma] s (execDsm ctx ranges s) := by
  unfold Sys2Proof.Machine.execDsm
  apply LawO.next
  apply State.admitIo_reads_law
  intro e h
  unfold SqEntry.isWrite
  simp at h ⊢
  omega

theorem execSanitizingDeallocate_law (ctx : Nat) (ranges : List DsmRange) (s : State) :
    LawO [.sqs, .qrecs, .ctxs, .gate, .bpm, .dma] s (execSanitizingDeallocate ctx ranges s) := by
  unfold Sys2Proof.Machine.execSanitizingDeallocate
  apply LawO.next
  apply State.admitIo_reads_law
  intro e h
  unfold SqEntry.isWrite
  simp at h ⊢
  omega

theorem execZoneOpen_law (ctx : Nat) (s : State) :
    LawO [.sqs, .qrecs, .ctxs, .gate, .bpm, .dma] s (execZoneOpen ctx s) := by
  unfold Sys2Proof.Machine.execZoneOpen
  apply LawO.next
  apply State.admitIo_reads_law
  intro e h
  unfold SqEntry.isWrite
  simp at h ⊢
  omega

theorem execZoneClose_law (ctx : Nat) (s : State) :
    LawO [.sqs, .qrecs, .ctxs, .gate, .bpm, .dma] s (execZoneClose ctx s) := by
  unfold Sys2Proof.Machine.execZoneClose
  apply LawO.next
  apply State.admitIo_reads_law
  intro e h
  unfold SqEntry.isWrite
  simp at h ⊢
  omega

theorem execZoneFinish_law (ctx : Nat) (s : State) :
    LawO [.sqs, .qrecs, .ctxs, .gate, .bpm, .dma] s (execZoneFinish ctx s) := by
  unfold Sys2Proof.Machine.execZoneFinish
  apply LawO.next
  apply State.admitIo_reads_law
  intro e h
  unfold SqEntry.isWrite
  simp at h ⊢
  omega

theorem execZoneReset_law (ctx : Nat) (s : State) :
    LawO [.sqs, .qrecs, .ctxs, .gate, .bpm, .dma] s (execZoneReset ctx s) := by
  unfold Sys2Proof.Machine.execZoneReset
  apply LawO.next
  apply State.admitIo_reads_law
  intro e h
  unfold SqEntry.isWrite
  simp at h ⊢
  omega

theorem execSanitizingReset_law (ctx : Nat) (s : State) :
    LawO [.sqs, .qrecs, .ctxs, .gate, .bpm, .dma] s (execSanitizingReset ctx s) := by
  unfold Sys2Proof.Machine.execSanitizingReset
  apply LawO.next
  apply State.admitIo_reads_law
  intro e h
  unfold SqEntry.isWrite
  simp at h ⊢
  omega

theorem execZoneOffline_law (ctx : Nat) (s : State) :
    LawO [.sqs, .qrecs, .ctxs, .gate, .bpm, .dma] s (execZoneOffline ctx s) := by
  unfold Sys2Proof.Machine.execZoneOffline
  apply LawO.next
  apply State.admitIo_reads_law
  intro e h
  unfold SqEntry.isWrite
  simp at h ⊢
  omega

theorem execZoneMgmtReceive_law (ctx : Nat) (s : State) :
    LawO [.sqs, .qrecs, .ctxs, .gate, .bpm, .dma] s (execZoneMgmtReceive ctx s) := by
  unfold Sys2Proof.Machine.execZoneMgmtReceive
  apply LawO.next
  apply State.admitIo_reads_law
  intro e h
  unfold SqEntry.isWrite
  simp at h ⊢
  omega

/-- What any command can do: it answers a next state, changes only the parts that `touch` lists for it, and breaks no
promise. -/
theorem exec_law (c : Instr) (s : State) : LawO (touch c) s (exec c s) := by
  cases c with
  | createIoSq ctx => exact LawO.mono (execCreateIoSq_law ctx s) rfl
  | deleteIoSq ctx => exact LawO.mono (execDeleteIoSq_law ctx s) rfl
  | createIoCq ctx => exact LawO.mono (execCreateIoCq_law ctx s) rfl
  | deleteIoCq ctx => exact LawO.mono (execDeleteIoCq_law ctx s) rfl
  | getLogPage ctx => exact LawO.mono (execGetLogPage_law ctx s) rfl
  | identify ctx => exact LawO.mono (execIdentify_law ctx s) rfl
  | abort ctx => exact LawO.mono (execAbort_law ctx s) rfl
  | setFeatures ctx => exact LawO.mono (execSetFeatures_law ctx s) rfl
  | getFeatures ctx => exact LawO.mono (execGetFeatures_law ctx s) rfl
  | asyncEventRequest ctx => exact LawO.mono (execAsyncEventRequest_law ctx s) rfl
  | nsCreate ctx d => exact LawO.mono (execNsCreate_law ctx d s) rfl
  | nsDelete ctx => exact LawO.mono (execNsDelete_law ctx s) rfl
  | nsAttach ctx controllers => exact LawO.mono (execNsAttach_law ctx controllers s) rfl
  | fwDownload ctx blocks => exact LawO.mono (execFwDownload_law ctx blocks s) rfl
  | fwCommit ctx pkg => exact LawO.mono (execFwCommit_law ctx pkg s) rfl
  | keepAlive ctx => exact LawO.mono (execKeepAlive_law ctx s) rfl
  | keepAliveExpiry => exact LawO.mono (execKeepAliveExpiry_law s) rfl
  | sanitizeCrypto ctx => exact LawO.mono (execSanitizeCrypto_law ctx s) rfl
  | sanitizeBlock ctx => exact LawO.mono (execSanitizeBlock_law ctx s) rfl
  | sanitizeExit ctx => exact LawO.mono (execSanitizeExit_law ctx s) rfl
  | createSlice ctx d => exact LawO.mono (execCreateSlice_law ctx d s) rfl
  | destroySlice ctx => exact LawO.mono (execDestroySlice_law ctx s) rfl
  | sliceReturned slice => exact LawO.mono (execSliceReturned_law slice s) rfl
  | quiesce ctx d => exact LawO.mono (execQuiesce_law ctx d s) rfl
  | change ctx d => exact LawO.mono (execChange_law ctx d s) rfl
  | resume ctx d => exact LawO.mono (execResume_law ctx d s) rfl
  | freeze ctx d => exact LawO.mono (execFreeze_law ctx d s) rfl
  | quiesceTimeout slice => exact LawO.mono (execQuiesceTimeout_law slice s) rfl
  | thawQueue ctx => exact LawO.mono (execThawQueue_law ctx s) rfl
  | keyRotate ctx d => exact LawO.mono (execKeyRotate_law ctx d s) rfl
  | keyRenew ctx d => exact LawO.mono (execKeyRenew_law ctx d s) rfl
  | keyStop ctx d => exact LawO.mono (execKeyStop_law ctx d s) rfl
  | meterFetch ctx => exact LawO.mono (execMeterFetch_law ctx s) rfl
  | cascadeStatus ctx => exact LawO.mono (execCascadeStatus_law ctx s) rfl
  | scrubRange ctx => exact LawO.mono (execScrubRange_law ctx s) rfl
  | flush ctx => exact LawO.mono (execFlush_law ctx s) rfl
  | writeCmd ctx => exact LawO.mono (execWriteCmd_law ctx s) rfl
  | readCmd ctx => exact LawO.mono (execReadCmd_law ctx s) rfl
  | zoneAppend ctx => exact LawO.mono (execZoneAppend_law ctx s) rfl
  | dsm ctx ranges => exact LawO.mono (execDsm_law ctx ranges s) rfl
  | sanitizingDeallocate ctx ranges => exact LawO.mono (execSanitizingDeallocate_law ctx ranges s) rfl
  | zoneOpen ctx => exact LawO.mono (execZoneOpen_law ctx s) rfl
  | zoneClose ctx => exact LawO.mono (execZoneClose_law ctx s) rfl
  | zoneFinish ctx => exact LawO.mono (execZoneFinish_law ctx s) rfl
  | zoneReset ctx => exact LawO.mono (execZoneReset_law ctx s) rfl
  | sanitizingReset ctx => exact LawO.mono (execSanitizingReset_law ctx s) rfl
  | zoneOffline ctx => exact LawO.mono (execZoneOffline_law ctx s) rfl
  | zoneMgmtReceive ctx => exact LawO.mono (execZoneMgmtReceive_law ctx s) rfl
  | pfSqDoorbell qid value => exact LawO.mono (execPfSqDoorbell_law qid value s) rfl
  | pfCqDoorbell qid value => exact LawO.mono (execPfCqDoorbell_law qid value s) rfl
  | slcDbSq slice pasid q value => exact LawO.mono (execSlcDbSq_law slice pasid q value s) rfl
  | slcDbCq slice pasid q value => exact LawO.mono (execSlcDbCq_law slice pasid q value s) rfl
  | queuePairEnable slice pasid q v => exact LawO.mono (execQueuePairEnable_law slice pasid q v s) rfl
  | queuePairDisable slice pasid q v => exact LawO.mono (execQueuePairDisable_law slice pasid q v s) rfl
  | slcMboutPush p slice aligned8 word => exact LawO.mono (execSlcMboutPush_law p slice aligned8 word s) rfl
  | flushIn p slice => exact LawO.mono (execFlushIn_law p slice s) rfl
  | flushOut p slice => exact LawO.mono (execFlushOut_law p slice s) rfl
  | slcMbinPtr p slice head => exact LawO.mono (execSlcMbinPtr_law p slice head s) rfl
  | slcNrCtl slice pasid v => exact LawO.mono (execSlcNrCtl_law slice pasid v s) rfl
  | slcNrHead slice pasid head => exact LawO.mono (execSlcNrHead_law slice pasid head s) rfl
  | slcDmaThaw slice pasid => exact LawO.mono (execSlcDmaThaw_law slice pasid s) rfl
  | dmaThaw chan => exact LawO.mono (execDmaThaw_law chan s) rfl
  | ccEnSet cc => exact LawO.mono (execCcEnSet_law cc s) rfl
  | ccEnClear => exact LawO.mono (execCcEnClear_law s) rfl
  | shutdownNotification shn => exact LawO.mono (execShutdownNotification_law shn s) rfl
  | perstAsserted => exact LawO.mono (execPerstAsserted_law s) rfl
  | perstDeasserted => exact LawO.mono (execPerstDeasserted_law s) rfl
  | functionLevelReset => exact LawO.mono (execFunctionLevelReset_law s) rfl
  | hotReset => exact LawO.mono (execHotReset_law s) rfl
  | pasidEnableCleared => exact LawO.mono (execPasidEnableCleared_law s) rfl
  | bar4CheckFailure slice pasid isWrite offset => exact LawO.mono (execBar4CheckFailure_law slice pasid isWrite offset s) rfl
  | submissionFetch q e => exact LawO.mono (execSubmissionFetch_law q e s) rfl
  | checkpointPersisted value => exact LawO.mono (execCheckpointPersisted_law value s) rfl
  | commit stamp zone => exact LawO.mono (execCommit_law stamp zone s) rfl
  | unitTransferDone ctx unit body host o => exact LawO.mono (execUnitTransferDone_law ctx unit body host o s) rfl
  | fenceAcknowledged k tag => exact LawO.mono (execFenceAcknowledged_law k tag s) rfl
  | completionPost ctx => exact LawO.mono (execCompletionPost_law ctx s) rfl
  | busError q ctx cause src addr unit => exact LawO.mono (execBusError_law q ctx cause src addr unit s) rfl
  | dmaCompletionTimeout q ctx src addr unit => exact LawO.mono (execDmaCompletionTimeout_law q ctx src addr unit s) rfl
  | bpmRevoke slice => exact LawO.mono (execBpmRevoke_law slice s) rfl
  | hayrickCacheRefill store => exact LawO.mono (execHayrickCacheRefill_law store s) rfl
  | unitEntersScheduler ctx unit => exact LawO.mono (execUnitEntersScheduler_law ctx unit s) rfl
  | dieNextChoice die => exact LawO.mono (execDieNextChoice_law die s) rfl
  | dutyEvaluation die pct sharePct => exact LawO.mono (execDutyEvaluation_law die pct sharePct s) rfl
  | pageReadComplete op => exact LawO.mono (execPageReadComplete_law op s) rfl
  | codewordDecodeDone op unit syndromeZero crcOk tagOk weight => exact LawO.mono (execCodewordDecodeDone_law op unit syndromeZero crcOk tagOk weight s) rfl
  | reconstructionDone ctx unit sourcesOk relationOk => exact LawO.mono (execReconstructionDone_law ctx unit sourcesOk relationOk s) rfl
  | pageProgramComplete op pass dieTemp => exact LawO.mono (execPageProgramComplete_law op pass dieTemp s) rfl
  | blockEraseComplete op pass => exact LawO.mono (execBlockEraseComplete_law op pass s) rfl
  | suspendComplete die => exact LawO.mono (execSuspendComplete_law die s) rfl
  | operationTimeout op => exact LawO.mono (execOperationTimeout_law op s) rfl
  | programFailure die block row => exact LawO.mono (execProgramFailure_law die block row s) rfl
  | dieFailure die cause => exact LawO.mono (execDieFailure_law die cause s) rfl
  | rebuildRowFinished zone row => exact LawO.mono (execRebuildRowFinished_law zone row s) rfl
  | migrationCopyDone zone => exact LawO.mono (execMigrationCopyDone_law zone s) rfl
  | channelRetrain ch pass eyeRd eyeWr later => exact LawO.mono (execChannelRetrain_law ch pass eyeRd eyeWr later s) rfl
  | stagingTick => exact LawO.mono (execStagingTick_law s) rfl
  | checkTick => exact LawO.mono (execCheckTick_law s) rfl
  | zneCfgCommit => exact LawO.mono (execZneCfgCommit_law s) rfl
  | sramUncorrectable port wordAddr ctx raw other repairOk => exact LawO.mono (execSramUncorrectable_law port wordAddr ctx raw other repairOk s) rfl
  | dramUncorrectable addr port b ctx unit rebuilt repairOk => exact LawO.mono (execDramUncorrectable_law addr port b ctx unit rebuilt repairOk s) rfl
  | commandError addr port k => exact LawO.mono (execCommandError_law addr port k s) rfl
  | correctedError m port queued => exact LawO.mono (execCorrectedError_law m port queued s) rfl
  | microcodeTrap blk verifyOk again => exact LawO.mono (execMicrocodeTrap_law blk verifyOk again s) rfl
  | microcodeBlockFetch blk firstOk secondOk suspended => exact LawO.mono (execMicrocodeBlockFetch_law blk firstOk secondOk suspended s) rfl
  | refreshInterval mr4 draws dropped => exact LawO.mono (execRefreshInterval_law mr4 draws dropped s) rfl
  | dqsOscillatorRead ch drift panicWait => exact LawO.mono (execDqsOscillatorRead_law ch drift panicWait s) rfl
  | programStreamPanic ch level => exact LawO.mono (execProgramStreamPanic_law ch level s) rfl
  | panicEnd group => exact LawO.mono (execPanicEnd_law group s) rfl
  | entropyHealthFailure => exact LawO.mono (execEntropyHealthFailure_law s) rfl
  | ubpelRekey port tx => exact LawO.mono (execUbpelRekey_law port tx s) rfl
  | join port trained => exact LawO.mono (execJoin_law port trained s) rfl
  | hello port m => exact LawO.mono (execHello_law port m s) rfl
  | auth port sigOk => exact LawO.mono (execAuth_law port sigOk s) rfl
  | ident f m => exact LawO.mono (execIdent_law f m s) rfl
  | ack f acked credits => exact LawO.mono (execAck_law f acked credits s) rfl
  | stampFrame f entries => exact LawO.mono (execStampFrame_law f entries s) rfl
  | lease f op => exact LawO.mono (execLease_law f op s) rfl
  | timeFrame f crownNs rttNs => exact LawO.mono (execTimeFrame_law f crownNs rttNs s) rfl
  | digest f check shared islandNs => exact LawO.mono (execDigest_law f check shared islandNs s) rfl
  | sag f => exact LawO.mono (execSag_law f s) rfl
  | dataFrame f stamp zone unit content md => exact LawO.mono (execDataFrame_law f stamp zone unit content md s) rfl
  | staged f stamp => exact LawO.mono (execStaged_law f stamp s) rfl
  | readReq f req zone units => exact LawO.mono (execReadReq_law f req zone units s) rfl
  | readData f ctx unit content md => exact LawO.mono (execReadData_law f ctx unit content md s) rfl
  | mediaEvent f k => exact LawO.mono (execMediaEvent_law f k s) rfl
  | snapshot f body shared stamp last => exact LawO.mono (execSnapshot_law f body shared stamp last s) rfl
  | update f op => exact LawO.mono (execUpdate_law f op s) rfl
  | vote f v => exact LawO.mono (execVote_law f v s) rfl
  | voteTimeout => exact LawO.mono (execVoteTimeout_law s) rfl
  | ackTimeout port vc mseq => exact LawO.mono (execAckTimeout_law port vc mseq s) rfl
  | linkDown port cause => exact LawO.mono (execLinkDown_law port cause s) rfl
  | portTrainingRetry port => exact LawO.mono (execPortTrainingRetry_law port s) rfl
  | joinwaitExpiry => exact LawO.mono (execJoinwaitExpiry_law s) rfl
  | leaseRenew chip => exact LawO.mono (execLeaseRenew_law chip s) rfl
  | leaseExpiry zone => exact LawO.mono (execLeaseExpiry_law zone s) rfl
  | linkLossFence chip => exact LawO.mono (execLinkLossFence_law chip s) rfl
  | timeSend port => exact LawO.mono (execTimeSend_law port s) rfl
  | excludeChip chip => exact LawO.mono (execExcludeChip_law chip s) rfl
  | includeChip chip => exact LawO.mono (execIncludeChip_law chip s) rfl
  | fenceChip chip => exact LawO.mono (execFenceChip_law chip s) rfl
  | resyncChip chip => exact LawO.mono (execResyncChip_law chip s) rfl
  | stopOrder f => exact LawO.mono (execStopOrder_law f s) rfl
  | tallyBatch stamp crownNs rows => exact LawO.mono (execTallyBatch_law stamp crownNs rows s) rfl
  | intervalClose ppm => exact LawO.mono (execIntervalClose_law ppm s) rfl
  | recordStored recno => exact LawO.mono (execRecordStored_law recno s) rfl
  | meterMerge verified => exact LawO.mono (execMeterMerge_law verified s) rfl
  | islandStart programOk chainOk swid swck => exact LawO.mono (execIslandStart_law programOk chainOk swid swck s) rfl
  | islandSupplyLoss => exact LawO.mono (execIslandSupplyLoss_law s) rfl
  | sealChange openLevel => exact LawO.mono (execSealChange_law openLevel s) rfl
  | mtrSwckGo sum => exact LawO.mono (execMtrSwckGo_law sum s) rfl
  | hourlyChecksum sum => exact LawO.mono (execHourlyChecksum_law sum s) rfl
  | crystal32kStop => exact LawO.mono (execCrystal32kStop_law s) rfl
  | crystal25mStop => exact LawO.mono (execCrystal25mStop_law s) rfl
  | mtrAck v => exact LawO.mono (execMtrAck_law v s) rfl
  | mtrParamCommit => exact LawO.mono (execMtrParamCommit_law s) rfl
  | mtrRecSel recno => exact LawO.mono (execMtrRecSel_law recno s) rfl
  | stopEntry elapsedMs sources => exact LawO.mono (execStopEntry_law elapsedMs sources s) rfl
  | wake src elapsedNs => exact LawO.mono (execWake_law src elapsedNs s) rfl
  | aoBrownOutReset => exact LawO.mono (execAoBrownOutReset_law s) rfl
  | budgetRecompute => exact LawO.mono (execBudgetRecompute_law s) rfl
  | chargerRegulation => exact LawO.mono (execChargerRegulation_law s) rfl
  | brmTestGo m => exact LawO.mono (execBrmTestGo_law m s) rfl
  | testPeriodExpiry m => exact LawO.mono (execTestPeriodExpiry_law m s) rfl
  | brimTestRetry m => exact LawO.mono (execBrimTestRetry_law m s) rfl
  | huPfailLow => exact LawO.mono (execHuPfailLow_law s) rfl
  | inputRailSag => exact LawO.mono (execInputRailSag_law s) rfl
  | inputGoodRestart => exact LawO.mono (execInputGoodRestart_law s) rfl
  | supplyReset => exact LawO.mono (execSupplyReset_law s) rfl
  | sysRstN => exact LawO.mono (execSysRstN_law s) rfl
  | powerOnResetRelease b => exact LawO.mono (execPowerOnResetRelease_law b s) rfl
  | glitchDetectorsArm => exact LawO.mono (execGlitchDetectorsArm_law s) rfl
  | heatherSample site raw bias => exact LawO.mono (execHeatherSample_law site raw bias s) rfl
  | stepDown => exact LawO.mono (execStepDown_law s) rfl
  | tapChange region => exact LawO.mono (execTapChange_law region s) rfl
  | replicaPathFailure region => exact LawO.mono (execReplicaPathFailure_law region s) rfl
  | equalisationRefresh port => exact LawO.mono (execEqualisationRefresh_law port s) rfl
  | adcSample isnsUv vsnsUv => exact LawO.mono (execAdcSample_law isnsUv vsnsUv s) rfl
  | thistleConversion chan code ovHi ovLo => exact LawO.mono (execThistleConversion_law chan code ovHi ovLo s) rfl
  | voltageGlitch detail standing => exact LawO.mono (execVoltageGlitch_law detail standing s) rfl
  | dieShieldCheck pass segment => exact LawO.mono (execDieShieldCheck_law pass segment s) rfl
  | alarmLatchClear mask => exact LawO.mono (execAlarmLatchClear_law mask s) rfl
  | logClear => exact LawO.mono (execLogClear_law s) rfl
  | eflRead doubleBit corrected => exact LawO.mono (execEflRead_law doubleBit corrected s) rfl
  | eflProgram => exact LawO.mono (execEflProgram_law s) rfl
  | eflErase => exact LawO.mono (execEflErase_law s) rfl
  | oemUnlock => exact LawO.mono (execOemUnlock_law s) rfl
  | oemLock => exact LawO.mono (execOemLock_law s) rfl
  | setPassword => exact LawO.mono (execSetPassword_law s) rfl
  | writeMask => exact LawO.mono (execWriteMask_law s) rfl
  | eflRdp target => exact LawO.mono (execEflRdp_law target s) rfl
  | eflOperationComplete => exact LawO.mono (execEflOperationComplete_law s) rfl
  | discard => exact LawO.mono (execDiscard_law s) rfl
  | discardEraseDone => exact LawO.mono (execDiscardEraseDone_law s) rfl
  | confirm => exact LawO.mono (execConfirm_law s) rfl
  | queryDeviceIdentifiers => exact LawO.mono (execQueryDeviceIdentifiers_law s) rfl
  | getFirmwareParameters => exact LawO.mono (execGetFirmwareParameters_law s) rfl
  | requestUpdate maxTransfer => exact LawO.mono (execRequestUpdate_law maxTransfer s) rfl
  | passComponentTable stamp => exact LawO.mono (execPassComponentTable_law stamp s) rfl
  | updateComponent stamp imageSize => exact LawO.mono (execUpdateComponent_law stamp imageSize s) rfl
  | requestFirmwareData blk content => exact LawO.mono (execRequestFirmwareData_law blk content s) rfl
  | transferComplete => exact LawO.mono (execTransferComplete_law s) rfl
  | verifyComplete pkg => exact LawO.mono (execVerifyComplete_law pkg s) rfl
  | applyComplete => exact LawO.mono (execApplyComplete_law s) rfl
  | activateFirmware selfContained => exact LawO.mono (execActivateFirmware_law selfContained s) rfl
  | getStatus => exact LawO.mono (execGetStatus_law s) rfl
  | cancelUpdateComponent => exact LawO.mono (execCancelUpdateComponent_law s) rfl
  | cancelUpdate => exact LawO.mono (execCancelUpdate_law s) rfl
  | norOperationComplete => exact LawO.mono (execNorOperationComplete_law s) rfl
  | mctpRead port eid vendor seq offset count => exact LawO.mono (execMctpRead_law port eid vendor seq offset count s) rfl
  | mctpWrite port eid vendor seq offset count dws => exact LawO.mono (execMctpWrite_law port eid vendor seq offset count dws s) rfl
  | histSnap alsoClear => exact LawO.mono (execHistSnap_law alsoClear s) rfl
  | histClear => exact LawO.mono (execHistClear_law s) rfl
  | lockSet blk => exact LawO.mono (execLockSet_law blk s) rfl
  | registerWrite sp offset size v => exact LawO.mono (execRegisterWrite_law sp offset size v s) rfl
  | rdyBound => exact LawO.mono (execRdyBound_law s) rfl
  | scrubComplete raw check other ctx unit rebuilt repairOk queued ms => exact LawO.mono (execScrubComplete_law raw check other ctx unit rebuilt repairOk queued ms s) rfl
  | pcieLinkUp rate width flit => exact LawO.mono (execPcieLinkUp_law rate width flit s) rfl
  | vectorUnmask vec => exact LawO.mono (execVectorUnmask_law vec s) rfl
  | functionPowerStateChange d3hot pme => exact LawO.mono (execFunctionPowerStateChange_law d3hot pme s) rfl
  | i3cCcc port c => exact LawO.mono (execI3cCcc_law port c s) rfl
end Sys2Proof.Laws
end

