-- ==== Sys2Proof/Laws/Slices.lean ====
section
/-! SUPPORT. Slices under notices, freezes and the end of a Quiesce: what each operation leaves of the other slices and of the slice's own fields. -/

-- One theorem after another: side by side they need more threads than the memory limit allows.
set_option Elab.async false

namespace Sys2Proof.Laws

open Sys2Proof Sys2Proof.Machine Sys2Proof.Safety

/-- Two changes, each within its parts, one after the other. -/
theorem Same.seq {r q w : List Piece} {s t u : State} (h1 : Same r s t) (h2 : Same q t u) (a : sub r w = true) (b : sub q w = true) :
    Same w s u :=
  fun p hp => same_trans (h1 p fun m => hp (sub_mem a m)) (h2 p fun m => hp (sub_mem b m))

theorem sliceEdit_slice (s : State) (i : Nat) (f) : (s.sliceEdit i f).slice i = f (s.slice i) := by
  unfold State.slice State.sliceEdit; simp

theorem sliceEdit_slice_ne (s : State) {i k : Nat} (f) (h : k ≠ i) : (s.sliceEdit i f).slice k = s.slice k := by
  unfold State.slice State.sliceEdit; exact Tbl.get_upd_ne _ _ _ h

theorem slice_of_slices {s t : State} (h : t.slices = s.slices) (k) : t.slice k = s.slice k := by unfold State.slice; rw [h]

/-- Of all slices only slice i changed, and of it only the notice ring. -/
def RingOnly (i : Nat) (s t : State) : Prop := (∀ k, k ≠ i → t.slice k = s.slice k) ∧ apart (t.slice i) = apart (s.slice i)

theorem RingOnly.refl (i s) : RingOnly i s s := ⟨fun _ _ => rfl, rfl⟩

theorem RingOnly.trans {i s t u} (a : RingOnly i s t) (b : RingOnly i t u) : RingOnly i s u := ⟨fun k h => (b.1 k h).trans (a.1 k h), b.2.trans a.2⟩

theorem RingOnly.of_slices {i s t} (h : t.slices = s.slices) : RingOnly i s t := ⟨fun k _ => slice_of_slices h k, by rw [slice_of_slices h]⟩

theorem RingOnly.of_edit {i s} (f : Slice → Slice) (hf : ∀ x, apart (f x) = apart x) : RingOnly i s (s.sliceEdit i f) :=
  ⟨fun k h => sliceEdit_slice_ne s f h, by rw [sliceEdit_slice]; exact hf _⟩

theorem noticeLose_ring (s i n) : RingOnly i s (s.noticeLose i n) := RingOnly.of_edit _ fun _ => rfl

theorem noticeBreak_ring (s i n) : RingOnly i s (s.noticeBreak i n) := (RingOnly.of_edit (s := s) (i := i) (fun x => { x with nr := { x.nr with en := false, fault := true } }) fun _ => rfl).trans (noticeLose_ring _ _ _)

theorem RingOnly.of_edit_slices {i s t} (f : Slice → Slice) (hf : ∀ x, apart (f x) = apart x) (h : t.slices = (s.sliceEdit i f).slices) : RingOnly i s t :=
  (RingOnly.of_edit f hf).trans (RingOnly.of_slices h)

theorem noticeWrite_ring (s i ty a b) : RingOnly i s (s.noticeWrite i ty a b) := by
  unfold State.noticeWrite
  dsimp only
  split
  · refine RingOnly.of_edit_slices (fun x => { x with nr := { (s.slice i).nr with tail := if (s.slice i).nr.tail == (s.slice i).nr.size then 0 else (s.slice i).nr.tail + 1, phase := if (s.slice i).nr.tail == (s.slice i).nr.size then !(s.slice i).nr.phase else (s.slice i).nr.phase, nseq := ((s.slice i).nr.nseq + 1) % 65536 } }) ?hf ?h
    case h => exact ((State.msix_law _ _).same .slices (by decide)).trans (by rfl)
    case hf => intro x; rfl
  · refine RingOnly.of_edit_slices (fun x => { x with nr := { (s.slice i).nr with tail := if (s.slice i).nr.tail == (s.slice i).nr.size then 0 else (s.slice i).nr.tail + 1, phase := if (s.slice i).nr.tail == (s.slice i).nr.size then !(s.slice i).nr.phase else (s.slice i).nr.phase, nseq := ((s.slice i).nr.nseq + 1) % 65536 } }) ?hf ?h
    case h => rfl
    case hf => intro x; rfl

theorem noticeFlush_ring (s i) : RingOnly i s (s.noticeFlush i) := by
  unfold State.noticeFlush
  dsimp only
  split
  · split
    · exact noticeBreak_ring _ _ _
    · refine RingOnly.trans (RingOnly.of_edit _ ?_) (noticeWrite_ring _ _ _ _ _)
      intro x; rfl
  · exact RingOnly.refl _ _

/-- A notice touches the ring of its slice alone. -/
theorem notice_ring (s i ty a b) : RingOnly i s (s.notice i ty a b) := by
  unfold State.notice
  split
  · exact noticeLose_ring _ _ _
  · dsimp only
    split
    · exact (noticeFlush_ring s i).trans (noticeLose_ring _ _ _)
    · split
      · exact (noticeFlush_ring s i).trans (noticeBreak_ring _ _ _)
      · exact (noticeFlush_ring s i).trans (noticeWrite_ring _ _ _ _ _)

theorem stateNotice_ring (s i) : RingOnly i s (s.stateNotice i) := notice_ring _ _ _ _ _

/-- Slice i is frozen with reason r. -/
def IsFrozen (i r : Nat) (s : State) : Prop := (s.slice i).st = .frozen ∧ (s.slice i).reason = r

theorem IsFrozen.ring {i r j s t} (h : IsFrozen i r s) (n : RingOnly j s t) : IsFrozen i r t := by
  by_cases e : i = j
  · subst e
    have a := congrArg Slice.st n.2; have b := congrArg Slice.reason n.2
    exact ⟨a.trans h.1, b.trans h.2⟩
  · have := n.1 i e; unfold IsFrozen; rw [this]; exact h

theorem IsFrozen.of_slices {i r} {s t : State} (h : IsFrozen i r s) (e : t.slices = s.slices) : IsFrozen i r t := by unfold IsFrozen; rw [slice_of_slices e]; exact h

/-- The end of the waits of a Quiesce touches the waiting list alone. -/
theorem quiesceEnd_slice (s : State) (i : Nat) (st) : (∀ k, k ≠ i → (s.quiesceEnd i st).slice k = s.slice k) ∧ (s.quiesceEnd i st).slice i = { s.slice i with quiesceWait := [] } := by
  have h : (s.quiesceEnd i st).slices = (s.sliceEdit i fun x => { x with quiesceWait := [] }).slices := by
    unfold State.quiesceEnd forNats
    dsimp only
    generalize (s.slice i).quiesceWait = l
    generalize s.sliceEdit i (fun x => { x with quiesceWait := [] }) = u
    induction l generalizing u with
    | nil => rfl
    | cons a l ih => rw [List.foldl_cons, ih]; exact (State.finish_law _ _ _ _ _ _).same .slices (by decide)
  refine ⟨fun k hk => ?_, ?_⟩
  · rw [slice_of_slices h]; exact sliceEdit_slice_ne _ _ hk
  · rw [slice_of_slices h]; exact sliceEdit_slice _ _ _

theorem IsFrozen.quiesceEnd {i r j s st} (h : IsFrozen i r s) : IsFrozen i r (s.quiesceEnd j st) := by
  have q := quiesceEnd_slice s j st
  by_cases e : i = j
  · subst e; unfold IsFrozen; rw [q.2]; exact h
  · unfold IsFrozen; rw [q.1 i e]; exact h

theorem IsFrozen.freeze {i r j r' s} (h : IsFrozen i r s) : IsFrozen i r (s.sliceFreeze j r') := by
  unfold State.sliceFreeze
  dsimp only
  split
  · rename_i hc
    have e : i ≠ j := by rintro rfl; rw [h.1] at hc; simp at hc
    refine IsFrozen.quiesceEnd (IsFrozen.of_slices (IsFrozen.ring (j := j) ?_ (stateNotice_ring _ _)) ((State.fire_law _ _ _ _ _ _).same .slices (by decide)))
    unfold IsFrozen; rw [sliceEdit_slice_ne _ _ e]; exact h
  · exact h

theorem IsFrozen.of_live {i r} {s : State} (h : (s.slice i).st = .active ∨ (s.slice i).st = .quiescing ∨ (s.slice i).st = .quiesced) : IsFrozen i r (s.sliceFreeze i r) := by
  unfold State.sliceFreeze
  dsimp only
  rw [if_pos h]
  refine IsFrozen.quiesceEnd (IsFrozen.of_slices (IsFrozen.ring (j := i) ?_ (stateNotice_ring _ _)) ((State.fire_law _ _ _ _ _ _).same .slices (by decide)))
  unfold IsFrozen; rw [sliceEdit_slice]; exact ⟨rfl, rfl⟩

/-- Slice i is in a state that a freeze ends (R82). -/
def IsLive (i : Nat) (s : State) : Prop := (s.slice i).st = .active ∨ (s.slice i).st = .quiescing ∨ (s.slice i).st = .quiesced

theorem IsLive.freeze_other {i j r s} (hi : j ≠ i) (h : IsLive i s) : IsLive i (s.sliceFreeze j r) := by
  have hi' : i ≠ j := fun e => hi e.symm
  unfold State.sliceFreeze
  dsimp only
  split
  · unfold IsLive
    rw [(quiesceEnd_slice _ j _).1 i hi', slice_of_slices ((State.fire_law _ _ _ _ _ _).same .slices (by decide)), (stateNotice_ring _ j).1 i hi', sliceEdit_slice_ne _ _ hi']
    exact h
  · exact h

/-- Freezing every slice of a list freezes each live one with the reason given. -/
theorem forNats_freeze (i r : Nat) : ∀ (l : List Nat) (s : State), i ∈ l → IsLive i s → IsFrozen i r (forNats l s fun s j => s.sliceFreeze j r) := by
  have keep : ∀ (l : List Nat) (s : State), IsFrozen i r s → IsFrozen i r (forNats l s fun s j => s.sliceFreeze j r) := by
    intro l
    induction l with
    | nil => exact fun _ h => h
    | cons a l ih => exact fun s h => ih _ (IsFrozen.freeze h)
  intro l
  induction l with
  | nil => intro _ h; cases h
  | cons a l ih =>
    intro s hm hl
    by_cases e : a = i
    · subst e; exact keep l _ (IsFrozen.of_live hl)
    · exact ih _ (by rcases List.mem_cons.mp hm with h | h
                     · exact absurd h.symm e
                     · exact h) (IsLive.freeze_other e hl)

end Sys2Proof.Laws
end

