-- ==== Sys2Proof/Laws/Heat.lean ====
section
/-! SUPPORT. Heather's evaluations (R387 to R396): which of them leave the readings, the regions and the floor, and what floor, band and THERM_N they give. -/

-- One theorem after another: side by side they need more threads than the memory limit allows.
set_option Elab.async false

namespace Sys2Proof.Laws

open Sys2Proof Sys2Proof.Machine Sys2Proof.Safety

theorem fire_thm (s : State) (k a c o st) : (s.fire k a c o st).thm = s.thm := (State.fire_law _ _ _ _ _ _).same .thm (by decide)

theorem fire_lat (s : State) (k a c o st) : (s.fire k a c o st).lat = s.lat := (State.fire_law _ _ _ _ _ _).same .lat (by decide)

theorem fire_now (s : State) (k a c o st) : (s.fire k a c o st).now = s.now := (State.fire_law _ _ _ _ _ _).same .now (by decide)

/-- A site without the marks of its windows. -/
def lessMarks (x : Site) : Site := { x with riseFrom := none, coolFrom := none, tapFrom := none, devFrom := none }

/-- The sites agree apart from the marks of their windows, and the regions agree. -/
structure SameReadings (a b : Thm) : Prop where
  ess : ∀ k, lessMarks (b.sites.get k {}) = lessMarks (a.sites.get k {})
  reg : b.regions = a.regions
  br : b.aBroken = a.aBroken

theorem SameReadings.refl (s) : SameReadings s s := ⟨fun _ => rfl, rfl, rfl⟩

theorem SameReadings.trans {s t u} (h : SameReadings s t) (g : SameReadings t u) : SameReadings s u := ⟨fun k => (g.ess k).trans (h.ess k), g.reg.trans h.reg, g.br.trans h.br⟩

theorem SameReadings.of_parts {s t : Thm} (h1 : t.sites = s.sites) (h2 : t.regions = s.regions) (h3 : t.aBroken = s.aBroken) : SameReadings s t :=
  ⟨fun k => by rw [h1], h2, h3⟩

theorem SameReadings.eq {s t : Thm} (h : t = s) : SameReadings s t := h ▸ SameReadings.refl _

theorem get_mapV {α} (t : Tbl α) (f : Nat → α → α) (k) (d) (hf : f k d = d) : (t.mapV f).get k d = f k (t.get k d) := by
  induction t with
  | nil => exact hf.symm
  | cons p t ih =>
    obtain ⟨a, v⟩ := p
    show ((Tbl.look ((a, f a v) :: Tbl.mapV t f) k).getD d) = f k ((Tbl.look ((a, v) :: t) k).getD d)
    unfold Tbl.look
    split
    · rename_i e; subst e; rfl
    · exact ih

theorem siteEdit_site (s : State) (k f) : (s.siteEdit k f).site k = f (s.site k) := by unfold State.site State.siteEdit; simp

theorem siteEdit_site_ne (s : State) {k j} (f) (h : j ≠ k) : (s.siteEdit k f).site j = s.site j := by unfold State.site State.siteEdit; dsimp only; exact Tbl.get_upd_ne _ _ _ h

theorem regionEdit_region (s : State) (k f) : (s.regionEdit k f).region k = f (s.region k) := by unfold State.region State.regionEdit; simp

def setSite (m : Thm) (k : Nat) (f : Site → Site) : Thm := { m with sites := m.sites.upd k {} f }

theorem SameReadings.edit (m : Thm) (k) (f : Site → Site) (hf : ∀ x, lessMarks (f x) = lessMarks x) : SameReadings m (setSite m k f) := by
  refine ⟨fun j => ?_, rfl, rfl⟩
  unfold setSite; dsimp only
  by_cases e : j = k
  · subst e; rw [Tbl.get_upd]; exact hf _
  · rw [Tbl.get_upd_ne _ _ _ e]

def setSites (m : Thm) (l : List Nat) (f : Site → Site) : Thm := l.foldl (fun m j => setSite m j f) m

theorem SameReadings.fan (f : Site → Site) (hf : ∀ x, lessMarks (f x) = lessMarks x) : ∀ (l : List Nat) (m : Thm), SameReadings m (setSites m l f) := by
  intro l
  induction l with
  | nil => exact SameReadings.refl
  | cons a l ih => intro m; exact (SameReadings.edit m a f hf).trans (ih (setSite m a f))

theorem siteEdits_thm (f : Site → Site) : ∀ (l : List Nat) (s : State), (l.foldl (fun (s : State) j => s.siteEdit j f) s).thm = setSites s.thm l f := by
  intro l
  induction l with
  | nil => exact fun _ => rfl
  | cons a l ih => exact fun s => ih _

theorem throttle_readings (s : State) (n) : SameReadings s.thm (s.throttle n).thm := SameReadings.of_parts rfl rfl rfl

theorem stepUp_readings (s : State) : SameReadings s.thm s.stepUp.thm := by
  unfold State.stepUp
  split
  · exact SameReadings.refl _
  · refine SameReadings.trans (throttle_readings s (s.thm.step + 1)) ⟨fun k => ?_, rfl, rfl⟩
    dsimp only
    generalize (s.throttle (s.thm.step + 1)).thm.sites = t
    rw [show (Tbl.mapV t fun _ (x : Site) => { x with riseFrom := x.riseFrom.map fun _ => s.now }).get k {} = _ from get_mapV t _ k {} rfl]
    rfl

theorem riseStep_readings (s : State) (k) : SameReadings s.thm (s.riseStep k).thm := by
  unfold State.riseStep
  split
  · split
    · exact stepUp_readings s
    · exact SameReadings.refl _
  · exact SameReadings.refl _

def withRise (m : Thm) : Thm := { m with aRise := true, calmSince := none }

theorem riseAlarm_readings (s : State) : SameReadings s.thm s.riseAlarm.thm := by
  have h : s.riseAlarm = (let a := ({ s with thm := withRise s.thm } : State).alarmRise; if a.thm.step < 4 then a.throttle 4 else a) := rfl
  have h2 : (({ s with thm := withRise s.thm } : State).alarmRise).thm = withRise s.thm := fire_thm _ _ _ _ _ _
  rw [h]
  dsimp only
  have h3 : SameReadings s.thm (withRise s.thm) := SameReadings.of_parts rfl rfl rfl
  split
  · refine SameReadings.trans ?_ (throttle_readings _ _)
    rw [h2]; exact h3
  · rw [h2]; exact h3

theorem riseEval_readings (s : State) (k) : SameReadings s.thm (s.riseEval k).thm := by
  unfold State.riseEval
  dsimp only
  generalize hu : (s.siteEdit k fun y => { y with riseFrom := if (s.site k).rising s.now 12 then some (y.riseFrom.getD s.now) else none }) = u
  have h1 : SameReadings s.thm u.thm := by
    rw [← hu]
    exact SameReadings.edit s.thm k (fun y => { y with riseFrom := if (s.site k).rising s.now 12 then some (y.riseFrom.getD s.now) else none }) fun _ => rfl
  have h2 := h1.trans (riseStep_readings u k)
  generalize u.riseStep k = v at *
  generalize hw : (if (s.site k).rising s.now 40 = true then v.riseAlarm else v) = w
  have h3 : SameReadings v.thm w.thm := by
    rw [← hw]; split
    · exact riseAlarm_readings v
    · exact SameReadings.refl _
  have h4 := h2.trans h3
  exact ⟨h4.ess, h4.reg, h4.br⟩

/-- The alarm of a floor that has risen. -/
def limitAlarm (old f : Nat) (s : State) (n : Nat) : State := if old < n ∧ n ≤ f then { s with thm := { s.thm with aLimit := true } }.fire 22 else s

theorem limitAlarm_readings (old f s n) : SameReadings s.thm (limitAlarm old f s n).thm ∧ (limitAlarm old f s n).thm.floor = s.thm.floor ∧ (limitAlarm old f s n).thm.step = s.thm.step := by
  unfold limitAlarm; split
  · rw [fire_thm]; exact ⟨SameReadings.of_parts rfl rfl rfl, rfl, rfl⟩
  · exact ⟨SameReadings.refl _, rfl, rfl⟩

/-- The floor of R393 for the hottest reading, 2 at least while a region has no reading. -/
def floorAt (s : State) : Nat := if (List.range 8).any s.regionNone then max 2 (match s.composite with | some t => floorOf t | none => 0) else (match s.composite with | some t => floorOf t | none => 0)

theorem floorOf_le (t) : floorOf t ≤ 7 := by unfold floorOf; split; · omega
                                             split; · omega
                                             split <;> omega

theorem floorAt_le (s) : floorAt s ≤ 7 := by
  have h : (match s.composite with | some t => floorOf t | none => 0) ≤ 7 := by
    split
    · exact floorOf_le _
    · omega
  unfold floorAt; split <;> omega

def setFloor (m : Thm) (f : Nat) : Thm := { m with floor := f }

/-- After an evaluation the floor is the one of R393, and the step is at or above it. -/
theorem floorEval_spec (s : State) : SameReadings s.thm s.floorEval.thm ∧ s.floorEval.thm.floor = floorAt s ∧ floorAt s ≤ s.floorEval.thm.step := by
  have e : s.floorEval = (let s1 := limitAlarm s.thm.floor (floorAt s) (limitAlarm s.thm.floor (floorAt s) { s with thm := setFloor s.thm (floorAt s) } 4) 7
      if s1.thm.step < floorAt s then s1.throttle (floorAt s) else s1) := rfl
  rw [e]
  dsimp only
  have a := limitAlarm_readings s.thm.floor (floorAt s) { s with thm := setFloor s.thm (floorAt s) } 4
  have b := limitAlarm_readings s.thm.floor (floorAt s) (limitAlarm s.thm.floor (floorAt s) { s with thm := setFloor s.thm (floorAt s) } 4) 7
  have hl := floorAt_le s
  generalize limitAlarm s.thm.floor (floorAt s) (limitAlarm s.thm.floor (floorAt s) { s with thm := setFloor s.thm (floorAt s) } 4) 7 = u at *
  have h0 : SameReadings s.thm (setFloor s.thm (floorAt s)) := SameReadings.of_parts rfl rfl rfl
  have h1 : SameReadings s.thm u.thm := (h0.trans a.1).trans b.1
  have h2 : u.thm.floor = floorAt s := b.2.1.trans a.2.1
  split
  · refine ⟨h1.trans (throttle_readings _ _), h2, ?_⟩
    show _ ≤ min 7 (floorAt s); omega
  · exact ⟨h1, h2, by omega⟩

def withCool (m : Thm) (c : Option Nat) : Thm := { m with coolSince := c }

def coolDone (c : Option Nat) (now : Nat) : Bool := match c with | some t => decide (t + secNs ≤ now) | none => false

def coolAt (s : State) : Option Nat := if decide (s.composite.getD 0 < degC 110) then some (s.thm.coolSince.getD s.now) else none

/-- THERM_N as R394 gives it. -/
theorem thermEval_spec (s : State) : SameReadings s.thm s.thermEval.thm ∧ s.thermEval.thm.floor = s.thm.floor ∧ s.thermEval.thm.step = s.thm.step ∧
    (degC 120 ≤ s.composite.getD 0 → s.thermEval.thm.thermN = true) := by
  have e : s.thermEval = (if (!s.thm.thermN && decide (degC 120 ≤ s.composite.getD 0)) = true then
      ({ s with thm := { withCool s.thm (coolAt s) with thermN := true, aTherm := true } } : State).fire 24
    else if (s.thm.thermN && coolDone (coolAt s) s.now) = true then { s with thm := { withCool s.thm (coolAt s) with thermN := false } }
    else { s with thm := withCool s.thm (coolAt s) }) := rfl
  rw [e]
  split
  · rw [fire_thm]; exact ⟨SameReadings.of_parts rfl rfl rfl, rfl, rfl, fun _ => rfl⟩
  · rename_i h1
    split
    · rename_i h2
      refine ⟨⟨fun _ => rfl, rfl, rfl⟩, rfl, rfl, fun h => ?_⟩
      have : coolAt s = none := by unfold coolAt degC at *; rw [if_neg]; simp; omega
      rw [this] at h2; simp [coolDone] at h2
    · refine ⟨⟨fun _ => rfl, rfl, rfl⟩, rfl, rfl, fun h => ?_⟩
      show s.thm.thermN = true
      simpa [h] using h1

theorem tapEval_readings (s : State) (r k v) : SameReadings s.thm (s.tapEval r k v).thm := by
  unfold State.tapEval
  dsimp only
  split
  · exact SameReadings.refl _
  · generalize hu : (s.siteEdit k fun y => _) = u
    have h1 : SameReadings s.thm u.thm := by
      rw [← hu]; exact SameReadings.edit s.thm k (fun y => { y with tapFrom := if (decide (v + degC 3 ≤ bandEdge (s.thm.tapsDue.get r 4)) && decide (0 < s.thm.tapsDue.get r 4)) = true then some (y.tapFrom.getD s.now) else none }) fun _ => rfl
    split
    · exact ⟨h1.ess, h1.reg, h1.br⟩
    · split
      · have h2 := h1.trans (SameReadings.fan (fun y => { y with tapFrom := none }) (fun _ => rfl) (u.validSites r) u.thm)
        rw [← siteEdits_thm] at h2
        exact ⟨h2.ess, h2.reg, h2.br⟩
      · exact h1

theorem bandSet_spec (s : State) (r b) : (s.bandSet r b).thm.sites = s.thm.sites ∧ (s.bandSet r b).thm.aBroken = s.thm.aBroken ∧ ((s.bandSet r b).region r) = { s.region r with band := b } := by
  unfold State.bandSet
  dsimp only
  split
  · rename_i h; exact ⟨rfl, rfl, by rw [h]⟩
  · have he : ∀ t : State, t.thm = (s.regionEdit r fun x => { x with band := b }).thm → t.thm.sites = s.thm.sites ∧ t.thm.aBroken = s.thm.aBroken ∧ t.region r = { s.region r with band := b } := by
      intro t ht
      refine ⟨by rw [ht]; rfl, by rw [ht]; rfl, ?_⟩
      rw [show t.region r = (s.regionEdit r fun x => { x with band := b }).region r by unfold State.region; rw [ht], regionEdit_region]
    have h2 : ((s.regionEdit r fun x => { x with band := b }).fire 20).thm = (s.regionEdit r fun x => { x with band := b }).thm := fire_thm _ _ _ _ _ _
    split
    · exact he _ h2
    · exact he _ h2


/-- the sites' values: they depend only on the essential part -/
theorem rawOf_of_sites {s t : State} (h : ∀ k, lessMarks (t.site k) = lessMarks (s.site k)) (k) : t.rawOf k = s.rawOf k := by
  unfold State.rawOf
  have := h k
  have a := congrArg Site.read this; have b := congrArg Site.broken this; have c := congrArg Site.temp this
  have a' : (t.site k).read = (s.site k).read := a
  have b' : (t.site k).broken = (s.site k).broken := b
  have c' : (t.site k).temp = (s.site k).temp := c
  dsimp only; rw [a', b', c']

theorem maxOpt_ge (o : Option Int) (v) : ∃ m, maxOpt o v = some m ∧ v ≤ m ∧ ∀ x, o = some x → x ≤ m := by
  cases o with
  | none => exact ⟨v, rfl, Int.le_refl _, fun _ h => by cases h⟩
  | some a => exact ⟨max a v, rfl, by omega, fun x h => by cases h; omega⟩

theorem foldl_max_ge (f : Nat → Option Int) : ∀ (l : List Nat) (o : Option Int) (v : Int), (o = some v ∨ ∃ k ∈ l, f k = some v) →
    ∃ m, l.foldl (fun m k => match f k with | some v => maxOpt m v | none => m) o = some m ∧ v ≤ m := by
  have keep : ∀ (l : List Nat) (a : Int), ∃ m, l.foldl (fun m k => match f k with | some v => maxOpt m v | none => m) (some a) = some m ∧ a ≤ m := by
    intro l
    induction l with
    | nil => exact fun a => ⟨a, rfl, Int.le_refl _⟩
    | cons b l ih =>
      intro a
      rw [List.foldl_cons]
      cases hb : f b with
      | none => exact ih a
      | some v =>
        obtain ⟨m, hm, hge⟩ := ih (max a v)
        exact ⟨m, hm, by omega⟩
  intro l
  induction l with
  | nil => rintro o v (rfl | ⟨k, hk, _⟩)
           · exact ⟨v, rfl, Int.le_refl _⟩
           · cases hk
  | cons b l ih =>
    rintro o v (rfl | ⟨k, hk, hv⟩)
    · exact keep (b :: l) v
    · rw [List.foldl_cons]
      rcases List.mem_cons.mp hk with rfl | hk
      · rw [hv]
        obtain ⟨m, hm, h1, _⟩ := maxOpt_ge o v
        dsimp only; rw [hm]
        obtain ⟨m', hm', h2⟩ := keep l m
        exact ⟨m', hm', by omega⟩
      · exact ih _ _ (.inr ⟨k, hk, hv⟩)

theorem composite_ge {s : State} {k : Nat} (hk : k < 14) {raw} (h : s.rawOf k = some raw) : ∃ m, s.composite = some m ∧ raw ≤ m := by
  have h1 : s.siteVal k = some raw := by unfold State.siteVal; rw [if_neg (by omega)]; exact h
  obtain ⟨m, hm, h2⟩ := foldl_max_ge s.siteVal [2 * (k / 2), 2 * (k / 2) + 1] none raw (.inr ⟨k, by simp; omega, h1⟩)
  have h3 : s.regionTemp (k / 2) = some m := hm
  obtain ⟨m', hm', h4⟩ := foldl_max_ge s.regionTemp (List.range 8) none m (.inr ⟨k / 2, by simp; omega, h3⟩)
  exact ⟨m', hm', by omega⟩

theorem floorAt_hot {s : State} {m} (h : s.composite = some m) (hm : degC 110 ≤ m) : floorAt s = 7 := by
  unfold floorAt; rw [h]; dsimp only
  unfold floorOf; rw [if_pos hm]; split <;> rfl


/-- The sites agree apart from the marks of their windows. -/
def SameSites (a b : Thm) : Prop := ∀ k, lessMarks (b.sites.get k {}) = lessMarks (a.sites.get k {})

theorem SameSites.trans {a b c} (h : SameSites a b) (g : SameSites b c) : SameSites a c := fun k => (g k).trans (h k)

theorem SameSites.of_sites {a b : Thm} (h : b.sites = a.sites) : SameSites a b := fun k => by rw [h]

/-- The band of a region after an evaluation: it rises at once and falls one band (R388). -/
theorem bandEval_spec (s : State) (r k : Nat) (v : Int) : SameSites s.thm (s.bandEval r k v).thm ∧
    ((s.region r).held = false → (s.site k).broken = false → (k = 2 * r ∨ k = 2 * r + 1) →
      ((s.region r).band < bandOf v → ((s.bandEval r k v).region r).band = bandOf v) ∧
      (bandOf v ≤ (s.region r).band → bandEdge (s.region r).band < v + degC 3 → ((s.bandEval r k v).region r).band = (s.region r).band) ∧
      (∀ a b, bandOf v ≤ (s.region r).band → 0 < (s.region r).band → v + degC 3 ≤ bandEdge (s.region r).band → (s.site k).coolFrom = some a →
        (s.site (4 * r + 1 - k)).broken = false → (s.site (4 * r + 1 - k)).coolFrom = some b → a + secNs ≤ s.now → b + secNs ≤ s.now →
        ((s.bandEval r k v).region r).band = (s.region r).band - 1)) := by
  unfold State.bandEval
  dsimp only
  by_cases hh : (s.region r).held = true
  · rw [if_pos hh]; exact ⟨fun _ => rfl, fun h => by rw [h] at hh; simp at hh⟩
  · rw [if_neg hh]
    generalize hc : (decide (v + degC 3 ≤ bandEdge (s.region r).band) && decide (0 < (s.region r).band)) = cool
    generalize hu : (s.siteEdit k fun y => _) = u
    have eu : u = s.siteEdit k fun y => { y with coolFrom := if cool = true then some (y.coolFrom.getD s.now) else none } := hu.symm
    have h1 : SameReadings s.thm u.thm := by rw [eu]; exact SameReadings.edit s.thm k (fun y => { y with coolFrom := if cool = true then some (y.coolFrom.getD s.now) else none }) fun _ => rfl
    have hk : u.site k = { s.site k with coolFrom := if cool = true then some ((s.site k).coolFrom.getD s.now) else none } := by rw [eu]; exact siteEdit_site _ _ _
    have hne : ∀ j, j ≠ k → u.site j = s.site j := fun j hj => by rw [eu]; exact siteEdit_site_ne _ _ hj
    have hnow : u.now = s.now := by rw [eu]; rfl
    have hreg : ∀ j, u.region j = s.region j := fun j => by unfold State.region; rw [h1.reg]
    have hE : ∀ b, SameSites s.thm (u.bandSet r b).thm := fun b => fun j => by rw [(bandSet_spec u r b).1]; exact h1.ess j
    have hF : ∀ (l : List Nat) b, SameSites s.thm ((l.foldl (fun (s : State) j => s.siteEdit j fun y => { y with coolFrom := none }) u).bandSet r b).thm := fun l b => fun j => by
      rw [(bandSet_spec _ r b).1, siteEdits_thm (fun y => { y with coolFrom := none })]
      exact ((SameReadings.fan (fun y => { y with coolFrom := none }) (fun _ => rfl) l u.thm).ess j).trans (h1.ess j)
    have hrF : ∀ (l : List Nat), (l.foldl (fun (s : State) j => s.siteEdit j fun y => { y with coolFrom := none }) u).region r = u.region r := fun l => by
      unfold State.region
      rw [siteEdits_thm (fun y => { y with coolFrom := none }), (SameReadings.fan (fun y => { y with coolFrom := none }) (fun _ => rfl) l u.thm).reg]
    refine ⟨?_, fun h2 h3 h4 => ⟨fun h5 => ?_, fun h5 h6 => ?_, fun a b h5 h6 h7 h8 h9 h10 h11 h12 => ?_⟩⟩
    · split
      · exact hE _
      · split
        · exact hF _ _
        · exact h1.ess
    · rw [if_pos h5, (bandSet_spec _ _ _).2.2]
    · rw [if_neg (by omega), if_neg]
      · rw [hreg]
      · have : cool = false := by rw [← hc]; simp; omega
        unfold State.heldFor
        simp only [Bool.and_eq_true]
        rintro ⟨_, h7⟩
        rw [List.all_eq_true] at h7
        have hm : k ∈ u.validSites r := by
          unfold State.validSites
          rw [List.mem_filter]
          refine ⟨by simp; exact h4, ?_⟩
          unfold State.siteValid; rw [hk]; simp [h3]
        have := h7 k hm
        rw [hk] at this; simp_all
    · rw [if_neg (by omega), if_pos, (bandSet_spec _ _ _).2.2]
      have hcool : cool = true := by rw [← hc]; simp; omega
      have hv : u.validSites r = [2 * r, 2 * r + 1] := by
        unfold State.validSites
        have hb : ∀ j, j = 2 * r ∨ j = 2 * r + 1 → (u.site j).broken = false := by
          intro j hj
          by_cases e : j = k
          · subst e; rw [hk]; exact h3
          · rw [hne j e]
            have : j = 4 * r + 1 - k := by omega
            rw [this]; exact h9
        simp [State.siteValid, hb (2 * r) (.inl rfl), hb (2 * r + 1) (.inr rfl)]
      have hf : ∀ j, j = 2 * r ∨ j = 2 * r + 1 → ∃ t, (u.site j).coolFrom = some t ∧ t + secNs ≤ s.now := by
        intro j hj
        by_cases e : j = k
        · subst e; refine ⟨a, ?_, h11⟩; rw [hk, hcool, h8]; rfl
        · rw [hne j e]
          have : j = 4 * r + 1 - k := by omega
          exact ⟨b, by rw [this]; exact h10, h12⟩
      obtain ⟨t1, e1, l1⟩ := hf _ (.inl rfl)
      obtain ⟨t2, e2, l2⟩ := hf _ (.inr rfl)
      unfold State.heldFor
      rw [hv]
      simp [e1, e2, hnow, l1, l2]

theorem firstBand_sites (s : State) (r) : SameSites s.thm (s.firstBand r).thm := by
  unfold State.firstBand
  split
  · intro j; show lessMarks ((s.bandSet r _).thm.sites.get j {}) = _; rw [(bandSet_spec _ _ _).1]
  · exact fun _ => rfl

/-- the tail of the evaluations -/
theorem evals_spec (s : State) (k) : SameReadings s.thm (((s.riseEval k).floorEval).thermEval).thm ∧ (((s.riseEval k).floorEval).thermEval).thm.floor ≤ (((s.riseEval k).floorEval).thermEval).thm.step ∧
    (∀ raw, k < 14 → s.rawOf k = some raw → (degC 110 ≤ raw → (((s.riseEval k).floorEval).thermEval).thm.floor = 7 ∧ 7 ≤ (((s.riseEval k).floorEval).thermEval).thm.step) ∧
      (degC 120 ≤ raw → (((s.riseEval k).floorEval).thermEval).thm.thermN = true)) := by
  have a := riseEval_readings s k
  generalize s.riseEval k = u at *
  obtain ⟨b1, b2, b3⟩ := floorEval_spec u
  obtain ⟨c1, c2, c3, c4⟩ := thermEval_spec u.floorEval
  refine ⟨(a.trans b1).trans c1, by rw [c2, c3, b2]; exact b3, fun raw hk hr => ⟨fun h => ?_, fun h => ?_⟩⟩
  · obtain ⟨m, hm, hge⟩ := composite_ge (s := u) hk (by rw [rawOf_of_sites a.ess]; exact hr)
    have := floorAt_hot hm (by omega)
    rw [c2, c3, b2]; omega
  · obtain ⟨m, hm, hge⟩ := composite_ge (s := u.floorEval) hk (by rw [rawOf_of_sites (a.trans b1).ess]; exact hr)
    apply c4; rw [hm]; show degC 120 ≤ m; omega


theorem band_ne (s : State) (r b) {q} (h : q ≠ r) : (s.bandSet r b).region q = s.region q := by
  unfold State.bandSet
  dsimp only
  split
  · rfl
  · have he : ∀ t : State, t.thm = (s.regionEdit r fun x => { x with band := b }).thm → t.region q = s.region q := by
      intro t ht
      unfold State.region; rw [ht]
      unfold State.regionEdit; dsimp only; exact Tbl.get_upd_ne _ _ _ h
    have h2 : ((s.regionEdit r fun x => { x with band := b }).fire 20).thm = (s.regionEdit r fun x => { x with band := b }).thm := fire_thm _ _ _ _ _ _
    split
    · exact he _ h2
    · exact he _ h2

theorem bandEval_ne (s : State) (r k v) {q} (h : q ≠ r) : (s.bandEval r k v).region q = s.region q := by
  unfold State.bandEval
  dsimp only
  by_cases h1 : (s.region r).held = true
  · rw [if_pos h1]
  · rw [if_neg h1]
    generalize hu : (s.siteEdit k fun y => _) = u
    have hq : u.region q = s.region q := by rw [← hu]; rfl
    by_cases h2 : (s.region r).band < bandOf v
    · rw [if_pos h2, band_ne _ _ _ h, hq]
    · rw [if_neg h2]
      by_cases h3 : u.heldFor r (·.coolFrom) = true
      · rw [if_pos h3, band_ne _ _ _ h, ← hq]; unfold State.region; rw [siteEdits_thm (fun y => { y with coolFrom := none }), (SameReadings.fan (fun y => { y with coolFrom := none }) (fun _ => rfl) _ _).reg]
      · rw [if_neg h3, hq]

theorem median_eval (s : State) (k) : SameSites s.thm (s.medianEval k).thm ∧ (∀ r, r ≠ 7 → (s.medianEval k).region r = s.region r) := by
  unfold State.medianEval
  split
  · exact ⟨fun _ => rfl, fun _ _ => rfl⟩
  · have : ∀ (l : List Nat) (u : State), SameSites s.thm u.thm ∧ (∀ r, r ≠ 7 → u.region r = s.region r) →
        SameSites s.thm (l.foldl (fun (s : State) j => match (if (s.site j).broken && s.allRead 7 && !(s.region 7).held then s.siteVal j else none) with
      | some v => (s.bandEval 7 j v).tapEval 7 j v
      | none => s) u).thm ∧ (∀ r, r ≠ 7 → (l.foldl (fun (s : State) j => match (if (s.site j).broken && s.allRead 7 && !(s.region 7).held then s.siteVal j else none) with
      | some v => (s.bandEval 7 j v).tapEval 7 j v
      | none => s) u).region r = s.region r) := by
      intro l
      induction l with
      | nil => exact fun u h => h
      | cons a l ih =>
        intro u h
        refine ih _ ?_
        dsimp only
        generalize (if (u.site a).broken && u.allRead 7 && !(u.region 7).held then u.siteVal a else none) = o
        cases o with
        | none => exact h
        | some v =>
          show SameSites s.thm ((u.bandEval 7 a v).tapEval 7 a v).thm ∧ ∀ r, r ≠ 7 → ((u.bandEval 7 a v).tapEval 7 a v).region r = s.region r
          refine ⟨h.1.trans ((bandEval_spec _ _ _ _).1.trans (tapEval_readings _ _ _ _).ess), fun r hr => ?_⟩
          rw [← h.2 r hr, ← bandEval_ne u 7 a _ hr]
          unfold State.region; rw [(tapEval_readings _ _ _ _).reg]
    exact this [14, 15] s ⟨fun _ => rfl, fun _ _ => rfl⟩

theorem sampleEval_sites (s : State) (k : Nat) (first : Bool) : SameSites s.thm (s.sampleEval k first).thm := by
  unfold State.sampleEval
  dsimp only
  split
  · exact fun _ => rfl
  · refine SameSites.trans ?_ (evals_spec _ k).1.ess
    refine SameSites.trans ?_ (median_eval _ _).1
    split
    · exact fun _ => rfl
    · split
      · exact (firstBand_sites _ _).trans (tapEval_readings _ _ _ _).ess
      · exact (bandEval_spec _ _ _ _).1.trans (tapEval_readings _ _ _ _).ess

theorem hold_at (s : State) (r) : (s.regionHold r).thm.sites = s.thm.sites ∧ (s.regionHold r).thm.aBroken = s.thm.aBroken ∧
    (∀ q, q ≠ r → (s.regionHold r).region q = s.region q) ∧ ((s.region r).held = true → s.regionHold r = s) ∧
    (s.regionHeld r = true → (s.region r).held = false → ((s.regionHold r).region r).held = true ∧ ((s.regionHold r).region r).band = 4 ∧ (s.regionHold r).lat.condBand = true) ∧
    (s.lat.condBand = true → (s.regionHold r).lat.condBand = true) := by
  unfold State.regionHold
  split
  · rename_i h
    obtain ⟨a, b, c⟩ := bandSet_spec s r 4
    refine ⟨a, b, fun q hq => ?_, fun h1 => by rw [h1] at h; simp at h, fun _ _ => ?_, fun _ => rfl⟩
    · show ((s.bandSet r 4).regionEdit r fun x => { x with held := true }).region q = _
      rw [← band_ne s r 4 hq]; unfold State.region State.regionEdit; dsimp only; exact Tbl.get_upd_ne _ _ _ hq
    · have : ∀ u : State, u.thm.regions = ((s.bandSet r 4).regionEdit r fun x => { x with held := true }).thm.regions → u.region r = { s.region r with band := 4, held := true } := by
        intro u hu
        rw [show u.region r = ((s.bandSet r 4).regionEdit r fun x => { x with held := true }).region r by unfold State.region; rw [hu], regionEdit_region, c]
      dsimp only
      refine ⟨?_, ?_, rfl⟩
      · exact congrArg Region.held (this _ rfl)
      · exact congrArg Region.band (this _ rfl)
  · rename_i h
    exact ⟨rfl, rfl, fun _ _ => rfl, fun _ => rfl, fun h1 h2 => (h (by rw [h1, h2]; rfl)).elim, fun h => h⟩

end Sys2Proof.Laws
end

