-- ==== Sys2Proof/Laws/Alarms.lean ====
section
/-! SUPPORT. The security alarm: its latch, its response and its clearing (R464 to R466, R316). -/

-- One theorem after another: side by side they need more threads than the memory limit allows.
set_option Elab.async false

namespace Sys2Proof.Laws

open Sys2Proof Sys2Proof.Machine Sys2Proof.Safety

/-- what an event leaves of the alarm -/
def alarmPart (e : Evt) : BitVec 4 × Bool × List Nat × Bool × Bool × BitVec 2 := (e.latch, e.stuck, e.rsp, e.glitchStanding, e.shieldBroken, e.owed)

theorem msix_alarm (s : State) (v) : alarmPart (s.msix v).evt = alarmPart s.evt := by
  unfold State.msix; split; · rfl
  split <;> rfl

theorem ibiEval_alarm (s : State) : alarmPart s.ibiEval.evt = alarmPart s.evt := by unfold State.ibiEval; split <;> rfl

theorem logAppend_evt (s : State) (r) : (s.logAppend r).evt = s.evt := by
  unfold State.logAppend; split
  · split <;> rfl
  · split <;> rfl

def fireMsi (s : State) (k : Nat) : State :=
  let rt := s.route k
  let s0 := { s with evt := { s.evt with pend := s.evt.pend ||| BitVec.ofNat 320 (2 ^ k), last := k } }
  if !s.evt.pend.getLsbD k && rt.msi then
    if rt.vec ≤ s.pfCount then
      if !s.linkUp || s.inStop then { s0 with evt := { s0.evt with msiWait := insNat k s0.evt.msiWait } }
      else s0.msix rt.vec
    else { s0 with evt := { s0.evt with badvec := true } }
  else s0

def firePart (s : State) (k : Nat) : State :=
  if (s.route k).en then
    if !s.evt.pend.getLsbD k && (s.route k).sb then ({ fireMsi s k with evt := { (fireMsi s k).evt with ibiWait := (fireMsi s k).evt.ibiWait || !(fireMsi s k).evt.ibiOut } }).ibiEval
    else fireMsi s k
  else s

theorem fireMsi_alarm (s : State) (k) : alarmPart (fireMsi s k).evt = alarmPart s.evt := by
  unfold fireMsi; dsimp only
  split
  · split
    · split
      · rfl
      · exact msix_alarm _ _
    · rfl
  · rfl

theorem firePart_alarm (s : State) (k) : alarmPart (firePart s k).evt = alarmPart s.evt := by
  unfold firePart
  split
  · split
    · exact (ibiEval_alarm _).trans (fireMsi_alarm s k)
    · exact fireMsi_alarm s k
  · rfl

theorem fireOnce_alarm (s : State) (k) (r) : alarmPart (s.fireOnce k r).evt = alarmPart s.evt := by
  have e : s.fireOnce k r = (if logFixed k || ((s.route k).en && (s.route k).log) then (firePart s k).logAppend r else firePart s k) := rfl
  rw [e]
  split
  · rw [logAppend_evt]; exact firePart_alarm s k
  · exact firePart_alarm s k

theorem fill_al (s : State) (n) : alarmPart (s.logFill n).evt = alarmPart s.evt := by
  unfold State.logFill
  split
  · split
    · exact fireOnce_alarm _ _ _
    · split
      · exact fireOnce_alarm _ _ _
      · rfl
  · rfl

/-- An event leaves the alarms alone. -/
theorem fire_alarm (s : State) (k a c o st) : alarmPart (s.fire k a c o st).evt = alarmPart s.evt := by
  unfold State.fire
  split
  · rfl
  · rw [fill_al, fireOnce_alarm]

theorem keyLess_epoch (l : List Nat) (s : State) : s.key.epoch ≤ (forNats l s State.keyLess).key.epoch := by
  induction l generalizing s with
  | nil => exact Nat.le_refl _
  | cons a l ih => exact Nat.le_trans (State.keyLess_law s a).good.epoch (ih _)

theorem freezeAll_keeps (s : State) (r) : (s.freezeAll r).key = s.key ∧ (s.freezeAll r).toks = s.toks ∧ (s.freezeAll r).staging = s.staging :=
  ⟨(State.freezeAll_law _ _).same .key (by decide), (State.freezeAll_law _ _).same .toks (by decide), (State.freezeAll_law _ _).same .staging (by decide)⟩

def withLatch (u : State) (k : Nat) : State := { u with evt := { u.evt with latch := u.evt.latch ||| BitVec.ofNat 4 (2 ^ k) } }

/-- An alarm latches and makes its response once (R465). -/
theorem alarm_spec (s u : State) (k detail : Nat) (hu : Same [.evt] s u) (hl : u.evt.latch = s.evt.latch) (hr : u.evt.rsp = s.evt.rsp) (ho : u.evt.owed = s.evt.owed) :
    ∃ v, Same Piece.event s v ∧ v.evt.latch = s.evt.latch ||| BitVec.ofNat 4 (2 ^ k) ∧
        v.evt.glitchStanding = u.evt.glitchStanding ∧ v.evt.shieldBroken = u.evt.shieldBroken ∧ v.evt.owed = s.evt.owed ∧
        (s.evt.latch.getLsbD k = true ∨ s.evt.rsp.getD k 0 = 0 → u.alarm k detail = v) ∧
        (s.evt.latch.getLsbD k = false → s.evt.rsp.getD k 0 = 1 → u.alarm k detail = v.alarmFreeze) ∧
        (s.evt.latch.getLsbD k = false → s.evt.rsp.getD k 0 = 2 → u.alarm k detail = v.zeroize) := by
  have hL : Same [.evt] u (withLatch u k) := by intro p hp; cases p <;> first | rfl | simp at hp
  generalize hv : (withLatch u k).fire (16 + k) [if !u.evt.latch.getLsbD k then u.evt.rsp.getD k 0 else 0, detail, (withLatch u k).alarmReg] = v
  have e : u.alarm k detail = (if (if !u.evt.latch.getLsbD k then u.evt.rsp.getD k 0 else 0) = 1 then v.alarmFreeze else if (if !u.evt.latch.getLsbD k then u.evt.rsp.getD k 0 else 0) = 2 then v.zeroize else v) := by rw [← hv]; rfl
  have ha : alarmPart v.evt = alarmPart (withLatch u k).evt := by rw [← hv]; exact fire_alarm _ _ _ _ _ _
  have hS : Same Piece.event s v := by
    rw [← hv]; exact Same.seq (Same.seq hu hL (w := [.evt]) (by decide) (by decide)) (State.fire_law _ _ _ _ _ _).same (by decide) (by decide)
  rw [e, hl, hr]
  refine ⟨v, hS, ?_, congrArg (·.2.2.2.1) ha, congrArg (·.2.2.2.2.1) ha, (congrArg (·.2.2.2.2.2) ha).trans ho, fun h => ?_, fun h1 h2 => ?_, fun h1 h2 => ?_⟩
  · have := congrArg (·.1) ha
    exact this.trans (by show u.evt.latch ||| _ = _; rw [hl])
  · have : (if (!s.evt.latch.getLsbD k) = true then s.evt.rsp.getD k 0 else 0) = 0 := by
      rcases h with h | h
      · rw [h]; rfl
      · rw [h]; split <;> rfl
    rw [this]; rfl
  · rw [if_pos (by rw [h1, h2]; rfl)]
  · rw [if_neg (by rw [h1, h2]; decide), if_pos (by rw [h1, h2]; rfl)]

theorem evt_same (u : State) (e : Evt) : Same [.evt] u { u with evt := e } := by intro p hp; cases p <;> first | rfl | simp at hp

def clearOne (e : Evt) (mask k : Nat) : Evt := if mask.testBit k && e.latch.getLsbD k then
      if (k == 0 && e.glitchStanding) || (k == 2 && e.shieldBroken) then { e with stuck := true } else { e with latch := e.latch &&& ~~~BitVec.ofNat 4 (2 ^ k) } else e

theorem latchClear_eq (s : State) (mask) : s.latchClear mask = { s with evt := clearOne (clearOne (clearOne (clearOne s.evt mask 0) mask 1) mask 2) mask 3 } := by
  have step : ∀ (u : State) (k : Nat), (if mask.testBit k && u.evt.latch.getLsbD k then
      if u.alarmStands k then { u with evt := { u.evt with stuck := true } } else { u with evt := { u.evt with latch := u.evt.latch &&& ~~~BitVec.ofNat 4 (2 ^ k) } } else u) = { u with evt := clearOne u.evt mask k } := by
    intro u k
    unfold clearOne State.alarmStands
    split
    · split <;> rfl
    · rfl
  unfold State.latchClear
  show [0, 1, 2, 3].foldl _ s = _
  simp only [List.foldl_cons, List.foldl_nil, step]

theorem getLsbD_clear4 (p : BitVec 4) (g) (hg : g < 4) (h) (hh : h < 4) : (p &&& ~~~BitVec.ofNat 4 (2 ^ g)).getLsbD h = (p.getLsbD h && !decide (h = g)) := by
  revert p
  have : ∀ g : Fin 4, ∀ h : Fin 4, ∀ p : BitVec 4, (p &&& ~~~BitVec.ofNat 4 (2 ^ g.val)).getLsbD h.val = (p.getLsbD h.val && !decide (h.val = g.val)) := by decide
  exact this ⟨g, hg⟩ ⟨h, hh⟩

/-- The clearing of one latch bit (R466). -/
theorem clearOne_spec (e : Evt) (mask k : Nat) (hk : k < 4) : (clearOne e mask k).glitchStanding = e.glitchStanding ∧ (clearOne e mask k).shieldBroken = e.shieldBroken ∧
    (∀ j, j < 4 → (clearOne e mask k).latch.getLsbD j = (e.latch.getLsbD j && !(decide (j = k) && mask.testBit k && !(k == 0 && e.glitchStanding || k == 2 && e.shieldBroken)))) ∧
    (clearOne e mask k).stuck = (e.stuck || mask.testBit k && e.latch.getLsbD k && (k == 0 && e.glitchStanding || k == 2 && e.shieldBroken)) := by
  unfold clearOne
  generalize hx : (k == 0 && e.glitchStanding || k == 2 && e.shieldBroken) = x
  cases hm : mask.testBit k <;> cases hl : e.latch.getLsbD k <;> cases x <;> simp only [Bool.and_true, Bool.and_false, Bool.true_and, Bool.false_and, Bool.false_eq_true, if_true, if_false, Bool.or_false, Bool.or_true, Bool.not_true, Bool.not_false, true_and, and_true, implies_true]
  · intro j hj
    by_cases h : j = k
    · subst h; simp [hl]
    · simp [h]
  · intro j hj; rw [getLsbD_clear4 _ _ hk _ hj]

end Sys2Proof.Laws
end

