-- ==== Sys2Proof/Laws/Links.lean ====
section
/-! SUPPORT. Ports and members under frames, sends, link drops and the end of a commit (R319 to R336, R446). -/

-- One theorem after another: side by side they need more threads than the memory limit allows.
set_option Elab.async false

namespace Sys2Proof.Laws

open Sys2Proof Sys2Proof.Machine Sys2Proof.Safety

theorem edit_of_look {α} {t : Tbl α} {k v} (h : t.look k = some v) (f : α → α) : t.edit k f = t.put k (f v) := by unfold Tbl.edit; rw [h]

theorem get_of_look {α} {t : Tbl α} {k v} (h : t.look k = some v) (d : α) : t.get k d = v := by unfold Tbl.get; rw [h]; rfl

theorem portEdit_port (s : State) (p) (f) : (s.portEdit p f).port p = f (s.port p) := by unfold State.port State.portEdit; simp

theorem portEdit_port_ne (s : State) {p r} (f) (h : r ≠ p) : (s.portEdit p f).port r = s.port r := by unfold State.port State.portEdit; dsimp only; exact Tbl.get_upd_ne _ _ _ h

theorem port_of_ports {s t : State} (h : t.cas.ports = s.cas.ports) (p) : t.port p = s.port p := by unfold State.port; rw [h]

theorem port_of_cas {s t : State} (h : t.cas = s.cas) (p) : t.port p = s.port p := by unfold State.port; rw [h]

theorem fire_port (s : State) (k a c o st) (p) : (s.fire k a c o st).port p = s.port p := port_of_cas ((State.fire_law _ _ _ _ _ _).same .cas (by decide)) p

theorem ackOut_port (s : State) (p vc n) : (s.ackOut p vc n).port p = { s.port p with fseqTx := (s.port p).fseqTx + 1 } := by
  unfold State.ackOut; show (s.portEdit p _).port p = _; rw [portEdit_port]

/-- The state in which a frame that is taken on its turn is acted on: its MSEQ counted, its contact noted, an ACK sent. -/
def frameTaken (s : State) (f : Frame) : State :=
  (((s.portEdit f.port fun x => { x with tagRun := 0 }).memEdit (f.port + 1) fun m => { m with contact := s.now }).portEdit f.port fun x => { x with rxSeq := x.rxSeq.put f.vc ((s.port f.port).rxSeq.get f.vc 1 + 1) }).ackOut f.port f.vc (ceilDiv f.len 256)

/-- A frame on its turn is acted on in that state. -/
theorem frameIn_on_turn {s : State} {f ph go} (h : FrameTurn s f ph) : s.frameIn f ph go = go (frameTaken s f) := by
  unfold State.frameIn
  dsimp only
  rw [if_neg (by rw [h.awake]; have := h.up; have := h.powered; simp; omega), if_neg (by simp [h.tag]), if_neg (by rw [h.turn]; omega), if_neg (by rw [h.turn]; omega)]
  rfl

theorem frameTaken_same (s f) : Same [.out, .cas] s (frameTaken s f) := by
  have h1 : ∀ (u : State) p g, Same [.cas] u (u.portEdit p g) := fun u p g => by intro p hp; cases p <;> first | rfl | simp at hp
  have h2 : ∀ (u : State) c g, Same [.cas] u (u.memEdit c g) := fun u c g => by intro p hp; cases p <;> first | rfl | simp at hp
  exact Same.seq (Same.seq (Same.seq (h1 _ _ _) (h2 _ _ _) (w := [.cas]) (by decide) (by decide)) (h1 _ _ _) (w := [.cas]) (by decide) (by decide)) (State.ackOut_law _ _ _ _).same (by decide) (by decide)

theorem frameTaken_port (s f) : (frameTaken s f).port f.port = { s.port f.port with tagRun := 0, rxSeq := (s.port f.port).rxSeq.put f.vc ((s.port f.port).rxSeq.get f.vc 1 + 1), fseqTx := (s.port f.port).fseqTx + 1 } := by
  unfold frameTaken; rw [ackOut_port, portEdit_port]
  rw [show ∀ u : State, ∀ c g, (u.memEdit c g).port f.port = u.port f.port from fun u c g => port_of_ports rfl _, portEdit_port]

theorem frameTaken_cas (s f) : (frameTaken s f).cas = { s.cas with ports := (frameTaken s f).cas.ports, members := (frameTaken s f).cas.members } := rfl

theorem frameTaken_members (s f) : (frameTaken s f).cas.members = s.cas.members.edit (f.port + 1) fun m => { m with contact := s.now } := rfl

/-- The cascade without its ports. -/
def lessPorts (c : Cas) : Cas := { c with ports := [] }

/-- The cascade without its ports and the step of a commit at work. -/
def lessPortsVote (c : Cas) : Cas := { c with ports := [], voteStep := 0 }

/-- The cascade without the step of a commit at work. -/
def lessVote (c : Cas) : Cas := { c with voteStep := 0 }

theorem casSend_members (s : State) (p vc ty len b) : (s.casSend p vc ty len b).cas.members = s.cas.members := by
  unfold State.casSend; dsimp only; split; · rfl
  split <;> rfl

theorem casSend_cas (s : State) (p vc ty len b) : lessPorts (s.casSend p vc ty len b).cas = lessPorts s.cas := by
  unfold State.casSend; dsimp only; split; · rfl
  split <;> rfl

/-- A send leaves the ports whose link is not keyed. -/
theorem casSend_quiet (s : State) (p vc ty len b) {r} (h : (s.port r).phase < 4) : (s.casSend p vc ty len b).port r = s.port r := by
  unfold State.casSend
  by_cases e : p = r
  · subst e; dsimp only; rw [if_pos h]
  · dsimp only; split; · rfl
    split
    · unfold State.frameOut; show ((State.portEdit (State.portEdit (State.flitsSend _ _ _ _) p _) p _)).port r = _
      rw [portEdit_port_ne _ _ (Ne.symm e), portEdit_port_ne _ _ (Ne.symm e)]; rfl
    · rw [portEdit_port_ne _ _ (Ne.symm e)]; rfl

theorem casSend_phase (s : State) (p vc ty len b) (r) : ((s.casSend p vc ty len b).port r).phase = (s.port r).phase := by
  unfold State.casSend
  by_cases e : r = p
  · subst e; dsimp only; split; · rfl
    split
    · unfold State.frameOut; show (((State.portEdit (State.portEdit (State.flitsSend _ _ _ _) _ _) _ _)).port _).phase = _
      rw [portEdit_port, portEdit_port]; rfl
    · rw [portEdit_port]; rfl
  · dsimp only; split; · rfl
    split
    · unfold State.frameOut; show (((State.portEdit (State.portEdit (State.flitsSend _ _ _ _) p _) p _)).port r).phase = _
      rw [portEdit_port_ne _ _ e, portEdit_port_ne _ _ e]; rfl
    · rw [portEdit_port_ne _ _ e]; rfl

/-- What a fold of sends keeps: everything of the cascade but the ports, and unkeyed ports. -/
structure Sent (s t : State) : Prop where
  cas : lessPorts t.cas = lessPorts s.cas
  quiet : ∀ r, (s.port r).phase < 4 → t.port r = s.port r
  phase : ∀ r, (t.port r).phase = (s.port r).phase
  same : Same [.out, .sward, .cas] s t

theorem Sent.refl (s) : Sent s s := ⟨rfl, fun _ _ => rfl, fun _ => rfl, fun _ _ => same_refl _ _⟩

theorem Sent.trans {s t u} (h : Sent s t) (k : Sent t u) : Sent s u :=
  ⟨k.cas.trans h.cas, fun r hr => by rw [k.quiet r (by rw [h.phase]; exact hr), h.quiet r hr], fun r => by rw [k.phase, h.phase], Same.seq h.same k.same (by decide) (by decide)⟩

theorem Sent.send (s : State) (p vc ty len b) : Sent s (s.casSend p vc ty len b) := ⟨casSend_cas _ _ _ _ _ _, fun _ h => casSend_quiet _ _ _ _ _ _ h, fun _ => casSend_phase _ _ _ _ _ _ _, (State.casSend_law _ _ _ _ _ _).same⟩

theorem Sent.fold {α} (l : List α) (f : State → α → State) (h : ∀ s a, Sent s (f s a)) : ∀ s, Sent s (l.foldl f s) := by
  induction l with
  | nil => exact Sent.refl
  | cons a l ih => exact fun s => (h s a).trans (ih _)

theorem Sent.members {s t} (h : Sent s t) : t.cas.members = s.cas.members := show (lessPorts t.cas).members = (lessPorts s.cas).members by rw [h.cas]

theorem Sent.step {s t} (h : Sent s t) : t.cas.voteStep = s.cas.voteStep := show (lessPorts t.cas).voteStep = (lessPorts s.cas).voteStep by rw [h.cas]

/-- A vote that ends leaves the members, and the unkeyed ports, alone. -/
structure Quiet (s t : State) : Prop where
  members : t.cas.members = s.cas.members
  quiet : ∀ r, (s.port r).phase < 4 → t.port r = s.port r
  phase : ∀ r, (t.port r).phase = (s.port r).phase
  same : Same [.out, .sqs, .qrecs, .ctxs, .sward, .cas, .nv, .evt, .log] s t
  casEq : lessPortsVote t.cas = lessPortsVote s.cas

theorem commitEnd_quiet (s : State) (st) : Quiet s (s.commitEnd st) := by
  have hc : (s.commitEnd st).cas = { s.cas with voteStep := 0 } := by
    unfold State.commitEnd; dsimp only
    have f : ∀ (u : State) k x a b, (u.finish k x a b).cas = u.cas := fun u k x a b => (State.finish_law u k x a b 0).same .cas (by decide)
    have g : ∀ (u : State), (u.fire 209).cas = u.cas := fun u => (State.fire_law _ _ _ _ _ _).same .cas (by decide)
    split
    · split
      · rw [f, g]
      · rw [g]
    · split
      · rw [f]; split
        · rw [g]
        · show (State.fire _ 209).cas = _; rw [g]
      · split
        · rw [g]
        · show (State.fire _ 209).cas = _; rw [g]
  refine ⟨by rw [hc], fun r _ => port_of_ports (by rw [hc]) r, fun r => congrArg Port.phase (port_of_ports (by rw [hc]) r), Same.mono (State.commitEnd_law _ _).same (by decide), by rw [hc]; rfl⟩

theorem Sent.quietly {s t} (h : Sent s t) : Quiet s t := ⟨h.members, h.quiet, h.phase, Same.mono h.same (by decide), congrArg lessVote h.cas⟩

theorem Quiet.trans {s t u} (h : Quiet s t) (k : Quiet t u) : Quiet s u :=
  ⟨by rw [k.members, h.members], fun r hr => by rw [k.quiet r (by rw [h.phase]; exact hr), h.quiet r hr], fun r => by rw [k.phase, h.phase], Same.seq h.same k.same (by decide) (by decide), k.casEq.trans h.casEq⟩

theorem Quiet.refl (s) : Quiet s s := (Sent.refl s).quietly

theorem voteAbort_quiet (s : State) (st) : Quiet s (s.voteAbort st) := by
  unfold State.voteAbort
  exact (Sent.fold _ _ (fun s a => Sent.send s _ _ _ _ _) s).quietly.trans (commitEnd_quiet _ _)

theorem armCheck_quiet (s : State) : Quiet s s.armCheck := by
  unfold State.armCheck; split
  · exact commitEnd_quiet _ _
  · exact Quiet.refl _

theorem fire_quiet (s : State) (k a c o st) : Quiet s (s.fire k a c o st) :=
  have h : (s.fire k a c o st).cas = s.cas := (State.fire_law _ _ _ _ _ _).same .cas (by decide)
  ⟨by rw [h], fun _ _ => port_of_cas h _, fun _ => by rw [port_of_cas h], Same.mono (State.fire_law _ _ _ _ _ _).same (by decide), by rw [h]⟩

theorem memSt_quiet (s : State) (c st r) : Quiet (s.memEdit c fun m => { m with st := st, reason := r }) (s.memSt c st r) := by
  unfold State.memSt; dsimp only
  split; · exact Quiet.refl _
  split; · exact fire_quiet _ _ _ _ _ _
  split
  · exact (fire_quiet _ _ _ _ _ _).trans (voteAbort_quiet _ _)
  · exact (fire_quiet _ _ _ _ _ _).trans (armCheck_quiet _)

theorem member_of_members {s t : State} (h : t.cas.members = s.cas.members) (c) : t.member c = s.member c := by unfold State.member; rw [h]

theorem memEdit_look {s : State} {c m} (h : s.cas.members.look c = some m) (f) : (s.memEdit c f).cas.members.look c = some (f m) := Tbl.look_edit _ h

/-- A member's new state stands in the table. -/
theorem memSt_look {s : State} {c m} (h : s.cas.members.look c = some m) (st r) : (s.memSt c st r).cas.members.look c = some { m with st := st, reason := r } := by
  rw [(memSt_quiet s c st r).members]; exact memEdit_look h _

theorem members_of_cas {s t : State} (h : t.cas = s.cas) : t.cas.members = s.cas.members := by rw [h]

/-- A link that goes down is at phase 0 with its cause, and nothing on it is outstanding. -/
theorem linkDrop_port (s : State) (p cause) : (s.linkDrop p cause).port p = { s.port p with phase := 0, downCause := cause, unacked := [], txSeq := [], rxSeq := [], credits := [], tagRun := 0, downAt := s.now } := by
  unfold State.linkDrop; dsimp only
  generalize hz : State.fire (State.portEdit (s.lanesDrop _) p _) _ _ _ _ _ = z
  have hp : z.port p = { s.port p with phase := 0, downCause := cause, unacked := [], txSeq := [], rxSeq := [], credits := [], tagRun := 0, downAt := s.now } := by
    rw [← hz, fire_port, portEdit_port]; rfl
  split
  · split
    · exact hp
    · exact hp
  · have hm : ∀ (u : State) c (f : Member → Member), (u.memEdit c f).port p = u.port p := fun u c f => port_of_ports rfl _
    split
    · rw [(memSt_quiet _ _ _ _).quiet p (by rw [hm, hm, hp]; exact Nat.zero_lt_succ _), hm, hm, hp]
    · split
      · rw [port_of_cas ((State.casLose_law _ _ _).same .cas (by decide)), hm, hp]
      · rw [hm, hp]

theorem frameIn_taken {s : State} {f ph go} (hq : ph ≤ (s.port f.port).phase) (hs : s.inStop = false) (hb : s.brm.st < 3) (ht : f.tagOk = true) :
    s.frameIn f ph go =
      (let s1 := (s.portEdit f.port fun x => { x with tagRun := 0 }).memEdit (f.port + 1) fun m => { m with contact := s.now }
       let e := (s.port f.port).rxSeq.get f.vc 1
       if f.mseq < e then (s1.portEdit f.port fun x => { x with dups := satAdd 0xffff x.dups 1 }).ackOut f.port f.vc (ceilDiv f.len 256)
       else if e < f.mseq then s1.portEdit f.port fun x => { x with gaps := satAdd 0xffff x.gaps 1 }
       else go ((s1.portEdit f.port fun x => { x with rxSeq := x.rxSeq.put f.vc (e + 1) }).ackOut f.port f.vc (ceilDiv f.len 256))) := by
  unfold State.frameIn
  dsimp only
  rw [if_neg (by rw [hs]; simp; omega), if_neg (by simp [ht])]

theorem frameIn_badTag {s : State} {f ph go} (hq : ph ≤ (s.port f.port).phase) (hs : s.inStop = false) (hb : s.brm.st < 3) (ht : f.tagOk = false) :
    s.frameIn f ph go =
      (let s1 := s.portEdit f.port fun x => { x with tagFail := satAdd 0xffffffff x.tagFail 1, tagRun := x.tagRun + 1 }
       if 16 ≤ (s.port f.port).tagRun + 1 then s1.linkDrop f.port 2 else s1) := by
  unfold State.frameIn
  dsimp only
  rw [if_neg (by rw [hs]; simp; omega), if_pos (by simp [ht])]

theorem portEdit_same (u : State) (p g) : Same [.cas] u (u.portEdit p g) := by intro p hp; cases p <;> first | rfl | simp at hp

theorem memEdit_same (u : State) (p g) : Same [.cas] u (u.memEdit p g) := by intro p hp; cases p <;> first | rfl | simp at hp

theorem memEdit_port (u : State) (c f p) : (u.memEdit c f).port p = u.port p := port_of_ports rfl _

theorem linkDrop_myLeases {s : State} {p c} (h : s.cas.crown = false) : (s.linkDrop p c).cas.myLeases = s.cas.myLeases := by
  unfold State.linkDrop; dsimp only
  generalize hz : State.fire (State.portEdit (s.lanesDrop _) p _) _ _ _ _ _ = z
  have h2 : z.cas.myLeases = s.cas.myLeases ∧ z.cas.crown = s.cas.crown := by
    rw [← hz, (State.fire_law _ _ _ _ _ _).same .cas (by decide)]; exact ⟨rfl, rfl⟩
  rw [if_pos (by rw [h2.2, h]; rfl)]
  split
  · exact h2.1
  · exact h2.1

theorem ackOut_out (s : State) (p vc n) : (s.ackOut p vc n).out = .frame p 0 0 0 ((s.port p).fseqTx + 1) (((List.range 4).map fun v => (s.port p).rxSeq.get v 1 - 1) ++ (List.range 4).map fun v => if v = vc then n else 0) :: s.out := rfl

theorem credits_fold (x : Port) (credits : List Nat) : ∀ v, v < 4 →
    ((List.range 4).foldl (fun t v => Tbl.put t v (min 64 (x.credit v + credits.getD v 0))) x.credits).get v 64 = min 64 (x.credit v + credits.getD v 0) := by
  intro v hv
  show ((((x.credits.put 0 _).put 1 _).put 2 _).put 3 _).get v 64 = _
  unfold Tbl.get
  rcases v with _ | _ | _ | _ | v
  · rw [Tbl.look_put_ne _ _ (by decide), Tbl.look_put_ne _ _ (by decide), Tbl.look_put_ne _ _ (by decide), Tbl.look_put]; rfl
  · rw [Tbl.look_put_ne _ _ (by decide), Tbl.look_put_ne _ _ (by decide), Tbl.look_put]; rfl
  · rw [Tbl.look_put_ne _ _ (by decide), Tbl.look_put]; rfl
  · rw [Tbl.look_put]; rfl
  · omega

theorem pump_idle (s : State) (p) (h : (s.port p).unacked.all (fun m => m.sends != 0) = true) : s.pump p = s := by
  unfold State.pump
  have : ∀ (l : List Unacked) (t : State × List Nat), l.all (fun m => m.sends != 0) = true → l.foldl (fun (t : State × List Nat) m =>
    if m.sends ≠ 0 ∨ t.2.contains m.vc then t
    else
      let n := ceilDiv m.len 256
      let q := t.1.port p
      if q.credit m.vc < n then (t.1, m.vc :: t.2)
      else
        let s1 := t.1.portEdit p fun x => { x with
          credits := x.credits.put m.vc (x.credit m.vc - n)
          unacked := x.unacked.map fun u => if u.vc = m.vc ∧ u.mseq = m.mseq then { u with sends := 1 } else u }
        ((s1.frameOut p m).flitsTaken (msgPort m.type) (ubpelPort p) (flitsOf m.len), t.2)) t = t := by
    intro l
    induction l with
    | nil => exact fun _ _ => rfl
    | cons a l ih =>
      intro t ha
      rw [List.all_cons, Bool.and_eq_true] at ha
      rw [List.foldl_cons, if_pos (.inl (by simpa using ha.1))]
      exact ih t ha.2
  rw [this _ _ h]

theorem not_not_of {a : Prop} (h : a) : ¬¬a := fun k => k h

theorem chip_port (u : State) (n p) : State.port { u with cas := { u.cas with chip := n } } p = u.port p := rfl

theorem cas_same (u : State) (c : Cas) : Same [.cas] u { u with cas := c } := by intro p hp; cases p <;> first | rfl | simp at hp

theorem resend_port (p vc : Nat) (l : List Unacked) : ∀ s : State,
    let t := l.foldl (fun (s : State) u =>
        (s.portEdit p fun x => { x with
          retries := satAdd 0xffff x.retries 1
          unacked := x.unacked.map fun w => if w.vc = vc ∧ w.mseq = u.mseq then { w with sends := w.sends + 1 } else w }).frameOut p u) s
    Same [.out, .cas] s t ∧ (t.port p).fseqTx = (s.port p).fseqTx + l.length ∧ t.out.length = s.out.length + l.length ∧
      (t.port p).unacked.map (fun u => (u.vc, u.mseq, u.body)) = (s.port p).unacked.map (fun u => (u.vc, u.mseq, u.body)) := by
  induction l with
  | nil => exact fun s => ⟨fun _ _ => same_refl _ _, rfl, rfl, rfl⟩
  | cons a l ih =>
    intro s
    rw [List.foldl_cons]
    generalize hz : (s.portEdit p _).frameOut p a = z
    have hs : Same [.out, .cas] s z := by rw [← hz]; exact Same.seq (portEdit_same s _ _) (State.frameOut_law _ _ _).same (by decide) (by decide)
    have hp : z.port p = { s.port p with retries := satAdd 0xffff (s.port p).retries 1, fseqTx := (s.port p).fseqTx + 1, unacked := (s.port p).unacked.map fun w => if w.vc = vc ∧ w.mseq = a.mseq then { w with sends := w.sends + 1 } else w } := by
      rw [← hz]; unfold State.frameOut; show (State.portEdit _ p _).port p = _; rw [portEdit_port, portEdit_port]
    have ho : z.out.length = s.out.length + 1 := by rw [← hz]; rfl
    obtain ⟨i1, i2, i3, i4⟩ := ih z
    refine ⟨Same.seq hs i1 (by decide) (by decide), ?_, ?_, ?_⟩
    · rw [i2, hp]; simp only [List.length_cons]; omega
    · rw [i3, ho]; simp only [List.length_cons]; omega
    · rw [i4, hp]; dsimp only; rw [List.map_map]
      apply List.map_congr_left
      intro w _
      dsimp only [Function.comp]
      by_cases hw : w.vc = vc ∧ w.mseq = a.mseq
      · rw [if_pos hw]
      · rw [if_neg hw]

theorem casSend_field {α} (g : Cas → α) (hg : ∀ c, g (lessPorts c) = g c) (s : State) (p vc ty len b) : g (s.casSend p vc ty len b).cas = g s.cas := by
  rw [← hg, casSend_cas, hg]

/-- A send on a keyed link puts its message last among those not acknowledged. -/
theorem casSend_unacked (s : State) (p vc ty len b) (h : 4 ≤ (s.port p).phase) :
    ∃ l m, ((s.casSend p vc ty len b).port p).unacked = l ++ [m] ∧ m.type = ty ∧ m.vc = vc ∧ m.body = b := by
  unfold State.casSend; dsimp only
  rw [if_neg (by omega)]
  split
  · unfold State.frameOut
    refine ⟨(s.port p).unacked, { vc := vc, mseq := (s.port p).txSeq.get vc 1, type := ty, len := len, body := b, sends := 1 }, ?_, rfl, rfl, rfl⟩
    show (State.port (State.portEdit (State.portEdit (State.flitsSend _ _ _ _) p _) p _) p).unacked = _
    rw [portEdit_port, portEdit_port]; rfl
  · refine ⟨(s.port p).unacked, { vc := vc, mseq := (s.port p).txSeq.get vc 1, type := ty, len := len, body := b, sends := 0 }, ?_, rfl, rfl, rfl⟩
    rw [portEdit_port]; rfl

end Sys2Proof.Laws
end

