-- ==== Sys2Proof/Laws/Units.lean ====
section
/-! SUPPORT. Units of reads, operations, channels and blocks under the media operations. -/

-- One theorem after another: side by side they need more threads than the memory limit allows.
set_option Elab.async false

namespace Sys2Proof.Laws

open Sys2Proof Sys2Proof.Machine Sys2Proof.Safety

theorem runit_of_ctxs {s t : State} (h : t.ctxs = s.ctxs) (c u) : t.runit c u = s.runit c u := by unfold State.runit; rw [h]

theorem runitEdit_runit {s : State} {c u r} (h : s.runit c u = some r) (f : RUnit → RUnit) : (s.runitEdit c u f).runit c u = some (f r) := by
  unfold State.runit at h
  cases e : s.ctxs.look c with
  | none => rw [e] at h; cases h
  | some x =>
    rw [e] at h; dsimp only at h
    unfold State.runit State.runitEdit
    rw [ctxEdit_ctxs, Tbl.look_edit _ e]
    dsimp only
    exact Tbl.look_edit _ h

theorem forNats_ctxs {f : State → Nat → State} (hf : ∀ s a, (f s a).ctxs = s.ctxs) : ∀ (l : List Nat) (s : State), (forNats l s f).ctxs = s.ctxs
  | [], _ => rfl
  | a :: l, s => (forNats_ctxs hf l (f s a)).trans (hf s a)

theorem dieIdle_running {s : State} {dk id d} (hd : s.dies.look dk = some d) (hr : d.running = some id) : ((s.dieIdle dk id).die dk).running = none := by
  unfold State.dieIdle
  cases s.fch.ops.look id with
  | none =>
    show (Tbl.get (s.dies.edit dk _) dk {}).running = _
    rw [edit_of_look hd, Tbl.get_put]; simp [hr]
  | some o =>
    show (Tbl.get (s.dies.edit dk _) dk {}).running = _
    rw [edit_of_look hd, Tbl.get_put]; simp [hr]

theorem bufDrops_keep (l : List Nat) : ∀ s : State, (l.foldl State.bufDrop s).fch = s.fch ∧ (l.foldl State.bufDrop s).blocks = s.blocks ∧ (l.foldl State.bufDrop s).par = s.par := by
  induction l with
  | nil => exact fun _ => ⟨rfl, rfl, rfl⟩
  | cons a l ih =>
    intro s
    obtain ⟨x, y, z⟩ := ih (s.bufDrop a)
    have L := (State.bufDrop_law s a).same
    exact ⟨x.trans (L .fch (by decide)), y.trans (L .blocks (by decide)), z.trans (L .par (by decide))⟩

theorem chnEdit_chn (s : State) (c f) : (s.chnEdit c f).chn c = f (s.chn c) := by unfold State.chn State.chnEdit; simp

theorem chn_of_chans {s t : State} (h : t.fch.chans = s.fch.chans) (c) : t.chn c = s.chn c := by unfold State.chn; rw [h]

theorem blkEdit_blk (s : State) (c f) : (s.blkEdit c f).blk c = f (s.blk c) := by unfold State.blk State.blkEdit; simp

theorem blk_of_blocks {s t : State} (h : t.blocks = s.blocks) (c) : t.blk c = s.blk c := by unfold State.blk; rw [h]

end Sys2Proof.Laws
end

