-- ==== Sys2Proof/Laws/Members.lean ====
section
/-! SUPPORT. What the crown and a member do with each other's frames (R326 to R336). -/

-- One theorem after another: side by side they need more threads than the memory limit allows.
set_option Elab.async false

namespace Sys2Proof.Laws

open Sys2Proof Sys2Proof.Machine Sys2Proof.Safety

theorem memberIn_on_turn {s : State} {f : Frame} {go} (hc : s.cas.crown = false) (hp : f.port = 0) (ht : FrameTurn s f 5) : s.memberIn f go = go (frameTaken s f) := by
  unfold State.memberIn; rw [if_pos (by simp [hc, hp]), frameIn_on_turn ht]

theorem now_same (u : State) (c) : Same [.now] u { u with now := c } := by intro p hp; cases p <;> first | rfl | simp at hp

/-- The state after the crown's time has come (R332). -/
def timeTaken (s : State) (crownNs rttNs : Nat) : State :=
    let diff : Int := (crownNs + rttNs / 2 : Nat) - (s.now : Int)
    if 10000000 < diff ∨ diff < -10000000 then { s with now := crownNs + rttNs / 2 }
    else
      let adj := max (-1000) (min 1000 diff)
      { s with now := (s.now + adj).toNat }

theorem timeTaken_spec (s : State) (crownNs rtt : Nat) :
    let target := crownNs + rtt / 2
    Same [.now] s (timeTaken s crownNs rtt) ∧
        (s.now + 10000000 < target ∨ target + 10000000 < s.now → (timeTaken s crownNs rtt).now = target) ∧
        (s.now ≤ target → target ≤ s.now + 10000000 → (timeTaken s crownNs rtt).now = min target (s.now + 1000)) ∧
        (target ≤ s.now → s.now ≤ target + 10000000 → (timeTaken s crownNs rtt).now = max target (s.now - 1000)) := by
  unfold timeTaken; dsimp only
  generalize crownNs + rtt / 2 = g
  refine ⟨?_, fun h => ?_, fun h1 h2 => ?_, fun h1 h2 => ?_⟩
  · split
    · exact now_same _ _
    · exact now_same _ _
  · rw [if_pos (by omega)]
  · rw [if_neg (by omega)]; dsimp only; omega
  · rw [if_neg (by omega)]; dsimp only; omega

end Sys2Proof.Laws
end

