-- ==== Sys2Proof/Laws/Records.lean ====
section
/-! SUPPORT. The records of the meter island (R347 to R353). -/

-- One theorem after another: side by side they need more threads than the memory limit allows.
set_option Elab.async false

namespace Sys2Proof.Laws

open Sys2Proof Sys2Proof.Machine Sys2Proof.Safety

theorem fire_mtr (s : State) (k a c o st) : (s.fire k a c o st).mtr = s.mtr := (State.fire_law _ _ _ _ _ _).same .mtr (by decide)

theorem mtrPut_mtr (s : State) (r) : (s.mtrPut r).mtr = s.mtr.bufferAdd r := by
  unfold State.mtrPut; dsimp only; split
  · rw [fire_mtr]; rfl
  · rfl

theorem bufferAdd_last (m : Mtr) (r) : (m.bufferAdd r).buffer.getLast? = some r := by
  unfold Mtr.bufferAdd; dsimp only; exact List.getLast?_concat

/-- The island without its buffer, its record number and its link. -/
def lessBuffer (m : Mtr) : Mtr := { m with buffer := [], nextRec := 0, lastLink := 0 }

theorem bufferAdd_rest (m : Mtr) (r) : lessBuffer (m.bufferAdd r) = lessBuffer m := rfl

theorem bufferAdd_field {α} (g : Mtr → α) (hg : ∀ m, g (lessBuffer m) = g m) (m : Mtr) (r) : g (m.bufferAdd r) = g m := by rw [← hg, bufferAdd_rest, hg]

theorem mtrHalt_mtr (s : State) (k) : (s.mtrHalt k).mtr = { s.mtr with run := false, halt := k } := by
  unfold State.mtrHalt; rw [fire_mtr]; rfl

theorem mtrFault_mtr (s : State) (f) : (s.mtrFault f).mtr = f s.mtr := by
  unfold State.mtrFault; dsimp only; split
  · rw [fire_mtr]; rfl
  · rfl

theorem mtrFault_same (s : State) (f) : Same [.out, .mtr, .evt, .log] s (s.mtrFault f) := by
  unfold State.mtrFault; dsimp only
  have h : Same [.mtr] s (s.mtrEdit f) := by intro p hp; cases p <;> first | rfl | simp at hp
  split
  · exact Same.seq h (State.fire_law _ _ _ _ _ _).same (by decide) (by decide)
  · exact Same.mono h (by decide)

theorem mtr_same (s : State) (f : Mtr) : Same [.mtr] s { s with mtr := f } := by intro p hp; cases p <;> first | rfl | simp at hp

/-- What the close of an interval makes of the island, with the record that it appends (R347, R349). -/
structure Closed (s t : State) (part : Bool) (r : MRec) : Prop where
  last : t.mtr.buffer.getLast? = some r
  type : r.type = 1
  recno : r.recno = s.cas.chip * 2 ^ 62 + s.mtr.nextRec
  prev : r.prev = s.mtr.lastLink
  link : t.mtr.lastLink = r.link
  tot : r.eTotal = s.mtr.eTotal + s.mtr.energy
  min : r.minutes = if part then 0 else 1
  fin : r.tEnd = s.mtr.time
  flag : r.flags = s.mtr.ensure.closeFlags part
  next : t.mtr.nextRec = s.mtr.nextRec + 1
  time : t.mtr.time = s.mtr.time
  start : t.mtr.tStart = s.mtr.time
  energy : t.mtr.energy = 0
  eTotal : t.mtr.eTotal = s.mtr.eTotal + s.mtr.energy
  run : t.mtr.run = s.mtr.run
  sealCnt : t.mtr.sealCnt = s.mtr.sealCnt
  params : t.mtr.params = s.mtr.params
  presult : t.mtr.paramResult = s.mtr.paramResult
  sel : t.mtr.paramSel = s.mtr.paramSel
  chip : t.cas = s.cas
  same : Same [.free, .out, .mtr, .evt, .log] s t

theorem mtrClose_spec (s : State) (part) : ∃ r, Closed s (s.mtrClose part) part r := by
  have L := (State.mtrClose_law s part).same
  unfold State.mtrClose at L ⊢
  dsimp only at L ⊢
  apply Exists.intro
  constructor
  · rw [mtrPut_mtr]; exact bufferAdd_last _ _
  all_goals first
    | exact L
    | exact L .cas (by decide)
    | rfl
    | (rw [mtrPut_mtr]; rfl)

theorem testBit2_sum : ∀ a : Bool, ∀ b : Bool, ∀ c : Bool, ∀ d : Bool, ∀ e : Bool, ∀ f : Bool, ∀ g : Bool,
    ((if a then 2 else 0) + (if false = true then 4 else 0) + (if b then 8 else 0) + (if c then 16 else 0)
    + (if d then 32 else 0) + (if e then 64 else 0) + (if f then 128 else 0) + (if g then 256 else 0)).testBit 2 = false := by decide

theorem closeFlags_partial (m : Mtr) : (m.closeFlags false).testBit 2 = false := by
  unfold Mtr.closeFlags
  dsimp only
  exact testBit2_sum _ _ _ _ _ _ _

theorem mtrAudit_spec (u : State) (k p o n) : ∃ r, (u.mtrAudit k p o n 0).mtr = u.mtr.bufferAdd r ∧ r.type = 2 ∧ r.sealCnt = u.mtr.sealCnt ∧ r.audit = some (k, p, o, n, 0) :=
  ⟨{ u.mtrHeader 2 0 with tStart := u.mtr.time, audit := some (k, p, o, n, 0) }, mtrPut_mtr _ _, rfl, rfl, rfl⟩

end Sys2Proof.Laws
end

