-- ==== Sys2Proof/Laws/Saves.lean ====
section
/-! SUPPORT. The save sequence, the budget and the wake (R366, R370, R376, R379, R380). -/

-- One theorem after another: side by side they need more threads than the memory limit allows.
set_option Elab.async false

namespace Sys2Proof.Laws

open Sys2Proof Sys2Proof.Machine Sys2Proof.Safety

theorem saveStart_brm (s : State) (k) : (s.saveStart k).brm = { s.brm with st := 3, chg := false, saveKind := k, saveBytes := 0 } := by
  unfold State.saveStart; dsimp only
  have h : ∀ u : State, u.brm = s.brm → ({ u.brm with st := 3, chg := false, saveKind := k, saveBytes := 0 } : Brm) = { s.brm with st := 3, chg := false, saveKind := k, saveBytes := 0 } := fun u hu => by rw [hu]
  apply h
  have f := (State.fire_law s 27 [] 0 0x7ff none).same .brm (by decide)
  split
  · rw [(State.markRun_law _).same .brm (by decide), (State.enterSys_law _ _).same .brm (by decide)]; exact f
  · split
    · rw [(State.casSend_law _ _ _ _ _ _).same .brm (by decide)]; exact f
    · exact f

theorem saveZones_same (l : List Nat) (s : State) : Same [.zones, .blocks, .flash] s (forNats l s State.saveZone) := by
  induction l generalizing s with
  | nil => exact fun _ _ => same_refl _ _
  | cons a l ih => exact Same.seq (State.saveZone_law s a).same (ih _) (by decide) (by decide)

/-- A save that starts ends: the bank is off, its kind is recorded, and the clean marker is written unless it was a fatal one (R380). -/
theorem saveNow_spec (s : State) (k) (h : s.brm.st < 3) : (s.saveNow k).brm.st = 4 ∧ (s.saveNow k).brm.saveKind = k ∧ (s.saveNow k).brm.chg = false ∧
    (s.saveNow k).brm.pfail = s.brm.pfail ∧ (s.saveNow k).brm.testResult = s.brm.testResult ∧
    (s.saveNow k).nv.clean = !(k == 4) ∧ (s.saveNow k).nv.saveKind = k ∧ (s.saveNow k).fch.ops = [] := by
  have e : s.saveNow k = (s.saveStart k).saveFinish (k == 4) := by unfold State.saveNow; rw [if_neg (by omega)]
  rw [e]
  have hb : ∀ n l, (forNats l (State.saveOps n ((s.saveStart k).saveWithdraw.mediaAdvance)) State.saveZone).saveRelease.brm = { s.brm with st := 3, chg := false, saveKind := k, saveBytes := 0 } := by
    intro n l
    rw [(State.saveRelease_law _).same .brm (by decide), saveZones_same _ _ .brm (by decide), (State.saveOps_law _ _).same .brm (by decide), (State.mediaAdvance_law _).same .brm (by decide), (State.saveWithdraw_law _).same .brm (by decide), saveStart_brm]
  unfold State.saveFinish
  dsimp only
  have m := fun u : State => (State.mtrSave_law u).same
  rw [m _ .brm (by decide), m _ .nv (by decide), m _ .fch (by decide)]
  unfold State.freeStep
  dsimp only
  rw [hb]
  exact ⟨rfl, rfl, rfl, rfl, rfl, rfl, rfl, rfl⟩

/-- The budget is a whole number of 16 MiB, at most 4 GiB, and the largest such number below the formula (R376). -/
theorem dirtyMax_spec (e : Nat) : dirtyMax e % 2 ^ 24 = 0 ∧ dirtyMax e ≤ 2 ^ 32 ∧ (e ≤ 12 * 10 ^ 20 → dirtyMax e = 0) ∧
    (dirtyMax e < 2 ^ 32 → 12 * 10 ^ 20 < e → dirtyMax e / 2 ^ 24 * (11 * 10 ^ 20) ≤ (e - 12 * 10 ^ 20) * 64 ∧
      (e - 12 * 10 ^ 20) * 64 < (dirtyMax e / 2 ^ 24 + 1) * (11 * 10 ^ 20)) := by
  unfold dirtyMax
  split
  · refine ⟨rfl, by decide, fun _ => rfl, fun _ h => by omega⟩
  · have hd : ∀ n : Nat, n / (11 * 10 ^ 20) * (11 * 10 ^ 20) ≤ n ∧ n < (n / (11 * 10 ^ 20) + 1) * (11 * 10 ^ 20) := fun n => by omega
    have := hd ((e - 12 * 10 ^ 20) * 64)
    generalize (e - 12 * 10 ^ 20) * 64 / (11 * 10 ^ 20) = q at *
    generalize (e - 12 * 10 ^ 20) * 64 = n at *
    refine ⟨by omega, by omega, fun h => by omega, fun h _ => ?_⟩
    have h2 : min 256 q * 2 ^ 24 / 2 ^ 24 = q := by omega
    rw [h2]; exact this

theorem brm_same (s : State) (b : Brm) : Same [.brm] s { s with brm := b } := by intro p hp; cases p <;> first | rfl | simp at hp

theorem fire_brm (s : State) (k a c o st) : (s.fire k a c o st).brm = s.brm := (State.fire_law _ _ _ _ _ _).same .brm (by decide)

theorem stopSends_members (s : State) : ∀ l : List Nat, (l.foldl (fun s c => s.casSend (portOf c) 3 0x80 0 [1]) s).cas.members = s.cas.members ∧
    Same [.out, .sward, .cas] s (l.foldl (fun s c => s.casSend (portOf c) 3 0x80 0 [1]) s) := by
  intro l
  induction l generalizing s with
  | nil => exact ⟨rfl, fun _ _ => same_refl _ _⟩
  | cons a l ih => exact ⟨((ih _).1).trans (casSend_members _ _ _ _ _ _), Same.seq (State.casSend_law _ _ _ _ _ _).same (ih _).2 (by decide) (by decide)⟩


theorem mem_of_look {α} : ∀ {t : Tbl α} {k v}, t.look k = some v → (k, v) ∈ t
  | [], _, _, h => by cases h
  | (a, w) :: t, k, v, h => by
    unfold Tbl.look at h
    split at h
    · rename_i e; subst e; cases h; exact List.mem_cons_self
    · exact List.mem_cons_of_mem _ (mem_of_look h)

theorem keysWhere_none {α} {t : Tbl α} {f : Nat → α → Bool} (h : t.all (fun k v => !f k v) = true) : t.keysWhere f = [] := by
  unfold Tbl.keysWhere Tbl.all at *
  rw [List.filter_eq_nil_iff.mpr]; · rfl
  intro p hp; have := List.all_eq_true.mp h p hp; simpa using this

def renewed (s : State) (c : Nat) : State := (s.casSend (portOf c) 0 0x11 16 [2]).memEdit c fun m => { m with waitRenew := true, lastRenew := s.now }

/-- The renews of a wake reach the members of their list (R366). -/
theorem renewals_spec : ∀ (l : List Nat) (s : State), Same [.out, .sward, .cas] s (l.foldl renewed s) ∧ ∀ k m, s.cas.members.look k = some m →
    (k ∈ l ∨ m.waitRenew = true ∧ m.lastRenew = s.now) → ∃ m', (l.foldl renewed s).cas.members.look k = some m' ∧ m'.waitRenew = true ∧ m'.lastRenew = s.now := by
  intro l
  induction l with
  | nil => exact fun s => ⟨fun _ _ => same_refl _ _, fun k m hm h => ⟨m, hm, by simpa using h⟩⟩
  | cons a l ih =>
    intro s
    have h1 : Same [.out, .sward, .cas] s (renewed s a) := Same.seq (State.casSend_law _ _ _ _ _ _).same (memEdit_same _ _ _) (by decide) (by decide)
    refine ⟨Same.seq h1 (ih _).1 (by decide) (by decide), fun k m hm h => ?_⟩
    have hn : (renewed s a).now = s.now := h1 .now (by decide)
    have hk : (s.casSend (portOf a) 0 0x11 16 [2]).cas.members.look k = some m := by rw [casSend_members]; exact hm
    have := (ih (renewed s a)).2 k
    rw [hn] at this
    by_cases e : k = a
    · subst e
      refine this { m with waitRenew := true, lastRenew := s.now } ?_ (.inr ⟨rfl, rfl⟩)
      exact Tbl.look_edit _ hk
    · refine this m ((Tbl.look_edit_ne _ _ e).trans hk) ?_
      rcases h with h | h
      · exact .inl ((List.mem_cons.mp h).resolve_left e)
      · exact .inr h

/-- The state after a wake and before its renews (R370). -/
def woken (s : State) (src : WakeSrc) (ns : Nat) : State := { s with
      now := s.now + ns
      pwr := { s.pwr with st := 0, lowreg := false, wakeCause := BitVec.ofNat 8 (2 ^ wakeBit src), aoPeak := s.freeVal % 256 }
      free := s.free + 1
      drc := { s.drc with srState := 0, srMaxWait := max s.drc.srMaxWait (s.freeVal / 256 % 2501) }, mon := { s.mon with stopFrame := false }
      mtr := { s.mtr with time := if s.mtr.run then s.mtr.time + ns else s.mtr.time } }

/-- A sag in Stop wakes the chip first (R379). -/
theorem wakeForSag_spec (s : State) : (s.wakeForSag).brm = s.brm ∧ (s.pwr.st = 2 → (s.wakeForSag).pwr.st = 0 ∧ (s.wakeForSag).pwr.wakeCause = 4) ∧ (s.pwr.st ≠ 2 → s.wakeForSag = s) := by
  unfold State.wakeForSag
  refine ⟨by split <;> rfl, fun h => by rw [if_pos h]; exact ⟨rfl, rfl⟩, fun h => by rw [if_neg h]⟩

theorem saveNow_pwr (s : State) (k) : (s.saveNow k).pwr = s.pwr := (State.saveNow_law _ _).same .pwr (by decide)

theorem saveNow_off (s : State) (k) (h : 3 ≤ s.brm.st) : s.saveNow k = s := by unfold State.saveNow; rw [if_pos h]

theorem getLsbD_set24 (p : BitVec 24) (g) (hg : g < 24) (h) (hh : h < 24) : (p ||| BitVec.ofNat 24 (2 ^ g)).getLsbD h = (p.getLsbD h || decide (h = g)) := by
  rw [BitVec.getLsbD_or, BitVec.getLsbD_ofNat]
  simp only [hh, decide_true, Bool.true_and, Nat.testBit_two_pow]
  congr 1
  exact decide_eq_decide.mpr ⟨fun e => e.symm, fun e => e.symm⟩

end Sys2Proof.Laws
end

