-- ==== Sys2Proof/Laws/Sectors.lean ====
section
/-! SUPPORT. Words, sectors and levels of the Bonnet array (R430 to R436). -/

-- One theorem after another: side by side they need more threads than the memory limit allows.
set_option Elab.async false

namespace Sys2Proof.Laws

open Sys2Proof Sys2Proof.Machine Sys2Proof.Safety

theorem look_without_sector (t : Tbl Word) (x a) : Tbl.look (t.filter fun p => secOf p.1 != x) a = if secOf a = x then none else t.look a := by
  have := Tbl.look_filter t (fun k => secOf k != x) a
  rw [show (t.filter fun p => secOf p.1 != x) = t.filter (fun p => (fun k => secOf k != x) p.1) from rfl, this]
  by_cases h : secOf a = x <;> simp [h]

theorem insNat_contains (x y : Nat) (l : List Nat) : (insNat x l).contains y = (decide (y = x) || l.contains y) := by
  induction l with
  | nil => simp [insNat]
  | cons b l ih =>
    unfold insNat
    split
    · rename_i h; subst h; simp
    · split
      · simp
      · rw [List.contains_cons, ih, List.contains_cons]
        cases decide (y = x) <;> cases (y == b) <;> simp

theorem eraseSec_wordAt (e : Efl) (x ep a) (h : secOf a = x) : (e.eraseSec x).wordAt ep a = BitVec.allOnes 64 := by
  unfold Efl.wordAt Efl.eraseSec
  dsimp only
  rw [look_without_sector, if_pos h]
  dsimp only
  rw [if_pos]; · rfl
  rw [h]
  cases hf : secFilled x
  · simp
  · rw [if_pos rfl, insNat_contains]; simp

theorem eraseSec_other (e : Efl) (x a) (h : secOf a ≠ x) : (e.eraseSec x).words.look a = e.words.look a ∧ (e.eraseSec x).erased.contains (secOf a) = e.erased.contains (secOf a) := by
  unfold Efl.eraseSec
  dsimp only
  rw [look_without_sector, if_neg h]
  refine ⟨rfl, ?_⟩
  split
  · rw [insNat_contains]; simp [h]
  · rfl

theorem efl_same (s : State) (e : Efl) : Same [.efl] s { s with efl := e } := by intro p hp; cases p <;> first | rfl | simp at hp

/-- A refused access of the sealed class is counted with RESULT 3 (R432). -/
theorem eflRefuse_spec (s : State) : s.eflRefuse.efl = { s.efl with viol := satAdd 0xffffffff s.efl.viol 1, result := 3 } ∧
    (satAdd 0xffffffff s.efl.viol 1 ≠ 8 → Same (Piece.event ++ [.efl]) s s.eflRefuse) := by
  unfold State.eflRefuse
  dsimp only
  have h : ((s.eflEdit fun e => { e with viol := satAdd 0xffffffff s.efl.viol 1, result := 3 }).fire 212 [satAdd 0xffffffff s.efl.viol 1]).efl = { s.efl with viol := satAdd 0xffffffff s.efl.viol 1, result := 3 } :=
    ((State.fire_law _ _ _ _ _ _).same .efl (by decide)).trans rfl
  constructor
  · split
    · rw [(State.alarm_law _ _ _).same .efl (by decide)]; exact h
    · exact h
  · intro hn; rw [if_neg hn]
    exact Same.seq (efl_same s { s.efl with viol := satAdd 0xffffffff s.efl.viol 1, result := 3 }) (State.fire_law _ _ _ _ _ _).same (by decide) (by decide)

/-- What keeps the outside from writing a sector (R432). -/
theorem writeBar_spec (e : Efl) : (secFactory e.sec = true → e.writeBar = some 4) ∧
    (secFactory e.sec = false → secControl e.sec = true ∨ secOem e.sec = true ∧ e.prot.getLsbD (e.sec / 32) = true → e.writeBar = some 2) ∧
    (secFactory e.sec = false → secControl e.sec = false → secOem e.sec = false ∨ e.prot.getLsbD (e.sec / 32) = false → e.writeBar = none) := by
  unfold Efl.writeBar
  refine ⟨fun h => by rw [if_pos h], fun h1 h2 => ?_, fun h1 h2 h3 => ?_⟩
  · rw [if_neg (by simp [h1])]
    split; · rfl
    rename_i h
    rw [if_pos]
    rcases h2 with h2 | ⟨h2, h3⟩
    · exact absurd h2 h
    · simp [h2, h3]
  · rw [if_neg (by simp [h1]), if_neg (by simp [h2]), if_neg]
    rcases h3 with h | h <;> simp [h]

/-- The level as the two words of sector 2048 give it (R435). -/
def levelOf (a b : Option Word) : Nat := if a.getD wordErased = wordErased then 0 else if b.getD wordErased = wordErased then 1 else 2

theorem level_eq (e : Efl) : e.level = levelOf (e.words.look (2048 * 256)) (e.words.look (2048 * 256 + 1)) := rfl

end Sys2Proof.Laws
end

