-- ==== Sys2Proof/Laws/State.lean ====
section
/-! SUPPORT. One lemma per field of State for each basic update, so that no proof unfolds one. -/

namespace Sys2Proof.Machine

open Sys2Proof

/-! ### say -/

@[simp] theorem State.say_pending (s : State) (o : Out) : (s.say o).pending = s.pending := rfl
@[simp] theorem State.say_now (s : State) (o : Out) : (s.say o).now = s.now := rfl
@[simp] theorem State.say_free (s : State) (o : Out) : (s.say o).free = s.free := rfl
@[simp] theorem State.say_out (s : State) (o : Out) : (s.say o).out = o :: s.out := rfl
@[simp] theorem State.say_img (s : State) (o : Out) : (s.say o).img = s.img := rfl
@[simp] theorem State.say_manifest (s : State) (o : Out) : (s.say o).manifest = s.manifest := rfl
@[simp] theorem State.say_pci (s : State) (o : Out) : (s.say o).pci = s.pci := rfl
@[simp] theorem State.say_nvme (s : State) (o : Out) : (s.say o).nvme = s.nvme := rfl
@[simp] theorem State.say_sqs (s : State) (o : Out) : (s.say o).sqs = s.sqs := rfl
@[simp] theorem State.say_cqs (s : State) (o : Out) : (s.say o).cqs = s.cqs := rfl
@[simp] theorem State.say_qrecs (s : State) (o : Out) : (s.say o).qrecs = s.qrecs := rfl
@[simp] theorem State.say_ctxs (s : State) (o : Out) : (s.say o).ctxs = s.ctxs := rfl
@[simp] theorem State.say_slices (s : State) (o : Out) : (s.say o).slices = s.slices := rfl
@[simp] theorem State.say_nss (s : State) (o : Out) : (s.say o).nss = s.nss := rfl
@[simp] theorem State.say_zones (s : State) (o : Out) : (s.say o).zones = s.zones := rfl
@[simp] theorem State.say_gate (s : State) (o : Out) : (s.say o).gate = s.gate := rfl
@[simp] theorem State.say_staging (s : State) (o : Out) : (s.say o).staging = s.staging := rfl
@[simp] theorem State.say_toks (s : State) (o : Out) : (s.say o).toks = s.toks := rfl
@[simp] theorem State.say_bpm (s : State) (o : Out) : (s.say o).bpm = s.bpm := rfl
@[simp] theorem State.say_dma (s : State) (o : Out) : (s.say o).dma = s.dma := rfl
@[simp] theorem State.say_sward (s : State) (o : Out) : (s.say o).sward = s.sward := rfl
@[simp] theorem State.say_blocks (s : State) (o : Out) : (s.say o).blocks = s.blocks := rfl
@[simp] theorem State.say_dies (s : State) (o : Out) : (s.say o).dies = s.dies := rfl
@[simp] theorem State.say_flash (s : State) (o : Out) : (s.say o).flash = s.flash := rfl
@[simp] theorem State.say_fch (s : State) (o : Out) : (s.say o).fch = s.fch := rfl
@[simp] theorem State.say_zne (s : State) (o : Out) : (s.say o).zne = s.zne := rfl
@[simp] theorem State.say_par (s : State) (o : Out) : (s.say o).par = s.par := rfl
@[simp] theorem State.say_lat (s : State) (o : Out) : (s.say o).lat = s.lat := rfl
@[simp] theorem State.say_drc (s : State) (o : Out) : (s.say o).drc = s.drc := rfl
@[simp] theorem State.say_ecc (s : State) (o : Out) : (s.say o).ecc = s.ecc := rfl
@[simp] theorem State.say_key (s : State) (o : Out) : (s.say o).key = s.key := rfl
@[simp] theorem State.say_cas (s : State) (o : Out) : (s.say o).cas = s.cas := rfl
@[simp] theorem State.say_mtr (s : State) (o : Out) : (s.say o).mtr = s.mtr := rfl
@[simp] theorem State.say_pwr (s : State) (o : Out) : (s.say o).pwr = s.pwr := rfl
@[simp] theorem State.say_brm (s : State) (o : Out) : (s.say o).brm = s.brm := rfl
@[simp] theorem State.say_thm (s : State) (o : Out) : (s.say o).thm = s.thm := rfl
@[simp] theorem State.say_mon (s : State) (o : Out) : (s.say o).mon = s.mon := rfl
@[simp] theorem State.say_upd (s : State) (o : Out) : (s.say o).upd = s.upd := rfl
@[simp] theorem State.say_nv (s : State) (o : Out) : (s.say o).nv = s.nv := rfl
@[simp] theorem State.say_efl (s : State) (o : Out) : (s.say o).efl = s.efl := rfl
@[simp] theorem State.say_evt (s : State) (o : Out) : (s.say o).evt = s.evt := rfl
@[simp] theorem State.say_log (s : State) (o : Out) : (s.say o).log = s.log := rfl
@[simp] theorem State.say_side (s : State) (o : Out) : (s.say o).side = s.side := rfl

/-! ### freeStep -/

@[simp] theorem State.freeStep_pending (s : State) : (s.freeStep).pending = s.pending := rfl
@[simp] theorem State.freeStep_now (s : State) : (s.freeStep).now = s.now := rfl
@[simp] theorem State.freeStep_free (s : State) : (s.freeStep).free = s.free + 1 := rfl
@[simp] theorem State.freeStep_out (s : State) : (s.freeStep).out = s.out := rfl
@[simp] theorem State.freeStep_img (s : State) : (s.freeStep).img = s.img := rfl
@[simp] theorem State.freeStep_manifest (s : State) : (s.freeStep).manifest = s.manifest := rfl
@[simp] theorem State.freeStep_pci (s : State) : (s.freeStep).pci = s.pci := rfl
@[simp] theorem State.freeStep_nvme (s : State) : (s.freeStep).nvme = s.nvme := rfl
@[simp] theorem State.freeStep_sqs (s : State) : (s.freeStep).sqs = s.sqs := rfl
@[simp] theorem State.freeStep_cqs (s : State) : (s.freeStep).cqs = s.cqs := rfl
@[simp] theorem State.freeStep_qrecs (s : State) : (s.freeStep).qrecs = s.qrecs := rfl
@[simp] theorem State.freeStep_ctxs (s : State) : (s.freeStep).ctxs = s.ctxs := rfl
@[simp] theorem State.freeStep_slices (s : State) : (s.freeStep).slices = s.slices := rfl
@[simp] theorem State.freeStep_nss (s : State) : (s.freeStep).nss = s.nss := rfl
@[simp] theorem State.freeStep_zones (s : State) : (s.freeStep).zones = s.zones := rfl
@[simp] theorem State.freeStep_gate (s : State) : (s.freeStep).gate = s.gate := rfl
@[simp] theorem State.freeStep_staging (s : State) : (s.freeStep).staging = s.staging := rfl
@[simp] theorem State.freeStep_toks (s : State) : (s.freeStep).toks = s.toks := rfl
@[simp] theorem State.freeStep_bpm (s : State) : (s.freeStep).bpm = s.bpm := rfl
@[simp] theorem State.freeStep_dma (s : State) : (s.freeStep).dma = s.dma := rfl
@[simp] theorem State.freeStep_sward (s : State) : (s.freeStep).sward = s.sward := rfl
@[simp] theorem State.freeStep_blocks (s : State) : (s.freeStep).blocks = s.blocks := rfl
@[simp] theorem State.freeStep_dies (s : State) : (s.freeStep).dies = s.dies := rfl
@[simp] theorem State.freeStep_flash (s : State) : (s.freeStep).flash = s.flash := rfl
@[simp] theorem State.freeStep_fch (s : State) : (s.freeStep).fch = s.fch := rfl
@[simp] theorem State.freeStep_zne (s : State) : (s.freeStep).zne = s.zne := rfl
@[simp] theorem State.freeStep_par (s : State) : (s.freeStep).par = s.par := rfl
@[simp] theorem State.freeStep_lat (s : State) : (s.freeStep).lat = s.lat := rfl
@[simp] theorem State.freeStep_drc (s : State) : (s.freeStep).drc = s.drc := rfl
@[simp] theorem State.freeStep_ecc (s : State) : (s.freeStep).ecc = s.ecc := rfl
@[simp] theorem State.freeStep_key (s : State) : (s.freeStep).key = s.key := rfl
@[simp] theorem State.freeStep_cas (s : State) : (s.freeStep).cas = s.cas := rfl
@[simp] theorem State.freeStep_mtr (s : State) : (s.freeStep).mtr = s.mtr := rfl
@[simp] theorem State.freeStep_pwr (s : State) : (s.freeStep).pwr = s.pwr := rfl
@[simp] theorem State.freeStep_brm (s : State) : (s.freeStep).brm = s.brm := rfl
@[simp] theorem State.freeStep_thm (s : State) : (s.freeStep).thm = s.thm := rfl
@[simp] theorem State.freeStep_mon (s : State) : (s.freeStep).mon = s.mon := rfl
@[simp] theorem State.freeStep_upd (s : State) : (s.freeStep).upd = s.upd := rfl
@[simp] theorem State.freeStep_nv (s : State) : (s.freeStep).nv = s.nv := rfl
@[simp] theorem State.freeStep_efl (s : State) : (s.freeStep).efl = s.efl := rfl
@[simp] theorem State.freeStep_evt (s : State) : (s.freeStep).evt = s.evt := rfl
@[simp] theorem State.freeStep_log (s : State) : (s.freeStep).log = s.log := rfl
@[simp] theorem State.freeStep_side (s : State) : (s.freeStep).side = s.side := rfl

/-! ### sliceEdit -/

@[simp] theorem State.sliceEdit_pending (s : State) (i : Nat) (f : Slice → Slice) : (s.sliceEdit i f).pending = s.pending := rfl
@[simp] theorem State.sliceEdit_now (s : State) (i : Nat) (f : Slice → Slice) : (s.sliceEdit i f).now = s.now := rfl
@[simp] theorem State.sliceEdit_free (s : State) (i : Nat) (f : Slice → Slice) : (s.sliceEdit i f).free = s.free := rfl
@[simp] theorem State.sliceEdit_out (s : State) (i : Nat) (f : Slice → Slice) : (s.sliceEdit i f).out = s.out := rfl
@[simp] theorem State.sliceEdit_img (s : State) (i : Nat) (f : Slice → Slice) : (s.sliceEdit i f).img = s.img := rfl
@[simp] theorem State.sliceEdit_manifest (s : State) (i : Nat) (f : Slice → Slice) : (s.sliceEdit i f).manifest = s.manifest := rfl
@[simp] theorem State.sliceEdit_pci (s : State) (i : Nat) (f : Slice → Slice) : (s.sliceEdit i f).pci = s.pci := rfl
@[simp] theorem State.sliceEdit_nvme (s : State) (i : Nat) (f : Slice → Slice) : (s.sliceEdit i f).nvme = s.nvme := rfl
@[simp] theorem State.sliceEdit_sqs (s : State) (i : Nat) (f : Slice → Slice) : (s.sliceEdit i f).sqs = s.sqs := rfl
@[simp] theorem State.sliceEdit_cqs (s : State) (i : Nat) (f : Slice → Slice) : (s.sliceEdit i f).cqs = s.cqs := rfl
@[simp] theorem State.sliceEdit_qrecs (s : State) (i : Nat) (f : Slice → Slice) : (s.sliceEdit i f).qrecs = s.qrecs := rfl
@[simp] theorem State.sliceEdit_ctxs (s : State) (i : Nat) (f : Slice → Slice) : (s.sliceEdit i f).ctxs = s.ctxs := rfl
@[simp] theorem State.sliceEdit_slices (s : State) (i : Nat) (f : Slice → Slice) : (s.sliceEdit i f).slices = s.slices.upd i {} f := rfl
@[simp] theorem State.sliceEdit_nss (s : State) (i : Nat) (f : Slice → Slice) : (s.sliceEdit i f).nss = s.nss := rfl
@[simp] theorem State.sliceEdit_zones (s : State) (i : Nat) (f : Slice → Slice) : (s.sliceEdit i f).zones = s.zones := rfl
@[simp] theorem State.sliceEdit_gate (s : State) (i : Nat) (f : Slice → Slice) : (s.sliceEdit i f).gate = s.gate := rfl
@[simp] theorem State.sliceEdit_staging (s : State) (i : Nat) (f : Slice → Slice) : (s.sliceEdit i f).staging = s.staging := rfl
@[simp] theorem State.sliceEdit_toks (s : State) (i : Nat) (f : Slice → Slice) : (s.sliceEdit i f).toks = s.toks := rfl
@[simp] theorem State.sliceEdit_bpm (s : State) (i : Nat) (f : Slice → Slice) : (s.sliceEdit i f).bpm = s.bpm := rfl
@[simp] theorem State.sliceEdit_dma (s : State) (i : Nat) (f : Slice → Slice) : (s.sliceEdit i f).dma = s.dma := rfl
@[simp] theorem State.sliceEdit_sward (s : State) (i : Nat) (f : Slice → Slice) : (s.sliceEdit i f).sward = s.sward := rfl
@[simp] theorem State.sliceEdit_blocks (s : State) (i : Nat) (f : Slice → Slice) : (s.sliceEdit i f).blocks = s.blocks := rfl
@[simp] theorem State.sliceEdit_dies (s : State) (i : Nat) (f : Slice → Slice) : (s.sliceEdit i f).dies = s.dies := rfl
@[simp] theorem State.sliceEdit_flash (s : State) (i : Nat) (f : Slice → Slice) : (s.sliceEdit i f).flash = s.flash := rfl
@[simp] theorem State.sliceEdit_fch (s : State) (i : Nat) (f : Slice → Slice) : (s.sliceEdit i f).fch = s.fch := rfl
@[simp] theorem State.sliceEdit_zne (s : State) (i : Nat) (f : Slice → Slice) : (s.sliceEdit i f).zne = s.zne := rfl
@[simp] theorem State.sliceEdit_par (s : State) (i : Nat) (f : Slice → Slice) : (s.sliceEdit i f).par = s.par := rfl
@[simp] theorem State.sliceEdit_lat (s : State) (i : Nat) (f : Slice → Slice) : (s.sliceEdit i f).lat = s.lat := rfl
@[simp] theorem State.sliceEdit_drc (s : State) (i : Nat) (f : Slice → Slice) : (s.sliceEdit i f).drc = s.drc := rfl
@[simp] theorem State.sliceEdit_ecc (s : State) (i : Nat) (f : Slice → Slice) : (s.sliceEdit i f).ecc = s.ecc := rfl
@[simp] theorem State.sliceEdit_key (s : State) (i : Nat) (f : Slice → Slice) : (s.sliceEdit i f).key = s.key := rfl
@[simp] theorem State.sliceEdit_cas (s : State) (i : Nat) (f : Slice → Slice) : (s.sliceEdit i f).cas = s.cas := rfl
@[simp] theorem State.sliceEdit_mtr (s : State) (i : Nat) (f : Slice → Slice) : (s.sliceEdit i f).mtr = s.mtr := rfl
@[simp] theorem State.sliceEdit_pwr (s : State) (i : Nat) (f : Slice → Slice) : (s.sliceEdit i f).pwr = s.pwr := rfl
@[simp] theorem State.sliceEdit_brm (s : State) (i : Nat) (f : Slice → Slice) : (s.sliceEdit i f).brm = s.brm := rfl
@[simp] theorem State.sliceEdit_thm (s : State) (i : Nat) (f : Slice → Slice) : (s.sliceEdit i f).thm = s.thm := rfl
@[simp] theorem State.sliceEdit_mon (s : State) (i : Nat) (f : Slice → Slice) : (s.sliceEdit i f).mon = s.mon := rfl
@[simp] theorem State.sliceEdit_upd (s : State) (i : Nat) (f : Slice → Slice) : (s.sliceEdit i f).upd = s.upd := rfl
@[simp] theorem State.sliceEdit_nv (s : State) (i : Nat) (f : Slice → Slice) : (s.sliceEdit i f).nv = s.nv := rfl
@[simp] theorem State.sliceEdit_efl (s : State) (i : Nat) (f : Slice → Slice) : (s.sliceEdit i f).efl = s.efl := rfl
@[simp] theorem State.sliceEdit_evt (s : State) (i : Nat) (f : Slice → Slice) : (s.sliceEdit i f).evt = s.evt := rfl
@[simp] theorem State.sliceEdit_log (s : State) (i : Nat) (f : Slice → Slice) : (s.sliceEdit i f).log = s.log := rfl
@[simp] theorem State.sliceEdit_side (s : State) (i : Nat) (f : Slice → Slice) : (s.sliceEdit i f).side = s.side := rfl

/-! ### zoneEdit -/

@[simp] theorem State.zoneEdit_pending (s : State) (k : Nat) (f : Zone → Zone) : (s.zoneEdit k f).pending = s.pending := rfl
@[simp] theorem State.zoneEdit_now (s : State) (k : Nat) (f : Zone → Zone) : (s.zoneEdit k f).now = s.now := rfl
@[simp] theorem State.zoneEdit_free (s : State) (k : Nat) (f : Zone → Zone) : (s.zoneEdit k f).free = s.free := rfl
@[simp] theorem State.zoneEdit_out (s : State) (k : Nat) (f : Zone → Zone) : (s.zoneEdit k f).out = s.out := rfl
@[simp] theorem State.zoneEdit_img (s : State) (k : Nat) (f : Zone → Zone) : (s.zoneEdit k f).img = s.img := rfl
@[simp] theorem State.zoneEdit_manifest (s : State) (k : Nat) (f : Zone → Zone) : (s.zoneEdit k f).manifest = s.manifest := rfl
@[simp] theorem State.zoneEdit_pci (s : State) (k : Nat) (f : Zone → Zone) : (s.zoneEdit k f).pci = s.pci := rfl
@[simp] theorem State.zoneEdit_nvme (s : State) (k : Nat) (f : Zone → Zone) : (s.zoneEdit k f).nvme = s.nvme := rfl
@[simp] theorem State.zoneEdit_sqs (s : State) (k : Nat) (f : Zone → Zone) : (s.zoneEdit k f).sqs = s.sqs := rfl
@[simp] theorem State.zoneEdit_cqs (s : State) (k : Nat) (f : Zone → Zone) : (s.zoneEdit k f).cqs = s.cqs := rfl
@[simp] theorem State.zoneEdit_qrecs (s : State) (k : Nat) (f : Zone → Zone) : (s.zoneEdit k f).qrecs = s.qrecs := rfl
@[simp] theorem State.zoneEdit_ctxs (s : State) (k : Nat) (f : Zone → Zone) : (s.zoneEdit k f).ctxs = s.ctxs := rfl
@[simp] theorem State.zoneEdit_slices (s : State) (k : Nat) (f : Zone → Zone) : (s.zoneEdit k f).slices = s.slices := rfl
@[simp] theorem State.zoneEdit_nss (s : State) (k : Nat) (f : Zone → Zone) : (s.zoneEdit k f).nss = s.nss := rfl
@[simp] theorem State.zoneEdit_zones (s : State) (k : Nat) (f : Zone → Zone) : (s.zoneEdit k f).zones = s.zones.edit k f := rfl
@[simp] theorem State.zoneEdit_gate (s : State) (k : Nat) (f : Zone → Zone) : (s.zoneEdit k f).gate = s.gate := rfl
@[simp] theorem State.zoneEdit_staging (s : State) (k : Nat) (f : Zone → Zone) : (s.zoneEdit k f).staging = s.staging := rfl
@[simp] theorem State.zoneEdit_toks (s : State) (k : Nat) (f : Zone → Zone) : (s.zoneEdit k f).toks = s.toks := rfl
@[simp] theorem State.zoneEdit_bpm (s : State) (k : Nat) (f : Zone → Zone) : (s.zoneEdit k f).bpm = s.bpm := rfl
@[simp] theorem State.zoneEdit_dma (s : State) (k : Nat) (f : Zone → Zone) : (s.zoneEdit k f).dma = s.dma := rfl
@[simp] theorem State.zoneEdit_sward (s : State) (k : Nat) (f : Zone → Zone) : (s.zoneEdit k f).sward = s.sward := rfl
@[simp] theorem State.zoneEdit_blocks (s : State) (k : Nat) (f : Zone → Zone) : (s.zoneEdit k f).blocks = s.blocks := rfl
@[simp] theorem State.zoneEdit_dies (s : State) (k : Nat) (f : Zone → Zone) : (s.zoneEdit k f).dies = s.dies := rfl
@[simp] theorem State.zoneEdit_flash (s : State) (k : Nat) (f : Zone → Zone) : (s.zoneEdit k f).flash = s.flash := rfl
@[simp] theorem State.zoneEdit_fch (s : State) (k : Nat) (f : Zone → Zone) : (s.zoneEdit k f).fch = s.fch := rfl
@[simp] theorem State.zoneEdit_zne (s : State) (k : Nat) (f : Zone → Zone) : (s.zoneEdit k f).zne = s.zne := rfl
@[simp] theorem State.zoneEdit_par (s : State) (k : Nat) (f : Zone → Zone) : (s.zoneEdit k f).par = s.par := rfl
@[simp] theorem State.zoneEdit_lat (s : State) (k : Nat) (f : Zone → Zone) : (s.zoneEdit k f).lat = s.lat := rfl
@[simp] theorem State.zoneEdit_drc (s : State) (k : Nat) (f : Zone → Zone) : (s.zoneEdit k f).drc = s.drc := rfl
@[simp] theorem State.zoneEdit_ecc (s : State) (k : Nat) (f : Zone → Zone) : (s.zoneEdit k f).ecc = s.ecc := rfl
@[simp] theorem State.zoneEdit_key (s : State) (k : Nat) (f : Zone → Zone) : (s.zoneEdit k f).key = s.key := rfl
@[simp] theorem State.zoneEdit_cas (s : State) (k : Nat) (f : Zone → Zone) : (s.zoneEdit k f).cas = s.cas := rfl
@[simp] theorem State.zoneEdit_mtr (s : State) (k : Nat) (f : Zone → Zone) : (s.zoneEdit k f).mtr = s.mtr := rfl
@[simp] theorem State.zoneEdit_pwr (s : State) (k : Nat) (f : Zone → Zone) : (s.zoneEdit k f).pwr = s.pwr := rfl
@[simp] theorem State.zoneEdit_brm (s : State) (k : Nat) (f : Zone → Zone) : (s.zoneEdit k f).brm = s.brm := rfl
@[simp] theorem State.zoneEdit_thm (s : State) (k : Nat) (f : Zone → Zone) : (s.zoneEdit k f).thm = s.thm := rfl
@[simp] theorem State.zoneEdit_mon (s : State) (k : Nat) (f : Zone → Zone) : (s.zoneEdit k f).mon = s.mon := rfl
@[simp] theorem State.zoneEdit_upd (s : State) (k : Nat) (f : Zone → Zone) : (s.zoneEdit k f).upd = s.upd := rfl
@[simp] theorem State.zoneEdit_nv (s : State) (k : Nat) (f : Zone → Zone) : (s.zoneEdit k f).nv = s.nv := rfl
@[simp] theorem State.zoneEdit_efl (s : State) (k : Nat) (f : Zone → Zone) : (s.zoneEdit k f).efl = s.efl := rfl
@[simp] theorem State.zoneEdit_evt (s : State) (k : Nat) (f : Zone → Zone) : (s.zoneEdit k f).evt = s.evt := rfl
@[simp] theorem State.zoneEdit_log (s : State) (k : Nat) (f : Zone → Zone) : (s.zoneEdit k f).log = s.log := rfl
@[simp] theorem State.zoneEdit_side (s : State) (k : Nat) (f : Zone → Zone) : (s.zoneEdit k f).side = s.side := rfl

/-! ### ctxEdit -/

@[simp] theorem State.ctxEdit_pending (s : State) (c : Nat) (f : Ctx → Ctx) : (s.ctxEdit c f).pending = s.pending := rfl
@[simp] theorem State.ctxEdit_now (s : State) (c : Nat) (f : Ctx → Ctx) : (s.ctxEdit c f).now = s.now := rfl
@[simp] theorem State.ctxEdit_free (s : State) (c : Nat) (f : Ctx → Ctx) : (s.ctxEdit c f).free = s.free := rfl
@[simp] theorem State.ctxEdit_out (s : State) (c : Nat) (f : Ctx → Ctx) : (s.ctxEdit c f).out = s.out := rfl
@[simp] theorem State.ctxEdit_img (s : State) (c : Nat) (f : Ctx → Ctx) : (s.ctxEdit c f).img = s.img := rfl
@[simp] theorem State.ctxEdit_manifest (s : State) (c : Nat) (f : Ctx → Ctx) : (s.ctxEdit c f).manifest = s.manifest := rfl
@[simp] theorem State.ctxEdit_pci (s : State) (c : Nat) (f : Ctx → Ctx) : (s.ctxEdit c f).pci = s.pci := rfl
@[simp] theorem State.ctxEdit_nvme (s : State) (c : Nat) (f : Ctx → Ctx) : (s.ctxEdit c f).nvme = s.nvme := rfl
@[simp] theorem State.ctxEdit_sqs (s : State) (c : Nat) (f : Ctx → Ctx) : (s.ctxEdit c f).sqs = s.sqs := rfl
@[simp] theorem State.ctxEdit_cqs (s : State) (c : Nat) (f : Ctx → Ctx) : (s.ctxEdit c f).cqs = s.cqs := rfl
@[simp] theorem State.ctxEdit_qrecs (s : State) (c : Nat) (f : Ctx → Ctx) : (s.ctxEdit c f).qrecs = s.qrecs := rfl
@[simp] theorem State.ctxEdit_ctxs (s : State) (c : Nat) (f : Ctx → Ctx) : (s.ctxEdit c f).ctxs = s.ctxs.edit c f := rfl
@[simp] theorem State.ctxEdit_slices (s : State) (c : Nat) (f : Ctx → Ctx) : (s.ctxEdit c f).slices = s.slices := rfl
@[simp] theorem State.ctxEdit_nss (s : State) (c : Nat) (f : Ctx → Ctx) : (s.ctxEdit c f).nss = s.nss := rfl
@[simp] theorem State.ctxEdit_zones (s : State) (c : Nat) (f : Ctx → Ctx) : (s.ctxEdit c f).zones = s.zones := rfl
@[simp] theorem State.ctxEdit_gate (s : State) (c : Nat) (f : Ctx → Ctx) : (s.ctxEdit c f).gate = s.gate := rfl
@[simp] theorem State.ctxEdit_staging (s : State) (c : Nat) (f : Ctx → Ctx) : (s.ctxEdit c f).staging = s.staging := rfl
@[simp] theorem State.ctxEdit_toks (s : State) (c : Nat) (f : Ctx → Ctx) : (s.ctxEdit c f).toks = s.toks := rfl
@[simp] theorem State.ctxEdit_bpm (s : State) (c : Nat) (f : Ctx → Ctx) : (s.ctxEdit c f).bpm = s.bpm := rfl
@[simp] theorem State.ctxEdit_dma (s : State) (c : Nat) (f : Ctx → Ctx) : (s.ctxEdit c f).dma = s.dma := rfl
@[simp] theorem State.ctxEdit_sward (s : State) (c : Nat) (f : Ctx → Ctx) : (s.ctxEdit c f).sward = s.sward := rfl
@[simp] theorem State.ctxEdit_blocks (s : State) (c : Nat) (f : Ctx → Ctx) : (s.ctxEdit c f).blocks = s.blocks := rfl
@[simp] theorem State.ctxEdit_dies (s : State) (c : Nat) (f : Ctx → Ctx) : (s.ctxEdit c f).dies = s.dies := rfl
@[simp] theorem State.ctxEdit_flash (s : State) (c : Nat) (f : Ctx → Ctx) : (s.ctxEdit c f).flash = s.flash := rfl
@[simp] theorem State.ctxEdit_fch (s : State) (c : Nat) (f : Ctx → Ctx) : (s.ctxEdit c f).fch = s.fch := rfl
@[simp] theorem State.ctxEdit_zne (s : State) (c : Nat) (f : Ctx → Ctx) : (s.ctxEdit c f).zne = s.zne := rfl
@[simp] theorem State.ctxEdit_par (s : State) (c : Nat) (f : Ctx → Ctx) : (s.ctxEdit c f).par = s.par := rfl
@[simp] theorem State.ctxEdit_lat (s : State) (c : Nat) (f : Ctx → Ctx) : (s.ctxEdit c f).lat = s.lat := rfl
@[simp] theorem State.ctxEdit_drc (s : State) (c : Nat) (f : Ctx → Ctx) : (s.ctxEdit c f).drc = s.drc := rfl
@[simp] theorem State.ctxEdit_ecc (s : State) (c : Nat) (f : Ctx → Ctx) : (s.ctxEdit c f).ecc = s.ecc := rfl
@[simp] theorem State.ctxEdit_key (s : State) (c : Nat) (f : Ctx → Ctx) : (s.ctxEdit c f).key = s.key := rfl
@[simp] theorem State.ctxEdit_cas (s : State) (c : Nat) (f : Ctx → Ctx) : (s.ctxEdit c f).cas = s.cas := rfl
@[simp] theorem State.ctxEdit_mtr (s : State) (c : Nat) (f : Ctx → Ctx) : (s.ctxEdit c f).mtr = s.mtr := rfl
@[simp] theorem State.ctxEdit_pwr (s : State) (c : Nat) (f : Ctx → Ctx) : (s.ctxEdit c f).pwr = s.pwr := rfl
@[simp] theorem State.ctxEdit_brm (s : State) (c : Nat) (f : Ctx → Ctx) : (s.ctxEdit c f).brm = s.brm := rfl
@[simp] theorem State.ctxEdit_thm (s : State) (c : Nat) (f : Ctx → Ctx) : (s.ctxEdit c f).thm = s.thm := rfl
@[simp] theorem State.ctxEdit_mon (s : State) (c : Nat) (f : Ctx → Ctx) : (s.ctxEdit c f).mon = s.mon := rfl
@[simp] theorem State.ctxEdit_upd (s : State) (c : Nat) (f : Ctx → Ctx) : (s.ctxEdit c f).upd = s.upd := rfl
@[simp] theorem State.ctxEdit_nv (s : State) (c : Nat) (f : Ctx → Ctx) : (s.ctxEdit c f).nv = s.nv := rfl
@[simp] theorem State.ctxEdit_efl (s : State) (c : Nat) (f : Ctx → Ctx) : (s.ctxEdit c f).efl = s.efl := rfl
@[simp] theorem State.ctxEdit_evt (s : State) (c : Nat) (f : Ctx → Ctx) : (s.ctxEdit c f).evt = s.evt := rfl
@[simp] theorem State.ctxEdit_log (s : State) (c : Nat) (f : Ctx → Ctx) : (s.ctxEdit c f).log = s.log := rfl
@[simp] theorem State.ctxEdit_side (s : State) (c : Nat) (f : Ctx → Ctx) : (s.ctxEdit c f).side = s.side := rfl

/-! ### runitEdit -/

@[simp] theorem State.runitEdit_pending (s : State) (c u : Nat) (f : RUnit → RUnit) : (s.runitEdit c u f).pending = s.pending := rfl
@[simp] theorem State.runitEdit_now (s : State) (c u : Nat) (f : RUnit → RUnit) : (s.runitEdit c u f).now = s.now := rfl
@[simp] theorem State.runitEdit_free (s : State) (c u : Nat) (f : RUnit → RUnit) : (s.runitEdit c u f).free = s.free := rfl
@[simp] theorem State.runitEdit_out (s : State) (c u : Nat) (f : RUnit → RUnit) : (s.runitEdit c u f).out = s.out := rfl
@[simp] theorem State.runitEdit_img (s : State) (c u : Nat) (f : RUnit → RUnit) : (s.runitEdit c u f).img = s.img := rfl
@[simp] theorem State.runitEdit_manifest (s : State) (c u : Nat) (f : RUnit → RUnit) : (s.runitEdit c u f).manifest = s.manifest := rfl
@[simp] theorem State.runitEdit_pci (s : State) (c u : Nat) (f : RUnit → RUnit) : (s.runitEdit c u f).pci = s.pci := rfl
@[simp] theorem State.runitEdit_nvme (s : State) (c u : Nat) (f : RUnit → RUnit) : (s.runitEdit c u f).nvme = s.nvme := rfl
@[simp] theorem State.runitEdit_sqs (s : State) (c u : Nat) (f : RUnit → RUnit) : (s.runitEdit c u f).sqs = s.sqs := rfl
@[simp] theorem State.runitEdit_cqs (s : State) (c u : Nat) (f : RUnit → RUnit) : (s.runitEdit c u f).cqs = s.cqs := rfl
@[simp] theorem State.runitEdit_qrecs (s : State) (c u : Nat) (f : RUnit → RUnit) : (s.runitEdit c u f).qrecs = s.qrecs := rfl
@[simp] theorem State.runitEdit_ctxs (s : State) (c u : Nat) (f : RUnit → RUnit) : (s.runitEdit c u f).ctxs = s.ctxs.edit c fun x => { x with runits := x.runits.edit u f } := rfl
@[simp] theorem State.runitEdit_slices (s : State) (c u : Nat) (f : RUnit → RUnit) : (s.runitEdit c u f).slices = s.slices := rfl
@[simp] theorem State.runitEdit_nss (s : State) (c u : Nat) (f : RUnit → RUnit) : (s.runitEdit c u f).nss = s.nss := rfl
@[simp] theorem State.runitEdit_zones (s : State) (c u : Nat) (f : RUnit → RUnit) : (s.runitEdit c u f).zones = s.zones := rfl
@[simp] theorem State.runitEdit_gate (s : State) (c u : Nat) (f : RUnit → RUnit) : (s.runitEdit c u f).gate = s.gate := rfl
@[simp] theorem State.runitEdit_staging (s : State) (c u : Nat) (f : RUnit → RUnit) : (s.runitEdit c u f).staging = s.staging := rfl
@[simp] theorem State.runitEdit_toks (s : State) (c u : Nat) (f : RUnit → RUnit) : (s.runitEdit c u f).toks = s.toks := rfl
@[simp] theorem State.runitEdit_bpm (s : State) (c u : Nat) (f : RUnit → RUnit) : (s.runitEdit c u f).bpm = s.bpm := rfl
@[simp] theorem State.runitEdit_dma (s : State) (c u : Nat) (f : RUnit → RUnit) : (s.runitEdit c u f).dma = s.dma := rfl
@[simp] theorem State.runitEdit_sward (s : State) (c u : Nat) (f : RUnit → RUnit) : (s.runitEdit c u f).sward = s.sward := rfl
@[simp] theorem State.runitEdit_blocks (s : State) (c u : Nat) (f : RUnit → RUnit) : (s.runitEdit c u f).blocks = s.blocks := rfl
@[simp] theorem State.runitEdit_dies (s : State) (c u : Nat) (f : RUnit → RUnit) : (s.runitEdit c u f).dies = s.dies := rfl
@[simp] theorem State.runitEdit_flash (s : State) (c u : Nat) (f : RUnit → RUnit) : (s.runitEdit c u f).flash = s.flash := rfl
@[simp] theorem State.runitEdit_fch (s : State) (c u : Nat) (f : RUnit → RUnit) : (s.runitEdit c u f).fch = s.fch := rfl
@[simp] theorem State.runitEdit_zne (s : State) (c u : Nat) (f : RUnit → RUnit) : (s.runitEdit c u f).zne = s.zne := rfl
@[simp] theorem State.runitEdit_par (s : State) (c u : Nat) (f : RUnit → RUnit) : (s.runitEdit c u f).par = s.par := rfl
@[simp] theorem State.runitEdit_lat (s : State) (c u : Nat) (f : RUnit → RUnit) : (s.runitEdit c u f).lat = s.lat := rfl
@[simp] theorem State.runitEdit_drc (s : State) (c u : Nat) (f : RUnit → RUnit) : (s.runitEdit c u f).drc = s.drc := rfl
@[simp] theorem State.runitEdit_ecc (s : State) (c u : Nat) (f : RUnit → RUnit) : (s.runitEdit c u f).ecc = s.ecc := rfl
@[simp] theorem State.runitEdit_key (s : State) (c u : Nat) (f : RUnit → RUnit) : (s.runitEdit c u f).key = s.key := rfl
@[simp] theorem State.runitEdit_cas (s : State) (c u : Nat) (f : RUnit → RUnit) : (s.runitEdit c u f).cas = s.cas := rfl
@[simp] theorem State.runitEdit_mtr (s : State) (c u : Nat) (f : RUnit → RUnit) : (s.runitEdit c u f).mtr = s.mtr := rfl
@[simp] theorem State.runitEdit_pwr (s : State) (c u : Nat) (f : RUnit → RUnit) : (s.runitEdit c u f).pwr = s.pwr := rfl
@[simp] theorem State.runitEdit_brm (s : State) (c u : Nat) (f : RUnit → RUnit) : (s.runitEdit c u f).brm = s.brm := rfl
@[simp] theorem State.runitEdit_thm (s : State) (c u : Nat) (f : RUnit → RUnit) : (s.runitEdit c u f).thm = s.thm := rfl
@[simp] theorem State.runitEdit_mon (s : State) (c u : Nat) (f : RUnit → RUnit) : (s.runitEdit c u f).mon = s.mon := rfl
@[simp] theorem State.runitEdit_upd (s : State) (c u : Nat) (f : RUnit → RUnit) : (s.runitEdit c u f).upd = s.upd := rfl
@[simp] theorem State.runitEdit_nv (s : State) (c u : Nat) (f : RUnit → RUnit) : (s.runitEdit c u f).nv = s.nv := rfl
@[simp] theorem State.runitEdit_efl (s : State) (c u : Nat) (f : RUnit → RUnit) : (s.runitEdit c u f).efl = s.efl := rfl
@[simp] theorem State.runitEdit_evt (s : State) (c u : Nat) (f : RUnit → RUnit) : (s.runitEdit c u f).evt = s.evt := rfl
@[simp] theorem State.runitEdit_log (s : State) (c u : Nat) (f : RUnit → RUnit) : (s.runitEdit c u f).log = s.log := rfl
@[simp] theorem State.runitEdit_side (s : State) (c u : Nat) (f : RUnit → RUnit) : (s.runitEdit c u f).side = s.side := rfl

/-! ### keyEdit -/

@[simp] theorem State.keyEdit_pending (s : State) (o : Nat) (f : KeyOwner → KeyOwner) : (s.keyEdit o f).pending = s.pending := rfl
@[simp] theorem State.keyEdit_now (s : State) (o : Nat) (f : KeyOwner → KeyOwner) : (s.keyEdit o f).now = s.now := rfl
@[simp] theorem State.keyEdit_free (s : State) (o : Nat) (f : KeyOwner → KeyOwner) : (s.keyEdit o f).free = s.free := rfl
@[simp] theorem State.keyEdit_out (s : State) (o : Nat) (f : KeyOwner → KeyOwner) : (s.keyEdit o f).out = s.out := rfl
@[simp] theorem State.keyEdit_img (s : State) (o : Nat) (f : KeyOwner → KeyOwner) : (s.keyEdit o f).img = s.img := rfl
@[simp] theorem State.keyEdit_manifest (s : State) (o : Nat) (f : KeyOwner → KeyOwner) : (s.keyEdit o f).manifest = s.manifest := rfl
@[simp] theorem State.keyEdit_pci (s : State) (o : Nat) (f : KeyOwner → KeyOwner) : (s.keyEdit o f).pci = s.pci := rfl
@[simp] theorem State.keyEdit_nvme (s : State) (o : Nat) (f : KeyOwner → KeyOwner) : (s.keyEdit o f).nvme = s.nvme := rfl
@[simp] theorem State.keyEdit_sqs (s : State) (o : Nat) (f : KeyOwner → KeyOwner) : (s.keyEdit o f).sqs = s.sqs := rfl
@[simp] theorem State.keyEdit_cqs (s : State) (o : Nat) (f : KeyOwner → KeyOwner) : (s.keyEdit o f).cqs = s.cqs := rfl
@[simp] theorem State.keyEdit_qrecs (s : State) (o : Nat) (f : KeyOwner → KeyOwner) : (s.keyEdit o f).qrecs = s.qrecs := rfl
@[simp] theorem State.keyEdit_ctxs (s : State) (o : Nat) (f : KeyOwner → KeyOwner) : (s.keyEdit o f).ctxs = s.ctxs := rfl
@[simp] theorem State.keyEdit_slices (s : State) (o : Nat) (f : KeyOwner → KeyOwner) : (s.keyEdit o f).slices = s.slices := rfl
@[simp] theorem State.keyEdit_nss (s : State) (o : Nat) (f : KeyOwner → KeyOwner) : (s.keyEdit o f).nss = s.nss := rfl
@[simp] theorem State.keyEdit_zones (s : State) (o : Nat) (f : KeyOwner → KeyOwner) : (s.keyEdit o f).zones = s.zones := rfl
@[simp] theorem State.keyEdit_gate (s : State) (o : Nat) (f : KeyOwner → KeyOwner) : (s.keyEdit o f).gate = s.gate := rfl
@[simp] theorem State.keyEdit_staging (s : State) (o : Nat) (f : KeyOwner → KeyOwner) : (s.keyEdit o f).staging = s.staging := rfl
@[simp] theorem State.keyEdit_toks (s : State) (o : Nat) (f : KeyOwner → KeyOwner) : (s.keyEdit o f).toks = s.toks := rfl
@[simp] theorem State.keyEdit_bpm (s : State) (o : Nat) (f : KeyOwner → KeyOwner) : (s.keyEdit o f).bpm = s.bpm := rfl
@[simp] theorem State.keyEdit_dma (s : State) (o : Nat) (f : KeyOwner → KeyOwner) : (s.keyEdit o f).dma = s.dma := rfl
@[simp] theorem State.keyEdit_sward (s : State) (o : Nat) (f : KeyOwner → KeyOwner) : (s.keyEdit o f).sward = s.sward := rfl
@[simp] theorem State.keyEdit_blocks (s : State) (o : Nat) (f : KeyOwner → KeyOwner) : (s.keyEdit o f).blocks = s.blocks := rfl
@[simp] theorem State.keyEdit_dies (s : State) (o : Nat) (f : KeyOwner → KeyOwner) : (s.keyEdit o f).dies = s.dies := rfl
@[simp] theorem State.keyEdit_flash (s : State) (o : Nat) (f : KeyOwner → KeyOwner) : (s.keyEdit o f).flash = s.flash := rfl
@[simp] theorem State.keyEdit_fch (s : State) (o : Nat) (f : KeyOwner → KeyOwner) : (s.keyEdit o f).fch = s.fch := rfl
@[simp] theorem State.keyEdit_zne (s : State) (o : Nat) (f : KeyOwner → KeyOwner) : (s.keyEdit o f).zne = s.zne := rfl
@[simp] theorem State.keyEdit_par (s : State) (o : Nat) (f : KeyOwner → KeyOwner) : (s.keyEdit o f).par = s.par := rfl
@[simp] theorem State.keyEdit_lat (s : State) (o : Nat) (f : KeyOwner → KeyOwner) : (s.keyEdit o f).lat = s.lat := rfl
@[simp] theorem State.keyEdit_drc (s : State) (o : Nat) (f : KeyOwner → KeyOwner) : (s.keyEdit o f).drc = s.drc := rfl
@[simp] theorem State.keyEdit_ecc (s : State) (o : Nat) (f : KeyOwner → KeyOwner) : (s.keyEdit o f).ecc = s.ecc := rfl
@[simp] theorem State.keyEdit_key (s : State) (o : Nat) (f : KeyOwner → KeyOwner) : (s.keyEdit o f).key = { s.key with owners := s.key.owners.upd o {} f } := rfl
@[simp] theorem State.keyEdit_cas (s : State) (o : Nat) (f : KeyOwner → KeyOwner) : (s.keyEdit o f).cas = s.cas := rfl
@[simp] theorem State.keyEdit_mtr (s : State) (o : Nat) (f : KeyOwner → KeyOwner) : (s.keyEdit o f).mtr = s.mtr := rfl
@[simp] theorem State.keyEdit_pwr (s : State) (o : Nat) (f : KeyOwner → KeyOwner) : (s.keyEdit o f).pwr = s.pwr := rfl
@[simp] theorem State.keyEdit_brm (s : State) (o : Nat) (f : KeyOwner → KeyOwner) : (s.keyEdit o f).brm = s.brm := rfl
@[simp] theorem State.keyEdit_thm (s : State) (o : Nat) (f : KeyOwner → KeyOwner) : (s.keyEdit o f).thm = s.thm := rfl
@[simp] theorem State.keyEdit_mon (s : State) (o : Nat) (f : KeyOwner → KeyOwner) : (s.keyEdit o f).mon = s.mon := rfl
@[simp] theorem State.keyEdit_upd (s : State) (o : Nat) (f : KeyOwner → KeyOwner) : (s.keyEdit o f).upd = s.upd := rfl
@[simp] theorem State.keyEdit_nv (s : State) (o : Nat) (f : KeyOwner → KeyOwner) : (s.keyEdit o f).nv = s.nv := rfl
@[simp] theorem State.keyEdit_efl (s : State) (o : Nat) (f : KeyOwner → KeyOwner) : (s.keyEdit o f).efl = s.efl := rfl
@[simp] theorem State.keyEdit_evt (s : State) (o : Nat) (f : KeyOwner → KeyOwner) : (s.keyEdit o f).evt = s.evt := rfl
@[simp] theorem State.keyEdit_log (s : State) (o : Nat) (f : KeyOwner → KeyOwner) : (s.keyEdit o f).log = s.log := rfl
@[simp] theorem State.keyEdit_side (s : State) (o : Nat) (f : KeyOwner → KeyOwner) : (s.keyEdit o f).side = s.side := rfl

/-! ### chanEdit -/

@[simp] theorem State.chanEdit_pending (s : State) (o : Nat) (f : Chan → Chan) : (s.chanEdit o f).pending = s.pending := rfl
@[simp] theorem State.chanEdit_now (s : State) (o : Nat) (f : Chan → Chan) : (s.chanEdit o f).now = s.now := rfl
@[simp] theorem State.chanEdit_free (s : State) (o : Nat) (f : Chan → Chan) : (s.chanEdit o f).free = s.free := rfl
@[simp] theorem State.chanEdit_out (s : State) (o : Nat) (f : Chan → Chan) : (s.chanEdit o f).out = s.out := rfl
@[simp] theorem State.chanEdit_img (s : State) (o : Nat) (f : Chan → Chan) : (s.chanEdit o f).img = s.img := rfl
@[simp] theorem State.chanEdit_manifest (s : State) (o : Nat) (f : Chan → Chan) : (s.chanEdit o f).manifest = s.manifest := rfl
@[simp] theorem State.chanEdit_pci (s : State) (o : Nat) (f : Chan → Chan) : (s.chanEdit o f).pci = s.pci := rfl
@[simp] theorem State.chanEdit_nvme (s : State) (o : Nat) (f : Chan → Chan) : (s.chanEdit o f).nvme = s.nvme := rfl
@[simp] theorem State.chanEdit_sqs (s : State) (o : Nat) (f : Chan → Chan) : (s.chanEdit o f).sqs = s.sqs := rfl
@[simp] theorem State.chanEdit_cqs (s : State) (o : Nat) (f : Chan → Chan) : (s.chanEdit o f).cqs = s.cqs := rfl
@[simp] theorem State.chanEdit_qrecs (s : State) (o : Nat) (f : Chan → Chan) : (s.chanEdit o f).qrecs = s.qrecs := rfl
@[simp] theorem State.chanEdit_ctxs (s : State) (o : Nat) (f : Chan → Chan) : (s.chanEdit o f).ctxs = s.ctxs := rfl
@[simp] theorem State.chanEdit_slices (s : State) (o : Nat) (f : Chan → Chan) : (s.chanEdit o f).slices = s.slices := rfl
@[simp] theorem State.chanEdit_nss (s : State) (o : Nat) (f : Chan → Chan) : (s.chanEdit o f).nss = s.nss := rfl
@[simp] theorem State.chanEdit_zones (s : State) (o : Nat) (f : Chan → Chan) : (s.chanEdit o f).zones = s.zones := rfl
@[simp] theorem State.chanEdit_gate (s : State) (o : Nat) (f : Chan → Chan) : (s.chanEdit o f).gate = s.gate := rfl
@[simp] theorem State.chanEdit_staging (s : State) (o : Nat) (f : Chan → Chan) : (s.chanEdit o f).staging = s.staging := rfl
@[simp] theorem State.chanEdit_toks (s : State) (o : Nat) (f : Chan → Chan) : (s.chanEdit o f).toks = s.toks := rfl
@[simp] theorem State.chanEdit_bpm (s : State) (o : Nat) (f : Chan → Chan) : (s.chanEdit o f).bpm = s.bpm := rfl
@[simp] theorem State.chanEdit_dma (s : State) (o : Nat) (f : Chan → Chan) : (s.chanEdit o f).dma = { s.dma with chans := s.dma.chans.upd o {} f } := rfl
@[simp] theorem State.chanEdit_sward (s : State) (o : Nat) (f : Chan → Chan) : (s.chanEdit o f).sward = s.sward := rfl
@[simp] theorem State.chanEdit_blocks (s : State) (o : Nat) (f : Chan → Chan) : (s.chanEdit o f).blocks = s.blocks := rfl
@[simp] theorem State.chanEdit_dies (s : State) (o : Nat) (f : Chan → Chan) : (s.chanEdit o f).dies = s.dies := rfl
@[simp] theorem State.chanEdit_flash (s : State) (o : Nat) (f : Chan → Chan) : (s.chanEdit o f).flash = s.flash := rfl
@[simp] theorem State.chanEdit_fch (s : State) (o : Nat) (f : Chan → Chan) : (s.chanEdit o f).fch = s.fch := rfl
@[simp] theorem State.chanEdit_zne (s : State) (o : Nat) (f : Chan → Chan) : (s.chanEdit o f).zne = s.zne := rfl
@[simp] theorem State.chanEdit_par (s : State) (o : Nat) (f : Chan → Chan) : (s.chanEdit o f).par = s.par := rfl
@[simp] theorem State.chanEdit_lat (s : State) (o : Nat) (f : Chan → Chan) : (s.chanEdit o f).lat = s.lat := rfl
@[simp] theorem State.chanEdit_drc (s : State) (o : Nat) (f : Chan → Chan) : (s.chanEdit o f).drc = s.drc := rfl
@[simp] theorem State.chanEdit_ecc (s : State) (o : Nat) (f : Chan → Chan) : (s.chanEdit o f).ecc = s.ecc := rfl
@[simp] theorem State.chanEdit_key (s : State) (o : Nat) (f : Chan → Chan) : (s.chanEdit o f).key = s.key := rfl
@[simp] theorem State.chanEdit_cas (s : State) (o : Nat) (f : Chan → Chan) : (s.chanEdit o f).cas = s.cas := rfl
@[simp] theorem State.chanEdit_mtr (s : State) (o : Nat) (f : Chan → Chan) : (s.chanEdit o f).mtr = s.mtr := rfl
@[simp] theorem State.chanEdit_pwr (s : State) (o : Nat) (f : Chan → Chan) : (s.chanEdit o f).pwr = s.pwr := rfl
@[simp] theorem State.chanEdit_brm (s : State) (o : Nat) (f : Chan → Chan) : (s.chanEdit o f).brm = s.brm := rfl
@[simp] theorem State.chanEdit_thm (s : State) (o : Nat) (f : Chan → Chan) : (s.chanEdit o f).thm = s.thm := rfl
@[simp] theorem State.chanEdit_mon (s : State) (o : Nat) (f : Chan → Chan) : (s.chanEdit o f).mon = s.mon := rfl
@[simp] theorem State.chanEdit_upd (s : State) (o : Nat) (f : Chan → Chan) : (s.chanEdit o f).upd = s.upd := rfl
@[simp] theorem State.chanEdit_nv (s : State) (o : Nat) (f : Chan → Chan) : (s.chanEdit o f).nv = s.nv := rfl
@[simp] theorem State.chanEdit_efl (s : State) (o : Nat) (f : Chan → Chan) : (s.chanEdit o f).efl = s.efl := rfl
@[simp] theorem State.chanEdit_evt (s : State) (o : Nat) (f : Chan → Chan) : (s.chanEdit o f).evt = s.evt := rfl
@[simp] theorem State.chanEdit_log (s : State) (o : Nat) (f : Chan → Chan) : (s.chanEdit o f).log = s.log := rfl
@[simp] theorem State.chanEdit_side (s : State) (o : Nat) (f : Chan → Chan) : (s.chanEdit o f).side = s.side := rfl

/-! ### portEdit -/

@[simp] theorem State.portEdit_pending (s : State) (p : Nat) (f : Port → Port) : (s.portEdit p f).pending = s.pending := rfl
@[simp] theorem State.portEdit_now (s : State) (p : Nat) (f : Port → Port) : (s.portEdit p f).now = s.now := rfl
@[simp] theorem State.portEdit_free (s : State) (p : Nat) (f : Port → Port) : (s.portEdit p f).free = s.free := rfl
@[simp] theorem State.portEdit_out (s : State) (p : Nat) (f : Port → Port) : (s.portEdit p f).out = s.out := rfl
@[simp] theorem State.portEdit_img (s : State) (p : Nat) (f : Port → Port) : (s.portEdit p f).img = s.img := rfl
@[simp] theorem State.portEdit_manifest (s : State) (p : Nat) (f : Port → Port) : (s.portEdit p f).manifest = s.manifest := rfl
@[simp] theorem State.portEdit_pci (s : State) (p : Nat) (f : Port → Port) : (s.portEdit p f).pci = s.pci := rfl
@[simp] theorem State.portEdit_nvme (s : State) (p : Nat) (f : Port → Port) : (s.portEdit p f).nvme = s.nvme := rfl
@[simp] theorem State.portEdit_sqs (s : State) (p : Nat) (f : Port → Port) : (s.portEdit p f).sqs = s.sqs := rfl
@[simp] theorem State.portEdit_cqs (s : State) (p : Nat) (f : Port → Port) : (s.portEdit p f).cqs = s.cqs := rfl
@[simp] theorem State.portEdit_qrecs (s : State) (p : Nat) (f : Port → Port) : (s.portEdit p f).qrecs = s.qrecs := rfl
@[simp] theorem State.portEdit_ctxs (s : State) (p : Nat) (f : Port → Port) : (s.portEdit p f).ctxs = s.ctxs := rfl
@[simp] theorem State.portEdit_slices (s : State) (p : Nat) (f : Port → Port) : (s.portEdit p f).slices = s.slices := rfl
@[simp] theorem State.portEdit_nss (s : State) (p : Nat) (f : Port → Port) : (s.portEdit p f).nss = s.nss := rfl
@[simp] theorem State.portEdit_zones (s : State) (p : Nat) (f : Port → Port) : (s.portEdit p f).zones = s.zones := rfl
@[simp] theorem State.portEdit_gate (s : State) (p : Nat) (f : Port → Port) : (s.portEdit p f).gate = s.gate := rfl
@[simp] theorem State.portEdit_staging (s : State) (p : Nat) (f : Port → Port) : (s.portEdit p f).staging = s.staging := rfl
@[simp] theorem State.portEdit_toks (s : State) (p : Nat) (f : Port → Port) : (s.portEdit p f).toks = s.toks := rfl
@[simp] theorem State.portEdit_bpm (s : State) (p : Nat) (f : Port → Port) : (s.portEdit p f).bpm = s.bpm := rfl
@[simp] theorem State.portEdit_dma (s : State) (p : Nat) (f : Port → Port) : (s.portEdit p f).dma = s.dma := rfl
@[simp] theorem State.portEdit_sward (s : State) (p : Nat) (f : Port → Port) : (s.portEdit p f).sward = s.sward := rfl
@[simp] theorem State.portEdit_blocks (s : State) (p : Nat) (f : Port → Port) : (s.portEdit p f).blocks = s.blocks := rfl
@[simp] theorem State.portEdit_dies (s : State) (p : Nat) (f : Port → Port) : (s.portEdit p f).dies = s.dies := rfl
@[simp] theorem State.portEdit_flash (s : State) (p : Nat) (f : Port → Port) : (s.portEdit p f).flash = s.flash := rfl
@[simp] theorem State.portEdit_fch (s : State) (p : Nat) (f : Port → Port) : (s.portEdit p f).fch = s.fch := rfl
@[simp] theorem State.portEdit_zne (s : State) (p : Nat) (f : Port → Port) : (s.portEdit p f).zne = s.zne := rfl
@[simp] theorem State.portEdit_par (s : State) (p : Nat) (f : Port → Port) : (s.portEdit p f).par = s.par := rfl
@[simp] theorem State.portEdit_lat (s : State) (p : Nat) (f : Port → Port) : (s.portEdit p f).lat = s.lat := rfl
@[simp] theorem State.portEdit_drc (s : State) (p : Nat) (f : Port → Port) : (s.portEdit p f).drc = s.drc := rfl
@[simp] theorem State.portEdit_ecc (s : State) (p : Nat) (f : Port → Port) : (s.portEdit p f).ecc = s.ecc := rfl
@[simp] theorem State.portEdit_key (s : State) (p : Nat) (f : Port → Port) : (s.portEdit p f).key = s.key := rfl
@[simp] theorem State.portEdit_cas (s : State) (p : Nat) (f : Port → Port) : (s.portEdit p f).cas = { s.cas with ports := s.cas.ports.upd p {} f } := rfl
@[simp] theorem State.portEdit_mtr (s : State) (p : Nat) (f : Port → Port) : (s.portEdit p f).mtr = s.mtr := rfl
@[simp] theorem State.portEdit_pwr (s : State) (p : Nat) (f : Port → Port) : (s.portEdit p f).pwr = s.pwr := rfl
@[simp] theorem State.portEdit_brm (s : State) (p : Nat) (f : Port → Port) : (s.portEdit p f).brm = s.brm := rfl
@[simp] theorem State.portEdit_thm (s : State) (p : Nat) (f : Port → Port) : (s.portEdit p f).thm = s.thm := rfl
@[simp] theorem State.portEdit_mon (s : State) (p : Nat) (f : Port → Port) : (s.portEdit p f).mon = s.mon := rfl
@[simp] theorem State.portEdit_upd (s : State) (p : Nat) (f : Port → Port) : (s.portEdit p f).upd = s.upd := rfl
@[simp] theorem State.portEdit_nv (s : State) (p : Nat) (f : Port → Port) : (s.portEdit p f).nv = s.nv := rfl
@[simp] theorem State.portEdit_efl (s : State) (p : Nat) (f : Port → Port) : (s.portEdit p f).efl = s.efl := rfl
@[simp] theorem State.portEdit_evt (s : State) (p : Nat) (f : Port → Port) : (s.portEdit p f).evt = s.evt := rfl
@[simp] theorem State.portEdit_log (s : State) (p : Nat) (f : Port → Port) : (s.portEdit p f).log = s.log := rfl
@[simp] theorem State.portEdit_side (s : State) (p : Nat) (f : Port → Port) : (s.portEdit p f).side = s.side := rfl

/-! ### memEdit -/

@[simp] theorem State.memEdit_pending (s : State) (c : Nat) (f : Member → Member) : (s.memEdit c f).pending = s.pending := rfl
@[simp] theorem State.memEdit_now (s : State) (c : Nat) (f : Member → Member) : (s.memEdit c f).now = s.now := rfl
@[simp] theorem State.memEdit_free (s : State) (c : Nat) (f : Member → Member) : (s.memEdit c f).free = s.free := rfl
@[simp] theorem State.memEdit_out (s : State) (c : Nat) (f : Member → Member) : (s.memEdit c f).out = s.out := rfl
@[simp] theorem State.memEdit_img (s : State) (c : Nat) (f : Member → Member) : (s.memEdit c f).img = s.img := rfl
@[simp] theorem State.memEdit_manifest (s : State) (c : Nat) (f : Member → Member) : (s.memEdit c f).manifest = s.manifest := rfl
@[simp] theorem State.memEdit_pci (s : State) (c : Nat) (f : Member → Member) : (s.memEdit c f).pci = s.pci := rfl
@[simp] theorem State.memEdit_nvme (s : State) (c : Nat) (f : Member → Member) : (s.memEdit c f).nvme = s.nvme := rfl
@[simp] theorem State.memEdit_sqs (s : State) (c : Nat) (f : Member → Member) : (s.memEdit c f).sqs = s.sqs := rfl
@[simp] theorem State.memEdit_cqs (s : State) (c : Nat) (f : Member → Member) : (s.memEdit c f).cqs = s.cqs := rfl
@[simp] theorem State.memEdit_qrecs (s : State) (c : Nat) (f : Member → Member) : (s.memEdit c f).qrecs = s.qrecs := rfl
@[simp] theorem State.memEdit_ctxs (s : State) (c : Nat) (f : Member → Member) : (s.memEdit c f).ctxs = s.ctxs := rfl
@[simp] theorem State.memEdit_slices (s : State) (c : Nat) (f : Member → Member) : (s.memEdit c f).slices = s.slices := rfl
@[simp] theorem State.memEdit_nss (s : State) (c : Nat) (f : Member → Member) : (s.memEdit c f).nss = s.nss := rfl
@[simp] theorem State.memEdit_zones (s : State) (c : Nat) (f : Member → Member) : (s.memEdit c f).zones = s.zones := rfl
@[simp] theorem State.memEdit_gate (s : State) (c : Nat) (f : Member → Member) : (s.memEdit c f).gate = s.gate := rfl
@[simp] theorem State.memEdit_staging (s : State) (c : Nat) (f : Member → Member) : (s.memEdit c f).staging = s.staging := rfl
@[simp] theorem State.memEdit_toks (s : State) (c : Nat) (f : Member → Member) : (s.memEdit c f).toks = s.toks := rfl
@[simp] theorem State.memEdit_bpm (s : State) (c : Nat) (f : Member → Member) : (s.memEdit c f).bpm = s.bpm := rfl
@[simp] theorem State.memEdit_dma (s : State) (c : Nat) (f : Member → Member) : (s.memEdit c f).dma = s.dma := rfl
@[simp] theorem State.memEdit_sward (s : State) (c : Nat) (f : Member → Member) : (s.memEdit c f).sward = s.sward := rfl
@[simp] theorem State.memEdit_blocks (s : State) (c : Nat) (f : Member → Member) : (s.memEdit c f).blocks = s.blocks := rfl
@[simp] theorem State.memEdit_dies (s : State) (c : Nat) (f : Member → Member) : (s.memEdit c f).dies = s.dies := rfl
@[simp] theorem State.memEdit_flash (s : State) (c : Nat) (f : Member → Member) : (s.memEdit c f).flash = s.flash := rfl
@[simp] theorem State.memEdit_fch (s : State) (c : Nat) (f : Member → Member) : (s.memEdit c f).fch = s.fch := rfl
@[simp] theorem State.memEdit_zne (s : State) (c : Nat) (f : Member → Member) : (s.memEdit c f).zne = s.zne := rfl
@[simp] theorem State.memEdit_par (s : State) (c : Nat) (f : Member → Member) : (s.memEdit c f).par = s.par := rfl
@[simp] theorem State.memEdit_lat (s : State) (c : Nat) (f : Member → Member) : (s.memEdit c f).lat = s.lat := rfl
@[simp] theorem State.memEdit_drc (s : State) (c : Nat) (f : Member → Member) : (s.memEdit c f).drc = s.drc := rfl
@[simp] theorem State.memEdit_ecc (s : State) (c : Nat) (f : Member → Member) : (s.memEdit c f).ecc = s.ecc := rfl
@[simp] theorem State.memEdit_key (s : State) (c : Nat) (f : Member → Member) : (s.memEdit c f).key = s.key := rfl
@[simp] theorem State.memEdit_cas (s : State) (c : Nat) (f : Member → Member) : (s.memEdit c f).cas = { s.cas with members := s.cas.members.edit c f } := rfl
@[simp] theorem State.memEdit_mtr (s : State) (c : Nat) (f : Member → Member) : (s.memEdit c f).mtr = s.mtr := rfl
@[simp] theorem State.memEdit_pwr (s : State) (c : Nat) (f : Member → Member) : (s.memEdit c f).pwr = s.pwr := rfl
@[simp] theorem State.memEdit_brm (s : State) (c : Nat) (f : Member → Member) : (s.memEdit c f).brm = s.brm := rfl
@[simp] theorem State.memEdit_thm (s : State) (c : Nat) (f : Member → Member) : (s.memEdit c f).thm = s.thm := rfl
@[simp] theorem State.memEdit_mon (s : State) (c : Nat) (f : Member → Member) : (s.memEdit c f).mon = s.mon := rfl
@[simp] theorem State.memEdit_upd (s : State) (c : Nat) (f : Member → Member) : (s.memEdit c f).upd = s.upd := rfl
@[simp] theorem State.memEdit_nv (s : State) (c : Nat) (f : Member → Member) : (s.memEdit c f).nv = s.nv := rfl
@[simp] theorem State.memEdit_efl (s : State) (c : Nat) (f : Member → Member) : (s.memEdit c f).efl = s.efl := rfl
@[simp] theorem State.memEdit_evt (s : State) (c : Nat) (f : Member → Member) : (s.memEdit c f).evt = s.evt := rfl
@[simp] theorem State.memEdit_log (s : State) (c : Nat) (f : Member → Member) : (s.memEdit c f).log = s.log := rfl
@[simp] theorem State.memEdit_side (s : State) (c : Nat) (f : Member → Member) : (s.memEdit c f).side = s.side := rfl

/-! ### mtrEdit -/

@[simp] theorem State.mtrEdit_pending (s : State) (f : Mtr → Mtr) : (s.mtrEdit f).pending = s.pending := rfl
@[simp] theorem State.mtrEdit_now (s : State) (f : Mtr → Mtr) : (s.mtrEdit f).now = s.now := rfl
@[simp] theorem State.mtrEdit_free (s : State) (f : Mtr → Mtr) : (s.mtrEdit f).free = s.free := rfl
@[simp] theorem State.mtrEdit_out (s : State) (f : Mtr → Mtr) : (s.mtrEdit f).out = s.out := rfl
@[simp] theorem State.mtrEdit_img (s : State) (f : Mtr → Mtr) : (s.mtrEdit f).img = s.img := rfl
@[simp] theorem State.mtrEdit_manifest (s : State) (f : Mtr → Mtr) : (s.mtrEdit f).manifest = s.manifest := rfl
@[simp] theorem State.mtrEdit_pci (s : State) (f : Mtr → Mtr) : (s.mtrEdit f).pci = s.pci := rfl
@[simp] theorem State.mtrEdit_nvme (s : State) (f : Mtr → Mtr) : (s.mtrEdit f).nvme = s.nvme := rfl
@[simp] theorem State.mtrEdit_sqs (s : State) (f : Mtr → Mtr) : (s.mtrEdit f).sqs = s.sqs := rfl
@[simp] theorem State.mtrEdit_cqs (s : State) (f : Mtr → Mtr) : (s.mtrEdit f).cqs = s.cqs := rfl
@[simp] theorem State.mtrEdit_qrecs (s : State) (f : Mtr → Mtr) : (s.mtrEdit f).qrecs = s.qrecs := rfl
@[simp] theorem State.mtrEdit_ctxs (s : State) (f : Mtr → Mtr) : (s.mtrEdit f).ctxs = s.ctxs := rfl
@[simp] theorem State.mtrEdit_slices (s : State) (f : Mtr → Mtr) : (s.mtrEdit f).slices = s.slices := rfl
@[simp] theorem State.mtrEdit_nss (s : State) (f : Mtr → Mtr) : (s.mtrEdit f).nss = s.nss := rfl
@[simp] theorem State.mtrEdit_zones (s : State) (f : Mtr → Mtr) : (s.mtrEdit f).zones = s.zones := rfl
@[simp] theorem State.mtrEdit_gate (s : State) (f : Mtr → Mtr) : (s.mtrEdit f).gate = s.gate := rfl
@[simp] theorem State.mtrEdit_staging (s : State) (f : Mtr → Mtr) : (s.mtrEdit f).staging = s.staging := rfl
@[simp] theorem State.mtrEdit_toks (s : State) (f : Mtr → Mtr) : (s.mtrEdit f).toks = s.toks := rfl
@[simp] theorem State.mtrEdit_bpm (s : State) (f : Mtr → Mtr) : (s.mtrEdit f).bpm = s.bpm := rfl
@[simp] theorem State.mtrEdit_dma (s : State) (f : Mtr → Mtr) : (s.mtrEdit f).dma = s.dma := rfl
@[simp] theorem State.mtrEdit_sward (s : State) (f : Mtr → Mtr) : (s.mtrEdit f).sward = s.sward := rfl
@[simp] theorem State.mtrEdit_blocks (s : State) (f : Mtr → Mtr) : (s.mtrEdit f).blocks = s.blocks := rfl
@[simp] theorem State.mtrEdit_dies (s : State) (f : Mtr → Mtr) : (s.mtrEdit f).dies = s.dies := rfl
@[simp] theorem State.mtrEdit_flash (s : State) (f : Mtr → Mtr) : (s.mtrEdit f).flash = s.flash := rfl
@[simp] theorem State.mtrEdit_fch (s : State) (f : Mtr → Mtr) : (s.mtrEdit f).fch = s.fch := rfl
@[simp] theorem State.mtrEdit_zne (s : State) (f : Mtr → Mtr) : (s.mtrEdit f).zne = s.zne := rfl
@[simp] theorem State.mtrEdit_par (s : State) (f : Mtr → Mtr) : (s.mtrEdit f).par = s.par := rfl
@[simp] theorem State.mtrEdit_lat (s : State) (f : Mtr → Mtr) : (s.mtrEdit f).lat = s.lat := rfl
@[simp] theorem State.mtrEdit_drc (s : State) (f : Mtr → Mtr) : (s.mtrEdit f).drc = s.drc := rfl
@[simp] theorem State.mtrEdit_ecc (s : State) (f : Mtr → Mtr) : (s.mtrEdit f).ecc = s.ecc := rfl
@[simp] theorem State.mtrEdit_key (s : State) (f : Mtr → Mtr) : (s.mtrEdit f).key = s.key := rfl
@[simp] theorem State.mtrEdit_cas (s : State) (f : Mtr → Mtr) : (s.mtrEdit f).cas = s.cas := rfl
@[simp] theorem State.mtrEdit_mtr (s : State) (f : Mtr → Mtr) : (s.mtrEdit f).mtr = f s.mtr := rfl
@[simp] theorem State.mtrEdit_pwr (s : State) (f : Mtr → Mtr) : (s.mtrEdit f).pwr = s.pwr := rfl
@[simp] theorem State.mtrEdit_brm (s : State) (f : Mtr → Mtr) : (s.mtrEdit f).brm = s.brm := rfl
@[simp] theorem State.mtrEdit_thm (s : State) (f : Mtr → Mtr) : (s.mtrEdit f).thm = s.thm := rfl
@[simp] theorem State.mtrEdit_mon (s : State) (f : Mtr → Mtr) : (s.mtrEdit f).mon = s.mon := rfl
@[simp] theorem State.mtrEdit_upd (s : State) (f : Mtr → Mtr) : (s.mtrEdit f).upd = s.upd := rfl
@[simp] theorem State.mtrEdit_nv (s : State) (f : Mtr → Mtr) : (s.mtrEdit f).nv = s.nv := rfl
@[simp] theorem State.mtrEdit_efl (s : State) (f : Mtr → Mtr) : (s.mtrEdit f).efl = s.efl := rfl
@[simp] theorem State.mtrEdit_evt (s : State) (f : Mtr → Mtr) : (s.mtrEdit f).evt = s.evt := rfl
@[simp] theorem State.mtrEdit_log (s : State) (f : Mtr → Mtr) : (s.mtrEdit f).log = s.log := rfl
@[simp] theorem State.mtrEdit_side (s : State) (f : Mtr → Mtr) : (s.mtrEdit f).side = s.side := rfl

/-! ### eflEdit -/

@[simp] theorem State.eflEdit_pending (s : State) (f : Efl → Efl) : (s.eflEdit f).pending = s.pending := rfl
@[simp] theorem State.eflEdit_now (s : State) (f : Efl → Efl) : (s.eflEdit f).now = s.now := rfl
@[simp] theorem State.eflEdit_free (s : State) (f : Efl → Efl) : (s.eflEdit f).free = s.free := rfl
@[simp] theorem State.eflEdit_out (s : State) (f : Efl → Efl) : (s.eflEdit f).out = s.out := rfl
@[simp] theorem State.eflEdit_img (s : State) (f : Efl → Efl) : (s.eflEdit f).img = s.img := rfl
@[simp] theorem State.eflEdit_manifest (s : State) (f : Efl → Efl) : (s.eflEdit f).manifest = s.manifest := rfl
@[simp] theorem State.eflEdit_pci (s : State) (f : Efl → Efl) : (s.eflEdit f).pci = s.pci := rfl
@[simp] theorem State.eflEdit_nvme (s : State) (f : Efl → Efl) : (s.eflEdit f).nvme = s.nvme := rfl
@[simp] theorem State.eflEdit_sqs (s : State) (f : Efl → Efl) : (s.eflEdit f).sqs = s.sqs := rfl
@[simp] theorem State.eflEdit_cqs (s : State) (f : Efl → Efl) : (s.eflEdit f).cqs = s.cqs := rfl
@[simp] theorem State.eflEdit_qrecs (s : State) (f : Efl → Efl) : (s.eflEdit f).qrecs = s.qrecs := rfl
@[simp] theorem State.eflEdit_ctxs (s : State) (f : Efl → Efl) : (s.eflEdit f).ctxs = s.ctxs := rfl
@[simp] theorem State.eflEdit_slices (s : State) (f : Efl → Efl) : (s.eflEdit f).slices = s.slices := rfl
@[simp] theorem State.eflEdit_nss (s : State) (f : Efl → Efl) : (s.eflEdit f).nss = s.nss := rfl
@[simp] theorem State.eflEdit_zones (s : State) (f : Efl → Efl) : (s.eflEdit f).zones = s.zones := rfl
@[simp] theorem State.eflEdit_gate (s : State) (f : Efl → Efl) : (s.eflEdit f).gate = s.gate := rfl
@[simp] theorem State.eflEdit_staging (s : State) (f : Efl → Efl) : (s.eflEdit f).staging = s.staging := rfl
@[simp] theorem State.eflEdit_toks (s : State) (f : Efl → Efl) : (s.eflEdit f).toks = s.toks := rfl
@[simp] theorem State.eflEdit_bpm (s : State) (f : Efl → Efl) : (s.eflEdit f).bpm = s.bpm := rfl
@[simp] theorem State.eflEdit_dma (s : State) (f : Efl → Efl) : (s.eflEdit f).dma = s.dma := rfl
@[simp] theorem State.eflEdit_sward (s : State) (f : Efl → Efl) : (s.eflEdit f).sward = s.sward := rfl
@[simp] theorem State.eflEdit_blocks (s : State) (f : Efl → Efl) : (s.eflEdit f).blocks = s.blocks := rfl
@[simp] theorem State.eflEdit_dies (s : State) (f : Efl → Efl) : (s.eflEdit f).dies = s.dies := rfl
@[simp] theorem State.eflEdit_flash (s : State) (f : Efl → Efl) : (s.eflEdit f).flash = s.flash := rfl
@[simp] theorem State.eflEdit_fch (s : State) (f : Efl → Efl) : (s.eflEdit f).fch = s.fch := rfl
@[simp] theorem State.eflEdit_zne (s : State) (f : Efl → Efl) : (s.eflEdit f).zne = s.zne := rfl
@[simp] theorem State.eflEdit_par (s : State) (f : Efl → Efl) : (s.eflEdit f).par = s.par := rfl
@[simp] theorem State.eflEdit_lat (s : State) (f : Efl → Efl) : (s.eflEdit f).lat = s.lat := rfl
@[simp] theorem State.eflEdit_drc (s : State) (f : Efl → Efl) : (s.eflEdit f).drc = s.drc := rfl
@[simp] theorem State.eflEdit_ecc (s : State) (f : Efl → Efl) : (s.eflEdit f).ecc = s.ecc := rfl
@[simp] theorem State.eflEdit_key (s : State) (f : Efl → Efl) : (s.eflEdit f).key = s.key := rfl
@[simp] theorem State.eflEdit_cas (s : State) (f : Efl → Efl) : (s.eflEdit f).cas = s.cas := rfl
@[simp] theorem State.eflEdit_mtr (s : State) (f : Efl → Efl) : (s.eflEdit f).mtr = s.mtr := rfl
@[simp] theorem State.eflEdit_pwr (s : State) (f : Efl → Efl) : (s.eflEdit f).pwr = s.pwr := rfl
@[simp] theorem State.eflEdit_brm (s : State) (f : Efl → Efl) : (s.eflEdit f).brm = s.brm := rfl
@[simp] theorem State.eflEdit_thm (s : State) (f : Efl → Efl) : (s.eflEdit f).thm = s.thm := rfl
@[simp] theorem State.eflEdit_mon (s : State) (f : Efl → Efl) : (s.eflEdit f).mon = s.mon := rfl
@[simp] theorem State.eflEdit_upd (s : State) (f : Efl → Efl) : (s.eflEdit f).upd = s.upd := rfl
@[simp] theorem State.eflEdit_nv (s : State) (f : Efl → Efl) : (s.eflEdit f).nv = s.nv := rfl
@[simp] theorem State.eflEdit_efl (s : State) (f : Efl → Efl) : (s.eflEdit f).efl = f s.efl := rfl
@[simp] theorem State.eflEdit_evt (s : State) (f : Efl → Efl) : (s.eflEdit f).evt = s.evt := rfl
@[simp] theorem State.eflEdit_log (s : State) (f : Efl → Efl) : (s.eflEdit f).log = s.log := rfl
@[simp] theorem State.eflEdit_side (s : State) (f : Efl → Efl) : (s.eflEdit f).side = s.side := rfl

/-! ### siteEdit -/

@[simp] theorem State.siteEdit_pending (s : State) (k : Nat) (f : Site → Site) : (s.siteEdit k f).pending = s.pending := rfl
@[simp] theorem State.siteEdit_now (s : State) (k : Nat) (f : Site → Site) : (s.siteEdit k f).now = s.now := rfl
@[simp] theorem State.siteEdit_free (s : State) (k : Nat) (f : Site → Site) : (s.siteEdit k f).free = s.free := rfl
@[simp] theorem State.siteEdit_out (s : State) (k : Nat) (f : Site → Site) : (s.siteEdit k f).out = s.out := rfl
@[simp] theorem State.siteEdit_img (s : State) (k : Nat) (f : Site → Site) : (s.siteEdit k f).img = s.img := rfl
@[simp] theorem State.siteEdit_manifest (s : State) (k : Nat) (f : Site → Site) : (s.siteEdit k f).manifest = s.manifest := rfl
@[simp] theorem State.siteEdit_pci (s : State) (k : Nat) (f : Site → Site) : (s.siteEdit k f).pci = s.pci := rfl
@[simp] theorem State.siteEdit_nvme (s : State) (k : Nat) (f : Site → Site) : (s.siteEdit k f).nvme = s.nvme := rfl
@[simp] theorem State.siteEdit_sqs (s : State) (k : Nat) (f : Site → Site) : (s.siteEdit k f).sqs = s.sqs := rfl
@[simp] theorem State.siteEdit_cqs (s : State) (k : Nat) (f : Site → Site) : (s.siteEdit k f).cqs = s.cqs := rfl
@[simp] theorem State.siteEdit_qrecs (s : State) (k : Nat) (f : Site → Site) : (s.siteEdit k f).qrecs = s.qrecs := rfl
@[simp] theorem State.siteEdit_ctxs (s : State) (k : Nat) (f : Site → Site) : (s.siteEdit k f).ctxs = s.ctxs := rfl
@[simp] theorem State.siteEdit_slices (s : State) (k : Nat) (f : Site → Site) : (s.siteEdit k f).slices = s.slices := rfl
@[simp] theorem State.siteEdit_nss (s : State) (k : Nat) (f : Site → Site) : (s.siteEdit k f).nss = s.nss := rfl
@[simp] theorem State.siteEdit_zones (s : State) (k : Nat) (f : Site → Site) : (s.siteEdit k f).zones = s.zones := rfl
@[simp] theorem State.siteEdit_gate (s : State) (k : Nat) (f : Site → Site) : (s.siteEdit k f).gate = s.gate := rfl
@[simp] theorem State.siteEdit_staging (s : State) (k : Nat) (f : Site → Site) : (s.siteEdit k f).staging = s.staging := rfl
@[simp] theorem State.siteEdit_toks (s : State) (k : Nat) (f : Site → Site) : (s.siteEdit k f).toks = s.toks := rfl
@[simp] theorem State.siteEdit_bpm (s : State) (k : Nat) (f : Site → Site) : (s.siteEdit k f).bpm = s.bpm := rfl
@[simp] theorem State.siteEdit_dma (s : State) (k : Nat) (f : Site → Site) : (s.siteEdit k f).dma = s.dma := rfl
@[simp] theorem State.siteEdit_sward (s : State) (k : Nat) (f : Site → Site) : (s.siteEdit k f).sward = s.sward := rfl
@[simp] theorem State.siteEdit_blocks (s : State) (k : Nat) (f : Site → Site) : (s.siteEdit k f).blocks = s.blocks := rfl
@[simp] theorem State.siteEdit_dies (s : State) (k : Nat) (f : Site → Site) : (s.siteEdit k f).dies = s.dies := rfl
@[simp] theorem State.siteEdit_flash (s : State) (k : Nat) (f : Site → Site) : (s.siteEdit k f).flash = s.flash := rfl
@[simp] theorem State.siteEdit_fch (s : State) (k : Nat) (f : Site → Site) : (s.siteEdit k f).fch = s.fch := rfl
@[simp] theorem State.siteEdit_zne (s : State) (k : Nat) (f : Site → Site) : (s.siteEdit k f).zne = s.zne := rfl
@[simp] theorem State.siteEdit_par (s : State) (k : Nat) (f : Site → Site) : (s.siteEdit k f).par = s.par := rfl
@[simp] theorem State.siteEdit_lat (s : State) (k : Nat) (f : Site → Site) : (s.siteEdit k f).lat = s.lat := rfl
@[simp] theorem State.siteEdit_drc (s : State) (k : Nat) (f : Site → Site) : (s.siteEdit k f).drc = s.drc := rfl
@[simp] theorem State.siteEdit_ecc (s : State) (k : Nat) (f : Site → Site) : (s.siteEdit k f).ecc = s.ecc := rfl
@[simp] theorem State.siteEdit_key (s : State) (k : Nat) (f : Site → Site) : (s.siteEdit k f).key = s.key := rfl
@[simp] theorem State.siteEdit_cas (s : State) (k : Nat) (f : Site → Site) : (s.siteEdit k f).cas = s.cas := rfl
@[simp] theorem State.siteEdit_mtr (s : State) (k : Nat) (f : Site → Site) : (s.siteEdit k f).mtr = s.mtr := rfl
@[simp] theorem State.siteEdit_pwr (s : State) (k : Nat) (f : Site → Site) : (s.siteEdit k f).pwr = s.pwr := rfl
@[simp] theorem State.siteEdit_brm (s : State) (k : Nat) (f : Site → Site) : (s.siteEdit k f).brm = s.brm := rfl
@[simp] theorem State.siteEdit_thm (s : State) (k : Nat) (f : Site → Site) : (s.siteEdit k f).thm = { s.thm with sites := s.thm.sites.upd k {} f } := rfl
@[simp] theorem State.siteEdit_mon (s : State) (k : Nat) (f : Site → Site) : (s.siteEdit k f).mon = s.mon := rfl
@[simp] theorem State.siteEdit_upd (s : State) (k : Nat) (f : Site → Site) : (s.siteEdit k f).upd = s.upd := rfl
@[simp] theorem State.siteEdit_nv (s : State) (k : Nat) (f : Site → Site) : (s.siteEdit k f).nv = s.nv := rfl
@[simp] theorem State.siteEdit_efl (s : State) (k : Nat) (f : Site → Site) : (s.siteEdit k f).efl = s.efl := rfl
@[simp] theorem State.siteEdit_evt (s : State) (k : Nat) (f : Site → Site) : (s.siteEdit k f).evt = s.evt := rfl
@[simp] theorem State.siteEdit_log (s : State) (k : Nat) (f : Site → Site) : (s.siteEdit k f).log = s.log := rfl
@[simp] theorem State.siteEdit_side (s : State) (k : Nat) (f : Site → Site) : (s.siteEdit k f).side = s.side := rfl

/-! ### regionEdit -/

@[simp] theorem State.regionEdit_pending (s : State) (r : Nat) (f : Region → Region) : (s.regionEdit r f).pending = s.pending := rfl
@[simp] theorem State.regionEdit_now (s : State) (r : Nat) (f : Region → Region) : (s.regionEdit r f).now = s.now := rfl
@[simp] theorem State.regionEdit_free (s : State) (r : Nat) (f : Region → Region) : (s.regionEdit r f).free = s.free := rfl
@[simp] theorem State.regionEdit_out (s : State) (r : Nat) (f : Region → Region) : (s.regionEdit r f).out = s.out := rfl
@[simp] theorem State.regionEdit_img (s : State) (r : Nat) (f : Region → Region) : (s.regionEdit r f).img = s.img := rfl
@[simp] theorem State.regionEdit_manifest (s : State) (r : Nat) (f : Region → Region) : (s.regionEdit r f).manifest = s.manifest := rfl
@[simp] theorem State.regionEdit_pci (s : State) (r : Nat) (f : Region → Region) : (s.regionEdit r f).pci = s.pci := rfl
@[simp] theorem State.regionEdit_nvme (s : State) (r : Nat) (f : Region → Region) : (s.regionEdit r f).nvme = s.nvme := rfl
@[simp] theorem State.regionEdit_sqs (s : State) (r : Nat) (f : Region → Region) : (s.regionEdit r f).sqs = s.sqs := rfl
@[simp] theorem State.regionEdit_cqs (s : State) (r : Nat) (f : Region → Region) : (s.regionEdit r f).cqs = s.cqs := rfl
@[simp] theorem State.regionEdit_qrecs (s : State) (r : Nat) (f : Region → Region) : (s.regionEdit r f).qrecs = s.qrecs := rfl
@[simp] theorem State.regionEdit_ctxs (s : State) (r : Nat) (f : Region → Region) : (s.regionEdit r f).ctxs = s.ctxs := rfl
@[simp] theorem State.regionEdit_slices (s : State) (r : Nat) (f : Region → Region) : (s.regionEdit r f).slices = s.slices := rfl
@[simp] theorem State.regionEdit_nss (s : State) (r : Nat) (f : Region → Region) : (s.regionEdit r f).nss = s.nss := rfl
@[simp] theorem State.regionEdit_zones (s : State) (r : Nat) (f : Region → Region) : (s.regionEdit r f).zones = s.zones := rfl
@[simp] theorem State.regionEdit_gate (s : State) (r : Nat) (f : Region → Region) : (s.regionEdit r f).gate = s.gate := rfl
@[simp] theorem State.regionEdit_staging (s : State) (r : Nat) (f : Region → Region) : (s.regionEdit r f).staging = s.staging := rfl
@[simp] theorem State.regionEdit_toks (s : State) (r : Nat) (f : Region → Region) : (s.regionEdit r f).toks = s.toks := rfl
@[simp] theorem State.regionEdit_bpm (s : State) (r : Nat) (f : Region → Region) : (s.regionEdit r f).bpm = s.bpm := rfl
@[simp] theorem State.regionEdit_dma (s : State) (r : Nat) (f : Region → Region) : (s.regionEdit r f).dma = s.dma := rfl
@[simp] theorem State.regionEdit_sward (s : State) (r : Nat) (f : Region → Region) : (s.regionEdit r f).sward = s.sward := rfl
@[simp] theorem State.regionEdit_blocks (s : State) (r : Nat) (f : Region → Region) : (s.regionEdit r f).blocks = s.blocks := rfl
@[simp] theorem State.regionEdit_dies (s : State) (r : Nat) (f : Region → Region) : (s.regionEdit r f).dies = s.dies := rfl
@[simp] theorem State.regionEdit_flash (s : State) (r : Nat) (f : Region → Region) : (s.regionEdit r f).flash = s.flash := rfl
@[simp] theorem State.regionEdit_fch (s : State) (r : Nat) (f : Region → Region) : (s.regionEdit r f).fch = s.fch := rfl
@[simp] theorem State.regionEdit_zne (s : State) (r : Nat) (f : Region → Region) : (s.regionEdit r f).zne = s.zne := rfl
@[simp] theorem State.regionEdit_par (s : State) (r : Nat) (f : Region → Region) : (s.regionEdit r f).par = s.par := rfl
@[simp] theorem State.regionEdit_lat (s : State) (r : Nat) (f : Region → Region) : (s.regionEdit r f).lat = s.lat := rfl
@[simp] theorem State.regionEdit_drc (s : State) (r : Nat) (f : Region → Region) : (s.regionEdit r f).drc = s.drc := rfl
@[simp] theorem State.regionEdit_ecc (s : State) (r : Nat) (f : Region → Region) : (s.regionEdit r f).ecc = s.ecc := rfl
@[simp] theorem State.regionEdit_key (s : State) (r : Nat) (f : Region → Region) : (s.regionEdit r f).key = s.key := rfl
@[simp] theorem State.regionEdit_cas (s : State) (r : Nat) (f : Region → Region) : (s.regionEdit r f).cas = s.cas := rfl
@[simp] theorem State.regionEdit_mtr (s : State) (r : Nat) (f : Region → Region) : (s.regionEdit r f).mtr = s.mtr := rfl
@[simp] theorem State.regionEdit_pwr (s : State) (r : Nat) (f : Region → Region) : (s.regionEdit r f).pwr = s.pwr := rfl
@[simp] theorem State.regionEdit_brm (s : State) (r : Nat) (f : Region → Region) : (s.regionEdit r f).brm = s.brm := rfl
@[simp] theorem State.regionEdit_thm (s : State) (r : Nat) (f : Region → Region) : (s.regionEdit r f).thm = { s.thm with regions := s.thm.regions.upd r {} f } := rfl
@[simp] theorem State.regionEdit_mon (s : State) (r : Nat) (f : Region → Region) : (s.regionEdit r f).mon = s.mon := rfl
@[simp] theorem State.regionEdit_upd (s : State) (r : Nat) (f : Region → Region) : (s.regionEdit r f).upd = s.upd := rfl
@[simp] theorem State.regionEdit_nv (s : State) (r : Nat) (f : Region → Region) : (s.regionEdit r f).nv = s.nv := rfl
@[simp] theorem State.regionEdit_efl (s : State) (r : Nat) (f : Region → Region) : (s.regionEdit r f).efl = s.efl := rfl
@[simp] theorem State.regionEdit_evt (s : State) (r : Nat) (f : Region → Region) : (s.regionEdit r f).evt = s.evt := rfl
@[simp] theorem State.regionEdit_log (s : State) (r : Nat) (f : Region → Region) : (s.regionEdit r f).log = s.log := rfl
@[simp] theorem State.regionEdit_side (s : State) (r : Nat) (f : Region → Region) : (s.regionEdit r f).side = s.side := rfl

/-! ### dieEdit -/

@[simp] theorem State.dieEdit_pending (s : State) (d : Nat) (f : Die → Die) : (s.dieEdit d f).pending = s.pending := rfl
@[simp] theorem State.dieEdit_now (s : State) (d : Nat) (f : Die → Die) : (s.dieEdit d f).now = s.now := rfl
@[simp] theorem State.dieEdit_free (s : State) (d : Nat) (f : Die → Die) : (s.dieEdit d f).free = s.free := rfl
@[simp] theorem State.dieEdit_out (s : State) (d : Nat) (f : Die → Die) : (s.dieEdit d f).out = s.out := rfl
@[simp] theorem State.dieEdit_img (s : State) (d : Nat) (f : Die → Die) : (s.dieEdit d f).img = s.img := rfl
@[simp] theorem State.dieEdit_manifest (s : State) (d : Nat) (f : Die → Die) : (s.dieEdit d f).manifest = s.manifest := rfl
@[simp] theorem State.dieEdit_pci (s : State) (d : Nat) (f : Die → Die) : (s.dieEdit d f).pci = s.pci := rfl
@[simp] theorem State.dieEdit_nvme (s : State) (d : Nat) (f : Die → Die) : (s.dieEdit d f).nvme = s.nvme := rfl
@[simp] theorem State.dieEdit_sqs (s : State) (d : Nat) (f : Die → Die) : (s.dieEdit d f).sqs = s.sqs := rfl
@[simp] theorem State.dieEdit_cqs (s : State) (d : Nat) (f : Die → Die) : (s.dieEdit d f).cqs = s.cqs := rfl
@[simp] theorem State.dieEdit_qrecs (s : State) (d : Nat) (f : Die → Die) : (s.dieEdit d f).qrecs = s.qrecs := rfl
@[simp] theorem State.dieEdit_ctxs (s : State) (d : Nat) (f : Die → Die) : (s.dieEdit d f).ctxs = s.ctxs := rfl
@[simp] theorem State.dieEdit_slices (s : State) (d : Nat) (f : Die → Die) : (s.dieEdit d f).slices = s.slices := rfl
@[simp] theorem State.dieEdit_nss (s : State) (d : Nat) (f : Die → Die) : (s.dieEdit d f).nss = s.nss := rfl
@[simp] theorem State.dieEdit_zones (s : State) (d : Nat) (f : Die → Die) : (s.dieEdit d f).zones = s.zones := rfl
@[simp] theorem State.dieEdit_gate (s : State) (d : Nat) (f : Die → Die) : (s.dieEdit d f).gate = s.gate := rfl
@[simp] theorem State.dieEdit_staging (s : State) (d : Nat) (f : Die → Die) : (s.dieEdit d f).staging = s.staging := rfl
@[simp] theorem State.dieEdit_toks (s : State) (d : Nat) (f : Die → Die) : (s.dieEdit d f).toks = s.toks := rfl
@[simp] theorem State.dieEdit_bpm (s : State) (d : Nat) (f : Die → Die) : (s.dieEdit d f).bpm = s.bpm := rfl
@[simp] theorem State.dieEdit_dma (s : State) (d : Nat) (f : Die → Die) : (s.dieEdit d f).dma = s.dma := rfl
@[simp] theorem State.dieEdit_sward (s : State) (d : Nat) (f : Die → Die) : (s.dieEdit d f).sward = s.sward := rfl
@[simp] theorem State.dieEdit_blocks (s : State) (d : Nat) (f : Die → Die) : (s.dieEdit d f).blocks = s.blocks := rfl
@[simp] theorem State.dieEdit_dies (s : State) (d : Nat) (f : Die → Die) : (s.dieEdit d f).dies = s.dies.edit d f := rfl
@[simp] theorem State.dieEdit_flash (s : State) (d : Nat) (f : Die → Die) : (s.dieEdit d f).flash = s.flash := rfl
@[simp] theorem State.dieEdit_fch (s : State) (d : Nat) (f : Die → Die) : (s.dieEdit d f).fch = s.fch := rfl
@[simp] theorem State.dieEdit_zne (s : State) (d : Nat) (f : Die → Die) : (s.dieEdit d f).zne = s.zne := rfl
@[simp] theorem State.dieEdit_par (s : State) (d : Nat) (f : Die → Die) : (s.dieEdit d f).par = s.par := rfl
@[simp] theorem State.dieEdit_lat (s : State) (d : Nat) (f : Die → Die) : (s.dieEdit d f).lat = s.lat := rfl
@[simp] theorem State.dieEdit_drc (s : State) (d : Nat) (f : Die → Die) : (s.dieEdit d f).drc = s.drc := rfl
@[simp] theorem State.dieEdit_ecc (s : State) (d : Nat) (f : Die → Die) : (s.dieEdit d f).ecc = s.ecc := rfl
@[simp] theorem State.dieEdit_key (s : State) (d : Nat) (f : Die → Die) : (s.dieEdit d f).key = s.key := rfl
@[simp] theorem State.dieEdit_cas (s : State) (d : Nat) (f : Die → Die) : (s.dieEdit d f).cas = s.cas := rfl
@[simp] theorem State.dieEdit_mtr (s : State) (d : Nat) (f : Die → Die) : (s.dieEdit d f).mtr = s.mtr := rfl
@[simp] theorem State.dieEdit_pwr (s : State) (d : Nat) (f : Die → Die) : (s.dieEdit d f).pwr = s.pwr := rfl
@[simp] theorem State.dieEdit_brm (s : State) (d : Nat) (f : Die → Die) : (s.dieEdit d f).brm = s.brm := rfl
@[simp] theorem State.dieEdit_thm (s : State) (d : Nat) (f : Die → Die) : (s.dieEdit d f).thm = s.thm := rfl
@[simp] theorem State.dieEdit_mon (s : State) (d : Nat) (f : Die → Die) : (s.dieEdit d f).mon = s.mon := rfl
@[simp] theorem State.dieEdit_upd (s : State) (d : Nat) (f : Die → Die) : (s.dieEdit d f).upd = s.upd := rfl
@[simp] theorem State.dieEdit_nv (s : State) (d : Nat) (f : Die → Die) : (s.dieEdit d f).nv = s.nv := rfl
@[simp] theorem State.dieEdit_efl (s : State) (d : Nat) (f : Die → Die) : (s.dieEdit d f).efl = s.efl := rfl
@[simp] theorem State.dieEdit_evt (s : State) (d : Nat) (f : Die → Die) : (s.dieEdit d f).evt = s.evt := rfl
@[simp] theorem State.dieEdit_log (s : State) (d : Nat) (f : Die → Die) : (s.dieEdit d f).log = s.log := rfl
@[simp] theorem State.dieEdit_side (s : State) (d : Nat) (f : Die → Die) : (s.dieEdit d f).side = s.side := rfl

/-! ### blkEdit -/

@[simp] theorem State.blkEdit_pending (s : State) (k : Nat) (f : BInfo → BInfo) : (s.blkEdit k f).pending = s.pending := rfl
@[simp] theorem State.blkEdit_now (s : State) (k : Nat) (f : BInfo → BInfo) : (s.blkEdit k f).now = s.now := rfl
@[simp] theorem State.blkEdit_free (s : State) (k : Nat) (f : BInfo → BInfo) : (s.blkEdit k f).free = s.free := rfl
@[simp] theorem State.blkEdit_out (s : State) (k : Nat) (f : BInfo → BInfo) : (s.blkEdit k f).out = s.out := rfl
@[simp] theorem State.blkEdit_img (s : State) (k : Nat) (f : BInfo → BInfo) : (s.blkEdit k f).img = s.img := rfl
@[simp] theorem State.blkEdit_manifest (s : State) (k : Nat) (f : BInfo → BInfo) : (s.blkEdit k f).manifest = s.manifest := rfl
@[simp] theorem State.blkEdit_pci (s : State) (k : Nat) (f : BInfo → BInfo) : (s.blkEdit k f).pci = s.pci := rfl
@[simp] theorem State.blkEdit_nvme (s : State) (k : Nat) (f : BInfo → BInfo) : (s.blkEdit k f).nvme = s.nvme := rfl
@[simp] theorem State.blkEdit_sqs (s : State) (k : Nat) (f : BInfo → BInfo) : (s.blkEdit k f).sqs = s.sqs := rfl
@[simp] theorem State.blkEdit_cqs (s : State) (k : Nat) (f : BInfo → BInfo) : (s.blkEdit k f).cqs = s.cqs := rfl
@[simp] theorem State.blkEdit_qrecs (s : State) (k : Nat) (f : BInfo → BInfo) : (s.blkEdit k f).qrecs = s.qrecs := rfl
@[simp] theorem State.blkEdit_ctxs (s : State) (k : Nat) (f : BInfo → BInfo) : (s.blkEdit k f).ctxs = s.ctxs := rfl
@[simp] theorem State.blkEdit_slices (s : State) (k : Nat) (f : BInfo → BInfo) : (s.blkEdit k f).slices = s.slices := rfl
@[simp] theorem State.blkEdit_nss (s : State) (k : Nat) (f : BInfo → BInfo) : (s.blkEdit k f).nss = s.nss := rfl
@[simp] theorem State.blkEdit_zones (s : State) (k : Nat) (f : BInfo → BInfo) : (s.blkEdit k f).zones = s.zones := rfl
@[simp] theorem State.blkEdit_gate (s : State) (k : Nat) (f : BInfo → BInfo) : (s.blkEdit k f).gate = s.gate := rfl
@[simp] theorem State.blkEdit_staging (s : State) (k : Nat) (f : BInfo → BInfo) : (s.blkEdit k f).staging = s.staging := rfl
@[simp] theorem State.blkEdit_toks (s : State) (k : Nat) (f : BInfo → BInfo) : (s.blkEdit k f).toks = s.toks := rfl
@[simp] theorem State.blkEdit_bpm (s : State) (k : Nat) (f : BInfo → BInfo) : (s.blkEdit k f).bpm = s.bpm := rfl
@[simp] theorem State.blkEdit_dma (s : State) (k : Nat) (f : BInfo → BInfo) : (s.blkEdit k f).dma = s.dma := rfl
@[simp] theorem State.blkEdit_sward (s : State) (k : Nat) (f : BInfo → BInfo) : (s.blkEdit k f).sward = s.sward := rfl
@[simp] theorem State.blkEdit_blocks (s : State) (k : Nat) (f : BInfo → BInfo) : (s.blkEdit k f).blocks = s.blocks.upd k {} f := rfl
@[simp] theorem State.blkEdit_dies (s : State) (k : Nat) (f : BInfo → BInfo) : (s.blkEdit k f).dies = s.dies := rfl
@[simp] theorem State.blkEdit_flash (s : State) (k : Nat) (f : BInfo → BInfo) : (s.blkEdit k f).flash = s.flash := rfl
@[simp] theorem State.blkEdit_fch (s : State) (k : Nat) (f : BInfo → BInfo) : (s.blkEdit k f).fch = s.fch := rfl
@[simp] theorem State.blkEdit_zne (s : State) (k : Nat) (f : BInfo → BInfo) : (s.blkEdit k f).zne = s.zne := rfl
@[simp] theorem State.blkEdit_par (s : State) (k : Nat) (f : BInfo → BInfo) : (s.blkEdit k f).par = s.par := rfl
@[simp] theorem State.blkEdit_lat (s : State) (k : Nat) (f : BInfo → BInfo) : (s.blkEdit k f).lat = s.lat := rfl
@[simp] theorem State.blkEdit_drc (s : State) (k : Nat) (f : BInfo → BInfo) : (s.blkEdit k f).drc = s.drc := rfl
@[simp] theorem State.blkEdit_ecc (s : State) (k : Nat) (f : BInfo → BInfo) : (s.blkEdit k f).ecc = s.ecc := rfl
@[simp] theorem State.blkEdit_key (s : State) (k : Nat) (f : BInfo → BInfo) : (s.blkEdit k f).key = s.key := rfl
@[simp] theorem State.blkEdit_cas (s : State) (k : Nat) (f : BInfo → BInfo) : (s.blkEdit k f).cas = s.cas := rfl
@[simp] theorem State.blkEdit_mtr (s : State) (k : Nat) (f : BInfo → BInfo) : (s.blkEdit k f).mtr = s.mtr := rfl
@[simp] theorem State.blkEdit_pwr (s : State) (k : Nat) (f : BInfo → BInfo) : (s.blkEdit k f).pwr = s.pwr := rfl
@[simp] theorem State.blkEdit_brm (s : State) (k : Nat) (f : BInfo → BInfo) : (s.blkEdit k f).brm = s.brm := rfl
@[simp] theorem State.blkEdit_thm (s : State) (k : Nat) (f : BInfo → BInfo) : (s.blkEdit k f).thm = s.thm := rfl
@[simp] theorem State.blkEdit_mon (s : State) (k : Nat) (f : BInfo → BInfo) : (s.blkEdit k f).mon = s.mon := rfl
@[simp] theorem State.blkEdit_upd (s : State) (k : Nat) (f : BInfo → BInfo) : (s.blkEdit k f).upd = s.upd := rfl
@[simp] theorem State.blkEdit_nv (s : State) (k : Nat) (f : BInfo → BInfo) : (s.blkEdit k f).nv = s.nv := rfl
@[simp] theorem State.blkEdit_efl (s : State) (k : Nat) (f : BInfo → BInfo) : (s.blkEdit k f).efl = s.efl := rfl
@[simp] theorem State.blkEdit_evt (s : State) (k : Nat) (f : BInfo → BInfo) : (s.blkEdit k f).evt = s.evt := rfl
@[simp] theorem State.blkEdit_log (s : State) (k : Nat) (f : BInfo → BInfo) : (s.blkEdit k f).log = s.log := rfl
@[simp] theorem State.blkEdit_side (s : State) (k : Nat) (f : BInfo → BInfo) : (s.blkEdit k f).side = s.side := rfl

/-! ### opEdit -/

@[simp] theorem State.opEdit_pending (s : State) (i : Nat) (f : Op → Op) : (s.opEdit i f).pending = s.pending := rfl
@[simp] theorem State.opEdit_now (s : State) (i : Nat) (f : Op → Op) : (s.opEdit i f).now = s.now := rfl
@[simp] theorem State.opEdit_free (s : State) (i : Nat) (f : Op → Op) : (s.opEdit i f).free = s.free := rfl
@[simp] theorem State.opEdit_out (s : State) (i : Nat) (f : Op → Op) : (s.opEdit i f).out = s.out := rfl
@[simp] theorem State.opEdit_img (s : State) (i : Nat) (f : Op → Op) : (s.opEdit i f).img = s.img := rfl
@[simp] theorem State.opEdit_manifest (s : State) (i : Nat) (f : Op → Op) : (s.opEdit i f).manifest = s.manifest := rfl
@[simp] theorem State.opEdit_pci (s : State) (i : Nat) (f : Op → Op) : (s.opEdit i f).pci = s.pci := rfl
@[simp] theorem State.opEdit_nvme (s : State) (i : Nat) (f : Op → Op) : (s.opEdit i f).nvme = s.nvme := rfl
@[simp] theorem State.opEdit_sqs (s : State) (i : Nat) (f : Op → Op) : (s.opEdit i f).sqs = s.sqs := rfl
@[simp] theorem State.opEdit_cqs (s : State) (i : Nat) (f : Op → Op) : (s.opEdit i f).cqs = s.cqs := rfl
@[simp] theorem State.opEdit_qrecs (s : State) (i : Nat) (f : Op → Op) : (s.opEdit i f).qrecs = s.qrecs := rfl
@[simp] theorem State.opEdit_ctxs (s : State) (i : Nat) (f : Op → Op) : (s.opEdit i f).ctxs = s.ctxs := rfl
@[simp] theorem State.opEdit_slices (s : State) (i : Nat) (f : Op → Op) : (s.opEdit i f).slices = s.slices := rfl
@[simp] theorem State.opEdit_nss (s : State) (i : Nat) (f : Op → Op) : (s.opEdit i f).nss = s.nss := rfl
@[simp] theorem State.opEdit_zones (s : State) (i : Nat) (f : Op → Op) : (s.opEdit i f).zones = s.zones := rfl
@[simp] theorem State.opEdit_gate (s : State) (i : Nat) (f : Op → Op) : (s.opEdit i f).gate = s.gate := rfl
@[simp] theorem State.opEdit_staging (s : State) (i : Nat) (f : Op → Op) : (s.opEdit i f).staging = s.staging := rfl
@[simp] theorem State.opEdit_toks (s : State) (i : Nat) (f : Op → Op) : (s.opEdit i f).toks = s.toks := rfl
@[simp] theorem State.opEdit_bpm (s : State) (i : Nat) (f : Op → Op) : (s.opEdit i f).bpm = s.bpm := rfl
@[simp] theorem State.opEdit_dma (s : State) (i : Nat) (f : Op → Op) : (s.opEdit i f).dma = s.dma := rfl
@[simp] theorem State.opEdit_sward (s : State) (i : Nat) (f : Op → Op) : (s.opEdit i f).sward = s.sward := rfl
@[simp] theorem State.opEdit_blocks (s : State) (i : Nat) (f : Op → Op) : (s.opEdit i f).blocks = s.blocks := rfl
@[simp] theorem State.opEdit_dies (s : State) (i : Nat) (f : Op → Op) : (s.opEdit i f).dies = s.dies := rfl
@[simp] theorem State.opEdit_flash (s : State) (i : Nat) (f : Op → Op) : (s.opEdit i f).flash = s.flash := rfl
@[simp] theorem State.opEdit_fch (s : State) (i : Nat) (f : Op → Op) : (s.opEdit i f).fch = { s.fch with ops := s.fch.ops.edit i f } := rfl
@[simp] theorem State.opEdit_zne (s : State) (i : Nat) (f : Op → Op) : (s.opEdit i f).zne = s.zne := rfl
@[simp] theorem State.opEdit_par (s : State) (i : Nat) (f : Op → Op) : (s.opEdit i f).par = s.par := rfl
@[simp] theorem State.opEdit_lat (s : State) (i : Nat) (f : Op → Op) : (s.opEdit i f).lat = s.lat := rfl
@[simp] theorem State.opEdit_drc (s : State) (i : Nat) (f : Op → Op) : (s.opEdit i f).drc = s.drc := rfl
@[simp] theorem State.opEdit_ecc (s : State) (i : Nat) (f : Op → Op) : (s.opEdit i f).ecc = s.ecc := rfl
@[simp] theorem State.opEdit_key (s : State) (i : Nat) (f : Op → Op) : (s.opEdit i f).key = s.key := rfl
@[simp] theorem State.opEdit_cas (s : State) (i : Nat) (f : Op → Op) : (s.opEdit i f).cas = s.cas := rfl
@[simp] theorem State.opEdit_mtr (s : State) (i : Nat) (f : Op → Op) : (s.opEdit i f).mtr = s.mtr := rfl
@[simp] theorem State.opEdit_pwr (s : State) (i : Nat) (f : Op → Op) : (s.opEdit i f).pwr = s.pwr := rfl
@[simp] theorem State.opEdit_brm (s : State) (i : Nat) (f : Op → Op) : (s.opEdit i f).brm = s.brm := rfl
@[simp] theorem State.opEdit_thm (s : State) (i : Nat) (f : Op → Op) : (s.opEdit i f).thm = s.thm := rfl
@[simp] theorem State.opEdit_mon (s : State) (i : Nat) (f : Op → Op) : (s.opEdit i f).mon = s.mon := rfl
@[simp] theorem State.opEdit_upd (s : State) (i : Nat) (f : Op → Op) : (s.opEdit i f).upd = s.upd := rfl
@[simp] theorem State.opEdit_nv (s : State) (i : Nat) (f : Op → Op) : (s.opEdit i f).nv = s.nv := rfl
@[simp] theorem State.opEdit_efl (s : State) (i : Nat) (f : Op → Op) : (s.opEdit i f).efl = s.efl := rfl
@[simp] theorem State.opEdit_evt (s : State) (i : Nat) (f : Op → Op) : (s.opEdit i f).evt = s.evt := rfl
@[simp] theorem State.opEdit_log (s : State) (i : Nat) (f : Op → Op) : (s.opEdit i f).log = s.log := rfl
@[simp] theorem State.opEdit_side (s : State) (i : Nat) (f : Op → Op) : (s.opEdit i f).side = s.side := rfl

/-! ### chnEdit -/

@[simp] theorem State.chnEdit_pending (s : State) (c : Nat) (f : Chn → Chn) : (s.chnEdit c f).pending = s.pending := rfl
@[simp] theorem State.chnEdit_now (s : State) (c : Nat) (f : Chn → Chn) : (s.chnEdit c f).now = s.now := rfl
@[simp] theorem State.chnEdit_free (s : State) (c : Nat) (f : Chn → Chn) : (s.chnEdit c f).free = s.free := rfl
@[simp] theorem State.chnEdit_out (s : State) (c : Nat) (f : Chn → Chn) : (s.chnEdit c f).out = s.out := rfl
@[simp] theorem State.chnEdit_img (s : State) (c : Nat) (f : Chn → Chn) : (s.chnEdit c f).img = s.img := rfl
@[simp] theorem State.chnEdit_manifest (s : State) (c : Nat) (f : Chn → Chn) : (s.chnEdit c f).manifest = s.manifest := rfl
@[simp] theorem State.chnEdit_pci (s : State) (c : Nat) (f : Chn → Chn) : (s.chnEdit c f).pci = s.pci := rfl
@[simp] theorem State.chnEdit_nvme (s : State) (c : Nat) (f : Chn → Chn) : (s.chnEdit c f).nvme = s.nvme := rfl
@[simp] theorem State.chnEdit_sqs (s : State) (c : Nat) (f : Chn → Chn) : (s.chnEdit c f).sqs = s.sqs := rfl
@[simp] theorem State.chnEdit_cqs (s : State) (c : Nat) (f : Chn → Chn) : (s.chnEdit c f).cqs = s.cqs := rfl
@[simp] theorem State.chnEdit_qrecs (s : State) (c : Nat) (f : Chn → Chn) : (s.chnEdit c f).qrecs = s.qrecs := rfl
@[simp] theorem State.chnEdit_ctxs (s : State) (c : Nat) (f : Chn → Chn) : (s.chnEdit c f).ctxs = s.ctxs := rfl
@[simp] theorem State.chnEdit_slices (s : State) (c : Nat) (f : Chn → Chn) : (s.chnEdit c f).slices = s.slices := rfl
@[simp] theorem State.chnEdit_nss (s : State) (c : Nat) (f : Chn → Chn) : (s.chnEdit c f).nss = s.nss := rfl
@[simp] theorem State.chnEdit_zones (s : State) (c : Nat) (f : Chn → Chn) : (s.chnEdit c f).zones = s.zones := rfl
@[simp] theorem State.chnEdit_gate (s : State) (c : Nat) (f : Chn → Chn) : (s.chnEdit c f).gate = s.gate := rfl
@[simp] theorem State.chnEdit_staging (s : State) (c : Nat) (f : Chn → Chn) : (s.chnEdit c f).staging = s.staging := rfl
@[simp] theorem State.chnEdit_toks (s : State) (c : Nat) (f : Chn → Chn) : (s.chnEdit c f).toks = s.toks := rfl
@[simp] theorem State.chnEdit_bpm (s : State) (c : Nat) (f : Chn → Chn) : (s.chnEdit c f).bpm = s.bpm := rfl
@[simp] theorem State.chnEdit_dma (s : State) (c : Nat) (f : Chn → Chn) : (s.chnEdit c f).dma = s.dma := rfl
@[simp] theorem State.chnEdit_sward (s : State) (c : Nat) (f : Chn → Chn) : (s.chnEdit c f).sward = s.sward := rfl
@[simp] theorem State.chnEdit_blocks (s : State) (c : Nat) (f : Chn → Chn) : (s.chnEdit c f).blocks = s.blocks := rfl
@[simp] theorem State.chnEdit_dies (s : State) (c : Nat) (f : Chn → Chn) : (s.chnEdit c f).dies = s.dies := rfl
@[simp] theorem State.chnEdit_flash (s : State) (c : Nat) (f : Chn → Chn) : (s.chnEdit c f).flash = s.flash := rfl
@[simp] theorem State.chnEdit_fch (s : State) (c : Nat) (f : Chn → Chn) : (s.chnEdit c f).fch = { s.fch with chans := s.fch.chans.upd c {} f } := rfl
@[simp] theorem State.chnEdit_zne (s : State) (c : Nat) (f : Chn → Chn) : (s.chnEdit c f).zne = s.zne := rfl
@[simp] theorem State.chnEdit_par (s : State) (c : Nat) (f : Chn → Chn) : (s.chnEdit c f).par = s.par := rfl
@[simp] theorem State.chnEdit_lat (s : State) (c : Nat) (f : Chn → Chn) : (s.chnEdit c f).lat = s.lat := rfl
@[simp] theorem State.chnEdit_drc (s : State) (c : Nat) (f : Chn → Chn) : (s.chnEdit c f).drc = s.drc := rfl
@[simp] theorem State.chnEdit_ecc (s : State) (c : Nat) (f : Chn → Chn) : (s.chnEdit c f).ecc = s.ecc := rfl
@[simp] theorem State.chnEdit_key (s : State) (c : Nat) (f : Chn → Chn) : (s.chnEdit c f).key = s.key := rfl
@[simp] theorem State.chnEdit_cas (s : State) (c : Nat) (f : Chn → Chn) : (s.chnEdit c f).cas = s.cas := rfl
@[simp] theorem State.chnEdit_mtr (s : State) (c : Nat) (f : Chn → Chn) : (s.chnEdit c f).mtr = s.mtr := rfl
@[simp] theorem State.chnEdit_pwr (s : State) (c : Nat) (f : Chn → Chn) : (s.chnEdit c f).pwr = s.pwr := rfl
@[simp] theorem State.chnEdit_brm (s : State) (c : Nat) (f : Chn → Chn) : (s.chnEdit c f).brm = s.brm := rfl
@[simp] theorem State.chnEdit_thm (s : State) (c : Nat) (f : Chn → Chn) : (s.chnEdit c f).thm = s.thm := rfl
@[simp] theorem State.chnEdit_mon (s : State) (c : Nat) (f : Chn → Chn) : (s.chnEdit c f).mon = s.mon := rfl
@[simp] theorem State.chnEdit_upd (s : State) (c : Nat) (f : Chn → Chn) : (s.chnEdit c f).upd = s.upd := rfl
@[simp] theorem State.chnEdit_nv (s : State) (c : Nat) (f : Chn → Chn) : (s.chnEdit c f).nv = s.nv := rfl
@[simp] theorem State.chnEdit_efl (s : State) (c : Nat) (f : Chn → Chn) : (s.chnEdit c f).efl = s.efl := rfl
@[simp] theorem State.chnEdit_evt (s : State) (c : Nat) (f : Chn → Chn) : (s.chnEdit c f).evt = s.evt := rfl
@[simp] theorem State.chnEdit_log (s : State) (c : Nat) (f : Chn → Chn) : (s.chnEdit c f).log = s.log := rfl
@[simp] theorem State.chnEdit_side (s : State) (c : Nat) (f : Chn → Chn) : (s.chnEdit c f).side = s.side := rfl

end Sys2Proof.Machine
end

