-- ==== Sys2Proof/Laws/Updates.lean ====
section
/-! SUPPORT. The staging slot, commits, the PLDM session and the boot's choice of a slot (R410, R438 to R447). -/

-- One theorem after another: side by side they need more threads than the memory limit allows.
set_option Elab.async false

namespace Sys2Proof.Laws

open Sys2Proof Sys2Proof.Machine Sys2Proof.Safety

theorem nv_same (u : State) (n : Nv) : Same [.nv] u { u with nv := n } := by intro p hp; cases p <;> first | rfl | simp at hp

theorem fire_nv (s : State) (k a c o st) : (s.fire k a c o st).nv = s.nv ∧ (s.fire k a c o st).ctxs = s.ctxs ∧ (s.fire k a c o st).cas = s.cas ∧ (s.fire k a c o st).upd = s.upd :=
  ⟨(State.fire_law _ _ _ _ _ _).same .nv (by decide), (State.fire_law _ _ _ _ _ _).same .ctxs (by decide), (State.fire_law _ _ _ _ _ _).same .cas (by decide), (State.fire_law _ _ _ _ _ _).same .upd (by decide)⟩

theorem finish_nv (s : State) (c st) : (s.finish c st).nv = s.nv ∧ (s.finish c st).upd = s.upd := ⟨(State.finish_law _ _ _ _ _ _).same .nv (by decide), (State.finish_law _ _ _ _ _ _).same .upd (by decide)⟩

theorem finish_ctx (s : State) (c) (st : Status) (x : Ctx) (h : s.ctxs.look c = some x) (hp : x.phase ≠ .done) :
    ∃ y, (s.finish c st).ctxs.look c = some y ∧ y.phase = .done ∧ y.status = some st := by
  rw [finish_ctxs h hp]; rw [Tbl.look_put]; exact ⟨_, rfl, rfl, rfl⟩

theorem pldmAsk_nv (s : State) : (s.pldmAsk).nv = s.nv ∧ s.pldmAsk.ctxs = s.ctxs := ⟨(State.pldmAsk_law s).same .nv (by decide), (State.pldmAsk_law s).same .ctxs (by decide)⟩

theorem norStart_nv (s : State) (b d l) (h : s.nv.norQueue = (b, d) :: l) : s.norStart.nv = { s.nv with norErase := s.nv.stgDirty.contains b, stgDirty := s.norStart.nv.stgDirty } := by
  unfold State.norStart; rw [h]; dsimp only
  cases hc : s.nv.stgDirty.contains b
  · rw [if_neg (by simp)]
  · rw [if_pos rfl]

theorem commitEnd_waiting (s : State) (c : Nat) (x : Ctx) (h1 : s.nv.commitCtx = some c) (h2 : s.ctxs.look c = some x) (h3 : x.phase ≠ .done) (ha : s.nv.commitAct ≠ 3) :
    (s.commitEnd none).nv = { s.nv with commitAct := 0, commitCtx := none, copying := false, stgOwner := 0, stgBlocks := [], stgDirty := [], stgErasing := true, stgDiscard := false } ∧
    ∃ y, (s.commitEnd none).ctxs.look c = some y ∧ y.phase = .done ∧ y.status = some (if s.nv.commitAct = 1 then stOk else stFwReset) := by
  unfold State.commitEnd
  dsimp only
  rw [h1, if_neg ha]
  dsimp only
  generalize hu : (State.fire _ 209) = u
  have f : u.nv = { s.nv with commitAct := 0, commitCtx := none, copying := false } ∧ u.ctxs = s.ctxs := by
    rw [← hu]; exact ⟨(fire_nv _ _ _ _ _ _).1, (fire_nv _ _ _ _ _ _).2.1⟩
  constructor
  · rw [(finish_nv _ _ _).1]; unfold State.stgDrop; dsimp only; rw [f.1]
  · exact finish_ctx _ _ _ x (by show u.ctxs.look c = _; rw [f.2, h2]) h3

theorem commitEnd_without (s : State) (h1 : s.nv.commitCtx = none) (ha : s.nv.commitAct ≠ 3) :
    (s.commitEnd none).nv = { s.nv with commitAct := 0, commitCtx := none, copying := false, stgOwner := 0, stgBlocks := [], stgDirty := [], stgErasing := true, stgDiscard := false } ∧ Same (Piece.event ++ [.cas, .nv]) s (s.commitEnd none) := by
  unfold State.commitEnd
  dsimp only
  rw [h1, if_neg ha]
  dsimp only
  have hs : Same [.cas, .nv] s ({ s with nv := { s.nv with commitAct := 0, commitCtx := none, copying := false }, cas := { s.cas with voteStep := 0 } } : State) := by intro p hp; cases p <;> first | rfl | simp at hp
  have hf := (State.fire_law ({ s with nv := { s.nv with commitAct := 0, commitCtx := none, copying := false }, cas := { s.cas with voteStep := 0 } } : State) 209 [] 0 0x7ff none).same
  have hn := hf .nv (by decide)
  generalize (({ s with nv := { s.nv with commitAct := 0, commitCtx := none, copying := false }, cas := { s.cas with voteStep := 0 } } : State).fire 209) = u at *
  have hd : Same [.nv] u u.stgDrop := nv_same _ _
  refine ⟨?_, Same.seq (Same.seq hs hf (w := Piece.event ++ [.cas, .nv]) (by decide) (by decide)) hd (by decide) (by decide)⟩
  unfold State.stgDrop; dsimp only; rw [hn]

theorem selfCheck_off (s : State) (h : s.nv.pldmSelf = false) : s.selfCheck = s := by unfold State.selfCheck; rw [if_neg (by simp [h])]

/-- The next block of a piece stands in the staging slot (R439). -/
theorem norPiece_spec (s : State) (b : Nat) (d : UnitData) (l) (hq : s.nv.norQueue = (b, d) :: l) (he : s.nv.norErase = false) :
    s.pieceStep.nv.norQueue = l ∧
        (s.nv.stgDiscard = false ∨ l ≠ [] → s.pieceStep.nv.stgBlocks = s.nv.stgBlocks.put b d ∧ s.pieceStep.nv.stgOwner = s.nv.stgOwner) ∧
        (s.nv.stgDiscard = true → l = [] → s.pieceStep.nv.stgBlocks = [] ∧ s.pieceStep.nv.stgErasing = true ∧ s.pieceStep.nv.stgOwner = 0) ∧
        (∀ b' d' l', l = (b', d') :: l' → s.pieceStep.nv.norErase = (s.nv.stgDirty.filter (· != b)).contains b') ∧
        (∀ c x, l = [] → s.nv.norCtx = some c → s.ctxs.look c = some x → x.phase ≠ .done → s.pieceStep.nv.norCtx = none ∧
          ∃ y, s.pieceStep.ctxs.look c = some y ∧ y.phase = .done ∧ y.status = some stOk) := by
  unfold State.pieceStep
  rw [hq]
  dsimp only
  rw [if_neg (by simp [he])]
  generalize hu : (if (!s.stgComplete && State.stgComplete _) = true then State.fire _ 208 else _) = u
  have hn : u.nv = { s.nv with stgBlocks := s.nv.stgBlocks.put b d, stgDirty := s.nv.stgDirty.filter (· != b), norQueue := l } ∧ u.ctxs = s.ctxs := by
    rw [← hu]; split
    · exact ⟨(fire_nv _ _ _ _ _ _).1, (fire_nv _ _ _ _ _ _).2.1⟩
    · exact ⟨rfl, rfl⟩
  cases l with
  | cons p l' =>
    obtain ⟨b', d'⟩ := p
    rw [if_pos (by simp)]
    have e := norStart_nv u b' d' l' (by rw [hn.1])
    rw [e, hn.1]
    refine ⟨rfl, fun _ => ⟨rfl, rfl⟩, fun _ h => by simp at h, fun b2 d2 l2 h => ?_, fun c x h => by simp at h⟩
    cases h; rfl
  | nil =>
    rw [if_neg (by simp)]
    have hcx : u.nv.norCtx = s.nv.norCtx := by rw [hn.1]
    have fin : ∀ v : State, v.nv = { u.nv with norCtx := none } → (∀ c x, s.nv.norCtx = some c → s.ctxs.look c = some x → x.phase ≠ .done → ∃ y, v.ctxs.look c = some y ∧ y.phase = .done ∧ y.status = some stOk) →
        let w := if v.nv.stgDiscard then v.stgDrop else v.pldmAsk
        w.nv.norQueue = [] ∧
        (s.nv.stgDiscard = false ∨ ([] : Tbl UnitData) ≠ [] → w.nv.stgBlocks = s.nv.stgBlocks.put b d ∧ w.nv.stgOwner = s.nv.stgOwner) ∧
        (s.nv.stgDiscard = true → ([] : Tbl UnitData) = [] → w.nv.stgBlocks = [] ∧ w.nv.stgErasing = true ∧ w.nv.stgOwner = 0) ∧
        (∀ b' d' l', ([] : Tbl UnitData) = (b', d') :: l' → w.nv.norErase = (s.nv.stgDirty.filter (· != b)).contains b') ∧
        (∀ c x, ([] : Tbl UnitData) = [] → s.nv.norCtx = some c → s.ctxs.look c = some x → x.phase ≠ .done → w.nv.norCtx = none ∧
          ∃ y, w.ctxs.look c = some y ∧ y.phase = .done ∧ y.status = some stOk) := by
      intro v hvn hvc
      have hds : v.nv.stgDiscard = s.nv.stgDiscard := by rw [hvn, hn.1]
      dsimp only
      rw [hds]
      cases hd : s.nv.stgDiscard
      · rw [if_neg (by simp), (pldmAsk_nv v).1, (pldmAsk_nv v).2, hvn, hn.1]
        exact ⟨rfl, fun _ => ⟨rfl, rfl⟩, fun h => by simp at h, fun b2 d2 l2 h => by simp at h, fun c x _ h1 h2 h3 => ⟨rfl, hvc c x h1 h2 h3⟩⟩
      · rw [if_pos rfl]
        refine ⟨?_, fun h => by simp at h, fun _ _ => ⟨rfl, rfl, rfl⟩, fun b2 d2 l2 h => by simp at h, fun c x _ h1 h2 h3 => ⟨?_, hvc c x h1 h2 h3⟩⟩
        · show v.nv.norQueue = []; rw [hvn, hn.1]
        · show v.nv.norCtx = none; rw [hvn]
    rw [hcx]
    cases h : s.nv.norCtx with
    | none =>
      have := fin u (by rw [← h, ← hcx]) (fun c x h1 => by rw [h] at h1; cases h1)
      rw [h] at this; exact this
    | some c =>
      have := fin (({ u with nv := { u.nv with norCtx := none } } : State).finish c stOk) (by rw [(finish_nv _ _ _).1]) (fun c' x h1 h2 h3 => by
        rw [h] at h1; cases h1
        exact finish_ctx _ _ _ x (by show u.ctxs.look c = _; rw [hn.2, h2]) h3)
      rw [h] at this; exact this

def slotCopied (s : State) : State := { s with nv := { s.nv with
    copying := false
    slotRevA := if s.nv.commitTarget = 0 then s.nv.commitRev else s.nv.slotRevA, slotFrA := if s.nv.commitTarget = 0 then s.nv.commitFr else s.nv.slotFrA
    slotRevB := if s.nv.commitTarget = 0 then s.nv.slotRevB else s.nv.commitRev, slotFrB := if s.nv.commitTarget = 0 then s.nv.slotFrB else s.nv.commitFr } }

theorem slotRev_copied (s t : State) (h : t.nv.slotRevA = (slotCopied s).nv.slotRevA ∧ t.nv.slotRevB = (slotCopied s).nv.slotRevB) : t.slotRev s.nv.commitTarget = s.nv.commitRev := by
  unfold State.slotRev
  rw [h.1, h.2]
  unfold slotCopied; dsimp only
  split
  · rfl
  · rfl

theorem copyEnd_alone (s : State) (c : Nat) (x : Ctx) (ha : s.nv.commitAct = 1 ∨ s.nv.commitAct = 2) (hm : s.cas.members = []) (hc : s.nv.commitCtx = some c)
    (hx : s.ctxs.look c = some x) (hp : x.phase ≠ .done) (hself : s.nv.pldmSelf = false) :
    let t := s.slotCopied.selfCheck
    t.nv.copying = false ∧ t.nv.commitAct = 0 ∧ t.slotRev s.nv.commitTarget = s.nv.commitRev ∧
          t.nv.stgOwner = 0 ∧ t.nv.stgErasing = true ∧
          (∃ y, t.ctxs.look c = some y ∧ y.phase = .done ∧ y.status = some (if s.nv.commitAct = 1 then stOk else stFwReset)) ∧
          (s.nv.commitAct = 1 → t.nv.next = s.nv.next ∧ t.nv.actState = s.nv.actState) ∧
          (s.nv.commitAct = 2 → t.nv.next = s.nv.commitTarget ∧ t.nv.bootSeq = s.nv.bootSeq + 1 ∧ (s.nv.actState ≠ 2 → t.nv.actState = 1 ∧
            t.nv.actFrom = s.upd.booted ∧ t.nv.actTo = s.nv.commitTarget ∧ t.nv.actToRev = s.nv.commitRev ∧ t.nv.actClean = 0)) := by
  dsimp only
  have e1 : s.slotCopied = (slotCopied s).commitSend := by
    unfold State.slotCopied; dsimp only; rw [if_neg (by omega), if_neg (by omega), if_neg (by omega)]; rfl
  have e2 : (slotCopied s).commitSend = (slotCopied s).commitArm := by unfold State.commitSend; exact if_pos hm
  generalize hw : (if s.nv.commitAct = 1 then slotCopied s else (slotCopied s).armSelf s.nv.commitTarget s.nv.commitRev) = w
  have e3 : (slotCopied s).commitArm = w.commitEnd none := by
    unfold State.commitArm
    dsimp only
    rw [if_pos (.inr hm)]
    rw [← hw]; rfl
  have w1 : w.nv.commitCtx = some c ∧ w.nv.commitAct = s.nv.commitAct ∧ w.ctxs = s.ctxs ∧ w.nv.slotRevA = (slotCopied s).nv.slotRevA ∧ w.nv.slotRevB = (slotCopied s).nv.slotRevB ∧ w.nv.pldmSelf = false ∧
      (s.nv.commitAct = 1 → w.nv.next = s.nv.next ∧ w.nv.actState = s.nv.actState) ∧ (s.nv.commitAct = 2 → w.nv.next = s.nv.commitTarget ∧ w.nv.bootSeq = s.nv.bootSeq + 1 ∧
        (s.nv.actState ≠ 2 → w.nv.actState = 1 ∧ w.nv.actFrom = s.upd.booted ∧ w.nv.actTo = s.nv.commitTarget ∧ w.nv.actToRev = s.nv.commitRev ∧ w.nv.actClean = 0)) := by
    rw [← hw]
    rcases ha with h | h
    · rw [if_pos h]; exact ⟨hc, rfl, rfl, rfl, rfl, hself, fun _ => ⟨rfl, rfl⟩, fun h2 => by omega⟩
    · rw [if_neg (by omega)]
      refine ⟨hc, rfl, rfl, rfl, rfl, hself, fun h2 => by omega, fun _ => ⟨rfl, rfl, fun h3 => ?_⟩⟩
      have hnt : ¬((slotCopied s).nv.actState = 2 ∧ s.nv.commitTarget = (slotCopied s).nv.actFrom) := fun hh => h3 hh.1
      unfold State.armSelf; dsimp only
      rw [if_neg hnt, if_neg hnt, if_neg hnt, if_neg hnt, if_neg hnt]
      exact ⟨rfl, rfl, rfl, rfl, rfl⟩
  obtain ⟨a1, a2, a3, a4, a5, a6, a7, a8⟩ := w1
  obtain ⟨b1, b2⟩ := commitEnd_waiting w c x a1 (by rw [a3]; exact hx) hp (by omega)
  rw [e1, e2, e3]
  have hs : (w.commitEnd none).selfCheck = w.commitEnd none := selfCheck_off _ (by rw [b1]; exact a6)
  rw [hs]
  rw [a2] at b2
  have hr : (w.commitEnd none).slotRev s.nv.commitTarget = s.nv.commitRev := slotRev_copied s _ (by rw [b1]; exact ⟨a4, a5⟩)
  refine ⟨by rw [b1], by rw [b1], hr, by rw [b1], by rw [b1], b2, fun h => ?_, fun h => ?_⟩
  · rw [b1]; exact a7 h
  · rw [b1]; exact a8 h

theorem updateSends_members (l : List Nat) (s : State) : (l.foldl (fun (s : State) c => s.casSend (portOf c) 3 0x42 0 [5]) s).cas.members = s.cas.members ∧ Same [.out, .sward, .cas] s (l.foldl (fun (s : State) c => s.casSend (portOf c) 3 0x42 0 [5]) s) := by
  induction l generalizing s with
  | nil => exact ⟨rfl, fun _ _ => same_refl _ _⟩
  | cons a l ih =>
    refine ⟨((ih _).1).trans ?_, Same.seq (State.casSend_law _ _ _ _ _ _).same (ih _).2 (by decide) (by decide)⟩
    unfold State.casSend; dsimp only; split; · rfl
    split <;> rfl

theorem out_same (u : State) (o) : Same [.out] u { u with out := o } := by intro p hp; cases p <;> first | rfl | simp at hp

theorem stampKeep_spec (s : State) (stamp : Nat) : (s.nv.stgOwner = 2 ∧ s.nv.pldmStamp = stamp → s.stampKeep stamp = s) ∧
    (¬(s.nv.stgOwner = 2 ∧ s.nv.pldmStamp = stamp) → (s.stampKeep stamp).nv.stgBlocks = []) ∧ (s.stampKeep stamp).out = s.out := by
  unfold State.stampKeep
  refine ⟨fun h => if_pos h, fun h => ?_, ?_⟩
  · rw [if_neg h]; split
    · rename_i h2; exact h2.1
    · rfl
  · split; · rfl
    split <;> rfl

def nvParts (n : Nv) : Nat × Nat × Nat × Nat × Nat × Nat := (n.next, n.bootSeq, n.pldmState, n.stgOwner, n.actState, n.actTo)

theorem saveNow_nv (s : State) (k) : nvParts (s.saveNow k).nv = nvParts s.nv := by
  unfold State.saveNow
  split
  · rfl
  · have h1 : (s.saveStart k).nv = s.nv := (State.saveStart_law _ _).same .nv (by decide)
    generalize s.saveStart k = v at *
    have h3 : ∀ (l : List Nat) (u : State), (forNats l u State.saveZone).nv = u.nv := by
      intro l
      induction l with
      | nil => exact fun _ => rfl
      | cons a l ih => exact fun u => (ih _).trans ((State.saveZone_law _ _).same .nv (by decide))
    have h2 : ∀ n l, (forNats l (State.saveOps n (v.saveWithdraw.mediaAdvance)) State.saveZone).saveRelease.nv = s.nv := by
      intro n l
      rw [(State.saveRelease_law _).same .nv (by decide), h3, (State.saveOps_law _ _).same .nv (by decide), (State.mediaAdvance_law _).same .nv (by decide), (State.saveWithdraw_law _).same .nv (by decide), h1]
    unfold State.saveFinish
    dsimp only
    rw [(State.mtrSave_law _).same .nv (by decide)]
    unfold State.freeStep
    dsimp only
    unfold nvParts
    dsimp only
    rw [h2]

theorem chipReset_nv (s : State) (c) : (s.chipReset c).upd.stage = 0 ∧ nvParts (s.chipReset c).nv = nvParts { s.nv with pldmState := 0 } := by
  have e : ∀ u : State, u.nv = s.nv → ∀ l, nvParts ({ u.nv.overStop with savedLog := l } : Nv) = nvParts { s.nv with pldmState := 0 } := fun u h l => by rw [h]; rfl
  unfold State.chipReset
  dsimp only
  refine ⟨rfl, ?_⟩
  apply e
  split
  · rfl
  · exact (State.loseWrites_law _).same .nv (by decide)

theorem selfReset_spec (u : State) : u.selfReset.upd.stage = 0 ∧ u.selfReset.nv.next = u.nv.next ∧ u.selfReset.nv.bootSeq = u.nv.bootSeq ∧ u.selfReset.nv.pldmState = 0 ∧
    u.selfReset.nv.stgOwner = u.nv.stgOwner ∧ u.selfReset.nv.actState = u.nv.actState ∧ u.selfReset.nv.actTo = u.nv.actTo := by
  have key : ∀ (w : State) c, nvParts w.nv = nvParts u.nv → (w.chipReset c).upd.stage = 0 ∧ (w.chipReset c).nv.next = u.nv.next ∧ (w.chipReset c).nv.bootSeq = u.nv.bootSeq ∧ (w.chipReset c).nv.pldmState = 0 ∧
    (w.chipReset c).nv.stgOwner = u.nv.stgOwner ∧ (w.chipReset c).nv.actState = u.nv.actState ∧ (w.chipReset c).nv.actTo = u.nv.actTo := by
    intro w c hw
    obtain ⟨a, b⟩ := chipReset_nv w c
    refine ⟨a, ?_, ?_, ?_, ?_, ?_, ?_⟩
    · exact (congrArg (·.1) b).trans (congrArg (·.1) hw)
    · exact (congrArg (·.2.1) b).trans (congrArg (·.2.1) hw)
    · exact (congrArg (·.2.2.1) b)
    · exact (congrArg (·.2.2.2.1) b).trans (congrArg (·.2.2.2.1) hw)
    · exact (congrArg (·.2.2.2.2.1) b).trans (congrArg (·.2.2.2.2.1) hw)
    · exact (congrArg (·.2.2.2.2.2) b).trans (congrArg (·.2.2.2.2.2) hw)
  unfold State.selfReset
  split
  · exact key u .por rfl
  · exact key _ .saved (saveNow_nv u 5)

theorem activate_alone (u : State) (hm : u.cas.members = []) (ha : u.nv.commitAct = 2) (hc : u.nv.commitCtx = none) (hp : u.nv.pldmState = 0) :
    let t := u.commitSend.selfCheck
    t.nv.next = u.nv.commitTarget ∧ t.nv.bootSeq = u.nv.bootSeq + 1 ∧ t.nv.pldmState = 0 ∧ t.nv.stgOwner = 0 ∧
      (u.nv.actState ≠ 2 → t.nv.actState = 1 ∧ t.nv.actTo = u.nv.commitTarget) ∧ (u.nv.pldmSelf = true → t.upd.stage = 0) ∧
      (u.nv.pldmSelf = false → Same (Piece.event ++ [.cas, .nv]) u t) := by
  have e2 : u.commitSend = u.commitArm := by unfold State.commitSend; exact if_pos hm
  have e3 : u.commitArm = (u.armSelf u.nv.commitTarget u.nv.commitRev).commitEnd none := by
    unfold State.commitArm
    dsimp only
    rw [if_pos (.inr hm), if_neg (by omega)]
  have hw : (u.armSelf u.nv.commitTarget u.nv.commitRev).nv.commitCtx = none ∧ (u.armSelf u.nv.commitTarget u.nv.commitRev).nv.commitAct = 2 ∧
      (u.armSelf u.nv.commitTarget u.nv.commitRev).nv.next = u.nv.commitTarget ∧ (u.armSelf u.nv.commitTarget u.nv.commitRev).nv.bootSeq = u.nv.bootSeq + 1 ∧
      (u.armSelf u.nv.commitTarget u.nv.commitRev).nv.pldmState = 0 ∧ (u.armSelf u.nv.commitTarget u.nv.commitRev).nv.pldmSelf = u.nv.pldmSelf ∧
      (u.nv.actState ≠ 2 → (u.armSelf u.nv.commitTarget u.nv.commitRev).nv.actState = 1 ∧ (u.armSelf u.nv.commitTarget u.nv.commitRev).nv.actTo = u.nv.commitTarget) ∧
      Same [.nv] u (u.armSelf u.nv.commitTarget u.nv.commitRev) := by
    refine ⟨hc, ha, rfl, rfl, hp, rfl, fun h => ?_, (State.armSelf_law _ _ _).same⟩
    have hnt : ¬(u.nv.actState = 2 ∧ u.nv.commitTarget = u.nv.actFrom) := fun hh => h hh.1
    unfold State.armSelf; dsimp only
    rw [if_neg hnt, if_neg hnt]
    exact ⟨rfl, rfl⟩
  rw [e2, e3]
  generalize u.armSelf u.nv.commitTarget u.nv.commitRev = w at *
  obtain ⟨a1, a2, a3, a4, a5, a6, a7, a8⟩ := hw
  obtain ⟨b1, b2⟩ := commitEnd_without w a1 (by omega)
  generalize w.commitEnd none = v at *
  have hS : Same (Piece.event ++ [.cas, .nv]) u v := Same.seq a8 b2 (by decide) (by decide)
  dsimp only
  unfold State.selfCheck
  have v0 : v.nv.commitAct = 0 := by rw [b1]
  have v1 : v.nv.pldmSelf = u.nv.pldmSelf := by rw [b1]; exact a6
  have v2 : v.nv.next = u.nv.commitTarget := by rw [b1]; exact a3
  have v3 : v.nv.bootSeq = u.nv.bootSeq + 1 := by rw [b1]; exact a4
  have v4 : v.nv.pldmState = 0 := by rw [b1]; exact a5
  have v5 : v.nv.stgOwner = 0 := by rw [b1]
  have v6 : u.nv.actState ≠ 2 → v.nv.actState = 1 ∧ v.nv.actTo = u.nv.commitTarget := by rw [b1]; exact a7
  rw [v1, v0]
  cases hs : u.nv.pldmSelf
  · exact ⟨v2, v3, v4, v5, v6, fun h => by simp at h, fun _ => hS⟩
  · obtain ⟨c1, c2, c3, c4, c5, c6, c7⟩ := selfReset_spec v
    rw [if_pos (by simp)]
    refine ⟨c2.trans v2, c3.trans v3, c4, c5.trans v5, fun h => ⟨c6.trans (v6 h).1, c7.trans (v6 h).2⟩, fun _ => c1, fun h => by simp at h⟩

theorem forNats_same {r : List Piece} (f : State → Nat → State) (h : ∀ s k, Same r s (f s k)) : ∀ (l : List Nat) (s : State), Same r s (forNats l s f)
  | [], s => fun _ _ => same_refl _ _
  | a :: l, s => fun p hp => same_trans (h s a p hp) (forNats_same f h l _ p hp)

theorem foldl_same {α} {r : List Piece} (f : State → α → State) (h : ∀ s k, Same r s (f s k)) : ∀ (l : List α) (s : State), Same r s (l.foldl f s)
  | [], s => fun _ _ => same_refl _ _
  | a :: l, s => fun p hp => same_trans (h s a p hp) (foldl_same f h l _ p hp)

theorem slotCheck_of {s t : State} (h1 : t.efl = s.efl) (h2 : t.key = s.key) (h3 : t.nv.anchor = s.nv.anchor) (h4 : t.nv.digest = s.nv.digest) (f) : t.slotCheck f = s.slotCheck f := by
  unfold State.slotCheck State.oemKeyed; rw [h1, h2, h3, h4]

/-- What a slot that was tried and failed leaves as it was. -/
structure Tried (s t : State) : Prop where
  same : Same [.out, .upd, .nv, .evt, .log] s t
  anchor : t.nv.anchor = s.nv.anchor
  digest : t.nv.digest = s.nv.digest
  stop : t.upd.stop = s.upd.stop

theorem Tried.refl (s) : Tried s s := ⟨fun _ _ => same_refl _ _, rfl, rfl, rfl⟩

theorem Tried.trans {s t u} (h : Tried s t) (g : Tried t u) : Tried s u := ⟨fun p hp => same_trans (h.same p hp) (g.same p hp), g.anchor.trans h.anchor, g.digest.trans h.digest, g.stop.trans h.stop⟩

theorem failRec_tried (s : State) (a b c) : Tried s (s.failRec a b c) := by
  refine ⟨fun p hp => (State.failRec_law s a b c).same p (fun h => hp (sub_mem (by decide) h)), ?_, ?_, ?_⟩
  · unfold State.failRec State.failRecAt State.failRecOf; dsimp only; rw [(fire_nv _ _ _ _ _ _).1]
  · unfold State.failRec State.failRecAt State.failRecOf; dsimp only; rw [(fire_nv _ _ _ _ _ _).1]
  · rw [(State.failRec_law s a b c).same .upd (by decide)]

theorem upd_same (s : State) (u : Upd) : Same [.upd] s { s with upd := u } := by intro p hp; cases p <;> first | rfl | simp at hp

theorem nv_upd_same (s : State) (n : Nv) (u : Upd) : Same [.nv, .upd] s { s with nv := n, upd := u } := by intro p hp; cases p <;> first | rfl | simp at hp

/-- The boot tries the slots in their order and takes the first that passes its checks (R410, R411). -/
theorem slotTry_spec (b : BootIn) : ∀ (l : List Nat) (s : State), (s.slotTry b l).2 = l.find? (fun k => s.slotCheck (slotOf b k) == 0) ∧ Tried s (s.slotTry b l).1 := by
  intro l
  induction l with
  | nil => exact fun s => ⟨rfl, Tried.refl s⟩
  | cons k l ih =>
    intro s
    unfold State.slotTry
    dsimp only
    rw [List.find?_cons]
    by_cases h0 : s.slotCheck (slotOf b k) = 0
    · rw [if_pos h0]; rw [h0]; exact ⟨rfl, Tried.refl s⟩
    · rw [if_neg h0]
      have hb : (s.slotCheck (slotOf b k) == 0) = false := by simpa using h0
      rw [hb]
      dsimp only
      generalize hn : s.slotCheck (slotOf b k) = n at *
      have t1 : Tried s ({ s with upd := { s.upd with fallback := true, failA := if k = 0 then n else s.upd.failA, failB := if k = 1 then n else s.upd.failB } } : State) := ⟨Same.mono (upd_same _ _) (by decide), rfl, rfl, rfl⟩
      generalize hw : (if k = s.nv.next then _ else _) = w
      have t2 : Tried s w := by
        rw [← hw]
        split
        · refine Tried.trans (t := ({ s with nv := { s.nv with next := 255, actState := if s.nv.actState = 1 then 4 else s.nv.actState }, upd := { s.upd with fallback := true, failA := if k = 0 then n else s.upd.failA, failB := if k = 1 then n else s.upd.failB } } : State)) ⟨?_, rfl, rfl, rfl⟩ (failRec_tried _ _ _ _)
          exact Same.mono (nv_upd_same s _ _) (by decide)
        · exact t1
      obtain ⟨i1, i2⟩ := ih w
      refine ⟨?_, t2.trans i2⟩
      rw [i1]
      congr 1
      funext j
      rw [slotCheck_of (t2.same .efl (by decide)) (t2.same .key (by decide)) t2.anchor t2.digest]

/-- The slot that booted and the stop code: what the rest of a boot keeps. -/
def bootedAndStop (u : Upd) : Nat × Nat := (u.booted, u.stop)

theorem takeFor_upd (l : List Nat) (s : State) (dk st e) : (forNats l s fun s _ => s.takeFor dk st e).upd = s.upd :=
  forNats_same (r := [.bpm, .blocks, .dies, .fch]) _ (fun s _ => (State.takeFor_law s dk st e).same) l s .upd (by decide)

theorem firstConfig_keeps (s : State) (i) (b) : bootedAndStop (s.firstConfig i b).upd = bootedAndStop s.upd := by
  unfold State.firstConfig
  dsimp only
  rw [(State.keyCreate_law _ _).same .upd (by decide)]
  show bootedAndStop _ = _
  dsimp only
  have h : ∀ u : Upd, u = s.upd → bootedAndStop { u with firstcfg := true } = bootedAndStop s.upd := fun u h => by rw [h]; rfl
  apply h
  rw [forNats_same (r := [.bpm, .blocks, .dies, .fch]) _ ?_ _ _ .upd (by decide)]
  · rw [(State.anchors_law _).same .upd (by decide)]
    exact foldl_same (r := [.blocks]) _ (fun u k => (by intro p hp; cases p <;> first | rfl | simp at hp)) _ _ .upd (by decide)
  · intro u dk
    have hh : ∀ (l : List Nat) (v : State) st e, Same [.bpm, .blocks, .dies, .fch] v (forNats l v fun s _ => s.takeFor dk st e) := fun l v st e =>
      forNats_same _ (fun s _ => (State.takeFor_law s dk st e).same) l v
    exact fun p hp => same_trans (same_trans (hh _ _ _ _ p hp) (hh _ _ _ _ p hp)) (hh _ _ _ _ p hp)
set_option maxRecDepth 4000 in

theorem clean_of_nv {s t : State} (h : t.nv = s.nv) : t.nv.clean = s.nv.clean := by rw [h]

/-- The slot picked is the one that runs. -/
theorem bootPick_spec (s : State) (f k fresh) : (s.bootPick f k fresh).upd.booted = k ∧ (s.bootPick f k fresh).upd.stop = s.upd.stop ∧ (s.bootPick f k fresh).img = some f.image ∧ (s.bootPick f k fresh).manifest = some f.manifest ∧
    (s.bootPick f k fresh).key.owners = s.key.owners ∧ (s.bootPick f k fresh).nv.anchor = s.nv.anchor := by
  unfold State.bootPick
  dsimp only
  cases fresh <;> (by_cases hk : k = 0) <;> simp only [hk, if_true, if_false, Bool.false_eq_true] <;> exact ⟨rfl, rfl, rfl, rfl, rfl, rfl⟩

theorem bootStop_spec (s : State) (c) : (s.bootStop c).upd.stage = 15 ∧ (s.bootStop c).upd.stop = c := ⟨rfl, rfl⟩

def recordRead (s : State) (b : BootIn) : Nv := if b.recordOk then s.nv else { s.nv with current := 0, next := 255 }

def bonnetReleased (s : State) (b : BootIn) : State := { s with upd := { s.upd with stage := 1, norMib := b.norMib, norMhz := b.norMhz, nosusp := !b.norSuspend }, pci := { s.pci with perstN := b.perstN } }

def released (s : State) (b : BootIn) : State := if b.recordOk then bonnetReleased s b else { bonnetReleased s b with nv := { s.nv with current := 0, next := 255 } }

theorem released_nv (s b) : (released s b).nv = recordRead s b := by unfold released recordRead; split <;> rfl

theorem released_slotCheck (s b f) : (released s b).slotCheck f = s.slotCheck f := by unfold released; split <;> rfl

theorem release_exec (s : State) (b : BootIn) (hp : s.powered = false) (h1 : b.bonnetOk = true) (h2 : s.efl.keysPart = false)
    (h3 : (b.norOk && (b.norMib == 32 || b.norMib == 64 || b.norMib == 128 || b.norMib == 256)) = true) :
    exec (.powerOnResetRelease b) s = .next ((released s b).bootSlot b 2) := by
  show execPowerOnResetRelease b s = _
  unfold execPowerOnResetRelease released
  dsimp only
  have h4 : (!b.norOk || !(b.norMib == 32 || b.norMib == 64 || b.norMib == 128 || b.norMib == 256)) = false := by
    revert h3; generalize (b.norMib == 32 || b.norMib == 64 || b.norMib == 128 || b.norMib == 256) = g; cases b.norOk <;> cases g <;> simp
  rw [if_neg (by simp [hp]), if_neg (by rw [h1, h2]; simp), if_neg (by rw [h4]; simp)]
  rfl

theorem bonnetReleased_same (s b) : Same [.pci, .upd] s (bonnetReleased s b) := by
  have : ∀ (s : State) (u : Upd) (p : Pci), Same [.pci, .upd] s { s with upd := u, pci := p } := fun s u p => by intro p hp; cases p <;> first | rfl | simp at hp
  exact this _ _ _

theorem released_same (s b) : Same [.pci, .upd, .nv] s (released s b) := by
  have : ∀ (s : State) (n : Nv), Same [.nv] s { s with nv := n } := fun s u => by intro p hp; cases p <;> first | rfl | simp at hp
  unfold released; split
  · exact Same.mono (bonnetReleased_same s b) (by decide)
  · exact Same.seq (bonnetReleased_same s b) (this _ _) (by decide) (by decide)

def diesMarked (s : State) (l : List Nat) : State := forNats l s fun s d => s.dieEdit d fun d => { d with failed := true }

theorem diesMarked_same (l : List Nat) : ∀ s, Same [.dies] s (diesMarked s l) := fun s => forNats_same _ (fun s d => (State.dieEdit_law s _ _).same) l s

theorem dieEdit_dieGood (s : State) (a d) : ((s.dieEdit a fun d => { d with failed := true }).dieGood d) = (s.dieGood d && decide (d ≠ a)) := by
  unfold State.dieGood State.dieEdit
  dsimp only
  by_cases e : d = a
  · subst e
    cases h : s.dies.look d with
    | none => unfold Tbl.edit; rw [h]; dsimp only; rw [h]; rfl
    | some x => rw [Tbl.look_edit _ h]; simp
  · rw [Tbl.look_edit_ne _ _ e]; simp [e]

theorem diesMarked_dieGood (d : Nat) : ∀ (l : List Nat) (s : State), (s.dieGood d = false ∨ d ∈ l) → (diesMarked s l).dieGood d = false := by
  intro l
  induction l with
  | nil => intro s h; exact h.resolve_right (by simp)
  | cons a l ih =>
    intro s h
    refine ih _ ?_
    rw [dieEdit_dieGood]
    rcases h with h | h
    · left; rw [h]; rfl
    · rcases List.mem_cons.mp h with h | h
      · left; simp [h]
      · right; exact h

end Sys2Proof.Laws
end

