-- ==== Sys2Proof/Laws/ZoneOps.lean ====
section
/-! SUPPORT. Admission of I/O commands and zone operations (R114, R147, R151, R309). -/

-- One theorem after another: side by side they need more threads than the memory limit allows.
set_option Elab.async false

namespace Sys2Proof.Laws

open Sys2Proof Sys2Proof.Machine Sys2Proof.Safety

theorem same_of {r} {s t : State} {p} (h : Same r s t) (hp : p ∉ r) : p.same s t := h p hp

theorem rdTake_ctxs (s o n) : (State.rdTake s o n).ctxs = s.ctxs := rfl

/-- The admission of a command other than a write. -/
theorem ioAdmit_nonwrite {s : State} {c : Nat} {x : Ctx} {ranges} (h : IoTurn s c x ranges) {row : SqEntry → Bool} (hr : row x.e = true)
    (ho : ioOpcode x.e.opc = true) (hw : x.e.isWrite = false) (kind : EKind) (hs : (s.ioEntry c x kind ranges).scopes ≠ []) :
    ∃ t, Host.Outcome.next (s.admitIo c row kind ranges) = (Host.Outcome.next t : Host.Outcome State Fault Refusal) ∧
      Holds s t c ∧ OthersSame s t c ∧ Same [.ctxs, .gate, .dma, .bpm] s t ∧ t.gate.next = s.gate.next + 1 ∧
      t.gate.entries = s.gate.entries.put s.gate.next (s.ioEntry c x kind ranges) ∧
      t.bpm.rdHeld = s.bpm.rdHeld.upd (qOwner x.q) 0 (· + s.readUnits (qOwner x.q) x.e) := by
  refine ⟨_, congrArg _ (admitIo_body h hr ho kind hs), ?_⟩
  have hcx : (s.ioEntry c x kind ranges).ctx = c := rfl
  generalize s.ioEntry c x kind ranges = E at hcx
  unfold State.charge
  simp only [hw, Bool.false_eq_true, if_false]
  subst hcx
  have hl : ((s.rdTake (qOwner x.q) (s.readUnits (qOwner x.q) x.e)).ctxEdit E.ctx fun y =>
      { y with readDraw := s.readUnits (qOwner x.q) x.e, units := if x.e.opc = 2 then x.e.n else 0 }).ctxs.look E.ctx = some { x with readDraw := s.readUnits (qOwner x.q) x.e, units := if x.e.opc = 2 then x.e.n else 0 } := by
    rw [ctxEdit_ctxs]; exact Tbl.look_edit _ h.here
  refine ⟨⟨_, enter_look hl rfl, rfl, rfl, rfl⟩, ?_, ?_, rfl, rfl, rfl⟩
  · intro k hk
    rw [enter_others _ _ k hk]
    exact Tbl.look_edit_ne _ _ hk
  · exact Same.mono (Same.trans (r := [.ctxs, .bpm]) (by intro p hp; cases p <;> first | rfl | simp at hp) (enter_same _ _)) (by decide)

theorem drawBufs_length (o n t) : (drawBufs o n t).1.length = n := by
  induction n generalizing t with
  | zero => rfl
  | succ n ih => simp [drawBufs, ih]

theorem upd_get (t : Tbl KeyOwner) (o : Nat) (f : KeyOwner → KeyOwner) : (t.upd o {} f).get o {} = f (t.get o {}) := by simp

theorem keyEdit_keyOwner (s : State) (o) (f) : (s.keyEdit o f).keyOwner o = f (s.keyOwner o) := by
  unfold State.keyOwner State.keyEdit; simp

theorem keyOwner_of_owners {s t : State} (o) (h : t.key.owners = s.key.owners) : t.keyOwner o = s.keyOwner o := by unfold State.keyOwner; rw [h]

theorem notice_written (s : State) (i ty a b k) : ((s.notice i ty a b).slice k).written = (s.slice k).written := by
  have n := notice_ring s i ty a b
  by_cases h : k = i
  · subst h; have := congrArg Slice.written n.2; exact this
  · rw [n.1 k h]

theorem keyNear_spec (s : State) (o) : ((s.keyNear o).keyOwner o).use = (s.keyOwner o).use ∧ (∀ k, ((s.keyNear o).slice k).written = (s.slice k).written) ∧
    Same (Piece.event ++ [.slices, .key]) s (s.keyNear o) := by
  unfold State.keyNear
  dsimp only
  split
  · generalize hu : s.keyEdit o (fun k => { k with nearSent := true }) = u
    have e1 : (u.keyOwner o).use = (s.keyOwner o).use := by subst hu; rw [keyEdit_keyOwner]
    have e2 : ∀ k, u.slice k = s.slice k := by subst hu; exact fun _ => rfl
    have e3 : Same [.key] s u := by subst hu; (intro p hp; cases p <;> first | rfl | simp at hp)
    split
    · refine ⟨?_, fun k => ?_, ?_⟩
      · rw [keyOwner_of_owners o (congrArg Key.owners ((State.notice_law u _ _ _ _).same .key (by decide)))]; exact e1
      · rw [notice_written]; rw [e2]
      · exact Same.mono (Same.trans e3 (State.notice_law u _ _ _ _).same) (by decide)
    · refine ⟨?_, fun k => ?_, ?_⟩
      · rw [keyOwner_of_owners o (congrArg Key.owners ((State.fire_law u _ _ _ _ _).same .key (by decide)))]; exact e1
      · rw [slice_of_slices ((State.fire_law u _ _ _ _ _).same .slices (by decide))]; rw [e2]
      · exact Same.mono (Same.trans e3 (State.fire_law u _ _ _ _ _).same) (by decide)
  · exact ⟨rfl, fun _ => rfl, Same.refl _ _⟩

theorem quotaAdd_written (s : State) (o n k) : ((s.quotaAdd o n).slice k).written = (s.slice k).written + (if o < 1024 ∧ k = o then n else 0) := by
  unfold State.quotaAdd
  split
  · rename_i h
    by_cases hk : k = o
    · subst hk; simp [sliceEdit_slice, h]
    · rw [sliceEdit_slice_ne _ _ hk]; simp [hk]
  · rename_i h; simp [h]

/-- The admission of a write: what it draws and charges (R114). -/
theorem ioAdmit_write {s : State} {c : Nat} {x : Ctx} {ranges} (h : IoTurn s c x ranges) {row : SqEntry → Bool} (hr : row x.e = true)
    (ho : ioOpcode x.e.opc = true) (hw : x.e.isWrite = true) (kind : EKind) (hs : (s.ioEntry c x kind ranges).scopes ≠ []) :
    ∃ t, Host.Outcome.next (s.admitIo c row kind ranges) = (Host.Outcome.next t : Host.Outcome State Fault Refusal) ∧
       Holds s t c ∧ OthersSame s t c ∧ t.gate.next = s.gate.next + 1 ∧
       t.gate.entries = s.gate.entries.put s.gate.next (s.ioEntry c x kind ranges) ∧
       Same (Piece.admin ++ Piece.event ++ [.slices, .staging, .bpm, .key]) s t ∧
       t.gate.dirty = s.gate.dirty + x.e.n * 4096 ∧ (t.keyOwner (qOwner x.q)).use = (s.keyOwner (qOwner x.q)).use + x.e.n ∧
       (t.slice (qOwner x.q)).written = (s.slice (qOwner x.q)).written + (if qOwner x.q < 1024 then x.e.n else 0) ∧
       ∃ st, t.staging = s.staging.put s.gate.next st ∧ st.ctx = c ∧ st.owner = qOwner x.q ∧ st.n = x.e.n ∧
         st.bufs.length = ceilDiv x.e.n 4 ∧ st.gen = (s.keyOwner (qOwner x.q)).cur := by
  refine ⟨_, congrArg _ (admitIo_body h hr ho kind hs), ?_⟩
  have hcx : (s.ioEntry c x kind ranges).ctx = c := rfl
  generalize s.ioEntry c x kind ranges = E at hcx
  unfold State.charge
  simp only [hw, if_true]
  subst hcx
  generalize hb : drawBufs (qOwner x.q) (stageBufs x.e) s.bpm.bufs = r
  have lb : r.1.length = ceilDiv x.e.n 4 := by subst hb; rw [drawBufs_length]; unfold stageBufs; rw [hw]; rfl
  generalize hst : ({ ctx := E.ctx, owner := qOwner x.q, zone := zkey x.e.nsid (x.e.slba / s.zsze), off := x.e.slba % s.zsze, n := x.e.n, bufs := r.1, gen := (s.keyOwner (qOwner x.q)).cur, kix := s.keyIx (qOwner x.q) (s.keyOwner (qOwner x.q)).cur } : Staged) = st
  generalize hu : ({ s with bpm := { s.bpm with bufs := r.2, cacheDram := s.bpm.cacheDram - r.1.length }, staging := s.staging.put s.gate.next st } : State) = u
  generalize hv : (u.quotaAdd (qOwner x.q) x.e.n).dirtyAdd x.e.n = v
  have v0 : Same [.slices] u (u.quotaAdd (qOwner x.q) x.e.n) := by unfold State.quotaAdd; split <;> (intro p hp; cases p <;> first | rfl | simp at hp)
  have v1 : v.ctxs = s.ctxs := by subst hv; subst hu; exact v0 .ctxs (by decide)
  have v2 : v.gate.dirty = s.gate.dirty + x.e.n * 4096 := by
    subst hv; show (u.quotaAdd (qOwner x.q) x.e.n).gate.dirty + _ = _; rw [v0 .gate (by decide)]; subst hu; rfl
  have v2n : v.gate.next = s.gate.next ∧ v.gate.entries = s.gate.entries := by
    subst hv; constructor
    · show (u.quotaAdd (qOwner x.q) x.e.n).gate.next = _; rw [v0 .gate (by decide)]; subst hu; rfl
    · show (u.quotaAdd (qOwner x.q) x.e.n).gate.entries = _; rw [v0 .gate (by decide)]; subst hu; rfl
  have v3 : v.staging = s.staging.put s.gate.next st := by subst hv; exact (v0 .staging (by decide)).trans (by subst hu; rfl)
  have v4 : v.key = s.key := by subst hv; exact (v0 .key (by decide)).trans (by subst hu; rfl)
  have v5 : ∀ k, (v.slice k).written = (s.slice k).written + (if qOwner x.q < 1024 ∧ k = qOwner x.q then x.e.n else 0) := by
    intro k; subst hv; show ((u.quotaAdd (qOwner x.q) x.e.n).slice k).written = _; rw [quotaAdd_written]; subst hu; rfl
  have v6 : Same [.gate, .slices, .staging, .bpm] s v := by
    have a : Same [.staging, .bpm] s u := by subst hu; (intro p hp; cases p <;> first | rfl | simp at hp)
    have b : Same [.gate] (u.quotaAdd (qOwner x.q) x.e.n) v := by subst hv; (intro p hp; cases p <;> first | rfl | simp at hp)
    exact Same.mono (Same.trans (Same.trans a v0) b) (by decide)
  generalize hw2 : (v.keyEdit (qOwner x.q) fun k => { k with use := k.use + x.e.n }).keyRef (qOwner x.q) (v.keyOwner (qOwner x.q)).cur 1 = w
  have w1 : (w.keyOwner (qOwner x.q)).use = (s.keyOwner (qOwner x.q)).use + x.e.n := by
    subst hw2; unfold State.keyRef; rw [keyEdit_keyOwner, keyEdit_keyOwner]; show (v.keyOwner (qOwner x.q)).use + _ = _
    rw [keyOwner_of_owners _ (congrArg Key.owners v4)]
  have w2 : Same [.key] v w := by subst hw2; (intro p hp; cases p <;> first | rfl | simp at hp)
  have n := keyNear_spec w (qOwner x.q)
  have kc : v.keyCharge (qOwner x.q) x.e.n = w.keyNear (qOwner x.q) := by subst hw2; rfl
  rw [kc]
  generalize hy : w.keyNear (qOwner x.q) = y at n
  have yc : y.ctxs = s.ctxs := by rw [n.2.2 .ctxs (by decide)]; exact (w2 .ctxs (by decide)).trans v1
  have yg : y.gate = v.gate := by rw [n.2.2 .gate (by decide)]; exact (w2 .gate (by decide))
  have ys : y.staging = v.staging := by rw [n.2.2 .staging (by decide)]; exact (w2 .staging (by decide))
  have yS : Same (Piece.event ++ [.gate, .slices, .staging, .bpm, .key]) s y :=
    Same.mono (Same.trans (Same.trans v6 w2) n.2.2) (by decide)
  have hl : (y.ctxEdit E.ctx fun z => { z with units := x.e.n, bufs := r.1 }).ctxs.look E.ctx = some { x with units := x.e.n, bufs := r.1 } := by
    rw [ctxEdit_ctxs, yc]; exact Tbl.look_edit _ h.here
  refine ⟨⟨_, enter_look hl rfl, rfl, rfl, ?_⟩, ?_, ?_, ?_, ?_, ?_, ?_, ?_, st, ?_, ?_⟩
  · show y.gate.next = _; rw [yg]; exact v2n.1
  · intro k hk
    rw [enter_others _ _ k hk, ctxEdit_ctxs, yc]
    exact Tbl.look_edit_ne _ _ hk
  · show y.gate.next + 1 = _; rw [yg, v2n.1]
  · rw [enter_entries]; show y.gate.entries.put y.gate.next E = _; rw [yg, v2n.1, v2n.2]
  · exact Same.mono (Same.trans (Same.trans yS (by intro p hp; cases p <;> first | rfl | simp at hp : Same [.ctxs] y _)) (enter_same _ _)) (by decide)
  · show y.gate.dirty = _; rw [yg, v2]
  · show (y.keyOwner _).use = _; rw [n.1, w1]
  · show (y.slice _).written = _
    rw [n.2.1, slice_of_slices (w2 .slices (by decide)), v5]; simp
  · show y.staging = _; rw [ys, v3]
  · subst hst; exact ⟨rfl, rfl, rfl, lb, rfl⟩

/-- Every zone is in the state that it was in. -/
def SameZs (s t : State) : Prop := ∀ k, (t.zones.look k).map (·.zs) = (s.zones.look k).map (·.zs)

theorem SameZs.refl (s) : SameZs s s := fun _ => rfl

theorem SameZs.trans {s t u} (a : SameZs s t) (b : SameZs t u) : SameZs s u := fun k => (b k).trans (a k)

theorem SameZs.of_zones {s t : State} (h : t.zones = s.zones) : SameZs s t := fun k => by rw [h]

theorem SameZs.edit (s : State) (zk) (f : Zone → Zone) (hf : ∀ z, (f z).zs = z.zs) : SameZs s (s.zoneEdit zk f) := by
  intro k
  unfold State.zoneEdit
  dsimp only
  by_cases h : k = zk
  · subst h
    cases e : s.zones.look k with
    | none => unfold Tbl.edit; rw [e]; simp [e]
    | some z => rw [Tbl.look_edit _ e]; simp [hf]
  · rw [Tbl.look_edit_ne _ _ h]

theorem SameZs.nats {f : State → Nat → State} (hf : ∀ s a, SameZs s (f s a)) : ∀ (l : List Nat) (s : State), SameZs s (forNats l s f)
  | [], s => SameZs.refl s
  | a :: l, s => (hf s a).trans (SameZs.nats hf l (f s a))

theorem SameZs.fold {α} {f : State → α → State} (hf : ∀ s a, SameZs s (f s a)) : ∀ (l : List α) (s : State), SameZs s (l.foldl f s)
  | [], s => SameZs.refl s
  | a :: l, s => (hf s a).trans (SameZs.fold hf l (f s a))

theorem slcPages_zs (s zk row n ps) : SameZs s (State.slcPages s zk row n ps).2 := by
  unfold State.slcPages
  split
  · dsimp only
    refine SameZs.trans ?_ (SameZs.edit _ _ _ ?_)
    rotate_left
    · intro z; rfl
    apply SameZs.of_zones
    have : ∀ (ps : List (Nat × Nat)) (r : List Pg × State), (ps.foldl (fun (r : List Pg × State) x =>
      match r.2.slcBlock x.2 with
      | none => r
      | some b =>
        let bk := blkKey x.2 b
        let o : Op := { die := x.2, block := b, row := (r.2.blk bk).taken, kind := .progSlc zk x.1, owner := 1024
                        seq := 0, slcMode := true }
        (r.1 ++ [{ pos := x.1, die := x.2, block := b, page := (r.2.blk bk).taken }]
         , (r.2.blkEdit bk fun i => { i with taken := i.taken + 1, st := 4 }).opQueue o)) r).2.zones = r.2.zones := by
      intro ps
      induction ps with
      | nil => intro r; rfl
      | cons a l ih =>
        intro r
        rw [List.foldl_cons, ih]
        split
        · rfl
        · exact (State.opQueue_law _ _).same .zones (by decide)
    exact this ps ([], s)
  · exact SameZs.refl _

theorem slcWrite_zs (s zk) : SameZs s (State.slcWrite s zk).1 := by
  unfold State.slcWrite
  split
  · refine SameZs.edit _ _ _ ?_
    intro z; rfl
  · dsimp only
    split
    · refine SameZs.edit _ _ _ ?_
      intro z; rfl
    · have cases2 : ∀ (b : Bool) (u v : State × List Nat), SameZs s u.1 → SameZs s v.1 → SameZs s (if b then u else v).1 := by
        intro b u v hu hv; cases b
        · exact hv
        · exact hu
      refine cases2 _ _ _ (SameZs.refl _) ?_
      dsimp only
      split
      · exact slcPages_zs _ _ _ _ _
      · refine SameZs.edit _ _ _ ?_
        intro z; rfl

theorem slcReclaim_zs (s dk) : SameZs s (State.slcReclaim s dk) := by
  unfold State.slcReclaim
  split
  · exact SameZs.refl _
  · split
    · exact SameZs.refl _
    · dsimp only
      split
      · exact SameZs.of_zones ((State.eraseQueue_law _ _ _ _).same .zones (by decide))
      · refine SameZs.nats (fun s a => ?_) _ _
        split
        · exact SameZs.refl _
        · refine SameZs.trans (SameZs.edit s a _ ?_) (slcWrite_zs _ a)
          intro z; rfl

theorem slcStart_zs (s zk) : SameZs s (State.slcStart s zk) := by
  unfold State.slcStart
  exact SameZs.trans (slcWrite_zs s zk) (SameZs.fold (fun s a => slcReclaim_zs s a) _ _)

theorem rowStart_zs (s zk tag row) : SameZs s (State.rowStart s zk tag row) := by
  unfold State.rowStart
  split
  · exact SameZs.refl _
  · split
    · exact SameZs.refl _
    · dsimp only
      refine SameZs.trans (t := { s.foldRead zk (tag + row) with dma := { s.dma with fences := s.dma.fences ++ [(0, accKey zk (tag + row) 0)] } }.zoneEdit zk fun z =>
        { z with rowPages := z.rowPages.put (tag + row) ((s.zone zk).rowPages.get (tag + row) []), rowsCut := z.rowsCut.filter (· != tag + row) }) ?_ (SameZs.fold (fun s x => ?_) _ _)
      · refine SameZs.trans (SameZs.of_zones (t := { s.foldRead zk (tag + row) with dma := { s.dma with fences := s.dma.fences ++ [(0, accKey zk (tag + row) 0)] } }) ?_) (SameZs.edit _ _ _ ?_)
        · exact (State.foldRead_law _ _ _).same .zones (by decide)
        · intro z; rfl
      · split
        · exact SameZs.refl _
        · exact SameZs.of_zones ((State.opQueue_law _ _).same .zones (by decide))

theorem rowsStart_zs (s zk tag upto) : SameZs s (State.rowsStart s zk tag upto) := by
  unfold State.rowsStart
  split
  · exact SameZs.refl _
  · dsimp only
    refine SameZs.nats (fun s a => ?_) _ _
    split
    · exact SameZs.refl _
    · exact rowStart_zs _ _ _ _

/-- Zone `k` exists and is in state `z`. -/
def ZoneIs (t : State) (k : Nat) (z : Zs) : Prop := (t.zones.look k).map (·.zs) = some z

theorem ZoneIs.of_same {s t k z} (h : ZoneIs s k z) (r : SameZs s t) : ZoneIs t k z := (r k).trans h

theorem ZoneIs.zs {t : State} {k z} (h : ZoneIs t k z) : (t.zone k).zs = z := by
  unfold ZoneIs at h
  unfold State.zone Tbl.get
  cases e : t.zones.look k with
  | none => simp [e] at h
  | some y => simpa [e] using h

theorem zoneEdit_is {s : State} {k : Nat} {y} (h : ZoneIs s k y) (f : Zone → Zone) {z} (hf : ∀ x, (f x).zs = z) : ZoneIs (s.zoneEdit k f) k z := by
  unfold ZoneIs at h ⊢
  unfold State.zoneEdit
  dsimp only
  cases e : s.zones.look k with
  | none => simp [e] at h
  | some w => rw [Tbl.look_edit _ e]; simp [hf]

theorem keyRecClear_zs (s zk) : SameZs s (State.keyRecClear s zk) := by
  unfold State.keyRecClear
  exact SameZs.trans (SameZs.edit s zk (fun z => { z with keyRec := [] }) fun _ => rfl) (SameZs.fold (fun s _ => SameZs.of_zones ((State.keyUnref_law s _ _ _).same .zones (by decide))) _ _)

theorem zoneUnplace_release_zs (s : State) (zk) : ∀ u, SameZs s (match (s.zone zk).place with
    | some p => p.pos.foldl (fun (s : State) (x : Nat × Option Nat) => match x.2 with
        | some b => s.blkEdit (blkKey x.1 b) fun i => { i with
            st := if i.unerased then 1 else 0, retire := if i.retire = 0 ∧ s.geom.ecmax ≤ i.erases then 4 else i.retire }
        | none => s) u
    | none => u) ↔ SameZs s u := by
  intro u
  have h : ∀ p : Place, (p.pos.foldl (fun (s : State) (x : Nat × Option Nat) => match x.2 with
        | some b => s.blkEdit (blkKey x.1 b) fun i => { i with
            st := if i.unerased then 1 else 0, retire := if i.retire = 0 ∧ s.geom.ecmax ≤ i.erases then 4 else i.retire }
        | none => s) u).zones = u.zones := by
    intro p
    generalize p.pos = l
    induction l generalizing u with
    | nil => rfl
    | cons a l ih =>
      rw [List.foldl_cons, ih]
      split <;> rfl
  cases (s.zone zk).place with
  | none => rfl
  | some p => unfold SameZs; rw [h p]

theorem zoneUnplace_is {s : State} {zk y} (h : ZoneIs s zk y) : ZoneIs (s.zoneUnplace zk) zk .empty := by
  unfold State.zoneUnplace
  dsimp only
  refine zoneEdit_is (y := y) ?_ _ fun _ => rfl
  refine ZoneIs.of_same h ((zoneUnplace_release_zs s zk _).mpr ?_)
  exact SameZs.trans (keyRecClear_zs s zk) (SameZs.of_zones rfl)

theorem zoneRelease_is {s : State} {zk y st} (h : ZoneIs s zk y) : ZoneIs (s.zoneRelease zk st) zk y := by
  refine ZoneIs.of_same h ?_
  unfold State.zoneRelease
  dsimp only
  refine SameZs.trans ?_ (SameZs.of_zones ((State.flushDone_law _ _).same .zones (by decide)))
  refine SameZs.trans ?_ (SameZs.edit _ _ _ ?_)
  rotate_left
  · intro z; rfl
  generalize hs1 : (s.quotaSub (s.zoneOwner zk) ((s.zone zk).wp - (s.zone zk).returned)).tokRemove (s.zoneOwner zk) (fun t => t.nsid == zNsid zk && t.zone == zIndex zk) = s1
  have z1 : SameZs s s1 := by
    subst hs1
    exact SameZs.trans (SameZs.of_zones ((State.quotaSub_law _ _ _).same .zones (by decide))) (SameZs.of_zones ((State.tokRemove_law _ _ _).same .zones (by decide)))
  have z2 : SameZs s1 (((((s1.dropProgs zk fun _ => true).discardStaged zk).accClear zk).rebClear zk).keyRecClear zk) := by
    refine SameZs.trans (SameZs.of_zones ?_) (keyRecClear_zs _ _)
    exact ((State.rebClear_law _ _).same .zones (by decide)).trans (((State.accClear_law _ _).same .zones (by decide)).trans
      (((State.discardStaged_law _ _).same .zones (by decide)).trans ((State.dropProgs_law _ _ _).same .zones (by decide))))
  refine SameZs.trans z1 (SameZs.trans z2 (SameZs.trans (SameZs.fold (fun s p => ?_) _ _) (SameZs.of_zones ((State.copyingLeave_law _ _).same .zones (by decide)))))
  split
  · exact SameZs.of_zones ((State.freePlace_law _ _).same .zones (by decide))
  · exact SameZs.refl _

theorem rebDiscard_zs (s zk) : SameZs s (State.rebDiscard s zk) := by
  unfold State.rebDiscard
  dsimp only
  refine SameZs.trans (SameZs.trans (SameZs.nats (fun s a => SameZs.of_zones ((State.opDrop_law _ _).same .zones (by decide))) _ _) (SameZs.fold (fun s q => ?_) _ _)) (SameZs.of_zones ((State.rebClear_law _ _).same .zones (by decide)))
  split
  · split
    · split
      · exact SameZs.refl _
      · refine SameZs.trans (SameZs.of_zones ((State.blockLeave_law _ _ _).same .zones (by decide))) (SameZs.edit _ _ _ ?_)
        intro z; rfl
    · exact SameZs.refl _
  · exact SameZs.refl _

theorem stampSend_members (s : State) (n) : (s.stampSend n).cas.members = s.cas.members := by
  unfold State.stampSend
  generalize s.seqMembers = l
  have one : ∀ (s : State) (p vc ty len b), (s.casSend p vc ty len b).cas.members = s.cas.members := by
    intro s p vc ty len b
    unfold State.casSend
    dsimp only
    split
    · rfl
    · split <;> rfl
  induction l generalizing s with
  | nil => rfl
  | cons a l ih => rw [List.foldl_cons, ih]; exact one _ _ _ _ _ _

theorem edit_kind {g : Tbl Entry} {k} {f : Entry → Entry} (hf : ∀ e, (f e).kind = e.kind) (j) : ((g.edit k f).look j).map (·.kind) = (g.look j).map (·.kind) := by
  by_cases h : j = k
  · subst h
    cases e : g.look j with
    | none => unfold Tbl.edit; rw [e]; simp [e]
    | some z => rw [Tbl.look_edit _ e]; simp [hf]
  · rw [Tbl.look_edit_ne _ _ h]

theorem commitTail_zones (u : State) (stamp zk) (e : Entry) (hk : e.kind = .openE ∨ e.kind = .closeE ∨ e.kind = .finishE ∨ e.kind = .resetE ∨ e.kind = .offlineE)
    (he : (u.gate.entries.look stamp).map (·.kind) = some e.kind) :
    ((((u.scopeDone stamp zk).leaseSync zk).migCheck).settle).zones = u.zones := by
  rw [(State.settle_law _).same .zones (by decide), (State.migCheck_law _).same .zones (by decide), (State.leaseSync_law _ _).same .zones (by decide)]
  unfold State.scopeDone
  cases h : u.gate.entries.look stamp with
  | none => rfl
  | some y =>
    rw [h] at he
    have hy : y.kind = e.kind := by simpa using he
    dsimp only
    split
    · unfold State.commitLast
      rcases hk with hk | hk | hk | hk | hk <;> rw [hy, hk] <;> exact (State.finish_law _ _ _ _ _ _).same .zones (by decide)
    · rfl


/-- A zone operation on a zone whose chip no fence stops. -/
def zoneOpBody (s : State) (op : ZOp) (zk stamp : Nat) (fence : BitVec 256) : Except Status State :=
    let z := s.zone zk
    match op with
    | .open =>
      match z.zs with
      | .implOpen | .explOpen => .ok (s.zoneEdit zk fun z => { z with zs := .explOpen })
      | .closed =>
        match s.openCheck zk z.zs with
        | .error e => .error e
        | .ok v => .ok ((s.implClose v stamp).zoneEdit zk fun z => { z with zs := .explOpen })
      | .empty =>
        match s.openCheck zk z.zs with
        | .error e => .error e
        | .ok v =>
          match s.choosePlace fence zk with
          | none => .error stTooManyActive
          | some none => .error stCapacity
          | some (some p) => .ok (((s.implClose v stamp).placeZone zk stamp p).zoneEdit zk fun z => { z with zs := .explOpen })
      | _ => .error stZoneTransition
    | .close =>
      match z.zs with
      | .implOpen | .explOpen => .ok (if z.wp = 0 then s.zoneUnplace zk else s.zoneClosed zk)
      | .closed => .ok s
      | _ => .error stZoneTransition
    | .finish =>
      match z.zs with
      | .empty => .ok (s.zoneEdit zk fun z => { z with zs := .full, lastZsc := stamp })
      | .implOpen | .explOpen | .closed =>
        let per := match z.place with | some p => p.d * s.geom.u | none => 1
        let s1 := (s.rebDiscard zk).zoneEdit zk fun z =>
          { z with zs := .full, padded := true, lastZsc := stamp, busy := none, slcWant := false }
        .ok (if s.writing zk then s1 else s1.rowsStart zk 0 (ceilDiv z.cwp per * per))
      | .full => .ok (s.zoneEdit zk fun z => { z with lastZsc := stamp, busy := none })
      | _ => .error stZoneTransition
    | .reset =>
      match z.zs with
      | .empty => .ok s
      | .implOpen | .explOpen | .closed | .full => .ok ((s.zoneRelease zk stamp).zoneEdit zk fun z => { z with zs := .empty })
      | _ => .error stZoneTransition
    | .offline =>
      match z.zs with
      | .readOnly => .ok ((s.zoneRelease zk stamp).zoneEdit zk fun z => { z with zs := .offline })
      | .offline => .ok s
      | _ => .error stZoneTransition


theorem zoneOp_unfenced {s : State} {zk op stamp fence} (h : ∀ p, (s.zone zk).place = some p → s.chipFenced p.chip = false) :
    s.zoneOp op zk stamp fence = zoneOpBody s op zk stamp fence := by
  unfold State.zoneOp
  dsimp only
  split
  · rename_i p e
    rw [h p e, if_neg (by decide)]
    unfold zoneOpBody
    dsimp only
    cases op <;> dsimp only <;> cases (s.zone zk).zs <;> first | rfl | simp only [e]
  · rename_i e
    rw [if_neg (by decide)]
    unfold zoneOpBody
    dsimp only
    cases op <;> dsimp only <;> cases (s.zone zk).zs <;> first | rfl | simp only [e]

theorem zoneOp_close_open {s : State} {zk st f} (h : ∀ p, (s.zone zk).place = some p → s.chipFenced p.chip = false) (k : (s.zone zk).zs = .implOpen ∨ (s.zone zk).zs = .explOpen)
    (y) (hy : ZoneIs s zk y) : ∃ u, s.zoneOp .close zk st f = .ok u ∧ ZoneIs u zk (if (s.zone zk).wp = 0 then .empty else .closed) := by
  rw [zoneOp_unfenced h]
  unfold zoneOpBody
  dsimp only
  have e : (match (s.zone zk).zs with
      | .implOpen | .explOpen => .ok (if (s.zone zk).wp = 0 then s.zoneUnplace zk else s.zoneClosed zk)
      | .closed => .ok s
      | _ => .error stZoneTransition : Except Status State) = .ok (if (s.zone zk).wp = 0 then s.zoneUnplace zk else s.zoneClosed zk) := by
    rcases k with k | k <;> rw [k]
  refine ⟨_, e, ?_⟩
  split
  · exact zoneUnplace_is hy
  · unfold State.zoneClosed
    exact ZoneIs.of_same (zoneEdit_is hy (fun z => { z.mark with zs := .closed }) fun _ => rfl) (slcStart_zs _ _)

/-- The state in which an operation leaves a zone (R147). -/
def opTo (op : ZOp) (z : Zone) : Option Zs :=
  match op, z.zs with
  | .open, .implOpen | .open, .explOpen => some .explOpen
  | .close, .implOpen | .close, .explOpen => some (if z.wp = 0 then .empty else .closed)
  | .close, .closed => some .closed
  | .finish, .empty | .finish, .implOpen | .finish, .explOpen | .finish, .closed | .finish, .full => some .full
  | .reset, .empty | .reset, .implOpen | .reset, .explOpen | .reset, .closed | .reset, .full => some .empty
  | .offline, .readOnly | .offline, .offline => some .offline
  | _, _ => none

/-- An operation that the table allows leaves the zone in the state that it gives. -/
theorem zoneOp_ok {s : State} {zk st f op} (h : ∀ p, (s.zone zk).place = some p → s.chipFenced p.chip = false) {w : Zs}
    (hy : ZoneIs s zk (s.zone zk).zs) (hw : opTo op (s.zone zk) = some w) : ∃ u, s.zoneOp op zk st f = .ok u ∧ ZoneIs u zk w ∧
      (((s.zone zk).zs = w ∧ op ≠ .open ∧ op ≠ .finish) → u.zones = s.zones) := by
  cases op
  case close =>
    by_cases k : (s.zone zk).zs = .implOpen ∨ (s.zone zk).zs = .explOpen
    · obtain ⟨u, e, a⟩ := zoneOp_close_open (st := st) (f := f) h k _ hy
      refine ⟨u, e, ?_, ?_⟩
      · rcases k with k | k <;> (simp only [opTo, k, Option.some.injEq] at hw; rw [← hw]; exact a)
      · intro hc; exfalso
        rcases k with k | k <;> (simp only [opTo, k, Option.some.injEq] at hw; rw [← hw, k] at hc; have := hc.1; split at this <;> simp at this)
    · rw [zoneOp_unfenced h]
      unfold zoneOpBody
      dsimp only
      generalize hz : (s.zone zk).zs = q at *
      cases q <;> simp [opTo, hz] at hw k
      subst hw
      exact ⟨s, rfl, hy, fun _ => rfl⟩
  all_goals
    rw [zoneOp_unfenced h]
    unfold zoneOpBody
    dsimp only
    generalize hz : (s.zone zk).zs = q at *
    cases q <;> simp [opTo, hz] at hw
    all_goals subst hw
  case finish.empty => exact ⟨_, rfl, zoneEdit_is hy (fun z => { z with zs := .full, lastZsc := st }) fun _ => rfl, by simp⟩
  case finish.full => exact ⟨_, rfl, ZoneIs.of_same hy (SameZs.edit _ _ (fun z => { z with lastZsc := st, busy := none }) fun _ => rfl), by simp⟩
  case reset.empty => exact ⟨_, rfl, hy, fun _ => rfl⟩
  case offline.offline => exact ⟨_, rfl, hy, fun _ => rfl⟩
  case offline.readOnly => exact ⟨_, rfl, zoneEdit_is (zoneRelease_is hy) (fun z => { z with zs := .offline }) fun _ => rfl, by simp⟩
  case reset.implOpen => exact ⟨_, rfl, zoneEdit_is (zoneRelease_is hy) (fun z => { z with zs := .empty }) fun _ => rfl, by simp⟩
  case reset.explOpen => exact ⟨_, rfl, zoneEdit_is (zoneRelease_is hy) (fun z => { z with zs := .empty }) fun _ => rfl, by simp⟩
  case reset.closed => exact ⟨_, rfl, zoneEdit_is (zoneRelease_is hy) (fun z => { z with zs := .empty }) fun _ => rfl, by simp⟩
  case reset.full => exact ⟨_, rfl, zoneEdit_is (zoneRelease_is hy) (fun z => { z with zs := .empty }) fun _ => rfl, by simp⟩
  all_goals first
    | exact ⟨_, rfl, zoneEdit_is hy (fun z => { z with zs := .explOpen }) fun _ => rfl, by simp⟩
    | (
        refine ⟨_, rfl, ?_, by simp⟩
        have a := zoneEdit_is (ZoneIs.of_same hy (rebDiscard_zs s zk)) (fun z => { z with zs := .full, padded := true, lastZsc := st, busy := none, slcWant := false }) (z := .full) fun _ => rfl
        split
        · exact a
        · exact ZoneIs.of_same a (rowsStart_zs _ _ _ _))

/-- An operation that the table refuses changes nothing. -/
theorem zoneOp_bad {s : State} {zk st f op} (h : ∀ p, (s.zone zk).place = some p → s.chipFenced p.chip = false)
    (hw : opTo op (s.zone zk) = none) (h2 : ¬ (op = .open ∧ ((s.zone zk).zs = .empty ∨ (s.zone zk).zs = .closed))) : s.zoneOp op zk st f = .error stZoneTransition := by
  rw [zoneOp_unfenced h]
  unfold zoneOpBody
  dsimp only
  cases op <;> generalize hz : (s.zone zk).zs = q at * <;> cases q <;> simp [opTo, hz] at hw h2 ⊢

/-- The entries that have not committed stay. -/
def SameEntries (s t : State) : Prop := t.gate.entries = s.gate.entries

theorem SameEntries.trans {s t u} (a : SameEntries s t) (b : SameEntries t u) : SameEntries s u := Eq.trans b a

theorem SameEntries.of_gate {s t : State} (h : t.gate = s.gate) : SameEntries s t := by unfold SameEntries; rw [h]

theorem releaseUnits_entries (s stamp js) : SameEntries s (State.releaseUnits s stamp js) := by
  unfold State.releaseUnits
  split
  · rfl
  · dsimp only
    have : ∀ (l : List (Nat × Nat)) (g : Nat → Bool) (o : Nat) (s : State), (l.foldl (fun s x => if g x.1 then s.bufFree o x.2 else s) s).gate = s.gate := by
      intro l g o
      induction l with
      | nil => intro s; rfl
      | cons a l ih =>
        intro s
        rw [List.foldl_cons, ih]
        split
        · exact (State.bufFree_law _ _ _).same .gate (by decide)
        · rfl
    rename_i st _
    generalize hg : (fun i => ((List.range 4).all fun t => decide (st.n ≤ 4 * i + t) || (js.filter (fun j => decide (j < st.n) && !st.released.contains j) ++ st.released).contains (4 * i + t)) && !((List.range 4).all fun t => decide (st.n ≤ 4 * i + t) || st.released.contains (4 * i + t))) = g
    have h1 := this ((List.range st.bufs.length).zip st.bufs) g st.owner s
    subst hg
    have h2 := congrArg Gate.entries h1
    split
    · exact h2
    · exact h2

theorem discardStaged_entries (s zk) : SameEntries s (State.discardStaged s zk) := by
  unfold State.discardStaged forNats
  dsimp only
  generalize s.staging.keysWhere _ = l
  induction l generalizing s with
  | nil => rfl
  | cons a l ih =>
    rw [List.foldl_cons]
    refine SameEntries.trans ?_ (ih _)
    split
    · rfl
    · split
      · exact releaseUnits_entries _ _ _
      · rfl

theorem zoneRelease_entries (s zk st) : SameEntries s (State.zoneRelease s zk st) := by
  unfold State.zoneRelease
  dsimp only
  refine SameEntries.trans ?_ (SameEntries.of_gate ((State.flushDone_law _ _).same .gate (by decide)))
  have h : SameEntries s (State.keyRecClear ((((((s.quotaSub (s.zoneOwner zk) ((s.zone zk).wp - (s.zone zk).returned)).tokRemove (s.zoneOwner zk) (fun t => t.nsid == zNsid zk && t.zone == zIndex zk)).dropProgs zk fun _ => true).discardStaged zk).accClear zk).rebClear zk) zk) := by
    refine SameEntries.trans (t := ((s.quotaSub (s.zoneOwner zk) ((s.zone zk).wp - (s.zone zk).returned)).tokRemove (s.zoneOwner zk) (fun t => t.nsid == zNsid zk && t.zone == zIndex zk)).dropProgs zk fun _ => true) (SameEntries.of_gate ?_) (SameEntries.trans (discardStaged_entries _ zk) (SameEntries.of_gate ?_))
    · rw [(State.dropProgs_law _ _ _).same .gate (by decide), (State.tokRemove_law _ _ _).same .gate (by decide), (State.quotaSub_law _ _ _).same .gate (by decide)]
    · rw [(State.keyRecClear_law _ _).same .gate (by decide), (State.rebClear_law _ _).same .gate (by decide), (State.accClear_law _ _).same .gate (by decide)]
  generalize State.keyRecClear ((((((s.quotaSub (s.zoneOwner zk) ((s.zone zk).wp - (s.zone zk).returned)).tokRemove (s.zoneOwner zk) (fun t => t.nsid == zNsid zk && t.zone == zIndex zk)).dropProgs zk fun _ => true).discardStaged zk).accClear zk).rebClear zk) zk = w at h
  refine SameEntries.trans h (SameEntries.trans ?_ (SameEntries.of_gate ((State.copyingLeave_law _ _).same .gate (by decide))))
  generalize [(s.zone zk).place, (s.zone zk).migOld] = l
  revert w
  induction l with
  | nil => intro w _; rfl
  | cons a l ih =>
    intro w hw
    rw [List.foldl_cons]
    have e : SameEntries w (match a with | some p => w.freePlace p | none => w) := by
      cases a with
      | none => rfl
      | some p => exact SameEntries.of_gate ((State.freePlace_law _ _).same .gate (by decide))
    exact SameEntries.trans e (ih _ (SameEntries.trans hw e))

theorem zoneOp_entries {s u : State} {zk st f op} (h : ∀ p, (s.zone zk).place = some p → s.chipFenced p.chip = false) {w : Zs}
    (hw : opTo op (s.zone zk) = some w) (hu : s.zoneOp op zk st f = .ok u) : SameEntries s u := by
  rw [zoneOp_unfenced h] at hu
  unfold zoneOpBody at hu
  dsimp only at hu
  cases op <;> generalize hz : (s.zone zk).zs = q at * <;> cases q <;> simp [opTo, hz] at hw <;> simp only [Except.ok.injEq] at hu <;> subst hu
  all_goals first
    | exact rfl
    | exact zoneRelease_entries _ _ _
    | (split
       · exact SameEntries.of_gate ((State.zoneUnplace_law _ _).same .gate (by decide))
       · exact SameEntries.of_gate ((State.zoneClosed_law _ _).same .gate (by decide)))
    | (split
       · exact SameEntries.of_gate ((State.rebDiscard_law _ _).same .gate (by decide))
       · exact SameEntries.of_gate (((State.rowsStart_law _ _ _ _).same .gate (by decide)).trans ((State.rebDiscard_law _ _).same .gate (by decide))))

/-- no system entry waits -/
def NoSystem (g : Tbl Entry) : Prop := ∀ p ∈ g, p.2.sys = none

theorem NoSystem.del {g : Tbl Entry} (h : NoSystem g) (k) : NoSystem (g.del k) := by
  intro p hp
  induction g with
  | nil => simp [Tbl.del] at hp
  | cons a l ih =>
    unfold Tbl.del at hp
    split at hp
    · exact ih (fun q hq => h q (by simp [hq])) hp
    · rcases List.mem_cons.mp hp with rfl | m
      · exact h _ (by simp)
      · exact ih (fun q hq => h q (by simp [hq])) m

theorem NoSystem.put {g : Tbl Entry} (h : NoSystem g) (k) {e : Entry} (he : e.sys = none) : NoSystem (g.put k e) := by
  induction g with
  | nil => intro p hp; simp [Tbl.put] at hp; subst hp; exact he
  | cons a l ih =>
    have hl : NoSystem l := fun q hq => h q (by simp [hq])
    intro p hp
    unfold Tbl.put at hp
    split at hp
    · rcases List.mem_cons.mp hp with rfl | m
      · exact he
      · exact hl _ m
    · split at hp
      · rcases List.mem_cons.mp hp with rfl | m
        · exact he
        · exact h _ m
      · rcases List.mem_cons.mp hp with rfl | m
        · exact h _ (by simp)
        · exact ih hl _ m

theorem pair_mem_of_look {g : Tbl Entry} {k e} (h : g.look k = some e) : (k, e) ∈ g := by
  induction g with
  | nil => simp [Tbl.look] at h
  | cons a l ih =>
    unfold Tbl.look at h
    split at h
    · rename_i q; cases h; subst q; simp
    · exact List.mem_cons_of_mem _ (ih h)

theorem NoSystem.edit {g : Tbl Entry} (h : NoSystem g) (k) {f : Entry → Entry} (hf : ∀ e, (f e).sys = e.sys) : NoSystem (g.edit k f) := by
  unfold Tbl.edit
  split
  · rename_i v hv; exact NoSystem.put h k ((hf v).trans (h _ (pair_mem_of_look hv)))
  · exact h

theorem sysGo_id {s : State} (h : NoSystem s.gate.entries) : s.sysGo = s := by
  unfold State.sysGo State.sysRun
  split
  · rename_i k e l q
    rw [h (k, e) (by rw [q]; simp)]
  · rfl

theorem due_entries (d : List Nat) : ∀ g : Gate, (d.foldl (fun g t => (g.foldTo t).latchAt t) g).entries = g.entries := by
  have l : ∀ (g : Gate) n, (g.latchAt n).entries = g.entries := by intro g n; unfold Gate.latchAt; dsimp only; split <;> rfl
  induction d with
  | nil => intro g; rfl
  | cons a d ih => intro g; rw [List.foldl_cons, ih, l]; rfl

theorem settle_entries (s : State) : s.settle.gate.entries = s.gate.entries := by
  have f : ∀ (g : Gate) n, (g.foldTo n).entries = g.entries := fun _ _ => rfl
  unfold State.settle Gate.settle
  dsimp only
  rw [f, due_entries]

theorem stampFlush_entries (s : State) (n) : (s.stampFlush n).gate.entries = s.gate.entries := by
  unfold State.stampFlush
  dsimp only
  generalize s.gate.entries.filter _ = l
  generalize hg : ({ s with gate := { s.gate with sent := max s.gate.sent (n + 1) } } : State) = g
  have e : g.gate.entries = s.gate.entries := by subst hg; rfl
  rw [← e]; clear e hg
  induction l generalizing g with
  | nil => rfl
  | cons a d ih => rw [List.foldl_cons, ih, (State.stampSend_law _ _).same .gate (by decide)]

theorem stampFlush_zones (s : State) (n) : (s.stampFlush n).zones = s.zones := (State.stampFlush_law s n).same .zones (by decide)

theorem stampFlush_members (s : State) (n) : (s.stampFlush n).cas.members = s.cas.members := by
  unfold State.stampFlush
  dsimp only
  generalize s.gate.entries.filter _ = l
  generalize hg : ({ s with gate := { s.gate with sent := max s.gate.sent (n + 1) } } : State) = g
  have e : g.cas.members = s.cas.members := by subst hg; rfl
  rw [← e]; clear e hg
  induction l generalizing g with
  | nil => rfl
  | cons a d ih => rw [List.foldl_cons, ih, stampSend_members]

theorem scopeDone_noSystem {w : State} (h : NoSystem w.gate.entries) (n zk) : NoSystem (w.scopeDone n zk).gate.entries := by
  unfold State.scopeDone
  split
  · exact h
  · rename_i e he
    dsimp only
    split
    · rw [(State.commitLast_law _ _).same .gate (by decide)]; exact NoSystem.del h n
    · exact NoSystem.put h n (h _ (pair_mem_of_look he))

theorem NoSystem.tail {w : State} (h : NoSystem w.gate.entries) (n zk) : NoSystem ((((w.scopeDone n zk).leaseSync zk).migCheck).settle).gate.entries := by
  rw [settle_entries, (State.migCheck_law _).same .gate (by decide), (State.leaseSync_law _ _).same .gate (by decide)]
  exact scopeDone_noSystem h n zk

theorem retire_keeps (k : KeyOwner) (f j : Nat) (hj : k.cur ≤ j) : (k.retire f).cur = k.cur ∧ (k.retire f).use = k.use ∧ (k.retire f).slots.look j = k.slots.look j := by
  induction f generalizing k with
  | zero => exact ⟨rfl, rfl, rfl⟩
  | succ f ih =>
    unfold KeyOwner.retire
    split
    · rename_i h
      obtain ⟨a, b, c⟩ := ih { k with oldest := k.oldest + 1, slots := k.slots.del k.oldest, refs := k.refs.del k.oldest } hj
      exact ⟨a, b, c.trans (Tbl.look_del_ne _ (by have := h.1; omega))⟩
    · exact ⟨rfl, rfl, rfl⟩

theorem keySweep_keyOwner (s : State) (o) : s.keySweep.keyOwner o = s.keyOwner o := rfl

theorem keyDecide_entries (s : State) (n e) : (s.keyDecide n e).gate.entries = s.gate.entries := by
  have fail : ∀ (s : State) (r : CRec) c st d, ((s.record r).finish c st d).gate.entries = s.gate.entries := by
    intro s r c st d; rw [(State.finish_law _ _ _ _ _ _).same .gate (by decide)]; rfl
  have fr : ∀ (s : State) a b c d, (s.fire a b c d).gate = s.gate := fun s a b c d => (State.fire_law _ _ _ _ _ _).same .gate (by decide)
  unfold State.keyDecide
  dsimp only
  split
  · exact fail _ _ _ _ _
  · split
    · split
      · split
        · rw [fail, fr]
        · rw [(State.finish_law _ _ _ _ _ _).same .gate (by decide), (State.ledger_law _).same .gate (by decide), (State.keyRotate_law _ _).same .gate (by decide)]
      · exact fail _ _ _ _ _
    · split
      · split
        · rw [fail, fr]
        · rw [(State.finish_law _ _ _ _ _ _).same .gate (by decide), (State.ledger_law _).same .gate (by decide), (State.keyRenewNext_law _ _).same .gate (by decide)]
      · rw [(State.finish_law _ _ _ _ _ _).same .gate (by decide), (State.keyStop_law _ _).same .gate (by decide)]

end Sys2Proof.Laws
end

