-- ==== Sys2Proof/Tests/Slice0.lean ====
section
/-! SUPPORT. Tests of the model's own: an ill-formed command for each check of `Instr.wf`, small steps whose result stands in the
spec, and, for every statement of Obligations.lean with hypotheses, a `witness_` theorem: concrete states and operands that meet them,
clause by clause. -/

-- One theorem after another: side by side they need more threads than the memory limit allows.
set_option Elab.async false

namespace Sys2Proof.Tests

open Sys2Proof Sys2Proof.Machine Sys2Proof.Safety

/-! ### Well-formed commands -/

/-- A submission entry with an opcode and every other field 0. -/
def ent (opc : Nat) : SqEntry where
  opc := opc
  fuse := 0
  psdt := 0
  cid := 0
  nsid := 0
  cdw2 := 0
  cdw3 := 0
  mptr := 0
  dptr0 := 0
  dptr1 := 0
  cdw10 := 0
  cdw11 := 0
  cdw12 := 0
  cdw13 := 0
  cdw14 := 0
  cdw15 := 0

/-- The frame of port 0 on a VC, next in order, its tag good. -/
def frame (vc : Nat) : Frame := { port := 0, fseq := 0, vc := vc, mseq := 1, len := 0, tagOk := true }

theorem test_wf_contexts : (Instr.createIoSq 65535).wf = true ∧ (Instr.createIoSq 65536).wf = false ∧
    (Instr.completionPost 65536).wf = false ∧ (Instr.nsAttach 65536 []).wf = false ∧ (Instr.fwDownload 65536 []).wf = false ∧
    (Instr.dsm 65536 []).wf = false := by decide
theorem test_wf_entry : (Instr.submissionFetch 0 (ent 255)).wf = true ∧ (Instr.submissionFetch 0 (ent 256)).wf = false ∧
    (Instr.submissionFetch 0 { ent 0 with fuse := 4 }).wf = false ∧ (Instr.submissionFetch 0 { ent 0 with psdt := 4 }).wf = false ∧
    (Instr.submissionFetch 0 { ent 0 with cid := 65536 }).wf = false ∧
    (Instr.submissionFetch 0 { ent 0 with nsid := 2 ^ 32 }).wf = false := by decide
theorem test_wf_slices : (Instr.sliceReturned 1023).wf = true ∧ (Instr.sliceReturned 1024).wf = false ∧
    (Instr.slcDbSq 0 none 127 4095).wf = true ∧ (Instr.slcDbSq 1024 none 0 0).wf = false ∧
    (Instr.slcDbSq 0 (some (2 ^ 20 - 1)) 0 0).wf = true ∧ (Instr.slcDbSq 0 (some (2 ^ 20)) 0 0).wf = false ∧
    (Instr.slcDbSq 0 none 128 0).wf = false ∧ (Instr.slcDbCq 0 none 0 4096).wf = false ∧
    (Instr.queuePairEnable 0 none 128 0).wf = false ∧ (Instr.slcNrHead 0 none 4096).wf = false ∧
    (Instr.slcNrCtl 1024 none 0).wf = false ∧ (Instr.bar4CheckFailure 0 none false 16384).wf = false := by decide
theorem test_wf_mailboxes : (Instr.slcMbinPtr .manager 0 63).wf = true ∧ (Instr.slcMbinPtr .manager 0 64).wf = false ∧
    (Instr.flushIn (.tenant (some (2 ^ 20))) 0).wf = false ∧ (Instr.slcMboutPush .manager 1024 true 0).wf = false := by decide
theorem test_wf_controller : (Instr.dmaThaw 1024).wf = true ∧ (Instr.dmaThaw 1025).wf = false ∧
    (Instr.pfSqDoorbell 65536 0).wf = false ∧ (Instr.pfCqDoorbell 0 65536).wf = false ∧
    (Instr.shutdownNotification 1).wf = true ∧ (Instr.shutdownNotification 0).wf = false ∧
    (Instr.shutdownNotification 3).wf = false ∧ (Instr.vectorUnmask (some 2047)).wf = true ∧
    (Instr.vectorUnmask (some 2048)).wf = false ∧ (Instr.hayrickCacheRefill 2).wf = false := by decide
theorem test_wf_units : (Instr.unitEntersScheduler 0 511).wf = true ∧ (Instr.unitEntersScheduler 0 512).wf = false ∧
    (Instr.reconstructionDone 0 512 true true).wf = false ∧ (Instr.unitTransferDone 0 0 (0, 2 ^ 64 - 1) [] .mismatch).wf = true ∧
    (Instr.unitTransferDone 0 0 (0, 2 ^ 64) [] .mismatch).wf = false ∧ (Instr.unitTransferDone 0 512 (0, 0) [] .mismatch).wf = false ∧
    (Instr.unitTransferDone 0 0 (0, 0) (List.replicate 65 (0, 0)) .mismatch).wf = false ∧
    (Instr.busError 0 65536 .timeout .data 0 512).wf = true ∧ (Instr.busError 0 65537 .timeout .data 0 0).wf = false ∧
    (Instr.busError 0 0 .timeout .data 0 513).wf = false ∧ (Instr.dmaCompletionTimeout 0 0 .data 0 513).wf = false ∧
    (Instr.unitTransferDone 0 0 (2 ^ 32768, 0) [] .mismatch).wf = false := by decide +kernel
theorem test_wf_ranges : (Instr.dsm 0 (List.replicate 256 ⟨0, 0⟩)).wf = true ∧
    (Instr.sanitizingDeallocate 0 (List.replicate 257 ⟨0, 0⟩)).wf = false := by decide +kernel
theorem test_wf_media : (Instr.dieNextChoice 4095).wf = true ∧ (Instr.dieNextChoice 4096).wf = false ∧
    (Instr.dutyEvaluation 0 100 100).wf = true ∧ (Instr.dutyEvaluation 0 101 0).wf = false ∧ (Instr.dutyEvaluation 0 0 101).wf = false ∧
    (Instr.dieFailure 0 4).wf = true ∧ (Instr.dieFailure 0 0).wf = false ∧ (Instr.dieFailure 0 5).wf = false ∧
    (Instr.channelRetrain 32 true 0 0 []).wf = false ∧ (Instr.channelRetrain 31 false 0 0 (List.replicate 7 none)).wf = true ∧
    (Instr.channelRetrain 31 false 0 0 (List.replicate 8 none)).wf = false ∧
    (Instr.dqsOscillatorRead 16 0 false).wf = false ∧ (Instr.programStreamPanic 31 16).wf = true ∧
    (Instr.programStreamPanic 32 0).wf = false ∧ (Instr.programStreamPanic 0 17).wf = false ∧ (Instr.panicEnd 4).wf = false := by decide
theorem test_wf_cascade : (Instr.sag (frame 3)).wf = true ∧ (Instr.sag (frame 4)).wf = false ∧ (Instr.join 3 true).wf = false ∧
    (Instr.sag { frame 0 with port := 3 }).wf = false ∧ (Instr.ackTimeout 0 4 0).wf = false ∧ (Instr.excludeChip 0).wf = false ∧
    (Instr.excludeChip 3).wf = true ∧ (Instr.excludeChip 4).wf = false ∧ (Instr.readData (frame 0) 0 512 (some 0) 0).wf = false ∧
    (Instr.readData (frame 0) 0 0 none (2 ^ 64)).wf = false := by decide +kernel
theorem test_wf_sensors : (Instr.heatherSample 15 0 .good).wf = true ∧ (Instr.heatherSample 16 0 .good).wf = false ∧
    (Instr.thistleConversion 24 0 false false).wf = false ∧ (Instr.thistleConversion 23 65536 false false).wf = false ∧
    (Instr.tapChange 8).wf = false ∧ (Instr.replicaPathFailure 8).wf = false ∧ (Instr.dieShieldCheck true 64).wf = false ∧
    (Instr.voltageGlitch 16 true).wf = false ∧ (Instr.alarmLatchClear 16).wf = false := by decide
theorem test_wf_access : (Instr.eflRdp 2).wf = true ∧ (Instr.eflRdp 3).wf = false ∧ (Instr.mctpRead 2 0 0 0 0 0).wf = false ∧
    (Instr.mctpRead 0 256 0 0 0 0).wf = false ∧ (Instr.mctpWrite 0 0 0 256 0 0 []).wf = false ∧ (Instr.i3cCcc 2 .enec).wf = false ∧
    (Instr.registerWrite .bar2 0 4096 0).wf = true ∧ (Instr.registerWrite .bar2 0 0 0).wf = false ∧
    (Instr.registerWrite .bar2 0 4097 0).wf = false ∧ (Instr.registerWrite (.bar4 1024 none) 0 4 0).wf = false := by decide

/-! ### States of the tests -/

/-- The next state of an outcome. -/
def nextOf (o : Host.Outcome State Fault Refusal) : State := match o with | .next t => t | .fault _ => State.reset | .refused _ => State.reset

/-- A command context as SUBMISSION_FETCH makes it. -/
def ctxOf (q : Nat) (e : SqEntry) : Ctx := { q := q, e := e, seqNo := 0 }

/-- The crown, up, with one entry of a queue in context 0. -/
def holding (q : Nat) (e : SqEntry) : State :=
  { State.reset with ctxs := [(0, ctxOf q e)], gate := { adminOk := true, ioOk := true }, cas := { crown := true } }

theorem adminTurn {s : State} {c : Nat} {x : Ctx}
    (h : s.ctxs.look c = some x ∧ x.q = 0 ∧ (x.abortMark = false ∧ x.discard = false) ∧ (x.e.fuse = 0 ∧ x.e.psdt < 2) ∧
      s.gateTurn c x = true ∧ s.canStamp = true) : AdminTurn s c x :=
  ⟨h.1, h.2.1, h.2.2.1, h.2.2.2.1, h.2.2.2.2.1, h.2.2.2.2.2⟩

theorem ioTurn {s : State} {c : Nat} {x : Ctx} {r : List DsmRange}
    (h : s.ctxs.look c = some x ∧ x.q ≠ 0 ∧ (x.abortMark = false ∧ x.discard = false) ∧ s.gateTurn c x = true ∧
      s.ownerFrozen x.q = false ∧ s.ioChecks x.q x.e r = none ∧ (x.e.isWrite && s.rotatePending (qOwner x.q)) = false ∧
      s.resChecks x.q x.e = none ∧ s.canStamp = true) : IoTurn s c x r :=
  ⟨h.1, h.2.1, h.2.2.1, h.2.2.2.1, h.2.2.2.2.1, h.2.2.2.2.2.1, h.2.2.2.2.2.2.1, h.2.2.2.2.2.2.2.1, h.2.2.2.2.2.2.2.2⟩

theorem frameTurn {s : State} {f : Frame} {n : Nat}
    (h : n ≤ (s.port f.port).phase ∧ s.inStop = false ∧ s.brm.st < 3 ∧ f.tagOk = true ∧ f.mseq = (s.port f.port).rxSeq.get f.vc 1) :
    FrameTurn s f n :=
  ⟨h.1, h.2.1, h.2.2.1, h.2.2.2.1, h.2.2.2.2⟩

/-- An admin entry. -/
def adm (e : SqEntry) : State := holding 0 e

theorem adm_turn (e : SqEntry) (h : e.fuse = 0 ∧ e.psdt < 2) : AdminTurn (adm e) 0 (ctxOf 0 e) :=
  adminTurn ⟨rfl, rfl, ⟨rfl, rfl⟩, h, rfl, rfl⟩

/-! ### Witnesses: steps, invariants -/

theorem witness_EmptyQueueLetsTimePass : State.reset.pending = [] := rfl
theorem witness_CommandsChangeOnlyTheirParts : exec (.abort 0) State.reset = .next State.reset := rfl
theorem witness_EveryStepKeepsTheInvariant :
    Keeps State.reset ∧ step { State.reset with pending := [.abort 0] } = .next State.reset :=
  ⟨⟨⟨by unfold LogOk; decide, fun _ h => by cases h⟩, by unfold MemOk; decide, by unfold EflOk; decide⟩, rfl⟩
theorem witness_SealCounterNeverFalls :
    step { State.reset with pending := [.abort 0] } = .next State.reset ∧ State.reset.mtr.sealCnt ≤ 0xffffffff := ⟨rfl, by decide⟩

theorem witness_KeyStoreEpochNeverFalls : step { State.reset with pending := [.abort 0] } = .next State.reset := rfl

/-- A Bonnet at level 2: words 0 and 1 of sector 2048 are programmed. -/
def efl2 : Efl := { words := [(2048 * 256, 0), (2048 * 256 + 1, 0)] }

theorem witness_LevelTwoIsPermanent : Keeps { State.reset with efl := efl2 } ∧ efl2.level = 2 ∧
    step { State.reset with efl := efl2, pending := [.abort 0] } = .next { State.reset with efl := efl2 } :=
  ⟨⟨⟨by unfold LogOk; decide, fun _ h => by cases h⟩, by unfold MemOk; decide, by unfold EflOk; decide⟩, by decide, rfl⟩

/-! ### Witnesses: admin commands -/

/-- Create I/O Completion Queue: queue 1 of 2 entries, with its interrupt vector. -/
def cqEnt : SqEntry := { ent 0x05 with cdw10 := 0x10001, cdw11 := 0x3, dptr0 := 0x1000 }
def sqEnt : SqEntry := { ent 0x01 with cdw10 := 0x10001, cdw11 := 0x10001, dptr0 := 0x1000 }
def qDel (opc : Nat) : SqEntry := { ent opc with cdw10 := 1 }
def img : Image where
  revision := 1
  signed := true
  formOk := true
  vid := 0x1234
  ssvid := 0x1234
  ieee := 0
  sn := [65]
  mn := [66]
  subnqn := [67]
  crown := true
  named := 1
  joinwait := 1
  auto := false
  pairs := []
  pfQueues := 1023
  pfWeight := 1
  stopIdle := 0
  pfRaAllow := 0
  dramGib := 16
  dramRanks := 1
  dramLinkEcc := false
  dramEyeRd := 0
  dramEyeWr := 0
  dqsLimit := 0
  nbrProb := 0
  nbrDist := false
  rtOn := 0
  rtOff := 0
  drcCeThr := 0
  eccCeThr := 0
  budget0 := 0
  flags0 := 0
  budget1 := 0
  flags1 := 0
  raDepth := 0
  rdBurst := 0
  duty := 0
  limitLog2 := 36
  alarm := [0, 0, 0, 0]
  vchg := 0
  vstop := 0
  isave := 0
  testPeriod := 0
  eta := 0
  rtest := 0
  cmin := 0
  esrmax := 0
  iset := 0
  sagv := 0
  div11 := 0
  div12 := 0
  ichgFs := 0
  ntcB := 0
  ntcR25 := 0
  thermMap := 0
  down := 0
  retrain := 0
  logRows := 0
  stageAge := 0
  migZones := 0
  locks := 0
  media := { page := 4, planes := 4, spare := 4352, blocks := 1000, rows := 100, suspMax := 0, faTemp := 0, pair := 0, repl := 0
             retireMax := 0, rated := 0, ecmax := 0, eyeMin := 0, tout := 0, timing := [], tsProg := 0, tsErase := 0, tprog := 0
             tbers := 0, tread := 0, tprogSlc := 0, tbersSlc := 0, other := [] }
  qlc := false
  decl := false
  spareE := 0
  seed := 0
  slice1023 := none
  pfFence := 0
  digest := 0

/-- An admin entry at a chip that has read its image. -/
def admI (e : SqEntry) : State := { adm e with img := some img }

theorem admI_turn (e : SqEntry) (h : e.fuse = 0 ∧ e.psdt < 2) : AdminTurn (admI e) 0 (ctxOf 0 e) :=
  adminTurn ⟨rfl, rfl, ⟨rfl, rfl⟩, h, rfl, rfl⟩

theorem witness_PfQueueCommandsComplete :
    (AdminTurn (admI cqEnt) 0 (ctxOf 0 cqEnt) ∧ cqEnt.opc = 5 ∧ (admI cqEnt).createCqCheck cqEnt = none) ∧
    (let s := { adm (qDel 4) with cqs := [(1, {})] }
     AdminTurn s 0 (ctxOf 0 (qDel 4)) ∧ (qDel 4).opc = 4 ∧ bitsAt (qDel 4).cdw10.toNat 0 16 = 1 ∧ s.cqs.has 1 = true ∧ s.sqs.any (fun k y => decide (k < 1024) && y.cq == 1) = false) ∧
    (let s := { admI sqEnt with cqs := [(1, {})] }
     AdminTurn s 0 (ctxOf 0 sqEnt) ∧ sqEnt.opc = 1 ∧ s.createSqCheck sqEnt = none) ∧
    (let s := { adm (qDel 0) with sqs := [(1, {})] }
     AdminTurn s 0 (ctxOf 0 (qDel 0)) ∧ (qDel 0).opc = 0 ∧ bitsAt (qDel 0).cdw10.toNat 0 16 = 1 ∧ s.sqs.has 1 = true ∧ s.ctxs.any (fun _ y => y.q == 1) = false) :=
  ⟨⟨admI_turn _ (by decide), by decide, by decide⟩,
   ⟨adminTurn (by decide), by decide⟩, ⟨adminTurn (by decide), by decide⟩, ⟨adminTurn (by decide), by decide⟩⟩

/-- A vendor entry with dword 10. -/
def vend (opc : Nat) (d10 : Dword) : SqEntry := { ent opc with cdw10 := d10 }

/-- Get Log Page of the Error Information log: its last dword. -/
def logEnt : SqEntry := { ent 0x02 with cdw10 := 0x01, cdw12 := 16380 }
def fetchEnt : SqEntry := { ent 0xca with cdw10 := 9, dptr0 := 0x1000 }

theorem witness_ReportingCommandsComplete :
    (AdminTurn (adm (vend 0x06 0x06)) 0 (ctxOf 0 (vend 0x06 0x06)) ∧ (vend 0x06 0x06).dptrFault 4096 false = none ∧
      (adm (vend 0x06 0x06)).identifyData (vend 0x06 0x06) = .ok []) ∧
    (AdminTurn (adm logEnt) 0 (ctxOf 0 logEnt) ∧ (adm logEnt).logData logEnt 16380 4 = .ok (16384, []) ∧ logEnt.cdw1213 = 16380 ∧
      logEnt.dptrFault 4 false = none) ∧
    (AdminTurn (adm (vend 0x0a 0x01)) 0 (ctxOf 0 (vend 0x0a 0x01)) ∧ (adm (vend 0x0a 0x01)).featureNow 0x01 0 = some 0 ∧
      bitsAt (vend 0x0a 0x01).cdw10.toNat 8 3 = 0) ∧
    (AdminTurn (adm (ent 0xce)) 0 (ctxOf 0 (ent 0xce)) ∧ vendorOk (ent 0xce) 0 0 0 0 0 0 = true ∧ (ent 0xce).dptrFault 4096 false = none) ∧
    (let s : State := { adm fetchEnt with cas := { crown := true, named := 1 } }
     AdminTurn s 0 (ctxOf 0 fetchEnt) ∧ vendorOk fetchEnt 0xffffffff 0 0xffffffff 0xffffffff 0 0 = true ∧
      fetchEnt.dptrFault 40 false = none ∧ 9 ≤ fetchEnt.cdw10.toNat ∧ fetchEnt.cdw1213 < 2 ^ 62 ∧ s.cas.named.getLsbD 0 = true ∧
      s.mtr.halt = 0) :=
  ⟨⟨adm_turn _ (by decide), by decide, by unfold State.identifyData; rfl⟩, ⟨adm_turn _ (by decide), rfl, by decide, by decide⟩, ⟨adm_turn _ (by decide), by decide⟩,
   ⟨adm_turn _ (by decide), by decide⟩, ⟨adminTurn (by decide), by decide⟩⟩

theorem witness_ControlCommandsComplete :
    (let e := { vend 0x09 0x01 with cdw11 := 7 }
     AdminTurn (adm e) 0 (ctxOf 0 e) ∧ e.cdw10.getLsbD 31 = false ∧
      (adm e).setFeature 0x01 7 false = .ok ({ adm e with nvme := { (adm e).nvme with arbitration := 7 } }, 0)) ∧
    AdminTurn (adm (ent 0x18)) 0 (ctxOf 0 (ent 0x18)) ∧
    (let s := { adm (ent 0x0c) with nvme := { aers := [1, 2, 3] } }
     AdminTurn s 0 (ctxOf 0 (ent 0x0c)) ∧ s.nvme.aers.length < 4 ∧ s.nvme.aens = []) ∧
    (let e := { ent 0x0c with cid := 2 }
     let s := { adm e with nvme := { aens := [(1, 2, 3)] } }
     AdminTurn s 0 (ctxOf 0 e) ∧ s.nvme.aers.length < 4 ∧ s.nvme.aens = (1, 2, 3) :: []) ∧
    (let e := vend 0x08 0x50001
     let y (p : Phase) (st : Bool) : Ctx := { ctxOf 1 { ent 1 with cid := 5, nsid := 1 } with phase := p, stamped := st }
     let s (p : Phase) (st : Bool) : State := { adm e with ctxs := [(0, ctxOf 0 e), (1, y p st)] }
     (AdminTurn (s .fetched false) 0 (ctxOf 0 e) ∧ (s .fetched false).abortTarget 1 5 = some (1, y .fetched false) ∧
       (y .fetched false).e.isBlock = true ∧ bitsAt e.cdw10.toNat 0 16 = 1 ∧ bitsAt e.cdw10.toNat 16 16 = 5) ∧
     (AdminTurn (s .stamped true) 0 (ctxOf 0 e) ∧ (s .stamped true).abortTarget 1 5 = some (1, y .stamped true) ∧
       (y .stamped true).phase ≠ .fetched)) ∧
    (∀ d, d ∈ [0xffff0000, 0xffffffff, 0x00000400, 0x00000001] →
     let e := vend 0x08 d
     AdminTurn (adm e) 0 (ctxOf 0 e) ∧
      (adm e).ctxs.count (fun k y => k != 0 && decide (y.q = 0) && y.e.opc == 0x08 && y.stamped) < 8 ∧
      (let q := bitsAt e.cdw10.toNat 0 16
       q = 0 ∨ 1024 ≤ q ∨ (adm e).abortTarget q (bitsAt e.cdw10.toNat 16 16) = none)) :=
  ⟨⟨adm_turn _ (by decide), by decide, rfl⟩, adm_turn _ (by decide), ⟨adminTurn (by decide), by decide⟩,
   ⟨adminTurn (by decide), by decide⟩, ⟨⟨adminTurn (by decide), by decide⟩, adminTurn (by decide), by decide⟩,
   fun d h => ⟨adm_turn _ ⟨rfl, by show 0 < 2; decide⟩, by show 0 < 8; decide, by
     simp only [List.mem_cons, List.not_mem_nil, or_false] at h
     rcases h with rfl | rfl | rfl | rfl <;> decide⟩⟩

/-- A namespace of the PF. -/
def ns0 : Ns := { owner := 1024, nsze := 0x20000, conv := 0, attached := true }

theorem witness_NamespaceCommandsComplete :
    (let e := { ent 0x0d with cdw11 := 0x2000000 }
     let d : NsData := { nsze := (admI e).zsze, ncap := (admI e).zsze, flbas := 0, dps := 0, owner := 0, conv := 0 }
     AdminTurn (admI e) 0 (ctxOf 0 e) ∧ e.dptrFault 4096 false = none ∧ (admI e).nsCreateCheck e d = none) ∧
    (let e := { vend 0x15 1 with nsid := 1 }
     let s := { adm e with nss := [(1, ns0)] }
     AdminTurn s 0 (ctxOf 0 e) ∧ e.dptrFault 4096 false = none ∧ bitsAt e.cdw10.toNat 0 4 < 2 ∧ s.nss.look e.nsid = some ns0 ∧
      ns0.attached = decide (bitsAt e.cdw10.toNat 0 4 = 1)) ∧
    (let e := { vend 0x0d 1 with nsid := 1 }
     let s := { adm e with nss := [(1, ns0)] }
     AdminTurn s 0 (ctxOf 0 e) ∧ bitsAt e.cdw10.toNat 0 4 = 1 ∧ s.nss.look e.nsid = some ns0 ∧ ns0.deleting = none ∧
      s.nss.keysWhere (fun _ n => n.deleting == some 0) = [] ∧ s.nsBusy 1 = false) ∧
    (let e := { vend 0x0d 1 with nsid := 1 }
     let s := { adm e with nss := [(1, ns0)], ctxs := [(0, ctxOf 0 e), (1, { ctxOf 1 { ent 0 with nsid := 1 } with phase := .stamped, stamped := true })] }
     AdminTurn s 0 (ctxOf 0 e) ∧ s.nsBusy 1 = true) :=
  ⟨⟨admI_turn _ (by decide), by decide⟩, ⟨adminTurn (by decide), by decide⟩, ⟨adminTurn (by decide), by decide⟩,
   adminTurn (by decide), by decide⟩

theorem witness_SanitizeCommandsComplete : ∀ act, act ∈ [1, 2, 4] →
    AdminTurn (adm (vend 0x84 act)) 0 (ctxOf 0 (vend 0x84 act)) ∧ (adm (vend 0x84 act)).nvme.sani ≠ 1 ∧
    (adm (vend 0x84 act)).key.entropyBad = false ∧
    bitsAt (vend 0x84 act).cdw10.toNat 0 3 = act.toNat := by
  intro act h
  refine ⟨adm_turn _ ⟨rfl, by show 0 < 2; decide⟩, by show (0 : Nat) ≠ 1; decide, rfl, ?_⟩
  simp only [List.mem_cons, List.not_mem_nil, or_false] at h
  rcases h with rfl | rfl | rfl <;> decide

theorem witness_KeyCommandsEnterTheKeyStage : ∀ act, act < 3 →
    let e := vend 0xc9 0x400
    let d : KeyData := { version := 1, action := act, rsv3 := 0, expectGen := 0, rsv8 := 0 }
    AdminTurn (adm e) 0 (ctxOf 0 e) ∧ vendorOk e 0x7ff 0 0 0 0 0 = true ∧ e.dptrFault 512 false = none ∧
    (e.cdw10.getLsbD 10 = true → e.sliceNo = 0) ∧ (adm e).keyOwnerOk 1024 = true ∧ d.version = 1 ∧ d.rsv3 = 0 ∧ d.rsv8 = 0 :=
  fun _ _ => ⟨adm_turn _ (by decide), by decide, by decide, by decide, by decide, rfl, rfl, rfl⟩

theorem witness_ThawQueueCompletes :
    let e := vend 0xc8 1
    let s := { adm e with sqs := [(1, { frozen := true, frozenSeen := true })], qrecs := [(1, { overflow := true, freezes := 1 })] }
    AdminTurn s 0 (ctxOf 0 e) ∧ vendorOk e 0x83ffffff 0 0 0 0 0 = true ∧ s.thawTarget e = some 1 ∧
    s.sqs.look 1 = some { frozen := true, frozenSeen := true } ∧ s.inflight 1 = 0 :=
  ⟨adminTurn (by decide), by decide⟩

def manifest : Manifest where
  revision := 1
  fr := []
  stepping := 0xb0
  meter := false
  ledgerWrite := 0
  ledgerMin := 0
  ledgerMax := 0
  svn := []
  crownParts := true
  memberParts := true

def pkg : SlotFind := { headerOk := true, manifestOk := true, manifest := manifest, image := img, hashesOk := true }

/-- Firmware Image Download of one block. -/
def dlEnt : SqEntry := vend 0x11 1023

/-- A chip booted from slot 0 with a complete package of one block in staging, and an entry. -/
def staged (e : SqEntry) : State :=
  { adm e with nv := { stgOwner := 1, stgBlocks := [(0, 7)] }, upd := { booted := 0, norMib := 64 } }

theorem witness_FirmwareCommandsComplete :
    (let s := staged dlEnt
     AdminTurn s 0 (ctxOf 0 dlEnt) ∧ dlLen dlEnt / 4096 = 1 ∧ s.nv.norQueue = [] ∧ dlEnt.dptrFault (dlLen dlEnt) false = none ∧
      s.dlCheck dlEnt [7] = none ∧ s.dlMissing (dlOff dlEnt / 4096) [7] = []) ∧
    (let s := { staged dlEnt with nv := {} }
     AdminTurn s 0 (ctxOf 0 dlEnt) ∧ s.dlCheck dlEnt [7] = none ∧ s.dlMissing (dlOff dlEnt / 4096) [7] = [(0, 7)]) ∧
    (let e := vend 0x10 0x8
     let s := staged e
     AdminTurn s 0 (ctxOf 0 e) ∧ bitsAt e.cdw10.toNat 0 3 = 0 ∧ bitsAt e.cdw10.toNat 3 3 = 1 ∧ s.nv.pldmState = 0 ∧
      s.nv.stgErasing = false ∧ s.nv.commitAct = 0 ∧ s.commitCheck pkg (s.fsTarget 0) true = none) ∧
    (let e := vend 0x10 0x11
     let s := staged e
     AdminTurn s 0 (ctxOf 0 e) ∧ bitsAt e.cdw10.toNat 0 3 = 1 ∧ bitsAt e.cdw10.toNat 3 3 = 2 ∧ s.nv.pldmState = 0 ∧
      s.nv.stgErasing = false ∧ s.nv.commitAct = 0 ∧ s.fsTarget 1 = s.upd.booted) :=
  ⟨⟨adminTurn (by decide), by decide⟩, ⟨adminTurn (by decide), by decide⟩, ⟨adminTurn (by decide), by decide⟩,
   adminTurn (by decide), by decide⟩

/-- Scrub Range of the last word of SRAM. -/
def scrubEnt : SqEntry := { ent 0xd2 with cdw12 := BitVec.ofNat 32 (sramSize - 8), cdw14 := 8 }

theorem witness_ScrubRunsAndReports :
    (AdminTurn (adm scrubEnt) 0 (ctxOf 0 scrubEnt) ∧
      vendorOk scrubEnt 0xffffffff 0 0xffffffff 0xffffffff 0xffffffff 0xffffffff = true ∧ scrubEnt.dptrFault 64 false = none ∧
      (adm scrubEnt).ecc.scrubBusy = false ∧ scrubEnt.cdw10.toNat < 2 ∧ scrubEnt.cdw1213 % 8 = 0 ∧ scrubEnt.cdw1415 % 8 = 0 ∧
      scrubEnt.cdw1415 ≠ 0 ∧ scrubEnt.cdw1213 + scrubEnt.cdw1415 ≤ sramSize) ∧
    (let s := { adm scrubEnt with ecc := { scrubBusy := true, scrubStart := sramSize - 8, scrubLen := 8 } }
     s.ecc.scrubBusy = true ∧ s.ecc.scrubCtx = 0 ∧ s.ctxs.look 0 = some (ctxOf 0 scrubEnt) ∧ (ctxOf 0 scrubEnt).phase ≠ .done ∧
      s.ecc.scrubMem = false ∧ 8 ≤ s.ecc.scrubLen) ∧
    secdedDecode 0 = .clean ∧ (∃ v, secdedDecode 1 = .corrected v) ∧ burstDecode 64 ⟨7, checkPut 64 0 (rsCheck 64 7)⟩ = .clean :=
  ⟨⟨adm_turn _ (by decide), by decide⟩, by decide, by decide, ⟨_, rfl⟩, by decide +kernel⟩

/-! ### Witnesses: slices -/

/-- The structure of a slice at the lower bounds of its fields, on die group 0. -/
def sd : SliceData where
  version := 1
  qpairs := 1
  vecBase := 1
  vecCount := 1
  ctxReserve := 16
  ctxLimit := 16
  readPool := 4
  stagePool := 2
  lclass := 0
  weight := 1
  raAllow := 0
  fenceCount := 1
  flags := 0
  rsv30 := 0
  quotaProv := 0
  quotaWrite := 0
  action := 0
  rsv49 := 0
  change := 0
  rsv52 := 0
  fences := [1]
  handles := [0]
  rsv576 := 0

/-- Create Slice 1023 with PASID 0xfffff. -/
def createEnt : SqEntry := { vend 0xc1 1023 with cdw11 := 0xfffff }

theorem witness_SlicesAreCreatedAndDestroyed :
    (let s := { adm createEnt with pci := { pasidEn := true }, bpm := { dramTotal := 65664 } }
     AdminTurn s 0 (ctxOf 0 createEnt) ∧ vendorOk createEnt 0x3ff 0xfffff 0 0 0 0 = true ∧ createEnt.dptrFault 4096 false = none ∧
      createEnt.sliceNo = 1023 ∧ s.createCheck 1023 createEnt.pasid sd = none ∧ s.key.entropyBad = false) ∧
    (let e := vend 0xc4 1023
     let s := { adm e with slices := [(1023, { st := .quiesced, pasid := 1 })] }
     AdminTurn s 0 (ctxOf 0 e) ∧ vendorOk e 0x3ff 0 0 0 0 0 = true ∧ e.sliceNo = 1023 ∧ s.rsv1023 = false ∧
      (s.slice 1023).st = .quiesced ∧ s.nss.any (fun _ n => n.owner == 1023) = false) ∧
    (let s := { adm (ent 0) with slices := [(0, { st := .destroying })] }
     (s.slice 0).st = .destroying ∧ (s.sliceDiscard 0).sliceEmpty 0 = true) :=
  ⟨⟨adminTurn (by decide), by decide⟩, ⟨adminTurn (by decide), by decide⟩, by decide⟩

/-- A chip with slice 0 in a state, and a Slice Resources entry for it. -/
def resAt (st : SliceSt) : State := { adm (ent 0xc5) with slices := [(0, { st := st, pasid := 1 })] }

theorem witness_SliceResourcesActs : ∀ st, st ∈ [SliceSt.active, .quiescing, .quiesced, .frozen] →
    let e := ent 0xc5
    AdminTurn (resAt st) 0 (ctxOf 0 e) ∧ vendorOk e 0x3ff 0 0 0 0 0 = true ∧ e.dptrFault 4096 false = none ∧ e.sliceNo = 0 ∧
    ((resAt st).slice 0).st = st ∧ (∀ a, a ∈ [0, 2, 3] → (resAt st).resJudge 0 { sd with action := a } = none) ∧
    (resAt st).alarmHolds = false ∧
    (let d := { sd with action := 1, change := 0x1f0 }
     (resAt st).resJudge 0 d = none ∧ (resAt st).changeCheck 0 d = none ∧ (resAt st).canStampBoth d = true) := by
  intro st h
  simp only [List.mem_cons, List.not_mem_nil, or_false] at h
  rcases h with rfl | rfl | rfl | rfl <;> exact ⟨adminTurn (by decide), by decide⟩

theorem witness_QuiesceTimeoutFreezes : ((resAt .quiescing).slice 0).st = .quiescing := by decide

/-! ### Witnesses: I/O commands -/

/-- Slice 0, ACTIVE, with namespace 1 of one sequential zone that stands at its first block; an entry of its queue 0. -/
def io (e : SqEntry) : State :=
  { holding 1024 e with
    img := some img
    slices := [(0, { st := .active, pasid := 1, readPool := 4, stagePool := 2, fences := [1], handles := [0], fenceCount := 1 })]
    nss := [(1, { owner := 0, nsze := (admI e).zsze, conv := 0, attached := true })]
    zones := [(zkey 1 0, { zs := .explOpen, cap := 64 })]
    brm := { budget := 4096 }
    key := { limitLog2 := 36, owners := [(0, { cur := 1, oldest := 1, slots := [(1, 0), (2, 1)] })] } }

/-- An entry of namespace 1. -/
def nsEnt (opc : Nat) : SqEntry := { ent opc with nsid := 1 }

def zms (a : Dword) : SqEntry := { nsEnt 0x79 with cdw13 := a }

theorem witness_IoCommandsEnterTheCommitOrder :
    (∀ o, o ∈ [0x00, 0x01, 0x02, 0x7d] → (io (nsEnt o)).ctxs.look 0 = some (ctxOf 1024 (nsEnt o)) ∧ (nsEnt o).opc = o) ∧
    IoTurn (io (nsEnt 0x00)) 0 (ctxOf 1024 (nsEnt 0x00)) [] ∧ IoTurn (io (nsEnt 0x01)) 0 (ctxOf 1024 (nsEnt 0x01)) [] ∧
    IoTurn (io (nsEnt 0x02)) 0 (ctxOf 1024 (nsEnt 0x02)) [] ∧ IoTurn (io (nsEnt 0x7d)) 0 (ctxOf 1024 (nsEnt 0x7d)) [] ∧
    (let e := { nsEnt 0x7a with cdw12 := 1023 }
     IoTurn (io e) 0 (ctxOf 1024 e) [] ∧ e.opc = 0x7a) :=
  ⟨fun o _ => ⟨rfl, rfl⟩, ioTurn (by decide), ioTurn (by decide), ioTurn (by decide), ioTurn (by decide), ioTurn (by decide), rfl⟩

theorem witness_IoCommandsEnterTheCommitOrder_zones : ∀ a, a ∈ [(1 : Dword), 2, 3, 4, 5] →
    IoTurn (io (zms a)) 0 (ctxOf 1024 (zms a)) [] ∧ (zms a).opc = 0x79 ∧ (zms a).selAll = false ∧ (zms a).zsa = a.toNat ∧
    (zms a).sanz = false := by
  intro a h
  simp only [List.mem_cons, List.not_mem_nil, or_false] at h
  rcases h with rfl | rfl | rfl | rfl | rfl <;> exact ⟨ioTurn (by decide), by decide⟩

theorem witness_IoCommandsEnterTheCommitOrder_sanitizing :
    (let e := { zms 4 with cdw3 := 1 }
     IoTurn (io e) 0 (ctxOf 1024 e) [] ∧ e.zsa = 4 ∧ e.sanz = true ∧ e.selAll = false) ∧
    (let e := zms 0x103
     IoTurn (io e) 0 (ctxOf 1024 e) [] ∧ e.selAll = true ∧ (io e).seqZones 1 ≠ []) ∧
    (let e := { nsEnt 0x09 with cdw11 := 4 }
     IoTurn (io e) 0 (ctxOf 1024 e) [⟨8191, 1⟩] ∧ e.opc = 0x09 ∧ e.ranges = 1 ∧ e.sanz = false) ∧
    (let e := { nsEnt 0x09 with cdw11 := 4, cdw3 := 1 }
     IoTurn (io e) 0 (ctxOf 1024 e) [⟨8191, 1⟩] ∧ e.opc = 0x09 ∧ e.ranges = 1 ∧ e.sanz = true) :=
  ⟨⟨ioTurn (by decide), by decide⟩, ⟨ioTurn (by decide), by decide⟩, ⟨ioTurn (by decide), by decide⟩, ioTurn (by decide), by decide⟩

/-- A stamped zone operation of one kind that waits to commit in a zone in one state. -/
def zoneOpAt (k : EKind) (zs : Zs) : State :=
  { State.reset with
    zones := [(zkey 1 0, { zs := zs, cap := 64 })]
    gate := { entries := [(5, { kind := k, ctx := 0, owner := 0, nsid := 1, scopes := [zkey 1 0] })] } }

theorem witness_ZoneOperationsCommit : ∀ k, k ∈ [EKind.openE, .closeE, .finishE, .resetE, .offlineE] →
    ∀ zs, zs ∈ [Zs.empty, .implOpen, .explOpen, .closed, .readOnly, .full, .offline] →
    let e : Entry := { kind := k, ctx := 0, owner := 0, nsid := 1, scopes := [zkey 1 0] }
    let z : Zone := { zs := zs, cap := 64 }
    (∀ p ∈ (zoneOpAt k zs).gate.entries, p.2.sys = none) ∧ (zoneOpAt k zs).gate.entries.look 5 = some e ∧ (zoneOpAt k zs).commitReady 5 e (zkey 1 0) = true ∧ e.all = false ∧
    (zoneOpAt k zs).zones.look (zkey 1 0) = some z ∧ ∀ p, z.place = some p → (zoneOpAt k zs).chipFenced p.chip = false :=
  fun k hk zs hz => ⟨by simp [zoneOpAt], rfl, by revert hz; revert zs; revert hk; revert k; decide, rfl, rfl, nofun⟩

theorem witness_KeyRotateCommits : ∀ a, a < 3 →
    let e : Entry := { kind := .keyRotE, ctx := 0, owner := 0, nsid := 0, scopes := [keyScope 0], target := a, val := 0xfffffffd }
    let s := { State.reset with gate := { entries := [(5, e)] }
                                key := { owners := [(0, { cur := 0xfffffffd, oldest := 0xfffffff0, slots := [] })] } }
    (∀ p ∈ s.gate.entries, p.2.sys = none) ∧ s.gate.entries.look 5 = some e ∧ s.commitReady 5 e (keyScope 0) = true ∧ e.val = (s.keyOwner 0).cur ∧ s.key.entropyBad = false ∧
    (s.keyOwner 0).live = 14 ∧ s.bound2 0 = false ∧ (s.keyOwner 0).cur < 0xfffffffe := by decide

/-! ### Witnesses: queues, mailboxes, rings -/

/-- A PF queue pair 1023 of two entries, one of them used. -/
def pfQ : State := { State.reset with sqs := [(1023, { size := 1, head := 0, tail := 0 })], cqs := [(1023, { size := 1, head := 0, tail := 1 })] }

theorem witness_PfDoorbellsAct :
    pfQ.sqs.look 1023 = some { size := 1, head := 0, tail := 0 } ∧ ¬((1 : Nat) < 1 ∨ 1 = 0 ∨ 2 - 1 - ringDist 0 0 2 < ringDist 0 1 2) ∧
    ((1 : Nat) < 2 ∨ 2 = 0 ∨ 2 - 1 - ringDist 0 0 2 < ringDist 0 2 2) ∧
    pfQ.cqs.look 1023 = some { size := 1, head := 0, tail := 1 } ∧ ¬((1 : Nat) < 1 ∨ 1 = 0 ∨ ringDist 0 1 2 < ringDist 0 1 2) ∧
    ((1 : Nat) < 0 ∨ 0 = 0 ∨ ringDist 0 1 2 < ringDist 0 0 2) ∧ pfQ.sqs.look 1022 = none ∧ pfQ.cqs.look 1022 = none ∧
    (pfQ.nvme.dbErr = false ∧ pfQ.nvme.aers = []) ∧ ({ pfQ with nvme := { dbErr := true } } : State).nvme.dbErr = true ∧
    (let s : State := { adm (ent 0x0c) with nvme := { aers := [0] } }
     s.nvme.dbErr = false ∧ s.nvme.aers = [0] ∧ s.ctxs.look 0 = some (ctxOf 0 (ent 0x0c)) ∧ (ctxOf 0 (ent 0x0c)).phase ≠ .done) := by decide

/-- Slice 1023 in a state, its queue 127 enabled or not, with an entry to fetch or none. -/
def sliceAt (st : SliceSt) (en : Bool) (tail : Nat) : State :=
  { State.reset with
    slices := [(1023, { st := st, pasid := 7, ctxLimit := 16, ctxReserve := 16, qpairs := 128, vecCount := 1 })]
    sqs := [(sliceQ 1023 127, { size := 1, tail := tail, en := en, enabled := en })]
    cqs := [(sliceQ 1023 127, { size := 1 })]
    gate := { adminOk := true, ioOk := true }, pci := { rate := 1, perstN := true, pasidEn := true, bme := true }
    nvme := { cc := 1, rdy := true }, upd := { stage := 9 } }

theorem witness_SliceDoorbellsAreRecorded :
    (∀ en, (sliceAt .active en 0).pageOk 1023 (some 7) = true ∧
      (sliceAt .active en 0).sqs.look (sliceQ 1023 127) = some { size := 1, en := en, enabled := en }) ∧
    (∀ st, st ∈ [SliceSt.quiescing, .quiesced, .frozen] →
      (sliceAt st true 1).pageOk 1023 (some 7) = true ∧ ((sliceAt st true 1).slice 1023).st ≠ .active) ∧
    ((sliceAt .active true 1).slice 1023).st = .active ∧
    (sliceAt .active true 1).mayFetch (sliceQ 1023 127) { size := 1, tail := 1, en := true, enabled := true } = true := by decide

theorem witness_FetchStopsWithEveryContextHeld :
    (let s := { State.reset with ctxs := List.replicate 65536 (0, ctxOf 0 (ent 0)) }
     65536 ≤ s.ctxs.length) ∧
    (let s := sliceAt .active true 1
     let x : Sq := { size := 1, tail := 1, en := true, enabled := true }
     s.sqs.look (sliceQ 1023 127) = some x ∧ s.mayFetch (sliceQ 1023 127) x = true) :=
  ⟨Nat.le_of_eq List.length_replicate.symm, by decide⟩

theorem witness_CompletionIsPosted :
    let x : Ctx := { ctxOf 0 (ent 0x18) with phase := .done, stamped := true, status := some stOk }
    let s := { adm (ent 0x18) with ctxs := [(0, x)], cqs := [(0, { size := 1, tail := 1, head := 1 })], pci := { rate := 1, bme := true } }
    s.ctxs.look 0 = some x ∧ x.phase = .done ∧ x.status = some stOk ∧ x.discard = false ∧
    s.cqs.look (s.cqOf x.q) = some { size := 1, tail := 1, head := 1 } ∧ ({ size := 1, tail := 1, head := 1 } : Cq).full = false ∧
    s.linkUp = true ∧ s.inStop = false ∧ s.pci.d3hot = false ∧ s.pci.bme = true ∧ s.brm.st < 3 ∧ x.q < 1024 ∧ ({ size := 1, tail := 1, head := 1 } : Cq).ien = false ∧
    s.ctxs.any (fun _ z => z.waitFor == some 0) = false := by decide

theorem witness_QueuePairsEnableAndDisable :
    (sliceAt .active false 0).pageOk 1023 (some 7) = true ∧ ((sliceAt .active false 0).sqs.get (sliceQ 1023 127) {}).en = false ∧
    (sliceAt .active false 0).enErr 1023 127 { size := 1 } 0x80000001 = 0 ∧
    (sliceAt .active false 0).enErr 1023 127 { size := 1 } 0x80000000 ≠ 0 ∧
    ((sliceAt .active true 0).sqs.get (sliceQ 1023 127) {}).en = true ∧
    ((sliceAt .active true 0).sqs.get (sliceQ 1023 127) {}).frozen = false := by decide

/-- The conditions of the rows of R105 in their order, for a direction that is open: what a push finds. -/
def pushRow (m : Mbox) (aligned : Bool) (w : Word) : Nat :=
  let seq := bitsAt w.toNat 48 16
  let len := bitsAt w.toNat 40 8
  if m.fullSeen = true ∨ m.flushedSeen = true ∨ m.errSeen = true then 1
  else if aligned = false then 2
  else if m.dupRun ≠ 0 then 3
  else if m.free = 0 then 4
  else if m.part ≠ 0 then (if m.part + 1 = m.need then 9 else 10)
  else if len = 0 ∨ 32 < len then 5
  else if (seq + 1) % 65536 = m.nextSeq then 6
  else if seq ≠ m.nextSeq then 7
  else if len = 1 then 8 else 11

/-- Each row of R105 is met, at the ends of its ranges. -/
theorem witness_MailboxPushes :
    (sliceAt .active false 0).pageOk 1023 (some 7) = true ∧ ((sliceAt .none false 0).slice 0).st = .none ∧
    pushRow { errSeen := true } true 0 = 1 ∧ pushRow {} false 0 = 2 ∧ pushRow { dupRun := 1 } true 0 = 3 ∧
    pushRow { tail := 32 } true 0 = 4 ∧ pushRow {} true 0 = 5 ∧ pushRow {} true 0x210000000000 = 5 ∧
    pushRow {} true 0xffff200000000000 = 6 ∧ pushRow {} true 0x0001010000000000 = 7 ∧ pushRow {} true 0x010000000000 = 8 ∧
    pushRow { part := 31, need := 32 } true 0 = 9 ∧ pushRow { part := 1, need := 3 } true 0 = 10 ∧
    pushRow {} true 0x200000000000 = 11 := by decide

theorem witness_FlushesHeadsAndNoticeRing :
    (sliceAt .frozen false 0).pageOk 1023 (some 7) = true ∧
    (let s := { sliceAt .active false 0 with slices := [(1023, { st := .active, pasid := 7, nr := { en := true, size := 15 } })] }
     s.pageOk 1023 (some 7) = true ∧ (s.slice 1023).nr.lost = 0 ∧ (s.slice 1023).nr.en = true) ∧
    ((sliceAt .active false 0).slice 1023).nr.en = false ∧
    (0x8000000f : Dword).getLsbD 31 = true ∧ 15 ≤ bitsAt (0x8000000f : Dword).toNat 0 12 ∧
    bitsAt (0x8000000e : Dword).toNat 0 12 < 15 ∧ (0xf : Dword).getLsbD 31 = false := by decide

/-! ### Witnesses: Swath and Hayrick -/

/-- A command at work, committed, and the channel of its owner halted or not. -/
def working (e : SqEntry) (halted : Bool) : State :=
  { holding 1024 e with
    ctxs := [(0, { ctxOf 1024 e with phase := .stamped, stamped := true, stamp := 5, committed := true, units := 1, readDraw := 1
                                     runits := [(0, { alts := [.zeros], st := .ready })] })]
    slices := [(0, { st := .active, pasid := 7 })]
    dma := { chans := [(0, { halted := halted })] }
    pci := { rate := 1, bme := true }
    staging := [(5, { ctx := 0, owner := 0, zone := zkey 1 0, off := 0, n := 2, bufs := [0] })] }

theorem witness_ChannelsHaltAndThaw :
    (∀ h, let s := working (nsEnt 2) h
      (∃ x, s.ctxs.look 0 = some x ∧ x.onChannel = true ∧ qOwner x.q = 0) ∧ (s.dma.chans.get 0 {}).halted = h) ∧
    BusSource.data ≠ .fetch ∧ (working (nsEnt 2) true).chanHalted 0 = true ∧ (working (nsEnt 2) true).pageOk 0 (some 7) = true ∧
    (working (nsEnt 2) false).chanHalted 0 = false ∧
    { working (nsEnt 2) true with dma := { chans := [(1024, { halted := true })] } }.chanHalted 1024 = true :=
  ⟨fun _ => ⟨⟨_, rfl, rfl, rfl⟩, rfl⟩, by decide⟩

theorem witness_TransfersFencesAndStores :
    (∀ op, op ∈ [1, 2] → let s := working (nsEnt op) false
      ∃ x, s.ctxs.look 0 = some x ∧ x.phase = .stamped ∧ x.committed = true ∧ x.failed = false ∧ s.chanHalted (qOwner x.q) = false ∧
        s.linkUp = true ∧ s.inStop = false ∧ s.pci.bme = true ∧ s.key.cleared = false ∧ (∃ l, walkUnit [] x.e (s.entryPtr x) x.units 0 = .pieces l) ∧ x.e.opc = op ∧ x.units = 1 ∧ x.moved = [] ∧
        (∃ st, s.staging.look x.stamp = some st ∧ s.zoneChip st.zone = 0 ∧ (st.data.put 0 (sealUnit st.kix (x.lba + 0) x.e.nsid 7 8)).length < st.n) ∧
        (∃ r, x.runits.look 0 = some r ∧ r.st = .ready ∧ r.hold = none) ∧ s.dma.fences.contains (2, relTag 0 0) = false) ∧
    (let s := { State.reset with gate := { ckptPend := some (2 ^ 24), next := 2 ^ 24 } }
     s.gate.ckptPend = some (2 ^ 24) ∧ s.dma.fences.contains (4, 2 ^ 24) = false ∧ s.gate.next / 2 ^ 24 * 2 ^ 24 = 2 ^ 24) ∧
    (∀ n, n ∈ [64, 192] → 64 ≤ { State.reset with bpm := { cacheSram := n } }.bpm.cacheSram ∧ n ≤ 192) ∧
    { State.reset with bpm := { cacheDram := 193 } }.bpm.cacheDram > 192 ∧ 192 ≤ State.reset.storeFree false ∧ State.reset.bpm.cacheSram < 64 := by
  refine ⟨fun op h => ?_, by decide⟩
  simp only [List.mem_cons, List.not_mem_nil, or_false] at h
  rcases h with rfl | rfl <;>
    exact ⟨_, rfl, rfl, rfl, rfl, rfl, rfl, rfl, rfl, rfl, ⟨_, rfl⟩, rfl, rfl, rfl, ⟨_, rfl, rfl, by decide⟩, ⟨_, rfl, rfl, rfl⟩, by decide⟩

/-! ### Witnesses: host link, controller, resets -/

theorem witness_HostResetsFreezeTheSlices : ∀ st, st ∈ [SliceSt.active, .quiescing, .quiesced] →
    1023 ∈ (sliceAt st true 1).slices.map (·.1) ∧ ((sliceAt st true 1).slice 1023).st = st := by decide

theorem witness_ControllerAndLinkEventsAct :
    (let s := { sliceAt .active false 0 with nvme := {} }
     s.linkUp = true ∧ s.inStop = false ∧ s.pci.d3hot = false ∧ s.nvme.cc.getLsbD 0 = false ∧ s.upd.stage ≠ 15 ∧ s.brm.st ≠ 4) ∧
    bitsAt (((0xfe00006e : Dword) &&& 0x01ffc7f1) ||| 1).toNat 4 3 = 6 ∧ bitsAt (((0x70 : Dword) &&& 0x01ffc7f1) ||| 1).toNat 4 3 ≠ 6 ∧
    (let s := { sliceAt .active false 0 with cas := { crown := true } }
     s.pci.perstN = true ∧ s.powered = true ∧ s.inStop = false ∧ linkOk 6 8 true = true ∧ s.cas.crown = true) ∧
    (let s := { sliceAt .active false 0 with evt := { pba := [2047], fmask := false } }
     s.evt.pba.contains 2047 = true ∧ s.evt.fmask = false ∧ s.linkUp = true) ∧
    State.reset.pageOk 0 none = false ∧ (sliceAt .active false 0).pageOk 1023 (some 8) = false := by decide

theorem witness_ChipResetsKeepWhatPersists :
    { State.reset with pwr := { st := 2 } }.pwr.st = 2 ∧
    (∀ k, k ∈ [1, 2, 4] → let s := { State.reset with brm := { st := 4, saveKind := k } }; s.brm.st = 4 ∧ s.brm.saveKind = k) ∧
    (sliceAt .active false 0).powered = true ∧ (sliceAt .active false 0).brm.st ≠ 4 ∧ (sliceAt .active false 0).gate.adminOk = true ∧
    (sliceAt .active false 0).brm.st < 3 ∧ (sliceAt .active false 0).draining = false ∧
    { sliceAt .active false 0 with ctxs := [(0, { ctxOf 0 (ent 0x18) with stamped := true })] }.draining = true := by decide

/-! ### Witnesses: media -/

/-- A media operation on die 0. -/
def op (k : OpKind) : Op := { die := 0, block := 1, kind := k, owner := 0, cls := if k == .direct 0 0 then 0 else 2, seq := 0, left := [0] }

/-- A full zone whose data position 0 stood on a die that has failed, and a unit of it that goes by reconstruction. -/
def lostPlace : Place := { chip := 0, pos := [(0, some 1), (1, some 1), (2, some 1), (3, some 1)], seed := 0, fence := 0 }
def lostUnit : RUnit := { alts := [.stored 0 0 0 (zkey 1 0) 0 none], st := .queued, recon := true, pOut := true, pl := some lostPlace }
def lostAt : State :=
  { State.reset with
    img := some img, dies := [(0, {}), (1, {}), (3, {})]
    zones := [(zkey 1 0, { zs := .full, cap := 64, place := some lostPlace })]
    ctxs := [(0, { ctxOf 1024 (nsEnt 2) with phase := .stamped, stamped := true, committed := true, units := 1, readDraw := 1
                                             runits := [(0, lostUnit)] })] }

theorem lostAt_made : ∃ w, lostAt.unitMade lostUnit = some (w, true) := by
  have h : (match lostAt.unitMade lostUnit with | some (_, b) => b | none => false) = true := by decide +kernel
  generalize lostAt.unitMade lostUnit = o at h
  match o, h with
  | some (w, true), _ => exact ⟨w, rfl⟩

/-- Operation 5 runs on die 0, and a read with one unit waits. -/
def mediaAt (o : Op) (r : RUnit) (running : Bool) : State :=
  { State.reset with
    ctxs := [(0, { ctxOf 1024 (nsEnt 2) with phase := .stamped, stamped := true, committed := true, units := 1, readDraw := 1
                                             runits := [(0, r)] })]
    dies := [(0, { queue := if running then [] else [5], running := if running then some 5 else none, suspending := running })]
    fch := { ops := [(5, o)], chans := [(0, { active := true, timing := [0x10000000, 0x20000000] })] } }

theorem witness_UnitsPassTheMedia :
    (let s := mediaAt (op .erase) { alts := [.zeros] } true
     ∃ x, s.ctxs.look 0 = some x ∧ x.runits = [(0, { alts := [.zeros] })] ∧ x.reading = true ∧ x.q ≠ 1023 ∧ x.unitsHeld < x.readDraw) ∧
    (let s := mediaAt (op (.direct 0 0)) {} false
     s.dies.look 0 = some { queue := [5] } ∧ s.dieGood 0 = true ∧ s.inStop = false ∧
      ([5].filterMap fun id => (s.fch.ops.look id).map fun o => (id, o)).filter (fun p => p.2.isRead && p.2.cls == 0) = [(5, op (.direct 0 0))] ∧
      s.fch.ops.look 5 = some (op (.direct 0 0))) ∧
    (let s := mediaAt (op (.direct 0 0)) {} true
     s.fch.ops.look 5 = some (op (.direct 0 0)) ∧ (op (.direct 0 0)).isRead = true ∧ s.dies.look 0 = some { running := some 5, suspending := true } ∧
      (op (.direct 0 0)).withdrawn = false ∧ (op (.direct 0 0)).reads ≤ 1) ∧
    (let o := { op (.direct 0 0) with transferred := true }
     let s := mediaAt o { st := .queued, recon := true } true
     s.fch.ops.look 5 = some o ∧ o.transferred = true ∧ o.left.contains 0 = true ∧ o.kind = .direct 0 0 ∧
      s.runit 0 0 = some { st := .queued, recon := true } ∧ s.serves 0 = false) ∧
    (∃ x, lostAt.ctxs.look 0 = some x ∧ x.q ≠ 1023) ∧
    (lostAt.runit 0 0 = some lostUnit ∧ lostUnit.st = .queued ∧ lostUnit.recon = true ∧ lostUnit.helpers = 0) ∧
    ∃ w, lostAt.unitMade lostUnit = some (w, true) :=
  ⟨⟨_, rfl, by decide⟩, by decide, by decide, by decide, ⟨_, rfl, by decide⟩, by decide, lostAt_made⟩

theorem witness_ProgramsErasesAndFailures :
    (∀ k, k ∈ [OpKind.prog 0 0 0, .progRebuild 0 0 0 true, .erase] → let s := mediaAt (op k) {} true
      s.fch.ops.look 5 = some (op k) ∧ (op k).isRead = false ∧ s.dies.look 0 = some { running := some 5, suspending := true } ∧
        (op k).withdrawn = false ∧ (op k).slcMode = false ∧ (op k).retried = false) ∧
    (op (.progRebuild 0 0 0 true)).isErase = false ∧
    (∀ w, let o := { op (.prog 0 0 0) with withdrawn := w }
     (mediaAt o {} true).fch.ops.look 5 = some o ∧ o.kind ≠ .progZero ∧ o.withdrawn = w) ∧
    (let s := { mediaAt (op .erase) {} true with cas := { crown := true }, gate := { stopped := true } }
     s.inSet (blkKey 0 1) = false ∧ s.zones.any (fun _ z => z.slcWant) = false ∧ s.par.queue = [] ∧ s.cas.crown = true ∧
      s.canStamp = false ∧ s.gate.entries = []) ∧
    (let s := { mediaAt (op .erase) {} true with
                  cas := { crown := true }
                  gate := { next := 6, entries := [(5, { kind := .flushE, ctx := 0, owner := 0, nsid := 1, scopes := [zkey 1 0] })] } }
     s.cas.crown = true ∧ s.canStamp = true ∧ s.dieGood 0 = true) ∧
    (let o := { op (.prog 0 0 0) with failed := true }
     let s := { mediaAt o {} true with cas := { crown := true } }
     s.canStamp = true ∧ s.dieGood 0 = true ∧ s.cas.crown = true ∧ s.fch.ops.look 5 = some o ∧ o.failed = true ∧ o.die = 0 ∧
      o.block = 1 ∧ o.row = 0 ∧ s.gate.entries = []) ∧
    ((mediaAt (op .erase) {} true).cas.crown = false ∧ (mediaAt (op .erase) {} true).dieGood 0 = true) ∧
    (∀ p, p ∈ [(eyesFrom 0 true 0 0 [], 0, 0, 0), (eyesFrom 0 false 0 0 [some (7, 9)], 1, 7, 9)] → let c := (mediaAt (op .erase) {} true).chn 0
      c.active = true ∧ c.trainSet = 0 ∧ c.train ((mediaAt (op .erase) {} true).media (·.eyeMin)) p.1 0 = some p.2) := by decide

/-- The crown runs, and its ticks are due. -/
def ticking : State := { State.reset with cas := { crown := true }, gate := { adminOk := true, ioOk := true } }

theorem witness_RebuildMigrationAndTicks :
    (let q : RebRow := { zone := 3, row := 0, die := 0, lost := 0, done := true }
     let s := { ticking with par := { queue := [q] } }
     s.par.queue.filter (fun q => q.zone == 3 && q.row == 0) = [q] ∧ q.done = true ∧ s.cas.crown = true ∧ s.canStamp = true ∧
      s.gate.entries = [] ∧ s.par.queue = [q]) ∧
    (let z : Zone := { migOld := some { chip := 0, pos := [], seed := 0, fence := 0 } }
     let s := { ticking with zones := [(3, z)] }
     s.zones.look 3 = some z ∧ z.merging = 0 ∧ s.cas.crown = true ∧ s.canStamp = true ∧ s.zoneChip 3 = 0 ∧ s.gate.entries = []) ∧
    ticking.nv.pldmSelf = false ∧ ticking.gate.entries = [] ∧
    ticking.canStamp = true ∧ ticking.tickReady = true ∧ ticking.zne.pending = false ∧ State.reset.tickReady = false := by decide

/-- The four results of the seed commit. -/
theorem witness_RebuildMigrationAndTicks_seeds : ∀ m, m ∈ [true, false] → ∀ x, x ∈ [(0 : BitVec 16), 1] →
    let s := { ticking with img := some { img with decl := true }, zne := { migrating := m, seedShadow := x } }
    s.tickReady = true ∧ s.decl = true ∧ ticking.decl = false := fun _ _ _ _ => ⟨rfl, rfl, rfl⟩

/-! ### Witnesses: memory integrity -/

/-- SRAM word addresses of regions 1 to 8, each the first word of its region. -/
def sramAt : List (Nat × Nat) := (sramBases.tail.map fun b => (sramRegion b, b / 8)).take 8

/-- One flipped bit of a SECDED word is corrected, two are not (R284); a burst with one wrong byte is corrected, one with five is
not, and a burst that was written for another address is an address fault (R286, R287). -/
theorem test_codes : secdedDecode (secdedEncode 5) = .clean ∧ secdedDecode (secdedEncode 5 ^^^ 1) = .corrected (secdedEncode 5) ∧
    secdedDecode (secdedEncode 5 ^^^ 3) = .uncorrectable := by decide

/-- The check burst of a group whose burst at an address holds 7. -/
def chk (a : Nat) : Nat := checkPut a 0 (rsCheck a 7)

theorem test_burst_corrected : burstDecode 64 ⟨6, chk 64⟩ = .corrected (7 + rsCheck 64 7 * 2 ^ 512) := by decide +kernel
theorem test_burst_address : ueKind (burstDecode 128 ⟨7, checkPut 128 0 (rsCheck 64 7)⟩) = some .addressFault := by decide +kernel
theorem test_burst_uncorrectable : ueKind (burstDecode 0xa0000000 ⟨0x0707070707, chk 0xa0000000⟩) = some .data := by decide +kernel
theorem test_burst_freeStore : ueKind (burstDecode 0x80000000 ⟨0x0707070707, chk 0x80000000⟩) = some .data := by decide +kernel

theorem witness_SramErrorsAreAnswered :
    secdedDecode (secdedEncode 5 ^^^ 3) = .uncorrectable ∧ secdedDecode (secdedEncode 5) ≠ .uncorrectable ∧
    (copyUse (secdedEncode 5)).isSome = true ∧ copyUse (secdedEncode 5 ^^^ 3) = none ∧
    sramAt.map (·.1) = [1, 2, 3, 4, 5, 6, 7, 8] ∧ (∀ w, w ∈ sramAt.map (·.2) → w * 8 < 0x5000000) ∧
    (0x5000000 / 8 - 1) * 8 < 0x5000000 ∧ State.reset.brm.st < 3 ∧
    (∃ x, (working (nsEnt 2) false).ctxs.look 0 = some x ∧ qOwner x.q = 0) ∧
    ((working (nsEnt 2) false).dma.chans.get 0 {}).halted = false ∧
    (let s := { State.reset with ecc := { trapBlock := 0x3800, trapCnt := 1 } }; s.ecc.trapBlock = 0x3800 ∧ s.ecc.trapCnt ≠ 0) :=
  ⟨by decide, by decide, by decide, by decide, by decide, by decide, by decide, by decide, ⟨_, rfl, rfl⟩, by decide⟩

theorem witness_DramAndCorrectedErrors :
    ueKind (burstDecode 0xa0000000 ⟨0x0707070707, chk 0xa0000000⟩) = some .data ∧
    ueKind (burstDecode 0x80000000 ⟨0x0707070707, chk 0x80000000⟩) = some .data ∧
    (∃ b, burstDecode 64 ⟨6, chk 64⟩ = .corrected b) ∧ (∃ b, secdedDecode (secdedEncode 5 ^^^ 1) = .corrected b) ∧
    (let s := { State.reset with drc := { gib := 16 } }
     (0xffffffff < s.dramUsable ∧ s.dramUsable ≤ 0x380000000) ∧
     (∀ p, p ∈ [(23, 64, 0), (23, 0x40000000, 1), (23, 0x80000000, 2), (23, 0x90000000, 3), (0, 0xa0000000, 4), (20, 0xa0000000, 4)] →
        p.2.1 < s.dramUsable ∧ dramRegion p.2.1 = p.2.2 ∧ portMay p.1 p.2.2 = true) ∧
     portMay 10 4 = false ∧ s.bpm.sysStgLost + 16 ≤ (1024 - 256) * 64 ∧ s.brm.st < 3 ∧ s.scrubs true 0 0xa0000000 = false) ∧
    (∃ x, (working (nsEnt 2) false).ctxs.look 0 = some x) ∧
    (let s := { State.reset with bpm := { sysStgLost := (1024 - 256) * 64 } }; (1024 - 256) * 64 < s.bpm.sysStgLost + 16) ∧
    (let s := { State.reset with drc := { ceThr := 1 } }; s.drc.ceThr ≠ 0 ∧ s.drc.ceFired = false) :=
  ⟨test_burst_uncorrectable, test_burst_freeStore, ⟨_, test_burst_corrected⟩, ⟨_, test_codes.2.1⟩, by decide, ⟨_, rfl⟩, by decide⟩
theorem witness_MicrocodeRefreshAndEntropy :
    (let s := { State.reset with img := some img, drc := { nbrProb := 1 } }
     s.upd.cache.contains 0 = false ∧ s.brm.st < 3 ∧ s.drc.srState = 0 ∧ s.drc.nbrProb ≠ 0 ∧ s.drc.panic = 0 ∧ img.dqsLimit < 1) ∧
    State.reset.drc.nbrProb = 0 ∧ (let s := { State.reset with img := some img, drc := { panic := 8 } }; s.drc.panic ≠ 0 ∧ s.drc.srState = 0) ∧
    (0 : Nat) < max 1 State.reset.drc.rtOn ∧ State.reset.drc.fifo.get 31 16 ≠ 0 := by decide

/-! ### Witnesses: Ubpel links -/

/-- A chip, crown or member, with port 0 in a phase and one message unacknowledged after some sends; member 1 in a state. -/
def linkAt (crown : Bool) (phase sends : Nat) (m : Member) : State :=
  { State.reset with
    manifest := some manifest
    cas := { crown := crown, named := 3, members := [(1, m)]
             ports := [(0, { phase := phase, rxSeq := [(0, 1)], unacked := [{ vc := 0, mseq := 1, type := 0x10, sends := sends }] })] }
    img := some { img with crown := crown, pairs := [(if crown then 0 else 0xff, 0)] }
    gate := { adminOk := true, ioOk := true }, upd := { stage := 9 } }

theorem witness_FramesAreTakenInOrder :
    (let s := linkAt false 5 1 {}
     s.cas.crown = false ∧ 5 ≤ (s.port 0).phase ∧ s.inStop = false ∧ s.brm.st < 3 ∧
      (∀ f, f ∈ [{ frame 0 with mseq := 0 }, frame 0, { frame 0 with mseq := 2 }, { frame 0 with tagOk := false }] → f.port = 0) ∧
      (s.port 0).unacked.all (fun m => m.sends != 0) = true) ∧
    (∀ n, n ∈ [63, 64] → (linkAt true 4 n {}).port 0 = { phase := 4, rxSeq := [(0, 1)], unacked := [{ vc := 0, mseq := 1, type := 0x10, sends := n }] } ∧
      [({ vc := 0, mseq := 1, type := 0x10, sends := n } : Unacked)].find? (fun m => m.vc == 0 && m.mseq == 1 && m.sends != 0) =
        some { vc := 0, mseq := 1, type := 0x10, sends := n }) :=
  ⟨by decide, fun n h => ⟨rfl, by revert h; revert n; decide⟩⟩

def hello (crown : Bool) : HelloMsg := { crown := crown, chip := 1, part := 0, stepping := 0, keyHash := 0, nonce := 0 }
def identOf (digest : BitVec 256) (revision : Nat) : IdentMsg :=
  { cfgDigest := digest, revision := revision, secver := (linkAt true 4 1 {}).efl.svns, dies := 0, check := 0, shared := 0, islandTime := 0
    prepared := false }

theorem witness_LinksTrainAndJoin :
    (∀ c, let s := linkAt c 1 1 {}
      s.powered = true ∧ s.upd.stage ≠ 15 ∧ s.inStop = false ∧ (s.port 0).phase = 1 ∧ s.cas.crown = c ∧ s.cas.named.getLsbD 1 = true ∧
        (s.member 1).st = .absent ∧ s.cas.members.has 1 = true) ∧
    (∀ c, ((linkAt c 2 1 {}).port 0).phase = 2 ∧
      (hello (!c)).crown ≠ (linkAt c 2 1 {}).cas.crown ∧ (hello c).crown = (linkAt c 2 1 {}).cas.crown) ∧
    (∀ c, ((linkAt c 3 1 {}).port 0).phase = 3 ∧ (linkAt c 3 1 {}).paired 0 = true) ∧
    { linkAt true 3 1 {} with img := none }.paired 0 = false ∧
    (∀ st, st ∈ [MSt.joining, .fenced] → let s := linkAt true 4 1 { st := st }
      FrameTurn s (frame 0) 4 ∧ s.cas.members.look 1 = some { st := st } ∧ st ≠ .active ∧ s.manifest = some manifest ∧ s.nv.actState ≠ 2 ∧
        (identOf 1 1).cfgDigest ≠ s.upd.digest ∧ (identOf 0 1).cfgDigest = s.upd.digest ∧ manifest.revision = (identOf 0 1).revision ∧
        s.efl.svns = (identOf 0 1).secver ∧ manifest.revision ≠ (identOf 0 2).revision) ∧
    ((linkAt true 0 1 {}).port 0).phase = 0 := by
  refine ⟨by decide, by decide, by decide +kernel, rfl, fun st h => ?_, by decide⟩
  simp only [List.mem_cons, List.not_mem_nil, or_false] at h
  rcases h with rfl | rfl <;> exact ⟨frameTurn (by decide), by decide, by decide, rfl, by decide, by decide, by decide, by decide, rfl, by decide⟩

/-! ### Witnesses: the cascade -/

/-- A member at phase 5, with a write of two units of zone 3 in staging, and a lease of that zone. -/
def memberAt (snap : Bool) : State :=
  { linkAt false 5 1 {} with
    cas := { (linkAt false 5 1 {}).cas with snap := snap, myLeases := [(3, true)], voteStep := 1 }
    staging := [(5, { ctx := 65536, owner := 0, zone := 3, off := 0, n := 2, bufs := [] })] }

/-- A STAMP entry with one zone and a token. -/
def stampMsg (n : Nat) (zs : Nat) : StampMsg where
  stamp := n
  act := .other
  recs := []
  zones := [{ key := 3, zs := zs, wp := 1, cap := 64, padded := false, owner := 0, base := 0, row := none, log := none, keys := [] }]
  tok := some { owner := 0, token := 1, nsid := 1, zone := 3, nlb := 1, lba := 0, stamp := n, age := 0 }

theorem witness_MembersFollowTheCrown :
    (∀ snap, let s := memberAt snap
      s.cas.crown = false ∧ (frame 0).port = 0 ∧ FrameTurn s (frame 0) 5 ∧ s.cas.snap = snap ∧ s.cas.applied = 0 ∧ s.pwr.st = 0 ∧ s.cas.voteStep = 1) ∧
    ((stampMsg 0 1).stamp ≤ (memberAt false).cas.applied ∧ (memberAt false).cas.applied < (stampMsg 9 1).stamp ∧ (stampMsg 9 1).act ≠ .sag) ∧
    (∀ e ∈ (memberAt true).cas.recent ++ (memberAt true).cas.held, e.stamp ≤ 0) ∧
    (let s := memberAt false
     ∀ u, u ∈ [0, 1] → ∃ w, s.cas.myLeases.get 3 false = true ∧ s.staging.look 5 = some w ∧ w.zone = 3 ∧ w.off ≤ u ∧ u < w.off + w.n ∧
       w.complete = false ∧ w.data.has (u - w.off) = false ∧ w.data.length + 1 < w.n) ∧
    (∃ w : Staged, w = { ctx := 65536, owner := 0, zone := 3, off := 0, n := 2, bufs := [], data := [(0, Sealed.taken 7 8)] } ∧
       w.n ≤ w.data.length + 1 ∧ w.data.has 1 = false) ∧
    (memberAt false).cas.myLeases.get 4 false = false ∧
    (let s := { memberAt false with upd := { stage := 9, booted := 1 } }
     s.pkgCheck pkg s.otherSlot true true = none ∧ s.pkgCheck pkg s.otherSlot true false = some (3, stFwImage)) ∧
    (({ memberAt false with nv := { actState := 2 } } : State).nv.actState = 2 ∧ (memberAt false).nv.actState ≠ 2) := by
  refine ⟨fun _ => ⟨rfl, rfl, frameTurn ⟨Nat.le_refl 5, rfl, Nat.zero_lt_succ 2, rfl, rfl⟩, rfl, rfl, rfl, rfl⟩, by decide, nofun, fun u h => ?_,
    ⟨_, rfl, by decide⟩, by decide, by decide, by decide⟩
  simp only [List.mem_cons, List.not_mem_nil, or_false] at h
  rcases h with rfl | rfl <;> exact ⟨_, rfl, rfl, by decide⟩

/-- The crown with member 1 in a state, joined, at work on a write and a read of that member's zone. -/
def crownAt (m : Member) : State :=
  { linkAt true 5 1 m with
    zones := [(3, { place := some { chip := 1, pos := [], seed := 0, fence := 0 } })]
    ctxs := [(0, { ctxOf 1024 (nsEnt 1) with phase := .stamped, stamped := true, stamp := 5, zone := 3 }),
             (1, { ctxOf 1024 (nsEnt 2) with phase := .stamped, stamped := true, stamp := 6, zone := 3
                                             runits := [(0, { st := .queued, alts := [.stored 0 0 0 3 0 none] })] })]
    staging := [(5, { ctx := 0, owner := 0, zone := 3, off := 0, n := 1, bufs := [], data := [(0, Sealed.taken 7 8)] })] }

theorem witness_CrownHearsItsMembers : ∀ m, m ∈ [({ st := .active } : Member), { st := .fenced, resync := 2 }, { st := .fenced }] →
    FrameTurn (crownAt m) (frame 0) 5 ∧ (crownAt m).cas.members.look 1 = some m ∧ (crownAt m).cas.crown = true ∧
    (crownAt m).canStamp = true ∧ (crownAt m).fenceStamped 1 = false ∧ (crownAt m).gate.entries = [] ∧
    (m.resync = 2 → m.snapAt < 9) ∧
    (∃ st x, (crownAt m).staging.look 5 = some st ∧ (crownAt m).zoneChip st.zone = 1 ∧ st.complete = false ∧ st.n ≤ st.data.length ∧
      (crownAt m).ctxs.look st.ctx = some x ∧ x.phase = .stamped) ∧
    (∃ x r, (crownAt m).ctxs.look 1 = some x ∧ x.phase = .stamped ∧ x.e.opc = 2 ∧ x.q ≠ 1023 ∧ x.runits.look 0 = some r ∧ r.st = .queued ∧ r.op = none ∧
      (crownAt m).zoneChip x.zone = 1) :=
  fun m h => ⟨frameTurn ⟨Nat.le_refl 5, rfl, Nat.zero_lt_succ 2, rfl, rfl⟩, rfl, rfl, rfl, rfl, rfl, by revert h; revert m; decide,
    ⟨_, _, rfl, rfl, rfl, by decide, rfl, rfl⟩, ⟨_, _, rfl, rfl, rfl, by decide, rfl, rfl, rfl, rfl⟩⟩

/-- The digests that a comparison finds, and the votes of another member. -/
theorem witness_CrownHearsItsMembers_clauses :
    (let s := { crownAt {} with gate := { tickCheck := 9, tickShared := 1 } }; s.gate.tickCheck = 9 ∧ (1 : BitVec 256) = s.gate.tickShared ∧ (2 : BitVec 256) ≠ s.gate.tickShared) ∧
    (let s := { crownAt {} with cas := { (crownAt {}).cas with voteStep := 1, members := [(1, {}), (2, {})] } }
     s.cas.voteStep = 1 ∧ s.cas.members.any (fun k m => k != 1 && m.vote != 1) = true ∧ s.nv.pldmSelf = false) ∧
    (let s := { crownAt {} with dies := [(dieKey 1 1023, {})] }
     s.dieGood (dieKey 1 1023) = true ∧ s.zoneChip 3 = 1 ∧ ∀ ev : SysEv, s.eventWaits (· == ev) = false) ∧
    (let p : Place := { chip := 1, pos := [], seed := 0, fence := 0 }
     let s := { crownAt {} with zones := [(3, { place := some p, migOld := some p })] }
     s.zoneChip 3 = 1 ∧ (s.zone 3).migOld.isSome = true) :=
  ⟨by decide, by decide, ⟨by decide, by decide, fun _ => rfl⟩, by decide⟩

theorem witness_CrownActsOnMembers :
    (∀ st, st ∈ [MSt.absent, .joining, .refused, .held, .active, .fenced, .excluded] → ∀ ph, ph ∈ [0, 5] →
      let s := linkAt true ph 1 { st := st, manifest := 1, svns := State.reset.efl.svns }
      s.cas.crown = true ∧ s.cas.members.look 1 = some { st := st, manifest := 1, svns := State.reset.efl.svns } ∧ s.canStamp = true ∧
        (s.port 0).phase = ph ∧ s.versionsMatch 1 = true ∧ s.pwr.st = 0 ∧ s.brm.st < 3 ∧ s.cas.todo = none ∧ s.gate.entries = []) ∧
    (∀ st, let s := { linkAt true 5 1 { st := st } with gate := { stopped := true } }; s.cas.todo = none ∧ s.canStamp = false) ∧
    (linkAt true 5 1 { st := .held }).versionsMatch 1 = false ∧
    (let s := { linkAt true 0 1 {} with upd := { stage := 8 } }; s.upd.stage = 8 ∧ s.cas.joinwaitDone = false ∧ s.cas.members = [(1, {})]) :=
  ⟨fun _ _ _ _ => ⟨rfl, rfl, rfl, rfl, rfl, rfl, Nat.zero_lt_succ 2, rfl, rfl⟩, fun _ => ⟨rfl, rfl⟩, by decide, rfl, rfl, rfl⟩

/-! ### Witnesses: the meter island -/

def rec (n : Nat) : MRec := { type := 1, recno := n, firstno := n }

/-- The island runs, or has not started. -/
def island (run : Bool) : State := { State.reset with mtr := { run := run, tallies := [{ owner := 0, inst := 1, rd := 4 }], zone := [rec 1] } }

def row (rd : Nat) : TallyRow := { owner := 0, inst := 1, prov := 0, occ := 0, rd := rd, wr := 0, dieUs := 0, gone := false }

theorem witness_IslandCountsAndCloses :
    (island true).mtr.run = true ∧ (island false).mtr.run = false ∧ (island false).mtr.paramBusy = false ∧ (island false).mtr.lost = false ∧
    (∀ l, ({ lost := l } : Mtr).run = false ∧ ({ lost := l } : Mtr).paramBusy = false) ∧ (island true).mtr.zone.getLast? = some (rec 1) ∧
    ([row 4] = [row 4] ∧ (island true).mtr.tallies = [{ owner := 0, inst := 1, rd := 4 }]) ∧ (island true).mtr.lastStamp < 1 ∧ 0 ≤ (island true).mtr.lastStamp ∧
    (∀ n, n ∈ [4, 5] → [row n].all (island true).mtr.rowOk = true) ∧ [row 3].all (island true).mtr.rowOk = false ∧
    (∀ b, b ∈ [-100001, -100000, 100000, 100001] → (-100000 ≤ b ∧ b ≤ 100000) ∨ (b < (-100000 : Int) ∨ 100000 < b)) ∧
    ({ params := [(1, 100)] } : Mtr).param 1 ≠ 0 := by decide

theorem witness_RecordsAreStoredAndSealed :
    (let m : Mtr := { buffer := [rec 1] }; m.merging = none ∧ m.buffer = [rec 1] ∧ (rec 1).length ≤ m.freeBytes) ∧
    (let m : Mtr := { merging := some (rec 2) }; m.merging = some (rec 2) ∧ m.ackWait = none) ∧
    ((7 : Word).toNat / 2 ^ 62 = State.reset.cas.chip) ∧
    (let m : Mtr := { acked := 8, zone := [rec 9] }; (7 : Word).toNat < m.acked ∧ m.acked ≤ (10 : Word).toNat ∧ m.newest < (10 : Word).toNat ∧
      m.acked ≤ (8 : Word).toNat ∧ (9 : Word).toNat ≤ m.newest ∧ m.merging = none) ∧
    (∀ b, ({ run := true, sealOpen := b } : Mtr).sealOpen ≠ !b) ∧
    (∀ n, n ∈ [0xfffffffe, 0xffffffff] → let m : Mtr := { run := true, sealOpen := true, sealCnt := n, paramSel := 1, paramVal := 100 }
      m.paramBusy = false ∧ m.run = true ∧ m.sealOpen = true ∧ paramOk m.paramSel 100 = true ∧ (m.sealCnt < 0xffffffff ∨ 0xffffffff ≤ m.sealCnt)) ∧
    paramOk 1 99 = false ∧ paramOk 1 10001 = false ∧ paramOk 7 (2 ^ 64 - 1) = true := by
  refine ⟨⟨rfl, rfl, by decide⟩, ⟨rfl, rfl⟩, by decide, by decide, by decide, by decide, by decide⟩

/-- A metering zone with a record of `k` entries behind some records. -/
def fullZone (l : List MRec) (k : Nat) : Mtr :=
  { run := true, time := 86400 * 10 ^ 9
    zone := l ++ [{ type := 2, recno := 100, firstno := 100, entries := List.replicate k { owner := 0, inst := 0 } }] }

theorem fullZone_bytes (l : List MRec) (k : Nat) : recBytes (fullZone l k).zone = recBytes l + (352 + 48 * k) := by
  simp [recBytes, fullZone, MRec.length]

/-- With 178,900,000 entries in all, less than 64 full records are free. -/
theorem fullZone_low (l : List MRec) : (fullZone l 178900000).low = true := by
  unfold Mtr.low Mtr.freeBytes
  rw [fullZone_bytes]
  refine decide_eq_true ?_
  unfold zoneBytes fullRecord
  omega

/-- 60 interval records of one hour, older than a day. -/
def hour : List MRec := (List.range 60).map fun n => rec (n + 1)

theorem fullZone_runs (k : Nat) : (fullZone [] k).nextRun false = none ∧ ((fullZone hour k).nextRun false).isSome = true := ⟨rfl, rfl⟩

theorem witness_RecordsAreStoredAndSealed_merge :
    ((fullZone [] 178900000).low = true ∧ (fullZone [] 178900000).nextRun false = none) ∧
    ((fullZone hour 178900000).low = true ∧ ((fullZone hour 178900000).nextRun false).isSome = true) :=
  ⟨⟨fullZone_low _, (fullZone_runs _).1⟩, fullZone_low _, (fullZone_runs _).2⟩

/-! ### Witnesses: power, thermal, alarms -/

theorem witness_BankIsBudgetedChargedAndTested :
    (∀ v, v ∈ [9699, 9700, 9999, 10000, 11000, 11001] → let b : Brm := { vchg := 100, vbank := v, iset := 1, rtest := 1 }
      b.st < 2 ∧ (b.vbank + 300 < 10000 ∨ b.vbank < 10000 ∧ 10000 ≤ b.vbank + 300 ∨ 10000 ≤ b.vbank ∧ b.vbank ≤ 11000 ∨ 11000 < b.vbank) ∧
        b.rtest ≠ 0) ∧
    (2 : Nat) ≤ ({ st := 2 } : Brm).st ∧ (∀ r, r ∈ [1, 3] → ({ testResult := r } : Brm).testResult = 1 ∨ ({ testResult := r } : Brm).testResult = 3) ∧
    (let m : BankMeas := { v0 := 3, v1 := 2, v2 := 1, tUs := 1, settled := true, flagged := false, dirtyOk := true, sag := false }
     m.dirtyOk = true ∧ m.sag = false ∧ m.settled = true ∧ m.flagged = false ∧ m.v1 ≠ 0 ∧ m.v2 < m.v1) := by decide

theorem witness_StopWakeSagAndConversions :
    (let s := { State.reset with upd := { stage := 9 }, cas := { crown := true } }
     s.pwr.st = 0 ∧ s.upd.stage = 9 ∧ s.idle = true ∧ s.nvme.stopIdle ≤ 0 ∧ s.cas.crown = true ∧ s.cas.members.all (fun _ m => m.st != .active) = true) ∧
    (∃ w ∈ [WakeSrc.i3c, .pcie], w ≠ .i3c) ∧ (∀ w ∈ [WakeSrc.i3c], w = .i3c) ∧
    (let s := { linkAt true 5 1 { st := .active } with pwr := { st := 2 } }
     s.pwr.st = 2 ∧ s.cas.members.look 1 = some { st := .active } ∧ s.linkJoined 1 = true) ∧
    (∀ n, n ∈ [2, 3] → { State.reset with mon := { sagRun := n } }.mon.sagRun = n) ∧
    (∀ n, n ∈ [2, 3, 4] → { State.reset with brm := { st := n } }.brm.st = n) ∧
    ({ State.reset with mon := { settleLeft := 1 } }.mon.settleLeft = 1) ∧ State.reset.mon.stopFrame = false ∧
    (∀ c, c ∈ [2, 11, 17] → (c = 2 ∨ 11 ≤ c ∧ c ≤ 17)) ∧ (∀ c, c ∈ [0, 10, 18, 23] → ¬ (c = 2 ∨ 11 ≤ c ∧ c ≤ 17)) ∧
    { State.reset with mon := { stopFrame := true } }.mon.stopFrame = true := by decide

/-- Region 0 in band C, both its sites read, and cool since 0. -/
def warm : State :=
  { State.reset with
    now := secNs
    thm := { sites := [(0, { read := true, coolFrom := some 0 }), (1, { read := true, coolFrom := some 0 })], regions := [(0, { band := 2 })] } }

theorem witness_ThermalManagerActs :
    { State.reset with thm := { sites := [(0, { broken := true })] } }.site 0 = { broken := true } ∧
    (warm.site 0).broken = false ∧ (warm.site 0).read = true ∧ (warm.site 1).broken = false ∧ (warm.site 1).read = true ∧
    (warm.region 0).held = false ∧ (State.reset.site 1).read = false ∧
    (∀ t, t ∈ [degC (-60), degC 42, degC 45, degC 75, degC 110, degC 120, degC 150] → warm.breakCause 0 t .good = 0) ∧
    (∀ t, t ∈ [degC (-60) - 1, degC 150 + 1] → warm.breakCause 0 t .good ≠ 0) ∧ warm.breakCause 15 0 .short ≠ 0 ∧
    (2 : Nat) < bandOf (degC 75) ∧ bandOf (degC 75 - 1) ≤ 2 ∧ bandEdge 2 < degC 42 + 1 + degC 3 ∧ degC 42 + degC 3 ≤ bandEdge 2 ∧
    (warm.site 0).coolFrom = some 0 ∧ 0 + secNs ≤ warm.now ∧
    (let s := { State.reset with thm := { calmSince := some 0, step := 1, floor := 0 } }
     s.thm.calmSince.isSome = true ∧ s.thm.floor < s.thm.step ∧ s.thm.lastStepAt ≠ some s.now) ∧
    State.reset.thm.calmSince = none ∧ warm.nvme.tempOver = [] ∧ warm.nvme.tempUnder = [] ∧
    (let s := { warm with thm := { warm.thm with regions := [(0, { band := 4, held := true })] } }
     (s.region 0).held = true ∧ (s.site 0).broken = false ∧ s.breakCause 0 0 .openCircuit ≠ 0) := by decide

theorem witness_AlarmsLogAndCountsAct :
    (∀ r, r ∈ [0, 1, 2] → let s := { sliceAt .active true 0 with evt := { glitchArmed := true, rsp := [r, r, r, r] }, cas := { crown := true } }
      s.evt.glitchArmed = true ∧ s.glitchSeen 15 ≠ 0 ∧ s.glitchSeen 0 = 0 ∧ s.evt.rsp.getD 0 0 = r ∧ s.evt.rsp.getD 2 0 = r ∧ s.evt.owed = 0 ∧
        s.evt.latch.getLsbD 0 = false ∧ s.evt.latch.getLsbD 2 = false ∧ 1023 ∈ s.slices.map (·.1) ∧ (s.slice 1023).st = .active ∧
        s.canStamp = true ∧ s.gate.entries = []) ∧
    (let s := { State.reset with cas := { crown := true }
                                 gate := { next := 6, entries := [(5, { kind := .flushE, ctx := 0, owner := 0, nsid := 1, scopes := [zkey 1 0] })] } }
     s.canStamp = true ∧ s.evt.owed = 0 ∧ s.gate.entries ≠ []) ∧
    (∀ (k : Nat) (e : Entry), Tbl.look [(5, ({ kind := .flushE, ctx := 0, owner := 0, nsid := 1, scopes := [] } : Entry))] k = some e → k < 6 ∧ e.sys = none) ∧
    State.reset.evt.glitchArmed = false ∧ State.reset.canStamp = false ∧ State.reset.evt.owed = 0 ∧
    { State.reset with evt := { latch := 5 } }.evt.latch.getLsbD 2 = true ∧ State.reset.log.clearing = false := by
  refine ⟨by decide, by decide, fun k e h => ?_, by decide⟩
  unfold Tbl.look at h
  split at h
  · subst k; simp at h; subst h; decide
  · cases h

/-! ### Witnesses: the Bonnet array -/

/-- A Bonnet at level 1. -/
def efl1 : Efl := { words := [(2048 * 256, 0)] }

/-- A Bonnet at a level whose address is word 0 of a sector. -/
def eflAt (e : Efl) (sec : Nat) : Efl := { e with addr := BitVec.ofNat 32 (sec * 256) }

theorem witness_BonnetArrayAnswers :
    (∀ x, x ∈ [2048, 4091] → secSealed (eflAt efl1 x).sec = true ∧ (eflAt efl1 x).level ≠ 0 ∧ (eflAt efl1 x).busy = false) ∧
    (∀ x, x ∈ [2047, 4092] → secSealed (eflAt efl1 x).sec = false) ∧ efl1.level = 1 ∧ ({} : Efl).level = 0 ∧ efl2.level = 2 ∧
    secFactory (eflAt {} 4092).sec = true ∧ secFactory (eflAt {} 4091).sec = false ∧
    (∀ x, x ∈ [2046, 2047] → secControl (eflAt {} x).sec = true) ∧ secControl (eflAt {} 2045).sec = false ∧
    (∀ x, x ∈ [0, 2045] → secOem (eflAt {} x).sec = true ∧ ({ eflAt {} x with prot := BitVec.allOnes 64 } : Efl).prot.getLsbD (x / 32) = true ∧
      (eflAt {} x).prot.getLsbD (x / 32) = false ∧ (eflAt {} x).wordAt 0 (x * 256) = BitVec.allOnes 64 ∧
      ({ eflAt {} x with words := [(x * 256, 0)] } : Efl).wordAt 0 (x * 256) ≠ BitVec.allOnes 64) := by decide

theorem witness_BonnetArrayAnswers_levels :
    (let e : Efl := { busy := true, opKind := 2 }; e.busy = true ∧ e.rdpBusy = false ∧ e.opKind = 2) ∧
    (let e : Efl := { busy := true, opKind := 3, opSector := 5 }; e.busy = true ∧ e.rdpBusy = false ∧ e.opKind ≠ 2) ∧ ({} : Efl).pwSet = none ∧
    (∀ x, x ∈ [2049, 4090, 4091, 2048] → let e : Efl := { busy := true, rdpBusy := true, opKind := 3, opSector := x }
      e.busy = true ∧ e.rdpBusy = true ∧ (e.opSector < 4091 ∧ e.opSector ≠ 2048 ∨ e.opSector = 4091 ∨ e.opSector = 2048)) ∧
    (∀ l, l ∈ [({} : Efl), efl1, efl2] → l.busy = false) ∧ ({} : Efl).words.look (2048 * 256 + 1) = none ∧
    (∀ u so, let s := { State.reset with efl := { efl1 with pwSet := some 1, unlocked := u }, mtr := { sealOpen := so } }
      s.efl.level = 1 ∧ (∃ p, s.efl.pwSet = some p) ∧ s.efl.unlocked = u ∧ s.mtr.sealOpen = so) ∧
    ({ efl1 with lockout := true } : Efl).lockout = true ∧ ({ pw := 2, pwSet := some 1 } : Efl).pw ≠ 1 ∧
    ({ pw := 1, pwSet := some 1 } : Efl).pw = 1 :=
  ⟨by decide, by decide, rfl, by decide, by decide, by decide, fun _ _ => ⟨rfl, ⟨1, rfl⟩, rfl, rfl⟩, by decide⟩

/-! ### Witnesses: update and boot -/

/-- A chip with staging content as given, and a command in context 0. -/
def stagingAt (n : Nv) : State := { adm (ent 0x10) with nv := n }

theorem witness_StagingSlotIsWrittenAndCommitted :
    (let n : Nv := { norQueue := [(0, 7), (1, 8)], norErase := true }; n.commitAct = 0 ∧ n.stgErasing = false ∧ n.norQueue ≠ [] ∧ n.norErase = true) ∧
    (let n : Nv := { stgErasing := true }; n.stgErasing = true ∧ n.pldmState ≠ 3) ∧
    (∀ d, let s := stagingAt { norQueue := [(0, 7)], stgDiscard := d, norCtx := some 0 }
      s.nv.norQueue = [(0, 7)] ∧ s.nv.norErase = false ∧ s.nv.stgDiscard = d ∧ s.nv.norCtx = some 0 ∧ s.ctxs.look 0 = some (ctxOf 0 (ent 0x10)) ∧
        (ctxOf 0 (ent 0x10)).phase ≠ .done) ∧
    (∀ a, a ∈ [1, 2, 5] → let s := stagingAt { copying := true, commitAct := a, commitCtx := some 0 }
      s.nv.norQueue = [] ∧ s.nv.copying = true ∧ s.nv.pldmSelf = false ∧ s.nv.commitAct = a ∧ s.cas.members = [] ∧ s.nv.commitCtx = some 0 ∧
        s.ctxs.look 0 = some (ctxOf 0 (ent 0x10)) ∧ (ctxOf 0 (ent 0x10)).phase ≠ .done) ∧
    (let s := stagingAt { actState := 2 }; s.nv.actState = 2 ∧ s.cas.crown = true) := by decide

/-- A PLDM session in a state, its package complete in staging. -/
def pldmAt (st : Nat) : State :=
  { State.reset with
    upd := { stage := 9, booted := 0, norMib := 64 }
    nv := { pldmState := st, stgOwner := 2, stgLen := 8192, stgBlocks := [(0, 7), (1, 8)], commitTarget := 1 } }

theorem witness_PldmSessionRuns :
    (∀ st, st ∈ [0, 1, 2, 3, 4, 5, 6] → let s := pldmAt st
      s.powered = true ∧ s.inStop = false ∧ s.nv.pldmState = st ∧ s.nv.stgOwner ≠ 1 ∧ s.nv.commitAct = 0 ∧ s.nv.stgErasing = false ∧
        s.upd.nosusp = false ∧ s.nv.norQueue = [] ∧ s.cas.members = [] ∧ s.nv.actState ≠ 2 ∧ s.pldmNext = none) ∧
    ({ pldmAt 3 with nv := { (pldmAt 3).nv with stgBlocks := [(0, 7)] } }.pldmNext = some 1) ∧
    (let n := (pldmAt 2).nv; n.stgOwner = 2 ∧ n.pldmStamp = 0) ∧ 8192 ≤ (pldmAt 2).stgCap * 4096 ∧
    (pldmAt 2).stgCap * 4096 < (pldmAt 2).stgCap * 4096 + 1 ∧ (pldmAt 4).commitCheck pkg (pldmAt 4).otherSlot true = none ∧
    (pldmAt 4).commitCheck { pkg with manifestOk := false } (pldmAt 4).otherSlot true = some (5, stFwImage) ∧
    ({ commitAct := 5, pldmState := 5 } : Nv).commitAct = 5 := by decide

/-- A well-formed image. -/
def goodImg : Image :=
  { img with
    pfQueues := 1, pfWeight := 1, stopIdle := 1, dramGib := 1, dramRanks := 1, dqsLimit := 1, rtOn := 1, rtOff := 2, raDepth := 1
    rdBurst := 1, duty := 30, limitLog2 := 20, vchg := 280, vstop := 60, isave := 10, testPeriod := 1, eta := 700, rtest := 10, cmin := 200
    esrmax := 1, sagv := 1, div11 := 1000, div12 := 24001, ichgFs := 100, ntcB := 2500, ntcR25 := 5000, down := 5, retrain := 60
    logRows := 64, stageAge := 1, spareE := 1
    media := { page := 32, planes := 6, spare := 4352, blocks := 1024, rows := 2304, suspMax := 1, faTemp := 0, pair := 0, repl := 2
               retireMax := 2, rated := 100, ecmax := 100, eyeMin := 0, tout := 0, timing := [0x10000000], tsProg := 0, tsErase := 0, tprog := 0
               tbers := 0, tread := 10, tprogSlc := 1, tbersSlc := 1, other := [] } }

def bootIn : BootIn where
  perstN := true
  bonnetOk := true
  norOk := true
  norMib := 32
  norMhz := 100
  norSuspend := true
  recordOk := true
  slotA := { pkg with image := goodImg }
  slotB := { pkg with image := goodImg }
  dram := List.replicate 16 { gib := 1, ranks := 1, linkEcc := false, eyes := List.replicate 6 (some (10, 10)) }
  chTrain := List.replicate 32 [some (0, 0)]
  ces := 1
  luns := 1
  badDies := []
  anchorBad := false
  ledgerBad := false
  factoryBad := []
  sentinels := []
  sentinelBase := 0
  resync := []
  resyncSecs := 0
  intentOk := true
  ms := 1
  sealOpen := false
  meterOk := true

/-- The state once the slot is picked, DRAM and flash have trained and the bad dies are out. -/
def booted (b : BootIn) : State :=
  let s1 := ((State.reset.bootPick (slotOf b 0) 0 false).dramBoot (slotOf b 0).image b).1.flashBoot b
  let dead := (populated b).filter fun d => s1.dieGood d && (b.badDies.contains d || (s1.chn (dieChannel d)).failed)
  forNats dead s1 fun s d => s.dieEdit d fun d => { d with failed := true }

theorem witness_BootRunsOrStops : State.reset.powered = false ∧ State.reset.efl.keysPart = false ∧ bootIn.bonnetOk = true ∧
    (bootIn.norOk && (bootIn.norMib == 32 || bootIn.norMib == 64 || bootIn.norMib == 128 || bootIn.norMib == 256)) = true ∧
    (State.reset.nv.slotOrder.find? fun k => State.reset.slotCheck (slotOf bootIn k) == 0) = some 0 ∧
    (let b := { bootIn with slotA := { pkg with hashesOk := false }, slotB := { pkg with headerOk := false } }
     (State.reset.nv.slotOrder.find? fun k => State.reset.slotCheck (slotOf b k) == 0) = none) ∧
    (State.reset.dramBoot goodImg bootIn).2 = true ∧ (State.reset.dramBoot goodImg { bootIn with dram := [] }).2 = false ∧
    State.mediaFault bootIn = false ∧ State.mediaFault { bootIn with ces := 9 } = true ∧
    0 ∈ populated bootIn ∧ ({ bootIn with badDies := [0] } : BootIn).badDies.contains 0 = true := by decide +kernel

theorem witness_BootRunsOrStops_sizes :
    (let z := (booted bootIn).slcSizes true; (z.nmin + z.ksave) * 10 ≤ z.g) ∧
    (let z := (booted { bootIn with chTrain := [] }).slcSizes true; z.g < (z.nmin + z.ksave) * 10) ∧
    (booted bootIn).ledgerOk manifest = true ∧ (booted bootIn).nv.actState ≠ 2 ∧
    (let s := { booted bootIn with nv := { (booted bootIn).nv with anchor := true, ledgerFormat := 5 } }
     s.ledgerOk manifest = false ∧ { s.nv with actState := 2 }.actState = 2) := by decide +kernel

/-- After a clean stop the stamps go on at the next multiple of 65,536, and I/O is accepted (R427, R325). -/
theorem test_clean_boot :
    let t := nextOf (exec (.powerOnResetRelease bootIn) { State.reset with nv := { anchor := true, clean := true, savedNext := 5 } })
    (t.upd.stage, t.upd.clean, t.gate.ioOk, t.gate.next, t.nv.clean) = (9, true, true, 65536, false) := by decide +kernel

/-! ### Witnesses: registers and sideband -/

theorem witness_RegisterWritesFollowTheirCodes :
    State.reset.barsUp = false ∧ State.reset.linkUp = false ∧ (sliceAt .active false 0).barsUp = true ∧
    (let s := { sliceAt .active false 0 with pci := { rate := 1, perstN := true } }; s.linkUp = true ∧ s.inStop = false ∧ s.powered = true) ∧
    (∀ b, { sliceAt .active false 0 with brm := { lock := b }, thm := { lock := b } }.brm.lock = b) ∧
    (∀ p, p ∈ [(1, 0), (2, 0), (4, 2), (8, 4)] → ¬((p.1 = 4 ∨ p.1 = 8) ∧ p.2 % p.1 = 0)) ∧
    (0x800000 : Nat) % 8 = 0 ∧ (0x21fff8 : Nat) % 8 = 0 ∧
    (sliceAt .active false 0).pageOk 1023 (some 8) = false ∧ (sliceAt .active false 0).pageOk 1023 (some 7) = true := by decide +kernel

/-- A chip at a boot stage that keeps one answer for endpoint 9 of port 0. -/
def sideAt (stage : Nat) : State :=
  { State.reset with img := some img, upd := { stage := stage }, side := { kept := [(9, { seq := 3, cc := 0, data := [7] })], addr := [(0, 8)] } }

theorem witness_SidebandRequestsAreServed :
    (sideAt 9).img = some img ∧ (sideAt 9).pwr.st ≠ 2 ∧ (sideAt 9).side.kept.look (0 * 256 + 9) = some { seq := 3, cc := 0, data := [7] } ∧
    (∀ n, n ∈ [1, 60] → 1 ≤ n ∧ n ≤ 60 ∧ 0x3ffff10 % 4 = 0 ∧ 0x3ffff10 + 4 * n ≤ 0x4000000) ∧ ¬(0x3ffff14 + 4 * 60 ≤ 0x4000000) ∧
    ¬(1 ≤ 61 ∧ 61 ≤ 60) ∧ (0x1235 : Nat) ≠ img.vid ∧ 0x1234 = img.vid ∧ (sideAt 0).upd.stage = 0 ∧
    (∀ k, k < 2 → earlyBlock (0x40000 + 4 * k) = false) ∧ (sideAt 9).side.addr.has 0 = true ∧ (sideAt 9).side.addr.has 1 = false := by decide

/-! ### The spec's worked examples -/

/-- R79: dword 3 [31:16] of POOL_EMPTY with phase 1 and of FENCE_VIOLATION with phase 0. -/
theorem test_dword3 : dword3 stPoolEmpty true 0 = 0x0f030000 ∧ dword3 stFence false 0 = 0x8f080000 := by decide

/-- R6: LUN 2 on chip enable 5 of channel 15 is die 502; R91: group 37 holds dies 517, 549 and on to 997. -/
theorem test_dies : dieChannel 502 = 15 ∧ 502 % 32 = 5 * 4 + 2 ∧ groupDie 37 0 = 517 ∧ groupDie 37 1 = 549 ∧ groupDie 37 15 = 997 ∧
    dieGroup 997 = 37 := by decide

/-- The example die: QLC, 32 KiB pages, 4 planes, 584 page rows. -/
def qlcImg : Image := { img with qlc := true, media := { img.media with page := 32, planes := 4, rows := 584, blocks := 6528 } }

/-- A 1 GiB zone (R149): BDATA of 73 MiB, ZSZE of 0x40000 blocks, a nominal capacity of 0x3fe00 blocks. -/
theorem test_zone_of_one_gib :
    let g := { State.reset with img := some qlcImg }.geom
    g.bdata = 18688 ∧ g.zsze = 0x40000 ∧ g.nominal = 0x3fe00 ∧ g.bdataSlc * 4 = 18688 := by decide

/-- Namespace 1 of nine such zones, and a block command in it. -/
def zone7 (opc : Nat) (slba : Nat) (nlb : Dword) : SqEntry := { nsEnt opc with cdw10 := BitVec.ofNat 32 slba, cdw12 := nlb, dptr1 := 0x1000 }
def ioQlc (e : SqEntry) : State := { io e with img := some qlcImg, nss := [(1, { owner := 0, nsze := 9 * 0x40000, conv := 0, attached := true })] }

/-- R116: a Write that ends past zone 7, one that ends with it, and a Read that ends one block past it. -/
theorem test_range_crosses :
    (let e := zone7 1 0x1fff80 255; (ioQlc e).ioChecks 1024 e [] = some (stRangeCrosses, 10)) ∧
    (let e := zone7 1 0x1fff00 255; (ioQlc e).ioChecks 1024 e [] = none) ∧
    (let e := zone7 2 0x1fff00 256; (ioQlc e).ioChecks 1024 e [] = some (stRangeCrosses, 10)) := by decide

/-- R211: zone 41 with seed 0x5eed on a crown whose die 270 has failed; the first replacement channel gives die 394. -/
theorem test_permutation :
    let cands := fun c => ((List.range 32).map (c * 32 + ·)).filter (· != 270)
    let h := permH 41 0x5eed
    h = 0xb5bc ∧ permMembers cands h = [922, 767, 580, 425, 272, 115, 984, 829, 642, 487, 332, 177, 22, 891, 704, 549] ∧
    (permSpare cands h).head? = some 16 ∧ permChan h 16 = 12 ∧ (cands 12).getD (permIdx h 16 % 32) 0 = 394 := by decide +kernel

/-- The message of five words that a flush cuts: its header, its second push after the flush, and the header pushed again. -/
theorem test_mailbox_message_cut :
    let m : Mbox := { nextSeq := 7 }
    let h : Word := 0x0007050000000000
    let one := (m.push false true h).1
    let cut := one.flush
    one.part = 1 ∧ one.free = 31 ∧ one.result = 0 ∧ cut.flushedSeen = true ∧ cut.free = 32 ∧ cut.part = 0 ∧
    (cut.push false true 4).1 = { cut with result := 2 } ∧ cut.nextSeq = 7 ∧
    (({ cut with flushedSeen := false }).push false true h).1.part = 1 := by decide

/-- R309: a count of 1,099,511,627,700 under LIMIT 2^40 has room for 16 units and not for 80. -/
theorem test_key_limit :
    let s := { State.reset with key := { limitLog2 := 40, owners := [(55, { cur := 7, use := 1099511627700 })] } }
    s.keyRoom 55 16 = true ∧ s.keyRoom 55 80 = false := by decide

/-- R374: the daily test reads 33.000 V, 32.835 V and 32.024 V over 10 ms: 39.99 mF and 50.3 mΩ. -/
def bankMeas : BankMeas := { v0 := 33000, v1 := 32835, v2 := 32024, tUs := 10000, settled := true, flagged := false, dirtyOk := true, sag := false }
def bank : State := { State.reset with brm := { rtest := 100, vstop := 80, isave := 40, eta := 900, cmin := 300, esrmax := 1000, vbank := 33000 } }

theorem test_bank_measured : let b := (nextOf (exec (.brmTestGo bankMeas) bank)).brm
    (b.cap, b.esr, b.lowcap, b.testResult) = (3999, 503, false, 0) := by decide

/-- R376: that bank's budget is 2,304 MiB. -/
theorem test_budget : (nextOf (exec .budgetRecompute { bank with brm := { bank.brm with cap := 3999, esr := 503, tested := true } })).brm.budget = 2304 * 2 ^ 20 := by decide

/-- One minute apportioned (R348): 1,512 J among slices 77 and 212, the PF and the system. -/
def minute : State :=
  { State.reset with
    mtr := { run := true, energy := 1512000000, params := [(5, 14000), (6, 400000000)]
             tallies := [{ owner := 77, inst := 1, occ := 6000000000, dieUs := 9600000000 },
                         { owner := 212, inst := 1, occ := 3600000000, dieUs := 4000000000 },
                         { owner := 1024, inst := 0, occ := 2400000000, dieUs := 800000000 },
                         { owner := 1025, inst := 0, dieUs := 1600000000 }] } }

theorem test_minute_apportioned : ((nextOf (exec (.intervalClose 0) minute)).mtr.buffer.map fun r => (r.entries.map (·.energy), r.length)) =
    [([613200000, 294000000, 117600000, 487200000], 544)] := by decide +kernel

/-- The heating step on region 0 (R44, R387, R388): 1 kHz at 71 °C, band D taps at 73 °C, band D at 75 °C. -/
theorem test_heating : nearEdge false (degC 70) = false ∧ nearEdge false (degC 71 + 1) = true ∧ tapUp (degC 73) = 3 ∧
    bandOf (degC 75) = 3 ∧ bandOf (degC 75 - 1) = 2 := by decide

/-- The sideband reads BRM_BUDGET with SEQ 0x31: one snapshot of 2,304 MiB; the same SEQ again gives the kept response (R480). -/
theorem test_sideband_budget :
    let s := { sideAt 9 with brm := { budget := 2304 * 2 ^ 20 } }
    let t := nextOf (exec (.mctpRead 0 9 0x1234 0x31 0x30028 2) s)
    let u := nextOf (exec (.mctpRead 0 9 0x1234 0x31 0x30028 2) { t with brm := {} })
    t.out.head? = some (.sideband 0 9 0x31 0 [0x90000000, 0]) ∧ u.out.head? = some (.sideband 0 9 0x31 0 [0x90000000, 0]) := by decide

end Sys2Proof.Tests
end

section
/-! PROOFS. The state after reset has the invariant of the memories, and register writes follow the access codes (R9-R11, R469-R475). -/

namespace Sys2Proof.Proofs

open Sys2Proof Sys2Proof.Machine Sys2Proof.Safety Sys2Proof.Laws

/-! ### The state after reset -/

theorem logOk_empty : LogOk {} := ⟨by decide, by decide, rfl⟩

theorem savedOk_of_no_saved_log {n : Nv} (h : n.savedLog = none) : SavedOk n := by
  intro l hl
  rw [h] at hl
  cases hl

/-- With no operation under way and no lowering, the Bonnet array has its form whatever its level. -/
theorem eflOk_of_idle {e : Efl} (hb : e.busy = false) (hr : e.rdpBusy = false) : EflOk e := by
  simp [EflOk, hb, hr]

theorem memOk_reset : MemOk State.reset := ⟨rfl, rfl, rfl, rfl⟩

/-- Settles O6: at reset the log is empty, no log is saved, every memory is empty and the Bonnet array is idle. -/
theorem resetHasTheInvariant : Obligations.ResetHasTheInvariant :=
  ⟨⟨logOk_empty, savedOk_of_no_saved_log rfl⟩, memOk_reset, eflOk_of_idle rfl rfl⟩

/-! ### Rows that registers act as -/

/-- The state that a row leaves is the one it answers: no command refuses. -/
theorem next_after_exec (s u : State) (c : Instr) : .next (u.after (exec c s)) = exec c s := by
  obtain ⟨t, ht, -⟩ := exec_law c s
  rw [ht]
  rfl

theorem exec_lockSet (blk : Nat) (s : State) :
    exec (.lockSet blk) s = .next (if blk < 7 then s.setLocks (BitVec.ofNat 8 (2 ^ blk)) else s) := rfl

theorem exec_registerWrite (sp : RegSpace) (o size : Nat) (v : Word) (s : State) :
    exec (.registerWrite sp o size v) s = execRegisterWrite sp o size v s := rfl

/-! ### Locks (R471) -/

/-- The lock bits, in the order of LOCKS: FCH, LAT, DRC, ECC, KEY, BRM, THM. -/
def lockBits (s : State) : List Bool :=
  [s.fch.lock, s.lat.lock, s.drc.lock, s.ecc.lock, s.key.lock, s.brm.lock, s.thm.lock]

theorem lockBits_setLocks_one {blk : Nat} (h : blk < 7) (s : State) :
    lockBits (s.setLocks (BitVec.ofNat 8 (2 ^ blk))) = (lockBits s).set blk true := by
  match blk, h with
  | 0, _ | 1, _ | 2, _ | 3, _ | 4, _ | 5, _ | 6, _ => simp [lockBits, State.setLocks]

theorem lockSet_sets_its_bit {blk : Nat} (h : blk < 7) (s : State) :
    ∃ t, exec (.lockSet blk) s = .next t ∧ Same [.fch, .lat, .drc, .ecc, .key, .brm, .thm] s t ∧
      lockBits t = (lockBits s).set blk true :=
  ⟨s.setLocks (BitVec.ofNat 8 (2 ^ blk)), by rw [exec_lockSet, if_pos h], (State.setLocks_law s _).same,
    lockBits_setLocks_one h s⟩

theorem lockSet_out_of_range {blk : Nat} (h : 7 ≤ blk) (s : State) : exec (.lockSet blk) s = .next s := by
  rw [exec_lockSet, if_neg (by omega)]

/-- A lock bit's register acts as LOCK_SET of its block when bit 0 is written with 1. -/
theorem next_lockBit (s : State) (x b : Nat) :
    .next (s.lockBit x b) = if x.testBit 0 then exec (.lockSet b) s else .next s := by
  unfold State.lockBit
  split
  · exact next_after_exec s s (.lockSet b)
  · rfl

/-! ### What a write reaches (R473) -/

theorem barsUp_eq_true {s : State} (h : s.barsUp = true) : s.linkUp = true ∧ s.inStop = false ∧ s.powered = true := by
  simp only [State.barsUp, Bool.and_eq_true, Bool.not_eq_true'] at h
  obtain ⟨⟨⟨hl, hi⟩, -⟩, hp⟩ := h
  exact ⟨hl, hi, hp⟩

theorem write_config (r : CfgReg) (o size : Nat) (v : Word) (s : State) :
    exec (.registerWrite (.config r) o size v) s =
      .next (if s.linkUp = true ∧ s.inStop = false ∧ s.powered = true then s.cfgWrite r v.toNat else s) := by
  rw [exec_registerWrite]
  unfold execRegisterWrite
  cases h : s.barsUp
  · simp
  · simp [barsUp_eq_true h]

theorem write_without_bars {s : State} (h : s.barsUp = false) {sp : RegSpace} (hsp : ∀ r, sp ≠ .config r) (o size : Nat)
    (v : Word) : exec (.registerWrite sp o size v) s = .next s := by
  rw [exec_registerWrite]
  unfold execRegisterWrite
  cases sp with
  | config r => exact absurd rfl (hsp r)
  | bar0 => simp [h]
  | bar2 => simp [h]
  | bar4 i p => simp [h]

section BarsUp
variable {s : State} (h : s.barsUp = true)
include h

theorem write_misaligned {o size : Nat} (ha : ¬((size = 4 ∨ size = 8) ∧ o % size = 0)) (v : Word) :
    exec (.registerWrite .bar0 o size v) s = .next s ∧ exec (.registerWrite .bar2 o size v) s = .next s := by
  have hok : ((size == 4 || size == 8) && o % size == 0) = false := by simpa [← not_and] using ha
  constructor <;> simp [exec_registerWrite, execRegisterWrite, h, hok]

theorem write_bar0_4 {o : Nat} (ha : o % 4 = 0) (v : Word) :
    exec (.registerWrite .bar0 o 4 v) s = .next (s.bar0Write o v.toNat) := by
  simp [exec_registerWrite, execRegisterWrite, h, ha, twice]

theorem write_bar2_4 {o : Nat} (ha : o % 4 = 0) (hl : o < 0x4000000) (v : Word) :
    exec (.registerWrite .bar2 o 4 v) s = .next (s.cuffWrite4 o v.toNat) := by
  have hin : ¬0x4000000 ≤ o := by omega
  simp [exec_registerWrite, execRegisterWrite, h, ha, hin]

theorem write_bar2_8 {o : Nat} (ha : o % 8 = 0) (hl : o < 0x4000000) (v : Word) :
    exec (.registerWrite .bar2 o 8 v) s = .next (s.cuffWrite8 o v.toNat) := by
  have hin : ¬0x4000000 ≤ o := by omega
  simp [exec_registerWrite, execRegisterWrite, h, ha, hin]

theorem write_bar2_outside {o : Nat} (hl : 0x4000000 ≤ o) (size : Nat) (v : Word) :
    exec (.registerWrite .bar2 o size v) s = .next s := by
  simp [exec_registerWrite, execRegisterWrite, h, hl]

theorem write_page_refused {i : Nat} {p : Option Nat} (hp : s.pageOk i p = false) (o size : Nat) (v : Word) :
    exec (.registerWrite (.bar4 i p) o size v) s = .next (s.bar4Fail i p true o) := by
  simp [exec_registerWrite, execRegisterWrite, h, hp]

theorem write_page_4 {i : Nat} {p : Option Nat} (hp : s.pageOk i p = true) {o : Nat} (ha : o % 4 = 0) (v : Word) :
    exec (.registerWrite (.bar4 i p) o 4 v) s = .next (s.pageWrite i p o v.toNat) := by
  simp [exec_registerWrite, execRegisterWrite, h, hp, ha, twice]

theorem write_page_push {i : Nat} {p : Option Nat} (hp : s.pageOk i p = true) (v : Word) :
    exec (.registerWrite (.bar4 i p) 0x2108 8 v) s = exec (.slcMboutPush (.tenant p) i true v) s := by
  rw [← next_after_exec s s (.slcMboutPush (.tenant p) i true v)]
  simp only [exec_registerWrite, execRegisterWrite, h, hp]
  rfl

end BarsUp

/-! ### Configuration space (R51, R52, R57, R60) -/

theorem next_cfgWrite_pasidCtl (s : State) (x : Nat) :
    .next (s.cfgWrite .pasidCtl x) =
      if x.testBit 0 then .next { s with pci := { s.pci with pasidEn := true } } else exec .pasidEnableCleared s := by
  simp only [State.cfgWrite]
  split
  · rfl
  · exact next_after_exec s s .pasidEnableCleared

theorem next_cfgWrite_pmcsr (s : State) (x : Nat) :
    .next (s.cfgWrite .pmcsr x) =
      if x % 4 = 0 ∨ x % 4 = 3 then exec (.functionPowerStateChange (x % 4 == 3) (x.testBit 8)) s else .next s := by
  simp only [State.cfgWrite]
  split
  · exact next_after_exec s s (.functionPowerStateChange (x % 4 == 3) (x.testBit 8))
  · rfl

/-- A register of plain fields changes the configuration space alone. -/
theorem cfgWrite_fields (s : State) {r : CfgReg} (hr : (∃ i, r = .bar i) ∨ r = .devCtl ∨ r = .devCtl2 ∨ r = .aerCtl) (x : Nat) :
    ∃ p, s.cfgWrite r x = { s with pci := p } := by
  obtain ⟨i, rfl⟩ | rfl | rfl | rfl := hr
  · simp only [State.cfgWrite]
    split
    · exact ⟨s.pci, rfl⟩
    · exact ⟨_, rfl⟩
  · exact ⟨_, rfl⟩
  · simp only [State.cfgWrite]
    split
    · exact ⟨_, rfl⟩
    · exact ⟨s.pci, rfl⟩
  · exact ⟨_, rfl⟩

/-! ### The Cuff window -/

theorem cuffWrite4_unoccupied (s : State) {o : Nat} (h : 0x800000 ≤ o) (v : Nat) : s.cuffWrite4 o v = s := by
  simp (disch := omega) only [State.cuffWrite4, if_neg]

theorem cuffWrite8_halves (s : State) {o : Nat} (h : o < 0x220000 ∨ 0x800000 ≤ o) (v : Nat) :
    s.cuffWrite8 o v = (s.cuffWrite4 o v).cuffWrite4 (o + 4) (v / 2 ^ 32) := by
  have hw : whole64 o = false := by
    simp only [whole64, Bool.or_eq_false_iff, beq_eq_false_iff_ne, Bool.and_eq_false_iff, decide_eq_false_iff_not]
    omega
  simp only [State.cuffWrite8, hw, if_neg (show o ≠ 0x220058 by omega), if_neg (show o ≠ 0x220300 by omega)]
  rfl

theorem cuffWrite4_mail (s : State) {i r : Nat} (hi : i < 1024) (hr : r < 0x1000) (v : Nat) :
    s.cuffWrite4 (0x400000 + 0x1000 * i + r) v = s.wrMail i r (v % 2 ^ 32) := by
  have hd : (0x400000 + 0x1000 * i + r - 0x400000) / 0x1000 = i := by omega
  have hm : (0x400000 + 0x1000 * i + r - 0x400000) % 0x1000 = r := by omega
  simp (disch := omega) only [State.cuffWrite4, if_neg, if_pos, hd, hm]

theorem cuffWrite8_push (s : State) {i : Nat} (hi : i < 1024) (v : Word) :
    .next (s.cuffWrite8 (0x400108 + 0x1000 * i) v.toNat) = exec (.slcMboutPush .manager i true v) s := by
  have hw : whole64 (0x400108 + 0x1000 * i) = true := by
    simp only [whole64, Bool.or_eq_true, Bool.and_eq_true, decide_eq_true_eq, beq_iff_eq]
    omega
  have hd : (0x400108 + 0x1000 * i - 0x400000) / 0x1000 = i := by omega
  rw [← next_after_exec s s (.slcMboutPush .manager i true v)]
  simp (disch := omega) only [State.cuffWrite8, hw, if_neg, if_true, hd, BitVec.ofNat_toNat, BitVec.setWidth_eq]
  rfl

/-! ### Pending bits of EVT_PEND_m (R456) -/

theorem ibiEval_pend (s : State) : s.ibiEval.evt.pend = s.evt.pend := by
  unfold State.ibiEval
  split <;> rfl

theorem pendClear_pend (s : State) (m x : Nat) :
    (s.pendClear m x).evt.pend = s.evt.pend &&& ~~~BitVec.ofNat 320 (x * 2 ^ (32 * m)) := ibiEval_pend _

/-- A dword shifted to place `m` has the bits of that place alone. -/
theorem testBit_dword_at {x : Nat} (hx : x < 2 ^ 32) (m k : Nat) :
    (x * 2 ^ (32 * m)).testBit k = (decide (k / 32 = m) && x.testBit (k % 32)) := by
  rw [Nat.testBit_mul_two_pow]
  by_cases hm : k / 32 = m
  · have hk : k - 32 * m = k % 32 := by omega
    simp [hm, hk, show 32 * m ≤ k by omega]
  · simp only [hm, decide_false, Bool.false_and, Bool.and_eq_false_iff, decide_eq_false_iff_not]
    by_cases hl : 32 * m ≤ k
    · exact .inr (Nat.testBit_lt_two_pow (Nat.lt_of_lt_of_le hx (Nat.pow_le_pow_right (by omega) (by omega))))
    · exact .inl hl

theorem pendClear_pend_bit (s : State) {x : Nat} (hx : x < 2 ^ 32) (m : Nat) {k : Nat} (hk : k < 320) :
    (s.pendClear m x).evt.pend.getLsbD k = (s.evt.pend.getLsbD k && !(decide (k / 32 = m) && x.testBit (k % 32))) := by
  rw [pendClear_pend, BitVec.getLsbD_and, BitVec.getLsbD_not, BitVec.getLsbD_ofNat, testBit_dword_at hx]
  simp [hk]

theorem cuffWrite4_evtPend (s : State) {m : Nat} (hm : m < 10) (v : Nat) :
    s.cuffWrite4 (0x40800 + 4 * m) v = s.pendClear m (v % 2 ^ 32) := by
  have hd : (0x40800 + 4 * m - 0x40000 - 0x800) / 4 = m := by omega
  simp (disch := omega) only [State.cuffWrite4, State.wrEvt, if_neg, if_pos, hd]

/-! ### Lock bits in the window (R471) -/

/-- The blocks that have a lock, in the order of LOCKS, with the offsets of their lock registers (R469). -/
def lockRegisters : List (Nat × Nat) :=
  [(0, 0x190000), (1, 0x1e001c), (2, 0x140050), (3, 0x160030), (4, 0xa0080), (5, 0x30050), (6, 0x2008c)]

theorem cuffWrite4_lock (s : State) {b o : Nat} (h : (b, o) ∈ lockRegisters) (v : Nat) :
    s.cuffWrite4 o v = s.lockBit (v % 2 ^ 32) b := by
  simp only [lockRegisters, List.mem_cons, Prod.mk.injEq, List.not_mem_nil, or_false] at h
  obtain ⟨rfl, rfl⟩ | ⟨rfl, rfl⟩ | ⟨rfl, rfl⟩ | ⟨rfl, rfl⟩ | ⟨rfl, rfl⟩ | ⟨rfl, rfl⟩ | ⟨rfl, rfl⟩ := h <;> rfl

/-! ### BAR0 (R58, R62, R501) -/

theorem bar0Write_aqa (s : State) (v : Nat) :
    s.bar0Write 0x24 v = { s with nvme := { s.nvme with aqa := BitVec.ofNat 32 (v % 2 ^ 32) &&& 0x0fff0fff } } := by
  have hm : BitVec.ofNat 32 (v % 2 ^ 32 &&& 0x0fff0fff) = BitVec.ofNat 32 (v % 2 ^ 32) &&& 0x0fff0fff := BitVec.ofNat_and
  rw [← hm]
  rfl

theorem next_bar0Write_sqDoorbell (s : State) {q : Nat} (hq : q < 512) (v : Nat) :
    .next (s.bar0Write (0x1000 + 8 * q) v) = exec (.pfSqDoorbell q (v % 2 ^ 32 % 65536)) s := by
  have hd : (0x1000 + 8 * q - 0x1000) / 8 = q := by omega
  rw [← next_after_exec s s]
  simp (disch := omega) only [State.bar0Write, if_neg, if_pos, hd]
  rfl

theorem next_bar0Write_cqDoorbell (s : State) {q : Nat} (hq : q < 512) (v : Nat) :
    .next (s.bar0Write (0x1004 + 8 * q) v) = exec (.pfCqDoorbell q (v % 2 ^ 32 % 65536)) s := by
  have hd : (0x1004 + 8 * q - 0x1000) / 8 = q := by omega
  rw [← next_after_exec s s]
  simp (disch := omega) only [State.bar0Write, if_neg, if_pos, hd]
  rfl

/-! ### The slice page (R101, R102) -/

theorem next_pageWrite_sqDoorbell (s : State) (i : Nat) (p : Option Nat) {q : Nat} (hq : q < 128) (v : Nat) :
    .next (s.pageWrite i p (8 * q) v) = exec (.slcDbSq i p q (v % 2 ^ 32 % 4096)) s := by
  have hd : 8 * q / 8 = q := by omega
  rw [← next_after_exec s s]
  simp (disch := omega) only [State.pageWrite, if_pos, hd]
  rfl

theorem next_pageWrite_cqDoorbell (s : State) (i : Nat) (p : Option Nat) {q : Nat} (hq : q < 128) (v : Nat) :
    .next (s.pageWrite i p (8 * q + 4) v) = exec (.slcDbCq i p q (v % 2 ^ 32 % 4096)) s := by
  have hd : (8 * q + 4) / 8 = q := by omega
  rw [← next_after_exec s s]
  simp (disch := omega) only [State.pageWrite, if_neg, if_pos, hd]
  rfl

theorem next_pageWrite_mbinPtr (s : State) (i : Nat) (p : Option Nat) (v : Nat) :
    .next (s.pageWrite i p 0x2100 v) = exec (.slcMbinPtr (.tenant p) i (v % 2 ^ 32 % 64)) s := by
  have hb : v % 2 ^ 32 % 64 = bitsAt (v % 2 ^ 32) 0 6 := rfl
  rw [hb]
  exact next_after_exec s s (.slcMbinPtr (.tenant p) i (bitsAt (v % 2 ^ 32) 0 6))

theorem next_pageWrite_nrCtl (s : State) (i : Nat) (p : Option Nat) (v : Nat) :
    .next (s.pageWrite i p 0x3008 v) = exec (.slcNrCtl i p (BitVec.ofNat 32 (v % 2 ^ 32))) s :=
  next_after_exec s s (.slcNrCtl i p (BitVec.ofNat 32 (v % 2 ^ 32)))

/-! ### The window through BAR2, register by register -/

/-- An RWL field takes its value while its block is unlocked (R11). -/
theorem rwl_unlocked {s : State} {lock : Bool} (h : lock = false) (o v : Nat) (f : State → State) : s.rwl lock o v f = f s := by
  rw [h]
  rfl

/-- Under the lock the write is event 2 and nothing else (R11). -/
theorem rwl_locked {s : State} {lock : Bool} (h : lock = true) (o v : Nat) (f : State → State) :
    s.rwl lock o v f = s.fire 2 [o, v] := by
  rw [h]
  rfl

section Bar2
variable {s : State} (h : s.barsUp = true) (v : Word)
include h

theorem write_unoccupied {o : Nat} (hl : 0x800000 ≤ o) (ha : o % 8 = 0) :
    exec (.registerWrite .bar2 o 4 v) s = .next s ∧ exec (.registerWrite .bar2 o 8 v) s = .next s := by
  by_cases hw : o < 0x4000000
  · rw [write_bar2_4 h (by omega) hw, write_bar2_8 h ha hw, cuffWrite8_halves s (.inr hl), cuffWrite4_unoccupied s hl,
      cuffWrite4_unoccupied s (by omega)]
    exact ⟨rfl, rfl⟩
  · exact ⟨write_bar2_outside h (by omega) 4 v, write_bar2_outside h (by omega) 8 v⟩

/-- W1C (R9): each 1 clears its bit of the wake cause. -/
theorem write_wakeCause : exec (.registerWrite .bar2 0x10008 4 v) s =
    .next { s with pwr := { s.pwr with wakeCause := s.pwr.wakeCause &&& ~~~BitVec.ofNat 8 (v.toNat % 2 ^ 32) } } :=
  write_bar2_4 h rfl (by decide) v

theorem write_logSel : exec (.registerWrite .bar2 0x50010 4 v) s =
    .next { s with log := { s.log with sel := v.toNat % 2 ^ 32 % 2 ^ 13 } } :=
  write_bar2_4 h rfl (by decide) v

/-- RWL (R11): BRM_ISET under the lock of BRM. -/
theorem write_brmIset : exec (.registerWrite .bar2 0x30014 4 v) s =
    .next (s.rwl s.brm.lock 0x30014 (v.toNat % 2 ^ 32) fun s => { s with brm := { s.brm with iset := v.toNat % 2 ^ 32 % 2 ^ 6 } }) :=
  write_bar2_4 h rfl (by decide) v

/-- RWL (R11): THM_CFG under the lock of THM. -/
theorem write_thmCfg : exec (.registerWrite .bar2 0x20088 4 v) s =
    .next (s.rwl s.thm.lock 0x20088 (v.toNat % 2 ^ 32) fun s => { s with thm := { s.thm with down := v.toNat % 2 ^ 32 % 2 ^ 6 } }) :=
  write_bar2_4 h rfl (by decide) v

theorem write_evtPend {m : Nat} (hm : m < 10) :
    ∃ t, exec (.registerWrite .bar2 (0x40800 + 4 * m) 4 v) s = .next t ∧ Same [.out, .evt] s t ∧ ∀ k, k < 320 →
      t.evt.pend.getLsbD k = (s.evt.pend.getLsbD k && !(decide (k / 32 = m) && (v.toNat % 2 ^ 32).testBit (k % 32))) := by
  refine ⟨s.pendClear m (v.toNat % 2 ^ 32), ?_, (State.pendClear_law s m _).same, fun k hk => ?_⟩
  · rw [write_bar2_4 h (by omega) (by omega), cuffWrite4_evtPend s hm]
  · exact pendClear_pend_bit s (Nat.mod_lt _ (by decide)) m hk

theorem write_lock {b o : Nat} (hb : (b, o) ∈ lockRegisters) :
    exec (.registerWrite .bar2 o 4 v) s = if (v.toNat % 2 ^ 32).testBit 0 then exec (.lockSet b) s else .next s := by
  have ho : o % 4 = 0 ∧ o < 0x4000000 := by
    simp only [lockRegisters, List.mem_cons, Prod.mk.injEq, List.not_mem_nil, or_false] at hb
    omega
  rw [write_bar2_4 h ho.1 ho.2, cuffWrite4_lock s hb, next_lockBit]

theorem write_mtrAck : exec (.registerWrite .bar2 0x220058 8 v) s = exec (.mtrAck v) s := by
  rw [write_bar2_8 h rfl (by decide), ← next_after_exec s s (.mtrAck v)]
  simp only [State.cuffWrite8, if_true, BitVec.ofNat_toNat, BitVec.setWidth_eq]
  rfl

theorem write_mtrRecSel : exec (.registerWrite .bar2 0x220300 8 v) s = exec (.mtrRecSel v) s := by
  rw [write_bar2_8 h rfl (by decide), ← next_after_exec s s (.mtrRecSel v)]
  simp (disch := omega) only [State.cuffWrite8, if_neg, if_true, BitVec.ofNat_toNat, BitVec.setWidth_eq]
  rfl

/-- SLC_MBOUT_PUSH of a manager takes 8 bytes at once (R474); a half of it is a SIZE push (R105). -/
theorem write_managerPush {i : Nat} (hi : i < 1024) :
    exec (.registerWrite .bar2 (0x400108 + 0x1000 * i) 8 v) s = exec (.slcMboutPush .manager i true v) s ∧
      exec (.registerWrite .bar2 (0x400108 + 0x1000 * i) 4 v) s = exec (.slcMboutPush .manager i false 0) s := by
  constructor
  · rw [write_bar2_8 h (by omega) (by omega), cuffWrite8_push s hi]
  · have ho : 0x400108 + 0x1000 * i = 0x400000 + 0x1000 * i + 0x108 := by omega
    rw [write_bar2_4 h (by omega) (by omega), ho, cuffWrite4_mail s hi (by decide)]
    exact next_after_exec s s (.slcMboutPush .manager i false 0)

/-- R473: 8 bytes elsewhere are two writes of 4 bytes in ascending order, the second in the state that the first leaves. -/
theorem write_halves {o : Nat} {t : State} (ha : o % 8 = 0) (hl : o < 0x220000)
    (ht : exec (.registerWrite .bar2 o 4 v) s = .next t) (hu : t.barsUp = true) :
    exec (.registerWrite .bar2 o 8 v) s = exec (.registerWrite .bar2 (o + 4) 4 (v >>> 32)) t := by
  rw [write_bar2_4 h (by omega) (by omega)] at ht
  cases ht
  rw [write_bar2_8 h ha (by omega), write_bar2_4 hu (by omega) (by omega), cuffWrite8_halves s (.inl hl), BitVec.toNat_ushiftRight,
    Nat.shiftRight_eq_div_pow]

end Bar2

/-- A write of the slice page: refused without the slice's PASID, and otherwise each register acts as its row. -/
theorem write_page {s : State} (h : s.barsUp = true) (v : Word) (i : Nat) (p : Option Nat) :
    let x := v.toNat % 2 ^ 32
    let page := fun o size => exec (.registerWrite (.bar4 i p) o size v) s
    (s.pageOk i p = false → ∀ o size, page o size = .next (s.bar4Fail i p true o)) ∧
    (s.pageOk i p = true → (∀ q, q < 128 → page (8 * q) 4 = exec (.slcDbSq i p q (x % 4096)) s ∧
        page (8 * q + 4) 4 = exec (.slcDbCq i p q (x % 4096)) s) ∧
      page 0x2100 4 = exec (.slcMbinPtr (.tenant p) i (x % 64)) s ∧ page 0x2108 8 = exec (.slcMboutPush (.tenant p) i true v) s ∧
      page 0x3008 4 = exec (.slcNrCtl i p (BitVec.ofNat 32 x)) s) := by
  intro x page
  refine ⟨fun hp o size => write_page_refused h hp o size v, fun hp => ⟨fun q hq => ⟨?_, ?_⟩, ?_, write_page_push h hp v, ?_⟩⟩
  · exact (write_page_4 h hp (by omega) v).trans (next_pageWrite_sqDoorbell s i p hq v.toNat)
  · exact (write_page_4 h hp (by omega) v).trans (next_pageWrite_cqDoorbell s i p hq v.toNat)
  · exact (write_page_4 h hp rfl v).trans (next_pageWrite_mbinPtr s i p v.toNat)
  · exact (write_page_4 h hp rfl v).trans (next_pageWrite_nrCtl s i p v.toNat)

/-- A write of configuration space: reached with the BARs, or while the link can carry the request; then each register acts as R51, R52 and
R57 say. -/
theorem write_configuration (s : State) (r : CfgReg) (o size : Nat) (v : Word) :
    let x := v.toNat
    let write := exec (.registerWrite (.config r) o size v) s
    (s.barsUp = false → s.linkUp = false ∨ s.inStop = true ∨ s.powered = false → write = .next s) ∧
    (s.barsUp = true ∨ s.linkUp = true ∧ s.inStop = false ∧ s.powered = true →
      (r = .command → write = .next { s with pci := { s.pci with memEn := x.testBit 1, bme := x.testBit 2 } }) ∧
      (r = .pasidCtl → write = if x.testBit 0 then .next { s with pci := { s.pci with pasidEn := true } } else exec .pasidEnableCleared s) ∧
      (r = .pmcsr → write = if x % 4 = 0 ∨ x % 4 = 3 then exec (.functionPowerStateChange (x % 4 == 3) (x.testBit 8)) s else .next s) ∧
      ((∃ i, r = .bar i) ∨ r = .devCtl ∨ r = .devCtl2 ∨ r = .aerCtl → ∃ p, write = .next { s with pci := p })) := by
  intro x write
  have hw : write = .next (if s.linkUp = true ∧ s.inStop = false ∧ s.powered = true then s.cfgWrite r x else s) :=
    write_config r o size v s
  refine ⟨fun _ hn => ?_, fun hr => ?_⟩
  · rw [hw, if_neg]
    rintro ⟨hl, hi, hp⟩
    simp [hl, hi, hp] at hn
  · rw [if_pos (hr.elim barsUp_eq_true id)] at hw
    refine ⟨?_, ?_, ?_, fun hf => ?_⟩
    · rintro rfl
      exact hw
    · rintro rfl
      exact hw.trans (next_cfgWrite_pasidCtl s x)
    · rintro rfl
      exact hw.trans (next_cfgWrite_pmcsr s x)
    · obtain ⟨p, hp⟩ := cfgWrite_fields s hf x
      exact ⟨p, hp ▸ hw⟩

/-! ### Register writes -/

/-- Settles O59, register by register; a row that a register acts as never refuses, so the write answers what the row answers. -/
theorem registerWritesFollowTheirCodes : Obligations.RegisterWritesFollowTheirCodes := by
  intro s locks
  refine ⟨fun blk hb => lockSet_sets_its_bit hb s, fun blk hb => lockSet_out_of_range hb s, fun r o size v => write_configuration s r o size v,
    fun h sp o size v hsp => write_without_bars h hsp o size v, fun h v => ?_⟩
  refine ⟨fun o size ha => write_misaligned h ha v, fun o hl ha => write_unoccupied h v hl ha, write_wakeCause h v, write_logSel h v,
    ?_, ?_, ?_, ?_, fun m hm => write_evtPend h v hm, fun b o hb => write_lock h v hb, write_mtrAck h v, write_mtrRecSel h v,
    fun i hi => write_managerPush h v hi, fun o t ha hl ht hu => write_halves h v ha hl ht hu, ?_, fun q hq => ⟨?_, ?_⟩,
    fun i p => write_page h v i p⟩
  · exact fun hk => (write_brmIset h v).trans (congrArg _ (rwl_unlocked hk _ _ _))
  · exact fun hk => (write_brmIset h v).trans (congrArg _ (rwl_locked hk _ _ _))
  · exact fun hk => (write_thmCfg h v).trans (congrArg _ (rwl_unlocked hk _ _ _))
  · exact fun hk => (write_thmCfg h v).trans (congrArg _ (rwl_locked hk _ _ _))
  · rw [write_bar0_4 h rfl, bar0Write_aqa]
  · rw [write_bar0_4 h (by omega), next_bar0Write_sqDoorbell s hq]
  · rw [write_bar0_4 h (by omega), next_bar0Write_cqDoorbell s hq]

end Sys2Proof.Proofs
end

section
/-! PROOFS. Command contexts and submission fetch (R26); unit transfers, fences, checkpoints, revocation and the free-store caches
(R15, R21, R35, R60, R259 to R261, R265). -/

namespace Sys2Proof.Proofs

open Sys2Proof Sys2Proof.Machine Sys2Proof.Safety Sys2Proof.Laws

/-! ### Frames -/

theorem same_of_bpm (s : State) (b : Bpm) : Same [.bpm] s { s with bpm := b } := (Laws.Law.mk (Law.refl s)).same

theorem same_of_dma (s : State) (d : Dma) : Same [.dma] s { s with dma := d } := (Laws.Law.mk (Law.refl s)).same

/-- A part that turns out unchanged leaves the frame. -/
theorem same_of_cons {p : Piece} {r : List Piece} {s t : State} (h : Same (p :: r) s t) (hp : p.same s t) : Same r s t := by
  intro a ha
  by_cases e : a = p
  · exact e ▸ hp
  · exact h a (by simp [e, ha])

theorem edit_eq_put {α : Type} {t : Tbl α} {k : Nat} {v : α} (h : t.look k = some v) (f : α → α) : t.edit k f = t.put k (f v) := by
  unfold Tbl.edit
  rw [h]

/-! ### Submission fetch (R26) -/

theorem exec_submissionFetch (q : Nat) (e : SqEntry) (s : State) :
    exec (.submissionFetch q e) s = execSubmissionFetch q e s := rfl

theorem mayFetch_ctxs {s : State} {q : Nat} {x : Sq} (h : s.mayFetch q x = true) : s.ctxs.length < 65536 := by
  simp only [State.mayFetch, State.ctxRoom, Bool.and_eq_true, decide_eq_true_eq] at h
  exact h.2.1

/-- A fetch that finds no free context for its queue waits, or has nothing to do. -/
theorem submissionFetch_held {s : State} {q : Nat} (h : ∀ x, s.mayFetch q x = false) (e : SqEntry) :
    exec (.submissionFetch q e) s = .next s ∨ exec (.submissionFetch q e) s = .next (s.rungWait 6) := by
  rw [exec_submissionFetch]
  unfold execSubmissionFetch
  cases s.sqs.look q with
  | none => exact .inl rfl
  | some x =>
    simp only [h x, Bool.not_false, if_true]
    cases s.mayAsk q x with
    | false => exact .inl rfl
    | true => exact .inr rfl

theorem submissionFetch_taken {s : State} {q : Nat} {x : Sq} (hx : s.sqs.look q = some x) (h : s.mayFetch q x = true) (e : SqEntry) :
    ∃ t y, exec (.submissionFetch q e) s = .next t ∧ t.ctxs = s.ctxs.put (s.ctxs.freeFrom 0) y ∧ y.q = q ∧ y.e = e ∧
      t.gate.seqNo = s.gate.seqNo + 1 ∧ t.bpm = s.bpm := by
  rw [exec_submissionFetch]
  unfold execSubmissionFetch
  simp only [hx, h, Bool.not_true, Bool.false_eq_true, if_false]
  exact ⟨_, _, rfl, rfl, rfl, rfl, rfl, (State.flits_law s swathIn (sramPort (s.ctxs.freeFrom 0)) entryFlits).same .bpm (by decide)⟩

/-- Settles O28: the room of a context is a part of what a fetch needs. -/
theorem fetchStopsWithEveryContextHeld : Obligations.FetchStopsWithEveryContextHeld := by
  refine fun s q e => ⟨fun hc => ?_, fun x hx hm => ⟨mayFetch_ctxs hm, ?_⟩⟩
  · have hn : ∀ x, s.mayFetch q x = false := fun x =>
      Bool.eq_false_iff.mpr fun hm => absurd (mayFetch_ctxs hm) (Nat.not_lt.mpr hc)
    obtain ht | ht := submissionFetch_held hn e
    · exact ⟨s, ht, Same.refl _ s, rfl⟩
    · exact ⟨_, ht, same_of_bpm s _, rfl⟩
  · obtain ⟨t, y, ht, hctxs, hq, he, hseq, hbpm⟩ := submissionFetch_taken hx hm e
    have hl : Law [.sqs, .ctxs, .gate, .bpm, .sward] s t := LawO.get (execSubmissionFetch_law q e s) ht
    exact ⟨t, y, ht, hctxs, hq, he, hseq, same_of_cons (p := .bpm) (Same.mono hl.same (by decide)) hbpm⟩

/-! ### A unit that moves (R259) -/

theorem exec_unitTransferDone (c u : Nat) (body : Nat × Nat) (host : List (Nat × Nat)) (o : UnitOutcome) (s : State) :
    exec (.unitTransferDone c u body host o) s = execUnitTransferDone c u body host o s := rfl

/-- A command whose unit nothing holds back: it has committed, its channel runs and its descriptors place the unit at `l`. -/
structure UnitMoves (s : State) (c u : Nat) (x : Ctx) (host l : List (Nat × Nat)) : Prop where
  look : s.ctxs.look c = some x
  phase : x.phase = .stamped
  committed : x.committed = true
  failed : x.failed = false
  running : s.chanHalted (qOwner x.q) = false
  link : s.linkUp = true
  awake : s.inStop = false
  master : s.pci.bme = true
  key : s.key.cleared = false
  place : walkUnit host x.e (s.entryPtr x) x.units u = .pieces l

/-- The state with another choice of keys in the key RAM. -/
def withKeyRam (s : State) (l : List Nat) : State := { s with key := { s.key with ram := l } }

theorem withKeyRam_same (s : State) (l : List Nat) : Same [.key] s (withKeyRam s l) := (Laws.Law.mk (Law.refl s)).same

/-- A unit passes Gauntlet with its key in the key RAM, unless a zeroize cleared it (R303, R316). -/
theorem gauntlet_of_not_cleared {s : State} (h : s.key.cleared = false) (c : Nat) (kix : Option Nat) (go : State → State) :
    ∃ l, s.gauntlet c kix go = go (withKeyRam s l) := by
  unfold State.gauntlet
  cases kix with
  | none => exact ⟨s.key.ram, rfl⟩
  | some d =>
    simp only [h, Bool.false_eq_true, if_false]
    exact ⟨_, rfl⟩

section UnitMoves
variable {s : State} {c u : Nat} {x : Ctx} {host l : List (Nat × Nat)} (h : UnitMoves s c u x host l)
include h

theorem walked_of_unitMoves (go : List (Nat × Nat) → State) : s.walked c u x host go = go l := by
  unfold State.walked
  rw [h.place]

theorem unitTransfer_write (hw : x.e.isWrite = true) (hu : u < x.units) (hm : x.moved.contains u = false) (data md : Nat) :
    ∃ k, exec (.unitTransferDone c u (data, md) host (.ok false)) s = .next ((withKeyRam s k).unitIn c u data md x) := by
  obtain ⟨k, hk⟩ := gauntlet_of_not_cleared h.key c (x.wKix s) fun s => s.unitDone c u data md x (.ok false) fun s => s.unitIn c u data md x
  refine ⟨k, ?_⟩
  rw [exec_unitTransferDone]
  unfold execUnitTransferDone
  simp only [h.look, h.phase, h.committed, h.failed, h.running, h.link, h.awake, h.master, hw, hm, Nat.not_le.mpr hu,
    walked_of_unitMoves h, hk, ne_eq, not_true_eq_false, Bool.not_true, Bool.false_eq_true, Bool.or_self, or_self, if_false, if_true]
  rfl

theorem unitTransfer_read (hw : x.e.isWrite = false) {r : RUnit} (hr : x.runits.look u = some r) (hst : r.st = .ready)
    (hf : s.dma.fences.contains (2, relTag c u) = false) (body : Nat × Nat) :
    ∃ k, exec (.unitTransferDone c u body host (.ok false)) s = .next ((withKeyRam s k).unitOut c u r l) := by
  obtain ⟨k, hk⟩ := gauntlet_of_not_cleared h.key c (r.known.map (·.kix)) fun s =>
    s.unitDone c u body.1 body.2 x (.ok false) fun s => s.unitOut c u r l
  refine ⟨k, ?_⟩
  rw [exec_unitTransferDone]
  unfold execUnitTransferDone
  simp only [h.look, h.phase, h.committed, h.failed, h.running, h.link, h.awake, h.master, hw, hr, hst, hf,
    walked_of_unitMoves h, hk, ne_eq, not_true_eq_false, Bool.not_true, Bool.false_eq_true, Bool.or_self, or_self, if_false]
  rfl

end UnitMoves

/-! ### Units in staging (R15, R21) -/

/-- A unit that is not the last of its write, of a zone of this chip: it stands in staging, and P and Q may take it in. -/
theorem unitIn_staged {s : State} {c : Nat} {x : Ctx} {st : Staged} (hc : s.ctxs.look c = some x) (hst : s.staging.look x.stamp = some st)
    (hz : s.zoneChip st.zone = 0) {u data md : Nat}
    (hn : (st.data.put u (sealUnit st.kix (x.lba + u) x.e.nsid data md)).length < st.n) :
    let t := s.unitIn c u data md x
    t.ctxs = s.ctxs.put c { x with begun := true, moved := insNat u x.moved } ∧
    t.staging = s.staging.put x.stamp { st with data := st.data.put u (sealUnit st.kix (x.lba + u) x.e.nsid data md) } ∧
    Same [.ctxs, .staging, .bpm, .dma, .sward, .par] s t := by
  let st' : Staged := { st with data := st.data.put u (sealUnit st.kix (x.lba + u) x.e.nsid data md) }
  let s1 := ({ s.flits swathIn (dramPort u) unitFlits with staging := s.staging.put x.stamp st' }).ctxEdit c fun y =>
    { y with begun := true, moved := insNat u y.moved }
  have hin : s.unitIn c u data md x = if st.dropped then s1 else s1.foldStaged st' u := by
    unfold State.unitIn
    simp only [hst, hz, Ctx.unitLba, Nat.not_le.mpr hn, ne_eq, not_true_eq_false, false_and, decide_false, Bool.false_eq_true, if_false]
    rfl
  have hlaw : Law [.bpm, .dma, .sward, .par] s1 (s.unitIn c u data md x) := by
    rw [hin]
    exact Law.ite (Law.refl s1) (State.foldStaged_law s1 st' u)
  have hs1 : Law [.ctxs, .staging, .sward] s s1 :=
    Law.next (Laws.Law.mk (Law.next (Law.refl s) (State.flits_law s swathIn (dramPort u) unitFlits) rfl)) (State.ctxEdit_law _ c _) rfl
  refine ⟨?_, (hlaw.same .staging (by decide)), Same.mono (Same.trans hs1.same hlaw.same) (by decide)⟩
  exact (hlaw.same .ctxs (by decide)).trans (edit_eq_put hc _)

/-! ### Units to the host (R60, R259) -/

/-- The decision of a read with no unit left to send (R24) puts nothing out. -/
theorem readDecided_out (s : State) (c : Nat) : ((s.rdReturn c).keySweep.finish c stOk).out = s.out := by
  have hret : Law [.sqs, .qrecs, .ctxs, .bpm, .key] s (s.rdReturn c) := Law.next (Law.refl s) (State.rdReturn_law s c) rfl
  have hswept := Law.next hret (State.keySweep_law _) rfl
  exact (Law.next hswept (State.finish_law _ c stOk 0 0 0) rfl).same .out (by decide)

/-- What a unit of a read sends, whether or not it is the last. -/
theorem unitOut_out (s : State) (c u : Nat) {r : RUnit} (hr : r.hold = none) (l : List (Nat × Nat)) :
    (s.unitOut c u r l).out =
      .readUnit ((s.ctxs.look c).bind fun x => s.dmaPasid x.q) s.pci.relaxed c u (s.unitContent r).1 (s.unitContent r).2 l :: s.out := by
  let f := (s.flits (r.port u) swathOut unitFlits).runitEdit c u fun q => { q with st := .sent, hold := none }
  let o : Out := .readUnit ((s.ctxs.look c).bind fun x => s.dmaPasid x.q) s.pci.relaxed c u (s.unitContent r).1 (s.unitContent r).2 l
  let s2 := (f.ctxEdit c fun y => { y with begun := true, moved := insNat u y.moved }).say o
  have hs2 : s2.out = o :: s.out := congrArg (o :: ·) ((State.flits_law s (r.port u) swathOut unitFlits).same .out (by decide))
  have hout : s.unitOut c u r l = s2 ∨ s.unitOut c u r l = (s2.rdReturn c).keySweep.finish c stOk := by
    unfold State.unitOut
    rw [hr]
    dsimp only
    split
    · split
      · exact .inr rfl
      · exact .inl rfl
    · exact .inl rfl
  obtain h | h := hout
  · rw [h, hs2]
  · rw [h, readDecided_out, hs2]

/-! ### Fences, checkpoints, caches (R35, R260, R261) -/

theorem fenceAcknowledged_erases (k : FenceKind) (tag : Nat) (s : State) :
    exec (.fenceAcknowledged k tag) s = .next { s with dma := { s.dma with fences := s.dma.fences.erase (fenceCode k, tag) } } := rfl

/-- The checkpoint that was pending stands, and no crossing since then has made another due. -/
theorem checkpointPersisted_stands {s : State} {v : Nat} (hp : s.gate.ckptPend = some v) (hf : s.dma.fences.contains (4, v) = false)
    (hn : s.gate.next / 2 ^ 24 * 2 ^ 24 = v) :
    ∃ m, exec (.checkpointPersisted v) s =
      .next { s with gate := { s.gate with ckpt := v, ckptPend := none }, nv := { s.nv with savedMedia := m } } := by
  have hx : exec (.checkpointPersisted v) s = execCheckpointPersisted v s := rfl
  rw [hx]
  unfold execCheckpointPersisted
  simp only [hp, hf, hn, Bool.not_false, and_self, if_true, ne_eq, not_true_eq_false, decide_false, Bool.false_eq_true, if_false]
  exact ⟨_, rfl⟩

/-- Entries of the cache of a free store: 0 for the SRAM buffers, 1 for the DRAM buffers. -/
def cacheOf (store : Nat) (s : State) : Nat := if store = 0 then s.bpm.cacheSram else s.bpm.cacheDram

theorem cacheRefill_within {s : State} {store : Nat} (h : 64 ≤ cacheOf store s) (k : cacheOf store s ≤ 192) :
    exec (.hayrickCacheRefill store) s = .next s :=
  if_pos ⟨h, k⟩

theorem cacheRefill_outside {s : State} {store : Nat} (h : cacheOf store s < 64 ∨ 192 < cacheOf store s) :
    ∃ t, exec (.hayrickCacheRefill store) s = .next t ∧
      cacheOf store t = min (s.storeFree (store != 0)) (64 + s.freeVal % 129) := by
  have hx : exec (.hayrickCacheRefill store) s = .next _ := if_neg (show ¬(64 ≤ cacheOf store s ∧ cacheOf store s ≤ 192) by omega)
  refine ⟨_, hx, ?_⟩
  unfold cacheOf
  split <;> rfl

/-! ### Revocation (R265, R272) -/

/-- Once the buffers that are named to a slice are named to the system, none is named to the slice. -/
theorem not_named_after_rename (t : Tbl Buf) {i : Nat} (h : i ≠ 1025) :
    (t.mapV fun _ b => if b.named = i then { b with named := 1025 } else b).any (fun _ b => b.named == i) = false := by
  rw [Tbl.any, Tbl.mapV, List.any_map, List.any_eq_false]
  rintro ⟨k, b⟩ -
  by_cases hb : b.named = i <;> simp [hb, Ne.symm h]

theorem revoke_unnames (s : State) {i : Nat} (h : i ≠ 1025) : (s.revoke i).bpm.bufs.any (fun _ b => b.named == i) = false :=
  not_named_after_rename _ h

theorem bpmRevoke_not_frozen {s : State} {i : Nat} (hi : i < 1024) (h : (s.slice i).st ≠ .frozen) :
    exec (.bpmRevoke i) s =
      .next { s with bpm := { s.bpm with revokeSlice := i, revokeResult := if (s.slice i).st = .none then 2 else 1 } } := by
  have hx : exec (.bpmRevoke i) s = execBpmRevoke i s := rfl
  rw [hx]
  unfold execBpmRevoke
  simp only [Nat.mod_eq_of_lt hi]
  by_cases hn : (s.slice i).st = .none
  · simp only [hn, if_true]
  · simp only [hn, h, ne_eq, not_false_eq_true, if_true, if_false]

theorem bpmRevoke_frozen {s : State} {i : Nat} (hi : i < 1024) (h : (s.slice i).st = .frozen) :
    ∃ t, exec (.bpmRevoke i) s = .next t ∧ t.bpm.revokeResult = 0 ∧ t.bpm.revokeBufs = min (s.ownerBufs i) (2 ^ 28 - 1) ∧
      t.bpm.bufs.any (fun _ b => b.named == i) = false := by
  have hx : exec (.bpmRevoke i) s = execBpmRevoke i s := rfl
  rw [hx]
  unfold execBpmRevoke
  simp only [Nat.mod_eq_of_lt hi, h, ne_eq, not_true_eq_false, if_false, reduceCtorEq]
  exact ⟨_, rfl, rfl, rfl, revoke_unnames _ (by omega)⟩

/-! ### Transfers, fences and stores -/

/-- Settles O34, row by row: a unit that nothing holds back goes on into staging or out to the host, and every other row answers its own
equation. -/
theorem transfersFencesAndStores : Obligations.TransfersFencesAndStores := by
  intro s c u data md host l x
  refine ⟨fun hc hp hcm hf hh hl hi hb hk hw => ?_, fun k tag => ?_, fun v hp hf hn => ?_, fun i hi => ?_, fun store _ => ?_⟩
  · have hm : UnitMoves s c u x host l := ⟨hc, hp, hcm, hf, hh, hl, hi, hb, hk, hw⟩
    refine ⟨fun st hwr hu hmv hst hz hn => ?_, fun r hrd hr hrst hhold hfence => ?_⟩
    · obtain ⟨k, ht⟩ := unitTransfer_write hm hwr hu hmv data md
      obtain ⟨hctxs, hstag, hsame⟩ := unitIn_staged (s := withKeyRam s k) hc hst hz hn
      refine ⟨_, _, ht, hctxs, rfl, hstag, Same.mono (Same.trans (withKeyRam_same s k) hsame) (by decide), ?_⟩
      rw [hsame .key (by decide)]
      rfl
    · obtain ⟨k, ht⟩ := unitTransfer_read hm hrd hr hrst hfence (data, md)
      refine ⟨_, ht, (unitOut_out (withKeyRam s k) c u hhold l).trans ?_⟩
      have hpasid : (s.ctxs.look c).bind (fun x => s.dmaPasid x.q) = s.dmaPasid x.q := by rw [hc, Option.bind_some]
      rw [← hpasid]
      rfl
  · exact ⟨_, fenceAcknowledged_erases k tag s, same_of_dma s _, rfl⟩
  · obtain ⟨m, ht⟩ := checkpointPersisted_stands hp hf hn
    exact ⟨_, ht, same_of_cons (p := .dma) (Same.mono (LawO.get (execCheckpointPersisted_law v s) ht).same (by decide)) rfl, rfl, rfl⟩
  · by_cases hst : (s.slice i).st = .frozen
    · obtain ⟨t, ht, hres, hbufs, hnamed⟩ := bpmRevoke_frozen hi hst
      exact ⟨t, ht, by simp [hst, hres], fun hne => absurd hst hne, fun _ => ⟨hbufs, hnamed⟩⟩
    · exact ⟨_, bpmRevoke_not_frozen hi hst, by simp [hst], fun _ => ⟨rfl, same_of_bpm s _⟩, fun he => absurd he hst⟩
  · refine ⟨cacheRefill_within, fun hout => ?_⟩
    obtain ⟨t, ht, hn⟩ := cacheRefill_outside hout
    have hlevel : cacheOf store t ≤ 192 ∧ (192 ≤ s.storeFree (store != 0) → 64 ≤ cacheOf store t) := by omega
    exact ⟨t, ht, (LawO.get (execHayrickCacheRefill_law store s) ht).same, hlevel⟩

end Sys2Proof.Proofs
end

section
/-! PROOFS. The frame of every command; slices from Create to Destroy, their Quiesce, Freeze, Resume and Change (R82, R83, R93 to
R99, R502). -/

namespace Sys2Proof.Proofs

open Sys2Proof Sys2Proof.Machine Sys2Proof.Safety Sys2Proof.Laws

/-! ### The frame of every command -/

/-- Settles O4: the frame is a part of the law of every command. -/
theorem commandsChangeOnlyTheirParts : Obligations.CommandsChangeOnlyTheirParts :=
  fun c s _ h => (LawO.get (exec_law c s) h).same

/-! ### A slice that turns -/

/-- Of all slices only slice `i` changed, and apart from its notice ring it is now `y`. -/
structure Turns (i : Nat) (y : Slice) (s t : State) : Prop where
  others : ∀ k, k ≠ i → t.slice k = s.slice k
  self : apart (t.slice i) = apart y

theorem Turns.refl (i : Nat) (s : State) : Turns i (s.slice i) s s := ⟨fun _ _ => rfl, rfl⟩

section Turns
variable {i : Nat} {y : Slice} {s t u : State} (h : Turns i y s t)
include h

theorem Turns.ring (k : RingOnly i t u) : Turns i y s u :=
  ⟨fun j hj => (k.1 j hj).trans (h.others j hj), k.2.trans h.self⟩

theorem Turns.keep (k : u.slices = t.slices) : Turns i y s u := h.ring (RingOnly.of_slices k)

/-- A change of fields other than the notice ring. -/
theorem Turns.edit (f : Slice → Slice) (hf : ∀ x, apart (f x) = f (apart x)) : Turns i (f y) s (t.sliceEdit i f) :=
  ⟨fun k hk => (sliceEdit_slice_ne t f hk).trans (h.others k hk), by rw [sliceEdit_slice, hf, h.self, hf]⟩

theorem Turns.quiesceEnd (st : Status) : Turns i { y with quiesceWait := [] } s (t.quiesceEnd i st) := by
  obtain ⟨hne, hi⟩ := quiesceEnd_slice t i st
  refine ⟨fun k hk => (hne k hk).trans (h.others k hk), ?_⟩
  rw [hi]
  exact congrArg (fun z : Slice => { z with quiesceWait := [] }) h.self

/-- The check at the end of a Quiesce: the slice is QUIESCED as soon as it holds no context (R82). -/
theorem Turns.quiesceCheck (hi : i < 1024) (hq : y.st = .quiescing) :
    Turns i (if t.ctxHeld i = 0 then { y with st := .quiesced, quiesceWait := [] } else y) s (t.quiesceCheck i) := by
  have hst : (t.slice i).st = .quiescing := (congrArg Slice.st h.self).trans hq
  unfold State.quiesceCheck
  by_cases hc : t.ctxHeld i = 0
  · simp only [hi, hst, hc, and_self, if_true]
    exact ((h.edit (fun x => { x with st := .quiesced }) fun _ => rfl).ring (stateNotice_ring _ i)).quiesceEnd stOk
  · simp only [hc, and_false, if_false]
    exact h

theorem Turns.lostNotices : Turns i { y with lostCpl := [] } s (t.lostNotices i) := by
  have hring : ∀ (l : Tbl Nat) (u : State),
      RingOnly i u (l.foldl (fun s p => if p.2 = 0 then s else s.notice i 0x0a p.1 p.2) u) := by
    intro l
    induction l with
    | nil => exact RingOnly.refl i
    | cons p l ih =>
      intro u
      exact RingOnly.trans (ite_cases (fun _ => RingOnly.refl i u) fun _ => notice_ring u i 0x0a p.1 p.2) (ih _)
  exact (h.ring (hring (t.slice i).lostCpl t)).edit (fun x => { x with lostCpl := [] }) fun _ => rfl

end Turns

theorem exists_of_isLive {s : State} {i : Nat} (h : IsLive i s) : (s.slice i).st ≠ .none ∧ (s.slice i).st ≠ .destroying := by
  rcases h with e | e | e <;> rw [e] <;> decide

/-- A freeze of a slice in a state that it ends (R82). -/
theorem sliceFreeze_turns {s : State} {i : Nat} (h : IsLive i s) (r : Nat) :
    Turns i { s.slice i with st := .frozen, reason := r, quiesceWait := [] } s (s.sliceFreeze i r) := by
  have hf : s.sliceFreeze i r = _ := if_pos h
  rw [hf]
  have hedit := (Turns.refl i s).edit (fun x => { x with st := .frozen, reason := r }) fun _ => rfl
  exact ((hedit.ring (stateNotice_ring _ i)).keep ((State.fire_law _ _ _ _ _ _).same .slices (by decide))).quiesceEnd stSliceFrozen

/-- Settles O22: the timeout of a Quiesce is a freeze with reason 5. -/
theorem quiesceTimeoutFreezes : Obligations.QuiesceTimeoutFreezes := by
  intro s i hq
  obtain ⟨hothers, hself⟩ := sliceFreeze_turns (.inr (.inl hq)) 5
  exact ⟨_, if_pos hq, hothers, hself⟩

/-! ### Commands at the gate -/

/-- The success of a command whose stamp was drawn on `u`, where contexts and counter are those of `s`, once its effects have left the
contexts alone. -/
theorem finish_stamped_done {s u w : State} {c : Nat} {x : Ctx} (h : s.ctxs.look c = some x) (hc : u.ctxs = s.ctxs)
    (hg : u.gate.next = s.gate.next) (hw : w.ctxs = (u.stampCtx c).ctxs) : Done s (w.finish c stOk) c 0 := by
  have hx : w.ctxs.look c = some { x with phase := .stamped, stamped := true, stamp := u.gate.next } := by
    rw [hw, stampCtx_look (hc ▸ h)]
  refine finish_done hx nofun rfl hg (fun k hk => ?_) 0
  rw [hw, stampCtx_others u c k hk, hc]

/-- Rewriting an entry that a test does not count leaves the count alone, whatever the order of the keys. -/
theorem count_put {α : Type} (p : Nat → α → Bool) {t : Tbl α} {k : Nat} {v w : α} (hv : p k v = false) (hw : p k w = false)
    (h : t.look k = some v) : (t.put k w).count p = t.count p := by
  unfold Tbl.count
  induction t with
  | nil => cases h
  | cons a t ih =>
    obtain ⟨j, z⟩ := a
    by_cases he : j = k
    · subst he
      have hz : z = v := by simpa [Tbl.look] using h
      simp [Tbl.put, hz, hv, hw]
    · by_cases hl : k < j
      · simp [Tbl.put, he, hl, hw]
      · have ht : Tbl.look t k = some v := by simpa [Tbl.look, he] using h
        simp only [Tbl.put, he, hl, if_false, List.filter_cons]
        split <;> simp [ih ht]

/-- The stamp of an admin command leaves the contexts of every slice alone. -/
theorem stampCtx_ctxHeld {s : State} {c : Nat} {x : Ctx} (h : s.ctxs.look c = some x) (hq : x.q = 0) {i : Nat} (hi : i < 1024) :
    (s.stampCtx c).ctxHeld i = s.ctxHeld i := by
  have hne : (qOwner x.q == i) = false := by
    rw [hq]
    exact beq_false_of_ne (Nat.ne_of_gt hi)
  unfold State.ctxHeld
  rw [stampCtx_ctxs, edit_eq_put h]
  exact count_put _ (v := x) hne hne h

theorem sliceNo_lt (e : SqEntry) : e.sliceNo < 1024 := Nat.mod_lt _ (by decide)

/-! ### Slice Resources (R95 to R98, R502) -/

/-- It is the turn of a Slice Resources command whose fields and structure pass. -/
structure ResTurn (s : State) (c : Nat) (x : Ctx) (d : SliceData) : Prop where
  turn : AdminTurn s c x
  opc : x.e.opc = 0xc5
  fields : vendorOk x.e 0x3ff 0 0 0 0 0 = true
  dptr : x.e.dptrFault 4096 false = none
  judge : s.resJudge x.e.sliceNo d = none

section ResTurn
variable {s : State} {c : Nat} {x : Ctx} {d : SliceData} (h : ResTurn s c x d)
include h

/-- On a slice that exists, each row of Slice Resources runs its own action. -/
theorem sliceRes_acts {a : Nat} (ha : d.action = a) (hn : (s.slice x.e.sliceNo).st ≠ .none)
    (hd : (s.slice x.e.sliceNo).st ≠ .destroying) (act : State → Nat → State) : s.sliceRes c d a act = act s x.e.sliceNo := by
  unfold State.sliceRes
  rw [admitAdmin_body h.turn (by simp [h.opc, ha]) (by rw [h.opc]; decide)]
  simp only [h.fields, h.dptr, h.judge, hn, hd, Bool.not_true, Bool.false_eq_true, if_false, or_self]

theorem quiesce_active (ha : d.action = 0) (hst : (s.slice x.e.sliceNo).st = .active) :
    exec (.quiesce c d) s =
      .next ((((s.stampCtx c).sliceEdit x.e.sliceNo fun z => { z with st := .quiescing, quiesceWait := [c] }).stateNotice
        x.e.sliceNo).quiesceCheck x.e.sliceNo) := by
  refine (congrArg Host.Outcome.next (sliceRes_acts h ha (hst ▸ nofun) (hst ▸ nofun) _)).trans ?_
  simp only [hst]

theorem quiesce_quiesced (ha : d.action = 0) (hst : (s.slice x.e.sliceNo).st = .quiesced) :
    exec (.quiesce c d) s = .next (s.adminDone c stOk) := by
  refine (congrArg Host.Outcome.next (sliceRes_acts h ha (hst ▸ nofun) (hst ▸ nofun) _)).trans ?_
  simp only [hst]

theorem freeze_live (ha : d.action = 3) (hl : IsLive x.e.sliceNo s) :
    exec (.freeze c d) s = .next (((s.stampCtx c).sliceFreeze x.e.sliceNo 1).finish c stOk) := by
  obtain ⟨hn, hd⟩ := exists_of_isLive hl
  exact congrArg Host.Outcome.next (sliceRes_acts h ha hn hd _)

theorem resume_stopped (ha : d.action = 2) (hst : (s.slice x.e.sliceNo).st = .quiesced ∨ (s.slice x.e.sliceNo).st = .frozen)
    (hno : ¬((s.slice x.e.sliceNo).st = .frozen ∧ (s.slice x.e.sliceNo).reason = 4 ∧ s.alarmHolds = true)) :
    exec (.resume c d) s =
      .next (((((s.stampCtx c).sliceEdit x.e.sliceNo fun z => { z with st := .active, reason := 0 }).stateNotice
        x.e.sliceNo).lostNotices x.e.sliceNo).finish c stOk) := by
  have hex : (s.slice x.e.sliceNo).st ≠ .none ∧ (s.slice x.e.sliceNo).st ≠ .destroying := by
    rcases hst with e | e <;> rw [e] <;> decide
  refine congrArg Host.Outcome.next ((sliceRes_acts h ha hex.1 hex.2 _).trans ?_)
  rcases hst with e | e <;> (simp only [e] at hno ⊢; exact if_neg hno)

theorem change_allowed (ha : d.action = 1) (hn : (s.slice x.e.sliceNo).st ≠ .none) (hd : (s.slice x.e.sliceNo).st ≠ .destroying)
    (hc : s.changeCheck x.e.sliceNo d = none) (hs : s.canStampBoth d = true) :
    exec (.change c d) s = .next (s.changeApply c x.e.sliceNo d) := by
  refine (congrArg Host.Outcome.next (sliceRes_acts h ha hn hd _)).trans ?_
  simp only [hc, hs, if_true]

end ResTurn

/-- A CHANGE of the bits 0 to 3 alone leaves the fields of the others (R96). -/
theorem changeHigh_of_low {d : SliceData} (h : d.change - d.change % 16 = 0) (y : Slice) : y.changeHigh d = y := by
  have hlt : d.change < 2 ^ 4 := by omega
  have hb : ∀ k, 4 ≤ k → d.change.testBit k = false := fun k hk =>
    Nat.testBit_lt_two_pow (Nat.lt_of_lt_of_le hlt (Nat.pow_le_pow_right (by decide) hk))
  simp [Slice.changeHigh, hb]

/-- An accepted Change at its stamp: the fields of its bits 0 to 3, with their notice (R97). -/
def changedLow (s : State) (c i : Nat) (d : SliceData) : State :=
  let s1 := ((s.stampCtx c).sliceEdit i fun x => x.changeLow d).ledger
  if d.change % 16 = 0 then s1 else s1.notice i 0x05 (d.change % 16) s.gate.next

/-- The configuration commit behind it: the fields of its bits 4 to 8, with their notice (R98). -/
def changedHigh (s : State) (i : Nat) (d : SliceData) : State :=
  if d.change - d.change % 16 = 0 then s else
    let a := (s.enterCfg .config).sliceEdit i fun x => x.changeHigh d
    (a.notice i 0x05 (d.change - d.change % 16) a.gate.next).markRun

theorem changeApply_eq (s : State) (c i : Nat) (d : SliceData) :
    s.changeApply c i d = (changedHigh (changedLow s c i d) i d).finish c stOk := rfl

theorem changedLow_turns (s : State) (c i : Nat) (d : SliceData) : Turns i ((s.slice i).changeLow d) s (changedLow s c i d) := by
  have hedit := ((Turns.refl i s).keep (u := s.stampCtx c) rfl).edit (fun x => x.changeLow d) fun _ => rfl
  have hledger := hedit.keep (u := ((s.stampCtx c).sliceEdit i fun x => x.changeLow d).ledger) rfl
  exact ite_cases (fun _ => hledger) fun _ => hledger.ring (notice_ring _ i _ _ _)

theorem changedLow_ctxs (s : State) (c i : Nat) (d : SliceData) : (changedLow s c i d).ctxs = (s.stampCtx c).ctxs :=
  ite_cases (P := fun t : State => t.ctxs = _) (fun _ => rfl) fun _ => (State.notice_law _ i _ _ _).same .ctxs (by decide)

theorem changedHigh_turns {s t : State} {i : Nat} {y : Slice} (h : Turns i y s t) (d : SliceData) :
    Turns i (y.changeHigh d) s (changedHigh t i d) := by
  refine ite_cases (fun hz => ?_) fun _ => ?_
  · rw [changeHigh_of_low hz]
    exact h
  · have hedit := (h.keep ((State.enterCfg_law t .config).same .slices (by decide))).edit (fun x => x.changeHigh d) fun _ => rfl
    exact (hedit.ring (notice_ring _ i _ _ _)).keep ((State.markRun_law _).same .slices (by decide))

theorem changedHigh_ctxs (s : State) (i : Nat) (d : SliceData) : (changedHigh s i d).ctxs = s.ctxs :=
  ite_cases (P := fun t : State => t.ctxs = _) (fun _ => rfl) fun _ =>
    ((State.markRun_law _).same .ctxs (by decide)).trans (((State.notice_law _ i _ _ _).same .ctxs (by decide)).trans
      ((State.enterCfg_law s .config).same .ctxs (by decide)))

/-- Settles O21, action by action: each row that the gate lets run answers its own equation, and its operations touch one slice. -/
theorem sliceResourcesActs : Obligations.SliceResourcesActs := by
  intro s c x d hturn hopc hfields hdptr i y hjudge
  have h : ResTurn s c x d := ⟨hturn, hopc, hfields, hdptr, hjudge⟩
  have hstamp : Turns i y s (s.stampCtx c) := (Turns.refl i s).keep rfl
  have hfin : ∀ u : State, (u.finish c stOk).slices = u.slices := fun u => (State.finish_law u c stOk 0 0 0).same .slices (by decide)
  refine ⟨fun ha hst => ?_, fun ha hst => ?_, fun ha hst => ?_, fun ha hst hno => ?_, fun ha hst hcheck hboth => ?_⟩
  · let q := ((s.stampCtx c).sliceEdit i fun z => { z with st := .quiescing, quiesceWait := [c] }).stateNotice i
    have hq : Turns i { y with st := .quiescing, quiesceWait := [c] } s q :=
      (hstamp.edit (fun z => { z with st := .quiescing, quiesceWait := [c] }) fun _ => rfl).ring (stateNotice_ring _ i)
    have hheld : q.ctxHeld i = s.ctxHeld i := by
      have hctxs : q.ctxs = (s.stampCtx c).ctxs := (State.stateNotice_law _ i).same .ctxs (by decide)
      rw [← stampCtx_ctxHeld hturn.here hturn.admin (sliceNo_lt x.e), State.ctxHeld, hctxs]
      rfl
    obtain ⟨hothers, hself⟩ := hq.quiesceCheck (sliceNo_lt x.e) rfl
    rw [hheld] at hself
    exact ⟨_, quiesce_active h ha hst, hothers, hself⟩
  · exact ⟨_, quiesce_quiesced h ha hst, adminDone_done hturn.here rfl rfl 0, Same.mono (adminDone_same s c 0) (by decide)⟩
  · obtain ⟨hothers, hself⟩ := (sliceFreeze_turns (s := s.stampCtx c) (i := i) hst 1).keep (hfin _)
    exact ⟨_, freeze_live h ha hst, hothers, hself⟩
  · obtain ⟨hothers, hself⟩ :=
      (((hstamp.edit (fun z => { z with st := .active, reason := 0 }) fun _ => rfl).ring (stateNotice_ring _ i)).lostNotices).keep
        (hfin _)
    refine ⟨_, resume_stopped h ha hst hno, hothers, (finish_stamped_done (u := s) hturn.here rfl rfl ?_).1, hself⟩
    exact ((State.lostNotices_law _ i).same .ctxs (by decide)).trans ((State.stateNotice_law _ i).same .ctxs (by decide))
  · have hex : y.st ≠ .none ∧ y.st ≠ .destroying := by
      rcases hst with e | e | e | e <;> rw [e] <;> decide
    obtain ⟨hothers, hself⟩ := (changedHigh_turns (changedLow_turns s c i d) d).keep (hfin _)
    have hctxs := (changedHigh_ctxs (changedLow s c i d) i d).trans (changedLow_ctxs s c i d)
    have hdone : Done s ((changedHigh (changedLow s c i d) i d).finish c stOk) c 0 := finish_stamped_done (u := s) hturn.here rfl rfl hctxs
    exact ⟨_, (change_allowed h ha hex.1 hex.2 hcheck hboth).trans (congrArg _ (changeApply_eq s c i d)), hothers, hdone.1, hself⟩

/-! ### Create Slice (R93) -/

/-- What Create Slice makes of a slice that has been created `inst - 1` times before. -/
def newSlice (pasid inst : Nat) (d : SliceData) : Slice where
  st := .active
  pasid := pasid
  qpairs := d.qpairs
  vecBase := d.vecBase
  vecCount := d.vecCount
  ctxReserve := d.ctxReserve
  ctxLimit := d.ctxLimit
  readPool := d.readPool
  stagePool := d.stagePool
  lclass := d.lclass
  weight := d.weight
  raAllow := d.raAllow
  fenceCount := d.fenceCount
  excl := d.flags.testBit 0
  strictDef := d.flags.testBit 1
  quotaProv := d.quotaProv
  quotaWrite := d.quotaWrite
  fences := d.fences
  handles := d.handles
  inst := inst

/-- A submission queue of a new slice, with the default strict mode of its structure. -/
def newQueue (i q : Nat) (d : SliceData) : Sq where
  strict := d.flags.testBit 1
  cq := sliceQ i q
  ctl := if d.flags.testBit 1 then 0x40000000 else 0

/-- The queue pair of a new slice takes the place of what stood under its number. -/
def makePair (i : Nat) (d : SliceData) (s : State) (q : Nat) : State :=
  { s with sqs := s.sqs.put (sliceQ i q) (newQueue i q d), cqs := s.cqs.put (sliceQ i q) {}, qrecs := s.qrecs.del (sliceQ i q) }

/-- A new slice with its queue pairs, before its read-around bucket, its keys and its tally. -/
def makePairs (s : State) (i pasid : Nat) (d : SliceData) : State :=
  (List.range 128).foldl (makePair i d) (s.sliceEdit i fun x => newSlice pasid (x.inst + 1) d)

theorem makePair_law (i : Nat) (d : SliceData) (s : State) (q : Nat) : Law [.sqs, .cqs, .qrecs] s (makePair i d s q) :=
  Laws.Law.mk (Law.refl s)

theorem makePair_look (i : Nat) (d : SliceData) (s : State) (j q : Nat) :
    (makePair i d s j).sqs.look (sliceQ i q) = if q = j then some (newQueue i q d) else s.sqs.look (sliceQ i q) := by
  by_cases h : q = j
  · rw [if_pos h, h]
    exact Tbl.look_put ..
  · rw [if_neg h]
    exact Tbl.look_put_ne _ _ fun e => h (Nat.add_left_cancel e)

/-- Every queue of the list stands, whatever comes after it. -/
theorem foldl_makePair_look (i : Nat) (d : SliceData) {q : Nat} (l : List Nat) (s : State) :
    (l.foldl (makePair i d) s).sqs.look (sliceQ i q) = if q ∈ l then some (newQueue i q d) else s.sqs.look (sliceQ i q) := by
  induction l generalizing s with
  | nil => rfl
  | cons j l ih =>
    rw [List.foldl_cons, ih, makePair_look]
    by_cases hl : q ∈ l <;> simp [hl]

theorem makePairs_look (s : State) (i pasid : Nat) (d : SliceData) {q : Nat} (h : q < 128) :
    (makePairs s i pasid d).sqs.look (sliceQ i q) = some (newQueue i q d) := by
  unfold makePairs
  rw [foldl_makePair_look, if_pos (List.mem_range.mpr h)]

/-- A new slice with its queue pairs, its read-around bucket and its channel, before its keys and its tally. -/
def keyless (s : State) (i pasid : Nat) (d : SliceData) : State :=
  let m := makePairs s i pasid d
  { m with lat := { m.lat with tokens := m.lat.tokens.put i m.raFull }, dma := { m.dma with chans := m.dma.chans.del i } }

theorem sliceMake_eq (s : State) (i pasid : Nat) (d : SliceData) :
    s.sliceMake i pasid d = ((keyless s i pasid d).keyCreate i).tallyOpen i ((s.slice i).inst + 1) := rfl

theorem keyless_law (s : State) (i pasid : Nat) (d : SliceData) : Law [.lat, .dma] (makePairs s i pasid d) (keyless s i pasid d) :=
  Laws.Law.mk (Law.refl _)

theorem sliceMake_same (s : State) (i pasid : Nat) (d : SliceData) :
    Same [.free, .lat, .dma, .key, .mtr] (makePairs s i pasid d) (s.sliceMake i pasid d) := by
  rw [sliceMake_eq]
  have hless : Law [.free, .lat, .dma, .key, .mtr] (makePairs s i pasid d) (keyless s i pasid d) :=
    Law.next (Law.refl _) (keyless_law s i pasid d) rfl
  exact (Law.next (Law.next hless (State.keyCreate_law _ i) rfl) (State.tallyOpen_law _ i _) rfl).same

theorem sliceMake_slices (s : State) (i pasid : Nat) (d : SliceData) :
    (s.sliceMake i pasid d).slices = (s.sliceEdit i fun x => newSlice pasid (x.inst + 1) d).slices :=
  ((sliceMake_same s i pasid d) .slices (by decide)).trans
    ((Law.foldl _ (Law.refl _) (makePair_law i d)).same .slices (by decide))

theorem sliceMake_look (s : State) (i pasid : Nat) (d : SliceData) {q : Nat} (h : q < 128) :
    (s.sliceMake i pasid d).sqs.look (sliceQ i q) = some (newQueue i q d) := by
  rw [sliceMake_same s i pasid d .sqs (by decide), makePairs_look s i pasid d h]

/-- The first of the two keys of a new owner is the current one, and not yet used (R300). -/
theorem keyCreate_first (s : State) (i : Nat) : ((s.keyCreate i).keyOwner i).cur = 1 ∧ ((s.keyCreate i).keyOwner i).use = 0 := by
  unfold State.keyOwner State.keyCreate State.keyEdit
  rw [Tbl.get_upd]
  exact ⟨rfl, rfl⟩

theorem tallyOpen_keyOwner (s : State) (i n o : Nat) : (s.tallyOpen i n).keyOwner o = s.keyOwner o := rfl

theorem sliceMake_key (s : State) (i pasid : Nat) (d : SliceData) :
    ((s.sliceMake i pasid d).keyOwner i).cur = 1 ∧ ((s.sliceMake i pasid d).keyOwner i).use = 0 := by
  rw [sliceMake_eq, tallyOpen_keyOwner]
  exact keyCreate_first (keyless s i pasid d) i

theorem createSlice_makes {s : State} {c : Nat} {x : Ctx} {d : SliceData} (h : AdminTurn s c x) (hopc : x.e.opc = 0xc1)
    (hfields : vendorOk x.e 0x3ff 0xfffff 0 0 0 0 = true) (hdptr : x.e.dptrFault 4096 false = none)
    (hcheck : s.createCheck x.e.sliceNo x.e.pasid d = none) (hent : s.key.entropyBad = false) :
    exec (.createSlice c d) s =
      .next (((((s.sliceMake x.e.sliceNo x.e.pasid d).ledger).stampCtx c).sliceTold x.e.sliceNo s.gate.next).finish c stOk) := by
  refine (congrArg Host.Outcome.next (admitAdmin_body h (by rw [hopc]; rfl) (by rw [hopc]; decide) _)).trans ?_
  simp only [hfields, hdptr, hcheck, hent, Bool.not_true, Bool.false_eq_true, if_false]

/-! ### Destroy Slice and the return of its resources (R82, R99) -/

theorem destroySlice_destroys {s : State} {c : Nat} {x : Ctx} (h : AdminTurn s c x) (hopc : x.e.opc = 0xc4)
    (hfields : vendorOk x.e 0x3ff 0 0 0 0 0 = true) (hrsv : ¬(x.e.sliceNo = 1023 ∧ s.rsv1023 = true))
    (hst : (s.slice x.e.sliceNo).st = .quiesced ∨ (s.slice x.e.sliceNo).st = .frozen)
    (hns : s.nss.any (fun _ n => n.owner == x.e.sliceNo) = false) :
    exec (.destroySlice c) s = .next ((s.stampCtx c).destroy c x.e.sliceNo) := by
  have hlive : ¬((s.slice x.e.sliceNo).st ≠ .quiesced ∧ (s.slice x.e.sliceNo).st ≠ .frozen) := fun hn => hst.elim hn.1 hn.2
  refine (congrArg Host.Outcome.next (admitAdmin_body h (by rw [hopc]; rfl) (by rw [hopc]; decide) _)).trans ?_
  simp only [hfields, hrsv, hlive, hns, Bool.not_true, Bool.false_eq_true, or_self, if_false]

/-- A slice to be destroyed whose commands are discarded and whose buffers are revoked (steps 1 and 2 of R99). -/
def revoked (s : State) (c i : Nat) : State :=
  ((s.sliceEdit i fun x => { x with st := .destroying, reason := 0, destroyCtx := some c }).sliceDiscard i).revoke i

/-- A slice with its mailboxes emptied, its notice ring off and its PASID unbound. -/
def unbind (x : Slice) : Slice :=
  { x with up := x.up.flush, down := x.down.flush, nr := { x.nr with en := false }, pasid := 0 }

theorem destroy_slices (s : State) (c i : Nat) : (s.destroy c i).slices = ((revoked s c i).sliceEdit i unbind).slices := by
  unfold State.destroy revoked unbind
  rfl

theorem destroy_owners (s : State) (c i : Nat) : (s.destroy c i).key.owners = (revoked s c i).key.owners.del i := by
  unfold State.destroy
  rfl

/-- Destroy Slice unbinds the slice and removes its keys. -/
theorem destroy_unbinds (s : State) (c i : Nat) :
    ((s.destroy c i).slice i).pasid = 0 ∧ ((s.destroy c i).slice i).nr.en = false ∧ (s.destroy c i).key.owners.look i = none := by
  rw [slice_of_slices (destroy_slices s c i), sliceEdit_slice, destroy_owners]
  exact ⟨rfl, rfl, Tbl.look_del ..⟩

/-- A slice whose resources have come back: nothing of it is left but the count of its creations. -/
def erased (s : State) (i : Nat) : State :=
  let u := (s.tallyShut i).sliceEdit i fun x => { ({} : Slice) with inst := x.inst }
  { u with
    sqs := u.sqs.filter fun p => qOwner p.1 ≠ i ∨ p.1 < 1024, cqs := u.cqs.filter fun p => qOwner p.1 ≠ i ∨ p.1 < 1024
    qrecs := u.qrecs.filter fun p => qOwner p.1 ≠ i ∨ p.1 < 1024
    toks := u.toks.del i, lat := { u.lat with tokens := u.lat.tokens.del i }, dma := { u.dma with chans := u.dma.chans.del i } }

/-- The members and the Destroy Slice that waits learn of it. -/
theorem sliceGone_same (s : State) (i : Nat) :
    Same [.nv, .out, .sward, .cas, .sqs, .qrecs, .ctxs] (erased s i) (s.sliceGone i) := by
  let u := (erased s i).ledger.stampSend [(erased s i).gate.sent, 18, i]
  have hu : Law [.nv, .out, .sward, .cas, .sqs, .qrecs, .ctxs] (erased s i) u :=
    Law.next (Law.next (Law.refl _) (State.ledger_law _) rfl) (State.stampSend_law _ _) rfl
  have hgone : s.sliceGone i = match (s.slice i).destroyCtx with | some c => u.finish c stOk | none => u := rfl
  rw [hgone]
  split
  · exact (Law.next hu (State.finish_law u _ stOk 0 0 0) rfl).same
  · exact hu.same

theorem sliceReturned_gone {s : State} {i : Nat} (h : (s.slice i).st = .destroying) (he : (s.sliceDiscard i).sliceEmpty i = true) :
    exec (.sliceReturned i) s = .next ((s.sliceDiscard i).sliceGone i) :=
  (if_neg fun hn => hn h).trans (congrArg Host.Outcome.next (if_pos he))

/-! ### Slices from Create to Destroy -/

/-- Settles O20: each row answers its own equation, and what follows the making of a slice leaves slices, queues and keys alone. -/
theorem slicesAreCreatedAndDestroyed : Obligations.SlicesAreCreatedAndDestroyed := by
  intro s c x
  refine ⟨?_, fun h hopc hfields hrsv hst hns => ?_, fun i hst he => ?_⟩
  · intro d h hopc hfields hdptr i hcheck hent
    let m := s.sliceMake i x.e.pasid d
    let w := ((m.ledger).stampCtx c).sliceTold i s.gate.next
    have hw : Law [.out, .gate, .dma, .sward, .cas, .nv, .ctxs] m w :=
      Law.next (Law.next (Law.next (Law.refl m) (State.ledger_law m) rfl) (State.stampCtx_law _ c) rfl) (State.sliceTold_law _ i _) rfl
    have hsame : Same [.out, .gate, .dma, .sward, .cas, .nv, .ctxs] m (w.finish c stOk) :=
      Same.mono (Same.trans hw.same (finish_ok_same w c 0 0 0)) (by decide)
    have hslices := (hsame .slices (by decide)).trans (sliceMake_slices s i x.e.pasid d)
    have hself : (w.finish c stOk).slice i = newSlice x.e.pasid ((s.slice i).inst + 1) d :=
      (slice_of_slices hslices i).trans (sliceEdit_slice s i _)
    have hothers : ∀ k, k ≠ i → (w.finish c stOk).slice k = s.slice k := fun k hk =>
      (slice_of_slices hslices k).trans (sliceEdit_slice_ne s _ hk)
    have hkey : (w.finish c stOk).keyOwner i = m.keyOwner i := congrArg (fun k : Key => k.owners.get i {}) (hsame .key (by decide))
    have hmake := State.sliceMake_law s i x.e.pasid d
    have hdone : Done s (w.finish c stOk) c 0 :=
      finish_stamped_done (u := m.ledger) h.here (hmake.same .ctxs (by decide)) (congrArg Gate.next (hmake.same .gate (by decide)))
        ((State.sliceTold_law _ i _).same .ctxs (by decide))
    refine ⟨_, createSlice_makes h hopc hfields hdptr hcheck hent, hdone, ?_⟩
    rw [hself, hkey]
    refine ⟨rfl, rfl, rfl, rfl, rfl, rfl, rfl, rfl, rfl, rfl, rfl, rfl, rfl, rfl, rfl, rfl, rfl, rfl, hothers, fun q hq => ?_,
      sliceMake_key s i x.e.pasid d⟩
    rw [hsame .sqs (by decide)]
    exact sliceMake_look s i x.e.pasid d hq
  · exact ⟨_, destroySlice_destroys h hopc hfields hrsv hst hns, rfl, destroy_unbinds (s.stampCtx c) c x.e.sliceNo⟩
  · let u := s.sliceDiscard i
    have hsame := sliceGone_same u i
    have hslices : (u.sliceGone i).slices = (u.sliceEdit i fun x => { ({} : Slice) with inst := x.inst }).slices :=
      hsame .slices (by decide)
    refine ⟨_, sliceReturned_gone hst he, rfl, ?_, ?_, ?_, fun k hk => (slice_of_slices hslices k).trans (sliceEdit_slice_ne u _ hk)⟩
    · exact congrArg Slice.st ((slice_of_slices hslices i).trans (sliceEdit_slice u i _))
    · exact (congrArg (Tbl.look · i) (hsame .toks (by decide))).trans (Tbl.look_del ..)
    · exact (congrArg (fun k : Dma => k.chans.look i) (hsame .dma (by decide))).trans (Tbl.look_del ..)

end Sys2Proof.Proofs
end

section
/-! PROOFS. Doorbells and queue pairs of a slice (R85, R102); mailboxes and the notice ring (R105 to R110). -/

namespace Sys2Proof.Proofs

open Sys2Proof Sys2Proof.Machine Sys2Proof.Safety Sys2Proof.Laws

/-! ### The slice page -/

theorem tenantWrite_acts {s : State} {i : Nat} {p : Option Nat} (h : s.pageOk i p = true) (off : Nat) (f : State → State) :
    s.tenantWrite i p off f = f s := if_pos h

theorem pageOk_state {s : State} {i : Nat} {p : Option Nat} (h : s.pageOk i p = true) :
    (s.slice i).st ≠ .none ∧ (s.slice i).st ≠ .destroying := by
  simp only [State.pageOk, Bool.and_eq_true, bne_iff_ne] at h
  exact h.1

theorem qOwner_sliceQ (i : Nat) {q : Nat} (h : q < 128) : qOwner (sliceQ i q) = i := by
  unfold qOwner sliceQ
  split <;> omega

theorem same_of_sqs (s : State) (t : Tbl Sq) : Same [.sqs] s { s with sqs := t } := (Laws.Law.mk (Law.refl s)).same

theorem same_of_cqs (s : State) (t : Tbl Cq) : Same [.cqs] s { s with cqs := t } := (Laws.Law.mk (Law.refl s)).same

/-! ### Doorbells (R85, R102) -/

section Doorbells
variable {s : State} {i q v : Nat} {p : Option Nat} {x : Sq} (h : s.pageOk i p = true) (hx : s.sqs.look (sliceQ i q) = some x)
include h hx

/-- A tail doorbell: recorded where the pair is enabled and the value valid, otherwise noted. -/
theorem slcDbSq_rings : exec (.slcDbSq i p q v) s =
    .next (if x.en = false ∨ x.size < v then s.notice i 0x09 q v else { s with sqs := s.sqs.put (sliceQ i q) (x.ring v s.now) }) := by
  refine (congrArg Host.Outcome.next (tenantWrite_acts h _ _)).trans ?_
  simp only [hx, Bool.not_eq_true']

/-- A head doorbell: taken where the pair is ENABLED and the value valid, otherwise noted. -/
theorem slcDbCq_rings : exec (.slcDbCq i p q v) s =
    .next (if x.enabled = false ∨ x.size < v then s.notice i 0x09 q v
      else { s with cqs := s.cqs.edit (sliceQ i q) fun c => { c with head := v } }) := by
  refine (congrArg Host.Outcome.next (tenantWrite_acts h _ _)).trans ?_
  simp only [hx, Bool.not_eq_true']

end Doorbells

/-- What the queue engine may not ask for stays in its queue, and nothing changes. -/
theorem submissionFetch_idle {s : State} {q : Nat} {x : Sq} (hx : s.sqs.look q = some x) (h : s.mayAsk q x = false) (e : SqEntry) :
    exec (.submissionFetch q e) s = .next s := by
  rw [exec_submissionFetch]
  unfold execSubmissionFetch
  simp only [hx, State.mayFetch, h, Bool.false_and, Bool.not_false, Bool.false_eq_true, if_true, if_false]

theorem mayAsk_of_not_active {s : State} {q : Nat} (hq : qOwner q < 1024) (h : (s.slice (qOwner q)).st ≠ .active) (x : Sq) :
    s.mayAsk q x = false := by
  simp [State.mayAsk, hq, h]

theorem mayAsk_of_empty (s : State) (q : Nat) {x : Sq} (h : x.head = x.tail) : s.mayAsk q x = false := by
  simp [State.mayAsk, h]

/-- A fetch takes the entry at the head into the lowest free context. -/
theorem submissionFetch_takes {s : State} {q : Nat} {x : Sq} (hx : s.sqs.look q = some x) (h : s.mayFetch q x = true) (e : SqEntry) :
    ∃ t y z, exec (.submissionFetch q e) s = .next t ∧ Same [.sqs, .ctxs, .gate, .sward] s t ∧ t.sqs = s.sqs.put q z ∧
      z.tail = x.tail ∧ z.head = (if x.head = x.size then 0 else x.head + 1) ∧ t.ctxs = s.ctxs.put (s.ctxs.freeFrom 0) y ∧
      y.q = q ∧ y.e = e ∧ y.phase = .fetched := by
  rw [exec_submissionFetch]
  unfold execSubmissionFetch
  simp only [hx, h, Bool.not_true, Bool.false_eq_true, if_false]
  refine ⟨_, _, _, rfl, ?_, rfl, rfl, rfl, rfl, rfl, rfl, rfl⟩
  exact Same.mono (Same.trans (State.flits_law s swathIn (sramPort (s.ctxs.freeFrom 0)) entryFlits).same
    (Laws.Law.mk (r := [.sqs, .ctxs, .gate]) (Law.refl _)).same) (by decide)

/-- Settles O27: a doorbell acts on its own table or is noted; a fetch needs an ACTIVE slice and an entry before the tail. -/
theorem sliceDoorbellsAreRecorded : Obligations.SliceDoorbellsAreRecorded := by
  intro s i q v p x e hi hq hpage hx
  have howner : qOwner (sliceQ i q) = i := qOwner_sliceQ i hq
  refine ⟨fun hen hv => ?_, fun hen hv => ?_, fun hbad => ?_, fun hbad => ?_, fun hst => ?_, fun hempty => ?_, fun _ hmay => ?_⟩
  · have hgood : ¬(x.en = false ∨ x.size < v) := by simp [hen, hv]
    exact ⟨_, (slcDbSq_rings hpage hx).trans (congrArg _ (if_neg hgood)), same_of_sqs s _, rfl⟩
  · have hgood : ¬(x.enabled = false ∨ x.size < v) := by simp [hen, hv]
    exact ⟨_, (slcDbCq_rings hpage hx).trans (congrArg _ (if_neg hgood)), same_of_cqs s _, rfl⟩
  · exact ⟨_, (slcDbSq_rings hpage hx).trans (congrArg _ (if_pos hbad)), rfl, (State.notice_law s i 0x09 q v).same .sqs (by decide)⟩
  · exact ⟨_, (slcDbCq_rings hpage hx).trans (congrArg _ (if_pos hbad)), rfl, (State.notice_law s i 0x09 q v).same .cqs (by decide)⟩
  · exact submissionFetch_idle hx (mayAsk_of_not_active (howner.symm ▸ hi) (howner.symm ▸ hst) x) e
  · exact submissionFetch_idle hx (mayAsk_of_empty s _ hempty) e
  · obtain ⟨t, y, z, ht, hsame, hsqs, htail, hhead, hctxs, hyq, hye, hphase⟩ := submissionFetch_takes hx hmay e
    exact ⟨t, ht, hsame, ⟨z, hsqs ▸ Tbl.look_put .., htail, hhead⟩, y, hctxs, hyq, hye, hphase⟩

/-! ### Queue pairs (R102) -/

section QueuePairs
variable {s : State} {i q : Nat} {p : Option Nat} {v : Dword} (h : s.pageOk i p = true)
include h

theorem queuePairEnable_again (hen : (s.sqs.get (sliceQ i q) {}).en = true) : exec (.queuePairEnable i p q v) s = .next s :=
  congrArg Host.Outcome.next ((tenantWrite_acts h _ _).trans (if_pos hen))

/-- An accepted enable starts the pair afresh with the fields written. -/
theorem queuePairEnable_accepted (hen : (s.sqs.get (sliceQ i q) {}).en = false)
    (herr : s.enErr i q (s.sqs.get (sliceQ i q) {}) v = 0) :
    let k := sliceQ i q
    exec (.queuePairEnable i p q v) s = .next { s.qctlFields k v with
      sqs := (s.qctlFields k v).sqs.edit k (fun x => { x with
        en := true, enabled := true, enerr := 0, head := 0, tail := 0, frozen := false, frozenSeen := false, bells := []
        strict := v.getLsbD 30, size := qctlSize v })
      cqs := s.cqs.upd k {} (fun x => { x with
        head := 0, tail := 0, phase := true, ien := v.getLsbD 29, iv := qctlIv v, size := qctlSize v })
      qrecs := s.qrecs.del k } := by
  refine (congrArg Host.Outcome.next (tenantWrite_acts h _ _)).trans ?_
  simp only [hen, herr, Bool.false_eq_true, if_false, ne_eq, not_true_eq_false]
  rfl

/-- A refused enable stores the fields written and its reason. -/
theorem queuePairEnable_refused (hen : (s.sqs.get (sliceQ i q) {}).en = false)
    (herr : s.enErr i q (s.sqs.get (sliceQ i q) {}) v ≠ 0) :
    let k := sliceQ i q
    exec (.queuePairEnable i p q v) s = .next { s.qctlFields k v with
      sqs := (s.qctlFields k v).sqs.edit k fun x => { x with enerr := s.enErr i q (s.sqs.get k {}) v } } := by
  refine (congrArg Host.Outcome.next (tenantWrite_acts h _ _)).trans ?_
  simp only [hen, herr, Bool.false_eq_true, if_false, ne_eq, not_false_eq_true, if_true]

/-- A disable of a pair that is not frozen stops its fetching, and the pair drains. -/
theorem queuePairDisable_stops (hen : (s.sqs.get (sliceQ i q) {}).en = true) (hf : (s.sqs.get (sliceQ i q) {}).frozen = false) :
    exec (.queuePairDisable i p q v) s =
      .next (State.drainCheck { s with sqs := s.sqs.edit (sliceQ i q) fun x => { x with en := false } } (sliceQ i q)) := by
  refine (congrArg Host.Outcome.next (tenantWrite_acts h _ _)).trans ?_
  simp only [hen, hf, Bool.false_eq_true, if_false, if_true]

end QueuePairs

/-- The submission queue as the fields of SLC_QCTL leave it. -/
theorem qctlFields_look (s : State) (k : Nat) (v : Dword) :
    (s.qctlFields k v).sqs.look k = some { s.sqs.get k {} with ctl := v &&& 0x603f0fff, cq := k } := Tbl.look_put ..

/-- A queue whose EN is set is in the table. -/
theorem look_of_en {t : Tbl Sq} {k : Nat} (h : (t.get k {}).en = true) : t.look k = some (t.get k {}) := by
  unfold Tbl.get at h ⊢
  cases hk : t.look k with
  | none =>
    rw [hk] at h
    cases h
  | some x => rfl

/-- ENABLED of a disabled pair goes as soon as no command of it is left (R102). -/
theorem drainCheck_look {s : State} {k : Nat} {x : Sq} (hx : s.sqs.look k = some x) (hen : x.en = false) :
    (s.drainCheck k).sqs.look k = some { x with
      enabled := if 1024 ≤ k ∧ s.ctxs.any (fun _ y => y.q == k) = false then false else x.enabled } := by
  have hcond : (1024 ≤ k ∧ (!x.en) = true ∧ x.enabled = true ∧ (!s.ctxs.any fun _ y => y.q == k) = true) ↔
      (1024 ≤ k ∧ s.ctxs.any (fun _ y => y.q == k) = false) ∧ x.enabled = true := by
    simp only [hen, Bool.not_false, true_and, Bool.not_eq_true']
    exact ⟨fun ⟨hk, he, ha⟩ => ⟨⟨hk, ha⟩, he⟩, fun ⟨⟨hk, ha⟩, he⟩ => ⟨hk, he, ha⟩⟩
  unfold State.drainCheck
  rw [hx]
  simp only [hcond]
  by_cases he : x.enabled = true
  · by_cases hd : 1024 ≤ k ∧ s.ctxs.any (fun _ y => y.q == k) = false
    · simp only [hd, he, and_self, if_true, Tbl.look_put]
    · simp only [hd, false_and, if_false, hx]
  · have hno : ¬((1024 ≤ k ∧ s.ctxs.any (fun _ y => y.q == k) = false) ∧ x.enabled = true) := fun a => he a.2
    have hkeep : (if 1024 ≤ k ∧ s.ctxs.any (fun _ y => y.q == k) = false then false else x.enabled) = x.enabled := by
      rw [Bool.eq_false_iff.mpr he, ite_self]
    rw [if_neg hno, hkeep, hx]

/-- Settles O30, clause by clause: what the pair's two queues hold after each write. -/
theorem queuePairsEnableAndDisable : Obligations.QueuePairsEnableAndDisable := by
  intro s i q p v hpage k x
  refine ⟨fun hen => queuePairEnable_again hpage hen, fun hen herr => ?_, fun hen herr => ?_, fun hen hf => ?_⟩
  · refine ⟨_, _, _, queuePairEnable_accepted hpage hen herr, ?_, Tbl.look_edit _ (qctlFields_look s k v), Tbl.look_put .., rfl, rfl⟩
    exact Same.mono (Same.trans (State.qctlFields_law s k v).same (Laws.Law.mk (r := [.sqs, .cqs, .qrecs]) (Law.refl _)).same) (by decide)
  · refine ⟨_, _, queuePairEnable_refused hpage hen herr, ?_, Tbl.look_edit _ (qctlFields_look s k v), hen, rfl, rfl, rfl⟩
    exact Same.mono (Same.trans (State.qctlFields_law s k v).same (same_of_sqs _ _)) (by decide)
  · refine ⟨_, _, queuePairDisable_stops hpage hen hf, ?_, drainCheck_look (Tbl.look_edit _ (look_of_en hen)) rfl, rfl, rfl⟩
    exact Same.mono (Same.trans (same_of_sqs s _) (State.drainCheck_law _ k).same) (by decide)

/-! ### Mailbox pushes (R105) -/

section Pushes
variable {m : Mbox} {w : Word}

theorem push_closed (aligned : Bool) : (m.push true aligned w).1 = { m with result := 6 } := rfl

/-- A direction that shows an earlier failure takes nothing until it is acknowledged. -/
theorem push_seen (h : m.fullSeen = true ∨ m.flushedSeen = true ∨ m.errSeen = true) (aligned : Bool) :
    (m.push false aligned w).1 = { m with result := if m.fullSeen then 1 else if m.flushedSeen then 2 else m.result } := by
  by_cases hfull : m.fullSeen = true
  · simp [Mbox.push, hfull, Push.code]
  · by_cases hflushed : m.flushedSeen = true
    · simp [Mbox.push, hfull, hflushed, Push.code]
    · have herr : m.errSeen = true := by simpa [hfull, hflushed] using h
      have hpush : m.push false aligned w = (m, false) := by simp [Mbox.push, hfull, hflushed, herr]
      rw [hpush, if_neg hfull, if_neg hflushed]

variable (h : ¬(m.fullSeen = true ∨ m.flushedSeen = true ∨ m.errSeen = true))
include h

theorem push_misaligned :
    (m.push false false w).1 = { m with part := 0, need := 0, dupRun := 0, errSeen := true, result := 7 } := by
  simp only [not_or] at h
  simp [Mbox.push, h, Push.code]

theorem push_dupRun (hd : m.dupRun ≠ 0) : (m.push false true w).1 = { m with dupRun := m.dupRun - 1, result := 3 } := by
  simp only [not_or] at h
  simp [Mbox.push, h, hd, Push.code]

theorem push_full (hd : m.dupRun = 0) (hf : m.free = 0) :
    (m.push false true w).1 = { m with part := 0, need := 0, fullSeen := true, result := 1 } := by
  simp only [not_or] at h
  simp [Mbox.push, h, hd, hf, Push.code]

variable (hd : m.dupRun = 0) (hf : m.free ≠ 0)
include hd hf

theorem push_badLen (hp : m.part = 0) (hl : bitsAt w.toNat 40 8 = 0 ∨ 32 < bitsAt w.toNat 40 8) :
    (m.push false true w).1 = { m with errSeen := true, result := 5 } := by
  simp only [not_or] at h
  simp [Mbox.push, h, hd, hf, hp, hl, Push.code]

section Header
variable (hp : m.part = 0) (hl : ¬(bitsAt w.toNat 40 8 = 0 ∨ 32 < bitsAt w.toNat 40 8))
include hp hl

theorem push_dup (hs : (bitsAt w.toNat 48 16 + 1) % 65536 = m.nextSeq) :
    (m.push false true w).1 = { m with dupSeen := true, dupRun := bitsAt w.toNat 40 8 - 1, result := 3 } := by
  simp only [not_or] at h hl
  simp [Mbox.push, h, hd, hf, hp, hl, hs, Push.code]

theorem push_seq (h1 : (bitsAt w.toNat 48 16 + 1) % 65536 ≠ m.nextSeq) (h2 : bitsAt w.toNat 48 16 ≠ m.nextSeq) :
    (m.push false true w).1 = { m with errSeen := true, result := 4 } := by
  simp only [not_or] at h hl
  simp [Mbox.push, h, hd, hf, hp, hl, h1, h2, Push.code]

end Header

/-- A word that is stored: the first of a message in order, or one of a message begun. -/
theorem push_stores {need : Nat}
    (hn : m.part ≠ 0 ∧ need = m.need ∨
      m.part = 0 ∧ need = bitsAt w.toNat 40 8 ∧ ¬(need = 0 ∨ 32 < need) ∧ bitsAt w.toNat 48 16 = m.nextSeq) :
    (m.part + 1 = need → (m.push false true w).1 = { m with
      slots := m.slots.put ((m.tail + m.part) % 32) w, tail := (m.tail + need) % 64, nextSeq := (m.nextSeq + 1) % 65536
      part := 0, need := 0, result := 0 }) ∧
    (m.part + 1 ≠ need → (m.push false true w).1 = { m with
      slots := m.slots.put ((m.tail + m.part) % 32) w, part := m.part + 1, need := need, result := 0 }) := by
  have hlen : ¬(m.part = 0 ∧ (bitsAt w.toNat 40 8 = 0 ∨ 32 < bitsAt w.toNat 40 8)) := by omega
  have hlt : bitsAt w.toNat 48 16 < 65536 := Nat.mod_lt _ (by decide)
  have hdup : ¬(m.part = 0 ∧ (bitsAt w.toNat 48 16 + 1) % 65536 = m.nextSeq) := by omega
  have hseq : ¬(m.part = 0 ∧ bitsAt w.toNat 48 16 ≠ m.nextSeq) := by omega
  have hneed : (if m.part = 0 then bitsAt w.toNat 40 8 else m.need) = need := by split <;> omega
  simp only [not_or] at h
  unfold Mbox.push
  simp only [h, hd, hf, hlen, hdup, hseq, hneed, Bool.not_true, Bool.false_eq_true, ne_eq, not_true_eq_false, if_false]
  exact ⟨fun he => by rw [if_pos he], fun he => by rw [if_neg he]⟩

end Pushes

/-! ### Pushes of a tenant and of the manager (R105) -/

theorem mbClosed_of_pageOk {s : State} {i : Nat} {p : Option Nat} (h : s.pageOk i p = true) : s.mbClosed i = false := by
  obtain ⟨hn, hd⟩ := pageOk_state h
  simp [State.mbClosed, hn, hd]

/-- What follows a completed message leaves the slices alone. -/
theorem mbPush_slices (s : State) (i : Nat) (up aligned : Bool) (w : Word) :
    (s.mbPush i up aligned w).slices = (s.sliceEdit i fun x =>
      if up then { x with up := ((s.slice i).up.push (s.mbClosed i) aligned w).1 }
      else { x with down := ((s.slice i).down.push (s.mbClosed i) aligned w).1 }).slices := by
  unfold State.mbPush
  cases up
  · exact ite_cases (P := fun t : State => t.slices = _) (fun _ => (State.downDone_law _ i).same .slices (by decide)) fun _ => rfl
  · exact ite_cases (P := fun t : State => t.slices = _) (fun _ => (State.upDone_law _ i).same .slices (by decide)) fun _ => rfl

/-- Settles O31: R105's rows, and each side pushes on its own direction. -/
theorem mailboxPushes : Obligations.MailboxPushes := by
  intro s i pasid aligned w seq len outcome
  have hout : ∀ closed m, outcome closed m (m.push closed aligned w).1 := by
    intro closed m
    cases closed with
    | true =>
      exact ⟨fun _ => push_closed aligned, fun hc => absurd rfl hc, fun hc => absurd rfl hc, fun hc => absurd rfl hc,
        fun hc => absurd rfl hc, fun hh => absurd rfl hh.1, fun hh => absurd rfl hh.1, fun hh => absurd rfl hh.1,
        fun hh => absurd rfl hh.1, fun hc => absurd rfl hc⟩
    | false =>
      refine ⟨nofun, fun _ hs => push_seen hs aligned, ?_, ?_, ?_, ?_, ?_, ?_, ?_, ?_⟩
      · rintro - hs rfl
        exact push_misaligned hs
      · rintro - hs rfl hd
        exact push_dupRun hs hd
      · rintro - hs rfl hd hf
        exact push_full hs hd hf
      · rintro ⟨-, hs, rfl, hd, hf, hp⟩ hl
        exact push_badLen hs hd hf hp hl
      · rintro ⟨-, hs, rfl, hd, hf, hp⟩ h1 h32 hq
        exact push_dup hs hd hf hp (by omega) hq
      · rintro ⟨-, hs, rfl, hd, hf, hp⟩ h1 h32 hdup hq
        exact push_seq hs hd hf hp (by omega) hdup hq
      · rintro ⟨-, hs, rfl, hd, hf, hp⟩ h1 h32 hq
        exact push_stores hs hd hf (.inr ⟨hp, rfl, by omega, hq⟩)
      · rintro - hs rfl hd hf hp
        exact push_stores hs hd hf (.inl ⟨hp, rfl⟩)
  have hat : ∀ up k, k ≠ i → (s.mbPush i up aligned w).slice k = s.slice k := fun up k hk =>
    (slice_of_slices (mbPush_slices s i up aligned w) k).trans (sliceEdit_slice_ne s _ hk)
  have hself := fun up => (slice_of_slices (mbPush_slices s i up aligned w) i).trans (sliceEdit_slice s i _)
  refine ⟨fun hpage => ?_, fun hi => ?_⟩
  · have hopen := mbClosed_of_pageOk hpage
    exact ⟨_, _, congrArg Host.Outcome.next (tenantWrite_acts hpage _ _), hat true, (State.mbPush_law s i true aligned w).same,
      hself true, hopen ▸ hout _ _⟩
  · exact ⟨_, _, congrArg Host.Outcome.next (if_pos hi), hat false, (State.mbPush_law s i false aligned w).same, hself false, hout _ _⟩

/-! ### Flushes, HEAD writes and the notice ring (R106, R107, R109, R110) -/

/-- A tenant's flush raises an event, which leaves the slices alone. -/
theorem mbFlush_tenant {s : State} {i : Nat} (h : s.mbClosed i = false) (up : Bool) :
    (s.mbFlush i up false).slices =
      (s.sliceEdit i fun x => if up then { x with up := x.up.flush } else { x with down := x.down.flush }).slices := by
  unfold State.mbFlush
  simp only [h, Bool.false_eq_true, if_false]
  exact (State.fire_law _ _ _ _ _ _).same .slices (by decide)

/-- The manager's flush posts a notice, which touches the slice's ring. -/
theorem mbFlush_manager {s : State} {i : Nat} (h : s.mbClosed i = false) (up : Bool) :
    RingOnly i (s.sliceEdit i fun x => if up then { x with up := x.up.flush } else { x with down := x.down.flush })
      (s.mbFlush i up true) := by
  unfold State.mbFlush
  simp only [h, Bool.false_eq_true, if_false, if_true]
  exact notice_ring _ i 0x08 _ 0

/-- With no notice lost there is none to report. -/
theorem noticeFlush_of_lost_zero {s : State} {i : Nat} (h : (s.slice i).nr.lost = 0) : s.noticeFlush i = s :=
  if_neg fun a => a.1 h

section RingControl
variable (r : NRing) (n : Nat) (v : Dword)

/-- The fields that SLC_NR_CTL takes whether or not the ring is on (R109). -/
def ringFields : NRing :=
  { r with nvec := if bitsAt v.toNat 16 6 < n then bitsAt v.toNat 16 6 else r.nvec, ien := v.getLsbD 15 }

/-- A write of SLC_NR_CTL leaves the count of lost notices alone. -/
theorem ctl_lost : (r.ctl n v).lost = r.lost := by
  unfold NRing.ctl
  dsimp only
  split
  · rfl
  · split <;> rfl

theorem ctl_on (h : r.en = true) : r.ctl n v = { ringFields r n v with en := v.getLsbD 31 } := by
  simp [NRing.ctl, ringFields, h]

theorem ctl_starts (h : r.en = false) (hv : v.getLsbD 31 = true) (hs : 15 ≤ bitsAt v.toNat 0 12) :
    r.ctl n v = { ringFields r n v with
      size := bitsAt v.toNat 0 12, en := true, head := 0, tail := 0, phase := true, fault := false } := by
  simp [NRing.ctl, ringFields, h, hv, hs]

theorem ctl_off (h : r.en = false) (hv : v.getLsbD 31 = false ∨ bitsAt v.toNat 0 12 < 15) :
    r.ctl n v = { ringFields r n v with size := bitsAt v.toNat 0 12 } := by
  have hno : (v.getLsbD 31 && decide (15 ≤ bitsAt v.toNat 0 12)) = false := by
    rcases hv with hv | hv
    · rw [hv, Bool.false_and]
    · rw [decide_eq_false (Nat.not_le.mpr hv), Bool.and_false]
  simp only [NRing.ctl, ringFields, h, hno, Bool.false_eq_true, if_false]

end RingControl

theorem slcNrCtl_writes {s : State} {i : Nat} {p : Option Nat} (h : s.pageOk i p = true) (hl : (s.slice i).nr.lost = 0) (v : Dword) :
    exec (.slcNrCtl i p v) s = .next (s.sliceEdit i fun x => { x with nr := x.nr.ctl x.vecCount v }) := by
  refine congrArg Host.Outcome.next ((tenantWrite_acts h _ _).trans (noticeFlush_of_lost_zero ?_))
  rw [sliceEdit_slice]
  exact (ctl_lost _ _ v).trans hl

theorem slcNrHead_writes {s : State} {i : Nat} {p : Option Nat} (h : s.pageOk i p = true) (hl : (s.slice i).nr.lost = 0) (n : Nat) :
    exec (.slcNrHead i p n) s = .next (s.sliceEdit i fun x => { x with nr := { x.nr with head := n % 4096 } }) := by
  refine congrArg Host.Outcome.next ((tenantWrite_acts h _ _).trans (noticeFlush_of_lost_zero ?_))
  rw [sliceEdit_slice]
  exact hl

/-- Settles O32: each write is an edit of the one slice, with an event or a notice behind a flush. -/
theorem flushesHeadsAndNoticeRing : Obligations.FlushesHeadsAndNoticeRing := by
  intro s i h pasid v hpage y flushed headed only
  have hopen := mbClosed_of_pageOk hpage
  have hedit : ∀ f, only (s.sliceEdit i f) := fun f =>
    ⟨fun k hk => sliceEdit_slice_ne s f hk, Same.mono (State.sliceEdit_law s i f).same (by decide)⟩
  have htenant : ∀ up, only (s.mbFlush i up false) := fun up =>
    ⟨fun k hk => (slice_of_slices (mbFlush_tenant hopen up) k).trans (sliceEdit_slice_ne s _ hk), (State.mbFlush_law s i up false).same⟩
  have hmanager : ∀ up, only (s.mbFlush i up true) := fun up =>
    ⟨fun k hk => ((mbFlush_manager hopen up).1 k hk).trans (sliceEdit_slice_ne s _ hk), (State.mbFlush_law s i up true).same⟩
  have hflushed := fun up => (slice_of_slices (mbFlush_tenant hopen up) i).trans (sliceEdit_slice s i _)
  have hnoted := fun up => (mbFlush_manager hopen up).2.trans (congrArg apart (sliceEdit_slice s i _))
  refine ⟨?_, ?_, fun hi => ?_, fun hi => ?_, ?_, fun hi => ?_, ?_⟩
  · exact ⟨_, congrArg Host.Outcome.next (tenantWrite_acts hpage _ _), htenant false, hflushed false⟩
  · exact ⟨_, congrArg Host.Outcome.next (tenantWrite_acts hpage _ _), htenant true, hflushed true⟩
  · exact ⟨_, congrArg Host.Outcome.next (if_pos hi), hmanager true, hnoted true⟩
  · exact ⟨_, congrArg Host.Outcome.next (if_pos hi), hmanager false, hnoted false⟩
  · exact ⟨_, congrArg Host.Outcome.next (tenantWrite_acts hpage _ _), hedit _, sliceEdit_slice s i _⟩
  · exact ⟨_, congrArg Host.Outcome.next (if_pos ⟨hi, by rw [hopen]; rfl⟩), hedit _, sliceEdit_slice s i _⟩
  · intro hl nvec nr
    have hring : ∀ r, y.nr.ctl y.vecCount v = r → ∃ t, exec (.slcNrCtl i (some pasid) v) s = .next t ∧ only t ∧
        t.slice i = { y with nr := r } := by
      rintro r rfl
      exact ⟨_, slcNrCtl_writes hpage hl v, hedit _, sliceEdit_slice s i _⟩
    exact ⟨fun hen => hring _ (ctl_on _ _ v hen), fun hen hv hs => hring _ (ctl_starts _ _ v hen hv hs),
      fun hen hv => hring _ (ctl_off _ _ v hen hv), _, slcNrHead_writes hpage hl h, hedit _, sliceEdit_slice s i _⟩

end Sys2Proof.Proofs
end

section
/-! PROOFS. Command queueing: the end of a freeze (R138). -/

namespace Sys2Proof.Proofs

open Sys2Proof Sys2Proof.Machine Sys2Proof.Safety Sys2Proof.Laws

/-! ### Thaw Queue (R138) -/

/-- The thaw of a frozen queue none of whose stamped commands is still at work, at its stamp. -/
theorem thawQueue_thaws {s : State} {c q : Nat} {x : Ctx} {y : Sq} (h : AdminTurn s c x) (hopc : x.e.opc = 0xc8)
    (hfields : vendorOk x.e 0x83ffffff 0 0 0 0 0 = true) (htarget : s.thawTarget x.e = some q) (hy : s.sqs.look q = some y)
    (hfrozen : y.frozenSeen = true) (hinflight : s.inflight q = 0) :
    exec (.thawQueue c) s = .next ((s.thawQ q).adminDone c stOk) := by
  refine (congrArg Host.Outcome.next (admitAdmin_body h (by rw [hopc]; rfl) (by rw [hopc]; decide) _)).trans ?_
  simp only [hfields, htarget, hy, hfrozen, hinflight, Bool.not_true, Bool.false_eq_true, ne_eq, not_true_eq_false, if_false]

/-- Settles O17: the completion leaves queues and records as the thaw made them, and the thaw edits the queue named and its record. -/
theorem thawQueueCompletes : Obligations.ThawQueueCompletes := by
  intro s c q x y hturn hopc hfields htarget hy hfrozen hinflight
  have hdone : Same [.ctxs, .gate, .dma] (s.thawQ q) ((s.thawQ q).adminDone c stOk) := adminDone_same _ c 0
  have hsqs : ((s.thawQ q).adminDone c stOk).sqs = (s.thawQ q).sqs := hdone .sqs (by decide)
  have hqrecs : ((s.thawQ q).adminDone c stOk).qrecs = (s.thawQ q).qrecs := hdone .qrecs (by decide)
  refine ⟨_, thawQueue_thaws hturn hopc hfields htarget hy hfrozen hinflight, adminDone_done (u := s.thawQ q) hturn.here rfl rfl 0,
    Same.mono (Same.trans (State.thawQ_law s q).same hdone) (by decide), ?_, fun r hr => ?_, fun k hk => ?_⟩
  · rw [hsqs]
    exact edit_eq_put hy _
  · rw [hqrecs]
    exact Tbl.look_edit _ hr
  · rw [hqrecs]
    exact Tbl.look_edit_ne _ _ hk

end Sys2Proof.Proofs
end

section
/-! PROOFS. Zone operations at their commit (R147). -/

namespace Sys2Proof.Proofs

open Sys2Proof Sys2Proof.Machine Sys2Proof.Safety Sys2Proof.Laws

/-! ### The table of R147 -/

theorem opTo_open {z : Zone} (h : z.zs = .implOpen ∨ z.zs = .explOpen) : opTo .open z = some .explOpen := by
  rcases h with h | h <;> simp only [opTo, h]

theorem opTo_close {z : Zone} (h : z.zs = .implOpen ∨ z.zs = .explOpen) :
    opTo .close z = some (if z.wp = 0 then .empty else .closed) := by
  rcases h with h | h <;> simp only [opTo, h]

theorem opTo_close_closed {z : Zone} (h : z.zs = .closed) : opTo .close z = some .closed := by
  simp only [opTo, h]

theorem opTo_finish {z : Zone} (h : z.zs = .empty ∨ z.zs = .implOpen ∨ z.zs = .explOpen ∨ z.zs = .closed ∨ z.zs = .full) :
    opTo .finish z = some .full := by
  rcases h with h | h | h | h | h <;> simp only [opTo, h]

theorem opTo_reset {z : Zone} (h : z.zs = .empty ∨ z.zs = .implOpen ∨ z.zs = .explOpen ∨ z.zs = .closed ∨ z.zs = .full) :
    opTo .reset z = some .empty := by
  rcases h with h | h | h | h | h <;> simp only [opTo, h]

theorem opTo_offline {z : Zone} (h : z.zs = .readOnly ∨ z.zs = .offline) : opTo .offline z = some .offline := by
  rcases h with h | h <;> simp only [opTo, h]

/-- The cells of the table that answer Invalid Zone State Transition. -/
def opRefused : ZOp → Zs → Prop
  | .open, z => z = .full ∨ z = .readOnly ∨ z = .offline
  | .close, z => z = .empty ∨ z = .full ∨ z = .readOnly ∨ z = .offline
  | .finish, z | .reset, z => z = .readOnly ∨ z = .offline
  | .offline, z => z ≠ .readOnly ∧ z ≠ .offline

theorem opTo_of_refused {op : ZOp} {z : Zone} (h : opRefused op z.zs) : opTo op z = none := by
  match op, h with
  | .open, h => rcases h with h | h | h <;> simp only [opTo, h]
  | .close, h => rcases h with h | h | h | h <;> simp only [opTo, h]
  | .finish, h => rcases h with h | h <;> simp only [opTo, h]
  | .reset, h => rcases h with h | h <;> simp only [opTo, h]
  | .offline, ⟨hreadOnly, hoffline⟩ =>
    cases hz : z.zs <;> simp_all [opTo]

/-- An Open of an Empty or a Closed zone is not refused by the zone's state: it opens the zone, within the limits. -/
theorem not_opens_of_refused {op : ZOp} {z : Zs} (h : opRefused op z) : ¬ (op = .open ∧ (z = .empty ∨ z = .closed)) := by
  rintro ⟨rfl, rfl | rfl⟩ <;> simp [opRefused] at h

/-! ### The commit of an entry in one scope -/

/-- With no system entry waiting, a commit is the entry's own work and what closes it; then the system entries run. -/
theorem exec_commit {s : State} {stamp zk : Nat} {e : Entry} (halone : NoSystem s.gate.entries)
    (hentry : s.gate.entries.look stamp = some e) (hready : s.commitReady stamp e zk = true) :
    exec (.commit stamp zk) s =
      .next ((((((s.stampFlush stamp).commitIn stamp e zk).scopeDone stamp zk).leaseSync zk).migCheck).settle).sysGo := by
  have hcommit : exec (.commit stamp zk) s = .next ((s.sysGo.commitAt stamp zk).sysGo) := rfl
  rw [hcommit, sysGo_id halone]
  simp only [State.commitAt, hentry, hready, if_true]

/-- The kinds of entry that are a zone operation of R147 with nothing to erase before its completion. -/
def IsZoneOp (k : EKind) : Prop := k = .openE ∨ k = .closeE ∨ k = .finishE ∨ k = .resetE ∨ k = .offlineE

theorem commitIn_zoneOp {e : Entry} (hk : IsZoneOp e.kind) (s : State) (stamp zk : Nat) :
    s.commitIn stamp e zk = s.commitZop stamp e zk := by
  unfold State.commitIn
  rcases hk with k | k | k | k | k <;> rw [k]

/-- An operation that succeeds leaves the state it made, with a record. -/
theorem commitZop_ok {s u : State} {stamp zk : Nat} {e : Entry} (hk : IsZoneOp e.kind) (hall : e.all = false)
    (h : s.zoneOp e.kind.zop zk stamp e.fence = .ok u) :
    (s.commitZop stamp e zk).zones = u.zones ∧ (s.commitZop stamp e zk).gate.entries = u.gate.entries := by
  have hsan : e.kind ≠ .sanResetE := by rcases hk with k | k | k | k | k <;> rw [k] <;> decide
  simp only [State.commitZop, hall, Bool.false_and, Bool.false_eq_true, if_false, h, hsan]
  exact ⟨rfl, rfl⟩

/-- The entry with one more failure. -/
def withFail (zk : Nat) (f : Status) (e : Entry) : Entry := { e with fails := e.fails ++ [(zk, f)] }

theorem withFail_kind (zk : Nat) (f : Status) (e : Entry) : (withFail zk f e).kind = e.kind := rfl

theorem withFail_sys (zk : Nat) (f : Status) (e : Entry) : (withFail zk f e).sys = e.sys := rfl

/-- An operation that fails leaves a record and notes its failure in the entry. -/
theorem commitZop_error {s : State} {stamp zk : Nat} {e : Entry} {f : Status} (hall : e.all = false)
    (h : s.zoneOp e.kind.zop zk stamp e.fence = .error f) :
    (s.commitZop stamp e zk).zones = s.zones ∧
      (s.commitZop stamp e zk).gate.entries = s.gate.entries.edit stamp (withFail zk f) := by
  simp only [State.commitZop, hall, Bool.false_and, Bool.false_eq_true, if_false, h]
  exact ⟨rfl, rfl⟩

/-! ### A zone operation whose turn has come -/

/-- The entry may commit in its zone, which no fence stops, and no system entry waits for its own commit. -/
structure ZoneCommit (s : State) (stamp zk : Nat) (e : Entry) (z : Zone) : Prop where
  alone : NoSystem s.gate.entries
  entry : s.gate.entries.look stamp = some e
  ready : s.commitReady stamp e zk = true
  single : e.all = false
  here : s.zones.look zk = some z
  unfenced : ∀ p, z.place = some p → s.chipFenced p.chip = false

section
variable {s t : State} {stamp zk : Nat} {e : Entry} {z : Zone} (h : ZoneCommit s stamp zk e z)
include h

/-- The messages sent before a commit leave the zone as it is. -/
theorem ZoneCommit.flushed_zone : (s.stampFlush stamp).zone zk = z := by
  unfold State.zone Tbl.get
  rw [stampFlush_zones, h.here]
  rfl

theorem ZoneCommit.flushed_zoneIs : ZoneIs (s.stampFlush stamp) zk ((s.stampFlush stamp).zone zk).zs := by
  unfold ZoneIs
  rw [h.flushed_zone, stampFlush_zones, h.here]
  rfl

theorem ZoneCommit.flushed_unfenced (p : Place) (hp : ((s.stampFlush stamp).zone zk).place = some p) :
    (s.stampFlush stamp).chipFenced p.chip = false := by
  rw [h.flushed_zone] at hp
  have hs := h.unfenced p hp
  unfold State.chipFenced at hs ⊢
  rwa [stampFlush_members]

/-- What closes a commit leaves the zones as the operation made them. -/
theorem ZoneCommit.zones_of_commitZop (hk : IsZoneOp e.kind)
    (halone : NoSystem ((s.stampFlush stamp).commitZop stamp e zk).gate.entries)
    (hkind : (((s.stampFlush stamp).commitZop stamp e zk).gate.entries.look stamp).map (·.kind) = some e.kind)
    (ht : exec (.commit stamp zk) s = .next t) : t.zones = ((s.stampFlush stamp).commitZop stamp e zk).zones := by
  rw [exec_commit h.alone h.entry h.ready, commitIn_zoneOp hk, sysGo_id (NoSystem.tail halone stamp zk)] at ht
  cases ht
  exact commitTail_zones _ stamp zk e hk hkind

/-- An operation that the table of R147 allows leaves the zone in the state it gives; one that gives the state the zone is in, and is
neither an Open nor a Finish, leaves every zone as it is. -/
theorem ZoneCommit.zs_of_allowed (hk : IsZoneOp e.kind) {w : Zs} (hw : opTo e.kind.zop z = some w)
    (ht : exec (.commit stamp zk) s = .next t) :
    (t.zone zk).zs = w ∧ ((z.zs = w ∧ e.kind.zop ≠ .open ∧ e.kind.zop ≠ .finish) → t.zones = s.zones) := by
  rw [← h.flushed_zone] at hw
  obtain ⟨u, hu, his, hsame⟩ := zoneOp_ok (st := stamp) (f := e.fence) h.flushed_unfenced h.flushed_zoneIs hw
  obtain ⟨hzones, hentries⟩ := commitZop_ok hk h.single hu
  rw [zoneOp_entries h.flushed_unfenced hw hu, stampFlush_entries] at hentries
  have hz : t.zones = u.zones := by
    rw [h.zones_of_commitZop hk (hentries ▸ h.alone) (by rw [hentries, h.entry]; rfl) ht, hzones]
  refine ⟨(ZoneIs.of_same his (SameZs.of_zones hz)).zs, fun hstays => ?_⟩
  rw [h.flushed_zone] at hsame
  rw [hz, hsame hstays, stampFlush_zones]

/-- An operation that the table of R147 refuses leaves every zone as it is. -/
theorem ZoneCommit.zones_of_refused (hk : IsZoneOp e.kind) (hr : opRefused e.kind.zop z.zs)
    (ht : exec (.commit stamp zk) s = .next t) : t.zones = s.zones := by
  rw [← h.flushed_zone] at hr
  obtain ⟨hzones, hentries⟩ := commitZop_error h.single
    (zoneOp_bad (st := stamp) (f := e.fence) h.flushed_unfenced (opTo_of_refused hr) (not_opens_of_refused hr))
  rw [stampFlush_entries] at hentries
  rw [h.zones_of_commitZop hk ?_ ?_ ht, hzones, stampFlush_zones]
  · rw [hentries]
    exact NoSystem.edit h.alone stamp (withFail_sys zk _)
  · rw [hentries, edit_kind (withFail_kind zk _), h.entry]
    rfl

end

/-- Settles O24: every cell of the table that opens no zone either gives a state or refuses the operation. -/
theorem zoneOperationsCommit : Obligations.ZoneOperationsCommit := by
  intro s stamp zk e z halone hentry hready hsingle hhere hunfenced
  have h : ZoneCommit s stamp zk e z := ⟨halone, hentry, hready, hsingle, hhere, hunfenced⟩
  obtain ⟨t, ht, hlaw⟩ := execCommit_law stamp zk s
  have hto : ∀ {k w}, IsZoneOp k → e.kind = k → opTo k.zop z = some w → (t.zone zk).zs = w := by
    rintro _ w hk rfl hw
    exact (h.zs_of_allowed hk hw ht).1
  have hstays : ∀ {k}, IsZoneOp k → k.zop ≠ .open ∧ k.zop ≠ .finish → e.kind = k → opTo k.zop z = some z.zs →
      t.zones = s.zones := by
    rintro _ hk hne rfl hw
    exact (h.zs_of_allowed hk hw ht).2 ⟨rfl, hne⟩
  have hrefused : ∀ {k}, IsZoneOp k → e.kind = k → opRefused k.zop z.zs → t.zones = s.zones := by
    rintro _ hk rfl hr
    exact h.zones_of_refused hk hr ht
  have hopen : IsZoneOp .openE := .inl rfl
  have hclose : IsZoneOp .closeE := .inr (.inl rfl)
  have hfinish : IsZoneOp .finishE := .inr (.inr (.inl rfl))
  have hreset : IsZoneOp .resetE := .inr (.inr (.inr (.inl rfl)))
  have hoffline : IsZoneOp .offlineE := .inr (.inr (.inr (.inr rfl)))
  refine ⟨t, ht, hlaw.same .pending (by decide), fun hk hz => hto hopen hk (opTo_open hz), fun hk hz => hto hclose hk (opTo_close hz),
    fun hk hz => hto hfinish hk (opTo_finish hz), fun hk hz => hto hreset hk (opTo_reset (.inr hz)),
    fun hk hz => hto hoffline hk (opTo_offline (.inl hz)), ?_⟩
  rintro (⟨hk, hz⟩ | ⟨hk, hz⟩ | ⟨hk, hz⟩ | ⟨hk, hz⟩ | ⟨hk, hz⟩ | ⟨hk, hz⟩ | ⟨hk, hz⟩ | ⟨hk, hz⟩)
  · exact hstays hclose (by decide) hk (by rw [hz]; exact opTo_close_closed hz)
  · exact hstays hreset (by decide) hk (by rw [hz]; exact opTo_reset (.inl hz))
  · exact hstays hoffline (by decide) hk (by rw [hz]; exact opTo_offline (.inr hz))
  · exact hrefused hopen hk hz
  · exact hrefused hclose hk hz
  · exact hrefused hfinish hk hz
  · exact hrefused hreset hk hz
  · exact hrefused hoffline hk hz

end Sys2Proof.Proofs
end

section
/-! PROOFS. The security alarm, its responses and its latch; the clear of the log and the latency counts (R243, R316, R461, R464 to R466). -/

namespace Sys2Proof.Proofs

open Sys2Proof Sys2Proof.Machine Sys2Proof.Safety Sys2Proof.Laws

/-! ### What a freeze leaves of the alarm -/

theorem noticeWrite_alarm (s : State) (i ty a b : Nat) : alarmPart (s.noticeWrite i ty a b).evt = alarmPart s.evt := by
  unfold State.noticeWrite
  dsimp only
  split
  · exact msix_alarm _ _
  · rfl

theorem noticeFlush_alarm (s : State) (i : Nat) : alarmPart (s.noticeFlush i).evt = alarmPart s.evt := by
  unfold State.noticeFlush
  dsimp only
  split
  · split
    · rfl
    · exact noticeWrite_alarm _ _ _ _ _
  · rfl

theorem notice_alarm (s : State) (i ty a b : Nat) : alarmPart (s.notice i ty a b).evt = alarmPart s.evt := by
  unfold State.notice
  dsimp only
  split
  · rfl
  split
  · exact noticeFlush_alarm s i
  split
  · exact noticeFlush_alarm s i
  · exact (noticeWrite_alarm _ _ _ _ _).trans (noticeFlush_alarm s i)

theorem sliceFreeze_alarm (s : State) (i r : Nat) : alarmPart (s.sliceFreeze i r).evt = alarmPart s.evt := by
  unfold State.sliceFreeze
  dsimp only
  split
  · rw [(State.quiesceEnd_law _ _ _).same .evt (by decide), fire_alarm, State.stateNotice, notice_alarm, State.sliceEdit_evt]
  · rfl

/-- A freeze of every slice leaves the alarms alone. -/
theorem freezeAll_alarm (s : State) (r : Nat) : alarmPart (s.freezeAll r).evt = alarmPart s.evt := by
  unfold State.freezeAll forNats
  generalize s.slices.map (·.1) = l
  induction l generalizing s with
  | nil => rfl
  | cons i l ih => exact (ih _).trans (sliceFreeze_alarm s i r)

/-! ### The configuration commit of a response (R316, R465) -/

theorem enterCfg_entries (s : State) (ev : SysEv) : (s.enterCfg ev).gate.entries = s.gate.entries.put s.gate.next
    { kind := .sysE, ctx := 65536, owner := 1025, nsid := 0, scopes := [chipScope], sys := some ev } := rfl

/-- With nothing before it the commit of a freeze is made at once. -/
theorem alarmRun_freeze {s : State} (h : s.gate.entries = []) :
    (s.enterCfg .freeze).alarmRun = (((s.enterCfg .freeze).sysTake s.gate.next).alarmApply .freeze s.gate.next).settle := by
  unfold State.alarmRun
  rw [enterCfg_entries, h]
  exact if_pos rfl

theorem alarmRun_zeroize {s : State} (h : s.gate.entries = []) :
    (s.enterCfg .zeroize).alarmRun = (((s.enterCfg .zeroize).sysTake s.gate.next).alarmApply .zeroize s.gate.next).settle := by
  unfold State.alarmRun
  rw [enterCfg_entries, h]
  exact (if_neg nofun).trans (if_pos rfl)

/-- Every entry is a command's, with a stamp that was drawn. -/
def CommandsOnly (g : Gate) : Prop := ∀ k e, g.entries.look k = some e → k < g.next ∧ e.sys = none

/-- Behind a command's entry the commit of a response waits. -/
theorem alarmRun_waits {s : State} (ev : SysEv) (hne : s.gate.entries ≠ []) (h : CommandsOnly s.gate) :
    (s.enterCfg ev).alarmRun = s.enterCfg ev := by
  unfold State.alarmRun
  rw [enterCfg_entries]
  cases hl : s.gate.entries with
  | nil => exact absurd hl hne
  | cons p l =>
    obtain ⟨k, e⟩ := p
    obtain ⟨hk, he⟩ := h k e (by rw [hl]; exact if_pos rfl)
    simp only [Tbl.put, if_neg (Nat.ne_of_lt hk), if_neg (Nat.not_lt.mpr (Nat.le_of_lt hk)), he, reduceCtorEq, if_false]

/-! ### A response that is asked for (R465) -/

/-- The responses that are owed. -/
def owing (s : State) (o : BitVec 2) : State := { s with evt := { s.evt with owed := o } }

theorem owing_self {s : State} {o : BitVec 2} (h : s.evt.owed = o) : owing s o = s := by
  subst h
  rfl

/-- The response of bit `b` is stamped if it is owed and a stamp can be issued. -/
def payOne (s : State) (b : Nat) (ev : SysEv) : State :=
  if s.evt.owed.getLsbD b && s.canStamp then ((owing s (s.evt.owed &&& ~~~BitVec.ofNat 2 (2 ^ b))).enterCfg ev).alarmRun else s

theorem alarmPay_eq (s : State) : s.alarmPay = payOne (payOne s 0 .freeze) 1 .zeroize := rfl

theorem payOne_of_not_owed {s : State} {b : Nat} (h : s.evt.owed.getLsbD b = false) (ev : SysEv) : payOne s b ev = s :=
  if_neg (by rw [h]; nofun)

theorem payOne_of_no_stamp {s : State} (h : s.canStamp = false) (b : Nat) (ev : SysEv) : payOne s b ev = s :=
  if_neg (by rw [h, Bool.and_false]; nofun)

/-- The one response that is owed is stamped, and nothing is owed any more. -/
theorem payOne_owing {s : State} {o : BitVec 2} {b : Nat} (hb : o.getLsbD b = true) (ho : o &&& ~~~BitVec.ofNat 2 (2 ^ b) = s.evt.owed)
    (hc : s.canStamp = true) (ev : SysEv) : payOne (owing s o) b ev = (s.enterCfg ev).alarmRun := by
  have hpaid : owing (owing s o) (o &&& ~~~BitVec.ofNat 2 (2 ^ b)) = s := owing_self ho.symm
  have hdue : ((owing s o).evt.owed.getLsbD b && (owing s o).canStamp) = true := by
    rw [show (owing s o).evt.owed.getLsbD b = true from hb, show (owing s o).canStamp = true from hc]
    rfl
  exact (if_pos hdue).trans (congrArg (fun u : State => (u.enterCfg ev).alarmRun) hpaid)

/-- The key RAM as a zeroize leaves it at once (R316). -/
def ramCleared (s : State) : State := { s with key := { s.key with ram := [], cleared := true } }

section Respond
variable {s : State} (ho : s.evt.owed = 0)
include ho

theorem alarmFreeze_eq : s.alarmFreeze = (owing s 1).alarmPay := by
  unfold State.alarmFreeze State.alarmRespond
  rw [ho]
  rfl

theorem zeroize_eq : s.zeroize = (owing (ramCleared s) 2).alarmPay := by
  unfold State.zeroize State.alarmRespond
  dsimp only
  rw [ho]
  rfl

theorem alarmFreeze_owed (hc : s.canStamp = false) : s.alarmFreeze = owing s 1 := by
  have hc' : (owing s 1).canStamp = false := hc
  rw [alarmFreeze_eq ho, alarmPay_eq, payOne_of_no_stamp hc', payOne_of_no_stamp hc']

theorem zeroize_owed (hc : s.canStamp = false) : s.zeroize = owing (ramCleared s) 2 := by
  have hc' : (owing (ramCleared s) 2).canStamp = false := hc
  rw [zeroize_eq ho, alarmPay_eq, payOne_of_no_stamp hc', payOne_of_no_stamp hc']

/-- The freeze is stamped; its commit asks for no zeroize. -/
theorem alarmFreeze_stamped (hc : s.canStamp = true) (hrun : (s.enterCfg .freeze).alarmRun.evt.owed = 0) :
    s.alarmFreeze = (s.enterCfg .freeze).alarmRun := by
  rw [alarmFreeze_eq ho, alarmPay_eq, payOne_owing (by decide) (by rw [ho]; decide) hc, payOne_of_not_owed (by rw [hrun]; rfl)]

theorem zeroize_stamped (hc : s.canStamp = true) : s.zeroize = ((ramCleared s).enterCfg .zeroize).alarmRun := by
  have ho' : (ramCleared s).evt.owed = 0 := ho
  have hc' : (ramCleared s).canStamp = true := hc
  rw [zeroize_eq ho, alarmPay_eq, payOne_of_not_owed (s := owing (ramCleared s) 2) (show (2 : BitVec 2).getLsbD 0 = false by decide)]
  exact payOne_owing (by decide) (by rw [ho']; decide) hc' _

/-! ### A response with nothing before it -/

theorem alarmFreeze_at_once (hc : s.canStamp = true) (he : s.gate.entries = []) :
    s.alarmFreeze = (((s.enterCfg .freeze).sysTake s.gate.next).alarmApply .freeze s.gate.next).settle := by
  have howed : (s.enterCfg .freeze).alarmRun.evt.owed = 0 := by
    have hfreeze := congrArg (·.2.2.2.2.2) (freezeAll_alarm ((s.enterCfg .freeze).sysTake s.gate.next) 4)
    rw [alarmRun_freeze he, (State.settle_law _).same .evt (by decide), State.alarmApply,
      (State.sysRecord_law _ _ _ _).same .evt (by decide)]
    refine hfreeze.trans ?_
    dsimp only [alarmPart]
    rw [(State.sysTake_law _ _).same .evt (by decide), (State.enterCfg_law _ _).same .evt (by decide), ho]
  rw [alarmFreeze_stamped ho hc howed, alarmRun_freeze he]

/-- Every live slice is frozen with reason 4. -/
theorem alarmFreeze_freezes (hc : s.canStamp = true) (he : s.gate.entries = []) {i : Nat} (hi : i ∈ s.slices.map (·.1))
    (hlive : IsLive i s) : IsFrozen i 4 s.alarmFreeze := by
  have htaken : ((s.enterCfg .freeze).sysTake s.gate.next).slices = s.slices :=
    ((State.sysTake_law _ _).same .slices (by decide)).trans ((State.enterCfg_law s .freeze).same .slices (by decide))
  rw [alarmFreeze_at_once ho hc he, State.alarmApply]
  refine IsFrozen.of_slices (IsFrozen.of_slices (forNats_freeze i 4 _ _ (by rwa [htaken]) ?_)
    ((State.sysRecord_law _ _ _ _).same .slices (by decide))) ((State.settle_law _).same .slices (by decide))
  unfold IsLive
  rwa [slice_of_slices htaken]

theorem zeroize_at_once (hc : s.canStamp = true) (he : s.gate.entries = []) : ∃ u : State,
    s.zeroize = ((u.zeroizeAt s.gate.next).sysRecord s.gate.next 0x08 false).settle ∧ u.key.epoch = s.key.epoch := by
  refine ⟨((ramCleared s).enterCfg .zeroize).sysTake s.gate.next, (zeroize_stamped ho hc).trans (alarmRun_zeroize he), ?_⟩
  rw [(State.sysTake_law _ _).same .key (by decide), (State.enterCfg_law _ _).same .key (by decide)]
  rfl

end Respond

/-- The key store as a crypto erase finds it before new keys are drawn (R315). -/
def epochAdvanced (s : State) : State := { s with key := { s.key with epoch := s.key.epoch + 1, ram := [], cleared := s.key.entropyBad } }

theorem cryptoErase_epoch (s : State) : s.key.epoch < s.cryptoErase.key.epoch := by
  have hfire := (State.fire_law (epochAdvanced s) 10 [] 0 1025 none).good.epoch
  have hdraw := (State.keyRedraw_law (epochAdvanced s)).good.epoch
  unfold State.cryptoErase
  split
  · exact hfire
  · exact hdraw

/-- A zeroize erases the keys, the staged data and the tokens (R316). -/
theorem zeroizeAt_erases (s : State) (stamp : Nat) : s.key.epoch < (s.zeroizeAt stamp).key.epoch ∧
    (s.zeroizeAt stamp).toks = [] ∧ (s.zeroizeAt stamp).staging = [] := by
  unfold State.zeroizeAt
  dsimp only
  generalize hw : forNats _ s State.keyLess = w
  generalize hx : ({ w.sanRecords stamp 1025 false with nvme := _ } : State) = x
  refine ⟨?_, ?_, ?_⟩
  · have hlast : w.key.epoch ≤ x.key.epoch := by
      rw [← hx]
      exact (State.sanRecords_law w stamp 1025 false).good.epoch
    rw [(freezeAll_keeps _ _).1, (State.sanQueue_law _ _).same .key (by decide), (State.slcMark_law _).same .key (by decide)]
    calc s.key.epoch ≤ w.key.epoch := hw ▸ keyLess_epoch _ s
      _ ≤ x.key.epoch := hlast
      _ < x.cryptoErase.key.epoch := cryptoErase_epoch x
      _ ≤ (x.cryptoErase.sanStaging.sanZones stamp).key.epoch := (State.sanZones_law x.cryptoErase.sanStaging stamp).good.epoch
  · rw [(freezeAll_keeps _ _).2.1, (State.sanQueue_law _ _).same .toks (by decide), (State.slcMark_law _).same .toks (by decide)]
    rfl
  · rw [(freezeAll_keeps _ _).2.2, (State.sanQueue_law _ _).same .staging (by decide), (State.slcMark_law _).same .staging (by decide),
      (State.sanZones_law _ _).same .staging (by decide)]
    rfl

section Respond
variable {s : State} (ho : s.evt.owed = 0)
include ho

/-- With nothing before it a zeroize erases at once. -/
theorem zeroize_erases (hc : s.canStamp = true) (he : s.gate.entries = []) :
    s.key.epoch < s.zeroize.key.epoch ∧ s.zeroize.toks = [] ∧ s.zeroize.staging = [] := by
  obtain ⟨u, hu, hkey⟩ := zeroize_at_once ho hc he
  obtain ⟨hepoch, htoks, hstaging⟩ := zeroizeAt_erases u s.gate.next
  have hlast := Same.seq (State.sysRecord_law (u.zeroizeAt s.gate.next) s.gate.next 0x08 false).same
    (State.settle_law _).same (w := [.gate]) (by decide) (by decide)
  rw [hu, hlast .key (by decide), hlast .toks (by decide), hlast .staging (by decide), ← hkey]
  exact ⟨hepoch, htoks, hstaging⟩

/-! ### A response behind commands not yet committed -/

theorem alarmFreeze_waits (hc : s.canStamp = true) (hne : s.gate.entries ≠ []) (h : CommandsOnly s.gate) :
    s.alarmFreeze = s.enterCfg .freeze := by
  have hrun := alarmRun_waits .freeze hne h
  rw [alarmFreeze_stamped ho hc (by rw [hrun, (State.enterCfg_law _ _).same .evt (by decide), ho]), hrun]

theorem zeroize_waits (hc : s.canStamp = true) (hne : s.gate.entries ≠ []) (h : CommandsOnly s.gate) :
    s.zeroize = (ramCleared s).enterCfg .zeroize :=
  (zeroize_stamped ho hc).trans (alarmRun_waits (s := ramCleared s) .zeroize hne h)

end Respond

/-- The entry of a configuration commit stands under the stamp that it drew. -/
theorem enterCfg_entered (s : State) (ev : SysEv) : ∃ e, (s.enterCfg ev).gate.entries.look s.gate.next = some e ∧ e.sys = some ev :=
  ⟨_, by rw [enterCfg_entries, Tbl.look_put], rfl⟩

theorem ramCleared_same (s : State) : Same [.key] s (ramCleared s) := by
  intro p hp
  cases p with
  | key => exact absurd (List.mem_singleton_self _) hp
  | _ => rfl

/-! ### The latch (R466) -/

/-- A glitch or a broken shield raises its alarm. -/
theorem alarm_raised {s u : State} {c : Instr} {k : Nat} (h : (∃ d st, c = .voltageGlitch d st ∧ k = 0 ∧ s.evt.glitchArmed = true ∧
      s.glitchSeen d ≠ 0 ∧ u = { s with evt := { s.evt with glitchStanding := st } }) ∨
    (∃ seg, c = .dieShieldCheck false seg ∧ k = 2 ∧ u = { s with evt := { s.evt with shieldBroken := true } })) :
    ∃ detail, exec c s = .next (u.alarm k detail) ∧ ∃ e, u = { s with evt := e } ∧ e.latch = s.evt.latch ∧ e.rsp = s.evt.rsp ∧
      e.owed = s.evt.owed := by
  rcases h with ⟨d, st, rfl, rfl, harmed, hseen, rfl⟩ | ⟨seg, rfl, rfl, rfl⟩
  · refine ⟨s.glitchSeen d, ?_, _, rfl, rfl, rfl, rfl⟩
    show execVoltageGlitch d st s = _
    simp only [execVoltageGlitch, harmed, hseen, Bool.not_true, Bool.false_eq_true, if_false]
  · exact ⟨seg % 64, rfl, _, rfl, rfl, rfl, rfl⟩

theorem latchClear_spec (s : State) (mask : Nat) : Same [.evt] s (s.latchClear mask) ∧ (∀ k, k < 4 →
      (s.latchClear mask).evt.latch.getLsbD k = (s.evt.latch.getLsbD k && !(mask.testBit k &&
        !(k == 0 && s.evt.glitchStanding || k == 2 && s.evt.shieldBroken)))) ∧
    (s.latchClear mask).evt.stuck = (s.evt.stuck || mask.testBit 0 && s.evt.latch.getLsbD 0 && s.evt.glitchStanding ||
      mask.testBit 2 && s.evt.latch.getLsbD 2 && s.evt.shieldBroken) := by
  rw [latchClear_eq]
  obtain ⟨hg0, hs0, hl0, ht0⟩ := clearOne_spec s.evt mask 0 (by decide)
  generalize clearOne s.evt mask 0 = e0 at *
  obtain ⟨hg1, hs1, hl1, ht1⟩ := clearOne_spec e0 mask 1 (by decide)
  generalize clearOne e0 mask 1 = e1 at *
  obtain ⟨hg2, hs2, hl2, ht2⟩ := clearOne_spec e1 mask 2 (by decide)
  generalize clearOne e1 mask 2 = e2 at *
  obtain ⟨hg3, hs3, hl3, ht3⟩ := clearOne_spec e2 mask 3 (by decide)
  refine ⟨evt_same s _, fun k hk => ?_, ?_⟩
  · show (clearOne e2 mask 3).latch.getLsbD k = _
    rw [hl3 k hk, hl2 k hk, hl1 k hk, hl0 k hk, hg2, hg1, hg0, hs2, hs1, hs0]
    match k, hk with
    | 0, _ | 1, _ | 2, _ | 3, _ => simp
  · show (clearOne e2 mask 3).stuck = _
    rw [ht3, ht2, ht1, ht0, hl1 2 (by decide), hl0 2 (by decide), hs1, hs0]
    simp

/-! ### The log and the latency counts (R243, R461) -/

theorem look_mapV {α : Type} (t : Tbl α) (f : Nat → α → α) (k : Nat) : (t.mapV f).look k = (t.look k).map (f k) := by
  induction t with
  | nil => rfl
  | cons p t ih =>
    obtain ⟨a, v⟩ := p
    simp only [Tbl.mapV, List.map_cons, Tbl.look]
    split
    · next h => rw [h]; rfl
    · exact ih

/-- A log wiped, SEQ carrying on. -/
def wiped (l : Log) : Log :=
  { l with slots := l.slots.mapV fun _ r => { r with valid := false }, next := 0, dropped := 0, clearing := true, held := [] }

theorem logWipe_eq {s : State} (h : s.log.clearing = false) : s.logWipe = { s with log := wiped s.log } := by
  rw [State.logWipe, h]
  rfl

/-- Settles O54: a source raises its alarm, whose response is owed, stamped or made at once as the gate allows. -/
theorem alarmsLogAndCountsAct : Obligations.AlarmsLogAndCountsAct := by
  intro s
  refine ⟨fun d st h => ?_, fun d st harmed hseen => ?_, fun c k u h => ?_, fun ho => ⟨fun hc => ?_, fun hc he => ?_, fun hc hne hcmds => ?_⟩,
    fun seg => rfl, fun mask => ?_, fun h => ?_, fun also => ?_, rfl⟩
  · show execVoltageGlitch d st s = _
    simp only [execVoltageGlitch, h, Bool.not_false, if_true]
  · show execVoltageGlitch d st s = _
    simp only [execVoltageGlitch, harmed, hseen, Bool.not_true, Bool.false_eq_true, if_false, if_true]
  · obtain ⟨detail, hexec, e, rfl, hlatch, hrsp, howed⟩ := alarm_raised h
    obtain ⟨v, hv⟩ := alarm_spec s _ k detail (evt_same s e) hlatch hrsp howed
    exact ⟨v, _, hexec, hv⟩
  · exact ⟨alarmFreeze_owed ho hc, zeroize_owed ho hc⟩
  · exact ⟨fun i hi hlive => alarmFreeze_freezes ho hc he hi hlive, zeroize_erases ho hc he⟩
  · rw [alarmFreeze_waits ho hc hne hcmds, zeroize_waits ho hc hne hcmds]
    exact ⟨Same.mono (State.enterCfg_law _ _).same (by decide),
      Same.seq (ramCleared_same s) (State.enterCfg_law _ _).same (by decide) (by decide),
      (State.enterCfg_law _ _).same .key (by decide), enterCfg_entered s _, enterCfg_entered (ramCleared s) _⟩
  · exact ⟨_, rfl, latchClear_spec s mask⟩
  · have hsame : Same [.log] s s.logWipe := (State.logWipe_law s).same
    rw [logWipe_eq h] at hsame
    exact ⟨_, congrArg Host.Outcome.next (logWipe_eq h), hsame, rfl, rfl, rfl, rfl, rfl, look_mapV s.log.slots fun _ r => { r with valid := false }⟩
  · cases also <;> rfl

end Sys2Proof.Proofs
end

section
/-! PROOFS. A member of the cascade: a snapshot whose buffer files an image under another zone's key (R335). -/

namespace Sys2Proof.Proofs

open Sys2Proof Sys2Proof.Machine Sys2Proof.Safety Sys2Proof.Laws

/-! ### The parts of a snapshot (R335)

A part of a snapshot files each image under the image's own key. The statement speaks of any state, so of a buffer too in which an image
stands under another key, which no frame builds: its last part then takes a zone that the buffer does not name. -/

/-- The image of a conventional zone without rows, as a frame carries it. -/
def bareImage (zk : Nat) : ZoneImg :=
  { key := zk, zs := 0, wp := 0, cap := 0, padded := false, owner := 0, base := 0, row := none, log := none, keys := [] }

/-- A member on a joined link whose snapshot buffer holds the image of zone 7 in the place of zone 5. -/
def strayImage : State :=
  { State.reset with cas := { ports := [(0, { phase := 5 })], snap := true, snapBuf := [(5, bareImage 7)] } }

/-- The next frame from the crown. -/
def nextFrame : Frame := { port := 0, fseq := 1, vc := 3, mseq := 1, len := 16, tagOk := true }

/-- The last part of a snapshot, which brings nothing more. -/
def emptyPart : SnapBody := { zones := [], toks := [], scan := [] }

theorem strayImage_frameTurn : FrameTurn strayImage nextFrame 5 where
  up := Nat.le_refl 5
  awake := rfl
  powered := Nat.zero_lt_succ 2
  tag := rfl
  turn := rfl

/-- The snapshot is taken with zone 7, which its buffer does not name. -/
theorem strayImage_taken : strayImage.cas.snapBuf.has 7 = false ∧
    (strayImage.after (exec (.snapshot nextFrame emptyPart 0 0 true) strayImage)).zones.has 7 = true := by decide

/-- Refutes O46: a buffer that files an image under another zone's key leaves a zone that the buffer does not name. -/
theorem not_membersFollowTheCrown : ¬ Obligations.MembersFollowTheCrown := by
  unfold Obligations.MembersFollowTheCrown
  intro h
  obtain ⟨-, -, -, hsnapshot, -⟩ := h strayImage nextFrame rfl rfl strayImage_frameTurn
  obtain ⟨-, hlast⟩ := hsnapshot emptyPart 0 0
  obtain ⟨t, ht, -, -, -, -, -, hzones⟩ := hlast nofun
  obtain ⟨hunnamed, htaken⟩ := strayImage_taken
  rw [ht, show (strayImage.after (.next t)).zones.has 7 = false from hzones 7 hunnamed] at htaken
  cases htaken

end Sys2Proof.Proofs
end

section
/-! PROOFS. Swath channels: the halt at a bus error, the fields it latches, and the thaw (R254 to R256, R258, R271). -/

namespace Sys2Proof.Proofs

open Sys2Proof Sys2Proof.Machine Sys2Proof.Safety Sys2Proof.Laws

/-! ### What leaves the channels alone

Ending a command may put a fence into the DMA part (R260): the laws list that part, so the channels within it are followed here. -/

/-- The channels are as they were. -/
def SameChans (s t : State) : Prop := t.dma.chans = s.dma.chans

theorem SameChans.refl (s : State) : SameChans s s := rfl

theorem SameChans.trans {s t u : State} (h : SameChans s t) (g : SameChans t u) : SameChans s u := Eq.trans g h

theorem SameChans.ite {s t u : State} {c : Prop} [Decidable c] (h : SameChans s t) (g : SameChans s u) :
    SameChans s (if c then t else u) := by
  split
  · exact h
  · exact g

theorem SameChans.of_law {r : List Piece} {s t : State} (h : Law r s t) (hr : .dma ∉ r) : SameChans s t :=
  congrArg Dma.chans (h.same .dma hr)

theorem SameChans.foldl {α : Type} {f : State → α → State} (hf : ∀ s a, SameChans s (f s a)) (l : List α) (s : State) :
    SameChans s (l.foldl f s) := by
  induction l generalizing s with
  | nil => exact SameChans.refl s
  | cons a l ih => exact (hf s a).trans (ih (f s a))

/-- A row of accumulators that is spilled adds a fence. -/
theorem accTouch_chans (s : State) (zk row lim : Nat) : SameChans s (s.accTouch zk row lim) := by
  unfold State.accTouch
  dsimp only
  split <;> exact SameChans.refl s

theorem foldUnit_chans (s : State) (zk row slot k v : Nat) : SameChans s (s.foldUnit zk row slot k v) :=
  accTouch_chans s zk row accRows

theorem foldStaged_chans (s : State) (st : Staged) (j : Nat) : SameChans s (s.foldStaged st j) := by
  unfold State.foldStaged
  dsimp only
  split
  · refine SameChans.ite (SameChans.refl s) (SameChans.trans ?_ (foldUnit_chans _ _ _ _ _ _))
    exact SameChans.of_law (State.flits_law s _ _ _) (by decide)
  · exact SameChans.refl s

/-- A row that is started adds a fence. -/
theorem rowStart_chans (s : State) (zk tag row : Nat) : SameChans s (s.rowStart zk tag row) := by
  unfold State.rowStart
  split
  · exact SameChans.refl s
  · refine SameChans.ite (SameChans.refl s) ?_
    dsimp only
    refine SameChans.trans ?_ (SameChans.foldl (fun u x => ?_) _ _)
    · exact SameChans.refl s
    · exact SameChans.ite (SameChans.refl u) (SameChans.of_law (State.opQueue_law u _) (by decide))

theorem rowsStart_chans (s : State) (zk tag upto : Nat) : SameChans s (s.rowsStart zk tag upto) := by
  unfold State.rowsStart
  split
  · exact SameChans.refl s
  · exact SameChans.foldl (fun u r => SameChans.ite (SameChans.refl u) (rowStart_chans u zk tag r)) _ s

/-! ### A command that ends (R122, R255) -/

/-- What a write that is withdrawn gives back, its units taken out of their rows: the charges of its stamp and its buffers (R122). -/
theorem chargesBack_law (s : State) (c : Prop) [Decidable c] (o gen n back dirty stamp : Nat) (st : Staged) (f : Tok → Bool) :
    Law [.out, .ctxs, .slices, .gate, .staging, .toks, .bpm, .key, .evt, .log] s
      ((((((if c then s.keyUnref o gen n else s).quotaSub o back).dirtySub dirty).tokRemove o f).unstage st stamp).altsUndo stamp) := by
  refine Law.next ?_ (State.altsUndo_law _ stamp) rfl
  refine Law.next ?_ (State.unstage_law _ st stamp) rfl
  refine Law.next ?_ (State.tokRemove_law _ o f) rfl
  refine Law.next ?_ (State.dirtySub_law _ dirty) rfl
  refine Law.next ?_ (State.quotaSub_law _ o back) rfl
  exact Law.ite (Law.next (Law.refl s) (State.keyUnref_law s o gen n) rfl) (Law.refl s)

/-- The units of a withdrawn write leave the accumulators, and their rows are no longer full (R122, R206). -/
theorem unitsBack_chans (s : State) (st : Staged) (rows : List Nat) (f : Zone → Zone) :
    SameChans s (((st.data.foldl (fun s p => s.foldStaged st p.1) s).rowsCut st.zone rows).zoneEdit st.zone f) := by
  refine SameChans.trans (t := (st.data.foldl (fun s p => s.foldStaged st p.1) s).rowsCut st.zone rows) ?_ (SameChans.refl _)
  refine SameChans.trans ?_ (SameChans.of_law (State.rowsCut_law _ st.zone rows) (by decide))
  exact SameChans.foldl (fun u p => foldStaged_chans u st p.1) st.data s

theorem withdraw_chans (s : State) (stamp : Nat) : SameChans s (s.withdraw stamp) := by
  unfold State.withdraw
  split
  · exact SameChans.refl s
  · next st _ =>
    dsimp only
    refine SameChans.ite (SameChans.trans ?_ (rowsStart_chans _ _ _ _)) ?_
    all_goals
      exact (SameChans.ite (SameChans.refl s) (unitsBack_chans s st _ _)).trans
        (SameChans.of_law (chargesBack_law _ _ _ _ _ _ _ stamp st _) (by decide))

/-- A command that failed is complete with its status. -/
theorem failed_chans (s : State) (c : Nat) (st : Status) :
    SameChans s ((s.ctxEdit c fun x => { x with failed := true }).finish c st) :=
  SameChans.trans (t := s.ctxEdit c fun x => { x with failed := true }) (SameChans.refl s)
    (SameChans.of_law (State.finish_law _ c st 0 0 0) (by decide))

theorem failWrite_chans (s : State) (c : Nat) (st : Status) : SameChans s (s.failWrite c st) := by
  unfold State.failWrite
  split
  · exact SameChans.refl s
  · refine SameChans.trans (SameChans.ite (withdraw_chans s _) ?_) (failed_chans _ c st)
    exact SameChans.of_law (State.cancelWrite_law s _) (by decide)

theorem cmdEnd_chans (s : State) (c : Nat) (st : Status) : SameChans s (s.cmdEnd c st) := by
  unfold State.cmdEnd
  split
  · exact SameChans.refl s
  · next x _ =>
    have hdrop : SameChans s (if x.committed then s else s.entryDrop c) := SameChans.ite (SameChans.refl s) (SameChans.refl s)
    refine SameChans.ite (SameChans.refl s) (SameChans.ite (hdrop.trans (failWrite_chans _ c st)) (hdrop.trans ?_))
    refine SameChans.trans (SameChans.ite ?_ ?_) (failed_chans _ c st)
    · exact SameChans.of_law (State.readStop_law _ c) (by decide)
    · exact SameChans.of_law (State.rdReturn_law _ c) (by decide)

/-! ### Bus errors (R254 to R256) -/

/-- The notice, the event and the transfers that wait leave the channels as the error left them. -/
theorem busHalt_chans (s : State) (b : BusErr) : SameChans (s.chanEdit (qOwner b.q) fun k => k.fail b) (s.busHalt b) := by
  unfold State.busHalt
  dsimp only
  split
  · exact SameChans.refl _
  · refine SameChans.ite ?_ (SameChans.trans ?_ (SameChans.of_law (State.fire_law _ _ _ _ _ _) (by decide)))
    · refine SameChans.trans ?_ (SameChans.of_law (State.fire_law _ _ _ _ _ _) (by decide))
      refine SameChans.trans ?_ (SameChans.of_law (State.notice_law _ _ _ _ _) (by decide))
      exact SameChans.refl _
    · exact SameChans.refl _

/-- The error that a request of a command meets. -/
def requestErr (x : Ctx) (cause : Nat) (src : BusSource) (addr : Word) (unit : Nat) : BusErr where
  q := x.q
  cid := x.e.cid
  toDevice := x.readsHost
  cause := cause
  source := busSourceCode src
  desc := 0
  addr := addr
  unit := min 511 unit

/-- An error that a request of a command on its channel can meet reaches the channel of the command's owner, and no other. -/
theorem busEvent_chans {s : State} {c : Nat} {x : Ctx} {src : BusSource} (hx : s.ctxs.look c = some x) (hon : x.onChannel = true)
    (hsrc : src ≠ .fetch) (hdata : src = .data ∨ src = .metadata → x.readsHost = true) (q cause : Nat) (addr : Word) (unit : Nat) :
    (s.busEvent q c cause src addr unit).dma.chans =
      s.dma.chans.put (qOwner x.q) ((s.dma.chans.get (qOwner x.q) {}).fail (requestErr x cause src addr unit)) := by
  have hmeets : (!x.onChannel || ((src == .data || src == .metadata) && !x.readsHost)) = false := by
    simp only [hon, Bool.not_true, Bool.false_or, Bool.and_eq_false_imp, Bool.or_eq_true, beq_iff_eq, Bool.not_eq_false']
    exact hdata
  have hevent : s.busEvent q c cause src addr unit = s.busFail c (requestErr x cause src addr unit) := by
    unfold State.busEvent
    simp only [hsrc, hx, hmeets, Bool.false_eq_true, if_false]
    rfl
  rw [hevent]
  exact (busHalt_chans s _).trans (cmdEnd_chans _ c stDmaHalted)

theorem exec_busError (q c : Nat) (cause : BusCause) (src : BusSource) (addr : Word) (unit : Nat) (s : State) :
    exec (.busError q c cause src addr unit) s = .next (s.busEvent q c (busCauseCode cause) src addr unit) := rfl

theorem exec_dmaCompletionTimeout (q c : Nat) (src : BusSource) (addr : Word) (unit : Nat) (s : State) :
    exec (.dmaCompletionTimeout q c src addr unit) s = .next (s.busEvent q c 3 src addr unit) := rfl

/-- The first error halts the channel and is latched. -/
theorem fail_running {k : Chan} (h : k.halted = false) (b : BusErr) :
    k.fail b = { k with
      halted := true, multi := false, dir := b.toDevice, cause := b.cause, source := b.source, desc := b.desc
      faults := satAdd 0xffff k.faults 1, cid := b.cid, qid := qIndex b.q, addr := b.addr, unit := b.unit } := by
  rw [Chan.fail, h, if_neg (by decide)]

/-- A later error counts, and one of another command sets MULTI. -/
theorem fail_halted {k : Chan} (h : k.halted = true) (b : BusErr) :
    k.fail b = { k with faults := satAdd 0xffff k.faults 1, multi := k.multi || decide (k.cid ≠ b.cid ∨ k.qid ≠ qIndex b.q) } := by
  rw [Chan.fail, if_pos h]

/-! ### The thaw (R258) -/

/-- A halted channel runs again with its latched fields, and its transfers that waited resume. -/
theorem thaw_halted {s : State} {i : Nat} (h : s.chanHalted i = true) :
    (s.thaw i).dma.chans = s.dma.chans.put i { s.dma.chans.get i {} with
      halted := false, multi := false, faults := 0, thaws := satAdd 0xffffffff (s.dma.chans.get i {}).thaws 1 } ∧
    (s.thaw i).ctxs = s.ctxs.mapV fun _ y => if qOwner y.q = i then { y with paused := false } else y := by
  rw [State.thaw, if_pos h]
  exact ⟨rfl, rfl⟩

theorem thaw_running {s : State} {i : Nat} (h : s.chanHalted i = false) : s.thaw i = s := by
  rw [State.thaw, h, if_neg (by decide)]

theorem exec_dmaThaw (i : Nat) (s : State) : exec (.dmaThaw i) s = .next (if i ≤ 1024 then s.thaw i else s) := rfl

theorem exec_slcDmaThaw {s : State} {i : Nat} {p : Option Nat} (h : s.pageOk i p = true) :
    exec (.slcDmaThaw i p) s = .next (s.thaw i) :=
  congrArg Host.Outcome.next (tenantWrite_acts h _ _)

/-- Settles O33: a request's error reaches its own channel, which latches the first and counts the others until a thaw. -/
theorem channelsHaltAndThaw : Obligations.ChannelsHaltAndThaw := by
  intro s q c x cause src addr unit o k meets
  have hchans : meets → ∀ code, (s.busEvent q c code src addr unit).dma.chans =
      s.dma.chans.put o (k.fail (requestErr x code src addr unit)) := fun ⟨hx, hon, hsrc, hdata⟩ code =>
    busEvent_chans hx hon hsrc hdata q code addr unit
  refine ⟨fun hm hk => ?_, fun hm hk => ?_, fun i pasid hi => ?_, fun i hi => ?_⟩
  · have hlatched := fun code => (hchans hm code).trans (congrArg (s.dma.chans.put o) (fail_running hk _))
    exact ⟨⟨_, exec_busError .., hlatched (busCauseCode cause)⟩, _, exec_dmaCompletionTimeout .., hlatched 3⟩
  · exact ⟨_, exec_busError .., (hchans hm _).trans (congrArg (s.dma.chans.put o) (fail_halted hk _))⟩
  · have hthawed := And.intro (State.thaw_law s i).same (thaw_halted hi)
    exact ⟨fun hle => ⟨_, (exec_dmaThaw i s).trans (congrArg _ (if_pos hle)), hthawed⟩, fun hp => ⟨_, exec_slcDmaThaw hp, hthawed⟩⟩
  · rw [exec_dmaThaw, thaw_running hi, ite_self]

end Sys2Proof.Proofs
end

section
/-! PROOFS. Errors of the memories: how they are counted and latched, what each region answers, and the memory-fatal stop (R284 to
R294, R298, R299). -/

namespace Sys2Proof.Proofs

open Sys2Proof Sys2Proof.Machine Sys2Proof.Safety Sys2Proof.Laws

theorem same_of_ecc (s : State) (e : Ecc) : Same [.ecc] s { s with ecc := e } := (Laws.Law.mk (Law.refl s)).same

theorem same_of_drc (s : State) (d : Drc) : Same [.drc] s { s with drc := d } := (Laws.Law.mk (Law.refl s)).same

/-! ### The memory-fatal stop (R293) -/

/-- The save that follows the stop leaves CSTS.CFS set. -/
theorem memFatal_cfs {s : State} (h : s.brm.st < 3) : s.memFatal.nvme.cfs = true := by
  rw [State.memFatal, if_neg (Nat.not_le.mpr h), (State.saveNow_law _ 4).same .nvme (by decide),
    (State.fire_law _ 0 [] 0 0x7ff none).same .nvme (by decide)]

/-- The error counters outlast the stop. -/
theorem memFatal_ecc (s : State) : s.memFatal.ecc = s.ecc := (State.memFatal_law s).same .ecc (by decide)

theorem memFatal_upd (s : State) : s.memFatal.upd = s.upd := (State.memFatal_law s).same .upd (by decide)

/-! ### A channel halted by a memory (R289, R290) -/

theorem fail_halts (k : Chan) (b : BusErr) : (k.fail b).halted = true := by
  cases h : k.halted
  · rw [fail_running h]
  · rw [fail_halted h, h]

/-- The channel of the command's owner, and no other, takes the error. -/
theorem haltFour_chans {s : State} {c : Nat} {x : Ctx} (h : s.ctxs.look c = some x) (u : Nat) :
    ∃ b : BusErr, b.cause = 4 ∧
      (s.haltFour c u).dma.chans = s.dma.chans.put (qOwner x.q) ((s.dma.chans.get (qOwner x.q) {}).fail b) := by
  rw [State.haltFour, h]
  exact ⟨_, rfl, (busHalt_chans s _).trans (cmdEnd_chans _ c stDmaHalted)⟩

/-- The owner's channel is halted, and one that ran until then has CAUSE 4. -/
theorem haltFour_halts {s : State} {c : Nat} {x : Ctx} (h : s.ctxs.look c = some x) (u : Nat) :
    ((s.haltFour c u).dma.chans.get (qOwner x.q) {}).halted = true ∧
      ((s.dma.chans.get (qOwner x.q) {}).halted = false → ((s.haltFour c u).dma.chans.get (qOwner x.q) {}).cause = 4) := by
  obtain ⟨b, hcause, hchans⟩ := haltFour_chans h u
  rw [hchans, Tbl.get_put]
  exact ⟨fail_halts _ b, fun hrun => by rw [fail_running hrun]; exact hcause⟩

/-! ### What a running pass of the scrubber notes (R297) -/

theorem scrubUe_ecc (s : State) (dram : Bool) (port addr region : Nat) (fault : Bool) (resp : Nat) :
    ∃ m, (s.scrubUe dram port addr region fault resp).ecc = { s.ecc with scrubSum := m } := by
  unfold State.scrubUe
  split
  · exact ⟨_, rfl⟩
  · exact ⟨_, rfl⟩

theorem scrubUe_of_not_scrubs {s : State} {dram : Bool} {port addr : Nat} (h : s.scrubs dram port addr = false) (region : Nat)
    (fault : Bool) (resp : Nat) : s.scrubUe dram port addr region fault resp = s := by
  rw [State.scrubUe, h]
  rfl

/-! ### What an SRAM region answers (R289) -/

theorem sramResponse_cutThrough (s : State) (word c : Nat) (ok repair : Bool) :
    (s.sramResponse 1 word c ok repair).2 = s.unitAgain c := rfl

theorem sramResponse_swath (s : State) (word c : Nat) (ok repair : Bool) :
    (s.sramResponse 6 word c ok repair).2 = s.haltFour c 0 := rfl

/-- A region whose words are repaired from elsewhere. -/
def Repairable (region : Nat) : Prop := region = 2 ∨ region = 3 ∨ region = 4

/-- A region whose words stand twice (R285). -/
def Duplicated (region : Nat) : Prop := region = 5 ∨ region = 7 ∨ region = 8

theorem sramResponse_repair {region : Nat} (h : Repairable region) (s : State) (word c : Nat) (ok repair : Bool) :
    (s.sramResponse region word c ok repair).2 = if repair then s else s.memFatal := by
  obtain rfl | rfl | rfl := h <;> cases repair <;> rfl

theorem sramResponse_copy {region : Nat} (h : Duplicated region) (s : State) (word c : Nat) (ok repair : Bool) :
    (s.sramResponse region word c ok repair).2 =
      if ok then { s with ecc := { s.ecc with dupFail := satAdd 0xffff s.ecc.dupFail 1 } } else s.memFatal := by
  obtain rfl | rfl | rfl := h <;> cases ok <;> rfl

/-- Of the error counters an answer changes DUP_FAIL alone. -/
theorem sramResponse_ecc (s : State) (region word c : Nat) (ok repair : Bool) :
    ∃ n, (s.sramResponse region word c ok repair).2.ecc = { s.ecc with dupFail := n } := by
  unfold State.sramResponse
  split
  · exact ⟨_, (State.cmdEnd_law s c stInternal).same .ecc (by decide)⟩
  split
  · exact ⟨_, (State.unitAgain_law s c).same .ecc (by decide)⟩
  split
  · cases ok
    · exact ⟨_, memFatal_ecc s⟩
    · exact ⟨_, rfl⟩
  split
  · exact ⟨_, (State.haltFour_law s c 0).same .ecc (by decide)⟩
  split
  · exact ⟨_, rfl⟩
  split
  · exact ⟨_, rfl⟩
  split
  · exact ⟨_, memFatal_ecc s⟩
  · exact ⟨_, rfl⟩

/-! ### An uncorrectable SRAM word (R284, R285, R289, R294) -/

section SramWord
variable (s : State) (port w c other : Nat) (repair : Bool)

/-- The state in which the region of an uncorrectable word has made its answer, the word being counted. -/
def sramAnswered : State :=
  ((s.sramCount (sramRegion (w * 8)) port w).sramResponse (sramRegion (w * 8)) w c (copyUse other).isSome repair).2

/-- After the answer the damaged copy is rewritten, a running pass notes the word, and the record is made. -/
theorem sramUe_after_answer : Same (Piece.withEvent [.ecc]) (sramAnswered s port w c other repair) (s.sramUe port w c other repair) :=
  Same.seq (Same.seq (State.copyRewrite_law _ _ w other).same (State.scrubUe_law _ false port (w * 8) _ false _).same
    (w := [.out, .ecc]) (by decide) (by decide)) (State.ueRecord_law _ 0 1 _ port (w * 8) _).same (by decide) (by decide)

theorem sramUe_ecc : ∃ m, (s.sramUe port w c other repair).ecc = { (sramAnswered s port w c other repair).ecc with scrubSum := m } := by
  obtain ⟨m, hm⟩ := scrubUe_ecc ((sramAnswered s port w c other repair).copyRewrite (sramRegion (w * 8)) w other) false port (w * 8)
    (sramRegion (w * 8)) false
    ((s.sramCount (sramRegion (w * 8)) port w).sramResponse (sramRegion (w * 8)) w c (copyUse other).isSome repair).1
  rw [(State.copyRewrite_law _ _ w other).same .ecc (by decide)] at hm
  exact ⟨m, ((State.ueRecord_law _ 0 1 _ port (w * 8) _).same .ecc (by decide)).trans hm⟩

/-- The word is counted, and the first since the last clear is latched. -/
theorem sramUe_counts : (s.sramUe port w c other repair).ecc.ueCnt = satAdd 0xffff s.ecc.ueCnt 1 ∧
    (s.sramUe port w c other repair).ecc.ueAddr = eccLatch s.ecc.ueAddr (sramRegion (w * 8)) port w := by
  obtain ⟨m, hm⟩ := sramUe_ecc s port w c other repair
  obtain ⟨n, hn⟩ := sramResponse_ecc (s.sramCount (sramRegion (w * 8)) port w) (sramRegion (w * 8)) w c (copyUse other).isSome repair
  rw [hm, sramAnswered, hn]
  exact ⟨rfl, rfl⟩

variable {s port w c other repair}

theorem sramUe_cutThrough (h : sramRegion (w * 8) = 1) :
    Same [.out, .ctxs, .dma, .ecc, .evt, .log] s (s.sramUe port w c other repair) := by
  have hafter := sramUe_after_answer s port w c other repair
  rw [sramAnswered, h, sramResponse_cutThrough] at hafter
  exact Same.seq (Same.seq (State.sramCount_law s 1 port w).same (State.unitAgain_law _ c).same (w := [.ctxs, .dma, .ecc])
    (by decide) (by decide)) hafter (by decide) (by decide)

theorem sramUe_repaired (h : Repairable (sramRegion (w * 8))) :
    Same (Piece.withEvent [.ecc]) s (s.sramUe port w c other true) := by
  have hafter := sramUe_after_answer s port w c other true
  rw [sramAnswered, sramResponse_repair h, if_pos rfl] at hafter
  exact Same.seq (State.sramCount_law s _ port w).same hafter (by decide) (by decide)

theorem sramUe_copied (h : Duplicated (sramRegion (w * 8))) (ho : (copyUse other).isSome = true) :
    Same (Piece.withEvent [.ecc]) s (s.sramUe port w c other repair) ∧
      (s.sramUe port w c other repair).ecc.dupFail = satAdd 0xffff s.ecc.dupFail 1 := by
  have hafter := sramUe_after_answer s port w c other repair
  obtain ⟨m, hm⟩ := sramUe_ecc s port w c other repair
  have hcount : Same [.ecc] s (s.sramCount (sramRegion (w * 8)) port w) := (State.sramCount_law s _ port w).same
  rw [sramAnswered, sramResponse_copy h, ho, if_pos rfl] at hafter hm
  rw [hm]
  exact ⟨Same.seq (Same.seq hcount (same_of_ecc _ _) (w := [.ecc]) (by decide) (by decide)) hafter (by decide) (by decide), rfl⟩

theorem sramUe_swath {x : Ctx} (h : sramRegion (w * 8) = 6) (hx : s.ctxs.look c = some x) :
    ((s.sramUe port w c other repair).dma.chans.get (qOwner x.q) {}).halted = true ∧
      ((s.dma.chans.get (qOwner x.q) {}).halted = false →
        ((s.sramUe port w c other repair).dma.chans.get (qOwner x.q) {}).cause = 4) := by
  rw [sramUe_after_answer s port w c other repair .dma (by decide), sramAnswered, h, sramResponse_swath]
  exact haltFour_halts (s := s.sramCount 6 port w) hx 0

/-- Neither a repair nor a copy is left: the chip stops (R293). -/
theorem sramUe_fatal (h : Repairable (sramRegion (w * 8)) ∧ repair = false ∨ Duplicated (sramRegion (w * 8)) ∧ copyUse other = none)
    (hs : s.brm.st < 3) : (s.sramUe port w c other repair).nvme.cfs = true := by
  have hfatal : sramAnswered s port w c other repair = (s.sramCount (sramRegion (w * 8)) port w).memFatal := by
    obtain ⟨hr, rfl⟩ | ⟨hd, ho⟩ := h
    · rw [sramAnswered, sramResponse_repair hr]
      rfl
    · rw [sramAnswered, sramResponse_copy hd, ho]
      rfl
  rw [sramUe_after_answer s port w c other repair .nvme (by decide), hfatal]
  exact memFatal_cfs hs

end SramWord

theorem exec_sramUncorrectable {port w : Nat} (hw : w * 8 < sramSize) (hport : port ≤ 24) (c raw other : Nat) (repair : Bool) (s : State) :
    exec (.sramUncorrectable port w c raw other repair) s =
      .next (if secdedDecode raw = .uncorrectable then s.sramUe port w c other repair else s) := by
  show execSramUncorrectable port w c raw other repair s = _
  unfold execSramUncorrectable
  simp only [Nat.not_le.mpr hw, Nat.not_lt.mpr hport, false_or, ne_eq, ite_not]
  split <;> rfl

/-! ### Microcode traps (R291) -/

/-- The reload failed, or the block had trapped within the last second. -/
def trapFatal (s : State) (b : Nat) (verify again : Bool) : Bool :=
  !verify || again && decide (s.ecc.trapBlock = b) && s.ecc.trapCnt != 0

/-- A trap is an uncorrectable word of region 3 that a sequencer's fetch met. -/
def trapCounted (s : State) (b : Nat) : State :=
  let u := s.sramCount 3 24 (b * 512)
  { u with ecc := { u.ecc with trapBlock := b, trapCnt := satAdd 0xffff u.ecc.trapCnt 1 } }

/-- The trap with its event and its record. -/
def trapRecorded (s : State) (b : Nat) (fatal : Bool) : State :=
  ((trapCounted s b).fire 8 [(trapCounted s b).ecc.trapReg]).ueRecord 0 1 3 24 (b * 4096) (if fatal then 6 else 2)

theorem exec_microcodeTrap {b : Nat} (hlo : 0x3800 ≤ b) (hhi : b < 0x4000) (verify again : Bool) (s : State) :
    exec (.microcodeTrap b verify again) s = .next (if trapFatal s b verify again then (trapRecorded s b true).memFatal
      else trapRecorded s b false) := by
  show execMicrocodeTrap b verify again s = _
  unfold execMicrocodeTrap
  rw [if_neg (by omega)]
  cases hfatal : trapFatal s b verify again
  all_goals
    unfold trapFatal at hfatal
    simp only [hfatal, Bool.false_eq_true, if_false, if_true, trapRecorded]
    rfl

theorem trapFatal_eq_true {s : State} {b : Nat} {verify again : Bool} :
    trapFatal s b verify again = true ↔ verify = false ∨ again = true ∧ s.ecc.trapBlock = b ∧ s.ecc.trapCnt ≠ 0 := by
  simp [trapFatal, and_assoc]

theorem trapRecorded_after_count (s : State) (b : Nat) (fatal : Bool) : Same Piece.event (trapCounted s b) (trapRecorded s b fatal) :=
  Same.seq (State.fire_law _ 8 _ 0 0x7ff none).same (State.ueRecord_law _ 0 1 3 24 _ _).same (by decide) (by decide)

theorem trapCounted_same (s : State) (b : Nat) : Same [.ecc] s (trapCounted s b) :=
  Same.seq (State.sramCount_law s 3 24 (b * 512)).same (same_of_ecc _ _) (by decide) (by decide)

theorem trapRecorded_same (s : State) (b : Nat) (fatal : Bool) : Same (Piece.withEvent [.ecc]) s (trapRecorded s b fatal) :=
  Same.seq (trapCounted_same s b) (trapRecorded_after_count s b fatal) (by decide) (by decide)

theorem trapRecorded_ecc (s : State) (b : Nat) (fatal : Bool) : (trapRecorded s b fatal).ecc = (trapCounted s b).ecc :=
  trapRecorded_after_count s b fatal .ecc (by decide)

/-- A trap is counted as a word of its region is, and ECC_TRAP names its block, whether or not the chip then stops. -/
theorem microcodeTrap_counts {s t : State} {b : Nat} (h : t.ecc = (trapCounted s b).ecc) :
    t.ecc.trapCnt = satAdd 0xffff s.ecc.trapCnt 1 ∧ t.ecc.trapBlock = b ∧ t.ecc.ueCnt = satAdd 0xffff s.ecc.ueCnt 1 := by
  rw [h]
  exact ⟨rfl, rfl, rfl⟩

theorem microcodeTrap_reloads {b : Nat} (hlo : 0x3800 ≤ b) (hhi : b < 0x4000) {verify again : Bool} {s : State}
    (h : trapFatal s b verify again = false) :
    exec (.microcodeTrap b verify again) s = .next (trapRecorded s b false) := by
  rw [exec_microcodeTrap hlo hhi, h, if_neg (by decide)]

theorem microcodeTrap_stops {b : Nat} (hlo : 0x3800 ≤ b) (hhi : b < 0x4000) {verify again : Bool} {s : State}
    (h : trapFatal s b verify again = true) :
    exec (.microcodeTrap b verify again) s = .next (trapRecorded s b true).memFatal := by
  rw [exec_microcodeTrap hlo hhi, h, if_pos rfl]

/-- Settles O41: the counts precede the answer and outlast it; what the answer is, the word's region says. -/
theorem sramErrorsAreAnswered : Obligations.SramErrorsAreAnswered := by
  intro s w port c raw other repair hw hport region
  refine ⟨fun hraw => ?_, fun hraw => ?_, fun b verify again hlo hhi => ?_⟩
  · obtain ⟨hcount, hlatch⟩ := sramUe_counts s port w c other repair
    refine ⟨_, (exec_sramUncorrectable hw hport c raw other repair s).trans (congrArg _ (if_pos hraw)), hcount, hlatch,
      sramUe_cutThrough, ?_, sramUe_copied, fun x => sramUe_swath, sramUe_fatal⟩
    rintro hrep rfl
    exact sramUe_repaired hrep
  · exact (exec_sramUncorrectable hw hport c raw other repair s).trans (congrArg _ (if_neg hraw))
  · cases hfatal : trapFatal s b verify again
    · obtain ⟨htraps, hblock, hcount⟩ := microcodeTrap_counts (trapRecorded_ecc s b false)
      refine ⟨_, microcodeTrap_reloads hlo hhi hfatal, htraps, hblock, hcount, fun _ _ => trapRecorded_same s b false, fun h => ?_⟩
      rw [trapFatal_eq_true.mpr h] at hfatal
      cases hfatal
    · obtain ⟨htraps, hblock, hcount⟩ := microcodeTrap_counts ((memFatal_ecc _).trans (trapRecorded_ecc s b true))
      refine ⟨_, microcodeTrap_stops hlo hhi hfatal, htraps, hblock, hcount, fun hv ha => ?_, fun _ hs => memFatal_cfs ?_⟩
      · subst hv ha
        cases hfatal
      · rw [trapRecorded_same s b true .brm (by decide)]
        exact hs

end Sys2Proof.Proofs
end

section
/-! PROOFS. Errors of the DRAM, command errors and corrected errors (R284, R286 to R288, R290, R292, R294, R298). -/

namespace Sys2Proof.Proofs

open Sys2Proof Sys2Proof.Machine Sys2Proof.Safety Sys2Proof.Laws

/-! ### What a DRAM region answers (R290) -/

theorem dramResponse_unrepaired (s : State) (region port c u : Nat) (rebuilt : Bool) :
    (s.dramResponse region port c u rebuilt false).2 = s.memFatal := rfl

/-- A region whose owner makes good what a burst held: regions 0, 1 and 3, and the write buffers where parity rebuilds it. -/
def Recovered (region : Nat) (rebuilt : Bool) : Prop := region = 0 ∨ region = 1 ∨ region = 3 ∨ region = 4 ∧ rebuilt = true

theorem dramResponse_recovered {region : Nat} {rebuilt : Bool} (h : Recovered region rebuilt) (s : State) (port c u : Nat) :
    (s.dramResponse region port c u rebuilt true).2 = s := by
  obtain rfl | rfl | rfl | ⟨rfl, rfl⟩ := h <;> rfl

theorem dramResponse_freeStore (s : State) (port c u : Nat) (rebuilt : Bool) :
    (s.dramResponse 2 port c u rebuilt true).2 = s.storeDrop.2 := rfl

theorem dramResponse_bufferHit {port : Nat} (h : port ≤ 1) (s : State) (c u : Nat) :
    (s.dramResponse 4 port c u false true).2 = s.haltFour c u :=
  congrArg Prod.snd (if_pos h)

theorem dramResponse_staged {port : Nat} (h : 1 < port) (s : State) (c u : Nat) :
    (s.dramResponse 4 port c u false true).2 = s.stagedLose c u :=
  congrArg Prod.snd (if_neg (Nat.not_le.mpr h))

theorem storeDrop_drops {s : State} (h : s.bpm.sysStgLost + 16 ≤ (1024 - 256) * 64) : s.storeDrop.2 =
    { s with bpm := { s.bpm with sysStgLost := s.bpm.sysStgLost + 16, dramTotal := s.bpm.dramTotal - 16 } } :=
  congrArg Prod.snd (if_neg (Nat.not_lt.mpr h))

theorem storeDrop_stops {s : State} (h : (1024 - 256) * 64 < s.bpm.sysStgLost + 16) : s.storeDrop.2 = s.memFatal :=
  congrArg Prod.snd (if_pos h)

/-! ### A burst that cannot be used (R286, R287, R290, R292, R294, R298) -/

section Burst
variable (s : State) (a port : Nat) (k : DramKind) (c u : Nat) (rebuilt repair : Bool)

/-- The state in which the region of a burst has made its answer, the burst being counted. -/
def dramAnswered : State := ((s.dramCount (dramKind k) port a).dramResponse (dramRegion a) port c u rebuilt repair).2

/-- After the answer a running pass notes the burst, and the record is made. -/
theorem dramUe_after_answer : Same (Piece.withEvent [.ecc]) (dramAnswered s a port k c u rebuilt repair)
    (s.dramUe a port k c u rebuilt repair) :=
  Same.seq (State.scrubUe_law _ true port a _ _ _).same (State.ueRecord_law _ 1 _ _ port a _).same (by decide) (by decide)

/-- No answer changes the counts. -/
theorem dramUe_drc : (s.dramUe a port k c u rebuilt repair).drc = (s.dramCount (dramKind k) port a).drc :=
  (dramUe_after_answer s a port k c u rebuilt repair .drc (by decide)).trans
    ((State.dramResponse_law _ (dramRegion a) port c u rebuilt repair).same .drc (by decide))

variable {s a port k c u rebuilt repair}

theorem dramUe_recovered (h : Recovered (dramRegion a) rebuilt) :
    Same (Piece.withEvent [.drc, .ecc]) s (s.dramUe a port k c u rebuilt true) := by
  have hafter := dramUe_after_answer s a port k c u rebuilt true
  rw [dramAnswered, dramResponse_recovered h] at hafter
  exact Same.seq (State.dramCount_law s _ port a).same hafter (by decide) (by decide)

/-- Away from a running pass nothing is noted. -/
theorem dramUe_recovered_unnoted (h : Recovered (dramRegion a) rebuilt) (hs : s.scrubs true port a = false) :
    Same (Piece.withEvent [.drc]) s (s.dramUe a port k c u rebuilt true) := by
  have hanswer : dramAnswered s a port k c u rebuilt true = s.dramCount (dramKind k) port a := dramResponse_recovered h _ port c u
  have hnote : (dramAnswered s a port k c u rebuilt true).scrubs true port a = false := by rw [hanswer]; exact hs
  have hrecord : Same Piece.event (dramAnswered s a port k c u rebuilt true) (s.dramUe a port k c u rebuilt true) := by
    unfold State.dramUe
    dsimp only
    rw [show (State.dramResponse _ _ port c u rebuilt true).2 = dramAnswered s a port k c u rebuilt true from rfl, scrubUe_of_not_scrubs hnote]
    exact (State.ueRecord_law _ 1 _ _ port a _).same
  rw [hanswer] at hrecord
  exact Same.seq (State.dramCount_law s _ port a).same hrecord (by decide) (by decide)

theorem dramUe_freeStore (h : dramRegion a = 2) (hl : s.bpm.sysStgLost + 16 ≤ (1024 - 256) * 64) :
    Same (Piece.withEvent [.bpm, .drc, .ecc]) s (s.dramUe a port k c u rebuilt true) ∧
      (s.dramUe a port k c u rebuilt true).bpm =
        { s.bpm with sysStgLost := s.bpm.sysStgLost + 16, dramTotal := s.bpm.dramTotal - 16 } := by
  have hafter := dramUe_after_answer s a port k c u rebuilt true
  have hcount : Same [.drc] s (s.dramCount (dramKind k) port a) := (State.dramCount_law s _ port a).same
  rw [dramAnswered, h, dramResponse_freeStore, storeDrop_drops (s := s.dramCount (dramKind k) port a) hl] at hafter
  exact ⟨Same.seq (Same.seq hcount (same_of_bpm _ _) (w := [.bpm, .drc]) (by decide) (by decide)) hafter (by decide) (by decide),
    hafter .bpm (by decide)⟩

theorem dramUe_bufferHit {x : Ctx} (h : dramRegion a = 4) (hp : port ≤ 1) (hx : s.ctxs.look c = some x) :
    ((s.dramUe a port k c u false true).dma.chans.get (qOwner x.q) {}).halted = true := by
  rw [dramUe_after_answer s a port k c u false true .dma (by decide), dramAnswered, h, dramResponse_bufferHit hp]
  exact (haltFour_halts (s := s.dramCount (dramKind k) port a) hx u).1

theorem dramUe_staged (h : dramRegion a = 4) (hp : 1 < port) :
    Same (Piece.withEvent [.zones, .drc, .ecc]) s (s.dramUe a port k c u false true) := by
  have hafter := dramUe_after_answer s a port k c u false true
  rw [dramAnswered, h, dramResponse_staged hp] at hafter
  exact Same.seq (Same.seq (State.dramCount_law s _ port a).same (State.stagedLose_law _ c u).same (w := [.zones, .drc])
    (by decide) (by decide)) hafter (by decide) (by decide)

/-- No repair is left, or the free store has lost more than it can spare: the chip stops (R293). -/
theorem dramUe_fatal (h : repair = false ∨ repair = true ∧ dramRegion a = 2 ∧ (1024 - 256) * 64 < s.bpm.sysStgLost + 16)
    (hs : s.brm.st < 3) : (s.dramUe a port k c u rebuilt repair).nvme.cfs = true := by
  have hfatal : dramAnswered s a port k c u rebuilt repair = (s.dramCount (dramKind k) port a).memFatal := by
    obtain rfl | ⟨rfl, hr, hl⟩ := h
    · rfl
    · rw [dramAnswered, hr, dramResponse_freeStore]
      exact storeDrop_stops (s := s.dramCount (dramKind k) port a) hl
  rw [dramUe_after_answer s a port k c u rebuilt repair .nvme (by decide), hfatal]
  exact memFatal_cfs hs

end Burst

/-- Only data that is lost and an address fault are errors of a burst (R286, R287). -/
theorem ueKind_burst {d : Decoded} {k : DramKind} (h : ueKind d = some k) : k = .data ∨ k = .addressFault := by
  cases d with
  | clean | corrected => cases h
  | addressFault => exact .inr (Option.some.inj h).symm
  | uncorrectable => exact .inl (Option.some.inj h).symm

/-! ### The accesses -/

section Access
variable {s : State} {a port : Nat}

theorem exec_dramUncorrectable {b : Burst} {k : DramKind} (ha : a < s.dramUsable) (hp : portMay port (dramRegion a) = true)
    (hk : ueKind (burstDecode a b) = some k) (c u : Nat) (rebuilt repair : Bool) :
    exec (.dramUncorrectable a port b c u rebuilt repair) s = .next (s.dramUe a port k c u rebuilt repair) := by
  show execDramUncorrectable a port b c u rebuilt repair s = _
  simp only [execDramUncorrectable, hk, Nat.not_le.mpr ha, hp, Bool.not_true, Bool.false_eq_true, or_self, if_false]

theorem exec_commandError_link (ha : a < s.dramUsable) (c u : Nat) (rebuilt repair : Bool) :
    exec (.commandError a port (.link c u rebuilt repair)) s = .next (s.dramUe a port .link c u rebuilt repair) :=
  if_neg (Nat.not_le.mpr ha)

theorem exec_commandError_beyond (ha : s.dramUsable ≤ a) :
    exec (.commandError a port .command) s = .next ((s.dramCount 4 port a).ueRecord 1 4 (dramRegion a) port a 1) := if_pos ha

theorem exec_commandError_denied (ha : a < s.dramUsable) (hp : portMay port (dramRegion a) = false) :
    exec (.commandError a port .command) s = .next (s.dramUe a port .command 65536 0 true true) := by
  show execCommandError a port .command s = _
  simp only [execCommandError, Nat.not_le.mpr ha, hp, Bool.false_eq_true, if_false]

end Access

/-- A command error is counted wherever it points; beyond the usable space there is no region to answer. -/
theorem commandError_counts {s : State} {a port : Nat} (h : s.dramUsable ≤ a ∨ portMay port (dramRegion a) = false) :
    ∃ t, exec (.commandError a port .command) s = .next t ∧ t.drc = (s.dramCount 4 port a).drc ∧
      (s.dramUsable ≤ a ∨ dramRegion a = 0 ∨ dramRegion a = 1 ∨ dramRegion a = 3 ∨ dramRegion a = 4 → Same (Piece.withEvent [.drc, .ecc]) s t) := by
  by_cases ha : s.dramUsable ≤ a
  · have hrecord := (State.ueRecord_law (s.dramCount 4 port a) 1 4 (dramRegion a) port a 1).same
    exact ⟨_, exec_commandError_beyond ha, hrecord .drc (by decide),
      fun _ => Same.seq (State.dramCount_law s 4 port a).same hrecord (by decide) (by decide)⟩
  · exact ⟨_, exec_commandError_denied (Nat.not_le.mp ha) (h.resolve_left ha), dramUe_drc ..,
      fun hr => dramUe_recovered (by simpa [Recovered] using hr.resolve_left ha)⟩

/-! ### Corrected errors (R288) -/

/-- The threshold event is due: the count comes to the threshold, and the event has not been raised. -/
def ceDue (count threshold : Nat) (fired : Bool) : Bool :=
  threshold != 0 && decide (threshold ≤ satAdd 0xffffffff count 1) && !fired

/-- An event that is raised where it is due. -/
def fireDue (s : State) (due : Bool) (k : Nat) (args : List Nat) : State := if due then s.fire k args else s

theorem fireDue_same (s : State) (due : Bool) (k : Nat) (args : List Nat) : Same Piece.event s (fireDue s due k args) := by
  cases due
  · exact Same.refl _ s
  · exact Same.mono (State.fire_law s k args 0 0x7ff none).same (by decide)

/-- A corrected burst, counted and latched. -/
def dramCeCounted (s : State) (a port : Nat) : State :=
  { s with drc := { s.drc with
    ceCnt := satAdd 0xffffffff s.drc.ceCnt 1, ceAddr := drcLatch s.drc.ceAddr 0 port (dramRegion a) a
    ceFired := s.drc.ceFired || ceDue s.drc.ceCnt s.drc.ceThr s.drc.ceFired } }

/-- A corrected word, counted and latched. -/
def sramCeCounted (s : State) (a port : Nat) : State :=
  { s with ecc := { s.ecc with
    ceCnt := satAdd 0xffffffff s.ecc.ceCnt 1, ceAddr := eccLatch s.ecc.ceAddr (sramRegion a) port (a / 8)
    ceFired := s.ecc.ceFired || ceDue s.ecc.ceCnt s.ecc.ceThr s.ecc.ceFired } }

theorem dramCorrected_eq (s : State) (a port : Nat) : s.dramCorrected a port =
    (fireDue (dramCeCounted s a port) (ceDue s.drc.ceCnt s.drc.ceThr s.drc.ceFired) 6
      [satAdd 0xffffffff s.drc.ceCnt 1]).scrubCe true port a := rfl

theorem sramCorrected_eq (s : State) (a port : Nat) : s.sramCorrected a port =
    (fireDue (sramCeCounted s a port) (ceDue s.ecc.ceCnt s.ecc.ceThr s.ecc.ceFired) 5
      [satAdd 0xffffffff s.ecc.ceCnt 1]).scrubCe false port a := rfl

theorem scrubCe_ecc (s : State) (dram : Bool) (port addr : Nat) : ∃ m, (s.scrubCe dram port addr).ecc = { s.ecc with scrubSum := m } := by
  unfold State.scrubCe
  split
  · exact ⟨_, rfl⟩
  · exact ⟨_, rfl⟩

theorem dramCeCounted_same (s : State) (a port : Nat) : Same [.drc] s (dramCeCounted s a port) := same_of_drc s _

theorem sramCeCounted_same (s : State) (a port : Nat) : Same [.ecc] s (sramCeCounted s a port) := same_of_ecc s _

/-- What the count of a corrected burst leaves: where the event is not due, nothing leaves the chip. -/
theorem dramCorrected_counts (s : State) (a port : Nat) : Same (Piece.withEvent [.drc, .ecc]) s (s.dramCorrected a port) ∧
    (s.dramCorrected a port).drc = (dramCeCounted s a port).drc ∧
    (ceDue s.drc.ceCnt s.drc.ceThr s.drc.ceFired = false → Same [.drc, .ecc] s (s.dramCorrected a port)) := by
  rw [dramCorrected_eq]
  generalize ceDue s.drc.ceCnt s.drc.ceThr s.drc.ceFired = due
  generalize [satAdd 0xffffffff s.drc.ceCnt 1] = args
  have hfire := fireDue_same (dramCeCounted s a port) due 6 args
  have hnote : Same [.ecc] _ ((fireDue (dramCeCounted s a port) due 6 args).scrubCe true port a) := (State.scrubCe_law _ true port a).same
  refine ⟨Same.seq (Same.seq (dramCeCounted_same s a port) hfire (w := Piece.withEvent [.drc]) (by decide) (by decide)) hnote
    (by decide) (by decide), (hnote .drc (by decide)).trans (hfire .drc (by decide)), ?_⟩
  rintro rfl
  exact Same.seq (dramCeCounted_same s a port) hnote (by decide) (by decide)

/-- What the count of a corrected word leaves. -/
theorem sramCorrected_counts (s : State) (a port : Nat) : Same (Piece.withEvent [.ecc]) s (s.sramCorrected a port) ∧
    (∃ m, (s.sramCorrected a port).ecc = { (sramCeCounted s a port).ecc with scrubSum := m }) ∧
    (ceDue s.ecc.ceCnt s.ecc.ceThr s.ecc.ceFired = false → Same [.ecc] s (s.sramCorrected a port)) := by
  rw [sramCorrected_eq]
  generalize ceDue s.ecc.ceCnt s.ecc.ceThr s.ecc.ceFired = due
  generalize [satAdd 0xffffffff s.ecc.ceCnt 1] = args
  have hfire := fireDue_same (sramCeCounted s a port) due 5 args
  have hnote : Same [.ecc] _ ((fireDue (sramCeCounted s a port) due 5 args).scrubCe false port a) := (State.scrubCe_law _ false port a).same
  obtain ⟨m, hm⟩ := scrubCe_ecc (fireDue (sramCeCounted s a port) due 5 args) false port a
  rw [hfire .ecc (by decide)] at hm
  refine ⟨Same.seq (Same.seq (sramCeCounted_same s a port) hfire (w := Piece.withEvent [.ecc]) (by decide) (by decide)) hnote
    (by decide) (by decide), ⟨m, hm⟩, ?_⟩
  rintro rfl
  exact Same.seq (sramCeCounted_same s a port) hnote (by decide) (by decide)

theorem writeBack_out (s : State) (dram : Bool) (a v : Nat) (queued : Bool) :
    (s.writeBack dram a v queued).out = if queued then s.out else .writeBack dram a v :: s.out := by
  cases queued <;> rfl

theorem exec_correctedError_dram {s : State} {a port : Nat} {b : Burst} {v : Nat} (ha : a < s.dramUsable)
    (hp : portMay port (dramRegion a) = true) (hb : burstDecode a b = .corrected v) (queued : Bool) :
    exec (.correctedError (.dram a b) port queued) s = .next ((s.writeBack true a v queued).dramCorrected a port) := by
  show execCorrectedError (.dram a b) port queued s = _
  simp only [execCorrectedError, Nat.not_le.mpr ha, hp, hb, Bool.not_true, Bool.false_eq_true, or_self, if_false]

theorem exec_correctedError_sram {a port raw v : Nat} (ha : a < sramSize) (hp : port ≤ 24) (hr : secdedDecode raw = .corrected v)
    (queued : Bool) (s : State) :
    exec (.correctedError (.sram a raw) port queued) s = .next ((s.writeBack false a v queued).sramCorrected a port) := by
  show execCorrectedError (.sram a raw) port queued s = _
  simp only [execCorrectedError, Nat.not_le.mpr ha, Nat.not_lt.mpr hp, hr, or_self, if_false]

/-- Settles O42: no answer of a region reaches the counts, which are those of the kind of the error; the answers are the region's. -/
theorem dramAndCorrectedErrors : Obligations.DramAndCorrectedErrors := by
  intro s a port data b region latched
  refine ⟨fun k c u rebuilt repair ha hp hk => ?_, fun h => ?_, fun c u rebuilt repair ha => ?_, fun v queued ha hp hb => ?_,
    fun v queued ha hp hv => ?_⟩
  · refine ⟨_, exec_dramUncorrectable ha hp hk c u rebuilt repair, (dramUe_drc ..).trans ?_, ?_, ?_, ?_, ?_, fun x => ?_, ?_,
      fun h hs => dramUe_fatal (.inl h) hs⟩
    · obtain rfl | rfl := ueKind_burst hk <;> rfl
    · rintro hs rfl hr
      exact dramUe_recovered_unnoted hr hs
    · rintro rfl hr
      exact dramUe_recovered hr
    · rintro rfl hr hl
      exact dramUe_freeStore hr hl
    · exact fun h hr hl hs => dramUe_fatal (.inr ⟨h, hr, hl⟩) hs
    · rintro rfl hr rfl hport hx
      exact dramUe_bufferHit hr hport hx
    · rintro rfl hr rfl hport
      exact dramUe_staged hr hport
  · exact commandError_counts h
  · refine ⟨_, exec_commandError_link ha c u rebuilt repair, dramUe_drc .., ?_⟩
    rintro rfl hr
    exact dramUe_recovered hr
  · intro n due
    have hback : Same [.out] s (s.writeBack true a v queued) := (State.writeBack_law s true a v queued).same
    have hdrc : (s.writeBack true a v queued).drc = s.drc := hback .drc (by decide)
    obtain ⟨hsame, hcount, hquiet⟩ := dramCorrected_counts (s.writeBack true a v queued) a port
    rw [hdrc] at hquiet
    rw [dramCeCounted, hdrc] at hcount
    refine ⟨_, exec_correctedError_dram ha hp hb queued, Same.seq hback hsame (by decide) (by decide), ?_, ?_, fun hdue => ?_, fun hdue => ?_⟩
    · rw [hcount]
    · rw [hcount]; rfl
    · exact Same.seq hback (hquiet hdue) (by decide) (by decide)
    · exact (hquiet hdue .out (by decide)).trans (writeBack_out s true a v queued)
  · intro n due
    have hback : Same [.out] s (s.writeBack false a v queued) := (State.writeBack_law s false a v queued).same
    have hecc : (s.writeBack false a v queued).ecc = s.ecc := hback .ecc (by decide)
    obtain ⟨hsame, ⟨m, hcount⟩, hquiet⟩ := sramCorrected_counts (s.writeBack false a v queued) a port
    rw [hecc] at hquiet
    rw [sramCeCounted, hecc] at hcount
    refine ⟨_, exec_correctedError_sram ha hp hv queued s, Same.seq hback hsame (by decide) (by decide), ?_, ?_, fun hdue => ?_⟩
    · rw [hcount]
    · rw [hcount]; rfl
    · exact Same.seq hback (hquiet hdue) (by decide) (by decide)

end Sys2Proof.Proofs
end

section
/-! PROOFS. Scrub Range: the pass starts, reads its last word and reports (R295 to R297). -/

namespace Sys2Proof.Proofs

open Sys2Proof Sys2Proof.Machine Sys2Proof.Safety Sys2Proof.Laws

/-! ### The pass starts (R295) -/

/-- The controller's memory error state with a pass over a range under way that has found nothing. -/
def passStarted (e : Ecc) (dram : Bool) (c start len : Nat) : Ecc :=
  { e with scrubBusy := true, scrubMem := dram, scrubDone := 0, scrubCtx := c, scrubStart := start, scrubLen := len, scrubSum := {} }

theorem scrubRange_starts {s : State} {c : Nat} {x : Ctx} (h : AdminTurn s c x) (hopc : x.e.opc = 0xd2)
    (hfields : vendorOk x.e 0xffffffff 0 0xffffffff 0xffffffff 0xffffffff 0xffffffff = true) (hptr : x.e.dptrFault 64 false = none)
    (hidle : s.ecc.scrubBusy = false) (hmem : x.e.cdw10.toNat < 2)
    (hstart : x.e.cdw1213 % (if x.e.cdw10.getLsbD 0 then 64 else 8) = 0) (hlen : x.e.cdw1415 % (if x.e.cdw10.getLsbD 0 then 64 else 8) = 0)
    (hsome : x.e.cdw1415 ≠ 0) (hend : x.e.cdw1213 + x.e.cdw1415 ≤ (if x.e.cdw10.getLsbD 0 then s.dramUsable else sramSize)) :
    exec (.scrubRange c) s = .next { s.stampCtx c with
      ecc := passStarted s.ecc (x.e.cdw10.getLsbD 0) c x.e.cdw1213 x.e.cdw1415 } := by
  refine (congrArg Host.Outcome.next (admitAdmin_body h (by rw [hopc]; rfl) (by rw [hopc]; decide) _)).trans ?_
  simp only [hfields, hptr, hidle, Nat.not_le.mpr hmem, hstart, hlen, hsome, Nat.not_lt.mpr hend, Bool.not_true, Bool.false_eq_true,
    ne_eq, not_true_eq_false, or_self, if_false]
  rfl

/-! ### The last word of the range (R296) -/

theorem scrubLast_clean {s : State} {raw check : Nat} (h : (if s.ecc.scrubMem = true then
      burstDecode (s.ecc.scrubStart + s.ecc.scrubLen - 64) { data := raw, check := check } else secdedDecode raw) = .clean)
    (other c u : Nat) (rebuilt repair queued : Bool) : s.scrubLast raw check other c u rebuilt repair queued = s := by
  unfold State.scrubLast
  dsimp only
  split
  · next hmem => rw [if_pos hmem] at h; rw [h]
  · next hmem => rw [if_neg hmem] at h; rw [h]

theorem scrubLast_corrected {s : State} {raw v : Nat} (hmem : s.ecc.scrubMem = false) (h : secdedDecode raw = .corrected v)
    (check other c u : Nat) (rebuilt repair queued : Bool) : s.scrubLast raw check other c u rebuilt repair queued =
      (s.writeBack false (s.ecc.scrubStart + s.ecc.scrubLen - 8) v queued).sramCorrected (s.ecc.scrubStart + s.ecc.scrubLen - 8) 23 := by
  unfold State.scrubLast
  rw [hmem, h]
  rfl

/-- The last word of the range of a running pass is one that the pass reads. -/
theorem scrubs_last_word {s : State} (hbusy : s.ecc.scrubBusy = true) (hmem : s.ecc.scrubMem = false) (hlen : 8 ≤ s.ecc.scrubLen) :
    s.scrubs false 23 (s.ecc.scrubStart + s.ecc.scrubLen - 8) = true := by
  simp only [State.scrubs, hbusy, hmem, beq_self_eq_true, Bool.and_self, Bool.true_and, Bool.and_eq_true, decide_eq_true_eq]
  omega

/-- Whether the pass reads an address is a matter of the pass. -/
theorem scrubs_of_ecc {s t : State} (h : t.ecc = s.ecc) (dram : Bool) (port addr : Nat) :
    t.scrubs dram port addr = s.scrubs dram port addr := by
  unfold State.scrubs
  rw [h]

theorem scrubCe_notes {s : State} {dram : Bool} {port addr : Nat} (h : s.scrubs dram port addr = true) :
    (s.scrubCe dram port addr).ecc.scrubSum.corrected = s.ecc.scrubSum.corrected + 1 := by
  rw [State.scrubCe, if_pos h]

theorem sramCorrected_noted {s : State} {port a : Nat} (h : s.scrubs false port a = true) :
    (s.sramCorrected a port).ecc.scrubSum.corrected = s.ecc.scrubSum.corrected + 1 := by
  have hfire := (fireDue_same (sramCeCounted s a port) (ceDue s.ecc.ceCnt s.ecc.ceThr s.ecc.ceFired) 5
    [satAdd 0xffffffff s.ecc.ceCnt 1]) .ecc (by decide)
  rw [sramCorrected_eq, scrubCe_notes ((scrubs_of_ecc hfire false port a).trans h), hfire]
  rfl

/-- A last word that the code corrects is counted, and the pass that is under way notes it. -/
theorem scrubLast_counts {s : State} {raw v : Nat} (hbusy : s.ecc.scrubBusy = true) (hmem : s.ecc.scrubMem = false)
    (hlen : 8 ≤ s.ecc.scrubLen) (hv : secdedDecode raw = .corrected v) (check other c u : Nat) (rebuilt repair queued : Bool) :
    let t := s.scrubLast raw check other c u rebuilt repair queued
    t.ecc.scrubCtx = s.ecc.scrubCtx ∧ t.ecc.ceCnt = satAdd 0xffffffff s.ecc.ceCnt 1 ∧
      t.ecc.scrubSum.corrected = s.ecc.scrubSum.corrected + 1 := by
  intro t
  have ht : t = _ := scrubLast_corrected hmem hv check other c u rebuilt repair queued
  have hback : (s.writeBack false (s.ecc.scrubStart + s.ecc.scrubLen - 8) v queued).ecc = s.ecc :=
    (State.writeBack_law s _ _ v queued).same .ecc (by decide)
  have hnoted := sramCorrected_noted ((scrubs_of_ecc hback false 23 _).trans (scrubs_last_word hbusy hmem hlen))
  obtain ⟨-, ⟨m, hm⟩, -⟩ := sramCorrected_counts (s.writeBack false (s.ecc.scrubStart + s.ecc.scrubLen - 8) v queued)
    (s.ecc.scrubStart + s.ecc.scrubLen - 8) 23
  rw [sramCeCounted, hback] at hm
  rw [ht]
  refine ⟨?_, ?_, hnoted.trans (by rw [hback])⟩
  · rw [hm]
  · rw [hm]

/-! ### The report (R297) -/

/-- The summary of a pass, as the host takes it. -/
def scrubSummary (e : Ecc) (ms : Nat) : List (Nat × Nat × Nat) :=
  let none64 := 2 ^ 64 - 1
  let m := e.scrubSum
  [ (0, 8, e.scrubStart), (8, 8, e.scrubLen), (16, 1, if e.scrubMem then 1 else 0), (17, 1, if m.lost then 1 else 3), (18, 2, m.regions)
  , (20, 4, m.corrected), (24, 4, m.uncorr), (28, 4, if e.scrubMem then m.addrflt else 0), (32, 8, m.firstUe.getD none64)
  , (40, 8, m.lastUe.getD none64), (48, 8, m.firstCe.getD none64), (56, 4, ms) ]

/-- The summary is sent, and the pass is over. -/
def scrubReported (s : State) (ms : Nat) : State :=
  { s.say (.hostData s.ecc.scrubCtx 0 64 (scrubSummary s.ecc ms)) with ecc := { s.ecc with scrubBusy := false, scrubDone := 100 } }

theorem scrubReport_eq (s : State) (ms : Nat) : s.scrubReport ms = (scrubReported s ms).finish s.ecc.scrubCtx stOk := rfl

theorem scrubReported_same (s : State) (ms : Nat) : Same [.out, .ecc] s (scrubReported s ms) :=
  Same.seq (State.say_law s _).same (same_of_ecc _ _) (by decide) (by decide)

theorem scrubReport_after (s : State) (ms : Nat) : Same [.ctxs] (scrubReported s ms) (s.scrubReport ms) :=
  finish_ok_same (scrubReported s ms) s.ecc.scrubCtx 0 0 0

theorem scrubReport_out (s : State) (ms : Nat) :
    (s.scrubReport ms).out = .hostData s.ecc.scrubCtx 0 64 (scrubSummary s.ecc ms) :: s.out := scrubReport_after s ms .out (by decide)

theorem scrubReport_ecc (s : State) (ms : Nat) : (s.scrubReport ms).ecc = { s.ecc with scrubBusy := false, scrubDone := 100 } :=
  scrubReport_after s ms .ecc (by decide)

theorem scrubReport_same (s : State) (ms : Nat) : Same [.out, .ecc, .ctxs] s (s.scrubReport ms) :=
  Same.seq (scrubReported_same s ms) (scrubReport_after s ms) (by decide) (by decide)

/-- The command is complete. -/
theorem scrubReport_ctxs {s : State} {x : Ctx} (hx : s.ctxs.look s.ecc.scrubCtx = some x) (hp : x.phase ≠ .done) (ms : Nat) :
    ∃ y, (s.scrubReport ms).ctxs = s.ctxs.put s.ecc.scrubCtx y ∧ y.phase = .done ∧ y.status = some stOk ∧ y.dw0 = 0 :=
  ⟨_, finish_ctxs (s := scrubReported s ms) hx hp stOk 0 0 0, rfl, rfl, rfl⟩

theorem exec_scrubComplete {s : State} (h : s.ecc.scrubBusy = true) (raw check other c u : Nat) (rebuilt repair queued : Bool) (ms : Nat) :
    exec (.scrubComplete raw check other c u rebuilt repair queued ms) s =
      .next ((s.scrubLast raw check other c u rebuilt repair queued).scrubReport ms) := by
  show execScrubComplete raw check other c u rebuilt repair queued ms s = _
  rw [execScrubComplete, h, if_neg (by decide)]

/-- Settles O19: the report is of the state that the last word of the range has left. -/
theorem scrubRunsAndReports : Obligations.ScrubRunsAndReports := by
  intro s c x
  refine ⟨fun hturn hopc hfields hptr hidle hmem => ?_,
    fun raw check other cx u rebuilt repair queued ms hbusy hctx hx hphase => ?_⟩
  · intro dram w hstart hlen hsome hend
    exact ⟨_, scrubRange_starts hturn hopc hfields hptr hidle hmem hstart hlen hsome hend, stampCtx_holds hturn.here, stampCtx_others s c,
      Same.seq (stampCtx_same s c) (same_of_ecc _ _) (by decide) (by decide), rfl⟩
  · subst hctx
    intro m run
    refine ⟨fun v hmem hlen hv => ?_, fun hclean => ?_⟩
    · obtain ⟨hctx, hcount, hnoted⟩ := scrubLast_counts hbusy hmem hlen hv check other cx u rebuilt repair queued
      refine ⟨_, scrubSummary (s.scrubLast raw check other cx u rebuilt repair queued).ecc ms,
        exec_scrubComplete hbusy raw check other cx u rebuilt repair queued ms, ?_, ?_, ?_⟩
      · rw [scrubReport_out, hctx]
        exact List.mem_cons_self
      · simp [scrubSummary, hnoted, m]
      · rw [scrubReport_ecc]
        exact hcount
    · have hrun := exec_scrubComplete hbusy raw check other cx u rebuilt repair queued ms
      rw [scrubLast_clean hclean] at hrun
      obtain ⟨y, hctxs, hdone, hstatus, hdw0⟩ := scrubReport_ctxs hx hphase ms
      refine ⟨_, scrubSummary s.ecc ms, y, hrun, scrubReport_out s ms, ?_, ?_, ?_, ?_, ?_, ?_, ?_, ?_, ?_, scrubReport_ecc s ms, hctxs,
        hdone, hstatus, hdw0, scrubReport_same s ms⟩
      all_goals simp [scrubSummary, m]

end Sys2Proof.Proofs
end

section
/-! PROOFS. Microcode fetched into the cache (R413, R415), refresh and the panic of a program stream (R276, R279 to R282), and the health
of the entropy source (R302). -/

namespace Sys2Proof.Proofs

open Sys2Proof Sys2Proof.Machine Sys2Proof.Safety Sys2Proof.Laws

theorem same_of_upd (s : State) (u : Upd) : Same [.upd] s { s with upd := u } := (Laws.Law.mk (Law.refl s)).same

/-! ### Microcode fetched into the cache (R413, R415) -/

/-- The counters of a fetch: a first read that fails is repeated, and a program or erase suspended for it is counted. -/
def fetchTried (u : Upd) (first susp : Bool) : Upd :=
  { u with
    suspends := if susp then satAdd 0xffff u.suspends 1 else u.suspends
    retries := if first then u.retries else satAdd 0xffff u.retries 1 }

/-- A fetch that has read its block. -/
def fetchMade (u : Upd) (b : Nat) (first susp : Bool) : Upd :=
  { fetchTried u first susp with fetches := satAdd 0xffffffff u.fetches 1, cache := cacheTouch u.cache b }

/-- The block joins the cache as the one last used, and of more than 384 the first leave it (R413). -/
theorem fetchMade_cache (u : Upd) (b : Nat) (first susp : Bool) : (fetchMade u b first susp).cache =
    (u.cache.filter (· ≠ b) ++ [b]).drop ((u.cache.filter (· ≠ b) ++ [b]).length - 384) := by
  simp only [fetchMade, cacheTouch]

section Fetch
variable {s : State} {b : Nat} (h : s.upd.cache.contains b = false)
include h

theorem microcodeBlockFetch_fetches {first second : Bool} (hread : first = true ∨ second = true) (susp : Bool) :
    exec (.microcodeBlockFetch b first second susp) s = .next { s with upd := fetchMade s.upd b first susp } := by
  show execMicrocodeBlockFetch b first second susp s = _
  have hok : (!first && !second) = false := by obtain rfl | rfl := hread <;> simp
  simp only [execMicrocodeBlockFetch, h, hok, Bool.false_eq_true, if_false]
  rfl

theorem microcodeBlockFetch_fails (susp : Bool) :
    exec (.microcodeBlockFetch b false false susp) s = .next { s with upd := fetchTried s.upd false susp }.memFatal := by
  show execMicrocodeBlockFetch b false false susp s = _
  simp only [execMicrocodeBlockFetch, h, Bool.not_false, Bool.and_self, Bool.false_eq_true, if_false, if_true]
  rfl

end Fetch

/-! ### Refresh (R279 to R282) -/

/-- A refresh that has been postponed 8 times goes before the program stream of a group in panic. -/
theorem dramNext_refresh {s : State} (h : 8 ≤ s.drc.postponed) (g : Nat) : s.dramNext [.refresh, .stream g] 0 = some .refresh := by
  by_cases hg : s.drc.panic.getLsbD g <;> simp [State.dramNext, State.dramClass, h, hg]

/-- A refresh waits for a panic fewer than 8 times. -/
theorem postponed_lt_of_refreshWaits {s : State} (h : s.refreshWaits = true) : s.drc.postponed < 8 := by
  refine Nat.lt_of_not_le fun hn => ?_
  obtain ⟨g, -, hg⟩ := List.any_eq_true.mp h
  rw [dramNext_refresh hn, Bool.and_eq_true] at hg
  obtain ⟨-, hnext⟩ := hg
  cases beq_iff_eq.mp hnext

theorem exec_refreshInterval {s : State} (h : s.drc.srState = 0) (mr4 draws drop : Nat) :
    exec (.refreshInterval mr4 draws drop) s =
      .next { s with drc := { s.drc with
        mult := max s.bandMult (min 2 mr4), mr4 := decide (s.bandMult < min 2 mr4)
        postponed := if s.refreshWaits then s.drc.postponed + 1 else 0
        nbrIssued := satAdd 0xffffffff s.drc.nbrIssued
          ((if s.drc.nbrProb = 0 then 0 else draws) - min drop (if s.drc.nbrProb = 0 then 0 else draws))
        nbrDropped := satAdd 0xffffffff s.drc.nbrDropped (min drop (if s.drc.nbrProb = 0 then 0 else draws)) } } := by
  show execRefreshInterval mr4 draws drop s = _
  rw [execRefreshInterval, h, if_neg (by decide)]

/-! ### The real-time port (R276, R280) -/

theorem exec_dqsOscillatorRead {s : State} {i : Image} (himg : s.img = some i) (ch drift : Nat) (wait : Bool) :
    exec (.dqsOscillatorRead ch drift wait) s = .next
      (if ch < 16 ∧ i.dqsLimit < drift ∧ (s.drc.panic = 0 ∨ wait = true) ∧ s.drc.srState = 0
        then { s with drc := { s.drc with adjusts := s.drc.adjusts + 1 } } else s) := by
  show execDqsOscillatorRead ch drift wait s = _
  simp only [execDqsOscillatorRead, himg]
  split <;> rfl

theorem getLsbD_groupBit {h : Nat} (hh : h < 4) (g : Nat) : (BitVec.ofNat 4 (2 ^ g)).getLsbD h = decide (g = h) := by
  rw [BitVec.getLsbD_ofNat, Nat.testBit_two_pow, decide_eq_true hh, Bool.true_and]

/-- A group enters the panic alone. -/
theorem panic_set_getLsbD (v : BitVec 4) {h : Nat} (hh : h < 4) (g : Nat) :
    (v ||| BitVec.ofNat 4 (2 ^ g)).getLsbD h = (v.getLsbD h || decide (g = h)) := by
  rw [BitVec.getLsbD_or, getLsbD_groupBit hh]

/-- A group leaves the panic alone. -/
theorem panic_clear_getLsbD (v : BitVec 4) {h : Nat} (hh : h < 4) (g : Nat) :
    (v &&& ~~~BitVec.ofNat 4 (2 ^ g)).getLsbD h = (v.getLsbD h && !decide (g = h)) := by
  rw [BitVec.getLsbD_and, BitVec.getLsbD_not, getLsbD_groupBit hh, decide_eq_true hh, Bool.true_and]

theorem exec_programStreamPanic {s : State} {ch level : Nat} (hch : ch < 32) (hl : level < max 1 s.drc.rtOn) :
    exec (.programStreamPanic ch level) s = .next { s with drc := { s.drc with
      fifo := s.drc.fifo.put ch level
      panic := s.drc.panic ||| BitVec.ofNat 4 (2 ^ (ch / 8))
      panics := if s.drc.panic.getLsbD (ch / 8) then s.drc.panics else satAdd 0xffffffff s.drc.panics 1
      pauses := if level = 0 ∧ s.drc.fifo.get ch 16 ≠ 0 then satAdd 0xffffffff s.drc.pauses 1 else s.drc.pauses } } :=
  if_neg (not_or.mpr ⟨Nat.not_le.mpr hch, Nat.not_le.mpr hl⟩)

/-- Settles O43: a refresh that has been postponed 8 times is of class 1, so a panic never postpones it again. -/
theorem microcodeRefreshAndEntropy : Obligations.MicrocodeRefreshAndEntropy := by
  intro s
  refine ⟨fun b first second susp hmiss => ⟨fun hread => ?_, ?_⟩, fun mr4 draws drop hon => ?_, fun ch drift wait i himg hch hon => ?_,
    fun ch level hch hl => ?_, fun g hg => ?_, rfl⟩
  · exact ⟨_, microcodeBlockFetch_fetches hmiss hread susp, same_of_upd s _, rfl, fetchMade_cache s.upd b first susp, rfl, rfl⟩
  · rintro rfl rfl hs
    refine ⟨_, microcodeBlockFetch_fails hmiss susp, memFatal_cfs (s := { s with upd := fetchTried s.upd false susp }) hs, ?_⟩
    rw [memFatal_upd]
    rfl
  · refine ⟨_, exec_refreshInterval hon mr4 draws drop, same_of_drc s _, rfl, rfl, ?_, fun hp => ?_, fun hp => ?_⟩
    · show (if s.refreshWaits then s.drc.postponed + 1 else 0) ≤ 8
      split
      · next hw => exact postponed_lt_of_refreshWaits hw
      · exact Nat.zero_le 8
    · simp only [hp, if_true, Nat.min_zero, Nat.sub_zero]
    · simp only [hp, if_false, and_self]
  · rw [exec_dqsOscillatorRead himg]
    refine ⟨fun hd hp => ?_, fun h => ?_⟩
    · rw [if_pos ⟨hch, hd, hp, hon⟩]
    · rw [if_neg]
      rintro ⟨-, hd, hp, -⟩
      obtain hle | ⟨hpanic, hwait⟩ := h
      · exact Nat.not_le.mpr hd hle
      · rw [hwait] at hp
        exact hpanic (hp.resolve_right (by decide))
  · refine ⟨_, exec_programStreamPanic hch hl, same_of_drc s _, ?_, fun g hg hne => ?_, rfl, fun hf => ?_⟩
    · exact (panic_set_getLsbD _ (by omega) _).trans (by simp)
    · exact (panic_set_getLsbD _ hg _).trans (by simp [Ne.symm hne])
    · simp [hf]
  · refine ⟨_, rfl, same_of_drc s _, ?_, fun h hh hne => ?_⟩
    · exact (panic_clear_getLsbD _ hg _).trans (by simp)
    · exact (panic_clear_getLsbD _ hh _).trans (by simp [Ne.symm hne])

end Sys2Proof.Proofs
end

section
/-! PROOFS. The key store: its epoch never falls (R303, R316); Key Rotate from the gate to its commit (R310, R311). -/

namespace Sys2Proof.Proofs

open Sys2Proof Sys2Proof.Machine Sys2Proof.Safety Sys2Proof.Laws

/-! ### The epoch of the key store -/

/-- No step breaks a promise: it is the command at the front of the queue, or one nanosecond of crown time. -/
theorem step_good {s t : State} (h : step s = .next t) : Good s t := by
  unfold step at h
  split at h
  · cases h
    exact (State.tick_law s).good
  · next c rest _ =>
    obtain ⟨hlog, hmem, hefl, hepoch, hseal, hfree⟩ := (LawO.get (exec_law c { s with pending := rest }) h).good
    exact ⟨hlog, hmem, hefl, hepoch, hseal, hfree⟩

/-- Settles O8: that the epoch does not fall is one of the promises that no step breaks. -/
theorem keyStoreEpochNeverFalls : Obligations.KeyStoreEpochNeverFalls := fun _ _ h => (step_good h).epoch

/-! ### Key Rotate at the gate (R310) -/

/-- The owner that a Key Rotate names: the PF, or a slice. -/
def keyOwnerNamed (e : SqEntry) : Nat := if e.cdw10.getLsbD 10 then 1024 else e.sliceNo

/-- The entry of a Key Rotate in the commit order. -/
def keyRotEntry (c o : Nat) (d : KeyData) : Entry :=
  { kind := .keyRotE, ctx := c, owner := o, nsid := 0, scopes := [keyScope o], target := d.action, val := d.expectGen }

/-- It is the turn of a Key Rotate whose fields, owner and structure pass. -/
structure KeyTurn (s : State) (c : Nat) (x : Ctx) (d : KeyData) : Prop where
  turn : AdminTurn s c x
  opc : x.e.opc = 0xc9
  fields : vendorOk x.e 0x7ff 0 0 0 0 0 = true
  dptr : x.e.dptrFault 512 false = none
  pf : x.e.cdw10.getLsbD 10 = true → x.e.sliceNo = 0
  owner : s.keyOwnerOk (keyOwnerNamed x.e) = true
  version : d.version = 1
  rsv3 : d.rsv3 = 0
  rsv8 : d.rsv8 = 0

/-- Each row of Key Rotate takes its own action into the commit order, whatever generation it expects. -/
theorem keyCmd_enters {s : State} {c : Nat} {x : Ctx} {d : KeyData} (h : KeyTurn s c x d) {act : Nat} (ha : d.action = act)
    (hact : act ≤ 2) : s.keyCmd c d act = s.enter (keyRotEntry c (keyOwnerNamed x.e) d) := by
  have hfields : ¬((!vendorOk x.e 0x7ff 0 0 0 0 0) = true ∨ (x.e.cdw10.getLsbD 10 = true ∧ x.e.sliceNo ≠ 0)) := by
    rw [h.fields]
    exact fun hbad => hbad.elim nofun fun ⟨hpf, hslice⟩ => hslice (h.pf hpf)
  have hdata : ¬(d.version ≠ 1 ∨ 2 < d.action ∨ d.rsv3 ≠ 0 ∨ d.rsv8 ≠ 0) := by
    simp only [h.version, h.rsv3, h.rsv8, ha]
    omega
  have howner : s.keyOwnerOk (if x.e.cdw10.getLsbD 10 = true then 1024 else x.e.sliceNo) = true := h.owner
  unfold State.keyCmd
  rw [admitAdmin_body h.turn (by simp [h.opc, ha]) (by rw [h.opc]; decide)]
  simp only [hfields, h.dptr, howner, hdata, Bool.not_true, Bool.false_eq_true, if_false]
  rfl

/-- Settles O16: the three rows differ in their action alone, and each enters the commit order. -/
theorem keyCommandsEnterTheKeyStage : Obligations.KeyCommandsEnterTheKeyStage := by
  intro s c x d hturn hopc hfields hdptr o hpf howner hversion hrsv3 hrsv8 entered
  have h : KeyTurn s c x d := ⟨hturn, hopc, hfields, hdptr, hpf, howner, hversion, hrsv3, hrsv8⟩
  have hentered : entered (s.enter (keyRotEntry c o d)) :=
    ⟨enter_holds (e := keyRotEntry c o d) hturn.here rfl rfl, enter_others s _, enter_same s _, enter_entries s _⟩
  exact ⟨fun ha => ⟨_, congrArg Host.Outcome.next (keyCmd_enters h ha (by decide)), hentered⟩,
    fun ha => ⟨_, congrArg Host.Outcome.next (keyCmd_enters h ha (by decide)), hentered⟩,
    fun ha => ⟨_, congrArg Host.Outcome.next (keyCmd_enters h ha (by decide)), hentered⟩⟩

/-! ### What each action leaves of its owner (R311) -/

theorem keyRotate_keyOwner (s : State) (o : Nat) : ((s.keyRotate o).keyOwner o).cur = (s.keyOwner o).cur + 1 ∧
    ((s.keyRotate o).keyOwner o).use = 0 ∧ ((s.keyRotate o).keyOwner o).slots.look ((s.keyOwner o).cur + 2) = some s.free := by
  unfold State.keyRotate State.keyRetire
  rw [keySweep_keyOwner, keyEdit_keyOwner, keyEdit_keyOwner]
  obtain ⟨hcur, huse, hslots⟩ := retire_keeps { s.keyOwner o with
    cur := (s.keyOwner o).cur + 1, slots := (s.keyOwner o).slots.put ((s.keyOwner o).cur + 2) s.free, use := 0, nearSent := false }
    16 ((s.keyOwner o).cur + 2) (Nat.le_succ _)
  exact ⟨hcur, huse, hslots.trans (Tbl.look_put _ _ _)⟩

theorem keyRenewNext_keyOwner (s : State) (o : Nat) : (s.keyRenewNext o).keyOwner o =
    { s.keyOwner o with slots := (s.keyOwner o).slots.put ((s.keyOwner o).cur + 1) s.free } := by
  unfold State.keyRenewNext
  rw [keySweep_keyOwner, keyEdit_keyOwner]
  rfl

theorem keyStop_keyOwner (s : State) (o : Nat) : (s.keyStop o).keyOwner o = { s.keyOwner o with use := s.keyLimit } := by
  unfold State.keyStop
  rw [keyEdit_keyOwner]

/-! ### The key stage (R310, R311) -/

/-- The completion of an action leaves the key store as the action made it. -/
theorem finish_ledger_key (s : State) (c : Nat) (st : Status) (dw0 : Dword) : (s.ledger.finish c st dw0).key = s.key :=
  (State.finish_law _ _ _ _ _ _).same .key (by decide)

section KeyStage
variable {s : State} {e : Entry} (hval : e.val = (s.keyOwner e.owner).cur) (stamp : Nat)
include hval

theorem keyDecide_rotates (hent : s.key.entropyBad = false) (ht : e.target = 0) (hlive : (s.keyOwner e.owner).live < 15)
    (hbound : s.bound2 e.owner = false) (hcur : (s.keyOwner e.owner).cur < 0xfffffffe) :
    (s.keyDecide stamp e).key = (s.keyRotate e.owner).key := by
  unfold State.keyDecide
  simp only [hval, ne_eq, not_true_eq_false, if_false, ht, if_true, hlive, hbound, hcur, hent, Bool.false_eq_true, not_false_eq_true,
    and_self]
  exact finish_ledger_key _ _ _ _

theorem keyDecide_renews (hent : s.key.entropyBad = false) (ht : e.target = 1) :
    (s.keyDecide stamp e).key = (s.keyRenewNext e.owner).key := by
  unfold State.keyDecide
  simp only [hval, ne_eq, not_true_eq_false, if_false, ht, (by decide : ¬(1 = 0)), if_true, hent, Bool.false_eq_true]
  exact finish_ledger_key _ _ _ _

theorem keyDecide_stops (ht : e.target = 2) : (s.keyDecide stamp e).key = (s.keyStop e.owner).key := by
  unfold State.keyDecide
  simp only [hval, ne_eq, not_true_eq_false, if_false, ht, (by decide : ¬(2 = 0)), (by decide : ¬(2 = 1))]
  exact (State.finish_law _ _ _ _ _ _).same .key (by decide)

end KeyStage

/-! ### The commit of a Key Rotate -/

theorem same_of_gate (s : State) (g : Gate) : Same [.gate] s { s with gate := g } := (Laws.Law.mk (Law.refl s)).same

/-- Nothing follows the last scope of a Key Rotate: its completion was decided at the key stage. -/
theorem scopeDone_same_of_keyRot {w : State} {stamp sc : Nat} {e : Entry} (he : w.gate.entries.look stamp = some e)
    (hk : e.kind = .keyRotE) : Same [.gate] w (w.scopeDone stamp sc) := by
  unfold State.scopeDone
  rw [he]
  dsimp only
  split
  · unfold State.commitLast
    rw [hk]
    exact same_of_gate w _
  · exact same_of_gate w _

/-- What the commit of a Key Rotate does besides its action: messages to the members, and what closes every commit. -/
theorem commit_keyRot {s : State} {stamp zk : Nat} {e : Entry} (halone : NoSystem s.gate.entries)
    (hentry : s.gate.entries.look stamp = some e) (hready : s.commitReady stamp e zk = true) (hk : e.kind = .keyRotE) :
    ∃ t, exec (.commit stamp zk) s = .next t ∧
      Same [.out, .gate, .sward, .cas, .zne, .evt, .log] ((s.stampFlush stamp).keyDecide stamp e) t := by
  have hentries : ((s.stampFlush stamp).keyDecide stamp e).gate.entries = s.gate.entries :=
    (keyDecide_entries _ _ _).trans (stampFlush_entries s stamp)
  have hin : (s.stampFlush stamp).commitIn stamp e zk = (s.stampFlush stamp).keyDecide stamp e := by
    unfold State.commitIn
    rw [hk]
  refine ⟨_, exec_commit halone hentry hready, ?_⟩
  rw [hin, sysGo_id (NoSystem.tail (hentries ▸ halone) stamp zk)]
  have hscope := scopeDone_same_of_keyRot (sc := zk) (hentries ▸ hentry) hk
  have hlease := Same.seq hscope (State.leaseSync_law _ zk).same (w := [.out, .gate, .sward, .cas]) (by decide) (by decide)
  have hmig := Same.seq hlease (State.migCheck_law _).same (w := [.out, .gate, .sward, .cas, .zne, .evt, .log]) (by decide) (by decide)
  exact Same.seq hmig (State.settle_law _).same (by decide) (by decide)

/-- Settles O25: the messages before the commit and what closes it leave keys, zones and the draws alone, so the owner is as the key
stage left it. -/
theorem keyRotateCommits : Obligations.KeyRotateCommits := by
  intro s stamp zk e halone hentry hready hk hval hent k
  have hflush := (State.stampFlush_law s stamp).same
  have hkey : (s.stampFlush stamp).key = s.key := hflush .key (by decide)
  have howner : (s.stampFlush stamp).keyOwner e.owner = k := keyOwner_of_owners _ (congrArg Key.owners hkey)
  have hfree : (s.stampFlush stamp).free = s.free := hflush .free (by decide)
  have hval' : e.val = ((s.stampFlush stamp).keyOwner e.owner).cur := hval.trans (congrArg KeyOwner.cur howner.symm)
  have hent' : (s.stampFlush stamp).key.entropyBad = false := hkey ▸ hent
  obtain ⟨t, ht, hsame⟩ := commit_keyRot halone hentry hready hk
  have hacts {w : State} (hw : ((s.stampFlush stamp).keyDecide stamp e).key = w.key) : t.keyOwner e.owner = w.keyOwner e.owner :=
    keyOwner_of_owners _ (congrArg Key.owners ((hsame .key (by decide)).trans hw))
  refine ⟨t, ht, ?_, fun htgt hlive hbound hcur => ?_, fun htgt => ?_, fun htgt => ?_⟩
  · rw [hsame .zones (by decide), (State.keyDecide_law _ _ _).same .zones (by decide), stampFlush_zones]
  · have hbound' : (s.stampFlush stamp).bound2 e.owner = false := by
      rw [← hbound]
      unfold State.bound2 State.zoneOwner State.nsOwner
      rw [stampFlush_zones, hflush .nss (by decide)]
    rw [hacts (keyDecide_rotates hval' stamp hent' htgt (howner ▸ hlive) hbound' (howner ▸ hcur))]
    have hrot := keyRotate_keyOwner (s.stampFlush stamp) e.owner
    rwa [howner, hfree] at hrot
  · rw [hacts (keyDecide_renews hval' stamp hent' htgt), keyRenewNext_keyOwner, howner, hfree]
  · rw [hacts (keyDecide_stops hval' stamp htgt), keyStop_keyOwner, howner]
    unfold State.keyLimit
    rw [hkey]

end Sys2Proof.Proofs
end

section
/-! PROOFS. The links of the cascade: training, HELLO, AUTH and IDENT (R324, R327), training again (R323), the next key (R314). -/

namespace Sys2Proof.Proofs

open Sys2Proof Sys2Proof.Machine Sys2Proof.Safety Sys2Proof.Laws

/-- A step of the join that failed has taken the link down with cause 4, and nothing on it is outstanding. -/
def JoinFailed (t : State) (p : Nat) : Prop := (t.port p).phase = 0 ∧ (t.port p).downCause = 4 ∧ (t.port p).unacked = []

theorem linkDrop_joinFailed (s : State) (p : Nat) : JoinFailed (s.linkDrop p 4) p := by
  unfold JoinFailed
  rw [linkDrop_port]
  exact ⟨rfl, rfl, rfl⟩

theorem look_of_has {α : Type} {t : Tbl α} {k : Nat} (h : t.has k = true) : ∃ v, t.look k = some v := Option.isSome_iff_exists.mp h

theorem has_of_look {α : Type} {t : Tbl α} {k : Nat} {v : α} (h : t.look k = some v) : t.has k = true := by
  unfold Tbl.has
  rw [h]
  rfl

theorem member_of_look {s : State} {c : Nat} {m : Member} (h : s.cas.members.look c = some m) : s.member c = m := get_of_look h _

/-! ### Training (R323, R324 step 1) -/

/-- A crown's port whose chip the image names and whose member is neither ACTIVE nor EXCLUDED: it may train. -/
structure CrownPort (s : State) (p : Nat) : Prop where
  crown : s.cas.crown = true
  named : s.cas.named.getLsbD (p + 1) = true
  notActive : (s.member (p + 1)).st ≠ .active
  notExcluded : (s.member (p + 1)).st ≠ .excluded

/-- A port that trains, on a chip that is powered, has not stopped at boot, and is not in Stop. -/
structure Trains (s : State) (p : Nat) : Prop where
  powered : s.powered = true
  stage : s.upd.stage ≠ 15
  awake : s.inStop = false
  phase : (s.port p).phase = 1

/-- A port whose PHY has trained. -/
def trained (s : State) (p : Nat) : State :=
  (s.lanesDrop (ubpelPort p)).portEdit p fun q =>
    { q with phase := 2, txSeq := [], rxSeq := [], credits := [], unacked := [], fseqTx := 1 }

theorem trained_port (s : State) (p : Nat) : (trained s p).port p =
    { s.port p with phase := 2, txSeq := [], rxSeq := [], credits := [], unacked := [], fseqTx := 1 } := portEdit_port _ p _

theorem trained_same (s : State) (p : Nat) : Same [.sward, .cas] s (trained s p) :=
  Same.seq (State.lanesDrop_law s _).same (portEdit_same _ p _) (by decide) (by decide)

/-- At the crown a member that was ABSENT joins. -/
def joining (s : State) (c : Nat) : State := if s.cas.crown ∧ (s.member c).st = .absent then s.memSt c .joining 0 else s

theorem joining_port (s : State) (c : Nat) {r : Nat} (h : (s.port r).phase < 4) : (joining s c).port r = s.port r := by
  unfold joining
  split
  · exact ((memSt_quiet s c .joining 0).quiet r h).trans (memEdit_port s c _ r)
  · rfl

theorem joining_member {s : State} {c : Nat} (hcrown : s.cas.crown = true) (habsent : (s.member c).st = .absent)
    (hhas : s.cas.members.has c = true) : ((joining s c).member c).st = .joining := by
  obtain ⟨m, hm⟩ := look_of_has hhas
  unfold joining
  rw [if_pos ⟨hcrown, habsent⟩, member_of_look (memSt_look hm _ _)]

section Training
variable {s : State} {p : Nat} (h : Trains s p)
include h

theorem Trains.runs : ¬((!s.powered) = true ∨ s.upd.stage = 15 ∨ s.inStop = true ∨ 1 < (s.port p).phase) := by
  rw [h.powered, h.awake, h.phase]
  exact fun hbad => hbad.elim nofun fun hbad => hbad.elim h.stage fun hbad => hbad.elim nofun (by decide)

/-- No rule keeps such a port of the crown from training. -/
theorem Trains.permitted (hc : CrownPort s p) :
    ¬((!s.cas.crown) = true ∧ p ≠ 0) ∧
    ¬(s.cas.crown = true ∧ ((!s.cas.named.getLsbD (p + 1)) = true ∨ (s.member (p + 1)).st = .excluded ∨
      (s.member (p + 1)).st = .active ∨ (s.port p).phase = 0 ∧ (s.port p).downCause ≠ 0)) := by
  rw [hc.crown, hc.named, h.phase]
  exact ⟨nofun, fun ⟨_, hbad⟩ => hbad.elim nofun fun hbad => hbad.elim hc.notExcluded fun hbad => hbad.elim hc.notActive (by simp)⟩

theorem join_trained_crown (hc : CrownPort s p) :
    exec (.join p true) s = .next ((joining (trained s p) (p + 1)).say (.frame p 1 0 0 1 [1, p + 1])) := by
  show execJoin p true s = _
  unfold execJoin
  simp only [h.runs, h.permitted hc, Bool.not_true, Bool.false_eq_true, if_false]
  simp only [hc.crown, if_true]
  rfl

theorem join_untrained_crown (hc : CrownPort s p) : exec (.join p false) s = .next (s.linkDrop p 4) := by
  show execJoin p false s = _
  unfold execJoin
  simp only [h.runs, h.permitted hc, Bool.not_false, if_false, if_true]

end Training

/-- A member's port 0, the one that leads to the crown, says HELLO without a chip number. -/
theorem join_trained_member {s : State} (h : Trains s 0) (hc : s.cas.crown = false) :
    exec (.join 0 true) s = .next ((trained s 0).say (.frame 0 1 0 0 1 [0, 0])) := by
  have hjoining : joining (trained s 0) 1 = trained s 0 := if_neg fun hbad => by
    rw [show (trained s 0).cas.crown = s.cas.crown from rfl, hc] at hbad
    exact absurd hbad.1 (by decide)
  show execJoin 0 true s = _
  unfold execJoin
  simp only [h.runs, hc, Bool.not_true, Bool.false_eq_true, if_false, ne_eq, not_true_eq_false, and_false, false_and]
  exact congrArg (fun u : State => Host.Outcome.next (u.say (.frame 0 1 0 0 1 [0, 0]))) hjoining

theorem portTrainingRetry_trains {s : State} {p : Nat} (hc : CrownPort s p) (hdown : (s.port p).phase = 0) :
    exec (.portTrainingRetry p) s = .next (s.portEdit p fun q => { q with phase := 1 }) := by
  show execPortTrainingRetry p s = _
  unfold execPortTrainingRetry
  simp only [hc.crown, hdown, hc.named, hc.notActive, hc.notExcluded, Bool.not_true, Bool.false_eq_true, ne_eq, not_true_eq_false,
    or_self, if_false]

/-! ### HELLO (R324 step 2) -/

/-- The peer's key is noted, and a member takes its chip number from the crown. -/
def helloTaken (s : State) (p : Nat) (m : HelloMsg) : State :=
  let u := s.portEdit p fun q => { q with phase := 3, peerKey := m.keyHash, fseqTx := 2 }
  if s.cas.crown then u else { u with cas := { u.cas with chip := m.chip % 4 } }

section Hello
variable (s : State) (p : Nat) (m : HelloMsg)

theorem helloTaken_same : Same [.cas] s (helloTaken s p m) := by
  unfold helloTaken
  split
  · exact portEdit_same s p _
  · exact Same.seq (portEdit_same s p _) (cas_same _ _) (by decide) (by decide)

theorem helloTaken_port : (helloTaken s p m).port p = { s.port p with phase := 3, peerKey := m.keyHash, fseqTx := 2 } := by
  unfold helloTaken
  split
  · exact portEdit_port s p _
  · exact (chip_port _ _ p).trans (portEdit_port s p _)

theorem helloTaken_chip : (helloTaken s p m).cas.chip = if s.cas.crown then s.cas.chip else m.chip % 4 := by
  unfold helloTaken
  split <;> rfl

end Hello

theorem hello_accepted {s : State} {p : Nat} {m : HelloMsg} (hphase : (s.port p).phase = 2) (hrole : m.crown ≠ s.cas.crown) :
    exec (.hello p m) s = .next ((helloTaken s p m).say (.frame p 2 0 0 2 [])) :=
  (if_neg (not_not_of hphase)).trans (if_neg hrole)

theorem hello_refused {s : State} {p : Nat} {m : HelloMsg} (hphase : (s.port p).phase = 2) (hrole : m.crown = s.cas.crown) :
    exec (.hello p m) s = .next (s.linkDrop p 4) :=
  (if_neg (not_not_of hphase)).trans (if_pos hrole)

/-! ### AUTH (R324 steps 3 to 5) -/

section Auth
variable {s : State} {p : Nat} (hphase : (s.port p).phase = 3)
include hphase

theorem auth_refused {sig : Bool} (h : sig = false ∨ s.paired p = false) : exec (.auth p sig) s = .next (s.linkDrop p 4) := by
  refine (if_neg (not_not_of hphase)).trans (if_pos ?_)
  rcases h with h | h <;> simp [h]

/-- Both checks pass at the crown: the link is keyed, with FSEQ from 1. -/
theorem auth_keys_crown (hpaired : s.paired p = true) (hc : s.cas.crown = true) :
    exec (.auth p true) s = .next (s.portEdit p fun q => { q with phase := 4, fseqTx := 0 }) :=
  (if_neg (not_not_of hphase)).trans ((if_neg (by simp [hpaired])).trans (if_pos hc))

end Auth

/-- What a member says of itself in IDENT. -/
def identBody (s : State) : List Nat :=
  [s.upd.digest.toNat, match s.manifest with | some m => m.revision | none => 0, s.dies.length, s.gate.tickCheck,
    s.gate.tickShared.toNat, s.mtr.time] ++ s.efl.svns

/-- A keyed member on which IDENT is sent, and which waits for its snapshot. -/
def identSent (s : State) : State :=
  let u := (s.portEdit 0 fun q => { q with phase := 4, fseqTx := 0 }).casSend 0 0 3 192 (identBody s)
  { u with cas := { u.cas with snap := true, snapBuf := [], held := [] } }

theorem identSent_same (s : State) : Same [.out, .sward, .cas] s (identSent s) :=
  Same.seq (Same.seq (portEdit_same s 0 _) (State.casSend_law _ 0 0 3 192 _).same (w := [.out, .sward, .cas]) (by decide) (by decide))
    (cas_same _ _) (by decide) (by decide)

theorem auth_keys_member {s : State} (hphase : (s.port 0).phase = 3) (hpaired : s.paired 0 = true) (hc : s.cas.crown = false) :
    exec (.auth 0 true) s = .next ((identSent s).portEdit 0 fun q => { q with phase := 5 }) :=
  (if_neg (not_not_of hphase)).trans ((if_neg (by simp [hpaired])).trans (if_neg (by simp [hc])))

/-! ### IDENT (R324 step 6, R327) -/

/-- A member's record with what its IDENT says. -/
def identified (x : Member) (m : IdentMsg) : Member :=
  { x with manifest := m.revision, svns := m.secver, dies := m.dies, cfgDigest := m.cfgDigest, shared := m.shared, check := m.check
           matched := false }

/-- A die of a member comes into the crown's tables. -/
def dieKnown (s : State) (dk : Nat) : State := if s.dies.has dk then s else { s with dies := s.dies.put dk {} }

theorem dieKnown_law (s : State) (dk : Nat) : Law [.dies] s (dieKnown s dk) := Law.ite (Law.refl s) (Laws.Law.mk (Law.refl s))

/-- The crown has noted an IDENT: the port is joined, the member's values stand in its record, and its dies are known. -/
def identNoted (s : State) (c : Nat) (m : IdentMsg) : State :=
  (List.range (min 32 (m.dies / 32))).foldl
    (fun (s : State) k => (List.range 32).foldl (fun (s : State) ch => dieKnown s (dieKey c (ch * 32 + k))) s)
    ((s.portEdit (portOf c) fun q => { q with phase := 5 }).memEdit c fun x => identified x m)

section Noted
variable (s : State) (c : Nat) (m : IdentMsg)

theorem identNoted_dies : Same [.dies] ((s.portEdit (portOf c) fun q => { q with phase := 5 }).memEdit c fun x => identified x m)
    (identNoted s c m) :=
  (Law.foldl _ (Law.refl _) fun u _ => Law.foldl _ (Law.refl u) fun v _ => dieKnown_law v _).same

theorem identNoted_same : Same [.cas, .dies] s (identNoted s c m) :=
  Same.seq (Same.seq (portEdit_same s _ _) (memEdit_same _ c _) (w := [.cas]) (by decide) (by decide)) (identNoted_dies s c m)
    (by decide) (by decide)

theorem identNoted_cas : (identNoted s c m).cas =
    ((s.portEdit (portOf c) fun q => { q with phase := 5 }).memEdit c fun x => identified x m).cas :=
  identNoted_dies s c m .cas (by decide)

theorem identNoted_phase : ((identNoted s c m).port (portOf c)).phase = 5 := by
  rw [port_of_cas (identNoted_cas s c m), memEdit_port, portEdit_port]

variable {s c} {x : Member} (hx : s.cas.members.look c = some x)
include hx

theorem identNoted_look : (identNoted s c m).cas.members.look c = some (identified x m) := by
  rw [identNoted_cas]
  exact memEdit_look (s := s.portEdit (portOf c) fun q => { q with phase := 5 }) hx _

theorem identNoted_versionsMatch {i : Manifest} (hi : s.manifest = some i) :
    (identNoted s c m).versionsMatch c = (i.revision == m.revision && s.efl.svns == m.secver) := by
  have hsame := identNoted_same s c m
  unfold State.versionsMatch
  rw [member_of_look (identNoted_look m hx), hsame .manifest (by decide), hsame .efl (by decide), hi]
  rfl

omit hx in
/-- What an IDENT leads to, once noted (R327); a member that fell back from a trial ends the crown's trial too (R448). -/
theorem identAt_eq : s.identAt c m =
    if m.cfgDigest ≠ s.upd.digest then (identNoted s c m).memSt c .refused 0
    else if !(identNoted s c m).versionsMatch c then
      if s.nv.actState == 2 && m.revision == s.nv.actFromRev && !m.prepared && decide (s.upd.stage < 9) then
        (identNoted s c m).trialFallback c
      else if m.prepared then ((identNoted s c m).memSt c .held 0).casSend (portOf c) 3 0x42 0 [2]
      else (identNoted s c m).memSt c .held 0
    else if ((identNoted s c m).member c).st = .fenced then
      (identNoted s c m).memEdit c fun x => { x with resync := if s.cas.auto then 1 else 0 }
    else ((identNoted s c m).memSt c .joining 0).memEdit c fun x => { x with resync := 1 } := rfl

/-- Another configuration digest is refused. -/
theorem identAt_refuses (hd : m.cfgDigest ≠ s.upd.digest) : ((s.identAt c m).member c).st = .refused := by
  rw [identAt_eq, if_pos hd, member_of_look (memSt_look (identNoted_look m hx) _ _)]

/-- Another version is held, outside a trial. -/
theorem identAt_holds (hd : m.cfgDigest = s.upd.digest) (hv : (identNoted s c m).versionsMatch c = false) (ht : s.nv.actState ≠ 2) :
    ((s.identAt c m).member c).st = .held := by
  have hfell : ¬((s.nv.actState == 2 && m.revision == s.nv.actFromRev && !m.prepared && decide (s.upd.stage < 9)) = true) := by
    rw [beq_false_of_ne ht]
    simp
  have hmembers : (s.identAt c m).cas.members = ((identNoted s c m).memSt c .held 0).cas.members := by
    rw [identAt_eq, if_neg (not_not_of hd), hv, if_pos (by decide), if_neg hfell]
    split
    · exact casSend_members _ _ _ _ _ _
    · rfl
  rw [member_of_members hmembers, member_of_look (memSt_look (identNoted_look m hx) _ _)]

/-- A member that is FENCED stays so, and resynchronises with AUTO. -/
theorem identAt_fenced (hd : m.cfgDigest = s.upd.digest) (hv : (identNoted s c m).versionsMatch c = true) (hf : x.st = .fenced) :
    ((s.identAt c m).port (portOf c)).phase = 5 ∧ ((s.identAt c m).member c).st = .fenced ∧
      ((s.identAt c m).member c).resync = if s.cas.auto then 1 else 0 := by
  have hlook := identNoted_look m hx
  have hst : ((identNoted s c m).member c).st = .fenced := by
    rw [member_of_look hlook]
    exact hf
  rw [identAt_eq, if_neg (not_not_of hd), hv, if_neg (by decide), if_pos hst, memEdit_port, identNoted_phase,
    member_of_look (memEdit_look hlook _)]
  exact ⟨rfl, hf, rfl⟩

/-- Any other member joins and resynchronises. -/
theorem identAt_joins (hd : m.cfgDigest = s.upd.digest) (hv : (identNoted s c m).versionsMatch c = true) (hf : x.st ≠ .fenced) :
    ((s.identAt c m).port (portOf c)).phase = 5 ∧ ((s.identAt c m).member c).st = .joining ∧ ((s.identAt c m).member c).resync = 1 := by
  have hlook := identNoted_look m hx
  have hst : ((identNoted s c m).member c).st ≠ .fenced := by
    rw [member_of_look hlook]
    exact hf
  rw [identAt_eq, if_neg (not_not_of hd), hv, if_neg (by decide), if_neg hst, memEdit_port,
    (memSt_quiet _ c .joining 0).phase, memEdit_port, identNoted_phase, member_of_look (memEdit_look (memSt_look hlook _ _) _)]
  exact ⟨rfl, rfl, rfl⟩

end Noted

section Ident
variable {s : State} {f : Frame} {x : Member} (hc : s.cas.crown = true) (hphase : (s.port f.port).phase = 4)
  (hturn : FrameTurn s f 4) (hx : s.cas.members.look (f.port + 1) = some x) (m : IdentMsg)

include hx in
theorem frameTaken_look : (frameTaken s f).cas.members.look (f.port + 1) = some { x with contact := s.now } := by
  rw [frameTaken_members]
  exact Tbl.look_edit _ hx

theorem frameTaken_digest : (frameTaken s f).upd.digest = s.upd.digest :=
  congrArg Upd.digest (frameTaken_same s f .upd (by decide))

include hx in
theorem frameTaken_versionsMatch {i : Manifest} (hi : s.manifest = some i) :
    (identNoted (frameTaken s f) (f.port + 1) m).versionsMatch (f.port + 1) = (i.revision == m.revision && s.efl.svns == m.secver) := by
  have hsame := frameTaken_same s f
  rw [identNoted_versionsMatch m (frameTaken_look hx) ((hsame .manifest (by decide)).trans hi), hsame .efl (by decide)]

include hc hphase hturn hx

/-- The crown compares an IDENT on its turn, from a member that it has a record of. -/
theorem ident_on_turn : exec (.ident f m) s = .next ((frameTaken s f).identAt (f.port + 1) m) := by
  show execIdent f m s = _
  unfold execIdent
  rw [if_neg (by rw [hc, hphase]; decide), frameIn_on_turn hturn, has_of_look (frameTaken_look hx)]
  rfl

theorem ident_refuses (hd : m.cfgDigest ≠ s.upd.digest) :
    ∃ t, exec (.ident f m) s = .next t ∧ (t.member (f.port + 1)).st = .refused :=
  ⟨_, ident_on_turn hc hphase hturn hx m, identAt_refuses m (frameTaken_look hx) fun h => hd (h.trans frameTaken_digest)⟩

theorem ident_holds (hd : m.cfgDigest = s.upd.digest) {i : Manifest} (hi : s.manifest = some i)
    (hne : i.revision ≠ m.revision ∨ s.efl.svns ≠ m.secver) (hact : s.nv.actState ≠ 2) :
    ∃ t, exec (.ident f m) s = .next t ∧ (t.member (f.port + 1)).st = .held := by
  have hv : (identNoted (frameTaken s f) (f.port + 1) m).versionsMatch (f.port + 1) = false := by
    rw [frameTaken_versionsMatch hx m hi]
    rcases hne with hne | hne <;> simp [hne]
  have hact' : (frameTaken s f).nv.actState ≠ 2 := by rwa [frameTaken_same s f .nv (by decide)]
  exact ⟨_, ident_on_turn hc hphase hturn hx m, identAt_holds m (frameTaken_look hx) (hd.trans frameTaken_digest.symm) hv hact'⟩

theorem ident_joins (hd : m.cfgDigest = s.upd.digest) {i : Manifest} (hi : s.manifest = some i) (hrev : i.revision = m.revision)
    (hsec : s.efl.svns = m.secver) : ∃ t, exec (.ident f m) s = .next t ∧ (t.port f.port).phase = 5 ∧
      (x.st = .fenced → (t.member (f.port + 1)).st = .fenced ∧ (t.member (f.port + 1)).resync = if s.cas.auto then 1 else 0) ∧
      (x.st ≠ .fenced → (t.member (f.port + 1)).st = .joining ∧ (t.member (f.port + 1)).resync = 1) := by
  have hv : (identNoted (frameTaken s f) (f.port + 1) m).versionsMatch (f.port + 1) = true := by
    rw [frameTaken_versionsMatch hx m hi]
    simp [hrev, hsec]
  have hd' := hd.trans (frameTaken_digest (f := f)).symm
  have hlook := frameTaken_look hx
  refine ⟨_, ident_on_turn hc hphase hturn hx m, ?_⟩
  by_cases hf : x.st = .fenced
  · obtain ⟨hport, hst, hresync⟩ := identAt_fenced m hlook hd' hv hf
    exact ⟨hport, fun _ => ⟨hst, hresync⟩, fun hnot => absurd hf hnot⟩
  · obtain ⟨hport, hst, hresync⟩ := identAt_joins m hlook hd' hv hf
    exact ⟨hport, fun hyes => absurd hyes hf, fun _ => ⟨hst, hresync⟩⟩

end Ident

/-! ### Keyed and joined links (R314, R390) -/

theorem ubpelRekey_keyed {s : State} {p : Nat} (h : 4 ≤ (s.port p).phase) (tx : Bool) : exec (.ubpelRekey p tx) s =
    .next (s.portEdit p fun q => { q with rekeys := q.rekeys + 1, fseqTx := if tx then 0 else q.fseqTx }) :=
  if_neg (Nat.not_lt.mpr h)

theorem equalisationRefresh_joined {s : State} {p : Nat} (h : 5 ≤ (s.port p).phase) : exec (.equalisationRefresh p) s =
    .next (s.portEdit p fun q => { q with eqRefreshes := q.eqRefreshes + 1 }) :=
  if_neg (Nat.not_lt.mpr h)

/-- Settles O45, step by step: each row answers its own equation, and a member's record follows what its IDENT says. -/
theorem linksTrainAndJoin : Obligations.LinksTrainAndJoin := by
  intro s p q failed
  have hfailed : failed (s.linkDrop p 4) := linkDrop_joinFailed s p
  refine ⟨fun hpow hstage hawake hphase => ?_, fun m hphase => ⟨fun hrole => ?_, fun hrole => ⟨_, hello_refused hphase hrole, hfailed⟩⟩,
    fun sig hphase => ⟨?_, ?_, fun h => ⟨_, auth_refused hphase h, hfailed⟩⟩, ?_, fun hc hdown hnamed hact hexcl => ?_, fun tx h => ?_,
    fun h => ?_⟩
  · have h : Trains s p := ⟨hpow, hstage, hawake, hphase⟩
    refine ⟨fun hc hnamed hact hexcl => ?_, ?_⟩
    · have hcp : CrownPort s p := ⟨hc, hnamed, hact, hexcl⟩
      have hport : (joining (trained s p) (p + 1)).port p = (trained s p).port p :=
        joining_port _ _ (by rw [trained_port]; exact (by decide : 2 < 4))
      refine ⟨⟨_, join_trained_crown h hcp, ?_, ?_, fun habsent hhas => joining_member (s := trained s p) hc habsent hhas⟩,
        _, join_untrained_crown h hcp, hfailed⟩
      · exact (congrArg Port.phase hport).trans (by rw [trained_port])
      · exact (congrArg Port.unacked hport).trans (by rw [trained_port])
    · rintro hc rfl
      refine ⟨_, join_trained_member h hc, Same.seq (trained_same s 0) (State.say_law _ _).same (by decide) (by decide), ?_, rfl⟩
      exact congrArg Port.phase (trained_port s 0)
  · have hport := helloTaken_port s p m
    exact ⟨_, hello_accepted hphase hrole, Same.seq (helloTaken_same s p m) (State.say_law _ _).same (by decide) (by decide),
      congrArg Port.phase hport, congrArg Port.peerKey hport, helloTaken_chip s p m⟩
  · rintro rfl hpaired hc
    refine ⟨_, auth_keys_crown hphase hpaired hc, portEdit_same s p _, ?_, ?_⟩ <;> rw [portEdit_port]
  · rintro rfl hpaired hc rfl
    refine ⟨_, auth_keys_member hphase hpaired hc, Same.seq (identSent_same s) (portEdit_same _ 0 _) (by decide) (by decide), ?_, rfl⟩
    rw [portEdit_port]
  · rintro f m x hc rfl hphase hturn hx -
    exact ⟨ident_refuses hc hphase hturn hx m, fun i hd hi hne hact => ident_holds hc hphase hturn hx m hd hi hne hact,
      fun i hd hi hrev hsec => ident_joins hc hphase hturn hx m hd hi hrev hsec⟩
  · exact ⟨_, portTrainingRetry_trains ⟨hc, hnamed, hact, hexcl⟩ hdown, portEdit_same s p _, portEdit_port s p _⟩
  · exact ⟨_, ubpelRekey_keyed h tx, portEdit_same s p _, portEdit_port s p _⟩
  · exact ⟨_, equalisationRefresh_joined h, portEdit_same s p _, portEdit_port s p _⟩

end Sys2Proof.Proofs
end

section
/-! PROOFS. Steps: each one runs the command at the front of the queue, or lets time pass; the queue empties, and every step keeps
the invariant, the seal counter and level 2 (R343, R362, R435, R461). -/

namespace Sys2Proof.Proofs

open Sys2Proof Sys2Proof.Machine Sys2Proof.Safety Sys2Proof.Laws

/-! ### One step -/

theorem step_front {s : State} {c : Instr} {rest : List Instr} (h : s.pending = c :: rest) :
    step s = exec c { s with pending := rest } := by
  unfold step
  rw [h]

theorem step_empty {s : State} (h : s.pending = []) : step s = .next s.tick := by
  unfold step
  rw [h]

/-- Settles O1: the queue of the state is the command and the rest. -/
theorem stepRunsTheFrontCommand : Obligations.StepRunsTheFrontCommand := fun _ _ _ => step_front rfl

theorem logAppend_clearing (s : State) (r : LogRec) : (s.logAppend r).log.clearing = s.log.clearing := by
  unfold State.logAppend
  split
  · split <;> rfl
  · split <;> rfl

/-- The records that were held are appended after the clear has ended (R461). -/
theorem logWiped_clearing (s : State) : s.logWiped.log.clearing = false := by
  have append : ∀ (l : List LogRec) (u : State), (l.foldl (fun s r => s.logAppend r) u).log.clearing = u.log.clearing := by
    intro l
    induction l with
    | nil => exact fun _ => rfl
    | cons r l ih => exact fun u => (ih _).trans (logAppend_clearing u r)
  unfold State.logWiped
  split
  · rw [append]
  · next h => simpa using h

/-- Settles O2: what passes without a command is the tick, whose frame is part of its law. -/
theorem emptyQueueLetsTimePass : Obligations.EmptyQueueLetsTimePass := fun s h =>
  ⟨s.tick, step_empty h, congrArg (· + 1) ((State.logWiped_law s).same .now (by decide)),
    congrArg (fun m : Mtr => if m.run then m.time + 1 else m.time) ((State.logWiped_law s).same .mtr (by decide)), logWiped_clearing s, (State.tick_law s).same⟩

/-! ### The queue -/

/-- The queue is no part that a command may change. -/
theorem pending_not_mem_touch (c : Instr) : Piece.pending ∉ touch c := by
  have h : (touch c).contains Piece.pending = false := by cases c <;> rfl
  simpa using h

theorem exec_keeps_pending (c : Instr) (s : State) : ∃ t, exec c s = .next t ∧ t.pending = s.pending := by
  obtain ⟨t, ht, hlaw⟩ := exec_law c s
  exact ⟨t, ht, hlaw.same .pending (pending_not_mem_touch c)⟩

/-- Settles O3: every command has a law, and no command's law lists the queue. -/
theorem everyCommandAnswersAndKeepsTheQueue : Obligations.EveryCommandAnswersAndKeepsTheQueue := exec_keeps_pending

theorem run_succ (M : Host.Core) {s u : M.State} (h : M.step s = .next u) (k : Nat) : M.run (k + 1) s = M.run k u := by
  rw [Host.Core.run, h]

/-- Each step takes one command off the queue and puts none there. -/
theorem run_empties (l : List Instr) : ∀ s : State, s.pending = l → ∃ t, Sys2Proof.core.run l.length s = .next t ∧ t.pending = [] := by
  induction l with
  | nil => exact fun s h => ⟨s, rfl, h⟩
  | cons c rest ih =>
    intro s h
    obtain ⟨u, hu, hpending⟩ := exec_keeps_pending c { s with pending := rest }
    obtain ⟨t, ht, hempty⟩ := ih u hpending
    exact ⟨t, (run_succ Sys2Proof.core ((step_front h).trans hu) rest.length).trans ht, hempty⟩

/-- Settles O5, by induction over the queue. -/
theorem waitingCommandsAllRun : Obligations.WaitingCommandsAllRun := fun s => run_empties s.pending s rfl

/-! ### What every step keeps -/

/-- Settles O7: the forms of the log, the memories and the Bonnet array are promises that no step breaks. -/
theorem everyStepKeepsTheInvariant : Obligations.EveryStepKeepsTheInvariant := by
  rintro s t ⟨hlog, hmem, hefl⟩ hstep
  have hgood := step_good hstep
  exact ⟨hgood.log hlog, hgood.mem hmem, (hgood.efl hefl).1⟩

/-- Settles O9: so is that the seal counter neither falls nor passes its end. -/
theorem sealCounterNeverFalls : Obligations.SealCounterNeverFalls := fun _ _ hstep => (step_good hstep).sealCnt

/-- Settles O10: so is, from a Bonnet array in its form, that level 2 stays. -/
theorem levelTwoIsPermanent : Obligations.LevelTwoIsPermanent := by
  rintro s t ⟨-, -, hefl⟩ hlevel hstep
  exact ((step_good hstep).efl hefl).2 hlevel

end Sys2Proof.Proofs
end

section
/-! PROOFS. The Bonnet array: reads, programs, erases and their completion, the lowering, the levels, the password and the mask (R430 to
R436). -/

namespace Sys2Proof.Proofs

open Sys2Proof Sys2Proof.Machine Sys2Proof.Safety Sys2Proof.Laws

/-! ### Reads, programs and erases (R430, R432) -/

/-- The outside may use the array where it points: nothing is under way, and the sector's class is open. -/
structure EflOpen (s : State) : Prop where
  idle : s.efl.busy = false
  shown : secSealed s.efl.sec = false ∨ s.efl.level = 0

theorem exec_refuses_of_shut {s : State} {c : Instr} (hc : (∃ d k, c = .eflRead d k) ∨ c = .eflProgram ∨ c = .eflErase)
    (hidle : s.efl.busy = false) (hsealed : secSealed s.efl.sec = true) (hlevel : s.efl.level ≠ 0) : exec c s = .next s.eflRefuse := by
  have hbusy : ¬(s.efl.busy = true) := by simp [hidle]
  have hshut : s.eflShut = true := by simp [State.eflShut, hsealed, hlevel]
  rcases hc with ⟨d, k, rfl⟩ | rfl | rfl <;> exact (if_neg hbusy).trans (if_pos hshut)

theorem wordAt_of_look {e : Efl} {a : Nat} {v : Word} (h : e.words.look a = some v) (epoch : Nat) : e.wordAt epoch a = v := by
  unfold Efl.wordAt
  rw [h]

theorem wordAt_blank {e : Efl} {a : Nat} (h : e.words.look a = none) (hb : e.erased.contains (secOf a) = true ∨ secFilled (secOf a) = false)
    (epoch : Nat) : e.wordAt epoch a = BitVec.allOnes 64 := by
  have hblank : (e.erased.contains (secOf a) || !secFilled (secOf a)) = true := by rcases hb with hb | hb <;> rw [hb] <;> simp
  unfold Efl.wordAt
  rw [h]
  exact if_pos hblank

section Open
variable {s : State} (h : EflOpen s)
include h

theorem EflOpen.not_busy : ¬(s.efl.busy = true) := by simp [h.idle]

theorem EflOpen.not_shut : ¬(s.eflShut = true) := by
  unfold State.eflShut
  rcases h.shown with h | h <;> simp [h]

theorem eflRead_reads (k : Bool) : exec (.eflRead false k) s =
    .next { s with efl := { s.efl with result := 0, corr := k, data := s.efl.wordAt s.key.epoch s.efl.at_ } } :=
  (if_neg h.not_busy).trans ((if_neg h.not_shut).trans (if_neg nofun))

theorem eflRead_fails (k : Bool) : exec (.eflRead true k) s = .next { s with
    free := s.free + 1, efl := { s.efl with result := 5, corr := false, data := BitVec.ofNat 64 s.freeVal } } :=
  (if_neg h.not_busy).trans ((if_neg h.not_shut).trans (if_pos rfl))

theorem write_barred {r : Nat} (hr : s.efl.writeBar = some r) :
    exec .eflProgram s = .next { s with efl := { s.efl with result := r } } ∧
      exec .eflErase s = .next { s with efl := { s.efl with result := r } } := by
  constructor
  · show execEflProgram s = _
    unfold execEflProgram
    rw [if_neg h.not_busy, if_neg h.not_shut, hr]
    rfl
  · show execEflErase s = _
    unfold execEflErase
    rw [if_neg h.not_busy, if_neg h.not_shut, hr]
    rfl

variable (hw : s.efl.writeBar = none)
include hw

theorem eflProgram_written (hword : s.efl.wordAt s.key.epoch s.efl.at_ ≠ BitVec.allOnes 64) :
    exec .eflProgram s = .next { s with efl := { s.efl with result := 1 } } := by
  show execEflProgram s = _
  unfold execEflProgram
  rw [if_neg h.not_busy, if_neg h.not_shut, hw]
  exact if_pos hword

theorem eflProgram_starts (hword : s.efl.wordAt s.key.epoch s.efl.at_ = BitVec.allOnes 64) : exec .eflProgram s =
    .next { s with efl := { s.efl with busy := true, opKind := 2, opWord := s.efl.at_, opData := s.efl.data } } := by
  show execEflProgram s = _
  unfold execEflProgram
  rw [if_neg h.not_busy, if_neg h.not_shut, hw]
  exact if_neg (not_not_of hword)

theorem eflErase_starts : exec .eflErase s =
    .next { s with efl := { s.efl with busy := true, opKind := 3, opSector := s.efl.sec } } := by
  show execEflErase s = _
  unfold execEflErase
  rw [if_neg h.not_busy, if_neg h.not_shut, hw]
  rfl

end Open

/-! ### The end of an operation (R432, R436) -/

theorem eraseSec_look_none (e : Efl) {x a : Nat} (h : secOf a = x) : (e.eraseSec x).words.look a = none :=
  (look_without_sector e.words x a).trans (if_pos h)

section Ends
variable {s : State} (hbusy : s.efl.busy = true)
include hbusy

theorem operation_runs : ¬((!s.efl.busy) = true) := by simp [hbusy]

theorem program_ends (hrdp : s.efl.rdpBusy = false) (hkind : s.efl.opKind = 2) : exec .eflOperationComplete s = .next { s with
    efl := { s.efl with busy := false, opKind := 0, result := 0, words := s.efl.words.put s.efl.opWord s.efl.opData } } :=
  (if_neg (operation_runs hbusy)).trans ((if_neg (by simp [hrdp])).trans (if_pos hkind))

theorem erase_ends (hrdp : s.efl.rdpBusy = false) (hkind : s.efl.opKind ≠ 2) : exec .eflOperationComplete s =
    .next { s with efl := { s.efl.eraseSec s.efl.opSector with busy := false, opKind := 0, result := 0 } } :=
  (if_neg (operation_runs hbusy)).trans ((if_neg (by simp [hrdp])).trans (if_neg hkind))

theorem lowering_goes_on (hrdp : s.efl.rdpBusy = true) {x : Nat} (hx : rdpNext s.efl.opSector = some x) :
    exec .eflOperationComplete s = .next { s with efl := { s.efl.eraseSec s.efl.opSector with opSector := x } } := by
  show execEflOperationComplete s = _
  unfold execEflOperationComplete
  dsimp only
  rw [if_neg (operation_runs hbusy), if_pos hrdp, hx]
  rfl

theorem lowering_ends (hrdp : s.efl.rdpBusy = true) (hx : rdpNext s.efl.opSector = none) : exec .eflOperationComplete s =
    .next { s with efl := { s.efl.eraseSec s.efl.opSector with rdpBusy := false, busy := false, rdpResult := 0, opKind := 0 } } := by
  show execEflOperationComplete s = _
  unfold execEflOperationComplete
  dsimp only
  rw [if_neg (operation_runs hbusy), if_pos hrdp, hx]
  rfl

end Ends

theorem rdpNext_below {x : Nat} (h : x ≠ 2048) (hx : x < 4091) : rdpNext x = some (x + 1) := (if_neg h).trans (if_pos hx)

theorem rdpNext_above {x : Nat} (h : x ≠ 2048) (hx : 4091 ≤ x) : rdpNext x = some 2048 := (if_neg h).trans (if_neg (by omega))

/-- Without its first level word the array is at level 0 (R435). -/
theorem level_zero {e : Efl} (h : e.words.look (2048 * 256) = none) : e.level = 0 := by
  rw [level_eq, h]
  exact if_pos rfl

/-! ### Protection levels (R435, R436) -/

theorem level_one_of_first_word {e : Efl} (h : e.level = 0)
    (h1 : (e.words.look (2048 * 256 + 1)).getD wordErased = wordErased) (r : Nat) :
    ({ e with rdpResult := r, words := e.words.put (2048 * 256 + e.level) 0 } : Efl).level = 1 := by
  rw [h, level_eq, Tbl.look_put, Tbl.look_put_ne _ _ (by decide)]
  exact (if_neg (by decide)).trans (if_pos h1)

theorem level_two_of_second_word {e : Efl} (h : e.level = 1) (r : Nat) :
    ({ e with rdpResult := r, words := e.words.put (2048 * 256 + e.level) 0 } : Efl).level = 2 := by
  have h0 : (e.words.look (2048 * 256)).getD wordErased ≠ wordErased := fun h0 =>
    absurd ((level_eq e).symm.trans h) (by rw [levelOf, if_pos h0]; decide)
  rw [h, level_eq, Tbl.look_put, Tbl.look_put_ne _ _ (by decide)]
  exact (if_neg h0).trans (if_neg (by decide))

section Rdp
variable {s : State} {target : Nat} (hidle : s.efl.busy = false)
include hidle

theorem rdp_at_two (hl : s.efl.level = 2) : exec (.eflRdp target) s = .next { s with efl := { s.efl with rdpResult := 3 } } :=
  (if_neg (by simp [hidle])).trans (if_pos hl)

variable (hl : s.efl.level ≠ 2)
include hl

theorem rdp_raises (ht : target = s.efl.level + 1) : exec (.eflRdp target) s =
    .next { s with efl := { s.efl with rdpResult := 0, words := s.efl.words.put (2048 * 256 + s.efl.level) 0 } } :=
  (if_neg (by simp [hidle])).trans ((if_neg hl).trans (if_pos ht))

theorem rdp_lowers (h1 : s.efl.level = 1) (ht : target = 0) : exec (.eflRdp target) s =
    if !s.efl.open_ then .next { s with efl := { s.efl with rdpResult := 1 } }
    else if !s.mtr.sealOpen then .next { s with efl := { s.efl with rdpResult := 2 } }
    else .next { s with efl := { s.efl with rdpBusy := true, busy := true, opKind := 3, opSector := 2049 } } :=
  (if_neg (by simp [hidle])).trans ((if_neg hl).trans ((if_neg (by omega)).trans (if_pos ⟨h1, ht⟩)))

theorem rdp_refused (ht : target ≠ s.efl.level + 1) (hlow : ¬(s.efl.level = 1 ∧ target = 0)) :
    exec (.eflRdp target) s = .next { s with efl := { s.efl with rdpResult := 4 } } :=
  (if_neg (by simp [hidle])).trans ((if_neg hl).trans ((if_neg ht).trans (if_neg hlow)))

end Rdp

/-! ### The password and the mask (R433, R434) -/

theorem open_of_unlocked {e : Efl} (h : e.pwSet = none ∨ e.unlocked = true) : e.open_ = true := by
  rcases h with h | h <;> simp [Efl.open_, h]

theorem not_open_of_locked {e : Efl} (hp : e.pwSet ≠ none) (hu : e.unlocked = false) : e.open_ = false := by
  simp [Efl.open_, hu, Option.isSome_iff_ne_none.mpr hp]

theorem oemUnlock_unset {s : State} (h : s.efl.pwSet = none) : exec .oemUnlock s = .next s := by
  show execOemUnlock s = _
  unfold execOemUnlock
  rw [h]

theorem oemUnlock_set {s : State} {p : BitVec 128} (h : s.efl.pwSet = some p) : exec .oemUnlock s =
    if s.efl.lockout then .next s
    else if s.efl.pw = p then .next { s with efl := { s.efl with unlocked := true, attempts := 0 } }
    else .next { s with efl := { s.efl with attempts := s.efl.attempts + 1, lockout := decide (16 ≤ s.efl.attempts + 1) } } := by
  show execOemUnlock s = _
  unfold execOemUnlock
  rw [h]
  rfl

/-- Settles O55: each row answers its own equation; a lowering erases sector by sector and ends with the level words. -/
theorem bonnetArrayAnswers : Obligations.BonnetArrayAnswers := by
  intro s e sets
  refine ⟨fun c hc hidle hsealed hlevel => ?_, fun k hidle hshown => ?_, fun hidle hshown => ?_, fun hbusy hrdp => ⟨program_ends hbusy hrdp, fun hkind => ?_⟩,
    fun hbusy hrdp => ?_, fun target hidle => ?_, oemUnlock_unset, fun p hp => ?_, rfl, fun hopen => ?_, fun hset hlocked => ?_⟩
  · obtain ⟨hefl, hsame⟩ := eflRefuse_spec s
    exact ⟨_, exec_refuses_of_shut hc hidle hsealed hlevel, hefl, hsame⟩
  · have h : EflOpen s := ⟨hidle, hshown⟩
    exact ⟨eflRead_reads h k, fun v hv => wordAt_of_look hv _, fun hnone hblank => wordAt_blank hnone hblank _, _, eflRead_fails h k⟩
  · have h : EflOpen s := ⟨hidle, hshown⟩
    obtain ⟨hfactory, hcontrol, hfree⟩ := writeBar_spec e
    exact ⟨fun hf => write_barred h (hfactory hf), fun hf hc => write_barred h (hcontrol hf hc), fun hf hc hg =>
      ⟨eflProgram_written h (hfree hf hc hg), eflProgram_starts h (hfree hf hc hg), eflErase_starts h (hfree hf hc hg)⟩⟩
  · exact ⟨_, erase_ends hbusy hrdp hkind, efl_same s _, rfl, fun a ha => eraseSec_wordAt e e.opSector s.key.epoch a ha,
      fun a ha => eraseSec_other e e.opSector a ha⟩
  · have hgone : ∀ a, secOf a = e.opSector → (e.eraseSec e.opSector).words.look a = none := fun a ha => eraseSec_look_none e ha
    have hkept : ∀ a, secOf a ≠ e.opSector → (e.eraseSec e.opSector).words.look a = e.words.look a := fun a ha =>
      (eraseSec_other e e.opSector a ha).1
    by_cases hlast : e.opSector = 2048
    · refine ⟨_, lowering_ends hbusy hrdp (if_pos hlast), efl_same s _, hgone, hkept, fun _ hne => absurd hlast hne, fun hx => by omega,
        fun _ => ⟨rfl, rfl, rfl, level_zero (hgone _ ?_)⟩⟩
      rw [hlast]
      decide
    · by_cases hx : e.opSector < 4091
      · exact ⟨_, lowering_goes_on hbusy hrdp (rdpNext_below hlast hx), efl_same s _, hgone, hkept, fun _ _ => ⟨hrdp, rfl⟩,
          fun h => by omega, fun h => absurd h hlast⟩
      · exact ⟨_, lowering_goes_on hbusy hrdp (rdpNext_above hlast (Nat.le_of_not_lt hx)), efl_same s _, hgone, hkept, fun h _ => absurd h hx,
          fun _ => ⟨hrdp, rfl⟩, fun h => absurd h hlast⟩
  · refine ⟨rdp_at_two hidle, fun hl ht => ?_, fun hl ht => ?_, fun hl ht => ?_, rdp_refused hidle⟩
    · exact ⟨_, rdp_raises hidle (by rw [hl]; decide) (by rw [ht, hl]), efl_same s _, rfl, level_two_of_second_word hl 0⟩
    · exact ⟨_, rdp_raises hidle (by rw [hl]; decide) (by rw [ht, hl]), efl_same s _, rfl, fun h1 => level_one_of_first_word hl h1 0⟩
    · have hlow := rdp_lowers hidle (by rw [hl]; decide) hl ht
      refine ⟨fun ⟨hset, hlocked⟩ => ?_, fun hopen hseal => ?_, fun hopen hseal => ?_⟩
      · obtain ⟨p, hp⟩ := hset
        exact hlow.trans (if_pos (by rw [not_open_of_locked (by rw [hp]; nofun) hlocked]; rfl))
      · exact hlow.trans ((if_neg (by rw [open_of_unlocked hopen]; nofun)).trans (if_pos (by rw [hseal]; rfl)))
      · exact hlow.trans ((if_neg (by rw [open_of_unlocked hopen]; nofun)).trans (if_neg (by rw [hseal]; nofun)))
  · have hset := oemUnlock_set hp
    exact ⟨fun hout => hset.trans (if_pos hout), fun hout hpw => hset.trans ((if_neg (Bool.eq_false_iff.mp hout)).trans (if_pos hpw)),
      fun hout hpw => hset.trans ((if_neg (Bool.eq_false_iff.mp hout)).trans (if_neg hpw))⟩
  · have hnot : ¬((!e.open_) = true) := by simp [open_of_unlocked hopen]
    exact ⟨if_neg hnot, if_neg hnot⟩
  · have hnot : (!e.open_) = true := by rw [not_open_of_locked hset hlocked]; rfl
    exact ⟨if_pos hnot, if_pos hnot⟩

end Sys2Proof.Proofs
end

section
/-! PROOFS. The staging slot: pieces, discard, the end of a copy, confirmation (R439, R442, R445, R446, R448). -/

namespace Sys2Proof.Proofs

open Sys2Proof Sys2Proof.Machine Sys2Proof.Safety Sys2Proof.Laws

/-! ### The staging slot (R439, R442) -/

theorem discard_ignored {s : State} (h : s.nv.commitAct ≠ 0 ∨ s.nv.stgErasing = true) : exec .discard s = .next s :=
  congrArg Host.Outcome.next (if_pos h)

theorem discard_taken {s : State} (hact : s.nv.commitAct = 0) (herase : s.nv.stgErasing = false) : exec .discard s = .next s.stgDiscard :=
  congrArg Host.Outcome.next (if_neg (by simp [hact, herase]))

theorem discardEraseDone_idle {s : State} (h : s.nv.stgErasing = false) : exec .discardEraseDone s = .next s :=
  congrArg Host.Outcome.next (if_neg (by simp [h]))

/-- The slot once its erase has ended. -/
def slotErased (s : State) : State := { s with nv := { s.nv with stgErasing := false } }

theorem discardEraseDone_ends {s : State} (h : s.nv.stgErasing = true) : exec .discardEraseDone s = .next (slotErased s).pldmAsk :=
  congrArg Host.Outcome.next (if_pos h)

/-- The device asks for a block in its download state only (R441). -/
theorem pldmAsk_silent {s : State} (h : s.nv.pldmState ≠ 3) : s.pldmAsk = s := if_pos (.inl h)

/-! ### The NOR (R439, R445) -/

theorem norOperation_piece {s : State} (h : s.nv.norQueue ≠ []) : exec .norOperationComplete s = .next s.pieceStep :=
  congrArg Host.Outcome.next (if_pos h)

theorem norOperation_copy {s : State} (hq : s.nv.norQueue = []) (hc : s.nv.copying = true) :
    exec .norOperationComplete s = .next s.slotCopied.selfCheck :=
  congrArg Host.Outcome.next ((if_neg (not_not_of hq)).trans (if_pos hc))

theorem pieceStep_erased {s : State} {b : Nat} {d : UnitData} {l : Tbl UnitData} (hq : s.nv.norQueue = (b, d) :: l)
    (he : s.nv.norErase = true) : s.pieceStep = { s with nv := { s.nv with norErase := false } } := by
  unfold State.pieceStep
  rw [hq]
  exact if_pos he

/-- The copy of a PLDM session: its slot is filled and the session goes on. -/
def pldmCopied (s : State) : State :=
  { slotCopied s with nv := { (slotCopied s).nv with commitAct := 0, pldmState := 6 } }

theorem slotCopied_pldm {s : State} (h : s.nv.commitAct = 5) : s.slotCopied = (pldmCopied s).pldmSay 0x18 [0] :=
  (if_neg (by omega)).trans (if_pos h)

/-! ### Confirmation (R448) -/

theorem confirm_ignored {s : State} (h : s.nv.actState ≠ 2 ∨ s.cas.crown = false) : exec .confirm s = .next s :=
  if_pos (h.imp_right (by simp [·]))

/-- The confirmation as the crown sends it to every member that is linked. -/
def confirmSent (s : State) : State :=
  s.linkedMembers.foldl (fun (s : State) c => s.casSend (portOf c) 3 0x42 0 [5]) s

theorem confirm_taken {s : State} (hact : s.nv.actState = 2) (hc : s.cas.crown = true) : exec .confirm s = .next (confirmSent s).confirm :=
  if_neg (by simp [hact, hc])

/-- A trial that is confirmed, before its event. -/
def confirmed (s : State) : State := { s with
  efl := (List.range 8).foldl (fun e c => e.svnRaise c (((s.manifest.map (·.svn)).getD []).getD c 0)) s.efl
  nv := { s.nv with actState := 3, prevLedger := none } }

theorem confirm_trial {s : State} (h : s.nv.actState = 2) : s.confirm = (confirmed s).fire 211 := if_neg (not_not_of h)

theorem confirmed_same (s : State) : Same [.nv, .efl] s (confirmed s) := by
  unfold confirmed
  generalize (List.range 8).foldl _ s.efl = e
  exact Same.seq (efl_same s e) (nv_same _ _) (by decide) (by decide)

/-- Settles O56: a piece and a copy end as the laws of updates say; the rest are the branches of their commands. -/
theorem stagingSlotIsWrittenAndCommitted : Obligations.StagingSlotIsWrittenAndCommitted := by
  intro s n
  refine ⟨discard_ignored, fun hact herase => ⟨fun hq => ?_, fun hq => ?_⟩, fun herase => ?_, discardEraseDone_idle, fun b d l hq => ⟨fun he => ?_, fun he => ?_⟩,
    fun hq hcopy hself => ⟨fun hact => ?_, fun c x hact hm hc hx hp => ?_⟩, fun hact hcrown => ?_, confirm_ignored⟩
  · exact (discard_taken hact herase).trans (congrArg Host.Outcome.next (if_pos hq))
  · exact (discard_taken hact herase).trans (congrArg Host.Outcome.next (if_neg hq))
  · have hsame : Same [.nv] s (slotErased s) := nv_same s _
    exact ⟨_, discardEraseDone_ends herase, (pldmAsk_nv _).1, Same.seq hsame (State.pldmAsk_law _).same (by decide) (by decide),
      fun h => congrArg State.out (a₂ := slotErased s) (pldmAsk_silent h)⟩
  · exact (norOperation_piece (by rw [hq]; nofun)).trans (congrArg Host.Outcome.next (pieceStep_erased hq he))
  · exact ⟨_, norOperation_piece (by rw [hq]; nofun), norPiece_spec s b d l hq he⟩
  · have hend : s.slotCopied.selfCheck = (pldmCopied s).pldmSay 0x18 [0] := by
      rw [slotCopied_pldm hact]
      exact selfCheck_off _ hself
    have hsame : Same [.nv] s (pldmCopied s) := nv_same s _
    exact ⟨_, (norOperation_copy hq hcopy).trans (congrArg Host.Outcome.next hend), Same.seq hsame (State.pldmSay_law _ _ _).same (by decide) (by decide),
      rfl, rfl, rfl, rfl, slotRev_copied s _ ⟨rfl, rfl⟩⟩
  · exact ⟨_, norOperation_copy hq hcopy, copyEnd_alone s c x hact hm hc hx hp hself⟩
  · obtain ⟨hmembers, hsent⟩ := updateSends_members s.linkedMembers s
    have hnv : (confirmSent s).nv = s.nv := hsent .nv (by decide)
    have hefl : (confirmSent s).efl = s.efl := hsent .efl (by decide)
    have hmanifest : (confirmSent s).manifest = s.manifest := hsent .manifest (by decide)
    have hfire := (State.fire_law (confirmed (confirmSent s)) 211 [] 0 0x7ff none).same
    have hconfirm : (confirmSent s).confirm = (confirmed (confirmSent s)).fire 211 := confirm_trial (hnv ▸ hact)
    refine ⟨_, (confirm_taken hact hcrown).trans (congrArg Host.Outcome.next hconfirm),
      Same.seq (Same.seq hsent (confirmed_same _) (w := [.out, .sward, .cas, .nv, .efl]) (by decide) (by decide)) hfire (by decide) (by decide), ?_, ?_, ?_⟩
    · rw [hfire .nv (by decide), confirmed, hnv]
    · rw [hfire .cas (by decide)]
      exact hmembers
    · rw [hfire .efl (by decide), confirmed, hefl, hmanifest]

end Sys2Proof.Proofs
end

section
/-! PROOFS. The PLDM update session: its requests, transfer, verification and activation (R441). -/

namespace Sys2Proof.Proofs

open Sys2Proof Sys2Proof.Machine Sys2Proof.Safety Sys2Proof.Laws

/-- The sideband answers PLDM: the chip is out of reset and not in Stop. -/
def PldmUp (s : State) : Prop := s.powered = true ∧ s.inStop = false

/-! ### Requests and their answers -/

section Session
variable {s : State} (h : PldmUp s)
include h

theorem PldmUp.not_down : ¬((!s.pldmUp) = true) := by simp [State.pldmUp, h.1, h.2]

theorem requestUpdate_in_session (max : Nat) (hst : s.nv.pldmState ≠ 0) : exec (.requestUpdate max) s = .next (s.pldmSay 0x10 [0x81]) :=
  (if_neg h.not_down).trans (if_pos hst)

theorem requestUpdate_unable (max : Nat) (hst : s.nv.pldmState = 0)
    (hbar : s.nv.stgOwner = 1 ∨ s.nv.commitAct ≠ 0 ∨ s.nv.stgErasing = true ∨ s.upd.nosusp = true) :
    exec (.requestUpdate max) s = .next (s.pldmSay 0x10 [0x8a]) :=
  (if_neg h.not_down).trans ((if_neg (not_not_of hst)).trans (if_pos hbar))

theorem requestUpdate_free (max : Nat) (hst : s.nv.pldmState = 0) (ho : s.nv.stgOwner ≠ 1) (ha : s.nv.commitAct = 0)
    (he : s.nv.stgErasing = false) (hs : s.upd.nosusp = false) :
    exec (.requestUpdate max) s = if max < 64 then .next (s.pldmSay 0x10 [0x83])
      else .next ({ s with nv := { s.nv with pldmMax := max, pldmState := 1, pldmSelf := false } }.pldmSay 0x10 [0]) :=
  (if_neg h.not_down).trans ((if_neg (not_not_of hst)).trans (if_neg (by simp [ho, ha, he, hs])))

/-! ### The component and its data -/

theorem passComponentTable_taken (stamp : Nat) (hst : s.nv.pldmState = 1) : exec (.passComponentTable stamp) s =
    .next ({ s.stampKeep stamp with nv := { (s.stampKeep stamp).nv with pldmState := 2 } }.pldmSay 0x13 [0]) :=
  (if_neg h.not_down).trans (if_neg (not_not_of hst))

theorem updateComponent_sized (stamp size : Nat) (hst : s.nv.pldmState = 2) : exec (.updateComponent stamp size) s =
    if s.stgCap * 4096 < size then .next (s.pldmSay 0x14 [0, 1])
    else .next (({ s.stampKeep stamp with nv := { (s.stampKeep stamp).nv with
      stgOwner := 2, pldmStamp := stamp, stgLen := size, pldmState := 3 } }.pldmSay 0x14 [0, 0]).pldmAsk) :=
  (if_neg h.not_down).trans (if_neg (not_not_of hst))

/-- The state in which the device takes data, and ends the transfer. -/
theorem PldmUp.downloads (hst : s.nv.pldmState = 3) (he : s.nv.stgErasing = false) (hq : s.nv.norQueue = []) {o : Option Nat}
    (hnext : s.pldmNext = o) : ¬((!s.pldmUp) = true ∨ s.nv.pldmState ≠ 3 ∨ s.nv.stgErasing = true ∨ s.nv.norQueue ≠ [] ∨ s.pldmNext ≠ o) := by
  have := h.not_down
  simp [this, hst, he, hq, hnext]

/-! ### Verification and activation -/

theorem PldmUp.applies (hst : s.nv.pldmState = 5) (ha : s.nv.commitAct = 0) :
    ¬((!s.pldmUp) = true ∨ s.nv.pldmState ≠ 5 ∨ s.nv.commitAct ≠ 0) := by
  simp [h.not_down, hst, ha]

theorem verifyComplete_checked (pkg : SlotFind) (hst : s.nv.pldmState = 4) : exec (.verifyComplete pkg) s =
    match s.commitCheck pkg s.otherSlot true with
    | some (n, _) => .next ((s.failRecAt 1 n s.otherSlot (s.slotRev s.upd.booted) pkg.manifest.revision).pldmSay 0x17 [n])
    | none => .next ({ s with nv := { s.nv with
        pldmState := 5, commitTarget := s.otherSlot, commitRev := pkg.manifest.revision, commitFr := pkg.manifest.fr } }.pldmSay 0x17 [0]) :=
  if_neg (by simp [h.not_down, hst])

theorem verifyComplete_passes {pkg : SlotFind} (hst : s.nv.pldmState = 4) (hck : s.commitCheck pkg s.otherSlot true = none) :
    exec (.verifyComplete pkg) s = .next ({ s with nv := { s.nv with
      pldmState := 5, commitTarget := s.otherSlot, commitRev := pkg.manifest.revision, commitFr := pkg.manifest.fr } }.pldmSay 0x17 [0]) := by
  rw [verifyComplete_checked h pkg hst, hck]

theorem verifyComplete_fails {pkg : SlotFind} (hst : s.nv.pldmState = 4) {k : Nat} {st : Status}
    (hck : s.commitCheck pkg s.otherSlot true = some (k, st)) : exec (.verifyComplete pkg) s =
      .next ((s.failRecAt 1 k s.otherSlot (s.slotRev s.upd.booted) pkg.manifest.revision).pldmSay 0x17 [k]) := by
  rw [verifyComplete_checked h pkg hst, hck]

end Session

theorem failRecAt_nv (s : State) (stage code slot a b : Nat) : (s.failRecAt stage code slot a b).nv.pldmState = s.nv.pldmState ∧
    (s.failRecAt stage code slot a b).nv.failCount = s.nv.failCount + 1 := by
  unfold State.failRecAt State.failRecOf
  dsimp only
  rw [(fire_nv _ _ _ _ _ _).1]
  exact ⟨rfl, rfl⟩

/-- ActivateFirmware answered, its commit not begun. -/
def activating (s : State) (self may : Bool) : State :=
  let s1 := s.pldmSay 0x1a [if self && !may then pldmNotSelf else 0]
  { s1 with nv := { s1.nv with commitAct := 2, commitCtx := none, pldmState := 0, pldmSelf := may } }

theorem activating_same (s : State) (self may : Bool) : Same [.out, .nv] s (activating s self may) := by
  intro p hp
  cases p <;> first | rfl | simp at hp

theorem activateFirmware_taken {s : State} (h : PldmUp s) (self : Bool) (hst : s.nv.pldmState = 6) : exec (.activateFirmware self) s =
    .next (activating s self (self && (!s.nvme.cc.getLsbD 0 || s.upd.stage == 15))).commitSend.selfCheck :=
  (if_neg h.not_down).trans (if_neg (not_not_of hst))

/-- Settles O57, request by request: out of its state a request is answered with its code; in its state it acts. -/
theorem pldmSessionRuns : Obligations.PldmSessionRuns := by
  intro s hpowered hawake n tells wrong
  have h : PldmUp s := ⟨hpowered, hawake⟩
  have up := h.not_down
  refine ⟨if_neg up, if_neg up, if_neg up, fun max => ⟨requestUpdate_in_session h max, requestUpdate_unable h max, fun hst ho ha he hs => ?_⟩,
    fun stamp size => ⟨fun hst => (if_neg up).trans (if_pos hst), fun hst => ?_, fun hst => (if_neg up).trans (if_pos hst),
      fun hst hlt => (updateComponent_sized h stamp size hst).trans (if_pos hlt), fun hst hle => ?_⟩,
    fun blk content hst he hq hnext => ?_, fun hst he hq hnext => if_neg (h.downloads hst he hq hnext), fun pkg hst => ⟨fun hck => ?_, fun k st hck => ?_⟩,
    fun hst ha => if_neg (h.applies hst ha), fun self => ⟨fun hst => (if_neg up).trans (if_pos hst), fun hst hm => ?_⟩,
    fun hst => (if_neg up).trans (if_pos hst), fun hst ha => (if_neg up).trans (if_neg (not_or.mpr ⟨Nat.not_lt.mpr hst, ha⟩)),
    fun hst => (if_neg up).trans (if_pos hst), fun hst ha => (if_neg up).trans ((if_neg hst).trans (if_pos ha)), fun hst ha => (if_neg up).trans ((if_neg hst).trans (if_neg ha))⟩
  · have hfree := requestUpdate_free h max hst ho ha he hs
    exact ⟨fun hlt => hfree.trans (if_pos hlt), fun hle => hfree.trans (if_neg (by omega))⟩
  · obtain ⟨hkept, hother, hout⟩ := stampKeep_spec s stamp
    refine ⟨_, passComponentTable_taken h stamp hst, ?_, congrArg (Out.pldm 0x13 [0] :: ·) hout, rfl, fun hk => ?_, hother⟩
    · exact Same.seq (Same.seq (State.stampKeep_law s stamp).same (nv_same _ _) (w := [.nv]) (by decide) (by decide))
        (State.pldmSay_law _ _ _).same (by decide) (by decide)
    · exact congrArg (fun u : State => ({ u.nv with pldmState := 2 } : Nv)) (hkept hk)
  · obtain ⟨hsame, hother, -⟩ := stampKeep_spec s stamp
    refine ⟨_, (updateComponent_sized h stamp size hst).trans (if_neg (by omega)), ?_, ?_⟩
    · exact Same.seq (Same.seq (Same.seq (State.stampKeep_law s stamp).same (nv_same _ _) (w := [.nv]) (by decide) (by decide))
        (State.pldmSay_law _ _ _).same (w := [.out, .nv]) (by decide) (by decide)) (State.pldmAsk_law _).same (by decide) (by decide)
    · rw [(pldmAsk_nv _).1]
      exact ⟨rfl, rfl, rfl, rfl, fun hk => ⟨congrArg (·.nv.stgBlocks) (hsame hk), congrArg (·.nv.stgErasing) (hsame hk)⟩, hother⟩
  · have hnv := norStart_nv { s with nv := { s.nv with norQueue := [(blk, content)] } } blk content [] rfl
    refine ⟨_, if_neg (h.downloads hst he hq hnext), Same.seq (nv_same s _) (State.norStart_law _).same (by decide) (by decide), ?_, ?_, ?_⟩ <;> rw [hnv]
  · exact verifyComplete_passes h hst hck
  · obtain ⟨hstate, hcount⟩ := failRecAt_nv s 1 k s.otherSlot (s.slotRev s.upd.booted) pkg.manifest.revision
    refine ⟨_, verifyComplete_fails h hst hck, ?_, hstate.trans hst, hcount⟩
    exact Same.seq (State.failRecAt_law _ _ _ _ _ _).same (State.pldmSay_law _ _ _).same (by decide) (by decide)
  · obtain ⟨hnext, hboot, hstate, howner, htrial, hreset, hsame⟩ :=
      activate_alone (activating s self (self && (!s.nvme.cc.getLsbD 0 || s.upd.stage == 15))) hm rfl rfl rfl
    exact ⟨_, activateFirmware_taken h self hst, hnext, hboot, hstate, howner, htrial, hreset, fun hmay =>
      Same.seq (activating_same _ _ _) (hsame hmay) (by decide) (by decide)⟩

end Sys2Proof.Proofs
end

section
/-! PROOFS. The sideband: MCTP requests kept, refused and performed, and the I3C codes (R476 to R480, R495). -/

namespace Sys2Proof.Proofs

open Sys2Proof Sys2Proof.Machine Sys2Proof.Safety Sys2Proof.Laws

/-! ### MCTP (R478 to R480) -/

theorem readRun_length (n : Nat) : ∀ (s : State) (o : Nat), (s.readRun o n).1.length = n := by
  induction n with
  | zero => exact fun _ _ => rfl
  | succ n ih => exact fun s o => congrArg (· + 1) (ih (s.cuffRead o).2 (o + 4))

/-- What a request with its shape in range comes to (R478). -/
structure McFit (i : Image) (vendor offset count : Nat) : Prop where
  vendor : vendor = i.vid
  shape : 1 ≤ count ∧ count ≤ 60 ∧ offset % 4 = 0
  window : offset + 4 * count ≤ 0x4000000

section Codes
variable {s : State} {i : Image} (himg : s.img = some i) (vendor offset count : Nat)
include himg

theorem mctpCc_eq : s.mctpCc vendor offset count = if vendor ≠ i.vid then 1
    else if count < 1 ∨ 60 < count ∨ offset % 4 ≠ 0 then 2
    else if 0x4000000 < offset + 4 * count then 3
    else if !s.released ∧ (List.range count).any (fun k => !earlyBlock (offset + 4 * k)) then 4
    else 0 := by
  unfold State.mctpCc
  rw [himg]

theorem mctpCc_vendor (h : vendor ≠ i.vid) : s.mctpCc vendor offset count = 1 :=
  (mctpCc_eq himg vendor offset count).trans (if_pos h)

theorem mctpCc_shape (h : vendor = i.vid) (hfit : ¬(1 ≤ count ∧ count ≤ 60 ∧ offset % 4 = 0)) : s.mctpCc vendor offset count = 2 :=
  (mctpCc_eq himg vendor offset count).trans ((if_neg (not_not_of h)).trans (if_pos (by omega)))

theorem mctpCc_window (h : vendor = i.vid) (hfit : 1 ≤ count ∧ count ≤ 60 ∧ offset % 4 = 0) (hwin : ¬offset + 4 * count ≤ 0x4000000) :
    s.mctpCc vendor offset count = 3 :=
  (mctpCc_eq himg vendor offset count).trans ((if_neg (not_not_of h)).trans ((if_neg (by omega)).trans (if_pos (by omega))))

variable {vendor offset count} (hfit : McFit i vendor offset count)
include hfit

theorem mctpCc_fit : s.mctpCc vendor offset count =
    if !s.released ∧ (List.range count).any (fun k => !earlyBlock (offset + 4 * k)) then 4 else 0 := by
  obtain ⟨hvendor, hshape, hwindow⟩ := hfit
  exact (mctpCc_eq himg vendor offset count).trans ((if_neg (not_not_of hvendor)).trans ((if_neg (by omega)).trans (if_neg (by omega))))

theorem mctpCc_early (hstage : s.upd.stage = 0) {k : Nat} (hk : k < count) (hblock : earlyBlock (offset + 4 * k) = false) :
    s.mctpCc vendor offset count = 4 :=
  (mctpCc_fit himg hfit).trans (if_pos ⟨by simp [State.released, hstage], List.any_eq_true.mpr ⟨k, List.mem_range.mpr hk, by simp [hblock]⟩⟩)

theorem mctpCc_released (hstage : s.upd.stage ≠ 0) : s.mctpCc vendor offset count = 0 :=
  (mctpCc_fit himg hfit).trans (if_neg (by simp [State.released, hstage]))

end Codes

section Requests
variable {s : State} {port eid vendor seq offset count : Nat} (act : State → List Dword × State)

theorem mctp_no_port (hport : 2 ≤ port) : s.mctp port eid vendor seq offset count act = s := if_pos hport

variable (hawake : s.pwr.st ≠ 2) (hport : port < 2)
include hawake hport

theorem mctp_repeated {k : Kept} (hk : s.side.kept.look (port * 256 + eid) = some k) (hseq : k.seq = seq) :
    s.mctp port eid vendor seq offset count act = s.respond port eid seq k.cc k.data := by
  have hwake : s.sidebandWake = s := if_neg hawake
  unfold State.mctp
  rw [if_neg (by omega), hwake]
  dsimp only
  rw [hk]
  exact if_pos hseq

theorem mctp_new (hnew : ∀ k, s.side.kept.look (port * 256 + eid) = some k → k.seq ≠ seq) :
    s.mctp port eid vendor seq offset count act =
      if s.mctpCc vendor offset count ≠ 0 then s.respond port eid seq (s.mctpCc vendor offset count) []
      else (act s).2.keepResponse port eid seq (act s).1 := by
  have hwake : s.sidebandWake = s := if_neg hawake
  unfold State.mctp
  rw [if_neg (by omega), hwake]
  dsimp only
  cases hk : s.side.kept.look (port * 256 + eid) with
  | none => rfl
  | some k => exact if_neg (hnew k hk)

variable (hnew : ∀ k, s.side.kept.look (port * 256 + eid) = some k → k.seq ≠ seq)
include hnew

theorem mctp_refused {cc : Nat} (hcc : s.mctpCc vendor offset count = cc) (h : cc ≠ 0) :
    s.mctp port eid vendor seq offset count act = s.respond port eid seq cc [] := by
  rw [mctp_new act hawake hport hnew, hcc]
  exact if_pos h

theorem mctp_performed (hcc : s.mctpCc vendor offset count = 0) :
    s.mctp port eid vendor seq offset count act = (act s).2.keepResponse port eid seq (act s).1 :=
  (mctp_new act hawake hport hnew).trans (if_neg (not_not_of hcc))

end Requests

theorem keepResponse_same (u : State) (port eid seq : Nat) (l : List Dword) : Same [.out, .side] u (u.keepResponse port eid seq l) := by
  intro p hp
  cases p <;> first | rfl | simp at hp

/-! ### I3C (R495) -/

theorem side_same (u : State) (d : Side) : Same [.side] u { u with side := d } := by
  intro p hp
  cases p <;> first | rfl | simp at hp

theorem getpid_answers {s : State} {i : Image} {port : Nat} (h : ¬2 ≤ port) (himg : s.img = some i) :
    exec (.i3cCcc port .getpid) s = .next (s.say (.i3c port [i.vid, Config.partSerial % 2 ^ 32])) := by
  refine (if_neg h).trans ?_
  show Host.Outcome.next (s.say (.i3c port [match s.img with | some i => i.vid | none => 0, Config.partSerial % 2 ^ 32])) = _
  rw [himg]

/-- Settles O60: a request is answered from what is kept, with its code, or with what was performed; the I3C codes are their rows. -/
theorem sidebandRequestsAreServed : Obligations.SidebandRequestsAreServed := by
  intro s
  refine ⟨fun port eid vendor seq offset count dws hport => ⟨congrArg Host.Outcome.next (mctp_no_port _ hport), congrArg Host.Outcome.next (mctp_no_port _ hport)⟩,
    fun port c hport => if_pos hport, fun i himg hawake port eid vendor seq offset count dws hport => ?_, fun port hport => ?_⟩
  · refine ⟨fun k hk hseq => ⟨congrArg Host.Outcome.next (mctp_repeated _ hawake hport hk hseq),
      congrArg Host.Outcome.next (mctp_repeated _ hawake hport hk hseq)⟩, fun hnew => ?_⟩
    have refused : ∀ {cc : Nat}, s.mctpCc vendor offset count = cc → cc ≠ 0 →
        exec (.mctpRead port eid vendor seq offset count) s = .next (s.respond port eid seq cc []) ∧
          exec (.mctpWrite port eid vendor seq offset count dws) s = .next (s.respond port eid seq cc []) := fun hcc h =>
      ⟨congrArg Host.Outcome.next (mctp_refused _ hawake hport hnew hcc h), congrArg Host.Outcome.next (mctp_refused _ hawake hport hnew hcc h)⟩
    refine ⟨fun hv => refused (mctpCc_vendor himg _ _ _ hv) (by decide), fun hv hf => refused (mctpCc_shape himg _ _ _ hv hf) (by decide),
      fun hv hf hw => refused (mctpCc_window himg _ _ _ hv hf hw) (by decide),
      fun hv hf hw hs k hk hb => refused (mctpCc_early himg ⟨hv, hf, hw⟩ hs hk hb) (by decide), fun hv hf hw hs => ?_⟩
    have hcc := mctpCc_released himg ⟨hv, hf, hw⟩ hs
    refine ⟨⟨_, congrArg Host.Outcome.next (mctp_performed _ hawake hport hnew hcc), rfl, rfl, readRun_length count s offset⟩,
      _, congrArg Host.Outcome.next (mctp_performed _ hawake hport hnew hcc), ?_⟩
    rintro _ rfl
    exact ⟨rfl, keepResponse_same _ port eid seq [], rfl⟩
  · have h : ¬2 ≤ port := by omega
    refine ⟨fun a ha => ?_, fun a ha => ?_, if_neg h, if_neg h, if_neg h, ?_, fun i himg => getpid_answers h himg, if_neg h, if_neg h, if_neg h, if_neg h⟩
    · have hfree : ¬(s.side.addr.has port = true) := by simp [ha]
      exact ⟨(if_neg h).trans (congrArg Host.Outcome.next (if_neg hfree)), (if_neg h).trans (congrArg Host.Outcome.next (if_neg hfree))⟩
    · exact ⟨(if_neg h).trans (congrArg Host.Outcome.next (if_pos ha)), (if_neg h).trans (congrArg Host.Outcome.next (if_pos ha))⟩
    · exact ⟨_, if_neg h, Same.seq (side_same s _) (State.ibiEval_law _).same (by decide) (by decide), (State.ibiEval_law _).same .side (by decide)⟩

end Sys2Proof.Proofs
end

section
/-! PROOFS. Stop and wake, the save of a sag, and the conversions of the monitor (R365 to R370, R379, R401 to R403). -/

namespace Sys2Proof.Proofs

open Sys2Proof Sys2Proof.Machine Sys2Proof.Safety Sys2Proof.Laws

/-! ### Stop (R365 to R367, R283) -/

/-- The chip once Stop has gone to its ACTIVE members. -/
def stopSent (s : State) : State :=
  (s.cas.members.keysWhere fun _ m => m.st == .active).foldl (fun s c => s.casSend (portOf c) 3 0x80 0 [1]) s

theorem stopSent_alone {s : State} (h : s.cas.members.all (fun _ m => m.st != .active) = true) : stopSent s = s := by
  unfold stopSent
  rw [keysWhere_none h]
  rfl

/-- The conditions of R365 hold for the idle time. -/
structure StopDue (s : State) (ms : Nat) : Prop where
  runs : s.pwr.st = 0
  booted : s.upd.stage = 9
  idle : s.idle = true
  elapsed : s.nvme.stopIdle ≤ ms
  crown : s.cas.crown = true

theorem StopDue.not_barred {s : State} {ms : Nat} (h : StopDue s ms) :
    ¬(s.pwr.st ≠ 0 ∨ s.upd.stage ≠ 9 ∨ (!s.idle) = true ∨ ms < s.nvme.stopIdle ∨ (!s.cas.crown) = true) := by
  simp [h.runs, h.booted, h.idle, h.elapsed, h.crown]

theorem stopEntry_abandoned {s : State} {ms : Nat} (h : StopDue s ms) {levels : List WakeSrc} (hl : ∃ w ∈ levels, w ≠ .i3c) (held : Nat) :
    exec (.stopEntry ms (levels, held)) s = .next { s with pwr := { s.pwr with aborts := satAdd 0xffffffff s.pwr.aborts 1 } } := by
  refine (if_neg h.not_barred).trans (if_pos ?_)
  simpa using hl

theorem stopEntry_enters {s : State} {ms : Nat} (h : StopDue s ms) {levels : List WakeSrc} (hl : ∀ w ∈ levels, w = .i3c) (held : Nat) :
    exec (.stopEntry ms (levels, held)) s = .next ((stopSent s).enterStop.dramHeld held) := by
  refine (if_neg h.not_barred).trans (if_neg ?_)
  simpa using hl

/-! ### Wake (R366, R368, R370) -/

theorem mem_keysWhere {α : Type} {t : Tbl α} {f : Nat → α → Bool} {k : Nat} {v : α} (h : t.look k = some v) (hf : f k v = true) :
    k ∈ t.keysWhere f :=
  List.mem_map.mpr ⟨(k, v), List.mem_filter.mpr ⟨mem_of_look h, hf⟩, rfl⟩

/-- The chip back in Run with its renews sent. -/
def wokenRenewed (s : State) (src : WakeSrc) (ns : Nat) : State :=
  ((woken s src ns).cas.members.keysWhere fun c m => m.st == .active && (woken s src ns).linkJoined c).foldl renewed (woken s src ns)

/-- The two catch-up ticks, and what waited for the wake. -/
def caughtUp (w : State) : State :=
  let u := if w.tickReady then w.stagingAt (w.now - w.gate.lastStaging) else w
  (if u.tickReady then u.checkAt ((w.now - u.gate.lastCheck) / secNs) else u).msiCatchUp.ibiEval

theorem woken_same (s : State) (src : WakeSrc) (ns : Nat) : Same [.now, .free, .drc, .mtr, .pwr, .mon] s (woken s src ns) := by
  intro p hp
  cases p <;> first | rfl | simp at hp

theorem wake_runs {s : State} (h : s.pwr.st = 2) (src : WakeSrc) (ns : Nat) : exec (.wake src ns) s = .next (caughtUp (wokenRenewed s src ns)) := by
  have hnow : (wokenRenewed s src ns).now = s.now + ns := (renewals_spec _ _).1 .now (by decide)
  unfold caughtUp
  rw [hnow]
  exact if_neg (not_not_of h)

/-! ### A supply sag (R379, R380) -/

theorem wakeForSag_awake {u : State} (h : u.pwr.st ≠ 2) : u.wakeForSag = u := if_neg h

/-- The save that a sag starts, after a wake where the chip is in Stop. -/
def sagSaved (u : State) (kind : Nat) : State := u.wakeForSag.saveNow kind

theorem sagSaved_pfail (u : State) (kind : Nat) : (sagSaved u kind).brm.pfail = u.brm.pfail := by
  obtain ⟨hbrm, -, -⟩ := wakeForSag_spec u
  rw [← hbrm]
  by_cases h : u.wakeForSag.brm.st < 3
  · obtain ⟨-, -, -, hpfail, -⟩ := saveNow_spec _ kind h
    exact hpfail
  · exact congrArg (fun v : State => v.brm.pfail) (saveNow_off _ kind (by omega))

theorem sagSaved_wakes (u : State) (kind : Nat) (h : u.pwr.st = 2) : (sagSaved u kind).pwr.st = 0 ∧ (sagSaved u kind).pwr.wakeCause = 4 := by
  obtain ⟨-, hwake, -⟩ := wakeForSag_spec u
  unfold sagSaved
  rw [saveNow_pwr]
  exact hwake h

theorem sagSaved_saves (u : State) (kind : Nat) (hkind : kind ≠ 4) (h : u.brm.st < 3) : (sagSaved u kind).brm.st = 4 ∧
    (sagSaved u kind).brm.saveKind = kind ∧ (sagSaved u kind).brm.chg = false ∧ (sagSaved u kind).nv.clean = true ∧
    (sagSaved u kind).nv.saveKind = kind ∧ (sagSaved u kind).fch.ops = [] := by
  obtain ⟨hbrm, -, -⟩ := wakeForSag_spec u
  obtain ⟨hst, hsave, hchg, -, -, hclean, hkept, hops⟩ := saveNow_spec u.wakeForSag kind (by rwa [hbrm])
  exact ⟨hst, hsave, hchg, hclean.trans (by simpa using hkind), hkept, hops⟩

theorem sagSaved_again (u : State) (kind : Nat) (h : 3 ≤ u.brm.st) : sagSaved u kind = u.wakeForSag := by
  obtain ⟨hbrm, -, -⟩ := wakeForSag_spec u
  exact saveNow_off _ kind (by rwa [hbrm])

/-- The hold-up supply reports its loss. -/
def pfailSeen (s : State) : State := { s with brm := { s.brm with pfail := true } }

/-! ### Conversions (R401 to R403) -/

/-- The code of a conversion, saturated where it overranges. -/
def monCode (code : Nat) (hi lo : Bool) : Nat := if hi then 0xfff else if lo then 0 else min 0xffe (max 1 code)

theorem monCode_top {code : Nat} {hi lo : Bool} : monCode code hi lo = 0xfff ↔ hi = true := by
  unfold monCode
  cases hi
  · simp only [Bool.false_eq_true, if_false, iff_false]
    split <;> omega
  · simp

/-- The channel after a conversion, before its event and before it feeds the bank. -/
def converted (s : State) (chan code : Nat) (hi lo : Bool) : State :=
  let ovr := hi || lo
  let c := monCode code hi lo
  let settle := decide (0 < s.mon.settleLeft)
  { s with mon := { s.mon with
      chans := s.mon.chans.put chan { ovr := ovr, settle := settle, code := c
                                      value := if ovr || settle then (s.mon.chans.get chan {}).value else s.monValue chan c }
      settleLeft := if ovr then 2 else s.mon.settleLeft - 1
      ovrSeen := if ovr then s.mon.ovrSeen ||| BitVec.ofNat 24 (2 ^ chan) else s.mon.ovrSeen
      sagRun := if chan ≠ 11 ∨ (settle && !ovr) = true then s.mon.sagRun else if c < s.mon.sagv then s.mon.sagRun + 1 else 0 } }

/-- The first overrange of a channel is recorded. -/
def ovrNoted (s : State) (chan code : Nat) (hi lo : Bool) : State :=
  if (hi || lo) && !s.mon.ovrSeen.getLsbD chan then (converted s chan code hi lo).fire 29 [(converted s chan code hi lo).mon.ovrSeen.toNat]
  else converted s chan code hi lo

/-- The sample of channel 12 as the bank takes it. -/
def bankFed (u : State) (c : Nat) (hi : Bool) : State :=
  if hi then { u.bankSample c with brm := { (u.bankSample c).brm with chg := false } }.fireBrm 25 else u.bankSample c

theorem converted_same (s : State) (chan code : Nat) (hi lo : Bool) : Same [.mon] s (converted s chan code hi lo) := by
  intro p hp
  cases p <;> first | rfl | simp at hp

theorem ovrNoted_same (s : State) (chan code : Nat) (hi lo : Bool) :
    Same Piece.event (converted s chan code hi lo) (ovrNoted s chan code hi lo) := by
  unfold ovrNoted
  split
  · exact (State.fire_law _ _ _ _ _ _).same
  · exact fun _ _ => same_refl _ _

theorem bankFed_same (u : State) (c : Nat) (hi : Bool) : Same (Piece.withEvent [.brm]) u (bankFed u c hi) := by
  have hsample := (State.bankSample_law u c).same
  unfold bankFed
  split
  · exact Same.seq (Same.seq hsample (brm_same _ _) (w := [.brm]) (by decide) (by decide)) (State.fireBrm_law _ _).same (by decide) (by decide)
  · exact Same.mono hsample (by decide)

theorem bankFed_brm (u : State) (code : Nat) (hi lo : Bool) :
    (bankFed u (monCode code hi lo) hi).brm.vbank = (if hi then u.fullScale 12 else monCode code hi lo * u.fullScale 12 / 4096) ∧
      (hi = true → (bankFed u (monCode code hi lo) hi).brm.chg = false) := by
  unfold bankFed State.fireBrm
  cases hi with
  | true =>
    rw [if_pos rfl, fire_brm]
    exact ⟨rfl, fun _ => rfl⟩
  | false =>
    have hc : monCode code false lo ≠ 0xfff := fun h => absurd (monCode_top.mp h) nofun
    exact ⟨if_neg hc, nofun⟩

/-- What the conversion of a channel leaves (R401, R402). -/
theorem converted_spec (s : State) {chan : Nat} (code : Nat) (hi lo : Bool) (hchan : chan < 24) :
    let m := (converted s chan code hi lo).mon
    let ovr := hi || lo
    let settle := decide (0 < s.mon.settleLeft)
    let k := m.chans.get chan {}
    k.code = monCode code hi lo ∧ k.ovr = ovr ∧ k.settle = settle ∧
      k.value = (if ovr ∨ settle then (s.mon.chans.get chan {}).value else s.monValue chan k.code) ∧
      (∀ j, j ≠ chan → m.chans.get j {} = s.mon.chans.get j {}) ∧ m.settleLeft = (if ovr then 2 else s.mon.settleLeft - 1) ∧
      (∀ j, j < 24 → m.ovrSeen.getLsbD j = (s.mon.ovrSeen.getLsbD j || decide (j = chan) && ovr)) ∧
      (chan = 11 → settle = false ∨ ovr = true → m.sagRun = if k.code < s.mon.sagv then s.mon.sagRun + 1 else 0) ∧
      (chan ≠ 11 → m.sagRun = s.mon.sagRun) := by
  intro m ovr settle k
  have hk : k = { ovr := ovr, settle := settle, code := monCode code hi lo
                  value := if ovr || settle then (s.mon.chans.get chan {}).value else s.monValue chan (monCode code hi lo) } :=
    Tbl.get_put _ _ _ _
  refine ⟨by rw [hk], by rw [hk], by rw [hk], ?_, fun j hj => ?_, rfl, fun j hj => ?_, fun h11 hfresh => ?_, fun h11 => if_pos (.inl h11)⟩
  · rw [hk]
    exact ite_congr (by simp) (fun _ => rfl) (fun _ => rfl)
  · exact congrArg (fun o : Option MonChan => o.getD {}) (Tbl.look_put_ne _ _ hj)
  · show (if ovr then _ else _ : BitVec 24).getLsbD j = _
    cases ovr
    · simp
    · rw [if_pos rfl, getLsbD_set24 _ _ hchan _ hj, Bool.and_true]
  · rw [hk]
    have hheard : ¬((settle && !ovr) = true) := by rcases hfresh with h | h <;> rw [h] <;> simp
    exact if_neg (not_or.mpr ⟨not_not_of h11, hheard⟩)

theorem fullScale_mon {s u : State} {chan code : Nat} {hi lo : Bool} (h : u.mon = (converted s chan code hi lo).mon) :
    u.fullScale 12 = s.fullScale 12 :=
  congrArg (a₂ := (converted s chan code hi lo).mon) (fun m : Mon => 1250 * m.div12 / 1000) h

section Conversion
variable {s : State} {chan : Nat} (code : Nat) (hi lo : Bool) (hchan : chan < 24)
  (hshown : s.mon.stopFrame = false ∨ chan = 2 ∨ 11 ≤ chan ∧ chan ≤ 17)
include hchan hshown

theorem conversion_not_barred : ¬(24 ≤ chan ∨ (s.mon.stopFrame = true ∧ (!stopChan chan) = true)) := by
  have hstop : s.mon.stopFrame = true → stopChan chan = true := fun h => by
    have := hshown.resolve_left (by simp [h])
    simpa [stopChan] using this
  simp only [Bool.not_eq_true']
  exact fun h => h.elim (by omega) fun ⟨hframe, hout⟩ => by simp [hstop hframe] at hout

theorem conversion_of_channel (h : chan ≠ 12 ∨ (decide (0 < s.mon.settleLeft) && !(hi || lo)) = true) :
    exec (.thistleConversion chan code hi lo) s = .next (ovrNoted s chan code hi lo) :=
  (if_neg (conversion_not_barred hchan hshown)).trans (if_pos h)

theorem conversion_of_bank (h : ¬(chan ≠ 12 ∨ (decide (0 < s.mon.settleLeft) && !(hi || lo)) = true)) :
    exec (.thistleConversion chan code hi lo) s = .next (bankFed (ovrNoted s chan code hi lo) (monCode code hi lo) hi) :=
  (if_neg (conversion_not_barred hchan hshown)).trans (if_neg h)

/-- A conversion leaves its channel, and the bank where it feeds it. -/
theorem conversion_runs : ∃ t, exec (.thistleConversion chan code hi lo) s = .next t ∧ Same (Piece.withEvent [.brm, .mon]) s t ∧
    t.mon = (converted s chan code hi lo).mon ∧
    (chan = 12 → decide (0 < s.mon.settleLeft) = false ∨ (hi || lo) = true →
      t.brm.vbank = (if hi then s.fullScale 12 else monCode code hi lo * s.fullScale 12 / 4096) ∧ (hi = true → t.brm.chg = false)) ∧
    (chan ≠ 12 → t.brm = s.brm) := by
  have hnoted := ovrNoted_same s chan code hi lo
  have hsame : Same (Piece.withEvent [.mon]) s (ovrNoted s chan code hi lo) :=
    Same.seq (converted_same s chan code hi lo) hnoted (by decide) (by decide)
  have hmon : (ovrNoted s chan code hi lo).mon = (converted s chan code hi lo).mon := hnoted .mon (by decide)
  by_cases h : chan ≠ 12 ∨ (decide (0 < s.mon.settleLeft) && !(hi || lo)) = true
  · refine ⟨_, conversion_of_channel code hi lo hchan hshown h, Same.mono hsame (by decide), hmon, fun h12 hfresh => ?_, fun _ => hsame .brm (by decide)⟩
    have hstale := h.resolve_left (not_not_of h12)
    rcases hfresh with hf | hf <;> simp [hf] at hstale
  · have hfed := bankFed_same (ovrNoted s chan code hi lo) (monCode code hi lo) hi
    have hscale : (ovrNoted s chan code hi lo).fullScale 12 = s.fullScale 12 := fullScale_mon hmon
    refine ⟨_, conversion_of_bank code hi lo hchan hshown h, Same.seq hsame hfed (by decide) (by decide), (hfed .mon (by decide)).trans hmon,
      fun _ _ => ?_, fun h12 => absurd (.inl h12) h⟩
    rw [← hscale]
    exact bankFed_brm _ code hi lo

end Conversion

/-- Settles O52, act by act: Stop, the wake, the sag and the conversions. -/
theorem stopWakeSagAndConversions : Obligations.StopWakeSagAndConversions := by
  intro s
  refine ⟨fun ms levels held hrun hstage hidle hms hcrown => ?_, fun src ns hstop => ?_, fun c kind hc => ?_, fun hsag => if_neg (by omega),
    fun chan code hi lo hchan hframe hout => ?_, fun chan code hi lo hchan hshown => ?_⟩
  · have h : StopDue s ms := ⟨hrun, hstage, hidle, hms, hcrown⟩
    refine ⟨fun hl => stopEntry_abandoned h hl held, fun hl => ⟨_, stopEntry_enters h hl held, ?_⟩⟩
    have hsent : (stopSent s).cas.members = s.cas.members ∧ Same [.out, .sward, .cas] s (stopSent s) := stopSends_members s _
    obtain ⟨hmembers, hsent⟩ := hsent
    have hheld := (State.dramHeld_law (stopSent s).enterStop held).same
    have hdrc : (stopSent s).drc = s.drc := hsent .drc (by decide)
    have hfree : (stopSent s).free = s.free := hsent .free (by decide)
    refine ⟨Same.seq (Same.seq hsent (State.enterStop_law _).same (w := [.out, .sward, .drc, .cas, .pwr, .mon]) (by decide) (by decide))
      hheld (by decide) (by decide), ?_, ?_, fun h0 => ?_, fun h0 => ?_, ?_, fun halone => ?_⟩
    · rw [hheld .pwr (by decide)]
      exact congrArg (fun p : Pwr => { p with st := 2, lowreg := true, entries := satAdd 0xffffffff p.entries 1 }) (hsent .pwr (by decide))
    · rw [hheld .mon (by decide)]
      exact congrArg (fun m : Mon => { m with stopFrame := true }) (hsent .mon (by decide))
    · have hnone : (stopSent s).enterStop.dramHeld held = (stopSent s).enterStop := if_pos h0
      rw [hnone]
      exact ⟨congrArg (fun d : Drc => { d with srState := 2 }) hdrc, hfree⟩
    · have hsome : (stopSent s).enterStop.dramHeld held = _ := if_neg h0
      rw [hsome]
      refine ⟨?_, congrArg (· + 1) hfree⟩
      show ({ (stopSent s).drc with srState := 0, srMaxWait := max (stopSent s).drc.srMaxWait (Config.freeNat (stopSent s).free % 2501) } : Drc) = _
      rw [hdrc, hfree]
      rfl
    · rw [hheld .cas (by decide)]
      exact hmembers
    · rw [hheld .cas (by decide), stopSent_alone halone]
      rfl
  · obtain ⟨hsame, hmembers⟩ := renewals_spec ((woken s src ns).cas.members.keysWhere fun c m => m.st == .active && (woken s src ns).linkJoined c)
      (woken s src ns)
    have hnow : (wokenRenewed s src ns).now = s.now + ns := hsame .now (by decide)
    refine ⟨wokenRenewed s src ns, _, wake_runs hstop src ns, Same.seq (woken_same s src ns) hsame (by decide) (by decide), hnow,
      hsame .pwr (by decide), congrArg Drc.srState (hsame .drc (by decide)), hsame .free (by decide), fun k m hm hact hjoined => ?_, rfl⟩
    rw [hnow]
    exact hmembers k m hm (.inl (mem_keysWhere hm (by simp only [hact, beq_self_eq_true, Bool.true_and]; exact hjoined)))
  · have hfail : Same [.brm] s (pfailSeen s) := brm_same s _
    rcases hc with ⟨rfl, rfl⟩ | ⟨rfl, rfl, hrun⟩
    · refine ⟨sagSaved (pfailSeen s) 1, rfl, fun _ => sagSaved_pfail _ 1, sagSaved_wakes (pfailSeen s) 1,
        sagSaved_saves (pfailSeen s) 1 (by decide), fun h => ?_⟩
      rw [sagSaved_again (pfailSeen s) 1 h]
      refine ⟨Same.seq hfail (State.wakeForSag_law _).same (by decide) (by decide), fun hawake => ?_⟩
      rw [wakeForSag_awake (u := pfailSeen s) hawake]
      exact hfail
    · refine ⟨sagSaved s 2, if_pos hrun, nofun, sagSaved_wakes _ 2, sagSaved_saves _ 2 (by decide), fun h => ?_⟩
      rw [sagSaved_again _ 2 h]
      refine ⟨Same.mono (State.wakeForSag_law _).same (by decide), fun hawake => ?_⟩
      rw [wakeForSag_awake hawake]
      exact fun _ _ => same_refl _ _
  · refine if_pos (.inr ⟨hframe, ?_⟩)
    simp only [stopChan, Bool.not_eq_true', Bool.or_eq_false_iff, Bool.and_eq_false_iff, beq_eq_false_iff_ne, decide_eq_false_iff_not]
    omega
  · obtain ⟨t, ht, hsame, hmon, hbank, hrest⟩ := conversion_runs code hi lo hchan hshown
    obtain ⟨hcode, hovr, hsettle, hvalue, hothers, hleft, hseen, hsag, hkeep⟩ := converted_spec s code hi lo hchan
    refine ⟨t, ht, hsame, ?_⟩
    rw [hmon]
    exact ⟨hcode, hovr, hsettle, hvalue, hothers, hleft, hseen, hsag, hkeep, fun h12 hf => hcode ▸ hbank h12 hf, hrest⟩

end Sys2Proof.Proofs
end

section
/-! PROOFS. The meter island: tally batches, samples, the close, start, halts and loss of supply (R340 to R347, R353). -/

namespace Sys2Proof.Proofs

open Sys2Proof Sys2Proof.Machine Sys2Proof.Safety Sys2Proof.Laws

section Running
variable {s : State} (hrun : s.mtr.run = true)
include hrun

theorem island_not_off : ¬((!s.mtr.run) = true) := by simp [hrun]

/-! ### Tally batches (R345) -/

theorem tallyBatch_refused {stamp : Nat} (crownNs : Nat) {rows : List TallyRow}
    (h : stamp ≤ s.mtr.lastStamp ∨ rows.all s.mtr.rowOk = false) :
    exec (.tallyBatch stamp crownNs rows) s = .next (s.mtrFault fun m => { m with tallyFault := true }) :=
  (if_neg (island_not_off hrun)).trans (if_pos (h.imp_right (by simp [·])))

theorem tallyBatch_taken {stamp : Nat} (crownNs : Nat) {rows : List TallyRow} (hlt : s.mtr.lastStamp < stamp)
    (hrows : rows.all s.mtr.rowOk = true) : exec (.tallyBatch stamp crownNs rows) s =
    .next { s with mtr := { rows.foldl Mtr.rowTake s.mtr with lastStamp := stamp, lastCrown := crownNs } } :=
  (if_neg (island_not_off hrun)).trans (if_neg (by simp [hrows, hlt]))

end Running

theorem rowTake_tallyFault (m : Mtr) (r : TallyRow) : (m.rowTake r).tallyFault = m.tallyFault := by
  unfold Mtr.rowTake
  dsimp only
  split <;> rfl

theorem rowsTake_tallyFault (rows : List TallyRow) : ∀ m : Mtr, (rows.foldl Mtr.rowTake m).tallyFault = m.tallyFault := by
  induction rows with
  | nil => exact fun _ => rfl
  | cons r rows ih => exact fun m => (ih _).trans (rowTake_tallyFault m r)

theorem rowTake_own {m : Mtr} {r : TallyRow} {a : Tally} (hm : m.tallies = [a]) (ho : a.owner = r.owner) (hi : a.inst = r.inst) :
    (m.rowTake r).tallies = [{ a with prov := r.prov, occ := r.occ, rd := r.rd, wr := r.wr, dieUs := r.dieUs
                                      eflags := if r.gone then a.eflags ||| 2 else a.eflags }] := by
  unfold Mtr.rowTake
  simp [hm, ho, hi]

/-! ### Samples and the close (R342, R343, R347) -/

/-- The end of the interval under way. -/
def intervalDue (m : Mtr) : Nat := (m.tStart / (60 * 10 ^ 9) + 1) * (60 * 10 ^ 9)

/-- The island as its interval ends, with the difference between the crystals. -/
def atDue (ppm due : Nat) (m : Mtr) : Mtr :=
  { m with time := max m.time due, x32Ok := decide (ppm < 1000000), clkFault := m.clkFault || decide (100 < ppm) }

theorem intervalClose_closes {s : State} (hrun : s.mtr.run = true) (ppm : Nat) :
    exec (.intervalClose ppm) s = .next ((s.mtrFault (atDue ppm (intervalDue s.mtr))).mtrClose false) :=
  if_neg (island_not_off hrun)

/-! ### Start and halts (R341, R342, R353) -/

theorem mtrHalted_same (s : State) (m : Mtr) (k : Nat) : Same (Piece.withEvent [.mtr]) s (State.mtrHalt { s with mtr := m } k) :=
  Same.seq (mtr_same s m) (State.mtrHalt_law _ _).same (by decide) (by decide)

/-- The island as it starts, before its first record. -/
def started (s : State) (swid : Dword) (sum : BitVec 256) : State :=
  let now := max s.mtr.time (((s.mtr.zone.getLast?).map (·.tEnd)).getD 0 + s.freeVal)
  (s.mtrEdit fun m => { m with
    run := true, halt := 0, lost := false, swid := swid, swck := sum, sealedSwck := sum, time := now, tStart := now, energy := 0
    x32Ok := true, x25Ok := true, clkFault := false, sealSeen := m.sealOpen }).freeStep

/-- The start is recorded. -/
def startNoted (s : State) (swid : Dword) (sum : BitVec 256) : State :=
  (started s swid sum).mtrPut ((started s swid sum).mtrHeader 4 0)

/-- The gap record of a start whose chain broke, or whose supply was lost. -/
def gapRecord (s : State) (swid : Dword) (sum : BitVec 256) : MRec :=
  { (startNoted s swid sum).mtrHeader 3 0 with tStart := ((s.mtr.zone.getLast?).map (·.tEnd)).getD 0 }

/-- The chain goes on behind a gap. -/
def gapNoted (s : State) (swid : Dword) (sum : BitVec 256) : State :=
  ((startNoted s swid sum).mtrPut (gapRecord s swid sum)).mtrEdit fun m => { m with restored := true }

/-- The island runs the program that was sealed. -/
def RunsProgram (m : Mtr) (swid : Dword) (sum : BitVec 256) : Prop :=
  m.run = true ∧ m.halt = 0 ∧ m.swid = swid ∧ m.swck = sum ∧ m.sealedSwck = sum ∧ m.lost = false

theorem startNoted_runs (s : State) (swid : Dword) (sum : BitVec 256) : RunsProgram (startNoted s swid sum).mtr swid sum := by
  unfold startNoted
  rw [mtrPut_mtr]
  exact ⟨rfl, rfl, rfl, rfl, rfl, rfl⟩

theorem gapNoted_mtr (s : State) (swid : Dword) (sum : BitVec 256) :
    (gapNoted s swid sum).mtr = { (startNoted s swid sum).mtr.bufferAdd (gapRecord s swid sum) with restored := true } :=
  congrArg (fun m : Mtr => { m with restored := true }) (mtrPut_mtr _ _)

theorem gapNoted_runs (s : State) (swid : Dword) (sum : BitVec 256) : RunsProgram (gapNoted s swid sum).mtr swid sum := by
  rw [gapNoted_mtr]
  exact startNoted_runs s swid sum

section Off
variable {s : State} (hoff : s.mtr.run = false) (chain : Bool) (swid : Dword) (sum : BitVec 256)
include hoff

theorem islandStart_unverified : exec (.islandStart false chain swid sum) s = .next (State.mtrHalt { s with mtr := { s.mtr with swck := sum } } 2) :=
  (if_neg (by simp [hoff])).trans (if_pos rfl)

theorem islandStart_verified (hbusy : s.mtr.paramBusy = false) : exec (.islandStart true chain swid sum) s =
    .next (if chain && !s.mtr.lost then startNoted s swid sum else gapNoted s swid sum) :=
  (if_neg (by simp [hoff])).trans ((if_neg nofun).trans (congrArg Host.Outcome.next (if_neg (by simp [hbusy]))))

end Off

section Checksum
variable {s : State} (hrun : s.mtr.run = true) {sum : BitVec 256}
include hrun

theorem swckCheck_equal (h : sum = s.mtr.sealedSwck) : s.swckCheck sum = { s with mtr := { s.mtr with swck := sum } } :=
  (if_neg (island_not_off hrun)).trans (if_pos h)

theorem swckCheck_differs (h : sum ≠ s.mtr.sealedSwck) : s.swckCheck sum = State.mtrHalt { s with mtr := { s.mtr with swck := sum } } 3 :=
  (if_neg (island_not_off hrun)).trans (if_neg h)

end Checksum

/-- Settles O49, act by act. -/
theorem islandCountsAndCloses : Obligations.IslandCountsAndCloses := by
  intro s m eventOnly
  refine ⟨fun stamp crownNs rows hrun => ⟨fun h => ?_, fun hlt hrows => ?_⟩, fun i v hrun => ?_, fun ppm hrun => ?_,
    fun swid sum chain hoff => ⟨?_, fun hbusy => ?_⟩, ?_, fun sum hrun => ⟨fun h => ?_, fun h => ?_⟩, fun hrun => ⟨?_, ?_⟩⟩
  · exact ⟨_, tallyBatch_refused hrun crownNs h, Same.mono (mtrFault_same s _) (by decide), mtrFault_mtr s _⟩
  · refine ⟨_, tallyBatch_taken hrun crownNs hlt hrows, mtr_same s _, rfl, rfl, rowsTake_tallyFault rows m, ?_⟩
    rintro r a rfl hm ho hi
    exact rowTake_own hm ho hi
  · refine ⟨_, if_neg (island_not_off hrun), Same.seq (mtr_same s _) (State.freeStep_law _).same (by decide) (by decide), rfl, fun hshunt => ?_⟩
    have hden : ¬m.param 1 * 10 ^ 9 = 0 := by omega
    exact ⟨_, congrArg (m.energy + ·) (if_neg hden), if_neg hden, rfl⟩
  · have hmtr := mtrFault_mtr s (atDue ppm (intervalDue m))
    have hsame := mtrFault_same s (atDue ppm (intervalDue m))
    have hcas := hsame .cas (by decide)
    have hrunning := intervalClose_closes hrun ppm
    generalize s.mtrFault (atDue ppm (intervalDue m)) = u at hmtr hsame hcas hrunning
    obtain ⟨r, h⟩ := mtrClose_spec u false
    have htime : u.mtr.time = max m.time (intervalDue m) := congrArg Mtr.time hmtr
    have htotal : u.mtr.eTotal + u.mtr.energy = m.eTotal + m.energy := congrArg (a₂ := atDue ppm (intervalDue m) m) (fun m : Mtr => m.eTotal + m.energy) hmtr
    refine ⟨_, r, hrunning, Same.seq hsame h.same (by decide) (by decide), h.time.trans htime, h.start.trans h.time.symm, h.energy,
      h.eTotal.trans htotal, h.next.trans (congrArg (a₂ := atDue ppm (intervalDue m) m) (fun m : Mtr => m.nextRec + 1) hmtr), h.last, h.type, ?_,
      h.prev.trans (congrArg (a₂ := atDue ppm (intervalDue m) m) Mtr.lastLink hmtr), h.link, h.tot.trans htotal, h.min, h.fin.trans h.time.symm, ?_⟩
    · rw [h.recno, hcas, hmtr]
      rfl
    · rw [h.flag]
      exact closeFlags_partial _
  · exact ⟨_, islandStart_unverified hoff chain swid sum, mtrHalted_same s _ 2, mtrHalt_mtr _ 2⟩
  · have hstart := islandStart_verified hoff chain swid sum hbusy
    by_cases hchain : (chain && !m.lost) = true
    · rw [if_pos hchain] at hstart
      obtain ⟨hrun, hhalt, hswid, hswck, hsealed, hlost⟩ := startNoted_runs s swid sum
      have hput := mtrPut_mtr (started s swid sum) ((started s swid sum).mtrHeader 4 0)
      have hboth : chain = true ∧ m.lost = false := by simpa using hchain
      refine ⟨_, (started s swid sum).mtrHeader 4 0, hstart, hrun, hhalt, hswid, hswck, hsealed, hlost,
        (congrArg (fun m : Mtr => m.buffer.getLast?) hput).trans (bufferAdd_last _ _), fun _ _ => ⟨rfl, rfl, ?_⟩, fun hgap => ?_⟩
      · exact congrArg (a₂ := (started s swid sum).mtr.bufferAdd _) Mtr.restored hput
      · rcases hgap with h | h <;> simp [hboth.1, hboth.2] at h
    · rw [if_neg hchain] at hstart
      obtain ⟨hrun, hhalt, hswid, hswck, hsealed, hlost⟩ := gapNoted_runs s swid sum
      have hput := gapNoted_mtr s swid sum
      refine ⟨_, gapRecord s swid sum, hstart, hrun, hhalt, hswid, hswck, hsealed, hlost,
        (congrArg (fun m : Mtr => m.buffer.getLast?) hput).trans (bufferAdd_last _ _), fun hc hl => ?_, fun _ => ⟨rfl, congrArg Mtr.restored hput⟩⟩
      exact absurd (by simp [hc, hl]) hchain
  · refine ⟨_, rfl, mtr_same s _, rfl, rfl, rfl, rfl, rfl, fun r hr => ⟨?_, ?_, ?_, ?_⟩⟩
    · exact congrArg (fun o : Option MRec => (o.map MRec.link).getD 0) hr
    · exact congrArg (fun o : Option MRec => (o.map (·.eTotal)).getD 0) hr
    · exact congrArg (fun o : Option MRec => recNum ((o.map (·.recno)).getD 0) + 1) hr
    · exact congrArg (fun o : Option MRec => (o.map (·.stampLast)).getD 0) hr
  · exact ⟨congrArg Host.Outcome.next (swckCheck_equal hrun h), congrArg Host.Outcome.next (swckCheck_equal hrun h)⟩
  · exact ⟨_, congrArg Host.Outcome.next (swckCheck_differs hrun h), congrArg Host.Outcome.next (swckCheck_differs hrun h), mtrHalted_same s _ 3, mtrHalt_mtr _ 3⟩
  · exact ⟨_, if_pos hrun, Same.mono (mtrFault_same s _) (by decide), mtrFault_mtr s _⟩
  · exact ⟨State.mtrHalt { s with mtr := { m with x25Ok := false } } 1, congrArg Host.Outcome.next (if_pos hrun), mtrHalted_same s _ 1, mtrHalt_mtr _ 1⟩

end Sys2Proof.Proofs
end

section
/-! PROOFS. Meter records stored, merged, acknowledged and selected; the seal and the parameters (R352 to R363). -/

namespace Sys2Proof.Proofs

open Sys2Proof Sys2Proof.Machine Sys2Proof.Safety Sys2Proof.Laws

/-! ### Storage and merging (R352, R356) -/

theorem recordStored_next {s : State} {r : MRec} {l : List MRec} (hm : s.mtr.merging = none) (hb : s.mtr.buffer = r :: l)
    (hfit : r.length ≤ s.mtr.freeBytes) :
    exec (.recordStored r.recno) s = .next { s with mtr := { s.mtr with zone := s.mtr.zone ++ [r], buffer := l } } := by
  show execRecordStored r.recno s = _
  unfold execRecordStored
  dsimp only
  conv => lhs; rw [hm, hb]
  have hfirst : r.recno = r.recno ∧ r.length ≤ s.mtr.freeBytes := ⟨rfl, hfit⟩
  exact if_pos hfirst

/-- A merged record stands for its originals. -/
def mergeStored (s : State) (r : MRec) : State := { s with mtr := { s.mtr with
  zone := (s.mtr.zone.takeWhile fun x => decide (x.recno < r.firstno)) ++ [r] ++ (s.mtr.zone.filter fun x => decide (r.recno < x.recno))
  merging := none, merges := satAdd 0xffff s.mtr.merges 1, ackWait := none } }

theorem recordStored_merged {s : State} {r : MRec} (hm : s.mtr.merging = some r) (ha : s.mtr.ackWait = none) :
    exec (.recordStored r.recno) s = .next (mergeStored s r).mtrSpace := by
  show execRecordStored r.recno s = _
  unfold execRecordStored
  dsimp only
  rw [hm, ha]
  exact if_pos rfl

/-- The record that stands for a run. -/
def mergedRun (a z : MRec) (l : List MRec) : MRec :=
  { z with level := a.level + 1, flags := (l.foldl (fun f r => f ||| r.flags) 1), firstno := a.firstno, tStart := a.tStart
           minutes := (l.map (·.minutes)).sum, prev := a.prev, tailhash := z.link, entries := mergeEntries l }

theorem mergeRun_run {a z : MRec} {l : List MRec} (hz : (a :: l).getLast? = some z) : mergeRun (a :: l) = some (mergedRun a z (a :: l)) := by
  unfold mergeRun
  rw [hz]
  rfl

section Merge
variable {s : State} (hrun : s.mtr.run = true) (hlow : s.mtr.low = true) (hm : s.mtr.merging = none)
include hrun hlow hm

theorem meterMerge_tries : exec (.meterMerge true) s = match (s.mtr.nextRun false).bind mergeRun with
    | some r => .next { s with mtr := { s.mtr with merging := some r } }
    | none => .next (if s.mtr.zoneFull then { s with mtr := { s.mtr with zoneFull := true } }
        else State.fire { s with mtr := { s.mtr with zoneFull := true } } 194) :=
  if_neg (by simp [hrun, hlow, hm])

theorem meterMerge_merges {a z : MRec} {l : List MRec} (hl : s.mtr.nextRun false = some (a :: l)) (hz : (a :: l).getLast? = some z) :
    exec (.meterMerge true) s = .next { s with mtr := { s.mtr with merging := some (mergedRun a z (a :: l)) } } := by
  rw [meterMerge_tries hrun hlow hm, hl, Option.bind_some, mergeRun_run hz]

theorem meterMerge_full (hl : s.mtr.nextRun false = none) : exec (.meterMerge true) s = .next
    (if s.mtr.zoneFull then { s with mtr := { s.mtr with zoneFull := true } } else State.fire { s with mtr := { s.mtr with zoneFull := true } } 194) := by
  rw [meterMerge_tries hrun hlow hm, hl, Option.bind_none]

end Merge

/-! ### Acknowledgement (R355) -/

section Ack
variable {s : State} {v : Word} (hchip : v.toNat / 2 ^ 62 = s.cas.chip)
include hchip

theorem mtrAck_below (h : v.toNat < s.mtr.acked) : exec (.mtrAck v) s = .next { s with mtr := { s.mtr with ackResult := 1 } } :=
  (if_neg (not_not_of hchip)).trans (if_pos h)

theorem mtrAck_beyond (h : s.mtr.acked ≤ v.toNat) (hnew : s.mtr.newest < v.toNat) :
    exec (.mtrAck v) s = .next { s with mtr := { s.mtr with ackResult := 2 } } :=
  (if_neg (not_not_of hchip)).trans ((if_neg (by omega)).trans (if_pos hnew))

theorem mtrAck_applies (h : s.mtr.acked ≤ v.toNat) (hnew : v.toNat ≤ s.mtr.newest) (hm : s.mtr.merging = none) :
    exec (.mtrAck v) s = .next (State.mtrAckDo { s with mtr := { s.mtr with ackResult := 0 } } v.toNat) :=
  (if_neg (not_not_of hchip)).trans ((if_neg (by omega)).trans ((if_neg (by omega)).trans (if_neg (by simp [hm]))))

end Ack

/-- An acknowledgement reclaims a part of the records that it covers. -/
theorem mtrAckDo_zone (s : State) (n : Nat) : ∃ k, (s.mtrAckDo n).mtr.zone = s.mtr.zone.drop k ∧
    k ≤ (s.mtr.zone.takeWhile fun r => decide (r.recno ≤ n)).length :=
  ⟨_, rfl, Nat.lt_succ_iff.mp (Nat.mod_lt _ (Nat.succ_pos _))⟩

/-! ### The seal and the parameters (R358 to R362) -/

/-- The seal has changed: recorded as an event, the interval closed, the level taken. -/
def sealTaken (s : State) (level : Bool) : State :=
  ((s.fire 193 [({ s.mtr with sealOpen := level } : Mtr).status]).mtrClose true).mtrEdit fun m => { m with sealOpen := level, sealSeen := level }

theorem sealChange_taken {s : State} {level : Bool} (hl : level ≠ s.mtr.sealOpen) (hrun : s.mtr.run = true) :
    exec (.sealChange level) s = .next ((sealTaken s level).mtrAudit (if level then 5 else 6) 0 0 0 0) :=
  (if_neg hl).trans (if_neg (island_not_off hrun))

theorem mtrAudited_same (u : State) (k p o n w : Nat) : Same (Piece.withEvent [.mtr]) u (u.mtrAudit k p o n w) :=
  Same.mono (State.mtrAudit_law u k p o n w).same (by decide)

section Commit
variable {s : State} (hbusy : s.mtr.paramBusy = false) (hrun : s.mtr.run = true)
include hbusy hrun

theorem paramCommit_decides : exec .mtrParamCommit s = .next s.paramCommit :=
  (if_neg (by simp [hbusy])).trans (if_neg (island_not_off hrun))

theorem paramCommit_sealed (h : s.mtr.sealOpen = false) :
    exec .mtrParamCommit s = .next { s with mtr := { s.mtr with paramResult := 1, paramBusy := false } } :=
  (paramCommit_decides hbusy hrun).trans (congrArg Host.Outcome.next (if_pos (by simp [h])))

variable (hopen : s.mtr.sealOpen = true)
include hopen

theorem paramCommit_range (h : paramOk s.mtr.paramSel s.mtr.paramVal.toNat = false) :
    exec .mtrParamCommit s = .next { s with mtr := { s.mtr with paramResult := 2, paramBusy := false } } :=
  (paramCommit_decides hbusy hrun).trans (congrArg Host.Outcome.next ((if_neg (by simp [hopen])).trans (if_pos (by simp [h]))))

variable (hok : paramOk s.mtr.paramSel s.mtr.paramVal.toNat = true)
include hok

theorem paramCommit_spent (h : 0xffffffff ≤ s.mtr.sealCnt) :
    exec .mtrParamCommit s = .next { s with mtr := { s.mtr with paramResult := 3, paramBusy := false } } :=
  (paramCommit_decides hbusy hrun).trans
    (congrArg Host.Outcome.next ((if_neg (by simp [hopen])).trans ((if_neg (by simp [hok])).trans (if_pos h))))

end Commit

/-- The parameter is taken, its audit not yet written. -/
def paramTaken (s : State) : State :=
  (State.mtrClose { s with mtr := { s.mtr with paramResult := 0, paramBusy := false } } false).mtrEdit fun m =>
    { m.apply s.mtr.paramSel s.mtr.paramVal.toNat with sealCnt := min 0xffffffff (m.sealCnt + 1) }

theorem paramCommit_takes {s : State} (hbusy : s.mtr.paramBusy = false) (hrun : s.mtr.run = true) (hopen : s.mtr.sealOpen = true)
    (hok : paramOk s.mtr.paramSel s.mtr.paramVal.toNat = true) (h : s.mtr.sealCnt < 0xffffffff) : exec .mtrParamCommit s =
    .next ((paramTaken s).mtrAudit (if s.mtr.paramSel = 7 then 2 else 1) s.mtr.paramSel
      (if s.mtr.paramSel = 7 then s.mtr.time else s.mtr.param s.mtr.paramSel) s.mtr.paramVal.toNat 0) :=
  (paramCommit_decides hbusy hrun).trans
    (congrArg Host.Outcome.next ((if_neg (by simp [hopen])).trans ((if_neg (by simp [hok])).trans (if_neg (by omega)))))

theorem apply_paramResult (m : Mtr) (k v : Nat) : (m.apply k v).paramResult = m.paramResult := by
  unfold Mtr.apply
  split <;> rfl

theorem apply_time {m : Mtr} {k : Nat} (h : k = 7) (v : Nat) : (m.apply k v).time = v := by
  unfold Mtr.apply
  rw [if_pos h]

theorem apply_param {m : Mtr} {k : Nat} (h : k ≠ 7) (v : Nat) : (m.apply k v).param k = v := by
  unfold Mtr.apply
  rw [if_neg h]
  exact Tbl.get_put _ _ _ _

/-- Settles O50: stored, merged, acknowledged and selected, then the seal and the parameters. -/
theorem recordsAreStoredAndSealed : Obligations.RecordsAreStoredAndSealed := by
  intro s m
  refine ⟨fun r l => recordStored_next, fun r hm ha => ?_, fun hrun hlow hm => ⟨fun a z l hl hz => ?_, fun hl => ?_⟩,
    fun v hchip => ⟨mtrAck_below hchip, mtrAck_beyond hchip, fun h hnew hm => ?_⟩, fun v => rfl, fun level hl hrun => ?_,
    fun hbusy hrun => ⟨paramCommit_sealed hbusy hrun, paramCommit_range hbusy hrun, paramCommit_spent hbusy hrun, fun hopen hok hcnt => ?_⟩⟩
  · exact ⟨_, recordStored_merged hm ha, Same.seq (mtr_same s _) (mtr_same _ _) (by decide) (by decide), rfl, rfl, rfl⟩
  · exact ⟨_, _, meterMerge_merges hrun hlow hm hl hz, mtr_same s _, rfl, rfl, rfl, rfl, rfl, rfl, rfl, rfl, rfl, rfl⟩
  · refine ⟨_, meterMerge_full hrun hlow hm hl, ?_⟩
    have hsame : Same [.mtr] s { s with mtr := { s.mtr with zoneFull := true } } := mtr_same s _
    split
    · exact ⟨Same.mono hsame (by decide), rfl⟩
    · exact ⟨Same.seq hsame (State.fire_law _ _ _ _ _ _).same (by decide) (by decide), fire_mtr _ _ _ _ _ _⟩
  · obtain ⟨k, hzone, hk⟩ := mtrAckDo_zone { s with mtr := { s.mtr with ackResult := 0 } } v.toNat
    exact ⟨_, k, mtrAck_applies hchip h hnew hm, Same.seq (mtr_same s _) (State.mtrAckDo_law _ _).same (by decide) (by decide), rfl, rfl, hzone, hk⟩
  · have hfire := (State.fire_law s 193 [({ m with sealOpen := level } : Mtr).status] 0 0x7ff none).same
    have hmtr : (s.fire 193 [({ m with sealOpen := level } : Mtr).status]).mtr = m := hfire .mtr (by decide)
    obtain ⟨_, hclosed⟩ := mtrClose_spec (s.fire 193 [({ m with sealOpen := level } : Mtr).status]) true
    obtain ⟨r, hput, htype, -, haudit⟩ := mtrAudit_spec (sealTaken s level) (if level then 5 else 6) 0 0 0
    have htaken : Same (Piece.withEvent [.free, .mtr]) s (sealTaken s level) :=
      Same.seq (Same.seq hfire hclosed.same (w := Piece.withEvent [.free, .mtr]) (by decide) (by decide)) (mtr_same _ _) (by decide) (by decide)
    have hcnt : (sealTaken s level).mtr.sealCnt = m.sealCnt := hclosed.sealCnt.trans (congrArg Mtr.sealCnt hmtr)
    have hnext : (sealTaken s level).mtr.nextRec = m.nextRec + 1 := hclosed.next.trans (congrArg (fun m : Mtr => m.nextRec + 1) hmtr)
    refine ⟨_, r, sealChange_taken hl hrun, Same.seq htaken (mtrAudited_same _ _ _ _ _ _) (by decide) (by decide), ?_, ?_, ?_, ?_, htype, haudit⟩
    · exact congrArg Mtr.sealOpen hput
    · exact (congrArg Mtr.sealCnt hput).trans hcnt
    · exact (congrArg Mtr.nextRec hput).trans (congrArg (· + 1) hnext)
    · exact (congrArg (fun m : Mtr => m.buffer.getLast?) hput).trans (bufferAdd_last _ _)
  · obtain ⟨_, hclosed⟩ := mtrClose_spec { s with mtr := { m with paramResult := 0, paramBusy := false } } false
    obtain ⟨r, hput, htype, hrcnt, haudit⟩ := mtrAudit_spec (paramTaken s) (if m.paramSel = 7 then 2 else 1) m.paramSel
      (if m.paramSel = 7 then m.time else m.param m.paramSel) m.paramVal.toNat
    have htaken : Same (Piece.withEvent [.free, .mtr]) s (paramTaken s) :=
      Same.seq (Same.seq (mtr_same s _) hclosed.same (w := Piece.withEvent [.free, .mtr]) (by decide) (by decide)) (mtr_same _ _) (by decide) (by decide)
    have hcounted : (paramTaken s).mtr.sealCnt = m.sealCnt + 1 := by
      refine (congrArg (fun n => min 0xffffffff (n + 1)) hclosed.sealCnt).trans ?_
      show min 0xffffffff (m.sealCnt + 1) = m.sealCnt + 1
      omega
    refine ⟨_, r, paramCommit_takes hbusy hrun hopen hok hcnt, Same.seq htaken (mtrAudited_same _ _ _ _ _ _) (by decide) (by decide), ?_, ?_, ?_, htype,
      hrcnt.trans hcounted, fun h7 => ⟨?_, ?_⟩, fun h7 => ⟨?_, ?_⟩⟩
    · exact (congrArg Mtr.paramResult hput).trans ((apply_paramResult _ _ _).trans hclosed.presult)
    · exact (congrArg Mtr.sealCnt hput).trans hcounted
    · exact (congrArg (fun m : Mtr => m.buffer.getLast?) hput).trans (bufferAdd_last _ _)
    · exact (congrArg (fun x : Mtr => x.param m.paramSel) hput).trans (apply_param h7 _)
    · rw [haudit, if_neg h7, if_neg h7]
    · exact (congrArg Mtr.time hput).trans (apply_time h7 _)
    · rw [haudit, if_pos h7, if_pos h7, h7]

end Sys2Proof.Proofs
end

section
/-! PROOFS. Frames in their order: taken, repeated, early, of a failed tag; acknowledged and sent again (R321 to R323, R330). -/

namespace Sys2Proof.Proofs

open Sys2Proof Sys2Proof.Machine Sys2Proof.Safety Sys2Proof.Laws

/-! ### Frames at a member (R322, R323) -/

/-- A frame whose tag holds: its port and its sender are noted. -/
def frameHeard (s : State) (f : Frame) : State :=
  (s.portEdit f.port fun x => { x with tagRun := 0 }).memEdit (f.port + 1) fun m => { m with contact := s.now }

/-- A duplicate is counted and acknowledged again. -/
def frameAgain (s : State) (f : Frame) : State :=
  ((frameHeard s f).portEdit f.port fun x => { x with dups := satAdd 0xffff x.dups 1 }).ackOut f.port f.vc (ceilDiv f.len 256)

/-- A frame ahead of its turn is counted as a gap. -/
def frameEarly (s : State) (f : Frame) : State := (frameHeard s f).portEdit f.port fun x => { x with gaps := satAdd 0xffff x.gaps 1 }

/-- A frame whose tag fails is counted. -/
def frameBad (s : State) (f : Frame) : State :=
  s.portEdit f.port fun x => { x with tagFail := satAdd 0xffffffff x.tagFail 1, tagRun := x.tagRun + 1 }

theorem frameHeard_same (s : State) (f : Frame) : Same [.cas] s (frameHeard s f) :=
  Same.seq (portEdit_same _ _ _) (memEdit_same _ _ _) (by decide) (by decide)

theorem frameHeard_port (s : State) (f : Frame) : (frameHeard s f).port f.port = { s.port f.port with tagRun := 0 } := by
  unfold frameHeard
  rw [memEdit_port, portEdit_port]

theorem frameAgain_same (s : State) (f : Frame) : Same [.out, .cas] s (frameAgain s f) :=
  Same.seq (Same.seq (frameHeard_same s f) (portEdit_same _ _ _) (w := [.cas]) (by decide) (by decide)) (State.ackOut_law _ _ _ _).same
    (by decide) (by decide)

theorem frameAgain_port (s : State) (f : Frame) : (frameAgain s f).port f.port =
    { s.port f.port with tagRun := 0, dups := satAdd 0xffff (s.port f.port).dups 1, fseqTx := (s.port f.port).fseqTx + 1 } := by
  unfold frameAgain
  rw [ackOut_port, portEdit_port, frameHeard_port]

theorem frameAgain_out (s : State) (f : Frame) : (frameAgain s f).out = .frame f.port 0 0 0 ((s.port f.port).fseqTx + 1)
    (((List.range 4).map fun v => (s.port f.port).rxSeq.get v 1 - 1) ++
      (List.range 4).map fun v => if v = f.vc then ceilDiv f.len 256 else 0) :: s.out := by
  unfold frameAgain
  rw [ackOut_out, portEdit_port, frameHeard_port]
  rfl

theorem frameEarly_same (s : State) (f : Frame) : Same [.cas] s (frameEarly s f) :=
  Same.seq (frameHeard_same s f) (portEdit_same _ _ _) (by decide) (by decide)

theorem frameEarly_port (s : State) (f : Frame) : (frameEarly s f).port f.port =
    { s.port f.port with tagRun := 0, gaps := satAdd 0xffff (s.port f.port).gaps 1 } := by
  unfold frameEarly
  rw [portEdit_port, frameHeard_port]

theorem frameBad_port (s : State) (f : Frame) : (frameBad s f).port f.port =
    { s.port f.port with tagFail := satAdd 0xffffffff (s.port f.port).tagFail 1, tagRun := (s.port f.port).tagRun + 1 } :=
  portEdit_port _ _ _

/-! ### Leases (R330) -/

/-- The leases of a member after an order of the crown. -/
def leased (u : State) (op : LeaseOp) : State := { u with cas := { u.cas with myLeases := match op with
  | .grant z => u.cas.myLeases.put z true
  | .renew => u.cas.myLeases.mapV fun _ _ => true
  | .release z => u.cas.myLeases.del z } }

/-- A member that can hear its crown. -/
structure Hears (s : State) (f : Frame) : Prop where
  member : s.cas.crown = false
  port : f.port = 0
  joined : 5 ≤ (s.port 0).phase
  awake : s.inStop = false
  powered : s.brm.st < 3

section Lease
variable {s : State} {f : Frame} (h : Hears s f) (op : LeaseOp)
include h

theorem Hears.up : 5 ≤ (s.port f.port).phase := h.port ▸ h.joined

theorem lease_heard : exec (.lease f op) s = .next (s.frameIn f 5 fun u => leased u op) := by
  have hmine : (!s.cas.crown && f.port == 0) = true := by simp [h.member, h.port]
  exact congrArg Host.Outcome.next (if_pos hmine)

theorem lease_taken (htag : f.tagOk = true) (hturn : f.mseq = (s.port f.port).rxSeq.get f.vc 1) :
    exec (.lease f op) s = .next (leased (frameTaken s f) op) :=
  (lease_heard h op).trans (congrArg Host.Outcome.next (frameIn_on_turn ⟨h.up, h.awake, h.powered, htag, hturn⟩))

theorem lease_again (htag : f.tagOk = true) (hlt : f.mseq < (s.port f.port).rxSeq.get f.vc 1) :
    exec (.lease f op) s = .next (frameAgain s f) :=
  (lease_heard h op).trans (congrArg Host.Outcome.next ((frameIn_taken h.up h.awake h.powered htag).trans (if_pos hlt)))

theorem lease_early (htag : f.tagOk = true) (hlt : (s.port f.port).rxSeq.get f.vc 1 < f.mseq) :
    exec (.lease f op) s = .next (frameEarly s f) :=
  (lease_heard h op).trans (congrArg Host.Outcome.next
    ((frameIn_taken h.up h.awake h.powered htag).trans ((if_neg (by omega)).trans (if_pos hlt))))

theorem lease_bad (htag : f.tagOk = false) : exec (.lease f op) s =
    .next (if 16 ≤ (s.port f.port).tagRun + 1 then (frameBad s f).linkDrop f.port 2 else frameBad s f) :=
  (lease_heard h op).trans (congrArg Host.Outcome.next (frameIn_badTag h.up h.awake h.powered htag))

end Lease

/-! ### Acknowledgement (R321, R322) -/

/-- What an ACK covers is released, and its credits are returned. -/
def ackHeard (s : State) (f : Frame) (acked credits : List Nat) : State :=
  let s1 := s.portEdit f.port fun x => { x with
    tagRun := 0
    unacked := x.unacked.filter fun m => m.sends == 0 || decide (acked.getD m.vc 0 < m.mseq)
    credits := (List.range 4).foldl (fun t v => t.put v (min 64 (x.credit v + credits.getD v 0))) x.credits }
  s1.memEdit (f.port + 1) fun m => { m with
    contact := s.now, waitRenew := m.waitRenew && (s1.port f.port).unacked.any fun u => u.type == 0x11 }

theorem ackHeard_same (s : State) (f : Frame) (acked credits : List Nat) : Same [.cas] s (ackHeard s f acked credits) :=
  Same.seq (portEdit_same _ _ _) (memEdit_same _ _ _) (by decide) (by decide)

theorem ackHeard_port (s : State) (f : Frame) (acked credits : List Nat) : (ackHeard s f acked credits).port f.port =
    { s.port f.port with
      tagRun := 0
      unacked := (s.port f.port).unacked.filter fun m => m.sends == 0 || decide (acked.getD m.vc 0 < m.mseq)
      credits := (List.range 4).foldl (fun t v => t.put v (min 64 ((s.port f.port).credit v + credits.getD v 0))) (s.port f.port).credits } := by
  unfold ackHeard
  rw [memEdit_port, portEdit_port]

theorem ack_heard {s : State} {f : Frame} (hup : 4 ≤ (s.port f.port).phase) (hawake : s.inStop = false) (hpow : s.brm.st < 3)
    (htag : f.tagOk = true) (acked credits : List Nat) :
    exec (.ack f acked credits) s = .next ((ackHeard s f acked credits).pump f.port) :=
  (if_neg (by rw [hawake]; simp; omega)).trans (if_neg (by rw [htag]; nofun))

/-- Where every message has been sent, only those that the ACK does not cover remain. -/
theorem filter_sent {l : List Unacked} (h : l.all (fun m => m.sends != 0) = true) (p : Unacked → Bool) :
    l.filter (fun m => m.sends == 0 || p m) = l.filter p := by
  refine List.filter_congr fun m hm => ?_
  have hsent := List.all_eq_true.mp h m hm
  rw [bne_iff_ne] at hsent
  rw [beq_false_of_ne hsent, Bool.false_or]

/-! ### Sending again and the end of a link (R323) -/

theorem retry_not_barred {s : State} (hawake : s.inStop = false) (hpow : s.brm.st < 3) : ¬(s.inStop = true ∨ 3 ≤ s.brm.st) := by
  rw [hawake]
  exact fun h => h.elim nofun (by omega)

section Timeout
variable {s : State} {p vc mseq : Nat} {m : Unacked}
  (hm : (s.port p).unacked.find? (fun m => m.vc == vc && m.mseq == mseq && m.sends != 0) = some m) (hawake : s.inStop = false) (hpow : s.brm.st < 3)
include hm hawake hpow

theorem ackTimeout_sends (hn : m.sends < 64) : exec (.ackTimeout p vc mseq) s = .next
    (((s.port p).unacked.filter fun u => u.vc == vc && decide (mseq ≤ u.mseq) && u.sends != 0).foldl (fun (s : State) u =>
      (s.portEdit p fun x => { x with
        retries := satAdd 0xffff x.retries 1
        unacked := x.unacked.map fun w => if w.vc = vc ∧ w.mseq = u.mseq then { w with sends := w.sends + 1 } else w }).frameOut p u) s) := by
  show execAckTimeout p vc mseq s = _
  unfold execAckTimeout
  rw [hm]
  exact (if_neg (retry_not_barred hawake hpow)).trans (if_neg (by omega))

theorem ackTimeout_drops (hn : 64 ≤ m.sends) : exec (.ackTimeout p vc mseq) s = .next (s.linkDrop p 3) := by
  show execAckTimeout p vc mseq s = _
  unfold execAckTimeout
  rw [hm]
  exact (if_neg (retry_not_barred hawake hpow)).trans (if_pos hn)

end Timeout

theorem linkDrop_ends (s : State) (p cause : Nat) : ((s.linkDrop p cause).port p).phase = 0 ∧
    ((s.linkDrop p cause).port p).downCause = cause ∧ ((s.linkDrop p cause).port p).unacked = [] := by
  rw [linkDrop_port]
  exact ⟨rfl, rfl, rfl⟩

/-- Settles O44: a LEASE in each place that a frame can have in its sequence, then the ACK, its timeout and the link's end. -/
theorem framesAreTakenInOrder : Obligations.FramesAreTakenInOrder := by
  intro s
  refine ⟨fun f op hcrown hport hup hawake hpow => ?_, fun f acked credits hup hawake hpow htag hsent => ?_,
    fun p vc mseq m hm hawake hpow => ⟨fun hn => ?_, fun hn => ?_⟩, fun p cause hup => ⟨_, if_neg hup, linkDrop_ends s p cause⟩⟩
  · have h : Hears s f := ⟨hcrown, hport, hup, hawake, hpow⟩
    cases htag : f.tagOk with
    | false =>
      refine ⟨_, lease_bad h op htag, nofun, fun _ => ?_⟩
      have hbad := frameBad_port s f
      have hdrop := linkDrop_port (frameBad s f) f.port 2
      rw [hport] at hbad hdrop ⊢
      by_cases hrun : 16 ≤ (s.port 0).tagRun + 1
      · rw [if_pos hrun, if_pos hrun, hdrop, hbad]
        exact ⟨linkDrop_myLeases hcrown, rfl, rfl⟩
      · rw [if_neg hrun, if_neg hrun, hbad]
        exact ⟨rfl, rfl, rfl⟩
    | true =>
      rcases Nat.lt_trichotomy f.mseq ((s.port f.port).rxSeq.get f.vc 1) with hlt | heq | hlt
      · refine ⟨_, lease_again h op htag hlt, fun _ => ⟨frameAgain_same s f, ?_⟩, nofun⟩
        have hp := frameAgain_port s f
        have hout := frameAgain_out s f
        rw [hport] at hp hout hlt
        rw [hp]
        exact ⟨rfl, rfl, fun he => by omega, fun _ => ⟨rfl, rfl⟩, fun _ => ⟨rfl, hout⟩, fun he => by omega⟩
      · refine ⟨_, lease_taken h op htag heq, fun _ => ⟨Same.seq (frameTaken_same s f) (cas_same _ _) (by decide) (by decide), ?_⟩, nofun⟩
        have hp : (leased (frameTaken s f) op).port f.port = _ := frameTaken_port s f
        rw [hport] at hp heq
        rw [hp]
        exact ⟨rfl, rfl, fun _ => ⟨rfl, rfl⟩, fun he => absurd heq he, fun he => by omega, fun he => by omega⟩
      · refine ⟨_, lease_early h op htag hlt, fun _ => ⟨Same.mono (frameEarly_same s f) (by decide), ?_⟩, nofun⟩
        have hp := frameEarly_port s f
        rw [hport] at hp hlt
        rw [hp]
        exact ⟨rfl, rfl, fun he => by omega, fun _ => ⟨rfl, rfl⟩, fun he => by omega, fun _ => ⟨rfl, rfl⟩⟩
  · have hp := ackHeard_port s f acked credits
    rw [filter_sent hsent] at hp
    have hidle : (ackHeard s f acked credits).pump f.port = ackHeard s f acked credits := by
      refine pump_idle _ _ ?_
      rw [hp]
      exact List.all_eq_true.mpr fun m hm => List.all_eq_true.mp hsent m ((List.mem_filter.mp hm).1)
    refine ⟨_, (ack_heard hup hawake hpow htag acked credits).trans (congrArg Host.Outcome.next hidle), ackHeard_same s f acked credits, ?_, fun v hv => ?_⟩
    · rw [hp]
    · rw [hp]
      exact credits_fold _ credits v hv
  · obtain ⟨hsame, hfseq, hout, hkept⟩ := resend_port p vc ((s.port p).unacked.filter fun u => u.vc == vc && decide (mseq ≤ u.mseq) && u.sends != 0) s
    exact ⟨_, ackTimeout_sends hm hawake hpow hn, hsame, ⟨hfseq, hout⟩, hkept⟩
  · exact ⟨_, ackTimeout_drops hm hawake hpow hn, linkDrop_ends s p 3⟩

end Sys2Proof.Proofs
end

section
/-! PROOFS. The crown's own acts on its members: stamped events of the cascade that commit at once, and what each leaves (R325, R328,
R330 to R332). -/

namespace Sys2Proof.Proofs

open Sys2Proof Sys2Proof.Machine Sys2Proof.Safety Sys2Proof.Laws

/-! ### What leaves the stamped sequence empty

The commit of a fence or of an action may end commands, and the end of a command may take entries out of the gate: with none there, none
is put there. -/

/-- Where no entry waits, none does afterwards. -/
def KeepsBare (s t : State) : Prop := s.gate.entries = [] → t.gate.entries = []

theorem KeepsBare.refl (s : State) : KeepsBare s s := id

theorem KeepsBare.trans {s t u : State} (h : KeepsBare s t) (g : KeepsBare t u) : KeepsBare s u := g ∘ h

theorem KeepsBare.ite {s t u : State} {c : Prop} [Decidable c] (h : KeepsBare s t) (g : KeepsBare s u) :
    KeepsBare s (if c then t else u) := by
  split
  · exact h
  · exact g

theorem KeepsBare.of_law {r : List Piece} {s t : State} (h : Law r s t) (hr : .gate ∉ r) : KeepsBare s t :=
  (congrArg Gate.entries (h.same .gate hr)).trans

theorem KeepsBare.of_gate {s t : State} (h : t.gate = s.gate) : KeepsBare s t := (congrArg Gate.entries h).trans

theorem KeepsBare.foldl {α : Type} {f : State → α → State} (hf : ∀ s a, KeepsBare s (f s a)) (l : List α) (s : State) :
    KeepsBare s (l.foldl f s) := by
  induction l generalizing s with
  | nil => exact KeepsBare.refl s
  | cons a l ih => exact (hf s a).trans (ih (f s a))

theorem KeepsBare.forNats {f : State → Nat → State} (hf : ∀ s k, KeepsBare s (f s k)) (l : List Nat) (s : State) :
    KeepsBare s (forNats l s f) :=
  KeepsBare.foldl hf l s

theorem dirtySub_bare (s : State) (n : Nat) : KeepsBare s (s.dirtySub n) := id

theorem entryDrop_bare (s : State) (c : Nat) : KeepsBare s (s.entryDrop c) := fun h => by
  show s.gate.entries.filter _ = []
  rw [h]
  rfl

theorem ioAccept_bare (s : State) : KeepsBare s s.ioAccept := by
  unfold State.ioAccept
  exact KeepsBare.ite id id

/-- The budget is the only part of the gate that a write's end gives back. -/
theorem chargesBack_bare (s : State) (c : Prop) [Decidable c] (o gen n back dirty stamp : Nat) (st : Staged) (f : Tok → Bool) :
    KeepsBare s ((((((if c then s.keyUnref o gen n else s).quotaSub o back).dirtySub dirty).tokRemove o f).unstage st stamp).altsUndo stamp) := by
  have hkey : KeepsBare s (if c then s.keyUnref o gen n else s) :=
    KeepsBare.ite (KeepsBare.of_law (State.keyUnref_law s o gen n) (by decide)) (KeepsBare.refl s)
  generalize (if c then s.keyUnref o gen n else s) = u at hkey
  have hquota : KeepsBare u (u.quotaSub o back) := KeepsBare.of_law (State.quotaSub_law u o back) (by decide)
  refine KeepsBare.trans (t := (u.quotaSub o back).dirtySub dirty) ((hkey.trans hquota).trans (dirtySub_bare _ dirty)) ?_
  refine KeepsBare.of_law (r := [.toks, .out, .ctxs, .staging, .bpm, .evt, .log]) ?_ (by decide)
  exact Law.next (Law.next (Law.next (Law.refl _) (State.tokRemove_law _ o f) rfl) (State.unstage_law _ st stamp) rfl) (State.altsUndo_law _ stamp) rfl

theorem unitsBack_bare (s : State) (st : Staged) (rows : List Nat) (f : Zone → Zone) :
    KeepsBare s (((st.data.foldl (fun s p => s.foldStaged st p.1) s).rowsCut st.zone rows).zoneEdit st.zone f) := by
  refine KeepsBare.trans ?_ (KeepsBare.of_law (State.zoneEdit_law _ st.zone f) (by decide))
  refine KeepsBare.trans ?_ (KeepsBare.of_law (State.rowsCut_law _ st.zone rows) (by decide))
  exact KeepsBare.foldl (fun u p => KeepsBare.of_law (State.foldStaged_law u st p.1) (by decide)) st.data s

theorem withdraw_bare (s : State) (stamp : Nat) : KeepsBare s (s.withdraw stamp) := by
  unfold State.withdraw
  split
  · exact KeepsBare.refl s
  · next st _ =>
    dsimp only
    refine KeepsBare.ite (KeepsBare.trans ?_ (KeepsBare.of_law (State.rowsStart_law _ _ _ _) (by decide))) ?_
    all_goals
      exact (KeepsBare.ite (KeepsBare.refl s) (unitsBack_bare s st _ _)).trans (chargesBack_bare _ _ _ _ _ _ _ stamp st _)

theorem cancelWrite_bare (s : State) (stamp : Nat) : KeepsBare s (s.cancelWrite stamp) := by
  unfold State.cancelWrite
  split
  · exact KeepsBare.refl s
  · next st _ =>
    dsimp only
    have hquota : KeepsBare s ((s.quotaSub (s.zoneOwner st.zone) st.n).dirtySub st.n) :=
      (KeepsBare.of_law (State.quotaSub_law s _ _) (by decide)).trans (dirtySub_bare _ st.n)
    generalize (s.quotaSub (s.zoneOwner st.zone) st.n).dirtySub st.n = u at hquota
    have hkey : KeepsBare s (u.keyUnref (s.zoneOwner st.zone) st.gen 1) := hquota.trans (KeepsBare.of_law (State.keyUnref_law u _ _ _) (by decide))
    generalize u.keyUnref (s.zoneOwner st.zone) st.gen 1 = v at hkey
    have hfree : ∀ (l : List Nat) (w : State), KeepsBare w (l.foldl (fun (s : State) b => s.bufFree st.owner b) w) :=
      KeepsBare.foldl fun w b => KeepsBare.of_law (State.bufFree_law w st.owner b) (by decide)
    refine KeepsBare.trans ?_ (KeepsBare.of_law (State.altsUndo_law _ stamp) (by decide))
    exact fun hs => hfree _ _ (hkey hs)

/-- A command that failed is complete with its status. -/
theorem failed_bare (s : State) (c : Nat) (st : Status) : KeepsBare s ((s.ctxEdit c fun x => { x with failed := true }).finish c st) :=
  KeepsBare.trans (t := s.ctxEdit c fun x => { x with failed := true }) id (KeepsBare.of_law (State.finish_law _ c st 0 0 0) (by decide))

theorem failWrite_bare (s : State) (c : Nat) (st : Status) : KeepsBare s (s.failWrite c st) := by
  unfold State.failWrite
  split
  · exact KeepsBare.refl s
  · exact (KeepsBare.ite (withdraw_bare s _) (cancelWrite_bare s _)).trans (failed_bare _ c st)

theorem cmdEnd_bare (s : State) (c : Nat) (st : Status) : KeepsBare s (s.cmdEnd c st) := by
  unfold State.cmdEnd
  split
  · exact KeepsBare.refl s
  · next x _ =>
    dsimp only
    have hdrop : KeepsBare s (if x.committed then s else s.entryDrop c) := KeepsBare.ite (KeepsBare.refl s) (entryDrop_bare s c)
    refine KeepsBare.ite (KeepsBare.refl s) (KeepsBare.ite (hdrop.trans (failWrite_bare _ c st)) (hdrop.trans ?_))
    refine KeepsBare.trans (KeepsBare.ite ?_ ?_) (failed_bare _ c st)
    · exact KeepsBare.of_law (State.readStop_law _ c) (by decide)
    · exact KeepsBare.of_law (State.rdReturn_law _ c) (by decide)

theorem casLose_bare (s : State) (c : Nat) (reads : Bool) : KeepsBare s (s.casLose c reads) := by
  have write : ∀ u : State, ∀ k, KeepsBare u (match u.staging.look k with
      | some t => (match u.ctxs.look t.ctx with | some x => if x.committed then u.failWrite t.ctx stMemberFenced else u | none => u)
      | none => u) := by
    intro u k
    split
    · split
      · exact KeepsBare.ite (failWrite_bare u _ _) (KeepsBare.refl u)
      · exact KeepsBare.refl u
    · exact KeepsBare.refl u
  unfold State.casLose
  dsimp only
  have hwrites := KeepsBare.forNats write (s.staging.keysWhere fun _ t => !t.complete && !t.dropped && s.zoneChip t.zone == c) s
  exact KeepsBare.ite hwrites (hwrites.trans (KeepsBare.forNats (fun u k => cmdEnd_bare u k _) _ _))

theorem memSt_bare (s : State) (c : Nat) (st : MSt) (reason : Nat) : KeepsBare s (s.memSt c st reason) :=
  KeepsBare.of_law (State.memSt_law s c st reason) (by decide)

theorem linkDrop_bare (s : State) (p cause : Nat) : KeepsBare s (s.linkDrop p cause) := by
  unfold State.linkDrop
  dsimp only
  generalize hz : State.fire (State.portEdit (s.lanesDrop _) p _) _ _ _ _ _ = z
  have hgone : z.gate.entries = s.gate.entries := by
    rw [← hz, (State.fire_law _ _ _ _ _ _).same .gate (by decide)]
    exact congrArg Gate.entries ((State.lanesDrop_law s (ubpelPort p)).same .gate (by decide))
  refine KeepsBare.trans (t := z) hgone.trans (KeepsBare.ite (KeepsBare.ite id id) ?_)
  have hquiet : KeepsBare z (z.memEdit (p + 1) fun m => { m with resync := 0, waitRenew := false }) := id
  generalize (z.memEdit (p + 1) fun m => { m with resync := 0, waitRenew := false }) = v at hquiet
  exact KeepsBare.ite (hquiet.trans (memSt_bare v _ _ _)) (KeepsBare.ite (hquiet.trans (casLose_bare v _ _)) hquiet)

/-- A fence up to its notices. -/
def fenceTold (s : State) (c reason stamp : Nat) : State :=
  let s1 := (s.memEdit c fun m => { m with fenceStamp := stamp, resync := 0, misses := 0 }).memSt c .fenced reason
  (s1.casLose c ((reason == 1 || reason == 4) && s1.linkJoined c)).memNotices c

/-- What follows a fence: the critical warning, and a resynchronisation that starts by itself. -/
def fenceClosed (s : State) (c : Nat) (warn again : Bool) : State :=
  let s1 := if warn then s.aenCrit 3 else s
  if again then s1.memEdit c fun m => { m with resync := 1 } else s1

theorem fenceApply_closes (s : State) (c reason stamp : Nat) :
    ∃ warn again, s.fenceApply c reason stamp = (fenceClosed (fenceTold s c reason stamp) c warn again).ioAccept := ⟨_, _, rfl⟩

theorem fenceTold_bare (s : State) (c reason stamp : Nat) : KeepsBare s (fenceTold s c reason stamp) := by
  refine KeepsBare.trans ?_ (KeepsBare.of_law (State.memNotices_law _ c) (by decide))
  refine KeepsBare.trans ?_ (casLose_bare _ c _)
  refine KeepsBare.trans ?_ (memSt_bare _ c .fenced reason)
  exact KeepsBare.of_gate rfl

theorem fenceClosed_bare (s : State) (c : Nat) (warn again : Bool) : KeepsBare s (fenceClosed s c warn again) := by
  have hwarn : KeepsBare s (if warn then s.aenCrit 3 else s) := KeepsBare.ite (KeepsBare.of_law (State.aenCrit_law s 3) (by decide)) (KeepsBare.refl s)
  exact KeepsBare.ite (hwarn.trans (KeepsBare.of_gate rfl)) hwarn

theorem fenceApply_bare (s : State) (c reason stamp : Nat) : KeepsBare s (s.fenceApply c reason stamp) := by
  obtain ⟨warn, again, h⟩ := fenceApply_closes s c reason stamp
  rw [h]
  exact ((fenceTold_bare s c reason stamp).trans (fenceClosed_bare _ c warn again)).trans (ioAccept_bare _)

theorem casActApply_bare (s : State) (c action : Nat) : KeepsBare s (s.casActApply c action) := by
  unfold State.casActApply
  dsimp only
  refine KeepsBare.ite ?_ (KeepsBare.ite (KeepsBare.trans (memSt_bare s c .absent 0) id) ?_)
  · refine KeepsBare.trans (KeepsBare.trans ?_ (casLose_bare _ c false)) (ioAccept_bare _)
    exact (memSt_bare s c .excluded 0).trans (KeepsBare.ite id (linkDrop_bare _ _ 5))
  · exact KeepsBare.trans (KeepsBare.ite (memSt_bare s c .joining 0) (KeepsBare.refl s)) id

/-! ### A stamped event with nothing before it (R33, R38) -/

/-- The state in which the commit of a system event acts: stamped, sent to the members, taken out of the gate. -/
def sysCommitted (s : State) (ev : SysEv) : State := ((s.enterSys ev).sysTake s.gate.next).settle

theorem enterSys_entries (s : State) (ev : SysEv) : (s.enterSys ev).gate.entries = s.gate.entries.put s.gate.next
    { kind := .sysE, ctx := 65536, owner := 1025, nsid := 0, scopes := [chipScope], sys := some ev } := rfl

theorem sysTake_entries (s : State) (stamp : Nat) : (s.sysTake stamp).gate.entries = s.gate.entries.del stamp :=
  congrArg (·.del stamp) (stampFlush_entries s stamp)

theorem sysCommitted_bare {s : State} (h : s.gate.entries = []) (ev : SysEv) : (sysCommitted s ev).gate.entries = [] := by
  unfold sysCommitted
  rw [settle_entries, sysTake_entries, enterSys_entries, h]
  show Tbl.del [(s.gate.next, _)] s.gate.next = []
  simp [Tbl.del]

theorem stampSend_sent (s : State) (body : List Nat) : Sent s (s.stampSend body) :=
  Sent.fold _ _ (fun u _ => Sent.send u _ _ _ _ _) s

/-- Members and links are as they were before the stamp, but for the messages sent. -/
theorem sysCommitted_sent (s : State) (ev : SysEv) : lessPorts (sysCommitted s ev).cas = lessPorts s.cas ∧
    (∀ r, ((sysCommitted s ev).port r).phase = (s.port r).phase) ∧ Same [.out, .gate, .dma, .sward, .cas] s (sysCommitted s ev) := by
  have hsent : ∀ u : State, ∀ l : Tbl Entry, Sent u (l.foldl (fun (t : State) p => t.stampSend ((s.enterSys ev).entryBody p.1 p.2)) u) :=
    fun u l => Sent.fold l _ (fun t p => stampSend_sent t _) u
  refine ⟨(hsent _ _).cas, (hsent _ _).phase, ?_⟩
  exact Same.seq (Same.seq (State.enterSys_law s ev).same (State.sysTake_law _ _).same (w := [.out, .gate, .dma, .sward, .cas]) (by decide) (by decide))
    (State.settle_law _).same (by decide) (by decide)

theorem members_of_lessPorts {a b : Cas} (h : lessPorts a = lessPorts b) : a.members = b.members := by
  show (lessPorts a).members = (lessPorts b).members
  rw [h]

theorem crown_of_less {a b : Cas} (h : lessPortsVote a = lessPortsVote b) : a.crown = b.crown := by
  show (lessPortsVote a).crown = (lessPortsVote b).crown
  rw [h]

theorem sysCommitted_members (s : State) (ev : SysEv) : (sysCommitted s ev).cas.members = s.cas.members :=
  members_of_lessPorts (sysCommitted_sent s ev).1

theorem sysRun_bare {after : State → SysEv → Nat → Nat → State} {s : State} (h : s.gate.entries = []) (n : Nat) : State.sysRun after n s = s := by
  cases n with
  | zero => rfl
  | succ n =>
    unfold State.sysRun
    rw [h]

/-- An event that acts on the cascade alone commits at once. -/
theorem casEvent_alone {s : State} (h : s.gate.entries = []) {ev : SysEv} {t : State} (happly : ∀ u k, State.sysApply u ev k = u)
    (hafter : ∀ prev, State.sysAfter (sysCommitted s ev) ev s.gate.next prev = t) (hbare : KeepsBare (sysCommitted s ev) t) : s.casEvent ev = t := by
  have hwaits : ¬(s.eventWaits (· == ev) = true) := by
    unfold State.eventWaits
    rw [h]
    nofun
  have hone : (s.enterSys ev).gate.entries =
      [(s.gate.next, { kind := .sysE, ctx := 65536, owner := 1025, nsid := 0, scopes := [chipScope], sys := some ev })] := by
    rw [enterSys_entries, h]
    rfl
  refine (if_neg hwaits).trans ?_
  unfold State.sysGo
  rw [hone]
  show State.sysRun State.sysAfter (64 + 1) (s.enterSys ev) = t
  unfold State.sysRun
  rw [hone]
  dsimp only
  rw [happly]
  show State.sysRun State.sysAfter 64 (State.sysAfter (sysCommitted s ev) ev s.gate.next _) = t
  rw [hafter]
  exact sysRun_bare (hbare (sysCommitted_bare h ev)) 64

theorem memberFence_alone {s : State} (h : s.gate.entries = []) (c reason : Nat) :
    s.memberFence c reason = (sysCommitted s (.fence c reason)).fenceApply c reason s.gate.next :=
  casEvent_alone h (fun _ _ => rfl) (fun _ => rfl) (fenceApply_bare _ _ _ _)

theorem casAct_alone {s : State} (h : s.gate.entries = []) (c action : Nat) :
    s.casEvent (.casAct c action) = (sysCommitted s (.casAct c action)).casActApply c action :=
  casEvent_alone h (fun _ _ => rfl) (fun _ => rfl) (casActApply_bare _ _ _)

/-! ### What the acts leave of the cascade (R325, R328, R331) -/

/-- What CAS_CTL and the boot's wait have answered. -/
def casAnswers (c : Cas) : Nat × Bool := (c.result, c.joinwaitDone)

theorem answers_of_less {a b : Cas} (h : lessPortsVote a = lessPortsVote b) : casAnswers a = casAnswers b := by
  show casAnswers (lessPortsVote a) = casAnswers (lessPortsVote b)
  rw [h]

theorem result_of_answers {a : Cas} {n : Nat} {b : Bool} (h : casAnswers a = (n, b)) : a.result = n := congrArg Prod.fst h

theorem sysCommitted_answers (s : State) (ev : SysEv) : casAnswers (sysCommitted s ev).cas = casAnswers s.cas :=
  answers_of_less (congrArg lessVote (sysCommitted_sent s ev).1)

theorem memSt_answers (s : State) (c : Nat) (st : MSt) (reason : Nat) : casAnswers (s.memSt c st reason).cas = casAnswers s.cas :=
  (answers_of_less (memSt_quiet s c st reason).casEq).trans rfl

theorem casLose_cas (s : State) (c : Nat) (reads : Bool) : (s.casLose c reads).cas = s.cas := (State.casLose_law s c reads).same .cas (by decide)

theorem ioAccept_cas (s : State) : s.ioAccept.cas = s.cas := (State.ioAccept_law s).same .cas (by decide)

theorem fenceTold_cas (s : State) (c reason stamp : Nat) : (fenceTold s c reason stamp).cas =
    ((s.memEdit c fun m => { m with fenceStamp := stamp, resync := 0, misses := 0 }).memSt c .fenced reason).cas :=
  ((State.memNotices_law _ c).same .cas (by decide)).trans (casLose_cas _ c _)

/-- What follows a fence changes of the cascade at most the member's own resynchronisation. -/
theorem fenceClosed_cas (s : State) (c : Nat) (warn again : Bool) : casAnswers (fenceClosed s c warn again).cas = casAnswers s.cas ∧
    ∀ m, s.cas.members.look c = some m → ∃ r, (fenceClosed s c warn again).cas.members.look c = some { m with resync := r } := by
  unfold fenceClosed
  dsimp only
  have hwarn : (if warn then s.aenCrit 3 else s).cas = s.cas := by
    split
    · exact (State.aenCrit_law s 3).same .cas (by decide)
    · rfl
  generalize (if warn then s.aenCrit 3 else s) = u at hwarn
  split
  · refine ⟨congrArg (a₁ := u.cas) casAnswers hwarn, fun m hm => ⟨1, memEdit_look ?_ _⟩⟩
    rw [hwarn]
    exact hm
  · rw [hwarn]
    exact ⟨rfl, fun m hm => ⟨m.resync, hm⟩⟩

/-- A fence that has committed: its reason and its stamp stand at the member. -/
theorem fenceApply_fences {s : State} {c : Nat} {m : Member} (h : s.cas.members.look c = some m) (reason stamp : Nat) :
    casAnswers (s.fenceApply c reason stamp).cas = casAnswers s.cas ∧
      ∃ n, (s.fenceApply c reason stamp).cas.members.look c = some n ∧ n.st = .fenced ∧ n.reason = reason ∧ n.fenceStamp = stamp := by
  obtain ⟨warn, again, hclosed⟩ := fenceApply_closes s c reason stamp
  obtain ⟨hanswers, hmember⟩ := fenceClosed_cas (fenceTold s c reason stamp) c warn again
  rw [hclosed, ioAccept_cas]
  rw [fenceTold_cas] at hanswers hmember
  obtain ⟨r, hn⟩ := hmember _ (memSt_look (memEdit_look h _) .fenced reason)
  exact ⟨hanswers.trans (memSt_answers _ c .fenced reason), _, hn, rfl, rfl, rfl⟩

/-- The link of an EXCLUDED member goes down, and the member stays EXCLUDED. -/
theorem linkDrop_excluded {s : State} {p : Nat} {m : Member} (hc : s.cas.crown = true) (h : s.cas.members.look (p + 1) = some m)
    (hm : m.st = .excluded) (cause : Nat) : casAnswers (s.linkDrop p cause).cas = casAnswers s.cas ∧
      (s.linkDrop p cause).cas.members.look (p + 1) = some { m with resync := 0, waitRenew := false } := by
  unfold State.linkDrop
  dsimp only
  generalize hz : State.fire (State.portEdit (s.lanesDrop _) p _) _ _ _ _ _ = z
  have hzcas : z.cas.members = s.cas.members ∧ z.cas.crown = s.cas.crown ∧ casAnswers z.cas = casAnswers s.cas := by
    rw [← hz, (State.fire_law _ _ _ _ _ _).same .cas (by decide)]
    exact ⟨rfl, rfl, rfl⟩
  obtain ⟨hmembers, hcrown, hanswers⟩ := hzcas
  have hlook : z.cas.members.look (p + 1) = some m := by rw [hmembers]; exact h
  have hst : (z.member (p + 1)).st = .excluded := by
    unfold State.member
    rw [get_of_look hlook, hm]
  rw [if_neg (by rw [hcrown, hc]; nofun), if_neg (by rw [hst]; nofun), if_neg (by rw [hst]; nofun)]
  exact ⟨hanswers, memEdit_look hlook _⟩

theorem exclude_applies {s : State} {c : Nat} {m : Member} (hc : s.cas.crown = true) (h : s.cas.members.look c = some m) (h1 : 1 ≤ c) :
    casAnswers (s.casActApply c 1).cas = casAnswers s.cas ∧ ((s.casActApply c 1).port (c - 1)).phase = 0 ∧
      ∃ n, (s.casActApply c 1).cas.members.look c = some n ∧ n.st = .excluded := by
  have hcrown : (s.memSt c .excluded 0).cas.crown = true := (crown_of_less (memSt_quiet s c .excluded 0).casEq).trans hc
  have hlook := memSt_look h .excluded 0
  have hanswers := memSt_answers s c .excluded 0
  have happly : s.casActApply c 1 = ((if ((s.memSt c .excluded 0).port (c - 1)).phase = 0
      then (s.memSt c .excluded 0).portEdit (c - 1) fun q => { q with downCause := 5 }
      else (s.memSt c .excluded 0).linkDrop (c - 1) 5).casLose c false).ioAccept := if_pos rfl
  generalize s.memSt c .excluded 0 = u at hcrown hlook happly hanswers
  have hcas := fun v : State => (ioAccept_cas (v.casLose c false)).trans (casLose_cas v c false)
  rw [happly, port_of_cas (hcas _), hcas]
  split
  · next hdown =>
    rw [portEdit_port]
    exact ⟨hanswers, hdown, _, hlook, rfl⟩
  · have hp : c - 1 + 1 = c := by omega
    obtain ⟨hkept, hmember⟩ := linkDrop_excluded (p := c - 1) hcrown (hp.symm ▸ hlook) rfl 5
    rw [hp] at hmember
    rw [linkDrop_port]
    exact ⟨hkept.trans hanswers, rfl, _, hmember, rfl⟩

theorem include_applies {s : State} {c : Nat} {m : Member} (h : s.cas.members.look c = some m) :
    casAnswers (s.casActApply c 2).cas = casAnswers s.cas ∧ ((s.casActApply c 2).port (c - 1)).phase = 1 ∧
      ∃ n, (s.casActApply c 2).cas.members.look c = some n ∧ n.st = .absent := by
  have happly : s.casActApply c 2 = (s.memSt c .absent 0).portEdit (c - 1) fun q => { q with phase := 1 } := rfl
  rw [happly, portEdit_port]
  exact ⟨memSt_answers s c .absent 0, rfl, _, memSt_look h .absent 0, rfl⟩

theorem resync_applies {s : State} {c : Nat} {m : Member} (h : s.cas.members.look c = some m) :
    casAnswers (s.casActApply c 4).cas = casAnswers s.cas ∧
      ∃ n, (s.casActApply c 4).cas.members.look c = some n ∧ n.resync = 1 ∧ n.st = if m.st = .held then .joining else m.st := by
  have happly : s.casActApply c 4 = (if (s.member c).st = .held then s.memSt c .joining 0 else s).memEdit c fun m => { m with resync := 1 } := rfl
  have hst : (s.member c).st = m.st := congrArg Member.st (get_of_look h {})
  rw [happly, hst]
  split
  · exact ⟨memSt_answers s c .joining 0, _, memEdit_look (memSt_look h .joining 0) _, rfl, rfl⟩
  · exact ⟨rfl, _, memEdit_look h _, rfl, rfl⟩

/-- A fence with nothing before it (R331). -/
theorem memberFence_fences {s : State} {c : Nat} {m : Member} (hentries : s.gate.entries = []) (h : s.cas.members.look c = some m) (reason : Nat) :
    casAnswers (s.memberFence c reason).cas = casAnswers s.cas ∧
      ∃ n, (s.memberFence c reason).cas.members.look c = some n ∧ n.st = .fenced ∧ n.reason = reason ∧ n.fenceStamp = s.gate.next := by
  rw [memberFence_alone hentries c reason]
  obtain ⟨hanswers, hn⟩ := fenceApply_fences (s := sysCommitted s (.fence c reason)) (m := m) (by rw [sysCommitted_members]; exact h) reason s.gate.next
  exact ⟨hanswers.trans (sysCommitted_answers s _), hn⟩

/-! ### CAS_CTL (R328) -/

theorem casOk_exclude (s : State) (c : Nat) (m : Member) : s.casOk c 1 m = (m.st != .excluded) := if_pos rfl

theorem casOk_include (s : State) (c : Nat) (m : Member) : s.casOk c 2 m = (m.st == .excluded) := (if_neg (by decide)).trans (if_pos rfl)

theorem casOk_fence (s : State) (c : Nat) (m : Member) : s.casOk c 3 m = (m.st == .active) :=
  (if_neg (by decide)).trans ((if_neg (by decide)).trans (if_pos rfl))

theorem casOk_resync (s : State) (c : Nat) (m : Member) :
    s.casOk c 4 m = (s.linkJoined c && (m.st == .fenced || (m.st == .held && s.versionsMatch c))) :=
  (if_neg (by decide)).trans ((if_neg (by decide)).trans (if_neg (by decide)))

theorem casOk_resync_of {s : State} {c : Nat} {m : Member} (hj : s.linkJoined c = true)
    (h : m.st = .fenced ∨ m.st = .held ∧ s.versionsMatch c = true) : s.casOk c 4 m = true := by
  rw [casOk_resync, hj]
  rcases h with h | ⟨h, hv⟩
  · simp [h]
  · simp [h, hv]

theorem not_casOk_resync {s : State} {c : Nat} {m : Member}
    (h : s.linkJoined c = false ∨ m.st ≠ .fenced ∧ (m.st ≠ .held ∨ s.versionsMatch c = false)) : s.casOk c 4 m = false := by
  rw [casOk_resync]
  rcases h with h | ⟨hf, h | h⟩ <;> simp_all

/-- CAS_CTL answers that the action is taken. -/
def casAnswered (s : State) : State := { s with cas := { s.cas with result := 0 } }

/-- The state in which an action of CAS_CTL acts. -/
def actionTaken (s : State) (c action : Nat) : State := sysCommitted (casAnswered s) (.casAct c action)

section Actions
variable {s : State} {c : Nat} {m : Member} (hc : s.cas.crown = true) (h : s.cas.members.look c = some m)
include hc h

omit h in
theorem actionTaken_crown (action : Nat) : (actionTaken s c action).cas.crown = true := by
  obtain ⟨hcas, -, -⟩ := sysCommitted_sent (casAnswered s) (.casAct c action)
  exact (crown_of_less (congrArg lessVote hcas)).trans hc

omit hc in
theorem actionTaken_look (action : Nat) : (actionTaken s c action).cas.members.look c = some m := by
  unfold actionTaken
  rw [sysCommitted_members]
  exact h

omit hc h in
theorem actionTaken_answers (action : Nat) : casAnswers (actionTaken s c action).cas = (0, s.cas.joinwaitDone) :=
  sysCommitted_answers (casAnswered s) _

variable (htodo : s.cas.todo = none)
include htodo

theorem casAction_known (action : Nat) : s.casAction c action =
    if !s.casOk c action m then { s with cas := { s.cas with result := 1 } }
    else if !s.canStamp then { s with cas := { s.cas with todo := some (c, action) } }
    else if action = 3 then (casAnswered s).memberFence c 4
    else (casAnswered s).casEvent (.casAct c action) := by
  unfold State.casAction
  rw [if_neg (by rw [htodo]; nofun), if_pos hc, h]
  rfl

theorem casAction_refused {action : Nat} (hok : s.casOk c action m = false) :
    Host.Outcome.next (s.casAction c action) = (.next { s with cas := { s.cas with result := 1 } } : Host.Outcome State Fault Refusal) :=
  congrArg Host.Outcome.next ((casAction_known hc h htodo action).trans (if_pos (by rw [hok]; rfl)))

theorem casAction_waits {action : Nat} (hstamp : s.canStamp = false) (hok : s.casOk c action m = true) :
    Host.Outcome.next (s.casAction c action) = (.next { s with cas := { s.cas with todo := some (c, action) } } : Host.Outcome State Fault Refusal) :=
  congrArg Host.Outcome.next
    ((casAction_known hc h htodo action).trans ((if_neg (by rw [hok]; nofun)).trans (if_pos (by rw [hstamp]; rfl))))

variable (hstamp : s.canStamp = true) (hentries : s.gate.entries = [])
include hstamp hentries

omit hentries in
theorem casAction_fences (hok : s.casOk c 3 m = true) : s.casAction c 3 = (casAnswered s).memberFence c 4 := by
  rw [casAction_known hc h htodo, if_neg (by rw [hok]; nofun), if_neg (by rw [hstamp]; nofun), if_pos rfl]

/-- An action that is no fence acts at once. -/
theorem casAction_acts {action : Nat} (hok : s.casOk c action m = true) (h3 : action ≠ 3) :
    s.casAction c action = (actionTaken s c action).casActApply c action := by
  rw [casAction_known hc h htodo, if_neg (by rw [hok]; nofun), if_neg (by rw [hstamp]; nofun), if_neg h3]
  exact casAct_alone (s := casAnswered s) hentries c action

theorem excludeChip_excludes (h1 : 1 ≤ c) (hst : m.st ≠ .excluded) : ∃ t n, exec (.excludeChip c) s = .next t ∧ t.cas.result = 0 ∧
    t.cas.members.look c = some n ∧ n.st = .excluded ∧ (t.port (c - 1)).phase = 0 := by
  have hact := casAction_acts hc h htodo hstamp hentries (action := 1) (by rw [casOk_exclude]; simpa using hst) (by decide)
  obtain ⟨hanswers, hphase, n, hlook, hn⟩ := exclude_applies (actionTaken_crown hc 1) (actionTaken_look h 1) h1
  exact ⟨_, n, congrArg Host.Outcome.next hact, result_of_answers (hanswers.trans (actionTaken_answers 1)), hlook, hn, hphase⟩

theorem includeChip_includes (hst : m.st = .excluded) : ∃ t n, exec (.includeChip c) s = .next t ∧ t.cas.result = 0 ∧
    t.cas.members.look c = some n ∧ n.st = .absent ∧ (t.port (c - 1)).phase = 1 := by
  have hact := casAction_acts hc h htodo hstamp hentries (action := 2) (by rw [casOk_include]; simpa using hst) (by decide)
  obtain ⟨hanswers, hphase, n, hlook, hn⟩ := include_applies (actionTaken_look h 2)
  exact ⟨_, n, congrArg Host.Outcome.next hact, result_of_answers (hanswers.trans (actionTaken_answers 2)), hlook, hn, hphase⟩

theorem fenceChip_fences (hst : m.st = .active) : ∃ t n, exec (.fenceChip c) s = .next t ∧ t.cas.result = 0 ∧
    t.cas.members.look c = some n ∧ n.st = .fenced ∧ n.reason = 4 ∧ n.fenceStamp = s.gate.next := by
  have hact := casAction_fences hc h htodo hstamp (by rw [casOk_fence]; simpa using hst)
  obtain ⟨hanswers, n, hn⟩ := memberFence_fences (s := casAnswered s) hentries h 4
  exact ⟨_, n, congrArg Host.Outcome.next hact, result_of_answers hanswers, hn⟩

theorem resyncChip_resyncs (hj : s.linkJoined c = true) (hst : m.st = .fenced ∨ m.st = .held ∧ s.versionsMatch c = true) :
    ∃ t n, exec (.resyncChip c) s = .next t ∧ t.cas.result = 0 ∧ t.cas.members.look c = some n ∧ n.resync = 1 ∧
      n.st = if m.st = .held then .joining else .fenced := by
  have hact := casAction_acts hc h htodo hstamp hentries (action := 4) (casOk_resync_of hj hst) (by decide)
  obtain ⟨hanswers, n, hlook, hresync, hn⟩ := resync_applies (actionTaken_look h 4)
  refine ⟨_, n, congrArg Host.Outcome.next hact, result_of_answers (hanswers.trans (actionTaken_answers 4)), hlook, hresync, hn.trans ?_⟩
  split
  · rfl
  · next hnot => exact hst.resolve_right fun hheld => hnot hheld.1

end Actions

/-! ### Fences after a lost link and after JOINWAIT (R325, R331) -/

theorem member_st {s : State} {c : Nat} {m : Member} (h : s.cas.members.look c = some m) : (s.member c).st = m.st :=
  congrArg Member.st (get_of_look h {})

theorem linkLossFence_fences {s : State} {c : Nat} {m : Member} (hc : s.cas.crown = true) (h : s.cas.members.look c = some m)
    (hst : m.st = .active) (hj : s.linkJoined c = false) (hstamp : s.canStamp = true) :
    exec (.linkLossFence c) s = .next (s.memberFence c 2).ioAccept :=
  if_neg (by simp [hc, member_st h, hst, hj, hstamp])

/-- The boot no longer waits for the joins. -/
def joinwaitOver (s : State) : State := { s with cas := { s.cas with joinwaitDone := true } }

/-- The members that JOINWAIT fences. -/
def notJoined (s : State) : List Nat := s.cas.members.keysWhere fun _ m => m.st == .absent || m.st == .joining

theorem notJoined_one {s : State} {c : Nat} {m : Member} (h : s.cas.members = [(c, m)]) :
    notJoined s = if m.st = .absent ∨ m.st = .joining then [c] else [] := by
  unfold notJoined Tbl.keysWhere
  rw [h]
  split
  · next hst => rcases hst with hst | hst <;> simp [hst]
  · next hst => simpa using hst

theorem joinwaitExpiry_fences {s : State} (hc : s.cas.crown = true) (hstage : s.upd.stage = 8) (hwait : s.cas.joinwaitDone = false)
    (hstamp : s.canStamp = true) :
    exec .joinwaitExpiry s = .next (forNats (notJoined s) (joinwaitOver s) fun s c => s.memberFence c 2).ioAccept :=
  if_neg (by simp [hc, hstage, hwait, hstamp])

theorem joinwait_one {s : State} {c : Nat} {m : Member} (hentries : s.gate.entries = []) (h : s.cas.members = [(c, m)])
    (hlook : s.cas.members.look c = some m) :
    let t := (forNats (notJoined s) (joinwaitOver s) fun s c => s.memberFence c 2).ioAccept
    ∃ n, t.cas.joinwaitDone = true ∧ t.cas.members.look c = some n ∧ (m.st = .absent ∨ m.st = .joining → n.st = .fenced ∧ n.reason = 2) ∧
      (m.st ≠ .absent → m.st ≠ .joining → n = m) := by
  dsimp only
  rw [notJoined_one h, ioAccept_cas]
  split
  · next hst =>
    obtain ⟨hanswers, n, hn, hfenced, hreason, -⟩ := memberFence_fences (s := joinwaitOver s) hentries hlook 2
    exact ⟨n, congrArg Prod.snd hanswers, hn, fun _ => ⟨hfenced, hreason⟩, fun ha hj => absurd hst (by simp [ha, hj])⟩
  · next hst => exact ⟨m, rfl, hlook, fun h => absurd h hst, fun _ _ => rfl⟩

/-! ### Renews and times (R330, R332) -/

section Sends
variable {s : State} {c : Nat} (hc : s.cas.crown = true) (hj : s.linkJoined c = true) (hrun : s.pwr.st = 0) (hpow : s.brm.st < 3)
include hc hj hrun hpow

theorem leaseRenew_sends {m : Member} (h : s.cas.members.look c = some m) (hst : m.st = .active) :
    ∃ t l u, exec (.leaseRenew c) s = .next t ∧ Same [.free, .out, .sward, .cas] s t ∧ (t.port (c - 1)).unacked = l ++ [u] ∧ u.type = 0x11 ∧
      u.body = [2] := by
  have hup : 5 ≤ (s.port (portOf c)).phase := of_decide_eq_true hj
  obtain ⟨l, u, hl, htype, -, hbody⟩ := casSend_unacked s (portOf c) 0 0x11 16 [2] (by omega)
  refine ⟨(s.casSend (portOf c) 0 0x11 16 [2]).memEdit c fun m => { m with lastRenew := s.now }, l, u, if_neg ?_, ?_, ?_, htype, hbody⟩
  · simp [hc, member_st h, hst, hj, hrun]
    omega
  · exact Same.seq (State.casSend_law _ _ _ _ _ _).same (memEdit_same _ _ _) (by decide) (by decide)
  · rw [memEdit_port]
    exact hl

theorem timeSend_sends (h1 : 1 ≤ c) :
    ∃ t l u, exec (.timeSend (c - 1)) s = .next t ∧ Same [.free, .out, .sward, .cas] s t ∧ (t.port (c - 1)).unacked = l ++ [u] ∧ u.type = 0x12 ∧
      u.body = [s.now + s.freeVal / 2] := by
  have hup : 5 ≤ (s.port (c - 1)).phase := of_decide_eq_true hj
  have hp : c - 1 + 1 = c := by omega
  obtain ⟨l, u, hl, htype, -, hbody⟩ := casSend_unacked s.freeStep (c - 1) 0 0x12 16 [s.now + s.freeVal / 2] (Nat.le_of_succ_le hup)
  refine ⟨s.freeStep.casSend (c - 1) 0 0x12 16 [s.now + s.freeVal / 2], l, u, if_neg ?_, ?_, hl, htype, hbody⟩
  · rw [hp]
    simp [hc, hj, hrun]
    omega
  · exact Same.seq (State.freeStep_law s).same (State.casSend_law _ _ _ _ _ _).same (by decide) (by decide)

end Sends

/-- Settles O48: the actions that are taken, refused and put off; the fences; the sends. -/
theorem crownActsOnMembers : Obligations.CrownActsOnMembers := by
  intro s c m hc h h1 joined refused waits sent
  refine ⟨fun hstamp htodo hentries => ⟨excludeChip_excludes hc h htodo hstamp hentries h1, includeChip_includes hc h htodo hstamp hentries,
      fenceChip_fences hc h htodo hstamp hentries, resyncChip_resyncs hc h htodo hstamp hentries, fun hst hj => ?_, fun hstage hwait hone => ?_⟩,
    fun htodo => ⟨fun hst => ?_, fun hst => ?_, fun hst => ?_, fun hst => casAction_refused hc h htodo (not_casOk_resync hst)⟩,
    fun htodo hstamp => ⟨fun hst => ?_, fun hst => ?_, fun hst => ?_, fun hj hst => casAction_waits hc h htodo hstamp (casOk_resync_of hj hst)⟩,
    fun hst hj hrun hpow => leaseRenew_sends hc hj hrun hpow h hst, fun hj hrun hpow => timeSend_sends hc hj hrun hpow h1⟩
  · obtain ⟨-, n, hlook, hfenced⟩ := memberFence_fences hentries h 2
    exact ⟨_, n, linkLossFence_fences hc h hst hj hstamp, by rw [ioAccept_cas]; exact hlook, hfenced⟩
  · obtain ⟨n, hn⟩ := joinwait_one hentries hone h
    exact ⟨_, n, joinwaitExpiry_fences hc hstage hwait hstamp, hn⟩
  · exact casAction_refused hc h htodo (by rw [casOk_exclude, hst]; rfl)
  · exact casAction_refused hc h htodo (by rw [casOk_include]; simpa using hst)
  · exact casAction_refused hc h htodo (by rw [casOk_fence]; simpa using hst)
  · exact casAction_waits hc h htodo hstamp (by rw [casOk_exclude]; simpa using hst)
  · exact casAction_waits hc h htodo hstamp (by rw [casOk_include, hst]; rfl)
  · exact casAction_waits hc h htodo hstamp (by rw [casOk_fence, hst]; rfl)

end Sys2Proof.Proofs
end

section
/-! PROOFS. Admin commands that complete at their stamp: the queue commands of the PF, the reporting commands, features, event requests
and Abort (R65, R70 to R73, R132, R337, R354, R500). -/

namespace Sys2Proof.Proofs

open Sys2Proof Sys2Proof.Machine Sys2Proof.Safety Sys2Proof.Laws

/-! ### Tables of queues -/

/-- Rewriting an entry of a table: a test that neither the old nor the new value passes is passed by no more entries than before. -/
theorem any_edit_of_not {α : Type} {p : Nat → α → Bool} {t : Tbl α} {k : Nat} {v : α} (h : t.look k = some v) {f : α → α}
    (hv : p k v = false) (hf : p k (f v) = false) : (t.edit k f).any p = t.any p := by
  have hany : ∀ u : Tbl α, u.any p = decide (0 < u.count p) := fun u => by
    rw [Bool.eq_iff_iff, decide_eq_true_eq, Tbl.count, List.length_pos_iff_exists_mem]
    simp [Tbl.any]
  rw [hany, hany, edit_eq_put h, count_put p hv hf h]

theorem keysWhere_eq_nil {α : Type} {p : Nat → α → Bool} {t : Tbl α} (h : t.any p = false) : t.keysWhere p = [] := by
  have hnone : ∀ x ∈ t, p x.1 x.2 = false := by simpa [Tbl.any] using h
  simpa [Tbl.keysWhere] using hnone

/-- An admin command at its turn is of no I/O queue, and its stamp leaves the contexts of an I/O queue as they were. -/
theorem stampCtx_queue_empty {s : State} {c : Nat} {x : Ctx} (h : AdminTurn s c x) {q : Nat} (hq : q ≠ 0) :
    (s.stampCtx c).ctxs.any (fun _ y => y.q == q) = s.ctxs.any (fun _ y => y.q == q) := by
  have hne : (x.q == q) = false := by simpa [h.admin] using Ne.symm hq
  rw [stampCtx_ctxs]
  exact any_edit_of_not h.here hne hne

theorem same_of_qs (s : State) (t : Tbl Sq) (r : Tbl QRec) : Same [.sqs, .qrecs] s { s with sqs := t, qrecs := r } :=
  (Laws.Law.mk (Law.refl s)).same

/-- A command that did its work on `u` and completed at its stamp. -/
theorem adminDone_completes {r w : List Piece} {s u : State} {c : Nat} {x : Ctx} (h : AdminTurn s c x) (hu : Same r s u)
    (hctxs : .ctxs ∉ r) (hgate : .gate ∉ r) (hr : sub r w = true) (hw : sub [.ctxs, .gate, .dma] w = true) (dw0 : Dword) :
    Done s (u.adminDone c stOk dw0) c dw0 ∧ Same w s (u.adminDone c stOk dw0) :=
  ⟨adminDone_done h.here (hu .ctxs hctxs) (congrArg Gate.next (hu .gate hgate)) dw0, Same.seq hu (adminDone_same u c dw0) hr hw⟩

/-! ### Queue commands of the PF (R65, R500) -/

theorem adminTurn_fetched {s : State} {c : Nat} {x : Ctx} (h : AdminTurn s c x) : x.phase = .fetched := by
  have hturn := h.turn
  simp only [State.gateTurn, Bool.and_eq_true, beq_iff_eq] at hturn
  exact hturn.1.1.1

section QueueCommands
variable {s : State} {c : Nat} {x : Ctx} (h : AdminTurn s c x)
include h

theorem createIoCq_creates (hopc : x.e.opc = 0x05) (hcheck : s.createCqCheck x.e = none) :
    exec (.createIoCq c) s = .next (({ s with cqs := (s.cqs.put (qidOf x.e)
      { base := x.e.dptr0, size := qsizeOf x.e, ien := x.e.cdw11.getLsbD 1, iv := bitsAt x.e.cdw11.toNat 16 16 }) }).adminDone c stOk) := by
  refine congrArg Host.Outcome.next ((admitAdmin_body h (by simp [hopc]) (by rw [hopc]; rfl) _).trans ?_)
  simp only [hcheck]

theorem deleteIoCq_deletes (hopc : x.e.opc = 0x04) (h0 : qidOf x.e ≠ 0) (h1 : qidOf x.e < 1024) (hhas : s.cqs.has (qidOf x.e) = true)
    (hfree : s.sqs.any (fun k y => decide (k < 1024) && y.cq == qidOf x.e) = false) :
    exec (.deleteIoCq c) s = .next (({ s with cqs := s.cqs.del (qidOf x.e) }).adminDone c stOk) := by
  refine congrArg Host.Outcome.next ((admitAdmin_body h (by simp [hopc]) (by rw [hopc]; rfl) _).trans ?_)
  simp [h0, Nat.not_le.mpr h1, hhas, hfree]

theorem createIoSq_creates (hopc : x.e.opc = 0x01) (hcheck : s.createSqCheck x.e = none) :
    exec (.createIoSq c) s = .next (({ s with
      sqs := s.sqs.put (qidOf x.e) { base := x.e.dptr0, size := qsizeOf x.e, cq := bitsAt x.e.cdw11.toNat 16 16
                                     en := true, enabled := true, strict := s.nvme.strictDef }
      qrecs := s.qrecs.del (qidOf x.e) }).adminDone c stOk) := by
  refine congrArg Host.Outcome.next ((admitAdmin_body h (by simp [hopc]) (by rw [hopc]; rfl) _).trans ?_)
  simp only [hcheck]

omit h in
/-- A queue of which no command is held loses its freeze and its record alone (R139). -/
theorem flushHeld_of_none {q : Nat} (hnone : s.ctxs.any (fun _ y => y.q == q) = false) : s.flushHeld q =
    { s with sqs := s.sqs.edit q fun y => { y with frozen := false, frozenSeen := false }, qrecs := s.qrecs.del q } := by
  have hheld : s.ctxs.keysWhere (fun _ y => y.q == q && y.phase == .fetched) = [] := by
    refine keysWhere_eq_nil ?_
    simp only [Tbl.any, List.any_eq_false] at hnone ⊢
    exact fun p hp => by simp [hnone p hp]
  unfold State.flushHeld
  rw [hheld]
  rfl

/-- A queue at the stamp of its deletion: fetching has stopped (R139). -/
def queueStopped (s : State) (c q : Nat) : State :=
  { s.stampCtx c with sqs := s.sqs.edit q fun y => { y with en := false } }

/-- The deletion of a queue at its stamp, its last command gone: nothing of the queue is left. -/
def queueDeleted (s : State) (c q : Nat) : State :=
  { s.stampCtx c with
    sqs := ((s.sqs.edit q fun y => { y with en := false }).edit q fun y => { y with frozen := false, frozenSeen := false }).del q
    qrecs := s.qrecs.del q }

theorem deleteIoSq_deletes (hopc : x.e.opc = 0x00) (h0 : qidOf x.e ≠ 0) (h1 : qidOf x.e < 1024) (hhas : s.sqs.has (qidOf x.e) = true)
    (hempty : s.ctxs.any (fun _ y => y.q == qidOf x.e) = false) :
    exec (.deleteIoSq c) s = .next ((queueDeleted s c (qidOf x.e)).finish c stOk) := by
  have hany := (stampCtx_queue_empty h h0).trans hempty
  have hexec : exec (.deleteIoSq c) s = execDeleteIoSq c s := rfl
  have hbad : ¬(qidOf x.e = 0 ∨ 1024 ≤ qidOf x.e ∨ (!s.sqs.has (qidOf x.e)) = true) := by simp [h0, h1, hhas]
  rw [hexec, execDeleteIoSq, h.here]
  dsimp only
  rw [if_neg (by simp [adminTurn_fetched h]), admitAdmin_body h (by simp [hopc]) (by rw [hopc]; rfl), if_neg hbad]
  have hflush := flushHeld_of_none (s := queueStopped s c (qidOf x.e)) hany
  exact congrArg Host.Outcome.next ((congrArg (State.sqGone · c (qidOf x.e)) hflush).trans (if_neg (ne_true_of_eq_false hany)))

end QueueCommands

/-- Settles O11: each queue command changes its table of queues, and completes. -/
theorem pfQueueCommandsComplete : Obligations.PfQueueCommandsComplete := by
  intro s c x h q size hi
  refine ⟨fun hopc hcheck => ?_, fun hopc h0 h1 hhas hfree => ?_, fun hopc hcheck => ?_, fun hopc h0 h1 hhas hempty => ?_⟩
  · exact ⟨_, createIoCq_creates h hopc hcheck, and_assoc.mp ⟨adminDone_completes (w := [.ctxs, .gate, .dma, .cqs]) h (same_of_cqs s _) (by decide) (by decide) (by decide) (by decide) 0, (adminDone_same _ c 0) .cqs (by decide)⟩⟩
  · exact ⟨_, deleteIoCq_deletes h hopc h0 h1 hhas hfree, and_assoc.mp ⟨adminDone_completes (w := [.ctxs, .gate, .dma, .cqs]) h (same_of_cqs s _) (by decide) (by decide) (by decide) (by decide) 0, (adminDone_same _ c 0) .cqs (by decide)⟩⟩
  · exact ⟨_, createIoSq_creates h hopc hcheck, and_assoc.mp ⟨adminDone_completes (w := [.ctxs, .gate, .dma, .sqs, .qrecs]) h (same_of_qs s _ _) (by decide) (by decide) (by decide) (by decide) 0, (adminDone_same _ c 0) .sqs (by decide), (adminDone_same _ c 0) .qrecs (by decide)⟩⟩
  · have hfin := finish_ok_same (queueDeleted s c q) c 0 0 0
    have hsame : Same [.ctxs, .gate, .dma, .sqs, .qrecs] s (queueDeleted s c q) :=
      Same.seq (stampCtx_same s c) (same_of_qs (s.stampCtx c) _ _) (by decide) (by decide)
    exact ⟨_, deleteIoSq_deletes h hopc h0 h1 hhas hempty, finish_stamped_done (u := s) h.here rfl rfl rfl,
      Same.seq hsame hfin (by decide) (by decide), (congrArg (Tbl.look · q) (hfin .sqs (by decide))).trans (Tbl.look_del ..), hfin .qrecs (by decide)⟩

/-! ### Commands that report (R70 to R73, R337, R354) -/

section Reports
variable {s : State} {c : Nat} {x : Ctx} (h : AdminTurn s c x)
include h

theorem identify_reports {l : List Fld} (hopc : x.e.opc = 0x06) (hdptr : x.e.dptrFault 4096 false = none)
    (hdata : s.identifyData x.e = .ok l) : exec (.identify c) s = .next ((s.sendTo c 0 4096 l).adminDone c stOk) := by
  refine congrArg Host.Outcome.next ((admitAdmin_body h (by simp [hopc]) (by rw [hopc]; rfl) _).trans ?_)
  simp only [hdptr, hdata]

/-- Length of a Get Log Page, in bytes (R73). -/
def pageLen (e : SqEntry) : Nat := (bitsAt e.cdw10.toNat 16 16 + bitsAt e.cdw11.toNat 0 16 * 65536 + 1) * 4

theorem getLogPage_reports {size : Nat} {l : List Fld} (hopc : x.e.opc = 0x02)
    (hdata : s.logData x.e x.e.cdw1213 (pageLen x.e) = .ok (size, l)) (halign : x.e.cdw1213 % 4 = 0) (hoff : x.e.cdw1213 < size)
    (hlen : pageLen x.e ≤ 2097152) (hdptr : x.e.dptrFault (pageLen x.e) false = none) :
    exec (.getLogPage c) s = .next ((((s.sendTo c x.e.cdw1213 (pageLen x.e) l).freeStep).logRead x.e).adminDone c stOk) := by
  refine congrArg Host.Outcome.next ((admitAdmin_body h (by simp [hopc]) (by rw [hopc]; rfl) _).trans ?_)
  unfold pageLen at hdata hlen hdptr ⊢
  have hfits : ¬(x.e.cdw1213 % 4 ≠ 0 ∨ size ≤ x.e.cdw1213 ∨
      2097152 < (bitsAt x.e.cdw10.toNat 16 16 + bitsAt x.e.cdw11.toNat 0 16 * 65536 + 1) * 4) := by omega
  simp only [hdata, hfits, hdptr, if_false]

theorem getFeatures_reports {n : Nat} (hsel : bitsAt x.e.cdw10.toNat 8 3 = 0) (hopc : x.e.opc = 0x0a)
    (hnow : s.featureNow (bitsAt x.e.cdw10.toNat 0 8) x.e.cdw11 = some n) :
    exec (.getFeatures c) s = .next (s.adminDone c stOk (BitVec.ofNat 32 n)) := by
  refine congrArg Host.Outcome.next ((admitAdmin_body h (by simp [hopc]) (by rw [hopc]; rfl) _).trans ?_)
  simp [hsel, hnow]

theorem cascadeStatus_reports (hopc : x.e.opc = 0xce) (hfields : vendorOk x.e 0 0 0 0 0 0 = true)
    (hdptr : x.e.dptrFault 4096 false = none) :
    exec (.cascadeStatus c) s = .next ((s.sendTo c 0 4096 s.cascadeData).adminDone c stOk) := by
  refine congrArg Host.Outcome.next ((admitAdmin_body h (by simp [hopc]) (by rw [hopc]; rfl) _).trans ?_)
  simp only [hfields, hdptr, Bool.not_true, Bool.false_eq_true, if_false]

/-- The crown's own records (R354): the chip field of the record number is 0. -/
theorem meterFetch_reports {len : Nat} (hl : len = (x.e.cdw10.toNat + 1) * 4) (hopc : x.e.opc = 0xca)
    (hfields : vendorOk x.e 0xffffffff 0 0xffffffff 0xffffffff 0 0 = true) (hdptr : x.e.dptrFault len false = none)
    (hlen : 9 ≤ x.e.cdw10.toNat) (hchip : x.e.cdw1213 < 2 ^ 62) (hnamed : s.cas.named.getLsbD 0 = true) (hhalt : s.mtr.halt = 0) :
    exec (.meterFetch c) s = .next ((s.say (.hostData c 0 len (s.mtr.fetch x.e.cdw1213 len))).adminDone c stOk) := by
  subst hl
  refine congrArg Host.Outcome.next ((admitAdmin_body h (by simp [hopc]) (by rw [hopc]; rfl) _).trans ?_)
  have hown : x.e.cdw1213 / 2 ^ 62 = 0 := Nat.div_eq_of_lt hchip
  simp only [hfields, hdptr, Nat.not_lt.mpr hlen, hown, hnamed, hhalt, ne_eq, not_true_eq_false, false_and, Bool.not_true, Bool.false_eq_true, if_false]

end Reports

/-- Reading the Error Information page clears its doorbell error, unless the event is retained (R501). -/
theorem logRead_errorPage {s : State} {e : SqEntry} (h : bitsAt e.cdw10.toNat 0 8 = 0x01) :
    (s.logRead e).nvme = { s.nvme with dbErr := if e.cdw10.getLsbD 15 then s.nvme.dbErr else false } := by
  unfold State.logRead
  cases hrae : e.cdw10.getLsbD 15 <;> simp [h]

/-- Settles O12: each report goes to the host before the completion, which leaves it there. -/
theorem reportingCommandsComplete : Obligations.ReportingCommandsComplete := by
  intro s c x h
  refine ⟨fun l hopc hdptr hdata => ?_, fun size l hopc hdata halign hoff hlen hdptr => ?_, fun n hsel hopc hnow => ?_,
    fun hopc hfields hdptr => ?_, fun hopc hfields hdptr hlen hchip hnamed hhalt => ?_⟩
  · exact ⟨_, identify_reports h hopc hdptr hdata, and_assoc.mp
      ⟨adminDone_completes (w := [.ctxs, .gate, .dma, .out]) h (State.sendTo_law ..).same (by decide) (by decide) (by decide) (by decide) 0,
        (adminDone_same _ c 0) .out (by decide)⟩⟩
  · let u := (s.sendTo c x.e.cdw1213 (pageLen x.e) l).freeStep
    have hread := (State.logRead_law u x.e).same
    have hsent : Same [.out, .free] s u := Same.seq (State.sendTo_law ..).same (State.freeStep_law _).same (by decide) (by decide)
    have hu : Same [.out, .free, .nvme, .nss, .log] s (u.logRead x.e) := Same.seq hsent hread (by decide) (by decide)
    refine ⟨_, getLogPage_reports h hopc hdata halign hoff hlen hdptr, and_assoc.mp
      ⟨adminDone_completes (w := [.ctxs, .gate, .dma, .out, .free, .nvme, .nss, .log]) h hu (by decide) (by decide) (by decide) (by decide) 0,
        ((adminDone_same _ c 0) .out (by decide)).trans (hread .out (by decide)), fun hpage => ?_⟩⟩
    exact ((adminDone_same _ c 0) .nvme (by decide)).trans (logRead_errorPage hpage)
  · exact ⟨_, getFeatures_reports h hsel hopc hnow, adminDone_done h.here rfl rfl _, adminDone_same s c _⟩
  · exact ⟨_, cascadeStatus_reports h hopc hfields hdptr, and_assoc.mp
      ⟨adminDone_completes (w := [.ctxs, .gate, .dma, .out]) h (State.sendTo_law ..).same (by decide) (by decide) (by decide) (by decide) 0,
        (adminDone_same _ c 0) .out (by decide)⟩⟩
  · exact ⟨_, meterFetch_reports h rfl hopc hfields hdptr hlen hchip hnamed hhalt, and_assoc.mp
      ⟨adminDone_completes (w := [.ctxs, .gate, .dma, .out]) h (State.say_law ..).same (by decide) (by decide) (by decide) (by decide) 0,
        (adminDone_same _ c 0) .out (by decide)⟩⟩

/-! ### Features, Keep Alive, event requests and Abort (R65, R72, R132) -/

theorem same_of_nvme (s : State) (n : Nvme) : Same [.nvme] s { s with nvme := n } := (Laws.Law.mk (Law.refl s)).same

section Controls
variable {s : State} {c : Nat} {x : Ctx} (h : AdminTurn s c x)
include h

theorem setFeatures_sets {u : State} {dw : Dword} (hopc : x.e.opc = 0x09)
    (hsave : x.e.cdw10.getLsbD 31 = false ∨ bitsAt x.e.cdw10.toNat 0 8 = 0xc0 ∨ bitsAt x.e.cdw10.toNat 0 8 = 0xc1)
    (hset : s.setFeature (bitsAt x.e.cdw10.toNat 0 8) x.e.cdw11 (x.e.cdw10.getLsbD 31) = .ok (u, dw)) :
    exec (.setFeatures c) s = .next (u.adminDone c stOk dw) := by
  refine congrArg Host.Outcome.next ((admitAdmin_body h (by simp [hopc]) (by rw [hopc]; rfl) _).trans ?_)
  have hmay : ¬(x.e.cdw10.getLsbD 31 = true ∧ bitsAt x.e.cdw10.toNat 0 8 ≠ 0xc0 ∧ bitsAt x.e.cdw10.toNat 0 8 ≠ 0xc1) := by
    rintro ⟨hsv, h0, h1⟩
    rcases hsave with k | k | k
    · rw [k] at hsv
      cases hsv
    · exact h0 k
    · exact h1 k
  simp only [hset, hmay, if_false]

theorem keepAlive_starts (hopc : x.e.opc = 0x18) :
    exec (.keepAlive c) s = .next (({ s with nvme := { s.nvme with kaAt := s.now } }).adminDone c stOk) :=
  congrArg Host.Outcome.next (admitAdmin_body h (by simp [hopc]) (by rw [hopc]; rfl) _)

/-- A request that waits for its event. -/
def requestHeld (s : State) (c : Nat) : State := { s.stampCtx c with nvme := { s.nvme with aers := s.nvme.aers ++ [c] } }

theorem eventRequest_held (hopc : x.e.opc = 0x0c) (hroom : s.nvme.aers.length < 4) (hnone : s.nvme.aens = []) :
    exec (.asyncEventRequest c) s = .next (requestHeld s c) := by
  refine congrArg Host.Outcome.next ((admitAdmin_body h (by simp [hopc]) (by rw [hopc]; rfl) _).trans ?_)
  refine (if_neg (Nat.not_le.mpr hroom)).trans ?_
  dsimp only
  split
  · next heq => cases heq.symm.trans hnone
  · rfl

/-- A request that takes the oldest event. -/
def requestServed (s : State) (c : Nat) (l : List (Nat × Nat × Nat)) : State := { s.stampCtx c with nvme := { s.nvme with aens := l } }

theorem eventRequest_served {a : Nat × Nat × Nat} {l : List (Nat × Nat × Nat)} (hopc : x.e.opc = 0x0c) (hroom : s.nvme.aers.length < 4)
    (haens : s.nvme.aens = a :: l) : exec (.asyncEventRequest c) s =
      .next ((requestServed s c l).finish c stOk (BitVec.ofNat 32 (a.1 + a.2.1 * 2 ^ 8 + a.2.2 * 2 ^ 16))) := by
  refine congrArg Host.Outcome.next ((admitAdmin_body h (by simp [hopc]) (by rw [hopc]; rfl) _).trans ?_)
  refine (if_neg (Nat.not_le.mpr hroom)).trans ?_
  dsimp only
  split
  · next heq =>
    cases heq.symm.trans haens
    rfl
  · next heq => cases heq.symm.trans haens

/-- The number of Aborts that the limit of R65 counts: those of the admin queue that are stamped (log entry 24 of the model). -/
def otherAborts (s : State) (c : Nat) : Nat :=
  s.ctxs.count fun k y => k != c && decide (y.q = 0) && y.e.opc == 0x08 && y.stamped

/-- What an Abort does with the command that it names, if there is one (R132, R133). -/
def abortTo (s : State) (c : Nat) : Option (Nat × Ctx) → State
  | none => s.adminDone c stOk 1
  | some (t, y) =>
    if !y.e.isBlock then s.adminDone c stOk 1
    else if y.phase = .fetched then
      ((s.stampCtx c).ctxEdit t fun z => { z with abortMark := true }).ctxEdit c fun z => { z with waitFor := some t }
    else if !y.stamped then s.adminDone c stOk 1
    else s.enter { kind := .abortE, ctx := c, owner := 1024, nsid := y.e.nsid
                   scopes := [zkey y.e.nsid (y.e.slba / max 1 s.zsze)], target := t }

theorem abort_acts (hopc : x.e.opc = 0x08) (hroom : otherAborts s c < 8) {r : Option (Nat × Ctx)}
    (hr : (if bitsAt x.e.cdw10.toNat 0 16 = 0 ∨ 1024 ≤ bitsAt x.e.cdw10.toNat 0 16 then none
      else s.abortTarget (bitsAt x.e.cdw10.toNat 0 16) (bitsAt x.e.cdw10.toNat 16 16)) = r) :
    exec (.abort c) s = .next (abortTo s c r) := by
  refine congrArg Host.Outcome.next ((admitAdmin_body h (by simp [hopc]) (by rw [hopc]; rfl) _).trans ?_)
  refine (if_neg (Nat.not_le.mpr hroom)).trans ?_
  rw [hr]
  cases r <;> rfl

/-- An Abort marks a command that its queue has not yet stamped, and waits for it (R132, R133). -/
theorem abort_marks (hopc : x.e.opc = 0x08) (hroom : otherAborts s c < 8) {k : Nat} {y : Ctx}
    (hq : ¬(bitsAt x.e.cdw10.toNat 0 16 = 0 ∨ 1024 ≤ bitsAt x.e.cdw10.toNat 0 16))
    (ht : s.abortTarget (bitsAt x.e.cdw10.toNat 0 16) (bitsAt x.e.cdw10.toNat 16 16) = some (k, y)) (hb : y.e.isBlock = true)
    (hp : y.phase = .fetched) : exec (.abort c) s =
      .next (((s.stampCtx c).ctxEdit k fun z => { z with abortMark := true }).ctxEdit c fun z => { z with waitFor := some k }) := by
  rw [abort_acts h hopc hroom ((if_neg hq).trans ht)]
  simp only [abortTo, hb, hp, Bool.not_true, Bool.false_eq_true, if_false, if_true]

/-- An Abort of a stamped command enters the commit order of that command's zone (R132). -/
theorem abort_enters (hopc : x.e.opc = 0x08) (hroom : otherAborts s c < 8) {k : Nat} {y : Ctx}
    (hq : ¬(bitsAt x.e.cdw10.toNat 0 16 = 0 ∨ 1024 ≤ bitsAt x.e.cdw10.toNat 0 16))
    (ht : s.abortTarget (bitsAt x.e.cdw10.toNat 0 16) (bitsAt x.e.cdw10.toNat 16 16) = some (k, y)) (hb : y.e.isBlock = true)
    (hp : y.phase ≠ .fetched) (hst : y.stamped = true) : exec (.abort c) s =
      .next (s.enter { kind := .abortE, ctx := c, owner := 1024, nsid := y.e.nsid
                       scopes := [zkey y.e.nsid (y.e.slba / max 1 s.zsze)], target := k }) := by
  rw [abort_acts h hopc hroom ((if_neg hq).trans ht)]
  simp only [abortTo, hb, hp, hst, Bool.not_true, Bool.false_eq_true, if_false]

/-- An Abort that names no command of an I/O queue has no effect (R132). -/
theorem abort_misses (hopc : x.e.opc = 0x08) (hroom : otherAborts s c < 8)
    (hno : bitsAt x.e.cdw10.toNat 0 16 = 0 ∨ 1024 ≤ bitsAt x.e.cdw10.toNat 0 16 ∨
      s.abortTarget (bitsAt x.e.cdw10.toNat 0 16) (bitsAt x.e.cdw10.toNat 16 16) = none) :
    exec (.abort c) s = .next (s.adminDone c stOk 1) := by
  refine abort_acts h hopc hroom (r := none) (ite_cases (P := (· = none)) (fun _ => rfl) fun hq => ?_)
  rcases hno with k | k | k
  · exact absurd (.inl k) hq
  · exact absurd (.inr k) hq
  · exact k

end Controls

/-- The two commands that an Abort joins: the one it marked and its own, which waits; no other changes. -/
theorem abortMarked_ctxs {s : State} {c k : Nat} {x y : Ctx} (hx : s.ctxs.look c = some x) (hy : s.ctxs.look k = some y) (hk : k ≠ c) :
    let t := ((s.stampCtx c).ctxEdit k fun z => { z with abortMark := true }).ctxEdit c fun z => { z with waitFor := some k }
    t.ctxs.look c = some { x with phase := .stamped, stamped := true, stamp := s.gate.next, waitFor := some k } ∧
    t.ctxs.look k = some { y with abortMark := true } ∧ ∀ j, j ≠ c → j ≠ k → t.ctxs.look j = s.ctxs.look j := by
  have hstamped := stampCtx_look hx
  have hmark := Tbl.look_edit_ne (s.stampCtx c).ctxs (fun z : Ctx => { z with abortMark := true }) (Ne.symm hk)
  refine ⟨Tbl.look_edit _ (hmark.trans hstamped), ?_, fun j hc hj => ?_⟩
  · exact (Tbl.look_edit_ne _ _ hk).trans (Tbl.look_edit _ ((stampCtx_others s c k hk).trans hy))
  · exact (Tbl.look_edit_ne _ _ hc).trans ((Tbl.look_edit_ne _ _ hj).trans (stampCtx_others s c j hc))

/-- Settles O13: each command acts at its stamp; a request and an Abort that must wait hold their stamp. -/
theorem controlCommandsComplete : Obligations.ControlCommandsComplete := by
  intro s c x h
  refine ⟨fun u dw hopc hsave hset => ?_, fun hopc => ?_, fun hopc hroom hnone => ?_, fun a l hopc hroom haens => ?_,
    fun hopc hroom => ⟨fun k y h0 h1 ht hk hy hb => ⟨fun hp => ?_, fun hp hst => ?_⟩, fun hno => ?_⟩⟩
  · have hu := (LawP.get (State.setFeature_law _ _ _ _) hset).same
    exact ⟨_, setFeatures_sets h hopc hsave hset, and_assoc.mp
      ⟨adminDone_completes (w := [.ctxs, .gate, .dma, .nvme, .nv]) h hu (by decide) (by decide) (by decide) (by decide) dw,
        (adminDone_same u c dw) .nvme (by decide), (adminDone_same u c dw) .nv (by decide)⟩⟩
  · exact ⟨_, keepAlive_starts h hopc, and_assoc.mp
      ⟨adminDone_completes (w := [.ctxs, .gate, .dma, .nvme]) h (same_of_nvme s _) (by decide) (by decide) (by decide) (by decide) 0,
        (adminDone_same _ c 0) .nvme (by decide)⟩⟩
  · exact ⟨_, eventRequest_held h hopc hroom hnone, stampCtx_holds h.here,
      Same.seq (stampCtx_same s c) (same_of_nvme (s.stampCtx c) _) (by decide) (by decide), rfl⟩
  · have hserved : Same [.ctxs, .gate, .dma, .nvme] s (requestServed s c l) :=
      Same.seq (stampCtx_same s c) (same_of_nvme (s.stampCtx c) _) (by decide) (by decide)
    have hfin := finish_ok_same (requestServed s c l) c (BitVec.ofNat 32 (a.1 + a.2.1 * 2 ^ 8 + a.2.2 * 2 ^ 16)) 0 0
    exact ⟨_, eventRequest_served h hopc hroom haens, finish_done (u := requestServed s c l) (stampCtx_look h.here) nofun rfl rfl (stampCtx_others s c) _,
      Same.seq hserved hfin (by decide) (by decide), hfin .nvme (by decide)⟩
  · obtain ⟨hc, hmark, hothers⟩ := abortMarked_ctxs h.here hy hk
    refine ⟨_, abort_marks h hopc hroom (by omega) ht hb hp, ⟨_, hc, rfl, rfl, rfl⟩, ?_, hmark, hothers, _, hc, rfl⟩
    exact Same.seq (stampCtx_same s c) (Same.trans (State.ctxEdit_law ..).same (State.ctxEdit_law ..).same) (by decide) (by decide)
  · exact ⟨_, abort_enters h hopc hroom (by omega) ht hb hp hst, enter_holds (u := s) h.here rfl rfl, enter_others s _, enter_same s _, rfl⟩
  · exact ⟨_, abort_misses h hopc hroom hno, adminDone_done h.here rfl rfl 1, adminDone_same s c 1⟩

end Sys2Proof.Proofs
end

section
/-! PROOFS. Namespaces, Sanitize and the firmware commands at the gate (R67, R75, R76, R144, R302, R439, R440, R445, R500). -/

namespace Sys2Proof.Proofs

open Sys2Proof Sys2Proof.Machine Sys2Proof.Safety Sys2Proof.Laws

/-! ### Namespaces are made and attached (R75, R144, R500) -/

section Namespaces
variable {s : State} {c : Nat} {x : Ctx} (h : AdminTurn s c x)
include h

theorem nsCreate_makes {d : NsData} (hopc : x.e.opc = 0x0d) (hdptr : x.e.dptrFault 4096 false = none) (hcheck : s.nsCreateCheck x.e d = none) :
    exec (.nsCreate c d) s =
      .next ((s.nsMake (s.nss.freeFrom 1) d).adminDone c stOk (BitVec.ofNat 32 (s.nss.freeFrom 1))) := by
  have hsel : bitsAt x.e.cdw10.toNat 0 4 = 0 := by
    by_contra hne
    simp [State.nsCreateCheck, hne] at hcheck
  refine congrArg Host.Outcome.next ((admitAdmin_body h (by simp [hopc, hsel]) (by rw [hopc]; rfl) _).trans ?_)
  simp only [hdptr, hcheck]

/-- A namespace attached to the controller, or no longer attached, and that in the ledger (R449). -/
def attachSet (s : State) (nsid : Nat) (n : Ns) (on : Bool) : State :=
  { s with nss := s.nss.put nsid { n with attached := on } }.ledger

theorem nsAttach_attaches {n : Ns} (hopc : x.e.opc = 0x15) (hdptr : x.e.dptrFault 4096 false = none)
    (hsel : bitsAt x.e.cdw10.toNat 0 4 < 2) (hn : s.nss.look x.e.nsid = some n)
    (hnew : n.attached = decide (bitsAt x.e.cdw10.toNat 0 4 = 1)) :
    exec (.nsAttach c [1]) s =
      .next (((attachSet s x.e.nsid n (decide (bitsAt x.e.cdw10.toNat 0 4 = 0))).adminDone c stOk).nsChanged x.e.nsid) := by
  refine congrArg Host.Outcome.next ((admitAdmin_body h (by simp [hopc]) (by rw [hopc]; rfl) _).trans ?_)
  have hon : ¬(bitsAt x.e.cdw10.toNat 0 4 = 0 ∧ n.attached = true) := by
    rintro ⟨h0, ha⟩
    simp [h0, ha] at hnew
  have hoff : ¬(bitsAt x.e.cdw10.toNat 0 4 = 1 ∧ (!n.attached) = true) := by
    rintro ⟨h1, ha⟩
    simp [h1] at hnew
    simp [hnew] at ha
  simp only [hdptr, Nat.not_le.mpr hsel, hn, hon, hoff, ne_eq, not_true_eq_false, if_false]
  rfl

end Namespaces

theorem zoneMake_same (s : State) (id : Nat) (d : NsData) (z : Nat) :
    Same [.zones] s { s with zones := s.zones.put (zkey id z) { conv := decide (z < d.conv), cap := s.geom.nominal } } :=
  (Laws.Law.mk (Law.refl s)).same

/-- The record of a namespace that is made (R75). -/
def nsNew (s : State) (d : NsData) : Ns :=
  { owner := if d.owner.getLsbD 15 then d.owner.toNat % 1024 else 1024, nsze := d.nsze, conv := d.conv
    lbaf1 := decide (d.flbas = 1), dps := d.dps, pi := decide (d.dps % 8 ≠ 0), zoneBase := s.zne.zonesMade }

/-- Making a namespace adds its record and counts its zones. -/
theorem nsMake_adds (s : State) (id : Nat) (d : NsData) : (s.nsMake id d).nss = s.nss.put id (nsNew s d) ∧
    (s.nsMake id d).zne = { s.zne with zonesMade := s.zne.zonesMade + d.nsze / max 1 s.zsze } := by
  have hzones := forNats_same _ (fun u z => zoneMake_same u id d z) (List.range (d.nsze / max 1 s.zsze))
    { s with nss := s.nss.put id (nsNew s d), zne := { s.zne with zonesMade := s.zne.zonesMade + d.nsze / max 1 s.zsze } }
  exact ⟨hzones .nss (by decide), hzones .zne (by decide)⟩

/-- An event is dropped, kept for the next request, or ends the oldest one; nothing else happens. -/
theorem aenRaise_cases (s : State) (type info page : Nat) : ∃ n : Nvme, n.changedNs = s.nvme.changedNs ∧
    (s.aenRaise type info page = { s with nvme := n } ∨
      ∃ a l dw0, s.nvme.aers = a :: l ∧ s.aenRaise type info page = State.finish { s with nvme := n } a stOk dw0) := by
  unfold State.aenRaise
  split
  · exact ⟨s.nvme, rfl, .inl rfl⟩
  · split
    · next a l ha => exact ⟨{ s.nvme with aers := l }, rfl, .inr ⟨a, l, _, ha, rfl⟩⟩
    · exact ⟨{ s.nvme with aens := s.nvme.aens ++ [(type, info, page)] }, rfl, .inl rfl⟩

/-- A change of the namespaces is noted in the Changed Namespace List, and the notice that comes with the first may end the oldest event
request (R70, R73). -/
theorem nsChanged_cases (s : State) (id : Nat) : ∃ n : Nvme, n.changedNs = insNat id s.nvme.changedNs ∧
    (s.nsChanged id = { s with nvme := n } ∨
      ∃ a l dw0, s.nvme.aers = a :: l ∧ s.nsChanged id = State.finish { s with nvme := n } a stOk dw0) := by
  unfold State.nsChanged
  dsimp only
  split
  · exact aenRaise_cases { s with nvme := { s.nvme with changedNs := insNat id s.nvme.changedNs } } 2 0 0x04
  · exact ⟨_, rfl, .inl rfl⟩

theorem nsChanged_notes (s : State) (id : Nat) : Same [.ctxs, .nvme] s (s.nsChanged id) ∧
    (s.nsChanged id).nvme.changedNs = insNat id s.nvme.changedNs := by
  obtain ⟨n, hn, h | ⟨a, l, dw0, -, h⟩⟩ := nsChanged_cases s id
  · rw [h]
    exact ⟨Same.mono (same_of_nvme s n) (by decide), hn⟩
  · have hfin := finish_ok_same { s with nvme := n } a dw0 0 0
    rw [h]
    exact ⟨Same.seq (same_of_nvme s n) hfin (by decide) (by decide), (congrArg Nvme.changedNs (hfin .nvme (by decide))).trans hn⟩

/-- Of the commands only the oldest event request may end, and one that is complete stays as it is. -/
theorem nsChanged_ctxs (s : State) (id : Nat) {k : Nat} (hk : s.nvme.aers.head? ≠ some k ∨ ∃ y, s.ctxs.look k = some y ∧ y.phase = .done) :
    (s.nsChanged id).ctxs.look k = s.ctxs.look k := by
  obtain ⟨n, -, h | ⟨a, l, dw0, ha, h⟩⟩ := nsChanged_cases s id
  · rw [h]
  · rw [h]
    by_cases hka : k = a
    · subst hka
      rcases hk with hk | ⟨y, hy, hp⟩
      · exact absurd (by rw [ha]; rfl) hk
      · unfold State.finish
        simp [hy, hp]
    · exact finish_others a stOk dw0 0 0 k hka

/-! ### Namespaces are deleted (R75) -/

/-- A namespace whose deletion is stamped. -/
def nsDeleting (s : State) (c id : Nat) : State :=
  { s.stampCtx c with nss := s.nss.edit id fun n => { n with deleting := some c } }

/-- An admin command is not in flight in a namespace, so its stamp does not keep it busy. -/
theorem nsDeleting_busy {s : State} {c : Nat} {x : Ctx} (h : AdminTurn s c x) (id : Nat) : (nsDeleting s c id).nsBusy id = s.nsBusy id := by
  have hq : (decide (x.q ≠ 0) && x.stamped && decide (x.e.nsid = id)) = false := by simp [h.admin]
  have hq' : (decide (x.q ≠ 0) && true && decide (x.e.nsid = id)) = false := by simp [h.admin]
  exact any_edit_of_not (p := fun _ (y : Ctx) => decide (y.q ≠ 0) && y.stamped && decide (y.e.nsid = id)) h.here hq hq'

theorem nsDelete_stamps {s : State} {c : Nat} {x : Ctx} {n : Ns} (h : AdminTurn s c x) (hopc : x.e.opc = 0x0d)
    (hsel : bitsAt x.e.cdw10.toNat 0 4 = 1) (hn : s.nss.look x.e.nsid = some n) (hdel : n.deleting = none)
    (hnone : s.nss.keysWhere (fun _ n => n.deleting == some c) = []) :
    exec (.nsDelete c) s = .next ((nsDeleting s c x.e.nsid).nsDeleteEnd x.e.nsid c) := by
  have hexec : exec (.nsDelete c) s = execNsDelete c s := rfl
  rw [hexec, execNsDelete, hnone]
  refine congrArg Host.Outcome.next ((admitAdmin_body h (by simp [hopc, hsel]) (by rw [hopc]; rfl) _).trans ?_)
  simp only [hn, hdel]
  rfl

/-- No zone of a namespace that is gone is left, and neither is its record. -/
theorem nsGone_gone (s : State) (id : Nat) :
    (s.nsGone id).nss.look id = none ∧ (s.nsGone id).zones.any (fun k _ => zNsid k == id) = false := by
  unfold State.nsGone
  dsimp only
  generalize forNats (s.zones.keysWhere fun k _ => zNsid k == id) s _ = u
  let v : State := { u with zones := u.zones.filter fun p => zNsid p.1 != id, nss := u.nss.del id }
  have hmig := (State.migCheck_law v.ledger).same
  have hv : v.zones.any (fun k _ => zNsid k == id) = false := by
    simp [v, Tbl.any, List.any_eq_false]
  have hgone : v.ledger.migCheck.nss.look id = none ∧ v.ledger.migCheck.zones.any (fun k _ => zNsid k == id) = false := by
    rw [hmig .nss (by decide), hmig .zones (by decide)]
    exact ⟨Tbl.look_del _ _, hv⟩
  refine ite_cases (P := fun t : State => t.nss.look id = none ∧ t.zones.any (fun k _ => zNsid k == id) = false) (fun _ => ?_) fun _ => hgone
  obtain ⟨hnote, -⟩ := nsChanged_notes v.ledger.migCheck id
  rw [hnote .nss (by decide), hnote .zones (by decide)]
  exact hgone

/-- Settles O14: a namespace is made, attached and noted, or deleted once nothing is in flight in it. -/
theorem namespaceCommandsComplete : Obligations.NamespaceCommandsComplete := by
  intro s c x h
  refine ⟨fun d hopc hdptr hcheck => ?_, fun n hopc hdptr hsel hn hnew => ?_, fun n hopc hsel hn hdel hnone => ⟨fun hbusy => ?_, fun hbusy => ?_⟩⟩
  · obtain ⟨hnss, hzne⟩ := nsMake_adds s (s.nss.freeFrom 1) d
    let u := s.nsMake (s.nss.freeFrom 1) d
    have hdone := adminDone_same u c (BitVec.ofNat 32 (s.nss.freeFrom 1))
    have hnss' := (hdone .nss (by decide)).trans hnss
    refine ⟨_, nsCreate_makes h hopc hdptr hcheck, and_assoc.mp
      ⟨adminDone_completes (w := [.ctxs, .gate, .dma, .nss, .zne, .zones, .nv]) h (State.nsMake_law ..).same (by decide) (by decide) (by decide) (by decide) _,
        congrArg Zne.zonesMade ((hdone .zne (by decide)).trans hzne), ⟨nsNew s d, ?_, rfl, rfl, rfl, rfl⟩, fun k hk => ?_⟩⟩
    · rw [hnss', Tbl.look_put]
    · rw [hnss', Tbl.look_put_ne _ _ hk]
  · let u := attachSet s x.e.nsid n (decide (bitsAt x.e.cdw10.toNat 0 4 = 0))
    have hu : Same [.nss, .nv] s u := (Law.mk (Law.refl s)).same
    obtain ⟨⟨hends, hothers⟩, hsame⟩ :=
      adminDone_completes (u := u) (w := [.ctxs, .gate, .dma, .nss, .nv]) h hu (by decide) (by decide) (by decide) (by decide) 0
    obtain ⟨hnote, hlist⟩ := nsChanged_notes (u.adminDone c stOk) x.e.nsid
    have hnvme : (u.adminDone c stOk).nvme = s.nvme := hsame .nvme (by decide)
    obtain ⟨y, hy, hp, hrest⟩ := hends
    refine ⟨_, nsAttach_attaches h hopc hdptr hsel hn hnew, ⟨y, (nsChanged_ctxs _ _ (.inr ⟨y, hy, hp⟩)).trans hy, hp, hrest⟩,
      Same.seq hsame hnote (by decide) (by decide), (hnote .nss (by decide)).trans ((adminDone_same u c 0) .nss (by decide)), ?_, fun k hk hhead => ?_⟩
    · rw [hlist, hnvme]
    · rw [nsChanged_ctxs _ _ (.inl (by rw [hnvme]; exact hhead)), hothers k hk]
  · exact (nsDelete_stamps h hopc hsel hn hdel hnone).trans (congrArg Host.Outcome.next (if_pos ((nsDeleting_busy h _).trans hbusy)))
  · have hfin := finish_ok_same ((nsDeleting s c x.e.nsid).nsGone x.e.nsid) c 0 0 0
    obtain ⟨hnss, hzones⟩ := nsGone_gone (nsDeleting s c x.e.nsid) x.e.nsid
    refine ⟨_, (nsDelete_stamps h hopc hsel hn hdel hnone).trans (congrArg Host.Outcome.next
      (if_neg (ne_true_of_eq_false ((nsDeleting_busy h _).trans hbusy)))), rfl, ?_, ?_⟩
    · exact (congrArg (Tbl.look · x.e.nsid) (hfin .nss (by decide))).trans hnss
    · exact (congrArg (Tbl.any · fun k _ => zNsid k == x.e.nsid) (hfin .zones (by decide))).trans hzones

/-! ### Sanitize (R76, R302) -/

/-- The entry of a sanitize in the commit order, of the whole chip (R38). -/
def sanitizeEntry (c act : Nat) : Entry :=
  { kind := .sanitizeE, ctx := c, owner := 1025, nsid := 0, scopes := [chipScope], target := act }

/-- A sanitize that has started, before its command completes. -/
def sanitizeEntered (s : State) (c act : Nat) (dw : Dword) : State :=
  { s.enter (sanitizeEntry c act) with nvme := { s.nvme with sani := 1, saniKind := act, saniFails := 0, saniDw := dw } }

theorem sanStart_starts {s : State} (h : s.nvme.sani ≠ 1) (c act : Nat) (dw : Dword) :
    s.sanStart c act dw = (sanitizeEntered s c act dw).finish c stOk := if_neg h

theorem sanitizeEntered_finish {s : State} {c : Nat} {x : Ctx} (hx : s.ctxs.look c = some x) (act : Nat) (dw : Dword) :
    let t := (sanitizeEntered s c act dw).finish c stOk
    Done s t c 0 ∧ Same [.ctxs, .gate, .dma, .nvme] s t ∧ t.gate.entries.look s.gate.next = some (sanitizeEntry c act) ∧
      t.nvme = { s.nvme with sani := 1, saniKind := act, saniFails := 0, saniDw := dw } := by
  have hfin := finish_ok_same (sanitizeEntered s c act dw) c 0 0 0
  have hentered : Same [.ctxs, .gate, .dma, .nvme] s (sanitizeEntered s c act dw) :=
    Same.seq (enter_same s _) (same_of_nvme (s.enter (sanitizeEntry c act)) _) (by decide) (by decide)
  refine ⟨finish_done (u := sanitizeEntered s c act dw) (enter_look (e := sanitizeEntry c act) hx rfl) nofun rfl rfl (enter_others s _) 0,
    Same.seq hentered hfin (by decide) (by decide), ?_, hfin .nvme (by decide)⟩
  rw [hfin .gate (by decide)]
  exact Tbl.look_put ..

/-- Settles O15: a sanitize enters the commit order and its command completes; Exit Failure Mode ends a failed one at once. -/
theorem sanitizeCommandsComplete : Obligations.SanitizeCommandsComplete := by
  intro s c x h hopc hsani started
  refine ⟨fun hact hentropy => ⟨_, ?_, sanitizeEntered_finish h.here 4 x.e.cdw10⟩,
    fun hact => ⟨_, ?_, sanitizeEntered_finish h.here 2 x.e.cdw10⟩, fun hact => ⟨_, ?_, and_assoc.mp
      ⟨adminDone_completes (w := [.ctxs, .gate, .dma, .nvme]) h (same_of_nvme s _) (by decide) (by decide) (by decide) (by decide) 0,
        (adminDone_same _ c 0) .nvme (by decide)⟩⟩⟩
  · refine congrArg Host.Outcome.next ((admitAdmin_body h (by simp [hopc, sanact, hact]) (by rw [hopc]; rfl) _).trans ?_)
    simp only [hentropy, Bool.false_and, Bool.false_eq_true, if_false]
    exact sanStart_starts hsani c 4 x.e.cdw10
  · refine congrArg Host.Outcome.next ((admitAdmin_body h (by simp [hopc, sanact, hact]) (by rw [hopc]; rfl) _).trans ?_)
    exact sanStart_starts hsani c 2 x.e.cdw10
  · refine congrArg Host.Outcome.next ((admitAdmin_body h (by simp [hopc, sanact, hact]) (by rw [hopc]; rfl) _).trans ?_)
    exact (if_neg (not_not_of hact)).trans (if_neg hsani)

/-! ### Firmware commands (R439, R440, R445) -/

section Firmware
variable {s : State} {c : Nat} {x : Ctx} (h : AdminTurn s c x)
include h

/-- A piece that is taken, its missing blocks in the queue of the NOR (R439). -/
def pieceTaken (s : State) (c : Nat) (l : Tbl UnitData) (waits : Option Nat) : State :=
  { s.stampCtx c with nv := { s.nv with stgOwner := 1, norQueue := l, norCtx := waits } }

theorem fwDownload_complete {blocks : List UnitData} (hopc : x.e.opc = 0x11) (hlen : blocks.length = dlLen x.e / 4096)
    (hqueue : s.nv.norQueue = []) (hdptr : x.e.dptrFault (dlLen x.e) false = none) (hcheck : s.dlCheck x.e blocks = none)
    (hl : s.dlMissing (dlOff x.e / 4096) blocks = []) :
    exec (.fwDownload c blocks) s = .next ((pieceTaken s c [] none).finish c stOk) := by
  refine (if_neg (by simp [hqueue])).trans (congrArg Host.Outcome.next
    ((admitAdmin_body h (by simp [hopc, hlen]) (by rw [hopc]; rfl) _).trans ?_))
  simp only [hdptr, hcheck, hl, if_true]
  rfl

theorem fwDownload_writes {blocks : List UnitData} (hopc : x.e.opc = 0x11) (hlen : blocks.length = dlLen x.e / 4096)
    (hqueue : s.nv.norQueue = []) (hdptr : x.e.dptrFault (dlLen x.e) false = none) (hcheck : s.dlCheck x.e blocks = none)
    {b : Nat × UnitData} {r : Tbl UnitData} (hl : s.dlMissing (dlOff x.e / 4096) blocks = b :: r) :
    exec (.fwDownload c blocks) s = .next (pieceTaken s c (b :: r) (some c)).norStart := by
  refine (if_neg (by simp [hqueue])).trans (congrArg Host.Outcome.next
    ((admitAdmin_body h (by simp [hopc, hlen]) (by rw [hopc]; rfl) _).trans ?_))
  simp only [hdptr, hcheck, hl, reduceCtorEq, if_false]
  rfl

/-- A commit of the package in staging that passes its checks: the copy to its slot starts (R445). -/
theorem fwCommit_copies {pkg : SlotFind} (hopc : x.e.opc = 0x10) (hfs : bitsAt x.e.cdw10.toNat 0 3 ≤ 2) (hpldm : s.nv.pldmState = 0)
    (herase : s.nv.stgErasing = false) (hact : s.nv.commitAct = 0) (hca : bitsAt x.e.cdw10.toNat 3 3 ≤ 1)
    (hcheck : s.commitCheck pkg (s.fsTarget (bitsAt x.e.cdw10.toNat 0 3)) true = none) : exec (.fwCommit c pkg) s = .next
      ((s.stampCtx c).copyStart (bitsAt x.e.cdw10.toNat 3 3 + 1) (s.fsTarget (bitsAt x.e.cdw10.toNat 0 3)) (some c) pkg.manifest true) := by
  refine congrArg Host.Outcome.next ((admitAdmin_body h (by simp [hopc]) (by rw [hopc]; rfl) _).trans ?_)
  have hstaged : (bitsAt x.e.cdw10.toNat 3 3 != 2) = true := by simpa using (by omega : bitsAt x.e.cdw10.toNat 3 3 ≠ 2)
  have hne : bitsAt x.e.cdw10.toNat 3 3 ≠ 2 := by omega
  have hca2 : ¬2 < bitsAt x.e.cdw10.toNat 3 3 := by omega
  have hfs2 : ¬2 < bitsAt x.e.cdw10.toNat 0 3 := by omega
  simp only [hca2, hfs2, hpldm, herase, hact, hstaged, hcheck, hne, ne_eq, not_true_eq_false, Bool.false_eq_true, or_self, false_and, if_false]

/-- A commit that returns to the slot booted: NEXT is cleared, and the boot record is written again (R445). -/
theorem fwCommit_returns {pkg : SlotFind} (hopc : x.e.opc = 0x10) (hfs : bitsAt x.e.cdw10.toNat 0 3 ≤ 2) (hpldm : s.nv.pldmState = 0)
    (herase : s.nv.stgErasing = false) (hact : s.nv.commitAct = 0) (hca : bitsAt x.e.cdw10.toNat 3 3 = 2)
    (hbooted : s.fsTarget (bitsAt x.e.cdw10.toNat 0 3) = s.upd.booted) : exec (.fwCommit c pkg) s = .next
      (({ s with nv := { s.nv with next := 255, bootSeq := s.nv.bootSeq + 1 } }.adminDone c stOk).fire 209) := by
  refine congrArg Host.Outcome.next ((admitAdmin_body h (by simp [hopc]) (by rw [hopc]; rfl) _).trans ?_)
  have hfs2 : ¬2 < bitsAt x.e.cdw10.toNat 0 3 := by omega
  simp only [Nat.lt_irrefl, hfs2, hpldm, herase, hact, hbooted, hca, ne_eq, not_true_eq_false, Bool.false_eq_true, or_self, and_self, if_false, if_true]

end Firmware

/-- Settles O18: a piece is written from its first missing block on; a commit copies the staged package or only clears NEXT. -/
theorem firmwareCommandsComplete : Obligations.FirmwareCommandsComplete := by
  intro s c x h
  constructor
  · intro blocks hopc hlen hqueue hdptr hcheck l
    refine ⟨fun hl => ?_, fun b d r hl => ?_⟩
    · have htaken : Same [.ctxs, .gate, .dma, .nv] s (pieceTaken s c [] none) :=
        Same.seq (stampCtx_same s c) (nv_same (s.stampCtx c) _) (by decide) (by decide)
      have hfin := finish_ok_same (pieceTaken s c [] none) c 0 0 0
      refine ⟨_, fwDownload_complete h hopc hlen hqueue hdptr hcheck hl, finish_stamped_done (u := s) h.here rfl rfl rfl,
        Same.seq htaken hfin (by decide) (by decide), (hfin .nv (by decide)).trans ?_⟩
      rw [pieceTaken, ← hqueue]
    · have htaken : Same [.ctxs, .gate, .dma, .nv] s (pieceTaken s c l (some c)) :=
        Same.seq (stampCtx_same s c) (nv_same (s.stampCtx c) _) (by decide) (by decide)
      have hstart := (State.norStart_law (pieceTaken s c l (some c))).same
      have hnv := norStart_nv (pieceTaken s c l (some c)) b d r hl
      obtain ⟨y, hy, hrest⟩ := stampCtx_holds h.here
      refine ⟨(pieceTaken s c l (some c)).norStart, ?_, ⟨y, (congrArg (Tbl.look · c) (hstart .ctxs (by decide))).trans hy, hrest⟩,
        Same.seq htaken hstart (by decide) (by decide), ?_, ?_, ?_, ?_⟩
      · rw [fwDownload_writes h hopc hlen hqueue hdptr hcheck hl, hl]
      all_goals rw [hnv]; rfl
  · intro pkg fs ca hopc hfs hpldm herase hact
    refine ⟨fun hca hcheck => ?_, fun hca hbooted => ?_⟩
    · exact ⟨_, fwCommit_copies h hopc hfs hpldm herase hact hca hcheck, stampCtx_holds h.here, stampCtx_others s c,
        Same.seq (stampCtx_same s c) (nv_same (s.stampCtx c) _) (by decide) (by decide), rfl⟩
    · let u : State := { s with nv := { s.nv with next := 255, bootSeq := s.nv.bootSeq + 1 } }
      obtain ⟨⟨⟨y, hy, hrest⟩, hothers⟩, hsame⟩ := adminDone_completes (u := u) (w := [.ctxs, .gate, .dma, .nv]) h (nv_same s _)
        (by decide) (by decide) (by decide) (by decide) 0
      have hfire := (State.fire_law (u.adminDone c stOk) 209 [] 0 0x7ff none).same
      have hctxs := hfire .ctxs (by decide)
      refine ⟨_, fwCommit_returns h hopc hfs hpldm herase hact hca hbooted, ⟨⟨y, (congrArg (Tbl.look · c) hctxs).trans hy, hrest⟩,
        fun k hk => (congrArg (Tbl.look · k) hctxs).trans (hothers k hk)⟩, ?_, Same.seq hsame hfire (by decide) (by decide)⟩
      exact (hfire .nv (by decide)).trans ((adminDone_same u c 0) .nv (by decide))

end Sys2Proof.Proofs
end

section
/-! PROOFS. Doorbells of the PF and completions (R57, R65, R102, R114, R501). -/

namespace Sys2Proof.Proofs

open Sys2Proof Sys2Proof.Machine Sys2Proof.Safety Sys2Proof.Laws

/-! ### Doorbells of the PF (R57, R501) -/

/-- What R501 says of a doorbell that is discarded: reported by an Error Status event, once until the report is cleared. -/
def DoorbellReported (s : State) (info : Nat) (t : State) : Prop :=
  (s.nvme.dbErr = true → t = s) ∧
  (s.nvme.dbErr = false → Same [.nvme, .sqs, .qrecs, .ctxs] s t ∧ (∀ k, k ∉ s.nvme.aers → t.ctxs.look k = s.ctxs.look k) ∧
    (s.nvme.aers = [] → t = { s with nvme := { s.nvme with dbErr := true, aens := s.nvme.aens ++ [(0, info, 0x01)] } }) ∧
    ∀ c l, s.nvme.aers = c :: l → t.nvme = { s.nvme with dbErr := true, aers := l } ∧
      ∀ x, s.ctxs.look c = some x → x.phase ≠ .done → ∃ y, t.ctxs.look c = some y ∧ y.phase = .done ∧ y.status = some stOk ∧
        y.dw0 = BitVec.ofNat 32 (info * 2 ^ 8 + 0x01 * 2 ^ 16))

theorem doorbellError_keeps {s : State} (h : s.nvme.dbErr = true) (info : Nat) : s.doorbellError info = s := if_pos h

/-- With no request outstanding the Error Status event is kept. -/
theorem doorbellError_kept {s : State} (h : s.nvme.dbErr = false) (haers : s.nvme.aers = []) (info : Nat) :
    s.doorbellError info = { s with nvme := { s.nvme with dbErr := true, aens := s.nvme.aens ++ [(0, info, 0x01)] } } := by
  refine (if_neg (ne_true_of_eq_false h)).trans ?_
  unfold State.aenRaise State.aenEnabled
  simp only [if_true, Bool.not_true, Bool.false_eq_true, if_false]
  split
  · next heq => cases heq.symm.trans haers
  · rfl

/-- An outstanding request is completed with the Error Status event. -/
theorem doorbellError_sent {s : State} (h : s.nvme.dbErr = false) {c : Nat} {l : List Nat} (haers : s.nvme.aers = c :: l) (info : Nat) :
    s.doorbellError info = ({ s with nvme := { s.nvme with dbErr := true, aers := l } }).finish c stOk
      (BitVec.ofNat 32 (info * 2 ^ 8 + 0x01 * 2 ^ 16)) := by
  refine (if_neg (ne_true_of_eq_false h)).trans ?_
  unfold State.aenRaise State.aenEnabled
  simp only [if_true, Bool.not_true, Bool.false_eq_true, if_false]
  split
  · next heq =>
    cases heq.symm.trans haers
    rw [Nat.zero_add]
  · next heq => cases heq.symm.trans haers

theorem doorbellError_reports (s : State) (info : Nat) : DoorbellReported s info (s.doorbellError info) := by
  refine ⟨fun h => doorbellError_keeps h info, fun h => ⟨(State.doorbellError_law s info).same, fun k hk => ?_,
    fun haers => doorbellError_kept h haers info, fun c l haers => ?_⟩⟩
  · cases haers : s.nvme.aers with
    | nil => rw [doorbellError_kept h haers]
    | cons c l =>
      rw [doorbellError_sent h haers]
      exact finish_others c stOk _ 0 0 k fun e => hk (by rw [haers, e]; exact .head l)
  · rw [doorbellError_sent h haers]
    refine ⟨(finish_ok_same { s with nvme := { s.nvme with dbErr := true, aers := l } } c _ 0 0) .nvme (by decide), fun x hx hp => ?_⟩
    rw [finish_ctxs (s := { s with nvme := { s.nvme with dbErr := true, aers := l } }) hx hp, Tbl.look_put]
    exact ⟨_, rfl, rfl, rfl, rfl⟩

/-- A doorbell of a queue that the PF does not have is discarded. -/
theorem none_of_noQueue {α : Type} {t : Tbl α} {q : Nat} (h : 1024 ≤ q ∨ t.look q = none) :
    (if q < 1024 then t.look q else none) = none := by
  split
  · next hq => exact h.resolve_left (Nat.not_le.mpr hq)
  · rfl

theorem pfSqDoorbell_noQueue {s : State} {q v : Nat} (h : 1024 ≤ q ∨ s.sqs.look q = none) :
    exec (.pfSqDoorbell q v) s = .next (s.doorbellError 0) := by
  have hexec : exec (.pfSqDoorbell q v) s = execPfSqDoorbell q v s := rfl
  rw [hexec, execPfSqDoorbell, none_of_noQueue h]

theorem pfCqDoorbell_noQueue {s : State} {q v : Nat} (h : 1024 ≤ q ∨ s.cqs.look q = none) :
    exec (.pfCqDoorbell q v) s = .next (s.doorbellError 0) := by
  have hexec : exec (.pfCqDoorbell q v) s = execPfCqDoorbell q v s := rfl
  rw [hexec, execPfCqDoorbell, none_of_noQueue h]

theorem pfSqDoorbell_of_queue {s : State} {q v : Nat} (hq : q < 1024) {x : Sq} (hx : s.sqs.look q = some x) :
    exec (.pfSqDoorbell q v) s =
      if x.size < v ∨ v = x.tail ∨ x.size + 1 - 1 - ringDist x.head x.tail (x.size + 1) < ringDist x.tail v (x.size + 1)
      then .next (s.doorbellError 1) else .next { s with sqs := s.sqs.put q (x.ring v s.now) } := by
  have hexec : exec (.pfSqDoorbell q v) s = execPfSqDoorbell q v s := rfl
  rw [hexec, execPfSqDoorbell, if_pos hq, hx]

theorem pfCqDoorbell_of_queue {s : State} {q v : Nat} (hq : q < 1024) {x : Cq} (hx : s.cqs.look q = some x) :
    exec (.pfCqDoorbell q v) s =
      if x.size < v ∨ v = x.head ∨ ringDist x.head x.tail (x.size + 1) < ringDist x.head v (x.size + 1)
      then .next (s.doorbellError 1) else .next { s with cqs := s.cqs.put q { x with head := v } } := by
  have hexec : exec (.pfCqDoorbell q v) s = execPfCqDoorbell q v s := rfl
  rw [hexec, execPfCqDoorbell, if_pos hq, hx]

/-- Settles O26: a valid doorbell writes its queue alone; any other is reported through the oldest event request. -/
theorem pfDoorbellsAct : Obligations.PfDoorbellsAct := by
  intro s q v reported
  refine ⟨fun h => ⟨_, pfSqDoorbell_noQueue h, doorbellError_reports s 0⟩, fun h => ⟨_, pfCqDoorbell_noQueue h, doorbellError_reports s 0⟩,
    fun hq x hx => ⟨fun hok => ?_, fun hbad => ?_⟩, fun hq x hx => ⟨fun hok => ?_, fun hbad => ?_⟩⟩
  · exact ⟨_, (pfSqDoorbell_of_queue hq hx).trans (if_neg hok), same_of_sqs s _, rfl⟩
  · exact ⟨_, (pfSqDoorbell_of_queue hq hx).trans (if_pos hbad), doorbellError_reports s 1⟩
  · exact ⟨_, (pfCqDoorbell_of_queue hq hx).trans (if_neg hok), same_of_cqs s _, rfl⟩
  · exact ⟨_, (pfCqDoorbell_of_queue hq hx).trans (if_pos hbad), doorbellError_reports s 1⟩

end Sys2Proof.Proofs
end

section
/-! PROOFS. The completion entry of a decided command (R65, R102, R114). -/

namespace Sys2Proof.Proofs

open Sys2Proof Sys2Proof.Machine Sys2Proof.Safety Sys2Proof.Laws

/-! ### A context that is free stays free -/

theorem finish_look_none {s : State} {c : Nat} (h : s.ctxs.look c = none) (k : Nat) (st : Status) (dw0 dw1 : Dword) (n : Nat) :
    (s.finish k st dw0 dw1 n).ctxs.look c = none := by
  by_cases hk : c = k
  · subst hk
    unfold State.finish
    simp only [h]
  · exact (finish_others k st dw0 dw1 n c hk).trans h

theorem ctxEdit_look_none {s : State} {c : Nat} (h : s.ctxs.look c = none) (k : Nat) (f : Ctx → Ctx) : (s.ctxEdit k f).ctxs.look c = none := by
  by_cases hk : c = k
  · subst hk
    unfold State.ctxEdit Tbl.edit
    rw [h]
    exact h
  · exact (Tbl.look_edit_ne _ _ hk).trans h

/-- What each step of a loop keeps, the loop keeps. -/
theorem forNats_keeps {P : State → Prop} {f : State → Nat → State} (hf : ∀ s k, P s → P (f s k)) :
    ∀ (l : List Nat) (s : State), P s → P (forNats l s f)
  | [], _, h => h
  | k :: l, s, h => forNats_keeps hf l (f s k) (hf s k h)

theorem quiesceEnd_look_none {s : State} {c : Nat} (h : s.ctxs.look c = none) (i : Nat) (st : Status) :
    (s.quiesceEnd i st).ctxs.look c = none :=
  forNats_keeps (P := fun u => u.ctxs.look c = none) (fun _ k hk => finish_look_none hk k st 0 0 0) _ _ h

theorem quiesceCheck_look_none {s : State} {c : Nat} (h : s.ctxs.look c = none) (i : Nat) : (s.quiesceCheck i).ctxs.look c = none := by
  unfold State.quiesceCheck
  split
  · refine quiesceEnd_look_none ?_ i stOk
    rw [(State.stateNotice_law _ i).same .ctxs (by decide)]
    exact h
  · exact h

theorem ctxFree_look (s : State) (c : Nat) : (s.ctxFree c).ctxs.look c = none := by
  unfold State.ctxFree
  split
  · next h => exact h
  · dsimp only
    rw [(State.drainCheck_law _ _).same .ctxs (by decide)]
    refine quiesceCheck_look_none (forNats_keeps (P := fun u => u.ctxs.look c = none) (fun s k hk => ?_) _ _ (Tbl.look_del _ _)) _
    exact finish_look_none (ctxEdit_look_none hk k _) k stOk 0 0 0

/-- A command of a PF queue that no other waits for frees its context and nothing else (R26). -/
theorem ctxFree_pf {s : State} {c : Nat} {x : Ctx} (hx : s.ctxs.look c = some x) (hq : x.q < 1024)
    (hw : s.ctxs.any (fun _ z => z.waitFor == some c) = false) : s.ctxFree c = { s with ctxs := s.ctxs.del c } := by
  have howner : ¬qOwner x.q < 1024 := by simp [qOwner, Nat.not_le.mpr hq]
  unfold State.ctxFree
  simp only [hx, keysWhere_eq_nil hw]
  unfold State.quiesceCheck
  rw [if_neg (by simp [howner])]
  unfold State.drainCheck
  split
  · rw [if_neg (by simp [Nat.not_le.mpr hq])]
    rfl
  · rfl

/-! ### The completion entry (R102, R114) -/

/-- The completion queue behind an entry. -/
def Cq.posted (y : Cq) : Cq :=
  { y with tail := if y.tail == y.size then 0 else y.tail + 1, phase := if y.tail == y.size then !y.phase else y.phase }

theorem Cq.posted_eq (y : Cq) : Cq.posted y =
    { y with tail := if y.tail = y.size then 0 else y.tail + 1, phase := if y.tail = y.size then !y.phase else y.phase } := by
  simp only [Cq.posted, beq_iff_eq]

/-- The head that a completion entry reports (R102). -/
def sqHead : Option Sq → Nat
  | some y => y.head
  | none => 0

/-- A completion entry in the queue of its command, before its interrupt. -/
def entryPosted (s : State) (x : Ctx) (st : Status) (y : Cq) : State :=
  ({ s with cqs := s.cqs.put (s.cqOf x.q) (Cq.posted y) }).say (.cqe (s.dmaPasid x.q) (s.cqOf x.q) x.dw0 x.dw1
    (BitVec.ofNat 32 (sqHead (s.sqs.look x.q) + qIndex x.q * 2 ^ 16)) (dword3 st y.phase x.e.cid))

/-- The interrupt of a completion entry, where its queue gives one (R102). -/
def entryTold (s : State) (x : Ctx) (st : Status) (y : Cq) : State :=
  if y.ien && !(decide (1024 ≤ x.q) && (s.slice (qOwner x.q)).st == .destroying) then
    (entryPosted s x st y).msix (if 1024 ≤ x.q then (s.slice (qOwner x.q)).vecBase + y.iv else y.iv)
  else entryPosted s x st y

/-- What a posted completion counts and ends, before its context is free. -/
def entryCounted (s : State) (c : Nat) (x : Ctx) (st : Status) (dw3 : Dword) : State :=
  (((((s.flits (sramPort c) swathOut entryFlits).errAdd x st).freezeShow x st dw3).busyClear x).smartCount x).histCount x

theorem postCompletion_posts {s : State} {c : Nat} {x : Ctx} {st : Status} {y : Cq} (hx : s.ctxs.look c = some x) (hp : x.phase = .done)
    (hst : x.status = some st) (hdiscard : x.discard = false) (hy : s.cqs.look (s.cqOf x.q) = some y) (hfull : y.full = false)
    (hlink : s.linkUp = true) (hstop : s.inStop = false) (hd3 : s.pci.d3hot = false) (hbme : s.pci.bme = true) (hsave : s.brm.st < 3) :
    s.postCompletion c = (entryCounted (entryTold s x st y) c x st (dword3 st y.phase x.e.cid)).ctxFree c := by
  have hst4 : (s.brm.st == 4) = false := beq_false_of_ne (by omega)
  unfold State.postCompletion
  simp only [hx, hp, hst, hdiscard, hy, hfull, hlink, hstop, hd3, hbme, hst4, ne_eq, not_true_eq_false, Bool.not_true, Bool.or_self,
    Bool.false_eq_true, if_false]
  rfl

theorem entryTold_cqs (s : State) (x : Ctx) (st : Status) (y : Cq) : (entryTold s x st y).cqs = s.cqs.put (s.cqOf x.q) (Cq.posted y) :=
  ite_cases (P := fun t : State => t.cqs = s.cqs.put (s.cqOf x.q) (Cq.posted y))
    (fun _ => (State.msix_law (entryPosted s x st y) _).same .cqs (by decide)) fun _ => rfl

theorem entryTold_ctxs (s : State) (x : Ctx) (st : Status) (y : Cq) : (entryTold s x st y).ctxs = s.ctxs :=
  ite_cases (P := fun t : State => t.ctxs = s.ctxs) (fun _ => (State.msix_law (entryPosted s x st y) _).same .ctxs (by decide)) fun _ => rfl

theorem entryCounted_same (s : State) (c : Nat) (x : Ctx) (st : Status) (dw3 : Dword) :
    Same [.out, .nvme, .sqs, .qrecs, .slices, .zones, .sward, .lat, .key, .evt, .log] s (entryCounted s c x st dw3) := by
  let u := (s.flits (sramPort c) swathOut entryFlits).errAdd x st
  let v := (u.freezeShow x st dw3).busyClear x
  have hu : Same [.sward, .nvme] s u := Same.seq (State.flits_law ..).same (State.errAdd_law ..).same (by decide) (by decide)
  have hv : Same [.out, .sqs, .qrecs, .slices, .evt, .log, .zones, .key] u v :=
    Same.seq (State.freezeShow_law ..).same (State.busyClear_law ..).same (by decide) (by decide)
  have hend : Same [.nvme, .lat] v ((v.smartCount x).histCount x) :=
    Same.seq (State.smartCount_law ..).same (State.histCount_law ..).same (by decide) (by decide)
  exact Same.seq hu (Same.seq hv hend (w := [.out, .nvme, .sqs, .qrecs, .slices, .zones, .lat, .key, .evt, .log]) (by decide) (by decide))
    (by decide) (by decide)

/-- A success freezes no queue, so it tells the host nothing but its entry. -/
theorem entryCounted_ok_out (s : State) (c : Nat) (x : Ctx) (dw3 : Dword) : (entryCounted s c x stOk dw3).out = s.out := by
  have hshow : ∀ u : State, u.freezeShow x stOk dw3 = u := fun u => by
    unfold State.freezeShow
    rw [ok_not_freezes]
    rfl
  unfold entryCounted
  rw [hshow, (State.histCount_law _ _).same .out (by decide), (State.smartCount_law _ _).same .out (by decide),
    (State.busyClear_law _ _).same .out (by decide), (State.errAdd_law _ _ _).same .out (by decide), (State.flits_law _ _ _ _).same .out (by decide)]

theorem saveGo_of_noSave {s : State} (h : s.brm.st < 3) : s.saveGo = s := if_neg (by omega)

/-- Settles O29: the entry is put in its queue, and the context is gone whatever follows from it. -/
theorem completionIsPosted : Obligations.CompletionIsPosted := by
  intro s c x st y hx hp hst hdiscard hy hfull hlink hstop hd3 hbme hsave
  let v := entryCounted (entryTold s x st y) c x st (dword3 st y.phase x.e.cid)
  have hpost : s.postCompletion c = v.ctxFree c := postCompletion_posts hx hp hst hdiscard hy hfull hlink hstop hd3 hbme hsave
  have hbrm : (s.postCompletion c).brm = s.brm := (State.postCompletion_law s c).same .brm (by decide)
  have hv := entryCounted_same (entryTold s x st y) c x st (dword3 st y.phase x.e.cid)
  have hctxs : v.ctxs = s.ctxs := (hv .ctxs (by decide)).trans (entryTold_ctxs s x st y)
  refine ⟨v.ctxFree c, congrArg Host.Outcome.next ((saveGo_of_noSave (by rw [hbrm]; exact hsave)).trans hpost), ctxFree_look v c, ?_,
    fun hok hq hien hwait => ?_⟩
  · rw [(State.ctxFree_law v c).same .cqs (by decide), hv .cqs (by decide), entryTold_cqs, Cq.posted_eq]
  · subst hok
    have hfree := ctxFree_pf (s := v) (c := c) (x := x) (by rw [hctxs]; exact hx) hq (by rw [hctxs]; exact hwait)
    have hpasid : s.dmaPasid x.q = none := if_neg (Nat.not_le.mpr hq)
    have htold : entryTold s x stOk y = entryPosted s x stOk y := if_neg (by simp [hien])
    refine ⟨BitVec.ofNat 32 (sqHead (s.sqs.look x.q) + qIndex x.q * 2 ^ 16), ?_⟩
    rw [hfree, ← hpasid]
    refine (entryCounted_ok_out (entryTold s x stOk y) c x _).trans ?_
    rw [htold]
    rfl

end Sys2Proof.Proofs
end

section
/-! PROOFS. CC.EN cleared over a context that the table holds twice (R54, R86). -/

namespace Sys2Proof.Proofs

open Sys2Proof Sys2Proof.Machine Sys2Proof.Safety Sys2Proof.Laws

/-! ### A reset of the controller (R54)

A reset of the controller drops the commands of the PF, each by the context that it stands in. The statement speaks of any state, so of
a context table too that names one context twice, which no command builds: where the first entry is of a slice queue and the second of a
PF queue, the context is chosen for the second and dropped as the first, and the slice counts a completion lost. -/

/-- A fetched command of queue `q`. -/
def fetchedOf (q : Nat) : Ctx := { q := q, e := SqEntry.reading, seqNo := 0 }

/-- Context 0 stands in the table twice: for a command of slice 0, and for one of the admin queue. -/
def contextTwice : State := { State.reset with ctxs := [(0, fetchedOf 1024), (0, fetchedOf 0)] }

/-- The reset that must leave the slices untouched counts a lost completion of slice 0. -/
theorem contextTwice_counted : (contextTwice.slice 0).lostCpl = [] ∧
    ((contextTwice.after (exec .ccEnClear contextTwice)).slice 0).lostCpl = [(0, 1)] := by decide

/-- Refutes O35: where a context stands in the table twice, CC.EN cleared counts a completion of a slice lost. -/
theorem not_hostResetsFreezeTheSlices : ¬ Obligations.HostResetsFreezeTheSlices := by
  unfold Obligations.HostResetsFreezeTheSlices
  intro h
  obtain ⟨-, -, -, -, t, ht, -, -, hsame⟩ := h contextTwice (by decide)
  have hslices : t.slices = contextTwice.slices := hsame .slices (by decide)
  have hslice : t.slice 0 = contextTwice.slice 0 := congrArg (fun l : Tbl Slice => l.get 0 {}) hslices
  obtain ⟨hbefore, hafter⟩ := contextTwice_counted
  rw [ht, show (contextTwice.after (.next t)).slice 0 = contextTwice.slice 0 from hslice, hbefore] at hafter
  cases hafter

end Sys2Proof.Proofs
end

section
/-! PROOFS. CC.EN set, the link, its power state and the vectors (R55, R56, R59, R62, R63, R455). -/

namespace Sys2Proof.Proofs

open Sys2Proof Sys2Proof.Machine Sys2Proof.Safety Sys2Proof.Laws

/-! ### CC.EN set (R62, R63) -/

/-- CC as CC.EN set writes it: the fields that R62 lists, and EN. -/
def ccEnabled (cc : Dword) : Dword := (cc &&& 0x01ffc7f1) ||| 1

theorem ccEnSet_refuses {s : State} {cc : Dword} (hlink : s.linkUp = true) (hstop : s.inStop = false) (hd3 : s.pci.d3hot = false)
    (hoff : s.nvme.cc.getLsbD 0 = false) (hcss : bitsAt (ccEnabled cc).toNat 4 3 ≠ 6) :
    exec (.ccEnSet cc) s = .next { s with nvme := { s.nvme with cc := ccEnabled cc, cfs := true } } := by
  have hexec : exec (.ccEnSet cc) s = execCcEnSet cc s := rfl
  rw [hexec, execCcEnSet]
  dsimp only
  rw [if_neg (by simp [hlink, hstop, hd3]), if_neg (ne_true_of_eq_false hoff), if_pos (.inr hcss)]
  rfl

/-- The controller that starts, before its admin queues. -/
def ccStarted (s : State) (cc : Dword) : State :=
  { s with nvme := { s.nvme with
    cc := ccEnabled cc, rdy := if (ccEnabled cc).getLsbD 24 then s.gate.adminOk else s.gate.ioOk } }

theorem ccEnSet_starts {s : State} {cc : Dword} (hlink : s.linkUp = true) (hstop : s.inStop = false) (hd3 : s.pci.d3hot = false)
    (hoff : s.nvme.cc.getLsbD 0 = false) (hstage : s.upd.stage ≠ 15) (hcss : bitsAt (ccEnabled cc).toNat 4 3 = 6)
    (hsaved : ¬(s.brm.st = 4 ∧ s.brm.saveKind = 3)) : exec (.ccEnSet cc) s = .next (ccStarted s cc).adminQueues := by
  have hexec : exec (.ccEnSet cc) s = execCcEnSet cc s := rfl
  have hok : ¬(s.upd.stage = 15 ∨ bitsAt (ccMask cc ||| 1).toNat 4 3 ≠ 6) := not_or_intro hstage (not_not_intro hcss)
  rw [hexec, execCcEnSet]
  dsimp only
  rw [if_neg (by simp [hlink, hstop, hd3]), if_neg (ne_true_of_eq_false hoff), if_neg hok, if_neg hsaved]
  rfl

theorem adminQueues_same (s : State) (cc : Dword) : Same [.nvme, .sqs, .cqs] s (ccStarted s cc).adminQueues :=
  Same.seq (same_of_nvme s _) (State.adminQueues_law (ccStarted s cc)).same (by decide) (by decide)

theorem rdyBound_acts (s : State) : exec .rdyBound s = .next
    (if s.nvme.cc.getLsbD 0 && !s.nvme.cfs && s.gate.adminOk then { s with nvme := { s.nvme with rdy := true } } else s) :=
  (apply_ite Host.Outcome.next _ _ _).symm

/-! ### Interrupts while the link comes up (R455) -/

theorem msix_msiWait (s : State) (v : Nat) : (s.msix v).evt.msiWait = s.evt.msiWait := by
  unfold State.msix
  split
  · rfl
  · split <;> rfl

theorem noticeFlush_msiWait (s : State) (i : Nat) : (s.noticeFlush i).evt.msiWait = s.evt.msiWait := by
  unfold State.noticeFlush State.noticeWrite
  dsimp only
  split
  · split
    · rfl
    · split
      · exact msix_msiWait _ _
      · rfl
  · rfl

/-- With the link up no message is left waiting for it. -/
theorem msiCatchUp_none {s : State} (h : s.linkUp = true) : s.msiCatchUp.evt.msiWait = [] := by
  unfold State.msiCatchUp
  rw [if_neg (by simp [h])]
  refine forNats_keeps (P := fun u => u.evt.msiWait = []) (fun u k hu => ?_) _ _ rfl
  split
  · split
    · exact (msix_msiWait u _).trans hu
    · exact hu
  · exact hu

/-- The notice rings that hold losses are written; no slice changes apart from its ring. -/
theorem noticeFlush_apart (s : State) (i k : Nat) : apart ((s.noticeFlush i).slice k) = apart (s.slice k) := by
  obtain ⟨hothers, hring⟩ := noticeFlush_ring s i
  by_cases h : k = i
  · rw [h]
    exact hring
  · rw [hothers k h]

theorem forNats_noticeFlush (l : List Nat) (s : State) :
    (forNats l s State.noticeFlush).evt.msiWait = s.evt.msiWait ∧ ∀ k, apart ((forNats l s State.noticeFlush).slice k) = apart (s.slice k) := by
  refine forNats_keeps (P := fun u => u.evt.msiWait = s.evt.msiWait ∧ ∀ k, apart (u.slice k) = apart (s.slice k))
    (fun u i hu => ⟨(noticeFlush_msiWait u i).trans hu.1, fun k => (noticeFlush_apart u i k).trans (hu.2 k)⟩) l s ⟨rfl, fun _ => rfl⟩

theorem linkOk_rate {rate width : Nat} {flit : Bool} (h : linkOk rate width flit = true) : rate ≠ 0 := by
  simp only [linkOk, Bool.and_eq_true, decide_eq_true_eq] at h
  omega

theorem same_of_pci (s : State) (p : Pci) : Same [.pci] s { s with pci := p } := (Laws.Law.mk (Law.refl s)).same

theorem pcieLinkUp_trains {s : State} {rate width : Nat} {flit : Bool} (hperst : s.pci.perstN = true) (hpower : s.powered = true)
    (hstop : s.inStop = false) (hok : linkOk rate width flit = true) (hcrown : s.cas.crown = true) :
    let u := { s with pci := { s.pci with rate := rate, width := width, flit := flit } }.msiCatchUp
    exec (.pcieLinkUp rate width flit) s = .next (forNats (u.slices.map (·.1)) u State.noticeFlush) :=
  if_neg (by simp [hperst, hpower, hstop, hok, hcrown])

/-! ### Vectors (R455) -/

/-- A message that is sent leaves the masks alone. -/
theorem pbaSend_masks (s : State) (v : Nat) :
    (s.pbaSend v).evt.unmasked = s.evt.unmasked ∧ (s.pbaSend v).evt.fmask = s.evt.fmask :=
  ite_cases (P := fun t : State => t.evt.unmasked = s.evt.unmasked ∧ t.evt.fmask = s.evt.fmask) (fun _ => ⟨rfl, rfl⟩) fun _ => ⟨rfl, rfl⟩

theorem forNats_pbaSend_masks (l : List Nat) (s : State) :
    (forNats l s State.pbaSend).evt.unmasked = s.evt.unmasked ∧ (forNats l s State.pbaSend).evt.fmask = s.evt.fmask :=
  forNats_keeps (P := fun u => u.evt.unmasked = s.evt.unmasked ∧ u.evt.fmask = s.evt.fmask)
    (fun u v hu => ⟨(pbaSend_masks u v).1.trans hu.1, (pbaSend_masks u v).2.trans hu.2⟩) l s ⟨rfl, rfl⟩

/-- A message that is held goes out once nothing masks it. -/
theorem pbaSend_sends {s : State} {v : Nat} (hpba : s.evt.pba.contains v = true) (hmask : s.evt.fmask = false)
    (hvec : s.evt.unmasked.contains v = true) (hlink : s.linkUp = true) (hstop : s.inStop = false) :
    s.pbaSend v = ({ s with evt := { s.evt with pba := s.evt.pba.filter (· != v) } }).say (.msi v) :=
  if_pos (by simp only [hpba, hmask, hvec, hlink, hstop, Bool.not_false, Bool.and_self])

/-- The function's mask is gone. -/
def functionOpen (s : State) : State := { s with evt := { s.evt with fmask := false } }

theorem functionOpen_same (s : State) : Same [.evt] s (functionOpen s) := (Laws.Law.mk (Law.refl s)).same

theorem vectorUnmask_function (s : State) : exec (.vectorUnmask none) s = .next (forNats s.evt.pba (functionOpen s) State.pbaSend) := rfl

/-- A vector that is no longer masked. -/
def vectorOpen (s : State) (v : Nat) : State := { s with evt := { s.evt with unmasked := insNat v s.evt.unmasked } }

theorem vectorOpen_same (s : State) (v : Nat) : Same [.evt] s (vectorOpen s v) := (Laws.Law.mk (Law.refl s)).same

theorem vectorUnmask_vector {s : State} {v : Nat} (h : v < 2048) : exec (.vectorUnmask (some v)) s = .next ((vectorOpen s v).pbaSend v) :=
  if_neg (Nat.not_le.mpr h)

/-! ### A BAR4 access that fails its check (R59) -/

theorem bar4CheckFailure_fails {s : State} {i : Nat} {p : Option Nat} (h : s.pageOk i p = false) (w : Bool) (off : Nat) :
    exec (.bar4CheckFailure i p w off) s =
      .next (if w then s.bar4Fail i p w off else (s.bar4Fail i p w off).say (.readReply i true)) :=
  if_neg (ne_true_of_eq_false h)

/-- The failure is counted, and the first one latched until the host clears it. -/
theorem bar4Fail_pci (s : State) (i : Nat) (p : Option Nat) (w : Bool) (off : Nat) :
    (s.bar4Fail i p w off).pci.faultCnt = satAdd 0xffffffff s.pci.faultCnt 1 ∧
    (s.pci.faultReg.getLsbD 63 = true → (s.bar4Fail i p w off).pci.faultReg = s.pci.faultReg) := by
  unfold State.bar4Fail
  dsimp only
  rw [(State.fire_law _ _ _ _ _ _).same .pci (by decide)]
  exact ⟨rfl, fun h => if_pos h⟩

/-- Settles O36: CC.EN set gives the admin queues or CFS; the link and the vectors send what waits for them. -/
theorem controllerAndLinkEventsAct : Obligations.ControllerAndLinkEventsAct := by
  intro s
  refine ⟨fun cc hlink hstop hd3 hoff hstage => ⟨fun hcss hsaved => ?_, fun hcss => ?_⟩, ?_,
    ⟨_, rfl, same_of_pci s _, rfl⟩, fun rate width flit hperst hpower hstop hok hcrown => ?_, fun d pme hlink => ?_, fun v hv => ?_, ?_,
    fun i p w off hfail => ?_, ⟨_, rfl, rfl⟩⟩
  · exact ⟨_, _, _, ccEnSet_starts hlink hstop hd3 hoff hstage hcss hsaved, adminQueues_same s cc, rfl, rfl, rfl, rfl, rfl, rfl, rfl, rfl, rfl⟩
  · exact ⟨_, ccEnSet_refuses hlink hstop hd3 hoff hcss, same_of_nvme s _, rfl⟩
  · refine ⟨_, rdyBound_acts s, ite_cases (P := Same [.nvme] s) (fun _ => same_of_nvme s _) fun _ => Same.refl _ _, ?_⟩
    simp only [Bool.and_eq_true, Bool.not_eq_true', and_assoc, apply_ite State.nvme]
  · let u := { s with pci := { s.pci with rate := rate, width := width, flit := flit } }.msiCatchUp
    have hu : Same [.pci, .out, .evt] s u := Same.seq (same_of_pci s _) (State.msiCatchUp_law _).same (by decide) (by decide)
    have hflush : Same [.out, .slices, .evt] u (forNats (u.slices.map (·.1)) u State.noticeFlush) :=
      forNats_same _ (fun t k => (State.noticeFlush_law t k).same) _ u
    obtain ⟨hwait, hrings⟩ := forNats_noticeFlush (u.slices.map (·.1)) u
    have hlink : State.linkUp { s with pci := { s.pci with rate := rate, width := width, flit := flit } } = true :=
      bne_iff_ne.mpr (linkOk_rate hok)
    refine ⟨_, pcieLinkUp_trains hperst hpower hstop hok hcrown, Same.seq hu hflush (by decide) (by decide), ?_,
      hwait.trans (msiCatchUp_none hlink), fun k => (hrings k).trans ?_⟩
    · exact (hflush .pci (by decide)).trans ((State.msiCatchUp_law _).same .pci (by decide))
    · rw [slice_of_slices (hu .slices (by decide))]
  · exact ⟨_, if_neg (by simp [hlink]), same_of_pci s _, rfl⟩
  · refine ⟨_, vectorUnmask_vector hv, Same.seq (vectorOpen_same s v) (State.pbaSend_law (vectorOpen s v) v).same (by decide) (by decide),
      (pbaSend_masks (vectorOpen s v) v).1, fun hpba hmask hlink hstop => ?_⟩
    have hvec : (vectorOpen s v).evt.unmasked.contains v = true := (insNat_contains v v _).trans (by simp)
    rw [pbaSend_sends (s := vectorOpen s v) hpba hmask hvec hlink hstop]
    exact ⟨rfl, rfl⟩
  · obtain ⟨hvecs, hmask⟩ := forNats_pbaSend_masks s.evt.pba (functionOpen s)
    exact ⟨_, vectorUnmask_function s, Same.seq (functionOpen_same s) (forNats_same _ (fun t k => (State.pbaSend_law t k).same) _ _)
      (by decide) (by decide), hmask, hvecs⟩
  · obtain ⟨hcount, hlatch⟩ := bar4Fail_pci s i p w off
    have hsame := (State.bar4Fail_law s i p w off).same
    refine ⟨_, bar4CheckFailure_fails hfail w off, ?_⟩
    cases w with
    | true => exact ⟨hsame, hcount, hlatch, nofun⟩
    | false => exact ⟨Same.seq hsame (State.say_law ..).same (by decide) (by decide), hcount, hlatch, fun _ => ⟨_, rfl⟩⟩

end Sys2Proof.Proofs
end

section
/-! PROOFS. What a chip reset keeps, and the save of a shutdown notification (R64, R371, R380, R490, R493). -/

namespace Sys2Proof.Proofs

open Sys2Proof Sys2Proof.Machine Sys2Proof.Safety Sys2Proof.Laws

/-! ### Chip resets (R371, R380, R490, R493) -/

/-- What a chip reset does whatever its cause: storage is kept, after a save with what it wrote, and the rest is at reset. -/
def ChipKept (s t : State) : Prop :=
  t.mtr = s.mtr ∧ t.nss = s.nss ∧ t.blocks = s.blocks ∧ t.flash = s.flash ∧ t.efl.words = s.efl.words ∧
    t.now = s.now ∧ t.zne.seedCur = s.zne.seedCur ∧
    t.ctxs = [] ∧ t.sqs = [] ∧ t.cqs = [] ∧ t.staging = [] ∧ t.gate.entries = [] ∧ t.upd.stage = 0 ∧ t.pci.rate = 0 ∧ t.efl.busy = false ∧
    t.pwr.st = State.reset.pwr.st ∧ t.nvme.cc = 0 ∧ t.drc = State.reset.drc ∧ t.lat = State.reset.lat ∧ t.side = State.reset.side ∧
    t.log.slots = [] ∧
    (s.brm.st = 4 → t.toks = s.toks ∧ t.key.owners = s.key.owners ∧ t.key.epoch = s.key.epoch ∧ t.gate.next = s.gate.next ∧
      t.gate.shared = s.gate.shared ∧ t.gate.localD = s.gate.localD ∧ t.gate.recs = s.gate.recs ∧ t.log.seq = s.log.seq ∧
      t.nv.savedLog = s.nv.savedLog ∧ t.out = s.out)

/-- What a chip reset finds: without a save the writes that wait for their commit are lost (R42). -/
def resetFinds (s : State) : State := if s.brm.st == 4 then s else s.loseWrites

theorem resetFinds_same (s : State) : Same [.out, .ctxs, .slices, .zones, .gate, .staging, .toks, .bpm, .dma, .sward, .dies, .fch, .par,
    .key, .evt, .log] s (resetFinds s) :=
  ite_cases (P := Same _ s) (fun _ => Same.refl _ _) fun _ => (State.loseWrites_law s).same

theorem chipReset_keeps (s : State) (c : RstCause) : ChipKept s (s.chipReset c) := by
  have h := resetFinds_same s
  have hwords : (resetFinds s).efl.words = s.efl.words := congrArg Efl.words (h .efl (by decide))
  have hseed : (resetFinds s).zne.seedCur = s.zne.seedCur := congrArg Zne.seedCur (h .zne (by decide))
  refine ⟨h .mtr (by decide), h .nss (by decide), h .blocks (by decide), h .flash (by decide), hwords,
    h .now (by decide), hseed, rfl, rfl, rfl, rfl, rfl, rfl, rfl, rfl, rfl, rfl, rfl, rfl, rfl, rfl,
    fun hsaved => ?_⟩
  unfold State.chipReset
  simp only [hsaved, beq_self_eq_true, if_true, and_self]

theorem glitchDetectorsArm_arms (s : State) : exec .glitchDetectorsArm s = .next
    (if s.powered = true ∧ ¬(s.brm.st = 4 ∧ s.nv.clean = true) then { s with evt := { s.evt with glitchArmed := true } } else s) :=
  (apply_ite Host.Outcome.next _ _ _).symm

/-! ### The save of a shutdown (R64, R380) -/

/-- A shutdown that is notified: the save starts, and SHST reads 0b01. -/
def shutdownNoted (s : State) (shn : Nat) : State :=
  { s.saveStart 3 with nvme := { (s.saveStart 3).nvme with
    shst := 1, cc := ((s.saveStart 3).nvme.cc &&& ~~~0xc000) ||| BitVec.ofNat 32 (shn * 2 ^ 14) } }

theorem shutdownNotification_saves {s : State} {shn : Nat} (hshn : shn = 1 ∨ shn = 2) (hadmin : s.gate.adminOk = true) (hsave : s.brm.st < 3) :
    exec (.shutdownNotification shn) s =
      .next (if (shutdownNoted s shn).draining then shutdownNoted s shn else (shutdownNoted s shn).shutDown) := by
  have hexec : exec (.shutdownNotification shn) s = execShutdownNotification shn s := rfl
  have hmod : shn % 4 = shn := by omega
  rw [hexec, execShutdownNotification, hmod, if_neg (by simp [hadmin]; omega), if_neg (by omega), if_neg (by omega)]
  rfl

/-- The end of the save of a shutdown: SHST reads 0b10. -/
theorem shutDown_done {s : State} (h : s.nvme.shst = 1) : s.shutDown.nvme.shst = 2 ∧ s.shutDown.nvme.shutDone = true := by
  have hshst : (s.saveFinish false).nvme.shst = 1 := (congrArg Nvme.shst ((State.saveFinish_law s false).same .nvme (by decide))).trans h
  unfold State.shutDown
  rw [if_pos hshst]
  exact ⟨rfl, rfl⟩

/-- Settles O37: every chip reset is the one reset, with its cause; a shutdown notification starts the save, and ends it where nothing drains. -/
theorem chipResetsKeepWhatPersists : Obligations.ChipResetsKeepWhatPersists := by
  intro s
  refine ⟨⟨_, rfl, chipReset_keeps s .por, rfl⟩, ⟨_, rfl, chipReset_keeps s .por, rfl⟩, fun hstop => ⟨_, if_pos hstop, chipReset_keeps s .aobor, rfl⟩,
    fun hsaved hkind => ⟨_, if_pos ⟨hsaved, hkind⟩, chipReset_keeps s .saved, rfl⟩, fun hsaved hkind => ⟨_, ?_, chipReset_keeps s .fatal, rfl⟩,
    ?_, fun shn hshn hadmin hsave => ?_⟩
  · exact (if_neg (by omega)).trans (if_pos ⟨hsaved, hkind⟩)
  · refine ⟨_, glitchDetectorsArm_arms s, ite_cases (P := Same [.evt] s) (fun _ => (Laws.Law.mk (Law.refl s)).same) fun _ => Same.refl _ _, fun hpower hclean => ?_⟩
    rw [if_pos ⟨hpower, hclean⟩]
  · refine ⟨_, shutdownNoted s shn, shutdownNotification_saves hshn hadmin hsave, rfl, same_of_nvme _ _, fun hdrain => if_pos hdrain, fun hdrain => ?_⟩
    rw [if_neg (ne_true_of_eq_false hdrain)]
    exact shutDown_done rfl

end Sys2Proof.Proofs
end

section
/-! PROOFS. I/O commands at their admission (R69, R114, R263, R309, R377). -/

namespace Sys2Proof.Proofs

open Sys2Proof Sys2Proof.Machine Sys2Proof.Safety Sys2Proof.Laws

/-! ### I/O commands enter the commit order (R69, R114) -/

/-- A zone send names a zone, and Select All one for each sequential zone, of which there is one (R147). -/
theorem zoneScopes_ne {α : Type} {b : Bool} {l : List α} (h : b = true → l ≠ []) (a : α) : (if b then l else [a]) ≠ [] := by
  cases b with
  | true => exact h rfl
  | false => exact List.cons_ne_nil a []

/-- A range of blocks gives its zone to the scopes of the command. -/
theorem dsmScopes_ne (s : State) (c : Nat) (x : Ctx) {ranges : List DsmRange} (h : ∃ r, r ∈ ranges ∧ r.nlb ≠ 0) :
    ((s.ioEntry c x .dsmE ranges).scopes ≠ []) := by
  obtain ⟨r, hr, hn⟩ := h
  intro hnil
  have hmem : zkey x.e.nsid (r.slba / s.zsze) ∈ (s.ioEntry c x .dsmE ranges).scopes :=
    List.mem_eraseDups.mpr (List.mem_map.mpr ⟨_, List.mem_filterMap.mpr ⟨r, hr, if_neg hn⟩, rfl⟩)
  rw [hnil] at hmem
  cases hmem

/-- Settles O23: every admitted command enters with its row's entry; a write draws its buffers and is charged, any other draws its pool. -/
theorem ioCommandsEnterTheCommitOrder : Obligations.IoCommandsEnterTheCommitOrder := by
  intro s c x ranges h entered
  refine ⟨?_, fun hopc hlen hsome => ?_, ?_⟩
  · rintro rfl
    have hzone : x.e.opc = 0x79 → (x.e.selAll = true → s.seqZones x.e.nsid ≠ []) → ∀ {row : SqEntry → Bool}, row x.e = true → ∀ {kind : EKind},
        (s.ioEntry c x kind []).scopes = (if x.e.selAll then s.seqZones x.e.nsid else [zkey x.e.nsid (x.e.slba / s.zsze)]) →
        ∃ t, Host.Outcome.next (s.admitIo c row kind []) = (Host.Outcome.next t : Host.Outcome State Fault Refusal) ∧ entered kind t :=
      fun hopc hall row hrow kind hscopes => ioAdmit_nonwrite h hrow (by rw [hopc]; rfl) (by simp [SqEntry.isWrite, hopc]) kind
        (by rw [hscopes]; exact zoneScopes_ne hall _)
    refine ⟨fun hopc => ?_, fun hopc => ?_, fun hopc => ?_, fun hopc hall => ⟨fun hzsa => ?_, fun hzsa => ?_, fun hzsa => ?_,
      fun hzsa hsan => ?_, fun hzsa hsan => ?_, fun hzsa => ?_⟩⟩
    · exact ioAdmit_nonwrite h (by simp [hopc]) (by rw [hopc]; rfl) (by simp [SqEntry.isWrite, hopc]) .flushE (List.cons_ne_nil _ _)
    · exact ioAdmit_nonwrite h (by simp [hopc]) (by rw [hopc]; rfl) (by simp [SqEntry.isWrite, hopc]) .readE (List.cons_ne_nil _ _)
    · exact ioAdmit_nonwrite h (by simp [hopc]) (by rw [hopc]; rfl) (by simp [SqEntry.isWrite, hopc]) .zmrE (List.cons_ne_nil _ _)
    · exact hzone hopc hall (by simp [hopc, hzsa]) rfl
    · exact hzone hopc hall (by simp [hopc, hzsa]) rfl
    · exact hzone hopc hall (by simp [hopc, hzsa]) rfl
    · exact hzone hopc hall (by simp [hopc, hzsa, hsan]) rfl
    · exact hzone hopc hall (by simp [hopc, hzsa, hsan]) rfl
    · exact hzone hopc hall (by simp [hopc, hzsa]) rfl
  · have hscopes := dsmScopes_ne s c x hsome
    refine ⟨fun hsan => ?_, fun hsan => ?_⟩
    · exact ioAdmit_nonwrite h (by simp [hopc, hsan, hlen]) (by rw [hopc]; rfl) (by simp [SqEntry.isWrite, hopc]) .dsmE hscopes
    · exact ioAdmit_nonwrite h (by simp [hopc, hsan, hlen]) (by rw [hopc]; rfl) (by simp [SqEntry.isWrite, hopc]) .sanDsmE hscopes
  · rintro o wrote rfl
    refine ⟨fun hopc => ?_, fun hopc => ?_⟩
    · exact ioAdmit_write h (by simp [hopc]) (by rw [hopc]; rfl) (by simp [SqEntry.isWrite, hopc]) .writeE (List.cons_ne_nil _ _)
    · exact ioAdmit_write h (by simp [hopc]) (by rw [hopc]; rfl) (by simp [SqEntry.isWrite, hopc]) .appendE (List.cons_ne_nil _ _)

end Sys2Proof.Proofs
end

section
/-! PROOFS. Heather's samples, the throttle, the taps and the replica paths (R44, R45, R387, R388, R393 to R396). -/

namespace Sys2Proof.Proofs

open Sys2Proof Sys2Proof.Machine Sys2Proof.Safety Sys2Proof.Laws

/-! ### What an evaluation keeps of a site -/

/-- Sites that agree apart from their windows agree in what a sample wrote. -/
theorem site_of_sameSites {s t : State} (h : SameSites s.thm t.thm) (k : Nat) :
    (t.site k).temp = (s.site k).temp ∧ (t.site k).read = (s.site k).read ∧ (t.site k).fast = (s.site k).fast ∧
      (t.site k).broken = (s.site k).broken ∧ (t.site k).cause = (s.site k).cause :=
  have hk : lessMarks (t.site k) = lessMarks (s.site k) := h k
  ⟨(congrArg Site.temp hk :), (congrArg Site.read hk :), (congrArg Site.fast hk :), (congrArg Site.broken hk :), (congrArg Site.cause hk :)⟩

theorem site_of_thm {s t : State} (h : t.thm = s.thm) (k : Nat) : t.site k = s.site k := congrArg (fun m : Thm => m.sites.get k {}) h

theorem region_of_regions {s t : State} (h : t.thm.regions = s.thm.regions) (r : Nat) : t.region r = s.region r :=
  congrArg (fun l : Tbl Region => l.get r {}) h

/-! ### A site breaks (R395, R396) -/

/-- A site that is marked broken, with the alarm and the sensor event. -/
def siteMarked (s : State) (k cause : Nat) : State :=
  ({ s with thm := { s.thm with aBroken := true } }.siteEdit k fun x => { x with broken := true, cause := cause }).fire 23

/-- The regions that the broken site holds. -/
def siteHeld (s : State) (k cause : Nat) : State := ((siteMarked s k cause).regionHold (k / 2)).regionHold 7

theorem siteBreak_eq (s : State) (k cause : Nat) : s.siteBreak k cause =
    if !s.allRead (k / 2) && (siteHeld s k cause).allRead (k / 2) && !((siteHeld s k cause).region (k / 2)).held
    then (siteHeld s k cause).firstBand (k / 2) else siteHeld s k cause := rfl

theorem siteMarked_thm (s : State) (k cause : Nat) : (siteMarked s k cause).thm =
    ({ s with thm := { s.thm with aBroken := true } }.siteEdit k fun x => { x with broken := true, cause := cause }).thm := fire_thm _ _ _ _ _ _

theorem siteMarked_site (s : State) (k cause : Nat) : (siteMarked s k cause).site k = { s.site k with broken := true, cause := cause } :=
  (site_of_thm (siteMarked_thm s k cause) k).trans (siteEdit_site _ _ _)

theorem siteHeld_site (s : State) (k cause : Nat) :
    (siteHeld s k cause).site k = { s.site k with broken := true, cause := cause } ∧ (siteHeld s k cause).thm.aBroken = true := by
  obtain ⟨hsites, habroken, -⟩ := hold_at (siteMarked s k cause) (k / 2)
  obtain ⟨hsites7, habroken7, -⟩ := hold_at ((siteMarked s k cause).regionHold (k / 2)) 7
  refine ⟨?_, habroken7.trans (habroken.trans (congrArg Thm.aBroken (siteMarked_thm s k cause)))⟩
  exact (congrArg (fun l : Tbl Site => l.get k {}) (hsites7.trans hsites)).trans (siteMarked_site s k cause)

theorem firstBand_aBroken (s : State) (r : Nat) : (s.firstBand r).thm.aBroken = s.thm.aBroken := by
  unfold State.firstBand
  split
  · exact (bandSet_spec s r _).2.1
  · rfl

theorem siteBreak_marks (s : State) (k cause : Nat) : (s.siteBreak k cause).thm.aBroken = true ∧
    SameSites (siteHeld s k cause).thm (s.siteBreak k cause).thm := by
  rw [siteBreak_eq]
  split
  · exact ⟨(firstBand_aBroken _ _).trans (siteHeld_site s k cause).2, firstBand_sites _ _⟩
  · exact ⟨(siteHeld_site s k cause).2, fun _ => rfl⟩

/-- The site is broken with its cause, its last reading kept. -/
theorem siteBreak_site (s : State) (k cause : Nat) :
    ((s.siteBreak k cause).site k).broken = true ∧ ((s.siteBreak k cause).site k).cause = cause ∧
      ((s.siteBreak k cause).site k).temp = (s.site k).temp ∧ ((s.siteBreak k cause).site k).read = (s.site k).read ∧
      ((s.siteBreak k cause).site k).fast = (s.site k).fast := by
  obtain ⟨htemp, hread, hfast, hbroken, hcause⟩ := site_of_sameSites (siteBreak_marks s k cause).2 k
  have hsite := (siteHeld_site s k cause).1
  rw [hsite] at htemp hread hfast hbroken hcause
  exact ⟨hbroken, hcause, htemp, hread, hfast⟩

/-- A region that is held stays as it is when a further site breaks; any other of regions 0 to 5 is held at band E (R396). -/
theorem siteBreak_region (s : State) {k : Nat} (hk : k < 12) (cause : Nat) :
    ((s.region (k / 2)).held = false → ((s.siteBreak k cause).region (k / 2)).held = true ∧
      ((s.siteBreak k cause).region (k / 2)).band = 4 ∧ (s.siteBreak k cause).lat.condBand = true) ∧
    ((s.region (k / 2)).held = true → (s.siteBreak k cause).region (k / 2) = s.region (k / 2)) := by
  let u := siteMarked s k cause
  have hu : u.region (k / 2) = s.region (k / 2) := region_of_regions (congrArg Thm.regions (siteMarked_thm s k cause)) _
  obtain ⟨-, -, -, hkeep, hhold, -⟩ := hold_at u (k / 2)
  obtain ⟨-, -, hothers, -, -, hcond⟩ := hold_at (u.regionHold (k / 2)) 7
  have h7 : (siteHeld s k cause).region (k / 2) = (u.regionHold (k / 2)).region (k / 2) := hothers _ (by omega)
  have hbreak : ((siteHeld s k cause).region (k / 2)).held = true → s.siteBreak k cause = siteHeld s k cause := fun h => by
    rw [siteBreak_eq, if_neg (by simp [h])]
  have hbroken : (u.site k).broken = true := congrArg Site.broken (siteMarked_site s k cause)
  have hregion : u.regionHeld (k / 2) = true := by
    unfold State.regionHeld
    rw [if_neg (by omega)]
    rcases (by omega : k = 2 * (k / 2) ∨ k = 2 * (k / 2) + 1) with e | e
    · rw [← e, hbroken, Bool.true_or]
    · rw [← e, hbroken, Bool.or_true]
  refine ⟨fun h => ?_, fun h => ?_⟩
  · obtain ⟨hheld, hband, hlat⟩ := hhold hregion (by rw [hu]; exact h)
    rw [← h7] at hheld hband
    rw [hbreak hheld]
    exact ⟨hheld, hband, hcond hlat⟩
  · have hsame : (siteHeld s k cause).region (k / 2) = s.region (k / 2) := h7.trans ((congrArg (State.region · (k / 2)) (hkeep (by rw [hu]; exact h))).trans hu)
    rw [hbreak (by rw [hsame]; exact h)]
    exact hsame

/-! ### A valid sample (R387, R388) -/

/-- A site with a new reading. -/
def siteRead (s : State) (k : Nat) (raw : Int) : State :=
  s.siteEdit k fun x => { x with temp := raw, read := true, fast := nearEdge s.inStop raw }

/-- A site whose reading is in the history of its rise. -/
def siteKept (s : State) (k : Nat) (raw : Int) : State :=
  (siteRead s k raw).siteEdit k fun x => { x with
    devFrom := (siteRead s k raw).devFrom k raw
    hist := ((s.now, ((siteRead s k raw).siteVal k).getD raw) :: x.hist).filter fun p => decide (s.now < p.1 + secNs * 5 / 4) }

theorem siteKept_site (s : State) (k : Nat) (raw : Int) : ∃ d l, (siteKept s k raw).site k =
    { s.site k with temp := raw, read := true, fast := nearEdge s.inStop raw, devFrom := d, hist := l } :=
  have hread : (siteRead s k raw).site k = { s.site k with temp := raw, read := true, fast := nearEdge s.inStop raw } := siteEdit_site _ _ _
  ⟨(siteRead s k raw).devFrom k raw, _, (siteEdit_site _ _ _).trans (by rw [hread])⟩

theorem siteKept_site_ne (s : State) {k j : Nat} (raw : Int) (h : j ≠ k) : (siteKept s k raw).site j = s.site j :=
  (siteEdit_site_ne _ _ h).trans (siteEdit_site_ne _ _ h)

/-- A sample is evaluated, or breaks its site where the reading has long differed from the median (R395). -/
theorem siteSample_cases (s : State) (k : Nat) (raw : Int) :
    s.siteSample k raw = (siteKept s k raw).siteBreak k 5 ∨ s.siteSample k raw = (siteKept s k raw).sampleEval k (!(s.site k).read) := by
  unfold State.siteSample
  dsimp only
  split
  · split
    · exact .inl rfl
    · exact .inr rfl
  · exact .inr rfl

theorem siteSample_evaluates (s : State) {k : Nat} (hk : k < 14) (raw : Int) :
    s.siteSample k raw = (siteKept s k raw).sampleEval k (!(s.site k).read) := by
  have hdev : (siteRead s k raw).devFrom k raw = none := by
    unfold State.devFrom
    rw [if_neg (by omega)]
  unfold State.siteSample
  dsimp only
  split
  · next heq => cases heq.symm.trans hdev
  · rfl

theorem siteSample_site (s : State) (k : Nat) (raw : Int) : ((s.siteSample k raw).site k).temp = raw ∧
    ((s.siteSample k raw).site k).read = true ∧ ((s.siteSample k raw).site k).fast = nearEdge s.inStop raw := by
  obtain ⟨d, l, hkept⟩ := siteKept_site s k raw
  rcases siteSample_cases s k raw with h | h
  · obtain ⟨-, -, htemp, hread, hfast⟩ := siteBreak_site (siteKept s k raw) k 5
    rw [h, htemp, hread, hfast, hkept]
    exact ⟨rfl, rfl, rfl⟩
  · obtain ⟨htemp, hread, hfast, -⟩ := site_of_sameSites (sampleEval_sites (siteKept s k raw) k (!(s.site k).read)) k
    rw [h, htemp, hread, hfast, hkept]
    exact ⟨rfl, rfl, rfl⟩

/-- The band and the taps of the region of a sample. -/
def bandsEval (s : State) (k : Nat) (first : Bool) (v : Int) : State :=
  if !s.allRead (k / 2) || (s.region (k / 2)).held then s
  else if first then (s.firstBand (k / 2)).tapEval (k / 2) k v
  else (s.bandEval (k / 2) k v).tapEval (k / 2) k v

theorem sampleEval_of_val {s : State} {k : Nat} {v : Int} (h : s.siteVal k = some v) (first : Bool) :
    s.sampleEval k first = ((((bandsEval s k first v).medianEval k).riseEval k).floorEval).thermEval := by
  unfold State.sampleEval
  split
  · next heq => cases heq.symm.trans h
  · next heq =>
    cases heq.symm.trans h
    rfl

theorem bandsEval_sites (s : State) (k : Nat) (first : Bool) (v : Int) : SameSites s.thm (bandsEval s k first v).thm := by
  unfold bandsEval
  split
  · exact fun _ => rfl
  · split
    · exact (firstBand_sites _ _).trans (tapEval_readings _ _ _ _).ess
    · exact (bandEval_spec _ _ _ _).1.trans (tapEval_readings _ _ _ _).ess

/-- What a sample of H0 to H13 leaves: the floor and THERM_N of its reading, and the region as its band evaluation left it. -/
theorem sampleEval_ends {s : State} {k : Nat} {v : Int} (hk : k < 14) (h : s.rawOf k = some v) (first : Bool) :
    let t := s.sampleEval k first
    t.thm.floor ≤ t.thm.step ∧ (degC 110 ≤ v → t.thm.floor = 7 ∧ 7 ≤ t.thm.step) ∧ (degC 120 ≤ v → t.thm.thermN = true) ∧
      t.region (k / 2) = (bandsEval s k first v).region (k / 2) := by
  have hval : s.siteVal k = some v := (if_neg (by omega)).trans h
  let u := (bandsEval s k first v).medianEval k
  obtain ⟨hmedian, hregions⟩ := median_eval (bandsEval s k first v) k
  have hraw : u.rawOf k = some v := (rawOf_of_sites ((bandsEval_sites s k first v).trans hmedian) k).trans h
  obtain ⟨hsame, hfloor, hhot⟩ := evals_spec u k
  obtain ⟨h110, h120⟩ := hhot v hk hraw
  rw [sampleEval_of_val hval]
  exact ⟨hfloor, h110, h120, (region_of_regions hsame.reg _).trans (hregions _ (by omega))⟩

end Sys2Proof.Proofs
end

section
/-! PROOFS. The thermal manager: samples and their regions, the throttle, the taps and the replica paths (R44, R45, R387 to R396). -/

namespace Sys2Proof.Proofs

open Sys2Proof Sys2Proof.Machine Sys2Proof.Safety Sys2Proof.Laws

/-! ### Regions that are read (R388) -/

theorem mem_validSites {s : State} {r j : Nat} (hj : j = 2 * r ∨ j = 2 * r + 1) (hb : (s.site j).broken = false) : j ∈ s.validSites r := by
  unfold State.validSites State.siteValid
  simp [hj, hb]

theorem allRead_false {s : State} {r j : Nat} (hj : j = 2 * r ∨ j = 2 * r + 1) (hb : (s.site j).broken = false)
    (hread : (s.site j).read = false) : s.allRead r = false :=
  List.all_eq_false.mpr ⟨j, mem_validSites hj hb, by simp [hb, hread]⟩

theorem allRead_true {s : State} {r : Nat} (h : ∀ j, j = 2 * r ∨ j = 2 * r + 1 → (s.site j).broken = false ∧ (s.site j).read = true) :
    s.allRead r = true := by
  refine List.all_eq_true.mpr fun j hj => ?_
  have hmem : j = 2 * r ∨ j = 2 * r + 1 := by simpa using (List.mem_filter.mp hj).1
  simp [(h j hmem).1, (h j hmem).2]

/-- Until both sites of a region are read, its band stays (R388). -/
theorem bandsEval_unread {s : State} {k : Nat} (h : s.allRead (k / 2) = false) (first : Bool) (v : Int) : bandsEval s k first v = s :=
  if_pos (by simp [h])

/-- A later sample of a region that is read and not held leaves it as the band evaluation does. -/
theorem bandsEval_later {s : State} {k : Nat} (h : s.allRead (k / 2) = true) (hheld : (s.region (k / 2)).held = false) (v : Int) :
    (bandsEval s k false v).region (k / 2) = (s.bandEval (k / 2) k v).region (k / 2) := by
  unfold bandsEval
  rw [if_neg (by simp [h, hheld]), if_neg Bool.false_ne_true]
  exact region_of_regions (tapEval_readings _ _ _ _).reg _

/-! ### A sample (R387 to R396) -/

/-- A sample before the host hears of it: its site breaks, or its reading is taken. -/
def siteSampled (s : State) (k : Nat) (raw : Int) (bias : Bias) : State :=
  if s.breakCause k raw bias ≠ 0 then (s.siteBreak k (s.breakCause k raw bias)).floorEval else s.siteSample k raw

/-- The event of a Temperature Threshold that has just been crossed (R72). -/
def thresholdTold (s u : State) : State := if !s.tempCrossed && u.tempCrossed then u.aenRaise 1 1 0x02 else u

theorem heatherSample_ignored {s : State} {k : Nat} (h : 16 ≤ k ∨ (s.site k).broken = true) (raw : Int) (bias : Bias) :
    exec (.heatherSample k raw bias) s = .next s := if_pos h

theorem heatherSample_samples {s : State} {k : Nat} (hk : k < 16) (hb : (s.site k).broken = false) (raw : Int) (bias : Bias) :
    exec (.heatherSample k raw bias) s = .next (thresholdTold s (siteSampled s k raw bias)) :=
  if_neg (by simp [hb]; omega)

theorem siteSampled_same (s : State) (k : Nat) (raw : Int) (bias : Bias) :
    Same [.out, .lat, .thm, .evt, .log] s (siteSampled s k raw bias) :=
  ite_cases (P := Same [.out, .lat, .thm, .evt, .log] s)
    (fun _ => Same.seq (State.siteBreak_law ..).same (State.floorEval_law _).same (by decide) (by decide)) fun _ => (State.siteSample_law ..).same

theorem thresholdTold_same (s u : State) : Same [.nvme, .sqs, .qrecs, .ctxs] u (thresholdTold s u) :=
  ite_cases (P := Same [.nvme, .sqs, .qrecs, .ctxs] u) (fun _ => (State.aenRaise_law ..).same) fun _ => Same.refl _ _

/-- No threshold, no event of one. -/
theorem tempCrossed_of_none {s : State} (hover : s.nvme.tempOver = []) (hunder : s.nvme.tempUnder = []) : s.tempCrossed = false := by
  unfold State.tempCrossed
  rw [hover, hunder]
  refine List.any_eq_false.mpr fun k _ => ?_
  split <;> simp [Tbl.look]

theorem thresholdTold_of_none {s u : State} (hover : u.nvme.tempOver = []) (hunder : u.nvme.tempUnder = []) : thresholdTold s u = u :=
  if_neg (by simp [tempCrossed_of_none hover hunder])

/-- A valid sample of H0 to H13, its floor, its limit and the band of its region (R388, R393, R394). -/
theorem siteSample_regions (s : State) {k : Nat} (hk : k < 14) (hb : (s.site k).broken = false) (raw : Int) :
    let r := k / 2
    let old := (s.region r).band
    let t := s.siteSample k raw
    (t.site k).broken = false ∧ t.thm.floor ≤ t.thm.step ∧
    (degC 110 ≤ raw → t.thm.floor = 7 ∧ 7 ≤ t.thm.step) ∧ (degC 120 ≤ raw → t.thm.thermN = true) ∧
    ((s.site (4 * r + 1 - k)).broken = false → (s.site (4 * r + 1 - k)).read = false → (t.region r).band = old) ∧
    ((s.site k).read = true → (s.site (4 * r + 1 - k)).broken = false → (s.site (4 * r + 1 - k)).read = true → (s.region r).held = false →
      (old < bandOf raw → (t.region r).band = bandOf raw) ∧
      (bandOf raw ≤ old → bandEdge old < raw + degC 3 → (t.region r).band = old) ∧
      (∀ a b, bandOf raw ≤ old → 0 < old → raw + degC 3 ≤ bandEdge old → (s.site k).coolFrom = some a → (s.site (4 * r + 1 - k)).coolFrom = some b →
        a + secNs ≤ s.now → b + secNs ≤ s.now → (t.region r).band = old - 1)) := by
  intro r old t
  have hpair : k = 2 * r ∨ k = 2 * r + 1 := by omega
  have hother : 4 * r + 1 - k = 2 * r ∨ 4 * r + 1 - k = 2 * r + 1 := by omega
  have hne : 4 * r + 1 - k ≠ k := by omega
  let u := siteKept s k raw
  obtain ⟨d, l, hsite⟩ := siteKept_site s k raw
  have hubroken : (u.site k).broken = false := (congrArg Site.broken hsite).trans hb
  have huother : u.site (4 * r + 1 - k) = s.site (4 * r + 1 - k) := siteKept_site_ne s raw hne
  have hraw : u.rawOf k = some raw := by
    unfold State.rawOf
    rw [hsite]
    simp [hb]
  have ht : t = u.sampleEval k (!(s.site k).read) := siteSample_evaluates s hk raw
  obtain ⟨-, -, -, hbroken, -⟩ := site_of_sameSites (sampleEval_sites u k (!(s.site k).read)) k
  obtain ⟨hfloor, h110, h120, hregion⟩ := sampleEval_ends hk hraw (!(s.site k).read)
  rw [ht]
  refine ⟨hbroken.trans hubroken, hfloor, h110, h120, fun hob hor => ?_, fun hread hob hor hheld => ?_⟩
  · have hall : u.allRead r = false := allRead_false hother (by rw [huother]; exact hob) (by rw [huother]; exact hor)
    rw [hregion, bandsEval_unread hall]
    rfl
  · have hall : u.allRead r = true := by
      refine allRead_true fun j hj => ?_
      by_cases hjk : j = k
      · rw [hjk]
        exact ⟨hubroken, congrArg Site.read hsite⟩
      · rw [(by omega : j = 4 * r + 1 - k), huother]
        exact ⟨hob, hor⟩
    obtain ⟨hrise, hstay, hfall⟩ := (bandEval_spec u r k raw).2 hheld hubroken hpair
    rw [hregion, hread, Bool.not_true, bandsEval_later hall hheld]
    refine ⟨hrise, hstay, fun a b hle hpos hedge hca hcb ha hb => hfall a b hle hpos hedge ?_ ?_ ?_ ha hb⟩
    · exact (congrArg Site.coolFrom hsite).trans hca
    · rw [huother]
      exact hob
    · rw [huother]
      exact hcb

/-- The floor after a broken site moves the throttle, no site and no region. -/
theorem floorEval_keeps (s : State) (k r : Nat) : (s.floorEval.site k).broken = (s.site k).broken ∧ (s.floorEval.site k).cause = (s.site k).cause ∧
    s.floorEval.region r = s.region r ∧ s.floorEval.thm.aBroken = s.thm.aBroken ∧ s.floorEval.lat = s.lat := by
  obtain ⟨hsame, -, -⟩ := floorEval_spec s
  obtain ⟨-, -, -, hbroken, hcause⟩ := site_of_sameSites hsame.ess k
  exact ⟨hbroken, hcause, region_of_regions hsame.reg r, hsame.br, (State.floorEval_law s).same .lat (by decide)⟩

/-! ### The throttle, the taps, the replica paths (R44, R45, R393) -/

theorem tapRegion_iff (r : Nat) : tapRegion r = true ↔ r = 0 ∨ r = 1 ∨ r = 2 ∨ r = 4 ∨ r = 7 := by
  simp [tapRegion, or_assoc]

theorem tapChange_takes {s : State} {r : Nat} (h : tapRegion r = true) :
    exec (.tapChange r) s = .next { s with thm := { s.thm with taps := s.thm.taps.put r (s.thm.tapsDue.get r 4) } } := if_pos h

theorem tapChange_none {s : State} {r : Nat} (h : tapRegion r = false) : exec (.tapChange r) s = .next s := if_neg (ne_true_of_eq_false h)

theorem stepDown_steps {s : State} (hcalm : s.thm.calmSince.isSome = true) (hfloor : s.thm.floor < s.thm.step)
    (hlast : s.thm.lastStepAt ≠ some s.now) :
    exec .stepDown s = .next { s with thm := { s.thm with step := s.thm.step - 1, calmSince := some s.now } } :=
  if_pos ⟨hcalm, hfloor, hlast⟩

theorem stepDown_none {s : State} (h : s.thm.calmSince = none ∨ s.thm.step ≤ s.thm.floor) : exec .stepDown s = .next s := by
  refine if_neg fun ⟨hcalm, hfloor, _⟩ => ?_
  rcases h with h | h
  · rw [h] at hcalm
    cases hcalm
  · omega

/-- A handshake of a replica path that failed, counted. -/
def marginCounted (s : State) : State := { s with thm := { s.thm with marginCnt := satAdd 0xffffffff s.thm.marginCnt 1 } }

theorem replicaPathFailure_counts (s : State) (r : Nat) : exec (.replicaPathFailure r) s =
    .next ((marginCounted s).fire 1 [satAdd 0xffffffff s.thm.marginCnt 1]) := rfl

/-- Settles O53: a sample breaks its site or is evaluated; the throttle, the taps and the margin count each change their own field. -/
theorem thermalManagerActs : Obligations.ThermalManagerActs := by
  intro s
  refine ⟨fun k raw bias h => heatherSample_ignored h raw bias, fun k raw bias hk hb => ?_, fun hcalm hfloor hlast => stepDown_steps hcalm hfloor hlast,
    fun h => stepDown_none h, fun r hr => tapChange_takes ((tapRegion_iff r).mpr hr),
    fun r hr => tapChange_none (eq_false_of_ne_true fun h => hr ((tapRegion_iff r).mp h)), fun r => ?_⟩
  · let u := siteSampled s k raw bias
    have hu := siteSampled_same s k raw bias
    have htold := thresholdTold_same s u
    have hthm : (thresholdTold s u).thm = u.thm := htold .thm (by decide)
    have hsite := site_of_thm hthm k
    have hregion := region_of_regions (congrArg Thm.regions hthm) (k / 2)
    refine ⟨_, heatherSample_samples hk hb raw bias, Same.seq hu htold (by decide) (by decide), fun hover hunder => ?_, fun hc => ?_, fun hc => ?_,
      fun hc hk14 => ?_⟩
    · have hnvme : u.nvme = s.nvme := hu .nvme (by decide)
      rw [thresholdTold_of_none (u := u) (by rw [hnvme]; exact hover) (by rw [hnvme]; exact hunder)]
      exact Same.mono hu (by decide)
    · have he : u = (s.siteBreak k (s.breakCause k raw bias)).floorEval := if_pos hc
      obtain ⟨hbroken, hcause, hreg, halarm, hlat⟩ := floorEval_keeps (s.siteBreak k (s.breakCause k raw bias)) k (k / 2)
      obtain ⟨hb1, hc1, -⟩ := siteBreak_site s k (s.breakCause k raw bias)
      rw [hsite, hthm, hregion, htold .lat (by decide), he, hbroken, hcause, hreg, halarm, hlat]
      exact ⟨hb1, hc1, (siteBreak_marks s k _).1, fun hk12 => (siteBreak_region s hk12 _).1, fun hk12 => (siteBreak_region s hk12 _).2⟩
    · have he : u = s.siteSample k raw := if_neg (not_not_intro hc)
      rw [hsite, he]
      exact siteSample_site s k raw
    · have he : u = s.siteSample k raw := if_neg (not_not_intro hc)
      dsimp only
      rw [hsite, hthm, hregion, he]
      exact siteSample_regions s hk14 hb raw
  · have hfire := (State.fire_law (marginCounted s) 1 [satAdd 0xffffffff s.thm.marginCnt 1] 0 0x7ff none).same
    have hmargin : Same [.thm] s (marginCounted s) := (Laws.Law.mk (Law.refl s)).same
    exact ⟨_, replicaPathFailure_counts s r, Same.seq hmargin hfire (by decide) (by decide), hfire .thm (by decide)⟩

end Sys2Proof.Proofs
end

section
/-! PROOFS. A media event behind entries of lower stamps, and an operation that ends (R22, R33, R38). -/

namespace Sys2Proof.Proofs

open Sys2Proof Sys2Proof.Machine Sys2Proof.Safety Sys2Proof.Laws

/-! ### Media events that wait (R33, R38) -/

/-- Nothing of the stamped sequence commits while the first entry is a command. -/
theorem mediaRun_of_command {s : State} {k : Nat} {e : Entry} {l : Tbl Entry} (h : s.gate.entries = (k, e) :: l) (he : e.sys = none) :
    ∀ n, State.mediaRun n s = s
  | 0 => rfl
  | n + 1 => by
    unfold State.mediaRun
    rw [h]
    simp only [he, Option.bind_none]

theorem mediaRun_of_noSystem {s : State} (h : NoSystem s.gate.entries) (n : Nat) : State.mediaRun n s = s := by
  cases hl : s.gate.entries with
  | nil =>
    cases n with
    | zero => rfl
    | succ n =>
      unfold State.mediaRun
      rw [hl]
  | cons p l => exact mediaRun_of_command hl (h p (by rw [hl]; exact .head l)) n

/-- A media event behind a command: it is stamped, and no more. -/
theorem mediaEvent_waits {s : State} {k : Nat} {e : Entry} {l : Tbl Entry} (h : s.gate.entries = (k, e) :: l) (he : e.sys = none)
    (hk : k < s.gate.next) (ev : SysEv) : s.mediaEvent ev = s.enterSys ev := by
  have hput : (s.enterSys ev).gate.entries = (k, e) :: l.put s.gate.next
      { kind := .sysE, ctx := 65536, owner := 1025, nsid := 0, scopes := [chipScope], sys := some ev } := by
    rw [enterSys_entries, h, Tbl.put, if_neg (by omega), if_neg (by omega)]
  exact mediaRun_of_command hput he _

/-- What the statement says of a media event: it is stamped, and behind a command it waits. -/
def MediaStamped (u : State) (ev : SysEv) (t : State) : Prop := t = u.mediaEvent ev ∧
  ∀ k e l, u.gate.entries = (k, e) :: l → e.sys = none → k < u.gate.next →
    Same [.gate, .dma] u t ∧ t.gate.next = u.gate.next + 1 ∧ t.gate.entries = u.gate.entries.put u.gate.next
      { kind := .sysE, ctx := 65536, owner := 1025, nsid := 0, scopes := [chipScope], sys := some ev }

theorem mediaEvent_stamped (u : State) (ev : SysEv) : MediaStamped u ev (u.mediaEvent ev) := by
  refine ⟨rfl, fun k e l h he hk => ?_⟩
  rw [mediaEvent_waits h he hk]
  exact ⟨(State.enterSys_law u ev).same, rfl, enterSys_entries u ev⟩

/-! ### An operation that ends (R22) -/

/-- An edit that keeps an idle die idle. -/
theorem dieEdit_idle {s : State} {dk : Nat} (h : (s.die dk).running = none) (k : Nat) {f : Die → Die}
    (hf : ∀ d, d.running = none → (f d).running = none) : ((s.dieEdit k f).die dk).running = none := by
  unfold State.die State.dieEdit Tbl.get at *
  by_cases hk : dk = k
  · subst hk
    cases hd : s.dies.look dk with
    | none =>
      unfold Tbl.edit
      simp only [hd, Option.getD_none]
    | some d =>
      rw [hd] at h
      dsimp only
      rw [Tbl.look_edit _ hd]
      exact hf d h
  · dsimp only
    rw [Tbl.look_edit_ne _ _ hk]
    exact h

theorem slotGive_idle {s : State} {dk : Nat} (h : (s.die dk).running = none) (k : Nat) : ((s.slotGive k).die dk).running = none := by
  unfold State.slotGive
  split
  · split
    · exact dieEdit_idle h k fun _ hd => hd
    · exact h
  · exact h

theorem die_of_dies {s t : State} (h : t.dies = s.dies) (dk : Nat) : t.die dk = s.die dk := congrArg (fun l : Tbl Die => l.get dk {}) h

theorem bufDrops_dies (l : List Nat) (s : State) : (l.foldl State.bufDrop s).dies = s.dies :=
  foldl_same (r := [.bpm]) _ (fun u k => Same.mono (State.bufDrop_law u k).same (by decide)) l s .dies (by decide)

/-- An operation that leaves its table, with its slot and its holds. -/
def opLeft (s : State) (id : Nat) (o : Op) : State :=
  { s with fch := { s.fch with ops := s.fch.ops.del id }, dies := s.dies.edit o.die fun d => d.without id }

theorem opEnd_of_look {s : State} {id : Nat} {o : Op} (h : s.fch.ops.look id = some o) :
    s.opEnd id = (o.holds.foldl State.bufDrop ((opLeft s id o).slotGive o.die)).rdGive 1025 o.lend := by
  unfold State.opEnd
  rw [h]
  rfl

theorem opEnd_fch {s : State} {id : Nat} {o : Op} (h : s.fch.ops.look id = some o) :
    (s.opEnd id).fch = { s.fch with ops := s.fch.ops.del id } := by
  rw [opEnd_of_look h]
  obtain ⟨hfch, -⟩ := bufDrops_keep o.holds ((opLeft s id o).slotGive o.die)
  exact hfch.trans ((State.slotGive_law (opLeft s id o) o.die).same .fch (by decide))

theorem opEnd_idle {s : State} {id dk : Nat} {o : Op} (h : s.fch.ops.look id = some o) (hd : (s.die dk).running = none) :
    ((s.opEnd id).die dk).running = none := by
  rw [opEnd_of_look h]
  have hleft : ((opLeft s id o).die dk).running = none :=
    dieEdit_idle hd o.die fun d hd => ite_cases (P := (· = none)) (fun _ => rfl) fun _ => hd
  have hdies : ((o.holds.foldl State.bufDrop ((opLeft s id o).slotGive o.die)).rdGive 1025 o.lend).dies = ((opLeft s id o).slotGive o.die).dies :=
    bufDrops_dies o.holds _
  rw [die_of_dies hdies]
  exact slotGive_idle hleft o.die

/-- The die of an operation at its end, and the operation gone. -/
def opEnded (s : State) (op : Nat) (o : Op) : State := (s.dieIdle o.die op).opEnd op

section Ended
variable {s : State} {op : Nat} {o : Op} (hop : s.fch.ops.look op = some o)
include hop

theorem dieIdle_ops : (s.dieIdle o.die op).fch.ops.look op = some o := by
  rw [(State.dieIdle_law s o.die op).same .fch (by decide)]
  exact hop

theorem opEnded_fch : (opEnded s op o).fch = { s.fch with ops := s.fch.ops.del op } := by
  rw [opEnded, opEnd_fch (dieIdle_ops hop), (State.dieIdle_law s o.die op).same .fch (by decide)]

theorem opEnded_chans : (opEnded s op o).fch.chans = s.fch.chans := by rw [opEnded_fch hop]

theorem opEnded_idle {d : Die} (hd : s.dies.look o.die = some d) (hr : d.running = some op) : ((opEnded s op o).die o.die).running = none :=
  opEnd_idle (dieIdle_ops hop) (dieIdle_running hd hr)

omit hop in
theorem opEnded_same : Same [.dies, .mtr, .bpm, .fch] s (opEnded s op o) :=
  Same.seq (State.dieIdle_law s o.die op).same (State.opEnd_law _ op).same (by decide) (by decide)

end Ended

/-- The die that runs an operation, as the model reads it. -/
theorem die_running {s : State} {dk op : Nat} {d : Die} (hd : s.dies.look dk = some d) (hr : d.running = some op) :
    ((s.die dk).running != some op) = false := by
  rw [show s.die dk = d from get_of_look hd {}, hr]
  exact bne_self_eq_false _

/-! ### Programs (R22, R190) -/

section Programs
variable {s : State} {op : Nat} {o : Op} {d : Die} (hop : s.fch.ops.look op = some o) (hread : o.isRead = false) (herase : o.isErase = false)
  (hkind : o.kind ≠ .progZero) (hd : s.dies.look o.die = some d) (hr : d.running = some op)

/-- A failed program: its channel counts it, and it waits for its media event. -/
def programFailed (s : State) (op : Nat) (o : Op) : State :=
  ((s.dieIdle o.die op).chnEdit (dieChannel (dkDie o.die)) fun c => { c with progFail := satAdd 0xffff c.progFail 1 }).opEdit op fun o =>
    { o with failed := true }

include hop hread herase hkind hd hr

theorem pageProgramComplete_fails (hw : o.withdrawn = false) (temp : Nat) :
    exec (.pageProgramComplete op false temp) s = .next (programFailed s op o) := by
  have hexec : exec (.pageProgramComplete op false temp) s = execPageProgramComplete op false temp s := rfl
  rw [hexec, execPageProgramComplete, hop]
  simp only [hread, herase, die_running hd hr, hkind, hw, Bool.or_self, Bool.false_eq_true, if_false, Bool.not_false, if_true]
  rfl

theorem pageProgramComplete_passes (temp : Nat) : exec (.pageProgramComplete op true temp) s =
    .next (if o.withdrawn then (opEnded s op o).noteRow o.die o.block temp o.slcMode
      else ((opEnded s op o).noteRow o.die o.block temp o.slcMode).opContent o) := by
  have hexec : exec (.pageProgramComplete op true temp) s = execPageProgramComplete op true temp s := rfl
  rw [hexec, execPageProgramComplete, hop]
  simp only [hread, herase, die_running hd hr, hkind, Bool.or_self, Bool.false_eq_true, if_false, Bool.not_true, if_true]
  rfl

end Programs

theorem programFailed_keeps {s : State} {op : Nat} {o : Op} {d : Die} (hop : s.fch.ops.look op = some o) (hd : s.dies.look o.die = some d)
    (hr : d.running = some op) : (programFailed s op o).fch.ops = s.fch.ops.put op { o with failed := true } ∧
      ((programFailed s op o).die o.die).running = none ∧ (programFailed s op o).blocks = s.blocks ∧
      ((programFailed s op o).chn (dieChannel (dkDie o.die))).progFail = satAdd 0xffff (s.chn (dieChannel (dkDie o.die))).progFail 1 := by
  have hfch : (s.dieIdle o.die op).fch = s.fch := (State.dieIdle_law s o.die op).same .fch (by decide)
  have hops : (programFailed s op o).fch.ops = (s.dieIdle o.die op).fch.ops.edit op fun o => { o with failed := true } := rfl
  have hchn : (programFailed s op o).chn (dieChannel (dkDie o.die)) = ((s.dieIdle o.die op).chnEdit (dieChannel (dkDie o.die)) fun c =>
      { c with progFail := satAdd 0xffff c.progFail 1 }).chn (dieChannel (dkDie o.die)) := rfl
  refine ⟨?_, dieIdle_running hd hr, (State.dieIdle_law s o.die op).same .blocks (by decide), ?_⟩
  · rw [hops, hfch]
    exact edit_eq_put hop _
  · rw [hchn, chnEdit_chn, chn_of_chans (congrArg Fch.chans hfch)]

/-- The block counts the row that was programmed (R181). -/
theorem noteRow_rows (s : State) (dk b temp : Nat) (slc : Bool) :
    ((s.noteRow dk b temp slc).blk (blkKey dk b)).rows = (s.blk (blkKey dk b)).rows + 1 := by
  unfold State.noteRow
  exact congrArg BInfo.rows (blkEdit_blk s (blkKey dk b) _)

end Sys2Proof.Proofs
end

section
/-! PROOFS. Programs, erases, their failures, timeouts and retraining (R22, R33, R151, R176, R177, R190 to R192, R197). -/

namespace Sys2Proof.Proofs

open Sys2Proof Sys2Proof.Machine Sys2Proof.Safety Sys2Proof.Laws

/-! ### Erases (R151, R191, R197) -/

/-- A block in no sanitizing set settles nothing. -/
theorem setDone_of_noSet {s : State} {bk : Nat} (hsani : s.nvme.saniErase.contains bk = false)
    (hctxs : s.ctxs.any (fun _ x => x.eraseSet.contains bk) = false) (bad : Bool) :
    s.setDone bk bad = { s with fch := { s.fch with eraseList := s.fch.eraseList.filter (· != bk) } } := by
  unfold State.setDone
  rw [keysWhere_eq_nil hctxs]
  exact if_neg (ne_true_of_eq_false hsani)

/-- Where no entry passes a test, none passes a stronger one. -/
theorem keysWhere_of_none {α : Type} {p q : Nat → α → Bool} {t : Tbl α} (h : t.any p = false) (hpq : ∀ k v, q k v = true → p k v = true) :
    t.keysWhere q = [] := by
  refine keysWhere_eq_nil ?_
  simp only [Tbl.any, List.any_eq_false] at h ⊢
  exact fun x hx hq => h x hx (hpq x.1 x.2 hq)

theorem rebKick_of_empty {s : State} (h : s.par.queue = []) : s.rebKick = s := by
  have hhead : s.rebHead = none := by
    unfold State.rebHead
    rw [h]
    rfl
  unfold State.rebKick
  rw [hhead]

/-- Nothing waits for an SLC block, and nothing is to be rebuilt. -/
theorem slcWaiters_of_none {s : State} (hslc : s.zones.any (fun _ z => z.slcWant) = false) (hqueue : s.par.queue = []) (dk : Nat) :
    s.slcWaiters dk = s := by
  unfold State.slcWaiters
  rw [keysWhere_of_none hslc]
  · exact rebKick_of_empty hqueue
  · intro k z h
    simp only [Bool.and_eq_true] at h
    exact h.1.1

/-- While no stamp can be issued, the crown stamps no failure of a die whose retired blocks are too many. -/
theorem retireCheck_unstamped {s : State} (hcrown : s.cas.crown = true) (hstamp : s.canStamp = false) (dk : Nat) : s.retireCheck dk = s := by
  unfold State.retireCheck
  simp only [hcrown, hstamp, Bool.not_true, Bool.false_and, Bool.false_eq_true, if_false, ite_self]

theorem canStamp_of_gate {s t : State} (hgate : t.gate = s.gate) (hcas : t.cas = s.cas) : t.canStamp = s.canStamp := by
  unfold State.canStamp State.exhausted
  rw [hgate, hcas]

section Erases
variable {s : State} {op : Nat} {o : Op} {d : Die} (hop : s.fch.ops.look op = some o) (hkind : o.kind = .erase)
  (hd : s.dies.look o.die = some d) (hr : d.running = some op)
include hop hkind hd hr

theorem blockEraseComplete_passes : exec (.blockEraseComplete op true) s =
    let t := ((((opEnded s op o).erased o.die o.block).setDone (blkKey o.die o.block) false).slcWaiters o.die).retireCheck o.die
    .next (State.mediaRun (t.gate.entries.length + 64) t) := by
  have hexec : exec (.blockEraseComplete op true) s = execBlockEraseComplete op true s := rfl
  have herase : o.isErase = true := by
    rw [Op.isErase, hkind]
    rfl
  rw [hexec, execBlockEraseComplete, hop]
  simp only [herase, die_running hd hr, Bool.not_true, Bool.false_and, Bool.or_self, Bool.false_eq_true, if_false, if_true]
  rfl

/-- A failed erase, counted by its channel. -/
def eraseFailed (s : State) (op : Nat) (o : Op) : State :=
  (opEnded s op o).chnEdit (dieChannel (dkDie o.die)) fun c => { c with eraseFail := satAdd 0xffff c.eraseFail 1 }

theorem blockEraseComplete_fails (hcrown : s.cas.crown = true) (hstamp : s.canStamp = true) :
    exec (.blockEraseComplete op false) s = .next ((eraseFailed s op o).mediaEvent (.blockFail (blkKey o.die o.block) 2 true)) := by
  have hexec : exec (.blockEraseComplete op false) s = execBlockEraseComplete op false s := rfl
  have herase : o.isErase = true := by
    rw [Op.isErase, hkind]
    rfl
  rw [hexec, execBlockEraseComplete, hop]
  simp only [herase, die_running hd hr, hcrown, hstamp, Bool.not_true, Bool.and_false, Bool.or_self, Bool.false_eq_true, if_false, if_true]
  rfl

omit hkind hd hr in
theorem blockEraseComplete_waits (hcrown : s.cas.crown = true) (hstamp : s.canStamp = false) :
    exec (.blockEraseComplete op false) s = .next s := by
  have hexec : exec (.blockEraseComplete op false) s = execBlockEraseComplete op false s := rfl
  rw [hexec, execBlockEraseComplete, hop]
  simp only [hcrown, hstamp, Bool.not_false, Bool.and_self, Bool.or_true, if_true]

end Erases

theorem erased_slcWant {s : State} (h : s.zones.any (fun _ z => z.slcWant) = false) (dk b : Nat) :
    (s.erased dk b).zones.any (fun _ z => z.slcWant) = false := by
  unfold State.erased Tbl.mapV
  simp only [Tbl.any, List.any_eq_false] at h ⊢
  intro p hp
  obtain ⟨q, hq, rfl⟩ := List.mem_map.mp hp
  exact ite_cases (P := fun z : Zone => ¬z.slcWant = true) (fun _ => h q hq) fun _ => h q hq

/-- A block that is erased, and in no list of erases. -/
def eraseSettled (s : State) (op : Nat) (o : Op) : State :=
  { (opEnded s op o).erased o.die o.block with
    fch := { (opEnded s op o).fch with eraseList := (opEnded s op o).fch.eraseList.filter (· != blkKey o.die o.block) } }

/-- An erase that passes, with nothing that waits for the block: the operation is gone, and the block is free as its record says. -/
theorem blockEraseComplete_frees {s : State} {op : Nat} {o : Op} {d : Die} (hop : s.fch.ops.look op = some o) (hkind : o.kind = .erase)
    (hd : s.dies.look o.die = some d) (hr : d.running = some op) (hset : s.inSet (blkKey o.die o.block) = false)
    (hslc : s.zones.any (fun _ z => z.slcWant) = false) (hqueue : s.par.queue = []) (hcrown : s.cas.crown = true) (hstamp : s.canStamp = false)
    (hsys : NoSystem s.gate.entries) :
    exec (.blockEraseComplete op true) s = .next (eraseSettled s op o) := by
  simp only [State.inSet, Bool.or_eq_false_iff] at hset
  obtain ⟨⟨hsani, -⟩, hctxs⟩ := hset
  have hended := opEnded_same (s := s) (op := op) (o := o)
  have hsame : Same [.dies, .mtr, .bpm, .fch, .zones, .blocks, .flash] s ((opEnded s op o).erased o.die o.block) :=
    Same.seq hended (State.erased_law (opEnded s op o) o.die o.block).same (by decide) (by decide)
  have hfch : ((opEnded s op o).erased o.die o.block).fch = (opEnded s op o).fch := (State.erased_law _ _ _).same .fch (by decide)
  refine (blockEraseComplete_passes hop hkind hd hr).trans (congrArg Host.Outcome.next ?_)
  have hsettled : ((opEnded s op o).erased o.die o.block).setDone (blkKey o.die o.block) false = eraseSettled s op o := by
    rw [setDone_of_noSet (by rw [hsame .nvme (by decide)]; exact hsani) (by rw [hsame .ctxs (by decide)]; exact hctxs), hfch]
    rfl
  let v := eraseSettled s op o
  have hwant : v.zones.any (fun _ z => z.slcWant) = false :=
    erased_slcWant (by rw [hended .zones (by decide)]; exact hslc) o.die o.block
  have hgate : v.gate = s.gate := hsame .gate (by decide)
  have hcas : v.cas = s.cas := hsame .cas (by decide)
  have hpar : v.par = s.par := hsame .par (by decide)
  rw [hsettled, slcWaiters_of_none (s := v) hwant (by rw [hpar]; exact hqueue),
    retireCheck_unstamped (s := v) (by rw [hcas]; exact hcrown) ((canStamp_of_gate hgate hcas).trans hstamp),
    mediaRun_of_noSystem (s := v) (by rw [hgate]; exact hsys)]

/-- The record of a block that has been erased (R181). -/
def erasedRec (x : BInfo) : BInfo :=
  { x with
    unerased := false, rows := 0, ptOpen := 0, ptClose := 0, samples := 0, tpSum := 0, taken := 0
    st := if x.retire ≠ 0 then 14 else if x.st = 1 then 0 else if x.st = 5 then 4 else x.st }

theorem erased_blk (s : State) (dk b : Nat) : (s.erased dk b).blk (blkKey dk b) = erasedRec (s.blk (blkKey dk b)) :=
  blkEdit_blk (s.flashWipe (blkKey dk b)) (blkKey dk b) erasedRec

/-! ### Failures (R177, R190, R192) -/

theorem programFailure_stamps {s : State} {die block row : Nat} {o : Op} (hcrown : s.cas.crown = true) (hstamp : s.canStamp = true)
    (hgood : s.dieGood die = true) {id : Nat} (hop : s.fch.ops.look id = some o) (hfail : o.failed = true) (hdie : o.die = die)
    (hblock : o.block = block) (hrow : o.row = row)
    (hnew : s.gate.entries.any (fun _ e => e.sys == some (.blockFail (blkKey die block) 1 false)) = false) :
    exec (.programFailure die block row) s = .next (s.mediaEvent (.blockFail (blkKey die block) 1 false)) := by
  have hexec : exec (.programFailure die block row) s = execProgramFailure die block row s := rfl
  have hany : (s.fch.ops.any fun _ o => o.failed && o.die == die && o.block == block && o.row == row) = true :=
    List.any_eq_true.mpr ⟨(id, o), mem_of_look hop, by simp [hfail, hdie, hblock, hrow]⟩
  have hwaits : s.eventWaits (fun e => e == .blockFail (blkKey die block) 1 false) = false := by
    simp only [State.eventWaits, Tbl.any, List.any_eq_false] at hnew ⊢
    intro p hp hev
    refine hnew p hp ?_
    cases hsys : p.2.sys with
    | none =>
      rw [hsys] at hev
      cases hev
    | some ev =>
      rw [hsys] at hev
      rw [beq_iff_eq.mp hev, beq_self_eq_true]
  rw [hexec, execProgramFailure, hany, hwaits]
  simp only [hgood, hcrown, hstamp, Bool.not_true, Bool.not_false, Bool.or_self, Bool.and_self, Bool.false_eq_true, if_false, if_true]

theorem dieFailure_stamps {s : State} {die cause : Nat} (hgood : s.dieGood die = true) (hcrown : s.cas.crown = true) (hstamp : s.canStamp = true) :
    exec (.dieFailure die cause) s = .next (s.mediaEvent (.dieFail die cause)) :=
  (if_neg (by simp [hcrown])).trans (if_pos (by simp [hgood, hstamp]))

theorem dieFailure_reports {s : State} {die cause : Nat} (hgood : s.dieGood die = true) (hcrown : s.cas.crown = false) :
    exec (.dieFailure die cause) s = .next (s.casSend 0 3 0x40 16 [0, die, cause]) :=
  (if_pos (by simp [hcrown])).trans (congrArg Host.Outcome.next (if_pos hgood))

/-- A first timeout, counted by its channel and told (R177). -/
def timeoutTold (s : State) (ch : Nat) : State :=
  (s.chnEdit ch fun c => { c with timeouts := satAdd 0xffff c.timeouts 1 }).fire (32 + ch)

/-- The operation is issued once more. -/
def opReissued (s : State) (op : Nat) (o : Op) : State :=
  ((timeoutTold s (dieChannel (dkDie o.die))).opEdit op fun o => { o with retried := true, startAt := s.now, suspTime := 0 }).dieEdit o.die fun d =>
    { d with suspending := false }

theorem operationTimeout_reissues {s : State} {op : Nat} {o : Op} {d : Die} (hop : s.fch.ops.look op = some o) (hd : s.dies.look o.die = some d)
    (hr : d.running = some op) (hfirst : o.retried = false) : exec (.operationTimeout op) s = .next (opReissued s op o) := by
  have hexec : exec (.operationTimeout op) s = execOperationTimeout op s := rfl
  rw [hexec, execOperationTimeout, hop]
  simp only [die_running hd hr, hfirst, Bool.false_and, Bool.or_self, Bool.false_eq_true, if_false]
  rfl

theorem timeoutTold_fch (s : State) (ch : Nat) : (timeoutTold s ch).fch = { s.fch with chans := (s.fch.chans.upd ch {} fun c =>
    { c with timeouts := satAdd 0xffff c.timeouts 1 }) } := (State.fire_law _ _ _ _ _ _).same .fch (by decide)

theorem timeoutTold_chn (s : State) (ch : Nat) : (timeoutTold s ch).chn ch = { s.chn ch with timeouts := satAdd 0xffff (s.chn ch).timeouts 1 } := by
  have hfire := (State.fire_law (s.chnEdit ch fun c => { c with timeouts := satAdd 0xffff c.timeouts 1 }) (32 + ch) [] 0 0x7ff none).same
  rw [timeoutTold, chn_of_chans (congrArg Fch.chans (hfire .fch (by decide))), chnEdit_chn]

theorem timeoutTold_same (s : State) (ch : Nat) : Same [.fch, .out, .evt, .log] s (timeoutTold s ch) :=
  Same.seq (State.chnEdit_law ..).same (State.fire_law ..).same (by decide) (by decide)

/-! ### Retraining (R176) -/

/-- A channel that has trained at a timing set. -/
def chnTrained (s : State) (ch k rd wr : Nat) : State :=
  (s.chnEdit ch fun c => { c with retrains := satAdd 1023 c.retrains 1 }).chnEdit ch fun c => { c with trainSet := k, eyeRd := rd, eyeWr := wr }

theorem chnTrained_chn (s : State) (ch k rd wr : Nat) : (chnTrained s ch k rd wr).chn ch =
    { s.chn ch with retrains := satAdd 1023 (s.chn ch).retrains 1, trainSet := k, eyeRd := rd, eyeWr := wr } := by
  rw [chnTrained, chnEdit_chn, chnEdit_chn]

theorem chnTrained_same (s : State) (ch k rd wr : Nat) : Same [.fch] s (chnTrained s ch k rd wr) := by
  unfold chnTrained
  exact Same.seq (State.chnEdit_law ..).same (State.chnEdit_law ..).same (by decide) (by decide)

theorem channelRetrain_trains {s : State} {ch : Nat} {pass : Bool} {eyeRd eyeWr : Nat} {later : List (Option (Nat × Nat))} {k rd wr : Nat}
    (hactive : (s.chn ch).active = true) (htrain : (s.chn ch).train (s.media (·.eyeMin))
      (eyesFrom (s.chn ch).trainSet pass eyeRd eyeWr later) (s.chn ch).trainSet = some (k, rd, wr)) :
    exec (.channelRetrain ch pass eyeRd eyeWr later) s = .next (if k = (s.chn ch).trainSet then chnTrained s ch k rd wr
      else (chnTrained s ch k rd wr).fire (32 + ch) [((chnTrained s ch k rd wr).chn ch).trainReg]) := by
  have hexec : exec (.channelRetrain ch pass eyeRd eyeWr later) s = execChannelRetrain ch pass eyeRd eyeWr later s := rfl
  rw [hexec, execChannelRetrain]
  simp only [hactive, htrain, Bool.not_true, Bool.false_eq_true, if_false]
  rfl

/-- Settles O39: an end takes its operation off its die; a failure is a stamped media event; a first timeout and a retrain are counted. -/
theorem programsErasesAndFailures : Obligations.ProgramsErasesAndFailures := by
  intro s stamped
  refine ⟨fun op o d temp hop hread herase hkind hd hr => ⟨fun hw => ?_, ?_⟩,
    fun op o d hop hkind hd hr => ⟨fun hset hslc hqueue hcrown hstamp hsys => ?_, fun hcrown hstamp => ?_, fun hcrown hstamp => ?_⟩,
    fun die block row o hcrown hstamp hgood ⟨id, hop⟩ hfail hdie hblock hrow hnew => ?_, fun die cause hgood => ⟨fun hcrown hstamp => ?_, fun hcrown => ?_⟩,
    fun op o d hop hd hr hfirst => ?_, fun ch pass eyeRd eyeWr later k rd wr hactive htrain => ?_⟩
  · exact ⟨_, pageProgramComplete_fails hop hread herase hkind hd hr hw temp, programFailed_keeps hop hd hr⟩
  · have hnote : Same [.blocks] (opEnded s op o) ((opEnded s op o).noteRow o.die o.block temp o.slcMode) := (State.noteRow_law ..).same
    have hended := opEnded_same (s := s) (op := op) (o := o)
    refine ⟨(opEnded s op o).noteRow o.die o.block temp o.slcMode, pageProgramComplete_passes hop hread herase hkind hd hr temp, ?_, ?_, ?_, ?_⟩
    · rw [hnote .fch (by decide), opEnded_fch hop]
    · rw [die_of_dies (hnote .dies (by decide))]
      exact opEnded_idle hop hd hr
    · exact (hnote .zones (by decide)).trans (hended .zones (by decide))
    · rw [noteRow_rows, blk_of_blocks (hended .blocks (by decide))]
  · refine ⟨_, blockEraseComplete_frees hop hkind hd hr hset hslc hqueue hcrown hstamp hsys, congrArg Fch.ops (opEnded_fch hop), ?_⟩
    refine (erased_blk (opEnded s op o) o.die o.block).trans ?_
    rw [blk_of_blocks ((opEnded_same (s := s) (op := op) (o := o)) .blocks (by decide))]
    rfl
  · have hended := opEnded_same (s := s) (op := op) (o := o)
    have hcount : Same [.fch] (opEnded s op o) (eraseFailed s op o) := (State.chnEdit_law ..).same
    refine ⟨_, eraseFailed s op o, blockEraseComplete_fails hop hkind hd hr hcrown hstamp, mediaEvent_stamped _ _, ?_, ?_, ?_, ?_⟩
    · exact congrArg Fch.ops (opEnded_fch hop)
    · exact (hcount .blocks (by decide)).trans (hended .blocks (by decide))
    · exact (hcount .gate (by decide)).trans (hended .gate (by decide))
    · rw [eraseFailed, chnEdit_chn, chn_of_chans (opEnded_chans hop)]
  · exact blockEraseComplete_waits hop hcrown hstamp
  · exact ⟨_, programFailure_stamps hcrown hstamp hgood hop hfail hdie hblock hrow hnew, mediaEvent_stamped _ _⟩
  · exact ⟨_, dieFailure_stamps hgood hcrown hstamp, mediaEvent_stamped _ _⟩
  · exact dieFailure_reports hgood hcrown
  · let u := timeoutTold s (dieChannel (dkDie o.die))
    have hfch : u.fch = _ := timeoutTold_fch s (dieChannel (dkDie o.die))
    have hops : u.fch.ops.look op = some o := (congrArg (fun f : Fch => f.ops.look op) hfch).trans hop
    have hreissue : Same [.fch, .dies] u (opReissued s op o) := Same.seq (State.opEdit_law ..).same (State.dieEdit_law ..).same (by decide) (by decide)
    refine ⟨_, operationTimeout_reissues hop hd hr hfirst, Same.seq (timeoutTold_same s _) hreissue (by decide) (by decide), ?_, ?_⟩
    · have hput : (opReissued s op o).fch.ops = u.fch.ops.put op { o with retried := true, startAt := s.now, suspTime := 0 } := edit_eq_put hops _
      rw [hput, hfch]
    · exact congrArg Chn.timeouts (timeoutTold_chn s (dieChannel (dkDie o.die)))
  · have htrained := chnTrained_same s ch k rd wr
    refine ⟨_, channelRetrain_trains hactive htrain, ?_⟩
    split
    · exact ⟨Same.mono htrained (by decide), fun _ => htrained, chnTrained_chn s ch k rd wr⟩
    · next hk =>
      have hfire := (State.fire_law (chnTrained s ch k rd wr) (32 + ch) [((chnTrained s ch k rd wr).chn ch).trainReg] 0 0x7ff none).same
      refine ⟨Same.seq htrained hfire (by decide) (by decide), fun h => absurd h hk, ?_⟩
      rw [chn_of_chans (congrArg Fch.chans (hfire .fch (by decide)))]
      exact chnTrained_chn s ch k rd wr

end Sys2Proof.Proofs
end

section
/-! PROOFS. What a read, a write and a commit of the crown do when a member answers (R21, R187, R239, R331, R446). -/

namespace Sys2Proof.Proofs

open Sys2Proof Sys2Proof.Machine Sys2Proof.Safety Sys2Proof.Laws

/-! ### A write that is staged completes (R21) -/

/-- Alternatives that change leave every command in its phase. -/
theorem altsMap_look {s : State} {c : Nat} {x : Ctx} (h : s.ctxs.look c = some x) (f : List Alt → List Alt) :
    ∃ y, (s.altsMap f).ctxs.look c = some y ∧ y.phase = x.phase := by
  unfold State.altsMap
  dsimp only
  rw [look_mapV, h]
  exact ⟨_, rfl, ite_cases (P := fun y : Ctx => y.phase = x.phase) (fun _ => rfl) fun _ => rfl⟩

/-- The command of a write ends with success when its last unit is staged. -/
theorem stageDone_completes {s : State} {stamp : Nat} {st : Staged} {x : Ctx} (hst : s.staging.look stamp = some st)
    (hx : s.ctxs.look st.ctx = some x) (hp : x.phase ≠ .done) :
    ∃ y, (s.stageDone stamp).ctxs.look st.ctx = some y ∧ y.phase = .done ∧ y.status = some stOk := by
  let u := ({ s with staging := s.staging.put stamp { st with complete := true } }).tokCommit st.owner stamp
  have hu : u.ctxs.look st.ctx = some x := hx
  unfold State.stageDone
  rw [hst]
  dsimp only
  generalize hf : altsDone stamp st.kix st.zone st.off _ st.data = f
  obtain ⟨z, hz, hphase⟩ := altsMap_look hu f
  have hdone := finish_ctxs hz (by rw [hphase]; exact hp) stOk 0 0 0
  have hlook : ∃ y, (((u.altsMap f).finish st.ctx stOk).ctxs.look st.ctx) = some y ∧ y.phase = .done ∧ y.status = some stOk := by
    rw [hdone, Tbl.look_put]
    exact ⟨_, rfl, rfl, rfl⟩
  split
  · rw [(State.releaseUnits_law _ stamp _).same .ctxs (by decide)]
    exact hlook
  · split
    all_goals
      rw [(State.rowsStart_law _ st.zone _ _).same .ctxs (by decide), (State.zoneEdit_law _ st.zone _).same .ctxs (by decide)]
      exact hlook

/-! ### A read that stops, and a unit that is released (R187, R239, R240) -/

theorem rdReturn_look {s : State} {c : Nat} {x : Ctx} (h : s.ctxs.look c = some x) :
    (s.rdReturn c).ctxs.look c = some { x with readDraw := 0 } := by
  unfold State.rdReturn
  rw [h]
  exact Tbl.look_edit _ h

/-- A read that stops keeps its command, which holds no units any more. -/
theorem readStop_look {s : State} {c : Nat} {x : Ctx} (h : s.ctxs.look c = some x) :
    (s.readStop c).ctxs.look c = some { x with readDraw := 0, runits := [] } := by
  unfold State.readStop
  rw [h]
  dsimp only
  generalize s.fch.ops.keysWhere (fun _ o => o.kind.ofRead c none) = ids
  have hops : (forNats ids s fun s id => (s.opLend id (s.opKeeps id)).opDrop id).ctxs = s.ctxs :=
    forNats_ctxs (fun u id => (State.opDrop_law (u.opLend id (u.opKeeps id)) id).same .ctxs (by decide)) ids s
  generalize (forNats ids s fun s id => (s.opLend id (s.opKeeps id)).opDrop id) = u at hops
  have hholds : (x.runits.foldl (fun s r => match r.2.hold with | some b => s.bufDrop b | none => s) u).ctxs = u.ctxs := by
    refine foldl_same (r := [.bpm]) _ (fun v p => ?_) x.runits u .ctxs (by decide)
    split
    · exact (State.bufDrop_law v _).same
    · exact Same.refl _ _
  refine Tbl.look_edit _ (rdReturn_look ?_)
  exact (congrArg (Tbl.look · c) (hholds.trans hops)).trans h

/-- An unrecovered unit ends the command that reads it (R187). -/
theorem unrecovered_ends {s : State} {c : Nat} {x : Ctx} (h : s.ctxs.look c = some x) (hp : x.phase ≠ .done) (hserves : s.serves c = false) (u : Nat) :
    ∃ y, (s.unrecovered c u).ctxs.look c = some y ∧ y.phase = .done ∧ y.status = some stUnrecovered := by
  have hlost : ∀ v : State, v.ctxs = s.ctxs → ∃ y, (((v.readStop c).ctxEdit c fun x => { x with failed := true }).finish c stUnrecovered).ctxs.look c =
      some y ∧ y.phase = .done ∧ y.status = some stUnrecovered := fun v hv => by
    have hstop : ((v.readStop c).ctxEdit c fun x => { x with failed := true }).ctxs.look c =
        some { x with readDraw := 0, runits := [], failed := true } := Tbl.look_edit _ (readStop_look (by rw [hv]; exact h))
    rw [finish_ctxs hstop hp, Tbl.look_put]
    exact ⟨_, rfl, rfl, rfl⟩
  unfold State.unrecovered
  dsimp only
  rw [hserves, if_neg Bool.false_ne_true]
  refine hlost _ (((State.fire_law _ 167 [] 0 0x7ff none).same .ctxs (by decide)).trans ?_)
  dsimp only
  split <;> rfl

/-- A unit whose helper reads are withdrawn keeps the rest. -/
theorem helpersGone_runit {s : State} {c u : Nat} {r : RUnit} (h : s.runit c u = some r) :
    (s.helpersGone c u).runit c u = some { r with lent := 0, helpers := 0 } := by
  have hgone : ∀ (l : List Nat), (forNats l s fun s id => (s.opLend id (min 1 (s.opKeeps id))).opUnitGone u id).runit c u = some r := fun l =>
    (runit_of_ctxs (forNats_ctxs (fun v id => (State.opUnitGone_law (v.opLend id (min 1 (v.opKeeps id))) u id).same .ctxs (by decide)) l s) c u).trans h
  unfold State.helpersGone
  dsimp only
  split
  · next r' hr =>
    cases hr.symm.trans (hgone _)
    exact runitEdit_runit ((runit_of_ctxs ((State.rdGive_law _ _ _).same .ctxs (by decide)) c u).trans hr) _
  · next hr => cases hr.symm.trans (hgone _)

/-- A unit that no operation reads is released: it is ready, and its fence goes out (R239). -/
theorem unitRelease_readies {s : State} {c u : Nat} {r : RUnit} (h : s.runit c u = some r) (hserves : s.serves c = false) :
    (s.unitRelease c u false).runit c u =
      some { r with lent := 0, helpers := 0, st := .ready, op := none, around := false, recon := false } ∧
    (2, relTag c u) ∈ (s.unitRelease c u false).dma.fences := by
  have hcount : ∀ v : State, v.ctxs = s.ctxs → ((v.helpersGone c u).runitEdit c u fun q =>
      { q with st := .ready, op := none, around := false, recon := false }).runit c u =
      some { r with lent := 0, helpers := 0, st := .ready, op := none, around := false, recon := false } := fun v hv =>
    runitEdit_runit (helpersGone_runit ((runit_of_ctxs hv c u).trans h)) _
  unfold State.unitRelease
  rw [h]
  dsimp only
  rw [hserves, if_neg Bool.false_ne_true, if_neg Bool.false_ne_true]
  refine ⟨hcount _ ?_, List.mem_append_right _ (List.mem_singleton.mpr rfl)⟩
  split
  · rfl
  · split
    · exact (State.latCount_law s 5).same .ctxs (by decide)
    · split
      · rfl
      · exact (State.latCount_law s 4).same .ctxs (by decide)

/-! ### A commit that ends for want of a vote (R446) -/

/-- A commit that is over, before its event and its command's end. -/
def commitOver (s : State) : State :=
  { s with nv := { s.nv with commitAct := 0, commitCtx := none, copying := false }, cas := { s.cas with voteStep := 0 } }

theorem commitEnd_ended (s : State) (st : Status) : (s.commitEnd (some st)).cas.voteStep = 0 ∧ (s.commitEnd (some st)).nv.commitAct = 0 ∧
    (s.commitEnd (some st)).nv.pldmSelf = false ∧ (s.commitEnd (some st)).nv.failCount = s.nv.failCount := by
  have hfire := (State.fire_law (commitOver s) 209 [] 0 0x7ff none).same
  have hcas : ((commitOver s).fire 209).cas = (commitOver s).cas := hfire .cas (by decide)
  have hnv : ((commitOver s).fire 209).nv = (commitOver s).nv := hfire .nv (by decide)
  have hstep := (congrArg Cas.voteStep hcas).trans rfl
  have hact := (congrArg Nv.commitAct hnv).trans rfl
  have hcount := (congrArg Nv.failCount hnv).trans rfl
  unfold State.commitEnd
  dsimp only
  split
  · next k _ =>
    have hfin := fun u : State => (State.finish_law u k st 0 0 0).same
    rw [hfin _ .cas (by decide), hfin _ .nv (by decide)]
    exact ⟨hstep, hact, rfl, hcount⟩
  · exact ⟨hstep, hact, rfl, hcount⟩

theorem voteAbort_ended (s : State) (st : Status) : (s.voteAbort st).cas.voteStep = 0 ∧ (s.voteAbort st).nv.commitAct = 0 ∧
    (s.voteAbort st).nv.pldmSelf = false ∧ (s.voteAbort st).nv.failCount = s.nv.failCount := by
  unfold State.voteAbort
  have hsent := Sent.fold s.linkedMembers (fun (u : State) c => u.casSend (portOf c) 3 0x42 0 [3]) (fun u c => Sent.send u _ _ _ _ _) s
  obtain ⟨hstep, hact, hself, hcount⟩ := commitEnd_ended (s.linkedMembers.foldl (fun (u : State) c => u.casSend (portOf c) 3 0x42 0 [3]) s) st
  exact ⟨hstep, hact, hself, hcount.trans (congrArg Nv.failCount (hsent.same .nv (by decide)))⟩

theorem failRecOf_count (s : State) (chip stage code slot fromRev toRev : Nat) :
    (s.failRecOf chip stage code slot fromRev toRev).nv.failCount = s.nv.failCount + 1 := by
  unfold State.failRecOf
  exact congrArg Nv.failCount ((State.fire_law _ 210 [] 0 0x7ff none).same .nv (by decide))

end Sys2Proof.Proofs
end

section
/-! PROOFS. What the crown does with the frames of its members (R187, R329, R331, R333, R335, R336, R446). -/

namespace Sys2Proof.Proofs

open Sys2Proof Sys2Proof.Machine Sys2Proof.Safety Sys2Proof.Laws

/-! ### A frame of a member on its turn -/

theorem crownIn_on_turn {s : State} {f : Frame} (hc : s.cas.crown = true) (h : FrameTurn s f 5) (go : State → Nat → State) :
    s.crownIn f go = go (frameTaken s f) (f.port + 1) :=
  (if_pos hc).trans (frameIn_on_turn h)

theorem zoneChip_of {s t : State} (h : t.zones = s.zones) (zk : Nat) : t.zoneChip zk = s.zoneChip zk := by
  unfold State.zoneChip State.zone
  rw [h]

theorem eventWaits_of {s t : State} (h : t.gate = s.gate) (f : SysEv → Bool) : t.eventWaits f = s.eventWaits f := by
  unfold State.eventWaits
  rw [h]

theorem dieGood_of {s t : State} (h : t.dies = s.dies) (d : Nat) : t.dieGood d = s.dieGood d := by
  unfold State.dieGood
  rw [h]

section Turn
variable {s : State} {f : Frame} {m : Member} (hc : s.cas.crown = true) (hturn : FrameTurn s f 5)
  (hm : s.cas.members.look (f.port + 1) = some m)

theorem frameTaken_gate : (frameTaken s f).gate = s.gate := frameTaken_same s f .gate (by decide)

theorem frameTaken_zoneChip {zk : Nat} : (frameTaken s f).zoneChip zk = s.zoneChip zk := zoneChip_of (frameTaken_same s f .zones (by decide)) zk

include hm in
theorem frameTaken_member : (frameTaken s f).member (f.port + 1) = { m with contact := s.now } := get_of_look (frameTaken_look hm) {}

/-! ### STAGED (R21, R331) -/

include hc hturn hm in
/-- STAGED for a write of this member's chip that still runs: discarded once a fence is stamped, or the member is not ACTIVE. -/
theorem staged_acts {stamp : Nat} {st : Staged} (hst : s.staging.look stamp = some st) (hzone : s.zoneChip st.zone = f.port + 1)
    (hopen : st.complete = false) (hdata : st.n ≤ st.data.length) :
    exec (.staged f stamp) s = .next (if m.st ≠ .active ∨ s.fenceStamped (f.port + 1) = true then frameTaken s f
      else ((frameTaken s f).stageDone stamp).releaseUnits stamp (List.range st.n)) := by
  have hstaged : (frameTaken s f).staging.look stamp = some st := by
    rw [frameTaken_same s f .staging (by decide)]
    exact hst
  have hguard : (m.st ≠ .active ∨ s.fenceStamped (f.port + 1) = true ∨ (frameTaken s f).zoneChip st.zone ≠ f.port + 1 ∨ st.complete = true ∨
      st.data.length < st.n) ↔ (m.st ≠ .active ∨ s.fenceStamped (f.port + 1) = true) := by
    rw [frameTaken_zoneChip, hzone, hopen]
    simp [Nat.not_lt.mpr hdata]
  have hfence : (frameTaken s f).fenceStamped (f.port + 1) = s.fenceStamped (f.port + 1) := eventWaits_of frameTaken_gate _
  refine congrArg Host.Outcome.next ((crownIn_on_turn hc hturn _).trans ?_)
  rw [hstaged]
  dsimp only
  rw [frameTaken_member hm, hfence]
  exact if_congr hguard rfl rfl

/-! ### READ_DATA (R187, R239) -/

/-- A unit that waits for its member comes back with its content, or as one that the member cannot read. -/
def unitReturned (s : State) (f : Frame) (ctx unit : Nat) (content : Option Nat) (md : Nat) : State :=
  match content with
  | some v => ((s.flits (ubpelPort f.port) (sramPort unit) unitFlits).runitEdit ctx unit fun q => { q with made := some (unitWord v md) }).unitRelease ctx unit false
  | none => s.unrecovered ctx unit

include hc hturn in
theorem readData_returns {ctx unit : Nat} {x : Ctx} {r : RUnit} (hx : s.ctxs.look ctx = some x) (hp : x.phase = .stamped) (hop : x.e.opc = 2)
    (hr : x.runits.look unit = some r) (hst : r.st = .queued) (hfree : r.op = none) (hzone : s.zoneChip x.zone = f.port + 1)
    (content : Option Nat) (md : Nat) :
    exec (.readData f ctx unit content md) s = .next (unitReturned (frameTaken s f) f ctx unit content md) := by
  have hctx : (frameTaken s f).ctxs.look ctx = some x := by
    rw [frameTaken_same s f .ctxs (by decide)]
    exact hx
  have hread : ¬(x.e.opc = 0xca ∧ x.q = 0) := by
    rw [hop]
    exact fun h => absurd h.1 (by decide)
  refine congrArg Host.Outcome.next ((crownIn_on_turn hc hturn _).trans ?_)
  rw [hctx]
  dsimp only
  rw [if_neg (not_not_of hp), if_neg hread, hr]
  dsimp only
  rw [if_neg (by rw [hst, hfree, frameTaken_zoneChip, hzone]; simp)]
  cases content <;> rfl

theorem unitReturned_readies {ctx unit : Nat} {x : Ctx} {r : RUnit} (hx : s.ctxs.look ctx = some x) (hq : x.q ≠ 1023)
    (hr : x.runits.look unit = some r) (content md : Nat) :
    (∃ q, (unitReturned s f ctx unit (some content) md).runit ctx unit = some q ∧ q.st = .ready ∧ q.alts = r.alts ∧
      q.made = some (unitWord content md)) ∧ (2, relTag ctx unit) ∈ (unitReturned s f ctx unit (some content) md).dma.fences := by
  let u := s.flits (ubpelPort f.port) (sramPort unit) unitFlits
  have hctxs : u.ctxs = s.ctxs := (State.flits_law s _ _ _).same .ctxs (by decide)
  have hux : u.ctxs.look ctx = some x := by rw [hctxs]; exact hx
  have hunit : u.runit ctx unit = some r := by
    unfold State.runit
    rw [hux]
    exact hr
  have hserves : (u.runitEdit ctx unit fun q => { q with made := some (unitWord content md) }).serves ctx = false := by
    have hlook : (u.runitEdit ctx unit fun q => { q with made := some (unitWord content md) }).ctxs.look ctx = some _ := Tbl.look_edit _ hux
    unfold State.serves
    rw [hlook]
    exact beq_eq_false_iff_ne.mpr hq
  obtain ⟨hready, hfence⟩ := unitRelease_readies (runitEdit_runit hunit _) hserves
  exact ⟨⟨_, hready, rfl, rfl, rfl⟩, hfence⟩

/-! ### SAG (R336) -/

include hc hturn hm in
theorem sag_fences (hstamp : s.canStamp = true) (hst : m.st = .active) :
    exec (.sag f) s = .next ((frameTaken s f).memberFence (f.port + 1) 5) := by
  refine (if_neg (by rw [hstamp]; decide)).trans (congrArg Host.Outcome.next ((crownIn_on_turn hc hturn _).trans ?_))
  rw [frameTaken_member hm]
  exact if_pos hst

/-! ### MEDIA_EVENT (R33, R329) -/

include hc hturn in
/-- A media event that does not wait yet is stamped, where the crown's tables let it act. -/
theorem memberMedia_stamps (hstamp : s.canStamp = true) {k : MediaKind} {ev : SysEv} {body : State → Nat → State}
    (hbody : exec (.mediaEvent f k) s = if (!s.canStamp) = true then .next s else .next (s.crownIn f body))
    (hgo : body (frameTaken s f) (f.port + 1) = State.sysGo (if (frameTaken s f).eventWaits (· == ev) then frameTaken s f else (frameTaken s f).enterSys ev))
    (hnew : s.eventWaits (· == ev) = false) : ∃ u, Same [.out, .cas] s u ∧ exec (.mediaEvent f k) s = .next (u.enterSys ev).sysGo := by
  refine ⟨frameTaken s f, frameTaken_same s f, hbody.trans ((if_neg (by rw [hstamp]; decide)).trans (congrArg Host.Outcome.next ?_))⟩
  refine (crownIn_on_turn hc hturn body).trans (hgo.trans ?_)
  rw [eventWaits_of frameTaken_gate, hnew]
  rfl

include hc hturn in
theorem failures_stamped (hstamp : s.canStamp = true) {die block : Nat} (hdie : die < 1024) (hblock : block < 8192) :
    (s.eventWaits (· == .blockFail (blkKey (dieKey (f.port + 1) die) block) 1 false) = false → ∃ u, Same [.out, .cas] s u ∧
      exec (.mediaEvent f (.programFail die block)) s = .next (u.enterSys (.blockFail (blkKey (dieKey (f.port + 1) die) block) 1 false)).sysGo) ∧
    (s.eventWaits (· == .blockFail (blkKey (dieKey (f.port + 1) die) block) 2 true) = false → ∃ u, Same [.out, .cas] s u ∧
      exec (.mediaEvent f (.eraseFail die block)) s = .next (u.enterSys (.blockFail (blkKey (dieKey (f.port + 1) die) block) 2 true)).sysGo) := by
  refine ⟨memberMedia_stamps hc hturn hstamp rfl ?_, memberMedia_stamps hc hturn hstamp rfl ?_⟩
  all_goals
    dsimp only
    rw [Nat.mod_eq_of_lt hdie, Nat.mod_eq_of_lt hblock]

include hc hturn in
theorem dieFail_stamped (hstamp : s.canStamp = true) {die : Nat} (hdie : die < 1024) (hgood : s.dieGood (dieKey (f.port + 1) die) = true) (cause : Nat)
    (hnew : s.eventWaits (· == .dieFail (dieKey (f.port + 1) die) cause) = false) : ∃ u, Same [.out, .cas] s u ∧
      exec (.mediaEvent f (.dieFail die cause)) s = .next (u.enterSys (.dieFail (dieKey (f.port + 1) die) cause)).sysGo := by
  refine memberMedia_stamps hc hturn hstamp rfl ?_ hnew
  dsimp only
  rw [Nat.mod_eq_of_lt hdie]
  exact if_pos ((dieGood_of (frameTaken_same s f .dies (by decide)) _).trans hgood)

include hc hturn in
theorem zoneLost_stamped (hstamp : s.canStamp = true) {zone : Nat} (hzone : s.zoneChip zone = f.port + 1)
    (hnew : s.eventWaits (· == .zoneLost zone) = false) : ∃ u, Same [.out, .cas] s u ∧
      exec (.mediaEvent f (.zoneLost zone)) s = .next (u.enterSys (.zoneLost zone)).sysGo :=
  memberMedia_stamps hc hturn hstamp rfl (if_pos (frameTaken_zoneChip.trans hzone)) hnew

include hc hturn in
theorem migrated_stamped (hstamp : s.canStamp = true) {zone : Nat} (hzone : s.zoneChip zone = f.port + 1) (hold : (s.zone zone).migOld.isSome = true)
    (hnew : s.eventWaits (· == .migrated zone) = false) : ∃ u, Same [.out, .cas] s u ∧
      exec (.mediaEvent f (.migrated zone)) s = .next (u.enterSys (.migrated zone)).sysGo := by
  refine memberMedia_stamps hc hturn hstamp rfl (if_pos ⟨frameTaken_zoneChip.trans hzone, ?_⟩) hnew
  unfold State.zone
  rw [frameTaken_same s f .zones (by decide)]
  exact hold

end Turn

end Sys2Proof.Proofs
end

section
/-! PROOFS. The digests and the votes of members, and the statement about the crown and its members (R33, R331, R333, R335, R446). -/

namespace Sys2Proof.Proofs

open Sys2Proof Sys2Proof.Machine Sys2Proof.Safety Sys2Proof.Laws

/-! ### Fences and readmissions that commit at once (R331, R335) -/

/-- What a fence leaves of the member's record, its own resynchronisation apart. -/
def fencedMember (m : Member) (reason stamp r : Nat) : Member :=
  { m with fenceStamp := stamp, resync := r, misses := 0, st := .fenced, reason := reason }

theorem fenceApply_member {s : State} {c : Nat} {m : Member} (h : s.cas.members.look c = some m) (reason stamp : Nat) :
    ∃ r, (s.fenceApply c reason stamp).cas.members.look c = some (fencedMember m reason stamp r) := by
  obtain ⟨warn, again, hclosed⟩ := fenceApply_closes s c reason stamp
  obtain ⟨_, hmember⟩ := fenceClosed_cas (fenceTold s c reason stamp) c warn again
  rw [hclosed, ioAccept_cas]
  rw [fenceTold_cas] at hmember
  exact hmember _ (memSt_look (memEdit_look h _) .fenced reason)

/-- With no entry waiting, a fence commits at once. -/
theorem memberFence_member {s : State} {c : Nat} {m : Member} (hbare : s.gate.entries = []) (h : s.cas.members.look c = some m) (reason : Nat) :
    ∃ r, (s.memberFence c reason).cas.members.look c = some (fencedMember m reason s.gate.next r) := by
  rw [memberFence_alone hbare]
  refine fenceApply_member ?_ reason _
  rw [sysCommitted_members]
  exact h

/-- The leases that a readmission sends. -/
def leasesSent (s : State) (c : Nat) (zs : List Nat) : State := forNats zs s fun s k => s.casSend (portOf c) 0 0x11 16 [1, k]

theorem leasesSent_sent (s : State) (c : Nat) (zs : List Nat) : Sent s (leasesSent s c zs) := Sent.fold zs _ (fun u _ => Sent.send u _ _ _ _ _) s

/-- A member as a readmission finds it. -/
def readmitted (s : State) (c : Nat) (zs : List Nat) : State := (s.memEdit c fun m => { m with resync := 0, leases := zs, misses := 0 }).memSt c .active 0

theorem unfenceApply_closes (s : State) (c : Nat) : ∃ zs, ∃ tell : Bool, s.unfenceApply c =
    (if tell then (leasesSent (readmitted s c zs) c zs).memNotices c else leasesSent (readmitted s c zs) c zs).ioAccept := ⟨_, _, rfl⟩

theorem unfenceApply_bare (s : State) (c : Nat) : KeepsBare s (s.unfenceApply c) := by
  obtain ⟨zs, tell, h⟩ := unfenceApply_closes s c
  rw [h]
  have hsent : KeepsBare s (leasesSent (readmitted s c zs) c zs) :=
    KeepsBare.trans (t := readmitted s c zs) (fun hs => memSt_bare _ c .active 0 hs) (KeepsBare.of_gate ((leasesSent_sent _ c zs).same .gate (by decide)))
  exact (KeepsBare.ite (hsent.trans (KeepsBare.of_law (State.memNotices_law _ c) (by decide))) hsent).trans (ioAccept_bare _)

theorem unfenceApply_member {s : State} {c : Nat} {m : Member} (h : s.cas.members.look c = some m) :
    ∃ zs, (s.unfenceApply c).cas.members.look c = some { m with resync := 0, leases := zs, misses := 0, st := .active, reason := 0 } := by
  obtain ⟨zs, tell, hclosed⟩ := unfenceApply_closes s c
  have hlook : (leasesSent (readmitted s c zs) c zs).cas.members.look c =
      some { m with resync := 0, leases := zs, misses := 0, st := .active, reason := 0 } := by
    rw [(leasesSent_sent _ c zs).members]
    exact memSt_look (memEdit_look h _) .active 0
  refine ⟨zs, ?_⟩
  rw [hclosed, ioAccept_cas]
  split
  · rw [(State.memNotices_law _ c).same .cas (by decide)]
    exact hlook
  · exact hlook

/-- With no entry waiting, a readmission commits at once. -/
theorem unfence_member {s : State} {c : Nat} {m : Member} (hbare : s.gate.entries = []) (h : s.cas.members.look c = some m) :
    ∃ zs, (s.casEvent (.unfence c)).cas.members.look c = some { m with resync := 0, leases := zs, misses := 0, st := .active, reason := 0 } := by
  rw [casEvent_alone hbare (t := (sysCommitted s (.unfence c)).unfenceApply c) (fun _ _ => rfl) (fun _ => rfl) (unfenceApply_bare _ c)]
  refine unfenceApply_member ?_
  rw [sysCommitted_members]
  exact h

/-! ### DIGEST (R332, R333, R335) -/

/-- How far the member's island is ahead, in ms. -/
def islandDrift (s : State) (islandNs : Nat) : Int := ((islandNs : Int) - (s.now : Int)) / 1000000

/-- The drift of a member's island, and whether it has a write that runs. -/
def driftNoted (s : State) (c islandNs : Nat) : State :=
  s.memEdit c fun m => { m with drift := islandDrift s islandNs, idle := !s.staging.any fun _ t => !t.complete && s.zoneChip t.zone == c }

/-- A digest that has come: the drift noted, and told of beyond 1 s. -/
def digestHeard (s : State) (c islandNs : Nat) : State :=
  if 1000 < islandDrift s islandNs ∨ islandDrift s islandNs < -1000 ∨ 10 ^ 9 < islandNs - s.now ∨ 10 ^ 9 < s.now - islandNs
  then (driftNoted s c islandNs).fire 182 [(islandDrift s islandNs % 2 ^ 32).toNat] else driftNoted s c islandNs

/-- What the comparison with the crown's latch leaves of the member's record. -/
def comparedMember (check : Nat) (shared : BitVec 256) (ok : Bool) (m : Member) : Member :=
  { m with shared := shared, check := check, matched := ok, misses := if ok then 0 else m.misses }

/-- A digest compared with the crown's latch. -/
def digestCompared (s : State) (c check : Nat) (shared latch : BitVec 256) : State :=
  { s.memEdit c (comparedMember check shared (decide (shared = latch))) with
    cas := { (s.memEdit c (comparedMember check shared (decide (shared = latch)))).cas with lastCheck := check, lastShared := latch } }

/-- What follows the comparison, by the member's state before it. -/
def digestEnds (s : State) (c : Nat) (m : Member) (ok : Bool) : State :=
  if ok then (if m.resync = 2 then s.casEvent (.unfence c) else s)
  else if m.st = .active then (s.fire 183).memberFence c 1
  else if m.resync = 2 then (s.fire 183).memEdit c fun m => { m with resync := 1 } else s.fire 183

theorem digestHeard_gate (s : State) (c islandNs : Nat) : (digestHeard s c islandNs).gate = s.gate := by
  unfold digestHeard
  split
  · exact (State.fire_law _ 182 _ 0 0x7ff none).same .gate (by decide)
  · rfl

theorem digestHeard_look {s : State} {c : Nat} {m : Member} (h : s.cas.members.look c = some m) (islandNs : Nat) :
    ∃ drift idle, (digestHeard s c islandNs).cas.members.look c = some { m with drift := drift, idle := idle } := by
  have hnoted : (driftNoted s c islandNs).cas.members.look c = some _ := memEdit_look h _
  refine ⟨_, _, Eq.trans ?_ hnoted⟩
  unfold digestHeard
  split
  · rw [(State.fire_law _ 182 _ 0 0x7ff none).same .cas (by decide)]
  · rfl

theorem digestCompared_look {s : State} {c : Nat} {m : Member} (h : s.cas.members.look c = some m) (check : Nat) (shared latch : BitVec 256) :
    (digestCompared s c check shared latch).cas.members.look c = some (comparedMember check shared (decide (shared = latch)) m) := memEdit_look h _

/-- A member after a comparison: in step again, fenced, or to be resynchronised anew. -/
theorem digestEnds_member {s : State} {c : Nat} {m : Member} (hbare : s.gate.entries = []) (h : s.cas.members.look c = some m) (old : Member) (ok : Bool)
    (hst : m.st = old.st) :
    ∃ n, (digestEnds s c old ok).cas.members.look c = some n ∧ n.shared = m.shared ∧ n.check = m.check ∧ n.matched = m.matched ∧
      (ok = true → (old.resync = 2 → n.st = .active ∧ n.resync = 0) ∧ (old.resync ≠ 2 → n.st = old.st) ∧ (m.misses = 0 → n.misses = 0)) ∧
      (ok = false → old.st = .active → n.st = .fenced ∧ n.reason = 1 ∧ n.fenceStamp = s.gate.next) ∧
      (ok = false → old.st ≠ .active → old.resync = 2 → n.resync = 1) := by
  have hfire := (State.fire_law s 183 [] 0 0x7ff none).same
  have htold : (s.fire 183).cas.members.look c = some m := by
    rw [hfire .cas (by decide)]
    exact h
  unfold digestEnds
  cases ok with
  | true =>
    rw [if_pos rfl]
    by_cases hres : old.resync = 2
    · obtain ⟨zs, hn⟩ := unfence_member hbare h
      rw [if_pos hres]
      exact ⟨_, hn, rfl, rfl, rfl, fun _ => ⟨fun _ => ⟨rfl, rfl⟩, fun hno => absurd hres hno, fun _ => rfl⟩, nofun, nofun⟩
    · rw [if_neg hres]
      exact ⟨m, h, rfl, rfl, rfl, fun _ => ⟨fun hyes => absurd hyes hres, fun _ => hst, id⟩, nofun, nofun⟩
  | false =>
    rw [if_neg Bool.false_ne_true]
    by_cases hact : old.st = .active
    · have hgate := hfire .gate (by decide)
      obtain ⟨r, hn⟩ := memberFence_member ((congrArg Gate.entries hgate).trans hbare) htold 1
      rw [if_pos hact]
      exact ⟨_, hn, rfl, rfl, rfl, nofun, fun _ _ => ⟨rfl, rfl, congrArg Gate.next hgate⟩, fun _ hno => absurd hact hno⟩
    · rw [if_neg hact]
      by_cases hres : old.resync = 2
      · rw [if_pos hres]
        exact ⟨_, memEdit_look htold _, rfl, rfl, rfl, nofun, fun _ hyes => absurd hyes hact, fun _ _ _ => rfl⟩
      · rw [if_neg hres]
        exact ⟨m, htold, rfl, rfl, rfl, nofun, fun _ hyes => absurd hyes hact, fun _ _ hyes => absurd hyes hres⟩

section Turn
variable {s : State} {f : Frame} {m : Member} (hc : s.cas.crown = true) (hturn : FrameTurn s f 5)
  (hm : s.cas.members.look (f.port + 1) = some m)

include hc hturn hm in
/-- A digest of the check tick that the crown has latched is compared with that latch. -/
theorem digest_compares {check : Nat} (hcheck : s.gate.tickCheck = check) (hstamp : s.canStamp = true) (hsnap : m.resync = 2 → m.snapAt < check)
    (shared : BitVec 256) (island : Nat) :
    let u := digestHeard (frameTaken s f) (f.port + 1) island
    exec (.digest f check shared island) s = .next (digestEnds (digestCompared u (f.port + 1) check shared s.gate.tickShared) (f.port + 1)
      (u.member (f.port + 1)) (decide (shared = s.gate.tickShared))) := by
  intro u
  obtain ⟨drift, idle, hlook⟩ := digestHeard_look (frameTaken_look hm) island
  have hmember : u.member (f.port + 1) = { m with contact := s.now, drift := drift, idle := idle } := get_of_look hlook {}
  have hcompares : ¬(check ≠ s.gate.tickCheck ∨ (u.member (f.port + 1)).resync = 2 ∧ check ≤ (u.member (f.port + 1)).snapAt) := by
    rw [hmember, hcheck]
    rintro (hne | ⟨hres, hle⟩)
    · exact hne rfl
    · exact absurd (hsnap hres) (Nat.not_lt.mpr hle)
  refine (if_neg (by rw [hcheck, hstamp]; simp)).trans (congrArg Host.Outcome.next ((crownIn_on_turn hc hturn _).trans ?_))
  exact (if_neg hcompares).trans rfl

include hc hturn hm in
theorem digest_member {check : Nat} (hcheck : s.gate.tickCheck = check) (hstamp : s.canStamp = true) (hbare : s.gate.entries = [])
    (hsnap : m.resync = 2 → m.snapAt < check) (shared : BitVec 256) (island : Nat) :
    ∃ t, exec (.digest f check shared island) s = .next t ∧ ∃ n, t.cas.members.look (f.port + 1) = some n ∧ n.shared = shared ∧ n.check = check ∧
      n.matched = decide (shared = s.gate.tickShared) ∧
      (shared = s.gate.tickShared → n.misses = 0 ∧ (m.resync = 2 → n.st = .active ∧ n.resync = 0) ∧ (m.resync ≠ 2 → n.st = m.st)) ∧
      (shared ≠ s.gate.tickShared → m.st = .active → n.st = .fenced ∧ n.reason = 1 ∧ n.fenceStamp = s.gate.next) ∧
      (shared ≠ s.gate.tickShared → m.st ≠ .active → m.resync = 2 → n.resync = 1) := by
  refine ⟨_, digest_compares hc hturn hm hcheck hstamp hsnap shared island, ?_⟩
  obtain ⟨drift, idle, hlook⟩ := digestHeard_look (frameTaken_look hm) island
  have hgate := (digestHeard_gate (frameTaken s f) (f.port + 1) island).trans frameTaken_gate
  generalize digestHeard (frameTaken s f) (f.port + 1) island = u at hlook hgate
  rw [show u.member (f.port + 1) = _ from get_of_look hlook {}]
  obtain ⟨n, hn, hshared, hchk, hmatched, hsame, hfenced, hagain⟩ := digestEnds_member (s := digestCompared u (f.port + 1) check shared s.gate.tickShared)
    (show u.gate.entries = [] by rw [hgate]; exact hbare) (digestCompared_look hlook check shared s.gate.tickShared)
    { m with contact := s.now, drift := drift, idle := idle } (decide (shared = s.gate.tickShared)) rfl
  refine ⟨n, hn, hshared, hchk, hmatched, fun heq => ?_, fun hne hact => ?_, fun hne => hagain (decide_eq_false hne)⟩
  · obtain ⟨hres, hno, hmisses⟩ := hsame (decide_eq_true heq)
    exact ⟨hmisses (if_pos (decide_eq_true heq)), hres, hno⟩
  · obtain ⟨hst, hreason, hstampd⟩ := hfenced (decide_eq_false hne) hact
    exact ⟨hst, hreason, hstampd.trans (congrArg Gate.next hgate)⟩

end Turn

/-! ### VOTE (R446) -/

theorem mem_put_of_ne {α : Type} {k c : Nat} {v w : α} (hk : k ≠ c) : ∀ {t : Tbl α}, (k, v) ∈ t → (k, v) ∈ t.put c w
  | (a, x) :: t, h => by
    unfold Tbl.put
    split
    · next ha =>
      rcases List.mem_cons.mp h with heq | htail
      · exact absurd ((congrArg Prod.fst heq).trans ha) hk
      · exact List.mem_cons_of_mem _ htail
    · split
      · exact List.mem_cons_of_mem _ h
      · rcases List.mem_cons.mp h with heq | htail
        · exact heq ▸ List.mem_cons_self
        · exact List.mem_cons_of_mem _ (mem_put_of_ne hk htail)

theorem mem_edit_of_ne {α : Type} {k c : Nat} {v : α} {t : Tbl α} (hk : k ≠ c) (h : (k, v) ∈ t) (f : α → α) : (k, v) ∈ t.edit c f := by
  unfold Tbl.edit
  split
  · exact mem_put_of_ne hk h
  · exact h

/-- While another member's vote is out, not every vote is in, whatever this member's record becomes. -/
theorem votes_open {t : Tbl Member} {c : Nat} (h : t.any (fun k m => k != c && m.vote != 1) = true) (f g : Member → Member) :
    ((t.edit c f).edit c g).all (fun _ m => m.vote == 1) = false := by
  obtain ⟨⟨k, m⟩, hmem, hopen⟩ := List.any_eq_true.mp h
  obtain ⟨hk, hvote⟩ := Bool.and_eq_true_iff.mp hopen
  refine List.all_eq_false.mpr ⟨(k, m), mem_edit_of_ne (bne_iff_ne.mp hk) (mem_edit_of_ne (bne_iff_ne.mp hk) hmem f) g, ?_⟩
  exact fun hall => absurd (beq_iff_eq.mp hall) (bne_iff_ne.mp hvote)

section Turn
variable {s : State} {f : Frame} {m : Member} (hc : s.cas.crown = true) (hturn : FrameTurn s f 5) (hstep : s.cas.voteStep = 1)

include hc hturn hstep in
/-- A vote READY while others are out is counted. -/
theorem voteReady_counts (hopen : s.cas.members.any (fun k m => k != f.port + 1 && m.vote != 1) = true) (hself : s.nv.pldmSelf = false) :
    exec (.vote f .ready) s = .next ((frameTaken s f).memEdit (f.port + 1) fun m => { m with vote := 1 }) := by
  let u := (frameTaken s f).memEdit (f.port + 1) fun m => { m with vote := 1 }
  have hvotes : ¬(u.cas.members.all (fun _ m => m.vote == 1) = true) := ne_true_of_eq_false (votes_open hopen _ _)
  have hoff : u.selfCheck = u := selfCheck_off u ((congrArg Nv.pldmSelf (frameTaken_same s f .nv (by decide))).trans hself)
  refine congrArg Host.Outcome.next ((crownIn_on_turn hc hturn _).trans ((if_neg (not_not_of hstep)).trans ?_))
  exact (congrArg State.selfCheck (if_neg hvotes)).trans hoff

include hc hturn hstep in
/-- A vote FAIL is kept in the failure record, and ends the commit. -/
theorem voteFail_aborts (order : Nat) : ∃ u : State, u.nv.failCount = s.nv.failCount + 1 ∧
    exec (.vote f (.fail order)) s = .next (u.voteAbort (stFwProhibited false)) := by
  refine ⟨_, ?_, congrArg Host.Outcome.next ((crownIn_on_turn hc hturn _).trans (if_neg (not_not_of hstep)))⟩
  exact (failRecOf_count _ _ _ _ _ _ _).trans (congrArg (fun n : Nv => n.failCount + 1) (frameTaken_same s f .nv (by decide)))

end Turn

/-! ### The statement -/

/-- Settles O47: each frame on its turn acts as its own lemma says; fences and readmissions commit at once where no entry waits. -/
theorem crownHearsItsMembers : Obligations.CrownHearsItsMembers := by
  intro s f m hc hturn hm c
  refine ⟨fun stamp st x hst hzone hopen hdata hx hp => ?_, fun ctx unit content md x r hx hp hop hq hr hqueued hfree hzone => ⟨?_, ?_⟩,
    fun check shared island hcheck hstamp hbare hsnap => digest_member hc hturn hm hcheck hstamp hbare hsnap shared island,
    fun hstamp hact hbare => ?_, fun hstamp => ?_, fun hstep => ⟨fun hopen hself => ?_, fun order => ?_⟩, fun hstep => ?_⟩
  · refine ⟨_, staged_acts hc hturn hm hst hzone hopen hdata, fun hact hfence => ?_, fun hno => ?_⟩
    · have hsame := frameTaken_same s f
      have hgo : ¬(m.st ≠ .active ∨ s.fenceStamped c = true) := fun h => h.elim (absurd hact) (ne_true_of_eq_false hfence)
      rw [if_neg hgo, (State.releaseUnits_law _ stamp _).same .ctxs (by decide)]
      refine stageDone_completes (x := x) ?_ ?_ (by rw [hp]; decide)
      · rw [hsame .staging (by decide)]
        exact hst
      · rw [hsame .ctxs (by decide)]
        exact hx
    · rw [if_pos hno]
      exact frameTaken_same s f
  · have hctx : (frameTaken s f).ctxs.look ctx = some x := (congrArg (Tbl.look · ctx) (frameTaken_same s f .ctxs (by decide))).trans hx
    exact ⟨_, readData_returns hc hturn hx hp hop hr hqueued hfree hzone (some content) md, unitReturned_readies hctx hq hr content md⟩
  · have hctx : (frameTaken s f).ctxs.look ctx = some x := (congrArg (Tbl.look · ctx) (frameTaken_same s f .ctxs (by decide))).trans hx
    have hserves : (frameTaken s f).serves ctx = false := by
      unfold State.serves
      rw [hctx]
      exact beq_eq_false_iff_ne.mpr hq
    obtain ⟨y, hy, hdone, hstatus⟩ := unrecovered_ends hctx (by rw [hp]; decide) hserves unit
    exact ⟨_, y, readData_returns hc hturn hx hp hop hr hqueued hfree hzone none md, hy, hdone, hstatus⟩
  · have hgate := frameTaken_gate (s := s) (f := f)
    obtain ⟨r, hn⟩ := memberFence_member ((congrArg Gate.entries hgate).trans hbare) (frameTaken_look hm) 5
    exact ⟨_, sag_fences hc hturn hm hstamp hact, _, hn, rfl, rfl, congrArg Gate.next hgate⟩
  · exact ⟨fun die block hdie hblock => failures_stamped hc hturn hstamp hdie hblock,
      fun die cause hdie hgood => dieFail_stamped hc hturn hstamp hdie hgood cause,
      fun zone hzone => ⟨zoneLost_stamped hc hturn hstamp hzone, migrated_stamped hc hturn hstamp hzone⟩⟩
  · refine ⟨_, voteReady_counts hc hturn hstep hopen hself, ?_, _, memEdit_look (frameTaken_look hm) _, rfl⟩
    exact Same.seq (frameTaken_same s f) (memEdit_same _ _ _) (by decide) (by decide)
  · obtain ⟨u, hcount, hexec⟩ := voteFail_aborts hc hturn hstep order
    obtain ⟨hvote, hact, hself, hkept⟩ := voteAbort_ended u (stFwProhibited false)
    exact ⟨_, hexec, hvote, hact, hself, hkept.trans hcount⟩
  · obtain ⟨hvote, hact, hself, _⟩ := voteAbort_ended s (stFwProhibited false)
    exact ⟨_, if_neg (by rw [hc, hstep]; decide), hvote, hact, hself⟩

end Sys2Proof.Proofs
end
